-- ==== Sys2Proof/Syntax.lean ====
section
/-! DEFINITION. The syntax of the machine's steps: operands (R40, R41), the four full-word layouts (R35 to R39),
pair words (R51), the data that outside events carry, and `Instr`, one constructor per row of the opcode table. -/

namespace Sys2Proof

/-- The special registers of R41, in the order of their codes 0xD0 to 0xED. -/
inductive Special where
  | lane | slice | group | tlane | team | teamX | teamY | teamZ | nteam | cluster | role | lcore | pcore
  | launch | spb | args | leafX | leafY | leafZ | leafH | draws | cycle | fmr | kact | status | phase
  | round | die | ctx | tstep
  deriving DecidableEq, Repr

/-- An operand byte (R40). -/
inductive Opd where
  | v (n : Fin 128)
  | s (n : Fin 64)
  | k (n : Fin 8)
  | x (n : Fin 8)
  | sp (r : Special)
  | zero
  deriving DecidableEq, Repr

/-- The type codes 0 to 12 of R36. -/
inductive Ty where
  | b32 | i32 | n32 | i64 | n64 | i16x2 | n16x2 | i8x4 | n8x4 | f32 | f64 | f16x2 | bf16x2
  deriving DecidableEq, Repr

/-- The rounding modes of MODB 10:9 (R36, R70). -/
inductive Rnd where
  | rne | rtz | rdn | rup
  deriving DecidableEq, Repr

/-- The conditions 0 to 14 of R39. -/
inductive Cond where
  | eq | ne | lt | ge | lo | hs | mi | pl | vs | vc | gt | le | uo | or | al
  deriving DecidableEq, Repr

/-- The access widths of MODM 7:5 (R37). -/
inductive Width where
  | w8 | w16 | w32 | w64 | w128
  deriving DecidableEq, Repr

/-- An R-type word (R35, R36): marker, guard, operands, and the modifier fields of MODA and MODB. A field that the
instruction does not use holds its zero: `v0`, `b32`, 0, `rne`, false. -/
structure RWord where
  s : Bool := false
  k : Fin 8 := 0
  d : Opd := .v 0
  a : Opd := .v 0
  b : Opd := .v 0
  c : Opd := .v 0
  ty : Ty := .b32
  m : Fin 16 := 0
  rnd : Rnd := .rne
  sat : Bool := false
  negA : Bool := false
  negB : Bool := false
  negC : Bool := false
  lo : Fin 32 := 0
  deriving DecidableEq, Repr

/-- An I-type word (R35, R38). -/
structure IWord where
  s : Bool := false
  k : Fin 8 := 0
  d : Opd := .v 0
  a : Opd := .v 0
  modi : Fin 8 := 0
  imm : W32 := 0
  deriving DecidableEq, Repr

/-- An M-type word (R35, R37). `sx` is MODM bit 2, `op` MODM 1:0, `scale` the code in MODM 4:3. -/
structure MWord where
  s : Bool := false
  k : Fin 8 := 0
  d : Opd := .v 0
  a : Opd := .zero
  b : Opd := .zero
  width : Width := .w8
  scale : Fin 4 := 0
  sx : Bool := false
  op : Fin 4 := 0
  off : BitVec 19 := 0
  deriving DecidableEq, Repr

/-- A B-type word (R35, R39, R151). `pt` is bit 51; bits 53:52 are reserved. -/
structure BWord where
  s : Bool := false
  pt : Bool := false
  cc : Cond := .eq
  kt : Fin 8 := 0
  st : Fin 64 := 0
  disp : W32 := 0
  deriving DecidableEq, Repr

/-- The pair operations POP7 0x00 to 0x15 (R54). -/
inductive PairOp where
  | nop | mov | iadd | isub | and | or | xor | shl | shr | sar | imin | imax | imul | fadd | fsub | fmul
  | fmin | fmax | fabs | fneg | i2f | f2i
  deriving DecidableEq, Repr

/-- The source of a pair slot (R51): a register or IMM8. -/
inductive PairSrc where
  | reg (n : Fin 64)
  | imm (v : BitVec 8)
  deriving DecidableEq, Repr

/-- One slot of a pair word (R51). -/
structure PSlot where
  op : PairOp := .nop
  k : Fin 8 := 0
  d : Fin 64 := 0
  src : PairSrc := .reg 0
  deriving DecidableEq, Repr

/-- A pair word (R51). -/
structure PWord where
  s : Bool := false
  s0 : PSlot := {}
  s1 : PSlot := {}
  deriving DecidableEq, Repr

/-- The fields of a context table entry that CREATE carries (R345, R392). -/
structure CtxFields where
  ccore : Nat := 0
  cores : Nat := 576
  wayMask : BitVec 16 := 0
  debugCtl : BitVec 2 := 0
  trapn : Nat := 1
  ptroot : Nat := 0
  mapbase : Nat := 0
  save : Nat := 0
  trapbase : Nat := 0
  slice : Nat := 0
  deriving DecidableEq, Repr, Inhabited

/-- What a RoCE v2 packet asks for (R387, R389 to R392). -/
inductive PacketOp where
  /-- RDMA WRITE of a message slot of the inbound ring: its length word and payload (R389). -/
  | writeInbound (ctx slot len : Nat) (payload : List Byte)
  /-- RDMA WRITE to control memory over the management connection (R391). -/
  | writeControl (ctx off : Nat) (bytes : List Byte)
  /-- RDMA READ of control memory or of blocks 0x10 to 0x12 over the management connection (R391). -/
  | readBlock (ctx block off len : Nat)
  /-- The response that brings host memory bytes at a type-5 target address (R388, R226). -/
  | hostBytes (ctx target : Nat) (bytes : List Byte)
  /-- RDMA WRITE into the reserved second-tier region or a checkpoint image (R398, R399). -/
  | writeReserved (addr : Nat) (bytes : List Byte)
  /-- RDMA READ of the reserved second-tier region: the host reads a checkpoint image (R398). -/
  | readReserved (addr len : Nat)
  /-- SEND on the management connection: a host command (R392). -/
  | send (bytes : List Byte)
  deriving DecidableEq, Repr

/-- The network layer of a packet (R387). -/
inductive Net where
  | ipv4 | ipv6 | other
  deriving DecidableEq, Repr, Inhabited

/-- A received Ethernet packet (R387): its network layer, the port it came in by and the address it is sent to, its frame and transport. -/
structure Packet where
  net : Net := .ipv4
  port : Nat := 0
  dst : Nat := 0
  frame : Nat
  udpPort : Nat
  reliable : Bool
  atomic : Bool
  op : PacketOp
  deriving DecidableEq, Repr

/-- A wire value of R88: the fixed-point part and the three flags; `Wire.bytes` lays it out in 128 bits. -/
structure Wire where
  w : Int := 0
  pinf : Bool := false
  ninf : Bool := false
  nan : Bool := false
  deriving DecidableEq, Repr, Inhabited

/-- What a remote participant sends for one collective step (R258 to R260). -/
inductive CollMsg where
  /-- the first flit of a contribution: what it is, and how many flits bring its values -/
  | data (op : Nat) (ty : Ty) (count : Nat) (x : Int) (root : Nat) (poison nv rnx rsat : Bool) (flits : Nat)
  | withdraw (leave : Bool)
  /-- a reduction flit: 15 wire values of 16 bytes each (R88, R393) -/
  | wires (payload : List Byte)
  /-- up to 240 bytes of a contribution that is not summed -/
  | raw (bs : List Byte)
  deriving DecidableEq, Repr

/-- What a fabric flit carries (R393 to R395). -/
inductive FlitData where
  | coll (ctx entry step rank : Nat) (msg : CollMsg)
  /-- remote memory bytes at a type-7 target address, as a copy will read them (R394) -/
  | remote (target : Nat) (bytes : List Byte)
  /-- a remote module's write to a physical address of this module: bit 43 selects the second tier (R394) -/
  | write (addr : Nat) (bytes : List Byte)
  deriving DecidableEq, Repr

/-- The kind in a flit's header: 0 the start of a contribution, 1 a withdrawal, 2 a reduction flit, 3 other contribution data, 4 remote
memory, 5 a write (entry 45). -/
def FlitData.kind : FlitData → Nat
  | .coll _ _ _ _ (.data ..) => 0
  | .coll _ _ _ _ (.withdraw _) => 1
  | .coll _ _ _ _ (.wires _) => 2
  | .coll _ _ _ _ (.raw _) => 3
  | .remote _ _ => 4
  | .write _ _ => 5
/-- The payload is 240 bytes: 15 wire values of 16 bytes, or 240 bytes of data (R393). -/
def FlitData.fits : FlitData → Bool
  | .coll _ _ _ _ (.wires bs) => bs.length == 240
  | .coll _ _ _ _ (.raw bs) | .remote _ bs | .write _ bs => bs.length ≤ 240
  | _ => true

/-- A flit (R393): the module id and the sequence number of its header, whether its check passes, how many tries it has had, and its
payload. -/
structure Flit where
  ok : Bool
  tries : Nat
  data : FlitData
  src : Nat := 0
  seq : Nat := 0
  deriving DecidableEq, Repr

/-- A firmware image with its Ed25519 signature (R364). -/
structure FwImage where
  body : List Byte
  sig : List Byte
  deriving DecidableEq, Repr

/-- A debugger's access to a group image (R363). -/
inductive ImgAccess where
  | read
  | write (off : Nat) (bytes : List Byte)
  deriving DecidableEq, Repr

/-- Where an uncorrectable error strikes (R100, R183, R254, R396, R400). -/
inductive ErrTarget where
  | memory (addr : Nat)
  | vreg (gid reg lane : Nat)
  | sreg (gid reg slice : Nat)
  | kreg (gid reg : Nat)
  | tile (gid tile elem : Nat)
  | bquarter (tid set gen quarter word : Nat)
  /-- the bytes of a unit that a commit image or a snapshot holds apart from the live ones (R193, R203) -/
  | preImage (tid unit bad : Nat)
  /-- a special register's copy: by lane, by slice, or 0 (R92, R100) -/
  | special (gid : Nat) (r : Special) (unit : Nat)
  /-- a line on its way over a die-to-die link: the 128-byte line of memory that an operation was moving (R254, R396) -/
  | transfer (op line : Nat)
  /-- a whole stack of the first tier (R189, R400) -/
  | stack (die stack : Nat)
  deriving DecidableEq, Repr

/-- An uncorrectable error in a 64-byte unit of a scratchpad: bit i of `bad` names byte i (R203). -/
structure Strike where
  unit : Nat
  bad : Nat
  deriving DecidableEq, Repr

/-- One constructor per row of the opcode table: the words, and the machine's and the world's events. -/
inductive Instr where
  /-- NOP (R102). Does nothing; with S set it acts as a pure marker. -/
  | nop (f : RWord)
  /-- MOV (R103). Copies a source register's bits into a vector or scalar destination. -/
  | mov (f : RWord)
  /-- MOVI (R104). Places the 32-bit immediate in the destination in the form that MODI selects. -/
  | movi (f : IWord)
  /-- MOVH (R104). Sets bits 63:32 of a scalar register to the immediate and keeps bits 31:0. -/
  | movh (f : IWord)
  /-- RDLN (R105). Each executing slice reads a vector register from a lane it names. -/
  | rdln (f : RWord)
  /-- WRLN (R105). Each executing slice writes a scalar value into a vector register of a lane it names. -/
  | wrln (f : RWord)
  /-- SHFL (R105). Moves vector values between the lanes of the issuing sub-gang in idx, up, dn or bfly mode. -/
  | shfl (f : RWord)
  /-- SEL (R106). Each executing lane selects A or B according to its bit in a mask register. -/
  | sel (f : RWord)
  /-- IADD (R108). Integer addition, wrapping or saturating, with optional flag setting. -/
  | iadd (f : RWord)
  /-- ISUB (R108). Integer subtraction, wrapping or saturating, with optional flag setting. -/
  | isub (f : RWord)
  /-- IMUL (R108). Low part of an integer product, wrapping or saturating. -/
  | imul (f : RWord)
  /-- IMULH (R108). High part of an integer product. -/
  | imulh (f : RWord)
  /-- IMAD (R108). Integer multiply-add. -/
  | imad (f : RWord)
  /-- IMIN (R108). Integer minimum. -/
  | imin (f : RWord)
  /-- IMAX (R108). Integer maximum. -/
  | imax (f : RWord)
  /-- IABS (R108). Integer absolute value. -/
  | iabs (f : RWord)
  /-- INEG (R108). Integer negation. -/
  | ineg (f : RWord)
  /-- AND (R109). Bitwise AND, with optional complement of each operand. -/
  | and (f : RWord)
  /-- OR (R109). Bitwise OR, with optional complement of each operand. -/
  | or (f : RWord)
  /-- XOR (R109). Bitwise XOR, with optional complement of each operand. -/
  | xor (f : RWord)
  /-- NOT (R109). Bitwise complement. -/
  | not (f : RWord)
  /-- SHL (R109). Shift left by a register amount. -/
  | shl (f : RWord)
  /-- SHR (R109). Logical shift right by a register amount. -/
  | shr (f : RWord)
  /-- SAR (R109). Arithmetic shift right by a register amount. -/
  | sar (f : RWord)
  /-- ROT (R109). Rotate left. -/
  | rot (f : RWord)
  /-- POPC (R109). Counts the 1 bits of the operand. -/
  | popc (f : RWord)
  /-- CLZ (R109). Counts the leading zero bits of the operand. -/
  | clz (f : RWord)
  /-- BREV (R109). Reverses the bit order of the operand. -/
  | brev (f : RWord)
  /-- BFX (R110). Extracts a bit field, with optional sign extension. -/
  | bfx (f : RWord)
  /-- BFI (R110). Inserts a bit field into the destination. -/
  | bfi (f : RWord)
  /-- LEA (R111). Forms a 64-bit address A + B times 2^N. -/
  | lea (f : RWord)
  /-- ICMP (R112). Integer compare into a mask register or into the slice flags. -/
  | icmp (f : RWord)
  /-- IADDI (R114). Adds a sign-extended immediate, with optional flag setting. -/
  | iaddi (f : IWord)
  /-- ANDI (R114). Bitwise AND with an immediate. -/
  | andi (f : IWord)
  /-- ORI (R114). Bitwise OR with an immediate. -/
  | ori (f : IWord)
  /-- XORI (R114). Bitwise XOR with an immediate. -/
  | xori (f : IWord)
  /-- SHLI (R114). Shift left by an immediate amount. -/
  | shli (f : IWord)
  /-- SHRI (R114). Logical or arithmetic shift right by an immediate amount. -/
  | shri (f : IWord)
  /-- ICMPI (R113). Integer compare against a 28-bit immediate, into a mask or into the flags. -/
  | icmpi (f : IWord)
  /-- IMULI (R114). Low part of the product with a sign-extended immediate. -/
  | imuli (f : IWord)
  /-- KAND (R115). Mask AND over the issuing sub-gang's lanes. -/
  | kand (f : RWord)
  /-- KOR (R115). Mask OR over the issuing sub-gang's lanes. -/
  | kor (f : RWord)
  /-- KXOR (R115). Mask XOR over the issuing sub-gang's lanes. -/
  | kxor (f : RWord)
  /-- KNOT (R115). Mask complement over the issuing sub-gang's lanes. -/
  | knot (f : RWord)
  /-- KMOV (R115). Moves mask bits between mask, scalar and vector registers. -/
  | kmov (f : RWord)
  /-- KPOP (R115). Counts the set bits of a mask register. -/
  | kpop (f : RWord)
  /-- KFFS (R115). Finds the lowest set bit of a mask register. -/
  | kffs (f : RWord)
  /-- KSET (R115). Sets a mask register to the guard AND KACT. -/
  | kset (f : RWord)
  /-- SFMT (R117). Sets FMR in each executing slice, or refuses the value with fault 0x11. -/
  | sfmt (f : IWord)
  /-- PRMT (R107). Permutes bytes of two sources, with optional sign replication. -/
  | prmt (f : RWord)
  /-- PACK (R116). Packs narrowed integers into one register. -/
  | pack (f : RWord)
  /-- UNPK (R116). Extracts and extends one element of a packed register. -/
  | unpk (f : RWord)
  /-- CLRST (R118). Reads STATUS and clears the selected bits in the sub-gang's slice copies, as one indivisible step. -/
  | clrst (f : RWord)
  /-- FADD (R122). Floating-point addition with one rounding. -/
  | fadd (f : RWord)
  /-- FSUB (R122). Floating-point subtraction with one rounding. -/
  | fsub (f : RWord)
  /-- FMUL (R122). Floating-point multiplication with one rounding. -/
  | fmul (f : RWord)
  /-- FFMA (R122). Fused multiply-add with one rounding. -/
  | ffma (f : RWord)
  /-- FMIN (R124). minimumNumber of two operands. -/
  | fmin (f : RWord)
  /-- FMAX (R124). maximumNumber of two operands. -/
  | fmax (f : RWord)
  /-- FABS (R125). Clears the sign bit of each element. -/
  | fabs (f : RWord)
  /-- FNEG (R125). Inverts the sign bit of each element. -/
  | fneg (f : RWord)
  /-- FCMP (R126). Floating-point compare into a mask register or into the slice flags. -/
  | fcmp (f : RWord)
  /-- FCLASS (R128). Writes a one-hot class mask of the operand. -/
  | fclass (f : RWord)
  /-- FDIV (R129). Correctly rounded division, as a V-class result. -/
  | fdiv (f : RWord)
  /-- FSQRT (R129). Correctly rounded square root, as a V-class result. -/
  | fsqrt (f : RWord)
  /-- FRCP (R130). Correctly rounded f32 reciprocal, as a V-class result. -/
  | frcp (f : RWord)
  /-- FRSQ (R130). Correctly rounded f32 reciprocal square root, as a V-class result. -/
  | frsq (f : RWord)
  /-- FEX2 (R130). Correctly rounded f32 base-2 exponential, as a V-class result. -/
  | fex2 (f : RWord)
  /-- FLG2 (R130). Correctly rounded f32 base-2 logarithm, as a V-class result. -/
  | flg2 (f : RWord)
  /-- FSIN (R130). Correctly rounded f32 sine, as a V-class result. -/
  | fsin (f : RWord)
  /-- FCOS (R130). Correctly rounded f32 cosine, as a V-class result. -/
  | fcos (f : RWord)
  /-- FRND (R134). Rounds to an integral value in the same format. -/
  | frnd (f : RWord)
  /-- FSCL (R135). Scales the operand by 2^n. -/
  | fscl (f : RWord)
  /-- FGEXP (R136). Extracts the exponent or the significand of the operand. -/
  | fgexp (f : RWord)
  /-- FCPS (R125). Replaces the sign bit of each element according to the variant. -/
  | fcps (f : RWord)
  /-- FADDI (R137). Adds a floating-point immediate. -/
  | faddi (f : IWord)
  /-- FMULI (R137). Multiplies by a floating-point immediate. -/
  | fmuli (f : IWord)
  /-- FFMAI (R137). Horner step D times A plus an immediate, with one rounding. -/
  | ffmai (f : IWord)
  /-- F2F (R139). Converts between floating-point formats, including OFP8. -/
  | f2f (f : RWord)
  /-- F2I (R140). Converts floating point to an integer. -/
  | f2i (f : RWord)
  /-- I2F (R141). Converts an integer to floating point. -/
  | i2f (f : RWord)
  /-- BPACK (R143). Encodes 16 f32 lanes of each half-group into a shared-block block. -/
  | bpack (f : RWord)
  /-- BUNPK (R143). Decodes a shared-block block into 16 f32 lanes of each half-group. -/
  | bunpk (f : RWord)
  /-- FDP2 (R142). Two-element 16-bit dot product added to f32, with one rounding. -/
  | fdp2 (f : RWord)
  /-- PAIR_WORD (R52). Executes the two vector slots of a pair word; both slots read before either writes. -/
  | pairWord (f : PWord)
  /-- BRA (R152). Conditional branch on the slice flags, which parts the group under PT. -/
  | bra (f : BWord)
  /-- BKZ (R152). Branch when the slice's bits of a mask are all zero. -/
  | bkz (f : BWord)
  /-- BKNZ (R152). Branch when some bit of the slice's part of a mask is set. -/
  | bknz (f : BWord)
  /-- LOOP (R152). Decrements a scalar counter and branches while it is nonzero. -/
  | loop (f : BWord)
  /-- JMPI (R153). Indirect jump, which may part the group into one path per target. -/
  | jmpi (f : RWord)
  /-- CALL (R154). Pushes the return address on each slice's call stack and branches. -/
  | call (f : BWord)
  /-- CALLI (R154). Indirect call with an agreed target. -/
  | calli (f : RWord)
  /-- RET (R154). Pops the call stacks and returns to the agreed address. -/
  | ret (f : RWord)
  /-- REGANG (R155). Parks the sub-gang until the innermost record can close, then closes it and rejoins the paths. -/
  | regang (f : RWord)
  /-- KSYNC (R156). Parks the sub-gang until the member set has arrived, then joins it without closing a record. -/
  | ksync (f : RWord)
  /-- EXIT (R157). Retires the selected lanes and discards their pending results. -/
  | exit (f : RWord)
  /-- MBLD (R170). Deposits the group's assigned B quarters into the broadcast buffer generation. -/
  | mbld (f : RWord)
  /-- MMA (R171). Waits for its B generation and queues an exact-sum accumulation into a tile. -/
  | mma (f : RWord)
  /-- MZRO (R173). Zeroes a tile and clears its flag copy. -/
  | mzro (f : RWord)
  /-- MDRN (R178). Drains one chunk of eight tile columns to registers. -/
  | mdrn (f : RWord)
  /-- MDRS (R175). Drains tile rows to the team scratchpad, plainly or as a team reduction. -/
  | mdrs (f : RWord)
  /-- MDRM (R176). Drains tile rows to main memory, as a plain write or a token-applied add. -/
  | mdrm (f : RWord)
  /-- MSEQ (R180). Writes the kept key-block list of an attention mask, and with .g forks the block fetches. -/
  | mseq (f : RWord)
  /-- MGRP (R182). Turns expert token counts into a tile schedule. -/
  | mgrp (f : RWord)
  /-- MERR (R184). Reads or pops the oldest matrix error log entry of the group. -/
  | merr (f : RWord)
  /-- MSCL (R173). Scales tile rows by per-lane factors. -/
  | mscl (f : RWord)
  /-- MRED (R179). Reduces each tile row to one value by max or sum. -/
  | mred (f : RWord)
  /-- LD (R201). Loads from the group's scratchpad view or a peer snapshot, as a V-class result. -/
  | ld (f : MWord)
  /-- ST (R202). Stores into the group's scratchpad view, taking shadow lines. -/
  | st (f : MWord)
  /-- PUSHS (R205). Pushes registers onto each live slice's spill stack. -/
  | pushs (f : RWord)
  /-- POPS (R205). Pops registers from each live slice's spill stack. -/
  | pops (f : RWord)
  /-- ATOM (R206). Atomic read-modify-write on a view word, or on the ordered value with .O. -/
  | atom (f : MWord)
  /-- RED (R208). Contributes lane values to a team reduction that is folded at the T-close. -/
  | red (f : MWord)
  /-- CAS (R209). Compare-and-swap on a view word, or on the ordered value with .O. -/
  | cas (f : MWord)
  /-- CMIT_T (R215). Turns the group's G-level writes into T-pending writes and ends its team round. -/
  | cmitT (f : RWord)
  /-- CMIT_C (R219). Team-collective commit of team data to the cluster level. -/
  | cmitC (f : RWord)
  /-- CMIT_D (R219). Team-collective commit to D that deposits the team's next round. -/
  | cmitD (f : RWord)
  /-- ABRT_G (R232). Discards the group's G-level writes since its last CMIT.T and branches. -/
  | abrtG (f : BWord)
  /-- ABRT_T (R233). Team-collective abort to the last C or D commit, which closes the T-interval and branches. -/
  | abrtT (f : BWord)
  /-- RFSH_T (R235). Waits for the team token and refreshes ordered values into the view. -/
  | rfshT (f : RWord)
  /-- RFSH_D (R235). Team-collective T-close that adds the completed dependences' writes to the D snapshot. -/
  | rfshD (f : RWord)
  /-- FENCE (R235). Waits for and joins the engine operations that the issuing slices forked, or in control code waits for writes to reach H. -/
  | fence (f : RWord)
  /-- CPY (R242). Forks a three-dimensional box copy. -/
  | cpy (f : RWord)
  /-- GTHR (R243). Forks a gather of one indexed row per executing lane. -/
  | gthr (f : RWord)
  /-- SCTR (R243). Forks a scatter of one row per executing lane to indexed places. -/
  | sctr (f : RWord)
  /-- CPYC (R245). Issues a token-applied combining read-modify-write on memory words, with an optional fetch. -/
  | cpyc (f : RWord)
  /-- MCST (R247). Multicasts the root's bytes to every member of a small cluster. -/
  | mcst (f : RWord)
  /-- CSTO (R249). Stores registers in bitmask-plus-values form, or faults 0x0D on overrun. -/
  | csto (f : RWord)
  /-- CLDX (R250). Forks the expansion of a compressed vector into dense elements. -/
  | cldx (f : RWord)
  /-- PFCH (R251). Prefetches lines into their home MSCs. -/
  | pfch (f : RWord)
  /-- BULK (R252). Submits a chunked bulk copy job to the die's bulk copy engines. -/
  | bulk (f : RWord)
  /-- COLL (R258). Issues one step of a collective on a collective table entry. -/
  | coll (f : RWord)
  /-- QINIT (R274). Team-collective initialisation of a queue's filler, poppers and slots. -/
  | qinit (f : RWord)
  /-- QPUSH (R275). Reserves a slot and publishes a handle, making the tile's lines T-pending. -/
  | qpush (f : RWord)
  /-- QPOP (R276). Waits for the next slot dealt to the group and joins its operation. -/
  | qpop (f : RWord)
  /-- QPEEK (R278). Reads the queue's sequence numbers and head status without waiting. -/
  | qpeek (f : RWord)
  /-- QREL (R277). Returns a popped slot to EMPTY. -/
  | qrel (f : RWord)
  /-- EMIT (R280). Issues a token-applied record into a node's input ring. -/
  | emit (f : RWord)
  /-- TRIG (R282). Team-collective CMIT.D that sets the team's trigger mark for early dependants. -/
  | trig (f : RWord)
  /-- LAUNCH (R285). Checks a launch record and submits it under a new launch key. -/
  | launch (f : RWord)
  /-- LWAIT (R287). Waits for a launch to complete and returns its status. -/
  | lwait (f : RWord)
  /-- LWAIT_CANCEL (R287). Cancels a launch, then returns its status. -/
  | lwaitCancel (f : RWord)
  /-- MSGRD (R288). Waits for an inbound host message and copies it to control memory. -/
  | msgrd (f : RWord)
  /-- MSGWR (R288). Queues an outbound message to the host. -/
  | msgwr (f : RWord)
  /-- VGET (R300). Walks the voxel tree and returns each lane's voxel value. -/
  | vget (f : RWord)
  /-- VSTN (R301). Returns a 7-point or 27-point voxel neighbourhood. -/
  | vstn (f : RWord)
  /-- VSET (R306). Writes voxel values as plain G-level memory writes. -/
  | vset (f : RWord)
  /-- VINS (R309). Issues a token-applied leaf insertion to the node allocator. -/
  | vins (f : RWord)
  /-- VDEL (R309). Issues a token-applied leaf removal to the node allocator. -/
  | vdel (f : RWord)
  /-- VACT (R307). Issues token-applied setting or clearing of voxel active bits. -/
  | vact (f : RWord)
  /-- VLEAF (R304). Pins a leaf pool frame and stages a leaf record into it. -/
  | vleaf (f : RWord)
  /-- VLEAF_REL (R304). Unpins a leaf pool frame. -/
  | vleafRel (f : RWord)
  /-- VMRC (R303). Finds the first leaf with active voxels along a ray. -/
  | vmrc (f : RWord)
  /-- HALO (R311). Registers leaves with the halo-exchange engines for the next TSBAR. -/
  | halo (f : RWord)
  /-- VSMP (R302). Samples an f32 tree trilinearly at a continuous point. -/
  | vsmp (f : RWord)
  /-- RTRC (R327). Starts a ray trace in each executing lane and returns its first event. -/
  | rtrc (f : RWord)
  /-- RCONT (R328). Answers the open ray event, or steps a replay, and returns the next event. -/
  | rcont (f : RWord)
  /-- RCONT_KILL (R328). Ends the lane's ray or replay with a KILLED event. -/
  | rcontKill (f : RWord)
  /-- RGET (R329). Reads a selected part of the lane's ray state. -/
  | rget (f : RWord)
  /-- RLOG (R334). Turns the group's traversal logging on or off. -/
  | rlog (f : RWord)
  /-- RRPL (R336). Arms a replay of a logged ray in each executing lane. -/
  | rrpl (f : RWord)
  /-- HINV (R333). Invalidates the context's enabled ways of the die's Aster table. -/
  | hinv (f : RWord)
  /-- BVHB_BUILD (R337). Submits a bounding-tree build as a bulk job. -/
  | bvhbBuild (f : RWord)
  /-- BVHB_REFIT (R338). Submits a refit of every box of a bounding tree. -/
  | bvhbRefit (f : RWord)
  /-- BAR (R369). Commits to T, arrives at the team phase and waits for the phase to complete. -/
  | bar (f : RWord)
  /-- CBAR (R370). Waits at the cluster barrier. -/
  | cbar (f : RWord)
  /-- ARRV (R371). Arrives at the team phase without waiting, and defers the refresh. -/
  | arrv (f : RWord)
  /-- WAIT (R372). Waits for a phase token, or returns at once and may set ST. -/
  | wait (f : RWord)
  /-- GBAR (R374). Deposits a round and waits for every team of the grid. -/
  | gbar (f : RWord)
  /-- TSBAR (R374). Time-step grid barrier that also waits for halo delivery and advances TSTEP. -/
  | tsbar (f : RWord)
  /-- RNG (R376). Draws Philox random numbers per lane and advances DRAWS. -/
  | rng (f : RWord)
  /-- CNTR (R383). Samples a measurement counter. -/
  | cntr (f : RWord)
  /-- CNTC (R382). Configures a programmable or MSC counter. -/
  | cntc (f : RWord)
  /-- TRAP (R360). Raises fault 0x14 in team code, or faults the context in control code. -/
  | trap (f : RWord)
  /-- BRK (R360). Raises a breakpoint fault, or a debug stop under team debug. -/
  | brk (f : RWord)
  /-- CSRR (R360). Reads a control CSR. -/
  | csrr (f : RWord)
  /-- CSRW (R360). Writes a control CSR that has no row of its own. -/
  | csrw (f : RWord)
  /-- IRET (R360). Returns from the control interrupt handler. -/
  | iret (f : RWord)
  /-- TLBI (R360). Invalidates translations and waits until no cache or walk holds them. -/
  | tlbi (f : RWord)
  /-- HALT (R360). Waits for every launch of the context to complete, then ends the control program. -/
  | halt (f : RWord)
  /-- PENDING_RESULT_RETURN (R44). A V-class result returns from its unit to the core. -/
  | pendingResultReturn (gid idx : Nat)
  /-- TEAM_TRAP (R353). A faulting group halts its team, the siblings stop, and the trap images, summary and fault ring entry are written. -/
  | teamTrap (tid : Nat)
  /-- ADMIT_TEAM (R21). A core admits its head candidate, or a whole cluster or co-resident grid, once the footprint fits. -/
  | admitTeam (core : Nat)
  /-- GROUP_RETIRE (R24). A group with no lane left joins its outstanding work, commits to T and frees its slot, registers and tiles. -/
  | groupRetire (gid : Nat)
  /-- GRID_COMPLETE (R24). Every team has retired and every round has applied, so the grid's writes reach H. -/
  | gridComplete (lid : Nat)
  /-- PROMOTE (R289). The scheduler promotes, refuses or fails submitted launches as launch states change. -/
  | promote (ctx : Nat)
  /-- ROUND_APPLY (R221). The commit token reaches a deposited round, which applies its plain writes and token-applied operations. -/
  | roundApply (lid : Nat)
  /-- TEAM_COLLECTIVE_MATCH (R218). Every live group has arrived at a team-collective word, which is then performed together or faulted. -/
  | teamCollectiveMatch (tid : Nat)
  /-- TEAM_PHASE_COMPLETE (R368). A team phase completes once every group has arrived and its held operations have completed. -/
  | teamPhaseComplete (tid : Nat)
  /-- CBAR_RELEASE (R370). The cluster barrier releases and advances the cluster phase. -/
  | cbarRelease (lid cluster : Nat)
  /-- D_INTERVAL_CLOSE (R225). After every round has applied, performs the private check, frees versions and quota, and opens the next D-interval. -/
  | dIntervalClose (lid : Nat)
  /-- TILE_OP_COMPLETE (R172). The matrix array finishes a tile word in the tile queue. -/
  | tileOpComplete (gid : Nat)
  /-- COPY_COMPLETE (R240). An engine operation writes its declared count and its slot completes. -/
  | copyComplete (op : Nat)
  /-- BULK_CHUNK_COMPLETE (R252). A bulk copy engine finishes a 64 KiB chunk, and an idle engine steals chunks. -/
  | bulkChunkComplete (op : Nat)
  /-- COPY_SUSPEND (R255). An engine meets an unmapped page, suspends the operation and queues a fault record. -/
  | copySuspend (op : Nat)
  /-- COPY_FAIL (R256). A permission or type failure in translation completes the operation with FAULT. -/
  | copyFail (op : Nat)
  /-- COLL_STEP_COMPLETE (R258). A collective step completes at every participant with its result and status word. -/
  | collStepComplete (ctx entry step : Nat)
  /-- COLL_TIMEOUT (R261). A collective step times out after TMO and completes with FAULT. -/
  | collTimeout (ctx entry step : Nat)
  /-- RAMP_WINDOW_ROLLOVER (R291). The ramp limiter's 3,300-cycle window ends and the next bound is set. -/
  | rampWindowRollover (core : Nat)
  /-- TIME_SLICE_EXPIRE (R345). A context's time slice ends and contexts that share cores take turns. -/
  | timeSliceExpire (ctx : Nat)
  /-- WORLD_SWITCH_OUT (R346). Stops the control core, pre-empts the teams and writes the save record. -/
  | worldSwitchOut (ctx : Nat)
  /-- WORLD_SWITCH_IN (R346). Restores a save record onto the mapped cores and restarts the control core. -/
  | worldSwitchIn (ctx : Nat)
  /-- MIGRATION (R351). Moves one logical core's teams to another physical core and leaves a forwarding entry. -/
  | migration (ctx lcore phys : Nat)
  /-- FORWARD (R351). A request or reply that arrives at an old core is forwarded to the new core. -/
  | forward (core ctx lcore : Nat)
  /-- CONTROL_INTERRUPT (R359). The control core takes an interrupt to TVEC when ECAUSE is nonzero and it is enabled. -/
  | controlInterrupt (ctx : Nat)
  /-- TEAMCTL_RESUME (R355). A TEAMCTL write with action 0 reads back the images and restarts the trapped team's groups. -/
  | teamctlResume (ctx team : Nat)
  /-- TEAMCTL_TERMINATE (R355). A TEAMCTL write with action 1 terminates the grid. -/
  | teamctlTerminate (ctx team : Nat)
  /-- CPYCTL_RESUME (R255). A CPYCTL write resumes a suspended copy. -/
  | cpyctlResume (ctx opid : Nat)
  /-- CPYCTL_CANCEL (R255). A CPYCTL write cancels a suspended copy, which completes with FAULT. -/
  | cpyctlCancel (ctx opid : Nat)
  /-- CREATE (R392). Host command that creates a context. -/
  | create (ctx : Nat) (f : CtxFields)
  /-- LOAD (R392). Host command that loads the control program image. -/
  | load (ctx addr len : Nat)
  /-- START (R392). Host command that starts the control program. -/
  | start (ctx : Nat)
  /-- STOP (R392). Host command that switches the context out and makes it IDLE. -/
  | stop (ctx : Nat)
  /-- DESTROY (R392). Host command that frees the context. -/
  | destroy (ctx : Nat)
  /-- CHECKPOINT (R398). Host command that asks for a checkpoint at the next quiet point. -/
  | checkpoint (ctx : Nat)
  /-- QUIET_POINT_CAPTURE (R398). At a quiet point, the context is switched out and its checkpoint image is written. -/
  | quietPointCapture (ctx : Nat)
  /-- RESTORE (R399). Host command that rebuilds a context from a checkpoint image and switches it in. -/
  | restore (ctx image : Nat)
  /-- QUERY (R392). Host command that returns STATE and the logical core count. -/
  | query (ctx : Nat)
  /-- INTAIL_WRITE (R389). A host write of INTAIL publishes inbound messages or is ignored with OVR. -/
  | intailWrite (ctx : Nat) (v : W32)
  /-- OUTACK_WRITE (R390). A host write of OUTACK acknowledges outbound messages and may clear OVR. -/
  | outackWrite (ctx : Nat) (v : W32) (clrOvr : Bool)
  /-- PACKET_RECEIVE (R387). An Ethernet RoCE v2 packet is received, or dropped if outside the subset. -/
  | packetReceive (p : Packet)
  /-- FLIT_RECEIVE (R393). A fabric flit is received, checked and resent or poisoned on failure. -/
  | flitReceive (f : Flit)
  /-- IDENT (R397). Side-band request for the part number, core count and life-cycle state. -/
  | ident
  /-- POWER (R397). Side-band request for rail and thermal telemetry. -/
  | power
  /-- LOGS (R397). Side-band request for fault events and uncorrectable-error records. -/
  | logs
  /-- COUNTERS (R397). Side-band request for one context's counters. -/
  | counters (ctx : Nat) (consent : Bool)
  /-- DEBUG_STOP (R363). A debugger stops a team as a KIND 5 stop. -/
  | debugStop (tid : Nat)
  /-- DEBUG_IMAGE_ACCESS (R363). A debugger reads or writes group images. -/
  | debugImageAccess (gid : Nat) (acc : ImgAccess)
  /-- DEBUG_SINGLE_STEP (R363). A debugger steps one word of a group while its siblings are held. -/
  | debugSingleStep (gid : Nat)
  /-- DEBUG_STEP_BACK (R362). A debugger steps a stopped group back by restoring undo log entries. -/
  | debugStepBack (gid : Nat)
  /-- DEBUG_RESUME (R363). A debugger resumes a stopped team. -/
  | debugResume (tid : Nat)
  /-- DEBUG_TOKEN (R365). A debug token is checked, and its features are granted until reset. -/
  | debugToken (bytes : List Byte)
  /-- FUSE_ADVANCE (R364). The root-of-trust core moves the life-cycle fuses forward. -/
  | fuseAdvance
  /-- WARM_RESET (R400). A warm reset ends every context. -/
  | warmReset
  /-- COLD_RESET (R400). A cold reset clears the debug grants and runs the boot sequence. -/
  | coldReset (images : List FwImage)
  /-- THERMAL_STOP (R400). At 115 °C junction temperature the module stops every context as FAULTED and reports it. -/
  | thermalStop (die : Nat)
  /-- UNCORRECTABLE_ERROR (R254). An uncorrectable error in memory sets poison markers on the affected lines. -/
  | uncorrectableError (t : ErrTarget)
  /-- SCRATCHPAD_POISON (R203). An uncorrectable scratchpad error sets the unit's poison bit. -/
  | scratchpadPoison (tid : Nat) (e : Strike)
  /-- COUNTER_OVERFLOW (R385). A counter wraps from 2^48 − 1 to 0, which sets OVF and possibly COVF. -/
  | counterOverflow (ctx core n : Nat)
  /-- ISSUE_SLOT (R379). Every cycle of a quadrant is one issue slot: the rotating pointer picks a ready sub-gang or none, the slot is counted in exactly one tree leaf, and CYCLE advances. -/
  | issueSlot
  /-- THERMAL_CLOCK_LOWERING (R10). A die whose junction reaches 105 °C lowers its clocks, which changes only timing. -/
  | thermalClockLowering (die : Nat)
  deriving DecidableEq, Repr

end Sys2Proof
end

