-- ==== Sys2Proof/WellFormed.lean ====
section
/-! DEFINITION. The vocabulary of the checks on instruction words: operand classes (R42, R93), type sets (R36), and the
field groups that many entries share. `Instr.wf` itself, the acceptance of each word, stands in Decode.lean beside the
decoder that applies it; the pair rule of R53, which raises fault 0x02, is `PWord.pairRule`. What depends on the
machine's state (the role budget, control code) is checked when the word issues. -/

namespace Sys2Proof

namespace Opd
def isV : Opd → Bool | .v _ => true | _ => false
def isS : Opd → Bool | .s _ => true | _ => false
def isX : Opd → Bool | .x _ => true | _ => false
def isZ : Opd → Bool | .zero => true | _ => false
def isVS : Opd → Bool | .v _ | .s _ => true | _ => false
def isSZ : Opd → Bool | .s _ | .zero => true | _ => false
def isVSZ : Opd → Bool | .v _ | .s _ | .zero => true | _ => false
/-- A mask source: k0 to k7 or KACT (R115). -/
def isMask : Opd → Bool | .k _ | .sp .kact => true | _ => false
/-- A mask destination: k1 to k7 (R115; k0 is not writable, R42). -/
def isKd : Opd → Bool | .k n => n != 0 | _ => false
/-- Fit to name a 64-bit operand: a vector or scalar register that is even when it is a vector register (R42). For
the words whose entry asks for an even scalar register the same test is used on the scalar number. -/
def isEven : Opd → Bool | .v n => n.val % 2 == 0 | .s n => n.val % 2 == 0 | _ => true
/-- As `isEven`, but a scalar register holds 64 bits itself (R42, R94). -/
def isPair : Opd → Bool | .v n => n.val % 2 == 0 | _ => true
def isQuad : Opd → Bool | .v n => n.val % 4 == 0 | .s n => n.val % 4 == 0 | _ => true
/-- `n` consecutive registers from this one exist (R204, R299). -/
def spanOk (o : Opd) (n : Nat) : Bool :=
  match o with
  | .v r => r.val + n ≤ 128
  | .s r => r.val + n ≤ 64
  | _ => true
/-- A source of a word whose destination is `d` (R93): with a vector or mask destination any lane source, masks
included; with a scalar destination or ZERO no vector register and no per-lane special register, and a mask only where the
entry names it (`mk`: MOV, R103). -/
def src (o d : Opd) (mk : Bool) : Bool :=
  let perLane := match d with | .v _ | .k _ => true | _ => false
  match o with
  | .v _ => perLane
  | .s _ | .zero => true
  | .k _ => perLane || mk
  | .x _ => false
  | .sp r => perLane || !(r == .lane || r == .tlane || r == .draws)
/-- As `src`, without mask registers (R121). -/
def srcNK (o d : Opd) : Bool := (match o with | .k _ => false | _ => true) && o.src d false
end Opd

namespace Ty
def is64 : Ty → Bool | .i64 | .n64 | .f64 => true | _ => false
def is3264 : Ty → Bool | .b32 | .i32 | .n32 | .f32 | .i64 | .n64 | .f64 => true | _ => false
/-- Types 0 to 4. -/
def isW : Ty → Bool | .b32 | .i32 | .n32 | .i64 | .n64 => true | _ => false
/-- Types 0 to 8. -/
def isInt : Ty → Bool | .f32 | .f64 | .f16x2 | .bf16x2 => false | _ => true
def isSigned : Ty → Bool | .i32 | .i64 | .i16x2 | .i8x4 => true | _ => false
def isPackedInt : Ty → Bool | .i16x2 | .n16x2 | .i8x4 | .n8x4 => true | _ => false
def isF : Ty → Bool | .f32 | .f64 => true | _ => false
def isFpBits : Ty → Bool | .f32 | .f64 | .f16x2 | .bf16x2 => true | _ => false
def isVox : Ty → Bool | .f32 | .f64 | .f16x2 | .n32 => true | _ => false
def isCv : Ty → Bool | .b32 | .f16x2 | .bf16x2 => true | _ => false
def isColl : Ty → Bool | .i32 | .i64 | .f32 | .f64 | .f16x2 | .bf16x2 => true | _ => false
end Ty

/-- Names of the operand fields of an R-type word. -/
inductive RFld where
  | d | a | b | c
  deriving DecidableEq, Repr

namespace RWord
def get (f : RWord) : RFld → Opd
  | .d => f.d
  | .a => f.a
  | .b => f.b
  | .c => f.c
/-- The named fields are unused and zero (R35). -/
def un (f : RWord) (l : List RFld) : Bool := l.all fun x => f.get x == .v 0
def rz (f : RWord) : Bool := f.rnd == .rne
def noNeg (f : RWord) : Bool := !f.negA && !f.negB && !f.negC
/-- No rounding, SAT or negate bit (R36). -/
def plain (f : RWord) : Bool := f.rz && !f.sat && f.noNeg
/-- The named fields fit 64-bit operands when the type has 64 bits (R42). -/
def even (f : RWord) (l : List RFld) : Bool := !f.ty.is64 || l.all fun x => (f.get x).isPair
def un2 (f : RWord) : Bool := f.d.isVSZ && f.a.src f.d false && f.even [.d, .a] && f.un [.b, .c]
def bin3 (f : RWord) : Bool :=
  f.d.isVSZ && f.a.src f.d false && f.b.src f.d false && f.even [.d, .a, .b] && f.un [.c]
def tri4 (f : RWord) : Bool :=
  f.d.isVSZ && f.a.src f.d false && f.b.src f.d false && f.c.src f.d false && f.even [.d, .a, .b, .c]
/-- Types b32 and n64 of the lane words (R105). -/
def lnTy (f : RWord) : Bool := f.ty == .b32 || f.ty == .n64
/-- No operand, type or modifier but MODA 3:0 = `m`. -/
def bare (f : RWord) (m : Nat) : Bool :=
  f.un [.d, .a, .b, .c] && f.ty == .b32 && f.plain && f.m.val == m && f.lo == 0
/-- Floating-point operands of R121 for `n` sources. -/
def fp (f : RWord) (n : Nat) : Bool :=
  f.d.isVSZ && f.a.srcNK f.d && f.even [.d, .a] &&
  (if n ≥ 2 then f.b.srcNK f.d && f.even [.b] else f.un [.b]) &&
  (if n ≥ 3 then f.c.srcNK f.d && f.even [.c] else f.un [.c])
/-- The absolute-value bits MODB 4:2 lie within `mask`; MODB 1:0 zero (R119). -/
def absIn (f : RWord) (mask : Nat) : Bool := f.lo.val &&& mask == f.lo.val
end RWord

/-- Conditions of the mask form of ICMP (R112). -/
def intConds : List Nat := [0, 1, 2, 3, 4, 5, 10, 11]
/-- Conditions of the mask form of FCMP (R126). -/
def fpConds : List Nat := [0, 1, 2, 3, 10, 11, 12, 13]

/-- The two forms of a comparison (R112, R126, R127): a mask destination with one of the accepted conditions, or ZERO with
AL. -/
def cmpForm (d : Opd) (cc : Nat) (srcs : Bool) (conds : List Nat) : Bool :=
  srcs && (d.isKd && conds.contains cc || d.isZ && cc == 14)

/-- The format and element rules of F2F (R138). -/
def f2fOk (f : RWord) : Bool :=
  let src := f.lo.val / 4
  let n := f.lo.val % 4
  let lim := fun c : Nat => if c ≥ 4 then 4 else if c ≥ 2 then 2 else 1
  let nOk := if f.m < 2 && src < 2 then n == 0
    else (f.m < 2 || n < lim f.m.val) && (src < 2 || n < lim src)
  src < 6 && f.m.val != src && nOk && (f.m != 0 || f.d.isPair) && (src != 0 || f.a.isPair)

/-- The type, add, rounding and SAT combinations of MDRS and MDRM (R174). -/
def drainOk (f : RWord) : Bool :=
  match f.ty with
  | .f32 | .f64 => f.m < 2 && f.rz && !f.sat
  | .i32 => f.m < 2 && f.rz && (!f.sat || f.m == 1)
  | .f16x2 | .bf16x2 => f.m == 0
  | _ => false

/-- The operation, type, operand and SAT combinations of CPYC (R245). -/
def cpycOk (f : RWord) : Bool :=
  let num := f.ty == .i32 || f.ty == .n32 || f.ty == .i64 || f.ty == .n64 || f.ty.isF
  let bits := f.ty == .b32 || f.ty == .n64
  (match f.m.val with
   | 0 => num && (!f.sat || !f.ty.isF)
   | 1 | 2 | 5 => bits && !f.sat
   | 3 | 4 => num && !f.sat
   | 6 => bits && !f.sat && f.a.spanOk (if f.ty.is64 then 4 else 2) && (if f.ty.is64 then f.a.isQuad else true)
   | _ => false) && f.even [.a]

/-- Registers that RGET writes for a selector (R329). -/
def rgetSpan : Nat → Nat
  | 0 => 4
  | 1 | 2 => 6
  | 3 | 4 => 2
  | _ => 18

namespace IWord
def unA (f : IWord) : Bool := f.a == .v 0
/-- The width MODI bit 0 selects (R114). -/
def iw (f : IWord) : Nat := if f.modi.val % 2 == 1 then 64 else 32
/-- Operands of the immediate forms (R114). -/
def imm2 (f : IWord) : Bool :=
  f.d.isVSZ && f.a.src f.d false && (f.modi.val % 2 == 0 || f.d.isPair && f.a.isPair)
end IWord

namespace MWord
/-- Base, index and scale (R37, R196). -/
def addrOk (f : MWord) : Bool :=
  f.a.isSZ && (f.b.isV && f.d.isV || f.b.isZ && f.scale == 0)
/-- The register shape of the width (R201). -/
def shape (f : MWord) : Bool :=
  match f.width with
  | .w64 => f.d.isPair
  | .w128 => if f.d.isV then f.d.isQuad else f.d.isEven
  | _ => true
/-- Width 32 or 64 of the atomic words. -/
def wordW (f : MWord) : Bool := f.width == .w32 || f.width == .w64
/-- The register shape of CAS (R209). -/
def casShape (f : MWord) : Bool :=
  if f.width == .w64 && f.d.isV then f.d.isQuad else f.d.isEven
end MWord

/-- A NOP slot has every other field zero (R52, R58). -/
def PSlot.ok (p : PSlot) : Bool :=
  p.op != .nop || (p.k == 0 && p.d == 0 && p.src == .reg 0)

namespace PSlot
/-- The registers a slot reads (R54). -/
def reads (p : PSlot) : List Nat :=
  let a := match p.src with | .reg n => [n.val] | .imm _ => []
  match p.op with
  | .nop => []
  | .mov | .fabs | .fneg | .i2f | .f2i => a
  | _ => p.d.val :: a
end PSlot

/-- The pair rule (R53): at most two distinct registers read from any one bank, and destinations in different
banks. -/
def PWord.pairRule (w : PWord) : Bool :=
  let rs := (w.s0.reads ++ w.s1.reads).dedup
  [0, 1, 2, 3].all (fun b => (rs.filter (· % 4 == b)).length ≤ 2) &&
  (w.s0.op == .nop || w.s1.op == .nop || w.s0.d.val % 4 != w.s1.d.val % 4)

end Sys2Proof
end

