-- ==== Sys2Proof/Decode.lean ====
section
/-! DEFINITION. Decoding and encoding of instruction words: which words are accepted (`Instr.wf`, R58), the four
full-word layouts (R35 to R39), the pair word (R51), operand bytes (R40, R41), the opcode map (R55), and the check order of
R59. `decodeWord` is total and rejects by name; `encode` gives the word of an instruction. -/

namespace Sys2Proof

/-- The words whose fields are accepted (R58). An event has no encoding and nothing to check. -/
def Instr.wf : Instr → Bool
  | .nop f => f.un [.d, .a, .b, .c] && f.k == 0 && f.ty == .b32 && f.plain && f.m == 0 && f.lo == 0
  | .mov f => f.d.isVS && f.a.src f.d true && f.ty.is3264 && f.even [.d, .a] && f.un [.b, .c] && f.plain && f.m == 0 && f.lo == 0
  | .movi f => f.d.isVS && f.unA && f.modi < 4 && (f.modi != 3 || f.d.isPair)
  | .movh f => f.d.isS && f.unA && f.modi == 0
  | .rdln f => f.d.isS && f.a.isV && f.b.isSZ && f.lnTy && f.even [.a] && f.un [.c] && f.plain && f.m == 0 && f.lo == 0
  | .wrln f => f.d.isV && f.a.isSZ && f.b.isSZ && f.lnTy && f.even [.d] && f.un [.c] && f.plain && f.m == 0 && f.lo == 0
  | .shfl f => f.d.isV && f.a.isV && (f.b.isV || f.b.isSZ) && f.lnTy && f.even [.d, .a] && f.un [.c] && f.plain && f.m < 4 && f.lo == 0
  | .sel f => f.d.isV && f.a.src f.d false && f.b.src f.d false && f.c.isMask && f.ty.is3264 && f.even [.d, .a, .b] && f.plain && f.m == 0 && f.lo == 0
  | .iadd f => f.bin3 && f.ty.isInt && f.rz && !f.negC && (!f.sat || f.ty != .b32) && f.m == 0 && (f.lo == 0 || f.lo == 1 && f.d.isSZ && f.ty.isW && !f.sat && !f.negA && !f.negB)
  | .isub f => f.bin3 && f.ty.isInt && f.rz && f.noNeg && (!f.sat || f.ty != .b32) && f.m == 0 && (f.lo == 0 || f.lo == 1 && f.d.isSZ && f.ty.isW && !f.sat)
  | .imul f => f.bin3 && f.ty.isInt && f.ty != .b32 && f.ty != .i8x4 && f.ty != .n8x4 && f.rz && f.noNeg && f.m == 0 && f.lo == 0
  | .imulh f => f.bin3 && f.ty.isW && f.ty != .b32 && f.plain && f.m == 0 && f.lo == 0
  | .imad f => f.tri4 && f.ty.isW && f.ty != .b32 && f.rz && f.m == 0 && f.lo == 0
  | .imin f => f.bin3 && f.ty.isInt && f.ty != .b32 && f.plain && f.m == 0 && f.lo == 0
  | .imax f => f.bin3 && f.ty.isInt && f.ty != .b32 && f.plain && f.m == 0 && f.lo == 0
  | .iabs f => f.un2 && f.ty.isSigned && f.rz && f.noNeg && f.m == 0 && f.lo == 0
  | .ineg f => f.un2 && f.ty.isSigned && f.rz && f.noNeg && f.m == 0 && f.lo == 0
  | .and f => f.bin3 && f.ty.isW && f.rz && !f.sat && !f.negC && f.m == 0 && f.lo == 0
  | .or f => f.bin3 && f.ty.isW && f.rz && !f.sat && !f.negC && f.m == 0 && f.lo == 0
  | .xor f => f.bin3 && f.ty.isW && f.rz && !f.sat && !f.negC && f.m == 0 && f.lo == 0
  | .not f => f.un2 && f.ty.isW && f.plain && f.m == 0 && f.lo == 0
  | .shl f => f.bin3 && f.ty.isW && f.plain && f.m == 0 && f.lo == 0
  | .shr f => f.bin3 && f.ty.isW && f.plain && f.m == 0 && f.lo == 0
  | .sar f => f.bin3 && f.ty.isW && f.plain && f.m == 0 && f.lo == 0
  | .rot f => f.bin3 && f.ty.isW && f.plain && f.m == 0 && f.lo == 0
  | .popc f => f.un2 && f.ty.isW && f.plain && f.m == 0 && f.lo == 0
  | .clz f => f.un2 && f.ty.isW && f.plain && f.m == 0 && f.lo == 0
  | .brev f => f.un2 && f.ty.isW && f.plain && f.m == 0 && f.lo == 0
  | .bfx f => f.tri4 && f.ty.isW && f.ty != .b32 && f.plain && f.m == 0 && f.lo == 0
  | .bfi f => f.tri4 && f.ty.isW && f.plain && f.m == 0 && f.lo == 0
  | .lea f => f.d.isVS && f.d.isPair && f.a.srcNK f.d && f.a.isPair && f.b.isVSZ && f.b.srcNK f.d && f.un [.c] && f.ty == .b32 && f.plain && f.m ≤ 4 && f.lo == 0
  | .icmp f => f.ty.isW && f.even [.a, .b] && f.un [.c] && f.plain && f.m == 0 && f.lo < 16 && cmpForm f.d f.lo.val (f.a.src f.d false && f.b.src f.d false) intConds
  | .iaddi f => f.imm2 && f.modi.val / 2 % 2 == 0 && (f.modi < 4 || f.d.isSZ)
  | .andi f => f.imm2 && f.modi < 4 && f.modi != 2
  | .ori f => f.imm2 && f.modi < 4 && f.modi != 2
  | .xori f => f.imm2 && f.modi < 4 && f.modi != 2
  | .shli f => f.imm2 && f.modi < 2 && f.imm.toNat < f.iw
  | .shri f => f.imm2 && f.modi < 4 && f.imm.toNat < f.iw
  | .icmpi f => f.modi < 2 && (f.modi == 0 || f.a.isPair) && cmpForm f.d (f.imm.toNat / 2 ^ 28) (f.a.src f.d false) intConds
  | .imuli f => f.imm2 && f.modi < 2
  | .kand f => f.k == 0 && f.d.isKd && f.a.isMask && f.b.isMask && f.un [.c] && f.ty == .b32 && f.plain && f.m == 0 && f.lo == 0
  | .kor f => f.k == 0 && f.d.isKd && f.a.isMask && f.b.isMask && f.un [.c] && f.ty == .b32 && f.plain && f.m == 0 && f.lo == 0
  | .kxor f => f.k == 0 && f.d.isKd && f.a.isMask && f.b.isMask && f.un [.c] && f.ty == .b32 && f.plain && f.m == 0 && f.lo == 0
  | .knot f => f.k == 0 && f.d.isKd && f.a.isMask && f.un [.b, .c] && f.ty == .b32 && f.plain && f.m == 0 && f.lo == 0
  | .kmov f => (f.d.isKd && (f.a.isMask || f.a.isS) && f.k == 0 || f.d.isKd && f.a.isV || f.d.isS && f.a.isMask) && f.un [.b, .c] && f.ty == .b32 && f.plain && f.m == 0 && f.lo == 0
  | .kpop f => f.d.isVS && f.a.isMask && f.un [.b, .c] && f.ty == .b32 && f.plain && f.m < 2 && f.lo == 0
  | .kffs f => f.d.isVS && f.a.isMask && f.un [.b, .c] && f.ty == .b32 && f.plain && f.m == 0 && f.lo == 0
  | .kset f => f.d.isKd && f.un [.a, .b, .c] && f.ty == .b32 && f.plain && f.m == 0 && f.lo == 0
  | .sfmt f => f.d == .v 0 && (f.modi == 0 && f.unA && f.imm.toNat < 65536 || f.modi == 1 && f.a.isS && f.imm == 0)
  | .prmt f => f.tri4 && f.ty == .b32 && f.plain && f.m == 0 && f.lo == 0
  | .pack f => f.d.isV && f.a.src f.d false && f.b.src f.d false && f.un [.c] && f.ty.isPackedInt && f.rz && f.noNeg && f.m == 0 && f.lo == 0
  | .unpk f => f.d.isV && f.a.src f.d false && f.un [.b, .c] && f.ty.isPackedInt && f.plain && (if f.ty == .i8x4 || f.ty == .n8x4 then f.m < 4 else f.m < 2) && f.lo == 0
  | .clrst f => f.d.isSZ && f.a.isSZ && f.un [.b, .c] && f.ty == .b32 && f.plain && f.m == 0 && f.lo == 0
  | .fadd f => f.fp 2 && f.ty.isF && !f.negC && f.m == 0 && f.absIn 24
  | .fsub f => f.fp 2 && f.ty.isF && !f.negC && f.m == 0 && f.absIn 24
  | .fmul f => f.fp 2 && f.ty.isF && !f.negC && f.m == 0 && f.absIn 24
  | .ffma f => f.fp 3 && f.ty.isF && f.m == 0 && f.absIn 28
  | .fmin f => f.fp 2 && f.ty.isF && f.rz && !f.sat && !f.negC && f.m == 0 && f.absIn 24
  | .fmax f => f.fp 2 && f.ty.isF && f.rz && !f.sat && !f.negC && f.m == 0 && f.absIn 24
  | .fabs f => f.fp 1 && f.ty.isFpBits && f.plain && f.m == 0 && f.lo == 0
  | .fneg f => f.fp 1 && f.ty.isFpBits && f.plain && f.m == 0 && f.lo == 0
  | .fcmp f => f.ty.isF && f.even [.a, .b] && f.un [.c] && f.rz && !f.sat && !f.negC && f.m == 0 && f.lo < 16 && cmpForm f.d f.lo.val (f.a.srcNK f.d && f.b.srcNK f.d) fpConds
  | .fclass f => f.d.isVSZ && f.a.srcNK f.d && f.even [.a] && f.un [.b, .c] && f.ty.isF && f.plain && f.m == 0 && f.lo == 0
  | .fdiv f => f.fp 2 && f.ty.isF && !f.negC && f.m == 0 && f.absIn 24
  | .fsqrt f => f.fp 1 && f.ty.isF && !f.sat && !f.negB && !f.negC && f.m == 0 && f.absIn 16
  | .frcp f => f.fp 1 && f.ty == .f32 && f.rz && !f.sat && !f.negB && !f.negC && f.m == 0 && f.absIn 16
  | .frsq f => f.fp 1 && f.ty == .f32 && f.rz && !f.sat && !f.negB && !f.negC && f.m == 0 && f.absIn 16
  | .fex2 f => f.fp 1 && f.ty == .f32 && f.rz && !f.sat && !f.negB && !f.negC && f.m == 0 && f.absIn 16
  | .flg2 f => f.fp 1 && f.ty == .f32 && f.rz && !f.sat && !f.negB && !f.negC && f.m == 0 && f.absIn 16
  | .fsin f => f.fp 1 && f.ty == .f32 && f.rz && !f.sat && !f.negB && !f.negC && f.m == 0 && f.absIn 16
  | .fcos f => f.fp 1 && f.ty == .f32 && f.rz && !f.sat && !f.negB && !f.negC && f.m == 0 && f.absIn 16
  | .frnd f => f.fp 1 && f.ty.isF && !f.sat && !f.negB && !f.negC && f.m < 2 && f.absIn 16
  | .fscl f => f.d.isVSZ && f.a.srcNK f.d && f.b.srcNK f.d && f.even [.d, .a] && f.un [.c] && f.ty.isF && !f.negB && !f.negC && f.m == 0 && f.absIn 16
  | .fgexp f => f.d.isVSZ && f.a.srcNK f.d && f.even [.a] && (f.m == 0 || f.even [.d]) && f.un [.b, .c] && f.ty.isF && f.plain && f.m < 2 && f.lo == 0
  | .fcps f => f.fp 2 && f.ty.isFpBits && f.plain && f.m < 3 && f.lo == 0
  | .faddi f => f.d.isVSZ && f.a.srcNK f.d && (f.modi.val % 2 == 0 || f.d.isPair && f.a.isPair)
  | .fmuli f => f.d.isVSZ && f.a.srcNK f.d && (f.modi.val % 2 == 0 || f.d.isPair && f.a.isPair)
  | .ffmai f => f.d.isVSZ && f.a.srcNK f.d && (f.modi.val % 2 == 0 || f.d.isPair && f.a.isPair)
  | .f2f f => f.d.isVSZ && f.a.srcNK f.d && f.un [.b, .c] && f.ty == .b32 && f.noNeg && f.m < 6 && f2fOk f
  | .f2i f => f.d.isVSZ && f.a.srcNK f.d && f.even [.a] && (f.m < 2 || f.d.isPair) && f.un [.b, .c] && f.ty.isF && !f.sat && !f.negB && !f.negC && f.m < 4 && f.absIn 16
  | .i2f f => f.d.isVSZ && f.a.srcNK f.d && f.even [.a] && (f.m != 0 || f.d.isPair) && f.un [.b, .c] && f.ty.isW && f.ty != .b32 && f.noNeg && f.m < 4 && (!f.sat || f.m ≥ 2) && f.lo == 0
  | .bpack f => f.d.isV && f.a.isV && f.un [.b, .c] && f.ty == .f32 && f.plain && (f.m == 6 || f.m == 7 || f.m == 8) && f.lo == 0
  | .bunpk f => f.d.isV && f.a.isV && f.un [.b, .c] && f.ty == .f32 && f.plain && (f.m == 6 || f.m == 7 || f.m == 8) && f.lo == 0
  | .fdp2 f => f.fp 3 && (f.ty == .f16x2 || f.ty == .bf16x2) && f.m == 0 && f.lo == 0
  | .pairWord f => f.s0.ok && f.s1.ok
  | .bra f => f.kt == 0 && f.st == 0
  | .bkz f => f.cc == .al && f.st == 0
  | .bknz f => f.cc == .al && f.st == 0
  | .loop f => f.cc == .al && f.kt == 0
  | .jmpi f => f.k == 0 && f.a.isS && f.un [.d, .b, .c] && f.ty == .b32 && f.plain && f.m < 2 && f.lo == 0
  | .call f => f.cc == .al && !f.pt && f.kt == 0 && f.st == 0
  | .calli f => f.k == 0 && f.a.isS && f.un [.d, .b, .c] && f.ty == .b32 && f.plain && f.m == 0 && f.lo == 0
  | .ret f => f.bare 0 && f.k == 0
  | .regang f => f.bare 0 && f.k == 0
  | .ksync f => f.k == 0 && f.a.isS && f.un [.d, .b, .c] && f.ty == .b32 && f.plain && f.m == 0 && f.lo == 0
  | .exit f => f.bare 0
  | .mbld f => f.a.isV && f.a.isEven && f.un [.d, .b, .c] && f.ty == .b32 && f.plain && f.m == 0 && f.lo == 0
  | .mma f => f.d.isX && f.a.isV && f.a.isEven && f.un [.b, .c] && f.ty == .b32 && f.plain && f.m == 0 && f.lo == 0
  | .mzro f => f.d.isX && f.un [.a, .b, .c] && f.ty == .b32 && f.plain && f.m == 0 && f.lo == 0
  | .mdrn f => f.d.isV && f.a.isX && f.un [.b, .c] && (f.ty == .b32 || f.ty == .f64) && f.even [.d] && f.plain && f.m < 8 && (f.ty == .b32 || f.m.val % 4 < 2) && f.lo == 0
  | .mdrs f => f.d.isX && f.a.isS && f.b.isS && f.un [.c] && f.noNeg && f.lo == 0 && drainOk f
  | .mdrm f => f.d.isX && f.a.isS && f.b.isS && f.un [.c] && f.noNeg && f.lo == 0 && drainOk f
  | .mseq f => f.d.isS && f.a.isS && f.b.isS && f.c.isS && (f.m == 0 || f.c.isQuad) && f.ty == .b32 && f.plain && f.m < 2 && f.lo == 0
  | .mgrp f => f.d.isS && f.a.isS && f.b.isS && f.c.isS && f.c.isEven && f.ty == .b32 && f.plain && f.m < 2 && f.lo == 0
  | .merr f => f.d.isSZ && f.un [.a, .b, .c] && f.ty == .b32 && f.plain && f.m < 3 && f.lo == 0
  | .mscl f => f.d.isX && f.a.isV && f.un [.b, .c] && f.ty.isF && f.even [.a] && f.plain && f.m == 0 && f.lo == 0
  | .mred f => f.d.isV && f.a.isX && f.un [.b, .c] && (f.ty.isF || f.ty == .i32) && f.even [.d] && f.plain && f.m < 2 && f.lo == 0
  | .ld f => f.addrOk && f.op == 0 && (f.d.isV || f.d.isSZ) && f.shape && (match f.width with | .w8 | .w16 => true | .w32 => !f.sx || f.d.isSZ | _ => !f.sx)
  | .st f => f.addrOk && f.op == 0 && f.d.isVS && f.shape && !f.sx
  | .pushs f => f.k == 0 && f.a.isVS && f.a.spanOk (f.m.val + 1) && f.un [.d, .b, .c] && f.ty == .b32 && f.plain && f.lo == 0
  | .pops f => f.k == 0 && f.d.isVS && f.d.spanOk (f.m.val + 1) && f.un [.a, .b, .c] && f.ty == .b32 && f.plain && f.lo == 0
  | .atom f => f.addrOk && f.wordW && f.d.isVS && f.shape
  | .red f => f.addrOk && f.wordW && f.d.isV && f.shape
  | .cas f => f.addrOk && f.wordW && f.op == 0 && f.d.isVS && f.casShape
  | .cmitT f => f.bare 0 && f.k == 0
  | .cmitC f => f.bare 1 && f.k == 0
  | .cmitD f => f.bare 2 && f.k == 0
  | .abrtG f => f.cc == .eq && !f.pt && f.kt == 0 && f.st == 0
  | .abrtT f => f.cc == .ne && !f.pt && f.kt == 0 && f.st == 0
  | .rfshT f => f.bare 0 && f.k == 0
  | .rfshD f => f.bare 2 && f.k == 0
  | .fence f => f.bare 0 && f.k == 0
  | .cpy f => f.d.isS && f.a.isS && f.un [.b] && f.c.isS && f.c.isQuad && f.ty == .b32 && f.rz && !f.sat && f.noNeg && f.m == 0 && (f.lo == 0 || f.lo == 16)
  | .gthr f => f.d.isS && f.a.isS && f.b.isV && f.c.isS && f.c.isQuad && f.ty == .b32 && f.rz && !f.sat && f.noNeg && f.m == 0 && f.lo.val % 16 < 3
  | .sctr f => f.d.isS && f.a.isS && f.b.isV && f.c.isS && f.c.isQuad && f.ty == .b32 && f.rz && !f.sat && f.noNeg && f.m == 0 && f.lo.val % 16 < 3
  | .cpyc f => f.d.isS && f.a.isV && (f.b.isV || f.b.isZ) && f.c.isS && f.c.isQuad && f.rz && f.noNeg && cpycOk f && (f.lo == 0 || f.lo == 4)
  | .mcst f => f.d.isS && f.a.isSZ && f.un [.b] && f.c.isS && f.c.isQuad && f.ty == .b32 && f.rz && !f.sat && f.noNeg && f.m == 0 && f.lo == 0
  | .csto f => f.d.isS && f.a.isV && f.a.spanOk (f.m.val + 1) && f.un [.b] && f.c.isS && f.c.isQuad && f.ty.isCv && f.rz && !f.sat && f.noNeg && (f.lo == 0 || f.lo == 16)
  | .cldx f => f.d.isS && f.a.isS && f.un [.b] && f.c.isS && f.c.isQuad && f.ty.isCv && f.plain && f.lo == 0
  | .pfch f => f.a.isS && f.un [.d, .b] && f.c.isS && f.c.isQuad && f.ty == .b32 && f.rz && !f.sat && f.noNeg && f.m == 0 && f.lo == 0
  | .bulk f => f.d.isS && f.a.isS && f.un [.b] && f.c.isS && f.c.isQuad && f.ty == .b32 && f.rz && !f.sat && f.noNeg && f.m == 0 && (f.lo == 0 || f.lo == 16)
  | .coll f => f.d.isS && f.a.isS && f.un [.b] && f.c.isS && f.c.isQuad && f.ty.isColl && f.plain && f.m < 6 && f.lo == 0
  | .qinit f => f.k == 0 && f.ty == .b32 && f.plain && f.lo == 0 && f.m == 0 && f.a.isS && f.b.isS && f.un [.d, .c]
  | .qpush f => f.k == 0 && f.ty == .b32 && f.plain && f.lo == 0 && f.m == 0 && f.a.isS && f.b.isS && f.un [.d, .c]
  | .qpop f => f.k == 0 && f.ty == .b32 && f.plain && f.lo == 0 && f.m == 0 && f.d.isS && f.d.isEven && f.a.isS && f.un [.b, .c]
  | .qpeek f => f.k == 0 && f.ty == .b32 && f.plain && f.lo == 0 && f.m == 0 && f.d.isS && f.d.isEven && f.a.isS && f.un [.b, .c]
  | .qrel f => f.k == 0 && f.ty == .b32 && f.plain && f.lo == 0 && f.m == 0 && f.a.isS && f.b.isS && f.un [.d, .c]
  | .emit f => f.k == 0 && f.ty == .b32 && f.plain && f.lo == 0 && f.m == 0 && f.d.isS && f.a.isS && f.un [.b, .c]
  | .trig f => f.bare 0 && f.k == 0
  | .launch f => f.k == 0 && f.ty == .b32 && f.plain && f.lo == 0 && f.m == 0 && f.d.isS && f.a.isS && f.un [.b, .c]
  | .lwait f => f.k == 0 && f.ty == .b32 && f.plain && f.lo == 0 && f.m == 0 && f.d.isS && f.a.isS && f.un [.b, .c]
  | .lwaitCancel f => f.k == 0 && f.ty == .b32 && f.plain && f.lo == 0 && f.m == 1 && f.d.isS && f.a.isS && f.un [.b, .c]
  | .msgrd f => f.k == 0 && f.ty == .b32 && f.plain && f.lo == 0 && f.m == 0 && f.d.isS && f.a.isS && f.b.isS && f.un [.c]
  | .msgwr f => f.k == 0 && f.ty == .b32 && f.plain && f.lo == 0 && f.m == 0 && f.a.isS && f.b.isS && f.un [.d, .c]
  | .vget f => f.d.isV && f.a.isV && f.a.spanOk 3 && f.b.isS && f.un [.c] && f.ty.isVox && f.even [.d] && f.m < 2 && f.plain && f.lo == 0
  | .vstn f => f.d.isV && f.a.isV && f.a.spanOk 3 && f.b.isS && f.un [.c] && f.ty.isVox && f.even [.d] && f.m < 2 && f.d.spanOk ((if f.m == 0 then 7 else 27) * (if f.ty == .f64 then 2 else 1)) && f.plain && f.lo == 0
  | .vset f => f.d.isV && f.a.isV && f.a.spanOk 3 && f.b.isS && f.un [.c] && f.ty.isVox && f.even [.d] && f.m < 2 && f.plain && f.lo == 0
  | .vins f => f.a.isV && f.a.spanOk 3 && f.b.isS && f.c.isS && f.un [.d] && f.ty == .b32 && f.m == 0 && f.plain && f.lo == 0
  | .vdel f => f.a.isV && f.a.spanOk 3 && f.b.isS && f.c.isS && f.un [.d] && f.ty == .b32 && f.m == 0 && f.plain && f.lo == 0
  | .vact f => f.a.isV && f.a.spanOk 3 && f.b.isS && f.un [.d, .c] && f.ty == .b32 && f.m < 2 && f.plain && f.lo == 0
  | .vleaf f => f.d.isS && f.a.isS && (if f.m == 0 then f.a.spanOk 3 && f.b.isS else f.b.isZ) && f.un [.c] && f.ty == .b32 && f.m < 2 && f.plain && f.lo == 0
  | .vleafRel f => f.d.isZ && f.a.isS && f.b.isZ && f.un [.c] && f.ty == .b32 && f.m == 2 && f.plain && f.lo == 0
  | .vmrc f => f.d.isV && f.d.isEven && f.d.spanOk 4 && f.a.isV && f.a.spanOk 8 && f.b.isS && f.un [.c] && f.ty == .b32 && f.m == 0 && f.plain && f.lo == 0
  | .halo f => f.a.isS && f.b.isS && f.c.isS && f.un [.d] && f.ty == .b32 && f.m == 0 && f.plain && f.lo == 0
  | .vsmp f => f.d.isV && f.a.isV && f.a.spanOk 3 && f.b.isS && f.un [.c] && f.ty == .f32 && f.m == 0 && f.plain && f.lo == 0
  | .rtrc f => f.d.isV && f.d.isEven && f.d.spanOk 8 && f.a.isV && f.a.isEven && f.a.spanOk 16 && f.b.isS && f.c.isS && f.ty == .b32 && f.m == 0 && f.plain && f.lo == 0
  | .rcont f => f.d.isV && f.d.isEven && f.d.spanOk 8 && f.a.isV && f.a.isEven && f.a.spanOk 4 && f.un [.b, .c] && f.ty == .b32 && f.m == 0 && f.plain && f.lo == 0
  | .rcontKill f => f.d.isV && f.d.isEven && f.d.spanOk 8 && f.a.isZ && f.un [.b, .c] && f.ty == .b32 && f.m == 1 && f.plain && f.lo == 0
  | .rget f => f.d.isV && f.d.isEven && f.d.spanOk (rgetSpan f.m.val) && f.un [.a, .b, .c] && f.ty == .b32 && f.m < 6 && f.plain && f.lo == 0
  | .rlog f => f.a.isS && f.un [.d, .b, .c] && f.ty == .b32 && f.m == 0 && f.plain && f.lo == 0
  | .rrpl f => f.a.isV && f.a.isEven && f.b.isSZ && f.un [.d, .c] && f.ty == .b32 && f.m == 0 && f.plain && f.lo == 0
  | .hinv f => f.bare 0
  | .bvhbBuild f => f.d.isS && f.a.isZ && f.un [.b] && f.c.isS && f.c.isQuad && f.ty == .b32 && f.m == 0 && f.plain && f.lo == 0
  | .bvhbRefit f => f.d.isS && f.a.isZ && f.un [.b] && f.c.isS && f.c.isQuad && f.ty == .b32 && f.m == 1 && f.plain && f.lo == 0
  | .bar f => f.bare 0 && f.k == 0
  | .cbar f => f.bare 1 && f.k == 0
  | .arrv f => f.k == 0 && f.ty == .b32 && f.plain && f.lo == 0 && f.m == 0 && f.d.isS && f.un [.a, .b, .c]
  | .wait f => f.k == 0 && f.ty == .b32 && f.plain && f.lo == 0 && f.m == 0 && f.a.isS && f.un [.d, .b, .c]
  | .gbar f => f.bare 0 && f.k == 0
  | .tsbar f => f.bare 0 && f.k == 0
  | .rng f => f.d.isV && f.a.isSZ && f.un [.b, .c] && f.ty == .b32 && f.m < 3 && (f.m != 2 || f.d.isQuad) && f.plain && f.lo == 0
  | .cntr f => f.d.isS && f.a.isS && f.un [.b, .c] && f.ty == .b32 && f.m == 0 && f.plain && f.lo == 0
  | .cntc f => f.k == 0 && f.ty == .b32 && f.plain && f.lo == 0 && f.m == 0 && f.a.isS && f.b.isS && f.un [.d, .c]
  | .trap f => f.k == 0 && f.ty == .b32 && f.plain && f.m == 0 && f.a.isSZ && f.un [.d, .b, .c]
  | .brk f => f.k == 0 && f.ty == .b32 && f.plain && f.m == 0 && f.a.isSZ && f.un [.d, .b, .c]
  | .csrr f => f.k == 0 && f.ty == .b32 && f.plain && f.m == 0 && f.d.isS && f.un [.a, .b, .c]
  | .csrw f => f.k == 0 && f.ty == .b32 && f.plain && f.m == 0 && f.a.isS && f.un [.d, .b, .c]
  | .iret f => f.bare 0 && f.k == 0
  | .tlbi f => f.k == 0 && f.ty == .b32 && f.plain && f.lo == 0 && f.m == 0 && f.a.isS && f.b.isS && f.un [.d, .c]
  | .halt f => f.bare 0 && f.k == 0
  | .pendingResultReturn _ _ => true
  | .teamTrap _ => true
  | .admitTeam _ => true
  | .groupRetire _ => true
  | .gridComplete _ => true
  | .promote _ => true
  | .roundApply _ => true
  | .teamCollectiveMatch _ => true
  | .teamPhaseComplete _ => true
  | .cbarRelease _ _ => true
  | .dIntervalClose _ => true
  | .tileOpComplete _ => true
  | .copyComplete _ => true
  | .bulkChunkComplete _ => true
  | .copySuspend _ => true
  | .copyFail _ => true
  | .collStepComplete _ _ _ => true
  | .collTimeout _ _ _ => true
  | .rampWindowRollover _ => true
  | .timeSliceExpire _ => true
  | .worldSwitchOut _ => true
  | .worldSwitchIn _ => true
  | .migration _ _ _ => true
  | .forward _ _ _ => true
  | .controlInterrupt _ => true
  | .teamctlResume _ _ => true
  | .teamctlTerminate _ _ => true
  | .cpyctlResume _ _ => true
  | .cpyctlCancel _ _ => true
  | .create _ _ => true
  | .load _ _ _ => true
  | .start _ => true
  | .stop _ => true
  | .destroy _ => true
  | .checkpoint _ => true
  | .quietPointCapture _ => true
  | .restore _ _ => true
  | .query _ => true
  | .intailWrite _ _ => true
  | .outackWrite _ _ _ => true
  | .packetReceive _ => true
  | .flitReceive _ => true
  | .ident => true
  | .power => true
  | .logs => true
  | .counters _ _ => true
  | .debugStop _ => true
  | .debugImageAccess _ _ => true
  | .debugSingleStep _ => true
  | .debugStepBack _ => true
  | .debugResume _ => true
  | .debugToken _ => true
  | .fuseAdvance => true
  | .warmReset => true
  | .coldReset _ => true
  | .thermalStop _ => true
  | .uncorrectableError _ => true
  | .scratchpadPoison _ _ => true
  | .counterOverflow _ _ _ => true
  | .issueSlot => true
  | .thermalClockLowering _ => true


/-- Fields of the given widths, least significant first, joined into one number. -/
def packFields : List (Nat × Nat) → Nat
  | [] => 0
  | (n, x) :: t => x + 2 ^ n * packFields t

/-- The fields of the given widths of a number, least significant first. -/
def unpackFields : List Nat → Nat → List Nat
  | [], _ => []
  | n :: t, w => w % 2 ^ n :: unpackFields t (w / 2 ^ n)

def Special.code : Special → Nat
  | .lane => 0xD0 | .slice => 0xD1 | .group => 0xD2 | .tlane => 0xD3 | .team => 0xD4 | .teamX => 0xD5
  | .teamY => 0xD6 | .teamZ => 0xD7 | .nteam => 0xD8 | .cluster => 0xD9 | .role => 0xDA | .lcore => 0xDB
  | .pcore => 0xDC | .launch => 0xDD | .spb => 0xDE | .args => 0xDF | .leafX => 0xE0 | .leafY => 0xE1
  | .leafZ => 0xE2 | .leafH => 0xE3 | .draws => 0xE4 | .cycle => 0xE5 | .fmr => 0xE6 | .kact => 0xE7
  | .status => 0xE8 | .phase => 0xE9 | .round => 0xEA | .die => 0xEB | .ctx => 0xEC | .tstep => 0xED

/-- The special registers in the order of their codes (R41). -/
def Special.all : List Special :=
  [.lane, .slice, .group, .tlane, .team, .teamX, .teamY, .teamZ, .nteam, .cluster, .role, .lcore, .pcore, .launch,
   .spb, .args, .leafX, .leafY, .leafZ, .leafH, .draws, .cycle, .fmr, .kact, .status, .phase, .round, .die, .ctx, .tstep]

/-- The byte of an operand (R40). -/
def Opd.code : Opd → Nat
  | .v n => n.val
  | .s n => 0x80 + n.val
  | .k n => 0xC0 + n.val
  | .x n => 0xC8 + n.val
  | .sp r => r.code
  | .zero => 0xFF

/-- The operand of a byte (R40, R41); none for the reserved bytes 0xEE to 0xFE. -/
def Opd.ofCode (c : Nat) : Option Opd :=
  if c < 0x80 then some (.v (Fin.ofNat 128 c))
  else if c < 0xC0 then some (.s (Fin.ofNat 64 (c - 0x80)))
  else if c < 0xC8 then some (.k (Fin.ofNat 8 (c - 0xC0)))
  else if c < 0xD0 then some (.x (Fin.ofNat 8 (c - 0xC8)))
  else if c == 0xFF then some .zero
  else (Special.all[c - 0xD0]?).map .sp

/-- The type codes of R36. -/
def Ty.all : List Ty :=
  [.b32, .i32, .n32, .i64, .n64, .i16x2, .n16x2, .i8x4, .n8x4, .f32, .f64, .f16x2, .bf16x2]
def Ty.code : Ty → Nat
  | .b32 => 0 | .i32 => 1 | .n32 => 2 | .i64 => 3 | .n64 => 4 | .i16x2 => 5 | .n16x2 => 6 | .i8x4 => 7 | .n8x4 => 8
  | .f32 => 9 | .f64 => 10 | .f16x2 => 11 | .bf16x2 => 12
def Ty.ofCode (c : Nat) : Option Ty := Ty.all[c]?

def Rnd.code : Rnd → Nat
  | .rne => 0 | .rtz => 1 | .rdn => 2 | .rup => 3
def Rnd.ofCode (c : Nat) : Option Rnd := [Rnd.rne, .rtz, .rdn, .rup][c]?

def Cond.code : Cond → Nat
  | .eq => 0 | .ne => 1 | .lt => 2 | .ge => 3 | .lo => 4 | .hs => 5 | .mi => 6 | .pl => 7 | .vs => 8 | .vc => 9
  | .gt => 10 | .le => 11 | .uo => 12 | .or => 13 | .al => 14
/-- The conditions of R39; 15 is reserved. -/
def Cond.ofCode (c : Nat) : Option Cond :=
  [Cond.eq, .ne, .lt, .ge, .lo, .hs, .mi, .pl, .vs, .vc, .gt, .le, .uo, .or, .al][c]?

def Width.code : Width → Nat
  | .w8 => 0 | .w16 => 1 | .w32 => 2 | .w64 => 3 | .w128 => 4
/-- The access widths of R37; 5 to 7 are reserved. -/
def Width.ofCode (c : Nat) : Option Width := [Width.w8, .w16, .w32, .w64, .w128][c]?

def PairOp.all : List PairOp :=
  [.nop, .mov, .iadd, .isub, .and, .or, .xor, .shl, .shr, .sar, .imin, .imax, .imul, .fadd, .fsub, .fmul, .fmin, .fmax,
   .fabs, .fneg, .i2f, .f2i]
def PairOp.code : PairOp → Nat
  | .nop => 0 | .mov => 1 | .iadd => 2 | .isub => 3 | .and => 4 | .or => 5 | .xor => 6 | .shl => 7 | .shr => 8
  | .sar => 9 | .imin => 10 | .imax => 11 | .imul => 12 | .fadd => 13 | .fsub => 14 | .fmul => 15 | .fmin => 16
  | .fmax => 17 | .fabs => 18 | .fneg => 19 | .i2f => 20 | .f2i => 21
/-- The pair operations of R54; 0x16 to 0x7F are reserved. -/
def PairOp.ofCode (c : Nat) : Option PairOp := PairOp.all[c]?

/-- Why a word is not an instruction. -/
inductive Reject where
  /-- an opcode that R55 does not list: fault 0x01, the first check of R59 -/
  | reservedOpcode
  /-- a POP7 of 0x16 to 0x7F: fault 0x01, the first check of R59 -/
  | reservedPairOp
  /-- a reserved operand byte, type, rounding, condition or width code, or a reserved field that is not zero: 0x01 (R58) -/
  | reservedField
  /-- fields that the instruction's entry does not accept: fault 0x01 (R58) -/
  | illFormed
  /-- the pair rule of R53: fault 0x02 -/
  | pairRule
  /-- fewer than eight bytes -/
  | short
  deriving DecidableEq, Repr

/-- The fault code of a rejected word (R59). -/
def Reject.code : Reject → Nat
  | .pairRule => 0x02
  | _ => 0x01

/-- A word split into its layout (R35, R51). -/
inductive Enc where
  | r (op : Nat) (f : RWord)
  | i (op : Nat) (f : IWord)
  | m (op : Nat) (f : MWord)
  | b (op : Nat) (f : BWord)
  | p (f : PWord)
  deriving DecidableEq, Repr

inductive Form where
  | r | i | m | b
  deriving DecidableEq, Repr

/-- The opcodes of each layout (R55). -/
def iOpcodes : List Nat := [0x02, 0x03, 0x20, 0x21, 0x22, 0x23, 0x24, 0x25, 0x26, 0x27, 0x30, 0x56, 0x57, 0x58]
def mOpcodes : List Nat := [0xA0, 0xA1, 0xA4, 0xA5, 0xA6]
def bOpcodes : List Nat := [0x80, 0x81, 0x82, 0x84, 0x8A, 0xA8]
/-- The opcodes that R55 leaves reserved. -/
def opReserved (op : Nat) : Bool :=
  (0x35 ≤ op && op ≤ 0x3F) || (0x5F ≤ op && op ≤ 0x7F) || (0x8B ≤ op && op ≤ 0x8F) || (0x9B ≤ op && op ≤ 0x9F) || (0xAB ≤ op && op ≤ 0xAF) || (0xBA ≤ op && op ≤ 0xBF) || (0xCB ≤ op && op ≤ 0xCF) || (0xDA ≤ op && op ≤ 0xDF) || op == 0xE7 || (0xF7 ≤ op && op ≤ 0xFF)
/-- The privileged opcodes (R55, R56). -/
def opPrivileged (op : Nat) : Bool := [0xC7, 0xC8, 0xC9, 0xCA, 0xEF, 0xF2, 0xF3, 0xF4, 0xF5, 0xF6].contains op

/-- The layout of an opcode (R55); none when it is reserved. -/
def formOf (op : Nat) : Option Form :=
  if opReserved op then none
  else if iOpcodes.contains op then some .i
  else if mOpcodes.contains op then some .m
  else if bOpcodes.contains op then some .b
  else some .r

/-- Field widths of the R-type layout from bit 0 up: MODB 4:0, negate C B A, SAT, rounding, MODA 3:0, type, C, B, A, D, K, OP,
F, S (R35, R36). -/
def rLayout : List Nat := [5, 1, 1, 1, 1, 2, 4, 4, 8, 8, 8, 8, 3, 8, 1, 1]
/-- IMM32, MODI, A, D, K, OP, F, S. -/
def iLayout : List Nat := [32, 3, 8, 8, 3, 8, 1, 1]
/-- OFF19, MODM 1:0, sign-extend, scale, width, B, A, D, K, OP, F, S (R37). -/
def mLayout : List Nat := [19, 2, 1, 2, 3, 8, 8, 8, 3, 8, 1, 1]
/-- DISP32, zero, ST, KT, CC, PT, zero, OP, F, S (R35, R151). -/
def bLayout : List Nat := [32, 6, 6, 3, 4, 1, 2, 8, 1, 1]
/-- IMM8, I, A6, D6, K, POP7 of slot 1, the same of slot 0, F, S (R51). -/
def pLayout : List Nat := [8, 1, 6, 6, 3, 7, 8, 1, 6, 6, 3, 7, 1, 1]

def bit (b : Bool) : Nat := if b then 1 else 0

def RWord.fields (op : Nat) (f : RWord) : List Nat :=
  [f.lo.val, bit f.negC, bit f.negB, bit f.negA, bit f.sat, f.rnd.code, f.m.val, f.ty.code, f.c.code, f.b.code,
   f.a.code, f.d.code, f.k.val, op, 0, bit f.s]
def IWord.fields (op : Nat) (f : IWord) : List Nat :=
  [f.imm.toNat, f.modi.val, f.a.code, f.d.code, f.k.val, op, 0, bit f.s]
def MWord.fields (op : Nat) (f : MWord) : List Nat :=
  [f.off.toNat, f.op.val, bit f.sx, f.scale.val, f.width.code, f.b.code, f.a.code, f.d.code, f.k.val, op, 0, bit f.s]
def BWord.fields (op : Nat) (f : BWord) : List Nat :=
  [f.disp.toNat, 0, f.st.val, f.kt.val, f.cc.code, bit f.pt, 0, op, 0, bit f.s]
def PSlot.fields (p : PSlot) : List Nat :=
  match p.src with
  | .reg n => [0, 0, n.val, p.d.val, p.k.val, p.op.code]
  | .imm v => [v.toNat, 1, 0, p.d.val, p.k.val, p.op.code]
def PWord.fields (f : PWord) : List Nat := f.s1.fields ++ f.s0.fields ++ [1, bit f.s]

/-- The word of a layout. -/
def Enc.toNat : Enc → Nat
  | .r op f => packFields (rLayout.zip (f.fields op))
  | .i op f => packFields (iLayout.zip (f.fields op))
  | .m op f => packFields (mLayout.zip (f.fields op))
  | .b op f => packFields (bLayout.zip (f.fields op))
  | .p f => packFields (pLayout.zip f.fields)

def parseR (w : Nat) : Option RWord :=
  match unpackFields rLayout w with
  | [lo, nc, nb, na, sat, rnd, m, ty, c, b, a, d, k, _, _, s] => do
    let rnd ← Rnd.ofCode rnd
    let ty ← Ty.ofCode ty
    let c ← Opd.ofCode c
    let b ← Opd.ofCode b
    let a ← Opd.ofCode a
    let d ← Opd.ofCode d
    some { s := s == 1, k := Fin.ofNat 8 k, d := d, a := a, b := b, c := c, ty := ty, m := Fin.ofNat 16 m, rnd := rnd,
           sat := sat == 1, negA := na == 1, negB := nb == 1, negC := nc == 1, lo := Fin.ofNat 32 lo }
  | _ => none

def parseI (w : Nat) : Option IWord :=
  match unpackFields iLayout w with
  | [imm, modi, a, d, k, _, _, s] => do
    let a ← Opd.ofCode a
    let d ← Opd.ofCode d
    some { s := s == 1, k := Fin.ofNat 8 k, d := d, a := a, modi := Fin.ofNat 8 modi, imm := BitVec.ofNat 32 imm }
  | _ => none

def parseM (w : Nat) : Option MWord :=
  match unpackFields mLayout w with
  | [off, op, sx, scale, width, b, a, d, k, _, _, s] => do
    let width ← Width.ofCode width
    let b ← Opd.ofCode b
    let a ← Opd.ofCode a
    let d ← Opd.ofCode d
    some { s := s == 1, k := Fin.ofNat 8 k, d := d, a := a, b := b, width := width, scale := Fin.ofNat 4 scale,
           sx := sx == 1, op := Fin.ofNat 4 op, off := BitVec.ofNat 19 off }
  | _ => none

/-- Bits 53:52 and 37:32 are reserved (R35, R151). -/
def parseB (w : Nat) : Option BWord :=
  match unpackFields bLayout w with
  | [disp, 0, st, kt, cc, pt, 0, _, _, s] => do
    let cc ← Cond.ofCode cc
    some { s := s == 1, pt := pt == 1, cc := cc, kt := Fin.ofNat 8 kt, st := Fin.ofNat 64 st, disp := BitVec.ofNat 32 disp }
  | _ => none

/-- The source of a slot: with I = 1 A6 is zero, with I = 0 IMM8 is zero (R51). -/
def parseSlot (imm i a6 d6 k : Nat) (op : PairOp) : Option PSlot :=
  if i == 1 then
    if a6 == 0 then some { op := op, k := Fin.ofNat 8 k, d := Fin.ofNat 64 d6, src := .imm (BitVec.ofNat 8 imm) } else none
  else
    if imm == 0 then some { op := op, k := Fin.ofNat 8 k, d := Fin.ofNat 64 d6, src := .reg (Fin.ofNat 64 a6) } else none

def parseP (w : Nat) : Except Reject PWord :=
  match unpackFields pLayout w with
  | [imm1, i1, a1, d1, k1, op1, imm0, i0, a0, d0, k0, op0, _, s] =>
    match PairOp.ofCode op0, PairOp.ofCode op1 with
    | some op0, some op1 =>
      match parseSlot imm0 i0 a0 d0 k0 op0, parseSlot imm1 i1 a1 d1 k1 op1 with
      | some s0, some s1 => .ok { s := s == 1, s0 := s0, s1 := s1 }
      | _, _ => .error .reservedField
    | _, _ => .error .reservedPairOp
  | _ => .error .short

/-- The opcode field of a full word (R35). -/
def opcodeOf (w : Nat) : Nat := fld w 54 8

def ofField (o : Option Enc) : Except Reject Enc :=
  match o with
  | some e => .ok e
  | none => .error .reservedField

/-- The layout of a 64-bit word. -/
def parse (w : Nat) : Except Reject Enc :=
  if bitOf w 62 then (parseP w).map .p
  else
    match formOf (opcodeOf w) with
    | none => .error .reservedOpcode
    | some .r => ofField ((parseR w).map (.r (opcodeOf w)))
    | some .i => ofField ((parseI w).map (.i (opcodeOf w)))
    | some .m => ofField ((parseM w).map (.m (opcodeOf w)))
    | some .b => ofField ((parseB w).map (.b (opcodeOf w)))

/-- The instruction of an R-type word (R55). MODA 3:0 tells apart the words that share an opcode. -/
def Instr.ofR (op : Nat) (f : RWord) : Option Instr :=
  match op with
  | 0x00 => some (.nop f)
  | 0x01 => some (.mov f)
  | 0x04 => some (.rdln f)
  | 0x05 => some (.wrln f)
  | 0x06 => some (.shfl f)
  | 0x07 => some (.sel f)
  | 0x08 => some (.iadd f)
  | 0x09 => some (.isub f)
  | 0x0A => some (.imul f)
  | 0x0B => some (.imulh f)
  | 0x0C => some (.imad f)
  | 0x0D => some (.imin f)
  | 0x0E => some (.imax f)
  | 0x0F => some (.iabs f)
  | 0x10 => some (.ineg f)
  | 0x11 => some (.and f)
  | 0x12 => some (.or f)
  | 0x13 => some (.xor f)
  | 0x14 => some (.not f)
  | 0x15 => some (.shl f)
  | 0x16 => some (.shr f)
  | 0x17 => some (.sar f)
  | 0x18 => some (.rot f)
  | 0x19 => some (.popc f)
  | 0x1A => some (.clz f)
  | 0x1B => some (.brev f)
  | 0x1C => some (.bfx f)
  | 0x1D => some (.bfi f)
  | 0x1E => some (.lea f)
  | 0x1F => some (.icmp f)
  | 0x28 => some (.kand f)
  | 0x29 => some (.kor f)
  | 0x2A => some (.kxor f)
  | 0x2B => some (.knot f)
  | 0x2C => some (.kmov f)
  | 0x2D => some (.kpop f)
  | 0x2E => some (.kffs f)
  | 0x2F => some (.kset f)
  | 0x31 => some (.prmt f)
  | 0x32 => some (.pack f)
  | 0x33 => some (.unpk f)
  | 0x34 => some (.clrst f)
  | 0x40 => some (.fadd f)
  | 0x41 => some (.fsub f)
  | 0x42 => some (.fmul f)
  | 0x43 => some (.ffma f)
  | 0x44 => some (.fmin f)
  | 0x45 => some (.fmax f)
  | 0x46 => some (.fabs f)
  | 0x47 => some (.fneg f)
  | 0x48 => some (.fcmp f)
  | 0x49 => some (.fclass f)
  | 0x4A => some (.fdiv f)
  | 0x4B => some (.fsqrt f)
  | 0x4C => some (.frcp f)
  | 0x4D => some (.frsq f)
  | 0x4E => some (.fex2 f)
  | 0x4F => some (.flg2 f)
  | 0x50 => some (.fsin f)
  | 0x51 => some (.fcos f)
  | 0x52 => some (.frnd f)
  | 0x53 => some (.fscl f)
  | 0x54 => some (.fgexp f)
  | 0x55 => some (.fcps f)
  | 0x59 => some (.f2f f)
  | 0x5A => some (.f2i f)
  | 0x5B => some (.i2f f)
  | 0x5C => some (.bpack f)
  | 0x5D => some (.bunpk f)
  | 0x5E => some (.fdp2 f)
  | 0x83 => some (.jmpi f)
  | 0x85 => some (.calli f)
  | 0x86 => some (.ret f)
  | 0x87 => some (.regang f)
  | 0x88 => some (.ksync f)
  | 0x89 => some (.exit f)
  | 0x90 => some (.mbld f)
  | 0x91 => some (.mma f)
  | 0x92 => some (.mzro f)
  | 0x93 => some (.mdrn f)
  | 0x94 => some (.mdrs f)
  | 0x95 => some (.mdrm f)
  | 0x96 => some (.mseq f)
  | 0x97 => some (.mgrp f)
  | 0x98 => some (.merr f)
  | 0x99 => some (.mscl f)
  | 0x9A => some (.mred f)
  | 0xA2 => some (.pushs f)
  | 0xA3 => some (.pops f)
  | 0xA7 => if f.m == 0 then some (.cmitT f) else if f.m == 1 then some (.cmitC f) else if f.m == 2 then some (.cmitD f) else none
  | 0xA9 => if f.m == 0 then some (.rfshT f) else if f.m == 2 then some (.rfshD f) else none
  | 0xAA => some (.fence f)
  | 0xB0 => some (.cpy f)
  | 0xB1 => some (.gthr f)
  | 0xB2 => some (.sctr f)
  | 0xB3 => some (.cpyc f)
  | 0xB4 => some (.mcst f)
  | 0xB5 => some (.csto f)
  | 0xB6 => some (.cldx f)
  | 0xB7 => some (.pfch f)
  | 0xB8 => some (.bulk f)
  | 0xB9 => some (.coll f)
  | 0xC0 => some (.qinit f)
  | 0xC1 => some (.qpush f)
  | 0xC2 => some (.qpop f)
  | 0xC3 => some (.qpeek f)
  | 0xC4 => some (.qrel f)
  | 0xC5 => some (.emit f)
  | 0xC6 => some (.trig f)
  | 0xC7 => some (.launch f)
  | 0xC8 => if f.m == 0 then some (.lwait f) else if f.m == 1 then some (.lwaitCancel f) else none
  | 0xC9 => some (.msgrd f)
  | 0xCA => some (.msgwr f)
  | 0xD0 => some (.vget f)
  | 0xD1 => some (.vstn f)
  | 0xD2 => some (.vset f)
  | 0xD3 => some (.vins f)
  | 0xD4 => some (.vdel f)
  | 0xD5 => some (.vact f)
  | 0xD6 => if f.m == 2 then some (.vleafRel f) else some (.vleaf f)
  | 0xD7 => some (.vmrc f)
  | 0xD8 => some (.halo f)
  | 0xD9 => some (.vsmp f)
  | 0xE0 => some (.rtrc f)
  | 0xE1 => if f.m == 0 then some (.rcont f) else if f.m == 1 then some (.rcontKill f) else none
  | 0xE2 => some (.rget f)
  | 0xE3 => some (.rlog f)
  | 0xE4 => some (.rrpl f)
  | 0xE5 => some (.hinv f)
  | 0xE6 => if f.m == 0 then some (.bvhbBuild f) else if f.m == 1 then some (.bvhbRefit f) else none
  | 0xE8 => if f.m == 0 then some (.bar f) else if f.m == 1 then some (.cbar f) else none
  | 0xE9 => some (.arrv f)
  | 0xEA => some (.wait f)
  | 0xEB => some (.gbar f)
  | 0xEC => some (.tsbar f)
  | 0xED => some (.rng f)
  | 0xEE => some (.cntr f)
  | 0xEF => some (.cntc f)
  | 0xF0 => some (.trap f)
  | 0xF1 => some (.brk f)
  | 0xF2 => some (.csrr f)
  | 0xF3 => some (.csrw f)
  | 0xF4 => some (.iret f)
  | 0xF5 => some (.tlbi f)
  | 0xF6 => some (.halt f)
  | _ => none

/-- The instruction of an I-type word (R55). -/
def Instr.ofI (op : Nat) (f : IWord) : Option Instr :=
  match op with
  | 0x02 => some (.movi f)
  | 0x03 => some (.movh f)
  | 0x20 => some (.iaddi f)
  | 0x21 => some (.andi f)
  | 0x22 => some (.ori f)
  | 0x23 => some (.xori f)
  | 0x24 => some (.shli f)
  | 0x25 => some (.shri f)
  | 0x26 => some (.icmpi f)
  | 0x27 => some (.imuli f)
  | 0x30 => some (.sfmt f)
  | 0x56 => some (.faddi f)
  | 0x57 => some (.fmuli f)
  | 0x58 => some (.ffmai f)
  | _ => none

/-- The instruction of an M-type word (R55). -/
def Instr.ofM (op : Nat) (f : MWord) : Option Instr :=
  match op with
  | 0xA0 => some (.ld f)
  | 0xA1 => some (.st f)
  | 0xA4 => some (.atom f)
  | 0xA5 => some (.red f)
  | 0xA6 => some (.cas f)
  | _ => none

/-- The instruction of a B-type word (R55). CC tells ABRT.G from ABRT.T (R232, R233). -/
def Instr.ofB (op : Nat) (f : BWord) : Option Instr :=
  match op with
  | 0x80 => some (.bra f)
  | 0x81 => some (.bkz f)
  | 0x82 => some (.bknz f)
  | 0x84 => some (.call f)
  | 0x8A => some (.loop f)
  | 0xA8 => if f.cc == .eq then some (.abrtG f) else some (.abrtT f)
  | _ => none

/-- The instruction of a layout. -/
def Instr.ofEnc : Enc → Option Instr
  | .r op f => Instr.ofR op f
  | .i op f => Instr.ofI op f
  | .m op f => Instr.ofM op f
  | .b op f => Instr.ofB op f
  | .p f => some (.pairWord f)

/-- The layout of an instruction; none for an event, which no word encodes. -/
def Instr.toEnc : Instr → Option Enc
  | .nop f => some (.r 0x00 f)
  | .mov f => some (.r 0x01 f)
  | .movi f => some (.i 0x02 f)
  | .movh f => some (.i 0x03 f)
  | .rdln f => some (.r 0x04 f)
  | .wrln f => some (.r 0x05 f)
  | .shfl f => some (.r 0x06 f)
  | .sel f => some (.r 0x07 f)
  | .iadd f => some (.r 0x08 f)
  | .isub f => some (.r 0x09 f)
  | .imul f => some (.r 0x0A f)
  | .imulh f => some (.r 0x0B f)
  | .imad f => some (.r 0x0C f)
  | .imin f => some (.r 0x0D f)
  | .imax f => some (.r 0x0E f)
  | .iabs f => some (.r 0x0F f)
  | .ineg f => some (.r 0x10 f)
  | .and f => some (.r 0x11 f)
  | .or f => some (.r 0x12 f)
  | .xor f => some (.r 0x13 f)
  | .not f => some (.r 0x14 f)
  | .shl f => some (.r 0x15 f)
  | .shr f => some (.r 0x16 f)
  | .sar f => some (.r 0x17 f)
  | .rot f => some (.r 0x18 f)
  | .popc f => some (.r 0x19 f)
  | .clz f => some (.r 0x1A f)
  | .brev f => some (.r 0x1B f)
  | .bfx f => some (.r 0x1C f)
  | .bfi f => some (.r 0x1D f)
  | .lea f => some (.r 0x1E f)
  | .icmp f => some (.r 0x1F f)
  | .iaddi f => some (.i 0x20 f)
  | .andi f => some (.i 0x21 f)
  | .ori f => some (.i 0x22 f)
  | .xori f => some (.i 0x23 f)
  | .shli f => some (.i 0x24 f)
  | .shri f => some (.i 0x25 f)
  | .icmpi f => some (.i 0x26 f)
  | .imuli f => some (.i 0x27 f)
  | .kand f => some (.r 0x28 f)
  | .kor f => some (.r 0x29 f)
  | .kxor f => some (.r 0x2A f)
  | .knot f => some (.r 0x2B f)
  | .kmov f => some (.r 0x2C f)
  | .kpop f => some (.r 0x2D f)
  | .kffs f => some (.r 0x2E f)
  | .kset f => some (.r 0x2F f)
  | .sfmt f => some (.i 0x30 f)
  | .prmt f => some (.r 0x31 f)
  | .pack f => some (.r 0x32 f)
  | .unpk f => some (.r 0x33 f)
  | .clrst f => some (.r 0x34 f)
  | .fadd f => some (.r 0x40 f)
  | .fsub f => some (.r 0x41 f)
  | .fmul f => some (.r 0x42 f)
  | .ffma f => some (.r 0x43 f)
  | .fmin f => some (.r 0x44 f)
  | .fmax f => some (.r 0x45 f)
  | .fabs f => some (.r 0x46 f)
  | .fneg f => some (.r 0x47 f)
  | .fcmp f => some (.r 0x48 f)
  | .fclass f => some (.r 0x49 f)
  | .fdiv f => some (.r 0x4A f)
  | .fsqrt f => some (.r 0x4B f)
  | .frcp f => some (.r 0x4C f)
  | .frsq f => some (.r 0x4D f)
  | .fex2 f => some (.r 0x4E f)
  | .flg2 f => some (.r 0x4F f)
  | .fsin f => some (.r 0x50 f)
  | .fcos f => some (.r 0x51 f)
  | .frnd f => some (.r 0x52 f)
  | .fscl f => some (.r 0x53 f)
  | .fgexp f => some (.r 0x54 f)
  | .fcps f => some (.r 0x55 f)
  | .faddi f => some (.i 0x56 f)
  | .fmuli f => some (.i 0x57 f)
  | .ffmai f => some (.i 0x58 f)
  | .f2f f => some (.r 0x59 f)
  | .f2i f => some (.r 0x5A f)
  | .i2f f => some (.r 0x5B f)
  | .bpack f => some (.r 0x5C f)
  | .bunpk f => some (.r 0x5D f)
  | .fdp2 f => some (.r 0x5E f)
  | .pairWord f => some (.p f)
  | .bra f => some (.b 0x80 f)
  | .bkz f => some (.b 0x81 f)
  | .bknz f => some (.b 0x82 f)
  | .loop f => some (.b 0x8A f)
  | .jmpi f => some (.r 0x83 f)
  | .call f => some (.b 0x84 f)
  | .calli f => some (.r 0x85 f)
  | .ret f => some (.r 0x86 f)
  | .regang f => some (.r 0x87 f)
  | .ksync f => some (.r 0x88 f)
  | .exit f => some (.r 0x89 f)
  | .mbld f => some (.r 0x90 f)
  | .mma f => some (.r 0x91 f)
  | .mzro f => some (.r 0x92 f)
  | .mdrn f => some (.r 0x93 f)
  | .mdrs f => some (.r 0x94 f)
  | .mdrm f => some (.r 0x95 f)
  | .mseq f => some (.r 0x96 f)
  | .mgrp f => some (.r 0x97 f)
  | .merr f => some (.r 0x98 f)
  | .mscl f => some (.r 0x99 f)
  | .mred f => some (.r 0x9A f)
  | .ld f => some (.m 0xA0 f)
  | .st f => some (.m 0xA1 f)
  | .pushs f => some (.r 0xA2 f)
  | .pops f => some (.r 0xA3 f)
  | .atom f => some (.m 0xA4 f)
  | .red f => some (.m 0xA5 f)
  | .cas f => some (.m 0xA6 f)
  | .cmitT f => some (.r 0xA7 f)
  | .cmitC f => some (.r 0xA7 f)
  | .cmitD f => some (.r 0xA7 f)
  | .abrtG f => some (.b 0xA8 f)
  | .abrtT f => some (.b 0xA8 f)
  | .rfshT f => some (.r 0xA9 f)
  | .rfshD f => some (.r 0xA9 f)
  | .fence f => some (.r 0xAA f)
  | .cpy f => some (.r 0xB0 f)
  | .gthr f => some (.r 0xB1 f)
  | .sctr f => some (.r 0xB2 f)
  | .cpyc f => some (.r 0xB3 f)
  | .mcst f => some (.r 0xB4 f)
  | .csto f => some (.r 0xB5 f)
  | .cldx f => some (.r 0xB6 f)
  | .pfch f => some (.r 0xB7 f)
  | .bulk f => some (.r 0xB8 f)
  | .coll f => some (.r 0xB9 f)
  | .qinit f => some (.r 0xC0 f)
  | .qpush f => some (.r 0xC1 f)
  | .qpop f => some (.r 0xC2 f)
  | .qpeek f => some (.r 0xC3 f)
  | .qrel f => some (.r 0xC4 f)
  | .emit f => some (.r 0xC5 f)
  | .trig f => some (.r 0xC6 f)
  | .launch f => some (.r 0xC7 f)
  | .lwait f => some (.r 0xC8 f)
  | .lwaitCancel f => some (.r 0xC8 f)
  | .msgrd f => some (.r 0xC9 f)
  | .msgwr f => some (.r 0xCA f)
  | .vget f => some (.r 0xD0 f)
  | .vstn f => some (.r 0xD1 f)
  | .vset f => some (.r 0xD2 f)
  | .vins f => some (.r 0xD3 f)
  | .vdel f => some (.r 0xD4 f)
  | .vact f => some (.r 0xD5 f)
  | .vleaf f => some (.r 0xD6 f)
  | .vleafRel f => some (.r 0xD6 f)
  | .vmrc f => some (.r 0xD7 f)
  | .halo f => some (.r 0xD8 f)
  | .vsmp f => some (.r 0xD9 f)
  | .rtrc f => some (.r 0xE0 f)
  | .rcont f => some (.r 0xE1 f)
  | .rcontKill f => some (.r 0xE1 f)
  | .rget f => some (.r 0xE2 f)
  | .rlog f => some (.r 0xE3 f)
  | .rrpl f => some (.r 0xE4 f)
  | .hinv f => some (.r 0xE5 f)
  | .bvhbBuild f => some (.r 0xE6 f)
  | .bvhbRefit f => some (.r 0xE6 f)
  | .bar f => some (.r 0xE8 f)
  | .cbar f => some (.r 0xE8 f)
  | .arrv f => some (.r 0xE9 f)
  | .wait f => some (.r 0xEA f)
  | .gbar f => some (.r 0xEB f)
  | .tsbar f => some (.r 0xEC f)
  | .rng f => some (.r 0xED f)
  | .cntr f => some (.r 0xEE f)
  | .cntc f => some (.r 0xEF f)
  | .trap f => some (.r 0xF0 f)
  | .brk f => some (.r 0xF1 f)
  | .csrr f => some (.r 0xF2 f)
  | .csrw f => some (.r 0xF3 f)
  | .iret f => some (.r 0xF4 f)
  | .tlbi f => some (.r 0xF5 f)
  | .halt f => some (.r 0xF6 f)
  | .pendingResultReturn _ _ => none
  | .teamTrap _ => none
  | .admitTeam _ => none
  | .groupRetire _ => none
  | .gridComplete _ => none
  | .promote _ => none
  | .roundApply _ => none
  | .teamCollectiveMatch _ => none
  | .teamPhaseComplete _ => none
  | .cbarRelease _ _ => none
  | .dIntervalClose _ => none
  | .tileOpComplete _ => none
  | .copyComplete _ => none
  | .bulkChunkComplete _ => none
  | .copySuspend _ => none
  | .copyFail _ => none
  | .collStepComplete _ _ _ => none
  | .collTimeout _ _ _ => none
  | .rampWindowRollover _ => none
  | .timeSliceExpire _ => none
  | .worldSwitchOut _ => none
  | .worldSwitchIn _ => none
  | .migration _ _ _ => none
  | .forward _ _ _ => none
  | .controlInterrupt _ => none
  | .teamctlResume _ _ => none
  | .teamctlTerminate _ _ => none
  | .cpyctlResume _ _ => none
  | .cpyctlCancel _ _ => none
  | .create _ _ => none
  | .load _ _ _ => none
  | .start _ => none
  | .stop _ => none
  | .destroy _ => none
  | .checkpoint _ => none
  | .quietPointCapture _ => none
  | .restore _ _ => none
  | .query _ => none
  | .intailWrite _ _ => none
  | .outackWrite _ _ _ => none
  | .packetReceive _ => none
  | .flitReceive _ => none
  | .ident => none
  | .power => none
  | .logs => none
  | .counters _ _ => none
  | .debugStop _ => none
  | .debugImageAccess _ _ => none
  | .debugSingleStep _ => none
  | .debugStepBack _ => none
  | .debugResume _ => none
  | .debugToken _ => none
  | .fuseAdvance => none
  | .warmReset => none
  | .coldReset _ => none
  | .thermalStop _ => none
  | .uncorrectableError _ => none
  | .scratchpadPoison _ _ => none
  | .counterOverflow _ _ _ => none
  | .issueSlot => none
  | .thermalClockLowering _ => none

/-- The pair rule of R53; every other word passes. -/
def Instr.pairOk : Instr → Bool
  | .pairWord f => f.pairRule
  | _ => true

/-- The instruction of a 64-bit word, or the reason there is none, in the order of R59. -/
def decodeWord (w : Nat) : Except Reject Instr :=
  match parse w with
  | .error e => .error e
  | .ok e =>
    match Instr.ofEnc e with
    | none => .error .illFormed
    | some i => if !i.wf then .error .illFormed else if !i.pairOk then .error .pairRule else .ok i

/-- The 64-bit word of an instruction (R35, R51). -/
def encode (i : Instr) : Option Nat := i.toEnc.map Enc.toNat

/-- The marker bit of an instruction (R32). -/
def Instr.marker (i : Instr) : Bool :=
  match i.toEnc with
  | some (.r _ f) => f.s
  | some (.i _ f) => f.s
  | some (.m _ f) => f.s
  | some (.b _ f) => f.s
  | some (.p f) => f.s
  | none => false

/-- Decoding from memory: eight bytes, little-endian (R32), and the bytes that follow. -/
def decodeBytes (l : List Byte) : Except Reject (Instr × List Byte) :=
  if l.length < 8 then .error .short
  else (decodeWord (leNat (l.take 8))).map fun i => (i, l.drop 8)

/-- The instruction that the decoder reads from a word whose bits are `w`, the bits above `nbits` being zero. -/
def decodeTableWord (nbits w : Nat) : Option Instr :=
  match decodeBytes (leBytes 8 (w % 2 ^ nbits)) with
  | .ok (i, _) => some i
  | .error _ => none

end Sys2Proof
end

