-- ==== Sys2Proof/Config.lean ====
section
/-! DEFINITION. What the spec leaves open: constants with no body, so that no proof can see a value. Each is named in a
row of the assumption log. -/

namespace Sys2Proof.Config

/-- A value that the spec does not state, drawn by a step from its counter `State.freeCtr` (entry 7). -/
opaque freeValue : Nat → W64

/-- A value that the spec does not state for some operands of a word: a function of them, so that the same operands give the same value
whatever else runs (R9, entry 9). -/
opaque freeOf : List Nat → Nat → W64

/-- The result of a transcendental word where the model's enclosure does not decide the rounding; first argument the
function, second the operand (entry 8). The enclosures decide every operand tried. -/
opaque undecided : Nat → Nat → Nat

/-- The public keys held in the fuses, as numbers of 32 little-endian bytes: the Bexner debug authority's, which signs debug tokens
(R365), and the one that signs firmware images (R364, entry 6). -/
opaque authorityKey : Nat
opaque firmwareKey : Nat

/-- What the root-of-trust core records of a firmware image, and its signature over some records with the device identity key (R364,
entry 6). -/
opaque measurement : List Byte → BitVec 512
opaque attestation : List (BitVec 512) → BitVec 512

/-- The nonce the root of trust gives after a reset (R365, entry 6). -/
opaque nonce : Nat → BitVec 256

/-- The device identity public key held by the root-of-trust core (R365, entry 6). -/
opaque deviceKey : Nat

end Sys2Proof.Config
end

