-- ==== Sys2Proof/Machine/Fp.lean ====
section
/-! DEFINITION. Exact arithmetic and rounding (chapter "Number formats and exact arithmetic"): the formats of R68, Round()
with overflow, tininess and flags (R70 to R75), the sums of R83 and R84, division, roots and transcendentals (R129 to
R131), Sat() (R76), the shared-block codec (R79 to R81), Apply(), Fold() and TreeFold() (R86) and the wire format (R88 to
R90). A result is a pair of a bit pattern and a mask of STATUS flags. -/

namespace Sys2Proof.Machine

/-! ### Flags: the bit positions of the STATUS map (R96) -/

def fNV : Nat := 1
def fDZ : Nat := 2
def fOF : Nat := 4
def fUF : Nat := 8
def fNX : Nat := 16
def fIOV : Nat := 32
def fSC : Nat := 256
def fST : Nat := 512
def fME : Nat := 1024

/-! ### Integers -/

/-- The low `w` bits of a number. -/
def low (w n : Nat) : Nat := n % 2 ^ w
/-- The signed reading of the low `w` bits. -/
def sgn (w n : Nat) : Int :=
  let n := n % 2 ^ w
  if n < 2 ^ (w - 1) then (n : Int) else (n : Int) - (2 ^ w : Nat)
/-- The low `w` bits of an integer. -/
def ofInt (w : Nat) (x : Int) : Nat := (x % ((2 ^ w : Nat) : Int)).toNat
/-- Sign extension from `w` to `v` bits. -/
def sext (w v n : Nat) : Nat := ofInt v (sgn w n)

/-- The signed or unsigned reading of `w` bits. -/
def rd (signed : Bool) (w n : Nat) : Int := if signed then sgn w n else ((n % 2 ^ w : Nat) : Int)
def loOf (signed : Bool) (w : Nat) : Int := if signed then -((2 ^ (w - 1) : Nat) : Int) else 0
def hiOf (signed : Bool) (w : Nat) : Int :=
  if signed then ((2 ^ (w - 1) : Nat) : Int) - 1 else ((2 ^ w : Nat) : Int) - 1

/-- Sat() of R76, as bits and flags. -/
def satInt (signed : Bool) (w : Nat) (x : Int) : Nat × Nat :=
  if x < loOf signed w then (ofInt w (loOf signed w), fIOV)
  else if hiOf signed w < x then (ofInt w (hiOf signed w), fIOV)
  else (ofInt w x, 0)

/-- Wrapping or saturating narrowing (R76). -/
def narrow (sat signed : Bool) (w : Nat) (x : Int) : Nat × Nat :=
  if sat then satInt signed w x else (ofInt w x, 0)

/-! ### Formats (R68) -/

structure Fmt where
  bits : Nat
  fbits : Nat
  bias : Nat
  ieee : Bool := true
  deriving DecidableEq, Repr

def f64 : Fmt := { bits := 64, fbits := 52, bias := 1023 }
def f32 : Fmt := { bits := 32, fbits := 23, bias := 127 }
def f16 : Fmt := { bits := 16, fbits := 10, bias := 15 }
def bf16 : Fmt := { bits := 16, fbits := 7, bias := 127 }
def e4m3 : Fmt := { bits := 8, fbits := 3, bias := 7, ieee := false }
def e5m2 : Fmt := { bits := 8, fbits := 2, bias := 15 }

namespace Fmt
def expMax (f : Fmt) : Nat := 2 ^ (f.bits - 1 - f.fbits) - 1
/-- Exponent of the unit of the subnormals. -/
def qmin (f : Fmt) : Int := 1 - f.bias - f.fbits
/-- Exponent of the largest finite value. -/
def emax (f : Fmt) : Int := if f.ieee then f.bias else f.expMax - f.bias
/-- Significand of the largest finite value, in units of 2^(emax − fbits). -/
def maxSig (f : Fmt) : Nat := if f.ieee then 2 ^ (f.fbits + 1) - 1 else 2 ^ (f.fbits + 1) - 2
def signBit (f : Fmt) (neg : Bool) : Nat := if neg then 2 ^ (f.bits - 1) else 0
/-- Canon() of R74. -/
def canon (f : Fmt) : Nat :=
  if f.ieee then f.expMax * 2 ^ f.fbits + 2 ^ (f.fbits - 1) else f.expMax * 2 ^ f.fbits + (2 ^ f.fbits - 1)
def infBits (f : Fmt) (neg : Bool) : Nat := f.signBit neg + f.expMax * 2 ^ f.fbits
/-- ± the largest finite value. -/
def largest (f : Fmt) (neg : Bool) : Nat :=
  f.signBit neg + (if f.ieee then f.expMax * 2 ^ f.fbits - 1 else f.expMax * 2 ^ f.fbits + 2 ^ f.fbits - 2)
end Fmt

/-- The value of a bit pattern: a NaN (signalling or quiet), an infinity, or (−1)^neg · m · 2^e. -/
inductive FV where
  | nan (sig : Bool)
  | inf (neg : Bool)
  | fin (neg : Bool) (m : Nat) (e : Int)
  deriving DecidableEq, Repr

namespace FV
def isNan : FV → Bool | .nan _ => true | _ => false
def isSnan : FV → Bool | .nan s => s | _ => false
def isZero : FV → Bool | .fin _ m _ => m == 0 | _ => false
def isInf : FV → Bool | .inf _ => true | _ => false
def neg : FV → Bool | .nan _ => false | .inf n => n | .fin n _ _ => n
def one : FV := .fin false 1 0
end FV

/-- The value a pattern stands for (R68). -/
def unpackFp (f : Fmt) (w : Nat) : FV :=
  let s := bitOf w (f.bits - 1)
  let ex := fld w f.fbits (f.bits - 1 - f.fbits)
  let fr := fld w 0 f.fbits
  if ex == f.expMax && f.ieee then
    if fr == 0 then .inf s else .nan (fr < 2 ^ (f.fbits - 1))
  else if ex == f.expMax && fr == 2 ^ f.fbits - 1 then .nan false
  else if ex == 0 then .fin s fr f.qmin
  else .fin s (fr + 2 ^ f.fbits) (f.qmin + ex - 1)

/-! ### Rounding (R70 to R73) -/

/-- m · 2^e in units of 2^q, rounded to an integer by a mode; the flag says inexact. -/
def roundAt (rnd : Rnd) (neg : Bool) (m : Nat) (e q : Int) : Nat × Bool :=
  if m == 0 then (0, false)
  else if q ≤ e then (m * 2 ^ (e - q).toNat, false)
  else
    let sh := (q - e).toNat
    let far := sh > Nat.log2 m + 1
    let k := if far then 0 else m / 2 ^ sh
    let rest := if far then 1 else m % 2 ^ sh
    let half := if far then 2 else 2 ^ (sh - 1)
    let up := match rnd with
      | .rne => half < rest || (half == rest && k % 2 == 1)
      | .rtz => false
      | .rdn => neg && rest != 0
      | .rup => !neg && rest != 0
    (if up then k + 1 else k, rest != 0)

/-- RNEint() of R81. -/
def rneInt (m : Nat) (e : Int) : Nat × Bool := roundAt .rne false m e 0

/-- Round() of R70 of (−1)^neg · m · 2^e, with overflow (R71; SAT or E4M3 give ±largest), tininess (R72) and flags (R75). -/
def roundFp (f : Fmt) (rnd : Rnd) (sat : Bool) (neg : Bool) (m : Nat) (e : Int) : Nat × Nat :=
  if m == 0 then (f.signBit neg, 0)
  else
    let ex : Int := (Nat.log2 m : Nat) + e
    let q : Int := ex - f.fbits
    let k := (roundAt rnd neg m e q).1
    -- a tie between the largest finite value and the overflow threshold is an overflow (R70)
    let tie := rnd == .rne && ex == f.emax && (roundAt .rtz neg m e (q - 1)).1 ≥ 2 * f.maxSig + 1
    if ex > f.emax || (ex == f.emax && (k > f.maxSig || tie)) then
      let big := sat || !f.ieee || (match rnd with
        | .rne => false
        | .rtz => true
        | .rdn => !neg
        | .rup => neg)
      (if big then f.largest neg else f.infBits neg, fOF + fNX)
    else
      let tiny := ex < 1 - f.bias && !(ex == -(f.bias : Int) && k == 2 ^ (f.fbits + 1))
      let q := if q < f.qmin then f.qmin else q
      let (k, inexact) := roundAt rnd neg m e q
      (f.signBit neg + (q - f.qmin).toNat * 2 ^ f.fbits + k,
       (if inexact then fNX else 0) + (if inexact && tiny then fUF else 0))

/-- The pattern of a value: Canon, an infinity, or Round(). -/
def packFp (f : Fmt) (rnd : Rnd) (sat : Bool) : FV → Nat × Nat
  | .nan _ => (f.canon, 0)
  | .inf n => (f.infBits n, 0)
  | .fin n m e => roundFp f rnd sat n m e

/-- The signed significand and exponent of a finite value; zero otherwise. -/
def FV.dy : FV → Int × Int
  | .fin n m e => (if n then -(m : Int) else m, e)
  | _ => (0, 0)

def dyAdd (a b : Int × Int) : Int × Int :=
  if a.1 == 0 then b
  else if b.1 == 0 then a
  else if a.2 ≤ b.2 then (a.1 + b.1 * (2 ^ (b.2 - a.2).toNat : Nat), a.2)
  else (b.1 + a.1 * (2 ^ (a.2 - b.2).toNat : Nat), b.2)

/-- The product of two values that form no 0 × ∞. -/
def FV.mul : FV → FV → FV
  | .fin n m e, .fin n' m' e' => .fin (n != n') (m * m') (e + e')
  | .nan s, .nan t => .nan (s || t)
  | .nan s, _ => .nan s
  | _, .nan s => .nan s
  | a, b => .inf (a.neg != b.neg)

def badProd (p : FV × FV) : Bool := p.1.isZero && p.2.isInf || p.1.isInf && p.2.isZero

/-- c + Σ a·b with one rounding: R122, R123, R83 and R84; a zero sum takes its sign from R73. In RDN a zero sum of addends of both signs is −0,
as R73 has it for two addends, also for the three of FDP2, of which R83 reads otherwise (entry 59). -/
def dotFp (f : Fmt) (rnd : Rnd) (sat : Bool) (c : FV) (ps : List (FV × FV)) : Nat × Nat :=
  let prods := c :: ps.map fun p => p.1.mul p.2
  if c.isSnan || ps.any (fun p => p.1.isSnan || p.2.isSnan) then (f.canon, fNV)
  else if ps.any badProd || (prods.contains (.inf true) && prods.contains (.inf false)) then (f.canon, fNV)
  else if prods.any FV.isNan then (f.canon, 0)
  else if prods.contains (.inf true) then (f.infBits true, 0)
  else if prods.contains (.inf false) then (f.infBits false, 0)
  else
    let s := (prods.map FV.dy).foldl dyAdd (0, 0)
    if s.1 == 0 then
      let neg := if prods.all FV.neg then true else if prods.all (fun p => !p.neg) then false else rnd == .rdn
      (f.signBit neg, 0)
    else roundFp f rnd sat (s.1 < 0) s.1.natAbs s.2

def addFp (f : Fmt) (rnd : Rnd) (sat : Bool) (a b : FV) : Nat × Nat := dotFp f rnd sat b [(a, FV.one)]

/-- R122, R123. -/
def mulFp (f : Fmt) (rnd : Rnd) (sat : Bool) (a b : FV) : Nat × Nat :=
  if a.isSnan || b.isSnan || badProd (a, b) then (f.canon, fNV) else packFp f rnd sat (a.mul b)

/-- The quotient of m by d·2^0 to at least `p` bits with the remainder's sign folded into a last odd bit: rounding it
is rounding the exact quotient. -/
def divDy (p m d : Nat) (e : Int) : Nat × Int :=
  let sh := p + Nat.log2 d + 3
  let q := m * 2 ^ sh / d
  (2 * q + (if m * 2 ^ sh % d == 0 then 0 else 1), e - sh - 1)

/-- FDIV (R123, R129). -/
def divFp (f : Fmt) (rnd : Rnd) (sat : Bool) (a b : FV) : Nat × Nat :=
  let s := a.neg != b.neg
  if a.isSnan || b.isSnan then (f.canon, fNV)
  else if a.isZero && b.isZero || a.isInf && b.isInf then (f.canon, fNV)
  else match a, b with
    | .nan _, _ => (f.canon, 0)
    | _, .nan _ => (f.canon, 0)
    | .inf _, _ => (f.infBits s, 0)
    | .fin .., .inf _ => (f.signBit s, 0)
    | .fin _ m e, .fin _ d e' =>
      if d == 0 then (f.infBits s, fDZ)
      else
        let (q, qe) := divDy (f.fbits + 2) m d (e - e')
        roundFp f rnd sat s q qe

/-- √(m · 2^e) in the same odd-bit form. -/
def sqrtDy (p m : Nat) (e : Int) : Nat × Int :=
  let m' := if e % 2 == 0 then m else 2 * m
  let e' := if e % 2 == 0 then e else e - 1
  let n := m' * 4 ^ (p + 2)
  let r := Nat.sqrt n
  (2 * r + (if r * r == n then 0 else 1), e' / 2 - (p + 2 : Nat) - 1)

/-- FSQRT (R129). -/
def sqrtFp (f : Fmt) (rnd : Rnd) (a : FV) : Nat × Nat :=
  match a with
  | .nan s => (f.canon, if s then fNV else 0)
  | .inf n => if n then (f.canon, fNV) else (f.infBits false, 0)
  | .fin n m e =>
    if m == 0 then (f.signBit n, 0)
    else if n then (f.canon, fNV)
    else let (r, re) := sqrtDy (f.fbits + 2) m e; roundFp f rnd false false r re

/-! ### Transcendentals of f32 (R130, R131) by fixed-point enclosures

A non-dyadic value strictly between q and q + 1 units of 2^−p rounds as (2q + 1) · 2^(−p−1) does, since every rounding
boundary is a multiple of the unit. -/

/-- Σ over k < n of the series terms: `t` is the running power, `x2` its factor (fixed point of `w` bits), each divided by
`d k`; alternating when `alt`. -/
def series (w x2 : Nat) (alt : Bool) : Nat → Nat → Nat → Int → Int
  | 0, _, _, acc => acc
  | n + 1, k, t, acc =>
    series w x2 alt n (k + 1) (t * x2 / 2 ^ w) (acc + (if alt && k % 2 == 1 then -1 else 1) * ((t / (2 * k + 1) : Nat) : Int))

/-- artanh(a/b) (`alt` false) or arctan(a/b) in fixed point of `w` bits, `n` terms. -/
def atFix (alt : Bool) (w n a b : Nat) : Nat :=
  (series w (a * a * 2 ^ w / (b * b)) alt n 0 (a * 2 ^ w / b) 0).toNat

/-- exp-like sums Σ t_k with t_(k+1) = t_k · x / ((k+1) or the next two factors). -/
def taylor (w x : Nat) (trig : Bool) : Nat → Nat → Nat → Int → Int
  | 0, _, _, acc => acc
  | n + 1, k, t, acc =>
    if trig then taylor w x trig n (k + 2) (t * x / 2 ^ w * x / 2 ^ w / ((k + 1) * (k + 2)))
        (acc + (if k / 2 % 2 == 1 then -1 else 1) * (t : Int))
    else taylor w x trig n (k + 1) (t * x / 2 ^ w / (k + 1)) (acc + (t : Int))

def fixW : Nat := 560
def ln2Fix : Nat := 2 * atFix false fixW 190 1 3
/-- π/2 with 768 fraction bits. -/
def halfPi : Nat := 8 * atFix true 768 180 1 5 - 2 * atFix true 768 60 1 239

/-- Round the value whose fixed-point estimate is `v` (`w` fraction bits, off by at most 2^12 units), scaled by 2^e. -/
def enclose (fn x : Nat) (neg : Bool) (w v : Nat) (e : Int) : Nat × Nat :=
  let p := 200
  let a := (v - 4096) / 2 ^ (w - p)
  let b := (v + 4096) / 2 ^ (w - p)
  if a == b then roundFp f32 .rne false neg (2 * a + 1) (e - (p + 1 : Nat))
  else (Config.undecided fn x % 2 ^ 32, fNX)

/-- FRSQ of a positive finite value. -/
def rsqFp (m : Nat) (e : Int) : Nat × Nat :=
  let m' := if e % 2 == 0 then m else 2 * m
  let e' := if e % 2 == 0 then e else e - 1
  let k := 60 + Nat.log2 m'
  let r := Nat.sqrt (4 ^ k / m')
  roundFp f32 .rne false false (2 * r + (if r * r * m' == 4 ^ k then 0 else 1)) (-(e' / 2) - (k + 1 : Nat))

/-- FEX2 of a finite value: 2^(i + fraction). -/
def ex2Fp (x : Nat) (n : Bool) (m : Nat) (e : Int) : Nat × Nat :=
  if e ≥ 0 || m % 2 ^ (-e).toNat == 0 then
    -- an integer; beyond ±2^10 it only overflows or vanishes
    let k := if e ≥ 10 then 1024 else Nat.min 1024 (if e ≥ 0 then m * 2 ^ e.toNat else m / 2 ^ (-e).toNat)
    roundFp f32 .rne false false 1 (if n then -(k : Int) else k)
  else
    let s := (-e).toNat
    let k : Int := (m / 2 ^ s : Nat)
    let fr := m % 2 ^ s
    let i : Int := if n then -k - 1 else k
    let fr := if n then 2 ^ s - fr else fr
    enclose 4 x false fixW (taylor fixW (ln2Fix * fr / 2 ^ s) false 130 0 (2 ^ fixW) 0).toNat i

/-- FLG2 of a positive finite value. -/
def lg2Fp (x m : Nat) (e : Int) : Nat × Nat :=
  let l := Nat.log2 m
  let i : Int := (l : Int) + e
  if m == 2 ^ l then roundFp f32 .rne false (i < 0) i.natAbs 0
  else
    let ln := 2 * atFix false fixW 190 (m - 2 ^ l) (m + 2 ^ l)
    let v : Int := i * (2 ^ fixW : Nat) + ((ln * 2 ^ fixW / ln2Fix : Nat) : Int)
    enclose 5 x (v < 0) fixW v.natAbs 0

/-- FSIN and FCOS of a finite nonzero value. -/
def trigFp (x : Nat) (cos : Bool) (n : Bool) (m : Nat) (e : Int) : Nat × Nat :=
  let a := if e ≥ 0 then m * 2 ^ (fixW + e.toNat) else m * 2 ^ fixW / 2 ^ (-e).toNat
  let k := a * 2 ^ (768 - fixW) / halfPi
  let r := a - k * halfPi / 2 ^ (768 - fixW)
  let quad := (if cos then k + 1 else k) % 4
  let v := if quad % 2 == 0 then taylor fixW r true 90 1 r 0 else taylor fixW r true 90 0 (2 ^ fixW) 0
  enclose (if cos then 7 else 6) x ((quad ≥ 2) != (n && !cos)) fixW v.toNat 0

/-- The words of R130 by number: 2 FRCP, 3 FRSQ, 4 FEX2, 5 FLG2, 6 FSIN, 7 FCOS, on the Pre() operand `x` (R131). -/
def transFp (fn x : Nat) : Nat × Nat :=
  let a := unpackFp f32 x
  let bad := (f32.canon, fNV)
  match a with
  | .nan s => (f32.canon, if s then fNV else 0)
  | .inf n => match fn with
    | 2 => (f32.signBit n, 0)
    | 3 => if n then bad else (0, 0)
    | 4 => if n then (0, 0) else (f32.infBits false, 0)
    | 5 => if n then bad else (f32.infBits false, 0)
    | _ => bad
  | .fin n m e =>
    if m == 0 then match fn with
      | 2 | 3 => (f32.infBits n, fDZ)
      | 5 => (f32.infBits true, fDZ)
      | 6 => (f32.signBit n, 0)
      | _ => (0x3F800000, 0)
    else match fn with
      | 2 => divFp f32 .rne false FV.one a
      | 3 => if n then bad else rsqFp m e
      | 4 => ex2Fp x n m e
      | 5 => if n then bad else lg2Fp x m e
      | 6 => trigFp x false n m e
      | _ => trigFp x true n m e

/-! ### Comparison, minimum, conversion -/

/-- less, equal, greater; none when unordered. −0 = +0 (R126). -/
def cmpFp (a b : FV) : Option Ordering :=
  match a, b with
  | .nan _, _ => none
  | _, .nan _ => none
  | .inf n, .inf n' => some (if n == n' then .eq else if n then .lt else .gt)
  | .inf n, _ => some (if n then .lt else .gt)
  | _, .inf n => some (if n then .gt else .lt)
  | x, y => some (let d := (dyAdd x.dy (-y.dy.1, y.dy.2)).1; if d < 0 then .lt else if d == 0 then .eq else .gt)

/-- minimumNumber / maximumNumber with −0 < +0 (R124). The operands' patterns are delivered as they are. -/
def minMaxFp (f : Fmt) (max : Bool) (x y : Nat) : Nat × Nat :=
  let a := unpackFp f x
  let b := unpackFp f y
  let fl := if a.isSnan || b.isSnan then fNV else 0
  let r := match cmpFp a b with
    | none => if a.isNan then (if b.isNan then f.canon else y) else x
    | some .lt => if max then y else x
    | some .gt => if max then x else y
    | some .eq => if a.neg == b.neg then x else if a.neg == max then y else x
  (r, fl)

/-- Round to an integer by mode: the integer and whether inexact. -/
def toIntFp (rnd : Rnd) (n : Bool) (m : Nat) (e : Int) : Int × Bool :=
  let (k, ix) := roundAt rnd n m e 0
  (if n then -(k : Int) else k, ix)

/-- F2I (R140). -/
def f2iFp (rnd : Rnd) (signed : Bool) (w : Nat) (v : FV) : Nat × Nat :=
  match v with
  | .nan _ => (0, fNV)
  | .inf n => (ofInt w (if n then loOf signed w else hiOf signed w), fNV)
  | .fin n m e =>
    let (k, ix) := toIntFp rnd n m e
    if k < loOf signed w then (ofInt w (loOf signed w), fNV)
    else if hiOf signed w < k then (ofInt w (hiOf signed w), fNV)
    else (ofInt w k, if ix then fNX else 0)

/-- Round() of an integer (R141). -/
def i2fFp (f : Fmt) (rnd : Rnd) (sat : Bool) (x : Int) : Nat × Nat := roundFp f rnd sat (x < 0) x.natAbs 0

/-- F2F (R139, R78). -/
def f2fFp (src dst : Fmt) (rnd : Rnd) (sat : Bool) (x : Nat) : Nat × Nat :=
  match unpackFp src x with
  | .nan s => (dst.canon, if s then fNV else 0)
  | .inf n => if dst.ieee then (dst.infBits n, 0) else (dst.largest n, fNV)
  | .fin n m e => roundFp dst rnd sat n m e

/-- FRND (R134). -/
def frndFp (f : Fmt) (rnd : Rnd) (exact : Bool) (x : Nat) : Nat × Nat :=
  match unpackFp f x with
  | .nan s => (f.canon, if s then fNV else 0)
  | .inf _ => (x, 0)
  | .fin n m e =>
    let (k, ix) := roundAt rnd n m e 0
    if !ix then (x, 0) else ((roundFp f .rne false n k 0).1, if exact then fNX else 0)

/-- FSCL (R135). -/
def fsclFp (f : Fmt) (rnd : Rnd) (sat : Bool) (x : Nat) (n : Int) : Nat × Nat :=
  match unpackFp f x with
  | .nan s => (f.canon, if s then fNV else 0)
  | .inf _ => (x, 0)
  | .fin s m e => if m == 0 then (x, 0) else roundFp f rnd sat s m (e + n)

/-- FGEXP (R136): the exponent, or the significand. -/
def fgexpFp (f : Fmt) (sig : Bool) (x : Nat) : Nat × Nat :=
  match unpackFp f x with
  | .nan s => if sig then (f.canon, if s then fNV else 0) else (0x80000000, fNV)
  | .inf _ => if sig then (x, 0) else (0x7FFFFFFF, fNV)
  | .fin n m e =>
    if m == 0 then (if sig then (x, 0) else (0x80000000, fNV))
    else if sig then ((roundFp f .rne false n m (-(Nat.log2 m : Int))).1, 0)
    else (ofInt 32 ((Nat.log2 m : Int) + e), 0)

/-- FCLASS (R128). -/
def fclassFp (f : Fmt) (x : Nat) : Nat :=
  match unpackFp f x with
  | .nan s => if s then 1 else 2
  | .inf n => if n then 4 else 0x200
  | .fin n m _ =>
    if m == 0 then (if n then 0x20 else 0x40)
    else if m < 2 ^ f.fbits then (if n then 0x10 else 0x80)
    else (if n then 8 else 0x100)

/-! ### Shared-block codec (R79 to R81) -/

/-- Bit width of an element and its magnitude for SB codes 6, 7, 8 (R82): m. -/
def sbM (code : Nat) : Nat := if code == 6 then 7 else if code == 7 then 4 else 2
def sbBits (m : Nat) : Nat := 16 + 16 * (m + 1)
/-- The words of a block (R143). -/
def sbWords (m : Nat) : Nat := if m == 7 then 5 else if m == 4 then 3 else 2

/-- Element `i` of a block (R80). -/
def sbElem (m blk i : Nat) : FV :=
  let ex := fld blk 0 8
  if ex == 255 then .nan false
  else
    let mag := fld blk (16 + i * (m + 1)) m
    if mag == 0 then .fin false 0 0
    else .fin (bitOf blk (16 + i * (m + 1) + m)) mag ((ex : Int) - 127 - (fld blk (8 + 2 * (i / 4)) 2 : Nat) - ((m : Int) - 1))

/-- SBEncode() of R81: the block and its flags. -/
def sbEncode (m : Nat) (xs : List FV) : Nat × Nat :=
  if xs.any (fun x => x.isNan || x.isInf) then (255, fNV)
  else
    let mag : FV → Nat × Int := fun x => match x with | .fin _ k e => (k, e) | _ => (0, 0)
    let top : List FV → Option Int := fun l => l.foldl (fun a x =>
      let (k, e) := mag x
      if k == 0 then a else
        let t : Int := (Nat.log2 k : Int) + e
        match a with
        | none => some t
        | some u => some (if u < t then t else u)) none
    match top xs with
    | none => (0, 0)
    | some t =>
      let ex : Int := if t + 127 < 0 then 0 else if t + 127 > 254 then 254 else t + 127
      let unit : Nat → Int := fun s => ex - 127 - s - ((m : Int) - 1)
      let quad := fun j => (xs.drop (4 * j)).take 4
      let fits := fun j s => (quad j).all fun x => let (k, e) := mag x; (roundAt .rne false k e (unit s)).1 ≤ 2 ^ m - 1
      let sub : Nat → Nat := fun j => if fits j 3 then 3 else if fits j 2 then 2 else if fits j 1 then 1 else 0
      (List.range 16).foldl (fun (acc : Nat × Nat) i =>
        let x := (xs[i]?).getD (.fin false 0 0)
        let (k, e) := mag x
        let (r, ix) := roundAt .rne false k e (unit (sub (i / 4)))
        let r' := if r > 2 ^ m - 1 then 2 ^ m - 1 else r
        let fieldv := r' + (if x.neg && r' != 0 then 2 ^ m else 0)
        (acc.1 + fieldv * 2 ^ (16 + i * (m + 1)), if ix || r' != r then fNX else acc.2))
        (ex.toNat + 2 ^ 8 * (sub 0 + 4 * sub 1 + 16 * sub 2 + 64 * sub 3), 0)

/-! ### Apply(), Fold() and TreeFold() (R86) -/

inductive FoldOp where
  | add | min | max | and | or | xor
  deriving DecidableEq, Repr

/-- The element formats of a floating-point type. -/
def fmtOf : Ty → Option Fmt
  | .f32 => some f32
  | .f64 => some f64
  | .f16x2 => some f16
  | .bf16x2 => some bf16
  | _ => none

end Sys2Proof.Machine

namespace Sys2Proof

/-- Bits of one element of a type. -/
def Ty.ebits : Ty → Nat
  | .i64 | .n64 | .f64 => 64
  | .i16x2 | .n16x2 | .f16x2 | .bf16x2 => 16
  | .i8x4 | .n8x4 => 8
  | _ => 32

/-- Bits of the whole operand. -/
def Ty.bits (t : Ty) : Nat := if t.ebits == 64 then 64 else 32

def Ty.signed : Ty → Bool
  | .i32 | .i64 | .i16x2 | .i8x4 => true
  | _ => false

end Sys2Proof

namespace Sys2Proof.Machine

/-- A function of each element of a packed operand, least significant first; flags are joined. -/
def perElem (eb total : Nat) (g : Nat → Nat × Nat) : Nat × Nat :=
  (List.range (total / eb)).foldl (fun acc i =>
    let r := g i
    (acc.1 + r.1 % 2 ^ eb * 2 ^ (i * eb), acc.2 ||| r.2)) (0, 0)

def elem (eb i w : Nat) : Nat := fld w (i * eb) eb

/-- Apply() on one element. -/
def applyElem (op : FoldOp) (ty : Ty) (sat : Bool) (a b : Nat) : Nat × Nat :=
  match op with
  | .and => (a &&& b, 0)
  | .or => (a ||| b, 0)
  | .xor => (a ^^^ b, 0)
  | .add => match fmtOf ty with
    | some f => addFp f .rne sat (unpackFp f a) (unpackFp f b)
    | none => narrow sat ty.signed ty.ebits (rd ty.signed ty.ebits a + rd ty.signed ty.ebits b)
  | .min => match fmtOf ty with
    | some f => minMaxFp f false a b
    | none => (if rd ty.signed ty.ebits b < rd ty.signed ty.ebits a then b else a, 0)
  | .max => match fmtOf ty with
    | some f => minMaxFp f true a b
    | none => (if rd ty.signed ty.ebits a < rd ty.signed ty.ebits b then b else a, 0)

/-- Apply() of R86 on a register or word of the type. -/
def applyOp (op : FoldOp) (ty : Ty) (sat : Bool) (a b : Nat) : Nat × Nat :=
  perElem ty.ebits ty.bits fun i => applyElem op ty sat (elem ty.ebits i a) (elem ty.ebits i b)

/-- Fold() of R86. -/
def foldOp (op : FoldOp) (ty : Ty) (sat : Bool) (acc : Nat) (l : List Nat) : Nat × Nat :=
  l.foldl (fun r x => let q := applyOp op ty sat r.1 x; (q.1, r.2 ||| q.2)) (acc, 0)

/-- One level of the tree: neighbours join, an absent one passes the other through. -/
def treeLevel (op : FoldOp) (ty : Ty) (sat : Bool) : List (Option Nat) → List (Option Nat) × Nat
  | a :: b :: t =>
    let (r, fl) := treeLevel op ty sat t
    match a, b with
    | none, b => (b :: r, fl)
    | a, none => (a :: r, fl)
    | some a, some b => let q := applyOp op ty sat a b; (some q.1 :: r, fl ||| q.2)
  | l => (l, 0)

/-- TreeFold() of R86 over up to 2^n nodes. -/
def treeFold (op : FoldOp) (ty : Ty) (sat : Bool) : Nat → List (Option Nat) → Option Nat × Nat
  | 0, l => (l.headD none, 0)
  | n + 1, l =>
    let (l', fl) := treeLevel op ty sat l
    let (r, fl') := treeFold op ty sat n l'
    (r, fl ||| fl')

/-! ### The wire format (R88 to R90) -/

def wireCap : Int := ((2 ^ 79 : Nat) : Int) - 1

/-- A contribution as a wire value: (value, NV, RNX, RSAT) (R89). -/
def toWire (ty : Ty) (x : Int) (bits : Nat) : Wire × Bool × Bool × Bool :=
  let fin : Bool → Nat → Int → Wire × Bool × Bool × Bool := fun n m e =>
    let (k, ix) := roundAt .rne n m e x
    if wireCap ≤ (k : Int) then ({ w := if n then -wireCap else wireCap }, false, ix, true)
    else ({ w := if n then -(k : Int) else k }, false, ix, false)
  match fmtOf ty with
  | some f => match unpackFp f bits with
    | .nan s => ({ nan := true }, s, false, false)
    | .inf n => ({ pinf := !n, ninf := n }, false, false, false)
    | .fin n m e => fin n m e
  | none => let v := rd ty.signed ty.ebits bits; fin (v < 0) v.natAbs 0

/-- The 128 bits of a wire value, and its 16 little-endian bytes (R88). -/
def Wire.num (v : Wire) : Nat :=
  (v.w % 2 ^ 96).toNat + (if v.pinf then 2 ^ 96 else 0) + (if v.ninf then 2 ^ 97 else 0) + (if v.nan then 2 ^ 98 else 0)
def Wire.bytes (v : Wire) : List Byte := leBytes 16 (Wire.num v)
/-- The wire value in 128 bits; bits 127:99 are reserved. -/
def Wire.of (n : Nat) : Wire :=
  { w := if n % 2 ^ 96 < 2 ^ 95 then (n % 2 ^ 96 : Nat) else (n % 2 ^ 96 : Nat) - 2 ^ 96, pinf := bitOf n 96, ninf := bitOf n 97, nan := bitOf n 98 }
/-- The payload of a reduction flit: 15 wire values, the missing ones zero, and the values that one brings (R393). -/
def reductionPayload (ws : List Wire) : List Byte := (ws.flatMap Wire.bytes ++ List.replicate 240 0).take 240
def payloadWires (bs : List Byte) : List Wire := (List.range 15).map fun i => Wire.of (leNat ((bs.drop (16 * i)).take 16))

/-- The adders of R90. -/
def wireAdd (a b : Wire) : Wire :=
  { w := a.w + b.w, pinf := a.pinf || b.pinf, ninf := a.ninf || b.ninf, nan := a.nan || b.nan }

/-- What the root delivers: (bits, NV, RNX, RSAT) (R90). For an integer destination a W · 2^X that is no integer is rounded by RNE first and
clamped after, and a clamp alone sets RSAT without RNX (entry 57). -/
def fromWire (ty : Ty) (x : Int) (v : Wire) : Nat × Bool × Bool × Bool :=
  match fmtOf ty with
  | some f =>
    if v.nan || v.pinf && v.ninf then (f.canon, v.pinf && v.ninf, false, false)
    else if v.pinf then (f.infBits false, false, false, false)
    else if v.ninf then (f.infBits true, false, false, false)
    else
      let r := roundFp f .rne false (v.w < 0) v.w.natAbs x
      (r.1, false, bitOf r.2 4, bitOf r.2 2)
  | none =>
    let n := v.w < 0
    let (k, ix) := roundAt .rne n v.w.natAbs x 0
    let r := satInt ty.signed ty.ebits (if n then -(k : Int) else k)
    (r.1, false, ix, r.2 != 0)

end Sys2Proof.Machine
end

