-- ==== Sys2Proof/Machine/Flags.lean ====
section
/-! DEFINITION. Slice flags: how integer and floating-point words set them (R99, R127) and what each condition tests
(R39, R147, R112, R126). -/

namespace Sys2Proof.Machine

/-- The five flags of a slice (R91). -/
structure Flags5 where
  z : Bool
  n : Bool
  c : Bool
  v : Bool
  u : Bool
  deriving DecidableEq, Repr

/-- Flags of a + b on w bits (R99). -/
def addFlags (w a b : Nat) : Flags5 :=
  let r := low w (a + b)
  { z := r == 0, n := bitOf r (w - 1), c := 2 ^ w ≤ low w a + low w b,
    v := sgn w a + sgn w b != sgn w r, u := false }

/-- Flags of a − b on w bits (R99). -/
def subFlags (w a b : Nat) : Flags5 :=
  let r := ofInt w ((low w a : Int) - (low w b : Int))
  { z := low w a == low w b, n := bitOf r (w - 1), c := low w b ≤ low w a,
    v := sgn w a - sgn w b != sgn w r, u := false }

/-- Flags of a floating-point comparison (R127). -/
def fcmpFlags : Option Ordering → Flags5
  | some .eq => { z := true, n := false, c := true, v := false, u := false }
  | some .lt => { z := false, n := true, c := false, v := false, u := false }
  | some .gt => { z := false, n := false, c := true, v := false, u := false }
  | none => { z := false, n := false, c := false, v := false, u := true }

/-- Whether a condition holds on flags (R147). -/
def condHolds (cc : Cond) (f : Flags5) : Bool :=
  match cc with
  | .eq => f.z
  | .ne => !f.z
  | .lt => f.n != f.v && !f.u
  | .ge => f.n == f.v && !f.u
  | .lo => !f.c && !f.u
  | .hs => f.c
  | .mi => f.n
  | .pl => !f.n
  | .vs => f.v
  | .vc => !f.v
  | .gt => !f.z && f.n == f.v && !f.u
  | .le => (f.z || f.n != f.v) && !f.u
  | .uo => f.u
  | .or => !f.u
  | .al => true

/-- The integer comparison of the mask form (R112), by condition code. -/
def intCond (cc w a b : Nat) : Bool :=
  let x := sgn w a
  let y := sgn w b
  match cc with
  | 0 => low w a == low w b
  | 1 => low w a != low w b
  | 2 => x < y
  | 3 => y ≤ x
  | 4 => low w a < low w b
  | 5 => low w b ≤ low w a
  | 10 => y < x
  | _ => x ≤ y

/-- The floating-point comparison of the mask form, with whether it raises NV (R126). -/
def fpCond (cc : Nat) (a b : FV) : Bool × Bool :=
  let r := cmpFp a b
  let anyNan := a.isNan || b.isNan
  let snan := a.isSnan || b.isSnan
  match cc with
  | 0 => (r == some .eq, snan)
  | 1 => (r != some .eq, snan)
  | 2 => (r == some .lt, anyNan)
  | 3 => (r == some .gt || r == some .eq, anyNan)
  | 10 => (r == some .gt, anyNan)
  | 11 => (r == some .lt || r == some .eq, anyNan)
  | 12 => (anyNan, snan)
  | _ => (!anyNan, snan)

end Sys2Proof.Machine
end

