-- ==== Sys2Proof/Machine/Map.lean ====
section
/-! DEFINITION. Tables by key: a list of pairs with strictly rising keys. A *table* (`Tab`) holds an entry only for keys that
have one. A *store* (`Sparse`) reads a fixed value at every unlisted key and lists no key with that value, so equal
stores are equal lists; memory (`Host.Cell`) is a store of bytes with 0 as the unlisted value (R185). -/

namespace Sys2Proof.Machine

abbrev Tab (α : Type) := List (Nat × α)
abbrev Sparse (α : Type) := List (Nat × α)
abbrev Memory := List Host.Cell

/-- The entry at a key. -/
def tget {α : Type} (k : Nat) : Tab α → Option α
  | [] => none
  | (j, x) :: t => if j == k then some x else tget k t

/-- The table with the entry at a key set. -/
def tput {α : Type} (k : Nat) (x : α) : Tab α → Tab α
  | [] => [(k, x)]
  | (j, y) :: t => if k < j then (k, x) :: (j, y) :: t else if j == k then (k, x) :: t else (j, y) :: tput k x t

/-- The table without the entry at a key. -/
def tdel {α : Type} (k : Nat) (t : Tab α) : Tab α := t.filter fun p => p.1 != k

/-- A change of the entry at a key; none there, none made. -/
def tmod {α : Type} (k : Nat) (f : α → α) : Tab α → Tab α
  | [] => []
  | (j, y) :: t => if j == k then (j, f y) :: t else (j, y) :: tmod k f t

/-- The value at a key of a store whose unlisted value is `d`. -/
def sget {α : Type} (d : α) (m : Sparse α) (k : Nat) : α := (tget k m).getD d

/-- A write that keeps the store free of unlisted values. -/
def sset {α : Type} [DecidableEq α] (d : α) (m : Sparse α) (k : Nat) (x : α) : Sparse α :=
  if x = d then tdel k m else tput k x m

/-- Keys strictly rising, all above `lo`. -/
def risingFrom {α : Type} : Option Nat → Tab α → Bool
  | _, [] => true
  | lo, (j, _) :: t => (match lo with | none => true | some l => l < j) && risingFrom (some j) t

/-- The canonical form of a store. -/
def swf {α : Type} [DecidableEq α] (d : α) (m : Sparse α) : Bool :=
  risingFrom none m && m.all fun p => !decide (p.2 = d)

/-- One byte of a memory; an unlisted byte reads as zero (R185). -/
def mget (m : Memory) (a : Nat) : Byte := sget 0 m a
def mset (m : Memory) (a : Nat) (b : Byte) : Memory := sset 0 m a b
/-- The canonical form of a memory. -/
def Memory.wf (m : Memory) : Bool := swf 0 m

/-- `n` bytes from an address upward. -/
def mread (m : Memory) (a : Nat) : Nat → List Byte
  | 0 => []
  | n + 1 => mget m a :: mread m (a + 1) n

/-- Bytes from an address upward. -/
def mwrite (m : Memory) (a : Nat) : List Byte → Memory
  | [] => m
  | b :: t => mwrite (mset m a b) (a + 1) t

/-- A little-endian number of `n` bytes (R4). -/
def mnat (m : Memory) (a n : Nat) : Nat := leNat (mread m a n)
/-- The little-endian bytes of a number (R4). -/
def mputNat (m : Memory) (a n v : Nat) : Memory := mwrite m a (leBytes n v)

/-- Writes of a list of (address, byte) pairs in order. -/
def mapply (m : Memory) (ws : List Host.Cell) : Memory := ws.foldl (fun m w => mset m w.1 w.2) m

/-- One memory over another: the entries of a table of bytes, present ones only. -/
def moverlay (m : Memory) (t : Tab Byte) : Memory := mapply m t

/-- A table of bytes with later writes put in. -/
def toverlay {α : Type} (t : Tab α) (ws : List (Nat × α)) : Tab α := ws.foldl (fun t w => tput w.1 w.2 t) t

/-- A sorted list of numbers without repeats. -/
def nins (k : Nat) : List Nat → List Nat
  | [] => [k]
  | j :: t => if k < j then k :: j :: t else if j == k then j :: t else j :: nins k t

def nunion (a b : List Nat) : List Nat := b.foldl (fun l k => nins k l) a
def nminus (a b : List Nat) : List Nat := a.filter fun k => !b.contains k

/-- The keys of a table. -/
def tkeys {α : Type} (t : Tab α) : List Nat := t.map (·.1)

end Sys2Proof.Machine
end

