-- ==== Sys2Proof/Machine/State.lean ====
section
/-! DEFINITION. The state of the module: every item of the state maps of R91, R92, R144, R161, R185, R210, R236, R263, R292,
R315, R341, R366 and R386, as plain data, with `State.reset`. Identities are numbers: a context is 0 to 15, a launch
is `lid` = context · 2^64 + launch key, a team is `lid · 2^32 + TEAM`, a group is `team · 64 + GROUP`, and a context's
control core, which runs as one slice without vector lanes (R57), is the group `ctlGid context`. -/

namespace Sys2Proof.Machine

/-- Why the machine stops. -/
inductive Fault where
  /-- A word was asked to execute while no issue slot has taken a word (`State.cur` is none). No step does this: raised by a
  direct call of `exec` only. Safe. -/
  | noIssuer
  deriving DecidableEq, Repr

/-- Why an instruction has no meaning. -/
inductive Refusal where
  /-- An instruction of the opcode table that the model has not reached. Safe. -/
  | notModelled (mnemonic : String)
  deriving DecidableEq, Repr

/-- One slice (R14, R144): its program counter, flags, FMR, STATUS copy, call stack and spill stack. -/
structure Slice where
  pc : W64 := 0
  z : Bool := false
  n : Bool := false
  c : Bool := false
  v : Bool := false
  u : Bool := false
  fmr : BitVec 16 := 0x0311
  status : W32 := 0
  call : List W64 := []
  sp : Nat := 0
  spill : Memory := []
  deriving DecidableEq, Repr, Inhabited

/-- One operation of a group on team data, as the merge of R200 replays it. `addr` is a byte offset in the team window. -/
inductive GOp where
  /-- a store: the aligned 32-bit word at `addr` as the view held it after the store -/
  | store (addr : Nat) (v : W32)
  /-- one lane's ATOM on a word of `n` bytes: 0 add, 1 or, 2 unsigned min, 3 xchg (R206) -/
  | atom (addr n op : Nat) (v : W64)
  /-- one RED contribution to a word of `n` bytes: the code of R208 and the lanes' values, absent where none (R87) -/
  | red (addr n code : Nat) (vs : List (Option W64))
  /-- one element of an MDRS.add, with the source tile (R175, R177) -/
  | drain (addr : Nat) (ty : Ty) (sat : Bool) (v : W64) (tile : Nat)
  /-- a 64-byte unit's poison bit set or cleared by a write (R203) -/
  | poison (unit : Nat) (b : Bool)
  /-- a word that reached the view by a hand-off, RFSH.T or an ordered operation, in the T-interval `tc`: no unordered
  operation of the group (R213, R217, R235) -/
  | seen (tc addr : Nat) (v : W32)
  /-- the poison of a 64-byte unit that reached the view by a hand-off (R217) -/
  | seenBad (tc unit : Nat) (b : Bool)
  deriving DecidableEq, Repr

/-- Bytes with the poisoned 64-byte units among them: team data, a committed image (R193, R203), memory (R254). -/
structure Image where
  data : Memory := []
  poison : List Nat := []
  deriving DecidableEq, Repr, Inhabited

/-- Writes not yet applied: bytes, and the poison of the 64-byte units written. -/
structure MemW where
  b : Tab Byte := []
  p : Tab Bool := []
  deriving DecidableEq, Repr, Inhabited

/-- What a group's or a sub-gang's writes look like: the view of team data (R198), its operations since the last CMIT.T or
parting, and its memory writes at G since then, by physical key. -/
structure GLevel where
  view : Image := {}
  ops : List GOp := []
  gmem : MemW := {}
  deriving DecidableEq, Repr, Inhabited

/-- A team-collective word that a group has arrived at (R218). -/
inductive Coll where
  | cmitC | cmitD | rfshD | trig | gbar | tsbar
  | abrtT (target : W64)
  | qinit (a b : W64)
  deriving DecidableEq, Repr

/-- Why a sub-gang is parked (R26). A park other than `marker`, `bar`, `cbar`, `coll`, `grid`, `rfshD`, `regang`, `ksync`
stands before any effect: when its condition holds, the word issues again. -/
inductive Park where
  | none
  /-- at an S marker; the word has issued (R44) -/
  | marker
  /-- at BAR, arrived at a phase (R369) -/
  | bar (phase : Nat)
  | cbar
  | coll (c : Coll)
  /-- a GBAR or TSBAR whose round is deposited, waiting for the grid (R374) -/
  | grid (ts : Bool)
  /-- an RFSH.D whose T-close has run, waiting for the dependences (R235) -/
  | rfshD
  | regang
  | ksync (m : Nat)
  /-- for a slot of a queue to become EMPTY (R269) -/
  | slotFree (q : Nat)
  | qpop (q : Nat)
  /-- for the team token (R207) -/
  | token
  | generation
  | mbld
  /-- the quadrant's tile queue is full (R172), or the core's TCU is (R262): the slot counts as STRUCT -/
  | tileFull
  | tcuFull
  | fence
  /-- for a phase to complete (WAIT, a deferred refresh) -/
  | phase (p : Nat)
  /-- the root of its team's k-th MCST, until every member's k-th has issued (R247) -/
  | mcst (k : Nat)
  /-- an MCST whose root is to be compared with that of the lowest member's, which has not issued its own, with the cycle at which it parked (R247) -/
  | mcstLow (since : Nat)
  /-- an MSEQ.g with slots still to reserve (R181) -/
  | mseq (q : Nat)
  | msgrd | msgwr | submit | halt | ctlFence
  | lwait (key : Nat)
  | lwaitCancel (key : Nat)
  deriving DecidableEq, Repr, Inhabited

/-- A sub-gang: its slices, its park, and its own level of writes while the group is parted (R198). -/
structure SubGang where
  mask : Nat := 255
  park : Park := .none
  /-- the word it issued last: the marker while it is parked at one (R48) -/
  lastPc : W64 := 0
  /-- the word it is parked at carries S -/
  mark : Bool := false
  lvl : GLevel := {}
  deriving DecidableEq, Repr, Inhabited

/-- A reconvergence record (R149), with the level of writes at a parting into several paths (R198). -/
structure Record where
  s : Nat
  path : List Nat
  fmr : List (BitVec 16)
  depth : Nat
  base : Option GLevel := none
  deriving DecidableEq, Repr

/-- What the trap record says of a fault (R354). -/
structure FaultRec where
  code : Nat
  slice : Nat := 0
  lane : Nat := 255
  fpc : W64 := 0
  word : W64 := 0
  rpc : W64 := 0
  addr : W64 := 0
  arg : W64 := 0
  opA : List Byte := []
  opB : List Byte := []
  opC : List Byte := []
  /-- taken at a marker (R48) or at an interval-closing word (R355) -/
  marker : Bool := false
  closing : Bool := false
  deriving DecidableEq, Repr, Inhabited

/-- A pending result of a V-class word (R44): register writes by key (vector 32·r + lane, scalar 8·r + slice), the flags
it raises and the records of its failed results by lane (R48; the lane of a slice's scalar result is its first). A failed result
has no write. -/
structure Pend where
  idx : Nat
  pc : W64
  slices : Nat
  dst : Nat
  nreg : Nat
  vw : List (Nat × W32) := []
  sw : List (Nat × W64) := []
  flags : List (Nat × W32) := []
  fails : List (Nat × FaultRec) := []
  returned : Bool := false
  deriving DecidableEq, Repr

/-- A word in a tile operation queue (R172). -/
inductive TileOp where
  | mma (pc : W64) (tile : Nat) (fmr : BitVec 16) (a b : List W32) (badA badB : List Nat)
  | zero (tile : Nat)
  | scale (tile : Nat) (ty : Ty) (exec : W32) (f : List W64)
  deriving DecidableEq, Repr

/-- An accumulator tile (R162): 1,024 words, its flag copy (R85) and its damaged elements (R183). -/
structure Tile where
  words : Sparse W32 := []
  flags : W32 := 0
  bad : List Nat := []
  deriving DecidableEq, Repr, Inhabited

/-- The phases of a ray (R315). -/
inductive RayPhase where
  | idle | opened | replay | done
  deriving DecidableEq, Repr, Inhabited

/-- An entry of a traversal log (R335). -/
structure LogEntry where
  kind : Nat
  resp : Nat
  inst : Nat
  prim : Nat
  x : W64
  y : W64
  w : W64
  deriving DecidableEq, Repr, Inhabited

/-- An exact real or an infinity: a fraction with a positive denominator. -/
inductive Ext where
  | inf (neg : Bool)
  | frac (n : Int) (d : Nat)
  deriving DecidableEq, Repr, Inhabited

/-- What RGET reads of a primitive (R329): o′, d′, bytes 0 to 71 of its record, and where the tree could not be read the fault
code and address: `rayErr` for o′ and d′, which the header and the instance record give (R319), `err` for the record. -/
structure RayView where
  org : List W64 := []
  dir : List W64 := []
  prm : List Byte := []
  rayErr : Option (Nat × Nat) := none
  err : Option (Nat × Nat) := none
  deriving DecidableEq, Repr, Inhabited

/-- An item of Q (R323): its exact key; kind 0 a triangle hit, 1 a user hit, 2 a user primitive; t or t0 as delivered, u and v;
the upper end of a primitive's interval; OPAQUE; the path of leaves to it (R332). -/
structure RayItem where
  t : Ext
  inst : Nat
  prim : Nat
  kind : Nat
  tw : W64 := 0
  u : W64 := 0
  v : W64 := 0
  hi : Ext := .inf false
  opaq : Bool := false
  view : RayView := {}
  path : List Nat := []
  deriving DecidableEq, Repr, Inhabited

/-- The ray of a lane (R315, R323). The items of Q and the nearest failing item are taken from the snapshot when the trace
starts, so they stand for it. -/
structure Ray where
  phase : RayPhase := .idle
  world : List W64 := []
  noAny : Bool := false
  /-- the items left, ascending by key -/
  q : List RayItem := []
  /-- the walker's candidate buffer: the nearest of the items left, at most 32 (R315); nothing reads it -/
  buf : List RayItem := []
  /-- the lower end of the nearest failing item, with its fault code and address (R330) -/
  bad : Option (Ext × Nat × Nat) := none
  c : Ext := .inf true
  best : Option RayItem := none
  /-- EVENT of the last event with its item, t1, and in replay the logged answer and tr -/
  event : Nat := 0
  item : Option RayItem := none
  t1 : W64 := 0
  resp : Bool := false
  ret : W64 := 0
  rayId : W64 := 0
  entries : List LogEntry := []
  rep : Bool := false
  /-- replay: whether RRPL named a tree, the entries left with their views, and the outcome with its item -/
  tree : Bool := false
  rest : List (LogEntry × RayView) := []
  outcome : Nat := 0
  final : Option RayItem := none
  /-- the log it writes to (R334) -/
  job : Option Nat := none
  /-- the Aster key (R331) -/
  key : List Byte := []
  deriving DecidableEq, Repr, Inhabited

/-- A group (R14, R91, R144, R161, R210, R315, R366). -/
structure Group where
  isCtl : Bool := false
  budget : Nat := 128
  ntiles : Nat := 0
  vreg : Sparse W32 := []
  sreg : Sparse W64 := []
  kreg : Sparse W32 := []
  kact : W32 := 0xFFFFFFFF
  slices : List Slice := List.replicate 8 {}
  subs : List SubGang := [{}]
  recs : List Record := []
  pend : List Pend := []
  nextPend : Nat := 0
  draws : Sparse W32 := []
  mbldCount : W32 := 0
  tiles : Tab Tile := []
  tileQ : List TileOp := []
  errLog : List (W64 × W64) := []
  errOvf : Bool := false
  rays : Tab Ray := []
  rayCount : Sparse (BitVec 20) := []
  logOn : Bool := false
  logQ : Nat := 0
  /-- damaged register words (R100): keys as in `Pend`, masks by number, special registers by 32 · code + lane or slice -/
  badV : List Nat := []
  badS : List Nat := []
  badK : List Nat := []
  badX : List Nat := []
  /-- ladder (R214 to R216): shadow lines of kind G and contribution lines; T-pending operations, lines, contribution lines and
  memory writes, those of the next interval after an ARRV (R371) apart; the T snapshot with the T-pending lines, to which
  ABRT.G returns (R232); the pre-image lines charged here, by what each still awaits: 8 a commit, then 1 a C-interval
  close, 2 a D-interval close -/
  lines : List Nat := []
  contrib : Nat := 0
  tops : List GOp := []
  tlines : List Nat := []
  tcon : Nat := 0
  tmem : MemW := {}
  topsN : List GOp := []
  tlinesN : List Nat := []
  tconN : Nat := 0
  tmemN : MemW := {}
  tbase : Image := {}
  preLines : Tab Nat := []
  round : W32 := 0
  arrivals : BitVec 16 := 0
  deferred : Option (BitVec 16) := none
  phaseSeen : BitVec 16 := 0
  /-- a fault assigned to a group that has moved on (R216, R369): taken at its next phase park -/
  owed : Option Nat := none
  /-- the faults that it takes at the interval-closing word at which it has just taken one, one at each resume (R12) -/
  due : List FaultRec := []
  /-- results written at markers, for event 0x11 of the counters (R381) -/
  wrote : Nat := 0
  halted : Bool := false
  faultRec : Option FaultRec := none
  undo : List (W64 × Nat × Nat × Nat × List Byte) := []
  deriving DecidableEq, Repr, Inhabited

/-- A queue slot descriptor (R266, R267). `op` is the operation to join at QPOP; `tile` the handed-off words. -/
structure Desc where
  status : Nat := 0
  handle : W64 := 0
  count : Nat := 0
  popper : Nat := 0
  seq : W32 := 0
  op : Option Nat := none
  hand : List (Nat × W32) := []
  handBad : List (Nat × Bool) := []
  deriving DecidableEq, Repr, Inhabited

/-- A queue control record (R266). -/
structure Queue where
  inited : Bool := false
  slots : Nat := 0
  slotBytes : Nat := 0
  ring : W64 := 0
  fillSeq : W32 := 0
  headSeq : W32 := 0
  allow : Nat := 0
  filler : Nat := 0
  fdone : Bool := false
  desc0 : Nat := 0
  popMask : W64 := 0
  descs : List Desc := []
  deriving DecidableEq, Repr, Inhabited

/-- The fields of a launch record (R284). -/
structure LRec where
  entry : W64 := 0
  gx : Nat := 1
  gy : Nat := 1
  gz : Nat := 1
  l : Nat := 1
  p : Nat := 0
  c : Nat := 1
  rp : Nat := 0
  rc : Nat := 1
  tiles : Nat := 0
  coop : Bool := false
  leaf : Bool := false
  node : Bool := false
  clog : Nat := 0
  prio : Nat := 0
  leafpool : Nat := 0
  scratch : Nat := 0
  spill : Nat := 0
  shadow : Nat := 0
  dquota : Nat := 1
  args : W64 := 0
  deps : List Nat := []
  aux : W64 := 0
  deriving DecidableEq, Repr, Inhabited

/-- A token-applied operation waiting for its round (R211, R220), by group. Addresses of CPYC and MDRM.add are physical
keys, since they were translated at issue. -/
inductive TokOp where
  | cpyc (lanes : List (Nat × Nat × W64 × W64)) (op : Nat) (ty : Ty) (sat fetch : Bool) (slot : Option (Nat × W32))
      (hold : Option Nat)
  | mdrm (elems : List (Nat × W64)) (ty : Ty) (sat : Bool) (tile : Nat)
  | alloc (ins : Bool) (lanes : List (Nat × Nat × Nat × Nat)) (header : W64) (slot : Option (Nat × W32))
  | vact (clr : Bool) (lanes : List (Nat × Nat × Nat × Nat)) (header : W64)
  /-- the node record as the source sees it, the record's bytes, and what a trap record says of the word (R281) -/
  | emit (node : LRec) (bytes : List (Option Byte)) (at' : FaultRec)
  deriving DecidableEq, Repr

/-- A deposited round (R220). -/
structure Round where
  k : Nat
  plain : MemW := {}
  toks : List (Nat × TokOp) := []
  /-- deposited after an RFSH.D of its team: it sees its launch's early dependences whole (R226, R235) -/
  full : Bool := false
  deriving DecidableEq, Repr, Inhabited

/-- One generation of a B-share set's buffer (R165): the deposited quarters, by quarter: tag and words. -/
structure BGen where
  quarters : Tab (Nat × List W32) := []
  bad : List (Nat × Nat) := []
  deriving DecidableEq, Repr, Inhabited

/-- A team (R185, R210, R236, R263, R366). `data` is the window by byte offset at T; ring and leaf pool bytes
are in place there. -/
structure Team where
  team : Nat
  retired : Bool := false
  data : Image := {}
  cImg : Image := {}
  dImg : Image := {}
  cSnap : Image := {}
  dSnap : Image := {}
  /-- team data at the last C or D commit, which ABRT.T restores (R233) -/
  pre : Image := {}
  tcount : Nat := 0
  /-- ordered values by word offset, and the groups that acted on each line by ordered operations (R207) -/
  ordered : Tab W32 := []
  ordAct : List (Nat × Nat) := []
  queues : Tab Queue := []
  dmem : MemW := {}
  toks : List (Nat × TokOp) := []
  rounds : List Round := []
  ownApplied : MemW := {}
  nrounds : Nat := 0
  charged : List Nat := []
  extraCharge : Nat := 0
  /-- the D snapshot with every dependence's writes, after RFSH.D (R235) -/
  fullSnap : Option Image := none
  privMarks : List Nat := []
  linesRead : List Nat := []
  phase : BitVec 16 := 0
  cphase : BitVec 16 := 0
  bgens : Tab BGen := []
  /-- the root of each MCST issued (R247) -/
  mcstRoots : List Nat := []
  collSteps : Tab Nat := []
  /-- the collective entries that the team has left (R236, R260) -/
  withdrawn : List Nat := []
  left : List Nat := []
  /-- the trigger mark: the round of the first TRIG (R282) -/
  trigger : Option Nat := none
  atGrid : Option Bool := none
  pins : Tab Nat := []
  trapped : Bool := false
  trapSlot : Option Nat := none
  debugStop : Bool := false
  summary : List Byte := []
  /-- the fault of a group that has left, with its number: 0x10 of a retired team (R227), or 0x19 of an EMIT (R12) -/
  exitFault : Option (Nat × FaultRec) := none
  /-- the faults 0x19 of EMITs, the first of each group, until the word that closes the interval takes them (R281) -/
  emitFault : List (Nat × FaultRec) := []
  lastExit : Nat × W64 × Nat := (0, 0, 0)
  leaf : Option (W64 × Nat × Nat × Nat) := none
  deriving DecidableEq, Repr, Inhabited

/-- The life of a launch (R286, R289). -/
inductive LState where
  | submitted | eligible
  | done (status : Nat)
  deriving DecidableEq, Repr, Inhabited

/-- A launch and its grid (R210, R263, R366). `snap` is the D snapshot (layer 1 of R223) and `now` memory with the rounds
applied so far, both by physical key; `total` is what the grid has written. -/
structure Launch where
  lr : LRec := {}
  qdecl : List (Nat × Nat × Nat) := []
  state : LState := .submitted
  launchPc : W64 := 0
  seen : List Nat := []
  early : List Nat := []
  /-- code as it stood at H when the launch became eligible (R33) -/
  code : Image := {}
  snap : Image := {}
  now : Image := {}
  nowAtClose : Image := {}
  total : MemW := {}
  totalAtClose : MemW := {}
  /-- the applied rounds that early dependants see (R282), now and at the last close -/
  trig : MemW := {}
  trigAtClose : MemW := {}
  token : Nat × Nat := (1, 0)
  tstep : W32 := 0
  gbarCount : W32 := 0
  halo : List (W64 × Nat × W64) := []
  flagsDue : List (Nat × Nat × Nat) := []
  /-- the headers of the trees that its VINS, VDEL and VACT have named, or its AUX: each close reclaims their arenas (R296) -/
  trees : List Nat := []
  leaves : List (W64 × Nat × Nat × Nat) := []
  /-- the nodes it has sent records to (R280) -/
  nodes : List LRec := []
  /-- what a formed launch sees of its source (R281), and whether the round that completed its batch has applied -/
  base : MemW := {}
  fixed : Bool := true
  /-- the D-interval close of its completion has run (R212, R225) -/
  closed : Bool := false
  deriving DecidableEq, Repr, Inhabited

/-- One row of a copy: a source address in the memory half, or the bytes themselves as they were read at issue, absent where the
source is damaged (R254). -/
structure Row where
  dst : Nat
  src : Option Nat := none
  bytes : List (Option Byte) := []
  len : Nat := 0
  deriving DecidableEq, Repr, Inhabited

/-- One participant's step of a collective (R258); `rows` hold its source. -/
structure CollOp where
  entry : Nat
  step : Nat
  rank : Nat
  op : Nat
  ty : Ty
  dst : Nat
  count : Nat
  x : Int
  root : Nat
  rows : List Row
  /-- the step has ended: slot status, status word, and the bytes still to be written -/
  out : Option (Nat × Nat × List Byte) := none
  deriving DecidableEq, Repr

/-- The unit that works on an operation (R236): the core's TCU, a bulk engine of the die, the collective engine, the round that applies
it (R245), the writer of traversal logs (R334). -/
inductive Engine where
  | tcu | bce | coll | round | log
  deriving DecidableEq, Repr, Inhabited

/-- What an engine operation does (R236). -/
inductive OpKind where
  | rows (rs : List Row)
  | cldx (dst src ne : Nat) (ty : Ty)
  | pfch (a n : Nat)
  /-- an MCST before its pairing; the root's rows start at 0 (R247) -/
  | mcst (root len k dst : Nat) (rows : List Row)
  | coll (c : CollOp)
  /-- completed by the round that applies its token-applied word (R245) -/
  | token
  | bvh (refit : Bool) (header arena size lmax : Nat)
  /-- the log of the rays of `n` lanes, with the parts of those that are done (R334) -/
  | log (n : Nat) (parts : List (Nat × List Byte))
  deriving DecidableEq, Repr

/-- The state of an engine operation (R240, R255, R256). -/
inductive OpState where
  | running
  | suspended (va : Nat)
  | done (status : Nat)
  deriving DecidableEq, Repr

/-- An engine operation, forked at issue and joined when its completion is observed (R228, R229). What it reads on chip stands
in its rows; `mem` is the issuing group's memory at issue. `want` is a queue in which it still waits for a slot (R181);
`result` the status its slot takes when its declared count has been written. -/
structure EngOp where
  gid : Nat
  slices : Nat
  kind : OpKind
  engine : Engine := .tcu
  /-- the word that forked it -/
  pc : W64 := 0
  state : OpState := .running
  mode : Nat
  slot : Option (Nat × W32) := none
  phase : BitVec 16 := 0
  priv : Bool := false
  decl : Nat := 0
  handle : W64 := 0
  want : Option Nat := none
  result : Nat := 2
  opid : Option W32 := none
  mem : Image := {}
  /-- the physical lines whose reads entered the check of R227 at issue -/
  noted : List Nat := []
  /-- it writes what its cluster's root has read: its rows are no reads of its team (R227, R247) -/
  copied : Bool := false
  /-- what a compressed source that begins in memory holds beyond 2^55, up to the first byte that a copy may not read (R250) -/
  chip : List (Option Byte) := []
  lines : List Nat := []
  chunks : Nat := 0
  /-- a status word that it writes into its slot however it ends (R258) -/
  head : MemW := {}
  /-- lines that a die-to-die link has lost (R396): 128-byte lines of the memory the operation moves -/
  lost : List Nat := []
  /-- writes to team data by offset and to memory by physical key -/
  team : MemW := {}
  writes : MemW := {}
  deriving DecidableEq, Repr

/-- What one participant gave a collective step (R258 to R260). -/
structure Part where
  rank : Nat
  op : Nat
  ty : Ty := .i32
  count : Nat := 0
  x : Int := 0
  root : Nat := 0
  poison : Bool := false
  nv : Bool := false
  rnx : Bool := false
  rsat : Bool := false
  withdrawn : Bool := false
  wires : List Wire := []
  raw : List Byte := []
  opid : Option Nat := none
  deriving DecidableEq, Repr

/-- A collective table entry (R257, R391): its 64 bytes, and the steps in progress. -/
structure CEntry where
  bytes : Memory := []
  busy : Bool := false
  refused : Bool := false
  steps : Tab (List Part) := []
  /-- participants that have left, each with the first step that goes on without it (R260) -/
  gone : List (Nat × Nat) := []
  /-- contributions of other modules whose flits are still coming, by step · 2^32 + rank, with the number left (R393) -/
  arriving : Tab (Part × Nat) := []
  deriving DecidableEq, Repr, Inhabited

/-- STATE of a context (R345). -/
inductive CState where
  | free | idle | resident | switchedOut | faulted
  deriving DecidableEq, Repr, Inhabited

/-- A context (R341, R345, R359, R386). -/
structure Ctx where
  state : CState := .free
  f : CtxFields := {}
  coreMap : List Nat := []
  image : Option (Nat × Nat) := none
  tvec : W64 := 0
  epc : W64 := 0
  ien : Bool := false
  inHandler : Bool := false
  frhead : BitVec 8 := 0
  frtail : BitVec 8 := 0
  tkey : W64 := 0
  debugReq : Bool := false
  launchN : Nat := 0
  /-- launches whose LWAIT has returned (R226) -/
  waited : List Nat := []
  trapUsed : List Nat := []
  waitingRing : List (List Byte) := []
  opid : W32 := 0
  ctable : Tab CEntry := []
  conns : Memory := []
  inbound : Memory := []
  intail : W32 := 0
  consumed : W32 := 0
  outack : W32 := 0
  outprog : W32 := 0
  /-- messages below this number have been acknowledged (R390) -/
  acked : W32 := 0
  ovr : Bool := false
  checkpointReq : Bool := false
  /-- migrations that wait for a forwarding entry: logical core and new core (R351) -/
  migrations : List (Nat × Nat) := []
  /-- the context that last left cores which this one shares: turns are taken in ascending order after it (R345) -/
  after : Nat := 15
  /-- the 64 KiB pages of either tier, by physical key, that its control program has written (R185) -/
  pages : List Nat := []
  deriving DecidableEq, Repr, Inhabited

/-- An entry of the Aster table (R331, R332): the key and the path of the hit. -/
structure AsterEntry where
  ctx : Nat
  key : List Byte
  path : List Nat
  deriving DecidableEq, Repr, Inhabited

/-- The life-cycle fuses (R364). -/
inductive Fuse where
  | manufacture | provisioned | deployed | retired
  deriving DecidableEq, Repr, Inhabited

/-- An entry of LOGS (R397, R400): a fault that stopped a context, an uncorrectable error where it struck, or one in a scratchpad unit
(R203). -/
inductive LogRec where
  | fault (ctx code : Nat)
  | error (t : ErrTarget)
  | scratchpad (tid unit : Nat)
  deriving DecidableEq, Repr

/-- What the module sends out (R360, R387, R392, R397, R400). -/
inductive Report where
  | answer (ctx op status : Nat) (a b : Nat)
  | event (ctx : Nat) (st : CState) (code : Nat)
  /-- the part number, the logical core count, the life-cycle state, and whether the boot has failed (R397, R400) -/
  | ident (part : String) (cores : Nat) (fuse : Fuse) (failed : Bool)
  | power (v : W64)
  | logs (recs : List LogRec)
  /-- each counter that is not zero: its place (`coreCounter`, `mscCounter`), and each leaf (`treeLeaf`) -/
  | counters (ctx : Nat) (counters leaves : List (Nat × Nat))
  | bytes (ctx : Nat) (l : List Byte)
  | refused
  | nonce (v : BitVec 256)
  /-- the header's module id and sequence number, and the payload (R393) -/
  | flit (module seq : Nat) (f : FlitData)
  /-- a dump of a group image, with its site tuple and word address (R361) -/
  | image (gid : Nat) (site : List Byte) (l : List Byte)
  /-- a stop for the debugger, with its site tuple (R361, R363) -/
  | stop (site : List Byte)
  | resend
  | bootHalt
  deriving DecidableEq, Repr

/-- Who took the issue slot: a group and the slices of the sub-gang whose word it is (R25). -/
structure Party where
  gid : Nat
  mask : Nat
  deriving DecidableEq, Repr

/-- What the module itself keeps of a saved context beside the sections of R347 (R346, R398): with the pages and tables of a checkpoint
image by target type, first address and size, and their poisoned units. -/
structure Saved where
  ctx : Ctx
  launches : Tab Launch := []
  teams : Tab Team := []
  groups : Tab Group := []
  ops : Tab EngOp := []
  frames : List (Nat × Nat × Nat) := []
  poison : List Nat := []
  ghosts : Tab (Nat × W64 × List Byte) := []
  leaves : Sparse W64 := []
  counters : Sparse W64 := []
  counterCfg : Sparse W64 := []
  counterOvf : List Nat := []
  deriving DecidableEq, Repr

/-- The module. Memory is one store of bytes by physical key: type · 2^56 + target address, with the context above bit 60 for
the types whose target is a context's own (5 and 6). It holds memory at level H without the grids' writes, which lie in
each launch's `total`. -/
structure State where
  cycle : W64 := 0
  inputs : List Instr := []
  cur : Option Party := none
  /-- the quadrants whose slot of this cycle is still to fill, the first being filled, and each quadrant's rotating pointer (R25) -/
  slots : List Nat := []
  pointers : Sparse Nat := []
  mem : Memory := []
  memPoison : List Nat := []
  ctxs : Tab Ctx := []
  launches : Tab Launch := []
  teams : Tab Team := []
  groups : Tab Group := []
  ops : Tab EngOp := []
  nextOp : Nat := 0
  /-- the queues of the bulk engines, eight to a die (R236): operations with their chunks still to be taken -/
  bces : Tab (List (Nat × Nat)) := []
  tree : Sparse W64 := []
  counters : Sparse W64 := []
  counterCfg : Sparse W64 := []
  counterOvf : List Nat := []
  ramp : Sparse Nat := []
  rampPrev : Sparse Nat := []
  /-- lines in the memory-side caches, by die · 2^64 + line (R13, R189) -/
  msc : List Nat := []
  aster : Tab AsterEntry := []
  /-- the leaf-pointer cache of each core: context and handle of up to 512 leaves, the newest first (R292) -/
  leafCache : Tab (List Nat) := []
  /-- ghost frames in use, by die · 2^68 + context · 2^64 + address: the launch, the leaf's handle and the copy (R292, R312) -/
  ghosts : Tab (Nat × W64 × List Byte) := []
  tcache : List Nat := []
  forwards : List (Nat × Nat × Nat × Nat) := []
  forwarded : Nat := 0
  /-- pages whose walk is in progress (R341); a walk runs within one step, so none is between steps -/
  walks : List Nat := []
  /-- the checkpoint images taken: slot of the reserved region, and length (R386) -/
  images : Tab Nat := []
  errors : List LogRec := []
  cores : Nat := 576
  fuse : Fuse := .manufacture
  grants : W32 := 0
  nonceNo : Nat := 0
  nonceUsed : Bool := false
  clockLow : List Nat := []
  dropped : Nat := 0
  reports : List Report := []
  bootHalted : Bool := false
  /-- the address of each Ethernet port (R387), this module's fabric id, and the sequence number of its next flit (R393) -/
  portAddr : List Nat := [0, 0]
  moduleId : Nat := 0
  flitSeq : Nat := 0
  /-- the records of the firmware images checked at the last boot, and the attestation of them (R364, R400) -/
  measured : List (BitVec 512) := []
  attested : BitVec 512 := 0
  /-- the firmware-debug domain: its unlock and its trace sink (R365) -/
  fwUnlock : Bool := false
  fwTrace : List Byte := []
  freeCtr : Nat := 0
  deriving DecidableEq, Repr

/-- The module after a cold reset (R400 step 5): every context FREE, every table empty, memory with nothing listed. The
values the spec does not give are named in entries 4 to 7 of the assumption log. -/
def State.reset : State := {}

/-- The group number that stands for a context's control core. -/
def ctlGid (ctx : Nat) : Nat := 2 ^ 200 + ctx
def lidOf (ctx key : Nat) : Nat := ctx * 2 ^ 64 + key
def lidCtx (lid : Nat) : Nat := lid / 2 ^ 64
def lidKey (lid : Nat) : Nat := lid % 2 ^ 64
def tidOf (lid team : Nat) : Nat := lid * 2 ^ 32 + team
def tidLid (tid : Nat) : Nat := tid / 2 ^ 32
def gidOf (tid g : Nat) : Nat := tid * 64 + g
def gidTid (gid : Nat) : Nat := gid / 64
def gidG (gid : Nat) : Nat := gid % 64

end Sys2Proof.Machine
end

