-- ==== Sys2Proof/Machine/Operands.lean ====
section
/-! DEFINITION. Reading and writing registers: sub-gangs and executing lanes (R93, R95), the special registers (R92), operands
at 32 and 64 bits (R94), F-class writes with their cancellation of pending results (R46), and the register spans of every
word, from which the role budget (R16, R42, R169) and the damage check (R100) follow. -/

namespace Sys2Proof.Machine

/-! ### Slices, lanes and the issuing sub-gang -/

/-- The lanes of a set of slices (R14). -/
def laneMask (slices : Nat) : Nat :=
  (List.range 8).foldl (fun m s => if bitOf slices s then m + 15 * 2 ^ (4 * s) else m) 0
def slicesOf (m : Nat) : List Nat := (List.range 8).filter (bitOf m)
def lanesOf (m : Nat) : List Nat := (List.range 32).filter (bitOf m)
/-- The lowest member of a mask. -/
def lowest (m : Nat) : Nat := ((List.range 32).find? (bitOf m)).getD 0

/-- The party whose word it is, with what it belongs to (R14). For a control core the team and the launch are
the defaults. -/
structure Env where
  s : State
  gid : Nat
  g : Group
  sub : SubGang
  tid : Nat := 0
  team : Team := default
  lid : Nat := 0
  lch : Launch := default
  cid : Nat := 0
  ctx : Ctx := default
  pc : W64 := 0

namespace Group

def vr (g : Group) (r lane : Nat) : Nat := (sget 0 g.vreg (32 * r + lane)).toNat
def sr (g : Group) (r slice : Nat) : Nat := (sget 0 g.sreg (8 * r + slice)).toNat
/-- k0 reads KACT (R91). -/
def kr (g : Group) (k : Nat) : Nat := if k == 0 then g.kact.toNat else (sget 0 g.kreg k).toNat
def slice (g : Group) (i : Nat) : Slice := (g.slices[i]?).getD default

/-- A slice is live while one of its lanes is set in KACT (R144). -/
def liveSlice (g : Group) (i : Nat) : Bool := fld g.kact.toNat (4 * i) 4 != 0
def liveMask (g : Group) : Nat :=
  (List.range 8).foldl (fun m i => if g.liveSlice i then m + 2 ^ i else m) 0

def modSlice (g : Group) (i : Nat) (f : Slice → Slice) : Group := { g with slices := g.slices.modify i f }
def modSlices (g : Group) (l : List Nat) (f : Slice → Slice) : Group := l.foldl (fun g i => g.modSlice i f) g

/-- Pending results lose the cancelled keys (R46). A failed result has no write to cancel: it still faults at the marker, whether or not an
F-class word has written its register meanwhile (entry 13). -/
def cancelV (g : Group) (key : Nat) : Group :=
  { g with pend := g.pend.map fun p => { p with vw := p.vw.filter fun w => w.1 != key } }
def cancelS (g : Group) (key : Nat) : Group :=
  { g with pend := g.pend.map fun p => { p with sw := p.sw.filter fun w => w.1 != key } }

/-- A write of a special register's copy replaces a damaged word (R100). -/
def mendX (g : Group) (r : Special) (at' : Nat) : Group := { g with badX := g.badX.filter (· != 32 * r.code + at') }

/-- Register writes by key without cancellation: what a marker does (R44). A write replaces a damaged word (R100). -/
def rawV (g : Group) (key : Nat) (x : W32) : Group :=
  { g with vreg := sset 0 g.vreg key x, badV := g.badV.filter (· != key) }
def rawS (g : Group) (key : Nat) (x : W64) : Group :=
  { g with sreg := sset 0 g.sreg key x, badS := g.badS.filter (· != key) }

/-- An F-class write to a vector register of one lane (R46). -/
def wrV (g : Group) (r lane : Nat) (x : Nat) : Group :=
  (g.cancelV (32 * r + lane)).rawV (32 * r + lane) (BitVec.ofNat 32 x)
/-- An F-class write to a scalar register of one slice (R46). A scalar register is one register of 64 bits: MOVH, which writes its bits 63:32
alone, cancels a pending result of it whole too (entry 13). -/
def wrS (g : Group) (r slice : Nat) (x : Nat) : Group :=
  (g.cancelS (8 * r + slice)).rawS (8 * r + slice) (BitVec.ofNat 64 x)
/-- A write to the bits of a mask register that `sel` names (R95); k0 is not writable (R42). -/
def wrK (g : Group) (k sel x : Nat) : Group :=
  if k == 0 then g
  else { g with
    kreg := sset 0 g.kreg k (BitVec.ofNat 32 ((g.kr k &&& (2 ^ 32 - 1 - sel)) ||| (x &&& sel))),
    badK := g.badK.filter (· != k) }

/-- STATUS bits raised in a slice's copy (R96). -/
def raise (g : Group) (slice flags : Nat) : Group :=
  if flags == 0 then g else g.modSlice slice fun x => { x with status := x.status ||| BitVec.ofNat 32 flags }
/-- STATUS bits of a group event: every copy (R96). -/
def raiseAll (g : Group) (flags : Nat) : Group := g.modSlices (List.range 8) fun x =>
  { x with status := x.status ||| BitVec.ofNat 32 flags }
def setFlags (g : Group) (slice : Nat) (f : Flags5) : Group :=
  g.modSlice slice fun x => { x with z := f.z, n := f.n, c := f.c, v := f.v, u := f.u }
def flags (g : Group) (slice : Nat) : Flags5 :=
  let x := g.slice slice
  { z := x.z, n := x.n, c := x.c, v := x.v, u := x.u }

def tile (g : Group) (k : Nat) : Tile := (tget k g.tiles).getD default

end Group

/-! ### Specials (R92) -/

def LRec.nteam (r : LRec) : Nat := r.gx * r.gy * r.gz
def LRec.clusterN (r : LRec) : Nat := 2 ^ r.clog
def LRec.groups (r : LRec) : Nat := r.p + r.c
/-- Ring bytes of the declared queues (R191). -/
def Launch.ringBytes (l : Launch) : Nat := l.qdecl.foldl (fun n q => n + q.2.1 * q.2.2) 0
/-- The team allotment of R19, in the layout order of R191. -/
structure Layout where
  rings : Nat
  pool : Nat
  spills : Nat
  shadows : Nat
  pad : Nat
  sys : Nat
  size : Nat
  deriving DecidableEq, Repr
def Launch.layout (l : Launch) : Layout :=
  let r := l.lr
  let rings := r.scratch * 64
  let pool := rings + l.ringBytes
  let spills := pool + r.leafpool * 4224
  let shadows := spills + r.groups * (r.spill * 64)
  let pad := shadows + r.groups * (r.shadow * 64)
  let size := (pad + 16384 + 4095) / 4096 * 4096
  { rings := rings, pool := pool, spills := spills, shadows := shadows, pad := pad, sys := size - 16384, size := size }

/-- SPB of a team (R190). -/
def spbOf (team : Nat) : Nat := 2 ^ 55 + team * 2 ^ 19
def Env.spb (e : Env) : Nat := spbOf e.team.team
/-- Logical and physical core (R18); the physical core is 144 · die + 12 · row + column. -/
def Env.lcore (e : Env) : Nat := e.team.team % (max e.lch.lr.l 1)
def Ctx.phys (c : Ctx) (lcore : Nat) : Nat := (c.coreMap[lcore]?).getD 0
def Env.pcore (e : Env) : Nat := e.ctx.phys e.lcore
def Env.die (e : Env) : Nat := if e.g.isCtl then e.ctx.f.ccore / 4 else e.pcore / 144
/-- STATUS as the sub-gang reads it (R96). -/
def Env.status (e : Env) : Nat :=
  (slicesOf e.sub.mask).foldl (fun m i => m ||| (e.g.slice i).status.toNat) 0
/-- A mask as the sub-gang sees it (R95). -/
def Env.maskView (e : Env) (k : Nat) : Nat := e.g.kr k &&& laneMask e.sub.mask

/-- The value of a special register in a lane (R92), zero-extended, LEAFX to LEAFZ sign-extended. -/
def Env.special (e : Env) (r : Special) (lane : Nat) : Nat :=
  let t := e.team
  let r' := e.lch.lr
  let slice := lane / 4
  let (hl, lx, ly, lz) := t.leaf.getD (0, 0, 0, 0)
  match r with
  | .lane => lane
  | .slice => slice
  | .group => gidG e.gid
  | .tlane => 32 * gidG e.gid + lane
  | .team => t.team
  | .teamX => t.team % (max r'.gx 1)
  | .teamY => t.team / (max r'.gx 1) % (max r'.gy 1)
  | .teamZ => t.team / (max r'.gx 1) / (max r'.gy 1)
  | .nteam => r'.nteam
  | .cluster => t.team / r'.clusterN
  | .role => if gidG e.gid < r'.c then 1 else 0
  | .lcore => e.lcore
  | .pcore => e.pcore
  | .launch => lidKey e.lid
  | .spb => e.spb
  | .args => r'.args.toNat
  | .leafX => sext 32 64 lx
  | .leafY => sext 32 64 ly
  | .leafZ => sext 32 64 lz
  | .leafH => hl.toNat
  | .draws => (sget 0 e.g.draws lane).toNat
  | .cycle => e.s.cycle.toNat
  | .fmr => (e.g.slice slice).fmr.toNat
  | .kact => e.maskView 0
  | .status => e.status
  | .phase => e.g.phaseSeen.toNat + 2 ^ 16 * t.cphase.toNat
  | .round => low 32 t.nrounds
  | .die => e.die
  | .ctx => e.cid
  | .tstep => e.lch.tstep.toNat

/-! ### Who executes (R93) -/

/-- The executing lanes under guard `k`. -/
def Env.exec (e : Env) (k : Nat) : Nat := e.g.kr k &&& e.g.kact.toNat &&& laneMask e.sub.mask
def Env.execLanes (e : Env) (k : Nat) : List Nat := lanesOf (e.exec k)
/-- The slices with an executing lane. -/
def sliceBits (lanes : Nat) : Nat :=
  (List.range 8).foldl (fun m s => if fld lanes (4 * s) 4 != 0 then m + 2 ^ s else m) 0
def Env.execSlices (e : Env) (k : Nat) : List Nat := slicesOf (sliceBits (e.exec k))
/-- The whole gang: all eight slices (R158). -/
def Env.whole (e : Env) : Bool := e.sub.mask == 255

/-! ### Operands (R40, R94) -/

/-- A 64-bit operand in a lane. -/
def Env.rd64 (e : Env) (lane : Nat) : Opd → Nat
  | .v n => e.g.vr n lane + 2 ^ 32 * e.g.vr (n + 1) lane
  | .s n => e.g.sr n (lane / 4)
  | .k n => e.maskView n
  | .x _ => 0
  | .sp r => e.special r lane
  | .zero => 0
/-- A 32-bit operand in a lane. -/
def Env.rd32 (e : Env) (lane : Nat) : Opd → Nat
  | .v n => e.g.vr n lane
  | o => low 32 (e.rd64 lane o)
/-- An operand of a type in a lane. -/
def Env.rd (e : Env) (ty : Ty) (lane : Nat) (o : Opd) : Nat :=
  if ty.bits == 64 then e.rd64 lane o else e.rd32 lane o

/-- A result of 32 or 64 bits into D for one lane (vector) or slice (scalar, zero-extended: R94); ZERO discards it. -/
def Group.wrD (g : Group) (wide : Bool) (d : Opd) (lane x : Nat) : Group :=
  match d with
  | .v n => if wide then (g.wrV n lane x).wrV (n + 1) lane (x / 2 ^ 32) else g.wrV n lane x
  | .s n => g.wrS n (lane / 4) (if wide then x else low 32 x)
  | _ => g

/-- The places a word computes at (R93): every executing lane for a vector D, the first lane of every executing slice
for a scalar D or ZERO. -/
def Env.places (e : Env) (k : Nat) (d : Opd) : List Nat :=
  if d.isV then e.execLanes k else (e.execSlices k).map (4 * ·)

/-- All operands are read in `e`; the results go into its group (R93), with their flags in the lane's slice copy (R96). -/
def Env.perPlace (e : Env) (k : Nat) (d : Opd) (wide : Bool) (f : Nat → Nat × Nat) : Group :=
  (e.places k d).foldl (fun g p => let r := f p; (g.wrD wide d p r.1).raise (p / 4) r.2) e.g

/-- A comparison into a mask register: the bits of the sub-gang's lanes (R112, R126), and flags. -/
def Env.maskForm (e : Env) (k : Nat) (d : Nat) (f : Nat → Bool × Nat) : Group :=
  let r := (e.execLanes k).foldl (fun (acc : Nat × Group) l =>
    let q := f l
    (if q.1 then acc.1 + 2 ^ l else acc.1, acc.2.raise (l / 4) q.2)) (0, e.g)
  r.2.wrK d (laneMask e.sub.mask) r.1

end Sys2Proof.Machine

namespace Sys2Proof

/-! ### Register spans -/

/-- An operand with the number of consecutive registers it names, whether it is a source, and its field in the word. -/
structure Span where
  o : Opd
  n : Nat := 1
  read : Bool := true
  fld : RFld := .d
  /-- a 64-bit operand: one value of two vector registers (R94, R354) -/
  pair : Bool := false
  /-- the registers of the span that the word reads at issue, where it does not read all of them -/
  need : Option (List Nat) := none
  deriving DecidableEq, Repr

/-- The registers of a span that are read at issue (R100). -/
def Span.reads (x : Span) : List Nat := if x.read then x.need.getD (List.range x.n) else []

def regs (wide : Bool) : Nat := if wide then 2 else 1
/-- Registers of a 64-bit operand: a pair of vector registers, one scalar register (R94). -/
def pairN (o : Opd) (wide : Bool) : Nat := if o.isV then regs wide else 1

/-- The fields that a word uses, at the width of the type: D written and the others read. -/
def RWord.spans (f : RWord) (l : List RFld) : List Span :=
  l.map fun x => ⟨f.get x, pairN (f.get x) (f.ty.bits == 64), x != .d, x, f.ty.bits == 64, none⟩
def spansOf (d : Opd) (dn : Nat) (l : List (RFld × Opd × Nat)) : List Span :=
  ⟨d, dn, false, .d, false, none⟩ :: l.map fun x => ⟨x.2.1, x.2.2, true, x.1, x.2.2 == 2, none⟩
def IWord.spans (f : IWord) : List Span :=
  let w := f.modi.val % 2 == 1
  [⟨f.d, pairN f.d w, false, .d, w, none⟩, ⟨f.a, pairN f.a w, true, .a, w, none⟩]
/-- Registers of D at an access width (R201). -/
def MWord.dRegs (f : MWord) : Nat :=
  match f.width with
  | .w64 => if f.d.isV then 2 else 1
  | .w128 => if f.d.isV then 4 else 2
  | _ => 1
def MWord.spans (f : MWord) (dn : Nat) (dread : Bool) : List Span :=
  [⟨f.d, dn, dread, .d, false, none⟩, ⟨f.a, 1, true, .a, false, none⟩, ⟨f.b, 1, true, .b, false, none⟩]

/-- The registers each word names (R42, R169). How many vector registers MBLD and MMA name follows from FMR; their own
entries check that, and damage there is a damaged operand (R59, R170, R171, R183). -/
def Instr.spans : Instr → List Span
  | .rdln f => spansOf f.d 1 [(.a, f.a, regs (f.ty.bits == 64)), (.b, f.b, 1)]
  | .wrln f => spansOf f.d (regs (f.ty.bits == 64)) [(.a, f.a, 1), (.b, f.b, 1)]
  | .shfl f => spansOf f.d (regs (f.ty.bits == 64)) [(.a, f.a, regs (f.ty.bits == 64)), (.b, f.b, 1)]
  | .sel f => spansOf f.d (pairN f.d (f.ty.bits == 64)) [(.a, f.a, pairN f.a (f.ty.bits == 64)), (.b, f.b, pairN f.b (f.ty.bits == 64)), (.c, f.c, 1)]
  | .bfi f => spansOf f.d (pairN f.d (f.ty.bits == 64)) [(.a, f.a, pairN f.a (f.ty.bits == 64)), (.b, f.b, 1), (.c, f.c, 1)] ++
    [⟨f.d, pairN f.d (f.ty.bits == 64), true, .d, false, none⟩]
  | .lea f => spansOf f.d (pairN f.d true) [(.a, f.a, pairN f.a true), (.b, f.b, 1)]
  | .popc f | .clz f => spansOf f.d (pairN f.d (f.ty.bits == 64)) [(.a, f.a, pairN f.a (f.ty.bits == 64))]
  | .bfx f => spansOf f.d (pairN f.d (f.ty.bits == 64)) [(.a, f.a, pairN f.a (f.ty.bits == 64)), (.b, f.b, 1), (.c, f.c, 1)]
  | .fscl f => spansOf f.d (pairN f.d (f.ty == .f64)) [(.a, f.a, pairN f.a (f.ty == .f64)), (.b, f.b, 1)]
  | .fclass f => spansOf f.d 1 [(.a, f.a, pairN f.a (f.ty == .f64))]
  | .fgexp f => spansOf f.d (pairN f.d (f.ty == .f64 && f.m == 1)) [(.a, f.a, pairN f.a (f.ty == .f64))]
  | .f2f f => spansOf f.d (pairN f.d (f.m == 0)) [(.a, f.a, pairN f.a (f.lo.val / 4 == 0))] ++
    if 2 ≤ f.m.val then [⟨f.d, 1, true, .d, false, none⟩] else []
  | .f2i f => spansOf f.d (pairN f.d (2 ≤ f.m.val)) [(.a, f.a, pairN f.a (f.ty == .f64))]
  | .i2f f => spansOf f.d (pairN f.d (f.m == 0)) [(.a, f.a, pairN f.a (f.ty.bits == 64))]
  | .movi f => [⟨f.d, pairN f.d (f.modi == 3), false, .d, false, none⟩]
  | .movh f => [⟨f.d, 1, false, .d, false, none⟩, ⟨f.d, 1, true, .d, false, none⟩]
  | .iaddi f | .andi f | .ori f | .xori f | .shli f | .shri f | .imuli f | .faddi f | .fmuli f | .icmpi f => f.spans
  | .ffmai f => f.spans ++ [⟨f.d, pairN f.d (f.modi.val % 2 == 1), true, .d, false, none⟩]
  | .sfmt f => if f.modi == 1 then [⟨f.a, 1, true, .a, false, none⟩] else []
  | .mbld f | .mma f => [⟨f.a, 0, true, .a, false, none⟩]
  | .mdrn f => spansOf f.d 8 []
  | .mred f => spansOf f.d (regs (f.ty == .f64)) []
  | .mscl f => [⟨f.a, regs (f.ty == .f64), true, .a, f.ty == .f64, none⟩]
  | .mseq f => spansOf f.d 1 [(.a, f.a, 1), (.b, f.b, 1), (.c, f.c, if f.m == 1 then 4 else 1)]
  | .mgrp f => spansOf f.d 1 [(.a, f.a, 1), (.b, f.b, 1), (.c, f.c, 2)]
  | .ld f => f.spans f.dRegs false
  | .st f => f.spans f.dRegs true
  | .atom f | .red f => f.spans f.dRegs true
  | .cas f => f.spans (if f.width == .w64 && f.d.isV then 4 else 2) true
  | .pushs f => [⟨f.a, f.m.val + 1, true, .a, false, none⟩]
  | .pops f => [⟨f.d, f.m.val + 1, false, .d, false, none⟩]
  | .cpy f | .coll f => [⟨f.d, 1, true, .d, false, none⟩, ⟨f.a, 1, true, .a, false, none⟩, ⟨f.c, 4, true, .c, false, none⟩]
  | .mcst f => [⟨f.d, 1, true, .d, false, none⟩, ⟨f.a, 1, true, .a, false, none⟩, ⟨f.c, 4, true, .c, false, some [0, 1, 3]⟩]
  | .cldx f => [⟨f.d, 1, true, .d, false, none⟩, ⟨f.a, 1, true, .a, false, none⟩, ⟨f.c, 4, true, .c, false, some [3]⟩]
  | .bulk f => [⟨f.d, 1, true, .d, false, none⟩, ⟨f.a, 1, true, .a, false, none⟩, ⟨f.c, 4, true, .c, false, some [0, 3]⟩]
  | .pfch f => [⟨f.a, 1, true, .a, false, none⟩, ⟨f.c, 4, true, .c, false, some [0, 3]⟩]
  | .bvhbBuild f => [⟨f.d, 1, true, .d, false, none⟩, ⟨f.c, 4, true, .c, false, none⟩]
  | .bvhbRefit f => [⟨f.d, 1, true, .d, false, none⟩, ⟨f.c, 4, true, .c, false, some [3]⟩]
  | .gthr f | .sctr f => [⟨f.d, 1, true, .d, false, none⟩, ⟨f.a, 1, true, .a, false, none⟩, ⟨f.b, 1, true, .b, false, none⟩, ⟨f.c, 4, true, .c, false, none⟩]
  | .cpyc f => [⟨f.d, 1, true, .d, false, none⟩, ⟨f.a, (regs (f.ty.bits == 64)) * (if f.m == 6 then 2 else 1), true, .a, f.ty.bits == 64, none⟩, ⟨f.b, 1, true, .b, false, none⟩, ⟨f.c, 4, true, .c, false, some [3]⟩]
  | .csto f => [⟨f.d, 1, true, .d, false, none⟩, ⟨f.a, f.m.val + 1, true, .a, false, none⟩, ⟨f.c, 4, true, .c, false, some [1, 3]⟩]
  | .qpop f | .qpeek f => spansOf f.d 2 [(.a, f.a, 1)]
  | .emit f => [⟨f.d, 1, true, .d, false, none⟩, ⟨f.a, 1, true, .a, false, none⟩]
  | .vget f => spansOf f.d (regs (f.ty == .f64)) [(.a, f.a, 3), (.b, f.b, 1)]
  | .vstn f => spansOf f.d ((if f.m == 0 then 7 else 27) * regs (f.ty == .f64)) [(.a, f.a, 3), (.b, f.b, 1)]
  | .vset f => [⟨f.d, regs (f.ty == .f64), true, .d, false, none⟩, ⟨f.a, 3, true, .a, false, none⟩, ⟨f.b, 1, true, .b, false, none⟩]
  | .vact f => [⟨f.a, 3, true, .a, false, none⟩, ⟨f.b, 1, true, .b, false, none⟩]
  | .vins f | .vdel f => [⟨f.a, 3, true, .a, false, none⟩, ⟨f.b, 1, true, .b, false, none⟩, ⟨f.c, 1, true, .c, false, none⟩]
  | .vleaf f => spansOf f.d 1 [(.a, f.a, if f.m == 0 then 3 else 1), (.b, f.b, 1)]
  | .vleafRel f => [⟨f.a, 1, true, .a, false, none⟩]
  | .vmrc f => spansOf f.d 4 [(.a, f.a, 8), (.b, f.b, 1)]
  | .vsmp f => spansOf f.d 1 [(.a, f.a, 3), (.b, f.b, 1)]
  | .rtrc f => spansOf f.d 8 [(.a, f.a, 16), (.b, f.b, 1), (.c, f.c, 1)]
  | .rcont f => [⟨f.d, 8, false, .d, false, none⟩, ⟨f.a, 4, true, .a, false, some []⟩]
  | .rcontKill f => spansOf f.d 8 []
  | .rget f => spansOf f.d (rgetSpan f.m.val) []
  | .rrpl f => [⟨f.a, 2, true, .a, true, none⟩, ⟨f.b, 1, true, .b, false, none⟩]
  | .rng f => spansOf f.d (if f.m == 2 then 4 else 1) [(.a, f.a, 1)]
  | .pairWord f =>
    [f.s0, f.s1].flatMap fun p =>
      if p.op == .nop then [] else
      let d : Opd := .v ⟨p.d.val, by omega⟩
      let src := match p.src with | .reg n => [Span.mk (.v ⟨n.val, by omega⟩) 1 true .d false none] | .imm _ => []
      Span.mk d 1 (p.reads.contains p.d.val) .d false none :: src
  | .bkz f | .bknz f => [⟨.k f.kt, 1, true, .d, false, none⟩]
  | .loop f => [⟨.s f.st, 1, true, .d, false, none⟩]
  | .bra _ | .call _ | .abrtG _ | .abrtT _ => []
  | .mov f | .iabs f | .ineg f | .not f | .brev f | .knot f | .kmov f | .kpop f | .kffs f | .unpk f | .clrst f | .fabs f
  | .fneg f | .fsqrt f | .frcp f | .frsq f | .fex2 f | .flg2 f | .fsin f | .fcos f | .frnd f | .bpack f | .bunpk f
  | .launch f | .lwait f | .lwaitCancel f | .cntr f => f.spans [.d, .a]
  | .iadd f | .isub f | .imul f | .imulh f | .imin f | .imax f | .and f | .or f | .xor f | .shl f | .shr f | .sar f | .rot f
  | .icmp f | .kand f | .kor f | .kxor f | .pack f | .fadd f | .fsub f | .fmul f | .fmin f | .fmax f | .fcmp f | .fdiv f
  | .fcps f | .mdrs f | .mdrm f | .msgrd f => f.spans [.d, .a, .b]
  | .imad f | .prmt f | .ffma f | .fdp2 f => f.spans [.d, .a, .b, .c]
  | .jmpi f | .calli f | .ksync f | .rlog f | .wait f | .trap f | .brk f | .csrw f => f.spans [.a]
  | .kset f | .merr f | .arrv f | .csrr f => f.spans [.d]
  | .qinit f | .qpush f | .qrel f | .msgwr f | .cntc f | .tlbi f => f.spans [.a, .b]
  | .halo f => f.spans [.a, .b, .c]
  | _ => []

/-- A vector register at or above the role budget (R16, R42). -/
def Instr.overBudget (i : Instr) (budget : Nat) : Bool :=
  i.spans.any fun x => 0 < x.n && match x.o with | .v n => n.val + x.n > budget | _ => false

/-- The guard of a word (R35); control words but EXIT, and words with K = 0, have k0. -/
def Instr.guard (i : Instr) : Nat :=
  match i.toEnc with
  | some (.r _ f) => f.k.val
  | some (.i _ f) => f.k.val
  | some (.m _ f) => f.k.val
  | _ => 0

/-- The V-class words (R43). -/
def Instr.isV : Instr → Bool
  | .ld _ | .pops _ | .atom _ | .cas _ | .fdiv _ | .fsqrt _ | .frcp _ | .frsq _ | .fex2 _ | .flg2 _ | .fsin _ | .fcos _
  | .mdrn _ | .mred _ | .vget _ | .vstn _ | .vsmp _ | .vleaf _ | .vleafRel _ | .vmrc _ | .rtrc _ | .rcont _ | .rcontKill _
  | .rget _ | .qpop _ | .arrv _ | .rng _ | .cntr _ => true
  | _ => false

/-- A V-class word that creates pending results: its D names registers (R44, R47). VLEAF.rel and a D of ZERO write none. -/
def Instr.pends (i : Instr) : Bool := i.isV && i.spans.any fun x => x.fld == .d && (x.o.isV || x.o.isS)

/-- An operand that control code accepts (R57). -/
def ctlOpd : Opd → Bool
  | .s _ | .zero => true
  | .sp r => r == .cycle || r == .ctx || r == .status
  | _ => false

/-- The fields that an R-type word uses, for R57: an unused field is `v0`. -/
def ctlR (f : RWord) (l : List RFld) : Bool := f.k == 0 && l.all fun x => ctlOpd (f.get x)

/-- The words control code accepts, with scalar operands, K = 0, PT = 0 and KT = 0 (R57, R151). -/
def Instr.controlOk : Instr → Bool
  | .nop _ | .ret _ | .iret _ | .halt _ | .fence _ => true
  | .mov f | .iabs f | .ineg f | .not f | .popc f | .clz f | .brev f | .clrst f | .fabs f | .fneg f | .fclass f | .fsqrt f
  | .frcp f | .frsq f | .fex2 f | .flg2 f | .fsin f | .fcos f | .frnd f | .fgexp f | .f2f f | .f2i f | .i2f f =>
    ctlR f [.d, .a]
  | .movi f | .movh f | .iaddi f | .andi f | .ori f | .xori f | .shli f | .shri f | .icmpi f | .imuli f | .faddi f | .fmuli f
  | .ffmai f => f.k == 0 && ctlOpd f.d && (ctlOpd f.a || f.a == .v 0)
  | .sfmt f => f.k == 0 && (ctlOpd f.a || f.a == .v 0)
  | .iadd f | .isub f | .imul f | .imulh f | .imin f | .imax f | .and f | .or f | .xor f | .shl f | .shr f | .sar f | .rot f
  | .lea f | .icmp f | .fadd f | .fsub f | .fmul f | .fmin f | .fmax f | .fcmp f | .fdiv f | .fscl f | .fcps f =>
    ctlR f [.d, .a, .b]
  | .imad f | .bfx f | .bfi f | .prmt f | .ffma f | .fdp2 f => ctlR f [.d, .a, .b, .c]
  | .bra f | .bkz f | .bknz f | .loop f | .call f => !f.pt && f.kt == 0
  | .jmpi f => ctlR f [.a] && f.m == 0
  | .calli f => ctlR f [.a]
  | .ld f | .st f => f.k == 0 && ctlOpd f.d && ctlOpd f.a
  | .cas f => f.k == 0 && ctlOpd f.d && ctlOpd f.a && !f.sx
  | .bulk f => ctlR f [.d, .a, .c]
  | .launch f | .lwait f | .lwaitCancel f | .cntr f => ctlR f [.d, .a]
  | .msgrd f => ctlR f [.d, .a, .b]
  | .msgwr f | .cntc f | .tlbi f => ctlR f [.a, .b]
  | .trap f | .brk f | .csrw f => ctlR f [.a]
  | .csrr f => ctlR f [.d]
  | _ => false

/-- The words of a vector operand in one lane. -/
def Span.vWords (x : Span) (lane : Nat) : List Nat :=
  match x.o with | .v n => x.reads.map fun j => 32 * (n.val + j) + lane | _ => []
/-- The special registers that a word reads with no operand that names them: DRAWS in RNG (R376), STATUS in CLRST (R118), FMR in
MBLD and MMA (R170, R171). -/
def Instr.impliedSpecials : Instr → List Special
  | .rng _ => [.draws]
  | .clrst _ => [.status]
  | .mbld _ | .mma _ => [.fmr]
  | _ => []

/-- The privileged words (R56). -/
def Instr.privileged : Instr → Bool
  | .csrr _ | .csrw _ | .iret _ | .halt _ | .tlbi _ | .msgrd _ | .msgwr _ | .launch _ | .lwait _ | .lwaitCancel _ | .cntc _ =>
    true
  | _ => false

end Sys2Proof

namespace Sys2Proof.Machine

/-- The source lane of SHFL; none when it is outside 0 to 31 (R105). -/
def shflSrc (m d lane : Nat) : Option Nat :=
  match m with
  | 0 => some (d % 32)
  | 1 => if d ≤ lane then some (lane - d) else none
  | 2 => if lane + d < 32 then some (lane + d) else none
  | _ => some (lane ^^^ (d % 32))
/-- A lane named by a lane word lies in the issuing sub-gang (R105). -/
def Env.hasLane (e : Env) (l : Nat) : Bool := bitOf e.sub.mask (l / 4)

/-- The vector register words that a word reads at issue, each with the lane it reads them for: R105 for the lane words, R143 for BUNPK, whose
block lies in the first lanes of a half, and R205 for PUSHS, which reads every lane of a live slice. -/
def Env.vReads (e : Env) (i : Instr) (k : Nat) : List (Nat × Nat) :=
  let here := fun (k : Nat) (xs : List Span) => (e.execLanes k).flatMap fun l => xs.flatMap fun x => (x.vWords l).map fun w => (l, w)
  let named := fun (l src : Nat) => if e.hasLane src then (i.spans.filter fun x => x.fld == .a).flatMap fun x => (x.vWords src).map fun w => (l, w) else []
  match i with
  | .rdln f => (e.execSlices k).flatMap fun c => named (4 * c) (low 5 (e.rd64 (4 * c) f.b))
  | .shfl f => (e.execLanes k).flatMap fun l =>
      ((i.spans.filter fun x => x.fld == .b).flatMap fun x => (x.vWords l).map fun w => (l, w)) ++
        named l ((shflSrc f.m (e.rd32 l f.b) l).getD l)
  | .rcont f => (e.execLanes k).flatMap fun l => match tget l e.g.rays, f.a with
      | some r, .v n => if r.phase != .opened then [] else  -- tr only after a CALL, nothing in replay (R328)
          ((if r.event == 2 then [0, 2, 3] else [0]).map fun j => (l, 32 * (n.val + j) + l))
      | _, _ => []
  | .bunpk f => ((e.execLanes k).filter fun l => l % 16 < sbWords (sbM f.m)).flatMap fun l =>
      (i.spans.filter (·.read)).flatMap fun x => (x.vWords l).map fun w => (l, w)
  | .pushs _ => (slicesOf (e.sub.mask &&& e.g.liveMask)).flatMap fun c => (List.range 4).flatMap fun j =>
      i.spans.flatMap fun x => (x.vWords (4 * c + j)).map fun w => (4 * c + j, w)
  | .pairWord f => [f.s0, f.s1].flatMap fun p => here p.k (Instr.spans (.pairWord { s := f.s, s0 := p, s1 := {} }))
  | _ => here k i.spans

/-- The copy of a special register that a lane reads (R92, R96): DRAWS by lane, FMR and STATUS by slice, the others one. -/
def specialKeys (r : Special) (mask lane : Nat) : List Nat :=
  let c := 32 * r.code
  match r with
  | .draws | .lane | .tlane => [c + lane]
  | .fmr | .slice => [c + lane / 4]
  | .status => (slicesOf mask).map (c + ·)
  | _ => [c]
/-- The slices whose scalar sources a word reads: KMOV to a mask reads them in every slice of the sub-gang (R115). -/
def Env.sReads (e : Env) (i : Instr) (k : Nat) : List Nat :=
  match i with
  | .kmov f => if f.d.isKd then slicesOf e.sub.mask else e.execSlices k
  | _ => e.execSlices k
/-- The masks that a word reads: its guards, and its mask operands; k0 stands for KACT. A guard of k0 does not count (entry 46), but KSET
names KACT in its effect (R115). -/
def Env.kReads (i : Instr) (k : Nat) : List Nat :=
  (if k == 0 then [] else [k]) ++
  (match i with
   | .pairWord f => [f.s0, f.s1].filterMap fun p => if p.op == .nop || p.k == 0 then none else some p.k.val
   | .kset _ => [0]
   | _ => []) ++
  (i.spans.filter (·.read)).filterMap fun x => match x.o with | .k n => some n.val | _ => none
/-- A source register word with an uncorrectable error (R100): the slice and the lane (255: none) of the first place that reads
one. KACT is read by a word that names it as a special register or as the operand k0; a guard of k0 and the lanes' liveness do
not count as reads (entry 46). -/
def Env.damaged (e : Env) (i : Instr) (k : Nat) : Option (Nat × Nat) :=
  if e.g.badV == [] && e.g.badS == [] && e.g.badK == [] && e.g.badX == [] then none
  else
    let src := i.spans.filter (·.read)
    let hitV := (e.vReads i k).find? fun w => e.g.badV.contains w.2
    let hitS := (e.sReads i k).find? fun c => src.any fun x => match x.o with
      | .s n => x.reads.any fun j => e.g.badS.contains (8 * (n.val + j) + c)
      | _ => false
    let hitK := (Env.kReads i k).any fun n => if n == 0 then e.g.badX.contains (32 * Special.kact.code) else e.g.badK.contains n
    let sp := (src.filterMap fun x => match x.o with | .sp r => some r | _ => none) ++ i.impliedSpecials
    let hitX := (e.execLanes k).find? fun l => sp.any fun r => (specialKeys r e.sub.mask l).any e.g.badX.contains
    match hitV, hitS, hitX with
    | some l, _, _ => some (l.1 / 4, l.1)
    | none, some c, _ => some (c, 255)
    | none, none, some l => some (l / 4, 255)
    | none, none, none => if hitK then some (lowest e.sub.mask, 255) else none

end Sys2Proof.Machine
end

