-- ==== Sys2Proof/Machine/Ops.lean ====
section
/-! DEFINITION. The shared operations of every word: the environment of the issuing sub-gang, taking a fault (R353, R360),
the control interrupt and its return (R359, R360), markers (R44 to R50), the advance of the program counters, and the
frame `issueWord` in which every meaning runs. -/

namespace Sys2Proof.Machine

/-! ### The issuing party -/

/-- The context of a group. -/
def gidCid (gid : Nat) : Nat := if 2 ^ 200 ≤ gid then gid - 2 ^ 200 else lidCtx (tidLid (gidTid gid))

def Group.sub (g : Group) (mask : Nat) : Option SubGang := g.subs.find? fun x => x.mask == mask
def Group.modSub (g : Group) (mask : Nat) (f : SubGang → SubGang) : Group :=
  { g with subs := g.subs.map fun x => if x.mask == mask then f x else x }

/-- The program counter a sub-gang stands at: that of its lowest live slice, else of its lowest. -/
def Group.pcOf (g : Group) (mask : Nat) : W64 :=
  let live := mask &&& g.liveMask
  (g.slice (lowest (if live == 0 then mask else live))).pc

/-- The environment of a party; none when the state has no such party. -/
def envOf (s : State) (p : Party) : Option Env := do
  let g ← tget p.gid s.groups
  let sub ← g.sub p.mask
  let pc := g.pcOf p.mask
  if g.isCtl then
    let cid := p.gid - 2 ^ 200
    let ctx ← tget cid s.ctxs
    some { s := s, gid := p.gid, g := g, sub := sub, cid := cid, ctx := ctx, pc := pc }
  else
    let tid := gidTid p.gid
    let lid := tidLid tid
    let team ← tget tid s.teams
    let lch ← tget lid s.launches
    let ctx ← tget (lidCtx lid) s.ctxs
    some { s := s, gid := p.gid, g := g, sub := sub, tid := tid, team := team, lid := lid, lch := lch,
           cid := lidCtx lid, ctx := ctx, pc := pc }

/-- The state with another group, team, launch or context in the issuing party's place. -/
def State.putG (s : State) (gid : Nat) (g : Group) : State := { s with groups := tput gid g s.groups }
def State.putT (s : State) (tid : Nat) (t : Team) : State := { s with teams := tput tid t s.teams }
def State.putL (s : State) (lid : Nat) (l : Launch) : State := { s with launches := tput lid l s.launches }
def State.putC (s : State) (cid : Nat) (c : Ctx) : State := { s with ctxs := tput cid c s.ctxs }
def State.modG (s : State) (gid : Nat) (f : Group → Group) : State := { s with groups := tmod gid f s.groups }
def State.modT (s : State) (tid : Nat) (f : Team → Team) : State := { s with teams := tmod tid f s.teams }
def State.modL (s : State) (lid : Nat) (f : Launch → Launch) : State := { s with launches := tmod lid f s.launches }
def State.modC (s : State) (cid : Nat) (f : Ctx → Ctx) : State := { s with ctxs := tmod cid f s.ctxs }
def State.report (s : State) (r : Report) : State := { s with reports := s.reports ++ [r] }

/-- The physical core and the quadrant that hold a group (R14, R18); none while its context is not resident. -/
def State.quadrant (s : State) (gid : Nat) : Option (Nat × Nat) :=
  if 2 ^ 200 ≤ gid then none
  else match tget (tidLid (gidTid gid)) s.launches, tget (gidTid gid) s.teams, tget (lidCtx (tidLid (gidTid gid))) s.ctxs with
    | some l, some t, some c =>
      if c.state == .resident then some (c.phys (t.team % max l.lr.l 1), gidG gid % 4) else none
    | _, _, _ => none

/-! ### Results of a meaning -/

/-- A fault that a word raises: its code and what the trap record says of it (R354). -/
structure Flt where
  code : Nat
  lane : Nat := 255
  fslice : Option Nat := none
  addr : Nat := 0
  arg : Nat := 0
  /-- a fault that an earlier close assigned to the group (R216, R369) -/
  owed : Bool := false
  deriving DecidableEq, Repr

/-- How a word ends: done, at the next word; done with the program counters set by itself; parked; or faulted with no
effect. -/
inductive Res where
  | ok (s : State)
  | goto (s : State)
  | park (p : Park) (s : State)
  | fault (f : Flt)
  /-- a fault that leaves one effect behind (LOOP's decrement, R152) -/
  | faultIn (s : State) (f : Flt)

/-- A check that faults. -/
abbrev Chk (α : Type) := Except Flt α
def flt (code : Nat) : Flt := { code := code }
def ofChk (c : Chk Res) : Res := match c with | .ok r => r | .error f => .fault f
def guardC (b : Bool) (f : Flt) : Chk Unit := if b then .ok () else .error f

/-! ### Taking a fault (R353, R354, R360) -/

/-- The bytes of an operand in the trap summary (R354). -/
def Env.opBytes (e : Env) (slice : Nat) (x : Span) : List Byte :=
  let b : List Byte := match x.o with
    | .v n => (List.range 4).flatMap fun j =>
        if x.pair then leBytes 8 (e.rd64 (4 * slice + j) x.o) else leBytes 4 (e.g.vr n (4 * slice + j))
    | .s n => (List.range (min x.n 4)).flatMap fun j => leBytes 8 (e.g.sr (n.val + j) slice)
    | .k n => leBytes 4 (e.maskView n)
    | .sp r => leBytes 8 (if r == .leafX || r == .leafY || r == .leafZ then low 32 (e.special r (4 * slice)) else e.special r (4 * slice))
    | _ => []
  (b ++ List.replicate 32 0).take 32

/-- The source operands A, B, C of a word; none for a field that it does not read. -/
def srcOperands (i : Instr) : List (Option Span) :=
  [RFld.a, .b, .c].map fun x => i.spans.find? fun p => p.read && p.fld == x

/-- The trap record of a fault at a word. -/
def Env.record (e : Env) (i : Option Instr) (word : Nat) (f : Flt) : FaultRec :=
  let ex := sliceBits (e.exec (i.map Instr.guard |>.getD 0))
  let sl := match f.fslice with
    | some c => c
    | none => if f.lane < 32 then f.lane / 4 else lowest (if ex == 0 then e.sub.mask else ex)
  let ops := match i with
    | some i => (srcOperands i).map fun x => match x with | some x => e.opBytes sl x | none => []
    | none => []
  { code := f.code, slice := lowest e.sub.mask, lane := f.lane, fpc := e.pc, word := BitVec.ofNat 64 word,
    rpc := e.pc, addr := BitVec.ofNat 64 f.addr, arg := BitVec.ofNat 64 f.arg,
    opA := (ops[0]?).getD [], opB := (ops[1]?).getD [], opC := (ops[2]?).getD [] }

/-- A CHECKPOINT in flight whose quiet point can no longer come is answered INVALID (R392, entry 16). -/
def State.endCheckpoint (s : State) (cid : Nat) : State :=
  match tget cid s.ctxs with
  | some c => if c.checkpointReq then (s.putC cid { c with checkpointReq := false }).report (.answer cid 6 2 0 0) else s
  | none => s
/-- Whether two contexts share a physical core (R345). -/
def Ctx.shares (a b : Ctx) : Bool := a.coreMap.any b.coreMap.contains
/-- A context leaves its cores: the contexts that share one take their turns in ascending order after it (R345). -/
def State.passTurn (s : State) (cid : Nat) : State :=
  match tget cid s.ctxs with
  | some c => if c.state == .resident then
      { s with ctxs := s.ctxs.map fun x => if x.2.shares c then (x.1, { x.2 with after := cid }) else x } else s
  | none => s
/-- A context stops as FAULTED, whatever stops it: a LOGS entry and the event are sent (R400). -/
def State.faultCtx (s : State) (cid code : Nat) : State :=
  let s := (s.passTurn cid).modC cid fun c => { c with state := .faulted }
  ({ s with errors := s.errors ++ [LogRec.fault cid code] }.report (.event cid .faulted code)).endCheckpoint cid

/-- Taking a fault. A team's group stops at the word and halts its team (R353): the summary, images and fault ring entry
follow in TEAM_TRAP. In control code the control program stops and its context becomes FAULTED (R360). -/
def takeFault (s : State) (e : Env) (r : FaultRec) : State :=
  if e.g.isCtl then
    s.faultCtx e.cid r.code
  else
    let dbg := r.code == 0x13 && bitOf e.ctx.f.debugCtl.toNat 0
    (s.modG e.gid fun g => { g with halted := true, faultRec := some r }).modT e.tid
      fun t => { t with trapped := true, debugStop := t.debugStop || dbg }

/-- A fault raised by a group outside its own issue, such as one taken at a marker or at an interval close. -/
def faultGroup (s : State) (gid : Nat) (mask : Nat) (r : FaultRec) : State :=
  match envOf s { gid := gid, mask := mask } with
  | some e => takeFault s e r
  | none => s

/-! ### The control interrupt (R359) and its return (R360) -/

/-- The counters with OVF (R385): one that has passed 2^48 − 1 has it at once; COUNTER_OVERFLOW only brings its count below 2^48. -/
def State.overflowed (s : State) : List Nat :=
  nunion s.counterOvf ((s.counters.filter fun x => 2 ^ 48 ≤ x.2.toNat).map (·.1))

/-- ECAUSE of a context (R359, R385). -/
def ecause (s : State) (cid : Nat) (c : Ctx) : Nat :=
  (if c.frhead != c.frtail then 1 else 0) + (if c.debugReq then 2 else 0) +
  (if s.overflowed.any (fun k => k / 2 ^ 32 == cid && bitOf (sget (0 : W64) s.counterCfg k).toNat 13) then 4 else 0)

/-- Taking the interrupt: EPC saves the program counter, IN is set, the control core goes to TVEC. A parked word is
left where it stands. -/
def takeInterrupt (s : State) (cid : Nat) : State :=
  match tget cid s.ctxs, tget (ctlGid cid) s.groups with
  | some c, some g =>
    let g' := (g.modSlice 0 fun x => { x with pc := c.tvec }).modSub 1 fun x => { x with park := .none }
    (s.putC cid { c with epc := g.pcOf 1, inHandler := true }).putG (ctlGid cid) g'
  | _, _ => s

/-- IRET (R360): PC := EPC and IN := 0. -/
def returnInterrupt (s : State) (cid : Nat) : State :=
  match tget cid s.ctxs with
  | some c => (s.putC cid { c with inHandler := false }).modG (ctlGid cid)
      fun g => g.modSlice 0 fun x => { x with pc := c.epc }
  | none => s

/-! ### Undo logs (R362) -/

def undoCap : Nat := 4096
/-- An entry: word address, KIND, slice, location, the 16 bytes of the old value. -/
abbrev Undo := W64 × Nat × Nat × Nat × List Byte
def Group.undoS (g : Group) (pc : W64) (r c : Nat) : Undo := (pc, 0, c, r, leBytes 16 (g.sr r c))
def Group.undoV (g : Group) (pc : W64) (r c : Nat) : Undo := (pc, 1, c, r, (List.range 4).flatMap fun j => leBytes 4 (g.vr r (4 * c + j)))
/-- The mask bits of the slice's lanes, at their places in the mask (entry 19). -/
def Group.undoK (g : Group) (pc : W64) (r c : Nat) : Undo := (pc, 2, c, r, leBytes 16 (g.kr r &&& laneMask (2 ^ c)))
/-- Entries appended; the oldest go first. -/
def Group.addUndo (g : Group) (l : List Undo) : Group :=
  let u := g.undo ++ l
  { g with undo := u.drop (u.length - undoCap) }
/-- Whether a group keeps an undo log. -/
def State.undoOn (s : State) (gid : Nat) : Bool :=
  gid < 2 ^ 200 && match tget (lidCtx (tidLid (gidTid gid))) s.ctxs with | some c => bitOf c.f.debugCtl.toNat 1 | none => false

/-- The registers that a word itself writes; a V-class word's are written at its marker. -/
def Instr.writes : Instr → List (Opd × Nat)
  | .pairWord f => [f.s0, f.s1].filterMap fun p => if p.op == .nop then none else some (.v ⟨p.d.val, by omega⟩, 1)
  | .loop f => [(.s f.st, 1)]
  | i => if i.isV then [] else (i.spans.filter fun x => x.fld == .d && !x.read).map fun x => (x.o, x.n)
/-- The lanes a word executes in: those of its guard, or of either slot of a pair word. -/
def Env.lanesFor (e : Env) (i : Instr) : Nat :=
  match i with
  | .pairWord f => e.exec f.s0.k ||| e.exec f.s1.k
  | _ => e.exec i.guard
/-- The slices in which a word writes a register: those of the lanes that WRLN names (R105), all of the sub-gang's for a mask (R95, R112,
R115), else those that execute. -/
def Env.writeSlices (e : Env) (i : Instr) (d : Opd) : List Nat :=
  if d.isKd then slicesOf e.sub.mask
  else match i with
    | .wrln f => ((e.execSlices f.k).map fun c => low 5 (e.rd64 (4 * c) f.b) / 4).dedup
    | _ => slicesOf (sliceBits (e.lanesFor i))
/-- An entry for each slice in which a word writes a register, whether or not its value changes. -/
def Env.undoRegs (e : Env) (i : Instr) : List Undo :=
  (Instr.writes i).flatMap fun d => (e.writeSlices i d.1).flatMap fun c => match d.1 with
    | .v r => (List.range d.2).map fun j => e.g.undoV e.pc (r + j) c
    | .s r => (List.range d.2).map fun j => e.g.undoS e.pc (r + j) c
    | .k r => [e.g.undoK e.pc r c]
    | _ => []

def Width.bytes : Width → Nat
  | .w8 => 1 | .w16 => 2 | .w32 => 4 | .w64 => 8 | .w128 => 16
/-- The address of a lane or slice (R37, R196). -/
def Env.addr (e : Env) (f : MWord) (p : Nat) : Nat :=
  let scale := match f.scale.val with | 0 => 1 | 1 => 4 | 2 => 8 | _ => 16
  let idx := match f.b with | .v n => e.g.vr n p * scale | _ => 0
  low 64 (e.rd64 (4 * (p / 4)) f.a + idx + sext 19 64 f.off.toNat)

/-- The 16-byte pieces that a range meets. -/
def quadsOf (a n : Nat) : List Nat := (List.range ((a + n + 15) / 16 - a / 16)).map fun j => 16 * (a / 16 + j)
/-- The pieces of team data that a word of the scratchpad path writes, each with the slice of a lane that writes it: those of the own window.
What an ordered operation does is no write of the group's own (R362). -/
def Env.undoPlaces (e : Env) (f : MWord) : List (Nat × Nat) :=
  ((e.places f.k f.d).flatMap fun p =>
    let a := e.addr f p
    if a / 2 ^ 19 == e.spb / 2 ^ 19 then (quadsOf (a % 2 ^ 19) (Width.bytes f.width)).map fun q => (p / 4, q) else []).dedup
/-- The pieces that operations added to a level act on. -/
def GOp.quads : GOp → List Nat
  | .store a _ => quadsOf a 4
  | .atom a n _ _ | .red a n _ _ => quadsOf a n
  | .drain a ty _ _ _ => quadsOf a (ty.bits / 8)
  | _ => []
/-- Bytes of the own window as they stood at the word's issue: the view's, or ring bytes in place. -/
def Env.undoQuad (e : Env) (q : Nat) : List Byte :=
  mread (if q < e.lch.layout.rings then e.sub.lvl.view.data else e.team.data.data) q 16
/-- The pieces that a word wrote, with their slices. A word of the matrix units writes for its sub-gang: its pieces go with the lowest slice;
those in ring slots are the ones that changed. -/
def Env.undoLines (e : Env) (i : Instr) (g : Group) (t : Team) : List (Nat × Nat) :=
  match i with
  | .st f | .red f => e.undoPlaces f
  | .atom f | .cas f => if f.sx then [] else e.undoPlaces f
  | .mdrs _ | .mseq _ | .mgrp _ =>
    let ops := match g.sub e.sub.mask with | some x => x.lvl.ops.drop e.sub.lvl.ops.length | none => []
    let ring := if t.data.data == e.team.data.data then []
      else (quadsOf e.lch.layout.rings e.lch.ringBytes).filter fun q => mread t.data.data q 16 != e.undoQuad q
    (nunion (ops.flatMap GOp.quads) ring).dedup.map fun q => (lowest e.sub.mask, q)
  | _ => []

/-- The entries of a word (R362): one for each slice and destination. -/
def State.logUndo (s : State) (e : Env) (i : Instr) : State :=
  if s.undoOn e.gid then
    let t := (tget e.tid s.teams).getD e.team
    s.modG e.gid fun g => g.addUndo (e.undoRegs i ++ (e.undoLines i g t).map fun x => (e.pc, 3, x.1, x.2, e.undoQuad x.2))
  else s

/-! ### Markers (R44 to R49) -/

def Pend.sliceOfV (key : Nat) : Nat := key % 32 / 4
def Pend.sliceOfS (key : Nat) : Nat := key % 8

/-- The part of a pending result that belongs to some slices. -/
def Pend.only (p : Pend) (mask : Nat) : Pend :=
  { p with slices := p.slices &&& mask, fails := p.fails.filter fun w => bitOf mask (w.1 / 4),
           vw := p.vw.filter fun w => bitOf mask (Pend.sliceOfV w.1),
           sw := p.sw.filter fun w => bitOf mask (Pend.sliceOfS w.1),
           flags := p.flags.filter fun w => bitOf mask (w.1 / 4) }

/-- Whether a pending result still has something to write in some slices: a register word or a fault (R44, R47). -/
def Pend.holds (p : Pend) (mask : Nat) : Bool :=
  let q := p.only mask
  q.vw != [] || q.sw != [] || q.fails != []

/-- One pending result written: registers without cancellation, flags into the slice copies (R44, R48). -/
def Group.applyPend (g : Group) (p : Pend) : Group :=
  let g := p.vw.foldl (fun g w => g.rawV w.1 w.2) g
  let g := p.sw.foldl (fun g w => g.rawS w.1 w.2) g
  p.flags.foldl (fun g w => g.raise (w.1 / 4) w.2.toNat) g

/-- Whether every pending result of some slices has returned. -/
def Group.allReturned (g : Group) (mask : Nat) : Bool := g.pend.all fun p => p.slices &&& mask == 0 || p.returned

/-- The pending results of some slices, written in issue order and removed; a failed one writes nothing (R44, R355). -/
def Group.writePend (g : Group) (mask : Nat) : Group :=
  let g' := g.pend.foldl (fun g p => if p.slices &&& mask == 0 then g else g.applyPend (p.only mask)) g
  { g' with pend := (g.pend.map fun p => p.only (255 - mask &&& 255)).filter fun p => p.slices != 0 || !p.returned,
            wrote := g.wrote + g.pend.countP fun p => (p.only mask).vw != [] || (p.only mask).sw != [] }

/-- The entries of a pending result: one for each slice and register that it writes. -/
def Pend.undo (p : Pend) (g : Group) : List Undo :=
  ((p.vw.map fun w => w.1 / 32 * 8 + w.1 % 32 / 4).dedup.map fun k => g.undoV p.pc (k / 8) (k % 8)) ++
  p.sw.map fun w => g.undoS p.pc (w.1 / 8) (w.1 % 8)
/-- The same, with the undo log's entries of each result (R362). -/
def Group.writePendLogged (g : Group) (mask : Nat) (log : Bool) : Group :=
  if log then
    (g.writePend mask).addUndo (g.pend.foldl (fun (a : Group × List Undo) p =>
      if p.slices &&& mask == 0 then a else (a.1.applyPend (p.only mask), a.2 ++ (p.only mask).undo a.1)) (g, [])).2
  else g.writePend mask

/-- The first failed result of some slices, with its lane (R48). -/
def Group.failedLane (g : Group) (mask : Nat) : Option (Nat × FaultRec) :=
  g.pend.findSome? fun p => p.fails.find? fun w => bitOf mask (w.1 / 4)
def Group.failedPend (g : Group) (mask : Nat) : Option FaultRec := (g.failedLane mask).map (·.2)

/-- What a sub-gang at a marker does when its results have returned: write them, or take the fault of a failed one with
RPC at the marker word (R48). -/
def State.settle (s : State) (gid mask : Nat) : State :=
  match tget gid s.groups with
  | none => s
  | some g =>
    match g.sub mask with
    | none => s
    | some x =>
      if !g.allReturned mask then s.putG gid (g.modSub mask fun x => { x with park := .marker })
      else match g.failedPend mask with
        | some r => faultGroup (s.putG gid (g.modSub mask fun x => { x with park := .marker })) gid mask
            { r with rpc := x.lastPc, slice := lowest mask, marker := true }
        | none => s.putG gid ((g.writePendLogged mask (s.undoOn gid)).modSub mask fun x => { x with park := .none })

/-- The marker of a word that the slices `mask` issued: every sub-gang that now holds some of them and is not parked for
another reason (R44, R49). -/
def State.marker (s : State) (gid mask : Nat) : State :=
  match tget gid s.groups with
  | none => s
  | some g => (g.subs.filter fun x => x.mask &&& mask != 0 && x.park == .none).foldl
      (fun s x => s.settle gid x.mask) s

/-- A parked word is done: the slices move on, and its marker acts (R44, R219). -/
def State.release (s : State) (gid mask : Nat) : State :=
  match tget gid s.groups with
  | none => s
  | some g => match g.sub mask with
    | none => s
    | some x =>
      let s := s.putG gid ((g.modSlices (slicesOf mask) fun y => { y with pc := y.pc + 8 }).modSub mask
        fun y => { y with park := .none })
      if x.mark then s.marker gid mask else s

/-- A V-class word's pending result (R44), with flags by lane. -/
def Group.addPend (g : Group) (p : Pend) : Group :=
  { g with pend := g.pend ++ [{ p with idx := g.nextPend }], nextPend := g.nextPend + 1 }

/-- The failed results of a word, by lane: each with its own code and address (R48). -/
def Env.fails (e : Env) (i : Instr) (l : List (Nat × Flt)) : List (Nat × FaultRec) :=
  l.map fun x => (x.1, e.record (some i) ((encode i).getD 0) x.2)

/-- A pending result with nothing in it yet, for a word of this environment. -/
def Env.newPend (e : Env) (d : Opd) (nreg : Nat) (slices : Nat) : Pend :=
  { idx := 0, pc := e.pc, slices := slices, dst := d.code, nreg := nreg }

/-! ### The frame of a word -/

/-- The slices move to the next word (R32). -/
def Group.advance (g : Group) (mask : Nat) : Group := g.modSlices (slicesOf mask) fun x => { x with pc := x.pc + 8 }

/-- Parks at which a word has written its registers and team data already: an MSEQ.g with slots still to reserve (R181). -/
def Park.written : Park → Bool | .mseq _ => true | _ => false
/-- The undo log of a word: made when it has written, a park that follows and the fault of a LOOP included (R146, R362). -/
def Env.logWord (e : Env) (i : Instr) (s : State) : State := if e.sub.park.written then s else s.logUndo e i

/-- After a word: the program counters, the word last issued, the undo log, and the marker (R44). -/
def finish (i : Instr) (e : Env) (word : Nat) (r : Res) : State :=
  let mark := fun (s : State) => if i.marker then s.marker e.gid e.sub.mask else s
  match r with
  | .fault f =>
    let s := if f.owed then e.s.modG e.gid fun g => { g with owed := none } else e.s
    takeFault s e (e.record (some i) word f)
  | .faultIn s f => takeFault (e.logWord i s) e (e.record (some i) word f)
  | .park p s => (if p.written then e.logWord i s else s).modG e.gid fun g => g.modSub e.sub.mask fun x => { x with park := p, lastPc := e.pc, mark := i.marker }
  | .ok s =>
    mark (e.logWord i (s.modG e.gid fun g => (g.advance e.sub.mask).modSub e.sub.mask
      fun x => { x with park := .none, lastPc := e.pc }))
  | .goto s =>
    mark (e.logWord i (s.modG e.gid fun g => { g with subs := g.subs.map fun x =>
      if x.mask &&& e.sub.mask != 0 then { x with lastPc := e.pc } else x }))

/-- The words of the sub-gang that hold pending results (R47). A word whose results were all cancelled holds none, and neither
does one that wrote none (entry 13). -/
def Env.pending (e : Env) : List Pend := e.g.pend.filter fun p => p.holds e.sub.mask
/-- A word that would be the 33rd with pending results (R47). -/
def Env.pendFull (e : Env) (i : Instr) : Bool := i.pends && (e.g.isCtl || e.lanesFor i != 0) && 32 ≤ e.pending.length

/-- The checks every word meets at issue beyond its encoding: control code (R57), privilege (R56), the role budget (R16),
the 33rd pending word (R47), damaged source registers (R100). Damage comes before what a word's own entry checks, so before the halves of a
BPACK or BUNPK (0x03, R143) too (entry 46). -/
def preIssue (i : Instr) (e : Env) : Option Res :=
  if e.g.isCtl && !i.controlOk then some (.fault (flt 0x01))
  else if !e.g.isCtl && i.privileged then some (.fault (flt 0x18))
  else if !e.g.isCtl && i.overBudget e.g.budget then some (.fault (flt 0x01))
  else if e.pendFull i then some (.park .marker e.s)
  else match e.damaged i i.guard with
    | some (c, l) => some (.fault { code := 0x15, lane := l, fslice := some c })
    | none => none

/-- The implicit marker of R47: the marker is the word before. -/
def implicitMarker (e : Env) (s : State) : State :=
  s.settle e.gid e.sub.mask

/-- A word issues: the party that holds the issue slot runs `body`. -/
def issueWord (i : Instr) (body : Env → Res) (s : State) : Host.Outcome State Fault Refusal :=
  match s.cur with
  | none => .fault .noIssuer
  | some p =>
    let s := { s with cur := none }
    match envOf s p with
    | none => .fault .noIssuer
    | some e =>
      match preIssue i e with
      | some (.park .marker _) => .next (implicitMarker e s)
      | some r => .next (finish i e ((encode i).getD 0) r)
      | none => .next (finish i e ((encode i).getD 0) (body e))

/-- A word that changes only registers of its group. -/
def regWord (i : Instr) (body : Env → Chk Group) (s : State) : Host.Outcome State Fault Refusal :=
  issueWord i (fun e => match body e with
    | .ok g => .ok (e.s.putG e.gid g)
    | .error f => .fault f) s

/-- A V-class word of registers: results by place, pending until the marker (R43, R44). -/
def vWord (i : Instr) (d : Opd) (k : Nat) (wide : Bool) (f : Env → Nat → Nat × Nat) (s : State) :
    Host.Outcome State Fault Refusal :=
  regWord i (fun e =>
    let ps := e.places k d
    let rs := ps.map fun p => (p, f e p)
    let vw := match d with
      | .v n => rs.flatMap fun r =>
          (32 * n.val + r.1, BitVec.ofNat 32 r.2.1) ::
            (if wide then [(32 * (n.val + 1) + r.1, BitVec.ofNat 32 (r.2.1 / 2 ^ 32))] else [])
      | _ => []
    let sw := match d with
      | .s n => rs.map fun r => (8 * n.val + r.1 / 4, BitVec.ofNat 64 (if wide then r.2.1 else low 32 r.2.1))
      | _ => []
    let fl := (rs.filter fun r => r.2.2 != 0).map fun r => (r.1, BitVec.ofNat 32 r.2.2)
    if rs == [] then .ok e.g
    else .ok (e.g.addPend { e.newPend d (pairN d wide) (sliceBits (e.exec k)) with vw := vw, sw := sw, flags := fl })) s

/-- Whether scalar operands agree across the executing slices (R238, R273); the value of each. -/
def Env.agreed (e : Env) (k : Nat) (os : List Opd) : Chk (List Nat) :=
  match e.execSlices k with
  | [] => .ok (os.map fun _ => 0)
  | c :: cs =>
    let v := os.map fun o => e.rd64 (4 * c) o
    if cs.all fun c' => (os.map fun o => e.rd64 (4 * c') o) == v then .ok v else .error (flt 0x03)

/-- A word that executes once for the group and has no effect without an executing lane. -/
def onceWord (i : Instr) (body : Env → Chk Res) (s : State) : Host.Outcome State Fault Refusal :=
  issueWord i (fun e => if e.exec i.guard == 0 && !e.g.isCtl then .ok e.s else ofChk (body e)) s

/-- A free value: the next of the opaque sequence (entry 7). -/
def State.draw (s : State) : W64 × State := (Config.freeValue s.freeCtr, { s with freeCtr := s.freeCtr + 1 })

end Sys2Proof.Machine
end

