-- ==== Sys2Proof/Machine/Ladder.lean ====
section
/-! DEFINITION. Address translation (R186 to R193, R342), the group's view of team data (R198), shadow lines (R214), the
operations that the merge replays (R200, R206, R208), CMIT.T, the T-close and the commits (R215, R216, R219), the
memory layers of R223, the D quota (R224) and the join of engine operations (R229). -/

namespace Sys2Proof.Machine

/-! ### Writes and images -/

def cells (a : Nat) (bs : List Byte) : List Host.Cell := bs.zipIdx.map fun x => (a + x.2, x.1)
/-- Writes `b` after writes `a`. -/
def MemW.andThen (a b : MemW) : MemW := { b := toverlay a.b b.b, p := toverlay a.p b.p }
def Image.mark (m : Image) (u : Nat) (b : Bool) : Image :=
  { m with poison := if b then nins u m.poison else m.poison.filter (· != u) }
def Image.apply (m : Image) (w : MemW) : Image :=
  w.p.foldl (fun m x => m.mark x.1 x.2) { m with data := mapply m.data w.b }
/-- The 64-byte units that `n` bytes from `a` meet. -/
def unitsOf (a n : Nat) : List Nat :=
  if n == 0 then [] else (List.range ((a + n - 1) / 64 + 1 - a / 64)).map (· + a / 64)
def Image.bad (m : Image) (a n : Nat) : Bool := (unitsOf a n).any m.poison.contains
/-- The units all of whose 64 bytes are among some written addresses (R203). -/
def wholeUnits (addrs : List Nat) : List Nat :=
  let ks := addrs.foldl (fun l a => nins a l) []
  (ks.foldl (fun l a => nins (a / 64) l) []).filter fun u => (ks.filter fun a => a / 64 == u).length == 64
/-- Writes with the poison cleared in the units they cover. -/
def MemW.ofCells (l : List Host.Cell) : MemW :=
  { b := toverlay [] l, p := (wholeUnits (l.map (·.1))).map fun u => (u, false) }

/-! ### Page tables (R187, R342) -/

structure Pte where
  ty : Nat
  r : Bool
  w : Bool
  x : Bool
  target : Nat
  deriving DecidableEq, Repr

/-- Physical key of a target address; type 6 is a context's own. Host memory has keys of its own (`hostKey`). -/
def physKey (cid ty target : Nat) : Nat := ty * 2 ^ 56 + target + (if ty == 6 then cid * 2 ^ 60 else 0)
def keyType (k : Nat) : Nat := k / 2 ^ 56 % 16
/-- The home die of a key of either tier, and its line among those that the memory-side caches hold (R13, R189). -/
def homeDie (k : Nat) : Nat := if keyType k == 2 then k % 2 ^ 56 / (3 * 2 ^ 39) else fld k 38 2
def homeLine (k : Nat) : Nat := homeDie k * 2 ^ 64 + k / 128
/-- Host memory as a connection reaches it (R388): a byte is named by the QPN, the remote key and the remote address. -/
def hostKey (qpn rkey addr : Nat) : Nat :=
  5 * 2 ^ 56 + addr % 2 ^ 56 + 2 ^ 64 * (addr / 2 ^ 56 % 2 ^ 8) + 2 ^ 72 * qpn + 2 ^ 104 * rkey
/-- The key of a type-5 target: connection index in bits 55:52, offset from the remote base below. -/
def Ctx.hostKey (c : Ctx) (target : Nat) : Nat :=
  let i := 32 * (target / 2 ^ 52 % 16)
  Machine.hostKey (mnat c.conns i 4) (mnat c.conns (i + 4) 4) (low 64 (mnat c.conns (i + 8) 8 + target % 2 ^ 52))
/-- Bytes of host memory from a target upward. -/
def Ctx.hostCells (c : Ctx) (target : Nat) (bs : List Byte) : List Host.Cell := bs.zipIdx.map fun x => (c.hostKey (target + x.2), x.1)
/-- The key of a target address of a context. -/
def State.keyAt (s : State) (cid ty target : Nat) : Nat :=
  if ty == 5 then (match tget cid s.ctxs with | some c => c.hostKey target | none => physKey cid ty target) else physKey cid ty target

/-- A PTE at a level of the walk (R187); the page offset is taken from the address. -/
def readPte (level e va : Nat) : Except Nat Pte :=
  let pbits := 16 + (if level == 0 then 0 else if level == 1 then 5 else 14)
  let ty := fld e 3 3
  if fld e 1 2 != level || 2 < level then .error 6
  else if fld e 56 8 != 0 || fld e 9 7 != 0 then .error 6
  else if fld e 16 40 * 2 ^ 16 % 2 ^ pbits != 0 then .error 6
  else if ty == 0 || ty == 3 || ty == 4 then .error 7
  else if 2 ^ 40 ≤ fld e 16 40 * 2 ^ 16 && ty == 1 || 6 * 2 ^ 40 ≤ fld e 16 40 * 2 ^ 16 && ty == 2 then .error 6
  else .ok { ty := ty, r := bitOf e 6, w := bitOf e 7, x := bitOf e 8,
             target := fld e 16 40 * 2 ^ 16 + va % 2 ^ pbits }

/-- The walk of R342 from a table at a level down. -/
def walk (mem : Memory) (va : Nat) : Nat → Nat → Except Nat Pte
  | level, table =>
    let idx := match level with
      | 4 => fld va 48 7 | 3 => fld va 39 9 | 2 => fld va 30 9 | 1 => fld va 21 9 | _ => fld va 16 5
    let e := mnat mem (physKey 0 1 (table + 8 * idx)) 8
    if !bitOf e 0 then .error 6
    else match level with
      | 0 => if fld e 1 2 == 3 then .error 6 else readPte 0 e va
      | l + 1 =>
        if fld e 1 2 == 3 then
          let next := fld e 8 32 * 2 ^ 8
          if fld e 3 5 != 0 || fld e 40 24 != 0 || next % (if l == 0 then 256 else 4096) != 0 then .error 6
          else walk mem va l next
        else readPte (l + 1) e va

/-- Bits of the page offset of a PTE at a level of the walk, or of a SIZE (R187, R342). -/
def pageBits (size : Nat) : Nat := if size == 0 then 16 else if size == 1 then 21 else 30
/-- The SIZE of the page in which the walk ends; none where it ends unmapped or in a fault, which leaves nothing cached (R343). -/
def walkSize (mem : Memory) (va : Nat) : Nat → Nat → Option Nat
  | level, table =>
    let idx := match level with
      | 4 => fld va 48 7 | 3 => fld va 39 9 | 2 => fld va 30 9 | 1 => fld va 21 9 | _ => fld va 16 5
    let e := mnat mem (physKey 0 1 (table + 8 * idx)) 8
    match walk mem va level table with
    | .error _ => none
    | .ok _ => match level with
      | 0 => some 0
      | l + 1 => if fld e 1 2 == 3 then walkSize mem va l (fld e 8 32 * 2 ^ 8) else some (l + 1)

/-- Memory at level H: what stands outside the grids, with the writes of completed launches in ascending launch sequence
(R226). -/
def hImage (s : State) : Image :=
  s.launches.foldl (fun m l => match l.2.state with | .done _ => m.apply l.2.total | _ => m)
    { data := s.mem, poison := s.memPoison }

/-- Translation in the memory half for a context (R186). -/
def translate (s : State) (cid va : Nat) : Except Nat Pte :=
  match tget cid s.ctxs with
  | none => .error 6
  | some c => if 2 ^ 55 ≤ va then .error 6 else walk (hImage s).data va 4 c.f.ptroot

/-! ### The team window (R190, R191, R193) -/

inductive Area where
  | data | ring | pool | guarded | sys
  deriving DecidableEq, Repr

/-- The area of an offset below the allotment (R191). -/
def Launch.areaOf (l : Launch) (off : Nat) : Area :=
  let y := l.layout
  if off < y.rings then .data else if off < y.pool then .ring else if off < y.spills then .pool
  else if off < y.sys then .guarded else .sys

/-- The queue and the slot of a ring byte, by its offset from the first ring. -/
def ringSlot (off : Nat) : List (Nat × Nat × Nat) → Option (Nat × Nat)
  | [] => none
  | (q, n, b) :: t => if off < n * b then some (q, off / b) else ringSlot (off - n * b) t

/-- Offset of queue q's ring in the window (R191). -/
def Launch.ringOff (l : Launch) (q : Nat) : Nat :=
  l.qdecl.foldl (fun n x => if x.1 < q then n + x.2.1 * x.2.2 else n) l.layout.rings

def Team.desc (t : Team) (q k : Nat) : Desc :=
  match tget q t.queues with | some x => (x.descs[k]?).getD {} | none => {}

/-- Whether group `g` holds a ring byte (R270). -/
def Team.holds (t : Team) (l : Launch) (g off : Nat) : Bool :=
  match ringSlot (off - l.layout.rings) l.qdecl with
  | none => false
  | some (q, k) => let d := t.desc q k; d.status == 6 && d.popper == g

/-- A queue control record (R266). -/
def Queue.bytes (q : Queue) : List Byte :=
  let np := (List.range 64).foldl (fun n i => if bitOf q.popMask.toNat i then n + 1 else n) 0
  leBytes 2 q.slots ++ leBytes 2 np ++ leBytes 4 q.slotBytes ++ leBytes 8 q.ring.toNat ++ leBytes 4 q.fillSeq.toNat ++
  leBytes 4 q.headSeq.toNat ++ leBytes 2 q.allow ++ leBytes 1 q.filler ++
  leBytes 1 ((if q.inited then 1 else 0) + (if q.fdone then 2 else 0)) ++ leBytes 2 q.desc0 ++ leBytes 2 0 ++
  leBytes 8 q.popMask.toNat ++ leBytes 24 0
/-- A slot descriptor (R266). -/
def Desc.bytes (d : Desc) : List Byte :=
  leBytes 8 d.handle.toNat ++ leBytes 5 (min d.count (2 ^ 40 - 1)) ++ leBytes 1 d.status ++ leBytes 1 d.popper ++
  leBytes 1 0 ++ leBytes 4 d.seq.toNat ++ leBytes 4 0
/-- A byte of the system area (R265). -/
def Team.sysByte (t : Team) (off : Nat) : Byte :=
  if off < 1024 then
    match tget (off / 64) t.queues with | some q => (q.bytes[off % 64]?).getD 0 | none => 0
  else if off < 13312 then
    let i := (off - 1024) / 24
    match t.queues.find? fun q => q.2.inited && q.2.desc0 ≤ i && i < q.2.desc0 + q.2.slots with
    | some q => match q.2.descs[i - q.2.desc0]? with | some d => (d.bytes[(off - 1024) % 24]?).getD 0 | none => 0
    | none => 0
  else (t.summary[off - 13312]?).getD 0

/-- Where an access reaches. -/
inductive Loc where
  | own (off : Nat)
  | peer (img : Image) (off : Nat)
  | mem (key : Nat)
  | block (b off : Nat)
  deriving DecidableEq, Repr

/-- A byte of a team window: the own one, or a peer's as R193 maps it; the code of the fault otherwise. -/
def Env.window (e : Env) (va : Nat) : Except Nat (Bool × Nat × Nat) :=
  let u := (va - 2 ^ 55) / 2 ^ 19
  let off := va % 2 ^ 19
  let r := e.lch.lr
  if r.nteam ≤ u || e.lch.layout.size ≤ off then .error 6
  else if u == e.team.team then .ok (true, u, off)
  else if r.coop || u / r.clusterN == e.team.team / r.clusterN then .ok (false, u, off)
  else .error 6

/-- The snapshot of a peer's data that this team reads (R193). -/
def Env.peerImage (e : Env) (u : Nat) : Image :=
  match tget (tidOf e.lid u) e.s.teams with
  | none => {}
  | some t => if u / e.lch.lr.clusterN == e.team.team / e.lch.lr.clusterN then t.cSnap else t.dSnap

/-- An on-chip address, for a reader or a writer, in words and in copies (R191). -/
def Env.chip (e : Env) (write : Bool) (va : Nat) : Except Nat Loc :=
  match e.window va with
  | .error c => .error c
  | .ok (true, _, off) =>
    match e.lch.areaOf off with
    | .data | .ring => .ok (.own off)
    | .sys => if write then .error 7 else .ok (.own off)
    | .pool =>
      -- only the group that pinned a frame reads it (R305)
      if write then .error 7
      else if tget ((off - e.lch.layout.pool) / 4224) e.team.pins == some (gidG e.gid) then .ok (.own off) else .error 0x0F
    | .guarded => .error 7
  | .ok (false, u, off) =>
    match e.lch.areaOf off with
    | .data | .ring => if write then .error 7 else .ok (.peer (e.peerImage u) off)
    | _ => .error 7

/-- A type-6 target address of control code (R391): block and offset. -/
def blockOf (target : Nat) : Except Nat (Nat × Nat) :=
  let b := target / 2 ^ 16
  let off := target % 2 ^ 16
  if b < 16 || b == 16 && off < 4096 || b == 17 && off < 512 || b == 18 && off < 16 then .ok (b, off) else .error 6

/-- Where an LD, ST, ATOM, RED or CAS reaches, or its fault (R188, R191, R197, R283). -/
def Env.locate (e : Env) (write cas : Bool) (va : Nat) : Except Nat Loc :=
  if 2 ^ 56 ≤ va then .error 6
  else if 2 ^ 55 ≤ va then (if e.g.isCtl then .error 7 else e.chip write va)
  else match translate e.s e.cid va with
    | .error c => .error c
    | .ok p =>
      if p.ty != 6 then .error 5
      else if !e.g.isCtl then .error 7
      else match blockOf p.target with
        | .error c => .error c
        | .ok (b, off) =>
          if (if write then !p.w || b == 18 || cas && (16 ≤ b || !p.r) else !p.r) then .error 7
          else .ok (if b < 16 then .mem (physKey e.cid 6 p.target) else .block b off)

/-- Instruction fetch at an address (R33): the word, or the fault's code. A launch fetches its code as it stood when it became
eligible; control code as it stands at H. -/
def Env.fetchAt (e : Env) (pc : Nat) : Except Nat Nat :=
  if 2 ^ 56 ≤ pc then .error 0x06
  else if 2 ^ 55 ≤ pc then
    (if e.g.isCtl then .error 0x07 else match e.window pc with | .ok _ => .error 0x07 | .error c => .error c)
  else match translate e.s e.cid pc with
    | .error c => .error c
    | .ok p =>
      if !(p.ty == 1 || p.ty == 2) || !p.x then .error 0x07
      else
        let img := if e.g.isCtl then hImage e.s else e.lch.code
        let k := physKey e.cid p.ty p.target
        if img.poison.contains (k / 64) then .error 0x15 else .ok (mnat img.data k 8)
/-- The word at an address, 0 where none can be read: the WORD field of the trap summary (R33, R354). -/
def Env.wordAt (e : Env) (pc : Nat) : Nat := match e.fetchAt pc with | .ok w => w | .error _ => 0

/-! ### The view (R198) and the operations the merge replays (R200) -/

def aligned4 (a n : Nat) : List Nat := (List.range ((a + n + 3) / 4 - a / 4)).map fun i => 4 * (a / 4 + i)

/-- ATOM's new value (R206). -/
def atomNew (n op old v : Nat) : Nat :=
  match op with
  | 0 => low (8 * n) (old + v)
  | 1 => old ||| v
  | 2 => min old v
  | _ => v

/-- The type, operation and shape of a RED code (R208). -/
def redKind (n code : Nat) : FoldOp × Ty :=
  match code with
  | 1 | 5 => (.add, if n == 4 then .f32 else .f64)
  | 2 => (.or, if n == 4 then .b32 else .n64)
  | 3 => (.and, if n == 4 then .b32 else .n64)
  | 4 => (.min, if n == 4 then .i32 else .i64)
  | 6 => (.max, if n == 4 then .i32 else .i64)
  | 7 => (.xor, if n == 4 then .b32 else .n64)
  | _ => (.add, if n == 4 then .i32 else .i64)

/-- One RED contribution folded into a word (R87). -/
def redNew (n code acc : Nat) (vs : List (Option W64)) : Nat × Nat :=
  let (op, ty) := redKind n code
  if code == 5 then
    match treeFold op ty false 5 (vs.map fun v => v.map fun x => x.toNat) with
    | (some t, fl) => let r := applyOp op ty false acc t; (r.1, fl ||| r.2)
    | (none, _) => (acc, 0)
  else foldOp op ty false acc (vs.filterMap fun v => v.map fun x => x.toNat)

/-- An operation on an image, with the flags of Apply(). -/
def GOp.run (m : Image) : GOp → Image × Nat
  | .store a v => ({ m with data := mputNat m.data a 4 v.toNat }, 0)
  | .atom a n op v => ({ m with data := mputNat m.data a n (atomNew n op (mnat m.data a n) v.toNat) }, 0)
  | .red a n code vs => let r := redNew n code (mnat m.data a n) vs; ({ m with data := mputNat m.data a n r.1 }, r.2)
  | .drain a ty sat v _ =>
    let n := ty.bits / 8
    let r := applyOp .add ty sat (mnat m.data a n) v.toNat
    ({ m with data := mputNat m.data a n r.1 }, r.2)
  | .poison u b => (m.mark u b, 0)
  | .seen _ a v => ({ m with data := mputNat m.data a 4 v.toNat }, 0)
  | .seenBad _ u b => (m.mark u b, 0)

def GOp.isSeen : GOp → Bool | .seen .. | .seenBad .. => true | _ => false
/-- The words an operation acts on. -/
def GOp.words : GOp → List Nat
  | .store a _ => [a]
  | .atom a n _ _ | .red a n _ _ => aligned4 a n
  | .drain a ty _ _ _ => aligned4 a (ty.bits / 8)
  | _ => []
def GOp.stores : GOp → List Nat
  | .store a _ => [a]
  | _ => []
def GOp.line : GOp → Nat
  | .store a _ | .atom a _ _ _ | .red a _ _ _ | .drain a _ _ _ _ | .seen _ a _ => a / 64
  | .poison u _ | .seenBad _ u _ => u
def replay (m : Image) (ops : List GOp) : Image := ops.foldl (fun m o => (o.run m).1) m

/-- A level with operations added: applied to the view and logged. -/
def GLevel.act (l : GLevel) (ops : List GOp) : GLevel := { l with view := replay l.view ops, ops := l.ops ++ ops }
/-- An operation on ring bytes, which are in place: the view does not change, and the T-close folds it (R175, R216). -/
def GLevel.note (l : GLevel) (ops : List GOp) : GLevel := { l with ops := l.ops ++ ops }
/-- A store of bytes into the view: one operation for each word touched (R200, R202). -/
def GLevel.storeBytes (l : GLevel) (a : Nat) (bs : List Byte) : GLevel :=
  let v := mwrite l.view.data a bs
  l.act ((aligned4 a bs.length).map fun w => .store w (BitVec.ofNat 32 (mnat v w 4)))

def Group.modLvl (g : Group) (mask : Nat) (f : GLevel → GLevel) : Group :=
  g.modSub mask fun x => { x with lvl := f x.lvl }

/-- A range in pieces that lie in one 64-byte unit each; areas of the window change only between units (R191). -/
def unitPieces (a n : Nat) : List (Nat × Nat) :=
  (unitsOf a n).map fun u => (max a (64 * u), min (a + n) (64 * u + 64) - max a (64 * u))
/-- `n` bytes of the own window (R191, R198): team data as the view holds it, the rest in place. -/
def Env.ownBytes (e : Env) (off n : Nat) : List Byte :=
  (unitPieces off n).flatMap fun p => match e.lch.areaOf p.1 with
    | .data => mread e.sub.lvl.view.data p.1 p.2
    | .sys => (List.range p.2).map fun i => e.team.sysByte (p.1 + i - e.lch.layout.sys)
    | _ => mread e.team.data.data p.1 p.2
def Env.ownBad (e : Env) (off n : Nat) : Bool :=
  (unitPieces off n).any fun p => match e.lch.areaOf p.1 with
    | .data => e.sub.lvl.view.bad p.1 p.2
    | _ => e.team.data.bad p.1 p.2

/-! ### Shadow lines (R214) -/

/-- The lines that the outstanding forks of a group hold: each its own, whatever other writes hold of the same lines (R214). -/
def State.forkLines (s : State) (gid : Nat) : Nat := ((s.ops.filter fun o => o.2.gid == gid).map fun o => o.2.lines.length).sum
/-- Shadow lines a group would hold with further lines of kind G, and with further lines of contributions or of a fork. -/
def State.heldLines (s : State) (gid : Nat) (g : Group) (new : List Nat) (extra : Nat) : Nat :=
  (nunion g.lines new).length + s.forkLines gid + g.contrib + extra + g.tlines.length + g.tcon +
  g.tlinesN.length + g.tconN + g.preLines.length
def Env.linesFit (e : Env) (new : List Nat) (extra : Nat) : Bool :=
  e.s.heldLines e.gid e.g new extra ≤ e.lch.lr.shadow
/-- The 64-byte lines of team data that some bytes meet (ring slots take none). -/
def Env.linesOf (e : Env) (off n : Nat) : List Nat :=
  (unitsOf off n).filter fun u => 64 * u < e.lch.layout.rings
def Group.takeLines (g : Group) (new : List Nat) (extra : Nat) : Group :=
  { g with lines := nunion g.lines new, contrib := g.contrib + extra }
/-- Contribution lines for n lanes of a width (R214). -/
def contribLines (n width : Nat) : Nat := if width == 4 then (n + 15) / 16 else (n + 7) / 8

/-! ### The D quota (R224) -/

/-- The team with lines charged; none when the quota does not hold them. -/
def Team.charge (t : Team) (quota : Nat) (lines : List Nat) (extra : Nat) : Option Team :=
  let c := nunion t.charged lines
  if c.length * 128 + t.extraCharge + extra ≤ quota * 65536 then
    some { t with charged := c, extraCharge := t.extraCharge + extra }
  else none

/-! ### CMIT.T and the T-close (R215, R216) -/

/-- A group that has arrived by ARRV at the phase still open (R371). -/
def Group.late (g : Group) (t : Team) : Bool := g.deferred == some t.phase

/-- G-level writes become T-pending and the team round ends (R215). The whole gang issues it. -/
def Group.cmitT (g : Group) (t : Team) : Group :=
  let lvl := match g.subs with | x :: _ => x.lvl | [] => {}
  let own := lvl.ops.filter fun o => !o.isSeen
  let g1 : Group := { g with
    tbase := replay g.tbase own, lines := [], contrib := 0, round := g.round + 1,
    subs := g.subs.map fun x => { x with lvl := { x.lvl with ops := x.lvl.ops.filter GOp.isSeen, gmem := {} } } }
  if g.late t then { g1 with
    topsN := g.topsN ++ own, tlinesN := nunion g.tlinesN g.lines, tconN := g.tconN + g.contrib,
    tmemN := g.tmemN.andThen lvl.gmem }
  else { g1 with
    tops := g.tops ++ own, tlines := nunion g.tlines g.lines, tcon := g.tcon + g.contrib,
    tmem := g.tmem.andThen lvl.gmem }

/-- The groups of a team with their records, ascending. -/
def State.teamGroups (s : State) (tid : Nat) : List (Nat × Group) := s.groups.filter fun g => gidTid g.1 == tid && g.1 < 2 ^ 200
def Team.live (t : Team) (gid : Nat) : Bool := !t.left.contains (gidG gid)

/-- The view becomes the merged team data with the group's own later operations on top (R216, R372). -/
def Group.refresh (g : Group) (t : Team) : Group :=
  let base := replay t.data g.tops
  { g with
    tbase := base,
    subs := g.subs.map fun x =>
      let ops := x.lvl.ops.filter fun o => match o with | .seen tc _ _ | .seenBad tc _ _ => tc == t.tcount | _ => true
      { x with lvl := { x.lvl with view := replay base ops, ops := ops } } }

/-- Words two groups wrote: the second list of each pair meets an earlier one. -/
def clash (ls : List (List Nat)) : Bool :=
  (ls.foldl (fun (acc : List Nat × Bool) l => (nunion acc.1 l, acc.2 || l.any acc.1.contains)) ([], false)).2

/-- The flags that a group's folded contributions raise: in STATUS, and by tile for drains (R177, R208). -/
def opFlags (m : Image) (ops : List GOp) : Image × Nat × List (Nat × Nat) :=
  ops.foldl (fun acc o =>
    let r := o.run acc.1
    match o with
    | .drain _ _ _ _ k => (r.1, acc.2.1, if r.2 == 0 then acc.2.2 else (k, r.2) :: acc.2.2)
    | _ => (r.1, acc.2.1 ||| r.2, acc.2.2)) (m, 0, [])

def Group.raiseTile (g : Group) (k flags : Nat) : Group :=
  { g with tiles := tput k { g.tile k with flags := (g.tile k).flags ||| BitVec.ofNat 32 flags } g.tiles }

/-- Charging a pre-image line (R216): to the lowest group that acted on the line and has not retired, else the lowest
that has not retired. -/
def chargePre (t : Team) (gs : List (Nat × Group)) (acted : Nat → Nat → Bool) (line : Nat) : List (Nat × Group) :=
  let live := gs.filter fun g => t.live g.1
  match (live.find? fun g => acted g.1 line).orElse fun _ => live.head? with
  | some g => tput g.1 { g.2 with preLines := tput line 8 g.2.preLines } gs
  | none => gs

/-- The T-close of R216, at a team-collective word (`all`) or a phase, at which groups with a deferred refresh keep their
view (R371); second, the groups whose pre-image charge does not fit. -/
def State.tClose (s : State) (tid : Nat) (all : Bool) : State × List Nat :=
  match tget tid s.teams with
  | none => (s, [])
  | some t =>
    let gs := s.teamGroups tid
    let cap := match tget (tidLid tid) s.launches with | some l => l.lr.shadow | none => 0
    let rings := match tget (tidLid tid) s.launches with | some l => l.layout.rings | none => 0
    let base : Image := { t.data with data := t.ordered.foldl (fun m w => mputNat m w.1 4 w.2.toNat) t.data.data }
    let run := gs.foldl (fun (acc : Image × List (Nat × Group)) g =>
      let r := opFlags acc.1 (g.2.tops.filter fun o => !o.isSeen)
      let g' := r.2.2.foldl (fun g f => g.raiseTile f.1 f.2) g.2
      (r.1, acc.2 ++ [(g.1, if t.live g.1 then g'.raiseAll r.2.1 else g')])) (base, [])
    let unord := gs.flatMap fun g => g.2.tops.flatMap GOp.words
    let sc := clash (gs.map fun g => (g.2.tops.flatMap GOp.stores).dedup) || t.ordered.any (fun w => unord.contains w.1)
      || clash (gs.map fun g => ((tkeys g.2.tmem.b).map (· / 4)).dedup)
    let acted := fun gid line => t.ordAct.contains (line, gid) ||
      (match tget gid gs with | some g => g.tops.any fun o => !o.isSeen && o.line == line | none => false)
    let lines := gs.foldl (fun l g => g.2.tops.foldl (fun l o => if o.isSeen then l else nins o.line l) l)
      (t.ordAct.foldl (fun l x => nins x.1 l) [])
    let changed := lines.filter fun l => 64 * l < rings && mread t.data.data (64 * l) 64 != mread run.1.data (64 * l) 64 &&
      !(gs.any fun g => (tget l g.2.preLines).isSome)
    let gs1 := changed.foldl (chargePre t · acted) run.2
    let tooMany := (gs1.filter fun g => (match tget g.1 gs with | some g0 => g0.preLines.length < g.2.preLines.length | none => false) &&
      cap < s.heldLines g.1 g.2 [] 0).map (·.1)
    let dmem := gs1.foldl (fun m g => m.andThen g.2.tmem) t.dmem
    let t' := { t with data := run.1, dmem := dmem, ordered := [], ordAct := [], tcount := t.tcount + 1 }
    let gs2 := gs1.map fun g =>
      let x := { g.2 with tops := g.2.topsN, topsN := [], tlines := g.2.tlinesN, tlinesN := [], tcon := g.2.tconN, tconN := 0,
                          tmem := g.2.tmemN, tmemN := {} }
      let x := if sc && t.live g.1 then x.raiseAll fSC else x
      (g.1, if t.live g.1 && (all || x.deferred.isNone) then x.refresh t' else x)
    ({ s.putT tid t' with groups := toverlay s.groups gs2 }, tooMany)

/-! ### Commits and deposits (R219, R220) -/

/-- The committed part of the window: team data and rings. -/
def Launch.committed (l : Launch) (m : Image) : Image :=
  let n := l.layout.pool
  { data := m.data.filter fun c => c.1 < n, poison := m.poison.filter fun u => 64 * u < n }

/-- Pre-image lines after a commit (R216): they await the close at which peers stop reading the old image. -/
def LRec.closes (r : LRec) : Nat := (if r.clog == 0 then 0 else 1) + (if r.coop then 2 else 0)
def Group.preCommit (g : Group) (mask : Nat) : Group :=
  { g with preLines := g.preLines.filterMap fun x =>
      if x.2 == 8 then (if mask == 0 then none else some (x.1, mask)) else some x }
def Group.preClose (g : Group) (bit : Nat) : Group :=
  { g with preLines := g.preLines.filterMap fun x =>
      if x.2 == 8 then some x else
      let m := if x.2 / bit % 2 == 1 then x.2 - bit else x.2
      if m == 0 then none else some (x.1, m) }

/-- The token-applied operations of a round, ascending by group and in program order within one (R220). -/
def roundOrder (toks : List (Nat × TokOp)) : List (Nat × TokOp) :=
  (List.range 64).flatMap fun g => toks.filter fun x => x.1 == g

/-- Deposit of the next round (R219, R220). -/
def Team.deposit (t : Team) : Team :=
  { t with nrounds := t.nrounds + 1, dmem := {}, toks := [],
           rounds := t.rounds ++ [{ k := t.nrounds + 1, plain := t.dmem, toks := roundOrder t.toks, full := t.fullSnap.isSome }] }

def Team.commitC (t : Team) (l : Launch) : Team := { t with cImg := l.committed t.data, pre := l.committed t.data }
def Team.commitD (t : Team) (l : Launch) : Team :=
  Team.deposit { t with dImg := l.committed t.data, pre := l.committed t.data }

/-- A change of every group of a team. -/
def State.modGroups (s : State) (tid : Nat) (f : Nat → Group → Group) : State :=
  { s with groups := s.groups.map fun g => if gidTid g.1 == tid && g.1 < 2 ^ 200 then (g.1, f g.1 g.2) else g }

/-- CMIT.C or CMIT.D after the T-close. -/
def State.commit (s : State) (tid : Nat) (d : Bool) : State :=
  match tget tid s.teams, tget (tidLid tid) s.launches with
  | some t, some l => (s.putT tid (if d then t.commitD l else t.commitC l)).modGroups tid fun _ g => g.preCommit l.lr.closes
  | _, _ => s

/-! ### Memory layers (R223) -/

/-- The G-level memory writes of a sub-gang, outermost first. -/
def Group.gmemOf (g : Group) (mask : Nat) (own : MemW) : MemW :=
  let bases := (List.range 17).flatMap fun d => g.recs.filterMap fun r =>
    if r.depth == d && r.s &&& mask == mask then r.base else none
  (bases.foldl (fun (m : MemW) b => m.andThen b.gmem) {}).andThen own

/-- The memory a group reads through the engines it forks (R223); control code reads H. -/
def Env.memImage (e : Env) : Image :=
  if e.g.isCtl then hImage e.s
  else
    let m := (e.team.fullSnap.getD e.lch.snap).apply e.team.ownApplied
    let m := e.team.rounds.foldl (fun m r => m.apply r.plain) m
    ((((m.apply e.team.dmem).apply e.g.tmem).apply e.g.tmemN).apply (e.g.gmemOf e.sub.mask e.sub.lvl.gmem))

/-! ### Joins (R229) -/

/-- An engine operation's writes become G-level writes of a sub-gang; ring bytes are put in place. -/
def State.joinOp (s : State) (gid mask : Nat) (id : Nat) : State :=
  match tget id s.ops, tget gid s.groups, tget (tidLid (gidTid gid)) s.launches with
  | some o, some g, some l =>
    let r := l.layout.rings
    let own := o.team.b.filter fun c => c.1 < r
    let ring : MemW := { b := o.team.b.filter fun c => r ≤ c.1, p := o.team.p.filter fun u => r ≤ 64 * u.1 }
    let words := ((own.map fun c => 4 * (c.1 / 4)).foldl (fun l w => nins w l) [])
    let g' := (g.modLvl mask fun v =>
      let m := mapply v.view.data own
      { v.act (words.map (fun w => GOp.store w (BitVec.ofNat 32 (mnat m w 4))) ++
          (o.team.p.filter fun u => 64 * u.1 < r).map fun u => GOp.poison u.1 u.2) with
        gmem := v.gmem.andThen o.writes })
    let g' := g'.takeLines (own.foldl (fun l c => nins (c.1 / 64) l) []) 0
    let s := (s.putG gid g').modT (gidTid gid) fun t => { t with data := t.data.apply ring }
    { s with ops := tdel id s.ops }
  | _, _, _ => { s with ops := tdel id s.ops }

def EngOp.isDone (o : EngOp) : Bool := match o.state with | .done _ => true | _ => false

end Sys2Proof.Machine
end

