-- ==== Sys2Proof/Machine/Control.lean ====
section
/-! DEFINITION. Branches, parting, calls, rejoining and lane retirement (chapter "Registers continued: program counters, gangs
and the reconvergence stack", R145 to R157). -/

namespace Sys2Proof.Machine

/-! ### Records (R149, R150) -/

/-- The innermost record of some slices. -/
def Group.innermost (g : Group) (mask : Nat) : Option Record :=
  (g.recs.filter fun r => r.s &&& mask == mask).foldl
    (fun b r => match b with | some x => if x.depth < r.depth then some r else b | none => some r) none
def Group.depthOf (g : Group) (mask : Nat) : Nat := match g.innermost mask with | some r => r.depth | none => 0

/-- The live slices of the issuing sub-gang (R145). -/
def Env.live (e : Env) : List Nat := slicesOf (e.sub.mask &&& e.g.liveMask)
def maskOf (l : List Nat) : Nat := l.foldl (fun m i => m + 2 ^ i) 0

/-- Where a slice goes at a decision: whether it takes the branch, and its destination. A JMPI takes for every slice, so its paths
differ by destination; a branch's paths differ by the taken bit, even where both lead to one word (R146, R148). -/
abbrev Way := Bool × W64

/-- Paths of a parting decision: slices grouped by their way, ascending by their lowest slice. -/
def pathsOf (way : Nat → Way) (slices : List Nat) : List (Way × List Nat) :=
  slices.foldl (fun ps i =>
    if ps.any (fun p => p.1 == way i) then ps.map fun p => if p.1 == way i then (p.1, p.2 ++ [i]) else p
    else ps ++ [(way i, [i])]) []

def Group.setPcs (g : Group) (slices : List Nat) (dest : Nat → W64) : Group :=
  slices.foldl (fun g i => g.modSlice i fun x => { x with pc := dest i }) g

/-- The record of a parting and its sub-gangs (R148); with one path the sub-gang goes on at the next depth. -/
def Group.part (g : Group) (sub : SubGang) (pc : W64) (paths : List (Way × List Nat)) : Group :=
  let many := 1 < paths.length
  let idx := fun i => (paths.findIdx? fun p => p.2.contains i).getD 0
  let r : Record :=
    { s := sub.mask, path := (List.range 8).map fun i => if bitOf sub.mask i then idx i else 0,
      fmr := (List.range 8).map fun i => if bitOf sub.mask i then (g.slice i).fmr else 0,
      depth := g.depthOf sub.mask + 1, base := if many then some sub.lvl else none }
  let g := paths.foldl (fun g p => g.setPcs p.2 fun _ => p.1.2) g
  let kids := paths.map fun p => { sub with mask := maskOf p.2, lastPc := pc, park := .none,
                                            lvl := if many then { view := sub.lvl.view } else sub.lvl }
  { g with recs := g.recs ++ [r], subs := g.subs.flatMap fun x => if x.mask == sub.mask then kids else [x] }

/-- The way of every slice of the sub-gang (R145, R148): a live slice its own; an empty one the fall-through when some live slice
does not take the branch, else that of the lowest live slice. -/
def Env.wayOf (e : Env) (way : Nat → Way) (i : Nat) : Way :=
  if e.live.contains i then way i
  else match e.live.find? fun j => !(way j).1 with
    | some j => way j
    | none => way (lowest (maskOf e.live))

/-- The decision of a control word (R146, R148), from the way of each live slice. -/
def Env.decide (e : Env) (g : Group) (pt : Bool) (way : Nat → Way) (keep : Bool) : Res :=
  let first := way (lowest (maskOf e.live))
  let all := slicesOf e.sub.mask
  if pt then
    if g.depthOf e.sub.mask == 16 then .fault (flt 0x0C)
    else .goto (e.s.putG e.gid (g.part e.sub e.pc (pathsOf (e.wayOf way) all)))
  else if e.live.all fun i => way i == first then
    .goto (e.s.putG e.gid ((g.setPcs all fun _ => first.2).modSub e.sub.mask fun x => { x with park := .none }))
  else if keep then .faultIn (e.s.putG e.gid g) (flt 0x03) else .fault (flt 0x03)

/-- The target of a B-type word (R34); none outside the address space. -/
def Env.target (e : Env) (disp : W32) : Option W64 :=
  let t := e.pc + BitVec.ofNat 64 (8 * sext 32 64 disp.toNat)
  if t.toNat < 2 ^ 56 then some t else none
/-- The fault of a target outside the address space; it names the target. -/
def Env.outside (e : Env) (disp : W32) : Flt := { code := 0x06, addr := (e.pc + BitVec.ofNat 64 (8 * sext 32 64 disp.toNat)).toNat }

/-- A conditional branch with its taken bits (R152). A target outside the address space that some slice takes is looked at before the
depth and before disagreement, and then LOOP's decrement is not made either: the spec gives no order, and keeps the decrement for
R146's fault only (entry 14). -/
def Env.branch (e : Env) (g : Group) (f : BWord) (taken : Nat → Bool) (keep : Bool) : Res :=
  let next := e.pc + 8
  match e.target f.disp with
  | some t => e.decide g f.pt (fun i => if taken i then (true, t) else (false, next)) keep
  | none => if e.live.any taken then .fault (e.outside f.disp) else e.decide g f.pt (fun _ => (false, next)) keep

def execBra (f : BWord) (s : State) : Host.Outcome State Fault Refusal :=
  issueWord (.bra f) (fun e => e.branch e.g f (fun i => condHolds f.cc (e.g.flags i)) false) s

/-- The slice's bits of a mask, within KACT (R152). -/
def Group.maskBits (g : Group) (k slice : Nat) : Nat := fld (g.kr k &&& g.kact.toNat) (4 * slice) 4

/-- BKZ (R152); in control code the mask reads as zero (R151). -/
def execBkz (f : BWord) (s : State) : Host.Outcome State Fault Refusal :=
  issueWord (.bkz f) (fun e => e.branch e.g f (fun i => e.g.isCtl || e.g.maskBits f.kt i == 0) false) s

def execBknz (f : BWord) (s : State) : Host.Outcome State Fault Refusal :=
  issueWord (.bknz f) (fun e => e.branch e.g f (fun i => !e.g.isCtl && e.g.maskBits f.kt i != 0) false) s

/-- LOOP (R152): the decrement comes before the decision, and stays when R146 faults. -/
def execLoop (f : BWord) (s : State) : Host.Outcome State Fault Refusal :=
  issueWord (.loop f) (fun e =>
    let g := e.live.foldl (fun g i => g.wrS f.st i (low 64 (e.g.sr f.st i + (2 ^ 64 - 1)))) e.g
    e.branch g f (fun i => g.sr f.st i != 0) true) s

/-- The checks on targets read from registers (R153, R154). They come before depth and disagreement in JMPI, and after disagreement
in CALLI, whose one target they check (entry 14). -/
def Env.targetsOk (e : Env) (o : Opd) : Chk Unit := do
  let bad := fun (code : Nat) (ok : Nat → Bool) =>
    match e.live.find? fun i => !ok (e.rd64 (4 * i) o) with
    | some i => throw { code := code, fslice := some i, addr := e.rd64 (4 * i) o }
    | none => pure ()
  bad 0x04 fun t => t % 8 == 0
  bad 0x06 fun t => t < 2 ^ 56

def execJmpi (f : RWord) (s : State) : Host.Outcome State Fault Refusal :=
  issueWord (.jmpi f) (fun e => match e.targetsOk f.a with
    | .error x => .fault x
    | .ok _ => e.decide e.g (f.m.val == 1) (fun i => (true, BitVec.ofNat 64 (e.rd64 (4 * i) f.a))) false) s

/-- The call of R154 once the target is known. -/
def Env.callTo (e : Env) (t : W64) : Res :=
  let all := slicesOf e.sub.mask
  if all.any fun i => (e.g.slice i).call.length == 16 then .fault (flt 0x1A)
  else .goto (e.s.putG e.gid (((e.g.modSlices all fun x => { x with call := (e.pc + 8) :: x.call }).setPcs all
    fun _ => t).modSub e.sub.mask fun x => { x with park := .none }))

/-- CALL (R154): a target outside the address space (0x06) is looked at before the stack (0x1A) (entry 14). -/
def execCall (f : BWord) (s : State) : Host.Outcome State Fault Refusal :=
  issueWord (.call f) (fun e => match e.target f.disp with
    | none => .fault (e.outside f.disp)
    | some t => e.callTo t) s

/-- CALLI (R154): disagreement (0x03) is looked at before the target (0x04, 0x06), and the stack (0x1A) last (entry 14). -/
def execCalli (f : RWord) (s : State) : Host.Outcome State Fault Refusal :=
  issueWord (.calli f) (fun e =>
    let t := e.rd64 (4 * lowest (maskOf e.live)) f.a
    if e.live.any fun i => e.rd64 (4 * i) f.a != t then .fault (flt 0x03)
    else match e.targetsOk f.a with
      | .error x => .fault x
      | .ok _ => e.callTo (BitVec.ofNat 64 t)) s

/-- RET (R154): an empty stack (0x1A) is looked at before disagreement (0x03) (entry 14). -/
def execRet (f : RWord) (s : State) : Host.Outcome State Fault Refusal :=
  issueWord (.ret f) (fun e =>
    let all := slicesOf e.sub.mask
    let top := fun i => (e.g.slice i).call.headD 0
    let t := top (lowest (maskOf e.live))
    if e.live.any fun i => (e.g.slice i).call.isEmpty then .fault (flt 0x1A)
    else if e.live.any fun i => top i != t then .fault (flt 0x03)
    else .goto (e.s.putG e.gid (((e.g.modSlices all fun x => { x with call := x.call.tail }).setPcs all
      fun _ => t).modSub e.sub.mask fun x => { x with park := .none }))) s

/-! ### Rejoining (R155, R156) -/

def joinInto (l : GLevel) (x : SubGang) : GLevel :=
  { view := replay l.view x.lvl.ops, ops := l.ops ++ x.lvl.ops, gmem := l.gmem.andThen x.lvl.gmem }

/-- The sub-gangs within `mask` become one: their operations are applied in ascending order of their lowest slice (R198). When
they are all the paths of their record, its level of writes continues in the joined sub-gang. -/
def Group.merge (g : Group) (mask : Nat) (lastPc : W64) : Group :=
  let parts := (List.range 8).filterMap fun i => g.subs.find? fun x => x.mask &&& mask == x.mask && lowest x.mask == i && x.mask != 0
  let r := g.innermost mask
  let whole := match r with | some r => r.s &&& mask == r.s | none => true
  let base := match r with | some r => r.base | none => none
  let lvl : GLevel := match parts, base with
    | [x], none => x.lvl
    | [x], some b => if whole then joinInto b x else x.lvl
    | ps, some b => ps.foldl joinInto (if whole then b else { view := b.view })
    | p :: ps, none => ps.foldl joinInto p.lvl
    | [], none => {}
  let recs := match r with
    | some r => if whole then g.recs.map fun x => if x == r then { x with base := none } else x else g.recs
    | none => g.recs
  let keep := g.subs.filter fun x => x.mask &&& mask != x.mask || x.mask == 0
  { g with recs := recs, subs := keep ++ [{ mask := mask, lastPc := lastPc, lvl := lvl }] }

/-- Records below `depth` within `mask` whose slices are all empty close by themselves, innermost first: their sub-gangs
count as arrived (R145). -/
def Group.collapse (g : Group) (mask depth : Nat) : Group :=
  (List.range 17).foldr (fun d g =>
    if d ≤ depth then g
    else (g.recs.filter fun r => r.depth == d && r.s &&& mask == r.s && r.s &&& g.liveMask == 0).foldl (fun g r =>
      let g := g.merge r.s ((g.subs.find? fun x => x.mask &&& r.s != 0).map (·.lastPc) |>.getD 0)
      { g with recs := g.recs.filter fun x => !(x.s == r.s && x.depth == r.depth) }) g) g

/-- Fault 0x03 of R155 and R156, at the word of the sub-gang with the lowest live slice of a set. -/
def State.faultJoin (s : State) (gid : Nat) (g : Group) (mask : Nat) : State :=
  let i := lowest (mask &&& g.liveMask)
  match g.subs.find? fun x => bitOf x.mask i with
  | none => s
  | some x => match envOf s { gid := gid, mask := x.mask } with
    | none => s
    | some e =>
      let w := e.wordAt e.pc.toNat
      takeFault s e (e.record (decodeWord w).toOption w (flt 0x03))

/-- The sub-gangs with a live slice of a set. -/
def Group.liveSubs (g : Group) (mask : Nat) : List SubGang := g.subs.filter fun x => x.mask &&& mask &&& g.liveMask != 0

/-- A join, `mask` being the slices that it joins: their pending results are written first (R155, R156). Until these have returned the sub-gangs
stay parked, and one that holds a failed result takes its fault at the word at which it stands (R48, R49). -/
def State.joinSettled (s : State) (gid mask : Nat) (join : Group → Group) : State :=
  match tget gid s.groups with
  | none => s
  | some g =>
    if !g.allReturned mask then s
    else match g.failedLane mask with
      | none => s.putG gid (join (g.writePendLogged mask (s.undoOn gid)))
      | some (l, r) => match g.subs.find? fun x => bitOf x.mask (l / 4) with
        | some x => faultGroup s gid x.mask { r with rpc := g.pcOf x.mask, slice := lowest x.mask, marker := true }
        | none => s

/-- A REGANG or KSYNC whose partners have arrived (R155, R156): the pending results are written, then FMR returns, the record goes and the
slices become one sub-gang. A KSYNC joins the sub-gangs that lie wholly within M: a sub-gang whose slices are all empty and lie partly outside
stays as it is (entry 14). -/
def State.tryJoin (s : State) (gid mask : Nat) : State :=
  match tget gid s.groups with
  | none => s
  | some g =>
    if g.halted then s else
    match g.sub mask with
    | none => s
    | some x =>
      match x.park with
      | .regang => match g.innermost mask with
        | none => s
        | some r =>
          let ps := g.liveSubs r.s
          if !(ps.all fun p => p.park == .regang && g.innermost p.mask == some r) then s
          else if ps.any fun p => g.pcOf p.mask != g.pcOf mask then s.faultJoin gid g r.s
          else
            let pc := g.pcOf mask
            s.joinSettled gid r.s fun g =>
              let g := (g.collapse r.s r.depth).merge r.s pc
              let g := (List.range 8).foldl (fun g i => if bitOf r.s i
                then (g.modSlice i fun y => { y with pc := pc + 8, fmr := (r.fmr[i]?).getD 0 }).mendX .fmr i else g) g
              { g with recs := g.recs.filter fun y => !(y.s == r.s && y.depth == r.depth) }
      | .ksync m =>
        let ps := g.liveSubs m
        if !(ps.all fun p => match p.park with | .ksync _ => true | _ => false) then s
        else if ps.any fun p => p.park != x.park || g.pcOf p.mask != g.pcOf mask || g.innermost p.mask != g.innermost mask then
          s.faultJoin gid g m
        else
          let pc := g.pcOf mask
          let c := g.collapse m (g.depthOf mask)
          let m' := (c.subs.filter fun p => p.mask &&& m == p.mask && (p.mask &&& g.liveMask != 0 ||
            c.innermost p.mask == c.innermost mask)).foldl (fun a p => a ||| p.mask) 0
          let join := fun (g : Group) => ((g.collapse m (g.depthOf mask)).merge m' pc).modSlices (slicesOf m') fun y => { y with pc := pc + 8 }
          -- at depth 0 it joins at once without effect
          if g.innermost mask == none then s.putG gid (join g) else s.joinSettled gid m' join
      | _ => s

/-- Every parked REGANG and KSYNC of a group tried once, in the order of the group's sub-gangs. Where one arrival makes two KSYNC
sets of different M due at once, the first in this order decides (entry 14). -/
def State.rejoin (s : State) (gid : Nat) : State :=
  match tget gid s.groups with
  | none => s
  | some g => g.subs.foldl (fun s x => s.tryJoin gid x.mask) s

/-- A sub-gang parks at REGANG or KSYNC, and what has arrived is joined. -/
def Env.parkJoin (e : Env) (p : Park) : Res :=
  .goto ((e.s.putG e.gid (e.g.modSub e.sub.mask fun x => { x with park := p, lastPc := e.pc })).rejoin e.gid)

def execRegang (f : RWord) (s : State) : Host.Outcome State Fault Refusal :=
  issueWord (.regang f) (fun e => if e.g.depthOf e.sub.mask == 0 then .fault (flt 0x0C) else e.parkJoin .regang) s

def execKsync (f : RWord) (s : State) : Host.Outcome State Fault Refusal :=
  issueWord (.ksync f) (fun e =>
    let m := fld (e.rd64 (4 * lowest (maskOf e.live)) f.a) 0 8
    let bound := match e.g.innermost e.sub.mask with | some r => r.s | none => 255
    if (e.live.any fun i => fld (e.rd64 (4 * i) f.a) 0 8 != m) || m &&& e.sub.mask != e.sub.mask || m &&& bound != m then
      .fault (flt 0x03)
    else e.parkJoin (.ksync m)) s

/-! ### Lane retirement (R157) -/

/-- A pending result whose values belong to lanes: its D is a vector register. One with D = ZERO belongs to slices, as with a scalar D (R93). -/
def Pend.byLane (p : Pend) : Bool := p.dst < 0x80

/-- Lanes leave KACT; their pending vector results, with the flags and faults those would raise, and the scalar results of slices
left empty are discarded (R49, R157); that the STATUS flags of a retired lane's vector result go with it, in a slice that stays live too, is
entry 14. Results that have not returned yet are kept as outstanding, with nothing to write: a group
retires only after they have returned. -/
def Group.retireLanes (g : Group) (lanes : Nat) : Group :=
  let g := { g with kact := BitVec.ofNat 32 (g.kact.toNat &&& (2 ^ 32 - 1 - lanes)) }
  let live := g.liveMask
  let drop := fun (p : Pend) =>
    let q := p.only live
    if p.byLane then
      { q with vw := q.vw.filter fun w => !bitOf lanes (w.1 % 32), flags := q.flags.filter fun w => !bitOf lanes w.1,
               fails := q.fails.filter fun w => !bitOf lanes w.1 }
    else q
  { g with pend := (g.pend.map drop).filter fun p => p.slices != 0 || !p.returned }

end Sys2Proof.Machine
end

