-- ==== Sys2Proof/Machine/Scratch.lean ====
section
/-! DEFINITION. The words that reach scratchpad, and control memory in control code: LD, ST, PUSHS, POPS, ATOM, RED and CAS
(chapter "Memories: address spaces, scratchpad and the load and store path", R196 to R209, R434; R283, R391). -/

namespace Sys2Proof.Machine

/-! ### Control blocks (R388 to R391) -/

/-- The messages acknowledged once OUTACK is `ack` and `sent` have been queued (R390): an acknowledged message stays so, and one below
OUTACK is never outstanding. -/
def Ctx.ackedAt (c : Ctx) (sent ack : W32) : W32 :=
  if (ack - c.acked).toNat < 2 ^ 31 then (if (ack - c.acked).toNat ≤ (sent - c.acked).toNat then ack else sent) else c.acked
/-- Messages that the host has not acknowledged. -/
def Ctx.outstanding (c : Ctx) : Nat := (c.outprog - c.acked).toNat
/-- OUTPROG of a context (R390). -/
def Ctx.outprogWord (c : Ctx) : Nat :=
  c.outprog.toNat + c.consumed.toNat % 2 ^ 16 * 2 ^ 32 + (if c.ovr then 2 ^ 62 else 0) +
  (if c.state == .resident then 2 ^ 63 else 0)
/-- The 64 bytes of a collective table entry, REFUSED among them (R391). -/
def CEntry.byte (c : CEntry) (i : Nat) : Byte :=
  let b := mget c.bytes i
  if i == 20 then BitVec.ofNat 8 (b.toNat % 2 + (if c.refused then 2 else 0)) else b
/-- A byte of block 0x10, 0x11 or 0x12. -/
def Ctx.blockByte (c : Ctx) (b off : Nat) : Byte :=
  match b with
  | 16 => match tget (off / 64) c.ctable with | some e => e.byte (off % 64) | none => 0
  | 17 => mget c.conns off
  | _ => ((leBytes 4 c.intail.toNat ++ leBytes 4 c.outack.toNat ++ leBytes 8 c.outprogWord)[off]?).getD 0
/-- Whether an entry meets R257. -/
def CEntry.limits (m : Memory) : Bool :=
  let np := mnat m 0 4; let rb := mnat m 4 4; let rn := mnat m 8 4; let tmo := mnat m 12 4
  1 ≤ np && np ≤ 65536 && rb < np && 1 ≤ rn && rn ≤ np - rb && 100 ≤ tmo && tmo ≤ 10000
/-- The bits of a collective table entry that hold something (R391): the others stay zero (R6). -/
def entryMask (i : Nat) : Byte := if i < 17 then 255 else if i == 17 then 15 else if i < 20 then 255 else if i == 20 then 1 else 0
/-- The bits of a host connection table entry that hold something (R388). -/
def connMask (i : Nat) : Byte := if i < 24 then 255 else if i == 24 then 1 else 0
/-- Bytes with the bits outside a mask cleared. -/
def maskBytes (mask : Nat → Byte) (off : Nat) (bs : List Byte) : List Byte := bs.zipIdx.map fun x => x.1 &&& mask (off + x.2)
/-- An ST to a collective table entry (R257, R391): a busy entry stays and turns REFUSED; one whose NP would leave 1 to 65,536 is refused, so
its other bytes stay and REFUSED is set, and leaves the entry invalid (entry 43); an entry that breaks the other limits is invalid; REFUSED
clears by writing 0 to it. -/
def CEntry.write (c : CEntry) (off : Nat) (bs : List Byte) : CEntry :=
  let m := mwrite c.bytes off (maskBytes entryMask off bs)
  if c.busy then { c with refused := true }
  else if off < 4 && !(1 ≤ mnat m 0 4 && mnat m 0 4 ≤ 65536) then { c with bytes := mset c.bytes 20 0, refused := true }
  else
    let clr := off ≤ 20 && 20 < off + bs.length && !bitOf ((bs[20 - off]?).getD 0).toNat 1
    let v := if CEntry.limits m then (mget m 20).toNat % 2 else 0
    { c with bytes := mset m 20 (BitVec.ofNat 8 v), refused := if clr then false else c.refused }
def Ctx.blockWrite (c : Ctx) (b off : Nat) (bs : List Byte) : Ctx :=
  if b == 16 then { c with ctable := tput (off / 64) (((tget (off / 64) c.ctable).getD {}).write (off % 64) bs) c.ctable }
  else { c with conns := mwrite c.conns off (maskBytes (fun i => connMask (i % 32)) off bs) }

/-- A write that reaches H from outside the grids: it comes after every completed launch. -/
def State.hWrite (s : State) (w : MemW) : State :=
  let img := Image.apply { data := s.mem, poison := s.memPoison } w
  { s with mem := img.data, memPoison := img.poison,
           launches := s.launches.map fun l => match l.2.state with
             | .done _ => (l.1, { l.2 with total := {
                 b := l.2.total.b.filter fun c => (tget c.1 w.b).isNone,
                 p := l.2.total.p.filter fun c => (tget c.1 w.p).isNone } })
             | _ => l }

/-! ### Addresses and checks (R196, R197) -/

/-- A fault at the lane of a vector form or the slice of a scalar form. -/
def placeFlt (d : Opd) (code p addr : Nat) : Flt :=
  { code := code, lane := if d.isV then p else 255, fslice := some (p / 4), addr := addr }

structure Place where
  p : Nat
  addr : Nat
  loc : Loc
  deriving DecidableEq, Repr

def Place.inRing (e : Env) (x : Place) : Bool :=
  match x.loc with | .own off => e.lch.areaOf off == .ring && !e.g.isCtl | _ => false
def Place.off (x : Place) : Nat := match x.loc with | .own o => o | .peer _ o => o | .mem k => k | .block _ o => o

/-- Checks 2 to 5 of R197: alignment, translation, type and permission, ring bytes. Fault 0x0F of a leaf pool frame that the group has not
pinned (R305) is a refusal of check 4, in lane order with 0x05 and 0x07 (entry 18). -/
def Env.reach (e : Env) (f : MWord) (write cas : Bool) : Chk (List Place) := do
  let n := Width.bytes f.width
  let ps := (e.places f.k f.d).map fun p => (p, e.addr f p)
  match ps.find? fun x => x.2 % n != 0 with
  | some x => throw (placeFlt f.d 0x04 x.1 x.2)
  | none => pure ()
  let ls := ps.map fun x => (x, e.locate write cas x.2)
  match ls.find? fun x => match x.2 with | .error c => c == 6 | .ok _ => false with
  | some x => throw (placeFlt f.d 0x06 x.1.1 x.1.2)
  | none => pure ()
  let out ← ls.mapM fun x => match x.2 with
    | .error c => .error (placeFlt f.d c x.1.1 x.1.2)
    | .ok l => .ok ({ p := x.1.1, addr := x.1.2, loc := l } : Place)
  match out.find? fun x => x.inRing e && !e.team.holds e.lch (gidG e.gid) x.off with
  | some x => throw (placeFlt f.d 0x0B x.p x.addr)
  | none => pure out

/-- The lines that writes to these places take (R202, R214). -/
def Env.placeLines (e : Env) (n : Nat) (ps : List Place) : List Nat :=
  if e.g.isCtl then [] else ps.foldl (fun l x => nunion l (e.linesOf x.off n)) []
/-- Check 6 of R197: the lines and contribution lines that a word takes for its places fit. The first lane or slice whose access
passes the shadow lines is named, with its first byte, which no more than one line refuses. -/
def Env.needLines (e : Env) (d : Opd) (ps : List Place) (take : List Place → List Nat × Nat) : Chk Unit :=
  let fits := fun (l : List Place) => e.linesFit (take l).1 (take l).2
  if e.g.isCtl || fits ps then .ok ()
  else match (ps.zipIdx.find? fun x => !fits (ps.take (x.2 + 1))) with
    | some x => .error (placeFlt d 0x08 x.1.p x.1.addr)
    | none => .error (flt 0x08)
/-- Check 7 of R197, for reads (R203). -/
def Env.noPoison (e : Env) (f : MWord) (ps : List Place) : Chk Unit :=
  let n := Width.bytes f.width
  match ps.find? fun x => match x.loc with
      | .own off => e.ownBad off n
      | .peer img off => img.bad off n
      | .mem k => (hImage e.s).bad k n
      | .block .. => false with
  | some x => .error (placeFlt f.d 0x15 x.p x.addr)
  | none => .ok ()

/-- The bytes an access reads. -/
def Env.readAt (e : Env) (n : Nat) (x : Place) : List Byte :=
  match x.loc with
  | .own off => e.ownBytes off n
  | .peer img off => mread img.data off n
  | .mem k => mread (hImage e.s).data k n
  | .block b off => (List.range n).map fun i => e.ctx.blockByte b (off + i)

/-- The register or registers of D as a number of n bytes (R201). -/
def Env.dValue (e : Env) (d : Opd) (n p : Nat) : Nat :=
  match d with
  | .v r => (List.range ((n + 3) / 4)).foldl (fun x j => x + e.g.vr (r.val + j) p * 2 ^ (32 * j)) 0
  | .s r => (List.range ((n + 7) / 8)).foldl (fun x j => x + e.g.sr (r.val + j) (p / 4) * 2 ^ (64 * j)) 0
  | o => e.rd64 p o

/-- Register writes of a value of n bytes into D for one place: vector keys and scalar keys (R201). -/
def dVec (d : Opd) (n p x : Nat) : List (Nat × W32) :=
  match d with
  | .v r => (List.range ((n + 3) / 4)).map fun j => (32 * (r.val + j) + p, BitVec.ofNat 32 (x / 2 ^ (32 * j)))
  | _ => []
def dSca (d : Opd) (n p x : Nat) : List (Nat × W64) :=
  match d with
  | .s r => (List.range ((n + 7) / 8)).map fun j => (8 * (r.val + j) + p / 4, BitVec.ofNat 64 (x / 2 ^ (64 * j)))
  | _ => []

/-- The pending result of a memory word (R44): a value of n bytes for each place. -/
def Env.memPend (e : Env) (d : Opd) (n : Nat) (k : Nat) (vals : List (Nat × Nat)) (g : Group) : Group :=
  if vals == [] then g
  else g.addPend { e.newPend d (if d.isV then (n + 3) / 4 else (n + 7) / 8) (sliceBits (e.exec k)) with
    vw := vals.flatMap fun v => dVec d n v.1 v.2, sw := vals.flatMap fun v => dSca d n v.1 v.2 }

/-! ### LD and ST (R201, R202) -/

def execLd (f : MWord) (s : State) : Host.Outcome State Fault Refusal :=
  issueWord (.ld f) (fun e => ofChk (do
    let n := Width.bytes f.width
    let ps ← e.reach f false false
    e.noPoison f ps
    let vals := ps.map fun x =>
      let v := leNat (e.readAt n x)
      (x.p, if f.sx then sext (8 * n) (if f.d.isV then 32 else 64) v else v)
    return .ok (e.s.putG e.gid (e.memPend f.d n f.k vals e.g)))) s

/-- Bytes put where a place reaches (R198, R214, R270; R283). -/
def Env.put (e : Env) (s : State) (x : Place) (bs : List Byte) : State :=
  match x.loc with
  | .own off =>
    if x.inRing e then s.modT e.tid fun t => { t with data := { t.data with data := mwrite t.data.data off bs } }
    else s.modG e.gid fun g => g.modLvl e.sub.mask fun l => l.storeBytes off bs
  | .mem k => s.hWrite (MemW.ofCells (cells k bs))
  | .block b off => s.modC e.cid fun c => c.blockWrite b off bs
  | .peer .. => s

/-- Units that a word has written whole lose their poison (R203), also of an error that strikes them between the word and its T-close. -/
def Env.wipe (e : Env) (s : State) (n : Nat) (ps : List Place) : State :=
  let us := wholeUnits (ps.flatMap fun x => match x.loc with | .own off => (List.range n).map (· + off) | _ => [])
  us.foldl (fun s u =>
    if e.lch.layout.rings ≤ 64 * u then s.modT e.tid fun t => { t with data := t.data.mark u false }
    else s.modG e.gid fun g => g.modLvl e.sub.mask fun l => l.act [.poison u false]) s

def execSt (f : MWord) (s : State) : Host.Outcome State Fault Refusal :=
  issueWord (.st f) (fun e => ofChk (do
    let n := Width.bytes f.width
    let ps ← e.reach f true false
    let lines := e.placeLines n ps
    e.needLines f.d ps fun l => (e.placeLines n l, 0)
    let s := if e.g.isCtl then e.s else e.s.putG e.gid (e.g.takeLines lines 0)
    let s := ps.foldl (fun s x => e.put s x (leBytes n (e.dValue f.d n x.p))) s
    return .ok (if e.g.isCtl then s else e.wipe s n ps))) s

/-! ### The spill stack (R204, R205) -/

/-- Bytes one register takes in a slice. -/
def spillSize (o : Opd) : Nat := if o.isV then 16 else 8
def Opd.plus : Opd → Nat → Opd
  | .v n, i => if h : n.val + i < 128 then .v ⟨n.val + i, h⟩ else .v n
  | .s n, i => if h : n.val + i < 64 then .s ⟨n.val + i, h⟩ else .s n
  | o, _ => o

def execPushs (f : RWord) (s : State) : Host.Outcome State Fault Refusal :=
  regWord (.pushs f) (fun e =>
    let n := f.m.val + 1
    let size := spillSize f.a
    let live := slicesOf (e.sub.mask &&& e.g.liveMask)
    if live.any fun c => e.lch.lr.spill * 8 < (e.g.slice c).sp + n * size then .error (flt 0x0E)
    else .ok (live.foldl (fun g c =>
      let bs := (List.range n).flatMap fun i => match Opd.plus f.a i with
        | .v r => (List.range 4).flatMap fun j => leBytes 4 (e.g.vr r (4 * c + j))
        | o => leBytes 8 (e.rd64 (4 * c) o)
      g.modSlice c fun x => { x with spill := mwrite x.spill x.sp bs, sp := x.sp + n * size }) e.g)) s

def execPops (f : RWord) (s : State) : Host.Outcome State Fault Refusal :=
  regWord (.pops f) (fun e =>
    let n := f.m.val + 1
    let size := spillSize f.d
    let m := e.sub.mask &&& e.g.liveMask
    let live := slicesOf m
    if live.any fun c => (e.g.slice c).sp < n * size then .error (flt 0x0E)
    else
      let at' := fun c i => (e.g.slice c).sp - (n - i) * size
      let vw := live.flatMap fun c => (List.range n).flatMap fun i => match Opd.plus f.d i with
        | .v r => (List.range 4).map fun j =>
            (32 * r.val + 4 * c + j, BitVec.ofNat 32 (mnat (e.g.slice c).spill (at' c i + 4 * j) 4))
        | _ => []
      let sw := live.flatMap fun c => (List.range n).flatMap fun i => match Opd.plus f.d i with
        | .s r => [(8 * r.val + c, BitVec.ofNat 64 (mnat (e.g.slice c).spill (at' c i) 8))]
        | _ => []
      let g := e.g.modSlices live fun x => { x with sp := x.sp - n * size }
      .ok (g.addPend { e.newPend f.d n m with vw := vw, sw := sw })) s

/-! ### Ordered values and the team token (R207) -/

/-- The team token for a group: lower groups have ended its round, higher groups the round before. Counts have 32 bits and are taken to
lie less than 2^31 apart (R210). -/
def State.tokenHolds (s : State) (t : Team) (tid gid : Nat) : Bool :=
  match tget gid s.groups with
  | none => true
  | some g => (s.teamGroups tid).all fun h =>
      h.1 == gid || !t.live h.1 || (if h.1 < gid then (h.2.round - g.round - 1).toNat < 2 ^ 31 else (h.2.round - g.round).toNat < 2 ^ 31)

/-- The ordered value of a word, which starts at the snapshot. -/
def Team.ordered4 (t : Team) (off : Nat) : Nat :=
  match tget off t.ordered with | some v => v.toNat | none => mnat t.data.data off 4
def Team.orderedRead (t : Team) (off n : Nat) : Nat :=
  if n == 4 then t.ordered4 off else t.ordered4 off + t.ordered4 (off + 4) * 2 ^ 32
def Team.orderedWrite (t : Team) (gid off n x : Nat) : Team :=
  let o := tput off (BitVec.ofNat 32 x) t.ordered
  { t with ordered := if n == 4 then o else tput (off + 4) (BitVec.ofNat 32 (x / 2 ^ 32)) o,
           ordAct := if t.ordAct.contains (off / 64, gid) then t.ordAct else t.ordAct ++ [(off / 64, gid)] }
/-- Words that the sub-gang comes to see without an operation of its own (R213). -/
def seenOps (tc off n x : Nat) : List GOp :=
  (List.range (n / 4)).map fun j => .seen tc (off + 4 * j) (BitVec.ofNat 32 (x / 2 ^ (32 * j)))

/-- One lane's read-modify-write of ATOM or CAS on ring bytes in place (R434), on the ordered value, or in the view; `op` none
where a CAS does not write. Answers the old value. -/
def Env.rmw (e : Env) (ordered : Bool) (n : Nat) (s : State) (x : Place) (new : Nat → Option Nat) (op : Nat → GOp) :
    Nat × State :=
  match envOf s { gid := e.gid, mask := e.sub.mask } with
  | none => (0, s)
  | some c =>
    if x.inRing e || e.g.isCtl then
      let old := leNat (c.readAt n x)
      (old, match new old with | some v => e.put s x (leBytes n v) | none => s)
    else if ordered then
      let old := c.team.orderedRead x.off n
      let v := (new old).getD old
      (old, (s.modT e.tid fun t => t.orderedWrite e.gid x.off n v).modG e.gid fun g =>
        g.modLvl e.sub.mask fun l => match new old with
          | some _ => l.act (seenOps c.team.tcount x.off n v)
          | none => l)
    else
      let old := leNat (c.readAt n x)
      (old, match new old with
        | some v => s.modG e.gid fun g => g.modLvl e.sub.mask fun l =>
            match op v with
            | .store _ _ => l.storeBytes x.off (leBytes n v)
            | o => l.act [o]
        | none => s)

/-- The lanes of a word in ascending order, with their old values. -/
def rmwAll (s : State) (ps : List Place) (one : State → Place → Nat × State) : List (Nat × Nat) × State :=
  ps.foldl (fun acc x => let r := one acc.2 x; (acc.1 ++ [(x.p, r.1)], r.2)) ([], s)

/-- Shadow lines of an atomic word: none for an ordered one (R207, R214), and none for ring bytes. -/
def Env.rmwLines (e : Env) (ordered contrib : Bool) (n : Nat) (ps : List Place) : List Nat × Nat :=
  if ordered then ([], 0)
  else
    let own := ps.filter fun x => !x.inRing e
    (e.placeLines n own, if contrib then contribLines own.length n else 0)

/-- ATOM (R206). The whole gang that ATOM.O asks for (0x03, R199) is looked at before checks 2 to 7 of R197, in CAS.O too (entry 21). -/
def execAtom (f : MWord) (s : State) : Host.Outcome State Fault Refusal :=
  issueWord (.atom f) (fun e => ofChk (do
    let n := Width.bytes f.width
    guardC (!f.sx || e.whole) (flt 0x03)
    let ps ← e.reach f true false
    let (lines, extra) := e.rmwLines f.sx true n ps
    e.needLines f.d ps (e.rmwLines f.sx true n)
    e.noPoison f ps
    if f.sx && e.exec f.k != 0 && !e.s.tokenHolds e.team e.tid e.gid then return .park .token e.s
    let val := fun p => low (8 * n) (e.dValue f.d n p)
    let (vals, s) := rmwAll (e.s.putG e.gid (e.g.takeLines lines extra)) ps fun s x =>
      e.rmw f.sx n s x (fun old => some (atomNew n f.op old (val x.p)))
        fun _ => .atom x.off n f.op (BitVec.ofNat 64 (val x.p))
    return .ok (s.modG e.gid fun g => e.memPend f.d n f.k vals g))) s

/-- The new value of CAS: the register or pair after the compare value (R209). -/
def Env.casNew (e : Env) (d : Opd) (n p : Nat) : Nat := low (8 * n) (e.dValue (Opd.plus d (if d.isV then n / 4 else 1)) n p)

/-- CAS (R209). -/
def execCas (f : MWord) (s : State) : Host.Outcome State Fault Refusal :=
  issueWord (.cas f) (fun e => ofChk (do
    let n := Width.bytes f.width
    guardC (!f.sx || e.whole) (flt 0x03)
    let ps ← e.reach f true true
    let (lines, _) := e.rmwLines f.sx false n ps
    e.needLines f.d ps (e.rmwLines f.sx false n)
    e.noPoison f ps
    if f.sx && e.exec f.k != 0 && !e.s.tokenHolds e.team e.tid e.gid then return .park .token e.s
    let s := if e.g.isCtl then e.s else e.s.putG e.gid (e.g.takeLines lines 0)
    let (vals, s) := rmwAll s ps fun s x =>
      e.rmw f.sx n s x
        (fun old => if old == low (8 * n) (e.dValue f.d n x.p) then some (e.casNew f.d n x.p) else none)
        fun v => .store x.off (BitVec.ofNat 32 v)
    return .ok (s.modG e.gid fun g => e.memPend f.d n f.k vals g))) s

/-- The distinct words that a RED names, with each lane's contribution (R87, R208). -/
def redGroups (ps : List Place) (val : Nat → Nat) : List (Place × List (Option W64)) :=
  let firsts := ps.filter fun x => match ps.find? fun y => y.addr == x.addr with | some y => y.p == x.p | none => false
  firsts.map fun x => (x, (List.range 32).map fun l =>
    if ps.any fun y => y.p == l && y.addr == x.addr then some (BitVec.ofNat 64 (val l)) else none)

def execRed (f : MWord) (s : State) : Host.Outcome State Fault Refusal :=
  issueWord (.red f) (fun e => ofChk (do
    let n := Width.bytes f.width
    let code := f.op.val + (if f.sx then 4 else 0)
    let ps ← e.reach f true false
    let (lines, extra) := e.rmwLines false true n ps
    e.needLines f.d ps (e.rmwLines false true n)
    let s := e.s.putG e.gid (e.g.takeLines lines extra)
    let s := (redGroups ps fun p => low (8 * n) (e.dValue f.d n p)).foldl (fun s (x : Place × List (Option W64)) =>
      if x.1.inRing e then
        let r := redNew n code (leNat (e.readAt n x.1)) x.2
        (e.put s x.1 (leBytes n r.1)).modG e.gid fun g => g.raiseAll r.2
      else s.modG e.gid fun g => g.modLvl e.sub.mask fun l => l.act [.red x.1.off n code x.2]) s
    return .ok (e.wipe s n ps))) s

end Sys2Proof.Machine
end

