-- ==== Sys2Proof/Machine/LadderWords.lean ====
section
/-! DEFINITION. The words of the visibility ladder: CMIT, ABRT, RFSH and FENCE (R218, R219, R231 to R235). A team-collective word
parks its gang; TEAM_COLLECTIVE_MATCH performs it. -/

namespace Sys2Proof.Machine

/-- The fault an earlier close assigned to a group that had moved on (R216, R369). -/
def Env.owed (e : Env) : Chk Unit :=
  match e.g.owed with | some c => .error { code := c, owed := true } | none => .ok ()
def Env.needWhole (e : Env) : Chk Unit := guardC e.whole (flt 0x03)

/-! ### Deferred refreshes (R366, R371 to R373) -/

/-- The phase for which a group's refresh is deferred and which is still open. -/
def Env.deferOpen (e : Env) : Option Nat := if e.g.late e.team then e.g.deferred.map (·.toNat) else none
/-- The operations that a phase holds open for a group, in fork order (R373). -/
def State.phaseOps (s : State) (gid : Nat) (p : BitVec 16) : List Nat :=
  (s.ops.filter fun o => o.2.gid == gid && o.2.mode == 1 && o.2.phase == p).map (·.1)
def State.joinPhase (s : State) (gid : Nat) (p : BitVec 16) : State :=
  (s.phaseOps gid p).foldl (fun s id => s.joinOp gid 255 id) s
/-- A deferred refresh whose phase has completed is performed (R372). It joins nothing: the phase's operations are joined by its BAR release,
by the WAIT on it, or at retirement (R373). -/
def State.catchUp (s : State) (gid : Nat) : State :=
  match (tget gid s.groups).bind (·.deferred) with
  | none => s
  | some _ =>
    match tget (gidTid gid) s.teams with
    | some t => s.modG gid fun g => { g.refresh t with deferred := none, phaseSeen := g.phaseSeen + 1 }
    | none => s

/-- A team-collective word parks (R218), after the refresh it may owe. -/
def Env.collPark (e : Env) (check : Env → Chk Coll) : Chk Res := do
  e.needWhole
  e.owed
  match e.deferOpen with
  | some q => return .park (.phase q) e.s
  | none =>
    let c ← check e
    return .park (.coll c) (e.s.catchUp e.gid)
def collWord (i : Instr) (check : Env → Chk Coll) (s : State) : Host.Outcome State Fault Refusal :=
  issueWord i (fun e => ofChk (e.collPark check)) s

def execCmitT (f : RWord) (s : State) : Host.Outcome State Fault Refusal :=
  issueWord (.cmitT f) (fun e => ofChk (do
    e.needWhole
    return .ok (e.s.putG e.gid (e.g.cmitT e.team)))) s
def execCmitC (f : RWord) (s : State) : Host.Outcome State Fault Refusal := collWord (.cmitC f) (fun _ => .ok .cmitC) s
def execCmitD (f : RWord) (s : State) : Host.Outcome State Fault Refusal := collWord (.cmitD f) (fun _ => .ok .cmitD) s

/-- The target of ABRT (R34, R231). -/
def Env.abortTarget (e : Env) (f : BWord) : Chk W64 :=
  match e.target f.disp with | some t => .ok t | none => .error (e.outside f.disp)

/-- The view returns to the T snapshot with the group's T-pending lines (R232). -/
def Group.abortG (g : Group) : Group :=
  { g with lines := [], contrib := 0, subs := g.subs.map fun x => { x with lvl := { view := g.tbase } } }

def execAbrtG (f : BWord) (s : State) : Host.Outcome State Fault Refusal :=
  issueWord (.abrtG f) (fun e => ofChk (do
    e.needWhole
    let t ← e.abortTarget f
    let g := (e.g.abortG.modSlices (List.range 8) fun x => { x with pc := t }).modSub e.sub.mask
      fun x => { x with park := .none }
    return .goto (e.s.putG e.gid g))) s

def execAbrtT (f : BWord) (s : State) : Host.Outcome State Fault Refusal :=
  collWord (.abrtT f) (fun e => do
    let t ← e.abortTarget f
    return .abrtT t) s

def execRfshT (f : RWord) (s : State) : Host.Outcome State Fault Refusal :=
  issueWord (.rfshT f) (fun e =>
    if !e.s.tokenHolds e.team e.tid e.gid then .park .token e.s
    else .ok (e.s.putG e.gid (e.g.modLvl e.sub.mask fun l =>
      l.act (e.team.ordered.map fun w => .seen e.team.tcount w.1 w.2)))) s

def State.isDone (s : State) (lid : Nat) : Bool :=
  match tget lid s.launches with | some l => (match l.state with | .done _ => true | _ => false) | none => true
/-- Whether every launch on which a grid depends has completed. -/
def Env.depsDone (e : Env) : Bool := (e.lch.seen ++ e.lch.early).all e.s.isDone

/-- The source launch of a formed one (R281). -/
def sourceOf (lid : Nat) : Nat := lid / 2 ^ 16 * 2 ^ 16

/-- What an image becomes with a launch that it sees whole (R226); a formed launch brings what its source had written (R281). -/
def Image.withLaunch (m : Image) (l : Launch) (k : Nat) (x : Launch) : Image :=
  (if l.seen.contains (sourceOf k) then m else m.apply x.base).apply x.total
/-- What a launch sees of the others when it becomes eligible (R226): memory outside the grids, the completed launches of other contexts, and of
its own context the launches it sees, in ascending launch sequence; of those released early, the triggered rounds. A formed launch sees its
source as it stood at the batch (R281). -/
def State.visible (s : State) (lid : Nat) (l : Launch) : Image :=
  (s.launches.foldl (fun (m : Image) (x : Nat × Launch) =>
    let done := match x.2.state with | .done _ => true | _ => false
    if lidCtx x.1 != lidCtx lid then (if done then m.apply x.2.total else m)
    else if l.seen.contains x.1 then m.withLaunch l x.1 x.2
    else if l.early.contains x.1 then m.apply x.2.trig else m)
    { data := s.mem, poison := s.memPoison }).apply l.base
/-- A snapshot of a launch with every dependence's writes added, in ascending launch sequence, under what the grid itself has written (R226, R235):
what else has come to memory since the snapshot it does not see. -/
def State.withDeps (s : State) (l : Launch) (own : MemW) (m : Image) : Image :=
  if l.early == [] then m
  else ((s.launches.foldl (fun (m : Image) (x : Nat × Launch) =>
    if l.seen.contains x.1 || l.early.contains x.1 then m.withLaunch l x.1 x.2 else m) m).apply l.base).apply own

/-- RFSH.D (R235): it parks as a team-collective word; TEAM_COLLECTIVE_MATCH performs the T-close and parks it again until the
dependences have completed, and then their writes join the team's D snapshot. -/
def execRfshD (f : RWord) (s : State) : Host.Outcome State Fault Refusal :=
  issueWord (.rfshD f) (fun e => ofChk (do
    if e.sub.park == .rfshD then
      if !e.depsDone then return .park .rfshD e.s
      else
        let img := e.s.withDeps e.lch e.lch.totalAtClose e.lch.snap
        let s := e.s.modT e.tid fun t => { t with fullSnap := some (t.fullSnap.getD img) }
        -- a fault 0x08 of its T-close is taken here, the effect done (R216)
        match e.g.owed with
        | none => return .ok s
        | some c =>
          let w := e.wordAt e.pc.toNat
          return .goto (takeFault (s.modG e.gid fun g => { g with owed := none }) e
            { e.record (some (.rfshD f)) w (flt c) with closing := true })
    else e.collPark fun _ => .ok .rfshD)) s

/-! ### FENCE (R235, R271) -/

/-- Whether an operation's slot is dealt to another group than `g` (R271). -/
def Team.dealtAway (t : Team) (g : Nat) (o : EngOp) : Bool :=
  match o.slot with
  | none => false
  | some (q, sq) => match tget q t.queues with
    | some x => match x.descs[sq.toNat % max x.slots 1]? with | some d => d.popper != g | none => false
    | none => false

/-- The operations that a FENCE of the sub-gang waits for, in fork order; no token-applied one (R235). -/
def Env.fenceOps (e : Env) : List (Nat × EngOp) :=
  e.s.ops.filter fun o => o.2.gid == e.gid && o.2.engine != .round && (e.g.isCtl || o.2.slices &&& e.sub.mask != 0)

/-- The 64 KiB pages of either tier that some writes meet. -/
def pagesOf (w : MemW) : List Nat := w.b.foldl (fun l c => if keyType c.1 == 1 || keyType c.1 == 2 then nins (c.1 / 65536) l else l) []
/-- The control program's finished jobs reach H (R235, R253); the context has written their pages (R185). -/
def Env.controlJoin (e : Env) : State :=
  e.fenceOps.foldl (fun s o => { (s.hWrite o.2.writes).modC e.cid fun c => { c with pages := nunion c.pages (pagesOf o.2.writes) } with
    ops := tdel o.1 s.ops }) e.s

def execFence (f : RWord) (s : State) : Host.Outcome State Fault Refusal :=
  issueWord (.fence f) (fun e =>
    if e.fenceOps.any fun o => !o.2.isDone then .park (if e.g.isCtl then .ctlFence else .fence) e.s
    else if e.g.isCtl then .ok e.controlJoin
    else .ok (e.fenceOps.foldl (fun s o =>
      if e.team.dealtAway (gidG e.gid) o.2 then s else s.joinOp e.gid e.sub.mask o.1) e.s)) s

end Sys2Proof.Machine
end

