-- ==== Sys2Proof/Machine/Engines.lean ====
section
/-! DEFINITION. What every engine word shares: completion specifiers (R238), the slots of queues (R266 to R272), checks of copies
on the on-chip half (R239, R191, R270), the fork (R228), the translation and the writes of an operation (R254 to R256),
its completion (R240), the fault ring (R357). -/

namespace Sys2Proof.Machine

/-! ### The fault ring (R357) -/

def ringKey (cid i : Nat) : Nat := physKey cid 6 (0xFC000 + 64 * i)

/-- A fault ring entry (R357). -/
def ringEntry (kind code team key v1 v2 group slice : Nat) : List Byte :=
  leBytes 1 kind ++ leBytes 1 code ++ leBytes 2 0 ++ leBytes 4 team ++ leBytes 8 key ++ leBytes 8 v1 ++ leBytes 8 v2 ++
  leBytes 1 group ++ leBytes 1 slice ++ leBytes 30 0

def ringFull (c : Ctx) : Bool := (c.frtail - c.frhead).toNat == 255

/-- An event enters the fault ring, or waits while the ring holds 255. -/
def State.ringPut (s : State) (cid : Nat) (bs : List Byte) : State :=
  match tget cid s.ctxs with
  | none => s
  | some c =>
    if ringFull c || c.waitingRing != [] then s.putC cid { c with waitingRing := c.waitingRing ++ [bs] }
    else (s.hWrite (MemW.ofCells (cells (ringKey cid c.frtail.toNat) bs))).putC cid { c with frtail := c.frtail + 1 }

/-- The next OPID that no suspended operation of the context holds (R358). -/
def State.nextOpid (s : State) (cid : Nat) : Nat → W32 → W32
  | 0, x => x
  | n + 1, x =>
    if s.ops.any fun o => gidCid o.2.gid == cid &&
        o.2.opid == some x && (match o.2.state with | .done _ => false | _ => true) then
      State.nextOpid s cid n (x + 1) else x
/-- A new OPID of a context. -/
def State.freshOpid (s : State) (cid : Nat) : W32 × State :=
  match tget cid s.ctxs with
  | none => (0, s)
  | some c =>
    let x := s.nextOpid cid (s.ops.length + 1) c.opid
    (x, s.putC cid { c with opid := x + 1 })

/-- Waiting events enter while there is room. -/
def State.ringDrain (s : State) (cid : Nat) : State :=
  match tget cid s.ctxs with
  | none => s
  | some c => c.waitingRing.foldl (fun s bs => s.ringPut cid bs) (s.putC cid { c with waitingRing := [] })

/-! ### Slots (R266 to R272) -/

def Launch.declOf (l : Launch) (q : Nat) : Option (Nat × Nat) :=
  (l.qdecl.find? fun x => x.1 == q).map fun x => (x.2.1, x.2.2)
def Queue.slotOf (q : Queue) (seq : W32) : Nat := seq.toNat % max q.slots 1
def Queue.desc (q : Queue) (seq : W32) : Desc := (q.descs[q.slotOf seq]?).getD {}
def Queue.modDesc (q : Queue) (k : Nat) (f : Desc → Desc) : Queue := { q with descs := q.descs.modify k f }
/-- The popper groups in rank order (R268). -/
def Queue.poppers (q : Queue) : List Nat := (List.range 64).filter (bitOf q.popMask.toNat)
/-- The group to which a sequence number is dealt (R268). -/
def Queue.dealt (q : Queue) (seq : W32) : Nat := (q.poppers[seq.toNat % max q.poppers.length 1]?).getD 0
def Queue.slotAddr (q : Queue) (seq : W32) : Nat := q.ring.toNat + q.slotOf seq * q.slotBytes

/-- Whether the slot of FILLSEQ can be reserved (R269). -/
def Queue.free (q : Queue) : Bool := (q.desc q.fillSeq).status == 0
/-- A reservation (R269). -/
def Queue.reserve (q : Queue) (status : Nat) (handle count : Nat) (op : Option Nat) : Queue :=
  let d : Desc := { status := status, handle := BitVec.ofNat 64 handle, count := count, popper := q.dealt q.fillSeq,
                    seq := q.fillSeq, op := op }
  { q.modDesc (q.slotOf q.fillSeq) (fun _ => d) with fillSeq := q.fillSeq + 1, allow := q.allow - 1 }

/-- Slots dealt to retired poppers are passed over (R272); the operations whose writes are discarded. -/
def Queue.skip (left : List Nat) (q : Queue) : Nat → Queue × List Nat
  | 0 => (q, [])
  | n + 1 =>
    let d := q.desc q.headSeq
    if q.inited && q.headSeq != q.fillSeq && left.contains d.popper && 2 ≤ d.status && d.status ≤ 5 then
      let q' := { q.modDesc (q.slotOf q.headSeq) (fun d => { d with status := 0, op := none, hand := [], handBad := [] }) with headSeq := q.headSeq + 1, allow := q.allow + 1 }
      let r := Queue.skip left q' n
      (r.1, d.op.toList ++ r.2)
    else (q, [])

/-- R272 on every queue of a team. -/
def State.skipQueues (s : State) (tid : Nat) : State :=
  match tget tid s.teams with
  | none => s
  | some t =>
    let r := t.queues.foldl (fun (acc : Tab Queue × List Nat) x =>
      let y := Queue.skip t.left x.2 x.2.slots
      (tput x.1 y.1 acc.1, acc.2 ++ y.2)) (t.queues, [])
    { s.putT tid { t with queues := r.1 } with ops := r.2.foldl (fun o i => tdel i o) s.ops }

def Team.modQ (t : Team) (q : Nat) (f : Queue → Queue) : Team := { t with queues := tmod q f t.queues }

/-- A slot's status and count when its operation completes (R240, R267). -/
def State.fillSlot (s : State) (tid : Nat) (slot : Option (Nat × W32)) (status : Nat) (count : Option Nat) : State :=
  match slot with
  | none => s
  | some (q, seq) =>
    (s.modT tid fun t => t.modQ q fun x =>
      if (x.desc seq).seq == seq && (x.desc seq).status == 1 then
        x.modDesc (x.slotOf seq) fun d => { d with status := status, count := count.getD d.count }
      else x).skipQueues tid

/-! ### Completion specifiers (R238, R268) -/

structure Spec where
  mode : Nat
  q : Nat
  deriving DecidableEq, Repr

def flt0B : Flt := flt 0x0B
/-- A queue that a word fills: declared, made by QINIT, with this group as its filler (R268, R273). -/
def Env.fillQueue (e : Env) (q : Nat) : Chk Queue :=
  match e.lch.declOf q, tget q e.team.queues with
  | some _, some x => if x.inited && x.filler == gidG e.gid then .ok x else .error flt0B
  | _, _ => .error flt0B

/-- A completion specifier (R238). -/
def Env.spec (e : Env) (raw : Nat) (modes : List Nat) : Chk Spec := do
  let sp : Spec := { mode := fld raw 4 4, q := fld raw 0 4 }
  guardC (fld raw 8 56 == 0 && modes.contains sp.mode && (sp.mode == 0 || sp.q == 0)) flt0B
  if sp.mode == 0 then
    let _ ← e.fillQueue sp.q
    return sp
  else return sp

/-- The slot that a MODE 0 word would reserve. -/
def Env.nextSlot (e : Env) (sp : Spec) : Option (Queue × Nat) :=
  if sp.mode != 0 then none
  else match tget sp.q e.team.queues with | some x => some (x, x.slotAddr x.fillSeq) | none => none

/-- Whether the word must park for its slot (R269). -/
def Env.slotBusy (e : Env) (sp : Spec) : Bool :=
  match e.nextSlot sp with | some (x, _) => !x.free | none => false

/-! ### Addresses of copies (R239, R191, R270) -/

/-- A range in pieces that lie in one half of the address space. -/
def pieces (a n : Nat) : List (Nat × Nat) :=
  if a < 2 ^ 55 && 2 ^ 55 < a + n then [(a, 2 ^ 55 - a), (2 ^ 55, a + n - 2 ^ 55)] else if n == 0 then [] else [(a, n)]
def inMem (a : Nat) : Bool := a < 2 ^ 55

/-- The first fault of the bytes of an on-chip range, as a copy's source or destination. `slot` is the ring range that the
word's own slot holds (R270). -/
def Env.chipRange (e : Env) (write : Bool) (slot : Option (Nat × Nat)) (a n : Nat) : Chk Unit :=
  -- areas and windows change only at multiples of 64 bytes
  let starts := a :: ((List.range ((a + n - 1) / 64 - a / 64)).map fun i => 64 * (a / 64 + i + 1))
  starts.forM fun b =>
    if 2 ^ 56 ≤ b then .error { code := 0x06, addr := b }
    else match e.chip write b with
      | .error c => .error { code := c, addr := b }
      | .ok (.own off) =>
        if e.lch.areaOf off == .ring then
          let ok := if write then
              (match slot with | some (lo, m) => lo ≤ b && (min (a + n) (64 * (b / 64) + 64)) ≤ lo + m | none => false)
            else e.team.holds e.lch (gidG e.gid) off
          if ok then .ok () else .error { code := 0x0B, addr := b }
        else .ok ()
      | .ok _ => .ok ()

/-- Step 6 of R239 for sources and destinations: translation first, then what R191 and R270 refuse. -/
def Env.chipChecks (e : Env) (sp : Spec) (srcs dsts : List (Nat × Nat)) : Chk Unit := do
  let slot := (e.nextSlot sp).map fun x => (x.2, x.1.slotBytes)
  let all := (srcs.map fun x => (false, x)) ++ (dsts.map fun x => (true, x))
  let ps := all.flatMap fun x => ((pieces x.2.1 x.2.2).filter fun y => !inMem y.1).map fun y => (x.1, y)
  let rs := ps.map fun x => e.chipRange x.1 slot x.2.1 x.2.2
  let first := fun (p : Nat → Bool) => rs.findSome? fun r => match r with | .error f => if p f.code then some f else none | .ok _ => none
  match first (· == 6) with
  | some f => throw f
  | none => match first (· == 7) with
    | some f => throw f
    | none => match first fun _ => true with
      | some f => throw f
      | none => pure ()

/-- The 64-byte lines of team data in some destinations (R214). -/
def Env.dstLines (e : Env) (dsts : List (Nat × Nat)) : List Nat :=
  dsts.foldl (fun l x => (pieces x.1 x.2).foldl (fun l y =>
    if inMem y.1 then l else nunion l (e.linesOf (y.1 % 2 ^ 19) y.2)) l) []
/-- The 128-byte lines of memory in some destinations (R224). -/
def memLines (dsts : List (Nat × Nat)) : List Nat :=
  dsts.foldl (fun l x => (pieces x.1 x.2).foldl (fun l y =>
    if inMem y.1 then (List.range ((y.1 + y.2 - 1) / 128 + 1 - y.1 / 128)).foldl (fun l i => nins (y.1 / 128 + i) l) l else l) l) []

/-- Step 7 of R239: shadow lines, then the D quota. Answers the lines and the charged team. -/
def Env.supply (e : Env) (dsts : List (Nat × Nat)) (extra : Nat) : Chk (List Nat × Team) := do
  let lines := e.dstLines dsts
  guardC (e.linesFit [] lines.length) (flt 0x08)
  match e.team.charge e.lch.lr.dquota (memLines dsts) extra with
  | some t => return (lines, t)
  | none => throw (flt 0x09)

/-! ### Reading at issue (R228) -/

/-- On-chip bytes as the sub-gang sees them, absent where poisoned. -/
def Env.chipByte (e : Env) (a : Nat) : Option Byte :=
  match e.chip false a with
  | .ok (.own off) => if e.ownBad off 1 then none else (e.ownBytes off 1).head?
  | .ok (.peer img off) => if img.bad off 1 then none else some (mget img.data off)
  | _ => none

/-- A copy's rows: on-chip sources are read now, memory sources when the engine runs. -/
def Env.rowsOf (e : Env) (rs : List (Nat × Nat × Nat)) : List Row :=
  rs.flatMap fun (dst, src, n) => (pieces src n).map fun p =>
    if inMem p.1 then { dst := dst + (p.1 - src), src := some p.1, len := p.2 }
    else { dst := dst + (p.1 - src), bytes := (List.range p.2).map fun i => e.chipByte (p.1 + i), len := p.2 }

/-- The physical 128-byte lines of type 1 and 2 that some ranges meet, as far as their pages are mapped. -/
def State.physLines (s : State) (cid : Nat) (rs : List (Nat × Nat)) : List Nat :=
  (memLines rs).filterMap fun l => match translate s cid (128 * l) with
    | .ok p => if p.ty == 1 || p.ty == 2 then some (physKey cid p.ty p.target / 128) else none
    | .error _ => none

/-! ### Running an operation (R254 to R256) -/

/-- The context of an operation. -/
def EngOp.cid (o : EngOp) : Nat := gidCid o.gid

/-- What translation says of one address of an engine (R188, R255, R256, R388): fine, unmapped, or failed. -/
inductive Verdict where
  | ok (key : Nat) | unmapped (va : Nat) | failed (va code : Nat)
  deriving DecidableEq, Repr

def hostOk (c : Ctx) (target : Nat) : Bool :=
  let i := target / 2 ^ 52 % 16
  bitOf (mget c.conns (32 * i + 24)).toNat 0 && target % 2 ^ 52 < mnat c.conns (32 * i + 16) 8

/-- `ctl`: the control core's; `coll`: a collective's, which does not reach host memory (R188). -/
def engineAddr (s : State) (cid : Nat) (ctl coll write : Bool) (va : Nat) : Verdict :=
  match translate s cid va with
  | .error 6 => .unmapped va
  | .error c => .failed va c
  | .ok p =>
    if !(if write then p.w else p.r) then .failed va 7
    else if p.ty == 6 && !(ctl && p.target < 2 ^ 20) then .failed va 7
    else if p.ty == 5 && (coll || !(match tget cid s.ctxs with | some c => hostOk c p.target | none => false)) then .failed va 7
    else .ok (s.keyAt cid p.ty p.target)

/-- The addresses to translate for a range: its first and each 64 KiB page after it, or each byte of a host window. -/
def pageStarts (a n : Nat) : List Nat :=
  if n == 0 then [] else a :: (List.range ((a + n - 1) / 65536 - a / 65536)).map fun i => 65536 * (a / 65536 + i + 1)

/-- Ranges of memory that an operation reads and writes. -/
def Row.ranges (r : Row) : List (Bool × Nat × Nat) :=
  (match r.src with | some a => [(false, a, r.len)] | none => []) ++
  ((pieces r.dst r.len).filter fun p => inMem p.1).map fun p => (true, p.1, p.2)
def memPieces (write : Bool) (a n : Nat) : List (Bool × Nat × Nat) :=
  ((pieces a n).filter fun p => inMem p.1).map fun p => (write, p.1, p.2)
def OpKind.ranges : OpKind → List (Bool × Nat × Nat)
  | .rows rs => rs.flatMap Row.ranges
  | .mcst _ _ _ _ rs => rs.flatMap fun r => match r.src with | some a => [(false, a, r.len)] | none => []
  | .coll c => match c.out with
    | some (_, _, bs) => memPieces true c.dst bs.length
    | none => c.rows.flatMap fun r => match r.src with | some a => [(false, a, r.len)] | none => []
  | .cldx dst src ne ty => memPieces false src (8 + ne / 8) ++ memPieces true dst (ne * (if ty == .b32 then 4 else 2))
  | _ => []

def State.reachOf (s : State) (o : EngOp) (write : Bool) (va : Nat) : Verdict :=
  engineAddr s o.cid (2 ^ 200 ≤ o.gid) (o.engine == .coll) write va
/-- The first of `n` addresses after `a`, on one page, that an engine may not reach. -/
def State.firstBad (s : State) (o : EngOp) (write : Bool) (a : Nat) : Nat → Verdict
  | 0 => s.reachOf o write a
  | n + 1 => match s.reachOf o write a with | .ok _ => State.firstBad s o write (a + 1) n | v => v
/-- The first address at which an operation cannot go on. -/
def State.opCheck (s : State) (o : EngOp) (rs : List (Bool × Nat × Nat)) : Verdict :=
  (rs.findSome? fun r => (pageStarts r.2.1 r.2.2).findSome? fun a =>
    match s.reachOf o r.1 a with
    | .ok _ =>
      -- a host window ends at its length, which need not be a page's end (R388)
      let last := min (r.2.1 + r.2.2) (65536 * (a / 65536) + 65536) - 1
      (match s.reachOf o r.1 last with | .ok _ => none | _ => some (s.firstBad o r.1 a (last - a)))
    | v => some v).getD (.ok 0)

/-- Whether an operation that has been suspended found the page of an address unmapped at its issue (R255). -/
def State.mappedLate (s : State) (o : EngOp) (va : Nat) : Bool :=
  o.opid.isSome && match tget o.cid s.ctxs with
  | some c => match walk o.mem.data va 4 c.f.ptroot with | .error 6 => true | _ => false
  | none => false

/-- A byte of a source that the engine reads: beyond 2^55 what the operation took at issue; host and fabric-remote memory, and a page mapped while the operation was suspended, as they
now are; the rest as the group saw it at issue. -/
def State.srcByte (s : State) (o : EngOp) (va : Nat) : Option Byte :=
  if !inMem va then (o.chip[va - 2 ^ 55]?).getD none else
  match s.reachOf o false va with
  | .ok k =>
    if o.lost.contains (va / 128) then none else
    let img := if keyType k == 5 || keyType k == 7 || s.mappedLate o va then hImage s else o.mem
    if img.poison.contains (k / 64) then none else some (mget img.data k)
  | _ => none

/-- The words of a compressed vector (R248, R250): bytes are given by a reader, absent where damaged. Answers the rows of
dense bytes and the status. -/
def cldxBytes (rd : Nat → Option Byte) (ne : Nat) (ty : Ty) : List (Option Byte) × Nat :=
  let esz := if ty == .b32 then 4 else 2
  let hdr := (List.range 8).map rd
  let nbm := ne / 8
  let bm := (List.range nbm).map fun i => rd (8 + i)
  if hdr.any Option.isNone then (List.replicate (ne * esz) none, 3)
  else
    let h := fun i n => leNat (((hdr.drop i).take n).map fun b => b.getD 0)
    let bits := (List.range ne).map fun i => match (bm[i / 8]?).getD none with
      | some b => some (bitOf b.toNat (i % 8)) | none => none
    let vc := (bits.filter (· == some true)).length
    let bmBad := bm.any Option.isNone
    if h 2 2 != ne || h 4 1 != (match ty with | .f16x2 => 11 | .bf16x2 => 12 | _ => 0) || !bmBad && h 0 2 != vc then ([], 4)
    else
      let r := bits.foldl (fun (acc : List (Option Byte) × Nat × Bool) b =>
        match b with
        | none => (acc.1 ++ List.replicate esz none, acc.2.1, true)
        | some set =>
          if acc.2.2 then (acc.1 ++ List.replicate esz none, acc.2.1, true)
          else if set then
            let bs := (List.range esz).map fun j => rd (8 + nbm + acc.2.1 * esz + j)
            (acc.1 ++ (if bs.any Option.isNone then List.replicate esz none else bs), acc.2.1 + 1, false)
          else (acc.1 ++ List.replicate esz (some 0), acc.2.1, false)) ([], 0, false)
      (r.1, if r.1.any Option.isNone then 3 else 2)

/-- Where the values of a compressed source that begins in memory lie, once its header can be read (R250): none for a header that ends the
copy with FAULT or that is damaged. -/
def State.cldxValues (s : State) (o : EngOp) (src ne : Nat) (ty : Ty) : Nat × Nat :=
  let esz := if ty == .b32 then 4 else 2
  if (cldxBytes (fun i => s.srcByte o (src + i)) ne ty).2 == 4 then (src, 0)
  else match s.srcByte o src, s.srcByte o (src + 1), (List.range 8).all fun i => (s.srcByte o (src + i)).isSome with
    | some a, some b, true => (src + 8 + ne / 8, leNat [a, b] * esz)
    | _, _, _ => (src, 0)
/-- A value byte that R188 and R191 refuse: one beyond 2^55 that the operation could not take at issue. -/
def State.cldxRefused (s : State) (o : EngOp) (src ne : Nat) (ty : Ty) : Bool :=
  let v := s.cldxValues o src ne ty
  v.2 != 0 && 2 ^ 55 + o.chip.length < v.1 + v.2
/-- The ranges of memory that an operation reaches. -/
def State.opRanges (s : State) (o : EngOp) : List (Bool × Nat × Nat) :=
  match o.kind with
  | .cldx _ src ne ty => o.kind.ranges ++ match s.opCheck o (memPieces false src (8 + ne / 8)) with
    | .ok _ => let v := s.cldxValues o src ne ty; memPieces false v.1 v.2
    | _ => []
  | k => k.ranges

/-- One byte written by an engine: to team data by offset, or to memory by physical key. -/
structure Put where
  chip : Bool
  at' : Nat
  v : Option Byte
  deriving DecidableEq, Repr

def State.putAt (s : State) (o : EngOp) (va : Nat) (v : Option Byte) : List Put :=
  if inMem va then match s.reachOf o true va with
    | .ok k => [{ chip := false, at' := k, v := v }]
    | _ => []
  else [{ chip := true, at' := va % 2 ^ 19, v := v }]

/-- Writes with their poison: a unit touched by damaged data is poisoned, one covered by good data is clean (R254). -/
def putsToW (ps : List Put) : MemW :=
  let b := toverlay [] (ps.map fun p => (p.at', p.v.getD 0))
  let bad := (ps.filter fun p => p.v.isNone).foldl (fun l p => nins (p.at' / 64) l) []
  let good := (wholeUnits (tkeys b)).filter fun u => !bad.contains u
  { b := b, p := toverlay (toverlay [] (good.map fun u => (u, false))) (bad.map fun u => (u, true)) }

/-- The bytes a row writes. -/
def State.rowPuts (s : State) (o : EngOp) (r : Row) : List Put :=
  match r.src with
  | some a => (List.range r.len).flatMap fun i => s.putAt o (r.dst + i) (s.srcByte o (a + i))
  | none => r.bytes.zipIdx.flatMap fun x => s.putAt o (r.dst + x.2) (if o.lost.contains ((r.dst + x.2) / 128) then none else x.1)

/-! ### The fork (R228, R240) -/

/-- The physical lines of an operation's ranges: of the pages mapped at its issue (`late` false), or of those mapped while it was
suspended. -/
def State.linesAt (s : State) (o : EngOp) (late : Bool) (rs : List (Nat × Nat)) : List Nat :=
  s.physLines o.cid (if late then (memLines rs).filterMap fun l => if s.mappedLate o (128 * l) then some (128 * l, 128) else none else rs)
/-- Lines that a team's copies have read in the interval (R227). -/
def State.noteReads (s : State) (tid : Nat) (lines : List Nat) : State :=
  s.modT tid fun t => { t with linesRead := nunion t.linesRead lines }
/-- The ranges that an operation reads or writes for its team. A collective's source is read whatever follows its step; what an MCST writes was
read by its cluster's root (R247). -/
def State.rangesOf (s : State) (o : EngOp) (write : Bool) : List (Nat × Nat) :=
  if o.copied && !write then []
  else match o.kind with
    | .coll c => if write then (o.kind.ranges.filter (·.1)).map (·.2) else c.rows.filterMap fun r => r.src.map fun a => (a, r.len)
    | _ => ((s.opRanges o).filter fun r => r.1 == write).map (·.2)
/-- The physical lines that it reads, as far as they are known and mapped now. -/
def State.readLines (s : State) (o : EngOp) : List Nat := s.physLines o.cid (s.rangesOf o false)
/-- An operation with the lines of its reads that can be noted at issue. -/
def State.noting (s : State) (o : EngOp) : EngOp :=
  if 2 ^ 200 ≤ o.gid then o else { o with noted := nunion o.noted (s.readLines o) }
/-- An operation's reads, and its writes under `.priv`, enter the check of R227: at issue the lines of the pages mapped then, as far as they
were known, at its end those that it has read besides, and those that it has written on pages mapped while it was suspended. -/
def State.markLines (s : State) (o : EngOp) (late : Bool) : State :=
  if 2 ^ 200 ≤ o.gid then s
  else
    (s.noteReads (gidTid o.gid) (if late then nminus (s.readLines o) o.noted else o.noted)).modT (gidTid o.gid) fun t => { t with
      privMarks := if o.priv then nunion t.privMarks (s.linesAt o late (s.rangesOf o true)) else t.privMarks }

/-- The TCU of a group's core holds 64 operations (R262). -/
def State.tcuFull (s : State) (gid : Nat) : Bool :=
  let core := fun gid => (s.quadrant gid).map (·.1)
  64 ≤ (s.ops.filter fun o => o.2.engine == .tcu && !o.2.isDone &&
    o.2.want.isNone && (o.2.gid == gid || (core gid).isSome && core o.2.gid == core gid)).length
def Env.tcuFull (e : Env) : Bool := e.s.tcuFull e.gid

/-- An operation is forked: its slot is reserved, its lines are held, its quota is charged. -/
def Env.fork (e : Env) (s : State) (sp : Spec) (lines : List Nat) (op : EngOp) : State :=
  let id := s.nextOp
  let slot := match tget sp.q ((tget e.tid s.teams).getD e.team).queues with
    | some x => if sp.mode == 0 then some (sp.q, x.fillSeq) else none
    | none => none
  let op := { op with gid := e.gid, slices := if e.g.isCtl then 1 else e.sub.mask, mode := sp.mode, slot := slot,
                      phase := e.g.arrivals, lines := lines, pc := e.pc }
  let op := s.noting op
  let s := { s with ops := tput id op s.ops, nextOp := id + 1 }.markLines op false
  if sp.mode == 0 then s.modT e.tid fun t => t.modQ sp.q fun x => x.reserve 1 op.handle.toNat op.decl (some id)
  else s

/-- Host memory and fabric-remote memory lie outside the ladder (R226, R394). -/
def outerKey (k : Nat) : Bool := keyType k == 5 || keyType k == 7
/-- Writes apart: those inside the ladder, and those outside it. -/
def MemW.keep (w : MemW) (p : Nat → Bool) : MemW := { b := w.b.filter fun c => p c.1, p := w.p.filter fun u => p (64 * u.1) }
def MemW.inner (w : MemW) : MemW := w.keep fun k => !outerKey k
def MemW.outer (w : MemW) : MemW := w.keep outerKey

/-- A flit leaves with this module's id and its next sequence number (R393). -/
def State.sendFlit (s : State) (f : FlitData) : State := { s with flitSeq := s.flitSeq + 1 }.report (.flit s.moduleId s.flitSeq f)
/-- The bytes of a write to remote memory in flits: runs of at most 240 bytes, by type-7 target address (R393, R394). -/
def remoteRuns (cs : List Host.Cell) : List (Nat × List Byte) :=
  ((cs.filter fun c => keyType c.1 == 7).foldl (fun (l : List (Nat × List Byte)) c => match l with
    | (a, bs) :: rest => if a + bs.length == c.1 % 2 ^ 56 && bs.length < 240 then (a, c.2 :: bs) :: rest else (c.1 % 2 ^ 56, [c.2]) :: l
    | [] => [(c.1 % 2 ^ 56, [c.2])]) []).reverse.map fun x => (x.1, x.2.reverse)

def Ctx.entry (c : Ctx) (i : Nat) : CEntry := (tget i c.ctable).getD {}
def CEntry.rb (c : CEntry) : Nat := mnat c.bytes 4 4
def CEntry.rn (c : CEntry) : Nat := mnat c.bytes 8 4
/-- Whether this module holds a rank (R257). -/
def CEntry.holds (c : CEntry) (rank : Nat) : Bool := c.rb ≤ rank && rank < c.rb + c.rn
/-- Whether a step has yet to complete at a participant on this module: one that has not withdrawn from it (R257, R260). -/
def CEntry.owes (c : CEntry) (step : Nat) (ps : List Part) : Bool :=
  (List.range c.rn).any fun i => !(ps.any fun p => p.rank == c.rb + i && p.withdrawn) && !(c.gone.any fun y => y.1 == c.rb + i && y.2 ≤ step)
/-- The entry is busy while a step that a participant on this module has begun has not completed at all of them (R257). A withdrawal completes
at once (R260): it keeps the entry busy for the other participants of its grid alone. -/
def State.collBusy (s : State) (cid entry : Nat) : State :=
  s.modC cid fun c =>
    let x := c.entry entry
    let left := s.ops.any fun o => match o.2.kind with
      | .coll k => o.2.cid == cid && k.entry == entry && !o.2.isDone | _ => false
    let uses := s.teams.any fun t => lidCtx (tidLid t.1) == cid && (tget entry t.2.collSteps).isSome
    let inStep := x.steps.any fun y => y.2.any fun p => x.holds p.rank && (!p.withdrawn || uses && x.owes y.1 y.2)
    { c with ctable := tput entry { x with busy := left || inStep } c.ctable }

/-- An operation ends with a status: its writes stand, or are discarded with FAULT (R255, R256). Those outside the ladder reach their
memory now, remote memory by flits (R393, R394, entry 53); a COLL that ends may leave its entry free (R257). -/
def State.endOp (s : State) (id : Nat) (o : EngOp) (ps : List Put) (status : Nat) (count : Option Nat) : State :=
  let keep := status != 4
  let o' := { o with state := .done status,
                     team := (if keep then putsToW (ps.filter (·.chip)) else {}).andThen o.head,
                     writes := if keep then (putsToW (ps.filter (!·.chip))).inner else {} }
  let s := if keep then s.markLines o true else s
  let out := (putsToW (ps.filter fun p => !p.chip && outerKey p.at')).outer
  let s := if keep && out.b != [] then (remoteRuns out.b).foldl (fun s r => s.sendFlit (.remote r.1 r.2)) (s.hWrite out) else s
  let s := { s with ops := tput id o' s.ops }.fillSlot (gidTid o.gid) o.slot status count
  match o.kind with
  | .coll c => s.collBusy o.cid c.entry
  | _ => s

end Sys2Proof.Machine
end

