-- ==== Sys2Proof/Machine/Copies.lean ====
section
/-! DEFINITION. The copy words, bulk jobs and collectives, and the events of their engines (chapter "Memories continued: tile
copies, bulk engines and collectives", R236 to R262). -/

namespace Sys2Proof.Machine

/-! ### Common form (R237 to R240) -/

/-- The values of D, A and the registers of the parameter block that a word reads (R237, R238). -/
def Env.params (e : Env) (f : RWord) (scalars : List Opd) (block : List Nat) : Chk (Nat → Nat) := do
  let v ← e.agreed f.k (scalars ++ block.map (Opd.plus f.c ·))
  return fun i => (v[i]?).getD 0

/-- `.priv` asks for a destination in the memory half, every byte of it (R237). -/
def privOk (priv : Bool) (dsts : List (Nat × Nat)) : Chk Unit :=
  guardC (!priv || dsts.all fun d => inMem d.1 && (pieces d.1 d.2).all fun p => inMem p.1) (flt 0x01)

/-- The last steps of R239 and the fork, for a word that moves rows (destination, source, length). -/
def Env.copyRun (e : Env) (sp : Spec) (rs : List (Nat × Nat × Nat)) (decl handle : Nat) (priv : Bool) : Chk Res := do
  let srcs := rs.map fun r => r.2
  let dsts := rs.map fun r => (r.1, r.2.2)
  e.chipChecks sp srcs dsts
  let (lines, t) ← e.supply dsts 0
  if e.slotBusy sp then return .park (.slotFree sp.q) e.s
  if e.tcuFull then return .park .tcuFull e.s
  let op : EngOp := { gid := e.gid, slices := 0, kind := .rows (e.rowsOf rs), mode := sp.mode, decl := decl,
                      handle := BitVec.ofNat 64 handle, mem := e.memImage, priv := priv }
  let s := e.fork (e.s.putT e.tid t) sp lines op
  if decl == 0 then
    match tget e.s.nextOp s.ops with
    | some o => return .ok (s.endOp e.s.nextOp o [] 2 none)
    | none => return .ok s
  else return .ok s

def hasPriv (f : RWord) : Bool := bitOf f.lo.val 4

def execCpy (f : RWord) (s : State) : Host.Outcome State Fault Refusal :=
  onceWord (.cpy f) (fun e => do
    let v ← e.params f [f.d, f.a] [0, 1, 2, 3]
    let nx := fld (v 2) 0 32; let ny := fld (v 2) 32 16; let nz := fld (v 2) 48 16
    let rs := (List.range nz).flatMap fun (z : Nat) => (List.range ny).filterMap fun (y : Nat) =>
      if nx == 0 then none else
      let src := ofInt 64 ((v 1 : Int) + (z : Int) * sgn 32 (v 3 / 2 ^ 32) + (y : Int) * sgn 32 (low 32 (v 3)))
      let dst := ofInt 64 ((v 0 : Int) + (z : Int) * sgn 32 (v 4 / 2 ^ 32) + (y : Int) * sgn 32 (low 32 (v 4)))
      some (dst, src, nx)
    privOk (hasPriv f) ((v 0, nx) :: rs.map fun r => (r.1, r.2.2))
    let sp ← e.spec (v 5) [0, 1]
    e.copyRun sp rs (nx * ny * nz) (v 0) (hasPriv f)) s

/-- The rows of GTHR and SCTR (R243). -/
def Env.laneRows (e : Env) (f : RWord) (v : Nat → Nat) (gather : Bool) : List (Nat × Nat × Nat) :=
  (e.execLanes f.k).map fun l =>
    let indexed := fun base => low 64 (base + e.rd32 l f.b * v 3)
    let byLane := fun base => ofInt 64 ((base : Int) + l * sgn 64 (v 4))
    if gather then (byLane (v 0), indexed (v 1), v 2) else (indexed (v 0), byLane (v 1), v 2)

def Env.laneCopy (e : Env) (f : RWord) (gather : Bool) : Chk Res := do
  let v ← e.params f [f.d, f.a] [0, 1, 2, 3]
  guardC (v 2 ≤ 2 ^ 20) (flt 0x01)
  let rs := e.laneRows f v gather
  privOk (hasPriv f) (rs.map fun r => (r.1, r.2.2))
  let sp ← e.spec (v 5) [0, 1]
  e.copyRun sp (rs.filter fun r => r.2.2 != 0) rs.length (v 0) (hasPriv f)

def execGthr (f : RWord) (s : State) : Host.Outcome State Fault Refusal :=
  onceWord (.gthr f) (fun e => e.laneCopy f true) s
def execSctr (f : RWord) (s : State) : Host.Outcome State Fault Refusal :=
  onceWord (.sctr f) (fun e => e.laneCopy f false) s

/-! ### Combining copies (R245, R27) -/

/-- A fetch outside a team's first round needs a co-resident grid (R27). -/
def Env.fetchOk (e : Env) : Chk Unit := guardC (e.lch.lr.coop || e.team.nrounds == 0) (flt 0x12)

/-- The physical key of a word that must translate, readable and writable, to type 1 or 2 (R245). -/
def Env.wordKey (e : Env) (lane a : Nat) : Chk Nat :=
  let f := fun c => { code := c, lane := lane, addr := a : Flt }
  if 2 ^ 56 ≤ a then .error (f 6)
  else if !inMem a then (match e.window a with | .error c => .error (f c) | .ok _ => .error (f 7))
  else match translate e.s e.cid a with
    | .error c => .error (f c)
    | .ok p => if (p.ty == 1 || p.ty == 2) && p.r && p.w then .ok (physKey e.cid p.ty p.target) else .error (f 7)

/-- A token-applied word's slot, or the phase it holds open: answers the slot and the operation that stands for it. -/
def Env.tokenSlot (e : Env) (s : State) (sp : Spec) (handle decl : Nat) : State × Option (Nat × W32) × Option Nat :=
  if sp.mode == 0 then
    match tget sp.q e.team.queues with
    | some x => (s.modT e.tid fun t => t.modQ sp.q fun x => x.reserve 1 handle decl none, some (sp.q, x.fillSeq), none)
    | none => (s, none, none)
  else if sp.mode == 1 then
    let id := s.nextOp
    (e.fork s sp [] { gid := e.gid, slices := 0, kind := .token, engine := .round, mode := 1, decl := 0 }, none, some id)
  else (s, none, none)

/-- CPYC at issue (R245). Where the addresses of several lanes fail, the lowest such lane gives the code, 0x06 or 0x07 (entry 24). -/
def execCpyc (f : RWord) (s : State) : Host.Outcome State Fault Refusal :=
  onceWord (.cpyc f) (fun e => do
    let fetch := bitOf f.lo.val 2
    let w := f.ty.bits / 8
    let v ← e.params f [f.d] [3]
    let sp ← e.spec (v 1) (if fetch then [0] else [0, 1, 15])
    match e.nextSlot sp with
    | some (x, _) => guardC (!fetch || 32 * w ≤ x.slotBytes) flt0B
    | none => pure ()
    let lanes := e.execLanes f.k
    let addr := fun l => low 64 (v 0 + (match f.b with | .v n => e.g.vr n l * w | _ => 0))
    match lanes.find? fun l => addr l % w != 0 with
    | some l => throw { code := 0x04, lane := l, addr := addr l }
    | none => pure ()
    let keys ← lanes.mapM fun l => e.wordKey l (addr l)
    match e.team.charge e.lch.lr.dquota (memLines (lanes.map fun l => (addr l, w))) 0 with
    | none => throw (flt 0x09)
    | some t =>
      if fetch then e.fetchOk
      if e.slotBusy sp then return .park (.slotFree sp.q) e.s
      if e.tcuFull then return .park .tcuFull e.s
      let second := Opd.plus f.a (if f.ty.bits == 64 then 2 else 1)
      let ls := (lanes.zip keys).map fun x => (x.1, x.2, BitVec.ofNat 64 (e.rd f.ty x.1 f.a), BitVec.ofNat 64 (e.rd f.ty x.1 second))
      let handle := match e.nextSlot sp with | some (_, a) => if fetch then a else 0 | none => 0
      let (s, slot, hold) := e.tokenSlot (e.s.putT e.tid t) sp handle (if fetch then 32 * w else 0)
      return .ok (s.modT e.tid fun t => { t with
        toks := t.toks ++ [(gidG e.gid, .cpyc ls f.m f.ty f.sat fetch slot hold)] })) s

/-! ### Multicast (R247) -/

def Env.clusterTeams (e : Env) : List Nat :=
  let n := e.lch.lr.clusterN
  (List.range n).map fun m => tidOf e.lid (e.team.team / n * n + m)
def State.roots (s : State) (tid : Nat) : List Nat := match tget tid s.teams with | some t => t.mcstRoots | none => []

/-- Rows cut to the first n bytes and moved to a destination. -/
def cutRows (dst n : Nat) (rs : List Row) : List Row :=
  rs.filterMap fun r => if n ≤ r.dst then none else
    some { r with dst := dst + r.dst, len := min r.len (n - r.dst), bytes := r.bytes.take (n - r.dst) }

/-- When every member's k-th MCST has issued, each member's operation receives the root's bytes (R247). -/
def State.mcstPair (s : State) (tids : List Nat) (k : Nat) : State :=
  if tids.any fun t => (s.roots t).length ≤ k then s
  else
    let mine := fun t => s.ops.find? fun o => gidTid o.2.gid == t && (match o.2.kind with | .mcst _ _ j _ _ => j == k | _ => false)
    let root := ((s.roots (tids.headD 0))[k]?).getD 0
    match mine ((tids[root]?).getD 0) with
    | none => s
    | some ro => match ro.2.kind with
      | .mcst _ len _ _ rows => tids.foldl (fun s t => match mine t with
        | some (id, o) => match o.kind with
          | .mcst _ own _ dst _ =>
            let o' := { o with kind := .rows (cutRows dst (min len own) rows), mem := ro.2.mem, copied := id != ro.1,
                               result := if own < len then 5 else 2, decl := if len < own then len else own }
            { s with ops := tput id o' s.ops }
          | _ => s
        | none => s) s
      | _ => s

/-- Whether a member's k-th MCST is still to be compared: the member with the lowest index has not issued its own and still can. -/
def State.lowestWaits (s : State) (low k : Nat) : Bool :=
  (s.roots low).length ≤ k && match tget low s.teams with | some t => !t.retired | none => true

/-- How long an MCST waits, before any effect, to be compared. A member whose root differs takes 0x0B at its word, which then has had no effect
(R247), so the word is held back; but R247 parks the root alone and lets the lowest member issue later, so it is not held back for ever:
4,096 cycles, a time value (R11, entry 47). -/
def mcstWait : Nat := 4096
def Env.mcstHeld (e : Env) (since : Nat) : Bool := (e.s.cycle - BitVec.ofNat 64 since).toNat < mcstWait

/-! A member that went on uncompared is compared when the lowest issues (entry 47). -/

/-- A slot given back: the last reservation of its queue is undone, an earlier one completes with FAULT, since slots fill in order (R269). -/
def State.giveBack (s : State) (tid : Nat) (slot : Option (Nat × W32)) : State :=
  match slot, tget tid s.teams with
  | some (q, seq), some t => match tget q t.queues with
    | some x =>
      if x.fillSeq == seq + 1 then s.modT tid fun t => t.modQ q fun x =>
        { x.modDesc (x.slotOf seq) (fun _ => {}) with fillSeq := seq, allow := x.allow + 1 }
      else s.fillSlot tid slot 4 none
    | none => s
  | _, _ => s
/-- The fault 0x0B of an MCST that has issued: FPC is the word, and the sub-gang stays where it stands; one whose group has halted takes it at its
next phase park. -/
def State.mcstFault (s : State) (gid : Nat) (pc : W64) : State :=
  match tget gid s.groups with
  | none => s
  | some g =>
    if g.halted then s.putG gid { g with owed := some 0x0B }
    else match (g.subs.find? fun x => x.mask &&& g.liveMask != 0).orElse fun _ => g.subs.head? with
      | some x => faultGroup s gid x.mask { code := 0x0B, slice := lowest x.mask, fpc := pc, rpc := g.pcOf x.mask }
      | none => s
/-- The MCSTs of a team after its k-th, one place up: in its operations, and where a root is parked. -/
def State.mcstShift (s : State) (tid k : Nat) : State :=
  { (s.modT tid fun t => { t with mcstRoots := t.mcstRoots.eraseIdx k }).modGroups tid fun _ g => { g with subs := g.subs.map fun x =>
      match x.park with | .mcst j => if k < j then { x with park := .mcst (j - 1) } else x | _ => x } with
    ops := s.ops.map fun (x : Nat × EngOp) => match x.2.kind with
      | .mcst r len j d rows => if gidTid x.2.gid == tid && k < j then (x.1, { x.2 with kind := .mcst r len (j - 1) d rows }) else x
      | _ => x }
/-- A member's k-th MCST that names another root than the lowest member's has no effect (R247): its operation goes, the member's later MCSTs move
up one place and are compared in their turn, and its group takes 0x0B. -/
def State.mcstRefuse (s : State) (tid k root : Nat) : Nat → State
  | 0 => s
  | n + 1 =>
    match s.ops.find? fun o => gidTid o.2.gid == tid && !o.2.isDone &&
        (match o.2.kind with | .mcst r _ j _ _ => j == k && r != root | _ => false) with
    | none => s
    | some (id, o) => (({ s with ops := tdel id s.ops }.giveBack tid o.slot).mcstShift tid k).mcstFault o.gid o.pc |>.mcstRefuse tid k root n

/-- MCST (R247). Bits 63:2 of s(c) and 63:32 of s(c + 1), which have no field, are ignored (entry 24). -/
def execMcst (f : RWord) (s : State) : Host.Outcome State Fault Refusal :=
  onceWord (.mcst f) (fun e => do
    let n := e.lch.lr.clusterN
    let tids := e.clusterTeams
    let me := e.team.team % n
    let open' := fun (s : State) k => tids.any fun t => (s.roots t).length ≤ k
    match e.sub.park with
    | .mcst k => return if open' e.s k then .park (.mcst k) e.s else .ok e.s
    | _ => pure ()
    let v ← e.params f [f.d, f.a] [0, 1, 3]
    let root := fld (v 2) 0 2
    let len := low 32 (v 3)
    guardC (root < n || n == 1) (flt 0x01)
    let k := e.team.mcstRoots.length
    let sp ← e.spec (v 4) [0, 1]
    let dsts := if len == 0 then [] else [(v 0, len)]
    guardC (dsts.all fun d => !inMem d.1) { code := 0x07, addr := v 0 }
    e.chipChecks sp (if me == root && len != 0 then [(v 1, len)] else []) dsts
    guardC (dsts.all fun d => (d.1 - 2 ^ 55) / 2 ^ 19 == e.team.team) { code := 0x07, addr := v 0 }
    let (lines, t) ← e.supply dsts 0
    guardC (n == 2 || n == 4) (flt 0x07)
    guardC (((e.s.roots (tids.headD 0))[k]?).all fun r => me == 0 || r == root) flt0B
    let since := match e.sub.park with | .mcstLow n => n | _ => e.s.cycle.toNat
    if me != 0 && e.mcstHeld since && e.s.lowestWaits (tids.headD 0) k then return .park (.mcstLow since) e.s
    if e.slotBusy sp then return .park (.slotFree sp.q) e.s
    if e.tcuFull then return .park .tcuFull e.s
    let rows := if me == root && len != 0 then e.rowsOf [(0, v 1, len)] else []
    let op : EngOp := { gid := e.gid, slices := 0, kind := .mcst root len k (v 0) rows, mode := sp.mode, decl := len,
                        handle := BitVec.ofNat 64 (v 0), mem := e.memImage }
    let s := e.fork (e.s.putT e.tid { t with mcstRoots := t.mcstRoots ++ [root] }) sp lines op
    let s := (if me == 0 then tids.tail.foldl (fun s t => s.mcstRefuse t k root ((s.roots t).length + 1)) s else s).mcstPair tids k
    if me == root && open' s k then return .park (.mcst k) s
    return .ok s) s

/-! ### Compressed vectors (R248 to R250) -/

/-- The elements of N registers, with whether each is kept, and their size (R248, R249). -/
def Env.cstoElems (e : Env) (f : RWord) : Nat × List (Bool × Nat) :=
  let n := f.m.val + 1
  let ex := e.exec f.k
  let reg := fun i => match Opd.plus f.a i with | .v r => r.val | _ => 0
  if f.ty == .b32 then
    (4, (List.range (32 * n)).map fun i =>
      let x := e.g.vr (reg (i / 32)) (i % 32)
      (bitOf ex (i % 32) && x != 0, x))
  else
    (2, (List.range (64 * n)).map fun i =>
      let l := i % 64 / 2
      let x := fld (e.g.vr (reg (i / 64)) l) (16 * (i % 2)) 16
      (bitOf ex l && x != 0, x))

/-- The compressed layout of R248. -/
def cstoBytes (ty : Ty) (esz : Nat) (el : List (Bool × Nat)) : List Byte :=
  let kept := el.filter (·.1)
  leBytes 2 kept.length ++ leBytes 2 el.length ++ leBytes 1 (match ty with | .f16x2 => 11 | .bf16x2 => 12 | _ => 0) ++ leBytes 3 0 ++
  ((List.range (el.length / 8)).map fun i => BitVec.ofNat 8 ((List.range 8).foldl (fun x j =>
    if (((el[8 * i + j]?).getD (false, 0)).1) then x + 2 ^ j else x) 0)) ++
  kept.flatMap fun x => leBytes esz x.2

/-- A word whose bytes to write are known at issue. -/
def Env.bytesRun (e : Env) (sp : Spec) (dst : Nat) (bs : List (Option Byte)) (status : Nat) (priv : Bool) : Chk Res := do
  let (lines, t) ← e.supply [(dst, bs.length)] 0
  if e.slotBusy sp then return .park (.slotFree sp.q) e.s
  if e.tcuFull then return .park .tcuFull e.s
  let op : EngOp := { gid := e.gid, slices := 0, kind := .rows [{ dst := dst, bytes := bs, len := bs.length }], mode := sp.mode,
                      decl := bs.length, handle := BitVec.ofNat 64 dst, result := status, priv := priv }
  return .ok (e.fork (e.s.putT e.tid t) sp lines op)

/-- CSTO (R249). Step 6 of R239 checks all LEN bytes, those beyond the reservation too, so 0x06, 0x07 and 0x0B come before 0x0D (entry
24). -/
def execCsto (f : RWord) (s : State) : Host.Outcome State Fault Refusal :=
  onceWord (.csto f) (fun e => do
    let v ← e.params f [f.d] [1, 3]
    guardC (v 1 < 2 ^ 32) (flt 0x01)
    let (esz, el) := e.cstoElems f
    let bs := cstoBytes f.ty esz el
    privOk (hasPriv f) [(v 0, bs.length)]
    let sp ← e.spec (v 2) [0, 1]
    guardC (v 0 % 8 == 0) { code := 0x04, addr := v 0 }
    e.chipChecks sp [] [(v 0, bs.length)]
    guardC (bs.length ≤ v 1) { code := 0x0D, arg := bs.length, addr := v 0 }
    e.bytesRun sp (v 0) (bs.map some) 2 (hasPriv f)) s

/-- How many bytes from 2^55 up a copy of this sub-gang may read, at most `n`. -/
def Env.chipReach (e : Env) (sp : Spec) (n : Nat) : Nat :=
  match e.chipRange false ((e.nextSlot sp).map fun x => (x.2, x.1.slotBytes)) (2 ^ 55) n with
  | .ok _ => n
  | .error f => f.addr - 2 ^ 55

/-- CLDX (R250). A source that begins in memory and runs past 2^55 takes its bytes there at issue, as far as a copy may read them. -/
def execCldx (f : RWord) (s : State) : Host.Outcome State Fault Refusal :=
  onceWord (.cldx f) (fun e => do
    let esz := if f.ty == .b32 then 4 else 2
    let ne := (if f.ty == .b32 then 32 else 64) * (f.m.val + 1)
    let v ← e.params f [f.d, f.a] [3]
    let sp ← e.spec (v 2) [0, 1]
    guardC (v 0 % esz == 0) { code := 0x04, addr := v 0 }
    guardC (v 1 % 8 == 0) { code := 0x04, addr := v 1 }
    e.chipChecks sp [(v 1, 8 + ne / 8)] [(v 0, ne * esz)]
    if inMem (v 1) then
      let (lines, t) ← e.supply [(v 0, ne * esz)] 0
      if e.slotBusy sp then return .park (.slotFree sp.q) e.s
      if e.tcuFull then return .park .tcuFull e.s
      let most := v 1 + 8 + ne / 8 + ne * esz - 2 ^ 55
      let past := if most == 0 then 0 else e.chipReach sp most
      let op : EngOp := { gid := e.gid, slices := 0, kind := .cldx (v 0) (v 1) ne f.ty, mode := sp.mode, decl := ne * esz,
                          handle := BitVec.ofNat 64 (v 0), mem := e.memImage,
                          chip := (List.range past).map fun i => e.chipByte (2 ^ 55 + i) }
      return .ok (e.fork (e.s.putT e.tid t) sp lines op)
    else
      let (bs, st) := cldxBytes (fun i => e.chipByte (v 1 + i)) ne f.ty
      -- the value bytes, checked when the engine reads them (R250)
      let vals := match e.chipByte (v 1), e.chipByte (v 1 + 1) with
        | some a, some b => leNat [a, b] * esz | _, _ => 0
      let refused := st != 4 && vals != 0 && (match e.chipChecks sp [(v 1 + 8 + ne / 8, vals)] [] with | .error _ => true | .ok _ => false)
      if st == 4 || refused then e.bytesRun sp (v 0) (List.replicate (ne * esz) (some 0)) 4 false
      else e.bytesRun sp (v 0) bs st false) s

def execPfch (f : RWord) (s : State) : Host.Outcome State Fault Refusal :=
  onceWord (.pfch f) (fun e => do
    let v ← e.params f [f.a] [0, 3]
    guardC (v 1 ≤ 2 ^ 32) (flt 0x01)
    let sp ← e.spec (v 2) [0, 1, 15]
    if e.slotBusy sp then return .park (.slotFree sp.q) e.s
    if e.tcuFull then return .park .tcuFull e.s
    return .ok (e.fork e.s sp [] { gid := e.gid, slices := 0, kind := .pfch (v 0) (v 1), mode := sp.mode, decl := 0,
                                   handle := BitVec.ofNat 64 (v 0) })) s

/-! ### Bulk jobs (R252, R253) -/

/-- 64 KiB chunks of a job, aligned to the destination address. -/
def chunksOf (dst n : Nat) : Nat := if n == 0 then 0 else (dst + n - 1) / 65536 + 1 - dst / 65536

/-- The core whose die takes a group's bulk jobs; a control core, four to a die, stands for one of its die (entry 48). -/
def Env.core0 (e : Env) : Nat := if e.g.isCtl then 144 * (e.ctx.f.ccore / 4) + e.ctx.f.ccore % 4 else e.pcore
/-- A job's chunks enter the queue of one of the die's eight bulk engines, chosen by the core's position: its number modulo 8 (R252, entry
48). -/
def State.queueJob (s : State) (core id chunks : Nat) : State :=
  let k := 8 * (core / 144) + core % 8
  if chunks == 0 then s else { s with bces := tput k ((tget k s.bces).getD [] ++ [(id, chunks)]) s.bces }
/-- A chunk is taken from a queue. -/
def takeChunk (id : Nat) : List (Nat × Nat) → List (Nat × Nat)
  | [] => []
  | (j, n) :: l => if j == id then (if n ≤ 1 then l else (j, n - 1) :: l) else (j, n) :: takeChunk id l
/-- The chunks of a queue. -/
def queueChunks (l : List (Nat × Nat)) : Nat := (l.map (·.2)).sum
/-- An engine whose queue is empty takes a chunk from the tail of the fullest queue on its die (R252). -/
def State.stealChunk (s : State) (k : Nat) : State :=
  if ((tget k s.bces).getD []) != [] then s
  else
    let mine := s.bces.filter fun q => q.1 / 8 == k / 8
    match mine.foldl (fun (m : Option (Nat × List (Nat × Nat))) q => match m with
        | some x => if queueChunks x.2 < queueChunks q.2 then some q else m
        | none => some q) none with
    | some (j, l) => match l.getLast? with
      | some (id, n) => if queueChunks l < 2 then s else
        { s with bces := tput k [(id, 1)] (tput j (l.dropLast ++ if n ≤ 1 then [] else [(id, n - 1)]) s.bces) }
      | none => s
    | none => s

/-- BULK (R252). A job of 0 bytes moves none, so no address of it is checked: a scratchpad operand then raises no 0x07 (entry 24). -/
def execBulk (f : RWord) (s : State) : Host.Outcome State Fault Refusal :=
  onceWord (.bulk f) (fun e => do
    let v ← e.params f [f.d, f.a] [0, 3]
    let n := v 2
    guardC (n ≤ 2 ^ 40) (flt 0x01)
    privOk (hasPriv f) [(v 0, n)]
    let sp ← if e.g.isCtl then (if v 3 == 0xF0 then Except.ok ({ mode := 15, q := 0 } : Spec) else .error flt0B)
      else e.spec (v 3) [0, 1, 15]
    let ends := if n == 0 then [] else [v 0, v 1, v 0 + n - 1, v 1 + n - 1]
    match ends.find? fun a => 2 ^ 56 ≤ a with
    | some a => throw { code := 0x06, addr := a }
    | none => match ends.find? fun a => !inMem a with
      | some a => throw { code := 0x07, addr := a }
      | none => pure ()
    let rows := if n == 0 then [] else e.rowsOf [(v 0, v 1, n)]
    let op : EngOp := { gid := e.gid, slices := 0, kind := .rows rows, mode := sp.mode, decl := n, handle := BitVec.ofNat 64 (v 0),
                        mem := e.memImage, priv := hasPriv f, engine := .bce, chunks := chunksOf (v 0) n }
    let id := e.s.nextOp
    let finish := fun (s : State) => if n == 0 then (match tget id s.ops with
      | some o => s.endOp id o [] 2 none | none => s) else s.queueJob e.core0 id op.chunks
    if e.g.isCtl then return .ok (finish (e.fork e.s sp [] op))
    else
      let dsts := if n == 0 then [] else [(v 0, n)]
      let (lines, t) ← e.supply dsts 0
      if e.slotBusy sp then return .park (.slotFree sp.q) e.s
      return .ok (finish (e.fork (e.s.putT e.tid t) sp lines op))) s

/-! ### Collectives (R257 to R261) -/

def CEntry.np (c : CEntry) : Nat := mnat c.bytes 0 4
def CEntry.valid (c : CEntry) : Bool := bitOf (c.byte 20).toNat 0

/-- Bytes of an element of a collective. -/
def Ty.collBytes (ty : Ty) : Nat := ty.ebits / 8

/-- Bytes that a participant receives (R258). -/
def collLen (op np count esz root rank : Nat) : Nat :=
  match op with
  | 0 | 2 => count * esz
  | 1 => if root == rank then count * esz else 0
  | 3 => np * count * esz
  | _ => 0

/-- Whether a contribution is of a team that has left the entry already: its engine had been held up (R255). The operation tells it of a team on
this module; a team of another one that has left brings only earlier steps, and a new team begins with step 0 (R258, entry 25). -/
def State.collLate (s : State) (entry step : Nat) (p : Part) (mark : Nat) : Bool :=
  match p.opid.bind fun id => tget id s.ops with
  | some o => match tget (gidTid o.gid) s.teams with | some t => t.withdrawn.contains entry | none => false
  | none => 0 < step && step < mark
/-- A contribution enters its step (R258 to R260). An entry is busy only for a COLL issued on this module (R257). `.leave` marks its rank
from the next step on; a rank whose new team contributes is marked no more (R236, entry 25). -/
def State.collPart (s : State) (cid entry step : Nat) (p : Part) : State :=
  s.modC cid fun c =>
    let x := c.entry entry
    let ps := ((tget step x.steps).getD []).filter fun q => q.rank != p.rank
    { c with ctable := tput entry { x with busy := x.busy || x.holds p.rank, steps := tput step (ps ++ [p]) x.steps,
                                           gone := (x.gone.filter fun y => y.1 != p.rank || s.collLate entry step p y.2) ++
                                             if p.op == 5 && p.withdrawn then [(p.rank, step + 1)] else [] } c.ctable }

/-- A list in runs of at most `k`. -/
def runs {α : Type} (k : Nat) (l : List α) : List (List α) := (List.range ((l.length + k - 1) / max k 1)).map fun i => (l.drop (k * i)).take k
/-- The flits that bring a contribution to the other modules' participants (R393, R395): the first says what it is, reduction flits
carry 15 wire values each, and the bytes of a contribution that is not summed go 240 to a flit. -/
def Part.flits (p : Part) : List CollMsg :=
  if p.withdrawn then [.withdraw (p.op == 5)]
  else
    let body := if p.op < 2 then (runs 15 p.wires).map fun ws => CollMsg.wires (reductionPayload ws) else (runs 240 p.raw).map CollMsg.raw
    .data p.op p.ty p.count p.x p.root p.poison p.nv p.rnx p.rsat body.length :: body

def State.collSend (s : State) (cid entry step : Nat) (p : Part) : State :=
  let s := s.collPart cid entry step p
  match tget cid s.ctxs with
  | some c =>
    if (c.entry entry).rn < (c.entry entry).np then p.flits.foldl (fun s m => s.sendFlit (.coll cid entry step p.rank m)) s else s
  | none => s

/-- The status word in the slot's first 8 bytes (R258). -/
def Env.slotHeadPuts (t : Team) (spb : Nat) (slot : Option (Nat × W32)) (w : Nat) : List Put :=
  match slot with
  | none => []
  | some (q, sq) => match tget q t.queues with
    | some x => (leBytes 8 w).zipIdx.map fun b => { chip := true, at' := x.slotAddr sq - spb + b.2, v := some b.1 }
    | none => []

/-- A step has ended for an operation: its status word stands in its slot whatever follows, and the engine has its bytes to
write, which may suspend or fail (R255, R256, R258). -/
def State.collEnd (s : State) (id status word : Nat) (bytes : List Byte) : State :=
  match tget id s.ops with
  | none => s
  | some o => match o.kind with
    | .coll c =>
      match tget (gidTid o.gid) s.teams with
      | none => s
      | some t =>
        let head := putsToW (Env.slotHeadPuts t (spbOf t.team) o.slot word)
        { s with ops := tput id { o with kind := .coll { c with out := some (status, word, bytes) }, head := head } s.ops }
    | _ => s
/-- The bytes of a step are written and the slot fills. -/
def State.collFinish (s : State) (id : Nat) (o : EngOp) (c : CollOp) (status : Nat) (bytes : List Byte) : State :=
  let ps := bytes.zipIdx.flatMap fun b => s.putAt o (c.dst + b.2) (some b.1)
  s.endOp id o ps status (if status == 4 then none else some bytes.length)

/-- COLL (R258). Bits 63:6 of s(c), and bits 15:12 and 63:48 of s(c + 2), which have no field, are ignored (entry 25). -/
def execColl (f : RWord) (s : State) : Host.Outcome State Fault Refusal :=
  onceWord (.coll f) (fun e => do
    let v ← e.params f [f.d, f.a] [0, 1, 2, 3]
    let i := fld (v 2) 0 6
    let x := e.ctx.entry i
    let count := v 3
    let root := fld (v 4) 16 32
    let op := f.m.val
    let esz := Ty.collBytes f.ty
    guardC (count ≤ 2 ^ 28) (flt 0x01)
    let rank := x.rb + e.team.team
    guardC (x.valid && e.team.team < x.rn && !e.team.withdrawn.contains i) flt0B
    let sp ← e.spec (v 5) [0, 1]
    match e.nextSlot sp with
    | some (q, _) => guardC (8 ≤ q.slotBytes) flt0B
    | none => pure ()
    guardC (v 0 % esz == 0) { code := 0x04, addr := v 0 }
    guardC (v 1 % esz == 0) { code := 0x04, addr := v 1 }
    let n := collLen op x.np count esz root rank
    let src := op != 2 && op < 4 || op == 2 && root == rank
    let srcs := if src && count != 0 then [(v 1, count * esz)] else []
    let dsts := if n == 0 then [] else [(v 0, n)]
    e.chipChecks sp srcs dsts
    let (lines, t) ← e.supply dsts 0
    if e.slotBusy sp then return .park (.slotFree sp.q) e.s
    let step := (tget i t.collSteps).getD 0
    let t := { t with collSteps := tput i (step + 1) t.collSteps, withdrawn := if op == 5 then nins i t.withdrawn else t.withdrawn }
    let co : CollOp := { entry := i, step := step, rank := rank, op := op, ty := f.ty, dst := v 0, count := count,
                         x := sgn 12 (v 4), root := root, rows := e.rowsOf (srcs.map fun r => (0, r.1, r.2)) }
    let o : EngOp := { gid := e.gid, slices := 0, kind := .coll co, engine := .coll, mode := sp.mode, decl := n, handle := BitVec.ofNat 64 (v 0),
                       mem := e.memImage }
    let s := e.fork (e.s.putT e.tid t) sp lines o
    let s := s.modC e.cid fun c => { c with ctable := tput i { c.entry i with busy := true } c.ctable }
    if op < 4 then return .ok s
    -- a withdrawal fills its own slot at once (R260)
    let s := s.collSend e.cid i step { rank := rank, op := op, withdrawn := true }
    let s := s.collEnd e.s.nextOp 2 16 []
    match tget e.s.nextOp s.ops with
    | some o => return .ok (s.collFinish e.s.nextOp o co 2 [])
    | none => return .ok s) s

/-- The ranks that a step goes on without, since they have left (R260). -/
def CEntry.absent (x : CEntry) (step : Nat) (ps : List Part) : List Nat :=
  ((x.gone.filter fun y => y.2 ≤ step && !(ps.any fun p => p.rank == y.1)).map (·.1)).dedup
/-- The outcome of a step: for each contribution that is not withdrawn, its status, its status word and its bytes (R258 to
R260); none while a participant is missing. -/
def collResult (x : CEntry) (step : Nat) (ps : List Part) : Option (List (Part × Nat × Nat × List Byte)) :=
  let absent := x.absent step ps
  if ps.length + absent.length < x.np then none
  else
    let inn := ps.filter fun p => !p.withdrawn
    let out := (ps.filter (·.withdrawn)).map (·.rank) ++ absent
    let wdn := out.length * 2 ^ 32
    match inn with
    | [] => some []
    | p0 :: _ =>
      let same := inn.all fun p => p.op == p0.op && p.ty == p0.ty && p.count == p0.count && p.x == p0.x && p.root == p0.root
      let rooted := p0.op == 1 || p0.op == 2
      if !same || rooted && x.np ≤ p0.root then some (inn.map fun p => (p, 4, wdn + 64, []))
      else if rooted && out.contains p0.root then some (inn.map fun p => (p, 4, wdn + 32, []))
      else if p0.count == 0 then some (inn.map fun p => (p, 2, wdn, []))
      else
        let esz := Ty.collBytes p0.ty
        let sums := (List.range p0.count).map fun i => fromWire p0.ty p0.x
          (inn.foldl (fun w p => wireAdd w ((p.wires[i]?).getD {})) {})
        let summed := p0.op < 2
        let nv := summed && (inn.any (·.nv) || sums.any fun r => r.2.1)
        let rnx := summed && (inn.any (·.rnx) || sums.any fun r => r.2.2.1)
        let rsat := summed && (inn.any (·.rsat) || sums.any fun r => r.2.2.2)
        let psn := inn.any (·.poison)
        let word := wdn + (if psn then 8 else 0) + (if nv then 4 else 0) + (if rsat then 2 else 0) + (if rnx then 1 else 0)
        let raw := fun r => match inn.find? fun p => p.rank == r with
          | some p => p.raw | none => List.replicate (p0.count * esz) 0
        let bytes := fun (p : Part) => match p0.op with
          | 0 => sums.flatMap fun r => leBytes esz r.1
          | 1 => if p.rank == p0.root then sums.flatMap fun r => leBytes esz r.1 else []
          | 2 => raw p0.root
          | _ => (List.range x.np).flatMap raw
        some (inn.map fun p => (p, if p.poison then 3 else 2, word, bytes p))

/-- A step ends: every local operation of it has its outcome (R257). -/
def State.collDone (s : State) (cid entry step : Nat) (rs : List (Part × Nat × Nat × List Byte)) : State :=
  let s := rs.foldl (fun s r => match r.1.opid with | some id => s.collEnd id r.2.1 r.2.2.1 r.2.2.2 | none => s) s
  (s.modC cid fun c =>
    let x := c.entry entry
    { c with ctable := tput entry { x with steps := tdel step x.steps } c.ctable }).collBusy cid entry

def execCollStepComplete (cid entry step : Nat) (s : State) : Host.Outcome State Fault Refusal :=
  .next (match tget cid s.ctxs with
    | none => s
    | some c => match tget step (c.entry entry).steps with
      | none => s
      | some ps => match collResult (c.entry entry) step ps with
        | none => s
        | some rs => s.collDone cid entry step rs)

/-- COLL_TIMEOUT (R261): every arrived participant completes with FAULT and TMO set, a KIND 4 record is queued, and the module
reports the event. -/
def execCollTimeout (cid entry step : Nat) (s : State) : Host.Outcome State Fault Refusal :=
  .next (match tget cid s.ctxs with
    | none => s
    | some c => match tget step (c.entry entry).steps with
      | none => s
      | some ps =>
        if (collResult (c.entry entry) step ps).isSome then s
        else
          let inn := ps.filter fun p => !p.withdrawn
          let out := ps.length - inn.length + ((c.entry entry).absent step ps).length
          let s := s.collDone cid entry step (inn.map fun p => (p, 4, 128 + out * 2 ^ 32, []))
          let o := (inn.findSome? fun p => p.opid).bind fun id => tget id s.ops
          let (team, key, g, sl) := match o with
            | some o => (gidTid o.gid % 2 ^ 32, lidKey (tidLid (gidTid o.gid)), gidG o.gid, lowest o.slices)
            | none => (2 ^ 32 - 1, 0, 255, 255)
          let (v, s) := s.draw
          (s.ringPut cid (ringEntry 4 0 team key (entry + step * 2 ^ 32) 0 g sl)).report (.event cid c.state v.toNat))

end Sys2Proof.Machine
end

