-- ==== Sys2Proof/Machine/Queues.lean ====
section
/-! DEFINITION. The queue words QINIT to QREL, EMIT and TRIG (chapter "Queues: team queues, graph records, launches and the
scheduler", R263 to R282). -/

namespace Sys2Proof.Machine

/-! ### Declarations (R264) -/

/-- One entry of a queue declaration block: undeclared, declared with slots and slot bytes, or broken. -/
def declEntry (w : Nat) : Except Unit (Option (Nat × Nat)) :=
  if !bitOf w 31 then (if w == 0 then .ok none else .error ())
  else if fld w 19 12 != 0 || 1024 < fld w 8 11 then .error ()
  else .ok (some (fld w 0 8 + 1, 64 * fld w 8 11))

/-- The declared queues of a block of 64 bytes: number, slots, slot bytes; none when it breaks a rule of R264. -/
def declBlock (bs : List Byte) : Option (List (Nat × Nat × Nat)) :=
  let es := (List.range 16).map fun q => (q, declEntry (leNat ((bs.drop (4 * q)).take 4)))
  if es.any fun e => match e.2 with | .error _ => true | .ok _ => false then none
  else
    let ds := es.filterMap fun e => match e.2 with | .ok (some d) => some (e.1, d.1, d.2) | _ => none
    if ds.foldl (fun (n : Nat) (d : Nat × Nat × Nat) => n + d.2.1) 0 ≤ 512 then some ds else none

/-- The first descriptor of a queue (R265). -/
def Launch.desc0 (l : Launch) (q : Nat) : Nat := l.qdecl.foldl (fun n d => if d.1 < q then n + d.2.1 else n) 0

/-! ### The operand of the queue words (R273) -/

/-- The queue that sA names, where the bits outside `used` must be zero (QINIT, QPUSH); the rows of QPOP, QPEEK and QREL name no zero
bits, and theirs are ignored (entry 26). -/
def Env.queueNo (e : Env) (a used : Nat) : Chk Nat := do
  guardC (a &&& (2 ^ 64 - 1 - used) == 0) (flt 0x01)
  guardC (e.lch.declOf (fld a 0 4)).isSome flt0B
  return fld a 0 4

/-- A queue made by QINIT (R268). -/
def Env.inited (e : Env) (q : Nat) : Chk Queue :=
  match tget q e.team.queues with
  | some x => if x.inited then .ok x else .error flt0B
  | none => .error flt0B

/-! ### QINIT (R274) -/

/-- QINIT once every group has arrived with the same operands: the checks, then the queue. -/
def State.qinit (s : State) (tid : Nat) (a b : Nat) : Except Nat State :=
  match tget tid s.teams, tget (tidLid tid) s.launches with
  | some t, some l =>
    let q := fld a 0 4
    let filler := fld a 8 6
    let old := (tget q t.queues).getD {}
    let (slots, bytes) := (l.declOf q).getD (1, 0)
    if l.lr.groups ≤ filler || b == 0 || b / 2 ^ l.lr.groups != 0 then .error 0x01
    else if old.inited && old.descs.any fun d => d.status == 1 || d.status == 6 then .error 0x0B
    else
      let x : Queue :=
        { inited := true, slots := slots, slotBytes := bytes, ring := BitVec.ofNat 64 (spbOf t.team + l.ringOff q),
          allow := slots, filler := filler, fdone := t.left.contains filler, desc0 := l.desc0 q,
          popMask := BitVec.ofNat 64 b, descs := List.replicate slots {} }
      let gone := old.descs.flatMap fun d => d.op.toList
      .ok { s.putT tid { t with queues := tput q x t.queues } with ops := gone.foldl (fun o i => tdel i o) s.ops }
  | _, _ => .ok s

def execQinit (f : RWord) (s : State) : Host.Outcome State Fault Refusal :=
  collWord (.qinit f) (fun e => do
    let v ← e.agreed f.k [f.a, f.b]
    let a := (v[0]?).getD 0
    let b := (v[1]?).getD 0
    let _ ← e.queueNo a 0x3F0F
    return .qinit (BitVec.ofNat 64 a) (BitVec.ofNat 64 b)) s

/-! ### QPUSH (R275) -/

/-- The G-level lines that meet some bytes of team data become T-pending (R215, R217); the group's round goes on. -/
def Group.pushLines (g : Group) (t : Team) (lines : List Nat) : Group :=
  let moved := fun (o : GOp) => !o.isSeen && lines.contains o.line
  let own := match g.subs with | x :: _ => x.lvl.ops.filter moved | [] => []
  let held := g.lines.filter lines.contains
  let g1 : Group := { g with
    tbase := replay g.tbase own, lines := nminus g.lines held,
    subs := g.subs.map fun x => { x with lvl := { x.lvl with ops := x.lvl.ops.filter fun o => !moved o } } }
  if g.late t then { g1 with topsN := g.topsN ++ own, tlinesN := nunion g.tlinesN held }
  else { g1 with tops := g.tops ++ own, tlines := nunion g.tlines held }

/-- The lines of team data in [h, h + n) that the group has written and no T-close has merged (R217, R275): at G, or T-pending. -/
def Env.handLines (e : Env) (h n : Nat) : List Nat :=
  let lo := max h e.spb
  let hi := min (h + n) (e.spb + e.lch.layout.rings)
  if lo < hi then (unitsOf (lo - e.spb) (hi - lo)).filter fun l => e.g.lines.contains l || e.g.tlines.contains l || e.g.tlinesN.contains l
  else []

/-- The words of some lines as a view holds them. -/
def lineWords (m : Memory) (lines : List Nat) : List (Nat × W32) :=
  lines.flatMap fun l => (List.range 16).map fun i => (64 * l + 4 * i, BitVec.ofNat 32 (mnat m (64 * l + 4 * i) 4))

def execQpush (f : RWord) (s : State) : Host.Outcome State Fault Refusal :=
  onceWord (.qpush f) (fun e => do
    e.needWhole
    let v ← e.agreed f.k [f.a, f.b]
    let a := (v[0]?).getD 0
    let h := (v[1]?).getD 0
    let q ← e.queueNo a 0xFFFFFFFF0F
    let x ← e.fillQueue q
    let n := fld a 8 32
    if !x.free then return .park (.slotFree q) e.s
    let lines := e.handLines h n
    let hand := lineWords e.sub.lvl.view.data lines
    let s := (e.s.putG e.gid (e.g.pushLines e.team lines)).modT e.tid fun t => t.modQ q fun y =>
      let z := y.reserve 2 h n none
      z.modDesc (z.slotOf x.fillSeq) fun d => { d with hand := hand, handBad := lines.map fun l => (l, e.sub.lvl.view.poison.contains l) }
    return .ok (s.skipQueues e.tid)) s

/-! ### QPOP (R276) -/

/-- What QPOP returns: a handle, then sequence number and status. -/
def popPend (e : Env) (f : RWord) (h w : Nat) : Pend :=
  { e.newPend f.d 2 (sliceBits (e.exec f.k)) with
    sw := (e.execSlices f.k).flatMap fun c => match f.d with
      | .s r => [(8 * r.val + c, BitVec.ofNat 64 h), (8 * (r.val + 1) + c, BitVec.ofNat 64 w)]
      | _ => [] }

/-- Whether a QPOP of a group can go on (R276). -/
def Queue.canPop (x : Queue) (g : Nat) : Bool :=
  let d := x.desc x.headSeq
  (x.headSeq != x.fillSeq && d.popper == g && 2 ≤ d.status && d.status ≤ 5) || (x.fdone && x.headSeq == x.fillSeq)

def execQpop (f : RWord) (s : State) : Host.Outcome State Fault Refusal :=
  onceWord (.qpop f) (fun e => do
    e.needWhole
    let v ← e.agreed f.k [f.a]
    let q ← e.queueNo ((v[0]?).getD 0) (2 ^ 64 - 1)
    let x ← e.inited q
    guardC (bitOf x.popMask.toNat (gidG e.gid)) flt0B
    if !x.canPop (gidG e.gid) then return .park (.qpop q) e.s
    if x.headSeq == x.fillSeq then
      return .ok (e.s.putG e.gid (e.g.addPend (popPend e f 0 (x.headSeq.toNat * 2 ^ 32))))
    let d := x.desc x.headSeq
    guardC (d.status != 5) (flt 0x0A)
    -- the joined lines become lines of the popper (R214, R271); of an operation that ended with FAULT nothing is joined
    let lines := if d.status == 4 then [] else match d.op.bind fun i => tget i e.s.ops with
      | some o => if o.gid == e.gid then [] else o.lines | none => []
    guardC (e.linesFit lines 0) (flt 0x08)
    let g := e.g.addPend (popPend e f d.handle.toNat (d.seq.toNat * 2 ^ 32 + d.status))
    -- what another group handed off (R217)
    let seen := if x.filler == gidG e.gid then [] else
      (d.hand.map fun w => GOp.seen e.team.tcount w.1 w.2) ++ d.handBad.map fun u => GOp.seenBad e.team.tcount u.1 u.2
    let g := g.modLvl e.sub.mask fun l => l.act seen
    let s := (e.s.putG e.gid g).modT e.tid fun t => t.modQ q fun y =>
      { y.modDesc (y.slotOf y.headSeq) (fun d => { d with status := 6, op := none, hand := [], handBad := [] }) with headSeq := y.headSeq + 1 }
    let s := match d.op with | some i => s.joinOp e.gid e.sub.mask i | none => s
    return .ok (s.skipQueues e.tid)) s

/-! ### QPEEK and QREL (R277, R278) -/

def execQpeek (f : RWord) (s : State) : Host.Outcome State Fault Refusal :=
  onceWord (.qpeek f) (fun e => do
    let v ← e.agreed f.k [f.a]
    let q ← e.queueNo ((v[0]?).getD 0) (2 ^ 64 - 1)
    let x := (tget q e.team.queues).getD {}
    let lo := x.fillSeq.toNat + x.headSeq.toNat * 2 ^ 32
    let hi := x.allow + (x.desc x.headSeq).status * 2 ^ 16 + (if x.inited then 2 ^ 24 else 0)
    return .ok (e.s.putG e.gid ((e.execSlices f.k).foldl (fun g c =>
      match f.d with | .s r => (g.wrS r.val c lo).wrS (r.val + 1) c hi | _ => g) e.g))) s

/-- QREL (R277). The slot is that of sB[31:0], which is the SEQ compared; bits 63:32 of sB are ignored (entry 26). -/
def execQrel (f : RWord) (s : State) : Host.Outcome State Fault Refusal :=
  onceWord (.qrel f) (fun e => do
    e.needWhole
    let v ← e.agreed f.k [f.a, f.b]
    let q ← e.queueNo ((v[0]?).getD 0) (2 ^ 64 - 1)
    let x ← e.inited q
    let seq : W32 := BitVec.ofNat 32 ((v[1]?).getD 0)
    guardC (bitOf x.popMask.toNat (gidG e.gid)) flt0B
    let d := x.desc seq
    guardC (d.status == 6 && d.popper == gidG e.gid && d.seq == seq) flt0B
    return .ok (e.s.modT e.tid fun t => t.modQ q fun y =>
      { y.modDesc (y.slotOf seq) (fun d => { d with status := 0 }) with allow := y.allow + 1 })) s

/-! ### Launch records (R284) -/

/-- The fields of 64 bytes, with whether every bit named zero is zero. -/
def recordOf (bs : List Byte) : LRec × Bool :=
  let n := fun o k => leNat ((bs.drop o).take k)
  ({ entry := BitVec.ofNat 64 (n 0 8), gx := n 8 4, gy := n 12 4, gz := n 16 4, l := n 20 2, p := n 22 1, c := n 23 1,
     rp := n 24 1, rc := n 25 1, tiles := n 26 1, coop := bitOf (n 27 1) 0, leaf := bitOf (n 27 1) 1,
     node := bitOf (n 27 1) 2, clog := fld (n 27 1) 3 3, prio := fld (n 28 1) 0 3, leafpool := n 29 1, scratch := n 30 2,
     spill := n 32 2, shadow := n 34 2, dquota := n 36 2, args := BitVec.ofNat 64 (n 40 8),
     deps := (List.range 4).map fun i => n (48 + 2 * i) 2, aux := BitVec.ofNat 64 (n 56 8) },
   fld (n 27 1) 6 2 == 0 && fld (n 28 1) 3 5 == 0 && n 38 2 == 0)

/-- The limits of R284 that do not depend on the kind of record. -/
def LRec.commonOk (r : LRec) (cores : Nat) : Bool :=
  let e := r.entry.toNat
  e % 64 == 0 && 64 ≤ e && e < 2 ^ 55 && 1 ≤ r.l && r.l ≤ cores && 1 ≤ r.groups && r.groups ≤ 64 &&
  (1 ≤ r.rp || r.p == 0) && r.rp ≤ 16 && (1 ≤ r.rc || r.c == 0) && r.rc ≤ 16 && r.tiles ≤ 8 && r.clog ≤ 4 &&
  r.leafpool ≤ 64 && 1 ≤ r.dquota && r.dquota ≤ 1024

/-- A record that LAUNCH accepts as launch n (R284, R279). -/
def LRec.launchOk (r : LRec) (cores n : Nat) : Bool :=
  r.commonOk cores && !r.node &&
  (if r.leaf then r.gx == 0 && r.gy == 0 && r.gz == 0 && !r.coop && r.clog == 0
   else 1 ≤ r.gx && 1 ≤ r.gy && 1 ≤ r.gz && r.nteam < 2 ^ 31 && r.aux == 0) &&
  r.deps.all fun d => d % 2 ^ 15 == 0 || 1 ≤ n - d % 2 ^ 15

/-- A node record (R279). -/
def LRec.nodeOk (r : LRec) (cores : Nat) : Bool :=
  r.commonOk cores && r.node && !r.leaf && 1 ≤ r.gx && r.gx < 2 ^ 31 && r.gy % 8 == 0 && 8 ≤ r.gy && r.gy ≤ 4096 &&
  1 ≤ r.gz && r.gz < 65536 && r.deps.all (· == 0) && r.aux.toNat % 64 == 0

/-! ### EMIT and TRIG (R280, R282) -/

/-- Bytes of an image at a virtual address, as an engine of the context reads it; unmapped bytes read as zero. -/
def State.imgBytes (s : State) (cid : Nat) (m : Image) (va n : Nat) : List Byte :=
  (List.range n).map fun i => match engineAddr s cid false false false (va + i) with | .ok k => mget m.data k | _ => 0

/-- The queue declaration block before a node's kernel, where it can be read and keeps the limits of R264. -/
def State.nodeQueues (s : State) (cid : Nat) (m : Image) (node : LRec) : Option (List (Nat × Nat × Nat)) :=
  let a := node.entry.toNat - 64
  if (List.range 64).all fun i => match engineAddr s cid false false false (a + i) with | .ok _ => true | _ => false
  then declBlock (s.imgBytes cid m a 64) else none

/-- EMIT (R280). A record whose declaration block does not read, or breaks R264, counts as no node record (0x19). A record, a ring header and a
block in a poisoned unit read as they stand, without a fault: R280 names none for them (both entry 27). -/
def execEmit (f : RWord) (s : State) : Host.Outcome State Fault Refusal :=
  onceWord (.emit f) (fun e => do
    e.needWhole
    let v ← e.agreed f.k [f.d, f.a]
    let node := (v[0]?).getD 0
    let src := (v[1]?).getD 0
    let key ← e.wordKey 255 node
    let snap := e.team.fullSnap.getD e.lch.snap
    let (r, zeros) := recordOf (mread snap.data key 64)
    let ring ← e.wordKey 255 r.aux.toNat
    guardC (node % 64 == 0 && zeros && r.nodeOk e.ctx.f.cores && (e.s.nodeQueues e.cid snap r).isSome) { code := 0x19, addr := node }
    guardC (mnat snap.data ring 8 == lidKey e.lid / 2 ^ 16 && lidKey e.lid % 2 ^ 16 == 0) (flt 0x19)
    guardC (e.spb ≤ src && src + r.gy ≤ e.spb + e.lch.layout.rings) { code := 0x07, addr := src }
    match e.team.charge e.lch.lr.dquota [] ((r.gy + 127) / 128 * 128) with
    | none => throw (flt 0x09)
    | some t =>
      let bytes := (List.range r.gy).map fun i => e.chipByte (src + i)
      return .ok (e.s.putT e.tid { t with toks := t.toks ++ [(gidG e.gid, .emit r bytes (e.record (some (.emit f)) ((encode (.emit f)).getD 0) (flt 0x19)))] })) s

def execTrig (f : RWord) (s : State) : Host.Outcome State Fault Refusal := collWord (.trig f) (fun _ => .ok .trig) s

end Sys2Proof.Machine
end

