-- ==== Sys2Proof/Machine/Trees.lean ====
section
/-! DEFINITION. Voxel trees: the tree format, the walker's words, the leaf pool, VSET and VACT, the allocator and halo registrations
(chapter "Tables: voxel trees, the Clematis walker, the allocator and halo exchange", R292 to R314). -/

namespace Sys2Proof.Machine

/-! ### Reading a tree (R293 to R295, R297) -/

/-- Memory as a walk reads it. -/
structure TreeMem where
  s : State
  cid : Nat
  img : Image

/-- A walk's result, or the fault code with the failing address. -/
abbrev Walk (α : Type) := Except (Nat × Nat) α

/-- The physical key of a byte of a tree, in a page of type 1 or 2. -/
def TreeMem.key (m : TreeMem) (write : Bool) (va : Nat) : Walk Nat :=
  match translate m.s m.cid va with
  | .ok p => if (p.ty == 1 || p.ty == 2) && (if write then p.w else p.r) then .ok (physKey m.cid p.ty p.target)
    else .error (0x0F, va)
  | .error _ => .error (0x0F, va)

/-- Whether an address lies in a page of type 1 or 2, whatever its permissions (R293). -/
def TreeMem.typed (m : TreeMem) (va : Nat) : Bool :=
  match translate m.s m.cid va with | .ok p => p.ty == 1 || p.ty == 2 | .error _ => false

/-- `n` bytes of a tree as a number; the first poisoned byte fails (R297). -/
def TreeMem.num (m : TreeMem) (va n : Nat) : Walk Nat := do
  let ks ← (List.range n).mapM fun i => m.key false (va + i)
  match ks.zipIdx.find? fun k => m.img.poison.contains (k.1 / 64) with
  | some k => throw (0x15, va + k.2)
  | none => pure ()
  return leNat (ks.map fun k => mget m.img.data k)

/-- A tree header (R293). -/
structure Hdr where
  at' : Nat
  gen : Nat
  root : Nat
  bg : Nat
  vt : Nat
  axis : Nat
  shift : Nat
  rlog : Nat
  nleaf : Nat
  arenas : List Nat

/-- Value bytes of a VTYPE (R293). -/
def valueBytes (vt : Nat) : Nat := match vt with | 0 => 4 | 1 => 8 | 2 => 2 | _ => 4
/-- The VTYPE that a word's type names (R299). -/
def vtypeOf (ty : Ty) : Nat := match ty with | .f64 => 1 | .f16x2 => 2 | .n32 => 3 | _ => 0
def leafBytes (vt : Nat) : Nat := 128 + 512 * valueBytes vt

def TreeMem.header (m : TreeMem) (h : Nat) : Walk Hdr := do
  if h % 64 != 0 then throw (0x0F, h)
  let gen ← m.num h 8
  let root ← m.num (h + 8) 8
  let bg ← m.num (h + 16) 8
  let b ← m.num (h + 24) 8
  let arenas ← (List.range 4).mapM fun i => m.num (h + 32 + 8 * i) 8
  let vt := fld b 0 2
  let x : Hdr := { at' := h, gen := gen, root := root, bg := bg, vt := vt, axis := fld b 2 2, shift := fld b 8 8,
                   rlog := fld b 16 8, nleaf := fld b 32 32, arenas := arenas }
  let ok := fld b 4 4 == 0 && x.axis != 3 && 3 ≤ x.shift && x.shift ≤ 30 && 4 ≤ x.rlog && x.rlog ≤ 20 && fld b 24 8 == 0 &&
    bg < 2 ^ (8 * valueBytes vt) && (root :: arenas).all fun a => a % 64 == 0 && m.typed a
  if ok then return x else throw (0x0F, h)

/-- CRC-32C of some bytes. -/
def crc32c (bs : List Byte) : Nat :=
  let step := fun (c : Nat) (b : Byte) => (List.range 8).foldl
    (fun (c : Nat) _ => if c % 2 == 1 then (c / 2) ^^^ 0x82F63B78 else c / 2) (c ^^^ b.toNat)
  bs.foldl step 0xFFFFFFFF ^^^ 0xFFFFFFFF

/-- A point or an origin: three coordinates as 32-bit patterns. -/
structure Pt where
  x : Nat
  y : Nat
  z : Nat
  deriving DecidableEq, Repr

/-- The origin of the node of a size that holds a point (R294). -/
def Pt.origin (p : Pt) (size : Nat) : Pt := ⟨p.x - p.x % size, p.y - p.y % size, p.z - p.z % size⟩
def Pt.bytes (p : Pt) : List Byte := leBytes 4 p.x ++ leBytes 4 p.y ++ leBytes 4 p.z
def Pt.num (p : Pt) : Nat := p.x + p.y * 2 ^ 32 + p.z * 2 ^ 64
/-- Child indices and the voxel index (R295). -/
def Pt.upperSlot (p : Pt) : Nat := p.x % 1024 / 64 + 16 * (p.y % 1024 / 64) + 256 * (p.z % 1024 / 64)
def Pt.lowerSlot (p : Pt) : Nat := p.x % 64 / 8 + 8 * (p.y % 64 / 8) + 64 * (p.z % 64 / 8)
def Pt.voxel (p : Pt) : Nat := p.x % 8 + 8 * (p.y % 8) + 64 * (p.z % 8)
/-- The Morton key of a leaf origin (R290). -/
def Pt.morton (p : Pt) : Nat :=
  let f := fun u => u ^^^ 2 ^ 31
  (List.range 32).foldl (fun k i => k + (if bitOf (f p.x) i then 2 ^ (3 * i) else 0) +
    (if bitOf (f p.y) i then 2 ^ (3 * i + 1) else 0) + (if bitOf (f p.z) i then 2 ^ (3 * i + 2) else 0)) 0

/-- A root entry with a bit set that R294 calls zero. -/
def TreeMem.entryBad (m : TreeMem) (a : Nat) : Walk Bool := do
  let v ← m.num (a + 12) 4
  let u ← m.num (a + 16) 8
  let z ← m.num (a + 24) 8
  return 2 ≤ v || z != 0 || bitOf v 0 && u % 64 != 0
/-- A node of a tree with the header that R295 gives it. -/
def TreeMem.nodeOk (m : TreeMem) (h : Hdr) (a kind parent : Nat) (o : Pt) : Walk Bool := do
  let org ← m.num a 12
  let k ← m.num (a + 12) 4
  let par ← m.num (a + 16) 8
  let tree ← m.num (a + 24) 8
  let rest ← m.num (a + 32) 32
  return a % 64 == 0 && org == o.num && k == kind + h.vt * 2 ^ 8 && par == parent && tree == h.at' && rest == 0

/-- The search of the root table (R294): the entry where it stops, none when the table is full, and the upper node. -/
def TreeMem.probe (m : TreeMem) (h : Hdr) (o : Nat) : Nat → Nat → Walk (Option Nat × Nat)
  | 0, _ => .ok (none, 0)
  | n + 1, i => do
    let a := h.root + 32 * (i % 2 ^ h.rlog)
    let key ← m.num a 12
    let v ← m.num (a + 12) 4
    if !bitOf v 0 then return (some a, 0)
    else if key == o then
      let u ← m.num (a + 16) 8
      return (some a, u)
    else m.probe h o n (i + 1)

/-- Where a point leads: the root entry, the upper node, the lower node and the leaf, 0 where absent. -/
structure TPath where
  entry : Option Nat := none
  upper : Nat := 0
  lower : Nat := 0
  leaf : Nat := 0

def TreeMem.path (m : TreeMem) (h : Hdr) (p : Pt) : Walk TPath := do
  let o := p.origin 1024
  let (entry, upper) ← m.probe h o.num (2 ^ h.rlog) (crc32c o.bytes % 2 ^ h.rlog)
  if upper == 0 then return { entry := entry }
  let lower ← m.num (upper + 64 + 8 * p.upperSlot) 8
  if lower == 0 then return { entry := entry, upper := upper }
  let leaf ← m.num (lower + 64 + 8 * p.lowerSlot) 8
  return { entry := entry, upper := upper, lower := lower, leaf := leaf }

/-- The root entries that a search reads, up to the one where it stops. -/
def TreeMem.probed (m : TreeMem) (h : Hdr) (o : Nat) : Nat → Nat → Walk (List Nat)
  | 0, _ => .ok []
  | n + 1, i => do
    let a := h.root + 32 * (i % 2 ^ h.rlog)
    let key ← m.num a 12
    let v ← m.num (a + 12) 4
    if !bitOf v 0 || key == o then return [a]
    let l ← m.probed h o n (i + 1)
    return a :: l
/-- A path whose root entries, nodes and child addresses R294 and R295 allow, as a lane of VINS, VDEL or VACT checks them when it runs
(R307, R309). -/
def TreeMem.goodPath (m : TreeMem) (h : Hdr) (p : Pt) : Walk TPath := do
  let o := p.origin 1024
  let es ← m.probed h o.num (2 ^ h.rlog) (crc32c o.bytes % 2 ^ h.rlog)
  let bad ← es.filterM m.entryBad
  if bad != [] then throw (0x0F, bad.headD 0)
  let t ← m.path h p
  if t.upper != 0 then
    if !(← m.nodeOk h t.upper 2 0 o) then throw (0x0F, t.upper)
  if t.lower != 0 then
    if !(← m.nodeOk h t.lower 1 t.upper (p.origin 64)) then throw (0x0F, t.lower)
  if t.leaf % 64 != 0 then throw (0x0F, t.leaf)
  return t

/-- Whether a voxel of a leaf is active (R295). -/
def TreeMem.active (m : TreeMem) (leaf v : Nat) : Walk Bool := do
  let b ← m.num (leaf + 64 + v / 8) 1
  return bitOf b (v % 8)

/-- The value of a voxel (R300); with `act` an inactive one delivers BG. -/
def TreeMem.value (m : TreeMem) (h : Hdr) (p : Pt) (act : Bool) : Walk Nat := do
  let t ← m.path h p
  if t.leaf == 0 then return h.bg
  let on ← if act then m.active t.leaf p.voxel else pure true
  if on then m.num (t.leaf + 128 + p.voxel * valueBytes h.vt) (valueBytes h.vt) else return h.bg

/-- A neighbour; none outside the range of coordinates (R301). -/
def Pt.shift (p : Pt) (d : Int × Int × Int) : Option Pt :=
  let f := fun (c : Nat) (d : Int) => let v := sgn 32 c + d
    if v < -(2 ^ 31 : Int) || (2 ^ 31 : Int) ≤ v then none else some (ofInt 32 v)
  match f p.x d.1, f p.y d.2.1, f p.z d.2.2 with
  | some x, some y, some z => some ⟨x, y, z⟩
  | _, _, _ => none

/-- The offsets of VSTN (R301). -/
def stencil (wide : Bool) : List (Int × Int × Int) :=
  if wide then (List.range 27).map fun k => ((k % 3 : Nat) - 1, (k / 3 % 3 : Nat) - 1, (k / 9 : Nat) - 1)
  else [(0, 0, 0), (-1, 0, 0), (1, 0, 0), (0, -1, 0), (0, 1, 0), (0, 0, -1), (0, 0, 1)]

/-- Every present leaf: handle and origin, in the order of the tables. -/
def TreeMem.leaves (m : TreeMem) (h : Hdr) : Walk (List (Nat × Pt)) := do
  let ups ← (List.range (2 ^ h.rlog)).filterMapM fun i => do
    let a := h.root + 32 * i
    let v ← m.num (a + 12) 4
    if !bitOf v 0 then return none
    let o ← m.num a 12
    let u ← m.num (a + 16) 8
    return some (o, u)
  let lows ← ups.mapM fun u => (List.range 4096).filterMapM fun i => do
    let w ← m.num (u.2 + 64 + 8 * i) 8
    return if w == 0 then none else some ((u.1, i), w)
  let leaves ← lows.flatten.mapM fun w => (List.range 512).filterMapM fun j => do
    let l ← m.num (w.2 + 64 + 8 * j) 8
    let i := w.1.2
    let c := fun k a b => low 32 (fld w.1.1 (32 * k) 32 + 64 * a + 8 * b)
    return if l == 0 then none else
      some (l, (⟨c 0 (i % 16) (j % 8), c 1 (i / 16 % 16) (j / 8 % 8), c 2 (i / 256) (j / 64)⟩ : Pt))
  return leaves.flatten

/-- The active leaves in ascending Morton order (R290). -/
def TreeMem.activeLeaves (m : TreeMem) (h : Hdr) : Walk (List (Nat × Pt)) := do
  let all ← m.leaves h
  let act ← all.filterMapM fun l => do
    let mask ← m.num (l.1 + 64) 64
    return if mask == 0 then none else some l
  return act.mergeSort fun a b => a.2.morton ≤ b.2.morton

/-! ### The walking words (R297 to R303) -/

def Env.treeMem (e : Env) : TreeMem := { s := e.s, cid := e.cid, img := e.memImage }
/-- The coordinates of a lane (R299). -/
def Env.point (e : Env) (f : RWord) (l : Nat) : Pt :=
  ⟨e.rd32 l f.a, e.rd32 l (Opd.plus f.a 1), e.rd32 l (Opd.plus f.a 2)⟩

/-- The pending result of a walk: for each executing lane the words from vD up, or its fault. -/
def Env.walkPend (e : Env) (i : Instr) (f : RWord) (nreg : Nat) (res : Nat → Walk (List Nat × Nat)) : Group :=
  let ls := e.execLanes f.k
  if ls == [] then e.g else
  let rs := ls.map fun l => (l, res l)
  let good := rs.filterMap fun r => match r.2 with | .ok x => some (r.1, x) | .error _ => none
  let bad := rs.filterMap fun r => match r.2 with
    | .error (c, a) => some (r.1, ({ code := c, lane := r.1, addr := a } : Flt)) | .ok _ => none
  let reg := match f.d with | .v r => r.val | _ => 0
  e.g.addPend { e.newPend f.d nreg (sliceBits (e.exec f.k)) with
    vw := good.flatMap fun r => r.2.1.zipIdx.map fun w => (32 * (reg + w.2) + r.1, BitVec.ofNat 32 w.1)
    flags := good.filterMap fun r => if r.2.2 == 0 then none else some (r.1, BitVec.ofNat 32 r.2.2)
    fails := e.fails i bad }

/-- A header whose VTYPE is the word's (R297). -/
def Env.walkHeader (e : Env) (m : TreeMem) (f : RWord) (l : Nat) : Walk Hdr := do
  let h ← m.header (e.rd64 l f.b)
  if h.vt == vtypeOf f.ty then return h else throw (0x0F, h.at')

/-- A value as register words: a pair for f64 (R299). -/
def valueWords (vt v : Nat) : List Nat := if vt == 1 then [low 32 v, v / 2 ^ 32] else [v]

def execVget (f : RWord) (s : State) : Host.Outcome State Fault Refusal :=
  issueWord (.vget f) (fun e =>
    let m := e.treeMem
    .ok (e.s.putG e.gid (e.walkPend (.vget f) f (regs (f.ty == .f64)) fun l => do
      let h ← e.walkHeader m f l
      let v ← m.value h (e.point f l) (bitOf f.m.val 0)
      return (valueWords h.vt v, 0)))) s

def execVstn (f : RWord) (s : State) : Host.Outcome State Fault Refusal :=
  issueWord (.vstn f) (fun e =>
    let m := e.treeMem
    let offs := stencil (f.m == 1)
    .ok (e.s.putG e.gid (e.walkPend (.vstn f) f (offs.length * regs (f.ty == .f64)) fun l => do
      let h ← e.walkHeader m f l
      let vs ← offs.mapM fun d => match (e.point f l).shift d with
        | some q => m.value h q true
        | none => pure h.bg
      return (vs.flatMap (valueWords h.vt), 0)))) s

/-- The floor of a finite value and the value less its floor (R302). -/
def floorFrac (v : FV) : Int × FV :=
  let (m, e) := v.dy
  if 0 ≤ e then (m * (2 ^ e.toNat : Nat), .fin false 0 0)
  else
    let d : Int := (2 ^ (-e).toNat : Nat)
    (m / d, .fin false (m % d).toNat e)

/-- L(a, b, f) of R302. -/
def lerp (a b : Nat) (f : FV) : Nat × Nat :=
  let (m, e) := dyAdd (1, 0) (-(f.dy.1), f.dy.2)
  dotFp f32 .rne false (FV.mul (unpackFp f32 a) (.fin false m.toNat e)) [(unpackFp f32 b, f)]

/-- The floor of an f32 as a coordinate; 0 where it has none. -/
def f32Floor (w : Nat) : Nat := match unpackFp f32 w with | .nan _ | .inf _ => 0 | v => ofInt 32 (floorFrac v).1

def execVsmp (f : RWord) (s : State) : Host.Outcome State Fault Refusal :=
  issueWord (.vsmp f) (fun e =>
    let m := e.treeMem
    .ok (e.s.putG e.gid (e.walkPend (.vsmp f) f 1 fun l => do
      let h ← e.walkHeader m f l
      let p := e.point f l
      let vs := [p.x, p.y, p.z].map (unpackFp f32)
      let fl := vs.map floorFrac
      let out := vs.any (fun v => v.isNan || v.isInf) ||
        fl.any fun x => x.1 < -(2 ^ 31 : Int) || (2 ^ 31 - 2 : Int) < x.1
      if out then return ([f32.canon], fNV)
      let c := fun (k : Nat) => ofInt 32 ((fl[k]?).getD ((0, .nan false) : Int × FV)).1
      let fr := fun (k : Nat) => ((fl[k]?).getD ((0, .nan false) : Int × FV)).2
      let base : Pt := ⟨c 0, c 1, c 2⟩
      let corner := fun (dx dy dz : Int) => match base.shift (dx, dy, dz) with
        | some q => m.value h q true
        | none => pure h.bg
      let xl := fun (dy dz : Int) => (do
        let a ← corner 0 dy dz
        let b ← corner 1 dy dz
        return lerp a b (fr 0) : Walk (Nat × Nat))
      let e00 ← xl 0 0
      let e01 ← xl 0 1
      let e10 ← xl 1 0
      let e11 ← xl 1 1
      let y0 := lerp e00.1 e10.1 (fr 1)
      let y1 := lerp e01.1 e11.1 (fr 1)
      let z := lerp y0.1 y1.1 (fr 2)
      return ([z.1], e00.2 ||| e01.2 ||| e10.2 ||| e11.2 ||| y0.2 ||| y1.2 ||| z.2)))) s

/-! ### VMRC (R303) -/

def Ext.le : Ext → Ext → Bool
  | .inf true, _ => true
  | _, .inf false => true
  | .inf false, _ => false
  | _, .inf true => false
  | .frac a b, .frac c d => a * d ≤ c * b
def Ext.max (a b : Ext) : Ext := if a.le b then b else a
def Ext.min (a b : Ext) : Ext := if a.le b then a else b

/-- A finite f32 in units of 2^−149. -/
def units149 (v : FV) : Int := v.dy.1 * (2 ^ (v.dy.2 + 149).toNat : Nat)
def Ext.of (v : FV) : Ext := match v with | .inf n => .inf n | v => .frac (units149 v) (2 ^ 149)
def Ext.round (rnd : Rnd) : Ext → Nat × Nat
  | .inf n => (f32.infBits n, 0)
  | .frac n d => let (q, e) := divDy 25 n.natAbs d 0; roundFp f32 rnd false (n < 0) q e

/-- An axis on which the spec states no slab: the origin is infinite and the direction is not zero, or the direction is infinite. -/
def openAxis (o d : FV) : Bool := d.isInf || o.isInf && units149 d != 0
/-- Entry and exit of the box of a leaf on one axis; none where the slab is empty. An axis that states none bounds nothing. -/
def slab (o d : FV) (lo : Nat) : Option (Ext × Ext) :=
  if openAxis o d then some (.inf true, .inf false) else
  if o.isInf then none else
  let a := sgn 32 lo * (2 ^ 149 : Nat) - units149 o
  let b := (sgn 32 lo + 8) * (2 ^ 149 : Nat) - units149 o
  let n := units149 d
  if n == 0 then (if a ≤ 0 && 0 < b then some (.inf true, .inf false) else none)
  else if 0 < n then some (.frac a n.toNat, .frac b n.toNat)
  else some (.frac (-b) (-n).toNat, .frac (-a) (-n).toNat)

/-- ta and tb of a leaf (R303). -/
def meetLeaf (v : List FV) (o : Pt) : Option (Ext × Ext) := do
  let g := fun i => (v[i]?).getD (.nan false)
  let sx ← slab (g 0) (g 3) o.x
  let sy ← slab (g 1) (g 4) o.y
  let sz ← slab (g 2) (g 5) o.z
  let ta := (((Ext.of (g 6)).max sx.1).max sy.1).max sz.1
  let tb := (((Ext.of (g 7)).min sx.2).min sy.2).min sz.2
  if ta.le tb then some (ta, tb) else none

def vmrcNone : List Nat × Nat := ([f32.infBits false, f32.infBits false, 0, 0], 0)

/-- The result of VMRC for one lane; `free` are the values where the spec states none: some leaf meets the ray on every axis whose slab is
stated, and an axis is left without one (entry 9). -/
def vmrcLane (m : TreeMem) (h : Hdr) (ws : List Nat) (free : List Nat) : Walk (List Nat × Nat) := do
  let v := ws.map (unpackFp f32)
  let t0 := Ext.of ((v[6]?).getD (.inf false))
  let t1 := Ext.of ((v[7]?).getD (.inf false))
  if v.any FV.isNan || !t0.le t1 then return vmrcNone
  let ls ← m.leaves h
  let hits ← ls.filterMapM fun l => do
    let mask ← m.num (l.1 + 64) 64
    return if mask == 0 then none else (meetLeaf v l.2).map fun t => (l, t)
  let ax := fun i => openAxis ((v[i]?).getD (.nan false)) ((v[i + 3]?).getD (.nan false))
  if hits != [] && (ax 0 || ax 1 || ax 2) then return (free, 0)
  let best := hits.foldl (fun (b : Option ((Nat × Pt) × (Ext × Ext))) x => match b with
    | none => some x
    | some y => if !(y.2.1.le x.2.1) || (x.2.1.le y.2.1 && x.1.2.morton < y.1.2.morton) then some x else b) none
  match best with
  | none => return vmrcNone
  | some (l, ta, tb) =>
    let a := ta.round .rdn
    let b := tb.round .rup
    return ([a.1, b.1, low 32 l.1, l.1 / 2 ^ 32], a.2 ||| b.2)

def execVmrc (f : RWord) (s : State) : Host.Outcome State Fault Refusal :=
  issueWord (.vmrc f) (fun e =>
    let m := e.treeMem
    .ok (e.s.putG e.gid (e.walkPend (.vmrc f) f 4 fun l => do
      let h ← m.header (e.rd64 l f.b)
      let ws := (List.range 8).map fun j => e.rd32 l (Opd.plus f.a j)
      let free := (List.range 4).map fun j => low 32 (Config.freeOf (e.rd64 l f.b :: h.gen :: ws) j).toNat
      vmrcLane m h ws free))) s

/-! ### The leaf pool (R304, R305) -/

/-- The frames of the issuing group (R292). -/
def Env.frames (e : Env) : List Nat :=
  (List.range e.lch.lr.leafpool).filter fun i => i % (max e.lch.lr.groups 1) == gidG e.gid
def Env.frameAddr (e : Env) (i : Nat) : Nat := e.spb + e.lch.layout.pool + 4224 * i

/-- A scalar V-class result for every executing slice. -/
def Env.scalarPend (e : Env) (f : RWord) (x : Nat) (fails : List (Nat × FaultRec)) : Group :=
  let cs := e.execSlices f.k
  e.g.addPend { e.newPend f.d 1 (sliceBits (e.exec f.k)) with
    sw := if fails != [] then [] else match f.d with | .s r => cs.map fun c => (8 * r.val + c, BitVec.ofNat 64 x) | _ => []
    fails := fails }

/-- A leaf record of the tree that its own bytes name (R295, R304). -/
def TreeMem.leafOf (m : TreeMem) (h : Nat) : Walk Hdr := do
  if h == 0 || h % 64 != 0 then throw (0x0F, h)
  let o ← m.num h 12
  let kind ← m.num (h + 12) 1
  let tree ← m.num (h + 24) 8
  let hd ← m.header tree
  let t ← m.path hd ⟨fld o 0 32, fld o 32 32, fld o 64 32⟩
  if kind == 0 && t.leaf == h then return hd else throw (0x0F, h)

/-- The leaf that VLEAF names: its header and handle, 0 where absent. -/
def leafArg (m : TreeMem) (f : RWord) (v : Nat → Nat) : Walk (Nat × Nat) := do
  if f.m == 1 then
    let hd ← m.leafOf (v 0)
    return (hd.vt, v 0)
  else
    let hd ← m.header (v 3)
    let t ← m.path hd ⟨low 32 (v 0), low 32 (v 1), low 32 (v 2)⟩
    return (hd.vt, t.leaf)

def execVleaf (f : RWord) (s : State) : Host.Outcome State Fault Refusal :=
  onceWord (.vleaf f) (fun e => do
    let os := if f.m == 1 then [f.a] else [f.a, Opd.plus f.a 1, Opd.plus f.a 2, f.b]
    let vs ← e.agreed f.k os
    let m := e.treeMem
    let fail := fun (c a : Nat) =>
      e.s.putG e.gid (e.scalarPend f 0 (e.fails (.vleaf f) ((e.execSlices f.k).map fun c' =>
        (4 * c', { code := c, fslice := some c', addr := a }))))
    match leafArg m f fun i => (vs[i]?).getD 0 with
    | .error (c, a) => return .ok (fail c a)
    | .ok (_, 0) => return .ok (e.s.putG e.gid (e.scalarPend f 0 []))
    | .ok (vt, leaf) =>
      match e.frames.find? fun i => (tget i e.team.pins).isNone with
      | none => throw (flt 0x0F)
      | some i =>
        match m.num leaf (leafBytes vt) with
        -- the frame is pinned at issue; the fault comes at the marker
        | .error (c, a) => return .ok ((fail c a).modT e.tid fun t => { t with pins := tput i (gidG e.gid) t.pins })
        | .ok n =>
          let off := e.lch.layout.pool + 4224 * i
          return .ok ((e.s.putG e.gid (e.scalarPend f (e.frameAddr i) [])).modT e.tid fun t =>
            { t with pins := tput i (gidG e.gid) t.pins,
                     data := t.data.apply (MemW.ofCells (cells off (leBytes 4224 n))) })) s

def execVleafRel (f : RWord) (s : State) : Host.Outcome State Fault Refusal :=
  onceWord (.vleafRel f) (fun e => do
    let vs ← e.agreed f.k [f.a]
    let a := (vs[0]?).getD 0
    match e.frames.find? fun i => e.frameAddr i == a && tget i e.team.pins == some (gidG e.gid) with
    | none => throw { code := 0x0F, addr := a }
    | some i => return .ok (e.s.modT e.tid fun t => { t with pins := tdel i t.pins })) s

/-! ### VSET and VACT (R306, R307) -/

/-- A walk's failure at issue (R298). -/
def ofWalk {α : Type} (lane : Nat) (w : Walk α) : Chk α :=
  match w with | .ok x => .ok x | .error (c, a) => .error { code := c, lane := lane, addr := a }

/-- The record that a lane of VSET writes to, and the bytes' keys (R306). Bytes in a page that does not permit writing raise 0x0F at issue
(entry 28). -/
def Env.vsetTarget (e : Env) (m : TreeMem) (f : RWord) (l : Nat) : Walk (Nat × List Nat) := do
  let vb := valueBytes (vtypeOf f.ty)
  let p := e.point f l
  let leaf ← if f.m == 1 then
      let h := e.rd64 l f.b
      let page := match translate e.s e.cid h with | .ok p => p.ty == 1 || p.ty == 2 | .error _ => false
      if h % 64 != 0 || !page then throw (0x0F, h) else pure h
    else do
      let h ← e.walkHeader m f l
      let t ← m.path h p
      if t.leaf == 0 then throw (0x0F, h.at') else pure t.leaf
  let va := leaf + 128 + p.voxel * vb
  let ks ← (List.range vb).mapM fun i => m.key true (va + i)
  return (va, ks)

def execVset (f : RWord) (s : State) : Host.Outcome State Fault Refusal :=
  issueWord (.vset f) (fun e => ofChk (do
    let m := e.treeMem
    let vb := valueBytes (vtypeOf f.ty)
    let ls := e.execLanes f.k
    let ts ← ls.mapM fun l => ofWalk l (e.vsetTarget m f l)
    match e.team.charge e.lch.lr.dquota (memLines (ts.map fun t => (t.1, vb))) 0 with
    | none => throw (flt 0x09)
    | some t =>
      let ws := (ls.zip ts).flatMap fun x =>
        x.2.2.zip (leBytes vb (if f.ty == .f64 then e.rd64 x.1 f.d else e.rd32 x.1 f.d))
      let s := if ls == [] then e.s else (e.s.putT e.tid t).modG e.gid fun g => g.modLvl e.sub.mask fun v =>
        { v with gmem := v.gmem.andThen (MemW.ofCells ws) }
      return .ok s)) s

/-- The points of the executing lanes. -/
def Env.points (e : Env) (f : RWord) : List (Nat × Nat × Nat × Nat) :=
  (e.execLanes f.k).map fun l => let p := e.point f l; (l, p.x, p.y, p.z)

/-- The charge key of an absent leaf, apart from every line's: its tree and its origin (R307). -/
def originLine (h : Nat) (o : Pt) : Nat := 2 ^ 64 * (2 ^ 96 * (h + 1) + o.num)

def execVact (f : RWord) (s : State) : Host.Outcome State Fault Refusal :=
  onceWord (.vact f) (fun e => do
    let vs ← e.agreed f.k [f.b]
    let h := (vs[0]?).getD 0
    let m := e.treeMem
    let hd ← ofWalk 255 (m.header h)
    let ps ← (e.execLanes f.k).mapM fun l => do
      let t ← ofWalk l (m.path hd (e.point f l))
      return (e.point f l, t.leaf)
    let lines := memLines ((ps.filter fun x => x.2 != 0).map fun x => (x.2 + 64 + 4 * (x.1.voxel / 32), 4))
    -- an absent leaf is charged as one line, once in the interval (R224, R307)
    let absent := (ps.filter fun x => x.2 == 0).map fun x => originLine h (x.1.origin 8)
    match e.team.charge e.lch.lr.dquota (nunion lines absent) 0 with
    | none => throw (flt 0x09)
    | some t => return .ok (e.s.putT e.tid { t with
        toks := t.toks ++ [(gidG e.gid, .vact (bitOf f.m.val 0) (e.points f) (BitVec.ofNat 64 h))] })) s

/-! ### The allocator's words (R308) -/

/-- VINS and VDEL. R308 names their faults without an order: the header (0x0F) comes first, then the specifier and the slot (0x0B), then R27
(0x12), then the quota (0x09) (entry 28). -/
def Env.allocWord (e : Env) (f : RWord) (ins : Bool) : Chk Res := do
  let vs ← e.agreed f.k [f.b, f.c]
  let h := (vs[0]?).getD 0
  let _ ← ofWalk 255 (e.treeMem.header h)
  let sp ← e.spec ((vs[1]?).getD 0) [0, 15]
  match e.nextSlot sp with
  | some (x, _) => guardC (512 ≤ x.slotBytes) flt0B
  | none => pure ()
  if sp.mode == 0 then e.fetchOk
  match e.team.charge e.lch.lr.dquota [] (640 * (e.execLanes f.k).length) with
  | none => throw (flt 0x09)
  | some t =>
    if e.slotBusy sp then return .park (.slotFree sp.q) e.s
    let handle := match e.nextSlot sp with | some (_, a) => a | none => 0
    let (s, slot, _) := e.tokenSlot (e.s.putT e.tid t) sp handle 512
    return .ok (s.modT e.tid fun t => { t with
      toks := t.toks ++ [(gidG e.gid, .alloc ins (e.points f) (BitVec.ofNat 64 h) slot)] })

def execVins (f : RWord) (s : State) : Host.Outcome State Fault Refusal := onceWord (.vins f) (fun e => e.allocWord f true) s
def execVdel (f : RWord) (s : State) : Host.Outcome State Fault Refusal := onceWord (.vdel f) (fun e => e.allocWord f false) s

/-! ### Halo registrations (R311) -/

/-- HALO. R311 names its faults without an order: sB (0x01) comes first, then sA (0x07), then the header (0x0F), then the handles (0x0F)
(entry 28). -/
def execHalo (f : RWord) (s : State) : Host.Outcome State Fault Refusal :=
  onceWord (.halo f) (fun e => do
    let vs ← e.agreed f.k [f.a, f.b, f.c]
    let a := (vs[0]?).getD 0
    let b := (vs[1]?).getD 0
    let h := (vs[2]?).getD 0
    let n := fld b 0 16
    guardC (b < 2 ^ 20 && n ≤ 4096) (flt 0x01)
    guardC (a % 8 == 0 && e.spb ≤ a && a + 8 * n ≤ e.spb + e.lch.layout.rings) { code := 0x07, addr := a }
    let _ ← ofWalk 255 (e.treeMem.header h)
    let hs := (List.range n).map fun i => leNat (e.ownBytes (a - e.spb + 8 * i) 8)
    match hs.find? fun x => x == 0 || x % 64 != 0 with
    | some x => throw { code := 0x0F, addr := x }
    | none => return .ok (e.s.modL e.lid fun l => { l with
        halo := l.halo ++ hs.map fun x => (BitVec.ofNat 64 x, fld b 16 4, BitVec.ofNat 64 h) })) s

/-! ### Application of a round: memory as it then stands (R221) -/

/-- A grid's memory while a round applies: its image with the writes so far. -/
structure App where
  tm : TreeMem
  w : MemW := {}

def App.putKeys (a : App) (l : List Host.Cell) : App :=
  let w := MemW.ofCells l
  { tm := { a.tm with img := a.tm.img.apply w }, w := a.w.andThen w }
/-- A number of `n` bytes written at a virtual address. -/
def App.put (a : App) (va n x : Nat) : Walk App := do
  let ks ← (List.range n).mapM fun i => a.tm.key true (va + i)
  return a.putKeys (ks.zip (leBytes n x))

/-- A step of the allocator: what has changed so far, and where it stops the lane's status (R309). -/
abbrev Alloc (α : Type) := Except (App × Nat) α
def liftW {α : Type} (a : App) (w : Walk α) : Alloc α :=
  match w with | .ok x => .ok x | .error (c, _) => .error (a, if c == 0x15 then 3 else 4)

/-- The owner die of an origin (R296). -/
def Hdr.owner (h : Hdr) (o : Pt) : Nat :=
  fld ((match h.axis with | 0 => o.x | 1 => o.y | _ => o.z) ^^^ 2 ^ 31) h.shift 2

/-- An arena descriptor's TOP, LIMIT, FLEAF and PLEAF (R296). -/
def TreeMem.arena (m : TreeMem) (a : Nat) : Walk (Nat × Nat × Nat × Nat) := do
  let top ← m.num a 8
  let lim ← m.num (a + 8) 8
  let fl ← m.num (a + 16) 8
  let pl ← m.num (a + 24) 8
  let rest ← m.num (a + 44) 20
  if top < 64 || rest != 0 then throw (0x0F, a) else return (top, lim, fl, pl)

/-- A new node or leaf (R309): its address, or FULL. -/
def App.create (a : App) (h : Hdr) (o : Pt) (kind parent : Nat) (body : Nat) (size : Nat) : Alloc (App × Nat) := do
  let ar := (h.arenas[h.owner o]?).getD 0
  let (top, lim, fl, _) ← liftW a (a.tm.arena ar)
  let head := o.num + kind * 2 ^ 96 + h.vt * 2 ^ 104 + parent * 2 ^ 128 + h.at' * 2 ^ 192
  if kind == 0 && fl != 0 then
    if fl % 64 != 0 then throw (a, 4)
    let next ← liftW a (a.tm.num fl 8)
    if next % 64 != 0 then throw (a, 4)
    let a1 ← liftW a (a.put fl size (head + body * 2 ^ 512))
    let a2 ← liftW a (a1.put (ar + 16) 8 next)
    return (a2, fl)
  else
    let at' := (top + 63) / 64 * 64
    if lim < at' + size then throw (a, 2)
    let a1 ← liftW a (a.put (ar + at') size (head + body * 2 ^ 512))
    let a2 ← liftW a (a1.put ar 8 (at' + size))
    return (a2, ar + at')

/-- GEN and NLEAF counted (R309). -/
def App.count (a : App) (h : Hdr) (up : Bool) : Walk App := do
  let a ← a.put (h.at' + 28) 4 (low 32 (if up then h.nleaf + 1 else h.nleaf + (2 ^ 32 - 1)))
  a.put h.at' 8 (low 64 (h.gen + 1))

/-- The body of a fresh leaf: mask 0, every value BG. -/
def freshLeaf (h : Hdr) : Nat :=
  (List.range 512).foldl (fun n i => n + h.bg * 2 ^ (512 + 8 * valueBytes h.vt * i)) 0

/-- VINS for one lane (R309): the handle and the status. -/
def App.insert (a : App) (hv : Nat) (p : Pt) : Alloc (App × Nat × Nat) := do
  let h ← liftW a (a.tm.header hv)
  let t ← liftW a (a.tm.goodPath h p)
  if t.leaf != 0 then return (a, t.leaf, 0)
  let (a, up) ← if t.upper != 0 then pure (a, t.upper) else do
    match t.entry with
    | none => throw (a, 2)
    | some en =>
      let o := p.origin 1024
      let (a1, up) ← a.create h o 2 0 0 32832
      let a2 ← liftW a1 (a1.put en 32 (o.num + 2 ^ 96 + up * 2 ^ 128))
      pure (a2, up)
  let (a, lo) ← if t.lower != 0 then pure (a, t.lower) else do
    let (a1, lo) ← a.create h (p.origin 64) 1 up 0 4160
    let a2 ← liftW a1 (a1.put (up + 64 + 8 * p.upperSlot) 8 lo)
    pure (a2, lo)
  let (a1, leaf) ← a.create h (p.origin 8) 0 lo (freshLeaf h) (leafBytes h.vt)
  let a2 ← liftW a (a1.put (lo + 64 + 8 * p.lowerSlot) 8 leaf)
  let a3 ← liftW a (a2.count h true)
  return (a3, leaf, 1)

/-- VDEL for one lane (R309): the handle and the status. -/
def App.remove (a : App) (hv : Nat) (p : Pt) : Alloc (App × Nat × Nat) := do
  let h ← liftW a (a.tm.header hv)
  let t ← liftW a (a.tm.goodPath h p)
  if t.leaf == 0 then return (a, 0, 0)
  let ar := (h.arenas[h.owner (p.origin 8)]?).getD 0
  let (_, _, _, pl) ← liftW a (a.tm.arena ar)
  let a1 ← liftW a (a.put (t.lower + 64 + 8 * p.lowerSlot) 8 0)
  let a2 ← liftW a (a1.put t.leaf 8 pl)
  let a3 ← liftW a (a2.put (ar + 24) 8 t.leaf)
  let a4 ← liftW a (a3.count h false)
  return (a4, t.leaf, 1)

/-- The lanes of VINS or VDEL: the memory after them, each lane's handle and status. -/
def App.alloc (a : App) (ins : Bool) (hv : Nat) (ls : List (Nat × Nat × Nat × Nat)) : App × List (Nat × Nat × Nat) :=
  ls.foldl (fun (acc : App × List (Nat × Nat × Nat)) l =>
    let (a, out) := acc
    let p : Pt := ⟨l.2.1, l.2.2.1, l.2.2.2⟩
    match (if ins then a.insert hv p else a.remove hv p) with
      | .ok (a', h, st) => (a', out ++ [(l.1, h, st)])
      | .error (a', st) => (a', out ++ [(l.1, 0, st)])) (a, [])

/-- The slot bytes of VINS and VDEL, and its status (R309). -/
def allocSlot (out : List (Nat × Nat × Nat)) : List Byte × Nat :=
  ((List.range 32).flatMap fun l => match out.find? fun x => x.1 == l with
      | some (_, h, st) => leBytes 8 h ++ leBytes 1 st ++ leBytes 7 0
      | none => leBytes 16 0,
   if out.any fun x => x.2.2 == 4 then 4 else if out.any fun x => x.2.2 == 3 then 3 else 2)

/-- VACT when its round applies (R307): lanes whose leaf is absent, or whose tree bytes are invalid, have no effect. -/
def App.vact (a : App) (clr : Bool) (hv : Nat) (ls : List (Nat × Nat × Nat × Nat)) : App :=
  ls.foldl (fun (a : App) l =>
    let p : Pt := ⟨l.2.1, l.2.2.1, l.2.2.2⟩
    match (do
      let h ← a.tm.header hv
      let t ← a.tm.goodPath h p
      if t.leaf == 0 then throw (0, 0)
      let w := t.leaf + 64 + 4 * (p.voxel / 32)
      let old ← a.tm.num w 4
      let bit := 2 ^ (p.voxel % 32)
      a.put w 4 (if clr then old &&& (2 ^ 32 - 1 - bit) else old ||| bit) : Walk App) with
    | .ok a' => a'
    | .error _ => a) a

/-- PLEAF lists at a close (R296): that of each arena of some trees goes, in its own order, to the front of FLEAF. The module knows an arena
through a tree's header, so it reaches those of the trees that the launch has named to the allocator (entry 58). -/
def App.tailOf (a : App) : Nat → Nat → Nat
  | 0, x => x
  | n + 1, x => match a.tm.num x 8 with | .ok 0 => x | .ok y => a.tailOf n y | .error _ => x
def App.reclaim (a : App) (trees : List Nat) : App :=
  (trees.flatMap fun h => match a.tm.header h with | .ok x => x.arenas | .error _ => []).dedup.foldl (fun (a : App) ar => match (do
    let (_, _, fl, pl) ← a.tm.arena ar
    if pl == 0 then return a
    let a1 ← a.put (a.tailOf a.tm.img.data.length pl) 8 fl
    let a2 ← a1.put (ar + 16) 8 pl
    a2.put (ar + 24) 8 0 : Walk App) with
    | .ok a' => a' | .error _ => a) a

/-- Ghost frames and MSC lines while the HXEs deliver. -/
structure Halo where
  ghosts : Tab (Nat × W64 × List Byte)
  msc : List Nat
/-- A copy of a leaf in a free ghost frame of a die; without a free one, or an arena that can be read, the die is passed over. -/
def Halo.copy (m : TreeMem) (lid handle arena die : Nat) (bytes : List Byte) (g : Halo) : Halo :=
  match (do
    let base ← m.num (arena + 32) 8
    let k ← m.num (arena + 40) 4
    let key := fun i => die * 2 ^ 68 + m.cid * 2 ^ 64 + low 64 (base + 4224 * i)
    return match (List.range k).find? fun i => (tget (key i) g.ghosts).isNone with
      | some i => { g with ghosts := tput (key i) (lid, BitVec.ofNat 64 handle, bytes) g.ghosts }
      | none => g : Walk Halo) with
  | .ok g' => g' | .error _ => g
/-- The HXE deliveries of a TSBAR (R312): the leaf's lines go to the MSC of their home die, which is the owner die's where the arena lies there (R13
caches a line in no other), and a copy into a free ghost frame of every other
die of the mask; a handle that is no leaf, or that finds no free frame, is passed over. Poison in the leaf does not keep it from being
delivered. -/
def deliverHalo (mem : TreeMem) (lid : Nat) (regs : List (W64 × Nat × W64)) (start : Halo) : Halo :=
  let m := { mem with img := { mem.img with poison := [] } }
  regs.foldl (fun (g : Halo) r => match (do
    let hd ← m.header r.2.2.toNat
    let lh ← m.leafOf r.1.toNat
    if lh.at' != hd.at' then throw (0, 0)
    let o ← m.num r.1.toNat 12
    let n := leafBytes hd.vt
    let own := hd.owner ⟨fld o 0 32, fld o 32 32, fld o 64 32⟩
    let lines ← (memLines [(r.1.toNat, n)]).mapM fun l => m.key false (max r.1.toNat (128 * l))
    let g : Halo := { g with msc := nunion g.msc (lines.map homeLine) }
    let bytes ← m.num r.1.toNat n
    return ((List.range 4).filter fun d => bitOf r.2.1 d && d != own).foldl (fun g d =>
      g.copy m lid r.1.toNat ((hd.arenas[d]?).getD 0) d (leBytes n bytes)) g : Walk Halo) with
    | .ok g' => g' | .error _ => g) start

/-! ### The leaf-pointer cache (R292) -/

/-- Leaf pointers enter a core's cache, which keeps the newest 512. Nothing reads it for a result (R10, R297). -/
def State.cacheLeaves (s : State) (core cid : Nat) (hs : List Nat) : State :=
  let new := hs.map fun h => cid * 2 ^ 64 + h
  if new == [] then s
  else
    let old := (tget core s.leafCache).getD []
    { s with leafCache := tput core ((new.foldl (fun l k => k :: l.filter (· != k)) old).take 512) s.leafCache }
/-- The leaves that the lanes of a walk come to: the cache holds them once the word has issued. -/
def Env.walkedLeaves (e : Env) (i : Instr) : List Nat :=
  let m := e.treeMem
  let at' := fun (h : Nat) (p : Pt) => match (do let hd ← m.header h; m.path hd p : Walk TPath) with
    | .ok t => if t.leaf == 0 then [] else [t.leaf]
    | .error _ => []
  let base := fun (f : RWord) l => (⟨f32Floor (e.rd32 l f.a), f32Floor (e.rd32 l (Opd.plus f.a 1)), f32Floor (e.rd32 l (Opd.plus f.a 2))⟩ : Pt)
  match i with
  | .vget f | .vstn f => (e.execLanes f.k).flatMap fun l => at' (e.rd64 l f.b) (e.point f l)
  | .vsmp f => (e.execLanes f.k).flatMap fun l => at' (e.rd64 l f.b) (base f l)
  | .vleaf f => (e.execSlices f.k).flatMap fun c => if f.m == 1 then [] else at' (e.rd64 (4 * c) f.b) (e.point f (4 * c))
  | .vmrc f => (e.execLanes f.k).flatMap fun l => match (do
      let hd ← m.header (e.rd64 l f.b)
      vmrcLane m hd ((List.range 8).map fun j => e.rd32 l (Opd.plus f.a j)) [] : Walk (List Nat × Nat)) with
    | .ok ([_, _, a, b], _) => if a + b == 0 then [] else [a + b * 2 ^ 32]
    | _ => []
  | _ => []

end Sys2Proof.Machine
end

