-- ==== Sys2Proof/Machine/Rays.lean ====
section
/-! DEFINITION. Bounding trees and the canonical trace, the ray words, the log and replay, and the Aster table (chapter "Tables
continued: bounding trees, ray traversal and the Aster hint table", R315 to R336). -/

namespace Sys2Proof.Machine

/-! ### Exact values -/

def Ext.ofRat (q : Rat) : Ext := .frac q.num q.den
def Ext.lt (a b : Ext) : Bool := !b.le a
/-- A finite value as a rational. -/
def FV.rat (v : FV) : Rat :=
  let (m, e) := v.dy
  if 0 ≤ e then mkRat (m * (2 ^ e.toNat : Nat)) 1 else mkRat m (2 ^ (-e).toNat)
def FV.ext (v : FV) : Ext := match v with | .inf n => .inf n | v => Ext.ofRat v.rat
def FV.isFin : FV → Bool | .fin .. => true | _ => false
/-- An exact value rounded once to f64. -/
def Ext.f64 (rnd : Rnd) : Ext → W64
  | .inf n => BitVec.ofNat 64 (Machine.f64.infBits n)
  | .frac n d => let (q, e) := divDy 54 n.natAbs d 0
                 BitVec.ofNat 64 (roundFp Machine.f64 rnd false (n < 0) q e).1
def infW : W64 := BitVec.ofNat 64 (f64.infBits false)

/-- A closed interval. -/
abbrev Iv := Ext × Ext
def Iv.meet (a b : Iv) : Option Iv :=
  let lo := a.1.max b.1
  let hi := a.2.min b.2
  if lo.le hi then some (lo, hi) else none
def Iv.within (a b : Iv) : Bool := b.1.le a.1 && a.2.le b.2

/-- A vector of three exact values. -/
abbrev V3 := List Rat
def V3.at' (v : V3) (i : Nat) : Rat := (v[i]?).getD 0

/-! ### Boxes (R320) -/

/-- (a − o)/d for a bound. -/
def boundAt (a : Ext) (o d : Rat) : Ext :=
  match a with
  | .inf n => .inf (n != decide (d < 0))
  | .frac n m => Ext.ofRat ((mkRat n m - o) / d)

/-- The slab interval of a box: min x, y, z and max x, y, z. -/
def slabOf (box : List FV) (o d : V3) : Option Iv :=
  if box.any FV.isNan then none
  else (List.range 3).foldl (fun (acc : Option Iv) i =>
    let a := ((box[i]?).getD (.nan false)).ext
    let b := ((box[i + 3]?).getD (.nan false)).ext
    match acc with
    | none => none
    | some iv =>
      if !a.le b then none
      else if d.at' i == 0 then (if a.le (Ext.ofRat (o.at' i)) && (Ext.ofRat (o.at' i)).le b then some iv else none)
      else
        let x := boundAt a (o.at' i) (d.at' i)
        let y := boundAt b (o.at' i) (d.at' i)
        iv.meet (x.min y, x.max y)) (some (.inf true, .inf false))

/-! ### Triangles (R321, R322) -/

def absQ (q : Rat) : Rat := if q < 0 then -q else q

/-- t, u and v of a hit; vertices a, b, c as nine values. -/
def triangleHit (vs : List Rat) (o d : V3) : Option (Rat × Rat × Rat) :=
  let kz := (List.range 3).foldl (fun k i => if absQ (d.at' k) < absQ (d.at' i) then i else k) 0
  if d.at' kz == 0 then none
  else
    let k1 := (kz + 1) % 3
    let k2 := (k1 + 1) % 3
    let (kx, ky) := if d.at' kz < 0 then (k2, k1) else (k1, k2)
    let shear := fun (j : Nat) =>
      let p := fun k => (vs[3 * j + k]?).getD 0 - o.at' k
      (p kx - d.at' kx / d.at' kz * p kz, p ky - d.at' ky / d.at' kz * p kz, p kz / d.at' kz)
    let (ax, ay, az) := shear 0
    let (bx, by', bz) := shear 1
    let (cx, cy, cz) := shear 2
    let u := cx * by' - cy * bx
    let v := ax * cy - ay * cx
    let w := bx * ay - by' * ax
    let det := u + v + w
    if det == 0 then none
    else
      let pos := decide (0 < det)
      let edge := fun (x : Rat) (sx sy ex ey : Rat) =>
        let x := if pos then x else -x
        let (dx, dy) := if pos then (ex - sx, ey - sy) else (sx - ex, sy - ey)
        decide (0 < x) || x == 0 && (decide (0 < dy) || dy == 0 && decide (dx < 0))
      if edge u bx by' cx cy && edge v cx cy ax ay && edge w ax ay bx by' then
        some ((u * az + v * bz + w * cz) / det, v / det, w / det)
      else none

/-! ### Reading a bounding tree (R316 to R319) -/

/-- A bounding-tree header. -/
structure BHdr where
  gen : Nat
  root : Nat
  bounds : List Nat
  prim : Nat
  nprim : Nat
  kind : Nat
  lmax : Nat
  idx : Nat
  zero : Nat
  deriving DecidableEq, Repr

/-- The header in 64 bytes, read as a number. -/
def BHdr.of (b : Nat) : BHdr :=
  { gen := fld b 0 64, root := fld b 64 64, bounds := (List.range 6).map fun i => fld b (128 + 32 * i) 32,
    prim := fld b 320 64, nprim := fld b 384 32, kind := fld b 416 8, lmax := fld b 424 8, zero := fld b 432 16,
    idx := fld b 448 64 }
/-- The limits of R316. -/
def BHdr.ok (h : BHdr) : Bool :=
  h.root % 256 == 0 && h.prim % 16 == 0 && h.nprim ≤ 2 ^ 28 && h.kind ≤ 1 && 1 ≤ h.lmax && h.lmax ≤ 16 && h.zero == 0 &&
  h.idx % 4 == 0
def TreeMem.bhdr (m : TreeMem) (h : Nat) : Walk BHdr := do
  if h % 64 != 0 then throw (0x0F, h)
  let b ← m.num h 64
  let x := BHdr.of b
  if x.ok then return x else throw (0x0F, h)

/-- The box of child i of a node, and its reference (R317). -/
def nodeBox (b i : Nat) : List FV := (List.range 6).map fun j => unpackFp f32 (fld b (8 * (24 * i) + 32 * j) 32)
def nodeRef (b i : Nat) : Nat := fld b (8 * (192 + 8 * i)) 64
/-- Whether a reference keeps the format of R317. -/
def refOk (r : Nat) : Bool :=
  match r % 4 with | 0 => r == 0 | 1 => fld r 2 6 == 0 | 2 => fld r 38 26 == 0 | _ => false
def leafFirst (r : Nat) : Nat := fld r 2 32
def leafCount (r : Nat) : Nat := fld r 34 4 + 1

/-- A failing item (R330): the lower end of its interval, the fault code and the address. -/
abbrev Bad := Ext × Nat × Nat
/-- The nearest of some failing items. -/
def nearest (l : List Bad) : Option Bad :=
  l.foldl (fun b x => match b with
    | none => some x
    | some y => if x.1.lt y.1 || y.1.le x.1 && x.1.le y.1 && x.2.1 < y.2.1 then some x else b) none

/-- Every leaf child that a ray reaches: FIRST, COUNT and the path interval; and what fails. A node reached again within an
interval already followed adds nothing. -/
def TreeMem.sweep (m : TreeMem) (o d : V3) : Nat → List (Nat × Iv) → List (Nat × Iv) → List (Nat × Nat × Iv) → List Bad →
    List (Nat × Nat × Iv) × List Bad
  | 0, _, _, ls, bad => (ls, bad)
  | _, [], _, ls, bad => (ls, bad)
  | n + 1, (a, iv) :: work, seen, ls, bad =>
    if seen.any fun x => x.1 == a && iv.within x.2 then m.sweep o d n work seen ls bad
    else match m.num a 256 with
      | .error (c, va) => m.sweep o d n work ((a, iv) :: seen) ls ((iv.1, c, va) :: bad)
      | .ok b =>
        let kids := (List.range 8).filterMap fun i =>
          let r := nodeRef b i
          if r == 0 then none
          else if r % 4 == 0 then some (r, iv)
          else ((slabOf (nodeBox b i) o d).bind iv.meet).map fun j => (r, j)
        let wrong := kids.filter fun k => !refOk k.1
        let good := kids.filter fun k => refOk k.1
        m.sweep o d n (work ++ (good.filter fun k => k.1 % 4 == 1).map fun k => (k.1 - 1, k.2)) ((a, iv) :: seen)
          (ls ++ (good.filter fun k => k.1 % 4 == 2).map fun k => (leafFirst k.1, leafCount k.1, k.2))
          (bad ++ wrong.map fun k => (k.2.1, 0x0F, a))

/-- Record numbers of some leaves, with their intervals and their leaf. -/
def TreeMem.records (m : TreeMem) (h : BHdr) (ls : List (Nat × Nat × Iv)) : List (Nat × Iv × Nat) × List Bad :=
  ls.foldl (fun acc l => (List.range l.2.1).foldl (fun (acc : List (Nat × Iv × Nat) × List Bad) i =>
    let at' := h.idx + 4 * (l.1 + i)
    match m.num at' 4 with
    | .error (c, a) => (acc.1, (l.2.2.1, c, a) :: acc.2)
    | .ok p => if p < h.nprim then (acc.1 ++ [(p, l.2.2, l.1)], acc.2) else (acc.1, (l.2.2.1, 0x0F, at') :: acc.2)) acc) ([], [])

/-- A primitive record of 80 bytes (R318); a format failure is 0x0F. -/
def TreeMem.primRec (m : TreeMem) (h : BHdr) (p : Nat) : Walk Nat := do
  let a := h.prim + 80 * p
  if h.nprim ≤ p then throw (0x0F, a)
  let b ← m.num a 80
  if 1 < fld b 576 8 || fld b 585 55 != 0 then throw (0x0F, a) else return b

/-- The ray through an instance (R319). A row of d′ has three terms: −0, which adds nothing to a sum rounded by RNE, stands for a fourth, so
that three products of −0 keep the sign (R73). -/
def instRay (b : Nat) (world : List W64) : List W64 :=
  let w := fun i => unpackFp f64 ((world[i]?).getD 0).toNat
  let mt := fun r c => unpackFp f64 (fld b (64 * (4 * r + c)) 64)
  let row := fun (r k : Nat) (c : FV) => BitVec.ofNat 64 (dotFp f64 .rne false c [(mt r 0, w k), (mt r 1, w (k + 1)), (mt r 2, w (k + 2))]).1
  (List.range 3).map (fun r => row r 0 (mt r 3)) ++ (List.range 3).map fun r => BitVec.ofNat 64
    (dotFp f64 .rne false (.fin true 0 0) [(mt r 0, w 3), (mt r 1, w 4), (mt r 2, w 5)]).1

def finW (x : W64) : Bool := (unpackFp f64 x.toNat).isFin
def ratW (x : W64) : Rat := (unpackFp f64 x.toNat).rat

/-! ### Collecting Q (R320, R323) -/

/-- Items found and failing items. -/
abbrev Found := List RayItem × List Bad

/-- One primitive reached by one path: a triangle counts when its t lies in some path's interval, and a user primitive has the
union of its intervals (R320). -/
def Found.prim (f : Found) (inst p : Nat) (b : Nat) (iv : Iv) (view : RayView) (o d : V3) (path : List Nat) : Found :=
  let opaq := bitOf b 584
  if fld b 576 8 == 0 then
    let vs := (List.range 9).map fun i => unpackFp f64 (fld b (64 * i) 64)
    if f.1.any (fun x => x.inst == inst && x.prim == p) || !vs.all FV.isFin then f
    else match triangleHit (vs.map FV.rat) o d with
      | none => f
      | some (t, u, v) =>
        let te := Ext.ofRat t
        if iv.1.le te && te.le iv.2 then
          (f.1 ++ [{ t := te, inst := inst, prim := p, kind := 0, tw := te.f64 .rne, u := (Ext.ofRat u).f64 .rne,
                     v := (Ext.ofRat v).f64 .rne, opaq := opaq, view := view, path := path }], f.2)
        else f
  else
    match (slabOf ((List.range 6).map fun i => unpackFp f32 (fld b (32 * i) 32)) o d).bind iv.meet with
    | none => f
    | some j =>
      if f.1.any fun x => x.inst == inst && x.prim == p then
        (f.1.map fun x => if x.inst == inst && x.prim == p then { x with t := x.t.min j.1, hi := x.hi.max j.2 } else x, f.2)
      else (f.1 ++ [{ t := j.1, inst := inst, prim := p, kind := 2, hi := j.2, opaq := opaq, view := view, path := path }], f.2)

/-- More than the worklist of any tree in memory. -/
def walkFuel : Nat := 2 ^ 64

/-- A bottom tree seen in one ray (R320): its items for an instance. -/
def TreeMem.bottom (m : TreeMem) (h : BHdr) (inst : Nat) (ray : List W64) (iv : Iv) (top : Nat) (f : Found) : Found :=
  let q := ray.map ratW
  let o := q.take 3
  let d := q.drop 3
  let (ls, bad) := if h.root == 0 then ([], []) else m.sweep o d walkFuel [(h.root, iv)] [] [] []
  let (ps, bad') := m.records h ls
  ps.foldl (fun (f : Found) p => match m.primRec h p.1 with
    | .error (c, a) => (f.1, (p.2.1.1, c, a) :: f.2)
    | .ok b => f.prim inst p.1 b p.2.1 { org := ray.take 3, dir := ray.drop 3, prm := leBytes 72 b } o d [top, inst, p.2.2])
    (f.1, f.2 ++ bad ++ bad')

/-- An instance reached by one path: its own box ends the world part of the path (R319, R320). -/
def TreeMem.instance' (m : TreeMem) (h : BHdr) (world : List W64) (i : Nat) (iv : Iv) (leaf : Nat) (f : Found) : Found :=
  let a := h.prim + 128 * i
  match m.num a 128 with
  | .error (c, va) => (f.1, (iv.1, c, va) :: f.2)
  | .ok b =>
    let q := world.map ratW
    match (slabOf ((List.range 6).map fun j => unpackFp f32 (fld b (832 + 32 * j) 32)) (q.take 3) ((q.drop 3).take 3)).bind iv.meet with
    | none => f
    | some j =>
      let ray := instRay b world
      if !ray.all finW then f
      else match m.bhdr (fld b 768 64) with
        | .error (c, va) => (f.1, (j.1, c, va) :: f.2)
        | .ok bh => if bh.kind == 0 then m.bottom bh i ray j leaf f else (f.1, (j.1, 0x0F, fld b 768 64) :: f.2)

/-- The items of Q and what fails, for a ray that is not void. -/
def TreeMem.collect (m : TreeMem) (h : BHdr) (world : List W64) (iv : Iv) : Found :=
  if h.kind == 0 then m.bottom h 0 (world.take 6) iv 0 ([], [])
  else
    let q := (world.take 6).map ratW
    let (ls, bad) := if h.root == 0 then ([], []) else m.sweep (q.take 3) (q.drop 3) walkFuel [(h.root, iv)] [] [] []
    let (is, bad') := m.records h ls
    is.foldl (fun f i => m.instance' h (world.take 6) i.1 i.2.1 i.2.2 f) ([], bad ++ bad')

/-- The order of keys (R323). -/
def RayItem.before (a b : RayItem) : Bool :=
  a.t.lt b.t || a.t.le b.t && (a.inst < b.inst || a.inst == b.inst && (a.prim < b.prim || a.prim == b.prim && a.kind < b.kind))
def insertItem (x : RayItem) : List RayItem → List RayItem
  | [] => [x]
  | y :: l => if x.before y then x :: y :: l else y :: insertItem x l

/-- An item as the procedure takes it: a user primitive's key is t0. -/
def RayItem.keyed (x : RayItem) : RayItem :=
  if x.kind == 2 then
    let w := x.t.f64 .rdn
    { x with t := (unpackFp f64 w.toNat).ext, tw := w }
  else x

/-! ### The Aster key (R331) -/

def clampN (hi : Nat) (x : Int) : Nat := min x.toNat hi
/-- The Aster key of a ray; an axis of BOUNDS without finite ends takes 0 (entry 17). -/
def asterKey (h : BHdr) (ctx : Nat) (world : List W64) : List Byte :=
  let q : V3 := world.map ratW
  let pos := fun i =>
    let lo := unpackFp f32 ((h.bounds[i]?).getD 0)
    let hi := unpackFp f32 ((h.bounds[i + 3]?).getD 0)
    if lo.isFin && hi.isFin && decide (lo.rat < hi.rat) then
      clampN 1023 (1024 * (V3.at' q i - lo.rat) / (hi.rat - lo.rat)).floor
    else 0
  let s := absQ (V3.at' q 3) + absQ (V3.at' q 4) + absQ (V3.at' q 5)
  let p := fun i => V3.at' q (3 + i) / s
  let sg := fun (x : Rat) => if x < 0 then (-1 : Rat) else 1
  let (px, py) := if V3.at' q 5 < 0 then ((1 - absQ (p 1)) * sg (p 0), (1 - absQ (p 0)) * sg (p 1)) else (p 0, p 1)
  leBytes 4 (pos 0 + 2 ^ 10 * pos 1 + 2 ^ 20 * pos 2) ++ leBytes 1 (clampN 255 (128 * (px + 1)).floor) ++
  leBytes 1 (clampN 255 (128 * (py + 1)).floor) ++ leBytes 1 ctx ++ leBytes 1 0 ++ leBytes 8 h.gen

/-! ### The procedure (R323, R330) -/

/-- A void ray (R325). -/
def voidRay (world : List W64) : Bool :=
  let v := world.map fun w => unpackFp f64 w.toNat
  let g := fun (i : Nat) => (v[i]?).getD (FV.nan false)
  !(v.take 6).all FV.isFin || ((v.drop 3).take 3).all FV.isZero || (g 6).isNan || (g 7).isNan || !(g 6).ext.le (g 7).ext

/-- The ray at the start of a trace. -/
def TreeMem.start (m : TreeMem) (world : List W64) (noAny : Bool) (hv : Nat) : Ray :=
  let r : Ray := { world := world, noAny := noAny }
  if voidRay world then r
  else
    let t := fun i => (unpackFp f64 ((world[i]?).getD 0).toNat).ext
    match m.bhdr hv with
    | .error (c, a) => { r with c := t 7, bad := some (.inf true, c, a) }
    | .ok h =>
      let f := m.collect h world (t 6, t 7)
      { r with c := t 7, q := (f.1.map RayItem.keyed).foldl (fun l x => insertItem x l) [], bad := nearest f.2,
               key := asterKey h m.cid world }

/-- Accept(e). -/
def Ray.accept (r : Ray) (x : RayItem) : Ray := if r.best.isNone then { r with best := some x, c := x.t } else r
def Ray.finish (r : Ray) (ev : Nat) (x : Option RayItem) : Ray :=
  { r with phase := .done, event := ev, item := x, outcome := if ev == 4 then 2 else ev, q := [], bad := none }

/-- The next event, or the fault that ends the ray. -/
def Ray.advance : Nat → Ray → Ray × Option (Nat × Nat)
  | 0, r => (r, none)
  | n + 1, r =>
    let failed := fun (t : Ext) => match r.bad with | some b => if b.1.le t then some b.2 else none | none => none
    let stop := match failed r.c with
      | some f => (r.finish 4 none, some f)
      | none => (match r.best with | some x => r.finish 1 (some x) | none => r.finish 0 none, none)
    match r.q with
    | [] => stop
    | x :: q =>
      if !x.t.le r.c then stop
      else match failed x.t with
        | some f => (r.finish 4 none, some f)
        | none =>
          if x.kind == 2 then
            ({ r with q := q, phase := .opened, event := 2, item := some x, t1 := (x.hi.min r.c).f64 .rup }, none)
          else if x.opaq || r.noAny then Ray.advance n (({ r with q := q }).accept x)
          else ({ r with q := q, phase := .opened, event := 3, item := some x }, none)
def Ray.go (r : Ray) : Ray × Option (Nat × Nat) := r.advance (r.q.length + 1)

/-- The entry of the open event with its answer (R335). -/
def Ray.entry (r : Ray) (hit : Bool) (tr : W64) : LogEntry :=
  let x := r.item.getD default
  if r.event == 2 then
    { kind := 1, resp := if hit then 1 else 0, inst := x.inst, prim := x.prim, x := x.tw, y := r.t1, w := if hit then tr else 0 }
  else { kind := 2, resp := if hit then 1 else 0, inst := x.inst, prim := x.prim, x := x.tw, y := x.u, w := x.v }

/-- The answer to the open event, and the next event (R323, R328). -/
def Ray.answer (r : Ray) (hit : Bool) (tr : W64) : Ray × Option (Nat × Nat) :=
  let x := r.item.getD default
  let r' := { r with entries := r.entries ++ [r.entry hit tr] }
  if r.event == 2 then
    let v := unpackFp f64 tr.toNat
    let f := fun (w : W64) => (unpackFp f64 w.toNat).ext
    if hit && !v.isNan && (f x.tw).le v.ext && v.ext.le (f r.t1) then
      ({ r' with q := insertItem { x with t := v.ext, kind := 1, tw := tr, u := 0, v := 0 } r'.q }).go
    else r'.go
  else if hit then (r'.accept x).go
  else r'.go

/-- The end by `.kill` or EXIT (R328). -/
def Ray.kill (r : Ray) : Ray := Ray.finish { r with entries := r.entries ++ [r.entry false 0] } 4 none

/-- The next event of a replay (R336). -/
def Ray.replayNext (r : Ray) : Ray :=
  match r.rest with
  | (x, v) :: rest =>
    let it : RayItem := { t := .inf false, inst := x.inst, prim := x.prim, kind := if x.kind == 1 then 2 else 0, tw := x.x,
                          u := if x.kind == 1 then 0 else x.y, v := if x.kind == 1 then 0 else x.w, view := v }
    { r with rest := rest, event := if x.kind == 1 then 2 else 3, item := some it, t1 := x.y, resp := x.resp == 1,
             ret := if x.kind == 1 then x.w else 0 }
  | [] => { r with phase := .done, event := if r.outcome ≤ 1 then r.outcome else 4, item := if r.outcome == 1 then r.final else none,
                   resp := false, ret := 0 }

/-- The registers vD to vD + 7 (R327). -/
def Ray.words (r : Ray) (rep : Bool) : List Nat :=
  let x := r.item.getD default
  let has := r.event == 1 || r.event == 2 || r.event == 3
  let t := (if has then x.tw else infW).toNat
  let t1 := if r.event == 2 then r.t1.toNat else 0
  [r.event + (if rep then 256 else 0) + (if rep && r.resp then 512 else 0), if has then x.inst else 0, if has then x.prim else 0, 0,
   low 32 t, t / 2 ^ 32, low 32 t1, t1 / 2 ^ 32]

/-! ### The log (R334, R335) -/

def LogEntry.bytes (x : LogEntry) : List Byte :=
  leBytes 1 x.kind ++ leBytes 1 x.resp ++ leBytes 2 0 ++ leBytes 4 x.inst ++ leBytes 4 x.prim ++ leBytes 4 0 ++
  leBytes 8 x.x.toNat ++ leBytes 8 x.y.toNat ++ leBytes 8 x.w.toNat ++ leBytes 8 0

/-- A ray's part of the log. -/
def Ray.logBytes (r : Ray) (lane : Nat) : List Byte :=
  let x := if r.outcome == 1 then r.item.getD default else ({ (default : RayItem) with tw := infW })
  leBytes 8 r.rayId.toNat ++ leBytes 1 lane ++ leBytes 1 r.outcome ++ leBytes 2 0 ++ leBytes 4 r.entries.length ++
  leBytes 4 x.inst ++ leBytes 4 x.prim ++ leBytes 8 x.tw.toNat ++ leBytes 8 x.u.toNat ++ leBytes 8 x.v.toNat ++
  (List.range 8).flatMap (fun i => leBytes 8 ((r.world[i]?).getD 0).toNat) ++ leBytes 16 0 ++ r.entries.flatMap LogEntry.bytes

/-- A lane's ray has ended: its log takes the part, and is written when every lane is done. -/
def State.logRay (s : State) (lane : Nat) (r : Ray) : State :=
  match r.job with
  | none => s
  | some id => match tget id s.ops with
    | none => s
    | some o => match o.kind with
      | .log n parts =>
        let parts := tput lane (r.logBytes lane) parts
        if parts.length < n then { s with ops := tput id { o with kind := .log n parts } s.ops }
        else
          let body := parts.flatMap (·.2)
          let len := body.length + 16
          let bs := leBytes 4 parts.length ++ leBytes 4 len ++ leBytes 8 0 ++ body
          match o.slot, tget (gidTid o.gid) s.teams with
          | some (q, sq), some t => match tget q t.queues with
            | some x =>
              let ps := (bs.take x.slotBytes).zipIdx.map fun b =>
                ({ chip := true, at' := x.slotAddr sq - spbOf t.team + b.2, v := some b.1 } : Put)
              s.endOp id o ps (if x.slotBytes < len then 5 else 2) (some len)
            | none => s
          | _, _ => s
      | _ => s

/-! ### The Aster table (R331 to R333) -/

def asterIndex (die set way : Nat) : Nat := die * 2 ^ 20 + set * 16 + way
/-- A completed ray that hit a triangle writes its path: into the first enabled way that holds its key or nothing, else into the
lowest enabled one (entry 17). -/
def Env.asterNote (e : Env) (s : State) (r : Ray) : State :=
  match r.phase, r.event, r.item, r.rep with
  | .done, 1, some x, false =>
    let ways := (List.range 16).filter (bitOf e.ctx.f.wayMask.toNat)
    let at' := fun w => asterIndex e.die (crc32c r.key % 65536) w
    if x.kind != 0 then s
    else match (ways.find? fun w => match tget (at' w) s.aster with | some a => a.key == r.key | none => true).orElse
        (fun _ => ways.head?) with
      | none => s
      | some w => { s with aster := tput (at' w) { ctx := e.cid, key := r.key, path := x.path } s.aster }
  | _, _, _, _ => s

def execHinv (f : RWord) (s : State) : Host.Outcome State Fault Refusal :=
  onceWord (.hinv f) (fun e => .ok (.ok { e.s with aster := e.s.aster.filter fun a =>
    !(a.1 / 2 ^ 20 == e.die && bitOf e.ctx.f.wayMask.toNat (a.1 % 16)) })) s

/-! ### The ray words (R326 to R329, R334, R336) -/

def Group.ray (g : Group) (lane : Nat) : Ray := (tget lane g.rays).getD {}
def rayFault (lane : Nat) : Flt := { code := 0x17, lane := lane }

/-- The candidate buffer follows the traversal (R315). -/
def Ray.buffered (r : Ray) : Ray := { r with buf := r.q.take 32 }
/-- The new rays of some lanes put in place: their events pend, their logs and the Aster table follow. -/
def Env.rayEvents (e : Env) (i : Instr) (f : RWord) (s : State) (rs : List (Nat × Ray × Option (Nat × Nat) × Bool)) : State :=
  let g := rs.foldl (fun (g : Group) r => { g with rays := tput r.1 r.2.1.buffered g.rays }) ((tget e.gid s.groups).getD e.g)
  let g' := ({ e with g := g } : Env).walkPend i f 8 fun l => match rs.find? fun r => r.1 == l with
    | some (_, _, some x, _) => .error x
    | some (_, r, none, rep) => .ok (r.words rep, 0)
    | none => .ok ([], 0)
  rs.foldl (fun s r => if r.2.1.phase == .done && !r.2.2.2 then e.asterNote (s.logRay r.1 r.2.1) r.2.1 else s) (s.putG e.gid g')

/-- The eight f64 pairs of a ray in a lane (R327). -/
def Env.rayRegs (e : Env) (f : RWord) (l : Nat) : List W64 :=
  (List.range 8).map fun j => BitVec.ofNat 64 (e.rd64 l (Opd.plus f.a (2 * j)))

def execRtrc (f : RWord) (s : State) : Host.Outcome State Fault Refusal :=
  issueWord (.rtrc f) (fun e => ofChk (do
    let ls := e.execLanes f.k
    if ls == [] then return .ok e.s
    match ls.find? fun l => 2 ≤ e.rd64 l f.c with
    | some l => throw { code := 0x01, lane := l }
    | none => pure ()
    match ls.find? fun l => (e.g.ray l).phase == .opened with
    | some l => throw (rayFault l)
    | none => pure ()
    let sp : Spec := { mode := if e.g.logOn then 0 else 15, q := e.g.logQ }
    if e.g.logOn then let _ ← e.fillQueue e.g.logQ
    if e.slotBusy sp then return .park (.slotFree sp.q) e.s
    let id := e.s.nextOp
    let handle := match e.nextSlot sp with | some (_, a) => a | none => 0
    let s := if e.g.logOn then e.fork e.s sp [] { gid := e.gid, slices := 0, kind := .log ls.length [], engine := .log, mode := 0,
                                                  handle := BitVec.ofNat 64 handle } else e.s
    let m := e.treeMem
    let rs := ls.map fun l =>
      let n := (sget 0 e.g.rayCount l).toNat
      let r := { m.start (e.rayRegs f l) (bitOf (e.rd64 l f.c) 0) (e.rd64 l f.b) with
        rayId := BitVec.ofNat 64 (e.team.team * 2 ^ 32 + (32 * gidG e.gid + l) * 2 ^ 20 + n),
        job := if e.g.logOn then some id else none }
      let x := r.go
      (l, x.1, x.2, false)
    let s := s.modG e.gid fun g => { g with rayCount := ls.foldl (fun c l => sset 0 c l (sget 0 c l + 1)) g.rayCount }
    return .ok (e.rayEvents (.rtrc f) f s rs))) s

def execRcont (f : RWord) (s : State) : Host.Outcome State Fault Refusal :=
  issueWord (.rcont f) (fun e => ofChk (do
    let ls := e.execLanes f.k
    match ls.find? fun l => let r := e.g.ray l
        r.phase != .replay && (r.phase != .opened || 2 ≤ e.rd32 l f.a) with
    | some l => throw (rayFault l)
    | none => pure ()
    if ls == [] then return .ok e.s
    return .ok (e.rayEvents (.rcont f) f e.s (ls.map fun l =>
      let r := e.g.ray l
      if r.phase == .replay then (l, r.replayNext, none, true)
      else
        let x := r.answer (bitOf (e.rd32 l f.a) 0) (BitVec.ofNat 64 (e.rd64 l (Opd.plus f.a 2)))
        (l, x.1, x.2, false))))) s

def execRcontKill (f : RWord) (s : State) : Host.Outcome State Fault Refusal :=
  issueWord (.rcontKill f) (fun e => ofChk (do
    let ls := e.execLanes f.k
    match ls.find? fun l => (e.g.ray l).phase != .replay && (e.g.ray l).phase != .opened with
    | some l => throw (rayFault l)
    | none => pure ()
    if ls == [] then return .ok e.s
    return .ok (e.rayEvents (.rcontKill f) f e.s (ls.map fun l =>
      let r := e.g.ray l
      if r.phase == .replay then
        (l, { r with phase := .done, event := 4, item := none, rest := [], resp := false, ret := 0 }, none, true)
      else (l, r.kill, none, false))))) s

/-- The register words of RGET (R329), or the fault of a tree that could not be read. -/
def Ray.get (r : Ray) (sel : Nat) : Walk (List Nat) :=
  let pair := fun (w : W64) => [low 32 w.toNat, w.toNat / 2 ^ 32]
  let has := r.event == 1 || r.event == 2 || r.event == 3
  let x := r.item.getD default
  match sel with
  | 0 => .ok (if has && x.kind == 0 then pair x.u ++ pair x.v else [0, 0, 0, 0])
  | 3 => .ok (pair r.rayId)
  | 4 => .ok (if r.rep && r.event == 2 then pair r.ret else [0, 0])
  | _ => match (if !has then none else if sel == 5 then x.view.err else x.view.rayErr) with
    | some f => .error f
    | none =>
      if sel == 5 then .ok ((List.range 18).map fun i => if has then leNat ((x.view.prm.drop (4 * i)).take 4) else 0)
      else
        let ws := if has then (if sel == 1 then x.view.org else x.view.dir) else (r.world.drop (3 * (sel - 1))).take 3
        .ok (ws.flatMap pair)

def execRget (f : RWord) (s : State) : Host.Outcome State Fault Refusal :=
  issueWord (.rget f) (fun e => ofChk (do
    let ls := e.execLanes f.k
    let sel := f.m.val
    match ls.find? fun l => let r := e.g.ray l
        r.phase == .idle || r.rep && !r.tree && (sel == 1 || sel == 2 || sel == 5) with
    | some l => throw (rayFault l)
    | none => pure ()
    return .ok (e.s.putG e.gid (e.walkPend (.rget f) f (rgetSpan sel) fun l =>
      match (e.g.ray l).get sel with | .ok ws => .ok (ws, 0) | .error x => .error x)))) s

def execRlog (f : RWord) (s : State) : Host.Outcome State Fault Refusal :=
  onceWord (.rlog f) (fun e => do
    let vs ← e.agreed f.k [f.a]
    let a := (vs[0]?).getD 0
    guardC (a &&& (2 ^ 64 - 1 - 0x10F) == 0) (flt 0x01)
    let on := bitOf a 8
    if on then let _ ← e.fillQueue (fld a 0 4)
    return .ok (e.s.putG e.gid { e.g with logOn := on, logQ := fld a 0 4 })) s

/-- Bytes of the own team data or of slots that the group holds; none outside them (R336). -/
def Env.heldBytes (e : Env) (a n : Nat) : Option (List Byte) :=
  let off := a - e.spb
  let ok := e.spb ≤ a && off + n ≤ e.lch.layout.pool && (unitsOf off n).all fun u =>
    e.lch.areaOf (max off (64 * u)) == .data || e.team.holds e.lch (gidG e.gid) (max off (64 * u))
  if ok then some ((unitsOf off n).flatMap fun u =>
    let lo := max off (64 * u)
    e.ownBytes lo (min (off + n) (64 * u + 64) - lo)) else none
def Env.heldBad (e : Env) (a n : Nat) : Bool := (unitsOf (a - e.spb) n).any fun u => e.ownBad (64 * u) 1

/-- The ray through an instance of a tree, and the header of the bottom tree behind it (R319): o′ and d′ follow from the tree's header and the
instance record alone. -/
def TreeMem.through (m : TreeMem) (hv inst : Nat) (world : List W64) : Walk (List W64 × Walk BHdr) := do
  let h ← m.bhdr hv
  if h.kind == 0 then return (world.take 6, .ok h)
  else
    if h.nprim ≤ inst then throw (0x0F, h.prim + 128 * inst)
    let b ← m.num (h.prim + 128 * inst) 128
    return (instRay b (world.take 6), do
      let bh ← m.bhdr (fld b 768 64)
      if bh.kind == 0 then return bh else throw (0x0F, fld b 768 64))
/-- What RGET reads of a logged primitive (R329, R336). -/
def TreeMem.view (m : TreeMem) (hv inst prim : Nat) (world : List W64) : RayView :=
  match m.through hv inst world with
  | .error x => { rayErr := some x, err := some x }
  | .ok (ray, bottom) =>
    let v : RayView := { org := ray.take 3, dir := ray.drop 3 }
    match (do m.primRec (← bottom) prim : Walk Nat) with
    | .ok b => { v with prm := leBytes 72 b }
    | .error x => { v with err := some x }

/-- The replay that a ray header and its entries arm (R336). -/
def replayOf (bs : List Byte) (tree : Bool) (view : Nat → Nat → List W64 → RayView) : Ray :=
  let n := fun o k => leNat ((bs.drop o).take k)
  let w := fun o => BitVec.ofNat 64 (n o 8)
  let world := (List.range 8).map fun i => w (48 + 8 * i)
  let es := (List.range (n 12 4)).map fun i =>
    let o := 128 + 48 * i
    let x : LogEntry := { kind := n o 1, resp := n (o + 1) 1 % 2, inst := n (o + 4) 4, prim := n (o + 8) 4, x := w (o + 16),
                          y := w (o + 24), w := w (o + 32) }
    (x, view x.inst x.prim world)
  { phase := .replay, world := world, rayId := w 0, rep := true, tree := tree, rest := es, outcome := n 9 1,
    final := some { t := .inf false, inst := n 16 4, prim := n 20 4, kind := 0, tw := w 24, u := w 32, v := w 40,
                    view := view (n 16 4) (n 20 4) world } }

def execRrpl (f : RWord) (s : State) : Host.Outcome State Fault Refusal :=
  issueWord (.rrpl f) (fun e => ofChk (do
    let ls := e.execLanes f.k
    let m := e.treeMem
    let rs ← ls.mapM fun l => do
      guardC ((e.g.ray l).phase != .opened) (rayFault l)
      let a := e.rd64 l f.a
      let bad := { rayFault l with addr := a }
      match e.heldBytes a 128 with
      | none => throw bad
      | some h =>
        let n := 128 + 48 * leNat ((h.drop 12).take 4)
        match e.heldBytes a n with
        | none => throw bad
        | some bs =>
          guardC (!e.heldBad a n) { code := 0x15, lane := l, addr := a }
          guardC ((List.range ((n - 128) / 48)).all fun i =>
            let k := ((bs[128 + 48 * i]?).getD 0).toNat; k == 1 || k == 2) bad
          let hv := e.rd64 l f.b
          return (l, replayOf bs (hv != 0) fun i p w => if hv == 0 then {} else m.view hv i p w)
    return .ok (e.s.putG e.gid { e.g with rays := rs.foldl (fun t r => tput r.1 r.2 t) e.g.rays }))) s

/-! ### EXIT (R157, R328) -/

/-- The open rays of some lanes end as `.kill` ends them. -/
def Env.exitRays (e : Env) (s : State) (lanes : Nat) : State :=
  (lanesOf lanes).foldl (fun s l =>
    let r := e.g.ray l
    if r.phase == .opened then
      (s.modG e.gid fun g => { g with rays := tput l r.kill g.rays }).logRay l r.kill
    else s) s

def execExit (f : RWord) (s : State) : Host.Outcome State Fault Refusal :=
  issueWord (.exit f) (fun e =>
    let lanes := e.exec f.k
    if lanes == 0 then .ok e.s
    else
      let g := ((e.g.retireLanes lanes).advance e.sub.mask).modSub e.sub.mask fun x => { x with park := .none, lastPc := e.pc }
      let s := if g.kact == 0 then e.s.modT e.tid fun t => { t with
        lastExit := (gidG e.gid, e.pc, lowest (sliceBits lanes)) } else e.s
      .goto ((e.exitRays (s.putG e.gid g) lanes).rejoin e.gid)) s

end Sys2Proof.Machine
end

