-- ==== Sys2Proof/Machine/EngineEvents.lean ====
section
/-! DEFINITION. Building and refitting bounding trees (R337 to R339), and the events of the engines: completion, bulk chunks,
suspension and failure (R240, R252, R254 to R256). -/

namespace Sys2Proof.Machine

/-! ### BVHB (R337, R338) -/

/-- The end of a build: a status, and what it writes as ranges, bytes absent where damaged data would decide them. -/
structure BvhOut where
  status : Nat
  puts : List (Nat × List (Option Byte)) := []
/-- A step of a job: what holds it up, or the end that it has met. -/
abbrev Job (α : Type) := Except (Verdict ⊕ BvhOut) α

def jobFault {α : Type} : Job α := .error (.inr { status := 4 })
/-- Damaged data decide what the job writes: it ends with POISON, and all of that is damaged (R254). -/
def jobPoison {α : Type} (puts : List (Nat × Nat)) : Job α :=
  .error (.inr { status := 3, puts := puts.map fun r => (r.1, List.replicate r.2 none) })
/-- `n` bytes that the job reads, absent where damaged. -/
def State.jobBytes (s : State) (o : EngOp) (a n : Nat) : Job (List (Option Byte)) :=
  match s.opCheck o [(false, a, n)] with
  | .ok _ => .ok ((List.range n).map fun i => s.srcByte o (a + i))
  | v => .error (.inl v)
/-- Bytes as a number, where none is damaged. -/
def knownNum (bs : List (Option Byte)) : Option Nat := if bs.any Option.isNone then none else some (leNat (bs.map fun b => b.getD 0))
/-- `n` bytes of a record, from byte `at'` on. -/
def knownFld (bs : List (Option Byte)) (at' n : Nat) : Option Nat := knownNum ((bs.drop at').take n)
def State.jobDst (s : State) (o : EngOp) (a n : Nat) : Job Unit :=
  if n == 0 then .ok () else match s.opCheck o [(true, a, n)] with | .ok _ => .ok () | v => .error (.inl v)

/-- The union of boxes, by the minimum and maximum of R124 on each bound. -/
def boxUnion (a b : List Nat) : List Nat :=
  (List.range 6).map fun j => (minMaxFp f32 (3 ≤ j) ((a[j]?).getD 0) ((b[j]?).getD 0)).1
def boxesUnion : List (List Nat) → List Nat
  | [] => List.replicate 6 0
  | x :: l => l.foldl boxUnion x

/-- The box of a triangle: the smallest f32 box around its vertices. -/
def triangleBox (b : Nat) : List Nat :=
  (List.range 6).map fun j =>
    let c := fun v => fld b (64 * (3 * v + j % 3)) 64
    let m := (minMaxFp f64 (3 ≤ j) (minMaxFp f64 (3 ≤ j) (c 0) (c 1)).1 (c 2)).1
    (f2fFp f64 f32 (if j < 3 then .rdn else .rup) false m).1

/-- Words of `n` bytes that a box is made of, none where one is damaged; a NaN among those that are known ends the job with FAULT (R337). -/
def jobWords (f : Fmt) (bs : List (Option Byte)) (at' n count : Nat) : Job (Option (List Nat)) :=
  let ws := (List.range count).map fun i => knownFld bs (at' + n * i) n
  if ws.any fun w => w.any fun x => (unpackFp f x).isNan then jobFault else .ok (ws.mapM id)
/-- box(p), none where it is damaged; a NaN, or a record that R318 does not allow, ends the job with FAULT whatever else is damaged (entry 52). -/
def State.jobBox (s : State) (o : EngOp) (h : BHdr) (p : Nat) : Job (Option (List Nat)) := do
  if h.kind == 1 then jobWords f32 (← s.jobBytes o (h.prim + 128 * p) 128) 104 4 6
  else
    let bs ← s.jobBytes o (h.prim + 80 * p) 80
    match knownFld bs 72 1 with
    | some 0 => return (← jobWords f64 bs 0 8 9).map fun ws => triangleBox (leNat (ws.flatMap (leBytes 8)))
    | some 1 => jobWords f32 bs 0 4 6
    | some _ => jobFault
    | none => return none

/-- q of the Morton key on one axis, and whether it is a free value: the spec states none where an end is infinite (entry 9). -/
def mortonQ (lo hi blo bhi : Nat) (free : Nat) : Nat × Bool :=
  let f := fun w => unpackFp f32 w
  let (a, b, c, d) := (f lo, f hi, f blo, f bhi)
  if d.ext.le c.ext then (0, false)
  else if a.isFin && b.isFin && c.isFin && d.isFin then
    (clampN (2 ^ 21 - 1) (2 ^ 21 * ((a.rat + b.rat) / 2 - c.rat) / (d.rat - c.rat)).floor, false)
  else (free % 2 ^ 21, true)

def interleave (q : List Nat) : Nat :=
  (List.range 21).foldl (fun k i => (List.range 3).foldl (fun k j =>
    if bitOf ((q[j]?).getD 0) i then k + 2 ^ (3 * i + j) else k) k) 0

/-- The numbers of nodes by level, lowest level first, for some items below. -/
def levelSizes : Nat → Nat → List Nat
  | 0, _ => []
  | n + 1, k => if k == 0 then [] else let c := (k + 7) / 8; c :: (if c == 1 then [] else levelSizes n c)
/-- Nodes of a tree of `n` primitives (R337). -/
def nodeCount (n lmax : Nat) : Nat := (levelSizes 32 ((n + lmax - 1) / max lmax 1)).foldl (· + ·) 0

/-- A node: references and boxes of its children, the unused ones zero. -/
def nodeBytes (kids : List (Nat × List Nat)) : List Byte :=
  ((List.range 8).flatMap fun i => match kids[i]? with | some k => k.2.flatMap (leBytes 4) | none => leBytes 24 0) ++
  (List.range 8).flatMap fun i => match kids[i]? with | some k => leBytes 8 k.1 | none => leBytes 8 0

/-- The nodes of a build, in the order of the arena, and their number: levels go from the leaves up, and each stands before
the level below it. -/
def buildLevels (arena : Nat) : Nat → Nat → List (Nat × List Nat) → List Byte → List Byte
  | 0, _, _, acc => acc
  | n + 1, left, items, acc =>
    if items == [] then acc
    else
      let c := (items.length + 7) / 8
      let at' := left - c
      let nodes := (List.range c).map fun i => (items.drop (8 * i)).take 8
      let acc := nodes.flatMap nodeBytes ++ acc
      if c == 1 then acc
      else buildLevels arena n at' (nodes.zipIdx.map fun x => (arena + 256 * (at' + x.2) + 1, boxesUnion (x.1.map (·.2)))) acc

def headerBytes (b : Nat) (h : BHdr) : List Byte :=
  leBytes 8 (low 64 (h.gen + 1)) ++ leBytes 8 h.root ++ h.bounds.flatMap (leBytes 4) ++ leBytes 8 h.prim ++ leBytes 4 h.nprim ++
  leBytes 1 (fld b 416 8) ++ leBytes 1 h.lmax ++ leBytes 2 h.zero ++ leBytes 8 h.idx

/-- A header stands at a multiple of 64 in a page of type 1 or 2 (R316); a job over another ends with FAULT. What an engine may not reach at
all fails as in every operation first (R188, R256, R339). -/
def State.jobHeader (s : State) (o : EngOp) (hd : Nat) : Job Nat := do
  if hd % 64 != 0 then jobFault
  s.jobDst o hd 64
  match translate s o.cid hd with
  | .ok p => if p.ty != 1 && p.ty != 2 then jobFault
  | .error _ => pure ()
  match knownNum (← s.jobBytes o hd 64) with
  | some b => return b
  | none => jobPoison [(hd, 64)]

/-- BVHB.build (R337): what does not fit writes nothing, whatever its records hold, and neither does one with a box that holds a NaN, whatever is
damaged. -/
def State.bvhBuild (s : State) (o : EngOp) (hd arena size lmax : Nat) : Job BvhOut := do
  let b ← s.jobHeader o hd
  let h := BHdr.of b
  if 1 < h.kind || 2 ^ 28 < h.nprim then jobFault
  let n := h.nprim
  let nodes := nodeCount n lmax
  let total := 256 * nodes + 4 * n
  if size < total then jobFault
  s.jobDst o arena total
  let found ← (List.range n).mapM fun p => s.jobBox o h p
  if found.any Option.isNone then jobPoison [(hd, 64), (arena, total)]
  let boxes := found.map fun x => x.getD []
  let bounds := boxesUnion boxes
  let w := fun (x : List Nat) i => (x[i]?).getD 0
  let keys := boxes.zipIdx.map fun x =>
    let qs := (List.range 3).map fun j => mortonQ (w x.1 j) (w x.1 (j + 3)) (w bounds j) (w bounds (j + 3))
      (Config.freeOf (w x.1 j :: w x.1 (j + 3) :: w bounds j :: w bounds (j + 3) :: x.2 :: []) j).toNat
    (interleave (qs.map (·.1)), x.2, x.1)
  let sorted := keys.mergeSort fun x y => x.1 < y.1 || x.1 == y.1 && x.2.1 ≤ y.2.1
  let leaves := (List.range ((n + lmax - 1) / max lmax 1)).map fun i =>
    let run := (sorted.drop (lmax * i)).take lmax
    (2 + 4 * (lmax * i) + 2 ^ 34 * (run.length - 1), boxesUnion (run.map fun k => k.2.2))
  let body := buildLevels arena 32 nodes leaves [] ++ sorted.flatMap fun k => leBytes 4 k.2.1
  let h' := { h with root := if n == 0 then 0 else arena, bounds := bounds, lmax := lmax, idx := arena + 256 * nodes }
  return { status := 2, puts := [(hd, (headerBytes b h').map some), (arena, body.map some)] }

/-- The references of a node that are not damaged (R317). -/
def nodeRefs (bs : List (Option Byte)) : List Nat := (List.range 8).filterMap fun i => knownFld bs (192 + 8 * i) 8
/-- The nodes of a tree, by address, as far as undamaged references lead; a reference that R317 does not allow leads nowhere. -/
def State.bvhNodes (s : State) (o : EngOp) : Nat → List Nat → Tab (List (Option Byte)) → Job (Tab (List (Option Byte)))
  | 0, _, t => .ok t
  | _, [], t => .ok t
  | n + 1, a :: work, t => do
    if (tget a t).isSome then s.bvhNodes o n work t
    else
      let bs ← s.jobBytes o a 256
      s.bvhNodes o n (work ++ ((nodeRefs bs).filter fun r => refOk r && r % 4 == 1).map (· - 1)) (tput a bs t)
def State.bvhTree (s : State) (o : EngOp) (h : BHdr) : Job (Tab (List (Option Byte))) :=
  s.bvhNodes o walkFuel (if h.root == 0 then [] else [h.root]) []

/-- The boxes of a leaf's records, none where one is damaged; a record number outside the array ends the job with FAULT (R317). -/
def State.leafBoxes (s : State) (o : EngOp) (h : BHdr) (r : Nat) : Job (List (Option (List Nat))) :=
  (List.range (leafCount r)).mapM fun k => do
    match knownNum (← s.jobBytes o (h.idx + 4 * (leafFirst r + k)) 4) with
    | some p => if h.nprim ≤ p then jobFault else s.jobBox o h p
    | none => return none

/-- BVHB.refit (R338): every child box anew, from the highest node address down. A tree that fails R316 or R317 writes nothing, whatever is
damaged in it (entry 52). -/
def State.bvhRefit (s : State) (o : EngOp) (hd : Nat) : Job BvhOut := do
  let b ← s.jobHeader o hd
  let h := BHdr.of b
  if !h.ok then jobFault
  let tree ← s.bvhTree o h
  if tree.any fun x => (nodeRefs x.2).any fun r => !refOk r then jobFault
  (tkeys tree).forM fun a => s.jobDst o a 256
  let leaves ← (tree.flatMap fun x => (nodeRefs x.2).filter fun r => r % 4 == 2).mapM fun r => return (r, ← s.leafBoxes o h r)
  if tree.any (fun x => x.2.any Option.isNone) || leaves.any fun x => x.2.any Option.isNone then
    jobPoison ((hd, 64) :: (tkeys tree).map fun a => (a, 256))
  let nodes : Tab Nat := tree.map fun x => (x.1, (knownNum x.2).getD 0)
  let start : Tab (List (List Nat)) := nodes.map fun x => (x.1, (List.range 8).map fun i =>
    (List.range 6).map fun j => fld x.2 (8 * (24 * i) + 32 * j) 32)
  let whole := fun (t : Tab (List (List Nat))) (a : Nat) =>
    boxesUnion (((List.range 8).filter fun i => nodeRef ((tget a nodes).getD 0) i != 0).map fun i =>
      (((tget a t).getD [])[i]?).getD [])
  let boxes := nodes.reverse.foldl (fun (t : Tab (List (List Nat))) x => tput x.1 ((List.range 8).map fun i =>
    let r := nodeRef x.2 i
    match r % 4 with
    | 1 => whole t (r - 1)
    | 2 => boxesUnion (((leaves.find? fun l => l.1 == r).map (·.2)).getD [] |>.map fun x => x.getD [])
    | _ => List.replicate 6 0) t) start
  let h' := { h with bounds := if h.root == 0 then List.replicate 6 0 else whole boxes h.root }
  return { status := 2, puts := (hd, (headerBytes b h').map some) :: nodes.map fun x =>
    (x.1, (nodeBytes ((List.range 8).map fun i => (nodeRef x.2 i, (((tget x.1 boxes).getD [])[i]?).getD []))).map some) }

/-- What a build comes to: its end, or what holds it up. -/
def State.bvhJob (s : State) (o : EngOp) (refit : Bool) (hd arena size lmax : Nat) : Except Verdict BvhOut :=
  match (if refit then s.bvhRefit o hd else s.bvhBuild o hd arena size lmax) with
  | .ok r => .ok r
  | .error (.inr r) => .ok r
  | .error (.inl v) => .error v

/-- The ranges that a job reads, as far as its mapped pages give them: its header, the tree that a refit walks, and the records (R227). -/
def State.bvhReads (s : State) (o : EngOp) (refit : Bool) (hd size lmax : Nat) : List (Nat × Nat) :=
  (hd, 64) :: match s.jobHeader o hd with
    | .error _ => []
    | .ok b =>
      let h := BHdr.of b
      let records := (h.prim, (if h.kind == 1 then 128 else 80) * h.nprim)
      if !refit then (if 1 < h.kind || 2 ^ 28 < h.nprim || size < 256 * nodeCount h.nprim lmax + 4 * h.nprim then [] else [records])
      else if !h.ok then []
      else match s.bvhTree o h with
        | .ok t =>
          let tree := (tkeys t).map fun a => (a, 256)
          if t.any fun x => (nodeRefs x.2).any fun r => !refOk r then tree else records :: (h.idx, 4 * h.nprim) :: tree
        | .error _ => []
/-- The physical lines of them. -/
def State.bvhLines (s : State) (o : EngOp) : List Nat :=
  match o.kind with
  | .bvh refit hd _ size lmax => s.physLines o.cid (s.bvhReads o refit hd size lmax)
  | _ => []
/-- At its end the lines that a job has read beside those known and mapped at its issue enter the check of R227. -/
def State.noteBvh (s : State) (o : EngOp) : State := s.noteReads (gidTid o.gid) (nminus (s.bvhLines o) o.noted)

def State.bvhEnd (s : State) (id : Nat) (o : EngOp) (r : Except Verdict BvhOut) : State :=
  match r with
  | .error _ => s
  | .ok r =>
    let s := s.noteBvh o
    let ps := r.puts.flatMap fun w => w.2.zipIdx.flatMap fun x => s.putAt o (w.1 + x.2) x.1
    let n := r.puts.foldl (fun n w => n + w.2.length) 0
    s.endOp id o ps r.status (if r.status == 4 then none else some n)

/-- The nodes that a refit is charged for: their number follows from NPRIM and LMAX, whatever else the header holds (R338). They lie as a build
lays them out, the first at the root; under a header that names no tree they are bytes alone (entry 52). Answers a range and bytes. -/
def refitNodes (m : TreeMem) (hd : Nat) : (Nat × Nat) × Nat :=
  match m.num hd 64 with
  | .ok b =>
    let h := BHdr.of b
    let n := 256 * nodeCount h.nprim h.lmax
    if h.ok && h.root != 0 then ((h.root, n), 0) else ((0, 0), n)
  | .error _ => ((0, 0), 0)

/-- BVHB at issue (R337, R338). It runs as a BULK job: chunks of 64 KiB in the queue of a bulk engine. -/
def Env.bvhb (e : Env) (f : RWord) (refit : Bool) : Chk Res := do
  let v ← e.params f [f.d] (if refit then [3] else [0, 1, 2, 3])
  let (ar, size, lm, spec) := if refit then (0, 0, 0, v 1) else (v 1, v 2, v 3, v 4)
  guardC (refit || 1 ≤ lm && lm ≤ 16) (flt 0x01)
  let sp ← e.spec spec [0, 1]
  guardC (v 0 < 2 ^ 56) { code := 0x06, addr := v 0 }
  guardC (inMem (v 0)) { code := 0x07, addr := v 0 }
  let pageOk := match translate e.s e.cid ar with | .ok p => p.ty == 1 || p.ty == 2 | .error _ => false
  guardC (refit || ar % 256 == 0 && inMem ar && pageOk) { code := 0x04, addr := ar }
  let (body, extra) := if refit then refitNodes e.treeMem (v 0) else ((ar, size), 0)
  match e.team.charge e.lch.lr.dquota (memLines [(v 0, 64), body]) extra with
  | none => throw (flt 0x09)
  | some t =>
    if e.slotBusy sp then return .park (.slotFree sp.q) e.s
    let op : EngOp := { gid := e.gid, slices := 0, kind := .bvh refit (v 0) ar size lm, mode := sp.mode, handle := BitVec.ofNat 64 (v 0),
                        mem := e.memImage, engine := .bce, chunks := max 1 (chunksOf body.1 body.2) }
    let op := { op with noted := e.s.bvhLines op }
    return .ok ((e.fork (e.s.putT e.tid t) sp [] op).queueJob e.core0 e.s.nextOp op.chunks)

def execBvhbBuild (f : RWord) (s : State) : Host.Outcome State Fault Refusal :=
  onceWord (.bvhbBuild f) (fun e => e.bvhb f false) s
def execBvhbRefit (f : RWord) (s : State) : Host.Outcome State Fault Refusal :=
  onceWord (.bvhbRefit f) (fun e => e.bvhb f true) s

/-! ### Engine events (R240, R252, R254 to R256) -/

/-- An operation that its engine can work on. -/
def EngOp.active (o : EngOp) : Bool := o.state == .running && o.want.isNone
/-- Whether the copy engine alone finishes the operation. -/
def OpKind.copying : OpKind → Bool
  | .rows _ | .cldx .. | .pfch .. | .coll _ | .bvh .. => true
  | _ => false
/-- What keeps an operation from going on. -/
def State.opState (s : State) (o : EngOp) : Verdict :=
  match o.kind with
  | .bvh refit h ar size lmax => match s.bvhJob o refit h ar size lmax with | .error v => v | .ok _ => .ok 0
  | _ => s.opCheck o (s.opRanges o)

/-- The local part of a collective step: the contribution is read and sent (R258, R89). -/
def State.collLocal (s : State) (id : Nat) (o : EngOp) (c : CollOp) : State :=
  let bs := c.rows.flatMap fun r => match r.src with
    | some a => (List.range r.len).map fun i => s.srcByte o (a + i)
    | none => r.bytes
  let esz := Ty.collBytes c.ty
  let poison := bs.any Option.isNone
  -- poisoned data is contributed as zero (R258)
  let raw := bs.map fun b => b.getD 0
  let conv := (List.range c.count).map fun i => toWire c.ty c.x (leNat ((raw.drop (esz * i)).take esz))
  let summed := c.op < 2
  let p : Part := { rank := c.rank, op := c.op, ty := c.ty, count := c.count, x := c.x, root := c.root, poison := poison,
                    nv := summed && conv.any (fun r => r.2.1), rnx := summed && conv.any (fun r => r.2.2.1),
                    rsat := summed && conv.any (fun r => r.2.2.2),
                    wires := if summed then conv.map (·.1) else [], raw := raw, opid := some id }
  s.collSend o.cid c.entry c.step p
def State.collSent (s : State) (id : Nat) (o : EngOp) (c : CollOp) : Bool :=
  match tget o.cid s.ctxs with
  | some x => ((tget c.step (x.entry c.entry).steps).getD []).any fun p => p.opid == some id
  | none => true

/-- COPY_COMPLETE (R240): an engine finishes an operation that nothing holds up. A MCST slot that has taken more than its count stays OVERFILL
where the bytes are poisoned too (R247, R267 against R254, entry 47). -/
def execCopyComplete (id : Nat) (s : State) : Host.Outcome State Fault Refusal :=
  .next (match tget id s.ops with
    | none => s
    | some o =>
      if !(o.active && o.chunks == 0 && o.kind.copying) then s
      else match s.opState o with
        | .unmapped _ | .failed _ _ => s
        | .ok _ =>
          match o.kind with
          | .rows rs =>
            let ps := rs.flatMap (s.rowPuts o)
            s.endOp id o ps (if o.result == 2 && ps.any (fun p => p.v.isNone) then 3 else o.result) (some o.decl)
          | .cldx dst src ne ty =>
            let r := cldxBytes (fun i => s.srcByte o (src + i)) ne ty
            if s.cldxRefused o src ne ty then s.endOp id o [] 4 none
            else s.endOp id o (r.1.zipIdx.flatMap fun b => s.putAt o (dst + b.2) b.1) r.2 none
          | .pfch a n =>
            let lines := (memLines [(a, n)]).filterMap fun l => match engineAddr s o.cid false false false (128 * l) with
              | .ok k => if keyType k == 1 || keyType k == 2 then some (homeLine k) else none
              | _ => none
            { s with msc := nunion s.msc lines }.endOp id o [] 2 none
          | .coll c => match c.out with
            | some (status, _, bytes) => s.collFinish id o c status bytes
            | none => if s.collSent id o c then s else s.collLocal id o c
          | .bvh refit h ar size lmax => s.bvhEnd id o (s.bvhJob o refit h ar size lmax)
          | _ => s)

/-- BULK_CHUNK_COMPLETE (R252): a chunk of the job leaves the first queue that holds one, and an engine left without work takes one
from the fullest queue of its die. -/
def execBulkChunkComplete (id : Nat) (s : State) : Host.Outcome State Fault Refusal :=
  .next (match tget id s.ops with
    | some o =>
      if o.active && 0 < o.chunks then
        let s := { s with ops := tput id { o with chunks := o.chunks - 1 } s.ops }
        match s.bces.find? fun q => q.2.any fun x => x.1 == id with
        | some (k, l) => { s with bces := tput k (takeChunk id l) s.bces }.stealChunk k
        | none => s
      else s
    | none => s)

/-- The team, launch key, group and slice of an operation in the fault ring (R357). -/
def EngOp.who (o : EngOp) : Nat × Nat × Nat × Nat :=
  if 2 ^ 200 ≤ o.gid then (2 ^ 32 - 1, 0, 255, 255)
  else (gidTid o.gid % 2 ^ 32, lidKey (tidLid (gidTid o.gid)), gidG o.gid, lowest o.slices)

/-- An OPID for an operation: its own, or a new one. -/
def State.giveOpid (s : State) (o : EngOp) : W32 × State :=
  match o.opid with
  | some x => (x, s)
  | none => s.freshOpid o.cid

/-- COPY_SUSPEND (R255). -/
def execCopySuspend (id : Nat) (s : State) : Host.Outcome State Fault Refusal :=
  .next (match tget id s.ops with
    | none => s
    | some o => if !o.active then s else match s.opState o with
      | .unmapped va =>
        let (x, s) := s.giveOpid o
        let (team, key, g, sl) := o.who
        let s := { s with ops := tput id { o with state := .suspended va, opid := some x } s.ops }
        s.ringPut o.cid (ringEntry 2 6 team key x.toNat va g sl)
      | _ => s)

/-- COPY_FAIL (R256). -/
def execCopyFail (id : Nat) (s : State) : Host.Outcome State Fault Refusal :=
  .next (match tget id s.ops with
    | none => s
    | some o => if !o.active then s else match s.opState o with
      | .failed va code =>
        let (x, s) := s.giveOpid o
        let (team, key, g, sl) := o.who
        let s := s.endOp id { o with opid := none } [] 4 none
        s.ringPut o.cid (ringEntry 3 code team key x.toNat va g sl)
      | _ => s)

end Sys2Proof.Machine
end

