-- ==== Sys2Proof/Machine/Matrix.lean ====
section
/-! DEFINITION. Accumulator tiles, the B broadcast buffer, the matrix array and the sequencer words (chapter "Registers continued:
accumulator tiles and matrix instructions", R161 to R184). Tile words of a group enter its tile queue at issue; a drain first
finishes the words before it (R172). -/

namespace Sys2Proof.Machine

/-! ### Operand formats (R82, R167) -/

def matK (code : Nat) : Nat := match code with | 0 | 1 => 4 | 2 | 3 => 16 | 4 | 6 => 32 | 8 => 128 | _ => 64
def matA (code : Nat) : Nat := match code with | 0 | 1 => 4 | 6 => 9 | 7 => 12 | 8 => 16 | _ => 8
def matB (code : Nat) : Nat := match code with | 0 | 1 => 1 | 6 | 7 => 3 | 8 => 4 | _ => 2
/-- Rows, and columns, of an operand format. -/
def matN (code : Nat) : Nat := if code == 0 then 16 else 32
def matBits (code : Nat) : Nat := match code with | 0 => 64 | 1 => 32 | 2 | 3 => 16 | 4 => 8 | _ => 4
def matFmt (code : Nat) : Fmt := match code with | 0 => f64 | 2 => f16 | 3 => bf16 | _ => f32
def matInt (code : Nat) : Bool := code == 4 || code == 5

/-- Words of the string of row i of A; register r of lane l stands at 32·r + l (R167). -/
def stringA (code i : Nat) : List Nat :=
  if code == 0 then (List.range 8).map fun w => 32 * (w % 4) + i + 16 * (w / 4)
  else (List.range (matA code)).map fun w => 32 * w + i
/-- Words of the string of column j of B, in four quarters of nB registers (R167). -/
def stringB (code j : Nat) : List Nat :=
  if code == 0 then (List.range 8).map fun l => 32 * (j / 4) + 8 * (j % 4) + l
  else (List.range (if code == 6 then 9 else matA code)).map fun w => 32 * (matB code * (j / 8) + w / 4) + 4 * (j % 8) + w % 4

/-- A string as a number, and the damaged bits of it by word. -/
def stringOf (words : List W32) (bad : List Nat) (idx : List Nat) : Nat × List Bool :=
  (idx.foldr (fun i n => ((words[i]?).getD 0).toNat + 2 ^ 32 * n) 0, idx.map bad.contains)
def damagedBits (bad : List Bool) (lo n : Nat) : Bool :=
  (List.range ((lo + n - 1) / 32 + 1 - lo / 32)).any fun i => (bad[lo / 32 + i]?).getD false

/-- The elements of a string, damaged ones as zero (R183), and the elements to log. -/
def elemsFp (code : Nat) (st : Nat × List Bool) : List FV × List Nat :=
  let zero : FV := .fin false 0 0
  let k := matK code
  if code ≤ 3 then
    let b := matBits code
    let bad := (List.range k).filter fun i => damagedBits st.2 (i * b) b
    ((List.range k).map fun i => if bad.contains i then zero else unpackFp (matFmt code) (fld st.1 (i * b) b), bad)
  else
    let m := sbM code
    let bb := sbBits m
    let hdr := fun i => damagedBits st.2 (i / 16 * bb) 16
    let one := fun i => damagedBits st.2 (i / 16 * bb + 16 + i % 16 * (m + 1)) (m + 1)
    ((List.range k).map fun i => if hdr i || one i then zero else sbElem m (fld st.1 (i / 16 * bb) bb) (i % 16),
     (List.range k).filter fun i => hdr i && i % 16 == 0 || !hdr i && one i)

def elemsInt (code : Nat) (signed : Bool) (st : Nat × List Bool) : List Int × List Nat :=
  let b := matBits code
  let bad := (List.range (matK code)).filter fun i => damagedBits st.2 (i * b) b
  ((List.range (matK code)).map fun i => if bad.contains i then 0 else rd signed b (fld st.1 (i * b) b), bad)

/-! ### Tiles (R162) -/

/-- Element e of a tile, of 32 or 64 bits, as zero where it is damaged (R183); and whether it is. -/
def Tile.get (t : Tile) (wide : Bool) (e : Nat) : Nat × Bool :=
  if wide then
    if t.bad.contains (2 * e) || t.bad.contains (2 * e + 1) then (0, true)
    else ((sget 0 t.words (2 * e)).toNat + 2 ^ 32 * (sget 0 t.words (2 * e + 1)).toNat, false)
  else if t.bad.contains e then (0, true) else ((sget 0 t.words e).toNat, false)

/-- A tile with its elements rewritten (none: kept); a written element is no longer damaged. -/
def Tile.build (t : Tile) (wide : Bool) (f : Nat → Option Nat) : Tile :=
  let word := fun i => if wide then (if i < 512 then (f (i / 2)).map fun v => if i % 2 == 0 then low 32 v else v / 2 ^ 32 else none)
    else f i
  { t with
    words := (List.range 1024).filterMap fun i =>
      let v := match word i with | some v => BitVec.ofNat 32 v | none => sget 0 t.words i
      if v = 0 then none else some (i, v),
    bad := t.bad.filter fun i => (word i).isNone }

/-- The coordinate word of a log entry (R184). -/
def coord (tile col row opd : Nat) : W64 := BitVec.ofNat 64 (2 ^ 63 + tile * 2 ^ 24 + col * 2 ^ 16 + row * 2 ^ 8 + opd)

/-- The damage of B's columns by ascending row, then column (R184). -/
def logB (code tile : Nat) (bad : List (List Nat)) : List W64 :=
  (List.range (matK code)).flatMap fun k => bad.zipIdx.filterMap fun r => if r.1.contains k then some (coord tile r.2 k 1) else none

/-- A multiply: every output by one rounding (R83, R84); flags, and the damage to log in ascending (operand, row, column). -/
def mmaRun (t : Tile) (tile : Nat) (fmr : BitVec 16) (a b : List W32) (badA badB : List Nat) : Tile × Nat × List W64 :=
  let code := fld fmr.toNat 0 4
  let n := matN code
  let wide := code == 0
  let sa := (List.range n).map fun i => stringOf a badA (stringA code i)
  let sb := (List.range n).map fun j => stringOf b badB (stringB code j)
  let badC := (List.range (n * n)).filter fun e => (t.get wide e).2
  let logC := badC.map fun e => coord tile (e % n) (e / n) 2
  if matInt code then
    let ra := sa.map (elemsInt code (bitOf fmr.toNat 8))
    let rb := sb.map (elemsInt code (bitOf fmr.toNat 9))
    let out := fun e =>
      let x := ((ra[e / n]?).getD ([], [])).1
      let y := ((rb[e % n]?).getD ([], [])).1
      satInt true 32 (sgn 32 (t.get wide e).1 + ((x.zip y).map fun p => p.1 * p.2).sum)
    (t.build wide fun e => if e < n * n then some (out e).1 else none,
     (List.range (n * n)).foldl (fun fl e => fl ||| (out e).2) 0,
     (ra.zipIdx.flatMap fun r => r.1.2.map fun k => coord tile k r.2 0) ++ logB code tile (rb.map (·.2)) ++ logC)
  else
    let ra := sa.map (elemsFp code)
    let rb := sb.map (elemsFp code)
    let acc := if wide then f64 else f32
    let out := fun e =>
      let x := ((ra[e / n]?).getD ([], [])).1
      let y := ((rb[e % n]?).getD ([], [])).1
      dotFp acc .rne false (unpackFp acc (t.get wide e).1) (x.zip y)
    (t.build wide fun e => if e < n * n then some (out e).1 else none,
     (List.range (n * n)).foldl (fun fl e => fl ||| (out e).2) 0,
     (ra.zipIdx.flatMap fun r => r.1.2.map fun k => coord tile k r.2 0) ++ logB code tile (rb.map (·.2)) ++ logC)

/-- A sum over the groups that share a group's quadrant: those of the contexts resident on its core (R19, R161). A group that has left counts
until its team retires: its log entries, which nothing can read any more, go with the team (entry 23). -/
def State.quadSum (s : State) (gid : Nat) (f : Group → Nat) : Nat :=
  let q := s.quadrant gid
  (s.groups.map fun g => if g.1 == gid || q.isSome && s.quadrant g.1 == q then f g.2 else 0).sum
/-- Entries of log that the quadrant of a group holds (R161, R184). -/
def State.quadLog (s : State) (gid : Nat) : Nat := s.quadSum gid (·.errLog.length)
/-- Words in the tile queue of a group's quadrant (R161). -/
def State.quadTiles (s : State) (gid : Nat) : Nat := s.quadSum gid (·.tileQ.length)

/-- Failures logged, and ME set as a group event, when a tile word takes effect (R183, R184). -/
def State.logBad (s : State) (gid : Nat) (pc : W64) (l : List W64) : State :=
  if l == [] then s
  else l.foldl (fun s c =>
    if 16 ≤ s.quadLog gid then s.modG gid fun g => { g with errOvf := true }
    else s.modG gid fun g => { g with errLog := g.errLog ++ [(pc, c)] }) (s.modG gid fun g => g.raiseAll fME)

/-- The array finishes the oldest word of a group's tile queue (R172). An MSCL reads a damaged element as zero, writes the product in
its place and logs nothing: R183 speaks of MMA and drains only (entry 23). -/
def State.tileStep (s : State) (gid : Nat) : State :=
  match tget gid s.groups with
  | none => s
  | some g => match g.tileQ with
    | [] => s
    | op :: rest =>
      let g := { g with tileQ := rest }
      match op with
      | .zero k => s.putG gid { g with tiles := tput k {} g.tiles }
      | .mma pc k fmr a b ba bb =>
        let t := g.tile k
        let r := mmaRun t k fmr a b ba bb
        (s.putG gid ({ g with tiles := tput k r.1 g.tiles }.raiseTile k r.2.1)).logBad gid pc r.2.2
      | .scale k ty ex f =>
        let wide := ty == .f64
        let n := if wide then 16 else 32
        let fm := if wide then f64 else f32
        let t := g.tile k
        let out : Nat → Option (Nat × Nat) := fun e => if e < n * n && bitOf ex.toNat (e / n) then
            some (mulFp fm .rne false (unpackFp fm (t.get wide e).1) (unpackFp fm ((f[e / n]?).getD 0).toNat)) else none
        let fl := (List.range (n * n)).foldl (fun fl e => fl ||| (match out e with | some r => r.2 | none => 0)) 0
        let t' := t.build wide fun e => (out e).map Prod.fst
        s.putG gid ({ g with tiles := tput k t' g.tiles }.raiseTile k fl)

/-- Every word of a group's tile queue finishes. -/
def State.tileFlush (s : State) (gid : Nat) : State :=
  match tget gid s.groups with
  | none => s
  | some g => g.tileQ.foldl (fun s _ => s.tileStep gid) s

/-- A word enters the tile queue (R172). -/
def State.tilePush (s : State) (gid : Nat) (op : TileOp) : State := s.modG gid fun g => { g with tileQ := g.tileQ ++ [op] }
/-- A quadrant whose tile queue is full does not issue a tile word (R172). -/
def Env.tilesFull (e : Env) : Bool := 8 ≤ e.s.quadTiles e.gid

/-! ### Common checks (R163, R169) -/

def tileNo : Opd → Nat | .x n => n.val | _ => 0
def Env.owns (e : Env) (o : Opd) : Chk Unit := guardC (tileNo o < e.g.ntiles) (flt 0x16)
/-- The whole gang with all 32 lanes executing (R170, R171). -/
def Env.all32 (e : Env) (k : Nat) : Chk Unit := guardC (e.whole && e.exec k == 2 ^ 32 - 1) (flt 0x03)
/-- FMR, equal in all eight slices and valid (R170, R171). -/
def Env.oneFmr (e : Env) : Chk (BitVec 16) :=
  let v := (e.g.slice 0).fmr
  let code := fld v.toNat 0 4
  if e.g.slices.all (fun x => x.fmr == v) && code == fld v.toNat 4 4 && code ≤ 8 then .ok v else .error (flt 0x11)

/-! ### The B broadcast buffer (R164 to R166) -/

/-- The consumer groups of a group's B-share set. -/
def Env.members (e : Env) : List Nat :=
  let j := gidG e.gid / 4
  ([4 * j, 4 * j + 1, 4 * j + 2, 4 * j + 3]).filter fun g => g < e.lch.lr.c
/-- The quarters assigned to the group (R164). -/
def Env.quarters (e : Env) : List Nat :=
  let j := gidG e.gid / 4
  (List.range 4).filter fun q =>
    (if e.members.contains (4 * j + q) then 4 * j + q else e.members.headD 0) == gidG e.gid
def Env.mblds (e : Env) (g : Nat) : W32 :=
  match tget (gidOf e.tid g) e.s.groups with | some x => x.mbldCount | none => 0
/-- Whether a member has issued its g-th MBLD; counts have 32 bits and lie at most one apart (R161, R165). -/
def Env.loaded (e : Env) (g : W32) (m : Nat) : Bool := (e.mblds m - g).toNat < 2 ^ 31
/-- A member that retired short of generation g (R166). -/
def Env.short (e : Env) (g : W32) (m : Nat) : Bool := !e.loaded g m && !e.team.live (gidOf e.tid m)
def bgenKey (set gen : Nat) : Nat := set * 2 ^ 40 + gen

def execMbld (f : RWord) (s : State) : Host.Outcome State Fault Refusal :=
  issueWord (.mbld f) (fun e => ofChk (do
    e.all32 f.k
    let fmr ← e.oneFmr
    guardC (gidG e.gid < e.lch.lr.c) (flt 0x16)
    let code := fld fmr.toNat 4 4
    let nB := matB code
    let qs := e.quarters
    let v := match f.a with | .v n => n.val | _ => 0
    guardC (v + qs.length * nB ≤ e.g.budget) (flt 0x01)
    let gen := e.g.mbldCount + 1
    if 2 ≤ e.g.mbldCount.toNat && e.members.any fun m => !e.loaded e.g.mbldCount m then return .park .mbld e.s
    let set := gidG e.gid / 4
    let read := fun i r => (List.range 32).map fun l => BitVec.ofNat 32 (e.g.vr (v + i * nB + r) l)
    let deposit := qs.zipIdx.map fun q => (q.1, code, (List.range nB).flatMap (read q.2))
    let bad := qs.zipIdx.flatMap fun q => (List.range (32 * nB)).filterMap fun w =>
      if e.g.badV.contains (32 * (v + q.2 * nB + w / 32) + w % 32) then some (q.1, w) else none
    let s := e.s.modT e.tid fun t =>
      let b := (tget (bgenKey set gen.toNat) t.bgens).getD {}
      let b := { b with quarters := toverlay b.quarters deposit, bad := b.bad ++ bad }
      -- two slots: this generation and the one before, or the next, which a faster member may already have begun
      { t with bgens := tput (bgenKey set gen.toNat) b (t.bgens.filter fun x => x.1 / 2 ^ 40 != set ||
          [e.g.mbldCount, gen, gen + 1].any fun n => x.1 % 2 ^ 40 == n.toNat) }
    return .ok (s.putG e.gid { e.g with mbldCount := gen }))) s

def execMma (f : RWord) (s : State) : Host.Outcome State Fault Refusal :=
  issueWord (.mma f) (fun e => ofChk (do
    e.all32 f.k
    let fmr ← e.oneFmr
    let code := fld fmr.toNat 0 4
    let v := match f.a with | .v n => n.val | _ => 0
    guardC (v + matA code ≤ e.g.budget) (flt 0x01)
    e.owns f.d
    let gen := e.g.mbldCount
    guardC (gen != 0) (flt 0x03)
    guardC (!e.members.any (e.short gen)) (flt 0x03)
    if !e.members.all (e.loaded gen) then return .park .generation e.s
    let b := (tget (bgenKey (gidG e.gid / 4) gen.toNat) e.team.bgens).getD {}
    guardC (b.quarters.all fun q => q.2.1 == code) (flt 0x11)
    let words := (List.range 4).flatMap fun q => match tget q b.quarters with
      | some x => x.2 | none => List.replicate (32 * matB code) 0
    let a := (List.range (32 * matA code)).map fun w => BitVec.ofNat 32 (e.g.vr (v + w / 32) (w % 32))
    let badA := (List.range (32 * matA code)).filter fun w => e.g.badV.contains (32 * (v + w / 32) + w % 32)
    let badB := b.bad.map fun x => 32 * matB code * x.1 + x.2
    if e.tilesFull then return .park .tileFull e.s
    return .ok (e.s.tilePush e.gid (.mma e.pc (tileNo f.d) fmr a words badA badB)))) s

/-- A tile word other than MBLD and MMA: no effect without an executing lane (R169). -/
def tileWord (i : Instr) (body : Env → Chk Res) (s : State) : Host.Outcome State Fault Refusal := onceWord i body s

def execMzro (f : RWord) (s : State) : Host.Outcome State Fault Refusal :=
  tileWord (.mzro f) (fun e => do
    e.owns f.d
    if e.tilesFull then return .park .tileFull e.s
    return .ok (e.s.tilePush e.gid (.zero (tileNo f.d)))) s

def execMscl (f : RWord) (s : State) : Host.Outcome State Fault Refusal :=
  tileWord (.mscl f) (fun e => do
    e.owns f.d
    if e.tilesFull then return .park .tileFull e.s
    let v := (List.range 32).map fun l => BitVec.ofNat 64 (e.rd f.ty l f.a)
    return .ok (e.s.tilePush e.gid (.scale (tileNo f.d) f.ty (BitVec.ofNat 32 (e.exec f.k)) v))) s

/-! ### Drains (R174 to R179) -/

/-- A drain: earlier words finish, the flag copy moves to STATUS and is cleared (R85), damaged elements are logged. -/
def Env.drain (e : Env) (k : Nat) (read : Tile → List W64) : State × Tile :=
  let s := e.s.tileFlush e.gid
  let t := match tget e.gid s.groups with | some g => g.tile k | none => {}
  let s := s.modG e.gid fun g => { g.raiseAll t.flags.toNat with tiles := tput k { t with flags := 0 } g.tiles }
  (s.logBad e.gid e.pc (read t), { t with flags := 0 })

/-- The damaged elements of a whole tile, as log entries. -/
def Tile.badLog (t : Tile) (k : Nat) (wide : Bool) (keep : Nat → Bool) : List W64 :=
  let n := if wide then 16 else 32
  (List.range (n * n)).filterMap fun e => if keep e && (t.get wide e).2 then some (coord k (e % n) (e / n) 2) else none

def execMdrn (f : RWord) (s : State) : Host.Outcome State Fault Refusal :=
  tileWord (.mdrn f) (fun e => do
    e.owns f.a
    if e.tilesFull then return .park .tileFull e.s
    let k := tileNo f.a
    let wide := f.ty == .f64
    let c := f.m.val % 4
    let n := if wide then 16 else 32
    let inChunk := fun x => x < n * n && 8 * c ≤ x % n && x % n < 8 * c + 8
    let (s, t) := e.drain k fun t => t.badLog k wide inChunk
    let v := match f.d with | .v n => n.val | _ => 0
    let lane := fun l =>
      if wide then (List.range 4).flatMap fun j =>
        let x := (t.get true (16 * (l % 16) + 8 * c + 4 * (l / 16) + j)).1
        [(32 * (v + 2 * j) + l, BitVec.ofNat 32 x), (32 * (v + 2 * j + 1) + l, BitVec.ofNat 32 (x / 2 ^ 32))]
      else (List.range 8).map fun j => (32 * (v + j) + l, BitVec.ofNat 32 (t.get false (32 * l + 8 * c + j)).1)
    let clear := fun (g : Group) => if bitOf f.m.val 2 then
        { g with tiles := tput k (t.build wide fun x => if inChunk x then some 0 else none) g.tiles } else g
    return .ok (s.modG e.gid fun g => (clear g).addPend { e.newPend f.d 8 (sliceBits (e.exec f.k)) with
      vw := (e.execLanes f.k).flatMap lane })) s

/-- MRED (R179). The damaged elements of every row are logged, those of rows whose lane does not execute too; so does MDRN for its
chunk (entry 23). -/
def execMred (f : RWord) (s : State) : Host.Outcome State Fault Refusal :=
  tileWord (.mred f) (fun e => do
    e.owns f.a
    if e.tilesFull then return .park .tileFull e.s
    let k := tileNo f.a
    let wide := f.ty == .f64
    let n := if wide then 16 else 32
    let (s, t) := e.drain k fun t => t.badLog k wide fun x => x / n < n
    let row := fun i => (List.range n).map fun j => (t.get wide (n * i + j)).1
    let fm := if wide then f64 else f32
    let one := fun i => match row i with
      | [] => (0, 0)
      | x :: xs =>
        if f.ty == Ty.i32 then
          if f.m == 0 then (xs.foldl (fun a b => if sgn 32 a < sgn 32 b then b else a) x, 0)
          else satInt true 32 ((x :: xs).map (sgn 32)).sum
        else if f.m == 0 then xs.foldl (fun a b => let r := minMaxFp fm true a.1 b; (r.1, a.2 ||| r.2)) (x, 0)
        else dotFp fm .rne false (unpackFp fm x) (xs.map fun y => (unpackFp fm y, FV.one))
    let lanes := (e.execLanes f.k).filter (· < n)
    let v := match f.d with | .v n => n.val | _ => 0
    let vw := lanes.flatMap fun l => (32 * v + l, BitVec.ofNat 32 (one l).1) ::
      (if wide then [(32 * (v + 1) + l, BitVec.ofNat 32 ((one l).1 / 2 ^ 32))] else [])
    let fl := (lanes.filter fun l => (one l).2 != 0).map fun l => (l, BitVec.ofNat 32 (one l).2)
    return .ok (s.modG e.gid fun g => g.addPend { e.newPend f.d (regs wide) (sliceBits (e.exec f.k)) with vw := vw, flags := fl })) s

/-- The rows that MDRS and MDRM write, with the flags of a 16-bit store (R174). -/
def drainRows (f : RWord) (t : Tile) : List (List Nat) × Nat :=
  match f.ty with
  | .f64 => ((List.range 16).map fun i => (List.range 16).map fun j => (t.get true (16 * i + j)).1, 0)
  | .f16x2 | .bf16x2 =>
    let fm := if f.ty == .f16x2 then f16 else bf16
    let r := (List.range 32).map fun i => (List.range 32).map fun j => f2fFp f32 fm f.rnd f.sat (t.get false (32 * i + j)).1
    (r.map fun l => l.map (·.1), r.foldl (fun fl l => l.foldl (fun fl x => fl ||| x.2) fl) 0)
  | _ => ((List.range 32).map fun i => (List.range 32).map fun j => (t.get false (32 * i + j)).1, 0)
def drainElem (ty : Ty) : Nat := match ty with | .f64 => 8 | .f16x2 | .bf16x2 => 2 | _ => 4
def rowBytes (ty : Ty) (row : List Nat) : List Byte := row.flatMap fun x => leBytes (drainElem ty) x
def drainRowLen (ty : Ty) : Nat := match ty with | .f16x2 | .bf16x2 => 64 | _ => 128
def drainRowCount (ty : Ty) : Nat := if ty == .f64 then 16 else 32
/-- Row addresses, and their alignment (R175). -/
def Env.drainAddrs (e : Env) (f : RWord) : Chk (List Nat) := do
  let v ← e.agreed f.k [f.a, f.b]
  let a := (v[0]?).getD 0
  let b := (v[1]?).getD 0
  let al := if f.ty == .f64 then 8 else 4
  guardC (a % al == 0 && b % al == 0) { code := 0x04, addr := a }
  return (List.range (drainRowCount f.ty)).map fun i => low 64 (a + i * b)

/-- The fault of one byte that must lie in the own team window (R175). A frame of the leaf pool is read by an LD or a copy alone (R305). -/
def Env.teamByte (e : Env) (write : Bool) (a : Nat) : Option Nat :=
  if 2 ^ 56 ≤ a then some 6
  else if inMem a then match translate e.s e.cid a with
    | .error c => some c
    | .ok p => some (if p.ty == 6 then 7 else 5)
  else match e.chip write a with
    | .error c => some c
    | .ok (.own off) => match e.lch.areaOf off with
      | .pool => some 0x0F
      | .ring => if e.team.holds e.lch (gidG e.gid) off then none else some 0x0B
      | _ => none
    | .ok _ => some 7

/-- Checks of ranges of team scratchpad (R175): translation of every byte, then the first refused byte in ascending address
order, then ring bytes that the group does not hold. -/
def Env.teamRanges (e : Env) (write : Bool) (rs : List (Nat × Nat)) : Chk Unit :=
  let starts := rs.flatMap fun r => if r.2 == 0 then [] else
    r.1 :: ((List.range ((r.1 + r.2 - 1) / 64 - r.1 / 64)).map fun i => 64 * (r.1 / 64 + i + 1))
  let bad := starts.filterMap fun a => (e.teamByte write a).map fun c => (c, a)
  let least := fun (l : List (Nat × Nat)) => l.foldl (fun (m : Option (Nat × Nat)) x => match m with
    | some y => if x.2 < y.2 then some x else some y | none => some x) none
  match bad.find? fun x => x.1 == 6 with
  | some x => .error { code := 6, addr := x.2 }
  | none => match least (bad.filter fun x => x.1 != 0x0B) with
    | some x => .error { code := x.1, addr := x.2 }
    | none => match least bad with
      | some x => .error { code := x.1, addr := x.2 }
      | none => .ok ()

/-- Bytes of the own window written as an ST would (R175): the view, or held ring bytes in place. -/
def Env.putOwn (e : Env) (s : State) (a : Nat) (bs : List Byte) : State :=
  let off := a % 2 ^ 19
  (unitPieces off bs.length).foldl (fun s p =>
    let part := (bs.drop (p.1 - off)).take p.2
    if e.lch.areaOf p.1 == .ring then s.modT e.tid fun t => { t with data := { t.data with data := mwrite t.data.data p.1 part } }
    else s.modG e.gid fun g => g.modLvl e.sub.mask fun l => l.storeBytes p.1 part) s
/-- Lines of the own window. -/
def Env.ownLines (e : Env) (rs : List (Nat × Nat)) : List Nat :=
  rs.foldl (fun l r => nunion l (e.linesOf (r.1 % 2 ^ 19) r.2)) []
/-- The shadow lines of a word's rows: those that they meet, and where the rows are contributions of `w` bytes the lines that keep these
(R214, R429); ring slots take neither. -/
def Env.rowLines (e : Env) (w : Option Nat) (rs : List (Nat × Nat)) : List Nat × Nat :=
  (e.ownLines rs, match w with
    | none => 0
    | some n => contribLines (((rs.flatMap fun r => unitPieces (r.1 % 2 ^ 19) r.2).map fun p =>
        if e.lch.areaOf p.1 == .ring then 0 else p.2).sum / n) n)
/-- They fit; the first byte whose line does not is named (R197). -/
def Env.needFit (e : Env) (w : Option Nat) (rs : List (Nat × Nat)) : Chk Unit :=
  let fits := fun (l : List (Nat × Nat)) => e.linesFit (e.rowLines w l).1 (e.rowLines w l).2
  if fits rs then .ok ()
  else
    let ps := rs.flatMap fun r => unitPieces r.1 r.2
    let a := (ps.zipIdx.find? fun x => !fits (ps.take (x.2 + 1))).map (·.1.1)
    .error { code := 0x08, addr := a.getD 0 }
/-- Poison cleared in units that a word's rows cover (R203). -/
def Env.wipeRanges (e : Env) (s : State) (rs : List (Nat × Nat)) : State :=
  e.wipe s 1 (rs.flatMap fun r => (List.range r.2).map fun i => { p := 0, addr := 0, loc := .own (r.1 % 2 ^ 19 + i) })

/-- MDRS (R175, R177). Elements of `.add` are contributions, which take lines of their own (R214, R429); they are folded at the T-close, with their flags, in ring slots as in team data: R175, R177
and R216 say so, while R214 writes ring bytes in place (entry 23). -/
def execMdrs (f : RWord) (s : State) : Host.Outcome State Fault Refusal :=
  tileWord (.mdrs f) (fun e => do
    e.owns f.d
    let k := tileNo f.d
    let addrs ← e.drainAddrs f
    let rs := addrs.map fun a => (a, drainRowLen f.ty)
    e.teamRanges true rs
    let w := if f.m == 0 then none else some (drainElem f.ty)
    let lines := e.rowLines w rs
    e.needFit w rs
    if e.tilesFull then return .park .tileFull e.s
    let (s, t) := e.drain k fun t => t.badLog k (f.ty == .f64) fun _ => true
    let (rows, fl) := drainRows f t
    let s := s.modG e.gid fun g => (g.raiseTile k fl).takeLines lines.1 lines.2
    if f.m == 0 then
      let s := (addrs.zip rows).foldl (fun s r => e.putOwn s r.1 (rowBytes f.ty r.2)) s
      return .ok (e.wipeRanges s rs)
    else
      let n := drainElem f.ty
      -- a unit that the additions cover whole is poisoned no longer (R203)
      return .ok (e.wipeRanges ((addrs.zip rows).foldl (fun s r => r.2.zipIdx.foldl (fun s x =>
        let off := (r.1 + n * x.2) % 2 ^ 19
        let op := GOp.drain off f.ty f.sat (BitVec.ofNat 64 x.1) k
        s.modG e.gid fun g => g.modLvl e.sub.mask fun l => if e.lch.areaOf off == .ring then l.note [op] else l.act [op]) s) s) rs)) s

/-- The physical key of each byte of a row that must lie in type 1 or 2 (R176). -/
def Env.memRange (e : Env) (rs : List (Nat × Nat)) : Chk Unit := do
  let starts := rs.flatMap fun r => (pageStarts r.1 r.2 ++ [r.1 + r.2 - 1])
  let see := fun a => if 2 ^ 56 ≤ a then some 6 else if inMem a then match translate e.s e.cid a with
      | .error c => some c
      | .ok p => if (p.ty == 1 || p.ty == 2) && p.w then none else some 7
    else match e.window a with | .error c => some c | .ok _ => some 7
  match starts.find? fun a => see a == some 6 with
  | some a => throw { code := 6, addr := a }
  | none => match starts.foldl (fun (m : Option Nat) a => if (see a).isNone then m else match m with
        | some b => some (min a b) | none => some a) none with
    | some a => throw { code := (see a).getD 7, addr := a }
    | none => pure ()
/-- The physical key of a byte that has been checked. -/
def Env.keyOf (e : Env) (a : Nat) : Nat :=
  match translate e.s e.cid a with | .ok p => physKey e.cid p.ty p.target | .error _ => 0

def execMdrm (f : RWord) (s : State) : Host.Outcome State Fault Refusal :=
  tileWord (.mdrm f) (fun e => do
    e.owns f.d
    let k := tileNo f.d
    let addrs ← e.drainAddrs f
    let rs := addrs.map fun a => (a, drainRowLen f.ty)
    e.memRange rs
    match e.team.charge e.lch.lr.dquota (memLines rs) 0 with
    | none => throw (flt 0x09)
    | some tm =>
      if e.tilesFull then return .park .tileFull e.s
      let (s, t) := e.drain k fun t => t.badLog k (f.ty == .f64) fun _ => true
      let (rows, fl) := drainRows f t
      let s := (s.modG e.gid fun g => g.raiseTile k fl).putT e.tid tm
      let n := drainElem f.ty
      if f.m == 0 then
        let cs := (addrs.zip rows).flatMap fun r => (rowBytes f.ty r.2).zipIdx.map fun x => (e.keyOf (r.1 + x.2), x.1)
        return .ok (s.modG e.gid fun g => g.modLvl e.sub.mask fun l => { l with gmem := l.gmem.andThen (MemW.ofCells cs) })
      else
        let es := (addrs.zip rows).flatMap fun r => r.2.zipIdx.map fun x => (e.keyOf (r.1 + n * x.2), BitVec.ofNat 64 x.1)
        return .ok (s.modT e.tid fun t => { t with toks := t.toks ++ [(gidG e.gid, .mdrm es f.ty f.sat k)] })) s

/-! ### MSEQ and MGRP (R180 to R182) -/

/-- A scalar result in every executing slice. -/
def Env.putScalar (e : Env) (k : Nat) (d : Opd) (x : Nat) (g : Group) : Group :=
  (e.execSlices k).foldl (fun g c => g.wrD true d (4 * c) x) g

/-- The kept key blocks of a query block (R180). -/
def mseqList (sq w q : Nat) (anch : List Nat) : List Nat :=
  let nb := (sq + 31) / 32
  if nb ≤ q then []
  else
    let lo := if w == 0 then 0 else q + 1 - min w (q + 1)
    anch.foldl (fun l a => if a ≤ q then nins a l else l) ((List.range (q + 1 - lo)).map (· + lo))

/-- Operations of a group that still wait for a slot of a queue reserve as many as are free, while the TCU has room (R181, R262). -/
def State.reserveWanted (s : State) (tid gid q : Nat) : State :=
  s.ops.foldl (fun s o =>
    if o.2.gid == gid && o.2.want == some q then
      match tget tid s.teams with
      | none => s
      | some t => match tget q t.queues with
        | none => s
        | some x =>
          if !x.free || s.tcuFull gid then s
          else
            let addr := x.slotAddr x.fillSeq
            let rs := match o.2.kind with
              | .rows rs => OpKind.rows (rs.map fun r => { r with dst := r.dst + addr }) | k => k
            let op := { o.2 with want := none, slot := some (q, x.fillSeq), kind := rs, handle := BitVec.ofNat 64 addr }
            { s with ops := tput o.1 op s.ops }.modT tid fun t => t.modQ q fun x => x.reserve 1 addr op.decl (some o.1)
    else s) s
def State.wanting (s : State) (gid q : Nat) : Bool := s.ops.any fun o => o.2.gid == gid && o.2.want == some q

/-- MSEQ.g goes on reserving (R181). -/
def Env.mseqOn (e : Env) (s : State) (q : Nat) : Res :=
  let s := s.reserveWanted e.tid e.gid q
  if s.wanting e.gid q then .park (.mseq q) s else .ok s

/-- MSEQ (R180, R181). SEQ of 2^31 or more, W above 2^26, and a BB of 0 or no multiple of 64 raise 0x01, as the limits whose fault the
rules name do; the parameter block is read without regard to poison, since R203 names LD, ATOM, CAS and peer LD only; MGRP's
counts likewise; bits 7:4 and 63:32 of s(c + 3), which R181 gives no field, are ignored (entry 23). -/
def execMseq (f : RWord) (s : State) : Host.Outcome State Fault Refusal :=
  tileWord (.mseq f) (fun e => do
    match e.sub.park with
    | .mseq q => return e.mseqOn e.s q
    | _ =>
      let g := f.m.val == 1
      let v ← e.agreed f.k ([f.a, f.b, f.c] ++ if g then (List.range 3).map fun i => Opd.plus f.c (i + 1) else [])
      let blk := (v[0]?).getD 0
      let list := (v[2]?).getD 0
      guardC (blk % 16 == 0) { code := 0x04, addr := blk }
      e.teamRanges false [(blk, 80)]
      let bytes := e.ownBytes (blk % 2 ^ 19) 80
      let n := fun i k => leNat ((bytes.drop i).take k)
      guardC (n 8 1 ≤ 16 && n 9 7 == 0 && n 0 4 < 2 ^ 31 && n 4 4 ≤ 2 ^ 26) (flt 0x01)
      let kept := mseqList (n 0 4) (n 4 4) ((v[1]?).getD 0) ((List.range (n 8 1)).map fun i => n (16 + 4 * i) 4)
      let qn := fld ((v[5]?).getD 0) 0 4
      let bb := fld ((v[5]?).getD 0) 8 24
      if g then
        guardC (bb % 64 == 0 && bb != 0) (flt 0x01)
        let x ← e.fillQueue qn
        guardC (2 * bb ≤ x.slotBytes) flt0B
      let rs := [(list, 4 * kept.length)]
      e.teamRanges true rs
      let srcs := kept.flatMap fun b => [(low 64 ((v[3]?).getD 0 + b * bb), bb), (low 64 ((v[4]?).getD 0 + b * bb), bb)]
      if g then e.chipChecks { mode := 15, q := 0 } srcs []
      let lines := e.ownLines rs
      e.needFit none rs
      let s := e.s.putG e.gid ((e.putScalar f.k f.d kept.length e.g).takeLines lines 0)
      let s := if kept == [] then s else e.wipeRanges (e.putOwn s list (kept.flatMap fun b => leBytes 4 b)) rs
      if !g then return .ok s
      let ops := kept.map fun b =>
        ({ gid := e.gid, slices := e.sub.mask, mode := 0, pc := e.pc, decl := 2 * bb, want := some qn, mem := e.memImage,
           kind := .rows (e.rowsOf [(0, low 64 ((v[3]?).getD 0 + b * bb), bb), (bb, low 64 ((v[4]?).getD 0 + b * bb), bb)]) } : EngOp)
      let s := ops.foldl (fun (s : State) o => let o := s.noting o
        { s with ops := tput s.nextOp o s.ops, nextOp := s.nextOp + 1 }.markLines o false) s
      return e.mseqOn s qn) s

/-- A schedule entry of MGRP (R182). -/
structure Sched where
  expert : Nat
  row0 : Nat
  rowTile : Nat
  colTile : Nat
  rows : Nat
  deriving DecidableEq, Repr
def Sched.bytes (x : Sched) : List Byte :=
  leBytes 4 x.expert ++ leBytes 4 x.row0 ++ leBytes 2 x.rowTile ++ leBytes 2 x.colTile ++ leBytes 1 x.rows ++ leBytes 3 0

/-- The schedule, the rows that `.z` writes as zeros, whether a count was cut, and the final base (R182). -/
def mgrpRun (nct cap : Nat) (counts : List Nat) : List Sched × List Nat × Bool × Nat :=
  counts.zipIdx.foldl (fun (acc : List Sched × List Nat × Bool × Nat) c =>
    let cut := 0 < cap && cap < c.1
    let n := if cut then cap else c.1
    let start := if 0 < cap then c.2 * cap else acc.2.2.2
    let es := (List.range ((n + 31) / 32)).flatMap fun r => (List.range nct).map fun t =>
      ({ expert := c.2, row0 := low 32 (start + 32 * r), rowTile := r, colTile := t, rows := min 32 (n - 32 * r) } : Sched)
    let z := if n == 0 && 0 < cap then (List.range cap).map (· + start) else []
    (acc.1 ++ es, acc.2.1 ++ z, acc.2.2.1 || cut, low 64 (acc.2.2.2 + n))) ([], [], false, 0)

/-- MGRP (R182). IOV is raised as a group event, in all eight STATUS copies; where a zero row overlaps the list, the list is written first
(entry 23). -/
def execMgrp (f : RWord) (s : State) : Host.Outcome State Fault Refusal :=
  tileWord (.mgrp f) (fun e => do
    let z := f.m.val == 1
    let v ← e.agreed f.k ([f.a, f.b, f.c] ++ if z then [Opd.plus f.c 1] else [])
    let p := (v[1]?).getD 0
    let ne := fld p 0 16
    let nct := fld p 16 16
    let cap := fld p 32 16
    let stride := fld p 48 16
    guardC (1 ≤ ne && ne ≤ 1024 && 1 ≤ nct && nct ≤ 1024 && (!z || 1 ≤ stride)) (flt 0x01)
    let src := (v[0]?).getD 0
    e.teamRanges false [(src, 4 * ne)]
    let counts := (List.range ne).map fun i => leNat (e.ownBytes ((src + 4 * i) % 2 ^ 19) 4)
    let (es, zs, cut, base) := mgrpRun nct cap counts
    let list := (v[2]?).getD 0
    let zr := if z then zs.map fun k => (low 64 ((v[3]?).getD 0 + k * stride * 64), nct * 128) else []
    let rs := (list, 16 * es.length) :: zr
    e.teamRanges true rs
    let lines := e.ownLines rs
    e.needFit none rs
    let g := (e.putScalar f.k f.d es.length e.g).takeLines lines 0
    let s := e.s.putG e.gid (if cut || 2 ^ 32 ≤ base then g.raiseAll fIOV else g)
    let s := if es == [] then s else e.putOwn s list (es.flatMap Sched.bytes)
    let s := zr.foldl (fun s r => e.putOwn s r.1 (List.replicate r.2 0)) s
    return .ok (e.wipeRanges s rs)) s

def execMerr (f : RWord) (s : State) : Host.Outcome State Fault Refusal :=
  tileWord (.merr f) (fun e => do
    let ovf := if e.g.errOvf then 2 ^ 62 else 0
    let v := match f.m.val, e.g.errLog with
      | 0, (_, c) :: _ => c.toNat ||| ovf
      | 0, [] => ovf
      | 1, (a, _) :: _ => a.toNat
      | 2, l => l.length
      | _, _ => 0
    let g := e.putScalar f.k f.d v e.g
    return .ok (e.s.putG e.gid (if f.m == 2 then { g with errLog := g.errLog.tail, errOvf := false } else g))) s

end Sys2Proof.Machine
end

