-- ==== Sys2Proof/Machine/Collective.lean ====
section
/-! DEFINITION. Barriers, phases and the team-collective match (R218, R219, R233, R235, R282, R367 to R375). -/

namespace Sys2Proof.Machine

/-! ### The barrier words (R367 to R374) -/

def execBar (f : RWord) (s : State) : Host.Outcome State Fault Refusal :=
  issueWord (.bar f) (fun e => ofChk (do
    e.needWhole
    e.owed
    match e.deferOpen with
    | some q => return .park (.phase q) e.s
    | none =>
      let s := e.s.catchUp e.gid
      return .park (.bar e.g.arrivals.toNat) (s.modG e.gid fun g => { g.cmitT e.team with arrivals := g.arrivals + 1 }))) s

def execCbar (f : RWord) (s : State) : Host.Outcome State Fault Refusal :=
  issueWord (.cbar f) (fun e => ofChk (do
    e.needWhole
    e.owed
    return .park .cbar e.s)) s

def execArrv (f : RWord) (s : State) : Host.Outcome State Fault Refusal :=
  issueWord (.arrv f) (fun e => ofChk (do
    e.needWhole
    e.owed
    match e.deferOpen with
    | some q => return .park (.phase q) e.s
    | none =>
      let s := e.s.catchUp e.gid
      let g := ((tget e.gid s.groups).getD e.g).cmitT e.team
      let a := e.g.arrivals
      let g := ({ e with g := g } : Env).scalarPend f a.toNat []
      return .ok (s.putG e.gid { g with arrivals := a + 1, deferred := some a }))) s

def execWait (f : RWord) (s : State) : Host.Outcome State Fault Refusal :=
  issueWord (.wait f) (fun e => ofChk (do
    e.needWhole
    let v ← e.agreed f.k [f.a]
    let p := (v[0]?).getD 0
    guardC (p < 2 ^ 16) (flt 0x01)
    let d := e.g.arrivals - 1 - BitVec.ofNat 16 p
    if d == 1 then return .ok e.s
    else if d != 0 then return .ok (e.s.putG e.gid (e.g.raiseAll fST))
    else
      e.owed
      match e.deferOpen with
      | some q => return .park (.phase q) e.s
      | none => return .ok ((e.s.joinPhase e.gid (BitVec.ofNat 16 p)).catchUp e.gid))) s

/-- GBAR and TSBAR need a co-resident grid (R23, R374). -/
def Env.gridBarrier (e : Env) (c : Coll) : Chk Res := do
  e.needWhole
  guardC e.lch.lr.coop (flt 0x12)
  e.collPark fun _ => .ok c
def execGbar (f : RWord) (s : State) : Host.Outcome State Fault Refusal :=
  issueWord (.gbar f) (fun e => ofChk (e.gridBarrier .gbar)) s
def execTsbar (f : RWord) (s : State) : Host.Outcome State Fault Refusal :=
  issueWord (.tsbar f) (fun e => ofChk (e.gridBarrier .tsbar)) s

/-! ### Arrivals -/

/-- What a group has arrived at (R218, R369). -/
inductive Arrival where
  | bar | cbar | coll (c : Coll)
  deriving DecidableEq, Repr

/-- Words that differ only in the target of ABRT match. -/
def Coll.plain : Coll → Coll
  | .abrtT _ => .abrtT 0
  | c => c
/-- The word at which a group stands; an ARRV whose phase is open counts as BAR. -/
def Group.arrival (g : Group) (t : Team) : Option Arrival :=
  if g.arrivals == t.phase + 1 then some .bar
  else match g.subs with
    | [x] => match x.park with
      | .coll c => some (.coll c.plain)
      | .cbar => some .cbar
      | _ => none
    | _ => none
def Group.parked (g : Group) : Park := match g.subs with | [x] => x.park | _ => .none

/-- The groups of a team that have not retired. -/
def State.liveGroups (s : State) (tid : Nat) : List (Nat × Group) :=
  match tget tid s.teams with | some t => (s.teamGroups tid).filter fun g => t.live g.1 | none => []
/-- A team whose groups can move: it has neither trapped nor retired, and its context is resident (R29, R353). -/
def State.teamRuns (s : State) (tid : Nat) : Bool :=
  match tget tid s.teams, tget (lidCtx (tidLid tid)) s.ctxs with
  | some t, some c => !t.trapped && !t.debugStop && !t.retired && c.state == .resident
  | _, _ => false

/-- A group faults at the word at which it is parked. `closing`: the word's effect stands (R355). -/
def State.faultAt (s : State) (gid code : Nat) (closing : Bool) : State :=
  match envOf s { gid := gid, mask := 255 } with
  | none => s
  | some e =>
    let w := e.wordAt e.pc.toNat
    let i := match decodeWord w with | .ok i => some i | .error _ => none
    takeFault (s.modG gid fun g => g.modSub 255 fun x => { x with park := .none }) e
      { e.record i w (flt code) with closing := closing }

/-- A parked group goes on at a target (R231). -/
def State.releaseTo (s : State) (gid : Nat) (t : W64) : State :=
  match (tget gid s.groups).bind fun g => g.sub 255 with
  | none => s
  | some x =>
    let s := s.modG gid fun g => (g.modSlices (List.range 8) fun y => { y with pc := t }).modSub 255 fun y => { y with park := .none }
    if x.mark then s.marker gid 255 else s

/-- The groups of a team go on after a close: those whose pre-image lines do not fit take fault 0x08 (R216). -/
def State.goOn (s : State) (tid : Nat) (ovf : List Nat) : State :=
  (s.liveGroups tid).foldl (fun s g => if ovf.contains g.1 then s.faultAt g.1 0x08 true else s.release g.1 255) s

/-! ### The team-collective match (R218) -/

/-- The tile words that the live groups have issued take their effect: a close raises its flags over what they leave (R177). -/
def State.runTiles (s : State) (tid : Nat) : State := (s.liveGroups tid).foldl (fun s g => s.tileFlush g.1) s
/-- CMIT.T in every live group. -/
def State.cmitAll (s : State) (tid : Nat) : State :=
  match tget tid s.teams with
  | some t => (s.runTiles tid).modGroups tid fun gid g => if t.live gid then g.cmitT t else g
  | none => s

/-- The team's data returns to its last commit (R233); each group goes to its own target. -/
def State.abortT (s : State) (tid : Nat) : State :=
  match tget tid s.teams, tget (tidLid tid) s.launches with
  | some t, some l =>
    let r := l.layout.rings
    let data : Image := { data := (t.pre.data.filter fun c => c.1 < r) ++ t.data.data.filter fun c => r ≤ c.1,
                          poison := (t.pre.poison.filter fun u => 64 * u < r) ++ t.data.poison.filter fun u => r ≤ 64 * u }
    let t' := { t with data := data, ordered := [], ordAct := [], dmem := {}, tcount := t.tcount + 1 }
    let s := (s.putT tid t').modGroups tid fun gid g =>
      if !t.live gid then { g with tops := [], topsN := [], tmem := {}, tmemN := {}, preLines := [] } else
      { g with lines := [], contrib := 0, tops := [], tlines := [], tcon := 0, tmem := {}, topsN := [], tlinesN := [], tconN := 0,
               tmemN := {}, preLines := [], round := g.round + 1, tbase := data,
               subs := g.subs.map fun x => { x with lvl := { view := data } } }
    (s.liveGroups tid).foldl (fun s g => match g.2.parked with
      | .coll (.abrtT a) => s.releaseTo g.1 a | _ => s) s
  | _, _ => s

/-- Every group parks at the grid's barrier; a fault 0x08 waits for the release. -/
def State.parkAll (s : State) (tid : Nat) (p : Park) (ovf : List Nat) : State :=
  (s.liveGroups tid).foldl (fun s g => s.modG g.1 fun g' =>
    { (g'.modSub 255 fun x => { x with park := p }) with owed := if ovf.contains g.1 then some 8 else g'.owed }) s

/-- The common effect of a matched word. -/
def State.collEffect (s : State) (tid : Nat) (c : Coll) : State :=
  match c with
  | .abrtT _ => s.abortT tid
  | .qinit a b => match s.qinit tid a.toNat b.toNat with
    | .ok s' => (s'.skipQueues tid).goOn tid []
    | .error code => (s.liveGroups tid).foldl (fun s g => s.faultAt g.1 code false) s
  | .cmitC =>
    let (s, ovf) := (s.cmitAll tid).tClose tid true
    (s.commit tid false).goOn tid ovf
  | .cmitD =>
    let (s, ovf) := (s.cmitAll tid).tClose tid true
    (s.commit tid true).goOn tid ovf
  | .trig =>
    let (s, ovf) := (s.cmitAll tid).tClose tid true
    let s := (s.commit tid true).modT tid fun t => { t with trigger := some (t.trigger.getD t.nrounds) }
    s.goOn tid ovf
  | .rfshD =>
    let (s, ovf) := (s.cmitAll tid).tClose tid true
    s.parkAll tid .rfshD ovf
  | .gbar =>
    let (s, ovf) := (s.cmitAll tid).tClose tid true
    ((s.commit tid true).modT tid fun t => { t with atGrid := some false }).parkAll tid (.grid false) ovf
  | .tsbar =>
    let (s, ovf) := (s.cmitAll tid).tClose tid true
    ((s.commit tid true).modT tid fun t => { t with atGrid := some true }).parkAll tid (.grid true) ovf

/-- The group that a mismatch names: the lowest whose word differs from that of the lowest live group (R218). -/
def mismatch (t : Team) (gs : List (Nat × Group)) : Option (Nat × Group) :=
  match gs with
  | [] => none
  | g0 :: _ => gs.find? fun g => g.2.arrival t != g0.2.arrival t

/-- TEAM_COLLECTIVE_MATCH can happen: every live group has arrived, and there is something to do. -/
def State.matchReady (s : State) (tid : Nat) : Bool :=
  match tget tid s.teams with
  | none => false
  | some t =>
    let gs := s.liveGroups tid
    s.teamRuns tid && gs != [] && gs.all (fun g => (g.2.arrival t).isSome) && !(gs.any fun g => g.2.owed.isSome) &&
    ((mismatch t gs).isSome || (match gs.head?.bind fun g => g.2.arrival t with | some (.coll _) => true | _ => false))

def execTeamCollectiveMatch (tid : Nat) (s : State) : Host.Outcome State Fault Refusal :=
  .next (if !s.matchReady tid then s else
    match tget tid s.teams with
    | none => s
    | some t =>
      let gs := s.liveGroups tid
      match mismatch t gs with
      | some (gid, g) =>
        match g.parked with
        | .bar _ => (s.modG gid fun g => { g with arrivals := g.arrivals - 1 }).faultAt gid 3 false
        | .cbar | .coll _ => s.faultAt gid 3 false
        -- it arrived by ARRV: the fault waits for the next word that parks (R369)
        | _ => s.modG gid fun g => { g with owed := some 3 }
      | none => match gs.head?.bind fun g => g.2.arrival t with
        | some (.coll c) => s.collEffect tid c
        | _ => s)

/-! ### Phases (R368, R373) -/

def State.phaseReady (s : State) (tid : Nat) : Bool :=
  match tget tid s.teams with
  | none => false
  | some t =>
    let gs := s.liveGroups tid
    s.teamRuns tid && gs != [] && gs.all (fun g => g.2.arrivals == t.phase + 1) &&
    !(s.ops.any fun o => gidTid o.2.gid == tid && o.2.gid < 2 ^ 200 && o.2.mode == 1 && o.2.phase == t.phase && !o.2.isDone)

def execTeamPhaseComplete (tid : Nat) (s : State) : Host.Outcome State Fault Refusal :=
  .next (if !s.phaseReady tid then s else
    match tget tid s.teams with
    | none => s
    | some t =>
      let p := t.phase
      let (s, ovf) := (s.runTiles tid).tClose tid false
      let s := s.modT tid fun t => { t with phase := p + 1 }
      (s.liveGroups tid).foldl (fun s g => match g.2.parked with
        | .bar _ =>
          let s := (s.joinPhase g.1 p).modG g.1 fun g => { g with phaseSeen := g.phaseSeen + 1 }
          if ovf.contains g.1 then s.faultAt g.1 0x08 true else s.release g.1 255
        -- a group that stands at its next phase park takes the fault there, with no effect of that word (R216, R369)
        | .cbar | .coll _ | .phase _ => if ovf.contains g.1 then s.faultAt g.1 0x08 false else s
        | _ => if ovf.contains g.1 then s.modG g.1 fun g => { g with owed := some 8 } else s) s)

/-! ### The cluster barrier (R370) -/

/-- The admitted teams of a cluster. -/
def State.clusterOf (s : State) (lid cluster : Nat) : List (Nat × Team) :=
  match tget lid s.launches with
  | none => []
  | some l => s.teams.filter fun t => tidLid t.1 == lid && t.2.team / l.lr.clusterN == cluster

/-- Every group of the cluster stands at CBAR; a phase that an ARRV has left open does not hold it (R370, R375). -/
def State.cbarReady (s : State) (lid cluster : Nat) : Bool :=
  let ts := s.clusterOf lid cluster
  (ts.any fun t => !t.2.retired) && ts.all fun t => t.2.retired || s.teamRuns t.1 &&
    (s.liveGroups t.1).all fun g => g.2.parked == .cbar

def execCbarRelease (lid cluster : Nat) (s : State) : Host.Outcome State Fault Refusal :=
  .next (if !s.cbarReady lid cluster then s else
    let s := (s.clusterOf lid cluster).foldl (fun s t =>
      (s.modT t.1 fun t => { t with cSnap := t.cImg, cphase := t.cphase + 1 }).modGroups t.1 fun _ g => g.preClose 1) s
    (s.clusterOf lid cluster).foldl (fun s t => if t.2.retired then s else s.goOn t.1 []) s)

end Sys2Proof.Machine
end

