-- ==== Sys2Proof/Machine/Rounds.lean ====
section
/-! DEFINITION. The application of rounds under the commit token (R220, R221), the launches that EMIT forms (R280, R281), and the
close of a D-interval (R225, R227). -/

namespace Sys2Proof.Machine

/-! ### A grid's memory -/

/-- Writes of a grid: `early` when early dependants see them (R282). -/
def Launch.put (l : Launch) (w : MemW) (early : Bool) : Launch :=
  { l with now := l.now.apply w, total := l.total.andThen w, trig := if early then l.trig.andThen w else l.trig }

/-- The teams of a launch that have been admitted. -/
def State.teamsOf (s : State) (lid : Nat) : List (Nat × Team) := s.teams.filter fun t => tidLid t.1 == lid

/-- The next pair at which a round waits to be applied (R221): pairs of rounds already applied, and of teams that have retired with
fewer rounds, are passed over. -/
def State.tokenSeek (s : State) (lid nteam : Nat) : Nat → Nat × Nat → Option (Nat × Nat)
  | 0, _ => none
  | n + 1, (k, t) =>
    if nteam ≤ t then
      if (s.teamsOf lid).all fun x => x.2.retired && x.2.nrounds ≤ k then none else s.tokenSeek lid nteam n (k + 1, 0)
    else match tget (tidOf lid t) s.teams with
      | none => none
      | some tm =>
        if tm.rounds.any fun r => r.k == k then some (k, t)
        else if tm.retired || k ≤ tm.nrounds then s.tokenSeek lid nteam n (k, t + 1)
        else none

/-! ### Token-applied operations (R177, R221, R245, R246) -/

/-- The result of CPYC on a word. -/
def cpycNew (op : Nat) (ty : Ty) (sat : Bool) (old a b : Nat) : Nat × Nat :=
  match op with
  | 0 => applyOp .add ty sat old a
  | 1 => (old ||| a, 0)
  | 2 => (old &&& a, 0)
  | 3 => applyOp .min ty sat old a
  | 4 => applyOp .max ty sat old a
  | 5 => (a, 0)
  | _ => (if old == a then b else old, 0)

/-- Bytes put in place in a slot of a team's ring. -/
def State.slotBytesAt (s : State) (tid : Nat) (slot : Option (Nat × W32)) (bs : List Byte) : State :=
  match slot, tget tid s.teams with
  | some (q, sq), some t => match tget q t.queues with
    | some x =>
      if (x.desc sq).seq == sq && (x.desc sq).status == 1 then
        s.putT tid { t with data := t.data.apply (MemW.ofCells (cells (x.slotAddr sq - spbOf t.team) bs)) }
      else s
    | none => s
  | _, _ => s

/-- Words of memory that a token-applied operation changes in turn: key, bytes, the change, and where its flags go. A word in a
poisoned unit stays (R246). Answers the launch, the old values and whether one was poisoned. -/
def Launch.readModify (l : Launch) (early : Bool) (ws : List (Nat × Nat × (Nat → Nat × Nat) × (Nat × Nat))) :
    Launch × List Nat × Bool :=
  ws.foldl (fun (acc : Launch × List Nat × Bool) w =>
    let (l, old, bad) := acc
    let (key, n, f, gid, idx) := w
    if l.now.bad key n then (l, old ++ [0], true)
    else
      let v := mnat l.now.data key n
      let r := f v
      let l := l.put { b := cells key (leBytes n r.1) } early
      ({ l with flagsDue := if r.2 == 0 then l.flagsDue else l.flagsDue ++ [(gid, idx, r.2)] }, old ++ [v], bad)) (l, [], false)

/-! ### EMIT and the launches it forms (R279 to R281) -/

def blockSize (node : LRec) : Nat := 64 + node.gz * node.gy
def blockAt (node : LRec) (b : Nat) : Nat := node.aux.toNat + 64 + b % 4 * blockSize node

/-- A number in a grid's memory at a virtual address. -/
def State.gridNum (s : State) (cid : Nat) (l : Launch) (va n : Nat) : Nat := leNat (s.imgBytes cid l.now va n)
/-- Bytes written to a grid's memory at a virtual address, where it is mapped; damaged ones poison their unit. -/
def State.gridPut (s : State) (lid va : Nat) (bs : List (Option Byte)) (early : Bool) : State :=
  let ps := bs.zipIdx.filterMap fun x => match engineAddr s (lidCtx lid) false false true (va + x.2) with
    | .ok k => some ({ chip := false, at' := k, v := x.1 } : Put)
    | _ => none
  s.modL lid fun l => l.put (putsToW ps) early

def formedKey (lid b : Nat) : Nat := lidOf (lidCtx lid) (lidKey lid + b + 1)

/-- The launch of a batch enters the submitted list (R281). Where two node records of one source give their batches one key, the later launch
takes the place of the earlier; a declaration block that the source has made unreadable or bad since the EMIT declares no queue (entry 27). -/
def State.form (s : State) (lid : Nat) (node : LRec) (b : Nat) (fixed : Bool) : State :=
  match tget lid s.launches with
  | none => s
  | some l =>
    let lr := { node with gy := 1, gz := 1, node := false, args := BitVec.ofNat 64 (blockAt node b), aux := 0 }
    let decl := (s.nodeQueues (lidCtx lid) l.now node).getD []
    s.putL (formedKey lid b) { lr := lr, qdecl := decl, launchPc := l.launchPc, seen := l.seen, early := l.early, base := l.total,
                               fixed := fixed }

/-- The launches formed from a launch see it as it now stands (R281), with the rounds of later pairs that a close has applied before their turn
(`State.storeRound`, entry 27). -/
def State.fixFormed (s : State) (lid : Nat) : State :=
  match tget lid s.launches with
  | none => s
  | some l =>
    let fix := fun (x : Nat × Launch) =>
      if sourceOf x.1 == lid && x.1 != lid && !x.2.fixed then (x.1, { x.2 with base := l.total, fixed := true }) else x
    { s with launches := s.launches.map fix }

/-- The launch formed from batch b − 4 that an EMIT of batch b waits for, where it begins its batch (R280). -/
def State.emitWaits (s : State) (lid : Nat) (l : Launch) (node : LRec) : Option Nat :=
  let i := s.gridNum (lidCtx lid) l (node.aux.toNat + 8) 8
  let bc := max node.gz 1
  let k := formedKey lid (i / bc - 4)
  if i % bc == 0 && 4 ≤ i / bc && !s.isDone k then some k else none
/-- One EMIT when its round applies; none while it waits for batch b − 4 (R280). The fault 0x19 of batch 65,535 names the EMIT, and its
team takes it at the word that closes the interval (R12, R281; entry 49), once for each group. -/
def State.applyEmit (s : State) (lid gid : Nat) (early : Bool) (node : LRec) (bytes : List (Option Byte)) (at' : FaultRec) :
    Option State :=
  match tget lid s.launches with
  | none => some s
  | some l =>
    let cid := lidCtx lid
    let aux := node.aux.toNat
    let i := s.gridNum cid l (aux + 8) 8
    let bc := max node.gz 1
    let b := i / bc
    let blk := blockAt node b
    if (s.emitWaits lid l node).isSome then none
    else if 2 ^ 16 ≤ b + 1 then some (s.modT (gidTid gid) fun t =>
        if t.emitFault.any fun x => x.1 == gid then t else { t with emitFault := t.emitFault ++ [(gid, at')] })
    else
      let put := fun (s : State) va n x => s.gridPut lid va ((leBytes n x).map some) early
      let s := if i % bc == 0 then put (put s blk 4 0) (blk + 4) 4 b else s
      let nrec := match tget lid s.launches with | some l => s.gridNum cid l blk 4 | none => 0
      let s := s.gridPut lid (blk + 64 + i % bc * node.gy) bytes early
      let s := put (put s blk 4 (nrec + 1)) (aux + 8) 8 (i + 1)
      let s := s.modL lid fun l => if l.nodes.contains node then l else { l with nodes := l.nodes ++ [node] }
      if nrec + 1 == bc then
        let nb := match tget lid s.launches with | some l => s.gridNum cid l (aux + 16) 4 | none => 0
        some (put (s.form lid node b false) (aux + 16) 4 (nb + 1))
      else some s

/-! ### Applying a round (R221) -/

/-- One token-applied operation; none while it waits. -/
def State.applyTok (s : State) (lid tid : Nat) (early : Bool) (gid : Nat) (op : TokOp) : Option State :=
  match tget lid s.launches with
  | none => some s
  | some l =>
    let app : App := { tm := { s := s, cid := lidCtx lid, img := l.now } }
    match op with
    | .cpyc lanes o ty sat fetch slot hold =>
      let n := ty.bits / 8
      let r := l.readModify early (lanes.map fun x =>
        (x.2.1, n, (fun old => cpycNew o ty sat old x.2.2.1.toNat x.2.2.2.toNat), (gid, x.1 / 4)))
      let s := (s.putL lid r.1).noteReads tid (lanes.foldl (fun ls x => nins (x.2.1 / 128) ls) [])
      let got := (lanes.map (·.1)).zip r.2.1
      let s := if fetch then s.slotBytesAt tid slot ((List.range 32).flatMap fun i =>
        leBytes n (((got.find? fun x => x.1 == i).map (·.2)).getD 0)) else s
      let s := s.fillSlot tid slot (if r.2.2 then 3 else 2) none
      some (match hold with
        | some id => { s with ops := tmod id (fun o => { o with state := .done 2 }) s.ops }
        | none => s)
    | .mdrm es ty sat tile =>
      let n := drainElem ty
      let r := l.readModify early (es.map fun x => (x.1, n, (fun old => applyOp .add ty sat old x.2.toNat), (gid, 16 + tile)))
      -- a poisoned word is reported to LOGS (R176, R397)
      some { s.putL lid r.1 with errors := s.errors ++ (es.filter fun x => l.now.bad x.1 n).map fun x => .error (.memory x.1) }
    | .alloc ins ls h slot =>
      let (a, out) := app.alloc ins h.toNat ls
      let s := s.putL lid { l.put a.w early with trees := nins h.toNat l.trees }
      let (bs, st) := allocSlot out
      some ((s.slotBytesAt tid slot bs).fillSlot tid slot st none)
    | .vact clr ls h => some (s.putL lid { l.put (app.vact clr h.toNat ls).w early with trees := nins h.toNat l.trees })
    | .emit node bytes at' => s.applyEmit lid gid early node bytes at'

/-- The token-applied operations of a round in order, and those that are left where one waits. -/
def State.applyToks (s : State) (lid tid : Nat) (early : Bool) : List (Nat × TokOp) → State × List (Nat × TokOp)
  | [] => (s, [])
  | x :: l => match s.applyTok lid tid early (tid * 64 + x.1) x.2 with
    | some s' => s'.applyToks lid tid early l
    | none => (s, x :: l)

/-- The pair at which a round of a running launch waits to be applied. -/
def State.nextRound (s : State) (lid : Nat) : Option (Nat × Nat) :=
  match tget lid s.launches, tget (lidCtx lid) s.ctxs with
  | some l, some c =>
    -- no pair lies past the last round of any team
    let last := (s.teamsOf lid).foldl (fun n t => max n t.2.nrounds) 0
    if l.state == .eligible && c.state != .switchedOut then s.tokenSeek lid l.lr.nteam ((last + 2) * (l.lr.nteam + 1)) l.token else none
  | _, _ => none

/-- A launch as a round of a team sees it: one deposited after an RFSH.D sees the early dependences whole (R226, R235). -/
def Launch.seenAt (l : Launch) (t : Team) (r : Round) : Launch :=
  if r.full then { l with now := (t.fullSnap.getD l.now).apply l.total } else l
/-- A launch after a round that saw `l`: what the round wrote goes into what the grid itself sees. -/
def Launch.unseen (l' l : Launch) (r : Round) : Launch := if r.full then { l' with now := l.now.apply l'.total } else l'

/-- A round applies: its plain writes, then its token-applied operations, as far as none of them waits. -/
def State.applyRound (s : State) (lid k t : Nat) : State :=
  let tid := tidOf lid t
  match tget tid s.teams with
  | none => s
  | some tm => match tm.rounds.find? fun r => r.k == k with
    | none => s
    | some r =>
      let early := match tm.trigger with | some j => k ≤ j | none => true
      let s := s.modL lid fun l => { l.put r.plain early with token := (k, t) }
      let s := s.modT tid fun t => { t with ownApplied := t.ownApplied.andThen r.plain }
      let l0 := (tget lid s.launches).getD {}
      let (s, left) := (s.modL lid fun l => l.seenAt tm r).applyToks lid tid early r.toks
      let s := s.modL lid fun l => l.unseen l0 r
      let rest := if left == [] then tm.rounds.filter fun r => r.k != k
        else tm.rounds.map fun r => if r.k == k then { r with plain := {}, toks := left } else r
      let s := s.modT tid fun t => { t with rounds := rest }
      if left == [] then (s.fixFormed lid).modL lid fun l => { l with token := (k, t + 1) } else s

/-- Every team waits at the grid's barrier or has retired. -/
def State.allAtClose (s : State) (lid : Nat) : Bool :=
  match tget lid s.launches with
  | none => false
  | some l =>
    let ts := s.teamsOf lid
    l.state == .eligible && !l.closed && ts.length == l.lr.nteam && ts.all fun t => t.2.retired || t.2.atGrid.isSome && s.teamRuns t.1

/-- The first round left of an interval that every team has come to the end of. Where the token stands at a pair of a team that waits at the
grid's barrier with fewer rounds, that round belongs to a later interval, and the rounds of this one apply before it, in the token's order: so
the barrier ends when every team has arrived (R28, R225 and R375 against R221, entry 31). -/
def State.earlyRound (s : State) (lid : Nat) : Option (Nat × Nat) :=
  if !s.allAtClose lid then none
  else ((s.teamsOf lid).flatMap fun t => t.2.rounds.map fun r => (r.k, t.2.team)).foldl (fun (m : Option (Nat × Nat)) x => match m with
    | some y => if x.1 < y.1 || x.1 == y.1 && x.2 < y.2 then some x else m
    | none => some x) none
/-- The round is applied; the token stays where it is and later passes over its pair. -/
def State.storeRound (s : State) (lid k t : Nat) : State :=
  match tget lid s.launches with
  | some l => (s.applyRound lid k t).modL lid fun l' => { l' with token := l.token }
  | none => s

/-- The round that applies next, with its team and launch. -/
def State.tokenRound (s : State) (lid : Nat) : Option (Launch × Team × Round) := do
  let (k, t) ← (s.nextRound lid).orElse fun _ => s.earlyRound lid
  let tm ← tget (tidOf lid t) s.teams
  let r ← tm.rounds.find? fun r => r.k == k
  return (← tget lid s.launches, tm, r)
/-- The formed launch that holds up that round (R280). -/
def State.roundWaitsFor (s : State) (lid : Nat) : Option Nat := do
  let (l, tm, r) ← s.tokenRound lid
  match r.plain == {}, r.toks with
  | true, (_, .emit node _ _) :: _ => s.emitWaits lid (l.seenAt tm r) node
  | _, _ => none
/-- Whether that round can go on. -/
def State.roundDue (s : State) (lid : Nat) : Bool := (s.tokenRound lid).isSome && (s.roundWaitsFor lid).isNone

def execRoundApply (lid : Nat) (s : State) : Host.Outcome State Fault Refusal :=
  .next (match s.nextRound lid with
    | some (k, t) => s.applyRound lid k t
    | none => match s.earlyRound lid with
      | some (k, t) => s.storeRound lid k t
      | none => s)

/-! ### The close of a D-interval (R225, R227) -/

/-- Memory lines as zeros with their poison set (R227, R230). -/
def wipeLines (ls : List Nat) : MemW :=
  { b := toverlay [] (ls.flatMap fun p => cells (128 * p) (List.replicate 128 0)),
    p := toverlay [] (ls.flatMap fun p => [(2 * p, true), (2 * p + 1, true)]) }

/-- Whether a launch releases its early dependants (R282). -/
def State.released (s : State) (lid : Nat) : Bool :=
  match tget lid s.launches with
  | none => false
  | some l =>
    let ts := s.teamsOf lid
    l.state == .eligible && ts.length == l.lr.nteam && (ts.any fun t => t.2.trigger.isSome) &&
    ts.all fun t => match t.2.trigger with
      | some j => t.2.rounds.all fun r => j < r.k
      | none => t.2.retired && t.2.rounds == []
/-- The writes of the open interval undone, and the private lines wiped: the memory part of a grid cancel (R230). What early dependants see of
it (`trig`) is undone with the rest as long as they have not been released, and stays from then on (R282); the lines that a team wiped after
its trigger are none of theirs (entry 50). -/
def State.undoInterval (s : State) (lid : Nat) (l : Launch) : Launch :=
  let marks := fun (past : Bool) =>
    ((s.teamsOf lid).filter fun t => t.2.trigger.isSome == past).foldl (fun ls t => nunion ls t.2.privMarks) []
  let kept := s.released lid
  let l := { l with total := l.totalAtClose, now := l.nowAtClose, trig := if kept then l.trig else l.trigAtClose }
  (l.put (wipeLines (marks false)) !kept).put (wipeLines (marks true)) false

/-- Every team has come to the close, and its rounds have been applied. -/
def State.closeReady (s : State) (lid : Nat) : Bool := s.allAtClose lid && (s.teamsOf lid).all fun t => t.2.rounds == []

/-- The teams that read a line which another team wrote under `.priv`. -/
def privReaders (ts : List (Nat × Team)) : List Nat :=
  (ts.filter fun t => t.2.linesRead.any fun p => ts.any fun u => u.1 != t.1 && u.2.privMarks.contains p).map (·.1)

/-- The flags due at the close (R177, R245): in the STATUS copy of a slice, or in a tile's flag copy, over what the tile words issued before
leave there. -/
def State.raiseDue (s : State) (due : List (Nat × Nat × Nat)) : State :=
  due.foldl (fun s d => if 16 ≤ d.2.1 then (s.tileFlush d.1).modG d.1 fun g => g.raiseTile (d.2.1 - 16) d.2.2
    else s.modG d.1 fun g => g.raise d.2.1 d.2.2) s

/-- A team that traps for a group that has left: with fault 0x10 where the team has retired (R227), else with the first fault of an EMIT whose
group has left (R12, R281). Further such faults wait until the team resumes: one that it has trapped for stays (entry 49). -/
def Team.exitDue (t : Team) (guilty : Bool) : Team :=
  let (g, pc, slice) := t.lastExit
  let t := if t.retired && guilty then { t with emitFault := (g, { code := 0x10, slice := slice, fpc := pc, rpc := pc }) :: t.emitFault } else t
  if t.exitFault.isSome then t
  else match t.emitFault.find? fun x => !t.live x.1 with
    | some (h, r) =>
      { t with exitFault := some (gidG h, { r with rpc := if t.retired then pc else r.fpc, closing := true }), trapped := true,
               emitFault := t.emitFault.erase (h, r) }
    | none => t
/-- The live group that takes its team's fault 0x10: the lowest without a fault of its own, else the lowest (R227, entry 49). -/
def Team.reader (t : Team) (live : List (Nat × Group)) : Option Nat :=
  ((live.find? fun g => g.2.owed.isNone && !t.emitFault.any fun x => x.1 == g.1).orElse fun _ => live.head?).map (·.1)
/-- The fault of a code at the word at which a group is parked, whose effect stands (R355). -/
def State.closingRec (s : State) (gid code : Nat) : FaultRec :=
  match envOf s { gid := gid, mask := 255 } with
  | some e => let w := e.wordAt e.pc.toNat; { e.record (decodeWord w).toOption w (flt code) with closing := true }
  | none => { code := code, closing := true }
/-- The faults of a group at the word that closes the interval, in the order in which the close finds them: that of its T-close (R216), that of its
EMIT (R281), and its team's 0x10 (R227). It takes the first at the word and the others at the same word, one at each resume (R12, entry 49). -/
def State.closeFaults (s : State) (t : Team) (taker : Option Nat) (gid : Nat) (g : Group) : List FaultRec :=
  (g.owed.map (s.closingRec gid)).toList ++
  ((t.emitFault.filter fun x => x.1 == gid).map fun x => { x.2 with closing := true, rpc := g.pcOf 255 }) ++
  if taker == some gid then [s.closingRec gid 0x10] else []
/-- A group goes on from the grid's barrier, or takes the first of its faults there. -/
def State.leaveGrid (s : State) (t : Team) (taker : Option Nat) (gid : Nat) (g : Group) : State :=
  match s.closeFaults t taker gid g with
  | [] => s.release gid 255
  | r :: rest => faultGroup (s.modG gid fun g => { g.modSub 255 fun x => { x with park := .none } with owed := none, due := rest }) gid 255 r

/-- The interval closes: the private check, the flags, the halo and the arenas, then the next interval opens. -/
def State.dClose (s : State) (lid : Nat) : State :=
  match tget lid s.launches with
  | none => s
  | some l =>
    let ts := s.teamsOf lid
    let guilty := privReaders ts
    let l := if guilty == [] then l else s.undoInterval lid l
    -- the close sees the early dependences whole once a team has executed RFSH.D (R226, entry 50)
    let sees := fun (l : Launch) => if ts.any fun t => t.2.fullSnap.isSome then s.withDeps l l.total l.now else l.now
    let app := (({ tm := { s := s, cid := lidCtx lid, img := sees l } } : App)).reclaim l.trees
    let due := l.flagsDue
    let regs := l.halo
    let ts' := ts.any fun t => t.2.atGrid == some true
    let gb := ts.any fun t => t.2.atGrid == some false
    let l := l.put app.w !(ts.any fun t => t.2.trigger.isSome)
    let l := { l with
      snap := l.now, nowAtClose := l.now, totalAtClose := l.total, trigAtClose := l.trig, flagsDue := [],
      halo := if ts' || !gb then [] else l.halo,
      tstep := if ts' then l.tstep + 1 else l.tstep, gbarCount := if gb then l.gbarCount + 1 else l.gbarCount,
      closed := !ts' && !gb }
    -- ghost copies last for the interval that a TSBAR opens (R312)
    let held : Halo := { ghosts := s.ghosts.filter fun g => g.2.1 != lid, msc := s.msc }
    let held := if ts' then deliverHalo { s := s, cid := lidCtx lid, img := sees l } lid regs held else held
    let s := ({ s with ghosts := held.ghosts, msc := held.msc }.putL lid l).raiseDue due
    let full := s.withDeps l l.total l.now
    let taker := fun (t : Nat × Team) => if guilty.contains t.1 then t.2.reader (s.liveGroups t.1) else none
    let s := { s with teams := s.teams.map fun t => if tidLid t.1 != lid then t else
      let waits := t.2.emitFault.filter fun x => !t.2.live x.1
      (t.1, ({ t.2 with
        dSnap := t.2.dImg, ownApplied := {}, charged := [], extraCharge := 0, privMarks := [], linesRead := [], atGrid := none,
        fullSnap := t.2.fullSnap.map fun _ => full, emitFault := waits }).exitDue (guilty.contains t.1)) }
    let s := ts.foldl (fun s t => s.modGroups t.1 fun _ g => g.preClose 2) s
    ts.foldl (fun s t =>
      (s.liveGroups t.1).foldl (fun s g =>
        match g.2.parked with
        | .grid _ => s.leaveGrid t.2 (taker t) g.1 g.2
        | _ => s) s) s

def execDIntervalClose (lid : Nat) (s : State) : Host.Outcome State Fault Refusal :=
  .next (if s.closeReady lid then s.dClose lid else s)

end Sys2Proof.Machine
end

