-- ==== Sys2Proof/Machine/Launches.lean ====
section
/-! DEFINITION. LAUNCH, LWAIT, MSGRD and MSGWR (R285 to R288), the scheduler and admission (R18 to R23, R289), the retirement of
groups and the completion of grids (R24, R230). -/

namespace Sys2Proof.Machine

/-! ### What the control words share -/

/-- A 64-bit operand of control code (R57). -/
def Env.ctl64 (e : Env) (o : Opd) : Nat := e.rd64 0 o
/-- A result of a control word. -/
def State.ctlPut (s : State) (gid : Nat) (d : Opd) (x : Nat) : State := s.modG gid fun g => g.wrD true d 0 x

/-- The launches of a context, ascending. -/
def State.launchesOf (s : State) (cid : Nat) : List (Nat × Launch) := s.launches.filter fun l => lidCtx l.1 == cid
def Launch.isDone (l : Launch) : Bool := match l.state with | .done _ => true | _ => false

/-- Bytes of a launch record or a declaration block, which must be readable, in type 1, 2 or control memory (R285). One in a poisoned unit raises
0x15, as a read by a word does (entry 60). -/
def State.recordBytes (s : State) (cid a : Nat) : Chk (List Byte) :=
  let bad : Flt := { code := 0x19, addr := a }
  let img := hImage s
  (List.range 64).mapM fun i =>
    if 2 ^ 55 ≤ a + i then .error bad
    else match translate s cid (a + i) with
      | .error _ => .error bad
      | .ok p =>
        let k := physKey cid p.ty p.target
        if !p.r || !(p.ty == 1 || p.ty == 2 || p.ty == 6) then .error bad
        else if p.ty == 6 && 2 ^ 20 ≤ p.target then
          match blockOf p.target, tget cid s.ctxs with
          | .ok (b, off), some c => .ok (c.blockByte b off)
          | _, _ => .error bad
        else if img.poison.contains (k / 64) then .error { code := 0x15, addr := a }
        else .ok (mget img.data k)

/-- The launches that a record's dependences name: launch and EARLY (R284). -/
def LRec.depsOf (r : LRec) (cid n : Nat) : List (Nat × Bool) :=
  r.deps.filterMap fun d => if d % 2 ^ 15 == 0 then none else some (lidOf cid ((n - d % 2 ^ 15) * 2 ^ 16), 2 ^ 15 ≤ d)

/-- The launches that a new one sees whole, and those it sees as they stood at their triggers (R226). What a full dependence saw early is
seen whole, and the new launch waits for it (`State.depState`, entry 50). -/
def State.seenBy (s : State) (deps : List (Nat × Bool)) (waited : List Nat) : List Nat × List Nat :=
  let get := fun (k : Nat) => (tget k s.launches).getD {}
  let full := (deps.filter fun d => !d.2).map (·.1) ++ waited
  let seen := full.foldl (fun l k => nunion (nunion (nins k l) (get k).seen) (get k).early) []
  let part := (deps.filter (·.2)).map (·.1)
  let seen := part.foldl (fun l k => nunion l (get k).seen) seen
  let early := part.foldl (fun l k => nunion (nins k l) (get k).early) []
  (seen, nminus early seen)

/-! ### LAUNCH (R285) -/

def execLaunch (f : RWord) (s : State) : Host.Outcome State Fault Refusal :=
  issueWord (.launch f) (fun e => ofChk (do
    if e.fenceOps.any fun o => !o.2.isDone then return .park .ctlFence e.s
    let s := e.controlJoin
    let a := e.ctl64 f.a
    guardC (a % 64 == 0) { code := 0x19, addr := a }
    let bs ← s.recordBytes e.cid a
    let (r, zeros) := recordOf bs
    let n := e.ctx.launchN + 1
    guardC (zeros && r.launchOk e.ctx.f.cores n) { code := 0x19, addr := a }
    let ds ← s.recordBytes e.cid (r.entry.toNat - 64)
    match declBlock ds with
    | none => throw { code := 0x19, addr := a }
    | some qs =>
      if 4096 ≤ ((s.launchesOf e.cid).filter fun l => l.2.state == .submitted).length then return .park .submit s
      let (seen, early) := s.seenBy (r.depsOf e.cid n) e.ctx.waited
      let s := s.putL (lidOf e.cid (n * 2 ^ 16)) { lr := r, qdecl := qs, launchPc := e.pc, seen := seen, early := early }
      return .ok ((s.modC e.cid fun c => { c with launchN := n }).ctlPut e.gid f.d (n * 2 ^ 16)))) s

/-! ### Grid cancel (R230) -/

/-- The collective entries that teams which are gone have used: a contribution whose operation is gone leaves its step. Withdrawals, marks, and
what other modules have sent remain: steps that are still open, here or of the next grid, need them (R258, R260, entry 25). -/
def State.releaseEntries (s : State) (cid : Nat) (es : List Nat) : State :=
  let stays := fun (p : Part) => match p.opid with | some id => (tget id s.ops).isSome | none => true
  let left := fun (x : CEntry) => { x with steps := (x.steps.map fun y => (y.1, y.2.filter stays)).filter fun y => y.2 != [] }
  es.foldl (fun s i => (s.modC cid fun c => { c with ctable := tmod i left c.ctable }).collBusy cid i) s
/-- The teams of a launch, their groups and their operations are gone, the trap slots they held are free, and so are the collective entries
they used. -/
def State.dropTeams (s : State) (lid : Nat) : State :=
  let entries := ((s.teamsOf lid).flatMap fun t => tkeys t.2.collSteps).dedup
  let slots := (s.teamsOf lid).filterMap fun t => t.2.trapSlot
  let s := s.modC (lidCtx lid) fun c => { c with trapUsed := nminus c.trapUsed slots }
  let s := { s with
           teams := s.teams.filter fun t => tidLid t.1 != lid,
           groups := s.groups.filter fun g => 2 ^ 200 ≤ g.1 || tidLid (gidTid g.1) != lid,
           ops := s.ops.filter fun o => 2 ^ 200 ≤ o.2.gid || tidLid (gidTid o.2.gid) != lid,
           bces := s.bces.map fun (q : Nat × List (Nat × Nat)) => (q.1, q.2.filter fun x => match tget x.1 s.ops with
             | some o => 2 ^ 200 ≤ o.gid || tidLid (gidTid o.gid) != lid | none => false) }
  s.releaseEntries (lidCtx lid) entries

/-- The slot of a token-applied operation, if it fills one (R245, R308). -/
def TokOp.slot : TokOp → Option (Nat × W32)
  | .cpyc _ _ _ _ _ s _ | .alloc _ _ _ s => s
  | _ => none
/-- The slots of a launch's token-applied operations that are discarded complete with FAULT (R230). -/
def State.failToks (s : State) (lid : Nat) : State :=
  (s.teamsOf lid).foldl (fun s t => ((t.2.rounds.flatMap (·.toks)) ++ t.2.toks).foldl
    (fun s x => s.fillSlot t.1 (TokOp.slot x.2) 4 none) s) s
/-- A launch ends with a status other than COMPLETE: a running grid is cancelled, its halo registrations are discarded and its ghost frames
become invalid (R230, R292). -/
def State.cancel (s : State) (lid status : Nat) : State :=
  match tget lid s.launches with
  | none => s
  | some l =>
    let l' := match l.state with | .eligible => s.undoInterval lid l | _ => l
    (({ s with ghosts := s.ghosts.filter fun g => g.2.1 != lid }.failToks lid).putL lid { l' with state := .done status, halo := [] }).dropTeams lid

/-! ### LWAIT (R287) -/

/-- LWAIT (R287). EXPIRED is looked at first, before the wait for a batch that has not formed; the table of R286 is taken to hold the 4,096 launches
with the highest keys, formed ones among them (entry 60). -/
def Env.lwait (e : Env) (s : State) (f : RWord) (cancel : Bool) : Chk Res := do
  let key := e.ctl64 f.a
  let n := key / 2 ^ 16
  guardC (n != 0 && n ≤ e.ctx.launchN) (flt 0x19)
  let lid := lidOf e.cid key
  let s := if cancel && ((tget lid s.launches).any fun l => !l.isDone) then s.cancel lid 4 else s
  if 4096 ≤ ((s.launchesOf e.cid).filter fun l => lid < l.1).length then
    return .ok ((s.modC e.cid fun c => { c with waited := nins lid c.waited }).ctlPut e.gid f.d 7)
  match tget lid s.launches with
  | none =>
    if s.isDone (sourceOf lid) then return .ok (s.ctlPut e.gid f.d 6)
    else return .park (if cancel then .lwaitCancel key else .lwait key) s
  | some l =>
    match l.state with
    | .done st => return .ok ((s.modC e.cid fun c => { c with waited := nins lid c.waited }).ctlPut e.gid f.d st)
    | _ => return .park (.lwait key) s

def execLwait (f : RWord) (s : State) : Host.Outcome State Fault Refusal :=
  issueWord (.lwait f) (fun e => ofChk (e.lwait e.s f false)) s
def execLwaitCancel (f : RWord) (s : State) : Host.Outcome State Fault Refusal :=
  issueWord (.lwaitCancel f) (fun e => ofChk (e.lwait e.s f true)) s

/-! ### MSGRD and MSGWR (R288 to R290) -/

/-- A range in control memory: the keys of its bytes (R288). Unmapped bytes come first. -/
def Env.ctlRange (e : Env) (write : Bool) (a n : Nat) : Chk (Nat → Nat) :=
  let see := fun (b : Nat) =>
    if 2 ^ 56 ≤ b then some 6 else if 2 ^ 55 ≤ b then some 7
    else match translate e.s e.cid b with
      | .error c => some c
      | .ok p => if p.ty == 6 && p.target < 2 ^ 20 && (if write then p.w else p.r) then none else some 7
  let ends := if n == 0 then [] else pageStarts a n ++ [a + n - 1]
  match (ends.find? fun b => see b == some 6).orElse fun _ => ends.find? fun b => (see b).isSome with
  | some b => .error { code := (see b).getD 7, addr := b }
  | none => .ok fun i => match translate e.s e.cid (a + i) with | .ok p => physKey e.cid p.ty p.target | .error _ => 0

def slotBytes : Nat := 4104
def execMsgrd (f : RWord) (s : State) : Host.Outcome State Fault Refusal :=
  issueWord (.msgrd f) (fun e => ofChk (do
    let a := e.ctl64 f.a
    let n := e.ctl64 f.b
    guardC (a % 8 == 0) { code := 0x04, addr := a }
    let key ← e.ctlRange true a n
    if e.ctx.intail == e.ctx.consumed then return .park .msgrd e.s
    let at' := slotBytes * (e.ctx.consumed.toNat % 64)
    let l := mnat e.ctx.inbound at' 8
    let len := if 4096 < l then 0 else l
    let bs := mread e.ctx.inbound (at' + 8) (min len n)
    let s := e.s.hWrite (MemW.ofCells (bs.zipIdx.map fun x => (key x.2, x.1)))
    let s := s.modC e.cid fun c => { c with consumed := c.consumed + 1 }
    return .ok (s.ctlPut e.gid f.d (len + (if n < len then 2 ^ 63 else 0))))) s

/-- MSGWR (R288, R390). A message that its connection does not take fails as a copy would (R256): its entry has an OPID and, since the
word names no virtual destination, the address of its source (entry 51). -/
def execMsgwr (f : RWord) (s : State) : Host.Outcome State Fault Refusal :=
  issueWord (.msgwr f) (fun e => ofChk (do
    let a := e.ctl64 f.a
    let n := e.ctl64 f.b
    guardC (n ≤ 4096) (flt 0x01)
    let key ← e.ctlRange false a n
    if 64 ≤ e.ctx.outstanding then return .park .msgwr e.s
    let img := hImage e.s
    let bs := leBytes 8 n ++ (List.range n).map fun i => mget img.data (key i)
    let off := slotBytes * (e.ctx.outprog.toNat % 64)
    let s := e.s.modC e.cid fun c => { c with outprog := c.outprog + 1, acked := c.ackedAt (c.outprog + 1) c.outack }
    -- the mailbox connection is entry 0 of the host connection table (R388)
    if hostOk e.ctx (off + bs.length - 1) then
      return .ok (s.hWrite (MemW.ofCells (e.ctx.hostCells off bs)))
    else
      let (x, s) := s.freshOpid e.cid
      return .ok (s.ringPut e.cid (ringEntry 3 7 (2 ^ 32 - 1) 0 x.toNat a 255 255)))) s

/-! ### Footprints (R19, R20, R22, R23) -/

/-- What a team, or a core's teams, take: group slots, vector register bytes and tiles by quadrant, and scratchpad bytes. -/
structure Foot where
  slots : List Nat
  vector : List Nat
  tiles : List Nat
  scratch : Nat

def addLists (a b : List Nat) : List Nat := (List.range 4).map fun i => (a[i]?).getD 0 + (b[i]?).getD 0
def Foot.add (a b : Foot) : Foot :=
  { slots := addLists a.slots b.slots, vector := addLists a.vector b.vector, tiles := addLists a.tiles b.tiles,
    scratch := a.scratch + b.scratch }
def Foot.none : Foot := { slots := [], vector := [], tiles := [], scratch := 0 }
def Foot.times (n : Nat) (a : Foot) : Foot :=
  { slots := a.slots.map (n * ·), vector := a.vector.map (n * ·), tiles := a.tiles.map (n * ·), scratch := n * a.scratch }
def Foot.fits (a : Foot) : Bool :=
  a.slots.all (· ≤ 16) && a.vector.all (· ≤ 262144) && a.tiles.all (· ≤ 8) && a.scratch ≤ 524288

def LRec.budget (r : LRec) (g : Nat) : Nat := 8 * (if g < r.c then r.rc else r.rp)
/-- What some groups of a launch take on the quadrants, and the allotment when `keep`. -/
def Launch.foot (l : Launch) (gs : List Nat) (keep : Bool) : Foot :=
  let sum := fun (f : Nat → Nat) => (List.range 4).map fun q => ((gs.filter fun g => g % 4 == q).map f).foldl (· + ·) 0
  { slots := sum fun _ => 1, vector := sum fun g => 128 * l.lr.budget g, tiles := sum fun g => if g < l.lr.c then l.lr.tiles else 0,
    scratch := if keep then l.layout.size else 0 }
def Launch.wholeFoot (l : Launch) : Foot := l.foot (List.range l.lr.groups) true

/-- A team's hold on its core: a retired one keeps its allotment under R194. -/
def State.teamFoot (s : State) (tid : Nat) (t : Team) : Foot :=
  match tget (tidLid tid) s.launches with
  | none => Foot.none
  | some l =>
    let n := l.lr.clusterN
    let kept := l.lr.coop || (s.clusterOf (tidLid tid) (t.team / n)).any fun u => !u.2.retired
    if t.retired then (if kept then l.foot [] true else Foot.none)
    else l.foot ((List.range l.lr.groups).filter fun g => !t.left.contains g) true

/-- What the teams of resident contexts take of a physical core; those of a context that has left its cores take nothing there (R346). -/
def State.coreFoot (s : State) (core : Nat) : Foot :=
  s.teams.foldl (fun f t => match tget (tidLid t.1) s.launches, tget (lidCtx (tidLid t.1)) s.ctxs with
    | some l, some c =>
      if c.state == .resident && c.phys (t.2.team % max l.lr.l 1) == core then f.add (s.teamFoot t.1 t.2) else f
    | _, _ => f) Foot.none

/-- The status with which R20, R22 or R23 refuses a launch. -/
def Launch.refusal (l : Launch) : Option Nat :=
  let r := l.lr
  if !l.wholeFoot.fits then some 1
  else if r.clog != 0 && r.l % r.clusterN != 0 then some 2
  else if r.coop && !(l.wholeFoot.times ((r.nteam + r.l - 1) / max r.l 1)).fits then some 3
  else none

/-! ### PROMOTE (R282, R289, R290) -/

/-- The dependences of a submitted launch: failed, met or neither. What it sees whole has completed (R226, entry 50). Those of a formed launch
count as met (R281); while the round that completed its batch goes on, it waits for the end of it, which is what it sees, unless that round
waits for this very launch (entry 27). -/
def State.depState (s : State) (lid : Nat) (l : Launch) : Option Bool :=
  if lidKey lid % 2 ^ 16 != 0 then
    (if l.fixed || s.roundWaitsFor (sourceOf lid) == some lid || s.isDone (sourceOf lid) then some true else none)
  else
    let ds := l.lr.depsOf (lidCtx lid) (lidKey lid / 2 ^ 16)
    let st := fun (k : Nat) => ((tget k s.launches).getD {}).state
    if ds.any fun d => match st d.1 with | .done x => x != 0 | _ => false then some false
    else if (ds.all fun d => st d.1 == .done 0 || d.2 && s.released d.1) && l.seen.all s.isDone then some true
    else none

/-- The dies that hold the logical cores a launch uses. -/
def Ctx.dies (c : Ctx) (n : Nat) : List Nat := (List.range n).foldl (fun l i => nins (c.phys i / 144) l) []
/-- Scheduler entries in use on a die. -/
def State.dieUse (s : State) (die : Nat) : Nat :=
  (s.launches.filter fun l => l.2.state == .eligible && match tget (lidCtx l.1) s.ctxs with
    | some c => (c.dies l.2.lr.l).contains die | none => false).length

/-- A launch becomes eligible: its code and its snapshot are taken. A formed one whose round is held up sees its source as it stands. A leaf launch
whose tree's header is invalid, unmapped or poisoned has no active leaf and completes with status 0 (entry 60). -/
def State.makeEligible (s : State) (lid : Nat) (l : Launch) : State :=
  let l := if l.fixed then l else { l with base := ((tget (sourceOf lid) s.launches).getD {}).total, fixed := true }
  let img := s.visible lid l
  let l := { l with state := .eligible, code := hImage s, snap := img, now := img, nowAtClose := img,
                    trees := if l.lr.leaf then [l.lr.aux.toNat] else [] }
  if !l.lr.leaf then s.putL lid l
  else
    let m : TreeMem := { s := s, cid := lidCtx lid, img := img }
    let ls := match (do m.activeLeaves (← m.header l.lr.aux.toNat) : Walk (List (Nat × Pt))) with | .ok x => x | .error _ => []
    let l := { l with lr := { l.lr with gx := ls.length, gy := 1, gz := 1 },
                      leaves := ls.map fun x => (BitVec.ofNat 64 x.1, x.2.x, x.2.y, x.2.z) }
    s.putL lid (if ls == [] then { l with state := .done 0 } else l)

/-- One submitted launch promoted, refused or failed, where that is due. -/
def State.promoteOne (s : State) (lid : Nat) : State :=
  match tget lid s.launches, tget (lidCtx lid) s.ctxs with
  | some l, some c =>
    if l.state != .submitted then s
    else match s.depState lid l with
      | none => s
      | some false => s.putL lid { l with state := .done 6 }
      | some true => match l.refusal with
        | some st => s.putL lid { l with state := .done st }
        | none => if (c.dies l.lr.l).all fun d => s.dieUse d < 256 then s.makeEligible lid l else s
  | _, _ => s

/-- The submitted launches in ascending order, until nothing more changes. -/
def execPromote (ctx : Nat) (s : State) : Host.Outcome State Fault Refusal :=
  .next ((s.launchesOf ctx).foldl (fun s l => s.promoteOne l.1) s)

/-- Whether PROMOTE would change a launch of a context. -/
def State.promoteReady (s : State) (ctx : Nat) : Bool :=
  match tget ctx s.ctxs with
  | none => false
  | some c => (c.state == .resident) && (s.launchesOf ctx).any fun l => l.2.state == .submitted &&
      match s.depState l.1 l.2 with
      | none => false
      | some false => true
      | some true => l.2.refusal.isSome || (c.dies l.2.lr.l).all fun d => s.dieUse d < 256

/-! ### ADMIT_TEAM (R21 to R23) -/

/-- The next team of a launch on a logical core. -/
def State.nextTeam (s : State) (lid : Nat) (l : Launch) (lcore : Nat) : Option Nat :=
  let n := ((s.teamsOf lid).filter fun t => t.2.team % max l.lr.l 1 == lcore).length
  let t := lcore + l.lr.l * n
  if t < l.lr.nteam then some t else none

/-- A candidate's place in the order: priority, launch sequence number, team, and which launch it belongs to. -/
structure Cand where
  prio : Nat
  key : Nat
  team : Nat
  lid : Nat
  deriving DecidableEq
def Cand.before (a b : Cand) : Bool :=
  a.prio < b.prio || a.prio == b.prio && (a.key < b.key || a.key == b.key && (a.team < b.team || a.team == b.team && a.lid < b.lid))

/-- The head of a physical core's candidate order. -/
def State.headOf (s : State) (core : Nat) : Option Cand :=
  let cs := s.launches.flatMap fun x => match tget (lidCtx x.1) s.ctxs with
    | some c =>
      if x.2.state == .eligible && c.state == .resident then
        ((List.range x.2.lr.l).filter fun i => c.phys i == core).filterMap fun i =>
          (s.nextTeam x.1 x.2 i).map fun t => ({ prio := x.2.lr.prio, key := lidKey x.1, team := t, lid := x.1 } : Cand)
      else []
    | none => []
  cs.foldl (fun b x => match b with | none => some x | some y => if x.before y then some x else b) none

/-- The teams that are admitted together with a candidate. -/
def Launch.together (l : Launch) (t : Nat) : List Nat :=
  if l.lr.coop then List.range l.lr.nteam
  else
    let n := l.lr.clusterN
    (List.range n).filterMap fun i => let u := t / n * n + i; if u < l.lr.nteam then some u else none

/-- A group at admission (R91, R144, R161). -/
def Launch.newGroup (l : Launch) (g : Nat) : Group :=
  { budget := l.lr.budget g, ntiles := if g < l.lr.c then l.lr.tiles else 0,
    slices := List.replicate 8 { pc := l.lr.entry } }
/-- A team at admission (R24, R185, R263, R366). -/
def State.admitTeam (s : State) (lid : Nat) (l : Launch) (t : Nat) : State :=
  let tid := tidOf lid t
  let s := s.putT tid { team := t, leaf := l.leaves[t]? }
  (List.range l.lr.groups).foldl (fun s g => s.putG (gidOf tid g) (l.newGroup g)) s

/-- The launch and the teams that a core can take now: each is the head on its core, and all fit. -/
def State.admitPlan (s : State) (core : Nat) : Option (Nat × List Nat) :=
  match s.headOf core with
  | none => none
  | some h => match tget h.lid s.launches, tget (lidCtx h.lid) s.ctxs with
    | some l, some c =>
      let ts := l.together h.team
      let coreOf := fun (t : Nat) => c.phys (t % max l.lr.l 1)
      let cores := ts.foldl (fun ks t => nins (coreOf t) ks) []
      if cores.all fun k => (match s.headOf k with | some x => x.lid == h.lid && ts.contains x.team | none => false) &&
          ((s.coreFoot k).add (l.wholeFoot.times (ts.filter fun t => coreOf t == k).length)).fits
      then some (h.lid, ts) else none
    | _, _ => none

def execAdmitTeam (core : Nat) (s : State) : Host.Outcome State Fault Refusal :=
  .next (match s.admitPlan core with
    | none => s
    | some (lid, ts) => match tget lid s.launches with
      | none => s
      | some l => ts.foldl (fun s t => s.admitTeam lid l t) s)

/-! ### GROUP_RETIRE (R24, R229) -/

def State.retireReady (s : State) (gid : Nat) : Bool :=
  match tget gid s.groups, tget (gidTid gid) s.teams with
  | some g, some t =>
    !g.isCtl && g.kact == 0 && (g.pend.all (·.returned)) && t.live gid && s.teamRuns (gidTid gid) &&
    (s.ops.all fun o => o.2.gid != gid || o.2.isDone || o.2.kind == .token || o.2.want.isSome)
  | _, _ => false

/-- The group becomes one gang and joins its operations in fork order, but for those dealt to another group's queue slot. -/
def State.retireJoin (s : State) (gid : Nat) (t : Team) : State :=
  let s := s.modG gid fun g => let g := (g.collapse 255 0).merge 255 (g.pcOf 255); { g with recs := [], pend := [] }
  (s.ops.filter fun o => o.2.gid == gid && o.2.kind != .token).foldl (fun s o =>
    if t.dealtAway (gidG gid) o.2 then s else s.joinOp gid 255 o.1) s

/-- The last group has left: the implicit CMIT.D (R24). -/
def State.retireTeam (s : State) (tid : Nat) : State :=
  let s := (s.tClose tid true).1
  let left := (s.teamGroups tid).any fun g => g.2.tops != [] || g.2.tmem != {}
  let s := if left then (s.tClose tid true).1 else s
  let s := (s.commit tid true).modT tid fun t => { t with retired := true, atGrid := none }
  { s with groups := s.groups.filter fun g => 2 ^ 200 ≤ g.1 || gidTid g.1 != tid }

def execGroupRetire (gid : Nat) (s : State) : Host.Outcome State Fault Refusal :=
  .next (if !s.retireReady gid then s else
    let tid := gidTid gid
    match tget tid s.teams, tget (tidLid tid) s.launches with
    | some t, some l =>
      let s := s.retireJoin gid t
      let s := s.modG gid fun g => g.cmitT t
      let gone := fun (q : Queue) => if q.inited && q.filler == gidG gid then { q with fdone := true } else q
      let s := s.modT tid fun t => { t with left := nins (gidG gid) t.left, pins := t.pins.filter fun p => p.2 != gidG gid,
                                            queues := t.queues.map fun q => (q.1, gone q.2) }
      let s := s.skipQueues tid
      if (List.range l.lr.groups).all fun g => ((tget tid s.teams).getD t).left.contains g then s.retireTeam tid else s
    | _, _ => s)

/-! ### GRID_COMPLETE (R24, R280) -/

def State.completeReady (s : State) (lid : Nat) : Bool :=
  match tget lid s.launches with
  | none => false
  | some l => l.state == .eligible && l.closed && (s.teamsOf lid).all fun t => t.2.retired && !t.2.trapped && t.2.exitFault.isNone

def execGridComplete (lid : Nat) (s : State) : Host.Outcome State Fault Refusal :=
  .next (if !s.completeReady lid then s else
    match tget lid s.launches with
    | none => s
    | some l =>
      -- with no TRIG the whole launch is what its early dependants see (R282)
      let early := !((s.teamsOf lid).any fun t => t.2.trigger.isSome)
      let s := l.nodes.foldl (fun s node =>
        let i := s.gridNum (lidCtx lid) l (node.aux.toNat + 8) 8
        let b := i / max node.gz 1
        if i % max node.gz 1 != 0 then
          let nb := s.gridNum (lidCtx lid) l (node.aux.toNat + 16) 4
          s.gridPut lid (node.aux.toNat + 16) ((leBytes 4 (nb + 1)).map some) early |>.form lid node b false
        else s) s
      let s := s.fixFormed lid
      (s.modL lid fun l => { l with state := .done 0 }).dropTeams lid)

end Sys2Proof.Machine
end

