-- ==== Sys2Proof/Machine/Counters.lean ====
section
/-! DEFINITION. Draws (R376 to R378) and the measurement counters: CNTR, CNTC, their events and their overflow (R379 to R385). -/

namespace Sys2Proof.Machine

/-! ### RNG (R376, R377) -/

/-- One round's multiplication and exchange, with the keys of the round. -/
def philoxRound (c : Nat × Nat × Nat × Nat) (k : Nat × Nat) : Nat × Nat × Nat × Nat :=
  let (c0, c1, c2, c3) := c
  let p := 0xD2511F53 * c0
  let q := 0xCD9E8D57 * c2
  (q / 2 ^ 32 ^^^ c1 ^^^ k.1, low 32 q, p / 2 ^ 32 ^^^ c3 ^^^ k.2, low 32 p)
/-- Philox-4x32-10. -/
def philox (c : Nat × Nat × Nat × Nat) (k0 k1 : Nat) : Nat × Nat × Nat × Nat :=
  (List.range 10).foldl (fun c r => philoxRound c (low 32 (k0 + r * 0x9E3779B9), low 32 (k1 + r * 0xBB67AE85))) c

def execRng (f : RWord) (s : State) : Host.Outcome State Fault Refusal :=
  issueWord (.rng f) (fun e =>
    let key := lidKey e.lid
    let g := e.walkPend (.rng f) f (if f.m == 2 then 4 else 1) fun l =>
      let (x0, x1, x2, x3) := philox ((sget 0 e.g.draws l).toNat, 32 * gidG e.gid + l, e.team.team, low 32 (e.rd64 l f.a))
        (low 32 key) (low 32 (key / 2 ^ 32))
      .ok (match f.m.val with
        | 0 => [x0]
        | 1 => [(roundFp f32 .rne false false (x0 / 256) (-24)).1]
        | _ => [x0, x1, x2, x3], 0)
    .ok (e.s.putG e.gid { g with draws := (e.execLanes f.k).foldl (fun d l => sset 0 d l (sget 0 d l + 1)) g.draws })) s

/-! ### Where a counter lies -/

/-- A core counter of a logical core, an MSC counter of a die, and a leaf of a quadrant's tree, of a context. -/
def coreCounter (cid lcore n : Nat) : Nat := cid * 2 ^ 32 + lcore * 16 + n
def mscCounter (cid die n : Nat) : Nat := cid * 2 ^ 32 + 2 ^ 16 + die * 4 + n
def treeLeaf (cid lcore quad leaf : Nat) : Nat := cid * 2 ^ 32 + lcore * 64 + quad * 16 + leaf

/-- A counter as CNTR shows it: 48 bits, and OVF in bit 63. -/
def State.counterWord (s : State) (k : Nat) : Nat :=
  low 48 (sget (0 : W64) s.counters k).toNat + (if s.overflowed.contains k then 2 ^ 63 else 0)
def State.leafWord (s : State) (k : Nat) : Nat := low 48 (sget (0 : W64) s.tree k).toNat

/-- The counter that sA selects (R383). -/
def Env.counterOf (e : Env) (a : Nat) : Chk Nat := do
  let n := fld a 0 8
  let (core, quad, die) := if e.g.isCtl then (fld a 16 10, fld a 26 2, fld a 16 2) else (e.lcore, gidG e.gid % 4, e.die)
  guardC (if e.g.isCtl then a < 2 ^ 28 && fld a 8 8 == 0 else a < 256) (flt 0x01)
  guardC (n ≤ 26 || 32 ≤ n && n ≤ 35) (flt 0x01)
  guardC (!e.g.isCtl || 32 ≤ n || core < e.ctx.f.cores) (flt 0x01)
  return if n < 16 then e.s.counterWord (coreCounter e.cid core n)
    else if n ≤ 26 then e.s.leafWord (treeLeaf e.cid core quad (n - 16))
    else e.s.counterWord (mscCounter e.cid die (n - 32))

def execCntr (f : RWord) (s : State) : Host.Outcome State Fault Refusal :=
  onceWord (.cntr f) (fun e => do
    let vs ← e.agreed f.k [f.a]
    let x ← e.counterOf ((vs[0]?).getD 0)
    return .ok (e.s.putG e.gid (e.scalarPend f x []))) s

/-! ### CNTC (R381, R382) -/

/-- Whether an event can be counted by a core counter or by an MSC counter. -/
def eventOk (msc : Bool) (ev : Nat) : Bool :=
  ev == 0 || (if msc then 0x20 ≤ ev && ev ≤ 0x25 else 1 ≤ ev && ev ≤ 0x0B || 0x10 ≤ ev && ev ≤ 0x1A)

def execCntc (f : RWord) (s : State) : Host.Outcome State Fault Refusal :=
  issueWord (.cntc f) (fun e => ofChk (do
    let a := e.ctl64 f.a
    let b := e.ctl64 f.b
    let msc := bitOf a 4
    let core := fld a 16 10
    guardC (a < 2 ^ 26 && fld a 5 11 == 0 && b < 2 ^ 15) (flt 0x01)
    guardC (eventOk msc (fld b 0 8)) (flt 0x01)
    guardC (if msc then fld a 0 4 < 4 && core < 4 else core < e.ctx.f.cores) (flt 0x01)
    let k := if msc then mscCounter e.cid core (fld a 0 4) else coreCounter e.cid core (fld a 0 4)
    let clr := bitOf b 14
    return .ok { e.s with
      counterCfg := sset 0 e.s.counterCfg k (BitVec.ofNat 64 (fld b 0 14)),
      counters := if clr then sset 0 e.s.counters k 0 else e.s.counters,
      counterOvf := if clr then e.s.counterOvf.filter (· != k) else e.s.counterOvf })) s

/-! ### Counting (R381, R385) -/

/-- An event counted by the counters of a context and core that select it, while the context is resident (R384); `quad` none where
QMASK is ignored. A sum beyond 2^48 − 1 keeps 48 bits and the mark of its overflow, whatever the count (R385). -/
def State.countEvent (s : State) (cid core ev : Nat) (quad : Option Nat) (n : Nat) : State :=
  let step := fun (cs : Sparse W64) (c : Nat × W64) =>
    let b := c.2.toNat
    let here := if 0x20 ≤ ev then c.1 / 2 ^ 32 == cid && (c.1 % 2 ^ 32 - 2 ^ 16) / 4 == core && 2 ^ 16 ≤ c.1 % 2 ^ 32
      else c.1 / 2 ^ 32 == cid && c.1 % 2 ^ 32 / 16 == core
    if here && fld b 0 8 == ev && bitOf b 12 && (match quad with | some q => bitOf (fld b 8 4) q | none => true) then
      let x := (sget 0 cs c.1).toNat + n
      sset 0 cs c.1 (BitVec.ofNat 64 (if x < 2 ^ 48 then x else 2 ^ 48 + low 48 x))
    else cs
  let resident := match tget cid s.ctxs with | some c => c.state == .resident | none => false
  if n == 0 || !resident then s else { s with counters := s.counterCfg.foldl step s.counters }

/-- The counter of COUNTER_OVERFLOW: `n` below 16 names a core counter, 32 and above an MSC counter of the die `core`. -/
def counterAt (ctx core n : Nat) : Nat := if n < 16 then coreCounter ctx core n else mscCounter ctx core (n - 32)

/-- COUNTER_OVERFLOW (R385): a counter that has passed 2^48 − 1 goes on from 0, with OVF set. -/
def execCounterOverflow (ctx core n : Nat) (s : State) : Host.Outcome State Fault Refusal :=
  .next (
    let k := counterAt ctx core n
    let v := (sget (0 : W64) s.counters k).toNat
    if v < 2 ^ 48 then s
    else { s with counters := sset 0 s.counters k (BitVec.ofNat 64 (low 48 v)), counterOvf := nins k s.counterOvf })

end Sys2Proof.Machine
end

