-- ==== Sys2Proof/Machine/IntWords.lean ====
section
/-! DEFINITION. Moves, lane words, integer arithmetic, logic, masks, packing, format and status (chapter "Registers: vector,
scalar, mask, flag, format and special registers", R102 to R118). -/

namespace Sys2Proof.Machine

/-- A word that computes one value per place (R93), with flags for the place's slice. -/
def mapWord (i : Instr) (k : Nat) (d : Opd) (wide : Bool) (f : Env → Nat → Nat × Nat) (s : State) :
    Host.Outcome State Fault Refusal :=
  regWord i (fun e => .ok (e.perPlace k d wide (f e))) s

def RWord.wide (f : RWord) : Bool := f.ty.bits == 64

/-! ### Moves (R102 to R107) -/

def execNop (f : RWord) (s : State) : Host.Outcome State Fault Refusal := regWord (.nop f) (fun e => .ok e.g) s

def execMov (f : RWord) (s : State) : Host.Outcome State Fault Refusal :=
  mapWord (.mov f) f.k f.d (RWord.wide f) (fun e p => (e.rd f.ty p f.a, 0)) s

/-- The value of MOVI for a scalar or a vector D (R104). -/
def moviValue (modi : Nat) (scalar : Bool) (imm : W32) : Nat :=
  match modi with
  | 1 => if scalar then sext 32 64 imm.toNat else imm.toNat
  | 3 => imm.toNat * 2 ^ 32
  | _ => imm.toNat

def execMovi (f : IWord) (s : State) : Host.Outcome State Fault Refusal :=
  mapWord (.movi f) f.k f.d (f.d.isS || f.modi == 3) (fun _ _ => (moviValue f.modi f.d.isS f.imm, 0)) s

def execMovh (f : IWord) (s : State) : Host.Outcome State Fault Refusal :=
  mapWord (.movh f) f.k f.d true (fun e p => (low 32 (e.rd64 p f.d) + f.imm.toNat * 2 ^ 32, 0)) s

def execRdln (f : RWord) (s : State) : Host.Outcome State Fault Refusal :=
  regWord (.rdln f) (fun e =>
    let lane := fun c => low 5 (e.rd64 (4 * c) f.b)
    match (e.execSlices f.k).find? fun c => !e.hasLane (lane c) with
    | some c => .error { code := 0x03, fslice := some c }
    | none => .ok (e.perPlace f.k f.d true fun p => (e.rd f.ty (lane (p / 4)) f.a, 0))) s

def execWrln (f : RWord) (s : State) : Host.Outcome State Fault Refusal :=
  regWord (.wrln f) (fun e =>
    let lane := fun c => low 5 (e.rd64 (4 * c) f.b)
    match (e.execSlices f.k).find? fun c => !e.hasLane (lane c) with
    | some c => .error { code := 0x03, fslice := some c }
    | none => .ok ((e.execSlices f.k).foldl
        (fun g c => g.wrD (RWord.wide f) f.d (lane c) (e.rd64 (4 * c) f.a)) e.g)) s

def execShfl (f : RWord) (s : State) : Host.Outcome State Fault Refusal :=
  regWord (.shfl f) (fun e =>
    let src := fun l => shflSrc f.m (e.rd32 l f.b) l
    match (e.execLanes f.k).find? fun l => match src l with | some j => !e.hasLane j | none => false with
    | some l => .error { code := 0x03, lane := l }
    | none => .ok (e.perPlace f.k f.d (RWord.wide f) fun l => (e.rd f.ty ((src l).getD l) f.a, 0))) s

def execSel (f : RWord) (s : State) : Host.Outcome State Fault Refusal :=
  mapWord (.sel f) f.k f.d (RWord.wide f)
    (fun e l => (if bitOf (e.rd32 l f.c) l then e.rd f.ty l f.a else e.rd f.ty l f.b, 0)) s

/-- PRMT (R107). -/
def prmt (a b c : Nat) : Nat :=
  (List.range 4).foldl (fun r i =>
    let sel := fld c (4 * i) 3
    let byte := fld (a + b * 2 ^ 32) (8 * sel) 8
    let byte := if bitOf c (4 * i + 3) then (if byte ≥ 128 then 255 else 0) else byte
    r + byte * 2 ^ (8 * i)) 0

def execPrmt (f : RWord) (s : State) : Host.Outcome State Fault Refusal :=
  mapWord (.prmt f) f.k f.d false (fun e p => (prmt (e.rd32 p f.a) (e.rd32 p f.b) (e.rd32 p f.c), 0)) s

/-! ### Integer arithmetic (R108) -/

/-- An exact integer function of each element, narrowed (R76). -/
def intElems (ty : Ty) (sat : Bool) (g : (Nat → Int) → Int) (xs : List Nat) : Nat × Nat :=
  perElem ty.ebits ty.bits fun i =>
    narrow sat ty.signed ty.ebits (g fun j => rd ty.signed ty.ebits (elem ty.ebits i ((xs[j]?).getD 0)))

def negIf (b : Bool) (x : Int) : Int := if b then -x else x

/-- The shared body of the integer words: exact result `g` of operands A, B, C by number. -/
def intWord (i : Instr) (f : RWord) (sat : Bool) (g : (Nat → Int) → Int) (s : State) : Host.Outcome State Fault Refusal :=
  mapWord i f.k f.d (RWord.wide f) (fun e p => intElems f.ty sat g [e.rd f.ty p f.a, e.rd f.ty p f.b, e.rd f.ty p f.c]) s

/-- IADD and ISUB with `.f`: the flags of R99 beside the result. -/
def flagWord (i : Instr) (f : RWord) (g : (Nat → Int) → Int) (fl : Nat → Nat → Nat → Flags5) (s : State) :
    Host.Outcome State Fault Refusal :=
  regWord i (fun e =>
    let g' := e.perPlace f.k f.d (RWord.wide f) fun p => intElems f.ty false g [e.rd f.ty p f.a, e.rd f.ty p f.b]
    .ok ((e.execSlices f.k).foldl
      (fun h c => h.setFlags c (fl f.ty.bits (e.rd f.ty (4 * c) f.a) (e.rd f.ty (4 * c) f.b))) g')) s

def execIadd (f : RWord) (s : State) : Host.Outcome State Fault Refusal :=
  if f.lo == 1 then flagWord (.iadd f) f (fun x => x 0 + x 1) addFlags s
  else intWord (.iadd f) f f.sat (fun x => negIf f.negA (x 0) + negIf f.negB (x 1)) s
def execIsub (f : RWord) (s : State) : Host.Outcome State Fault Refusal :=
  if f.lo == 1 then flagWord (.isub f) f (fun x => x 0 - x 1) subFlags s
  else intWord (.isub f) f f.sat (fun x => x 0 - x 1) s
def execImul (f : RWord) (s : State) : Host.Outcome State Fault Refusal :=
  intWord (.imul f) f f.sat (fun x => x 0 * x 1) s
def execImulh (f : RWord) (s : State) : Host.Outcome State Fault Refusal :=
  intWord (.imulh f) f false (fun x => (x 0 * x 1) / ((2 ^ f.ty.ebits : Nat) : Int)) s
def execImad (f : RWord) (s : State) : Host.Outcome State Fault Refusal :=
  intWord (.imad f) f f.sat (fun x => negIf f.negA (x 0) * negIf f.negB (x 1) + negIf f.negC (x 2)) s
def execImin (f : RWord) (s : State) : Host.Outcome State Fault Refusal :=
  intWord (.imin f) f false (fun x => min (x 0) (x 1)) s
def execImax (f : RWord) (s : State) : Host.Outcome State Fault Refusal :=
  intWord (.imax f) f false (fun x => max (x 0) (x 1)) s
def execIabs (f : RWord) (s : State) : Host.Outcome State Fault Refusal :=
  intWord (.iabs f) f f.sat (fun x => ((x 0).natAbs : Int)) s
def execIneg (f : RWord) (s : State) : Host.Outcome State Fault Refusal :=
  intWord (.ineg f) f f.sat (fun x => -(x 0)) s

/-! ### Logic, shifts, bit fields (R109, R110) -/

def compl (w a : Nat) : Nat := 2 ^ w - 1 - low w a
def complIf (b : Bool) (w a : Nat) : Nat := if b then compl w a else a

/-- A word that computes on the bits of A, B, C at the width of the type. -/
def bitWord (i : Instr) (f : RWord) (g : Nat → Nat → Nat → Nat → Nat) (s : State) : Host.Outcome State Fault Refusal :=
  mapWord i f.k f.d (RWord.wide f)
    (fun e p => (g f.ty.bits (e.rd f.ty p f.a) (e.rd f.ty p f.b) (e.rd f.ty p f.c), 0)) s

def execAnd (f : RWord) (s : State) : Host.Outcome State Fault Refusal :=
  bitWord (.and f) f (fun w a b _ => complIf f.negA w a &&& complIf f.negB w b) s
def execOr (f : RWord) (s : State) : Host.Outcome State Fault Refusal :=
  bitWord (.or f) f (fun w a b _ => complIf f.negA w a ||| complIf f.negB w b) s
def execXor (f : RWord) (s : State) : Host.Outcome State Fault Refusal :=
  bitWord (.xor f) f (fun w a b _ => complIf f.negA w a ^^^ complIf f.negB w b) s
def execNot (f : RWord) (s : State) : Host.Outcome State Fault Refusal :=
  bitWord (.not f) f (fun w a _ _ => compl w a) s

def shl (w a n : Nat) : Nat := low w (a * 2 ^ n)
def shr (_w a n : Nat) : Nat := a / 2 ^ n
def sar (w a n : Nat) : Nat := ofInt w (sgn w a / ((2 ^ n : Nat) : Int))
def rotl (w a n : Nat) : Nat := low w (a * 2 ^ n) + a / 2 ^ (w - n)
def popc (w a : Nat) : Nat := ((List.range w).filter (bitOf a)).length
def clz (w a : Nat) : Nat := if low w a == 0 then w else w - 1 - Nat.log2 (low w a)
def brev (w a : Nat) : Nat := (List.range w).foldl (fun r j => if bitOf a (w - 1 - j) then r + 2 ^ j else r) 0

def execShl (f : RWord) (s : State) : Host.Outcome State Fault Refusal :=
  bitWord (.shl f) f (fun w a b _ => shl w a (b % w)) s
def execShr (f : RWord) (s : State) : Host.Outcome State Fault Refusal :=
  bitWord (.shr f) f (fun w a b _ => shr w a (b % w)) s
def execSar (f : RWord) (s : State) : Host.Outcome State Fault Refusal :=
  bitWord (.sar f) f (fun w a b _ => sar w a (b % w)) s
def execRot (f : RWord) (s : State) : Host.Outcome State Fault Refusal :=
  bitWord (.rot f) f (fun w a b _ => rotl w a (b % w)) s
def execPopc (f : RWord) (s : State) : Host.Outcome State Fault Refusal :=
  bitWord (.popc f) f (fun w a _ _ => popc w a) s
def execClz (f : RWord) (s : State) : Host.Outcome State Fault Refusal :=
  bitWord (.clz f) f (fun w a _ _ => clz w a) s
def execBrev (f : RWord) (s : State) : Host.Outcome State Fault Refusal :=
  bitWord (.brev f) f (fun w a _ _ => brev w a) s

/-- BFX (R110): bits pos to pos + len − 1 of A, those at w or above as 0, sign-extended from bit len − 1. -/
def bfx (signed : Bool) (w a pos len : Nat) : Nat :=
  let v := low w a / 2 ^ pos % 2 ^ len
  if signed && len > 0 then ofInt w (sgn len v) else v
/-- BFI (R110). -/
def bfi (w t a pos len : Nat) : Nat :=
  (List.range len).foldl (fun t j =>
    if pos + j < w then t - fld t (pos + j) 1 * 2 ^ (pos + j) + fld a j 1 * 2 ^ (pos + j) else t) t

def execBfx (f : RWord) (s : State) : Host.Outcome State Fault Refusal :=
  mapWord (.bfx f) f.k f.d (RWord.wide f) (fun e p =>
    let w := f.ty.bits
    (bfx f.ty.signed w (e.rd f.ty p f.a) (low 8 (e.rd32 p f.b)) (min (low 8 (e.rd32 p f.c)) w), 0)) s
def execBfi (f : RWord) (s : State) : Host.Outcome State Fault Refusal :=
  mapWord (.bfi f) f.k f.d (RWord.wide f) (fun e p =>
    let w := f.ty.bits
    (bfi w (e.rd f.ty p f.d) (e.rd f.ty p f.a) (low 8 (e.rd32 p f.b)) (min (low 8 (e.rd32 p f.c)) w), 0)) s

/-- LEA (R111): a vector B is sign-extended from 32 bits. -/
def execLea (f : RWord) (s : State) : Host.Outcome State Fault Refusal :=
  mapWord (.lea f) f.k f.d true (fun e p =>
    let b := if f.b.isV then sext 32 64 (e.rd32 p f.b) else e.rd64 p f.b
    (low 64 (e.rd64 p f.a + b * 2 ^ f.m.val), 0)) s

/-! ### Comparison and immediates (R112 to R114) -/

/-- The two forms of an integer comparison (R112). -/
def icmpWord (i : Instr) (k : Nat) (d : Opd) (cc w : Nat) (a b : Env → Nat → Nat) (s : State) :
    Host.Outcome State Fault Refusal :=
  regWord i (fun e =>
    match d with
    | .k n => .ok (e.maskForm k n fun l => (intCond cc w (a e l) (b e l), 0))
    | _ => .ok ((e.execSlices k).foldl (fun g c => g.setFlags c (subFlags w (a e (4 * c)) (b e (4 * c)))) e.g)) s

def execIcmp (f : RWord) (s : State) : Host.Outcome State Fault Refusal :=
  icmpWord (.icmp f) f.k f.d f.lo f.ty.bits (fun e p => e.rd f.ty p f.a) (fun e p => e.rd f.ty p f.b) s

def IWord.w (f : IWord) : Nat := if f.modi.val % 2 == 1 then 64 else 32
def Env.rdW (e : Env) (w lane : Nat) (o : Opd) : Nat := if w == 64 then e.rd64 lane o else e.rd32 lane o
/-- The immediate sign-extended to w. -/
def IWord.simm (f : IWord) : Nat := sext 32 (IWord.w f) f.imm.toNat

def execIcmpi (f : IWord) (s : State) : Host.Outcome State Fault Refusal :=
  icmpWord (.icmpi f) f.k f.d (f.imm.toNat / 2 ^ 28) (IWord.w f) (fun e p => e.rdW (IWord.w f) p f.a)
    (fun _ _ => sext 28 (IWord.w f) (low 28 f.imm.toNat)) s

def immWord (i : Instr) (f : IWord) (g : Nat → Nat → Nat) (s : State) : Host.Outcome State Fault Refusal :=
  mapWord i f.k f.d (IWord.w f == 64) (fun e p => (g (IWord.w f) (e.rdW (IWord.w f) p f.a), 0)) s

def execIaddi (f : IWord) (s : State) : Host.Outcome State Fault Refusal :=
  regWord (.iaddi f) (fun e =>
    let w := IWord.w f
    let g := e.perPlace f.k f.d (w == 64) fun p => (low w (e.rdW w p f.a + IWord.simm f), 0)
    if f.modi.val / 4 % 2 == 1 then
      .ok ((e.execSlices f.k).foldl (fun h c => h.setFlags c (addFlags w (e.rdW w (4 * c) f.a) (IWord.simm f))) g)
    else .ok g) s
/-- The immediate of ANDI, ORI, XORI: with W = 1 MODI bit 1 sign-extends it (R114). -/
def IWord.limm (f : IWord) : Nat := if f.modi == 3 then sext 32 64 f.imm.toNat else f.imm.toNat
def execAndi (f : IWord) (s : State) : Host.Outcome State Fault Refusal :=
  immWord (.andi f) f (fun _ a => a &&& IWord.limm f) s
def execOri (f : IWord) (s : State) : Host.Outcome State Fault Refusal :=
  immWord (.ori f) f (fun _ a => a ||| IWord.limm f) s
def execXori (f : IWord) (s : State) : Host.Outcome State Fault Refusal :=
  immWord (.xori f) f (fun _ a => a ^^^ IWord.limm f) s
def execShli (f : IWord) (s : State) : Host.Outcome State Fault Refusal :=
  immWord (.shli f) f (fun w a => shl w a f.imm.toNat) s
def execShri (f : IWord) (s : State) : Host.Outcome State Fault Refusal :=
  immWord (.shri f) f (fun w a => if f.modi.val / 2 % 2 == 1 then sar w a f.imm.toNat else shr w a f.imm.toNat) s
def execImuli (f : IWord) (s : State) : Host.Outcome State Fault Refusal :=
  immWord (.imuli f) f (fun w a => low w (a * IWord.simm f)) s

/-! ### Masks (R115) -/

/-- A mask operand as the sub-gang sees it. -/
def Env.mask (e : Env) : Opd → Nat
  | .k n => e.maskView n
  | .sp .kact => e.maskView 0
  | _ => 0

/-- A mask word with K = 0: the bits of the sub-gang's lanes. -/
def kWord (i : Instr) (f : RWord) (g : Nat → Nat → Nat) (s : State) : Host.Outcome State Fault Refusal :=
  regWord i (fun e => .ok (match f.d with
    | .k n => e.g.wrK n (laneMask e.sub.mask) (g (e.mask f.a) (e.mask f.b))
    | _ => e.g)) s

def execKand (f : RWord) (s : State) : Host.Outcome State Fault Refusal := kWord (.kand f) f (· &&& ·) s
def execKor (f : RWord) (s : State) : Host.Outcome State Fault Refusal := kWord (.kor f) f (· ||| ·) s
def execKxor (f : RWord) (s : State) : Host.Outcome State Fault Refusal := kWord (.kxor f) f (· ^^^ ·) s
def execKnot (f : RWord) (s : State) : Host.Outcome State Fault Refusal := kWord (.knot f) f (fun a _ => compl 32 a) s

def execKmov (f : RWord) (s : State) : Host.Outcome State Fault Refusal :=
  match f.d with
  | .k n => regWord (.kmov f) (fun e =>
      let v := match f.a with
        | .v _ => (e.execLanes f.k).foldl (fun m l => if e.rd32 l f.a != 0 then m + 2 ^ l else m) 0
        | .s r => (slicesOf e.sub.mask).foldl (fun m c => m + fld (e.g.sr r c) (4 * c) 4 * 2 ^ (4 * c)) 0
        | a => e.mask a
      .ok (e.g.wrK n (laneMask e.sub.mask) v)) s
  | _ => mapWord (.kmov f) f.k f.d false (fun e _ => (e.mask f.a, 0)) s

def execKpop (f : RWord) (s : State) : Host.Outcome State Fault Refusal :=
  mapWord (.kpop f) f.k f.d false (fun e p =>
    let m := e.mask f.a
    (popc 32 (if f.m == 1 then fld m (p / 4 * 4) 4 else m), 0)) s
def execKffs (f : RWord) (s : State) : Host.Outcome State Fault Refusal :=
  mapWord (.kffs f) f.k f.d false (fun e _ => (((List.range 32).find? (bitOf (e.mask f.a))).getD 32, 0)) s
def execKset (f : RWord) (s : State) : Host.Outcome State Fault Refusal :=
  regWord (.kset f) (fun e => .ok (match f.d with
    | .k n => e.g.wrK n (laneMask e.sub.mask) (e.exec f.k)
    | _ => e.g)) s

/-! ### Packing, format, status (R116 to R118) -/

/-- PACK (R116): the elements of A, then of B, converted to the element type. -/
def pack (ty : Ty) (sat : Bool) (a b : Nat) : Nat × Nat :=
  let sb := 2 * ty.ebits
  perElem ty.ebits 32 fun i =>
    let n := 32 / sb
    let x := if i < n then fld a (i * sb) sb else fld b ((i - n) * sb) sb
    narrow sat ty.signed ty.ebits (sgn sb x)

def execPack (f : RWord) (s : State) : Host.Outcome State Fault Refusal :=
  mapWord (.pack f) f.k f.d false (fun e p => pack f.ty f.sat (e.rd32 p f.a) (e.rd32 p f.b)) s
def execUnpk (f : RWord) (s : State) : Host.Outcome State Fault Refusal :=
  mapWord (.unpk f) f.k f.d false (fun e p =>
    let x := elem f.ty.ebits f.m (e.rd32 p f.a)
    (if f.ty.signed then sext f.ty.ebits 32 x else x, 0)) s

/-- The values FMR may hold (R82, R98): code, accumulator code. -/
def fmrValid (v : Nat) : Bool :=
  let a := fld v 0 4
  let acc := fld v 10 2
  fld v 12 4 == 0 && a == fld v 4 4 && a ≤ 8 && v < 2 ^ 16 &&
    acc == (if a == 0 then 2 else if a == 4 || a == 5 then 1 else 0)

def execSfmt (f : IWord) (s : State) : Host.Outcome State Fault Refusal :=
  regWord (.sfmt f) (fun e =>
    let v := fun c => if f.modi == 1 then low 16 (e.rd64 (4 * c) f.a) else f.imm.toNat
    match (e.execSlices f.k).find? fun c => !fmrValid (v c) with
    | some c => .error { code := 0x11, fslice := some c }
    | none => .ok ((e.execSlices f.k).foldl
        (fun g c => (g.modSlice c fun x => { x with fmr := BitVec.ofNat 16 (v c) }).mendX .fmr c) e.g)) s

def execClrst (f : RWord) (s : State) : Host.Outcome State Fault Refusal :=
  regWord (.clrst f) (fun e =>
    let g := e.perPlace f.k f.d true fun _ => (e.status, 0)
    .ok ((e.execSlices f.k).foldl (fun g c => g.modSlice c fun x =>
      { x with status := x.status &&& ~~~ (BitVec.ofNat 32 (e.rd64 (4 * c) f.a)) }) g)) s

end Sys2Proof.Machine
end

