-- ==== Sys2Proof/Machine/FpWords.lean ====
section
/-! DEFINITION. Floating-point and conversion words (chapter "Registers continued: floating-point and conversion
instructions", R119 to R143) and the pair word (R51 to R54). -/

namespace Sys2Proof.Machine

/-- The format of a scalar floating-point type. -/
def fpFmt (ty : Ty) : Fmt := (fmtOf ty).getD f32

/-- Pre() of R121 on a pattern. -/
def pre (f : Fmt) (ab ng : Bool) (x : Nat) : Nat :=
  let x := if ab then x % 2 ^ (f.bits - 1) else x
  if ng then x ^^^ 2 ^ (f.bits - 1) else x

namespace RWord
def absA (f : RWord) : Bool := bitOf f.lo 4
def absB (f : RWord) : Bool := bitOf f.lo 3
def absC (f : RWord) : Bool := bitOf f.lo 2
end RWord

def Env.fA (e : Env) (f : RWord) (p : Nat) : FV :=
  unpackFp (fpFmt f.ty) (pre (fpFmt f.ty) (RWord.absA f) f.negA (e.rd f.ty p f.a))
def Env.fB (e : Env) (f : RWord) (p : Nat) : FV :=
  unpackFp (fpFmt f.ty) (pre (fpFmt f.ty) (RWord.absB f) f.negB (e.rd f.ty p f.b))
def Env.fC (e : Env) (f : RWord) (p : Nat) : FV :=
  unpackFp (fpFmt f.ty) (pre (fpFmt f.ty) (RWord.absC f) f.negC (e.rd f.ty p f.c))

def FV.flip : FV → FV
  | .nan s => .nan s
  | .inf n => .inf (!n)
  | .fin n m e => .fin (!n) m e

/-! ### Arithmetic (R122 to R125) -/

def execFadd (f : RWord) (s : State) : Host.Outcome State Fault Refusal :=
  mapWord (.fadd f) f.k f.d (RWord.wide f) (fun e p => addFp (fpFmt f.ty) f.rnd f.sat (e.fA f p) (e.fB f p)) s
def execFsub (f : RWord) (s : State) : Host.Outcome State Fault Refusal :=
  mapWord (.fsub f) f.k f.d (RWord.wide f) (fun e p => addFp (fpFmt f.ty) f.rnd f.sat (e.fA f p) (FV.flip (e.fB f p))) s
def execFmul (f : RWord) (s : State) : Host.Outcome State Fault Refusal :=
  mapWord (.fmul f) f.k f.d (RWord.wide f) (fun e p => mulFp (fpFmt f.ty) f.rnd f.sat (e.fA f p) (e.fB f p)) s
def execFfma (f : RWord) (s : State) : Host.Outcome State Fault Refusal :=
  mapWord (.ffma f) f.k f.d (RWord.wide f)
    (fun e p => dotFp (fpFmt f.ty) f.rnd f.sat (e.fC f p) [(e.fA f p, e.fB f p)]) s

def Env.pA (e : Env) (f : RWord) (p : Nat) : Nat := pre (fpFmt f.ty) (RWord.absA f) f.negA (e.rd f.ty p f.a)
def Env.pB (e : Env) (f : RWord) (p : Nat) : Nat := pre (fpFmt f.ty) (RWord.absB f) f.negB (e.rd f.ty p f.b)

def execFmin (f : RWord) (s : State) : Host.Outcome State Fault Refusal :=
  mapWord (.fmin f) f.k f.d (RWord.wide f) (fun e p => minMaxFp (fpFmt f.ty) false (e.pA f p) (e.pB f p)) s
def execFmax (f : RWord) (s : State) : Host.Outcome State Fault Refusal :=
  mapWord (.fmax f) f.k f.d (RWord.wide f) (fun e p => minMaxFp (fpFmt f.ty) true (e.pA f p) (e.pB f p)) s

/-- A function of the sign bit of each element (R125). -/
def signElems (ty : Ty) (g : Bool → Bool → Bool) (a b : Nat) : Nat :=
  (perElem ty.ebits ty.bits fun i =>
    let x := elem ty.ebits i a
    let y := elem ty.ebits i b
    (x % 2 ^ (ty.ebits - 1) + (if g (bitOf x (ty.ebits - 1)) (bitOf y (ty.ebits - 1)) then 2 ^ (ty.ebits - 1) else 0), 0)).1

def signWord (i : Instr) (f : RWord) (g : Bool → Bool → Bool) (s : State) : Host.Outcome State Fault Refusal :=
  mapWord i f.k f.d (RWord.wide f) (fun e p => (signElems f.ty g (e.rd f.ty p f.a) (e.rd f.ty p f.b), 0)) s

def execFabs (f : RWord) (s : State) : Host.Outcome State Fault Refusal := signWord (.fabs f) f (fun _ _ => false) s
def execFneg (f : RWord) (s : State) : Host.Outcome State Fault Refusal := signWord (.fneg f) f (fun a _ => !a) s
def execFcps (f : RWord) (s : State) : Host.Outcome State Fault Refusal :=
  signWord (.fcps f) f (fun a b => if f.m == 0 then b else if f.m == 1 then !b else a != b) s

/-! ### Comparison and classification (R126 to R128) -/

def execFcmp (f : RWord) (s : State) : Host.Outcome State Fault Refusal :=
  regWord (.fcmp f) (fun e =>
    let fmt := fpFmt f.ty
    let a := fun p => unpackFp fmt (pre fmt false f.negA (e.rd f.ty p f.a))
    let b := fun p => unpackFp fmt (pre fmt false f.negB (e.rd f.ty p f.b))
    match f.d with
    | .k n => .ok (e.maskForm f.k n fun l => let r := fpCond f.lo (a l) (b l); (r.1, if r.2 then fNV else 0))
    | _ => .ok ((e.execSlices f.k).foldl (fun g c =>
        let x := a (4 * c)
        let y := b (4 * c)
        (g.setFlags c (fcmpFlags (cmpFp x y))).raise c (if x.isSnan || y.isSnan then fNV else 0)) e.g)) s

def execFclass (f : RWord) (s : State) : Host.Outcome State Fault Refusal :=
  mapWord (.fclass f) f.k f.d false (fun e p => (fclassFp (fpFmt f.ty) (e.rd f.ty p f.a), 0)) s

/-! ### Division, roots, transcendentals (R129 to R132): V-class -/

def execFdiv (f : RWord) (s : State) : Host.Outcome State Fault Refusal :=
  vWord (.fdiv f) f.d f.k (RWord.wide f) (fun e p => divFp (fpFmt f.ty) f.rnd f.sat (e.fA f p) (e.fB f p)) s
def execFsqrt (f : RWord) (s : State) : Host.Outcome State Fault Refusal :=
  vWord (.fsqrt f) f.d f.k (RWord.wide f) (fun e p => sqrtFp (fpFmt f.ty) f.rnd (e.fA f p)) s
/-- The words of R130 by number. -/
def transWord (i : Instr) (f : RWord) (fn : Nat) (s : State) : Host.Outcome State Fault Refusal :=
  vWord i f.d f.k false (fun e p => transFp fn (e.pA f p)) s
def execFrcp (f : RWord) (s : State) : Host.Outcome State Fault Refusal := transWord (.frcp f) f 2 s
def execFrsq (f : RWord) (s : State) : Host.Outcome State Fault Refusal := transWord (.frsq f) f 3 s
def execFex2 (f : RWord) (s : State) : Host.Outcome State Fault Refusal := transWord (.fex2 f) f 4 s
def execFlg2 (f : RWord) (s : State) : Host.Outcome State Fault Refusal := transWord (.flg2 f) f 5 s
def execFsin (f : RWord) (s : State) : Host.Outcome State Fault Refusal := transWord (.fsin f) f 6 s
def execFcos (f : RWord) (s : State) : Host.Outcome State Fault Refusal := transWord (.fcos f) f 7 s

/-! ### Rounding to integral, scaling, exponents (R134 to R136) -/

def execFrnd (f : RWord) (s : State) : Host.Outcome State Fault Refusal :=
  mapWord (.frnd f) f.k f.d (RWord.wide f) (fun e p => frndFp (fpFmt f.ty) f.rnd (f.m == 1) (e.pA f p)) s
def execFscl (f : RWord) (s : State) : Host.Outcome State Fault Refusal :=
  mapWord (.fscl f) f.k f.d (RWord.wide f)
    (fun e p => fsclFp (fpFmt f.ty) f.rnd f.sat (e.pA f p) (sgn 32 (e.rd32 p f.b))) s
def execFgexp (f : RWord) (s : State) : Host.Outcome State Fault Refusal :=
  mapWord (.fgexp f) f.k f.d (f.m == 1 && RWord.wide f)
    (fun e p => fgexpFp (fpFmt f.ty) (f.m == 1) (e.rd f.ty p f.a)) s

/-! ### Immediate forms (R137) -/

def IWord.fmt (f : IWord) : Fmt := if f.modi.val % 2 == 1 then f64 else f32
def IWord.rnd (f : IWord) : Rnd := (Rnd.ofCode (f.modi.val / 2)).getD .rne
def IWord.fimm (f : IWord) : FV :=
  unpackFp (IWord.fmt f) (if f.modi.val % 2 == 1 then f.imm.toNat * 2 ^ 32 else f.imm.toNat)
/-- A floating-point immediate word: operands D and A, and the immediate. -/
def fimmWord (i : Instr) (f : IWord) (g : Fmt → Rnd → FV → FV → FV → Nat × Nat) (s : State) :
    Host.Outcome State Fault Refusal :=
  mapWord i f.k f.d (IWord.w f == 64) (fun e p =>
    g (IWord.fmt f) (IWord.rnd f) (unpackFp (IWord.fmt f) (e.rdW (IWord.w f) p f.d))
      (unpackFp (IWord.fmt f) (e.rdW (IWord.w f) p f.a)) (IWord.fimm f)) s
def execFaddi (f : IWord) (s : State) : Host.Outcome State Fault Refusal :=
  fimmWord (.faddi f) f (fun fm r _ a i => addFp fm r false a i) s
def execFmuli (f : IWord) (s : State) : Host.Outcome State Fault Refusal :=
  fimmWord (.fmuli f) f (fun fm r _ a i => mulFp fm r false a i) s
def execFfmai (f : IWord) (s : State) : Host.Outcome State Fault Refusal :=
  fimmWord (.ffmai f) f (fun fm r d a i => dotFp fm r false i [(d, a)]) s

/-! ### Conversions (R138 to R142) -/

/-- The formats of F2F by code (R138). -/
def f2fFmt : Nat → Fmt
  | 0 => f64 | 1 => f32 | 2 => f16 | 3 => bf16 | 4 => e4m3 | _ => e5m2

def execF2f (f : RWord) (s : State) : Host.Outcome State Fault Refusal :=
  mapWord (.f2f f) f.k f.d (f.m == 0) (fun e p =>
    let src := f2fFmt (f.lo.val / 4)
    let dst := f2fFmt f.m
    let n := f.lo.val % 4
    let x := if src.bits == 64 then e.rd64 p f.a else if src.bits == 32 then e.rd32 p f.a else elem src.bits n (e.rd32 p f.a)
    let r := f2fFp src dst f.rnd f.sat x
    if dst.bits ≥ 32 then r
    else
      let old := e.rd32 p f.d
      (old - elem dst.bits n old * 2 ^ (n * dst.bits) + r.1 * 2 ^ (n * dst.bits), r.2)) s

def execF2i (f : RWord) (s : State) : Host.Outcome State Fault Refusal :=
  mapWord (.f2i f) f.k f.d (2 ≤ f.m.val)
    (fun e p => f2iFp f.rnd (f.m.val % 2 == 0) (if f.m.val < 2 then 32 else 64) (e.fA f p)) s

def execI2f (f : RWord) (s : State) : Host.Outcome State Fault Refusal :=
  mapWord (.i2f f) f.k f.d (f.m == 0)
    (fun e p => i2fFp (f2fFmt f.m) f.rnd f.sat (rd f.ty.signed f.ty.bits (e.rd f.ty p f.a))) s

def execFdp2 (f : RWord) (s : State) : Host.Outcome State Fault Refusal :=
  mapWord (.fdp2 f) f.k f.d false (fun e p =>
    let fm := fpFmt f.ty
    let x := fun o ng i => unpackFp fm (pre fm false ng (elem 16 i (e.rd32 p o)))
    dotFp f32 f.rnd f.sat (unpackFp f32 (pre f32 false f.negC (e.rd32 p f.c)))
      [(x f.a f.negA 0, x f.b f.negB 0), (x f.a f.negA 1, x f.b f.negB 1)]) s

/-! ### Block pack and unpack (R143) -/

/-- The halves of which all 16 lanes execute; none when some half executes in part. -/
def halves (ex : Nat) : Option (List Nat) :=
  let h := fun i => fld ex (16 * i) 16
  if (h 0 != 0 && h 0 != 0xFFFF) || (h 1 != 0 && h 1 != 0xFFFF) then none
  else some ([0, 1].filter fun i => h i != 0)

def execBpack (f : RWord) (s : State) : Host.Outcome State Fault Refusal :=
  regWord (.bpack f) (fun e =>
    match halves (e.exec f.k) with
    | none => .error (flt 0x03)
    | some hs => .ok (hs.foldl (fun g h =>
        let r := sbEncode (sbM f.m) ((List.range 16).map fun i => unpackFp f32 (e.rd32 (16 * h + i) f.a))
        let g := (List.range 16).foldl (fun g w => g.wrD false f.d (16 * h + w) (fld r.1 (32 * w) 32)) g
        g.raise (4 * h) r.2) e.g)) s

def execBunpk (f : RWord) (s : State) : Host.Outcome State Fault Refusal :=
  regWord (.bunpk f) (fun e =>
    match halves (e.exec f.k) with
    | none => .error (flt 0x03)
    | some hs => .ok (hs.foldl (fun g h =>
        let blk := (List.range 5).foldl (fun b w => b + e.rd32 (16 * h + w) f.a * 2 ^ (32 * w)) 0
        (List.range 16).foldl (fun g i =>
          g.wrD false f.d (16 * h + i) (packFp f32 .rne false (sbElem (sbM f.m) blk i)).1) g) e.g)) s

/-! ### Pair words (R51 to R54) -/

/-- The source of a slot: the register, or IMM8 sign-extended, converted to f32 where the source type is f32 (R52). -/
def PairOp.srcF32 : PairOp → Bool
  | .fadd | .fsub | .fmul | .fmin | .fmax | .fabs | .fneg | .f2i => true
  | _ => false

def pairSrc (e : Env) (p : PSlot) (lane : Nat) : Nat :=
  match p.src with
  | .reg n => e.g.vr n lane
  | .imm v => if PairOp.srcF32 p.op then (i2fFp f32 .rne false (sgn 8 v.toNat)).1 else sext 8 32 v.toNat

/-- The effect of a pair operation on D and X (R54). -/
def pairOp (op : PairOp) (d x : Nat) : Nat × Nat :=
  let u := unpackFp f32
  match op with
  | .nop => (d, 0)
  | .mov => (x, 0)
  | .iadd => (low 32 (d + x), 0)
  | .isub => (ofInt 32 ((d : Int) - x), 0)
  | .and => (d &&& x, 0)
  | .or => (d ||| x, 0)
  | .xor => (d ^^^ x, 0)
  | .shl => (shl 32 d (x % 32), 0)
  | .shr => (shr 32 d (x % 32), 0)
  | .sar => (sar 32 d (x % 32), 0)
  | .imin => (ofInt 32 (min (sgn 32 d) (sgn 32 x)), 0)
  | .imax => (ofInt 32 (max (sgn 32 d) (sgn 32 x)), 0)
  | .imul => (low 32 (d * x), 0)
  | .fadd => addFp f32 .rne false (u d) (u x)
  | .fsub => addFp f32 .rne false (u d) (FV.flip (u x))
  | .fmul => mulFp f32 .rne false (u d) (u x)
  | .fmin => minMaxFp f32 false d x
  | .fmax => minMaxFp f32 true d x
  | .fabs => (x % 2 ^ 31, 0)
  | .fneg => (x ^^^ 2 ^ 31, 0)
  | .i2f => i2fFp f32 .rne false (sgn 32 x)
  | .f2i => f2iFp .rtz true 32 (u x)

/-- One slot: operands read in `e`, results into `g` (R52). -/
def pairSlot (e : Env) (g : Group) (p : PSlot) : Group :=
  if p.op == .nop then g
  else (e.execLanes p.k).foldl (fun g l =>
    let r := pairOp p.op (e.g.vr p.d l) (pairSrc e p l)
    (g.wrV p.d l r.1).raise (l / 4) r.2) g

def execPairWord (f : PWord) (s : State) : Host.Outcome State Fault Refusal :=
  regWord (.pairWord f) (fun e => .ok (pairSlot e (pairSlot e e.g f.s0) f.s1)) s

end Sys2Proof.Machine
end

