-- ==== Sys2Proof/Machine/System.lean ====
section
/-! DEFINITION. Control CSRs and the system words (R359, R360), the return of pending results (R44), team traps with their images
and restarts (R352 to R358), TEAMCTL and CPYCTL. -/

namespace Sys2Proof.Machine

/-! ### Group images and the trap summary (R352, R354) -/

/-- A record as R149 lays it out in 192 bits. -/
def Record.bits (r : Record) : Nat :=
  r.s + ((List.range 8).map fun i => ((r.path[i]?).getD 0 % 8) * 2 ^ (8 + 3 * i)).sum + r.depth * 2 ^ 32 +
  ((List.range 8).map fun i => ((r.fmr[i]?).getD 0).toNat * 2 ^ (64 + 16 * i)).sum

/-- A pending result in a group image: one of scalar registers holds the low and the high word of slice s in lanes 4s and
4s + 1 (entry 15). -/
def Pend.image (p : Pend) (budget : Nat) : List Byte :=
  let isV := p.dst < budget && p.dst < 128
  let first := p.dst % 128
  let lanes := if isV then (List.range 32).filter fun l => p.vw.any fun w => w.1 % 32 == l
    else (List.range 32).filter fun l => l % 4 < 2 && p.sw.any fun w => w.1 % 8 == l / 4
  let value := fun (j l : Nat) =>
    if isV then ((p.vw.find? fun w => w.1 == 32 * (first + j) + l).map fun w => w.2.toNat).getD 0
    else ((p.sw.find? fun w => w.1 == 8 * (first + j) + l / 4).map fun w => w.2.toNat / 2 ^ (32 * (l % 4)) % 2 ^ 32).getD 0
  leBytes 8 p.pc.toNat ++ leBytes 1 p.dst ++ leBytes 1 p.nreg ++ leBytes 2 0 ++
  leBytes 4 ((lanes.map fun l => 2 ^ l).sum) ++
  (List.range p.nreg).flatMap fun j => (List.range 32).flatMap fun l => leBytes 4 (if lanes.contains l then value j l else 0)

def Flags5.bits (f : Flags5) : Nat :=
  (if f.z then 16 else 0) + (if f.n then 8 else 0) + (if f.c then 4 else 0) + (if f.v then 2 else 0) + (if f.u then 1 else 0)

/-- Records by ascending depth, then by the lowest slice of S. -/
def Group.sortedRecs (g : Group) : List Record :=
  (List.range 17).flatMap fun d => (List.range 8).flatMap fun i => g.recs.filter fun r => r.depth == d && lowest r.s == i

/-- The depth of a slice's innermost record. -/
def Group.sliceDepth (g : Group) (i : Nat) : Nat := (g.recs.filter fun r => bitOf r.s i).foldl (fun d r => max d r.depth) 0

/-- The group image (R352). -/
def Group.image (g : Group) : List Byte :=
  let per := fun (f : Nat → List Byte) => (List.range 8).flatMap f
  let st := g.slice
  let held := g.pend.filter (·.slices != 0)
  let pend := held.flatMap fun p => p.image g.budget
  let upTo := leBytes 4 g.kact.toNat ++ per (fun i => leBytes 4 (st i).status.toNat) ++ leBytes 4 0 ++
    per (fun i => leBytes 2 (st i).fmr.toNat) ++ leBytes 8 0 ++
    per (fun i => leBytes 8 (st i).pc.toNat ++ leBytes 1 (Flags5.bits (g.flags i)) ++ leBytes 1 (st i).call.length ++ leBytes 2 0 ++
      leBytes 4 (st i).sp ++ leBytes 1 (g.sliceDepth i) ++ leBytes 15 0) ++
    per (fun i => (List.range 16).flatMap fun j => leBytes 8 (((st i).call.reverse[j]?).getD 0).toNat)
  let pendAt := 5920 + 128 * g.budget
  let recOff := (pendAt + 16 + pend.length + 7) / 8 * 8
  upTo ++ leBytes 8 g.recs.length ++ leBytes 8 recOff ++ leBytes 432 0 ++
    (List.range 7).flatMap (fun j => leBytes 4 (g.kr (j + 1))) ++ leBytes 4 0 ++
    per (fun i => (List.range 64).flatMap fun j => leBytes 8 (g.sr j i)) ++
    (List.range g.budget).flatMap (fun j => (List.range 32).flatMap fun l => leBytes 4 (g.vr j l)) ++
    leBytes 8 held.length ++ leBytes 8 pend.length ++ pend ++ leBytes (recOff - (pendAt + 16 + pend.length)) 0 ++
    g.sortedRecs.flatMap fun r => leBytes 24 r.bits

/-- Registers k1 to k7, scalars and vectors as an image holds them, whose bytes a reader gives. -/
def Group.readRegs (g : Group) (rd : Nat → Nat → Nat) : Group :=
  let ks := (List.range 7).map fun j => (j + 1, (BitVec.ofNat 32 (rd (1792 + 4 * j) 4) : W32))
  let ss := (List.range 64).flatMap fun j => (List.range 8).map fun i =>
    (8 * j + i, (BitVec.ofNat 64 (rd (1824 + 512 * i + 8 * j) 8) : W64))
  let vs := (List.range g.budget).flatMap fun j => (List.range 32).map fun l =>
    (32 * j + l, (BitVec.ofNat 32 (rd (5920 + 128 * j + 4 * l) 4) : W32))
  let put := fun (α : Type) (l : List (Nat × α)) (zero : α → Bool) => l.filter fun x => !zero x.2
  { g with kreg := put W32 ks (· == 0), sreg := put W64 ss (· == 0),
           vreg := put W32 vs (· == 0) ++ g.vreg.filter fun w => 32 * g.budget ≤ w.1 }
/-- The same read back at a resume: what is written is no longer damaged (R100, R355). -/
def Group.readBack (g : Group) (rd : Nat → Nat → Nat) : Group := { g.readRegs rd with badK := [], badS := [], badV := [] }

/-- A trap slot's first byte (R345). -/
def Ctx.slotAddr (c : Ctx) (k : Nat) : Nat := c.f.trapbase + k * 2 ^ 27
/-- Images follow the 3,072 bytes of the summary, by ascending group, each at a multiple of 64 (entry 15). -/
def imageOffsets (gs : List (Nat × Group)) : List (Nat × Nat) :=
  (gs.foldl (fun (acc : Nat × List (Nat × Nat)) g =>
    (acc.1 + (g.2.image.length + 63) / 64 * 64, acc.2 ++ [(g.1, acc.1)])) (3072, [])).2

/-- The lowest live slice's program counter. -/
def Group.haltPc (g : Group) : W64 := (g.slice (lowest (if g.liveMask == 0 then 255 else g.liveMask))).pc

/-- The group entry of the summary (R354); every skid is zero, since the halt reaches the siblings at once. -/
def groupEntry (n : Nat) (t : Team) (gs : List (Nat × Group)) (offs : List (Nat × Nat)) (g : Nat) : List Byte :=
  if n ≤ g then leBytes 32 0
  else if t.exitFault.any fun x => x.1 == g then leBytes 32 2
  else if t.retired then leBytes 32 3
  else match gs.find? fun x => gidG x.1 == g with
    | none => leBytes 32 3
    | some x =>
      if t.left.contains g then leBytes 32 3
      else leBytes 1 (if x.2.faultRec.isSome then 2 else 1) ++ leBytes 1 x.2.subs.length ++ leBytes 2 0 ++ leBytes 4 0 ++
        leBytes 8 x.2.haltPc.toNat ++ leBytes 8 (((offs.find? fun o => o.1 == x.1).map (·.2)).getD 0) ++
        leBytes 4 x.2.kact.toNat ++ leBytes 4 0

/-- The fault that the summary reports: of the lowest group in STATE 2, one that has left included (R354). -/
def firstFault (t : Team) (gs : List (Nat × Group)) : Nat × FaultRec :=
  let live := gs.findSome? fun x => x.2.faultRec.map fun r => (gidG x.1, r)
  match t.exitFault, live with
  | some x, some y => if x.1 ≤ y.1 then x else y
  | some x, none => x
  | none, some y => y
  | none, none => (0, default)

/-- The trap summary (R354). -/
def summaryOf (ctx : Ctx) (lid : Nat) (l : Launch) (t : Team) (gs : List (Nat × Group)) : List Byte :=
  let (g, r) := firstFault t gs
  let pad := fun (b : List Byte) => (b ++ List.replicate 32 0).take 32
  leBytes 1 r.code ++ leBytes 1 g ++ leBytes 1 r.slice ++ leBytes 1 r.lane ++ leBytes 4 0 ++
  leBytes 8 r.fpc.toNat ++ leBytes 8 r.word.toNat ++ leBytes 8 r.rpc.toNat ++ leBytes 8 r.addr.toNat ++ leBytes 8 r.arg.toNat ++
  leBytes 8 (lidKey lid) ++ leBytes 4 t.team ++ leBytes 1 ctx.f.ccore ++ leBytes 3 0 ++ leBytes 8 l.launchPc.toNat ++
  pad r.opA ++ pad r.opB ++ pad r.opC ++ leBytes 32 0 ++ leBytes 824 0 ++
  (List.range 64).flatMap (groupEntry l.lr.groups t gs (imageOffsets gs))

/-! ### Site tuples (R361) -/

/-- The 32 bytes of a site tuple. -/
def State.site (s : State) (gid slice : Nat) : List Byte :=
  let lid := tidLid (gidTid gid)
  leBytes 1 (match tget (lidCtx lid) s.ctxs with | some c => c.f.ccore | none => 0) ++ leBytes 7 0 ++
  leBytes 8 (match tget lid s.launches with | some l => l.launchPc.toNat | none => 0) ++ leBytes 8 (lidKey lid) ++
  leBytes 4 (gidTid gid % 2 ^ 32) ++ leBytes 1 (gidG gid) ++ leBytes 1 slice ++ leBytes 2 0
/-- What a sample or a dump begins with: the site tuple and the word address. -/
def State.sampleSite (s : State) (gid slice : Nat) (pc : W64) : List Byte := s.site gid slice ++ leBytes 8 pc.toNat

/-- A free trap slot of a context (R353). -/
def Ctx.freeSlot (c : Ctx) : Option Nat := (List.range c.f.trapn).find? fun k => !c.trapUsed.contains k

/-- Bytes written to the second tier at an address. -/
def State.tier2 (s : State) (a : Nat) (bs : List Byte) : State := s.hWrite (MemW.ofCells (cells (physKey 0 2 a) bs))

/-- Outstanding V-class results are collected at a halt (R50): they stay pending. -/
def State.collectPend (s : State) (tid : Nat) : State :=
  s.modGroups tid fun _ g => { g with pend := (g.pend.map fun p => { p with returned := true }).filter (·.slices != 0) }

def State.trapReady (s : State) (tid : Nat) : Bool :=
  match tget tid s.teams, tget (lidCtx (tidLid tid)) s.ctxs with
  | some t, some c => t.trapped && t.trapSlot.isNone && c.freeSlot.isSome && c.state == .resident
  | _, _ => false

/-- TEAM_TRAP (R353): the team takes the lowest free trap image slot; summary, images and fault ring entry are written. -/
def execTeamTrap (tid : Nat) (s : State) : Host.Outcome State Fault Refusal :=
  .next (if !s.trapReady tid then s else
    -- the engines stop: the tile queues drain (R349)
    let s := s.runTiles tid
    let lid := tidLid tid
    let cid := lidCtx lid
    match tget tid s.teams, tget lid s.launches, tget cid s.ctxs with
    | some t, some l, some c =>
      let k := c.freeSlot.getD 0
      let gs := if t.retired then [] else s.liveGroups tid
      let sum := summaryOf c lid l t gs
      let base := c.slotAddr k
      let s := s.tier2 base sum
      let s := (imageOffsets gs).foldl (fun s o => match tget o.1 gs with
        | some g => s.tier2 (base + o.2) g.image | none => s) s
      let s := s.putT tid { t with trapSlot := some k, summary := sum }
      let s := s.collectPend tid
      let s := s.modC cid fun c => { c with trapUsed := nins k c.trapUsed }
      let (g, r) := firstFault t gs
      -- a breakpoint's stop names its own slice and word (R361), a debugger's the lowest live slice
      let s := if r.code == 0x13 then s.report (.stop (s.sampleSite (gidOf tid g) r.slice r.fpc))
        else if t.debugStop then s.report (.stop (s.sampleSite (gidOf tid g) (lowest (((tget (gidOf tid g) gs).getD {}).liveMask))
            (((tget (gidOf tid g) gs).getD {}).haltPc)))
        else s
      s.ringPut cid (ringEntry (if t.debugStop then 5 else 1) r.code t.team (lidKey lid) base r.fpc.toNat g r.slice)
    | _, _, _ => s)

/-! ### Restarting a team (R355) -/

/-- The sub-gang that faulted. -/
def Group.faultSub (g : Group) (r : FaultRec) : Nat := ((g.subs.find? fun x => bitOf x.mask r.slice).map (·.mask)).getD 255

/-- A faulted group restarts: `skip` is ACTION 1. -/
def State.restart (s : State) (gid : Nat) (skip : Bool) : State :=
  match tget gid s.groups with
  | none => s
  | some g =>
    let s := s.putG gid { g with halted := false, faultRec := none }
    match g.faultRec with
    | none => s
    | some r =>
      let m := g.faultSub r
      let clear := fun (g : Group) => g.modSub m fun x => { x with park := .none }
      -- a REGANG or KSYNC whose partners have arrived is not issued again: it joins them now
      let ended := fun (g : Group) => g.modSub m fun x => match x.park with | .regang | .ksync _ => x | _ => { x with park := .none }
      if r.marker then
        s.modG gid fun g => ended (g.writePendLogged m (s.undoOn gid))
      else if r.closing then match g.due with
        -- the further faults of the close are taken at the same word, one at each resume (R12)
        | x :: rest => faultGroup (s.modG gid fun g => clear { g with due := rest }) gid m x
        | [] => s.release gid m
      -- a word that the sub-gang has left behind (entry 47): it goes on where it stands
      else if r.rpc != r.fpc then s
      else if r.code == 0x13 || r.code == 0x14 || skip then s.modG gid fun g => clear (g.advance m)
      else s.modG gid clear

/-- Markers that waited while the team stood still, and joins. -/
def State.resettle (s : State) (gid : Nat) : State :=
  match tget gid s.groups with
  | none => s
  | some g => (g.subs.foldl (fun s x => if x.park == .marker then s.settle gid x.mask else s) s).rejoin gid

/-- The team runs again and its slot is free; where the fault of another EMIT of a group that has left waits, it traps anew (R12). -/
def State.unhalt (s : State) (tid : Nat) (skip : Nat → Bool) : State :=
  match tget tid s.teams with
  | none => s
  | some t =>
    let cid := lidCtx (tidLid tid)
    let s := s.modC cid fun c => { c with trapUsed := match t.trapSlot with | some k => nminus c.trapUsed [k] | none => c.trapUsed }
    let s := s.putT tid ({ t with trapped := false, debugStop := false, trapSlot := none, exitFault := none }.exitDue false)
    if t.retired then s
    else
      let gs := (s.liveGroups tid).map (·.1)
      let s := gs.foldl (fun s g => s.restart g (skip g)) s
      gs.foldl (fun s g => s.resettle g) s

/-- The team that a TEAMCTL means: trapped, with its slot. -/
def State.ctlTeam (s : State) (cid team : Nat) : Option (Nat × Team × Nat) :=
  match tget cid s.ctxs with
  | none => none
  | some c =>
    let tid := tidOf (lidOf cid c.tkey.toNat) team
    match tget tid s.teams with
    | some t => if t.trapped && !t.debugStop && c.state == .resident then t.trapSlot.map fun k => (tid, t, k) else none
    | none => none

/-- TEAMCTL action 0 (R355). -/
def State.teamResume (s : State) (cid team : Nat) : State :=
  match s.ctlTeam cid team, tget cid s.ctxs with
  | some (tid, t, k), some c =>
    if t.retired then s.unhalt tid fun _ => false
    else
      let base := c.slotAddr k
      let img := (hImage s).data
      let act := fun (gid : Nat) => mnat img (physKey 0 2 (base + 1024 + 32 * gidG gid + 28)) 1
      let gs := s.liveGroups tid
      if gs.any fun g => 2 ≤ act g.1 then s.cancel (tidLid tid) 5
      else
        let offs := imageOffsets gs
        let s := gs.foldl (fun s g =>
          let off := ((offs.find? fun o => o.1 == g.1).map (·.2)).getD 0
          s.modG g.1 fun g => g.readBack fun a n => mnat img (physKey 0 2 (base + off + a)) n) s
        s.unhalt tid fun gid => act gid == 1
  | _, _ => s

/-- TEAMCTL action 1 (R355). -/
def State.teamTerminate (s : State) (cid team : Nat) : State :=
  match s.ctlTeam cid team with
  | some (tid, _, _) => s.cancel (tidLid tid) 5
  | none => s

def execTeamctlResume (ctx team : Nat) (s : State) : Host.Outcome State Fault Refusal := .next (s.teamResume ctx team)
def execTeamctlTerminate (ctx team : Nat) (s : State) : Host.Outcome State Fault Refusal := .next (s.teamTerminate ctx team)

/-! ### Suspended copies (R255, R358, R359) -/

/-- The suspended operation that an OPID names. -/
def State.suspendedOp (s : State) (cid opid : Nat) : Option (Nat × EngOp) :=
  s.ops.find? fun o => o.2.cid == cid && o.2.opid == some (BitVec.ofNat 32 opid) &&
    (match o.2.state with | .suspended _ => true | _ => false)
def State.cpyResume (s : State) (cid opid : Nat) : State :=
  match s.suspendedOp cid opid with
  | some (id, o) => { s with ops := tput id { o with state := .running } s.ops }
  | none => s
def State.cpyCancel (s : State) (cid opid : Nat) : State :=
  match s.suspendedOp cid opid with
  | some (id, o) => s.endOp id { o with opid := none } [] 4 none
  | none => s
def execCpyctlResume (ctx opid : Nat) (s : State) : Host.Outcome State Fault Refusal := .next (s.cpyResume ctx opid)
def execCpyctlCancel (ctx opid : Nat) (s : State) : Host.Outcome State Fault Refusal := .next (s.cpyCancel ctx opid)

/-! ### CSRs and the system words (R359, R360) -/

/-- CSR n of a context; none for a reserved number. -/
def State.csr (s : State) (cid : Nat) (c : Ctx) (n : Nat) : Option Nat :=
  match n with
  | 0 => some c.tvec.toNat
  | 1 => some c.epc.toNat
  | 2 => some (ecause s cid c)
  | 3 => some ((if c.ien then 1 else 0) + (if c.inHandler then 2 else 0))
  | 4 => some c.frhead.toNat
  | 5 => some c.frtail.toNat
  | 6 => some c.tkey.toNat
  | 7 | 8 => some 0
  | 9 => some c.f.cores
  | 10 => some c.f.ptroot
  | 11 => some c.f.debugCtl.toNat
  | _ => none

def execCsrr (f : RWord) (s : State) : Host.Outcome State Fault Refusal :=
  issueWord (.csrr f) (fun e => match e.s.csr e.cid e.ctx f.lo.val with
    | some x => .ok (e.s.ctlPut e.gid f.d x)
    | none => .fault (flt 0x01)) s

/-- A CSR written (R359); none where R360 faults. -/
def State.csrPut (s : State) (cid n x : Nat) : Option State :=
  let w : W64 := BitVec.ofNat 64 x
  match n with
  | 0 => if x % 8 == 0 then some (s.modC cid fun c => { c with tvec := w }) else none
  | 1 => some (s.modC cid fun c => { c with epc := w })
  | 3 => some (s.modC cid fun c => { c with ien := bitOf x 0 })
  | 4 => some ((s.modC cid fun c => { c with frhead := BitVec.ofNat 8 x }).ringDrain cid)
  | 6 => some (s.modC cid fun c => { c with tkey := w })
  | 7 => some (match fld x 32 2 with
    | 0 => s.teamResume cid (fld x 0 32)
    | 1 => s.teamTerminate cid (fld x 0 32)
    | _ => s)
  | 8 => some (if bitOf x 32 then s.cpyCancel cid (fld x 0 32) else s.cpyResume cid (fld x 0 32))
  | _ => none

def execCsrw (f : RWord) (s : State) : Host.Outcome State Fault Refusal :=
  issueWord (.csrw f) (fun e => match e.s.csrPut e.cid f.lo.val (e.ctl64 f.a) with
    | some s => .ok s
    | none => .fault (flt 0x01)) s

/-- TRAP and BRK (R360): without an executing lane they have no effect in team code. -/
def trapWord (i : Instr) (code n : Nat) (s : State) : Host.Outcome State Fault Refusal :=
  onceWord i (fun _ => .error { code := code, arg := n }) s
def execTrap (f : RWord) (s : State) : Host.Outcome State Fault Refusal := trapWord (.trap f) 0x14 f.lo.val s
def execBrk (f : RWord) (s : State) : Host.Outcome State Fault Refusal := trapWord (.brk f) 0x13 f.lo.val s

/-- IRET; a debug request is answered by the handler's return (entry 19). -/
def execIret (f : RWord) (s : State) : Host.Outcome State Fault Refusal :=
  issueWord (.iret f) (fun e =>
    if !e.ctx.inHandler then .fault (flt 0x01)
    else .goto ((returnInterrupt e.s e.cid).modC e.cid fun c => { c with debugReq := false })) s

/-- A translation held by a unit: the unit, the context, the page's SIZE and its first 64 KiB page (R341, R343); a unit is a core, or
1,024 + a core for its TCU. -/
def cacheKey (unit cid size page : Nat) : Nat := ((unit * 16 + cid) * 4 + size) * 2 ^ 40 + page
def cacheUnit (k : Nat) : Nat := k / 2 ^ 46
def cacheCtx (k : Nat) : Nat := k / 2 ^ 42 % 16
/-- The addresses of a held page: its first and the first after it. -/
def cachePages (k : Nat) : Nat × Nat := (k % 2 ^ 40 * 2 ^ 16, k % 2 ^ 40 * 2 ^ 16 + 2 ^ pageBits (k / 2 ^ 40 % 4))
/-- A page enters a cache with room; a full cache keeps what it has. -/
def State.cachePage (s : State) (unit cid va : Nat) : State :=
  match tget cid s.ctxs with
  | none => s
  | some c => match walkSize (hImage s).data va 4 c.f.ptroot with
    | none => s
    | some size =>
      let k := cacheKey unit cid size (va / 2 ^ pageBits size * 2 ^ (pageBits size - 16))
      let used := (s.tcache.filter fun x => cacheUnit x == unit).length
      if s.tcache.contains k || (if unit < 1024 then 2048 else 64) ≤ used then s else { s with tcache := nins k s.tcache }
/-- The translations of a context that some test keeps, in caches and in walks. -/
def State.dropPages (s : State) (cid : Nat) (keep : Nat → Bool) : State :=
  let left := fun (l : List Nat) => l.filter fun k => cacheCtx k != cid || keep k
  { s with tcache := left s.tcache, walks := left s.walks }

/-- TLBI: pages that meet [sA, sA + sB), or all of them; no walk is in progress between steps. -/
def execTlbi (f : RWord) (s : State) : Host.Outcome State Fault Refusal :=
  issueWord (.tlbi f) (fun e =>
    let a := e.ctl64 f.a
    let n := e.ctl64 f.b
    .ok (e.s.dropPages e.cid fun k => n != 0 && !((cachePages k).1 < a + n && a < (cachePages k).2))) s

/-- HALT: with every launch completed the control program ends; the code of the event is a free value (entry 7). -/
def execHalt (f : RWord) (s : State) : Host.Outcome State Fault Refusal :=
  issueWord (.halt f) (fun e =>
    if !((e.s.launchesOf e.cid).all fun l => l.2.isDone) then .park .halt e.s
    else
      let s := (e.s.passTurn e.cid).modC e.cid fun c => { c with state := .idle }
      let (v, s) := s.draw
      .goto (({ s with groups := tdel e.gid s.groups }.report (.event e.cid .idle v.toNat)).endCheckpoint e.cid)) s

/-- The control interrupt can be taken: not while the wait of an S marker lasts (R359). -/
def State.interruptReady (s : State) (cid : Nat) : Bool :=
  match tget cid s.ctxs, tget (ctlGid cid) s.groups with
  | some c, some g => c.state == .resident && c.ien && !c.inHandler && ecause s cid c != 0 && g.parked != .marker
  | _, _ => false
def execControlInterrupt (ctx : Nat) (s : State) : Host.Outcome State Fault Refusal :=
  .next (if s.interruptReady ctx then takeInterrupt s ctx else s)

/-! ### Results and tile words return (R44, R172) -/

/-- Whether the parties of a group move: its team runs, or its context's control core does. -/
def State.gidRuns (s : State) (gid : Nat) : Bool :=
  if 2 ^ 200 ≤ gid then match tget (gid - 2 ^ 200) s.ctxs with | some c => c.state == .resident | none => false
  else s.teamRuns (gidTid gid)

/-- PENDING_RESULT_RETURN (R44): the last result of a marker ends its wait. -/
def execPendingResultReturn (gid idx : Nat) (s : State) : Host.Outcome State Fault Refusal :=
  .next (
    let s := s.modG gid fun g => { g with
      pend := (g.pend.map fun p => if p.idx == idx then { p with returned := true } else p).filter fun p => p.slices != 0 || !p.returned }
    if s.gidRuns gid then s.resettle gid else s)

/-- TILE_OP_COMPLETE (R172). -/
def execTileOpComplete (gid : Nat) (s : State) : Host.Outcome State Fault Refusal := .next (s.tileStep gid)

end Sys2Proof.Machine
end

