-- ==== Sys2Proof/Machine/Sched.lean ====
section
/-! DEFINITION. Who can issue (R25, R26): the condition that ends each park, the fetch of a word (R33, R59), the issue slot with its
leaf of the tree (R379, R380), and the ramp limiter (R291). -/

namespace Sys2Proof.Machine

/-! ### Ready sub-gangs (R25, R26) -/

/-- Whether the launch that an LWAIT names has completed, or lies more than 4,096 launches back (R287). -/
def State.waitOver (s : State) (cid key : Nat) : Bool :=
  let lid := lidOf cid key
  4096 ≤ ((s.launchesOf cid).filter fun l => lid < l.1).length ||
  match tget lid s.launches with
  | some l => l.isDone
  | none => s.isDone (sourceOf lid)

/-- Whether the wait of a park before any effect is over, so that the word issues again. -/
def Env.parkOver (e : Env) : Bool :=
  let cluster := e.clusterTeams
  match e.sub.park with
  | .none => true
  | .slotFree q => match tget q e.team.queues with | some x => x.free | none => true
  | .mseq q => !e.tcuFull && match tget q e.team.queues with | some x => x.free | none => true
  | .qpop q => match tget q e.team.queues with | some x => x.canPop (gidG e.gid) | none => true
  | .token => e.s.tokenHolds e.team e.tid e.gid
  | .generation => e.members.any (e.short e.g.mbldCount) || e.members.all (e.loaded e.g.mbldCount)
  | .mbld => e.members.all (e.loaded e.g.mbldCount)
  | .tileFull => !e.tilesFull
  | .fence | .ctlFence => e.fenceOps.all fun o => o.2.isDone
  | .phase _ => e.deferOpen.isNone || e.g.owed.isSome
  | .mcst k => cluster.all fun t => k < (e.s.roots t).length
  | .mcstLow since => !e.mcstHeld since || !e.s.lowestWaits (cluster.headD 0) e.team.mcstRoots.length
  | .tcuFull => !e.tcuFull
  | .rfshD => e.depsDone
  | .msgrd => e.ctx.intail != e.ctx.consumed
  | .msgwr => e.ctx.outstanding < 64
  | .submit => ((e.s.launchesOf e.cid).filter fun l => l.2.state == .submitted).length < 4096
  | .lwait key => e.s.waitOver e.cid key
  | .lwaitCancel key => e.s.waitOver e.cid key || (tget (lidOf e.cid key) e.s.launches).isSome
  | .halt => (e.s.launchesOf e.cid).all fun l => l.2.isDone
  | .marker | .bar _ | .cbar | .coll _ | .grid _ | .regang | .ksync _ => false

/-- The sub-gangs in the pointer's order. -/
def State.parties (s : State) : List Party :=
  s.groups.flatMap fun g => (List.range 256).filterMap fun m =>
    if g.2.subs.any fun x => x.mask == m then some { gid := g.1, mask := m } else none

/-- A ready party: its group runs, it has a live slice, and it is not parked. -/
def State.ready (s : State) (p : Party) : Bool :=
  s.gidRuns p.gid && match envOf s p with
  | some e => p.mask &&& e.g.liveMask != 0 && e.parkOver
  | none => false
def Party.num (p : Party) : Nat := p.gid * 256 + p.mask
/-- A quadrant of a physical core, by number; a control core, which shares no slots, has a number of its own. -/
def slotKey (core q : Nat) : Nat := 4 * core + q
def State.slotOf (s : State) (gid : Nat) : Option Nat :=
  if 2 ^ 200 ≤ gid then some (2 ^ 30 + (gid - 2 ^ 200)) else (s.quadrant gid).map fun x => slotKey x.1 x.2
/-- The next ready sub-gang of a quadrant after its rotating pointer. -/
def State.nextParty (s : State) (k : Nat) : Option Party :=
  let ps := s.parties.filter fun p => s.slotOf p.gid == some k && s.ready p
  (ps.find? fun p => sget 0 s.pointers k < p.num).orElse fun _ => ps.head?

/-! ### Fetch (R32, R33, R59) -/

/-- The opcodes of the privileged words (R56). -/
def privilegedOps : List Nat := [0xC7, 0xC8, 0xC9, 0xCA, 0xEF, 0xF2, 0xF3, 0xF4, 0xF5, 0xF6]

/-- The fault code of a word that does not decode (R58, R59). -/
def Env.rejectCode (e : Env) (w : Nat) (r : Reject) : Nat :=
  if e.g.isCtl then 0x01
  else match r with
    | .reservedOpcode | .reservedPairOp => 0x01
    | .pairRule => match parse w with
      | .ok (.p f) => if (Instr.pairWord f).overBudget e.g.budget then 0x01 else 0x02
      | _ => 0x02
    | _ => if !bitOf w 62 && privilegedOps.contains (opcodeOf w) then 0x18 else 0x01

/-- The word at a party's program counter: the instruction, or the state after the fault of its fetch or its decoding. -/
def State.fetch (s : State) (p : Party) : Instr ⊕ State :=
  match envOf s p with
  | none => .inr { s with cur := none }
  | some e =>
    let bad := fun (w code : Nat) => takeFault { s with cur := none } e (e.record none w { code := code, addr := e.pc.toNat })
    if e.pc.toNat % 8 != 0 then .inr (bad 0 0x04)
    else match e.fetchAt e.pc.toNat with
      | .error code => .inr (bad 0 code)
      | .ok w => match decodeWord w with
        | .ok i => .inl i
        | .error r => .inr (takeFault { s with cur := none } e (e.record none w (flt (e.rejectCode w r))))

/-- The translation of the fetched page stands in the core's cache afterwards (R343). -/
def State.fetched (s : State) (p : Party) : State :=
  match envOf s p with
  | some e => if e.g.isCtl then s else s.cachePage e.pcore e.cid e.pc.toNat
  | none => s

/-! ### The ramp limiter (R291) -/

def rampRise : Nat := 48
def rampWindow : Nat := 3300
/-- The number of the window that a core's counts belong to. -/
def State.rampNo (s : State) (core : Nat) : Nat := sget 0 s.rampPrev (2 ^ 20 + core)
def State.rampDue (s : State) (core : Nat) : Bool :=
  s.rampNo core < s.cycle.toNat / rampWindow && (sget 0 s.ramp core != 0 || sget 0 s.rampPrev core != 0)
/-- A window ends: its count becomes the previous one. -/
def State.rampRoll (s : State) (core : Nat) : State :=
  { s with ramp := sset 0 s.ramp core 0,
           rampPrev := sset 0 (sset 0 s.rampPrev core (sget 0 s.ramp core)) (2 ^ 20 + core) (s.rampNo core + 1) }
def execRampWindowRollover (core : Nat) (s : State) : Host.Outcome State Fault Refusal :=
  .next (if s.rampDue core then s.rampRoll core else s)
/-- Whether an MMA of a core is withheld. -/
def State.rampFull (s : State) (core : Nat) : Bool := sget 0 s.rampPrev core + rampRise ≤ sget 0 s.ramp core
/-- An MMA issues. -/
def State.rampCount (s : State) (core : Nat) : State :=
  { s with ramp := sset 0 s.ramp core (sget 0 s.ramp core + 1),
           rampPrev := if sget 0 s.ramp core == 0 && sget 0 s.rampPrev core == 0 then
               sset 0 s.rampPrev (2 ^ 20 + core) (s.cycle.toNat / rampWindow) else s.rampPrev }

/-! ### The issue-slot tree (R379 to R381) -/

/-- Whether a word that the commit token applies will fill a queue's next slot to be popped: it waits in the team's interval or rounds. -/
def Team.tokenFills (t : Team) (q : Nat) (y : Queue) : Bool :=
  y.headSeq != y.fillSeq && (y.desc y.headSeq).status == 1 &&
    (t.toks ++ t.rounds.flatMap (·.toks)).any fun x => TokOp.slot x.2 == some (q, y.headSeq)
/-- A group parked for the commit token: its QPOP waits for a slot that a round fills (R27), or for the team token (R207). -/
def State.awaitsToken (s : State) (gid : Nat) (x : SubGang) : Bool :=
  match x.park with
  | .token => true
  | .qpop q => (tget (gidTid gid) s.teams).any fun t => (tget q t.queues).any (t.tokenFills q)
  | _ => false

/-- The leaf of a quadrant of a context's core that issues nothing in a slot: 0 HALT, 5 EMPTY, 6 STRUCT, 7 FETCH, 8 TOKEN, 9 SYNC,
10 SWITCH. A core is stopped when it holds teams and none of them runs. -/
def State.idleLeaf (s : State) (cid core quad : Nat) : Nat :=
  let here := s.groups.filter fun g => g.1 < 2 ^ 200 && gidCid g.1 == cid && g.2.liveMask != 0 &&
    match s.quadrant g.1 with | some x => x.1 == core | none => false
  let gs := here.filter fun g => gidG g.1 % 4 == quad
  let runs := gs.filter fun g => s.gidRuns g.1
  let subs := runs.flatMap fun g => (g.2.subs.filter fun x => x.mask &&& g.2.liveMask != 0).map fun x => (g.1, x)
  if gs != [] && runs == [] || here != [] && !here.any (fun g => s.gidRuns g.1) then 0 else if gs == [] then 5
  else if subs.any fun x => x.2.park == .tileFull || x.2.park == .tcuFull then 6
  else if subs.any fun x => x.2.park == .none then 7
  else if subs.any fun x => s.awaitsToken x.1 x.2 then 8
  else if subs.any fun x => x.2.park != .marker then 9 else 10

/-- The group's logical core and quadrant. -/
def State.quadOf (s : State) (gid : Nat) : Nat × Nat :=
  match tget (tidLid (gidTid gid)) s.launches with
  | some l => (gidTid gid % 2 ^ 32 % max l.lr.l 1, gidG gid % 4)
  | none => (0, 0)

/-- Rising increments added to a store, by one pass; the fuel is the two lengths. -/
def addAll : Nat → Sparse W64 → List (Nat × W64) → Sparse W64
  | 0, m, _ => m
  | _ + 1, m, [] => m
  | _ + 1, [], l => l
  | n + 1, (j, y) :: m, (k, x) :: l =>
    if j < k then (j, y) :: addAll n m ((k, x) :: l)
    else if j == k then (if y + x == 0 then addAll n m l else (j, y + x) :: addAll n m l)
    else (k, x) :: addAll n ((j, y) :: m) l

/-- Leaves counted into a resident context's trees, one for each of some quadrants in rising order, with the counters that
select them. -/
def State.countLeaves (s : State) (cid : Nat) (ls : List (Nat × Nat × Nat)) : State :=
  let s := { s with tree := addAll (s.tree.length + ls.length) s.tree (ls.map fun l => (treeLeaf cid l.1 l.2.1 l.2.2, 1)) }
  if s.counterCfg == [] then s
  else ls.foldl (fun s l => s.countEvent cid l.1 (l.2.2 + 1) (some l.2.1) 1) s

/-- The resident context and the logical core of a quadrant. -/
def State.seat (s : State) (k : Nat) : Option (Nat × Nat × Nat) :=
  s.ctxs.findSome? fun c => if c.2.state != .resident then none else
    ((List.range c.2.f.cores).find? fun i => c.2.phys i == k / 4).map fun i => (c.1, i, k % 4)
/-- One slot of a quadrant counted: in the leaf `leaf`, or, where nothing issues, in the idle one. -/
def State.countSlot (s : State) (k : Nat) (leaf : Option Nat) : State :=
  match s.seat k with
  | some (cid, i, q) => s.countLeaves cid [(i, q, leaf.getD (s.idleLeaf cid (k / 4) q))]
  | none => s

/-- A cycle begins: CYCLE advances, the quadrants and control cores with a ready sub-gang have a slot to fill, and every other
quadrant counts its idle leaf. -/
def State.newCycle (s : State) : State :=
  let ks := s.parties.foldl (fun l p => match s.slotOf p.gid with
    | some k => if s.ready p then nins k l else l
    | none => l) []
  let s' := s.ctxs.foldl (fun s' c => if c.2.state != .resident then s' else
    s'.countLeaves c.1 ((List.range c.2.f.cores).flatMap fun i => (List.range 4).filterMap fun q =>
      if ks.contains (slotKey (c.2.phys i) q) then none else some (i, q, s.idleLeaf c.1 (c.2.phys i) q))) s
  { s' with cycle := s.cycle + 1, slots := ks }

def Instr.isMma : Instr → Bool | .mma _ => true | _ => false
/-- Whether the ramp limiter withholds what a party would issue (R291). -/
def State.rampHeld (s : State) (p : Party) : Bool :=
  match s.fetch p, envOf s p with
  | .inl i, some e => Instr.isMma i && !e.g.isCtl && s.rampFull e.pcore
  | _, _ => false

/-- The first of the slots left in which a sub-gang issues takes its word. A quadrant without a ready sub-gang counts its idle leaf;
one whose MMA is withheld counts RAMP, and its pointer stays. -/
def State.takeSlot : List Nat → State → State
  | [], s => { s with slots := [] }
  | k :: rest, s => match s.nextParty k with
    | none => State.takeSlot rest (s.countSlot k none)
    | some p => if s.rampHeld p then State.takeSlot rest (s.countSlot k (some 1)) else { s with slots := k :: rest, cur := some p }

/-- ISSUE_SLOT (R25, R379): each quadrant fills one slot of a cycle from its own pointer; with the slots of a cycle filled, the next
cycle begins. -/
def execIssueSlot (s : State) : Host.Outcome State Fault Refusal :=
  .next (let s := if s.slots == [] then s.newCycle else s; s.takeSlot s.slots)

/-- A park that stands before any effect: the word has not issued, and takes a slot only when it goes on (R26). -/
def Park.waits : Park → Bool
  | .none | .marker | .bar _ | .cbar | .coll _ | .grid _ | .regang | .ksync _ => false
  | _ => true
/-- Whether the word that a party has just been given parked without issuing: at the implicit marker of R47, or before any effect. -/
def State.heldBack (s t : State) (p : Party) (i : Instr) : Bool :=
  (match envOf { s with cur := none } p with
   | some e => (match preIssue i e with | some (.park _ _) => true | _ => false)
   | none => false) ||
  (match tget p.gid t.groups with
   | some g => (match g.sub p.mask with | some x => x.park.waits | none => false)
   | none => false)
/-- An RFSH.D that goes on after its match: it took its slot when it issued, and parking costs none (R26). -/
def State.wentOn (s : State) (p : Party) : Bool :=
  match (tget p.gid s.groups).bind fun g => g.sub p.mask with | some x => x.park == .rfshD | none => false
/-- The leaf of an issued word: 2 MASKED, 3 PAIR, 4 SINGLE. -/
def State.wordLeaf (s : State) (p : Party) (i : Instr) : Nat :=
  match envOf s p with
  | some e => if e.lanesFor i == 0 && !e.g.isCtl then 2 else match i with | .pairWord _ => 3 | _ => 4
  | none => 4

/-- The slot of the word that a party has run in `s`, in the state `t` after it. A word that parked before its effect, or that had its slot
before, leaves the slot
to the quadrant's next ready sub-gang (R26); another fills it, and the pointer moves past the sub-gang (R25). A word that could not
be fetched or decoded has stopped its team: `i` is none, and the slot counts as what the quadrant then is. -/
def State.slotDone (s t : State) (p : Party) (i : Option Instr) : State :=
  match t.slots with
  | [] => t
  | k :: rest =>
    if s.slotOf p.gid != some k then t
    else match i with
      | none => { t.countSlot k none with slots := rest }
      | some i =>
        if s.heldBack t p i || s.wentOn p then t
        else
          let t := t.countSlot k (some (s.wordLeaf p i))
          let t := match envOf s p with | some e => if Instr.isMma i && !e.g.isCtl then t.rampCount e.pcore else t | none => t
          { t with slots := rest, pointers := sset 0 t.pointers k p.num }
/-- The same for the outcome of a step. -/
def slotted (s : State) (p : Party) (i : Option Instr) : Host.Outcome State Fault Refusal → Host.Outcome State Fault Refusal
  | .next t => .next (s.slotDone t p i)
  | o => o

end Sys2Proof.Machine
end

