-- ==== Sys2Proof/Machine/Ed25519.lean ====
section
/-! DEFINITION. The signature check of firmware images and debug tokens (R364, R365): Ed25519 with SHA-512, as RFC 8032 and FIPS 180-4
define them (entry 56). Numbers are naturals; bytes are little-endian but inside SHA-512. -/

namespace Sys2Proof.Machine

/-! ### SHA-512 -/

/-- The largest number of `n` bits whose k-th power is at most `x`. -/
def rootBits (k x : Nat) : Nat → Nat → Nat
  | 0, r => r
  | n + 1, r => rootBits k x n (if (r + 2 ^ n) ^ k ≤ x then r + 2 ^ n else r)
/-- The first primes, by trial division; the fuel is the last number tried. -/
def primesTo (n : Nat) : List Nat :=
  (List.range n).foldl (fun ps i => let m := i + 2; if ps.any fun p => m % p == 0 then ps else ps ++ [m]) []
/-- The first 64 bits of the fraction of a k-th root. -/
def rootFrac (k p : Nat) : Nat := rootBits k (p * 2 ^ (64 * k)) 68 0 % 2 ^ 64
def shaIv : List Nat := ((primesTo 18).take 8).map (rootFrac 2)
def shaK : List Nat := ((primesTo 408).take 80).map (rootFrac 3)

def add64 (a b : Nat) : Nat := (a + b) % 2 ^ 64
def rotr64 (x n : Nat) : Nat := x / 2 ^ n + x % 2 ^ n * 2 ^ (64 - n)
/-- A number from bytes, the first the most significant. -/
def beNat (bs : List Byte) : Nat := bs.foldl (fun n b => 256 * n + b.toNat) 0
def beBytes (n v : Nat) : List Byte := (leBytes n v).reverse

/-- The message schedule: the newest word first, from the 16 words of a block. -/
def shaSchedule : Nat → List Nat → List Nat
  | 0, w => w
  | n + 1, w =>
    let at' := fun i => (w[i]?).getD 0
    let x := at' 14
    let y := at' 1
    let s0 := rotr64 x 1 ^^^ rotr64 x 8 ^^^ x / 2 ^ 7
    let s1 := rotr64 y 19 ^^^ rotr64 y 61 ^^^ y / 2 ^ 6
    shaSchedule n (add64 (add64 (at' 15) s0) (add64 (at' 6) s1) :: w)
/-- One round on the eight working words. -/
def shaRound (v : List Nat) (kw : Nat × Nat) : List Nat :=
  match v with
  | [a, b, c, d, e, f, g, h] =>
    let t1 := add64 (add64 h (rotr64 e 14 ^^^ rotr64 e 18 ^^^ rotr64 e 41)) (add64 (e &&& f ^^^ (2 ^ 64 - 1 - e) &&& g) (add64 kw.1 kw.2))
    let t2 := add64 (rotr64 a 28 ^^^ rotr64 a 34 ^^^ rotr64 a 39) (a &&& b ^^^ a &&& c ^^^ b &&& c)
    [add64 t1 t2, a, b, c, add64 d t1, e, f, g]
  | v => v
def shaBlock (k h : List Nat) (block : List Byte) : List Nat :=
  let w := (shaSchedule 64 ((List.range 16).map fun i => beNat ((block.drop (8 * i)).take 8)).reverse).reverse
  List.zipWith add64 h ((k.zip w).foldl shaRound h)
/-- The digest of a message, 64 bytes. -/
def sha512 (m : List Byte) : List Byte :=
  let padded := m ++ [128] ++ List.replicate ((239 - m.length % 128) % 128) 0 ++ beBytes 16 (8 * m.length)
  let k := shaK
  ((List.range (padded.length / 128)).foldl (fun h i => shaBlock k h ((padded.drop (128 * i)).take 128)) shaIv).flatMap (beBytes 8)

/-! ### The curve -/

def edP : Nat := 2 ^ 255 - 19
/-- The order of the base point. -/
def edL : Nat := 2 ^ 252 + 27742317777372353535851937790883648493
/-- x^e mod p, bit by bit from the top. -/
def edPow (x e : Nat) : Nat → Nat
  | 0 => 1
  | n + 1 =>
    let r := edPow x (e / 2) n
    r * r % edP * (if e % 2 == 1 then x else 1) % edP
def edInv (x : Nat) : Nat := edPow x (edP - 2) 255
def edD : Nat := (edP - 121665) * edInv 121666 % edP

/-- A point in extended coordinates. -/
structure EdPoint where
  x : Nat
  y : Nat
  z : Nat
  t : Nat
  deriving DecidableEq, Repr

def EdPoint.zero : EdPoint := ⟨0, 1, 1, 0⟩
def EdPoint.add (p q : EdPoint) : EdPoint :=
  let a := (p.y + edP - p.x) * (q.y + edP - q.x) % edP
  let b := (p.y + p.x) * (q.y + q.x) % edP
  let c := 2 * p.t * q.t * edD % edP
  let d := 2 * p.z * q.z % edP
  let (e, f, g, h) := (b + edP - a, d + edP - c, d + c, b + a)
  ⟨e * f % edP, g * h % edP, f * g % edP, e * h % edP⟩
/-- k times a point; the second argument bounds the bits of k. -/
def EdPoint.mul (p : EdPoint) (k : Nat) : Nat → EdPoint
  | 0 => .zero
  | n + 1 =>
    let r := p.mul (k / 2) n
    if k % 2 == 1 then (r.add r).add p else r.add r
def EdPoint.eq (p q : EdPoint) : Bool := p.x * q.z % edP == q.x * p.z % edP && p.y * q.z % edP == q.y * p.z % edP
/-- The point that 32 bytes stand for: y in bits 254:0, the sign of x in bit 255. -/
def EdPoint.of (n : Nat) : Option EdPoint :=
  let y := n % 2 ^ 255
  let u := (y * y + edP - 1) % edP
  let v := (edD * y % edP * y + 1) % edP
  let x2 := u * edInv v % edP
  let r := edPow x2 ((edP + 3) / 8) 253
  let x := if r * r % edP == x2 then r else r * edPow 2 ((edP - 1) / 4) 254 % edP
  if edP ≤ y || x * x % edP != x2 || x == 0 && bitOf n 255 then none
  else
    let x := if x % 2 == n / 2 ^ 255 % 2 then x else edP - x
    some ⟨x, y, 1, x * y % edP⟩
/-- The base point: y = 4/5, x even. -/
def edBase : Option EdPoint := EdPoint.of (4 * edInv 5 % edP)

/-- Whether 64 bytes are a signature of a message under a public key. -/
def ed25519Ok (key : Nat) (m sig : List Byte) : Bool :=
  let s := leNat (sig.drop 32)
  let k := leNat (sha512 (sig.take 32 ++ leBytes 32 key ++ m)) % edL
  match EdPoint.of key, EdPoint.of (leNat (sig.take 32)), edBase with
  | some a, some r, some b =>
    sig.length == 64 && s < edL && ((b.mul s 256).mul 8 4).eq (((a.mul k 256).add r).mul 8 4)
  | _, _, _ => false

end Sys2Proof.Machine
end

