-- ==== Sys2Proof/Machine/Codec.lean ====
section
/-! DEFINITION. The state of a context as bytes, for checkpoint images (R346, R398, R399): what the module keeps of a saved context beside the
sections of R347. The spec names what is saved and not its bytes; these are the model's (entry 16). Every codec writes a value so that its
reader finds the end of it, and reads what it wrote. -/

namespace Sys2Proof.Machine

/-- A writer and a reader of values: the reader answers the value and the bytes left. In a record under construction the two types differ:
the writer takes the whole record, the reader gives the part read so far. -/
structure Codec (σ α : Type) where
  enc : σ → List Byte
  dec : List Byte → Option (α × List Byte)

namespace Codec

/-! ### Numbers and containers -/

/-- A number, seven bits to a byte, the last byte below 128. -/
def natBytes : Nat → Nat → List Byte
  | 0, _ => [0]
  | f + 1, n => if n < 128 then [BitVec.ofNat 8 n] else BitVec.ofNat 8 (128 + n % 128) :: natBytes f (n / 128)
def natRead : List Byte → Option (Nat × List Byte)
  | [] => none
  | b :: t => if b.toNat < 128 then some (b.toNat, t) else (natRead t).map fun r => (b.toNat - 128 + 128 * r.1, r.2)
def nat : Codec Nat Nat := ⟨fun n => natBytes (Nat.log2 n + 1) n, natRead⟩

/-- The same values under other names. -/
def iso {α β : Type} (out : β → α) (back : α → β) (c : Codec α α) : Codec β β :=
  ⟨fun x => c.enc (out x), fun l => (c.dec l).map fun r => (back r.1, r.2)⟩
def bv (n : Nat) : Codec (BitVec n) (BitVec n) := iso BitVec.toNat (BitVec.ofNat n) nat
def bool : Codec Bool Bool := iso (fun b => if b then 1 else 0) (· == 1) nat
def int : Codec Int Int := iso (fun x => if x < 0 then 2 * x.natAbs + 1 else 2 * x.natAbs)
  (fun n => if n % 2 == 1 then -((n / 2 : Nat) : Int) else ((n / 2 : Nat) : Int)) nat

/-- A record begins with its constructor and takes its fields in order. -/
def make {σ β : Type} (f : β) : Codec σ β := ⟨fun _ => [], fun l => some (f, l)⟩
def fld {σ α β : Type} (p : Codec σ (α → β)) (get : σ → α) (c : Codec α α) : Codec σ β :=
  ⟨fun x => p.enc x ++ c.enc (get x), fun l => (p.dec l).bind fun r => (c.dec r.2).map fun q => (r.1 q.1, q.2)⟩
def pair {α β : Type} (a : Codec α α) (b : Codec β β) : Codec (α × β) (α × β) := ((make Prod.mk).fld (·.1) a).fld (·.2) b

/-- `n` values in a row. -/
def readMany {α : Type} (c : Codec α α) : Nat → List Byte → Option (List α × List Byte)
  | 0, l => some ([], l)
  | n + 1, l => (c.dec l).bind fun r => (readMany c n r.2).map fun q => (r.1 :: q.1, q.2)
def list {α : Type} (c : Codec α α) : Codec (List α) (List α) :=
  ⟨fun l => nat.enc l.length ++ l.flatMap c.enc, fun b => (nat.dec b).bind fun r => readMany c r.1 r.2⟩
def option {α : Type} (c : Codec α α) : Codec (Option α) (Option α) :=
  ⟨fun x => match x with | none => [0] | some x => 1 :: c.enc x,
   fun b => match b with | [] => none | k :: t => if k == 0 then some (none, t) else (c.dec t).map fun r => (some r.1, r.2)⟩
def tab {α : Type} (c : Codec α α) : Codec (List (Nat × α)) (List (Nat × α)) := list (pair nat c)
/-- One of several forms: a number for the form, then its values. -/
def form {α : Type} (enc : α → Nat × List Byte) (dec : Nat → List Byte → Option (α × List Byte)) : Codec α α :=
  ⟨fun x => nat.enc (enc x).1 ++ (enc x).2, fun l => (nat.dec l).bind fun r => dec r.1 r.2⟩
/-- A type of plain names, by number. -/
def names {α : Type} [DecidableEq α] (l : List α) (d : α) : Codec α α :=
  iso (fun x => l.findIdx (· == x)) (fun i => (l[i]?).getD d) nat
/-- The values of a form, read and made into it. -/
def as {α β : Type} (c : Codec α α) (f : α → β) (l : List Byte) : Option (β × List Byte) := (c.dec l).map fun r => (f r.1, r.2)

/-! ### The types of the state -/

def n2 := pair nat nat
def n3 := pair nat n2
def n4 := pair nat n3
def nats := list nat
def w16 := bv 16
def w32 := bv 32
def w64 := bv 64
def bytes := list (bv 8)
def mem : Codec Memory Memory := tab (bv 8)
def ty : Codec Ty Ty := names
  [.b32, .i32, .n32, .i64, .n64, .i16x2, .n16x2, .i8x4, .n8x4, .f32, .f64, .f16x2, .bf16x2] .b32

def slice : Codec Slice Slice :=
  make Slice.mk |>.fld (·.pc) w64 |>.fld (·.z) bool |>.fld (·.n) bool |>.fld (·.c) bool |>.fld (·.v) bool |>.fld (·.u) bool
    |>.fld (·.fmr) w16 |>.fld (·.status) w32 |>.fld (·.call) (list w64) |>.fld (·.sp) nat |>.fld (·.spill) mem

def gop : Codec GOp GOp := form
  (fun | .store a v => (0, (pair nat w32).enc (a, v))
       | .atom a n o v => (1, (pair n3 w64).enc ((a, n, o), v))
       | .red a n k vs => (2, (pair n3 (list (option w64))).enc ((a, n, k), vs))
       | .drain a t s v k => (3, (pair n2 (pair ty (pair bool w64))).enc ((a, k), t, s, v))
       | .poison u b => (4, (pair nat bool).enc (u, b))
       | .seen t a v => (5, (pair n2 w32).enc ((t, a), v))
       | .seenBad t u b => (6, (pair n2 bool).enc ((t, u), b)))
  (fun k l => match k with
    | 0 => (pair nat w32).as (fun x => .store x.1 x.2) l
    | 1 => (pair n3 w64).as (fun x => .atom x.1.1 x.1.2.1 x.1.2.2 x.2) l
    | 2 => (pair n3 (list (option w64))).as (fun x => .red x.1.1 x.1.2.1 x.1.2.2 x.2) l
    | 3 => (pair n2 (pair ty (pair bool w64))).as (fun x => .drain x.1.1 x.2.1 x.2.2.1 x.2.2.2 x.1.2) l
    | 4 => (pair nat bool).as (fun x => .poison x.1 x.2) l
    | 5 => (pair n2 w32).as (fun x => .seen x.1.1 x.1.2 x.2) l
    | _ => (pair n2 bool).as (fun x => .seenBad x.1.1 x.1.2 x.2) l)

def image : Codec Image Image := make Image.mk |>.fld (·.data) mem |>.fld (·.poison) nats
def memW : Codec MemW MemW := make MemW.mk |>.fld (·.b) mem |>.fld (·.p) (tab bool)
def glevel : Codec GLevel GLevel := make GLevel.mk |>.fld (·.view) image |>.fld (·.ops) (list gop) |>.fld (·.gmem) memW

def coll : Codec Coll Coll := form
  (fun | .cmitC => (0, []) | .cmitD => (1, []) | .rfshD => (2, []) | .trig => (3, []) | .gbar => (4, []) | .tsbar => (5, [])
       | .abrtT t => (6, w64.enc t) | .qinit a b => (7, (pair w64 w64).enc (a, b)))
  (fun k l => match k with
    | 0 => some (.cmitC, l) | 1 => some (.cmitD, l) | 2 => some (.rfshD, l) | 3 => some (.trig, l) | 4 => some (.gbar, l)
    | 5 => some (.tsbar, l) | 6 => w64.as .abrtT l | _ => (pair w64 w64).as (fun x => .qinit x.1 x.2) l)

def park : Codec Park Park := form
  (fun | .none => (0, []) | .marker => (1, []) | .bar p => (2, nat.enc p) | .cbar => (3, []) | .coll c => (4, coll.enc c)
       | .grid b => (5, bool.enc b) | .rfshD => (6, []) | .regang => (7, []) | .ksync m => (8, nat.enc m)
       | .slotFree q => (9, nat.enc q) | .qpop q => (10, nat.enc q) | .token => (11, []) | .generation => (12, []) | .mbld => (13, [])
       | .tileFull => (14, []) | .tcuFull => (15, []) | .fence => (16, []) | .phase p => (17, nat.enc p) | .mcst k => (18, nat.enc k)
       | .mseq q => (19, nat.enc q) | .msgrd => (20, []) | .msgwr => (21, []) | .submit => (22, []) | .halt => (23, [])
       | .ctlFence => (24, []) | .lwait k => (25, nat.enc k) | .lwaitCancel k => (26, nat.enc k) | .mcstLow k => (27, nat.enc k))
  (fun k l => match k with
    | 0 => some (.none, l) | 1 => some (.marker, l) | 2 => nat.as .bar l | 3 => some (.cbar, l) | 4 => coll.as .coll l
    | 5 => bool.as .grid l | 6 => some (.rfshD, l) | 7 => some (.regang, l) | 8 => nat.as .ksync l | 9 => nat.as .slotFree l
    | 10 => nat.as .qpop l | 11 => some (.token, l) | 12 => some (.generation, l) | 13 => some (.mbld, l) | 14 => some (.tileFull, l)
    | 15 => some (.tcuFull, l) | 16 => some (.fence, l) | 17 => nat.as .phase l | 18 => nat.as .mcst l | 19 => nat.as .mseq l
    | 20 => some (.msgrd, l) | 21 => some (.msgwr, l) | 22 => some (.submit, l) | 23 => some (.halt, l) | 24 => some (.ctlFence, l)
    | 25 => nat.as .lwait l | 26 => nat.as .lwaitCancel l | _ => nat.as .mcstLow l)

def subGang : Codec SubGang SubGang :=
  make SubGang.mk |>.fld (·.mask) nat |>.fld (·.park) park |>.fld (·.lastPc) w64 |>.fld (·.mark) bool |>.fld (·.lvl) glevel
def record : Codec Record Record :=
  make Record.mk |>.fld (·.s) nat |>.fld (·.path) nats |>.fld (·.fmr) (list w16) |>.fld (·.depth) nat |>.fld (·.base) (option glevel)
def faultRec : Codec FaultRec FaultRec :=
  make FaultRec.mk |>.fld (·.code) nat |>.fld (·.slice) nat |>.fld (·.lane) nat |>.fld (·.fpc) w64 |>.fld (·.word) w64 |>.fld (·.rpc) w64
    |>.fld (·.addr) w64 |>.fld (·.arg) w64 |>.fld (·.opA) bytes |>.fld (·.opB) bytes |>.fld (·.opC) bytes |>.fld (·.marker) bool
    |>.fld (·.closing) bool
def pend : Codec Pend Pend :=
  make Pend.mk |>.fld (·.idx) nat |>.fld (·.pc) w64 |>.fld (·.slices) nat |>.fld (·.dst) nat |>.fld (·.nreg) nat |>.fld (·.vw) (tab w32)
    |>.fld (·.sw) (tab w64) |>.fld (·.flags) (tab w32) |>.fld (·.fails) (tab faultRec) |>.fld (·.returned) bool
def tileOp : Codec TileOp TileOp := form
  (fun | .mma p t f a b x y => (0, (pair (pair w64 nat) (pair w16 (pair (list w32) (pair (list w32) (pair nats nats))))).enc ((p, t), f, a, b, x, y))
       | .zero t => (1, nat.enc t)
       | .scale t y e f => (2, (pair nat (pair ty (pair w32 (list w64)))).enc (t, y, e, f)))
  (fun k l => match k with
    | 0 => (pair (pair w64 nat) (pair w16 (pair (list w32) (pair (list w32) (pair nats nats))))).as
        (fun x => .mma x.1.1 x.1.2 x.2.1 x.2.2.1 x.2.2.2.1 x.2.2.2.2.1 x.2.2.2.2.2) l
    | 1 => nat.as .zero l
    | _ => (pair nat (pair ty (pair w32 (list w64)))).as (fun x => .scale x.1 x.2.1 x.2.2.1 x.2.2.2) l)
def tile : Codec Tile Tile := make Tile.mk |>.fld (·.words) (tab w32) |>.fld (·.flags) w32 |>.fld (·.bad) nats

def rayPhase : Codec RayPhase RayPhase := names [.idle, .opened, .replay, .done] .idle
def logEntry : Codec LogEntry LogEntry :=
  make LogEntry.mk |>.fld (·.kind) nat |>.fld (·.resp) nat |>.fld (·.inst) nat |>.fld (·.prim) nat |>.fld (·.x) w64 |>.fld (·.y) w64
    |>.fld (·.w) w64
def ext : Codec Ext Ext := form
  (fun | .inf b => (0, bool.enc b) | .frac n d => (1, (pair int nat).enc (n, d)))
  (fun k l => match k with | 0 => bool.as .inf l | _ => (pair int nat).as (fun x => .frac x.1 x.2) l)
def rayView : Codec RayView RayView :=
  make RayView.mk |>.fld (·.org) (list w64) |>.fld (·.dir) (list w64) |>.fld (·.prm) bytes |>.fld (·.rayErr) (option n2)
    |>.fld (·.err) (option n2)
def rayItem : Codec RayItem RayItem :=
  make RayItem.mk |>.fld (·.t) ext |>.fld (·.inst) nat |>.fld (·.prim) nat |>.fld (·.kind) nat |>.fld (·.tw) w64 |>.fld (·.u) w64
    |>.fld (·.v) w64 |>.fld (·.hi) ext |>.fld (·.opaq) bool |>.fld (·.view) rayView |>.fld (·.path) nats
def ray : Codec Ray Ray :=
  make Ray.mk |>.fld (·.phase) rayPhase |>.fld (·.world) (list w64) |>.fld (·.noAny) bool |>.fld (·.q) (list rayItem)
    |>.fld (·.buf) (list rayItem) |>.fld (·.bad) (option (pair ext n2)) |>.fld (·.c) ext |>.fld (·.best) (option rayItem)
    |>.fld (·.event) nat |>.fld (·.item) (option rayItem) |>.fld (·.t1) w64 |>.fld (·.resp) bool |>.fld (·.ret) w64 |>.fld (·.rayId) w64
    |>.fld (·.entries) (list logEntry) |>.fld (·.rep) bool |>.fld (·.tree) bool |>.fld (·.rest) (list (pair logEntry rayView))
    |>.fld (·.outcome) nat |>.fld (·.final) (option rayItem) |>.fld (·.job) (option nat) |>.fld (·.key) bytes

def undo := list (pair w64 (pair nat (pair nat (pair nat bytes))))
def group : Codec Group Group :=
  make Group.mk |>.fld (·.isCtl) bool |>.fld (·.budget) nat |>.fld (·.ntiles) nat |>.fld (·.vreg) (tab w32) |>.fld (·.sreg) (tab w64)
    |>.fld (·.kreg) (tab w32) |>.fld (·.kact) w32 |>.fld (·.slices) (list slice) |>.fld (·.subs) (list subGang)
    |>.fld (·.recs) (list record) |>.fld (·.pend) (list pend) |>.fld (·.nextPend) nat |>.fld (·.draws) (tab w32) |>.fld (·.mbldCount) w32
    |>.fld (·.tiles) (tab tile) |>.fld (·.tileQ) (list tileOp) |>.fld (·.errLog) (list (pair w64 w64)) |>.fld (·.errOvf) bool
    |>.fld (·.rays) (tab ray) |>.fld (·.rayCount) (tab (bv 20)) |>.fld (·.logOn) bool |>.fld (·.logQ) nat |>.fld (·.badV) nats
    |>.fld (·.badS) nats |>.fld (·.badK) nats |>.fld (·.badX) nats |>.fld (·.lines) nats |>.fld (·.contrib) nat |>.fld (·.tops) (list gop)
    |>.fld (·.tlines) nats |>.fld (·.tcon) nat |>.fld (·.tmem) memW |>.fld (·.topsN) (list gop) |>.fld (·.tlinesN) nats
    |>.fld (·.tconN) nat |>.fld (·.tmemN) memW |>.fld (·.tbase) image |>.fld (·.preLines) (tab nat) |>.fld (·.round) w32
    |>.fld (·.arrivals) w16 |>.fld (·.deferred) (option w16) |>.fld (·.phaseSeen) w16 |>.fld (·.owed) (option nat)
    |>.fld (·.due) (list faultRec) |>.fld (·.wrote) nat |>.fld (·.halted) bool
    |>.fld (·.faultRec) (option faultRec) |>.fld (·.undo) undo

def desc : Codec Desc Desc :=
  make Desc.mk |>.fld (·.status) nat |>.fld (·.handle) w64 |>.fld (·.count) nat |>.fld (·.popper) nat |>.fld (·.seq) w32
    |>.fld (·.op) (option nat) |>.fld (·.hand) (tab w32) |>.fld (·.handBad) (tab bool)
def queue : Codec Queue Queue :=
  make Queue.mk |>.fld (·.inited) bool |>.fld (·.slots) nat |>.fld (·.slotBytes) nat |>.fld (·.ring) w64 |>.fld (·.fillSeq) w32
    |>.fld (·.headSeq) w32 |>.fld (·.allow) nat |>.fld (·.filler) nat |>.fld (·.fdone) bool |>.fld (·.desc0) nat |>.fld (·.popMask) w64
    |>.fld (·.descs) (list desc)
def lrec : Codec LRec LRec :=
  make LRec.mk |>.fld (·.entry) w64 |>.fld (·.gx) nat |>.fld (·.gy) nat |>.fld (·.gz) nat |>.fld (·.l) nat |>.fld (·.p) nat |>.fld (·.c) nat
    |>.fld (·.rp) nat |>.fld (·.rc) nat |>.fld (·.tiles) nat |>.fld (·.coop) bool |>.fld (·.leaf) bool |>.fld (·.node) bool
    |>.fld (·.clog) nat |>.fld (·.prio) nat |>.fld (·.leafpool) nat |>.fld (·.scratch) nat |>.fld (·.spill) nat |>.fld (·.shadow) nat
    |>.fld (·.dquota) nat |>.fld (·.args) w64 |>.fld (·.deps) nats |>.fld (·.aux) w64
def lanes4 := list n4
def slotRef := option (pair nat w32)
def tokOp : Codec TokOp TokOp := form
  (fun | .cpyc l o t s f x h => (0, (pair (list (pair n2 (pair w64 w64))) (pair nat (pair ty (pair (pair bool bool) (pair slotRef (option nat)))))).enc
           (l.map fun y => ((y.1, y.2.1), y.2.2), o, t, (s, f), x, h))
       | .mdrm e t s k => (1, (pair (tab w64) (pair ty (pair bool nat))).enc (e, t, s, k))
       | .alloc i l h x => (2, (pair bool (pair lanes4 (pair w64 slotRef))).enc (i, l, h, x))
       | .vact c l h => (3, (pair bool (pair lanes4 w64)).enc (c, l, h))
       | .emit n b r => (4, (pair lrec (pair (list (option (bv 8))) faultRec)).enc (n, b, r)))
  (fun k l => match k with
    | 0 => (pair (list (pair n2 (pair w64 w64))) (pair nat (pair ty (pair (pair bool bool) (pair slotRef (option nat)))))).as
        (fun x => .cpyc (x.1.map fun y => (y.1.1, y.1.2, y.2)) x.2.1 x.2.2.1 x.2.2.2.1.1 x.2.2.2.1.2 x.2.2.2.2.1 x.2.2.2.2.2) l
    | 1 => (pair (tab w64) (pair ty (pair bool nat))).as (fun x => .mdrm x.1 x.2.1 x.2.2.1 x.2.2.2) l
    | 2 => (pair bool (pair lanes4 (pair w64 slotRef))).as (fun x => .alloc x.1 x.2.1 x.2.2.1 x.2.2.2) l
    | 3 => (pair bool (pair lanes4 w64)).as (fun x => .vact x.1 x.2.1 x.2.2) l
    | _ => (pair lrec (pair (list (option (bv 8))) faultRec)).as (fun x => .emit x.1 x.2.1 x.2.2) l)
def round : Codec Round Round := make Round.mk |>.fld (·.k) nat |>.fld (·.plain) memW |>.fld (·.toks) (tab tokOp)
  |>.fld (·.full) bool
def bgen : Codec BGen BGen := make BGen.mk |>.fld (·.quarters) (tab (pair nat (list w32))) |>.fld (·.bad) (list n2)
def exit3 : Codec (Nat × W64 × Nat) (Nat × W64 × Nat) := pair nat (pair w64 nat)
def leaf4 : Codec (W64 × Nat × Nat × Nat) (W64 × Nat × Nat × Nat) := pair w64 n3

def team : Codec Team Team :=
  make Team.mk |>.fld (·.team) nat |>.fld (·.retired) bool |>.fld (·.data) image |>.fld (·.cImg) image |>.fld (·.dImg) image
    |>.fld (·.cSnap) image |>.fld (·.dSnap) image |>.fld (·.pre) image |>.fld (·.tcount) nat |>.fld (·.ordered) (tab w32)
    |>.fld (·.ordAct) (list n2) |>.fld (·.queues) (tab queue) |>.fld (·.dmem) memW |>.fld (·.toks) (tab tokOp)
    |>.fld (·.rounds) (list round) |>.fld (·.ownApplied) memW |>.fld (·.nrounds) nat |>.fld (·.charged) nats |>.fld (·.extraCharge) nat
    |>.fld (·.fullSnap) (option image) |>.fld (·.privMarks) nats |>.fld (·.linesRead) nats |>.fld (·.phase) w16 |>.fld (·.cphase) w16
    |>.fld (·.bgens) (tab bgen) |>.fld (·.mcstRoots) nats |>.fld (·.collSteps) (tab nat) |>.fld (·.withdrawn) nats |>.fld (·.left) nats
    |>.fld (·.trigger) (option nat) |>.fld (·.atGrid) (option bool) |>.fld (·.pins) (tab nat) |>.fld (·.trapped) bool
    |>.fld (·.trapSlot) (option nat) |>.fld (·.debugStop) bool |>.fld (·.summary) bytes |>.fld (·.exitFault) (option (pair nat faultRec))
    |>.fld (·.emitFault) (tab faultRec) |>.fld (·.lastExit) exit3 |>.fld (·.leaf) (option leaf4)

def lstate : Codec LState LState := form
  (fun | .submitted => (0, []) | .eligible => (1, []) | .done n => (2, nat.enc n))
  (fun k l => match k with | 0 => some (.submitted, l) | 1 => some (.eligible, l) | _ => nat.as .done l)
def launch : Codec Launch Launch :=
  make Launch.mk |>.fld (·.lr) lrec |>.fld (·.qdecl) (list n3) |>.fld (·.state) lstate |>.fld (·.launchPc) w64 |>.fld (·.seen) nats
    |>.fld (·.early) nats |>.fld (·.code) image |>.fld (·.snap) image |>.fld (·.now) image |>.fld (·.nowAtClose) image
    |>.fld (·.total) memW |>.fld (·.totalAtClose) memW |>.fld (·.trig) memW |>.fld (·.trigAtClose) memW
    |>.fld (·.token) n2 |>.fld (·.tstep) w32
    |>.fld (·.gbarCount) w32 |>.fld (·.halo) (list (pair w64 (pair nat w64))) |>.fld (·.flagsDue) (list n3) |>.fld (·.trees) nats
    |>.fld (·.leaves) (list leaf4) |>.fld (·.nodes) (list lrec) |>.fld (·.base) memW |>.fld (·.fixed) bool |>.fld (·.closed) bool

def row : Codec Row Row :=
  make Row.mk |>.fld (·.dst) nat |>.fld (·.src) (option nat) |>.fld (·.bytes) (list (option (bv 8))) |>.fld (·.len) nat
def collOp : Codec CollOp CollOp :=
  make CollOp.mk |>.fld (·.entry) nat |>.fld (·.step) nat |>.fld (·.rank) nat |>.fld (·.op) nat |>.fld (·.ty) ty |>.fld (·.dst) nat
    |>.fld (·.count) nat |>.fld (·.x) int |>.fld (·.root) nat |>.fld (·.rows) (list row)
    |>.fld (·.out) (option (pair nat (pair nat bytes)))
def opKind : Codec OpKind OpKind := form
  (fun | .rows r => (0, (list row).enc r)
       | .cldx d s n t => (1, (pair n3 ty).enc ((d, s, n), t))
       | .pfch a n => (2, n2.enc (a, n))
       | .mcst r n k d rs => (3, (pair n4 (list row)).enc ((r, n, k, d), rs))
       | .coll c => (4, collOp.enc c)
       | .token => (5, [])
       | .bvh b h a s m => (6, (pair bool n4).enc (b, h, a, s, m))
       | .log n p => (7, (pair nat (tab bytes)).enc (n, p)))
  (fun k l => match k with
    | 0 => (list row).as .rows l
    | 1 => (pair n3 ty).as (fun x => .cldx x.1.1 x.1.2.1 x.1.2.2 x.2) l
    | 2 => n2.as (fun x => .pfch x.1 x.2) l
    | 3 => (pair n4 (list row)).as (fun x => .mcst x.1.1 x.1.2.1 x.1.2.2.1 x.1.2.2.2 x.2) l
    | 4 => collOp.as .coll l
    | 5 => some (.token, l)
    | 6 => (pair bool n4).as (fun x => .bvh x.1 x.2.1 x.2.2.1 x.2.2.2.1 x.2.2.2.2) l
    | _ => (pair nat (tab bytes)).as (fun x => .log x.1 x.2) l)
def opState : Codec OpState OpState := form
  (fun | .running => (0, []) | .suspended v => (1, nat.enc v) | .done n => (2, nat.enc n))
  (fun k l => match k with | 0 => some (.running, l) | 1 => nat.as .suspended l | _ => nat.as .done l)
def engine : Codec Engine Engine := names [.tcu, .bce, .coll, .round, .log] .tcu
def engOp : Codec EngOp EngOp :=
  make EngOp.mk |>.fld (·.gid) nat |>.fld (·.slices) nat |>.fld (·.kind) opKind |>.fld (·.engine) engine |>.fld (·.pc) w64
    |>.fld (·.state) opState |>.fld (·.mode) nat |>.fld (·.slot) slotRef |>.fld (·.phase) w16 |>.fld (·.priv) bool |>.fld (·.decl) nat
    |>.fld (·.handle) w64 |>.fld (·.want) (option nat) |>.fld (·.result) nat |>.fld (·.opid) (option w32) |>.fld (·.mem) image
    |>.fld (·.noted) nats |>.fld (·.copied) bool
    |>.fld (·.chip) (list (option (bv 8))) |>.fld (·.lines) nats |>.fld (·.chunks) nat |>.fld (·.head) memW |>.fld (·.lost) nats |>.fld (·.team) memW |>.fld (·.writes) memW

def wire : Codec Wire Wire := make Wire.mk |>.fld (·.w) int |>.fld (·.pinf) bool |>.fld (·.ninf) bool |>.fld (·.nan) bool
def part : Codec Part Part :=
  make Part.mk |>.fld (·.rank) nat |>.fld (·.op) nat |>.fld (·.ty) ty |>.fld (·.count) nat |>.fld (·.x) int |>.fld (·.root) nat
    |>.fld (·.poison) bool |>.fld (·.nv) bool |>.fld (·.rnx) bool |>.fld (·.rsat) bool |>.fld (·.withdrawn) bool
    |>.fld (·.wires) (list wire) |>.fld (·.raw) bytes |>.fld (·.opid) (option nat)
def cEntry : Codec CEntry CEntry :=
  make CEntry.mk |>.fld (·.bytes) mem |>.fld (·.busy) bool |>.fld (·.refused) bool |>.fld (·.steps) (tab (list part)) |>.fld (·.gone) (list n2)
    |>.fld (·.arriving) (tab (pair part nat))
def cstate : Codec CState CState := names [.free, .idle, .resident, .switchedOut, .faulted] .free
def ctxFields : Codec CtxFields CtxFields :=
  make CtxFields.mk |>.fld (·.ccore) nat |>.fld (·.cores) nat |>.fld (·.wayMask) w16 |>.fld (·.debugCtl) (bv 2) |>.fld (·.trapn) nat
    |>.fld (·.ptroot) nat |>.fld (·.mapbase) nat |>.fld (·.save) nat |>.fld (·.trapbase) nat |>.fld (·.slice) nat
def ctx : Codec Ctx Ctx :=
  make Ctx.mk |>.fld (·.state) cstate |>.fld (·.f) ctxFields |>.fld (·.coreMap) nats |>.fld (·.image) (option n2) |>.fld (·.tvec) w64
    |>.fld (·.epc) w64 |>.fld (·.ien) bool |>.fld (·.inHandler) bool |>.fld (·.frhead) (bv 8) |>.fld (·.frtail) (bv 8) |>.fld (·.tkey) w64
    |>.fld (·.debugReq) bool |>.fld (·.launchN) nat |>.fld (·.waited) nats |>.fld (·.trapUsed) nats |>.fld (·.waitingRing) (list bytes)
    |>.fld (·.opid) w32 |>.fld (·.ctable) (tab cEntry) |>.fld (·.conns) mem |>.fld (·.inbound) mem |>.fld (·.intail) w32
    |>.fld (·.consumed) w32 |>.fld (·.outack) w32 |>.fld (·.outprog) w32 |>.fld (·.acked) w32 |>.fld (·.ovr) bool
    |>.fld (·.checkpointReq) bool |>.fld (·.migrations) (list n2)
    |>.fld (·.after) nat |>.fld (·.pages) nats

def saved : Codec Saved Saved :=
  make Saved.mk |>.fld (·.ctx) ctx |>.fld (·.launches) (tab launch) |>.fld (·.teams) (tab team) |>.fld (·.groups) (tab group)
    |>.fld (·.ops) (tab engOp) |>.fld (·.frames) (list n3) |>.fld (·.poison) nats
    |>.fld (·.ghosts) (tab (pair nat (pair w64 bytes))) |>.fld (·.leaves) (tab w64) |>.fld (·.counters) (tab w64)
    |>.fld (·.counterCfg) (tab w64) |>.fld (·.counterOvf) nats

end Codec

end Sys2Proof.Machine
end

