-- ==== Sys2Proof/Machine/Record.lean ====
section
/-! DEFINITION. What the module writes to memory of a context: the core map (R345), the save record with its four kinds of sections (R347),
undo logs in the save area (R362), and checkpoint images in the reserved region (R398, R399). The sections stand as
R347 orders them; where it gives no bytes, they are the model's (entry 16). -/

namespace Sys2Proof.Machine

/-! ### Bytes by place -/

/-- A stretch of bytes: how many, and those that are not zero, by offset. -/
structure Blob where
  len : Nat := 0
  cells : Memory := []
  deriving DecidableEq, Repr

def Blob.ofBytes (bs : List Byte) : Blob := { len := bs.length, cells := (Machine.cells 0 bs).filter fun c => c.2 != 0 }
/-- `n` bytes of a memory from an address. -/
def Blob.ofMem (m : Memory) (a n : Nat) : Blob :=
  { len := n, cells := (m.filter fun c => a ≤ c.1 && c.1 < a + n).map fun c => (c.1 - a, c.2) }
def Blob.app (a b : Blob) : Blob := { len := a.len + b.len, cells := a.cells ++ b.cells.map fun c => (a.len + c.1, c.2) }
/-- Padded with zeros to a multiple of `k`. -/
def Blob.pad (k : Nat) (b : Blob) : Blob := { b with len := (b.len + k - 1) / max k 1 * k }
def Blob.join (l : List Blob) : Blob := l.foldl Blob.app {}
/-- The bytes themselves, by one pass over the cells. -/
def Blob.bytes (b : Blob) : List Byte := go 0 b.len b.cells
where
  go (at' : Nat) : Nat → Memory → List Byte
    | 0, _ => []
    | n + 1, [] => 0 :: go (at' + 1) n []
    | n + 1, c :: m => if c.1 == at' then c.2 :: go (at' + 1) n m else 0 :: go (at' + 1) n (c :: m)

/-- A stretch of bytes put in memory at a physical key, over what stands there; the units it covers whole are clean (R203, R254). -/
def State.place (s : State) (k : Nat) (b : Blob) : State :=
  let out := fun (a : Nat) => a < k || k + b.len ≤ a
  { s with
    mem := mapply (s.mem.filter fun c => out c.1) ((b.cells.filter fun c => c.1 < b.len).map fun c => (k + c.1, c.2)),
    memPoison := s.memPoison.filter fun u => 64 * u < k || k + b.len < 64 * u + 64,
    launches := s.launches.map fun l => if l.2.isDone then (l.1, { l.2 with total := {
      b := l.2.total.b.filter fun c => out c.1, p := l.2.total.p.filter fun u => out (64 * u.1) } }) else l }
/-- Bytes at H by physical key. -/
def State.hNum (s : State) (k n : Nat) : Nat := mnat (hImage s).data k n

/-! ### The core map (R345) -/

/-- Entry i of the core map, 16 bits, in the first tier at MAPBASE (entry 20). -/
def mapKey (f : CtxFields) (i : Nat) : Nat := physKey 0 1 (f.mapbase + 2 * i)
def State.writeMap (s : State) (cid : Nat) : State :=
  match tget cid s.ctxs with
  | none => s
  | some c => s.place (mapKey c.f 0) (Blob.ofBytes (c.coreMap.flatMap (leBytes 2)))
/-- The map as memory names it; one that names no core of the module, or one twice, is not taken (entry 20). -/
def State.mapOf (s : State) (c : Ctx) : List Nat :=
  let m := (List.range c.coreMap.length).map fun i => s.hNum (mapKey c.f i) 2
  if m.all (· < 576) && m.Nodup then m else c.coreMap
def State.readMap (s : State) (cid : Nat) : State := s.modC cid fun c => { c with coreMap := s.mapOf c }

/-! ### The sections of a save record (R347) -/

/-- The header: the control core's scalar registers, program counter, flags and CSRs, the mailbox words, then its STATUS, FMR and call
stack. -/
def State.headerSection (s : State) (cid : Nat) (c : Ctx) : Blob :=
  let g := (tget (ctlGid cid) s.groups).getD {}
  { Blob.ofBytes ((List.range 64).flatMap (fun j => leBytes 8 (g.sr j 0)) ++ leBytes 8 (g.slice 0).pc.toNat ++
      leBytes 8 (Flags5.bits (g.flags 0)) ++ (List.range 12).flatMap (fun n => leBytes 8 ((s.csr cid c n).getD 0)) ++
      leBytes 4 c.intail.toNat ++ leBytes 4 c.outack.toNat ++ leBytes 8 c.outprogWord ++
      leBytes 4 (g.slice 0).status.toNat ++ leBytes 2 (g.slice 0).fmr.toNat ++ leBytes 2 (g.slice 0).call.length ++
      ((g.slice 0).call.reverse.flatMap fun a => leBytes 8 a.toNat)) with len := 4096 }

/-- The candidate order of a logical core: the launches with a team to take there, by priority and launch sequence, each with its first such
team. The teams of a launch follow in steps of L. -/
def State.candidates (s : State) (cid lcore : Nat) : List Cand :=
  let cs := (s.launchesOf cid).filterMap fun x =>
    if x.2.state != .eligible || x.2.lr.l ≤ lcore then none
    else (s.nextTeam x.1 x.2 lcore).map fun t => ({ prio := x.2.lr.prio, key := lidKey x.1, team := t, lid := x.1 } : Cand)
  cs.mergeSort Cand.before
/-- A core section: the candidate order and the ramp windows. -/
def State.coreSection (s : State) (cid : Nat) (c : Ctx) (lcore : Nat) : Blob :=
  let k := c.phys lcore
  let cs := s.candidates cid lcore
  Blob.ofBytes (leBytes 8 (sget 0 s.ramp k) ++ leBytes 8 (sget 0 s.rampPrev k) ++ leBytes 8 cs.length ++
    cs.flatMap fun x => leBytes 8 x.key ++ leBytes 4 x.team ++ leBytes 4 x.prio)

/-- A team's queue control records and slot descriptors, as R265 lays them out. -/
def Team.queueBlob (t : Team) : Blob :=
  { len := 13312, cells := mapply [] (t.queues.flatMap fun q => cells (64 * q.1) q.2.bytes ++
      (if q.2.inited then q.2.descs.zipIdx.flatMap fun d => cells (1024 + 24 * (q.2.desc0 + d.2)) d.1.bytes else [])) }
/-- The tiles of a group with their flag copies. -/
def Group.tileBlob (g : Group) : Blob :=
  Blob.join ((List.range g.ntiles).map fun k =>
    let t := g.tile k
    (Blob.mk 4096 (mapply [] (t.words.flatMap fun w => cells (4 * w.1) (leBytes 4 w.2.toNat)))).app
      (Blob.ofBytes (leBytes 64 t.flags.toNat)))

/-- An entry of an undo log (R362). -/
def undoBytes (x : W64 × Nat × Nat × Nat × List Byte) : List Byte :=
  leBytes 8 x.1.toNat ++ leBytes 1 x.2.1 ++ leBytes 1 x.2.2.1 ++ leBytes 2 0 ++ leBytes 4 x.2.2.2.1 ++ (x.2.2.2.2 ++ List.replicate 16 0).take 16

/-- The bytes of an allotment (R191): team data, rings and leaf pool; the slice stacks of each group; the system area. -/
def Launch.allotment (l : Launch) (t : Team) (gs : List (Nat × Group)) : Memory :=
  let y := l.layout
  let spill := gs.flatMap fun g => g.2.slices.zipIdx.flatMap fun x =>
    x.1.spill.map fun c => (y.spills + gidG g.1 * (l.lr.spill * 64) + x.2 * (l.lr.spill * 8) + c.1, c.2)
  mapply (t.data.data.filter fun c => c.1 < y.spills)
    (spill ++ (List.range 16384).map fun i => (y.sys + i, t.sysByte i))
/-- A team section in parts: what identifies it, the allotment, the queue records, tile state, and for each group its image (R352), which is
marked with its group. -/
def State.teamSection (s : State) (tid : Nat) (t : Team) : List (Option Nat × Blob) :=
  match tget (tidLid tid) s.launches with
  | none => []
  | some l =>
    let gs := s.liveGroups tid
    (none, Blob.ofBytes (leBytes 8 (lidKey (tidLid tid)) ++ leBytes 4 t.team ++ leBytes 4 l.layout.size ++ leBytes 16 gs.length)) ::
    (none, Blob.ofMem (l.allotment t gs) 0 l.layout.size) :: (none, t.queueBlob) :: (gs.map fun g => (none, g.2.tileBlob)) ++
    gs.map fun g => (some g.1, (Blob.ofBytes g.2.image).pad 64)

/-- The save record of a context: header, core sections, team sections. -/
def State.recordParts (s : State) (cid : Nat) (c : Ctx) : List (Option Nat × Blob) :=
  (none, s.headerSection cid c) :: ((List.range c.f.cores).map fun i => (none, (s.coreSection cid c i).pad 64)) ++
  (s.teams.filter fun t => lidCtx (tidLid t.1) == cid && !t.2.retired).flatMap fun t => s.teamSection t.1 t.2
def State.record (s : State) (cid : Nat) (c : Ctx) : Blob := Blob.join ((s.recordParts cid c).map (·.2))
/-- Where the group images stand in a record. -/
def imagesAt (ps : List (Option Nat × Blob)) : List (Nat × Nat) :=
  (ps.foldl (fun (acc : Nat × List (Nat × Nat)) p =>
    (acc.1 + p.2.len, match p.1 with | some g => acc.2 ++ [(g, acc.1)] | none => acc.2)) (0, [])).2

def saveKey (c : Ctx) : Nat := physKey 0 2 c.f.save
/-- Where INTAIL stands in the header of a context's save record (R348, entry 16). -/
def intailKey (c : Ctx) : Nat := saveKey c + 624
/-- The undo logs of a context's groups (R362): they stand in the save area, 2^32 bytes above its first, by ascending group: the group and
the entries of each, oldest first (entry 16). -/
def State.undoLogs (s : State) (cid : Nat) : Blob :=
  Blob.ofBytes ((s.groups.filter fun g => g.1 < 2 ^ 200 && gidCid g.1 == cid && g.2.undo != []).flatMap fun g =>
    leBytes 8 (lidKey (tidLid (gidTid g.1))) ++ leBytes 8 (gidTid g.1 % 2 ^ 32) ++ leBytes 8 (gidG g.1) ++ leBytes 8 g.2.undo.length ++
      g.2.undo.flatMap undoBytes)
/-- They follow every word that makes an entry and every step that takes entries back. -/
def State.writeUndo (old s : State) : State :=
  s.ctxs.foldl (fun s c =>
    if bitOf c.2.f.debugCtl.toNat 1 && old.undoLogs c.1 != s.undoLogs c.1 then s.place (saveKey c.2 + 2 ^ 32) (s.undoLogs c.1) else s) s
/-- The record is written at SAVE (R346). -/
def State.writeRecord (s : State) (cid : Nat) : State :=
  match tget cid s.ctxs with | some c => s.place (saveKey c) (s.record cid c) | none => s

/-- The registers that a record holds come back from it: those of the group images, and the control core's with its program counter; so do
the ramp windows. Everything else of a record stands as the module kept it (R346). -/
def State.readRecord (s : State) (cid : Nat) : State :=
  match tget cid s.ctxs with
  | none => s
  | some c =>
    let m := (hImage s).data
    let ps := s.recordParts cid c
    let rd := fun a n => mnat m (saveKey c + a) n
    let s' := (imagesAt ps).foldl (fun s x => s.modG x.1 fun g => g.readRegs fun a n => rd (x.2 + a) n) s
    let s' := s'.modG (ctlGid cid) fun g => { (g.modSlice 0 fun y => { y with
        pc := BitVec.ofNat 64 (rd 512 8), status := BitVec.ofNat 32 (rd 640 4), fmr := BitVec.ofNat 16 (rd 644 2),
        call := ((List.range (min 16 (rd 646 2))).map fun i => BitVec.ofNat 64 (rd (648 + 8 * i) 8)).reverse }) with
      sreg := (List.range 64).foldl (fun r j => sset 0 r (8 * j) (BitVec.ofNat 64 (rd (8 * j) 8))) g.sreg }
    ((List.range c.f.cores).foldl (fun (acc : State × Nat) i =>
      let k := c.phys i
      ({ acc.1 with ramp := sset 0 acc.1.ramp k (rd acc.2 8), rampPrev := sset 0 acc.1.rampPrev k (rd (acc.2 + 8) 8) },
        acc.2 + ((s.coreSection cid c i).pad 64).len)) (s', 4096)).1

/-! ### Checkpoint images (R386, R398, R399) -/

/-- The second-tier region that the firmware reserves: slots of 64 GiB from 5 TiB up, of which an image takes as many as it needs (entry
16). -/
def imageBase (slot : Nat) : Nat := 5 * 2 ^ 40 + slot * 2 ^ 36
def imageSlots : Nat := 16
/-- The slots of an image of some length. -/
def slotsFor (len : Nat) : Nat := max 1 ((len + 2 ^ 36 - 1) / 2 ^ 36)
/-- The slot at which an image of some length goes: after the last one, or from the first again. -/
def State.imageSlot (s : State) (len : Nat) : Nat :=
  let next := s.images.foldl (fun n x => max n (x.1 + slotsFor x.2)) 0
  if next + slotsFor len ≤ imageSlots then next else 0
/-- The images that a new one leaves, with it. -/
def imagesWith (slot len : Nat) (l : Tab Nat) : Tab Nat :=
  tput slot len (l.filter fun x => x.1 + slotsFor x.2 ≤ slot || slot + slotsFor len ≤ x.1)
def reservedOk (a n : Nat) : Bool := 5 * 2 ^ 40 ≤ a && a + n ≤ 6 * 2 ^ 40

/-- An image: four numbers (its length, and those of the save record, of what the module itself keeps, and of the pages), the save record as it
stands at SAVE, what the module keeps, control memory, and the pages and tables with their entries. -/
def State.checkpointImage (s : State) (cid : Nat) (c : Ctx) (v : Saved) : Blob :=
  let m := (hImage s).data
  let rec' := (Blob.ofMem m (saveKey c) (s.record cid c).len).pad 64
  let own := (Blob.ofBytes (Codec.saved.enc v)).pad 64
  let pages := Blob.join (v.frames.map fun f => Blob.ofMem m (physKey 0 f.1 f.2.1) f.2.2)
  let ctl := Blob.ofMem m (physKey cid 6 0) (2 ^ 20)
  let len := 64 + rec'.len + own.len + 2 ^ 20 + pages.len
  Blob.join [(Blob.ofBytes ([len, rec'.len, own.len, pages.len].flatMap (leBytes 8))).pad 64, rec', own, ctl, pages]

/-- An image in a slot of the region: what the module kept, the save record, control memory and the pages, as their bytes stand in memory. -/
def State.readImage (s : State) (slot : Nat) : Option (Saved × Blob × Blob × Blob) :=
  let m := (hImage s).data
  let k := physKey 0 2 (imageBase slot)
  let n := fun i => mnat m (k + 8 * i) 8
  let part := fun a len => Blob.ofMem m (k + a) len
  if n 0 != 64 + n 1 + n 2 + 2 ^ 20 + n 3 || !reservedOk (imageBase slot) (n 0) then none
  else match Codec.saved.dec (part (64 + n 1) (n 2)).bytes with
    | some (v, _) => some (v, part 64 (n 1), part (64 + n 1 + n 2) (2 ^ 20), part (64 + n 1 + n 2 + 2 ^ 20) (n 3))
    | none => none

/-- The pages put back, each at its frame (entry 16). -/
def State.placePages (s : State) (fs : List (Nat × Nat × Nat)) (pages : Blob) : State :=
  (fs.foldl (fun (acc : State × Nat) f =>
    (acc.1.place (physKey 0 f.1 f.2.1) (Blob.ofMem pages.cells acc.2 f.2.2), acc.2 + f.2.2)) (s, 0)).1

end Sys2Proof.Machine
end

