-- ==== Sys2Proof/Machine/World.lean ====
section
/-! DEFINITION. The world's side of the module: host commands (R392), world switch, time slices and migration (R345 to R351), mailboxes
(R348, R389, R390), received packets and flits (R387, R393 to R395), checkpoints (R398, R399), the side-band (R397), debug and
the life cycle (R361 to R365), resets, errors and temperature (R100, R183, R203, R254, R400). -/

namespace Sys2Proof.Machine

/-! ### What belongs to a context -/

/-- The tables of a page table and the pages it maps in either tier: type, first address and size (R342). -/
def framesOf (mem : Memory) : Nat → Nat → List (Nat × Nat × Nat)
  | level, table =>
    let n := match level with | 4 => 128 | 0 => 32 | _ => 512
    let size := 2 ^ (16 + (if level == 0 then 0 else if level == 1 then 5 else 14))
    (1, table, 8 * n) :: (List.range n).flatMap fun j =>
      let e := mnat mem (physKey 0 1 (table + 8 * j)) 8
      if !bitOf e 0 then [] else
      match level with
      | l + 1 =>
        if fld e 1 2 == 3 then framesOf mem l (fld e 8 32 * 2 ^ 8)
        else match readPte (l + 1) e 0 with | .ok p => if p.ty ≤ 2 then [(p.ty, p.target, size)] else [] | .error _ => []
      | 0 => match readPte 0 e 0 with | .ok p => if p.ty ≤ 2 then [(p.ty, p.target, size)] else [] | .error _ => []

/-- Whether a physical key lies in a context's pages, its tables or its control memory. -/
def ownsKey (frames : List (Nat × Nat × Nat)) (cid k : Nat) : Bool :=
  let ty := keyType k
  if ty == 6 then k / 2 ^ 60 == cid
  else (ty == 1 || ty == 2) && frames.any fun f => f.1 == ty && f.2.1 ≤ k % 2 ^ 56 && k % 2 ^ 56 < f.2.1 + f.2.2

/-- The counters and leaves of a context. -/
def ofCtx {α : Type} (cid : Nat) (m : Sparse α) : Sparse α := m.filter fun x => x.1 / 2 ^ 32 == cid
def notOfCtx {α : Type} (cid : Nat) (m : Sparse α) : Sparse α := m.filter fun x => x.1 / 2 ^ 32 != cid

/-- The state without a context's work. -/
def State.dropCtx (s : State) (cid : Nat) : State :=
  { s with ctxs := tdel cid s.ctxs, launches := s.launches.filter fun l => lidCtx l.1 != cid,
           teams := s.teams.filter fun t => lidCtx (tidLid t.1) != cid, groups := s.groups.filter fun g => gidCid g.1 != cid,
           ops := s.ops.filter fun o => o.2.cid != cid, tree := notOfCtx cid s.tree, counters := notOfCtx cid s.counters,
           counterCfg := notOfCtx cid s.counterCfg, counterOvf := s.counterOvf.filter fun k => k / 2 ^ 32 != cid,
           aster := s.aster.filter fun x => x.2.ctx != cid, tcache := s.tcache.filter fun k => cacheCtx k != cid,
           walks := s.walks.filter fun k => cacheCtx k != cid, ghosts := s.ghosts.filter fun x => lidCtx x.2.1 != cid,
           bces := s.bces.map fun q => (q.1, q.2.filter fun x => match tget x.1 s.ops with | some o => o.cid != cid | none => false),
           leafCache := s.leafCache.map fun l => (l.1, l.2.filter fun h => h / 2 ^ 64 != cid),
           forwards := s.forwards.filter fun f => f.2.1 != cid,
           cur := match s.cur with | some p => if gidCid p.gid == cid then none else some p | none => none }

/-! ### Debug features (R364, R365) -/

/-- Whether a debug feature is open. -/
def State.debugOpen (s : State) (bit : Nat) : Bool :=
  match s.fuse with
  | .manufacture | .provisioned => true
  | .deployed => bitOf s.grants.toNat bit
  | .retired => false

/-! ### Host commands (R392) -/

def CState.code : CState → Nat
  | .free => 0 | .idle => 1 | .resident => 2 | .switchedOut => 3 | .faulted => 4

def State.ctxState (s : State) (cid : Nat) : CState := match tget cid s.ctxs with | some c => c.state | none => .free

/-- A command: BUSY while another is in flight for the context, INVALID in another STATE or with operands it does not accept. -/
def State.command (s : State) (cid op : Nat) (allowed : List CState) (f : Ctx → Option State) : State :=
  if s.bootHalted then s
  else
    let c := (tget cid s.ctxs).getD {}
    if c.checkpointReq then s.report (.answer cid op 1 0 0)
    else if 16 ≤ cid || !allowed.contains c.state then s.report (.answer cid op 2 0 0)
    else match f c with
      | none => s.report (.answer cid op 2 0 0)
      | some s' => s'.report (.answer cid op 0 0 0)

/-- A resident context that shares a core with another. -/
def State.rival (s : State) (cid : Nat) (c : Ctx) : Option Nat :=
  (s.ctxs.find? fun x => x.1 != cid && x.2.state == .resident && x.2.shares c).map (·.1)

/-- The physical core at a place of one of the 36 aligned 4 × 4 patches, so ordered that each aligned block of 2, 4 or 8 places is a patch
of 1 × 2, 2 × 2 or 2 × 4 cores (R22). -/
def patchCore (p j : Nat) : Nat :=
  144 * (p / 9) + 12 * (4 * (p % 9 / 3) + 2 * (j / 8) + j / 2 % 2) + 4 * (p % 3) + 2 * (j / 4 % 2) + j % 2
/-- The least block of R22 that holds `r` cores. -/
def blockFor (r : Nat) : Nat := if r ≤ 1 then 1 else if r ≤ 2 then 2 else if r ≤ 4 then 4 else if r ≤ 8 then 8 else 16
/-- The firmware's choice of physical cores (R22): 16 logical cores to a patch, the rest in an aligned part of one, in patches that no other
context has; where there are not enough, cores shared with others. The spec does not say which physical cores a module has that offers fewer
than 576 logical ones (R1): the choice, and a migration, take any of the 576 (entry 20). -/
def State.chooseCores (s : State) (n : Nat) : List Nat :=
  let used := s.ctxs.flatMap fun c => c.2.coreMap
  let free := fun p b m => (List.range m).all fun j => !used.contains (patchCore p (b + j))
  let whole := ((List.range 36).filter fun p => free p 0 16).take (n / 16)
  let r := n % 16
  let parts := ((List.range 36).filter fun p => !whole.contains p).flatMap fun p =>
    (List.range (16 / blockFor r)).map fun i => (p, i * blockFor r)
  let first := whole.flatMap fun p => (List.range 16).map (patchCore p)
  let shared := (List.range n).map fun i => patchCore (i / 16) (i % 16)
  if whole.length < n / 16 then shared
  else if r == 0 then first
  else match parts.find? fun x => free x.1 x.2 r with
    | some x => first ++ (List.range r).map fun j => patchCore x.1 (x.2 + j)
    | none => shared

/-- Ways of two contexts on one die never overlap (R345). -/
def State.waysOk (s : State) (cid : Nat) (ways : BitVec 16) (map : List Nat) : Bool :=
  !(s.ctxs.any fun c => c.1 != cid && c.2.f.wayMask &&& ways != 0 && c.2.coreMap.any fun k => map.any fun j => j / 144 == k / 144)

/-- The limits of a context table entry (R345, R365). -/
def State.fieldsOk (s : State) (cid : Nat) (f : CtxFields) (map : List Nat) : Bool :=
  f.ccore < 16 && 1 ≤ f.cores && f.cores ≤ 576 && f.cores ≤ s.cores && 1 ≤ f.trapn && f.trapn ≤ 64 && f.ptroot < 2 ^ 40 && f.ptroot % 1024 == 0 &&
  (f.slice == 0 || 100 ≤ f.slice && f.slice ≤ 100000) && (f.debugCtl == 0 || s.debugOpen 0) &&
  s.waysOk cid f.wayMask map

/-- A context begins: its control memory reads zero (R263), its core map stands at MAPBASE (R345), and neither the Aster table nor the caches keep anything of its number
(R315, R341). -/
def State.created (s : State) (cid : Nat) (f : CtxFields) (map : List Nat) : State :=
  let mine := fun k => keyType k == 6 && k / 2 ^ 60 == cid
  { s with mem := s.mem.filter fun x => !mine x.1, memPoison := s.memPoison.filter fun u => !mine (64 * u),
           aster := s.aster.filter fun x => x.2.ctx != cid, tcache := s.tcache.filter fun k => cacheCtx k != cid
         }.putC cid { state := .idle, f := f, coreMap := map } |>.writeMap cid

/-- CREATE: in RETIRED no context is created (R364). -/
def execCreate (ctx : Nat) (f : CtxFields) (s : State) : Host.Outcome State Fault Refusal :=
  .next (s.command ctx 1 [.free] fun _ =>
    let map := s.chooseCores f.cores
    if s.fuse == .retired || !s.fieldsOk ctx f map then none
    else some (s.created ctx f map))

def execLoad (ctx addr len : Nat) (s : State) : Host.Outcome State Fault Refusal :=
  .next (s.command ctx 2 [.idle] fun c => some (s.putC ctx { c with image := some (addr, len) }))

/-- The control core at START: one slice at the image's first word (entry 3). -/
def ctlGroup (entry : Nat) : Group :=
  { isCtl := true, slices := { pc := BitVec.ofNat 64 entry } :: List.replicate 7 {}, subs := [{ mask := 1 }] }

/-- The place of a context's turn among those that it shares cores with: ascending, after the one that last left them (R345). -/
def Ctx.turn (c : Ctx) (cid : Nat) : Nat := (cid + 15 - c.after) % 16
/-- A context that waits for its turn; one that a resident context with a SLICE of 0 holds up takes none (R345, entry 20). -/
def State.waitsTurn (s : State) (cid : Nat) (c : Ctx) : Bool :=
  c.state == .switchedOut && !(s.ctxs.any fun x => x.1 != cid && x.2.state == .resident && x.2.f.slice == 0 && x.2.shares c)
/-- Whether some context waits for a turn on cores of this one. -/
def State.turnWanted (s : State) (cid : Nat) (c : Ctx) : Bool := s.ctxs.any fun x => x.1 != cid && x.2.shares c && s.waitsTurn x.1 x.2

/-- START; beside a resident context on a shared core, or one that waits for its turn there, the context waits for its own, with its save
record written (R345, R346). -/
def execStart (ctx : Nat) (s : State) : Host.Outcome State Fault Refusal :=
  .next (s.command ctx 3 [.idle] fun c =>
    match c.image with
    | none => none
    | some (addr, _) =>
      let waits := (s.rival ctx c).isSome || s.turnWanted ctx c
      let c := { c with state := if waits then CState.switchedOut else .resident, tvec := 0, epc := 0, ien := false, inHandler := false, tkey := 0 }
      let s := (s.putC ctx c).putG (ctlGid ctx) (ctlGroup addr)
      some (if waits then s.writeRecord ctx else s))

/-! ### World switch (R345, R346, R348) -/

/-- The pre-emption of a group: its results are collected and its tile queue drains (R349, R350). -/
def State.preempt (s : State) (gid : Nat) : State :=
  (s.modG gid fun g => { g with pend := (g.pend.map fun p => { p with returned := true }).filter (·.slices != 0) }).tileFlush gid
def State.preemptCtx (s : State) (cid : Nat) : State :=
  (s.groups.filter fun g => gidCid g.1 == cid).foldl (fun s g => s.preempt g.1) s

/-- The context leaves its cores: its teams are pre-empted, the save record is written at SAVE, and its translations are dropped (R346).
What the record has no section for the module keeps (entry 16). -/
def State.switchOut (s : State) (cid : Nat) : State :=
  match s.ctxState cid with
  | .resident => ((((s.preemptCtx cid).passTurn cid).modC cid fun c => { c with state := .switchedOut }).writeRecord cid).dropPages cid fun _ => false
  | _ => s

/-- Messages accepted: INTAIL neither goes back nor passes the consumed count by more than 64 (R389). -/
def Ctx.setIntail (c : Ctx) (v : W32) : Ctx :=
  if (v - c.consumed).toNat ≤ 64 && (c.intail - c.consumed).toNat ≤ (v - c.consumed).toNat then { c with intail := v }
  else { c with ovr := true }

/-- A context that waits can return: no resident context has a core that its map in memory names now (R345, R346). -/
def State.switchInReady (s : State) (cid : Nat) : Bool :=
  match tget cid s.ctxs with
  | some c => c.state == .switchedOut && (s.rival cid { c with coreMap := s.mapOf c }).isNone
  | none => false

/-- A context that can return, and whose turn it is: of those that wait for cores of it none comes before it (R345). -/
def State.turnDue (s : State) (cid : Nat) : Bool :=
  s.switchInReady cid && match tget cid s.ctxs with
    | some c => !(s.ctxs.any fun x => x.1 != cid && x.2.shares c && s.waitsTurn x.1 x.2 &&
        (x.2.turn x.1 < c.turn cid || x.2.turn x.1 == c.turn cid && x.1 < cid))
    | none => false

/-- The context returns onto the cores that its map names now (R346): its save record is read, the INTAIL that stands there takes effect
(R348), a word parked on the control core starts again, and markers whose results have returned end. -/
def State.switchIn (s : State) (cid : Nat) : State :=
  if !s.switchInReady cid then s
  else
    let s := ((s.readMap cid).readRecord cid).modC cid fun c => { c.setIntail (BitVec.ofNat 32 (s.hNum (intailKey c) 4)) with state := .resident }
    let s := s.modG (ctlGid cid) fun g => g.modSub 1 fun x => if x.park == .marker then x else { x with park := .none }
    (s.groups.filter fun g => gidCid g.1 == cid && s.gidRuns g.1).foldl (fun s g => s.resettle g.1) s

def execWorldSwitchOut (ctx : Nat) (s : State) : Host.Outcome State Fault Refusal := .next (s.switchOut ctx)
def execWorldSwitchIn (ctx : Nat) (s : State) : Host.Outcome State Fault Refusal := .next (s.switchIn ctx)

/-- The context whose turn it is on cores of this one (R345). -/
def State.nextTurn (s : State) (cid : Nat) (c : Ctx) : Option Nat :=
  (s.ctxs.find? fun x => x.1 != cid && x.2.shares c && s.turnDue x.1).map (·.1)

/-- TIME_SLICE_EXPIRE (R345): a SLICE of 0 never ends, and a slice ends where another context waits for a turn. The context whose turn comes
returns; one that cores of a third context hold up still goes before the context whose slice has ended. -/
def execTimeSliceExpire (ctx : Nat) (s : State) : Host.Outcome State Fault Refusal :=
  .next (match tget ctx s.ctxs with
    | some c =>
      if c.state == .resident && c.f.slice != 0 && s.turnWanted ctx c then
        let s := s.switchOut ctx
        match s.nextTurn ctx c with | some k => s.switchIn k | none => s
      else s
    | none => s)

/-- STOP: the control program ends; what it launched stays with the context. -/
def execStop (ctx : Nat) (s : State) : Host.Outcome State Fault Refusal :=
  .next (s.command ctx 4 [.resident, .switchedOut] fun _ =>
    let s := (s.switchOut ctx).modC ctx fun c => { c with state := .idle }
    some { s with groups := tdel (ctlGid ctx) s.groups })

/-- What a context takes of the tiers beside its pages and tables: its save record of `len` bytes, the undo logs while they are on, the trap
image slots and the core map (R345, R347, R352, R362). -/
def Ctx.areas (c : Ctx) (len : Nat) : List (Nat × Nat × Nat) :=
  [(2, c.f.save, len), (2, c.f.trapbase, c.f.trapn * 2 ^ 27), (1, c.f.mapbase, 2 * c.f.cores)] ++
    if bitOf c.f.debugCtl.toNat 1 then [(2, c.f.save + 2 ^ 32, 2 ^ 33)] else []
/-- All that a context holds of the tiers. -/
def State.holdings (s : State) (cid : Nat) (c : Ctx) : List (Nat × Nat × Nat) :=
  c.areas (s.record cid c).len ++ framesOf (hImage s).data 4 c.f.ptroot
/-- DESTROY: the pages of either tier that the context maps, its tables and areas, and the pages that it has written, read zero for the next
context that maps them, unless another context holds them now (R185, R392, entry 5). -/
def execDestroy (ctx : Nat) (s : State) : Host.Outcome State Fault Refusal :=
  .next (s.command ctx 5 [.idle, .faulted] fun c =>
    let fs := s.holdings ctx c
    let rest := (s.ctxs.filter fun x => x.1 != ctx && x.2.state != .free).flatMap fun x => s.holdings x.1 x.2
    let ls := s.launchesOf ctx
    let pages := ls.foldl (fun ps l => nunion ps (pagesOf l.2.total)) c.pages
    let clears := fun k => ownsKey fs ctx k && (keyType k == 6 || !ownsKey rest ctx k) ||
      pages.contains (k / 65536) && (keyType k == 1 || keyType k == 2) && !ownsKey rest ctx k
    let m : Image := ls.foldl (fun (m : Image) l => if l.2.isDone then m.apply l.2.total else m) { data := s.mem, poison := s.memPoison }
    let s := { s with mem := m.data.filter fun x => !clears x.1, memPoison := m.poison.filter fun u => !clears (64 * u) }
    some (s.dropCtx ctx))

def execQuery (ctx : Nat) (s : State) : Host.Outcome State Fault Refusal :=
  .next (if s.bootHalted then s else s.report (.answer ctx 8 0 (s.ctxState ctx).code s.cores))

/-! ### Migration (R351) -/

/-- Forwarding entries whose operations have all completed are free. -/
def State.liveForwards (s : State) : List (Nat × Nat × Nat × Nat) :=
  s.forwards.filter fun f => s.ops.any fun o => o.1 < f.2.2.2 && o.2.cid == f.2.1 && !o.2.isDone
/-- The teams of a logical core. -/
def State.coreTeams (s : State) (cid lcore : Nat) : List (Nat × Team) :=
  s.teams.filter fun t => lidCtx (tidLid t.1) == cid && match tget (tidLid t.1) s.launches with
    | some l => t.2.team % max l.lr.l 1 == lcore | none => false
/-- Forwarding entries in use on a core. -/
def State.forwardsAt (s : State) (core : Nat) : Nat := (s.forwards.filter fun f => f.1 == core).length
/-- The firmware moves a logical core only to a core of the module that the map does not name, that no resident context has while this one
is resident, and on whose die its ways are free (R345, entry 20). -/
def State.canMigrate (s : State) (cid : Nat) (c : Ctx) (lcore phys : Nat) : Bool :=
  let map := c.coreMap.set lcore phys
  lcore < c.coreMap.length && phys < 576 && !c.coreMap.contains phys && s.waysOk cid c.f.wayMask map &&
  !(c.state == .resident && (s.rival cid { c with coreMap := map }).isSome)
/-- A waiting migration that can go on (R351). -/
def State.migrationDue (s : State) (c : Ctx) : Option (Nat × Nat) :=
  c.migrations.find? fun m => { s with forwards := s.liveForwards }.forwardsAt (c.phys m.1) < 16

/-- MIGRATION: with 16 forwarding entries in use on the old core it waits. -/
def execMigration (ctx lcore phys : Nat) (s : State) : Host.Outcome State Fault Refusal :=
  .next (match tget ctx s.ctxs with
    | none => s
    | some c =>
      let old := c.phys lcore
      let s := { s with forwards := s.liveForwards }
      let c := { c with migrations := c.migrations.filter (· != (lcore, phys)) }
      if !s.canMigrate ctx c lcore phys then s.putC ctx c
      else if 16 ≤ s.forwardsAt old then s.putC ctx { c with migrations := c.migrations ++ [(lcore, phys)] }
      else
        let s := (s.coreTeams ctx lcore).foldl (fun s t => (s.teamGroups t.1).foldl (fun s g => s.preempt g.1) s) s
        let s := (s.putC ctx { c with coreMap := c.coreMap.set lcore phys }).writeMap ctx
        let s := { s with forwards := s.forwards ++ [(old, ctx, lcore, s.nextOp)] }
        (s.coreTeams ctx lcore).foldl (fun s t => (s.teamGroups t.1).foldl (fun s g =>
          if s.gidRuns g.1 then s.resettle g.1 else s) s) s)

/-- FORWARD: a request at the old core goes on to the new one. -/
def execForward (core ctx lcore : Nat) (s : State) : Host.Outcome State Fault Refusal :=
  .next (
    let s := { s with forwards := s.liveForwards }
    if s.forwards.any fun f => f.1 == core && f.2.1 == ctx && f.2.2.1 == lcore then { s with forwarded := s.forwarded + 1 } else s)

/-! ### Mailbox words (R348, R389, R390) -/

/-- A write of INTAIL: while the context is switched out it lands in the save record (R348). -/
def execIntailWrite (ctx : Nat) (v : W32) (s : State) : Host.Outcome State Fault Refusal :=
  .next (match tget ctx s.ctxs with
    | some c => if c.state == .switchedOut then s.place (intailKey c) (Blob.ofBytes (leBytes 4 v.toNat)) else s.putC ctx (c.setIntail v)
    | none => s)
def execOutackWrite (ctx : Nat) (v : W32) (clrOvr : Bool) (s : State) : Host.Outcome State Fault Refusal :=
  .next (s.modC ctx fun c => { c with outack := v, acked := c.ackedAt c.outprog v, ovr := c.ovr && !clrOvr })

/-! ### Packets (R387 to R391) and flits (R393 to R395) -/

/-- The subset of R387; `addrs` holds the address of each port. -/
def Packet.accepted (addrs : List Nat) (p : Packet) : Bool :=
  64 ≤ p.frame && p.frame ≤ 9216 && p.net != .other && addrs[p.port]? == some p.dst && p.udpPort == 4791 && p.reliable && !p.atomic

/-- The 64 bytes of a SEND on the management connection (R392): opcode, context, and from byte 8 the operands (entry 54): for CREATE, bytes 0 to
43 of the context table entry; for LOAD the address and the length; for RESTORE the image's slot. -/
def commandOf (bs : List Byte) : Option Instr :=
  let n := fun i k => leNat ((bs.drop i).take k)
  let cid := n 1 1
  match n 0 1 with
  | 1 => some (.create cid { ccore := n 9 1, cores := n 10 2, wayMask := BitVec.ofNat 16 (n 12 2), debugCtl := BitVec.ofNat 2 (n 14 1),
                             trapn := n 15 1, ptroot := n 16 8, mapbase := n 24 8, save := n 32 8, trapbase := n 40 8, slice := n 48 4 })
  | 2 => some (.load cid (n 8 8) (n 16 8))
  | 3 => some (.start cid)
  | 4 => some (.stop cid)
  | 5 => some (.destroy cid)
  | 6 => some (.checkpoint cid)
  | 7 => some (.restore cid (n 8 8))
  | 8 => some (.query cid)
  | _ => none
/-- The SEND that carries a report to the host: an answer with the command's opcode and its status in byte 2, an event with opcode 9 (R392). -/
def Report.send : Report → Option (List Byte)
  | .answer ctx op st a b => some (leBytes 1 op ++ leBytes 1 ctx ++ leBytes 6 st ++ leBytes 8 a ++ leBytes 8 b ++ leBytes 40 0)
  | .event ctx st code => some (leBytes 1 9 ++ leBytes 1 ctx ++ leBytes 6 st.code ++ leBytes 8 code ++ leBytes 48 0)
  | _ => none

/-- What the host reads over the management connection (R391). -/
def State.hostRead (s : State) (cid block off len : Nat) : State :=
  match tget cid s.ctxs with
  | none => s.report .refused
  | some c =>
    let out := fun (bs : List Byte) => s.report (.bytes cid bs)
    if block < 16 && off < 65536 && block * 65536 + off + len ≤ 2 ^ 20 then
      if c.state == .idle then out (mread (hImage s).data (physKey cid 6 (block * 65536 + off)) len) else s.report .refused
    else if block == 16 && off + len ≤ 4096 || block == 17 && off + len ≤ 512 || block == 18 && 8 ≤ off && off + len ≤ 16 then
      out ((List.range len).map fun i => c.blockByte block (off + i))
    else s.report .refused

def State.packetOp (s : State) : PacketOp → State
  | .writeInbound cid slot len payload =>
    if slot < 64 && payload.length ≤ 4096 then
      s.modC cid fun c => { c with inbound := mwrite (mwrite c.inbound (slotBytes * slot) (leBytes 8 len)) (slotBytes * slot + 8) payload }
    else s
  | .writeControl cid off bs =>
    if s.ctxState cid == .idle && off + bs.length ≤ 2 ^ 20 then s.hWrite (MemW.ofCells (cells (physKey cid 6 off) bs))
    else s.report .refused
  | .readBlock cid block off len => s.hostRead cid block off len
  | .hostBytes cid target bs => match tget cid s.ctxs with
    | some c => s.hWrite (MemW.ofCells (c.hostCells target bs))
    | none => s
  | .writeReserved a bs => if reservedOk a bs.length then s.tier2 a bs else s.report .refused
  | .readReserved a len =>
    if reservedOk a len then s.report (.bytes 0 (mread (hImage s).data (physKey 0 2 a) len)) else s.report .refused
  -- the command is carried out by the next step; a SEND of another opcode or length is answered INVALID
  | .send bs => match commandOf bs with
    | some i => if bs.length == 64 then { s with inputs := i :: s.inputs } else s.report .refused
    | none => s.report (.answer (leNat ((bs.drop 1).take 1)) (leNat (bs.take 1)) 2 0 0)

/-- PACKET_RECEIVE: a packet outside the subset is dropped and counted. A module whose boot has halted takes no packets and no flits (R400). -/
def execPacketReceive (p : Packet) (s : State) : Host.Outcome State Fault Refusal :=
  .next (if s.bootHalted then s else if Packet.accepted s.portAddr p then s.packetOp p.op else { s with dropped := s.dropped + 1 })

/-- The start of a remote participant's contribution, or its withdrawal (R258 to R260). -/
def msgPart (rank : Nat) (bad : Bool) : CollMsg → Part
  | .data op ty count x root poison nv rnx rsat _ =>
    { rank := rank, op := op, ty := ty, count := count, x := x, root := root, poison := poison || bad, nv := nv, rnx := rnx, rsat := rsat }
  | .withdraw leave => { rank := rank, op := if leave then 5 else 4, withdrawn := true }
  | _ => { rank := rank, op := 0 }
/-- The values of one more flit; those of a flit that never passed its check count as zero and set POISON (R254, R393). -/
def Part.more (p : Part) (bad : Bool) : CollMsg → Part
  | .wires bs => { p with wires := p.wires ++ payloadWires (if bad then [] else bs), poison := p.poison || bad }
  | .raw bs => { p with raw := p.raw ++ (if bad then bs.map fun _ => 0 else bs), poison := p.poison || bad }
  | _ => p

def State.modEntry (s : State) (cid entry : Nat) (f : CEntry → CEntry) : State :=
  s.modC cid fun c => { c with ctable := tput entry (f (c.entry entry)) c.ctable }
/-- A flit of a contribution: the whole enters its step once its last flit has come (R258, R393). -/
def State.collFlit (s : State) (cid entry step rank : Nat) (bad : Bool) (m : CollMsg) : State :=
  match tget cid s.ctxs with
  | none => s
  | some c =>
    let k := step * 2 ^ 32 + rank
    let enter := fun (s : State) (p : Part) (left : Nat) =>
      if left == 0 then (s.modEntry cid entry fun x => { x with arriving := tdel k x.arriving }).collPart cid entry step p
      else s.modEntry cid entry fun x => { x with arriving := tput k (p, left) x.arriving }
    match m with
    | .data _ _ _ _ _ _ _ _ _ n => enter s (msgPart rank bad m) n
    | .withdraw _ => s.collPart cid entry step (msgPart rank bad m)
    | m => match tget k (c.entry entry).arriving with
      | some (p, left) => enter s (p.more bad m) (left - 1)
      | none => s
/-- Bytes that a flit brings to a key, poisoned where it never passed its check. -/
def State.flitBytes (s : State) (k : Nat) (bad : Bool) (bs : List Byte) : State :=
  let w := MemW.ofCells (cells k (if bad then bs.map fun _ => 0 else bs))
  s.hWrite (if bad then { w with p := toverlay [] ((unitsOf k bs.length).map fun u => (u, true)) } else w)

/-- FLIT_RECEIVE (R393): a bad flit is resent, and after 8 tries its data is poisoned (R254). -/
def execFlitReceive (f : Flit) (s : State) : Host.Outcome State Fault Refusal :=
  .next (if s.bootHalted || !f.data.fits then s
    else if !f.ok && f.tries < 8 then s.report .resend
    else match f.data with
      | .coll cid entry step rank m => s.collFlit cid entry step rank (!f.ok) m
      | .remote target bs => s.flitBytes (physKey 0 7 target) (!f.ok) bs
      | .write addr bs => s.flitBytes (if bitOf addr 43 then physKey 0 2 (fld addr 0 43) else physKey 0 1 (fld addr 0 43)) (!f.ok) bs)

/-! ### Checkpoints (R398, R399) -/

def execCheckpoint (ctx : Nat) (s : State) : Host.Outcome State Fault Refusal :=
  .next (if s.bootHalted then s
    else
      let c := (tget ctx s.ctxs).getD {}
      if c.checkpointReq then s.report (.answer ctx 6 1 0 0)
      else if c.state == .resident || c.state == .switchedOut then s.modC ctx fun c => { c with checkpointReq := true }
      else s.report (.answer ctx 6 2 0 0))

/-- A running grid at a D-interval close that has not released: every admitted team waits at the grid's barrier or has retired, and no
round is left. -/
def State.atClose (s : State) (lid : Nat) (l : Launch) : Bool :=
  let ts := s.teamsOf lid
  l.state != .eligible || ts == [] ||
    !l.closed && ts.length == l.lr.nteam && ts.all fun t => (t.2.retired || t.2.atGrid.isSome) && t.2.rounds == []

/-- The quiet point (R398). -/
def State.quiet (s : State) (cid : Nat) : Bool :=
  match tget cid s.ctxs, tget (ctlGid cid) s.groups with
  | some c, some g =>
    c.checkpointReq && (c.state == .resident || c.state == .switchedOut) &&
    (match g.parked with | .lwait _ | .lwaitCancel _ | .msgrd | .halt => true | _ => false) && (s.launchesOf cid).all fun l => s.atClose l.1 l.2
  | _, _ => false

/-- What the module keeps of a context for an image, beside its save record, pages and control memory: of its grids' memory what lies in the
pages that the context maps, its tables and its control memory (R398). -/
def State.capture (s : State) (cid : Nat) (c : Ctx) : Saved :=
  let fs := framesOf (hImage s).data 4 c.f.ptroot
  let own := ownsKey fs cid
  let img := fun (m : Image) => ({ data := m.data.filter fun x => own x.1, poison := m.poison.filter fun u => own (64 * u) } : Image)
  { ctx := { c with checkpointReq := false, state := .switchedOut },
    launches := (s.launchesOf cid).map fun l => (l.1, { l.2 with
      code := img l.2.code, snap := img l.2.snap, now := img l.2.now, nowAtClose := img l.2.nowAtClose,
      total := l.2.total.keep own, totalAtClose := l.2.totalAtClose.keep own, trig := l.2.trig.keep own, trigAtClose := l.2.trigAtClose.keep own,
      base := l.2.base.keep own }),
    teams := (s.teams.filter fun t => lidCtx (tidLid t.1) == cid).map fun t => (t.1, { t.2 with fullSnap := t.2.fullSnap.map img }),
    groups := s.groups.filter fun g => gidCid g.1 == cid,
    ops := (s.ops.filter fun o => o.2.cid == cid).map fun o => (o.1, { o.2 with mem := img o.2.mem }),
    frames := fs, poison := (hImage s).poison.filter fun u => ownsKey fs cid (64 * u),
    ghosts := s.ghosts.filter fun x => lidCtx x.2.1 == cid,
    leaves := ofCtx cid s.tree, counters := ofCtx cid s.counters, counterCfg := ofCtx cid s.counterCfg,
    counterOvf := s.counterOvf.filter fun k => k / 2 ^ 32 == cid }

/-- QUIET_POINT_CAPTURE (R398): switch out, write the image in the next slots of the reserved region, answer with the slot and the image's
length. An image that the whole region cannot hold is not written, and the answer is INVALID (entry 16). -/
def execQuietPointCapture (ctx : Nat) (s : State) : Host.Outcome State Fault Refusal :=
  .next (if !s.quiet ctx then s else
    let s := s.switchOut ctx
    match tget ctx s.ctxs with
    | none => s
    | some c =>
      let b := s.checkpointImage ctx c (s.capture ctx c)
      let slot := s.imageSlot b.len
      if !reservedOk (imageBase slot) b.len then s.endCheckpoint ctx
      else
        let s := (s.place (physKey 0 2 (imageBase slot)) b).putC ctx { c with checkpointReq := false }
        { s with images := imagesWith slot b.len s.images }.report (.answer ctx 6 0 slot b.len))

/-- Operations under new numbers, which no operation of the module has. -/
def Saved.renumber (v : Saved) (n : Nat) : Saved :=
  let id := fun (i : Nat) => i + n
  let desc := fun (d : Desc) => { d with op := d.op.map id }
  let tok := fun (x : Nat × TokOp) => match x.2 with
    | .cpyc l o t s f k h => (x.1, TokOp.cpyc l o t s f k (h.map id))
    | _ => x
  let ray := fun (r : Nat × Ray) => (r.1, { r.2 with job := r.2.job.map id })
  let part := fun (p : Part) => { p with opid := p.opid.map id }
  { v with
    ops := v.ops.map fun o => (id o.1, o.2),
    teams := v.teams.map fun t => (t.1, { t.2 with
      queues := t.2.queues.map fun q => (q.1, { q.2 with descs := q.2.descs.map desc }), toks := t.2.toks.map tok,
      rounds := t.2.rounds.map fun r => { r with toks := r.toks.map tok } }),
    groups := v.groups.map fun g => (g.1, { g.2 with rays := g.2.rays.map ray }),
    ctx := { v.ctx with ctable := v.ctx.ctable.map fun x => (x.1, { x.2 with steps := x.2.steps.map fun y => (y.1, y.2.map part) }) } }
/-- Whether another context's pages, tables or areas meet the frames and the areas of an image. -/
def State.framesTaken (s : State) (cid : Nat) (v : Saved) (record : Blob) : Bool :=
  let mine := v.ctx.areas record.len ++ v.frames
  s.ctxs.any fun c => c.1 != cid && c.2.state != .free && (s.holdings c.1 c.2).any fun f =>
    mine.any fun g => f.1 == g.1 && f.2.1 < g.2.1 + g.2.2 && g.2.1 < f.2.1 + f.2.2
/-- A context rebuilt from an image (R399): its pages, tables and control memory stand again as they did, its save record stands at SAVE, its
operations have numbers of their own, and it has a new core map. -/
def State.rebuild (s : State) (cid : Nat) (image : Saved) (record ctl pages : Blob) : State :=
  let v := image.renumber s.nextOp
  let s := ((s.placePages v.frames pages).place (physKey cid 6 0) ctl).place (saveKey v.ctx) record
  let s := { s with
    launches := toverlay s.launches v.launches, teams := toverlay s.teams v.teams, groups := toverlay s.groups v.groups,
    ops := toverlay s.ops v.ops, memPoison := nunion s.memPoison v.poison, ghosts := toverlay s.ghosts v.ghosts,
    tree := toverlay s.tree v.leaves, counters := toverlay s.counters v.counters,
    counterCfg := toverlay s.counterCfg v.counterCfg, counterOvf := nunion s.counterOvf v.counterOvf,
    nextOp := max s.nextOp (v.ops.foldl (fun (n : Nat) (o : Nat × EngOp) => max n (o.1 + 1)) 0) }
  (s.putC cid { v.ctx with coreMap := s.chooseCores v.ctx.f.cores }).writeMap cid

/-- RESTORE (R399): an image in the reserved region, whether this module wrote it or the host. The module needs the context's cores, the
ways on their dies, and frames that no other context holds; the context keeps its number (entry 16). -/
def execRestore (ctx image : Nat) (s : State) : Host.Outcome State Fault Refusal :=
  .next (s.command ctx 7 [.free] fun _ =>
    if imageSlots ≤ image then none
    else match s.readImage image with
    | none => none
    | some (v, record, ctl, pages) =>
      if s.fuse == .retired || s.cores < v.ctx.f.cores || (v.groups.any fun g => gidCid g.1 != ctx) ||
        !s.waysOk ctx v.ctx.f.wayMask (s.chooseCores v.ctx.f.cores) || s.framesTaken ctx v record then none
      else some ((s.rebuild ctx v record ctl pages).switchIn ctx))

/-! ### The side-band (R397) -/

/-- IDENT: the part number, and whether the boot has failed (R400). -/
def execIdent (s : State) : Host.Outcome State Fault Refusal := .next (s.report (.ident "BXG4-576" s.cores s.fuse s.bootHalted))
/-- POWER: time values that the spec does not give (entry 7). -/
def execPower (s : State) : Host.Outcome State Fault Refusal := .next (let (v, s) := s.draw; s.report (.power v))
def execLogs (s : State) : Host.Outcome State Fault Refusal := .next (s.report (.logs s.errors))
/-- COUNTERS: with the owner's consent, or a grant with bit 2. -/
def execCounters (ctx : Nat) (consent : Bool) (s : State) : Host.Outcome State Fault Refusal :=
  .next (s.report (if consent || s.debugOpen 2 then
    .counters ctx ((ofCtx ctx s.counters).map fun x => (x.1, s.counterWord x.1)) ((ofCtx ctx s.tree).map fun x => (x.1, s.leafWord x.1))
    else .refused))

/-! ### Debug (R361 to R365) -/

/-- DEBUG_STOP: a KIND 5 stop; TEAM_TRAP writes the images. The stop raises the control core's debug request (entry 19). -/
def execDebugStop (tid : Nat) (s : State) : Host.Outcome State Fault Refusal :=
  .next (if !s.debugOpen 0 then s.report .refused
    else match tget tid s.teams with
      | some t =>
        if t.trapped || t.retired then s.report .refused
        else (s.putT tid { t with trapped := true, debugStop := true }).modC (lidCtx (tidLid tid)) fun c => { c with debugReq := true }
      | none => s.report .refused)

/-- A team that the debugger holds; its context is resident, since one that is switched out makes no progress (R29). -/
def State.debugHeld (s : State) (tid : Nat) : Bool :=
  s.debugOpen 0 && s.ctxState (lidCtx (tidLid tid)) == .resident && match tget tid s.teams with | some t => t.debugStop && t.trapped | none => false

/-- DEBUG_IMAGE_ACCESS: a write reaches k1 to k7, the scalar and the vector registers only (R355). -/
def execDebugImageAccess (gid : Nat) (acc : ImgAccess) (s : State) : Host.Outcome State Fault Refusal :=
  .next (if !s.debugHeld (gidTid gid) then s.report .refused
    else match tget gid s.groups, acc with
      | some g, .read => s.report (.image gid (s.sampleSite gid (lowest g.liveMask) g.haltPc) g.image)
      | some g, .write off bs =>
        let img := mwrite (mwrite [] 0 g.image) off bs
        s.putG gid (g.readBack fun a n => mnat img a n)
      | none, _ => s.report .refused)

/-- DEBUG_SINGLE_STEP: one word of the group's next ready sub-gang takes the slot while the team stays stopped. -/
def execDebugSingleStep (gid : Nat) (s : State) : Host.Outcome State Fault Refusal :=
  .next (if !s.debugHeld (gidTid gid) then s.report .refused
    else
      let s := ((s.collectPend (gidTid gid)).restart gid false).resettle gid
      match tget gid s.groups with
      | none => s
      | some g =>
        let ps := ((List.range 256).filter fun m => g.subs.any fun x => x.mask == m && m &&& g.liveMask != 0).map fun m =>
          ({ gid := gid, mask := m } : Party)
        match ps.find? fun p => (match envOf s p with | some e => e.parkOver | none => false) with
        | some p => { s with cur := some p }
        | none => s)

/-- The newest word's entries of an undo log: one entry for each slice and destination. -/
def lastWord : List Undo → List Undo
  | [] => []
  | x :: l => x :: go x.1 [x.2.1 * 2 ^ 40 + x.2.2.1 * 2 ^ 32 + x.2.2.2.1] l
where
  go (pc : W64) (seen : List Nat) : List Undo → List Undo
    | [] => []
    | y :: l =>
      let k := y.2.1 * 2 ^ 40 + y.2.2.1 * 2 ^ 32 + y.2.2.2.1
      if y.1 == pc && !seen.contains k then y :: go pc (k :: seen) l else []

/-- One undo entry put back. -/
def Group.undoOne (g : Group) (x : Undo) : Group :=
  let (_, kind, slice, loc, old) := x
  match kind with
  | 0 => g.rawS (8 * loc + slice) (BitVec.ofNat 64 (leNat (old.take 8)))
  | 1 => (List.range 4).foldl (fun g j => g.rawV (32 * loc + 4 * slice + j) (BitVec.ofNat 32 (leNat ((old.drop (4 * j)).take 4)))) g
  | 2 => g.wrK loc (laneMask (2 ^ slice)) (leNat (old.take 4))
  | _ => g.modSub (((g.subs.find? fun x => bitOf x.mask slice).map (·.mask)).getD 0) fun x => { x with lvl := x.lvl.storeBytes loc old }

/-- The entries put back in reverse order: registers and team data of the group, and ring bytes in place. -/
def State.undoAll (s : State) (gid rings : Nat) (es : List Undo) : State :=
  es.foldl (fun s x =>
    if x.2.1 == 3 && rings ≤ x.2.2.2.1 then s.modT (gidTid gid) fun t => { t with data := { t.data with data := mwrite t.data.data x.2.2.2.1 x.2.2.2.2 } }
    else s.modG gid fun g => g.undoOne x) s

/-- DEBUG_STEP_BACK (R362): the newest word of the group is undone, and its slices stand at it again (entry 19). -/
def execDebugStepBack (gid : Nat) (s : State) : Host.Outcome State Fault Refusal :=
  .next (if !s.debugHeld (gidTid gid) then s.report .refused
    else match tget gid s.groups, tget (tidLid (gidTid gid)) s.launches with
      | some g, some l =>
        let es := lastWord g.undo.reverse
        let s := s.modG gid fun g => { g with undo := g.undo.take (g.undo.length - es.length) }
        (s.undoAll gid l.layout.rings es).modG gid fun g =>
          (g.subs.filter fun x => es.any fun e => bitOf x.mask e.2.2.1).foldl (fun g x =>
            (g.setPcs (slicesOf x.mask) fun _ => (es.head?.map (·.1)).getD 0).modSub x.mask fun y => { y with park := .none }) g
      | _, _ => s)

def execDebugResume (tid : Nat) (s : State) : Host.Outcome State Fault Refusal :=
  .next (if s.debugHeld tid then s.unhalt tid fun _ => false else s.report .refused)

/-- A debug token that checks (R365). -/
def State.tokenOk (s : State) (bs : List Byte) : Bool :=
  let n := fun i k => leNat ((bs.drop i).take k)
  bs.length == 192 && n 0 4 == 1 && n 4 4 < 32 && n 72 56 == 0 && n 8 32 == Config.deviceKey && n 40 32 == (Config.nonce s.nonceNo).toNat &&
  !s.nonceUsed && ed25519Ok Config.authorityKey (bs.take 128) (bs.drop 128) && s.fuse != .retired

/-- DEBUG_TOKEN: a good token grants its features; after a bad one a fresh nonce is issued. -/
def execDebugToken (bytes : List Byte) (s : State) : Host.Outcome State Fault Refusal :=
  .next (if s.tokenOk bytes then
      { s with grants := s.grants ||| BitVec.ofNat 32 (leNat ((bytes.drop 4).take 4)), nonceUsed := true }
    else { s with nonceNo := s.nonceNo + 1, nonceUsed := false }.report (.nonce (Config.nonce (s.nonceNo + 1))))

def Fuse.next : Fuse → Fuse
  | .manufacture => .provisioned | .provisioned => .deployed | .deployed => .retired | .retired => .retired
def execFuseAdvance (s : State) : Host.Outcome State Fault Refusal := .next { s with fuse := s.fuse.next }

/-! ### Resets (R400), errors and temperature -/

/-- What a warm reset leaves: memory that belongs to no context of the module (R394, R398). -/
def staysWarm (k : Nat) : Bool := outerKey k || keyType k == 2 && reservedOk (k % 2 ^ 56) 1
/-- WARM_RESET: every context ends; fuses, grants and checkpoint images stay, and so do host and remote memory. The tiers and control memory
read zero for the contexts to come (R185, entry 34). -/
def execWarmReset (s : State) : Host.Outcome State Fault Refusal :=
  .next { s with cur := none, slots := [], pointers := [], ctxs := [], launches := [], teams := [], groups := [], ops := [], bces := [], tree := [],
                 counters := [], counterCfg := [], counterOvf := [], ramp := [], rampPrev := [], msc := [], aster := [], leafCache := [],
                 ghosts := [], tcache := [], walks := [], forwards := [],
                 mem := (hImage s).data.filter fun c => staysWarm c.1,
                 memPoison := (hImage s).poison.filter fun u => staysWarm (64 * u), nonceNo := s.nonceNo + 1, nonceUsed := false }
/-- A firmware image is accepted with a valid signature (R364). -/
def FwImage.ok (f : FwImage) : Bool := ed25519Ok Config.firmwareKey f.body f.sig
/-- COLD_RESET: the reset state, but for the fuses, the ports, what was sent, and the memory of others: of the host, with the outbound rings, and of
other modules (R386, R394); each firmware image is checked and its measurement recorded
and attested, and one that fails halts the boot (R364, R400). -/
def execColdReset (images : List FwImage) (s : State) : Host.Outcome State Fault Refusal :=
  .next (
    let ms := images.map fun f => Config.measurement f.body
    let s' := { State.reset with inputs := s.inputs, fuse := s.fuse, cores := s.cores, nonceNo := s.nonceNo + 1, reports := s.reports,
                                 portAddr := s.portAddr, moduleId := s.moduleId, freeCtr := s.freeCtr,
                                 mem := (hImage s).data.filter fun c => outerKey c.1,
                                 memPoison := (hImage s).poison.filter fun u => outerKey (64 * u),
                                 measured := ms, attested := Config.attestation ms }
    if images.all (FwImage.ok ·) then s' else { s' with bootHalted := true }.report .bootHalt)

/-- Contexts stop as FAULTED, each with an event whose code is a free value (entry 7). -/
def State.faultAll (s : State) (cids : List Nat) : State :=
  cids.foldl (fun s cid => let (v, s) := s.draw; s.faultCtx cid v.toNat) s
/-- THERMAL_STOP (R397): every context stops as FAULTED, and the module reports it. -/
def execThermalStop (die : Nat) (s : State) : Host.Outcome State Fault Refusal :=
  .next (if 4 ≤ die then s else s.faultAll (tkeys s.ctxs))

/-- THERMAL_CLOCK_LOWERING (R10): only timing. -/
def execThermalClockLowering (die : Nat) (s : State) : Host.Outcome State Fault Refusal :=
  .next (if die < 4 then { s with clockLow := nins die s.clockLow } else s)

def Image.spoil (m : Image) (u : Nat) : Image := { m with poison := nins u m.poison }

/-- A failed stack of the first tier: bits 39:38 of an address name the die, bits 13:12 the stack (R189). -/
def stackOf (a : Nat) : Nat × Nat := (fld a 38 2, fld a 12 2)
/-- Contexts with a page or a table in a stack; a page of 64 KiB or more lies in all four of its die. -/
def State.usesStack (s : State) (die stack : Nat) : List Nat :=
  (s.ctxs.filter fun c => c.2.state != .free && (framesOf (hImage s).data 4 c.2.f.ptroot).any fun f =>
    f.1 == 1 && fld f.2.1 38 2 == die && (65536 ≤ f.2.2 || (stackOf f.2.1).2 == stack)).map (·.1)
/-- A line of memory is lost: running grids read it too. -/
def State.spoilLine (s : State) (u : Nat) : State :=
  { s with memPoison := nins u s.memPoison,
           launches := s.launches.map fun l => (l.1, { l.2 with
             code := l.2.code.spoil u, snap := l.2.snap.spoil u, now := l.2.now.spoil u, nowAtClose := l.2.nowAtClose.spoil u }) }
/-- The bytes of a unit that are struck read as zero, and its poison bit is set (R203); bit i of `bad` names byte i. -/
def Image.strike (m : Image) (u bad : Nat) : Image :=
  { m.spoil u with data := mapply m.data (((List.range 64).filter (bitOf bad)).map fun i => (64 * u + i, 0)) }
/-- Whether a unit stands alike in two images: an image that has not been set apart from the live bytes lies in them. -/
def Image.unitLike (a b : Image) (u : Nat) : Bool :=
  mread a.data (64 * u) 64 == mread b.data (64 * u) 64 && a.poison.contains u == b.poison.contains u
/-- A change of the commit images and snapshots of a team that do, or do not, lie in its live bytes at a unit: one for which a group holds a
pre-image line, or which stands otherwise, lies apart (R216, entry 55). -/
def Team.modImages (t : Team) (gs : List (Nat × Group)) (u : Nat) (live : Bool) (f : Image → Image) : Team :=
  let held := fun (p : Nat → Bool) => gs.any fun g => (tget u g.2.preLines).any p
  let g := fun (p : Nat → Bool) (m : Image) => if (m.unitLike t.data u && !held p) == live then f m else m
  { t with cImg := g (· == 8) t.cImg, dImg := g (· == 8) t.dImg, cSnap := g (fun _ => true) t.cSnap, dSnap := g (fun _ => true) t.dSnap,
           pre := g (· == 8) t.pre }
/-- A strike on the spill bytes of a group (R203, R204). -/
def Launch.strikeSpill (l : Launch) (gid : Nat) (e : Strike) (g : Group) : Group :=
  let hit := ((List.range 64).filter (bitOf e.bad)).map fun i => 64 * e.unit + i
  { g with slices := g.slices.zipIdx.map fun x =>
      let base := l.layout.spills + gidG gid * (l.lr.spill * 64) + x.2 * (l.lr.spill * 8)
      { x.1 with spill := mapply x.1.spill ((hit.filter fun a => base ≤ a && a < base + l.lr.spill * 8).map fun a => (a - base, 0)) } }

/-- UNCORRECTABLE_ERROR: registers (R100), tiles and B quarters (R183), memory (R254), lines on a link (R396), a stack (R400). Each is in LOGS
(R397). -/
def execUncorrectableError (t : ErrTarget) (s : State) : Host.Outcome State Fault Refusal :=
  .next (
    let s := { s with errors := s.errors ++ [LogRec.error t] }
    match t with
    | .memory a => s.spoilLine (a / 64)
    | .vreg gid r lane => s.modG gid fun g => { g with badV := nins (32 * r + lane) g.badV }
    | .sreg gid r slice => s.modG gid fun g => { g with badS := nins (8 * r + slice) g.badS }
    | .kreg gid r => if r == 0 then s else s.modG gid fun g => { g with badK := nins r g.badK }
    | .special gid r unit => s.modG gid fun g => { g with badX := nins (32 * r.code + unit) g.badX }
    | .tile gid k e => s.modG gid fun g => { g with tiles := tput k { g.tile k with bad := nins e (g.tile k).bad } g.tiles }
    | .bquarter tid set gen q w => s.modT tid fun t => { t with bgens := tmod (bgenKey set gen) (fun b =>
        { b with bad := if b.bad.contains (q, w) then b.bad else b.bad ++ [(q, w)] }) t.bgens }
    | .preImage tid unit bad => s.modT tid fun t => t.modImages (s.teamGroups tid) unit false fun m => m.strike unit bad
    | .transfer op line => { s with ops := tmod op (fun o => { o with lost := nins line o.lost }) s.ops }
    | .stack die stack =>
      -- what the stack held is lost: the units that hold anything
      let us := (s.mem.filter fun c => keyType c.1 == 1 && stackOf (c.1 % 2 ^ 56) == (die, stack)).foldl (fun l c => nins (c.1 / 64) l) []
      (us.foldl (fun s u => s.spoilLine u) s).faultAll (s.usesStack die stack))

/-- An error in a unit as a group sees it that has acted on team data by `ops` since its snapshot: a unit that it has written whole is its own, and
so are the words that it has acted on. -/
def Image.strikeUnder (m : Image) (ops : List GOp) (e : Strike) : Image :=
  let clears := ops.filterMap fun o => match o with | .poison u b => if u == e.unit then some b else none | _ => none
  let own := ops.flatMap GOp.words
  if clears.getLast? == some false then m
  else m.strike e.unit (((List.range 64).filter fun i => bitOf e.bad i && !own.contains ((64 * e.unit + i) / 4 * 4)).foldl (fun n i => n + 2 ^ i) 0)
/-- The operations under a level of some slices at a depth, in order: T-pending ones, those of the levels that lie under it, and its own (R198). -/
def Group.opsUnder (g : Group) (mask depth : Nat) (l : GLevel) : List GOp :=
  g.tops ++ g.topsN ++ ((List.range depth).flatMap fun d => g.recs.flatMap fun r =>
    if r.depth == d && r.s &&& mask == mask then match r.base with | some b => b.ops | none => [] else []) ++ l.ops
/-- A strike on a group's views of team data: those of its sub-gangs, and those that its records keep for the join (R149, R198). -/
def Group.strike (g : Group) (e : Strike) : Group :=
  let hit := fun (mask depth : Nat) (l : GLevel) => { l with view := l.view.strikeUnder (g.opsUnder mask depth l) e }
  { g with tbase := g.tbase.strikeUnder (g.tops ++ g.topsN) e,
           subs := g.subs.map fun x => { x with lvl := hit x.mask 17 x.lvl },
           recs := g.recs.map fun r => { r with base := r.base.map (hit r.s r.depth) } }
/-- SCRATCHPAD_POISON (R203): the unit's poison bit is set and its bad bytes read as zero, in every view beneath what its group has
written itself, in every image that lies in the live bytes, and in the spill stacks. -/
def execScratchpadPoison (tid : Nat) (e : Strike) (s : State) : Host.Outcome State Fault Refusal :=
  .next (
    let s := { s with errors := s.errors ++ [LogRec.scratchpad tid e.unit] }
    let l := (tget (tidLid tid) s.launches).getD {}
    (s.modT tid fun t => { t.modImages (s.teamGroups tid) e.unit true (fun m => m.strike e.unit e.bad) with
      data := t.data.strike e.unit e.bad }).modGroups tid fun gid g => l.strikeSpill gid e (g.strike e))

end Sys2Proof.Machine
end

