-- ==== Sys2Proof/Machine/Dispatch.lean ====
section
/-! DEFINITION. The dispatch: one arm for each constructor, each a call of its own meaning. -/

namespace Sys2Proof.Machine

def exec (i : Instr) (s : State) : Host.Outcome State Fault Refusal :=
  match i with
  | .nop f => Sys2Proof.Machine.execNop f s
  | .mov f => Sys2Proof.Machine.execMov f s
  | .movi f => Sys2Proof.Machine.execMovi f s
  | .movh f => Sys2Proof.Machine.execMovh f s
  | .rdln f => Sys2Proof.Machine.execRdln f s
  | .wrln f => Sys2Proof.Machine.execWrln f s
  | .shfl f => Sys2Proof.Machine.execShfl f s
  | .sel f => Sys2Proof.Machine.execSel f s
  | .iadd f => Sys2Proof.Machine.execIadd f s
  | .isub f => Sys2Proof.Machine.execIsub f s
  | .imul f => Sys2Proof.Machine.execImul f s
  | .imulh f => Sys2Proof.Machine.execImulh f s
  | .imad f => Sys2Proof.Machine.execImad f s
  | .imin f => Sys2Proof.Machine.execImin f s
  | .imax f => Sys2Proof.Machine.execImax f s
  | .iabs f => Sys2Proof.Machine.execIabs f s
  | .ineg f => Sys2Proof.Machine.execIneg f s
  | .and f => Sys2Proof.Machine.execAnd f s
  | .or f => Sys2Proof.Machine.execOr f s
  | .xor f => Sys2Proof.Machine.execXor f s
  | .not f => Sys2Proof.Machine.execNot f s
  | .shl f => Sys2Proof.Machine.execShl f s
  | .shr f => Sys2Proof.Machine.execShr f s
  | .sar f => Sys2Proof.Machine.execSar f s
  | .rot f => Sys2Proof.Machine.execRot f s
  | .popc f => Sys2Proof.Machine.execPopc f s
  | .clz f => Sys2Proof.Machine.execClz f s
  | .brev f => Sys2Proof.Machine.execBrev f s
  | .bfx f => Sys2Proof.Machine.execBfx f s
  | .bfi f => Sys2Proof.Machine.execBfi f s
  | .lea f => Sys2Proof.Machine.execLea f s
  | .icmp f => Sys2Proof.Machine.execIcmp f s
  | .iaddi f => Sys2Proof.Machine.execIaddi f s
  | .andi f => Sys2Proof.Machine.execAndi f s
  | .ori f => Sys2Proof.Machine.execOri f s
  | .xori f => Sys2Proof.Machine.execXori f s
  | .shli f => Sys2Proof.Machine.execShli f s
  | .shri f => Sys2Proof.Machine.execShri f s
  | .icmpi f => Sys2Proof.Machine.execIcmpi f s
  | .imuli f => Sys2Proof.Machine.execImuli f s
  | .kand f => Sys2Proof.Machine.execKand f s
  | .kor f => Sys2Proof.Machine.execKor f s
  | .kxor f => Sys2Proof.Machine.execKxor f s
  | .knot f => Sys2Proof.Machine.execKnot f s
  | .kmov f => Sys2Proof.Machine.execKmov f s
  | .kpop f => Sys2Proof.Machine.execKpop f s
  | .kffs f => Sys2Proof.Machine.execKffs f s
  | .kset f => Sys2Proof.Machine.execKset f s
  | .sfmt f => Sys2Proof.Machine.execSfmt f s
  | .prmt f => Sys2Proof.Machine.execPrmt f s
  | .pack f => Sys2Proof.Machine.execPack f s
  | .unpk f => Sys2Proof.Machine.execUnpk f s
  | .clrst f => Sys2Proof.Machine.execClrst f s
  | .fadd f => Sys2Proof.Machine.execFadd f s
  | .fsub f => Sys2Proof.Machine.execFsub f s
  | .fmul f => Sys2Proof.Machine.execFmul f s
  | .ffma f => Sys2Proof.Machine.execFfma f s
  | .fmin f => Sys2Proof.Machine.execFmin f s
  | .fmax f => Sys2Proof.Machine.execFmax f s
  | .fabs f => Sys2Proof.Machine.execFabs f s
  | .fneg f => Sys2Proof.Machine.execFneg f s
  | .fcmp f => Sys2Proof.Machine.execFcmp f s
  | .fclass f => Sys2Proof.Machine.execFclass f s
  | .fdiv f => Sys2Proof.Machine.execFdiv f s
  | .fsqrt f => Sys2Proof.Machine.execFsqrt f s
  | .frcp f => Sys2Proof.Machine.execFrcp f s
  | .frsq f => Sys2Proof.Machine.execFrsq f s
  | .fex2 f => Sys2Proof.Machine.execFex2 f s
  | .flg2 f => Sys2Proof.Machine.execFlg2 f s
  | .fsin f => Sys2Proof.Machine.execFsin f s
  | .fcos f => Sys2Proof.Machine.execFcos f s
  | .frnd f => Sys2Proof.Machine.execFrnd f s
  | .fscl f => Sys2Proof.Machine.execFscl f s
  | .fgexp f => Sys2Proof.Machine.execFgexp f s
  | .fcps f => Sys2Proof.Machine.execFcps f s
  | .faddi f => Sys2Proof.Machine.execFaddi f s
  | .fmuli f => Sys2Proof.Machine.execFmuli f s
  | .ffmai f => Sys2Proof.Machine.execFfmai f s
  | .f2f f => Sys2Proof.Machine.execF2f f s
  | .f2i f => Sys2Proof.Machine.execF2i f s
  | .i2f f => Sys2Proof.Machine.execI2f f s
  | .bpack f => Sys2Proof.Machine.execBpack f s
  | .bunpk f => Sys2Proof.Machine.execBunpk f s
  | .fdp2 f => Sys2Proof.Machine.execFdp2 f s
  | .pairWord f => Sys2Proof.Machine.execPairWord f s
  | .bra f => Sys2Proof.Machine.execBra f s
  | .bkz f => Sys2Proof.Machine.execBkz f s
  | .bknz f => Sys2Proof.Machine.execBknz f s
  | .loop f => Sys2Proof.Machine.execLoop f s
  | .jmpi f => Sys2Proof.Machine.execJmpi f s
  | .call f => Sys2Proof.Machine.execCall f s
  | .calli f => Sys2Proof.Machine.execCalli f s
  | .ret f => Sys2Proof.Machine.execRet f s
  | .regang f => Sys2Proof.Machine.execRegang f s
  | .ksync f => Sys2Proof.Machine.execKsync f s
  | .exit f => Sys2Proof.Machine.execExit f s
  | .mbld f => Sys2Proof.Machine.execMbld f s
  | .mma f => Sys2Proof.Machine.execMma f s
  | .mzro f => Sys2Proof.Machine.execMzro f s
  | .mdrn f => Sys2Proof.Machine.execMdrn f s
  | .mdrs f => Sys2Proof.Machine.execMdrs f s
  | .mdrm f => Sys2Proof.Machine.execMdrm f s
  | .mseq f => Sys2Proof.Machine.execMseq f s
  | .mgrp f => Sys2Proof.Machine.execMgrp f s
  | .merr f => Sys2Proof.Machine.execMerr f s
  | .mscl f => Sys2Proof.Machine.execMscl f s
  | .mred f => Sys2Proof.Machine.execMred f s
  | .ld f => Sys2Proof.Machine.execLd f s
  | .st f => Sys2Proof.Machine.execSt f s
  | .pushs f => Sys2Proof.Machine.execPushs f s
  | .pops f => Sys2Proof.Machine.execPops f s
  | .atom f => Sys2Proof.Machine.execAtom f s
  | .red f => Sys2Proof.Machine.execRed f s
  | .cas f => Sys2Proof.Machine.execCas f s
  | .cmitT f => Sys2Proof.Machine.execCmitT f s
  | .cmitC f => Sys2Proof.Machine.execCmitC f s
  | .cmitD f => Sys2Proof.Machine.execCmitD f s
  | .abrtG f => Sys2Proof.Machine.execAbrtG f s
  | .abrtT f => Sys2Proof.Machine.execAbrtT f s
  | .rfshT f => Sys2Proof.Machine.execRfshT f s
  | .rfshD f => Sys2Proof.Machine.execRfshD f s
  | .fence f => Sys2Proof.Machine.execFence f s
  | .cpy f => Sys2Proof.Machine.execCpy f s
  | .gthr f => Sys2Proof.Machine.execGthr f s
  | .sctr f => Sys2Proof.Machine.execSctr f s
  | .cpyc f => Sys2Proof.Machine.execCpyc f s
  | .mcst f => Sys2Proof.Machine.execMcst f s
  | .csto f => Sys2Proof.Machine.execCsto f s
  | .cldx f => Sys2Proof.Machine.execCldx f s
  | .pfch f => Sys2Proof.Machine.execPfch f s
  | .bulk f => Sys2Proof.Machine.execBulk f s
  | .coll f => Sys2Proof.Machine.execColl f s
  | .qinit f => Sys2Proof.Machine.execQinit f s
  | .qpush f => Sys2Proof.Machine.execQpush f s
  | .qpop f => Sys2Proof.Machine.execQpop f s
  | .qpeek f => Sys2Proof.Machine.execQpeek f s
  | .qrel f => Sys2Proof.Machine.execQrel f s
  | .emit f => Sys2Proof.Machine.execEmit f s
  | .trig f => Sys2Proof.Machine.execTrig f s
  | .launch f => Sys2Proof.Machine.execLaunch f s
  | .lwait f => Sys2Proof.Machine.execLwait f s
  | .lwaitCancel f => Sys2Proof.Machine.execLwaitCancel f s
  | .msgrd f => Sys2Proof.Machine.execMsgrd f s
  | .msgwr f => Sys2Proof.Machine.execMsgwr f s
  | .vget f => Sys2Proof.Machine.execVget f s
  | .vstn f => Sys2Proof.Machine.execVstn f s
  | .vset f => Sys2Proof.Machine.execVset f s
  | .vins f => Sys2Proof.Machine.execVins f s
  | .vdel f => Sys2Proof.Machine.execVdel f s
  | .vact f => Sys2Proof.Machine.execVact f s
  | .vleaf f => Sys2Proof.Machine.execVleaf f s
  | .vleafRel f => Sys2Proof.Machine.execVleafRel f s
  | .vmrc f => Sys2Proof.Machine.execVmrc f s
  | .halo f => Sys2Proof.Machine.execHalo f s
  | .vsmp f => Sys2Proof.Machine.execVsmp f s
  | .rtrc f => Sys2Proof.Machine.execRtrc f s
  | .rcont f => Sys2Proof.Machine.execRcont f s
  | .rcontKill f => Sys2Proof.Machine.execRcontKill f s
  | .rget f => Sys2Proof.Machine.execRget f s
  | .rlog f => Sys2Proof.Machine.execRlog f s
  | .rrpl f => Sys2Proof.Machine.execRrpl f s
  | .hinv f => Sys2Proof.Machine.execHinv f s
  | .bvhbBuild f => Sys2Proof.Machine.execBvhbBuild f s
  | .bvhbRefit f => Sys2Proof.Machine.execBvhbRefit f s
  | .bar f => Sys2Proof.Machine.execBar f s
  | .cbar f => Sys2Proof.Machine.execCbar f s
  | .arrv f => Sys2Proof.Machine.execArrv f s
  | .wait f => Sys2Proof.Machine.execWait f s
  | .gbar f => Sys2Proof.Machine.execGbar f s
  | .tsbar f => Sys2Proof.Machine.execTsbar f s
  | .rng f => Sys2Proof.Machine.execRng f s
  | .cntr f => Sys2Proof.Machine.execCntr f s
  | .cntc f => Sys2Proof.Machine.execCntc f s
  | .trap f => Sys2Proof.Machine.execTrap f s
  | .brk f => Sys2Proof.Machine.execBrk f s
  | .csrr f => Sys2Proof.Machine.execCsrr f s
  | .csrw f => Sys2Proof.Machine.execCsrw f s
  | .iret f => Sys2Proof.Machine.execIret f s
  | .tlbi f => Sys2Proof.Machine.execTlbi f s
  | .halt f => Sys2Proof.Machine.execHalt f s
  | .pendingResultReturn gid idx => Sys2Proof.Machine.execPendingResultReturn gid idx s
  | .teamTrap tid => Sys2Proof.Machine.execTeamTrap tid s
  | .admitTeam core => Sys2Proof.Machine.execAdmitTeam core s
  | .groupRetire gid => Sys2Proof.Machine.execGroupRetire gid s
  | .gridComplete lid => Sys2Proof.Machine.execGridComplete lid s
  | .promote ctx => Sys2Proof.Machine.execPromote ctx s
  | .roundApply lid => Sys2Proof.Machine.execRoundApply lid s
  | .teamCollectiveMatch tid => Sys2Proof.Machine.execTeamCollectiveMatch tid s
  | .teamPhaseComplete tid => Sys2Proof.Machine.execTeamPhaseComplete tid s
  | .cbarRelease lid cluster => Sys2Proof.Machine.execCbarRelease lid cluster s
  | .dIntervalClose lid => Sys2Proof.Machine.execDIntervalClose lid s
  | .tileOpComplete gid => Sys2Proof.Machine.execTileOpComplete gid s
  | .copyComplete op => Sys2Proof.Machine.execCopyComplete op s
  | .bulkChunkComplete op => Sys2Proof.Machine.execBulkChunkComplete op s
  | .copySuspend op => Sys2Proof.Machine.execCopySuspend op s
  | .copyFail op => Sys2Proof.Machine.execCopyFail op s
  | .collStepComplete ctx entry step => Sys2Proof.Machine.execCollStepComplete ctx entry step s
  | .collTimeout ctx entry step => Sys2Proof.Machine.execCollTimeout ctx entry step s
  | .rampWindowRollover core => Sys2Proof.Machine.execRampWindowRollover core s
  | .timeSliceExpire ctx => Sys2Proof.Machine.execTimeSliceExpire ctx s
  | .worldSwitchOut ctx => Sys2Proof.Machine.execWorldSwitchOut ctx s
  | .worldSwitchIn ctx => Sys2Proof.Machine.execWorldSwitchIn ctx s
  | .migration ctx lcore phys => Sys2Proof.Machine.execMigration ctx lcore phys s
  | .forward core ctx lcore => Sys2Proof.Machine.execForward core ctx lcore s
  | .controlInterrupt ctx => Sys2Proof.Machine.execControlInterrupt ctx s
  | .teamctlResume ctx team => Sys2Proof.Machine.execTeamctlResume ctx team s
  | .teamctlTerminate ctx team => Sys2Proof.Machine.execTeamctlTerminate ctx team s
  | .cpyctlResume ctx opid => Sys2Proof.Machine.execCpyctlResume ctx opid s
  | .cpyctlCancel ctx opid => Sys2Proof.Machine.execCpyctlCancel ctx opid s
  | .create ctx f => Sys2Proof.Machine.execCreate ctx f s
  | .load ctx addr len => Sys2Proof.Machine.execLoad ctx addr len s
  | .start ctx => Sys2Proof.Machine.execStart ctx s
  | .stop ctx => Sys2Proof.Machine.execStop ctx s
  | .destroy ctx => Sys2Proof.Machine.execDestroy ctx s
  | .checkpoint ctx => Sys2Proof.Machine.execCheckpoint ctx s
  | .quietPointCapture ctx => Sys2Proof.Machine.execQuietPointCapture ctx s
  | .restore ctx image => Sys2Proof.Machine.execRestore ctx image s
  | .query ctx => Sys2Proof.Machine.execQuery ctx s
  | .intailWrite ctx v => Sys2Proof.Machine.execIntailWrite ctx v s
  | .outackWrite ctx v clrOvr => Sys2Proof.Machine.execOutackWrite ctx v clrOvr s
  | .packetReceive p => Sys2Proof.Machine.execPacketReceive p s
  | .flitReceive f => Sys2Proof.Machine.execFlitReceive f s
  | .ident => Sys2Proof.Machine.execIdent s
  | .power => Sys2Proof.Machine.execPower s
  | .logs => Sys2Proof.Machine.execLogs s
  | .counters ctx consent => Sys2Proof.Machine.execCounters ctx consent s
  | .debugStop tid => Sys2Proof.Machine.execDebugStop tid s
  | .debugImageAccess gid acc => Sys2Proof.Machine.execDebugImageAccess gid acc s
  | .debugSingleStep gid => Sys2Proof.Machine.execDebugSingleStep gid s
  | .debugStepBack gid => Sys2Proof.Machine.execDebugStepBack gid s
  | .debugResume tid => Sys2Proof.Machine.execDebugResume tid s
  | .debugToken bytes => Sys2Proof.Machine.execDebugToken bytes s
  | .fuseAdvance => Sys2Proof.Machine.execFuseAdvance s
  | .warmReset => Sys2Proof.Machine.execWarmReset s
  | .coldReset images => Sys2Proof.Machine.execColdReset images s
  | .thermalStop die => Sys2Proof.Machine.execThermalStop die s
  | .uncorrectableError t => Sys2Proof.Machine.execUncorrectableError t s
  | .scratchpadPoison tid e => Sys2Proof.Machine.execScratchpadPoison tid e s
  | .counterOverflow ctx core n => Sys2Proof.Machine.execCounterOverflow ctx core n s
  | .issueSlot => Sys2Proof.Machine.execIssueSlot s
  | .thermalClockLowering die => Sys2Proof.Machine.execThermalClockLowering die s

end Sys2Proof.Machine
end

