-- ==== Sys2Proof/Machine/Events.lean ====
section
/-! DEFINITION. What happens by itself: the first event that is due, in a fixed order (entry 1), the counting of the events of R381, and
what the caches hold. -/

namespace Sys2Proof.Machine

/-! ### Events that are due -/

def State.residentCtx (s : State) (cid : Nat) : Bool := s.ctxState cid == .resident

/-- The engines of a team that has trapped stand still (R349, R353). -/
def State.teamHalted (s : State) (o : EngOp) : Bool :=
  o.gid < 2 ^ 200 && match tget (gidTid o.gid) s.teams with | some t => t.trapped | none => false
/-- The event of an engine operation that can go on (R252, R255, R256, R240). -/
def State.opEvent (s : State) (id : Nat) (o : EngOp) : Option Instr :=
  if !o.active || !s.residentCtx o.cid || s.teamHalted o then none
  else if 0 < o.chunks then some (.bulkChunkComplete id)
  else if !o.kind.copying then none
  else match s.opState o with
    | .unmapped _ => some (.copySuspend id)
    | .failed _ _ => some (.copyFail id)
    | .ok _ => match o.kind with
      | .coll c => if c.out.isNone && s.collSent id o c then none else some (.copyComplete id)
      | _ => some (.copyComplete id)

/-- Events of groups: results that return, tile words, retirement. The teams of a context that has become FAULTED are pre-empted (R360): what
their units hold runs to its end (R349). -/
def State.groupEvent (s : State) (gid : Nat) (g : Group) : Option Instr :=
  if !s.gidRuns gid && s.ctxState (gidCid gid) != .faulted then none
  else match g.pend.find? fun p => !p.returned with
    | some p => some (.pendingResultReturn gid p.idx)
    | none =>
      if g.tileQ != [] then some (.tileOpComplete gid)
      else if s.retireReady gid then some (.groupRetire gid) else none

def State.teamEvent (s : State) (tid : Nat) : Option Instr :=
  if s.trapReady tid then some (.teamTrap tid)
  else if s.matchReady tid then some (.teamCollectiveMatch tid)
  else if s.phaseReady tid then some (.teamPhaseComplete tid) else none

/-- The cores on which a launch has a team to take. -/
def State.admitCores (s : State) (lid : Nat) (l : Launch) : List Nat :=
  match tget (lidCtx lid) s.ctxs with
  | some c => if l.state == .eligible then ((List.range l.lr.l).filter fun i => (s.nextTeam lid l i).isSome).map c.phys else []
  | none => []

def State.launchEvent (s : State) (lid : Nat) (l : Launch) : Option Instr :=
  if !s.residentCtx (lidCtx lid) || l.state != .eligible then none
  else if s.roundDue lid then some (.roundApply lid)
  else if s.closeReady lid then some (.dIntervalClose lid)
  else if s.completeReady lid then some (.gridComplete lid)
  else match (List.range ((l.lr.nteam + l.lr.clusterN - 1) / l.lr.clusterN)).find? fun k => s.cbarReady lid k with
    | some k => some (.cbarRelease lid k)
    | none => ((s.admitCores lid l).find? fun k => (s.admitPlan k).isSome).map .admitTeam

/-- The collective steps whose participants have all arrived or withdrawn. -/
def Ctx.collDue (cid : Nat) (c : Ctx) : Option Instr :=
  c.ctable.findSome? fun x => (x.2.steps.find? fun y => (collResult x.2 y.1 y.2).isSome).map fun y => .collStepComplete cid x.1 y.1

def State.ctxEvent (s : State) (cid : Nat) (c : Ctx) : Option Instr :=
  if s.quiet cid then some (.quietPointCapture cid)
  else if s.turnDue cid then some (.worldSwitchIn cid)
  else if c.state != .resident then none
  else match s.migrationDue c with
  | some m => some (.migration cid m.1 m.2)
  | none => if s.interruptReady cid then some (.controlInterrupt cid)
  else if s.promoteReady cid then some (.promote cid) else c.collDue cid

/-- A counter that has passed 2^48 − 1. -/
def State.overflowEvent (s : State) : Option Instr :=
  (s.counters.find? fun x => 2 ^ 48 ≤ x.2.toNat).map fun x =>
    let k := x.1 % 2 ^ 32
    if k < 2 ^ 16 then .counterOverflow (x.1 / 2 ^ 32) (k / 16) (k % 16)
    else .counterOverflow (x.1 / 2 ^ 32) ((k - 2 ^ 16) / 4) (32 + (k - 2 ^ 16) % 4)

def State.rampEvent (s : State) : Option Instr :=
  ((tkeys s.ramp ++ tkeys s.rampPrev).find? fun k => k < 2 ^ 20 && s.rampDue k).map .rampWindowRollover

/-- The first event that is due; with none, an issue slot. -/
def State.dueEvent (s : State) : Instr :=
  let first := fun (l : List (Unit → Option Instr)) => (l.findSome? fun f => f ()).getD .issueSlot
  first [fun _ => s.ctxs.findSome? fun c => s.ctxEvent c.1 c.2,
         fun _ => s.teams.findSome? fun t => s.teamEvent t.1,
         fun _ => s.groups.findSome? fun g => s.groupEvent g.1 g.2,
         fun _ => s.ops.findSome? fun o => s.opEvent o.1 o.2,
         fun _ => s.launches.findSome? fun l => s.launchEvent l.1 l.2,
         fun _ => s.overflowEvent,
         fun _ => s.rampEvent]

/-! ### Counting (R381) -/

def State.opsDone (s : State) : List (Nat × EngOp) := s.ops.filter fun o => o.2.isDone
/-- The bytes that a completed operation has moved: those of its rows, whatever its slot counts (R240). -/
def EngOp.moved (o : EngOp) : Nat :=
  if o.state == .done 4 then 0 else match o.kind with | .rows rs => (rs.map (·.len)).sum | _ => o.decl

/-- A count for each core event of R381 but the leaves, of one group's core: event, quadrant and number. What caches decide is a
free value (entry 7). -/
def State.groupCounts (old new : State) (i : Instr) (gid : Nat) (g : Group) : List (Nat × Option Nat × Nat) :=
  let q := some (gidG gid % 4)
  match tget gid new.groups with
  | none => []
  | some g' =>
    let mine := match old.cur with | some p => p.gid == gid | none => false
    -- a word whose own marker faults has issued all the same
    let issued := mine && g'.slices.map (·.pc) != g.slices.map (·.pc)
    let cur := old.cur.bind fun p => envOf old p
    let at' := cur.map fun e => (e.execLanes i.guard, e.execSlices i.guard)
    let lookups := match i, at' with
      | .vget _, some x | .vstn _, some x | .vsmp _, some x => x.1.length
      | .vleaf _, some x => x.2.length
      | _, _ => 0
    -- the group deposits the last quarter of its set's generation
    let full := match i, envOf new { gid := gid, mask := 255 } with
      | .mbld _, some e => g'.mbldCount != g.mbldCount && e.members.all (e.loaded g'.mbldCount)
      | _, _ => false
    let mma := match i with | .mma _ => true | _ => false
    let ray := match i with | .rtrc _ | .rcont _ => true | _ => false
    let done := (new.opsDone.filter fun o => o.2.gid == gid && o.2.engine == .tcu && match tget o.1 old.ops with | some x => !x.isDone | none => true)
    [(0x10, q, if mma && issued then 1 else 0),
     (0x11, q, g'.wrote - g.wrote),
     (0x12, none, (done.map fun o => o.2.moved).sum),
     (0x13, q, done.length),
     (0x14, q, if issued then lookups else 0),
     (0x15, q, if ray && issued then (Config.freeValue new.freeCtr).toNat % 2 ^ 16 else 0),
     (0x16, q, if mine then (Config.freeValue (new.freeCtr + 1)).toNat % 2 else 0),
     (0x17, q, if done == [] then 0 else (Config.freeValue (new.freeCtr + 2)).toNat % 2 ^ 16),
     (0x19, q, if full then 1 else 0),
     (0x1A, q, g'.errLog.length - g.errLog.length)]

/-- The bytes of memory that a CPYC combines with, none for another operation: it completes when its round applies (R245). -/
def TokOp.combined : TokOp → Option Nat
  | .cpyc ls _ ty _ _ _ _ => some (ls.length * (ty.bits / 8))
  | _ => none
/-- The counts of a team's round by the quadrant of each operation's group: the operations applied (0x18), and of these the CPYCs, which the
TCU completes (0x12, 0x13, entry 53). -/
def State.tallyRounds (s old : State) (lid : Nat) : State :=
  let sum := fun (st : State) (tid q : Nat) (f : TokOp → Nat) => match tget tid st.teams with
    | some x => (x.rounds.map fun (r : Round) => ((r.toks.filter fun y => gidG y.1 % 4 == q).map fun y => f y.2).sum).sum | none => 0
  let core := fun (t : Team) => match tget lid old.launches with | some l => t.team % max l.lr.l 1 | none => 0
  (old.teamsOf lid).foldl (fun s t => (List.range 4).foldl (fun s q =>
    let count := fun (s : State) (event : Nat) (quad : Option Nat) (f : TokOp → Nat) =>
      s.countEvent (lidCtx lid) (core t.2) event quad (sum old t.1 q f - sum s t.1 q f)
    count (count (count s 0x18 (some q) fun _ => 1) 0x12 none fun o => o.combined.getD 0) 0x13 (some q) fun o =>
      if o.combined.isSome then 1 else 0) s) s
/-- The lines of which a step has written versions (R222): lines outside the private ones whose bytes now differ for the first time from those
before the interval. -/
def State.versions (old new : State) (lid : Nat) : List Nat :=
  match tget lid old.launches, tget lid new.launches with
  | some a, some b =>
    let priv := (old.teamsOf lid).flatMap fun t => t.2.privMarks
    let keys := ((tkeys b.now.data ++ tkeys a.now.data).map (· / 128)).dedup
    keys.filter fun p => !priv.contains p && mread b.now.data (128 * p) 128 != mread a.nowAtClose.data (128 * p) 128 &&
      mread a.now.data (128 * p) 128 == mread a.nowAtClose.data (128 * p) 128
  | _, _ => []
/-- The keys of memory that a token-applied operation reads and writes. -/
def TokOp.keys : TokOp → List Nat
  | .cpyc ls .. => ls.map (·.2.1)
  | .mdrm es .. => es.map (·.1)
  | _ => []
/-- The poisoned lines that an operation has met in memory when it ends (R254), or that the next token-applied operations of a round meet. -/
def State.poisonMet (s : State) (i : Instr) : List Nat :=
  match i with
  | .copyComplete id => match tget id s.ops with
    | some o => ((s.opRanges o).filter fun r => !r.1).flatMap fun r => (memLines [r.2]).filterMap fun l =>
        match s.reachOf o false (max r.2.1 (128 * l)) with
        | .ok k => if (List.range 128).any fun j => r.2.1 ≤ 128 * l + j && 128 * l + j < r.2.1 + r.2.2 && (s.srcByte o (128 * l + j)).isNone
            then some (k / 128) else none
        | _ => none
    | none => []
  | .roundApply lid => match s.tokenRound lid with
    | some (l, tm, r) => ((r.toks.flatMap fun o => TokOp.keys o.2).filter fun a => (l.seenAt tm r).now.poison.contains (a / 64)).map (· / 128)
    | none => []
  | _ => []
/-- The context whose request an event of memory is. -/
def State.requester (s : State) (i : Instr) : Option Nat :=
  match i with
  | .copyComplete id => (tget id s.ops).map (·.cid)
  | .roundApply lid => some (lidCtx lid)
  | _ => none
/-- The MSC events: version lines (0x22) and poisoned lines (0x25) on their home die; hits, misses, spills and write-backs are what the caches
decide, which are free values (entry 7). -/
def State.tallyMsc (s old : State) (i : Instr) : State :=
  let cs : List (Nat × Ctx) := s.ctxs.filter fun c => c.2.state == .resident
  let home := fun (ls : List Nat) (d : Nat) => (ls.dedup.filter fun p => homeDie (128 * p) == d).length
  let free := fun (s : State) (c d e : Nat) => s.countEvent c d (0x20 + e) none
    ((Config.freeValue (s.freeCtr + 3 + 24 * c + 6 * d + e)).toNat % 2 ^ 16)
  let s := cs.foldl (fun s c => (List.range 4).foldl (fun s d => [0, 1, 3, 4].foldl (fun s e => free s c.1 d e) s) s) s
  match s.requester i with
  | none => s
  | some cid =>
    let vs := match i with | .roundApply lid => old.versions s lid | _ => []
    let ps := old.poisonMet i
    (List.range 4).foldl (fun s d => (s.countEvent cid d 0x22 none (home vs d)).countEvent cid d 0x25 none (home ps d)) s

/-- The counters after a step; no counter selects an event unless CNTC has configured it. -/
def tally (old : State) (i : Instr) (new : State) : State :=
  if new.counterCfg == [] then new
  else
    let one := fun (s : State) (g : Nat × Group) =>
      if 2 ^ 200 ≤ g.1 then s
      else (old.groupCounts new i g.1 g.2).foldl (fun s c => s.countEvent (gidCid g.1) (old.quadOf g.1).1 c.1 c.2.1 c.2.2) s
    let s := old.groups.foldl one new
    let s := match i with
      | .roundApply lid => s.tallyRounds old lid
      | _ => s
    { s.tallyMsc old i with freeCtr := s.freeCtr + 512 }

/-! ### What caches hold (R292, R341) -/

/-- The addresses that an operation of a TCU moves: its translations stand in the micro-cache afterwards. -/
def EngOp.pages (o : EngOp) : List Nat :=
  (o.kind.ranges.flatMap fun r => if r.2.2 == 0 || 2 ^ 55 ≤ r.2.1 then [] else pageStarts r.2.1 r.2.2).dedup
/-- The caches after a step: a word's walks leave the leaves they came to and the pages of those, and an operation of a core's TCU the pages it
moved. Nothing reads them for a result (R10). -/
def State.cached (old : State) (i : Instr) (new : State) : State :=
  match i with
  | .vget _ | .vstn _ | .vsmp _ | .vleaf _ | .vmrc _ => match old.cur.bind fun p => envOf old p with
    | some e => let hs := e.walkedLeaves i
        hs.dedup.foldl (fun s h => s.cachePage e.pcore e.cid h) (new.cacheLeaves e.pcore e.cid hs)
    | none => new
  | .copyComplete id => match tget id old.ops with
    | some o => if o.engine == .tcu && o.gid < 2 ^ 200 then
        match old.quadrant o.gid with
        | some c => o.pages.foldl (fun s a => s.cachePage (1024 + c.1) o.cid a) new
        | none => new
      else new
    | none => new
  | _ => new

/-- The outcome of a step with its counting, and the undo logs in the save areas (R362). -/
def tallied (old : State) (i : Instr) : Host.Outcome State Fault Refusal → Host.Outcome State Fault Refusal
  | .next s => .next (State.writeUndo old (tally old i (old.cached i s)))
  | o => o

end Sys2Proof.Machine
end

