-- ==== Sys2Proof/Machine/Step.lean ====
section
/-! DEFINITION. One step of the module: the word of the party that holds the issue slot; else the world's next input; else the first
event that is due (entry 1). -/

namespace Sys2Proof.Machine

def step (s : State) : Host.Outcome State Fault Refusal :=
  match s.cur with
  | some p =>
    match s.fetch p with
    | .inl i => slotted s p (some i) (tallied s i (exec i (s.fetched p)))
    | .inr s' => slotted s p none (.next s')
  | none =>
    match s.inputs with
    | i :: rest => tallied s i (exec i { s with inputs := rest })
    | [] => tallied s s.dueEvent (exec s.dueEvent s)

/-! ### A word placed where it is fetched next (entry 2) -/

/-- Where the placed program stands: its virtual address, and the key of that address. -/
def placedPc : Nat := 0x1000
def placedKey : Nat := physKey 0 1 (2 ^ 30 + placedPc)

/-- Page tables that map the first GiB: two directory entries and one PTE, readable, writable and executable. -/
def placedTables : List Host.Cell :=
  cells (physKey 0 1 0x1000) (leBytes 8 (0x2000 + 7)) ++ cells (physKey 0 1 0x2000) (leBytes 8 (0x3000 + 7)) ++
  cells (physKey 0 1 0x3000) (leBytes 8 (2 ^ 30 + 461))

/-- A launch of one team with one consumer group. -/
def placedLaunch (code : List Host.Cell) : Launch :=
  { lr := { entry := BitVec.ofNat 64 placedPc, rc := 16, tiles := 8, coop := true, scratch := 64, spill := 16, shadow := 64 },
    state := .eligible, code := { data := code } }

/-- The word is privileged: it runs on the control core (R56). -/
def placedCtl (w : Nat) : Bool := !bitOf w 62 && privilegedOps.contains (opcodeOf w)

/-- The state with a word where the next step fetches it: context 0 runs a launch of one group that stands at it, or, for a
privileged word, its control core does. -/
def State.withFetchWord (s : State) (nbits w : Nat) : State :=
  let w := w % 2 ^ nbits
  let code := cells placedKey (leBytes 8 w)
  let s := s.hWrite (MemW.ofCells (placedTables ++ code))
  let lid := lidOf 0 (2 ^ 16)
  let gid := if placedCtl w then ctlGid 0 else gidOf (tidOf lid 0) 0
  let g : Group := if placedCtl w then ctlGroup placedPc
    else { (placedLaunch []).newGroup 0 with ntiles := 8 }
  let s := s.putC 0 { state := .resident, f := { cores := 1, ptroot := 0x1000 }, coreMap := [0], launchN := 1 }
  let s := (s.putL lid (placedLaunch (code.filter fun c => c.2 != 0))).putT (tidOf lid 0) { team := 0 }
  { s.putG gid g with cur := some { gid := gid, mask := if placedCtl w then 1 else 255 }, inputs := [] }

end Sys2Proof.Machine
end

