-- ==== Sys2Proof/Safety.lean ====
section
/-! DEFINITION. The terms of the claims: when a word issues, what a word leaves in its group and in the module, when a word
traps, and the invariants. -/

namespace Sys2Proof.Machine

/-! ### A word that issues -/

/-- The checks that every word meets at issue, passed: in control code the word is one that control code accepts (R57); in team
code it is not privileged (R56) and its vector registers lie within the role budget (R16); a V-class word that will hold pending
results, in control code or with an executing lane, finds fewer than 32 words of its sub-gang that hold some (R47); and no source
register holds an uncorrectable error (R100). -/
def Ready (i : Instr) (e : Env) : Prop :=
  (if e.g.isCtl then i.controlOk = true else i.privileged = false ∧ i.overBudget e.g.budget = false) ∧
  (i.pends = true → (e.g.isCtl = true ∨ e.lanesFor i ≠ 0) → e.pending.length < 32) ∧ e.damaged i i.guard = none

/-- The party that holds the issue slot stands in `e`, and the word passes those checks. -/
def Issues (i : Instr) (s : State) (e : Env) : Prop :=
  (∃ p, s.cur = some p ∧ envOf { s with cur := none } p = some e) ∧ Ready i e

/-! ### What a word leaves -/

/-- Entries put into a store, in order. -/
def written {α : Type} [DecidableEq α] (d : α) (m : Sparse α) (ws : List (Nat × α)) : Sparse α :=
  ws.foldl (fun m w => sset d m w.1 w.2) m

/-- The change that a word makes to its group: register words by key (vector 32·r + lane, scalar 8·r + slice, mask number), a
change of each slice's flags, FMR, STATUS and stacks, new pending results, and the copies of special registers that it writes whole, whose damage
goes (R100; 32·code + slice). -/
structure Change where
  vw : List (Nat × W32) := []
  sw : List (Nat × W64) := []
  kw : List (Nat × W32) := []
  sl : Nat → Slice → Slice := fun _ x => x
  new : List Pend := []
  xw : List Nat := []

/-- One change after another that adds no pending result. -/
def Change.andThen (c d : Change) : Change :=
  { vw := c.vw ++ d.vw, sw := c.sw ++ d.sw, kw := c.kw ++ d.kw, sl := fun n x => d.sl n (c.sl n x), new := d.new,
    xw := c.xw ++ d.xw }

/-- A pending result without the register words that a later F-class word has written (R46). -/
def Pend.without (p : Pend) (c : Change) : Pend :=
  { p with vw := p.vw.filter fun w => !(c.vw.any fun x => x.1 == w.1), sw := p.sw.filter fun w => !(c.sw.any fun x => x.1 == w.1) }

/-- The group after a word with a change: the registers that it names hold the new words and no others change (R93, R94); pending
results lose those words (R46) and the word's own come last; the sub-gang's slices stand 8 bytes further (R32) and the other
slices where they were; nothing else of the group changes but its undo log (R362). -/
def Env.Left (e : Env) (c : Change) (g : Group) : Prop :=
  g.vreg = written 0 e.g.vreg c.vw ∧ g.sreg = written 0 e.g.sreg c.sw ∧ g.kreg = written 0 e.g.kreg c.kw ∧
  g.pend = e.g.pend.map (·.without c) ++ c.new ∧ g.nextPend = e.g.nextPend + c.new.length ∧
  g.badV = e.g.badV.filter (fun k => !(c.vw.any fun x => x.1 == k)) ∧
  g.badS = e.g.badS.filter (fun k => !(c.sw.any fun x => x.1 == k)) ∧
  g.badK = e.g.badK.filter (fun k => !(c.kw.any fun x => x.1 == k)) ∧
  g.badX = e.g.badX.filter (fun k => !c.xw.contains k) ∧
  (∀ n, g.slices[n]? = (e.g.slices[n]?).map fun x =>
    { c.sl n x with pc := if n ∈ slicesOf e.sub.mask then (c.sl n x).pc + 8 else (c.sl n x).pc }) ∧
  g.subs = e.g.subs.map (fun x => if x.mask == e.sub.mask then { x with park := .none, lastPc := e.pc } else x) ∧
  g = { e.g with vreg := g.vreg, sreg := g.sreg, kreg := g.kreg, pend := g.pend, nextPend := g.nextPend, badV := g.badV,
                 badS := g.badS, badK := g.badK, badX := g.badX, slices := g.slices, subs := g.subs, undo := g.undo }

/-- The marker of a word with S = 1 acts after the word's own effect (R44). -/
def Env.after (e : Env) (i : Instr) (s : State) : State := if i.marker then s.marker e.gid e.sub.mask else s

/-- A word answers a next state in which its group has a change, and nothing outside the group has changed: every byte of memory,
every other group, team, launch and context is as it was. -/
def Completes (i : Instr) (s : State) (e : Env) (c : Change) : Prop :=
  ∃ g, exec i s = .next (e.after i (e.s.putG e.gid g)) ∧ e.Left c g

/-- The state after a word whose effect is `t`: the slices of the sub-gang stand at the next word, the undo log has its entries
(R362), and the marker acts. -/
def Env.done (e : Env) (i : Instr) (t : State) : State :=
  e.after i (e.logWord i (t.modG e.gid fun g => (g.advance e.sub.mask).modSub e.sub.mask
    fun x => { x with park := .none, lastPc := e.pc }))

/-- A word has an effect: it answers a next state that is `t` with the program counters moved on, for a `t` that meets `P`. -/
def Effect (i : Instr) (s : State) (e : Env) (P : State → Prop) : Prop := ∃ t, exec i s = .next (e.done i t) ∧ P t

/-- The state after a control word whose effect is `t` with the program counters in it. -/
def Env.gone (e : Env) (i : Instr) (t : State) : State :=
  e.after i (e.logWord i (t.modG e.gid fun g => { g with subs := g.subs.map fun x =>
    if x.mask &&& e.sub.mask != 0 then { x with lastPc := e.pc } else x }))

/-- The group after a control word that agrees on `pc`: as `Env.Left`, with the sub-gang's slices at `pc`. -/
def Env.Went (e : Env) (c : Change) (pc : W64) (g : Group) : Prop :=
  g.vreg = e.g.vreg ∧ g.sreg = written 0 e.g.sreg c.sw ∧ g.pend = e.g.pend.map (·.without c) ∧
  g.badS = e.g.badS.filter (fun k => !(c.sw.any fun x => x.1 == k)) ∧
  (∀ n, g.slices[n]? = (e.g.slices[n]?).map fun x =>
    { c.sl n x with pc := if n ∈ slicesOf e.sub.mask then pc else (c.sl n x).pc }) ∧
  g.subs = e.g.subs.map (fun x => if x.mask == e.sub.mask then { x with park := .none } else x) ∧
  g = { e.g with sreg := g.sreg, pend := g.pend, badS := g.badS, slices := g.slices, subs := g.subs }

/-- A control word goes to `pc`. -/
def Goes (i : Instr) (s : State) (e : Env) (c : Change) (pc : W64) : Prop :=
  ∃ g, exec i s = .next (e.gone i (e.s.putG e.gid g)) ∧ e.Went c pc g

/-- A control word with PT = 1 parts its sub-gang, in a group that is otherwise `g0` (R148, R149), by the way of each slice (`Env.wayOf`): a
record of the sub-gang with the next depth and each slice's FMR; sub-gangs in its place, one for each way, not parked; each slice
at the end of its way. -/
def Parts (i : Instr) (s : State) (e : Env) (g0 : Group) (way : Nat → Way) : Prop :=
  ∃ (g : Group) (kids : List SubGang) (r : Record), exec i s = .next (e.gone i (e.s.putG e.gid g)) ∧
    g.recs = g0.recs ++ [r] ∧ r.s = e.sub.mask ∧ r.depth = g0.depthOf e.sub.mask + 1 ∧
    (∀ n ∈ slicesOf e.sub.mask, r.fmr[n]? = some (g0.slice n).fmr) ∧
    (∀ n, g.slices[n]? = (g0.slices[n]?).map fun x => if n ∈ slicesOf e.sub.mask then { x with pc := (way n).2 } else x) ∧
    g.subs = g0.subs.flatMap (fun x => if x.mask == e.sub.mask then kids else [x]) ∧
    (∀ k ∈ kids, k.park = .none ∧ k.lastPc = e.pc ∧ k.lvl.view = e.sub.lvl.view) ∧
    (∀ m ∈ slicesOf e.sub.mask, ∀ n ∈ slicesOf e.sub.mask,
      (∃ k ∈ kids, bitOf k.mask m = true ∧ bitOf k.mask n = true) ↔ way m = way n) ∧
    g = { g0 with recs := g.recs, slices := g.slices, subs := g.subs }

/-- LOOP's decrement (R152), in the live slices. -/
def Env.counted (e : Env) (st : Nat) : List (Nat × W64) :=
  e.live.map fun i => (8 * st + i, BitVec.ofNat 64 (e.g.sr st i + (2 ^ 64 - 1)))

/-! ### Results at places (R93) -/

/-- The words of a vector D of one register, or of two where the result has 64 bits (R94). -/
def vWords (d : Opd) (wide : Bool) (ps : List Nat) (val : Nat → Nat) : List (Nat × W32) :=
  match d with
  | .v n => ps.flatMap fun p => (32 * n.val + p, BitVec.ofNat 32 (val p)) ::
      (if wide then [(32 * (n.val + 1) + p, BitVec.ofNat 32 (val p / 2 ^ 32))] else [])
  | _ => []
/-- The words of a scalar D, zero-extended from 32 bits (R94). -/
def sWords (d : Opd) (wide : Bool) (ps : List Nat) (val : Nat → Nat) : List (Nat × W64) :=
  match d with
  | .s n => ps.map fun p => (8 * n.val + p / 4, BitVec.ofNat 64 (if wide then val p else low 32 (val p)))
  | _ => []

/-- STATUS bits raised at places, in each place's slice (R96). -/
def raises (ps : List Nat) (fl : Nat → Nat) (c : Nat) (x : Slice) : Slice :=
  { x with status := (ps.filter fun p => p / 4 == c).foldl (fun st p => st ||| BitVec.ofNat 32 (fl p)) x.status }

/-- An F-class result: a value and the flags that it raises at every place where D is computed. -/
def Env.result (e : Env) (k : Nat) (d : Opd) (wide : Bool) (f : Nat → Nat × Nat) : Change :=
  let ps := e.places k d
  { vw := vWords d wide ps fun p => (f p).1, sw := sWords d wide ps fun p => (f p).1, sl := raises ps fun p => (f p).2 }

/-- The same as a pending result of a V-class word (R44); with no place there is none. -/
def Env.pends (e : Env) (k : Nat) (d : Opd) (wide : Bool) (f : Nat → Nat × Nat) : Change :=
  let ps := e.places k d
  if ps = [] then {}
  else { new := [{ e.newPend d (pairN d wide) (sliceBits (e.exec k)) with
    idx := e.g.nextPend, vw := vWords d wide ps fun p => (f p).1, sw := sWords d wide ps fun p => (f p).1,
    flags := (ps.filter fun p => (f p).2 != 0).map fun p => (p, BitVec.ofNat 32 (f p).2) }] }

/-- Flags set in every executing slice. -/
def Env.sets (e : Env) (k : Nat) (fl : Nat → Flags5) (c : Nat) (x : Slice) : Slice :=
  if c ∈ e.execSlices k then
    { x with z := (fl c).z, n := (fl c).n, c := (fl c).c, v := (fl c).v, u := (fl c).u }
  else x

/-- A mask register: the bits of the sub-gang's lanes replaced (R95); k0 is not written (R42). -/
def Env.maskWrite (e : Env) (k : Nat) (x : Nat) : List (Nat × W32) :=
  if k = 0 then [] else [(k, BitVec.ofNat 32 ((e.g.kr k &&& (2 ^ 32 - 1 - laneMask e.sub.mask)) ||| (x &&& laneMask e.sub.mask)))]

/-- The same for an operand: only k1 to k7 are written. -/
def Env.maskTo (e : Env) (d : Opd) (x : Nat) : Change := match d with | .k n => { kw := e.maskWrite n x } | _ => {}

/-- The lanes of a list that meet a condition, as a mask. -/
def maskWhere (ls : List Nat) (p : Nat → Bool) : Nat := ls.foldl (fun m l => if p l then m + 2 ^ l else m) 0

/-! ### Traps and parks -/

/-- A word's fault in team code takes the group to its trap state and leaves everything else, with no effect of the word (R353):
the group is halted at the word with the record `r`, its team is trapped, and nothing else changes. -/
def Env.trapped (e : Env) (r : FaultRec) : State :=
  (e.s.modG e.gid fun g => { g with halted := true, faultRec := some r }).modT e.tid fun t =>
    { t with trapped := true, debugStop := t.debugStop || (r.code == 0x13 && bitOf e.ctx.f.debugCtl.toNat 0) }

/-- A control word's fault stops the control program and its context becomes FAULTED (R360), with a LOGS entry and an event (R400); a
CHECKPOINT that waited is answered INVALID (R392, entry 16). Its turn on its cores is over (R345). -/
def Env.stopped (e : Env) (code : Nat) : State :=
  let s := (e.s.passTurn e.cid).modC e.cid fun c => { c with state := .faulted }
  ({ s with errors := s.errors ++ [LogRec.fault e.cid code] }.report (.event e.cid .faulted code)).endCheckpoint e.cid

/-- A word raises a fault with a code, in team code. -/
def Traps (i : Instr) (s : State) (e : Env) (code : Nat) : Prop :=
  ∃ r : FaultRec, exec i s = .next (e.trapped r) ∧ r.code = code ∧ r.fpc = e.pc ∧ r.rpc = e.pc ∧ r.slice = lowest e.sub.mask

/-- A word raises a fault, with no effect of it: its group traps (R353), or its control program stops (R360). -/
def Halts (i : Instr) (s : State) (e : Env) (code : Nat) : Prop :=
  (e.g.isCtl = false → Traps i s e code) ∧ (e.g.isCtl = true → exec i s = .next (e.stopped code))
/-- The same for a fault whose trap record names the first failing lane, of a vector form, and the first refused byte (R197, R354). -/
def Refused (i : Instr) (s : State) (e : Env) (code lane addr : Nat) : Prop :=
  (e.g.isCtl = false → ∃ r : FaultRec, exec i s = .next (e.trapped r) ∧ r.code = code ∧ r.fpc = e.pc ∧ r.rpc = e.pc ∧
    r.slice = lowest e.sub.mask ∧ r.lane = lane ∧ r.addr = BitVec.ofNat 64 addr) ∧
  (e.g.isCtl = true → exec i s = .next (e.stopped code))
/-- The five words that reach memory by lanes and slices (R196). -/
inductive Access where | ld | st | atom | red | cas
  deriving DecidableEq, Repr
def Access.word : Access → MWord → Instr
  | .ld => .ld | .st => .st | .atom => .atom | .red => .red | .cas => .cas
def Access.writes (a : Access) : Bool := a != .ld
def Access.reads (a : Access) : Bool := a == .ld || a == .atom || a == .cas
/-- Whether damage refuses what it reads at a place (R203). -/
def Env.damagedAt (e : Env) (n : Nat) (x : Place) : Bool :=
  match x.loc with
  | .own off => e.ownBad off n
  | .peer img off => img.bad off n
  | .mem k => (hImage e.s).bad k n
  | .block .. => false
/-- The shadow lines, and the lines of contributions, that it takes for some places (R202, R214). -/
def Access.takes (a : Access) (e : Env) (f : MWord) (ps : List Place) : List Nat × Nat :=
  let n := Width.bytes f.width
  match a with
  | .ld => ([], 0)
  | .st => (e.placeLines n ps, 0)
  | .atom => e.rmwLines f.sx true n ps
  | .red => e.rmwLines false true n ps
  | .cas => e.rmwLines f.sx false n ps

/-- A word parks its sub-gang, which issued nothing else (R26). -/
def Env.parked (e : Env) (i : Instr) (p : Park) (t : State) : State :=
  t.modG e.gid fun g => g.modSub e.sub.mask fun x => { x with park := p, lastPc := e.pc, mark := i.marker }

/-- What the join of some slices makes of a group (R155, R156). While a pending result of theirs has not returned nothing happens; where one has
failed its sub-gang takes the fault at the word at which it stands (R48, R49); else the pending results are written, and the group `w` that this
leaves becomes one that meets `P w`. -/
def JoinsOnce (s t : State) (gid mask : Nat) (g : Group) (P : Group → Group → Prop) : Prop :=
  (g.allReturned mask = false → t = s) ∧
  (g.allReturned mask = true →
    (∀ l r x, g.failedLane mask = some (l, r) → (g.subs.find? fun x => bitOf x.mask (l / 4)) = some x →
      t = faultGroup s gid x.mask { r with rpc := g.pcOf x.mask, slice := lowest x.mask, marker := true }) ∧
    (g.failedLane mask = none → ∃ g', t = s.putG gid g' ∧ P (g.writePendLogged mask (s.undoOn gid)) g'))

/-- Nothing outside a group has changed. -/
def State.onlyGroup (s t : State) (gid : Nat) : Prop :=
  t = { s with groups := t.groups } ∧ ∀ k, k ≠ gid → tget k t.groups = tget k s.groups

/-- A group whose sub-gang's level of writes is `lvl` and whose other sub-gangs are as they were, with the lines of R214. -/
def Env.levelled (e : Env) (lvl : SubGang → GLevel) (lines : List Nat) (contrib : Nat) : Group :=
  { e.g with lines := lines, contrib := contrib,
             subs := e.g.subs.map fun x => if x.mask == e.sub.mask then { x with lvl := lvl x } else x }

/-- The pending result of a word that gives each executing lane some words from vD upward, and flags (R44, R297). -/
def Env.lanePend (e : Env) (f : RWord) (nreg : Nat) (ws : Nat → List Nat) (fl : Nat → Nat) : Pend :=
  { e.newPend f.d nreg (sliceBits (e.exec f.k)) with
    idx := e.g.nextPend,
    vw := (e.execLanes f.k).flatMap fun l => (ws l).zipIdx.map fun w =>
      (32 * ((match f.d with | .v r => r.val | _ => 0) + w.2) + l, BitVec.ofNat 32 w.1),
    flags := ((e.execLanes f.k).filter fun l => fl l != 0).map fun l => (l, BitVec.ofNat 32 (fl l)) }
/-- The change that leaves it; none without an executing lane. -/
def Env.laneChange (e : Env) (f : RWord) (nreg : Nat) (ws : Nat → List Nat) (fl : Nat → Nat) : Change :=
  if e.execLanes f.k = [] then {} else { new := [e.lanePend f nreg ws fl] }

/-- The pending result of a scalar word. -/
def Env.scalarResult (e : Env) (f : RWord) (x : Nat) : Pend :=
  { e.newPend f.d 1 (sliceBits (e.exec f.k)) with
    idx := e.g.nextPend,
    sw := match f.d with | .s r => (e.execSlices f.k).map fun c => (8 * r.val + c, BitVec.ofNat 64 x) | _ => [] }

/-- What an atomic word does place by place, in ascending order of lanes or slices, without the machine (R206, R207, R209, R434): the old
values, the bytes of the sub-gang's view, and its team. Ring bytes are read and written in place, an ordered word at the ordered value, which
the view comes to see, and another in the view; `new` answers what a place writes over an old value. -/
def Env.inTurn (e : Env) (ordered : Bool) (n : Nat) (new : Nat → Nat → Option Nat) (ps : List Place) :
    List (Nat × Nat) × Memory × Team :=
  ps.foldl (fun acc x =>
    let (vals, view, tm) := acc
    let old := if x.inRing e then mnat tm.data.data x.off n else if ordered then tm.orderedRead x.off n else mnat view x.off n
    let put := fun (m : Memory) => match new x.p old with | some v => mwrite m x.off (leBytes n v) | none => m
    (vals ++ [(x.p, old)],
     if x.inRing e then view else put view,
     if x.inRing e then { tm with data := { tm.data with data := put tm.data.data } }
     else if ordered then tm.orderedWrite e.gid x.off n ((new x.p old).getD old) else tm)) ([], e.sub.lvl.view.data, e.team)

/-- A word that has an executing lane, or is control code's: it executes once for its group. -/
def Env.acts (e : Env) (k : Nat) : Prop := e.exec k ≠ 0 ∨ e.g.isCtl = true

/-! ### Invariants -/

/-- The memory of the module is in its canonical form. -/
def State.Inv (s : State) : Prop := Memory.wf s.mem = true

end Sys2Proof.Machine
end

