-- ==== Sys2Proof/Certificates/Slice0/Obligations.lean ====
section
/-! DEFINITION. The statements for the provers. Every word's statement is about a word that issues (`Issues`): the party that
holds the issue slot passes the checks before issue. -/

section
open Sys2Proof Sys2Proof.Machine

/-! ### Words of registers -/

/-- R102 to R107: NOP changes no register. MOV, SEL, PRMT, MOVI and MOVH write their value at every executing place of D. SHFL
takes each lane's A from the lane that R105 names; RDLN reads and WRLN writes one lane for each executing slice. The lane
words complete where every lane they name lies in the issuing sub-gang. -/
def Obligations.MovesComplete : Prop := ∀ (s : State) (e : Env),
  (∀ f, Issues (.nop f) s e → Completes (.nop f) s e {}) ∧
  (∀ f, Issues (.mov f) s e →
    Completes (.mov f) s e (e.result f.k f.d (f.ty.bits == 64) fun p => (e.rd f.ty p f.a, 0))) ∧
  (∀ f, Issues (.sel f) s e → Completes (.sel f) s e (e.result f.k f.d (f.ty.bits == 64) fun l =>
    (if bitOf (e.rd32 l f.c) l then e.rd f.ty l f.a else e.rd f.ty l f.b, 0))) ∧
  (∀ f, Issues (.prmt f) s e →
    Completes (.prmt f) s e (e.result f.k f.d false fun p => (prmt (e.rd32 p f.a) (e.rd32 p f.b) (e.rd32 p f.c), 0))) ∧
  (∀ f, Issues (.movi f) s e →
    Completes (.movi f) s e (e.result f.k f.d (f.d.isS || f.modi == 3) fun _ =>
      (if f.modi = 3 then f.imm.toNat * 2 ^ 32
       else if f.modi = 1 ∧ f.d.isS = true then sext 32 64 f.imm.toNat else f.imm.toNat, 0))) ∧
  (∀ f, Issues (.movh f) s e →
    Completes (.movh f) s e (e.result f.k f.d true fun p => (e.rd64 p f.d % 2 ^ 32 + f.imm.toNat * 2 ^ 32, 0))) ∧
  (∀ f, Issues (.shfl f) s e →
    (∀ l ∈ e.execLanes f.k, ∀ j, shflSrc f.m (e.rd32 l f.b) l = some j → e.hasLane j = true) →
    Completes (.shfl f) s e (e.result f.k f.d (f.ty.bits == 64) fun l =>
      (match shflSrc f.m (e.rd32 l f.b) l with | some j => e.rd f.ty j f.a | none => e.rd f.ty l f.a, 0))) ∧
  (∀ f, Issues (.rdln f) s e →
    (∀ c ∈ e.execSlices f.k, e.hasLane (e.rd64 (4 * c) f.b % 32) = true) →
    Completes (.rdln f) s e (e.result f.k f.d true fun p => (e.rd f.ty (e.rd64 (4 * (p / 4)) f.b % 32) f.a, 0))) ∧
  (∀ f, Issues (.wrln f) s e →
    (∀ c ∈ e.execSlices f.k, e.hasLane (e.rd64 (4 * c) f.b % 32) = true) →
    Completes (.wrln f) s e
      { vw := (e.execSlices f.k).flatMap fun c => vWords f.d (f.ty.bits == 64) [e.rd64 (4 * c) f.b % 32] fun _ => e.rd64 (4 * c) f.a,
        sw := (e.execSlices f.k).flatMap fun c => sWords f.d (f.ty.bits == 64) [e.rd64 (4 * c) f.b % 32] fun _ => e.rd64 (4 * c) f.a })

/-- R105: a lane word that names a lane outside the issuing sub-gang raises fault 0x03 and writes nothing. R117 and R143: an FMR
value that R82 or R98 does not allow raises fault 0x11, and a half of the gang that executes in part raises 0x03; neither
writes anything. -/
def Obligations.RegisterWordsTrap : Prop :=
  (∀ (s : State) (e : Env), e.g.isCtl = false →
    (∀ f l j, Issues (.shfl f) s e → l ∈ e.execLanes f.k → shflSrc f.m (e.rd32 l f.b) l = some j → e.hasLane j = false →
      Traps (.shfl f) s e 0x03) ∧
    (∀ f c, Issues (.rdln f) s e → c ∈ e.execSlices f.k → e.hasLane (e.rd64 (4 * c) f.b % 32) = false → Traps (.rdln f) s e 0x03) ∧
    (∀ f c, Issues (.wrln f) s e → c ∈ e.execSlices f.k → e.hasLane (e.rd64 (4 * c) f.b % 32) = false → Traps (.wrln f) s e 0x03)) ∧
  (∀ (s : State) (e : Env), e.g.isCtl = false →
    (∀ f c, Issues (.sfmt f) s e → c ∈ e.execSlices f.k →
      fmrValid (if f.modi = 1 then e.rd64 (4 * c) f.a % 2 ^ 16 else f.imm.toNat) = false → Traps (.sfmt f) s e 0x11) ∧
    (∀ f, Issues (.bpack f) s e → halves (e.exec f.k) = none → Traps (.bpack f) s e 0x03) ∧
    (∀ f, Issues (.bunpk f) s e → halves (e.exec f.k) = none → Traps (.bunpk f) s e 0x03))

/-- R108: each element of D is the exact integer result of the elements of A, B and C, narrowed to the element as R76 says, with
the operands negated where the word asks; IADD and ISUB with `.f` also set Z, N, C and V of every executing slice as R99
says. R111: LEA adds to A the index B shifted by MODA. R114: the immediate words take the sign-extended immediate. -/
def Obligations.IntegerArithmeticCompletes : Prop := ∀ (s : State) (e : Env),
  (∀ f, Issues (.iadd f) s e → f.lo ≠ 1 → Completes (.iadd f) s e (e.result f.k f.d (f.ty.bits == 64) fun p =>
    intElems f.ty f.sat (fun x => negIf f.negA (x 0) + negIf f.negB (x 1)) [e.rd f.ty p f.a, e.rd f.ty p f.b, e.rd f.ty p f.c])) ∧
  (∀ f, Issues (.iadd f) s e → f.lo = 1 → Completes (.iadd f) s e
    ((e.result f.k f.d (f.ty.bits == 64) fun p => intElems f.ty false (fun x => x 0 + x 1) [e.rd f.ty p f.a, e.rd f.ty p f.b]).andThen
      { sl := e.sets f.k fun c => addFlags f.ty.bits (e.rd f.ty (4 * c) f.a) (e.rd f.ty (4 * c) f.b) })) ∧
  (∀ f, Issues (.isub f) s e → f.lo ≠ 1 → Completes (.isub f) s e (e.result f.k f.d (f.ty.bits == 64) fun p =>
    intElems f.ty f.sat (fun x => x 0 - x 1) [e.rd f.ty p f.a, e.rd f.ty p f.b, e.rd f.ty p f.c])) ∧
  (∀ f, Issues (.isub f) s e → f.lo = 1 → Completes (.isub f) s e
    ((e.result f.k f.d (f.ty.bits == 64) fun p => intElems f.ty false (fun x => x 0 - x 1) [e.rd f.ty p f.a, e.rd f.ty p f.b]).andThen
      { sl := e.sets f.k fun c => subFlags f.ty.bits (e.rd f.ty (4 * c) f.a) (e.rd f.ty (4 * c) f.b) })) ∧
  (∀ f, Issues (.imul f) s e → Completes (.imul f) s e (e.result f.k f.d (f.ty.bits == 64) fun p =>
    intElems f.ty f.sat (fun x => x 0 * x 1) [e.rd f.ty p f.a, e.rd f.ty p f.b, e.rd f.ty p f.c])) ∧
  (∀ f, Issues (.imulh f) s e → Completes (.imulh f) s e (e.result f.k f.d (f.ty.bits == 64) fun p =>
    intElems f.ty false (fun x => (x 0 * x 1) / ((2 ^ f.ty.ebits : Nat) : Int)) [e.rd f.ty p f.a, e.rd f.ty p f.b, e.rd f.ty p f.c])) ∧
  (∀ f, Issues (.imad f) s e → Completes (.imad f) s e (e.result f.k f.d (f.ty.bits == 64) fun p =>
    intElems f.ty f.sat (fun x => negIf f.negA (x 0) * negIf f.negB (x 1) + negIf f.negC (x 2))
      [e.rd f.ty p f.a, e.rd f.ty p f.b, e.rd f.ty p f.c])) ∧
  (∀ f, Issues (.imin f) s e → Completes (.imin f) s e (e.result f.k f.d (f.ty.bits == 64) fun p =>
    intElems f.ty false (fun x => min (x 0) (x 1)) [e.rd f.ty p f.a, e.rd f.ty p f.b, e.rd f.ty p f.c])) ∧
  (∀ f, Issues (.imax f) s e → Completes (.imax f) s e (e.result f.k f.d (f.ty.bits == 64) fun p =>
    intElems f.ty false (fun x => max (x 0) (x 1)) [e.rd f.ty p f.a, e.rd f.ty p f.b, e.rd f.ty p f.c])) ∧
  (∀ f, Issues (.iabs f) s e → Completes (.iabs f) s e (e.result f.k f.d (f.ty.bits == 64) fun p =>
    intElems f.ty f.sat (fun x => ((x 0).natAbs : Int)) [e.rd f.ty p f.a, e.rd f.ty p f.b, e.rd f.ty p f.c])) ∧
  (∀ f, Issues (.ineg f) s e → Completes (.ineg f) s e (e.result f.k f.d (f.ty.bits == 64) fun p =>
    intElems f.ty f.sat (fun x => -(x 0)) [e.rd f.ty p f.a, e.rd f.ty p f.b, e.rd f.ty p f.c])) ∧
  (∀ f, Issues (.lea f) s e → Completes (.lea f) s e (e.result f.k f.d true fun p =>
    ((e.rd64 p f.a + (if f.b.isV then sext 32 64 (e.rd32 p f.b) else e.rd64 p f.b) * 2 ^ f.m.val) % 2 ^ 64, 0))) ∧
  (∀ f : IWord, Issues (.iaddi f) s e → Completes (.iaddi f) s e
    ((e.result f.k f.d (f.iw == 64) fun p => ((e.rdW f.iw p f.a + sext 32 f.iw f.imm.toNat) % 2 ^ f.iw, 0)).andThen
      { sl := if f.modi.val / 4 % 2 = 1 then e.sets f.k fun c => addFlags f.iw (e.rdW f.iw (4 * c) f.a) (sext 32 f.iw f.imm.toNat)
              else fun _ x => x })) ∧
  (∀ f : IWord, Issues (.imuli f) s e → Completes (.imuli f) s e
    (e.result f.k f.d (f.iw == 64) fun p => ((e.rdW f.iw p f.a * sext 32 f.iw f.imm.toNat) % 2 ^ f.iw, 0)))

/-- R109 and R110: the logic words on the bits of A and B, complemented where the word asks; shifts and rotations by B modulo the
width; counts, reversal and bit fields; R114 the immediate forms; R115 KPOP and KFFS. -/
def Obligations.LogicAndShiftsComplete : Prop := ∀ (s : State) (e : Env),
  (∀ f, Issues (.and f) s e → Completes (.and f) s e (e.result f.k f.d (f.ty.bits == 64) fun p =>
    (complIf f.negA f.ty.bits (e.rd f.ty p f.a) &&& complIf f.negB f.ty.bits (e.rd f.ty p f.b), 0))) ∧
  (∀ f, Issues (.or f) s e → Completes (.or f) s e (e.result f.k f.d (f.ty.bits == 64) fun p =>
    (complIf f.negA f.ty.bits (e.rd f.ty p f.a) ||| complIf f.negB f.ty.bits (e.rd f.ty p f.b), 0))) ∧
  (∀ f, Issues (.xor f) s e → Completes (.xor f) s e (e.result f.k f.d (f.ty.bits == 64) fun p =>
    (complIf f.negA f.ty.bits (e.rd f.ty p f.a) ^^^ complIf f.negB f.ty.bits (e.rd f.ty p f.b), 0))) ∧
  (∀ f, Issues (.not f) s e → Completes (.not f) s e (e.result f.k f.d (f.ty.bits == 64) fun p =>
    (2 ^ f.ty.bits - 1 - e.rd f.ty p f.a % 2 ^ f.ty.bits, 0))) ∧
  (∀ f, Issues (.shl f) s e → Completes (.shl f) s e (e.result f.k f.d (f.ty.bits == 64) fun p =>
    (e.rd f.ty p f.a * 2 ^ (e.rd f.ty p f.b % f.ty.bits) % 2 ^ f.ty.bits, 0))) ∧
  (∀ f, Issues (.shr f) s e → Completes (.shr f) s e (e.result f.k f.d (f.ty.bits == 64) fun p =>
    (e.rd f.ty p f.a / 2 ^ (e.rd f.ty p f.b % f.ty.bits), 0))) ∧
  (∀ f, Issues (.sar f) s e → Completes (.sar f) s e (e.result f.k f.d (f.ty.bits == 64) fun p =>
    (sar f.ty.bits (e.rd f.ty p f.a) (e.rd f.ty p f.b % f.ty.bits), 0))) ∧
  (∀ f, Issues (.rot f) s e → Completes (.rot f) s e (e.result f.k f.d (f.ty.bits == 64) fun p =>
    (rotl f.ty.bits (e.rd f.ty p f.a) (e.rd f.ty p f.b % f.ty.bits), 0))) ∧
  (∀ f, Issues (.popc f) s e → Completes (.popc f) s e (e.result f.k f.d (f.ty.bits == 64) fun p =>
    (popc f.ty.bits (e.rd f.ty p f.a), 0))) ∧
  (∀ f, Issues (.clz f) s e → Completes (.clz f) s e (e.result f.k f.d (f.ty.bits == 64) fun p =>
    (clz f.ty.bits (e.rd f.ty p f.a), 0))) ∧
  (∀ f, Issues (.brev f) s e → Completes (.brev f) s e (e.result f.k f.d (f.ty.bits == 64) fun p =>
    (brev f.ty.bits (e.rd f.ty p f.a), 0))) ∧
  (∀ f, Issues (.bfx f) s e → Completes (.bfx f) s e (e.result f.k f.d (f.ty.bits == 64) fun p =>
    (bfx f.ty.signed f.ty.bits (e.rd f.ty p f.a) (e.rd32 p f.b % 256) (min (e.rd32 p f.c % 256) f.ty.bits), 0))) ∧
  (∀ f, Issues (.bfi f) s e → Completes (.bfi f) s e (e.result f.k f.d (f.ty.bits == 64) fun p =>
    (bfi f.ty.bits (e.rd f.ty p f.d) (e.rd f.ty p f.a) (e.rd32 p f.b % 256) (min (e.rd32 p f.c % 256) f.ty.bits), 0))) ∧
  (∀ f : IWord, Issues (.andi f) s e → Completes (.andi f) s e (e.result f.k f.d (f.iw == 64) fun p =>
    (e.rdW f.iw p f.a &&& (if f.modi = 3 then sext 32 64 f.imm.toNat else f.imm.toNat), 0))) ∧
  (∀ f : IWord, Issues (.ori f) s e → Completes (.ori f) s e (e.result f.k f.d (f.iw == 64) fun p =>
    (e.rdW f.iw p f.a ||| (if f.modi = 3 then sext 32 64 f.imm.toNat else f.imm.toNat), 0))) ∧
  (∀ f : IWord, Issues (.xori f) s e → Completes (.xori f) s e (e.result f.k f.d (f.iw == 64) fun p =>
    (e.rdW f.iw p f.a ^^^ (if f.modi = 3 then sext 32 64 f.imm.toNat else f.imm.toNat), 0))) ∧
  (∀ f : IWord, Issues (.shli f) s e → Completes (.shli f) s e (e.result f.k f.d (f.iw == 64) fun p =>
    (e.rdW f.iw p f.a * 2 ^ f.imm.toNat % 2 ^ f.iw, 0))) ∧
  (∀ f : IWord, Issues (.shri f) s e → Completes (.shri f) s e (e.result f.k f.d (f.iw == 64) fun p =>
    (if f.modi.val / 2 % 2 = 1 then sar f.iw (e.rdW f.iw p f.a) f.imm.toNat else e.rdW f.iw p f.a / 2 ^ f.imm.toNat, 0))) ∧
  (∀ f, Issues (.kpop f) s e → Completes (.kpop f) s e (e.result f.k f.d false fun p =>
    (popc 32 (if f.m = 1 then fld (e.mask f.a) (p / 4 * 4) 4 else e.mask f.a), 0))) ∧
  (∀ f, Issues (.kffs f) s e → Completes (.kffs f) s e (e.result f.k f.d false fun _ =>
    (((List.range 32).find? (bitOf (e.mask f.a))).getD 32, 0)))

/-- R112, R113, R126 and R127: with a mask D a comparison writes its truth in the bits of the sub-gang's lanes; otherwise it sets the flags
of every executing slice, as R99 gives them for A − B and R127 for a floating-point comparison. A floating-point comparison raises NV
where R126 says. R115: the mask words replace the bits of the sub-gang's lanes in D and leave the other bits; KMOV moves between masks,
scalars and vectors; KSET writes the executing lanes. k0 is not written. That KMOV kD, sA takes the bits of every slice of the
sub-gang, empty ones too, is the model's reading (log entry 12). -/
def Obligations.ComparisonsAndMasksComplete : Prop :=
  (∀ (s : State) (e : Env),
    (∀ f (n : Fin 8), f.d = .k n → Issues (.icmp f) s e → Completes (.icmp f) s e
      { kw := e.maskWrite n (maskWhere (e.execLanes f.k) fun l => intCond f.lo f.ty.bits (e.rd f.ty l f.a) (e.rd f.ty l f.b)) }) ∧
    (∀ f : RWord, (∀ n, f.d ≠ .k n) → Issues (.icmp f) s e → Completes (.icmp f) s e
      { sl := e.sets f.k fun c => subFlags f.ty.bits (e.rd f.ty (4 * c) f.a) (e.rd f.ty (4 * c) f.b) }) ∧
    (∀ f (n : Fin 8), f.d = .k n → Issues (.icmpi f) s e → Completes (.icmpi f) s e
      { kw := e.maskWrite n (maskWhere (e.execLanes f.k) fun l =>
          intCond (f.imm.toNat / 2 ^ 28) f.iw (e.rdW f.iw l f.a) (sext 28 f.iw (f.imm.toNat % 2 ^ 28))) }) ∧
    (∀ f : IWord, (∀ n, f.d ≠ .k n) → Issues (.icmpi f) s e → Completes (.icmpi f) s e
      { sl := e.sets f.k fun c => subFlags f.iw (e.rdW f.iw (4 * c) f.a) (sext 28 f.iw (f.imm.toNat % 2 ^ 28)) }) ∧
    (∀ f (n : Fin 8), f.d = .k n → Issues (.fcmp f) s e →
      let v := fun (neg : Bool) (o : Opd) l => unpackFp (fpFmt f.ty) (pre (fpFmt f.ty) false neg (e.rd f.ty l o))
      Completes (.fcmp f) s e
        { kw := e.maskWrite n (maskWhere (e.execLanes f.k) fun l => (fpCond f.lo (v f.negA f.a l) (v f.negB f.b l)).1),
          sl := raises (e.execLanes f.k) fun l => if (fpCond f.lo (v f.negA f.a l) (v f.negB f.b l)).2 then fNV else 0 }) ∧
    (∀ f : RWord, (∀ n, f.d ≠ .k n) → Issues (.fcmp f) s e →
      let v := fun (neg : Bool) (o : Opd) c => unpackFp (fpFmt f.ty) (pre (fpFmt f.ty) false neg (e.rd f.ty (4 * c) o))
      Completes (.fcmp f) s e
        { sl := fun c x => if c ∈ e.execSlices f.k then
            let r := fcmpFlags (cmpFp (v f.negA f.a c) (v f.negB f.b c))
            { x with z := r.z, n := r.n, c := r.c, v := r.v, u := r.u,
                     status := if (v f.negA f.a c).isSnan || (v f.negB f.b c).isSnan then x.status ||| BitVec.ofNat 32 fNV else x.status }
          else x })) ∧
  (∀ (s : State) (e : Env),
    (∀ f, Issues (.kand f) s e → Completes (.kand f) s e (e.maskTo f.d (e.mask f.a &&& e.mask f.b))) ∧
    (∀ f, Issues (.kor f) s e → Completes (.kor f) s e (e.maskTo f.d (e.mask f.a ||| e.mask f.b))) ∧
    (∀ f, Issues (.kxor f) s e → Completes (.kxor f) s e (e.maskTo f.d (e.mask f.a ^^^ e.mask f.b))) ∧
    (∀ f, Issues (.knot f) s e → Completes (.knot f) s e (e.maskTo f.d (2 ^ 32 - 1 - e.mask f.a % 2 ^ 32))) ∧
    (∀ f, Issues (.kset f) s e → Completes (.kset f) s e (e.maskTo f.d (e.exec f.k))) ∧
    (∀ f n r, f.d = .k n → f.a = .v r → Issues (.kmov f) s e →
      Completes (.kmov f) s e (e.maskTo f.d (maskWhere (e.execLanes f.k) fun l => e.rd32 l f.a != 0))) ∧
    (∀ f n (r : Fin 64), f.d = .k n → f.a = .s r → Issues (.kmov f) s e →
      Completes (.kmov f) s e (e.maskTo f.d ((slicesOf e.sub.mask).foldl (fun m c => m + fld (e.g.sr r c) (4 * c) 4 * 2 ^ (4 * c)) 0))) ∧
    (∀ f n, f.d = .k n → f.a.isMask = true → Issues (.kmov f) s e → Completes (.kmov f) s e (e.maskTo f.d (e.mask f.a))) ∧
    (∀ f : RWord, (∀ n, f.d ≠ .k n) → Issues (.kmov f) s e → Completes (.kmov f) s e (e.result f.k f.d false fun _ => (e.mask f.a, 0))))

/-- R116: PACK narrows and UNPK widens elements. R117: SFMT writes FMR of every executing slice with a value that R82 and R98 allow.
R118: CLRST returns STATUS and clears the bits of A in every executing slice. R143: BPACK and BUNPK work on the halves of
the gang whose lanes all execute, and complete where no half executes in part. -/
def Obligations.PackingAndStatusComplete : Prop := ∀ (s : State) (e : Env),
  (∀ f, Issues (.pack f) s e →
    Completes (.pack f) s e (e.result f.k f.d false fun p => pack f.ty f.sat (e.rd32 p f.a) (e.rd32 p f.b))) ∧
  (∀ f, Issues (.unpk f) s e → Completes (.unpk f) s e (e.result f.k f.d false fun p =>
    (if f.ty.signed then sext f.ty.ebits 32 (elem f.ty.ebits f.m (e.rd32 p f.a)) else elem f.ty.ebits f.m (e.rd32 p f.a), 0))) ∧
  (∀ f, Issues (.sfmt f) s e →
    let v := fun c => if f.modi = 1 then e.rd64 (4 * c) f.a % 2 ^ 16 else f.imm.toNat
    (∀ c ∈ e.execSlices f.k, fmrValid (v c) = true) →
    Completes (.sfmt f) s e
      { sl := fun c x => if c ∈ e.execSlices f.k then { x with fmr := BitVec.ofNat 16 (v c) } else x,
        xw := (e.execSlices f.k).map (32 * Special.fmr.code + ·) }) ∧
  (∀ f, Issues (.clrst f) s e → Completes (.clrst f) s e
    ((e.result f.k f.d true fun _ => (e.status, 0)).andThen
      { sl := fun c x => if c ∈ e.execSlices f.k then
          { x with status := x.status &&& ~~~ (BitVec.ofNat 32 (e.rd64 (4 * c) f.a)) } else x })) ∧
  (∀ f hs, Issues (.bpack f) s e → halves (e.exec f.k) = some hs →
    let blk := fun h => sbEncode (sbM f.m) ((List.range 16).map fun i => unpackFp f32 (e.rd32 (16 * h + i) f.a))
    Completes (.bpack f) s e
      { vw := hs.flatMap fun h => vWords f.d false ((List.range 16).map (16 * h + ·)) fun p => fld (blk h).1 (32 * (p - 16 * h)) 32,
        sw := hs.flatMap fun h => sWords f.d false ((List.range 16).map (16 * h + ·)) fun p => fld (blk h).1 (32 * (p - 16 * h)) 32,
        sl := raises (hs.map (16 * ·)) fun p => (blk (p / 16)).2 }) ∧
  (∀ f hs, Issues (.bunpk f) s e → halves (e.exec f.k) = some hs →
    let blk := fun h => (List.range 5).foldl (fun b w => b + e.rd32 (16 * h + w) f.a * 2 ^ (32 * w)) 0
    let val := fun h p => (packFp f32 .rne false (sbElem (sbM f.m) (blk h) (p - 16 * h))).1
    Completes (.bunpk f) s e
      { vw := hs.flatMap fun h => vWords f.d false ((List.range 16).map (16 * h + ·)) (val h),
        sw := hs.flatMap fun h => sWords f.d false ((List.range 16).map (16 * h + ·)) (val h) })

/-- R121 to R142: the floating-point words give the value that the chapter's functions give of the operands after Pre(), rounded
once, with the flags that the rounding raises. -/
def Obligations.FloatingPointCompletes : Prop := ∀ (s : State) (e : Env),
  (∀ f, Issues (.fadd f) s e → Completes (.fadd f) s e (e.result f.k f.d (f.ty.bits == 64) fun p =>
    addFp (fpFmt f.ty) f.rnd f.sat (e.fA f p) (e.fB f p))) ∧
  (∀ f, Issues (.fsub f) s e → Completes (.fsub f) s e (e.result f.k f.d (f.ty.bits == 64) fun p =>
    addFp (fpFmt f.ty) f.rnd f.sat (e.fA f p) (FV.flip (e.fB f p)))) ∧
  (∀ f, Issues (.fmul f) s e → Completes (.fmul f) s e (e.result f.k f.d (f.ty.bits == 64) fun p =>
    mulFp (fpFmt f.ty) f.rnd f.sat (e.fA f p) (e.fB f p))) ∧
  (∀ f, Issues (.ffma f) s e → Completes (.ffma f) s e (e.result f.k f.d (f.ty.bits == 64) fun p =>
    dotFp (fpFmt f.ty) f.rnd f.sat (e.fC f p) [(e.fA f p, e.fB f p)])) ∧
  (∀ f, Issues (.fmin f) s e → Completes (.fmin f) s e (e.result f.k f.d (f.ty.bits == 64) fun p =>
    minMaxFp (fpFmt f.ty) false (e.pA f p) (e.pB f p))) ∧
  (∀ f, Issues (.fmax f) s e → Completes (.fmax f) s e (e.result f.k f.d (f.ty.bits == 64) fun p =>
    minMaxFp (fpFmt f.ty) true (e.pA f p) (e.pB f p))) ∧
  (∀ f, Issues (.fabs f) s e → Completes (.fabs f) s e (e.result f.k f.d (f.ty.bits == 64) fun p =>
    (signElems f.ty (fun _ _ => false) (e.rd f.ty p f.a) (e.rd f.ty p f.b), 0))) ∧
  (∀ f, Issues (.fneg f) s e → Completes (.fneg f) s e (e.result f.k f.d (f.ty.bits == 64) fun p =>
    (signElems f.ty (fun a _ => !a) (e.rd f.ty p f.a) (e.rd f.ty p f.b), 0))) ∧
  (∀ f, Issues (.fcps f) s e → Completes (.fcps f) s e (e.result f.k f.d (f.ty.bits == 64) fun p =>
    (signElems f.ty (fun a b => if f.m == 0 then b else if f.m == 1 then !b else a != b) (e.rd f.ty p f.a) (e.rd f.ty p f.b), 0))) ∧
  (∀ f, Issues (.fclass f) s e → Completes (.fclass f) s e (e.result f.k f.d false fun p =>
    (fclassFp (fpFmt f.ty) (e.rd f.ty p f.a), 0))) ∧
  (∀ f, Issues (.frnd f) s e → Completes (.frnd f) s e (e.result f.k f.d (f.ty.bits == 64) fun p =>
    frndFp (fpFmt f.ty) f.rnd (f.m == 1) (e.pA f p))) ∧
  (∀ f, Issues (.fscl f) s e → Completes (.fscl f) s e (e.result f.k f.d (f.ty.bits == 64) fun p =>
    fsclFp (fpFmt f.ty) f.rnd f.sat (e.pA f p) (sgn 32 (e.rd32 p f.b)))) ∧
  (∀ f, Issues (.fgexp f) s e → Completes (.fgexp f) s e (e.result f.k f.d (f.m == 1 && f.ty.bits == 64) fun p =>
    fgexpFp (fpFmt f.ty) (f.m == 1) (e.rd f.ty p f.a))) ∧
  (∀ f, Issues (.f2i f) s e → Completes (.f2i f) s e (e.result f.k f.d (2 ≤ f.m.val) fun p =>
    f2iFp f.rnd (f.m.val % 2 == 0) (if f.m.val < 2 then 32 else 64) (e.fA f p))) ∧
  (∀ f, Issues (.i2f f) s e → Completes (.i2f f) s e (e.result f.k f.d (f.m == 0) fun p =>
    i2fFp (f2fFmt f.m) f.rnd f.sat (rd f.ty.signed f.ty.bits (e.rd f.ty p f.a)))) ∧
  (∀ f, Issues (.f2f f) s e →
    let src := f2fFmt (f.lo.val / 4)
    let dst := f2fFmt f.m
    let n := f.lo.val % 4
    let r := fun p => f2fFp src dst f.rnd f.sat (if src.bits = 64 then e.rd64 p f.a else if src.bits = 32 then e.rd32 p f.a
      else elem src.bits n (e.rd32 p f.a))
    Completes (.f2f f) s e (e.result f.k f.d (f.m == 0) fun p =>
      if 32 ≤ dst.bits then r p
      else (e.rd32 p f.d - elem dst.bits n (e.rd32 p f.d) * 2 ^ (n * dst.bits) + (r p).1 * 2 ^ (n * dst.bits), (r p).2))) ∧
  (∀ f, Issues (.fdp2 f) s e →
    let fm := fpFmt f.ty
    let x := fun p o ng i => unpackFp fm (pre fm false ng (elem 16 i (e.rd32 p o)))
    Completes (.fdp2 f) s e (e.result f.k f.d false fun p =>
      dotFp f32 f.rnd f.sat (unpackFp f32 (pre f32 false f.negC (e.rd32 p f.c)))
        [(x p f.a f.negA 0, x p f.b f.negB 0), (x p f.a f.negA 1, x p f.b f.negB 1)])) ∧
  (∀ f : IWord, Issues (.faddi f) s e → Completes (.faddi f) s e (e.result f.k f.d (f.iw == 64) fun p =>
    addFp (IWord.fmt f) (IWord.rnd f) false (unpackFp (IWord.fmt f) (e.rdW f.iw p f.a)) (IWord.fimm f))) ∧
  (∀ f : IWord, Issues (.fmuli f) s e → Completes (.fmuli f) s e (e.result f.k f.d (f.iw == 64) fun p =>
    mulFp (IWord.fmt f) (IWord.rnd f) false (unpackFp (IWord.fmt f) (e.rdW f.iw p f.a)) (IWord.fimm f))) ∧
  (∀ f : IWord, Issues (.ffmai f) s e → Completes (.ffmai f) s e (e.result f.k f.d (f.iw == 64) fun p =>
    dotFp (IWord.fmt f) (IWord.rnd f) false (IWord.fimm f)
      [(unpackFp (IWord.fmt f) (e.rdW f.iw p f.d), unpackFp (IWord.fmt f) (e.rdW f.iw p f.a))]))

/-- R129, R130 and R44: the V-class floating-point words leave a pending result, which holds the value for every executing place
of D and the flags for its slice; no register changes until the marker. -/
def Obligations.PendingFloatingPointCompletes : Prop := ∀ (s : State) (e : Env),
  (∀ f, Issues (.fdiv f) s e → Completes (.fdiv f) s e (e.pends f.k f.d (f.ty.bits == 64) fun p =>
    divFp (fpFmt f.ty) f.rnd f.sat (e.fA f p) (e.fB f p))) ∧
  (∀ f, Issues (.fsqrt f) s e → Completes (.fsqrt f) s e (e.pends f.k f.d (f.ty.bits == 64) fun p =>
    sqrtFp (fpFmt f.ty) f.rnd (e.fA f p))) ∧
  (∀ f, Issues (.frcp f) s e → Completes (.frcp f) s e (e.pends f.k f.d false fun p => transFp 2 (e.pA f p))) ∧
  (∀ f, Issues (.frsq f) s e → Completes (.frsq f) s e (e.pends f.k f.d false fun p => transFp 3 (e.pA f p))) ∧
  (∀ f, Issues (.fex2 f) s e → Completes (.fex2 f) s e (e.pends f.k f.d false fun p => transFp 4 (e.pA f p))) ∧
  (∀ f, Issues (.flg2 f) s e → Completes (.flg2 f) s e (e.pends f.k f.d false fun p => transFp 5 (e.pA f p))) ∧
  (∀ f, Issues (.fsin f) s e → Completes (.fsin f) s e (e.pends f.k f.d false fun p => transFp 6 (e.pA f p))) ∧
  (∀ f, Issues (.fcos f) s e → Completes (.fcos f) s e (e.pends f.k f.d false fun p => transFp 7 (e.pA f p)))

/-- R51 to R54: both operations of a pair word read their operands before either writes; slot 0 writes before slot 1; the PNOP
operation has no effect. -/
def Obligations.PairWordsComplete : Prop := ∀ (s : State) (e : Env) (f : PWord), Issues (.pairWord f) s e →
  let slot := fun (p : PSlot) => if p.op = .nop then ({} : Change) else
    { vw := (e.execLanes p.k).map fun l => (32 * p.d.val + l, BitVec.ofNat 32 (pairOp p.op (e.g.vr p.d l) (pairSrc e p l)).1),
      sl := raises (e.execLanes p.k) fun l => (pairOp p.op (e.g.vr p.d l) (pairSrc e p l)).2 }
  Completes (.pairWord f) s e ((slot f.s0).andThen (slot f.s1))

/-! ### Control flow -/

/-- R34, R146 and R152: with PT = 0 a branch on which the live slices of its sub-gang agree goes to its target, or to the next
word; LOOP first takes 1 from its counter in every live slice. R153: JMPI goes to the target that they agree on. -/
def Obligations.BranchesComplete : Prop := ∀ (s : State) (e : Env) (b : Bool) (t : W64), e.live ≠ [] →
  (∀ f, Issues (.bra f) s e → f.pt = false → (b = true → e.target f.disp = some t) →
    (∀ i ∈ e.live, condHolds f.cc (e.g.flags i) = b) → Goes (.bra f) s e {} (if b then t else e.pc + 8)) ∧
  (∀ f, Issues (.bkz f) s e → f.pt = false → (b = true → e.target f.disp = some t) →
    (∀ i ∈ e.live, (e.g.isCtl || e.g.maskBits f.kt i == 0) = b) → Goes (.bkz f) s e {} (if b then t else e.pc + 8)) ∧
  (∀ f, Issues (.bknz f) s e → f.pt = false → (b = true → e.target f.disp = some t) →
    (∀ i ∈ e.live, (!e.g.isCtl && e.g.maskBits f.kt i != 0) = b) → Goes (.bknz f) s e {} (if b then t else e.pc + 8)) ∧
  (∀ f, Issues (.loop f) s e → f.pt = false → (b = true → e.target f.disp = some t) →
    (∀ i ∈ e.live, (e.g.sr f.st i != 1) = b) →
    Goes (.loop f) s e { sw := e.counted f.st } (if b then t else e.pc + 8)) ∧
  (∀ f, Issues (.jmpi f) s e → f.m.val ≠ 1 → t.toNat % 8 = 0 → t.toNat < 2 ^ 56 →
    (∀ i ∈ e.live, e.rd64 (4 * i) f.a = t.toNat) → Goes (.jmpi f) s e {} t)

/-- R148 to R150: with PT = 1 a control word parts its sub-gang into one sub-gang for each path, under a new record, at any depth below
16: a branch's paths are those that take it and those that fall through, even where both lead to the same word; JMPI's are its
targets. -/
def Obligations.PartingWordsPart : Prop := ∀ (s : State) (e : Env) (t : W64), e.live ≠ [] → e.g.depthOf e.sub.mask ≠ 16 →
  let branch := fun (taken : Nat → Bool) i => if taken i then (true, t) else (false, e.pc + 8)
  let reaches := fun (f : BWord) (taken : Nat → Bool) => f.pt = true ∧ ∀ i ∈ e.live, taken i = true → e.target f.disp = some t
  (∀ f, Issues (.bra f) s e →
    let taken := fun i => condHolds f.cc (e.g.flags i)
    reaches f taken → Parts (.bra f) s e e.g (e.wayOf (branch taken))) ∧
  (∀ f, Issues (.bkz f) s e →
    let taken := fun i => e.g.isCtl || e.g.maskBits f.kt i == 0
    reaches f taken → Parts (.bkz f) s e e.g (e.wayOf (branch taken))) ∧
  (∀ f, Issues (.bknz f) s e →
    let taken := fun i => !e.g.isCtl && e.g.maskBits f.kt i != 0
    reaches f taken → Parts (.bknz f) s e e.g (e.wayOf (branch taken))) ∧
  (∀ f, Issues (.loop f) s e →
    let taken := fun i => e.g.sr f.st i != 1
    reaches f taken → ∃ g0 : Group,
      g0.sreg = written 0 e.g.sreg (e.counted f.st) ∧ g0 = { e.g with sreg := g0.sreg, pend := g0.pend, badS := g0.badS } ∧
      Parts (.loop f) s e g0 (e.wayOf (branch taken))) ∧
  (∀ f, Issues (.jmpi f) s e → f.m.val = 1 →
    (∀ i ∈ e.live, e.rd64 (4 * i) f.a % 8 = 0 ∧ e.rd64 (4 * i) f.a < 2 ^ 56) →
    Parts (.jmpi f) s e e.g (e.wayOf fun i => (true, BitVec.ofNat 64 (e.rd64 (4 * i) f.a))))

/-- R146, R152 to R154: with PT = 0 two live slices of which one takes the branch raise fault 0x03, wherever it leads, LOOP's decrement
staying; a seventeenth level of records raises 0x0C; a target outside the address space raises 0x06 and a misaligned one 0x04; a full or an
empty call stack raises 0x1A. R197: LD, ST, ATOM, RED and CAS are checked in order, and the first place that fails is named: alignment (0x04);
translation (0x06); type and permission (0x05, 0x07; 0x0F for a frame of the leaf pool that the group has not pinned, R305); ring bytes that
the group does not hold (0x0B, R270); shadow lines (0x08, R202); damage (0x15, R203). R188, R191 and R283: what refuses an address, in team
code and in control code. R204 and R205: 0x0E. R158 and R374: a group word that part of the gang issues raises 0x03, and a grid barrier
outside a co-resident grid 0x12. A control program's word stops it (R360). Which of two faults of a control word comes first, that LOOP's
decrement stays at fault 0x03, and what control code may reach, with the places of 0x0F and of ATOM.O's 0x03 among the checks, are the model's
readings (log entries 14, 18 and 21). -/
def Obligations.ControlMemoryAndGroupWordsTrap : Prop :=
  (∀ (s : State) (e : Env) (t : W64) (i j : Nat), i ∈ e.live → j ∈ e.live →
    (∀ f, Issues (.bra f) s e → f.pt = false → e.target f.disp = some t →
      condHolds f.cc (e.g.flags i) = true → condHolds f.cc (e.g.flags j) = false → Halts (.bra f) s e 0x03) ∧
    (∀ f, Issues (.bkz f) s e → f.pt = false → e.target f.disp = some t →
      e.g.maskBits f.kt i = 0 → e.g.maskBits f.kt j ≠ 0 → e.g.isCtl = false → Traps (.bkz f) s e 0x03) ∧
    (∀ f, Issues (.bknz f) s e → f.pt = false → e.target f.disp = some t →
      e.g.maskBits f.kt i ≠ 0 → e.g.maskBits f.kt j = 0 → e.g.isCtl = false → Traps (.bknz f) s e 0x03) ∧
    (∀ f, Issues (.loop f) s e → f.pt = false → e.target f.disp = some t →
      e.g.sr f.st i ≠ 1 → e.g.sr f.st j = 1 → e.g.isCtl = false → ∃ (g : Group) (r : FaultRec),
        exec (.loop f) s = .next (Env.trapped { e with s := e.s.putG e.gid g } r) ∧ r.code = 3 ∧ r.fpc = e.pc ∧
        g.sreg = written 0 e.g.sreg (e.counted f.st) ∧ g = { e.g with sreg := g.sreg, pend := g.pend, badS := g.badS, undo := g.undo }) ∧
    (∀ f, f.pt = true → e.target f.disp = some t → e.g.depthOf e.sub.mask = 16 →
      (Issues (.bra f) s e → Halts (.bra f) s e 0x0C) ∧ (Issues (.bkz f) s e → Halts (.bkz f) s e 0x0C) ∧
      (Issues (.bknz f) s e → Halts (.bknz f) s e 0x0C) ∧ (Issues (.loop f) s e → Halts (.loop f) s e 0x0C)) ∧
    (∀ f, e.target f.disp = none →
      (Issues (.bra f) s e → condHolds f.cc (e.g.flags i) = true → Halts (.bra f) s e 0x06) ∧
      (Issues (.bkz f) s e → (e.g.isCtl = true ∨ e.g.maskBits f.kt i = 0) → Halts (.bkz f) s e 0x06) ∧
      (Issues (.bknz f) s e → e.g.isCtl = false → e.g.maskBits f.kt i ≠ 0 → Traps (.bknz f) s e 0x06) ∧
      (Issues (.loop f) s e → e.g.sr f.st i ≠ 1 → Halts (.loop f) s e 0x06) ∧
      (Issues (.call f) s e → Halts (.call f) s e 0x06)) ∧
    (∀ f, Issues (.jmpi f) s e →
      let dest := fun n => e.rd64 (4 * n) f.a
      (dest i % 8 ≠ 0 → Halts (.jmpi f) s e 0x04) ∧
      ((∀ n ∈ e.live, dest n % 8 = 0) → 2 ^ 56 ≤ dest i → Halts (.jmpi f) s e 0x06) ∧
      ((∀ n ∈ e.live, dest n % 8 = 0 ∧ dest n < 2 ^ 56) →
        (f.m = 1 → e.g.depthOf e.sub.mask = 16 → Halts (.jmpi f) s e 0x0C) ∧ (f.m ≠ 1 → dest i ≠ dest j → Halts (.jmpi f) s e 0x03))) ∧
    (∀ f, Issues (.call f) s e → e.target f.disp = some t → ∀ c ∈ slicesOf e.sub.mask, (e.g.slice c).call.length = 16 →
      Halts (.call f) s e 0x1A) ∧
    (∀ f, Issues (.calli f) s e →
      let dest := fun n => e.rd64 (4 * n) f.a
      (dest i ≠ dest j → Halts (.calli f) s e 0x03) ∧
      ((∀ n ∈ e.live, dest n = dest i) →
        (dest i % 8 ≠ 0 → Halts (.calli f) s e 0x04) ∧ (dest i % 8 = 0 → 2 ^ 56 ≤ dest i → Halts (.calli f) s e 0x06) ∧
        (dest i % 8 = 0 → dest i < 2 ^ 56 → ∀ c ∈ slicesOf e.sub.mask, (e.g.slice c).call.length = 16 → Halts (.calli f) s e 0x1A))) ∧
    (∀ f, Issues (.ret f) s e →
      ((e.g.slice i).call = [] → Halts (.ret f) s e 0x1A) ∧
      ((∀ n ∈ e.live, (e.g.slice n).call ≠ []) → (e.g.slice i).call.head? ≠ (e.g.slice j).call.head? → Halts (.ret f) s e 0x03)) ∧
    (∀ f, Issues (.regang f) s e → e.g.depthOf e.sub.mask = 0 → Halts (.regang f) s e 0x0C)) ∧
  (∀ (s : State) (e : Env) (a : Access) (f : MWord) (before after : List Nat) (p : Nat), Issues (a.word f) s e →
    ((a = .atom ∨ a = .cas) → f.sx = true → e.whole = true) → e.places f.k f.d = before ++ p :: after →
    let n := Width.bytes f.width
    let at' := fun q => e.locate a.writes (a == .cas) (e.addr f q)
    let faults := fun code => Refused (a.word f) s e code (if f.d.isV then p else 255) (e.addr f p)
    ((∀ q ∈ before, e.addr f q % n = 0) → e.addr f p % n ≠ 0 → faults 0x04) ∧
    ((∀ q ∈ e.places f.k f.d, e.addr f q % n = 0) →
      ((∀ q ∈ before, at' q ≠ .error 6) → at' p = .error 6 → faults 0x06) ∧
      (∀ c, (∀ q ∈ e.places f.k f.d, at' q ≠ .error 6) → (∀ q ∈ before, ∃ l, at' q = .ok l) → at' p = .error c → faults c))) ∧
  (∀ (s : State) (e : Env) (a : Access) (f : MWord) (ps before after : List Place) (x : Place), Issues (a.word f) s e →
    ((a = .atom ∨ a = .cas) → f.sx = true → e.whole = true) → ps = before ++ x :: after →
    let n := Width.bytes f.width
    ps.map (·.p) = e.places f.k f.d →
    (∀ y ∈ ps, y.addr = e.addr f y.p ∧ y.addr % n = 0 ∧ e.locate a.writes (a == .cas) y.addr = .ok y.loc) →
    let holds := fun (y : Place) => y.inRing e = true → e.team.holds e.lch (gidG e.gid) y.off = true
    let fits := fun (l : List Place) => e.linesFit (a.takes e f l).1 (a.takes e f l).2 = true
    let faults := fun code => Refused (a.word f) s e code (if f.d.isV then x.p else 255) x.addr
    ((∀ y ∈ before, holds y) → ¬holds x → faults 0x0B) ∧
    ((∀ y ∈ ps, holds y) →
      (a ≠ .ld → e.g.isCtl = false → (∀ k < before.length, fits (ps.take (k + 1))) → ¬fits (before ++ [x]) → ¬fits ps → faults 0x08) ∧
      (a.reads = true → (a = .ld ∨ e.g.isCtl = true ∨ fits ps) →
        (∀ y ∈ before, e.damagedAt n y = false) → e.damagedAt n x = true → faults 0x15))) ∧
  (∀ (e : Env) (write cas : Bool) (va : Nat),
    let at' := e.locate write cas va
    (2 ^ 56 ≤ va → at' = .error 6) ∧
    (va < 2 ^ 55 →
      (∀ c, translate e.s e.cid va = .error c → at' = .error c) ∧
      (∀ q, translate e.s e.cid va = .ok q → (q.ty ≠ 6 → at' = .error 5) ∧ (q.ty = 6 → e.g.isCtl = false → at' = .error 7) ∧
        (q.ty = 6 → e.g.isCtl = true →
          (∀ c, blockOf q.target = .error c → at' = .error c) ∧
          (∀ b off, blockOf q.target = .ok (b, off) →
            let shut := if write then q.w = false ∨ b = 18 ∨ cas = true ∧ (16 ≤ b ∨ q.r = false) else q.r = false
            (shut → at' = .error 7) ∧ (¬shut → at' = .ok (if b < 16 then .mem (physKey e.cid 6 q.target) else .block b off)))))) ∧
    (2 ^ 55 ≤ va → va < 2 ^ 56 → e.g.isCtl = true → at' = .error 7) ∧
    (2 ^ 55 ≤ va → va < 2 ^ 56 → e.g.isCtl = false →
      let y := e.lch.layout
      (∀ c, e.window va = .error c → at' = .error c) ∧
      (∀ u off, e.window va = .ok (true, u, off) →
        (off < y.pool → at' = .ok (.own off)) ∧
        (y.rings ≤ off → y.pool ≤ off → off < y.spills → at' = if write then .error 7
          else if tget ((off - y.pool) / 4224) e.team.pins = some (gidG e.gid) then .ok (.own off) else .error 0x0F) ∧
        (y.rings ≤ off → y.pool ≤ off → y.spills ≤ off → at' = if off < y.sys ∨ write then .error 7 else .ok (.own off))) ∧
      (∀ u off, e.window va = .ok (false, u, off) →
        at' = if (off < y.rings ∨ off < y.pool) ∧ write = false then .ok (.peer (e.peerImage u) off) else .error 7))) ∧
  (∀ (s : State) (e : Env), e.g.isCtl = false →
    (∀ (h : RWord) c, c ∈ slicesOf (e.sub.mask &&& e.g.liveMask) →
      (Issues (.pushs h) s e → e.lch.lr.spill * 8 < (e.g.slice c).sp + (h.m.val + 1) * spillSize h.a → Traps (.pushs h) s e 0x0E) ∧
      (Issues (.pops h) s e → (e.g.slice c).sp < (h.m.val + 1) * spillSize h.d → Traps (.pops h) s e 0x0E)) ∧
    (e.whole = false → (∀ f, Issues (.cbar f) s e → Traps (.cbar f) s e 0x03) ∧
      (∀ f, Issues (.mbld f) s e → Traps (.mbld f) s e 0x03) ∧ (∀ f, Issues (.mma f) s e → Traps (.mma f) s e 0x03)) ∧
    (e.whole = true → e.lch.lr.coop = false → (∀ f, Issues (.gbar f) s e → Traps (.gbar f) s e 0x12) ∧
      (∀ f, Issues (.tsbar f) s e → Traps (.tsbar f) s e 0x12)))

/-- ATOM.O, CAS.O, CMIT, BAR and ABRT.G need the whole gang: a sub-gang of fewer than eight slices that issues one raises
fault 0x03, and the word has no effect: the team traps at the word and nothing else changes. What counts is the sub-gang and not
the mask: issued by all eight slices, each has its effect whatever lanes execute. That 0x03 of ATOM.O and CAS.O comes before the checks
on their addresses, and that a deferred refresh runs where CMIT.C and CMIT.D arrive (`State.catchUp`), are the model's readings (log
entries 21 and 31). -/
def Obligations.PartOfTheGangTraps : Prop := ∀ (s : State) (e : Env), e.g.isCtl = false →
  (e.sub.mask ≠ 255 →
    (∀ f, Issues (.atom f) s e → f.sx = true → Traps (.atom f) s e 0x03) ∧
    (∀ f, Issues (.cas f) s e → f.sx = true → Traps (.cas f) s e 0x03) ∧
    (∀ f, Issues (.cmitT f) s e → Traps (.cmitT f) s e 0x03) ∧ (∀ f, Issues (.cmitC f) s e → Traps (.cmitC f) s e 0x03) ∧
    (∀ f, Issues (.cmitD f) s e → Traps (.cmitD f) s e 0x03) ∧ (∀ f, Issues (.bar f) s e → Traps (.bar f) s e 0x03) ∧
    (∀ f, Issues (.abrtG f) s e → Traps (.abrtG f) s e 0x03)) ∧
  (e.sub.mask = 255 →
    (∀ f ps, Issues (.atom f) s e → f.sx = true → e.s.tokenHolds e.team e.tid e.gid = true →
      e.reach f true false = .ok ps → e.noPoison f ps = .ok () →
      e.needLines f.d ps (e.rmwLines true true (Width.bytes f.width)) = .ok () →
      Effect (.atom f) s e fun t => t.mem = e.s.mem) ∧
    (∀ f ps, Issues (.cas f) s e → f.sx = true → e.s.tokenHolds e.team e.tid e.gid = true →
      e.reach f true true = .ok ps → e.noPoison f ps = .ok () →
      e.needLines f.d ps (e.rmwLines true false (Width.bytes f.width)) = .ok () →
      Effect (.cas f) s e fun t => t.mem = e.s.mem) ∧
    (∀ f, Issues (.cmitT f) s e → Effect (.cmitT f) s e (· = e.s.putG e.gid (e.g.cmitT e.team))) ∧
    (∀ f t, Issues (.abrtG f) s e → e.target f.disp = some t → ∃ g : Group,
      exec (.abrtG f) s = .next (e.gone (.abrtG f) (e.s.putG e.gid g))) ∧
    (e.g.owed = none → e.deferOpen = none →
      (∀ f, Issues (.cmitC f) s e → exec (.cmitC f) s = .next (e.parked (.cmitC f) (.coll .cmitC) (e.s.catchUp e.gid))) ∧
      (∀ f, Issues (.cmitD f) s e → exec (.cmitD f) s = .next (e.parked (.cmitD f) (.coll .cmitD) (e.s.catchUp e.gid))) ∧
      (∀ f, Issues (.bar f) s e → ∃ p t, exec (.bar f) s = .next (e.parked (.bar f) p t))))

/-- R154: CALL and CALLI push the next word's address on the call stack of every slice of the sub-gang, which holds 16, and go to
the target; RET pops it and goes there. -/
def Obligations.CallsComplete : Prop := ∀ (s : State) (e : Env) (t : W64), e.live ≠ [] →
  let push := fun (n : Nat) (x : Slice) => if n ∈ slicesOf e.sub.mask then { x with call := (e.pc + 8) :: x.call } else x
  let pop := fun (n : Nat) (x : Slice) => if n ∈ slicesOf e.sub.mask then { x with call := x.call.tail } else x
  (∀ f, Issues (.call f) s e → e.target f.disp = some t → (∀ i ∈ slicesOf e.sub.mask, (e.g.slice i).call.length ≠ 16) →
    Goes (.call f) s e { sl := push } t) ∧
  (∀ f, Issues (.calli f) s e → t.toNat % 8 = 0 → t.toNat < 2 ^ 56 → (∀ i ∈ e.live, e.rd64 (4 * i) f.a = t.toNat) →
    (∀ i ∈ slicesOf e.sub.mask, (e.g.slice i).call.length ≠ 16) → Goes (.calli f) s e { sl := push } t) ∧
  (∀ f, Issues (.ret f) s e → (∀ i ∈ e.live, (e.g.slice i).call.head? = some t) → Goes (.ret f) s e { sl := pop } t)

/-- R155 and R156: REGANG, within a record, and KSYNC, with a set that its live slices agree on and that lies between the sub-gang
and its record, park the sub-gang, and what has arrived is joined. R157: EXIT takes its executing lanes from KACT, changes no
register, and moves the sub-gang on; without an executing lane it has no effect. R328: the OPEN ray of such a lane ends as `.kill` ends it,
and every other ray stays. R155: when every sub-gang of a record with a
live slice stands at the same REGANG, they become one sub-gang of the record's slices at the word after it, each slice with
the FMR that the record saved, and the record is gone. Their pending results are written before (`JoinsOnce`): until all have returned
nothing happens, and a failed one faults at the word at which its sub-gang stands, with the record still there. While one of them stands elsewhere, nothing
happens; where they stand at different REGANG words, fault 0x03 is taken at that of the sub-gang with the lowest live slice. R156: KSYNC
faults where its live slices read different sets, where the set leaves a slice of the sub-gang out, and where it leaves its record's. When
every live sub-gang of the set stands at the same KSYNC, with one set and one innermost record, they go on as one sub-gang at the word
after it, with every FMR and every record that has a live slice kept, and within a record their pending results are written before; else, all parked at a KSYNC, they take fault 0x03 as for
REGANG. That records without a live slice close by themselves is the model's reading (log entry 14). -/
def Obligations.JoinsAndExitComplete : Prop :=
  (∀ (s : State) (e : Env),
    let parkAt := fun p => e.s.putG e.gid (e.g.modSub e.sub.mask fun x => { x with park := p, lastPc := e.pc })
    (∀ f, Issues (.regang f) s e → e.g.depthOf e.sub.mask ≠ 0 →
      exec (.regang f) s = .next (e.gone (.regang f) ((parkAt .regang).rejoin e.gid))) ∧
    (∀ f m, Issues (.ksync f) s e → e.live ≠ [] → (∀ i ∈ e.live, fld (e.rd64 (4 * i) f.a) 0 8 = m) →
      m &&& e.sub.mask = e.sub.mask → (∀ r, e.g.innermost e.sub.mask = some r → m &&& r.s = m) →
      exec (.ksync f) s = .next (e.gone (.ksync f) ((parkAt (.ksync m)).rejoin e.gid))) ∧
    (∀ f, Issues (.ksync f) s e → e.g.isCtl = false → ∀ i ∈ e.live,
      let m := fld (e.rd64 (4 * i) f.a) 0 8
      (∃ j ∈ e.live, fld (e.rd64 (4 * j) f.a) 0 8 ≠ m) ∨ m &&& e.sub.mask ≠ e.sub.mask ∨
        (∃ r, e.g.innermost e.sub.mask = some r ∧ m &&& r.s ≠ m) → Traps (.ksync f) s e 0x03) ∧
    (∀ f, Issues (.exit f) s e → e.exec f.k = 0 → Effect (.exit f) s e (· = e.s)) ∧
    (∀ f, Issues (.exit f) s e → e.exec f.k ≠ 0 → ∃ (t : State) (g : Group),
      exec (.exit f) s = .next (e.gone (.exit f) (t.rejoin e.gid)) ∧ tget e.gid t.groups = some g ∧
      g.kact = BitVec.ofNat 32 (e.g.kact.toNat &&& (2 ^ 32 - 1 - e.exec f.k)) ∧
      (∀ n, g.slices[n]? = (e.g.slices[n]?).map fun x => if n ∈ slicesOf e.sub.mask then { x with pc := x.pc + 8 } else x) ∧
      g.vreg = e.g.vreg ∧ g.sreg = e.g.sreg ∧ g.kreg = e.g.kreg ∧ t.mem = e.s.mem ∧
      (∀ l, g.ray l = if l ∈ lanesOf (e.exec f.k) ∧ (e.g.ray l).phase = .opened then (e.g.ray l).kill else e.g.ray l) ∧
      (let gone := fun (l : Nat) => bitOf (e.exec f.k) l
       g.pend = (e.g.pend.map fun p =>
          let q := p.only g.liveMask
          if p.byLane then { q with vw := q.vw.filter fun w => !gone (w.1 % 32), flags := q.flags.filter fun w => !gone w.1,
                                    fails := q.fails.filter fun w => !gone w.1 } else q).filter
        fun p => p.slices != 0 || !p.returned) ∧
      (∀ k, k ≠ e.gid → tget k t.groups = tget k e.s.groups))) ∧
  (∀ (s : State) (gid mask : Nat) (g : Group) (x : SubGang) (r : Record),
    tget gid s.groups = some g → g.halted = false → g.sub mask = some x → x.park = .regang → g.innermost mask = some r →
    ((∃ p ∈ g.liveSubs r.s, p.park ≠ .regang) → s.tryJoin gid mask = s) ∧
    ((∀ p ∈ g.liveSubs r.s, p.park = .regang ∧ g.innermost p.mask = some r ∧ g.pcOf p.mask = g.pcOf mask) →
      JoinsOnce s (s.tryJoin gid mask) gid r.s g fun w g' =>
        (∀ n, g'.slices[n]? = (w.slices[n]?).map fun y =>
          if n ∈ slicesOf r.s then { y with pc := g.pcOf mask + 8, fmr := (r.fmr[n]?).getD 0 } else y) ∧
        (∀ y ∈ g'.recs, ¬(y.s = r.s ∧ y.depth = r.depth)) ∧ (∃ y ∈ g'.subs, y.mask = r.s ∧ y.park = .none) ∧
        g'.vreg = w.vreg ∧ g'.sreg = w.sreg ∧ g'.kreg = w.kreg ∧ g'.kact = w.kact ∧ g'.pend = w.pend) ∧
    (∀ y e, (∀ p ∈ g.liveSubs r.s, p.park = .regang ∧ g.innermost p.mask = some r) → (∃ p ∈ g.liveSubs r.s, g.pcOf p.mask ≠ g.pcOf mask) →
      (g.subs.find? fun x => bitOf x.mask (lowest (r.s &&& g.liveMask))) = some y → envOf s { gid := gid, mask := y.mask } = some e →
      e.g.isCtl = false → ∃ x : FaultRec, s.tryJoin gid mask = e.trapped x ∧ x.code = 3 ∧ x.fpc = e.pc)) ∧
  (∀ (s : State) (gid mask m : Nat) (g : Group) (x : SubGang),
    tget gid s.groups = some g → g.halted = false → g.sub mask = some x → x.park = .ksync m →
    let agree := fun (p : SubGang) => p.park = .ksync m ∧ g.pcOf p.mask = g.pcOf mask ∧ g.innermost p.mask = g.innermost mask
    ((∃ p ∈ g.liveSubs m, ∀ k, p.park ≠ .ksync k) → s.tryJoin gid mask = s) ∧
    ((∀ p ∈ g.liveSubs m, agree p ∧ p.mask &&& m = p.mask) →
      ∃ m' : Nat, m' &&& m = m' ∧ (∀ p ∈ g.liveSubs m, p.mask &&& m' = p.mask) ∧
        let joined := fun (w g' : Group) =>
          (∀ n, g'.slices[n]? = (w.slices[n]?).map fun y => if n ∈ slicesOf m' then { y with pc := y.pc + 8 } else y) ∧
          (∃ y ∈ g'.subs, y.mask = m' ∧ y.park = .none) ∧
          (∀ r ∈ g.recs, r.s &&& g.liveMask ≠ 0 → ∃ r' ∈ g'.recs, r'.s = r.s ∧ r'.depth = r.depth ∧ r'.fmr = r.fmr) ∧
          g'.vreg = w.vreg ∧ g'.sreg = w.sreg ∧ g'.kreg = w.kreg ∧ g'.kact = w.kact ∧ g'.pend = w.pend
        (g.innermost mask = none → ∃ g', s.tryJoin gid mask = s.putG gid g' ∧ joined g g') ∧
        (g.innermost mask ≠ none → JoinsOnce s (s.tryJoin gid mask) gid m' g joined)) ∧
    (∀ y e, (∀ p ∈ g.liveSubs m, ∃ k, p.park = .ksync k) → (∃ p ∈ g.liveSubs m, ¬agree p) →
      (g.subs.find? fun x => bitOf x.mask (lowest (m &&& g.liveMask))) = some y → envOf s { gid := gid, mask := y.mask } = some e →
      e.g.isCtl = false → ∃ x : FaultRec, s.tryJoin gid mask = e.trapped x ∧ x.code = 3 ∧ x.fpc = e.pc))

/-! ### Memory words -/

/-- R196 and R197: where the checks of an access pass, it has one place for each executing lane or slice, at the address that R196
computes, aligned to the width, and where that address reaches. -/
def Obligations.AccessReachesAddress : Prop := ∀ (e : Env) (f : MWord) (write cas : Bool) (ps : List Place),
  e.reach f write cas = .ok ps →
  ps.map (·.p) = e.places f.k f.d ∧
  ∀ x ∈ ps, x.addr = e.addr f x.p ∧ x.addr % Width.bytes f.width = 0 ∧ e.locate write cas x.addr = .ok x.loc ∧
    (x.inRing e = true → e.team.holds e.lch (gidG e.gid) x.off = true)

/-- R201 and R44: LD leaves a pending result with the bytes at each place, little-endian, sign-extended when the word asks, and
changes nothing else. -/
def Obligations.LoadCompletes : Prop := ∀ (s : State) (e : Env) (f : MWord) (ps : List Place), Issues (.ld f) s e →
  e.reach f false false = .ok ps → e.noPoison f ps = .ok () →
  let n := Width.bytes f.width
  let val := fun x => let v := leNat (e.readAt n x); if f.sx then sext (8 * n) (if f.d.isV then 32 else 64) v else v
  Completes (.ld f) s e (if ps = [] then {} else
    { new := [{ e.newPend f.d (if f.d.isV then (n + 3) / 4 else (n + 7) / 8) (sliceBits (e.exec f.k)) with
        idx := e.g.nextPend, vw := ps.flatMap fun x => dVec f.d n x.p (val x), sw := ps.flatMap fun x => dSca f.d n x.p (val x) }] })

/-- R196, R198, R202 and R283: ST writes its bytes where its addresses reach, in ascending order of lanes, and every other byte
stays: in the sub-gang's view for team data; in place for ring bytes; for control code in control memory at H, or in a
control block. -/
def Obligations.StoreCompletes : Prop := ∀ (s : State) (e : Env) (f : MWord) (ps : List Place), Issues (.st f) s e →
  e.reach f true false = .ok ps → (e.needLines f.d ps fun l => (e.placeLines (Width.bytes f.width) l, 0)) = .ok () →
  let bytes := fun x => leBytes (Width.bytes f.width) (e.dValue f.d (Width.bytes f.width) x.p)
  (e.g.isCtl = false →
    Effect (.st f) s e fun t => ∃ (lvl : SubGang → GLevel) (lines : List Nat) (tm : Team),
      t = { e.s.putG e.gid (e.levelled lvl lines e.g.contrib) with teams := t.teams } ∧
      (∀ k, k ≠ e.tid → tget k t.teams = tget k e.s.teams) ∧
      tget e.tid t.teams = some tm ∧ tm = { e.team with data := tm.data } ∧
      (∀ a, mget tm.data.data a =
        mget ((ps.filter fun x => x.inRing e).foldl (fun m x => mwrite m x.off (bytes x)) e.team.data.data) a) ∧
      (∀ a, mget (lvl e.sub).view.data a =
        mget ((ps.filter fun x => !x.inRing e).foldl (fun m x => mwrite m x.off (bytes x)) e.sub.lvl.view.data) a)) ∧
  (e.g.isCtl = true → (∀ x ∈ ps, ∃ k, x.loc = .mem k) →
    Effect (.st f) s e fun t => t = { e.s with mem := t.mem, memPoison := t.memPoison, launches := t.launches } ∧
      ∀ a, mget (hImage t).data a = mget (ps.foldl (fun m x => mwrite m x.off (bytes x)) (hImage e.s).data) a) ∧
  (e.g.isCtl = true → ∀ x b off, ps = [x] → x.loc = .block b off →
    Effect (.st f) s e (· = e.s.modC e.cid fun c => c.blockWrite b off (bytes x)))

/-- R206, R208 and R209: ATOM, CAS and RED complete where their addresses reach and are not poisoned and the lines fit, an ordered one when
its group holds the team token. They change no register and no byte of the module's memory, and nothing of another group; ATOM and CAS
leave one pending result. R206, R207, R209 and R434: ATOM and CAS act place by place, in ascending order (`Env.inTurn`): on ring bytes
in place, ordered ones on the ordered values of the team, others in the sub-gang's view; each place gets the old value. R208: a RED
folds the contributions of the lanes that name a word into it, in the view or in the ring. R206: an ATOM of one executing lane on team
data, not ordered, gives the sub- gang's view the new value of R206 at its word and the pending result the old one; every other byte of
the view stays. How an ordered word acts on the ordered value and shows the group its own result is the model's reading (log entry 21). -/
def Obligations.AtomicWordsComplete : Prop :=
  (∀ (s : State) (e : Env) (ps : List Place), e.g.isCtl = false →
    let keeps := fun (t : State) (n : Nat) => t.mem = e.s.mem ∧ (∀ k, k ≠ e.gid → tget k t.groups = tget k e.s.groups) ∧
      ∃ g, tget e.gid t.groups = some g ∧ g.vreg = e.g.vreg ∧ g.sreg = e.g.sreg ∧ g.kreg = e.g.kreg ∧
        g.pend.length = e.g.pend.length + n
    let one := if ps = [] then 0 else 1
    let values := fun (t : State) (f : MWord) (new : Nat → Nat → Option Nat) =>
      let n := Width.bytes f.width
      let r := e.inTurn f.sx n new ps
      n = 4 ∨ n = 8 → ∃ g x, tget e.gid t.groups = some g ∧ g.sub e.sub.mask = some x ∧
        (∀ a, mget x.lvl.view.data a = mget r.2.1 a) ∧ tget e.tid t.teams = some r.2.2 ∧
        g.pend = e.g.pend ++ (if ps = [] then [] else [{ e.newPend f.d (if f.d.isV then (n + 3) / 4 else (n + 7) / 8)
            (sliceBits (e.exec f.k)) with
          idx := e.g.nextPend, vw := r.1.flatMap fun v => dVec f.d n v.1 v.2, sw := r.1.flatMap fun v => dSca f.d n v.1 v.2 }])
    (∀ f, Issues (.atom f) s e → (f.sx = true → e.whole = true ∧ e.s.tokenHolds e.team e.tid e.gid = true) →
      e.reach f true false = .ok ps → e.noPoison f ps = .ok () →
      e.needLines f.d ps (e.rmwLines f.sx true (Width.bytes f.width)) = .ok () →
      Effect (.atom f) s e fun t => keeps t one ∧ values t f fun p old =>
        some (atomNew (Width.bytes f.width) f.op old (low (8 * Width.bytes f.width) (e.dValue f.d (Width.bytes f.width) p)))) ∧
    (∀ f, Issues (.cas f) s e → (f.sx = true → e.whole = true ∧ e.s.tokenHolds e.team e.tid e.gid = true) →
      e.reach f true true = .ok ps → e.noPoison f ps = .ok () →
      e.needLines f.d ps (e.rmwLines f.sx false (Width.bytes f.width)) = .ok () →
      Effect (.cas f) s e fun t => keeps t one ∧ values t f fun p old =>
        let n := Width.bytes f.width
        if old = low (8 * n) (e.dValue f.d n p)
        then some (low (8 * n) (e.dValue (Opd.plus f.d (if f.d.isV then n / 4 else 1)) n p)) else none) ∧
    (∀ f, Issues (.red f) s e → e.reach f true false = .ok ps →
      e.needLines f.d ps (e.rmwLines false true (Width.bytes f.width)) = .ok () →
      Effect (.red f) s e fun t => keeps t 0 ∧
        let n := Width.bytes f.width
        let vs := fun (y : Place) => (List.range 32).map fun l =>
          if ps.any fun z => z.p == l && z.addr == y.addr then some (BitVec.ofNat 64 (low (8 * n) (e.dValue f.d n l)) : W64) else none
        let folded := fun (ring : Bool) (old new : Memory) =>
          (∀ y ∈ ps, y.inRing e = ring →
            mnat new y.off n = (redNew n (f.op.val + (if f.sx then 4 else 0)) (mnat old y.off n) (vs y)).1 % 2 ^ (8 * n)) ∧
          (∀ a, (∀ y ∈ ps, y.inRing e = ring → a < y.off ∨ y.off + n ≤ a) → mget new a = mget old a)
        n = 4 ∨ n = 8 → ∃ g x tm, tget e.gid t.groups = some g ∧ g.sub e.sub.mask = some x ∧ tget e.tid t.teams = some tm ∧
          folded false e.sub.lvl.view.data x.lvl.view.data ∧ folded true e.team.data.data tm.data.data)) ∧
  (∀ (s : State) (e : Env) (f : MWord) (x : Place) (off : Nat), Issues (.atom f) s e →
    e.g.isCtl = false → f.sx = false → e.reach f true false = .ok [x] → e.noPoison f [x] = .ok () →
    x.loc = .own off → e.lch.areaOf off = .data →
    let n := Width.bytes f.width
    n = 4 ∨ n = 8 →
    e.needLines f.d [x] (e.rmwLines false true n) = .ok () →
    let old := mnat e.sub.lvl.view.data off n
    Effect (.atom f) s e fun t => ∃ (g : Group) (lvl : SubGang → GLevel) (lines : List Nat) (contrib : Nat),
      t = e.s.putG e.gid g ∧ g = { e.levelled lvl lines contrib with pend := g.pend, nextPend := g.nextPend } ∧
      (∀ a, mget (lvl e.sub).view.data a =
        mget (mwrite e.sub.lvl.view.data off (leBytes n (atomNew n f.op old (low (8 * n) (e.dValue f.d n x.p))))) a) ∧
      g.pend = e.g.pend ++ [{ e.newPend f.d (if f.d.isV then (n + 3) / 4 else (n + 7) / 8) (sliceBits (e.exec f.k)) with
        idx := e.g.nextPend, vw := dVec f.d n x.p old, sw := dSca f.d n x.p old }])

/-- R204 and R205: PUSHS puts the registers of every live slice on its spill stack and POPS leaves a pending result with the
registers at its top, vector or scalar, each with the bytes that lie its size times its distance from the end below the pointer; the stack
pointers move by their size. They complete where every live slice's stack has the room, or
the bytes. -/
def Obligations.SpillStackCompletes : Prop := ∀ (s : State) (e : Env),
  let live := slicesOf (e.sub.mask &&& e.g.liveMask)
  (∀ f, Issues (.pushs f) s e →
    let n := f.m.val + 1
    let bytes := fun c => (List.range n).flatMap fun i => match Opd.plus f.a i with
      | .v r => (List.range 4).flatMap fun j => leBytes 4 (e.g.vr r (4 * c + j))
      | o => leBytes 8 (e.rd64 (4 * c) o)
    (∀ c ∈ live, (e.g.slice c).sp + n * spillSize f.a ≤ e.lch.lr.spill * 8) →
    Completes (.pushs f) s e { sl := fun c x => if c ∈ live then
      { x with spill := mwrite x.spill x.sp (bytes c), sp := x.sp + n * spillSize f.a } else x }) ∧
  (∀ f, Issues (.pops f) s e →
    let n := f.m.val + 1
    (∀ c ∈ live, n * spillSize f.d ≤ (e.g.slice c).sp) →
    let size := spillSize f.d
    let bytes := fun c i k len => mnat (e.g.slice c).spill ((e.g.slice c).sp - (n - i) * size + k) len
    Completes (.pops f) s e
      { new := [{ e.newPend f.d n (e.sub.mask &&& e.g.liveMask) with
          idx := e.g.nextPend
          vw := live.flatMap fun c => (List.range n).flatMap fun i => match Opd.plus f.d i with
            | .v r => (List.range 4).map fun j => (32 * r.val + 4 * c + j, BitVec.ofNat 32 (bytes c i (4 * j) 4))
            | _ => []
          sw := live.flatMap fun c => (List.range n).flatMap fun i => match Opd.plus f.d i with
            | .s r => [(8 * r.val + c, BitVec.ofNat 64 (bytes c i 0 8))]
            | _ => [] }],
        sl := fun c x => if c ∈ live then { x with sp := x.sp - n * size } else x })


/-! ### Taking faults and interrupts -/

/-- The checks of every word before it has any effect. R57: control code stops at a word that it does not accept. R56: a
privileged word in team code raises fault 0x18. R16: a vector register beyond the role budget raises 0x01. R100: a damaged
source raises 0x15. A fault leaves the group at the word with its trap record, its team trapped, and nothing else changed
(R353); in control code its context becomes FAULTED (R360). R47: the thirty-third word of a sub-gang that would hold pending
results does not issue; its sub-gang, or the control program, waits as at a marker at the word before. Which words hold pending results,
in control code too, is the model's reading (log entry 13), and so is what counts as reading a damaged register (46). -/
def Obligations.WordsCheckedAtIssue : Prop :=
  (∀ (i : Instr) (s : State) (p : Party) (e : Env), i.toEnc.isSome = true →
    s.cur = some p → envOf { s with cur := none } p = some e →
    (e.g.isCtl = true → i.controlOk = false → exec i s = .next (e.stopped 1)) ∧
    (e.g.isCtl = false → i.privileged = true → Traps i s e 0x18) ∧
    (e.g.isCtl = false → i.privileged = false → i.overBudget e.g.budget = true → Traps i s e 0x01) ∧
    ((i.pends = true → e.lanesFor i ≠ 0 → e.pending.length < 32) → e.g.isCtl = false → i.privileged = false →
      i.overBudget e.g.budget = false → e.damaged i i.guard ≠ none → Traps i s e 0x15) ∧
    ((i.pends = true → e.pending.length < 32) → e.g.isCtl = true → i.controlOk = true → e.damaged i i.guard ≠ none →
      exec i s = .next (e.stopped 0x15))) ∧
  (∀ (i : Instr) (s : State) (p : Party) (e : Env), i.toEnc.isSome = true → i.pends = true →
    s.cur = some p → envOf { s with cur := none } p = some e → 32 ≤ e.pending.length →
    (e.g.isCtl = false → i.privileged = false → i.overBudget e.g.budget = false → e.lanesFor i ≠ 0 →
      exec i s = .next (State.settle { s with cur := none } e.gid e.sub.mask)) ∧
    (e.g.isCtl = true → i.controlOk = true → exec i s = .next (State.settle { s with cur := none } e.gid e.sub.mask)))

/-- R56: a privileged instruction in team code raises fault 0x18, and so does a word of a privileged opcode that would fail another
check (R59). -/
def Obligations.PrivilegedWordsTrapInTeamCode : Prop := ∀ (s : State) (p : Party) (e : Env),
  s.cur = some p → envOf { s with cur := none } p = some e → e.g.isCtl = false →
  (∀ f : RWord, ∀ i ∈ [Instr.csrr f, .csrw f, .iret f, .halt f, .tlbi f, .msgrd f, .msgwr f, .launch f, .lwait f, .lwaitCancel f, .cntc f],
    Traps i s e 0x18) ∧
  (∀ w r, bitOf w 62 = false → opPrivileged (opcodeOf w) = true → decodeWord w = .error r → e.rejectCode w r = 0x18)

/-- R360: TRAP and BRK raise faults 0x14 and 0x13 with their number in the record, and stop the control program in control code;
without an executing lane they have no effect. -/
def Obligations.TrapWordsComplete : Prop := ∀ (s : State) (e : Env),
  (∀ f, Issues (.trap f) s e → e.g.isCtl = false → e.exec f.k ≠ 0 → ∃ r : FaultRec,
    exec (.trap f) s = .next (e.trapped r) ∧ r.code = 0x14 ∧ r.arg = BitVec.ofNat 64 f.lo.val ∧ r.fpc = e.pc) ∧
  (∀ f, Issues (.brk f) s e → e.g.isCtl = false → e.exec f.k ≠ 0 → ∃ r : FaultRec,
    exec (.brk f) s = .next (e.trapped r) ∧ r.code = 0x13 ∧ r.arg = BitVec.ofNat 64 f.lo.val ∧ r.fpc = e.pc) ∧
  (∀ f, Issues (.trap f) s e → e.g.isCtl = false → e.exec f.k = 0 → Effect (.trap f) s e (· = e.s)) ∧
  (∀ f, Issues (.brk f) s e → e.g.isCtl = false → e.exec f.k = 0 → Effect (.brk f) s e (· = e.s)) ∧
  (∀ f, Issues (.trap f) s e → e.g.isCtl = true → exec (.trap f) s = .next (e.stopped 0x14)) ∧
  (∀ f, Issues (.brk f) s e → e.g.isCtl = true → exec (.brk f) s = .next (e.stopped 0x13))

/-- R359 and R360: the control interrupt, with IE set, IN clear and a cause pending, saves the program counter in EPC, sets IN and goes to
TVEC. IRET in the handler goes to EPC and clears IN; outside it, it faults. That IRET also clears the debug request is the model's
choice (log entry 19). -/
def Obligations.InterruptAndReturnComplete : Prop := ∀ (s : State) (cid : Nat) (c : Ctx) (g : Group) (e : Env),
  (tget cid s.ctxs = some c → tget (ctlGid cid) s.groups = some g → c.state = .resident → c.ien = true →
    c.inHandler = false → ecause s cid c ≠ 0 → g.parked ≠ .marker →
    exec (.controlInterrupt cid) s = .next ((s.putC cid { c with epc := g.pcOf 1, inHandler := true }).putG (ctlGid cid)
      { g with slices := g.slices.modify 0 fun x => { x with pc := c.tvec },
               subs := g.subs.map fun x => if x.mask == 1 then { x with park := .none } else x })) ∧
  (∀ f, Issues (.iret f) s e → e.g.isCtl = true → e.gid = ctlGid e.cid → e.ctx.inHandler = true → ∃ t,
    exec (.iret f) s = .next (e.gone (.iret f) t) ∧ t = { e.s with ctxs := t.ctxs, groups := t.groups } ∧
    tget e.cid t.ctxs = some { e.ctx with inHandler := false, debugReq := false } ∧
    tget e.gid t.groups = some { e.g with slices := e.g.slices.modify 0 fun x => { x with pc := e.ctx.epc } } ∧
    (∀ k, k ≠ e.gid → tget k t.groups = tget k e.s.groups) ∧ (∀ k, k ≠ e.cid → tget k t.ctxs = tget k e.s.ctxs)) ∧
  (∀ f, Issues (.iret f) s e → e.g.isCtl = true → e.ctx.inHandler = false → exec (.iret f) s = .next (e.stopped 1))

/-- R359 and R360: CSRR reads every CSR that the chapter describes and CSRW writes those that it can write, with the effects of writing
FRHEAD, TEAMCTL and CPYCTL; a reserved or read-only one stops the control program. TLBI drops the translations of the pages that its
range meets. HALT waits for every launch, then ends the control program and reports the event, whose code the spec does not state
(entry 7 of the log: a free value); a CHECKPOINT still in flight is answered INVALID (entry 16). That TEAMCTL actions 2 and 3 have no
effect and that FRHEAD takes the low 8 bits are the model's readings (log entry 32). -/
def Obligations.ControlRegistersComplete : Prop := ∀ (s : State) (e : Env), e.g.isCtl = true →
  let v := fun o => e.rd64 0 o
  let read := fun (f : RWord) x => Effect (.csrr f) s e (· = e.s.modG e.gid fun g => g.wrD true f.d 0 x)
  let write := fun (f : RWord) (t : State) => Effect (.csrw f) s e (· = t)
  (∀ f, Issues (.csrr f) s e → (f.lo = 0 → read f e.ctx.tvec.toNat) ∧ (f.lo = 1 → read f e.ctx.epc.toNat) ∧
    (f.lo = 2 → read f (ecause e.s e.cid e.ctx)) ∧
    (f.lo = 3 → read f ((if e.ctx.ien then 1 else 0) + (if e.ctx.inHandler then 2 else 0))) ∧
    (f.lo = 4 → read f e.ctx.frhead.toNat) ∧ (f.lo = 5 → read f e.ctx.frtail.toNat) ∧ (f.lo = 6 → read f e.ctx.tkey.toNat) ∧
    (f.lo = 7 ∨ f.lo = 8 → read f 0) ∧ (f.lo = 9 → read f e.ctx.f.cores) ∧ (f.lo = 10 → read f e.ctx.f.ptroot) ∧
    (f.lo = 11 → read f e.ctx.f.debugCtl.toNat) ∧ (12 ≤ f.lo.val → exec (.csrr f) s = .next (e.stopped 1))) ∧
  (∀ f, Issues (.csrw f) s e →
    (f.lo = 0 → v f.a % 8 = 0 → write f (e.s.modC e.cid fun c => { c with tvec := BitVec.ofNat 64 (v f.a) })) ∧
    (f.lo = 0 → v f.a % 8 ≠ 0 → exec (.csrw f) s = .next (e.stopped 1)) ∧
    (f.lo = 1 → write f (e.s.modC e.cid fun c => { c with epc := BitVec.ofNat 64 (v f.a) })) ∧
    (f.lo = 3 → write f (e.s.modC e.cid fun c => { c with ien := bitOf (v f.a) 0 })) ∧
    (f.lo = 4 → write f ((e.s.modC e.cid fun c => { c with frhead := BitVec.ofNat 8 (v f.a) }).ringDrain e.cid)) ∧
    (f.lo = 6 → write f (e.s.modC e.cid fun c => { c with tkey := BitVec.ofNat 64 (v f.a) })) ∧
    (f.lo = 7 → fld (v f.a) 32 2 = 0 → write f (e.s.teamResume e.cid (fld (v f.a) 0 32))) ∧
    (f.lo = 7 → fld (v f.a) 32 2 = 1 → write f (e.s.teamTerminate e.cid (fld (v f.a) 0 32))) ∧
    (f.lo = 7 → 2 ≤ fld (v f.a) 32 2 → write f e.s) ∧
    (f.lo = 8 → bitOf (v f.a) 32 = false → write f (e.s.cpyResume e.cid (fld (v f.a) 0 32))) ∧
    (f.lo = 8 → bitOf (v f.a) 32 = true → write f (e.s.cpyCancel e.cid (fld (v f.a) 0 32))) ∧
    (f.lo = 2 ∨ f.lo = 5 ∨ 9 ≤ f.lo.val → exec (.csrw f) s = .next (e.stopped 1))) ∧
  (∀ f, Issues (.tlbi f) s e → Effect (.tlbi f) s e fun t => t = { e.s with tcache := t.tcache, walks := t.walks } ∧
    let left := fun (k : Nat) => cacheCtx k = e.cid → v f.b ≠ 0 ∧ ¬((cachePages k).1 < v f.a + v f.b ∧ v f.a < (cachePages k).2)
    (∀ k, k ∈ t.tcache ↔ k ∈ e.s.tcache ∧ left k) ∧ ∀ k, k ∈ t.walks ↔ k ∈ e.s.walks ∧ left k) ∧
  (∀ f, Issues (.halt f) s e → (∀ l ∈ e.s.launchesOf e.cid, l.2.isDone = true) → ∃ (x : Nat) (t : State),
    exec (.halt f) s = .next (e.gone (.halt f) t) ∧ t.groups = tdel e.gid e.s.groups ∧
    tget e.cid t.ctxs = some { e.ctx with state := .idle, checkpointReq := false } ∧
    t.reports = e.s.reports ++ [.event e.cid .idle x] ++ (if e.ctx.checkpointReq then [.answer e.cid 6 2 0 0] else []) ∧
    t = { e.s with groups := t.groups, ctxs := t.ctxs, reports := t.reports, freeCtr := t.freeCtr }) ∧
  (∀ f, Issues (.halt f) s e → (∃ l ∈ e.s.launchesOf e.cid, l.2.isDone = false) →
    exec (.halt f) s = .next (e.parked (.halt f) .halt e.s))

/-- R376 to R378: RNG gives each executing lane the words of Philox-4x32-10 at its counter, or the first as a fraction, and counts
the draw. R381 to R383: CNTR gives the counter that its operand selects; CNTC sets a counter's configuration and may clear
it. -/
def Obligations.CounterWordsComplete : Prop := ∀ (s : State) (e : Env),
  (∀ f, Issues (.rng f) s e →
    let x := fun l => philox ((sget 0 e.g.draws l).toNat, 32 * gidG e.gid + l, e.team.team, low 32 (e.rd64 l f.a))
      (low 32 (lidKey e.lid)) (low 32 (lidKey e.lid / 2 ^ 32))
    let ws := fun l => match f.m.val with
      | 0 => [(x l).1]
      | 1 => [(roundFp f32 .rne false false ((x l).1 / 256) (-24)).1]
      | _ => [(x l).1, (x l).2.1, (x l).2.2.1, (x l).2.2.2]
    Effect (.rng f) s e (· = e.s.putG e.gid { e.g with
      pend := e.g.pend ++ (e.laneChange f (if f.m == 2 then 4 else 1) ws fun _ => 0).new,
      nextPend := e.g.nextPend + (e.laneChange f (if f.m == 2 then 4 else 1) ws fun _ => 0).new.length,
      draws := written 0 e.g.draws ((e.execLanes f.k).map fun l => (l, sget 0 e.g.draws l + 1)) })) ∧
  (∀ f v x, Issues (.cntr f) s e → e.acts f.k → e.agreed f.k [f.a] = .ok [v] → e.counterOf v = .ok x →
    Completes (.cntr f) s e { new := [e.scalarResult f x] }) ∧
  (∀ f, Issues (.cntc f) s e →
    let a := e.rd64 0 f.a
    let b := e.rd64 0 f.b
    let k := if bitOf a 4 then mscCounter e.cid (fld a 16 10) (fld a 0 4) else coreCounter e.cid (fld a 16 10) (fld a 0 4)
    a < 2 ^ 26 → fld a 5 11 = 0 → b < 2 ^ 15 → eventOk (bitOf a 4) (fld b 0 8) = true →
    (if bitOf a 4 then fld a 0 4 < 4 ∧ fld a 16 10 < 4 else fld a 16 10 < e.ctx.f.cores) →
    Effect (.cntc f) s e (· = { e.s with
      counterCfg := sset 0 e.s.counterCfg k (BitVec.ofNat 64 (fld b 0 14)),
      counters := if bitOf b 14 then sset 0 e.s.counters k 0 else e.s.counters,
      counterOvf := if bitOf b 14 then e.s.counterOvf.filter (· != k) else e.s.counterOvf }))

/-! ### Markers -/

/-- R44, R46 and R48: at a marker whose pending results have all returned without a failure, the registers take their words in the
order of issue, the slices' STATUS copies take the flags, those results leave the list, and the sub-gang goes on; while one is
outstanding, the sub-gang waits at the marker. A failed one is taken as its fault, with RPC at the marker. R44 and R172: the return of
a pending result marks it returned, and the parties of a running group that wait for it go on; the array finishes the oldest word of
a group's tile queue: MZRO's clears its tile, MSCL's multiplies the rows of its executing lanes, MMA's puts in the tile that it makes,
and the flags of both go to the tile's copy (R85). What an MMA found damaged is logged, in the quadrant's 16 entries, else as OVF, and
raises ME (R183, R184). That MSCL logs nothing, and which groups share the 16 entries, are log entry 23. -/
def Obligations.MarkersAndReturnsComplete : Prop :=
  (∀ (s : State) (gid mask : Nat) (g : Group) (x : SubGang),
    tget gid s.groups = some g → g.sub mask = some x → s.undoOn gid = false →
    let mine := g.pend.filter fun p => p.slices &&& mask != 0
    (g.allReturned mask = false →
      s.settle gid mask = s.putG gid (g.modSub mask fun x => { x with park := .marker })) ∧
    (g.allReturned mask = true → g.failedPend mask = none → ∃ g' : Group, s.settle gid mask = s.putG gid g' ∧
      g'.vreg = written 0 g.vreg (mine.flatMap fun p => p.vw.filter fun w => bitOf mask (w.1 % 32 / 4)) ∧
      g'.sreg = written 0 g.sreg (mine.flatMap fun p => p.sw.filter fun w => bitOf mask (w.1 % 8)) ∧
      g'.badV = g.badV.filter (fun k => !(mine.any fun p => p.vw.any fun w => bitOf mask (w.1 % 32 / 4) && w.1 == k)) ∧
      g'.badS = g.badS.filter (fun k => !(mine.any fun p => p.sw.any fun w => bitOf mask (w.1 % 8) && w.1 == k)) ∧
      (∀ p ∈ g'.pend, p.slices &&& mask = 0) ∧
      g'.subs = g.subs.map (fun y => if y.mask == mask then { y with park := .none } else y) ∧
      (∀ n : Nat, g'.slices[n]? = (g.slices[n]?).map fun y => { y with status :=
        (mine.flatMap fun p => p.flags.filter fun w => bitOf mask (w.1 / 4) && w.1 / 4 == n).foldl (fun st w => st ||| w.2) y.status }) ∧
      g'.wrote = g.wrote + g.pend.countP (fun p => (p.only mask).vw != [] || (p.only mask).sw != []) ∧
      g' = { g with vreg := g'.vreg, sreg := g'.sreg, badV := g'.badV, badS := g'.badS, pend := g'.pend, subs := g'.subs,
                    slices := g'.slices, wrote := g'.wrote }) ∧
    (∀ r, g.allReturned mask = true → g.failedPend mask = some r → s.settle gid mask =
      faultGroup (s.putG gid (g.modSub mask fun x => { x with park := .marker })) gid mask
        { r with rpc := x.lastPc, slice := lowest mask, marker := true })) ∧
  (∀ (s : State) (gid idx : Nat),
    let back := fun (p : Pend) => if p.idx == idx then { p with returned := true } else p
    let t := s.modG gid fun g => { g with pend := (g.pend.map back).filter fun p => p.slices != 0 || !p.returned }
    (s.gidRuns gid = false → exec (.pendingResultReturn gid idx) s = .next t) ∧
    (s.gidRuns gid = true → exec (.pendingResultReturn gid idx) s = .next (t.resettle gid)) ∧
    (∀ g k rest, tget gid s.groups = some g → g.tileQ = .zero k :: rest → exec (.tileOpComplete gid) s =
      .next (s.putG gid { g with tileQ := rest, tiles := tput k {} g.tiles })) ∧
    (∀ g pc k fmr a b badA badB rest, tget gid s.groups = some g → g.tileQ = .mma pc k fmr a b badA badB :: rest →
      let r := mmaRun (g.tile k) k fmr a b badA badB
      ∃ g' : Group, exec (.tileOpComplete gid) s = .next ((s.putG gid g').logBad gid pc r.2.2) ∧
        tget k g'.tiles = some { r.1 with flags := (g.tile k).flags ||| BitVec.ofNat 32 r.2.1 } ∧
        (∀ j, j ≠ k → tget j g'.tiles = tget j g.tiles) ∧ g' = { g with tileQ := rest, tiles := g'.tiles }) ∧
    (∀ g k ty ex f rest, tget gid s.groups = some g → g.tileQ = .scale k ty ex f :: rest →
      let wide := ty == .f64
      let n := if wide then 16 else 32
      let fm := if wide then f64 else f32
      let out := fun x => mulFp fm .rne false (unpackFp fm ((g.tile k).get wide x).1) (unpackFp fm ((f[x / n]?).getD 0).toNat)
      ∃ g' : Group, exec (.tileOpComplete gid) s = .next (s.putG gid g') ∧
        (∀ x < n * n, (g'.tile k).get wide x = if bitOf ex.toNat (x / n) = true then ((out x).1 % 2 ^ (if wide then 64 else 32), false)
          else (g.tile k).get wide x) ∧
        (g'.tile k).flags = (g.tile k).flags |||
          BitVec.ofNat 32 (((List.range (n * n)).filter fun x => bitOf ex.toNat (x / n)).foldl (fun fl x => fl ||| (out x).2) 0) ∧
        (∀ j, j ≠ k → tget j g'.tiles = tget j g.tiles) ∧ g' = { g with tileQ := rest, tiles := g'.tiles }) ∧
    (∀ pc, s.logBad gid pc [] = s) ∧
    (∀ g pc c, tget gid s.groups = some g → let full := 16 ≤ s.quadLog gid
      s.logBad gid pc [c] = s.modG gid fun g => { g.raiseAll fME with
        errLog := if full then g.errLog else g.errLog ++ [(pc, c)], errOvf := if full then true else g.errOvf }) ∧
    (∀ pc c l, s.logBad gid pc (c :: l) = (s.logBad gid pc [c]).logBad gid pc l))


/-! ### The visibility ladder, barriers and phases -/

/-- R215, R231 to R235: CMIT.T makes the group's writes T-pending; RFSH.T, with the team token, shows it the ordered values, and
waits without it; ABRT.G drops its G-level writes and goes to its target; FENCE waits for the operations of its sub-gang and
then joins them. -/
def Obligations.LadderWordsComplete : Prop := ∀ (s : State) (e : Env),
  (∀ f, Issues (.cmitT f) s e → e.whole = true → Effect (.cmitT f) s e (· = e.s.putG e.gid (e.g.cmitT e.team))) ∧
  (∀ f, Issues (.rfshT f) s e → e.s.tokenHolds e.team e.tid e.gid = true → Effect (.rfshT f) s e (· =
    e.s.putG e.gid (e.levelled (fun x => x.lvl.act (e.team.ordered.map fun w => .seen e.team.tcount w.1 w.2))
      e.g.lines e.g.contrib))) ∧
  (∀ f, Issues (.rfshT f) s e → e.s.tokenHolds e.team e.tid e.gid = false →
    exec (.rfshT f) s = .next (e.parked (.rfshT f) .token e.s)) ∧
  (∀ f t, Issues (.abrtG f) s e → e.whole = true → e.target f.disp = some t → ∃ g : Group,
    exec (.abrtG f) s = .next (e.gone (.abrtG f) (e.s.putG e.gid g)) ∧
    (∀ n, g.slices[n]? = (e.g.slices[n]?).map fun x => if n < 8 then { x with pc := t } else x) ∧
    (∀ x ∈ g.subs, x.lvl = { view := e.g.tbase }) ∧ g.lines = [] ∧ g.contrib = 0 ∧
    g = { e.g with slices := g.slices, subs := g.subs, lines := [], contrib := 0 }) ∧
  (∀ f, Issues (.fence f) s e → (∀ o ∈ e.fenceOps, o.2.isDone = true) → e.g.isCtl = false →
    Effect (.fence f) s e (· = e.fenceOps.foldl (fun t o =>
      if e.team.dealtAway (gidG e.gid) o.2 then t else t.joinOp e.gid e.sub.mask o.1) e.s)) ∧
  (∀ f, Issues (.fence f) s e → (∀ o ∈ e.fenceOps, o.2.isDone = true) → e.g.isCtl = true →
    Effect (.fence f) s e (· = e.controlJoin)) ∧
  (∀ f, Issues (.fence f) s e → (∃ o ∈ e.fenceOps, o.2.isDone = false) →
    exec (.fence f) s = .next (e.parked (.fence f) (if e.g.isCtl then .ctlFence else .fence) e.s))

/-- R215 to R217: after CMIT.T the group holds no G-level lines, its round has ended, and its operations of the round, in order,
follow its earlier T-pending ones; its view is as it was. R219 and R220: a commit at D deposits the team's next round, with
its plain writes and its token-applied operations by group, and takes the committed image. -/
def Obligations.CommitsDeposit : Prop := ∀ (g : Group) (t : Team) (x : SubGang) (l : Launch),
  (g.subs = [x] → g.late t = false →
    (g.cmitT t).lines = [] ∧ (g.cmitT t).contrib = 0 ∧ (g.cmitT t).round = g.round + 1 ∧
    (g.cmitT t).tops = g.tops ++ x.lvl.ops.filter (fun o => !o.isSeen) ∧ (g.cmitT t).tlines = nunion g.tlines g.lines ∧
    (g.cmitT t).tmem = g.tmem.andThen x.lvl.gmem ∧ (g.cmitT t).subs.map (·.lvl.view) = [x.lvl.view] ∧
    (g.cmitT t).vreg = g.vreg ∧ (g.cmitT t).sreg = g.sreg ∧ (g.cmitT t).slices = g.slices) ∧
  ((t.commitD l).rounds =
      t.rounds ++ [{ k := t.nrounds + 1, plain := t.dmem, toks := roundOrder t.toks, full := t.fullSnap.isSome }] ∧
    (t.commitD l).nrounds = t.nrounds + 1 ∧ (t.commitD l).dmem = {} ∧ (t.commitD l).toks = [] ∧
    (t.commitD l).dImg = l.committed t.data ∧ (t.commitD l).cImg = t.cImg ∧ (t.commitD l).data = t.data) ∧
  (∀ a, mget (l.committed t.data).data a = if a < l.layout.pool then mget t.data.data a else 0)

/-- R218: a team-collective word, issued by a whole gang that owes no fault and whose deferred refresh, if any, is not of an open
phase, stands as its group's arrival until the team's groups match. GBAR and TSBAR need a co-resident grid (R374). That a deferred refresh
runs at every one of these words and joins no operation there (`State.catchUp`) is the model's reading (log entry 31, DEDUCED): R369, R371
and R372 name BAR, ARRV and WAIT. -/
def Obligations.CollectiveWordsArrive : Prop := ∀ (s : State) (e : Env), e.whole = true → e.g.owed = none → e.deferOpen = none →
  let arrives := fun (i : Instr) (c : Coll) => exec i s = .next (e.parked i (.coll c) (e.s.catchUp e.gid))
  (∀ f, Issues (.cmitC f) s e → arrives (.cmitC f) .cmitC) ∧
  (∀ f, Issues (.cmitD f) s e → arrives (.cmitD f) .cmitD) ∧
  (∀ f, Issues (.trig f) s e → arrives (.trig f) .trig) ∧
  (∀ f, Issues (.rfshD f) s e → e.sub.park ≠ .rfshD → arrives (.rfshD f) .rfshD) ∧
  (∀ f t, Issues (.abrtT f) s e → e.target f.disp = some t → arrives (.abrtT f) (.abrtT t)) ∧
  (∀ f a b q, Issues (.qinit f) s e → e.agreed f.k [f.a, f.b] = .ok [a, b] → e.queueNo a 0x3F0F = .ok q →
    arrives (.qinit f) (.qinit (BitVec.ofNat 64 a) (BitVec.ofNat 64 b))) ∧
  (∀ f, Issues (.gbar f) s e → e.lch.lr.coop = true → arrives (.gbar f) .gbar) ∧
  (∀ f, Issues (.tsbar f) s e → e.lch.lr.coop = true → arrives (.tsbar f) .tsbar) ∧
  (∀ f, Issues (.cbar f) s e → exec (.cbar f) s = .next (e.parked (.cbar f) .cbar e.s)) ∧
  (∀ f, Issues (.bar f) s e → exec (.bar f) s = .next (e.parked (.bar f) (.bar e.g.arrivals.toNat)
    ((e.s.catchUp e.gid).modG e.gid fun g => { g.cmitT e.team with arrivals := g.arrivals + 1 })))

/-- R235: an RFSH.D whose dependences have completed gives its team their writes over the D snapshot, and of every byte that none of them wrote
what the D snapshot holds. R369 and R371: ARRV returns
the number of its phase and goes on; WAIT goes on at once for an older phase than its last, and for its last phase once that has
completed, when it joins the phase's operations and refreshes; a phase too far back sets ST. -/
def Obligations.PhaseWordsComplete : Prop := ∀ (s : State) (e : Env),
  (∀ f, Issues (.rfshD f) s e → e.sub.park = .rfshD → e.depsDone = true → e.g.owed = none → Effect (.rfshD f) s e (· =
    e.s.modT e.tid fun t => { t with fullSnap := some (t.fullSnap.getD (e.s.withDeps e.lch e.lch.totalAtClose e.lch.snap)) })) ∧
  (let img := e.s.withDeps e.lch e.lch.totalAtClose e.lch.snap;
    (e.lch.early = [] → img = e.lch.snap) ∧
    ∀ a, (∀ x ∈ e.s.launches, x.1 ∈ e.lch.seen ∨ x.1 ∈ e.lch.early → ∀ w ∈ x.2.total.b ++ x.2.base.b, w.1 ≠ a) →
      (∀ w ∈ e.lch.base.b ++ e.lch.totalAtClose.b, w.1 ≠ a) → mget img.data a = mget e.lch.snap.data a) ∧
  (∀ f, Issues (.rfshD f) s e → e.sub.park = .rfshD → e.depsDone = false →
    exec (.rfshD f) s = .next (e.parked (.rfshD f) .rfshD e.s)) ∧
  (∀ f, Issues (.arrv f) s e → e.whole = true → e.g.owed = none → e.g.deferred = none → Effect (.arrv f) s e (· =
    e.s.putG e.gid { e.g.cmitT e.team with
      pend := e.g.pend ++ [e.scalarResult f e.g.arrivals.toNat], nextPend := e.g.nextPend + 1,
      arrivals := e.g.arrivals + 1, deferred := some e.g.arrivals })) ∧
  (∀ f p, Issues (.wait f) s e → e.whole = true → e.agreed f.k [f.a] = .ok [p] → p < 2 ^ 16 →
    let d := e.g.arrivals - 1 - BitVec.ofNat 16 p
    (d = 1 → Effect (.wait f) s e (· = e.s)) ∧
    (d ≠ 0 → d ≠ 1 → Effect (.wait f) s e (· = e.s.putG e.gid (e.g.raiseAll fST))) ∧
    (d = 0 → e.g.owed = none → e.deferOpen = none →
      Effect (.wait f) s e (· = (e.s.joinPhase e.gid (BitVec.ofNat 16 p)).catchUp e.gid)) ∧
    (∀ q, d = 0 → e.g.owed = none → e.deferOpen = some q → exec (.wait f) s = .next (e.parked (.wait f) (.phase q) e.s)))

/-- R218: when every live group of a running team stands at the same team-collective word, the match performs it: the commits of
R219, the abort of R233, QINIT, the trigger, and the arrival at the grid's barriers. R368: a phase at which every live group
has arrived and whose operations are done completes, and the team's phase number rises. R200, R216, R217 and R87: the T-close of both puts
the ordered values into team data and runs on it the T-pending operations of the groups in ascending order, each by its rule; it raises
their flags, and SC where two groups meet; the groups' memory writes follow in the same order; it charges a pre-image line for each line
that changed; and every view but a deferred one becomes the merged data. R370: a cluster all of whose groups
stand at CBAR goes on with its new snapshot. R233: ABRT.T gives the team's data back as its last commit left it, drops what its groups had not
committed, and each group goes to its own target. R274: QINIT makes the queue as declared, or every group takes 0x01 or 0x0B at it. R235:
RFSH.D closes the T-interval and parks the groups until the dependences have completed. R374: GBAR and TSBAR commit to D, mark the team as
arrived at the grid, and park its groups there; the team runs on from there only at the close of the D-interval (R225). R218: groups that stand at different team-collective words: the lowest that
differs from the lowest live group takes fault 0x03 at its word. R349, R353 and R354: a trapped team takes its context's lowest free
trap slot: its tile queues have drained, its summary stands at the slot, the slot is taken, and its fault is queued in the fault
ring; a stop for the debugger is reported. That tile words finish first, and operations on ring bytes, are log entries 23 and 22. -/
def Obligations.TeamEventsComplete : Prop :=
  (∀ (s : State) (tid : Nat) (tm : Team), tget tid s.teams = some tm →
    (∀ c, s.matchReady tid = true → mismatch tm (s.liveGroups tid) = none →
      ((s.liveGroups tid).head?.bind fun g => g.2.arrival tm) = some (.coll c) →
      exec (.teamCollectiveMatch tid) s = .next (s.collEffect tid c)) ∧
    (s.phaseReady tid = true → ∃ t tm', exec (.teamPhaseComplete tid) s = .next t ∧ tget tid t.teams = some tm' ∧
      tm'.phase = tm.phase + 1 ∧ t.mem = s.mem ∧ ∀ l c, tget (tidLid tid) s.launches = some l →
        tget tid ((s.runTiles tid).tClose tid false).1.teams = some c → tm'.tcount = c.tcount ∧
          ∀ a < l.layout.rings, mget tm'.data.data a = mget c.data.data a) ∧
    (∀ lid l k, (tkeys s.teams).Nodup → tidLid tid = lid → tget lid s.launches = some l → tm.team / l.lr.clusterN = k →
      s.cbarReady lid k = true → ∃ t, exec (.cbarRelease lid k) s = .next t ∧
        (tget tid t.teams).map (fun x => (x.cphase, x.cSnap)) = some (tm.cphase + 1, tm.cImg) ∧ t.mem = s.mem) ∧
    (let r := (s.cmitAll tid).tClose tid true;
      s.collEffect tid .cmitC = (r.1.commit tid false).goOn tid r.2 ∧ s.collEffect tid .cmitD = (r.1.commit tid true).goOn tid r.2 ∧
      s.collEffect tid .trig =
        ((r.1.commit tid true).modT tid fun t => { t with trigger := some (t.trigger.getD t.nrounds) }).goOn tid r.2 ∧
      s.collEffect tid .rfshD = r.1.parkAll tid .rfshD r.2 ∧
      s.collEffect tid .gbar = ((r.1.commit tid true).modT tid fun t => { t with atGrid := some false }).parkAll tid (.grid false) r.2 ∧
      s.collEffect tid .tsbar = ((r.1.commit tid true).modT tid fun t => { t with atGrid := some true }).parkAll tid (.grid true) r.2) ∧
    (∀ p ovf, let t := s.parkAll tid p ovf
      t = { s with groups := t.groups } ∧ ∀ k, tget k t.groups = (tget k s.groups).map fun g =>
        if k ∈ (s.liveGroups tid).map (·.1) then { g.modSub 255 (fun x => { x with park := p }) with
          owed := if k ∈ ovf then some 8 else g.owed } else g) ∧
    (∀ (a : W64) l, tget (tidLid tid) s.launches = some l → ∃ (u : State) (tm' : Team),
      u = { s with teams := u.teams, groups := u.groups } ∧ (∀ k, k ≠ tid → tget k u.teams = tget k s.teams) ∧
      tget tid u.teams = some tm' ∧ tm' = { tm with data := tm'.data, ordered := [], ordAct := [], dmem := {}, tcount := tm.tcount + 1 } ∧
      (∀ b, mget tm'.data.data b = mget (if b < l.layout.rings then tm.pre.data else tm.data.data) b) ∧
      (∀ b, b ∈ tm'.data.poison ↔ b ∈ if 64 * b < l.layout.rings then tm.pre.poison else tm.data.poison) ∧
      (∀ gid, tget gid u.groups = (tget gid s.groups).map fun g =>
        if gidTid gid = tid ∧ gid < 2 ^ 200 then
          (if tm.live gid = true then { g with
            lines := [], contrib := 0, tops := [], tlines := [], tcon := 0, tmem := {}, topsN := [], tlinesN := [], tconN := 0,
            tmemN := {}, preLines := [], round := g.round + 1, tbase := tm'.data,
            subs := g.subs.map fun x => { x with lvl := { view := tm'.data } } }
           else { g with tops := [], topsN := [], tmem := {}, tmemN := {}, preLines := [] })
        else g) ∧
      s.collEffect tid (.abrtT a) = (u.liveGroups tid).foldl (fun t g => match g.2.parked with
        | .coll (.abrtT p) => t.releaseTo g.1 p | _ => t) u) ∧
    (∀ gid p g x, tget gid s.groups = some g → g.sub 255 = some x →
      let t := s.putG gid ((g.modSlices (List.range 8) fun y => { y with pc := p }).modSub 255 fun y => { y with park := .none })
      s.releaseTo gid p = if x.mark = true then t.marker gid 255 else t) ∧
    (∀ (a b : W64) l, tget (tidLid tid) s.launches = some l →
      let q := fld a.toNat 0 4
      let filler := fld a.toNat 8 6
      let old := (tget q tm.queues).getD {}
      let bad := l.lr.groups ≤ filler ∨ b = 0 ∨ b.toNat / 2 ^ l.lr.groups ≠ 0
      let busy := old.inited = true ∧ ∃ d ∈ old.descs, d.status = 1 ∨ d.status = 6
      let fails := fun code => s.collEffect tid (.qinit a b) = (s.liveGroups tid).foldl (fun t g => t.faultAt g.1 code false) s
      (bad → fails 0x01) ∧ (¬bad → busy → fails 0x0B) ∧
      (¬bad → ¬busy → ∀ n w, l.declOf q = some (n, w) → ∃ u : State, s.collEffect tid (.qinit a b) = (u.skipQueues tid).goOn tid [] ∧
        u = { s with teams := u.teams, ops := u.ops } ∧ (∀ k, k ≠ tid → tget k u.teams = tget k s.teams) ∧
        tget tid u.teams = some { tm with queues := tput q {
          inited := true, slots := n, slotBytes := w, ring := BitVec.ofNat 64 (spbOf tm.team + l.ringOff q), allow := n, filler := filler,
          fdone := tm.left.contains filler, desc0 := l.desc0 q, popMask := b, descs := List.replicate n {} } tm.queues } ∧
        ∀ k, tget k u.ops = if ∃ d ∈ old.descs, d.op = some k then none else tget k s.ops)) ∧
    (∀ gid code closing e, envOf s { gid := gid, mask := 255 } = some e → e.g.isCtl = false → ∃ r : FaultRec,
      s.faultAt gid code closing =
        Env.trapped { e with s := s.modG gid fun g => g.modSub 255 fun x => { x with park := .none } } r ∧
      r.code = code ∧ r.fpc = e.pc ∧ r.rpc = e.pc ∧ r.closing = closing) ∧
    (∀ all : Bool,
      let gs := s.teamGroups tid
      let live := gs.filter fun x => tm.live x.1
      let own := fun (x : Nat × Group) => x.2.tops.filter fun o => !o.isSeen
      let base : Image := { tm.data with data := tm.ordered.foldl (fun m w => mputNat m w.1 4 w.2.toNat) tm.data.data }
      let merged := replay base (gs.flatMap own)
      let shared := fun (f : Group → List Nat) => ∃ x ∈ gs, ∃ y ∈ gs, x.1 ≠ y.1 ∧ ∃ a ∈ f x.2, a ∈ f y.2
      let clashes := shared (fun g => g.tops.flatMap GOp.stores) ∨ shared (fun g => (tkeys g.tmem.b).map (· / 4)) ∨
        ∃ w ∈ tm.ordered, ∃ x ∈ gs, w.1 ∈ x.2.tops.flatMap GOp.words
      let acted := fun (x : Nat × Group) line => (line, x.1) ∈ tm.ordAct ∨ ∃ o ∈ own x, o.line = line
      let t := (s.tClose tid all).1
      t = { s with teams := t.teams, groups := t.groups } ∧ (∀ k, k ≠ tid → tget k t.teams = tget k s.teams) ∧
      ∃ tm', tget tid t.teams = some tm' ∧
        tm' = { tm with data := merged, dmem := tm'.dmem, ordered := [], ordAct := [], tcount := tm.tcount + 1 } ∧
        ((tkeys s.groups).Pairwise (· < ·) → tm'.dmem = gs.foldl (fun m x => m.andThen x.2.tmem) tm.dmem ∧
          ∀ before gid g after (sc : Bool), gs = before ++ (gid, g) :: after → (sc = true ↔ clashes) →
            let r := opFlags (replay base (before.flatMap own)) (own (gid, g))
            let pays := fun line => (∃ l, tget (tidLid tid) s.launches = some l ∧ 64 * line < l.layout.rings) ∧
              ((∃ x ∈ tm.ordAct, x.1 = line) ∨ ∃ x ∈ gs, ∃ o ∈ own x, o.line = line) ∧
              mread tm.data.data (64 * line) 64 ≠ mread merged.data (64 * line) 64 ∧ (∀ x ∈ gs, tget line x.2.preLines = none) ∧
              tm.live gid = true ∧ (acted (gid, g) line ∧ (∀ x ∈ live, x.1 < gid → ¬acted x line) ∨
                (∀ x ∈ live, ¬acted x line) ∧ ∀ x ∈ live, gid ≤ x.1)
            ∃ g', tget gid t.groups = some g' ∧
              g' = { g with tops := g.topsN, topsN := [], tlines := g.tlinesN, tlinesN := [], tcon := g.tconN, tconN := 0, tmem := g.tmemN,
                            tmemN := {}, tbase := g'.tbase, subs := g'.subs, slices := g'.slices, tiles := g'.tiles,
                            preLines := g'.preLines } ∧
              (tm.live gid = true → all = true ∨ g.deferred = none → g'.tbase = replay merged g.topsN ∧
                g'.subs = g.subs.map fun x =>
                  let ops := x.lvl.ops.filter fun o => match o with | .seen tc _ _ | .seenBad tc _ _ => tc == tm.tcount + 1 | _ => true
                  { x with lvl := { x.lvl with ops := ops, view := replay g'.tbase ops } }) ∧
              (tm.live gid = false ∨ all = false ∧ g.deferred ≠ none → g'.tbase = g.tbase ∧ g'.subs = g.subs) ∧
              (∀ n < 8, g'.slices[n]? = (g.slices[n]?).map fun x => if tm.live gid = true then
                { x with status := x.status ||| BitVec.ofNat 32 (if sc then r.2.1 ||| fSC else r.2.1) } else x) ∧
              (∀ k, g'.tile k = { g.tile k with
                flags := (r.2.2.filter fun x => x.1 == k).foldl (fun fl x => fl ||| BitVec.ofNat 32 x.2) (g.tile k).flags }) ∧
              (∀ line, (pays line → tget line g'.preLines = some 8) ∧ (¬pays line → tget line g'.preLines = tget line g.preLines)) ∧
              (gid ∈ (s.tClose tid all).2 ↔ (∃ line, pays line) ∧
                ((tget (tidLid tid) s.launches).elim 0 (·.lr.shadow)) < s.heldLines gid { g with preLines := g'.preLines } [] 0)))) ∧
  (∀ (m : Image) a v n op w code vs ty sat k u b,
    (GOp.store a v).run m = ({ m with data := mputNat m.data a 4 v.toNat }, 0) ∧
    (GOp.atom a n op w).run m = ({ m with data := mputNat m.data a n (match op with
      | 0 => low (8 * n) (mnat m.data a n + w.toNat) | 1 => mnat m.data a n ||| w.toNat | 2 => min (mnat m.data a n) w.toNat
      | _ => w.toNat) }, 0) ∧
    (code ≠ 5 → let r := foldOp (redKind n code).1 (redKind n code).2 false (mnat m.data a n) (vs.filterMap fun v => v.map BitVec.toNat)
      (GOp.red a n code vs).run m = ({ m with data := mputNat m.data a n r.1 }, r.2)) ∧
    (let f := treeFold (redKind n 5).1 (redKind n 5).2 false 5 (vs.map fun v => v.map BitVec.toNat);
      (f.1 = none → (GOp.red a n 5 vs).run m = ({ m with data := mputNat m.data a n (mnat m.data a n) }, 0)) ∧
      ∀ x, f.1 = some x → let r := applyOp (redKind n 5).1 (redKind n 5).2 false (mnat m.data a n) x
        (GOp.red a n 5 vs).run m = ({ m with data := mputNat m.data a n r.1 }, f.2 ||| r.2)) ∧
    (let r := applyOp .add ty sat (mnat m.data a (ty.bits / 8)) w.toNat;
      (GOp.drain a ty sat w k).run m = ({ m with data := mputNat m.data a (ty.bits / 8) r.1 }, r.2)) ∧
    (GOp.poison u b).run m = (m.mark u b, 0)) ∧
  ((∀ (s : State) (tid gid : Nat) (tm : Team) (g : Group) (c : Coll),
      tget tid s.teams = some tm → s.matchReady tid = true → mismatch tm (s.liveGroups tid) = some (gid, g) →
      g.parked = .coll c → exec (.teamCollectiveMatch tid) s = .next (s.faultAt gid 3 false)) ∧
    (∀ (s : State) (tid : Nat) (tm : Team) (l : Launch) (c : Ctx) (k : Nat),
      tget tid s.teams = some tm → tget (tidLid tid) s.launches = some l → tget (lidCtx (tidLid tid)) s.ctxs = some c →
      tm.trapped = true → tm.trapSlot = none → c.freeSlot = some k → c.state = .resident →
      let s1 := (s.liveGroups tid).foldl (fun t g => t.tileFlush g.1) s
      ∃ t, exec (.teamTrap tid) s = .next t ∧
        (tget tid t.teams).map (·.trapSlot) = some (some k) ∧
        (tget tid t.teams).map (·.summary) =
          some (summaryOf c (tidLid tid) l tm (if tm.retired then [] else s1.liveGroups tid)) ∧
        (∃ rs, t.reports = s.reports ++ rs ∧ (tm.debugStop = true → ∃ bs, rs = [.stop bs])) ∧
        (∃ c', tget (lidCtx (tidLid tid)) t.ctxs = some c' ∧ k ∈ c'.trapUsed ∧
          (ringFull c = false → c.waitingRing = [] → c'.frtail = c.frtail + 1))))

/-! ### Rounds, launches and the scheduler -/

/-- R220 and R221: the round at the commit token is applied: its plain writes enter its grid's memory, then its token-applied operations in
turn as far as none waits, and the token moves on; with every team at the close, the first round that is left applies although the token has
not come to it, so that the barrier ends (R28). CPYC and MDRM.add change each word as it then stands, but a poisoned one, and keep their flags for the close (R245,
R246, R176, R177); VINS, VDEL and VACT take their lanes in turn (R307, R309, R310); EMIT puts its record into its batch, waits for batch
b − 4 where it begins one, and forms the launch of a full one (R280, R281). R225: a D-interval whose teams have all come to the close
closes: the next snapshot is the grid's memory. R24 and R289: a closed grid whose teams have retired completes, and its teams are gone.
The model's readings: what a round sees after RFSH.D (log entry 50), batches that share a key (27), lanes that cannot write (28), rounds
that apply before the token comes to them (31), the order of a close's faults and when a team takes an EMIT's (49), and which arenas a close
looks at (58). -/
def Obligations.GridEventsComplete : Prop := ∀ (s : State) (lid : Nat) (l : Launch), tget lid s.launches = some l →
  (∀ k u tm r, s.nextRound lid = some (k, u) → tget (tidOf lid u) s.teams = some tm →
    tm.rounds.find? (fun r => r.k == k) = some r → r.toks = [] → ∃ t l', exec (.roundApply lid) s = .next t ∧
      tget lid t.launches = some l' ∧ l'.total = l.total.andThen r.plain ∧ l'.token = (k, u + 1) ∧
      (r.full = false → l'.now = l.now.apply r.plain) ∧ (r.full = true → l'.now = (l.now.apply r.plain).apply l'.total) ∧
      (tget (tidOf lid u) t.teams).map (·.rounds) = some (tm.rounds.filter fun r => r.k != k) ∧ t.mem = s.mem ∧ t.groups = s.groups) ∧
  (∀ k u tm r, s.nextRound lid = some (k, u) → tget (tidOf lid u) s.teams = some tm →
    tm.rounds.find? (fun r => r.k == k) = some r →
    let early := tm.trigger.elim true fun j => decide (k ≤ j)
    let l1 := { l.put r.plain early with token := (k, u) }
    let s1 := (s.modL lid fun _ => l1.seenAt tm r).modT (tidOf lid u) fun t => { t with ownApplied := t.ownApplied.andThen r.plain }
    let a := s1.applyToks lid (tidOf lid u) early r.toks
    ∃ t la l', exec (.roundApply lid) s = .next t ∧ tget lid a.1.launches = some la ∧ tget lid t.launches = some l' ∧
      l' = { la.unseen l1 r with token := if a.2 = [] then (k, u + 1) else (k, u) } ∧
      t.mem = s.mem ∧ t.groups = s.groups ∧ t.ops = a.1.ops ∧ t.errors = a.1.errors ∧
      (tget (tidOf lid u) t.teams).map (·.rounds) = some (if a.2 = [] then tm.rounds.filter fun r => r.k != k
        else tm.rounds.map fun r => if r.k == k then { r with plain := {}, toks := a.2 } else r) ∧
      (a.2 = [] → ∀ f x, f ≠ lid → sourceOf f = lid → tget f a.1.launches = some x → x.fixed = false →
        tget f t.launches = some { x with base := la.total, fixed := true })) ∧
  (∀ tid early, s.applyToks lid tid early [] = (s, []) ∧ ∀ g op rest,
    (s.applyTok lid tid early (tid * 64 + g) op = none → s.applyToks lid tid early ((g, op) :: rest) = (s, (g, op) :: rest)) ∧
    ∀ t, s.applyTok lid tid early (tid * 64 + g) op = some t →
      s.applyToks lid tid early ((g, op) :: rest) = t.applyToks lid tid early rest) ∧
  (∀ early, l.readModify early [] = (l, [], false) ∧ ∀ key n gid slot (f : Nat → Nat × Nat) ws,
    (l.now.bad key n = true → l.readModify early [(key, n, f, gid, slot)] = (l, [0], true)) ∧
    (l.now.bad key n = false → let r := f (mnat l.now.data key n)
      l.readModify early [(key, n, f, gid, slot)] = ({ l.put { b := cells key (leBytes n r.1) } early with
        flagsDue := if r.2 = 0 then l.flagsDue else l.flagsDue ++ [(gid, slot, r.2)] }, [mnat l.now.data key n], false)) ∧
    (let x := l.readModify early [(key, n, f, gid, slot)]; let y := x.1.readModify early ws;
      l.readModify early ((key, n, f, gid, slot) :: ws) = (y.1, x.2.1 ++ y.2.1, x.2.2 || y.2.2))) ∧
  (∀ tid early gid lanes o (ty : Ty) sat fetch slot hold,
    let n := ty.bits / 8
    let r := l.readModify early (lanes.map fun x =>
      (x.2.1, n, (fun old => cpycNew o ty sat old x.2.2.1.toNat x.2.2.2.toNat), gid, x.1 / 4))
    let t := (s.putL lid r.1).noteReads tid (lanes.foldl (fun ls x => nins (x.2.1 / 128) ls) [])
    let olds := (List.range 32).flatMap fun i =>
      leBytes n (((((lanes.map (·.1)).zip r.2.1).find? fun x => x.1 == i).map (·.2)).getD 0)
    let u := (if fetch then t.slotBytesAt tid slot olds else t).fillSlot tid slot (if r.2.2 then 3 else 2) none
    s.applyTok lid tid early gid (.cpyc lanes o ty sat fetch slot hold) = some (hold.elim u fun id =>
      { u with ops := tmod id (fun o => { o with state := .done 2 }) u.ops })) ∧
  (∀ ty sat old a b, cpycNew 0 ty sat old a b = applyOp .add ty sat old a ∧ cpycNew 1 ty sat old a b = (old ||| a, 0) ∧
    cpycNew 2 ty sat old a b = (old &&& a, 0) ∧ cpycNew 3 ty sat old a b = applyOp .min ty sat old a ∧
    cpycNew 4 ty sat old a b = applyOp .max ty sat old a ∧ cpycNew 5 ty sat old a b = (a, 0) ∧
    cpycNew 6 ty sat old a b = (if old = a then b else old, 0)) ∧
  (∀ tid early gid es ty sat tile,
    s.applyTok lid tid early gid (.mdrm es ty sat tile) = some { s.putL lid (l.readModify early (es.map fun x =>
        (x.1, drainElem ty, (fun old => applyOp .add ty sat old x.2.toNat), gid, 16 + tile))).1 with
      errors := s.errors ++ (es.filter fun x => l.now.bad x.1 (drainElem ty)).map fun x => .error (.memory x.1) }) ∧
  (∀ tid early gid ins ls (h : W64) slot clr,
    let app : App := { tm := { s := s, cid := lidCtx lid, img := l.now } }
    let r := app.alloc ins h.toNat ls
    s.applyTok lid tid early gid (.alloc ins ls h slot) = some (((s.putL lid { l.put r.1.w early with
      trees := nins h.toNat l.trees }).slotBytesAt tid slot (allocSlot r.2).1).fillSlot tid slot (allocSlot r.2).2 none) ∧
    s.applyTok lid tid early gid (.vact clr ls h) = some (s.putL lid { l.put (app.vact clr h.toNat ls).w early with
      trees := nins h.toNat l.trees })) ∧
  -- a close puts the PLEAF list of each arena of these trees before its FLEAF list
  (∀ (a : App), a.reclaim [] = a ∧ ∀ hv h ar top lim fl pl, a.tm.header hv = .ok h → h.arenas.dedup = [ar] →
    a.tm.arena ar = .ok (top, lim, fl, pl) → (pl = 0 → a.reclaim [hv] = a) ∧
      ∀ b c d, pl ≠ 0 → a.put (a.tailOf a.tm.img.data.length pl) 8 fl = .ok b → b.put (ar + 16) 8 pl = .ok c →
        c.put (ar + 24) 8 0 = .ok d → a.reclaim [hv] = d) ∧
  (∀ (a : App) hv lane x y z ls,
    let one := fun ins => a.alloc ins hv [(lane, x, y, z)]
    (∀ ins, let more := (one ins).1.alloc ins hv ls
      (a.alloc ins hv ((lane, x, y, z) :: ls)).1 = more.1 ∧
      (a.alloc ins hv ((lane, x, y, z) :: ls)).2 = (one ins).2 ++ more.2) ∧
    (∀ w ins, (a.tm.header hv = .error w ∨ ∃ h, a.tm.header hv = .ok h ∧ a.tm.goodPath h ⟨x, y, z⟩ = .error w) →
      ∃ st, one ins = (a, [(lane, 0, st)]) ∧ (st = 3 ∨ st = 4)) ∧
    (∀ h p, a.tm.header hv = .ok h → a.tm.goodPath h ⟨x, y, z⟩ = .ok p →
      (p.leaf ≠ 0 → one true = (a, [(lane, p.leaf, 0)])) ∧ (p.leaf = 0 → one false = (a, [(lane, 0, 0)])) ∧
      (p.leaf ≠ 0 → ∃ b hd st, one false = (b, [(lane, hd, st)]) ∧ (hd, st) ∈ [(p.leaf, 1), (0, 3), (0, 4)] ∧ (st ≠ 1 → b = a)) ∧
      (p.leaf = 0 → p.lower ≠ 0 → p.upper ≠ 0 → ∀ top lim fl pl,
        let ar := (h.arenas[h.owner (Pt.origin ⟨x, y, z⟩ 8)]?).getD 0
        let free := (top + 63) / 64 * 64
        a.tm.arena ar = .ok (top, lim, fl, pl) →
        (fl = 0 → lim < free + leafBytes h.vt → one true = (a, [(lane, 0, 2)])) ∧
        (fl ≠ 0 ∨ free + leafBytes h.vt ≤ lim → ∃ b hd st, one true = (b, [(lane, hd, st)]) ∧
          (hd, st) ∈ [(if fl ≠ 0 then fl else ar + free, 1), (0, 3), (0, 4)])) ∧
      (∀ clr, (p.leaf = 0 → a.vact clr hv [(lane, x, y, z)] = a) ∧ (p.leaf ≠ 0 → ∀ old b,
        let at' := p.leaf + 64 + 4 * (Pt.voxel ⟨x, y, z⟩ / 32)
        let bit := 2 ^ (Pt.voxel ⟨x, y, z⟩ % 32)
        a.tm.num at' 4 = .ok old → a.put at' 4 (if clr then old &&& (2 ^ 32 - 1 - bit) else old ||| bit) = .ok b →
          a.vact clr hv [(lane, x, y, z)] = b)))) ∧
  (∀ tid early gid node bytes rec,
    let num := fun (t : State) va n => ((tget lid t.launches).map fun l => t.gridNum (lidCtx lid) l va n).getD 0
    let i := num s (node.aux.toNat + 8) 8
    let bc := max node.gz 1
    let b := i / bc
    let blk := node.aux.toNat + 64 + b % 4 * (64 + node.gz * node.gy)
    let key := lidOf (lidCtx lid) (lidKey lid + (b - 4) + 1)
    let emit := s.applyTok lid tid early gid (.emit node bytes rec)
    let waits := i % bc = 0 ∧ 4 ≤ b ∧ s.isDone key = false
    let put := fun (t : State) va n x => t.gridPut lid va ((leBytes n x).map some) early
    (waits → emit = none) ∧
    (¬waits → 2 ^ 16 ≤ b + 1 → emit = some (s.modT (gidTid gid) fun t =>
      if t.emitFault.any fun x => x.1 == gid then t else { t with emitFault := t.emitFault ++ [(gid, rec)] })) ∧
    (¬waits → b + 1 < 2 ^ 16 →
      let t0 := if i % bc = 0 then put (put s blk 4 0) (blk + 4) 4 b else s
      let nrec := num t0 blk 4
      let t1 := t0.gridPut lid (blk + 64 + i % bc * node.gy) bytes early
      let t2 := (put (put t1 blk 4 (nrec + 1)) (node.aux.toNat + 8) 8 (i + 1)).modL lid fun l =>
        if l.nodes.contains node then l else { l with nodes := l.nodes ++ [node] }
      (nrec + 1 ≠ bc → emit = some t2) ∧
      (nrec + 1 = bc → emit = some (put (t2.form lid node b false) (node.aux.toNat + 16) 4 (num t2 (node.aux.toNat + 16) 4 + 1)))) ∧
    (∀ b fixed, ∃ f, s.form lid node b fixed = s.putL (lidOf (lidCtx lid) (lidKey lid + b + 1)) f ∧ f.base = l.total ∧ f.fixed = fixed ∧
      f.state = .submitted ∧ f.seen = l.seen ∧ f.early = l.early ∧ f.lr = { node with
        gy := 1, gz := 1, node := false, aux := 0,
        args := BitVec.ofNat 64 (node.aux.toNat + 64 + b % 4 * (64 + node.gz * node.gy)) })) ∧
  (∀ k u, s.nextRound lid = none → s.earlyRound lid = some (k, u) →
    exec (.roundApply lid) s = .next ((s.applyRound lid k u).modL lid fun x => { x with token := l.token })) ∧
  (∀ k u, s.earlyRound lid = some (k, u) → s.allAtClose lid = true ∧ (∃ x ∈ s.teamsOf lid, x.2.team = u ∧ ∃ r ∈ x.2.rounds, r.k = k) ∧
    ∀ y ∈ s.teamsOf lid, ∀ r ∈ y.2.rounds, k < r.k ∨ k = r.k ∧ u ≤ y.2.team) ∧
  (s.allAtClose lid = true → s.closeReady lid = (s.earlyRound lid).isNone) ∧
  -- a group leaves the close, or takes the first fault that the close has found for it there
  (∀ tm taker gid g, let fs := s.closeFaults tm taker gid g
    fs.map (·.code) = g.owed.toList ++ (tm.emitFault.filter fun x => x.1 == gid).map (·.2.code) ++ (if taker = some gid then [0x10] else []) ∧
    (∀ r ∈ fs, r.closing = true) ∧ (fs = [] → s.leaveGrid tm taker gid g = s.release gid 255) ∧
    ∀ r rest, fs = r :: rest → s.leaveGrid tm taker gid g = faultGroup (s.modG gid fun g =>
      { g.modSub 255 (fun x => { x with park := .none }) with owed := none, due := rest }) gid 255 r) ∧
  (s.closeReady lid = true → ∃ t l', exec (.dIntervalClose lid) s = .next t ∧ tget lid t.launches = some l' ∧
    l'.snap = l'.now ∧ l'.nowAtClose = l'.now ∧ l'.totalAtClose = l'.total ∧ l'.trigAtClose = l'.trig ∧ l'.flagsDue = [] ∧
    l'.trees = l.trees ∧
    l'.tstep = (if (s.teamsOf lid).any (fun t => t.2.atGrid == some true) then l.tstep + 1 else l.tstep) ∧ t.mem = s.mem) ∧
  (s.completeReady lid = true → ∃ t, exec (.gridComplete lid) s = .next t ∧
    (tget lid t.launches).map (·.state) = some (.done 0) ∧ (∀ k, tidLid k = lid → tget k t.teams = none) ∧ t.mem = s.mem)

/-- R20 to R24, R286 and R289: a submitted launch fails with its dependences, is refused with the status of R20, R22 or R23, or
becomes eligible; a leaf launch has a team for each active leaf, and with none completes; while the scheduler of a die it needs is full, it
waits. A core that can admit its head candidate's teams admits them, each with its groups at the entry. A group
whose lanes have all retired leaves its team: its results are dropped, its frames are unpinned, the queues that it fills end (FDONE), and the
last one deposits the team's last round and retires the team. That a leaf launch whose tree's header does not read has no leaf (log entry 60),
that a launch formed by EMIT and not yet fixed sees its source as it stands (log entry 27),
and what a launch waits for (50), are the model's readings. -/
def Obligations.SchedulerEventsComplete : Prop := ∀ (s : State),
  (∀ cid, exec (.promote cid) s = .next ((s.launchesOf cid).foldl (fun t x => t.promoteOne x.1) s)) ∧
  (∀ lid l c, tget lid s.launches = some l → tget (lidCtx lid) s.ctxs = some c → l.state = .submitted →
    (s.depState lid l = none → s.promoteOne lid = s) ∧
    (s.depState lid l = some false → s.promoteOne lid = s.putL lid { l with state := .done 6 }) ∧
    (∀ st, s.depState lid l = some true → l.refusal = some st → s.promoteOne lid = s.putL lid { l with state := .done st }) ∧
    (s.depState lid l = some true → l.refusal = none → (∀ d ∈ c.dies l.lr.l, s.dieUse d < 256) → l.lr.leaf = false →
      let l := if l.fixed = true then l
        else { l with base := ((tget (sourceOf lid) s.launches).getD {}).total, fixed := true }
      let img := s.visible lid l
      s.promoteOne lid = s.putL lid { l with state := .eligible, code := hImage s, snap := img, now := img, nowAtClose := img,
                                             trees := [] }) ∧
    (s.depState lid l = some true → l.refusal = none → (∀ d ∈ c.dies l.lr.l, s.dieUse d < 256) → l.lr.leaf = true →
      let l := if l.fixed = true then l
        else { l with base := ((tget (sourceOf lid) s.launches).getD {}).total, fixed := true }
      let img := s.visible lid l
      let m : TreeMem := { s := s, cid := lidCtx lid, img := img }
      let promoted := fun (ls : List (Nat × Pt)) => s.promoteOne lid = s.putL lid { l with
        lr := { l.lr with gx := ls.length, gy := 1, gz := 1 }, leaves := ls.map fun x => (BitVec.ofNat 64 x.1, x.2.x, x.2.y, x.2.z),
        state := if ls = [] then .done 0 else .eligible, code := hImage s, snap := img, now := img, nowAtClose := img,
        trees := [l.lr.aux.toNat] }
      (∀ h ls, m.header l.lr.aux.toNat = .ok h → m.activeLeaves h = .ok ls → promoted ls) ∧
      (∀ x, (m.header l.lr.aux.toNat = .error x ∨ ∃ h, m.header l.lr.aux.toNat = .ok h ∧ m.activeLeaves h = .error x) → promoted [])) ∧
    (∀ d ∈ c.dies l.lr.l, s.depState lid l = some true → l.refusal = none → 256 ≤ s.dieUse d → s.promoteOne lid = s)) ∧
  (∀ core lid ts l, s.admitPlan core = some (lid, ts) → tget lid s.launches = some l → l.lr.groups ≤ 64 →
    (∀ u ∈ ts, u < 2 ^ 32) → ∃ t, exec (.admitTeam core) s = .next t ∧ t = { s with teams := t.teams, groups := t.groups } ∧
      ∀ u ∈ ts, tget (tidOf lid u) t.teams = some { team := u, leaf := l.leaves[u]? } ∧
        ∀ g, g < l.lr.groups → tget (gidOf (tidOf lid u) g) t.groups = some (l.newGroup g)) ∧
  (∀ gid tm l, s.retireReady gid = true → tget (gidTid gid) s.teams = some tm → tget (tidLid (gidTid gid)) s.launches = some l →
    let last := ∀ g < l.lr.groups, g = gidG gid ∨ g ∈ tm.left
    ∃ t tm', exec (.groupRetire gid) s = .next t ∧ tget (gidTid gid) t.teams = some tm' ∧ t.mem = s.mem ∧
      tm'.left = nins (gidG gid) tm.left ∧ tm'.pins = tm.pins.filter (fun p => p.2 != gidG gid) ∧
      ((tkeys tm.queues).Nodup → ∀ q x, tget q tm.queues = some x →
        (tget q tm'.queues).map (·.fdone) = some (x.fdone || (x.inited && x.filler == gidG gid))) ∧
      (last → tm'.retired = true ∧ tm'.atGrid = none ∧ tm'.nrounds = tm.nrounds + 1 ∧
        ∀ k < 2 ^ 200, gidTid k = gidTid gid → tget k t.groups = none) ∧
      (¬last → tm'.retired = tm.retired ∧ tm'.nrounds = tm.nrounds ∧ ∃ g', tget gid t.groups = some g' ∧ g'.pend = [] ∧ g'.recs = [] ∧
        g'.lines = []))

/-! ### Matrix words -/

/-- R164 to R172: MBLD, issued by the whole gang of a consumer group, deposits the group's quarters in the next generation of its
set's buffer, each with FMR's format of B and the words of its registers, beside the generation before; MMA, MZRO and MSCL
enter the tile queue with their operands, and MMA takes the generation of its group's count. They complete under the chapter's
conditions, with room in the quadrant's tile queue; with no room, while a member of the set is behind, or while one has not
loaded the generation, they wait. -/
def Obligations.TileWordsComplete : Prop := ∀ (s : State) (e : Env), e.g.isCtl = false →
  let set := gidG e.gid / 4
  let count := e.g.mbldCount
  let oneFmr := fun (fmr : BitVec 16) => (e.g.slice 0).fmr = fmr ∧ (∀ x ∈ e.g.slices, x.fmr = fmr) ∧
    fld fmr.toNat 0 4 = fld fmr.toNat 4 4 ∧ fld fmr.toNat 0 4 ≤ 8
  let base := fun (f : RWord) => match f.a with | .v n => n.val | _ => 0
  let room := e.s.quadTiles e.gid < 8
  let enters := fun (op : TileOp) => e.s.modG e.gid fun g => { g with tileQ := g.tileQ ++ [op] }
  (∀ f fmr, Issues (.mbld f) s e → e.sub.mask = 255 → e.exec f.k = 2 ^ 32 - 1 → oneFmr fmr → gidG e.gid < e.lch.lr.c →
    let nB := matB (fld fmr.toNat 4 4)
    base f + e.quarters.length * nB ≤ e.g.budget →
    (count.toNat < 2 ∨ (∀ m ∈ e.members, e.loaded count m = true) → ∃ t : State,
      exec (.mbld f) s = .next (e.done (.mbld f) t) ∧ t = { e.s with groups := t.groups, teams := t.teams } ∧
      tget e.gid t.groups = some { e.g with mbldCount := count + 1 } ∧
      (∀ k, k ≠ e.gid → tget k t.groups = tget k e.s.groups) ∧ (∀ k, k ≠ e.tid → tget k t.teams = tget k e.s.teams) ∧
      ∃ (tm : Team) (b : BGen), tget e.tid t.teams = some tm ∧ tm = { e.team with bgens := tm.bgens } ∧
        tget (bgenKey set count.toNat) tm.bgens = tget (bgenKey set count.toNat) e.team.bgens ∧
        tget (bgenKey set (count + 1).toNat) tm.bgens = some b ∧
        ∀ i q, e.quarters[i]? = some q → tget q b.quarters = some (fld fmr.toNat 4 4,
          (List.range nB).flatMap fun r => (List.range 32).map fun l => BitVec.ofNat 32 (e.g.vr (base f + i * nB + r) l))) ∧
    (2 ≤ count.toNat → (∃ m ∈ e.members, e.loaded count m = false) →
      exec (.mbld f) s = .next (e.parked (.mbld f) .mbld e.s))) ∧
  (∀ f fmr, Issues (.mma f) s e → e.sub.mask = 255 → e.exec f.k = 2 ^ 32 - 1 → oneFmr fmr →
    let code := fld fmr.toNat 0 4
    let b := (tget (bgenKey set count.toNat) e.team.bgens).getD {}
    base f + matA code ≤ e.g.budget → tileNo f.d < e.g.ntiles → count ≠ 0 → (∀ m ∈ e.members, e.short count m = false) →
    ((∃ m ∈ e.members, e.loaded count m = false) → exec (.mma f) s = .next (e.parked (.mma f) .generation e.s)) ∧
    ((∀ m ∈ e.members, e.loaded count m = true) → (∀ q ∈ b.quarters, q.2.1 = code) →
      (room → exec (.mma f) s = .next (e.done (.mma f) (enters (.mma e.pc (tileNo f.d) fmr
        ((List.range (32 * matA code)).map fun w => BitVec.ofNat 32 (e.g.vr (base f + w / 32) (w % 32)))
        ((List.range 4).flatMap fun q => match tget q b.quarters with | some x => x.2 | none => List.replicate (32 * matB code) 0)
        ((List.range (32 * matA code)).filter fun w => e.g.badV.contains (32 * (base f + w / 32) + w % 32))
        (b.bad.map fun x => 32 * matB code * x.1 + x.2))))) ∧
      (¬room → exec (.mma f) s = .next (e.parked (.mma f) .tileFull e.s)))) ∧
  (∀ f, Issues (.mzro f) s e → e.exec f.k ≠ 0 → tileNo f.d < e.g.ntiles →
    (room → exec (.mzro f) s = .next (e.done (.mzro f) (enters (.zero (tileNo f.d))))) ∧
    (¬room → exec (.mzro f) s = .next (e.parked (.mzro f) .tileFull e.s))) ∧
  (∀ f, Issues (.mzro f) s e → e.exec f.k = 0 → exec (.mzro f) s = .next (e.done (.mzro f) e.s)) ∧
  (∀ f, Issues (.mscl f) s e → e.exec f.k ≠ 0 → tileNo f.d < e.g.ntiles →
    (room → exec (.mscl f) s = .next (e.done (.mscl f) (enters (.scale (tileNo f.d) f.ty (BitVec.ofNat 32 (e.exec f.k))
      ((List.range 32).map fun l => BitVec.ofNat 64 (e.rd f.ty l f.a)))))) ∧
    (¬room → exec (.mscl f) s = .next (e.parked (.mscl f) .tileFull e.s))) ∧
  (∀ f, Issues (.mscl f) s e → e.exec f.k = 0 → exec (.mscl f) s = .next (e.done (.mscl f) e.s))

/-- R83, R84 and R167: the array's multiply gives each element of the tile the exact sum of its old value and the products of its row of
A and its column of B, in the formats of floating point rounded once, in those of integers saturated once to i32. The word's flags are
those of its elements together (R85). R183 and R184: a damaged element of A, of B or of the tile is read as zero, an SB block whose
scale is damaged as zeros, and each is logged with its coordinates; an element that was written is whole again. -/
def Obligations.MultiplyRoundsOnce : Prop := ∀ (t : Tile) (k : Nat) (fmr : BitVec 16) (a b : List W32) (badA badB : List Nat),
  let code := fld fmr.toNat 0 4
  let n := matN code
  let wide := code == 0
  let acc := if wide then f64 else f32
  let sa := fun i => stringOf a badA (stringA code i)
  let sb := fun j => stringOf b badB (stringB code j)
  let fp := fun x => dotFp acc .rne false (unpackFp acc (t.get wide x).1) ((elemsFp code (sa (x / n))).1.zip (elemsFp code (sb (x % n))).1)
  let int := fun x => satInt true 32 (sgn 32 (t.get wide x).1 +
    (((elemsInt code (bitOf fmr.toNat 8) (sa (x / n))).1.zip (elemsInt code (bitOf fmr.toNat 9) (sb (x % n))).1).map fun p => p.1 * p.2).sum)
  let out := fun x => if matInt code = true then int x else fp x
  let lostA := fun i => if matInt code = true then (elemsInt code (bitOf fmr.toNat 8) (sa i)).2 else (elemsFp code (sa i)).2
  let lostB := fun j => if matInt code = true then (elemsInt code (bitOf fmr.toNat 9) (sb j)).2 else (elemsFp code (sb j)).2
  let r := mmaRun t k fmr a b badA badB
  code ≤ 8 →
  (∀ x < n * n, r.1.get wide x = ((out x).1 % 2 ^ (if wide then 64 else 32), false)) ∧
  r.1.flags = t.flags ∧
  (∀ i, bitOf r.2.1 i = true ↔ ∃ x < n * n, bitOf (out x).2 i = true) ∧
  (∀ c, c ∈ r.2.2 ↔ (∃ i < n, ∃ m ∈ lostA i, c = coord k m i 0) ∨ (∃ j < n, ∃ m ∈ lostB j, c = coord k j m 1) ∨
    ∃ x < n * n, (t.get wide x).2 = true ∧ c = coord k (x % n) (x / n) 2) ∧
  (∀ x ∈ t.bad, (t.get wide (if wide then x / 2 else x)) = (0, true)) ∧
  (∀ (st : Nat × List Bool) i, i < matK code →
    let w := matBits code
    let m := sbM code
    (code ≤ 5 → (i ∈ (elemsInt code true st).2 ↔ damagedBits st.2 (i * w) w = true) ∧
      (damagedBits st.2 (i * w) w = true → ∀ sg, (elemsInt code sg st).1[i]? = some 0)) ∧
    (code ≤ 3 → (i ∈ (elemsFp code st).2 ↔ damagedBits st.2 (i * w) w = true) ∧
      (damagedBits st.2 (i * w) w = true → (elemsFp code st).1[i]? = some (.fin false 0 0))) ∧
    (6 ≤ code → let scale := damagedBits st.2 (i / 16 * sbBits m) 16
      let own := damagedBits st.2 (i / 16 * sbBits m + 16 + i % 16 * (m + 1)) (m + 1)
      (i ∈ (elemsFp code st).2 ↔ scale = true ∧ i % 16 = 0 ∨ scale = false ∧ own = true) ∧
      (scale = true ∨ own = true → (elemsFp code st).1[i]? = some (.fin false 0 0))))

/-- R174 to R179: a drain first finishes the group's tile queue and moves the tile's flags to STATUS; then MDRN leaves a chunk of
eight columns as a pending result of eight registers and `.clr` (R168) clears it, and MRED leaves each row's reduction, with its flags: the maximum of
its elements, or their exact sum, rounded or saturated once, of i32, f32 or f64, where f64 has sixteen rows. With no room in the quadrant's tile queue the word waits.
That the flags move at issue, and that the damage of the whole chunk or tile is logged whatever lanes execute, are log entry 23. -/
def Obligations.RegisterDrainsComplete : Prop := ∀ (s : State) (e : Env), e.g.isCtl = false →
  let base := fun (d : Opd) => match d with | .v n => n.val | _ => 0
  (∀ f, e.exec f.k ≠ 0 → tileNo f.a < e.g.ntiles → 8 ≤ e.s.quadTiles e.gid →
    (Issues (.mdrn f) s e → exec (.mdrn f) s = .next (e.parked (.mdrn f) .tileFull e.s)) ∧
    (Issues (.mred f) s e → exec (.mred f) s = .next (e.parked (.mred f) .tileFull e.s))) ∧
  (∀ f, Issues (.mdrn f) s e → e.exec f.k ≠ 0 → tileNo f.a < e.g.ntiles → e.s.quadTiles e.gid < 8 → f.ty ≠ .f64 →
    let inChunk := fun x => x < 32 * 32 && 8 * (f.m.val % 4) ≤ x % 32 && x % 32 < 8 * (f.m.val % 4) + 8
    let r := e.drain (tileNo f.a) fun t => t.badLog (tileNo f.a) false inChunk
    Effect (.mdrn f) s e (· = r.1.modG e.gid fun g =>
      (if bitOf f.m.val 2 then { g with tiles := tput (tileNo f.a) (r.2.build false fun x => if inChunk x then some 0 else none) g.tiles }
        else g).addPend { e.newPend f.d 8 (sliceBits (e.exec f.k)) with
          vw := (e.execLanes f.k).flatMap fun l => (List.range 8).map fun j =>
            (32 * (base f.d + j) + l, BitVec.ofNat 32 (r.2.get false (32 * l + 8 * (f.m.val % 4) + j)).1) })) ∧
  (∀ f, Issues (.mdrn f) s e → e.exec f.k ≠ 0 → tileNo f.a < e.g.ntiles → e.s.quadTiles e.gid < 8 → f.ty = .f64 →
    let inChunk := fun x => x < 16 * 16 && 8 * (f.m.val % 4) ≤ x % 16 && x % 16 < 8 * (f.m.val % 4) + 8
    let r := e.drain (tileNo f.a) fun t => t.badLog (tileNo f.a) true inChunk
    Effect (.mdrn f) s e (· = r.1.modG e.gid fun g =>
      (if bitOf f.m.val 2 then { g with tiles := tput (tileNo f.a) (r.2.build true fun x => if inChunk x then some 0 else none) g.tiles }
        else g).addPend { e.newPend f.d 8 (sliceBits (e.exec f.k)) with
          vw := (e.execLanes f.k).flatMap fun l => (List.range 4).flatMap fun j =>
            let x := (r.2.get true (16 * (l % 16) + 8 * (f.m.val % 4) + 4 * (l / 16) + j)).1
            [(32 * (base f.d + 2 * j) + l, BitVec.ofNat 32 x), (32 * (base f.d + 2 * j + 1) + l, BitVec.ofNat 32 (x / 2 ^ 32))] })) ∧
  (∀ f, Issues (.mred f) s e → e.exec f.k ≠ 0 → tileNo f.a < e.g.ntiles → e.s.quadTiles e.gid < 8 →
    let wide := f.ty == .f64
    let n := if wide then 16 else 32
    let fm := if wide then f64 else f32
    let r := e.drain (tileNo f.a) fun t => t.badLog (tileNo f.a) wide fun x => x / n < n
    let c := fun i j => (r.2.get wide (n * i + j)).1
    let row := fun i =>
      if f.ty = .i32 then
        let xs := (List.range n).map fun j => sgn 32 (c i j)
        if f.m = 0 then (ofInt 32 (xs.foldl max (-(2 ^ 31 : Int))), 0) else satInt true 32 xs.sum
      else if f.m = 0 then
        ((List.range n).drop 1).foldl (fun a j => ((minMaxFp fm true a.1 (c i j)).1, a.2 ||| (minMaxFp fm true a.1 (c i j)).2)) (c i 0, 0)
      else dotFp fm .rne false (unpackFp fm (c i 0)) (((List.range n).drop 1).map fun j => (unpackFp fm (c i j), FV.one))
    let lanes := (e.execLanes f.k).filter (· < n)
    Effect (.mred f) s e (· = r.1.modG e.gid fun g => g.addPend { e.newPend f.d (if wide then 2 else 1) (sliceBits (e.exec f.k)) with
      vw := lanes.flatMap fun l => (32 * base f.d + l, BitVec.ofNat 32 (row l).1) ::
        (if wide then [(32 * (base f.d + 1) + l, BitVec.ofNat 32 ((row l).1 / 2 ^ 32))] else []),
      flags := (lanes.filter fun l => (row l).2 != 0).map fun l => (l, BitVec.ofNat 32 (row l).2) }))

/-- R175 to R177: MDRS writes a drained tile's rows to its team's scratchpad as stores, or adds them there as operations that the merge
folds; MDRM writes them to memory as G-level writes, or adds them when the team's next round applies. They complete where the scalar
operands agree and are aligned, every byte of the rows may be written, and the lines, or the quota, suffice; with no room in the
quadrant's tile queue they wait. That an element of MDRS.add takes contribution lines, and in a ring slot waits as an operation for the
T-close, are the model's readings (log entries 22 and 23). -/
def Obligations.MemoryDrainsComplete : Prop := ∀ (s : State) (e : Env) (a b : Nat), e.g.isCtl = false →
  let al := fun (f : RWord) => if f.ty = .f64 then 8 else 4
  let agrees := fun (f : RWord) => e.exec f.k ≠ 0 ∧ tileNo f.d < e.g.ntiles ∧ a % al f = 0 ∧ b % al f = 0 ∧
    ∀ c ∈ e.execSlices f.k, e.rd64 (4 * c) f.a = a ∧ e.rd64 (4 * c) f.b = b
  let addrs := fun (f : RWord) => (List.range (if f.ty = .f64 then 16 else 32)).map fun i => (a + i * b) % 2 ^ 64
  let rows := fun (f : RWord) => (addrs f).map fun x => (x, drainRowLen f.ty)
  let drained := fun (f : RWord) => e.drain (tileNo f.d) fun t => t.badLog (tileNo f.d) (f.ty == .f64) fun _ => true
  let vals := fun (f : RWord) => (addrs f).zip (drainRows f (drained f).2).1
  let flagged := fun (f : RWord) => (drained f).1.modG e.gid fun g => g.raiseTile (tileNo f.d) (drainRows f (drained f).2).2
  let room := e.s.quadTiles e.gid < 8
  (∀ f, Issues (.mdrs f) s e → agrees f → (∀ x ∈ addrs f, ∀ i < drainRowLen f.ty, e.teamByte true (x + i) = none) →
    let taken := e.rowLines (if f.m = 0 then none else some (drainElem f.ty)) (rows f)
    e.linesFit taken.1 taken.2 = true →
    let t0 := (flagged f).modG e.gid fun g => g.takeLines taken.1 taken.2
    (room → f.m = 0 → exec (.mdrs f) s = .next (e.done (.mdrs f) (e.wipeRanges
      ((vals f).foldl (fun t r => e.putOwn t r.1 (rowBytes f.ty r.2)) t0) (rows f)))) ∧
    (room → f.m ≠ 0 → exec (.mdrs f) s = .next (e.done (.mdrs f) (((vals f).flatMap fun r => r.2.zipIdx.map fun x =>
        ((r.1 + drainElem f.ty * x.2) % 2 ^ 19, x.1)).foldl (fun t x => t.modG e.gid fun g => g.modLvl e.sub.mask fun l =>
          let op := GOp.drain x.1 f.ty f.sat (BitVec.ofNat 64 x.2) (tileNo f.d)
          if e.lch.areaOf x.1 = .ring then { l with ops := l.ops ++ [op] }
          else { l with ops := l.ops ++ [op], view := (op.run l.view).1 }) t0))) ∧
    (¬room → exec (.mdrs f) s = .next (e.parked (.mdrs f) .tileFull e.s))) ∧
  (∀ f tm, Issues (.mdrm f) s e → agrees f → (∀ x ∈ addrs f, ∀ i < drainRowLen f.ty, x + i < 2 ^ 55 ∧
      ∃ p, translate e.s e.cid (x + i) = .ok p ∧ (p.ty = 1 ∨ p.ty = 2) ∧ p.w = true) →
    e.team.charge e.lch.lr.dquota (memLines (rows f)) 0 = some tm →
    let t0 := (flagged f).putT e.tid tm
    (room → f.m = 0 → exec (.mdrm f) s = .next (e.done (.mdrm f) (t0.modG e.gid fun g => g.modLvl e.sub.mask fun l =>
      { l with gmem := l.gmem.andThen (MemW.ofCells ((vals f).flatMap fun r =>
        (rowBytes f.ty r.2).zipIdx.map fun x => (e.keyOf (r.1 + x.2), x.1))) }))) ∧
    (room → f.m ≠ 0 → exec (.mdrm f) s = .next (e.done (.mdrm f) (t0.modT e.tid fun t => { t with toks := t.toks ++ [(gidG e.gid,
      .mdrm ((vals f).flatMap fun r => r.2.zipIdx.map fun x =>
        (e.keyOf (r.1 + drainElem f.ty * x.2), BitVec.ofNat 64 x.1)) f.ty f.sat (tileNo f.d))] }))) ∧
    (¬room → exec (.mdrm f) s = .next (e.parked (.mdrm f) .tileFull e.s))) ∧
  (∀ f, e.exec f.k = 0 → (Issues (.mdrs f) s e → exec (.mdrs f) s = .next (e.done (.mdrs f) e.s)) ∧
    (Issues (.mdrm f) s e → exec (.mdrm f) s = .next (e.done (.mdrm f) e.s)))

/-- R180 to R182 and R184: MSEQ writes the list of a query block's kept key blocks and gives their number; MSEQ.g also forks a copy of each
kept block's K and V, each waiting for a slot of the queue; they take the free slots in order, and while one waits the sub-gang parks, the word's entries of the undo log (R362) made at its first issue. MGRP
writes the schedule of its expert counts and gives the number of entries; with `.z` it then writes zeros to the rows of the experts without a
token. That MGRP's IOV is a group event and that the zero rows come after the list are the model's readings (log entry 23). MERR reads the group's error log, `.crd` with
OVF also where it holds no entry, and `.pop` takes its oldest entry. -/
def Obligations.SequencerWordsComplete : Prop := ∀ (s : State) (e : Env), e.g.isCtl = false →
  (∀ f blk q list, Issues (.mseq f) s e → e.exec f.k ≠ 0 → (∀ j, e.sub.park ≠ .mseq j) → f.m.val ≠ 1 →
    e.agreed f.k [f.a, f.b, f.c] = .ok [blk, q, list] → blk % 16 = 0 → e.teamRanges false [(blk, 80)] = .ok () →
    let n := fun i k => leNat (((e.ownBytes (blk % 2 ^ 19) 80).drop i).take k)
    let kept := mseqList (n 0 4) (n 4 4) q ((List.range (n 8 1)).map fun i => n (16 + 4 * i) 4)
    n 8 1 ≤ 16 → n 9 7 = 0 → n 0 4 < 2 ^ 31 → n 4 4 ≤ 2 ^ 26 →
    e.teamRanges true [(list, 4 * kept.length)] = .ok () → e.linesFit (e.ownLines [(list, 4 * kept.length)]) 0 = true →
    let t0 := e.s.putG e.gid ((e.putScalar f.k f.d kept.length e.g).takeLines (e.ownLines [(list, 4 * kept.length)]) 0)
    Effect (.mseq f) s e (· = if kept = [] then t0 else
      e.wipeRanges (e.putOwn t0 list (kept.flatMap fun b => leBytes 4 b)) [(list, 4 * kept.length)])) ∧
  (∀ f blk q list kb vb par x, Issues (.mseq f) s e → e.exec f.k ≠ 0 → (∀ j, e.sub.park ≠ .mseq j) → f.m.val = 1 →
    e.agreed f.k [f.a, f.b, f.c, Opd.plus f.c 1, Opd.plus f.c 2, Opd.plus f.c 3] = .ok [blk, q, list, kb, vb, par] →
    blk % 16 = 0 → e.teamRanges false [(blk, 80)] = .ok () →
    let n := fun i k => leNat (((e.ownBytes (blk % 2 ^ 19) 80).drop i).take k)
    let kept := mseqList (n 0 4) (n 4 4) q ((List.range (n 8 1)).map fun i => n (16 + 4 * i) 4)
    let qn := fld par 0 4
    let bb := fld par 8 24
    let at' := fun (base b : Nat) => low 64 (base + b * bb)
    n 8 1 ≤ 16 → n 9 7 = 0 → n 0 4 < 2 ^ 31 → n 4 4 ≤ 2 ^ 26 → bb % 64 = 0 → bb ≠ 0 → e.fillQueue qn = .ok x → 2 * bb ≤ x.slotBytes →
    e.teamRanges true [(list, 4 * kept.length)] = .ok () →
    e.chipChecks { mode := 15, q := 0 } (kept.flatMap fun b => [(at' kb b, bb), (at' vb b, bb)]) [] = .ok () →
    e.linesFit (e.ownLines [(list, 4 * kept.length)]) 0 = true →
    let t0 := e.s.putG e.gid ((e.putScalar f.k f.d kept.length e.g).takeLines (e.ownLines [(list, 4 * kept.length)]) 0)
    let t1 := if kept = [] then t0 else e.wipeRanges (e.putOwn t0 list (kept.flatMap fun b => leBytes 4 b)) [(list, 4 * kept.length)]
    ∃ t : State, t.groups = t1.groups ∧ t.mem = t1.mem ∧ t.nextOp = e.s.nextOp + kept.length ∧
      (∀ (i b : Nat), kept[i]? = some b → tget (e.s.nextOp + i) t.ops = some
        (e.s.noting
          { gid := e.gid, slices := e.sub.mask, mode := 0, pc := e.pc, decl := 2 * bb, want := some qn, mem := e.memImage,
            kind := .rows (e.rowsOf [(0, at' kb b, bb), (bb, at' vb b, bb)]) })) ∧
      let u := t.reserveWanted e.tid e.gid qn
      (u.wanting e.gid qn = false → exec (.mseq f) s = .next (e.done (.mseq f) u)) ∧
      (u.wanting e.gid qn = true → exec (.mseq f) s = .next (e.parked (.mseq f) (.mseq qn) (u.logUndo e (.mseq f))))) ∧
  (∀ f qn, Issues (.mseq f) s e → e.exec f.k ≠ 0 → e.sub.park = .mseq qn →
    let u := e.s.reserveWanted e.tid e.gid qn
    (u.wanting e.gid qn = false → Effect (.mseq f) s e (· = u)) ∧
    (u.wanting e.gid qn = true → exec (.mseq f) s = .next (e.parked (.mseq f) (.mseq qn) u))) ∧
  (∀ (t : State) (tm : Team) (qn : Nat) (x : Queue), tget e.tid t.teams = some tm → tget qn tm.queues = some x →
    (x.free = false ∨ t.tcuFull e.gid = true → t.reserveWanted e.tid e.gid qn = t) ∧
    (∀ id o, (t.ops.filter fun y => y.2.gid == e.gid && y.2.want == some qn) = [(id, o)] → x.free = true → t.tcuFull e.gid = false →
      ∀ rs, o.kind = .rows rs →
        let addr := x.slotAddr x.fillSeq
        let taken := { o with
          want := none, slot := some (qn, x.fillSeq), handle := BitVec.ofNat 64 addr,
          kind := .rows (rs.map fun r => { r with dst := r.dst + addr }) }
        t.reserveWanted e.tid e.gid qn = { t with ops := tput id taken t.ops }.modT e.tid
          fun t => t.modQ qn fun x => x.reserve 1 addr o.decl (some id))) ∧
  (∀ f src p list out, Issues (.mgrp f) s e → e.exec f.k ≠ 0 → f.m.val = 1 →
    e.agreed f.k [f.a, f.b, f.c, Opd.plus f.c 1] = .ok [src, p, list, out] →
    let ne := fld p 0 16
    1 ≤ ne → ne ≤ 1024 → 1 ≤ fld p 16 16 → fld p 16 16 ≤ 1024 → 1 ≤ fld p 48 16 → e.teamRanges false [(src, 4 * ne)] = .ok () →
    let r := mgrpRun (fld p 16 16) (fld p 32 16) ((List.range ne).map fun i => leNat (e.ownBytes ((src + 4 * i) % 2 ^ 19) 4))
    let zr := r.2.1.map fun k => (low 64 (out + k * fld p 48 16 * 64), fld p 16 16 * 128)
    let rs := (list, 16 * r.1.length) :: zr
    e.teamRanges true rs = .ok () → e.linesFit (e.ownLines rs) 0 = true →
    let g := (e.putScalar f.k f.d r.1.length e.g).takeLines (e.ownLines rs) 0
    let t0 := e.s.putG e.gid (if r.2.2.1 || 2 ^ 32 ≤ r.2.2.2 then g.raiseAll fIOV else g)
    let t1 := if r.1 = [] then t0 else e.putOwn t0 list (r.1.flatMap Sched.bytes)
    Effect (.mgrp f) s e (· = e.wipeRanges (zr.foldl (fun t x => e.putOwn t x.1 (List.replicate x.2 0)) t1) rs)) ∧
  (∀ f src p list, Issues (.mgrp f) s e → e.exec f.k ≠ 0 → f.m.val ≠ 1 → e.agreed f.k [f.a, f.b, f.c] = .ok [src, p, list] →
    let ne := fld p 0 16
    1 ≤ ne → ne ≤ 1024 → 1 ≤ fld p 16 16 → fld p 16 16 ≤ 1024 → e.teamRanges false [(src, 4 * ne)] = .ok () →
    let r := mgrpRun (fld p 16 16) (fld p 32 16) ((List.range ne).map fun i => leNat (e.ownBytes ((src + 4 * i) % 2 ^ 19) 4))
    e.teamRanges true [(list, 16 * r.1.length)] = .ok () → e.linesFit (e.ownLines [(list, 16 * r.1.length)]) 0 = true →
    let g := (e.putScalar f.k f.d r.1.length e.g).takeLines (e.ownLines [(list, 16 * r.1.length)]) 0
    let t0 := e.s.putG e.gid (if r.2.2.1 || 2 ^ 32 ≤ r.2.2.2 then g.raiseAll fIOV else g)
    Effect (.mgrp f) s e (· = e.wipeRanges (if r.1 = [] then t0 else e.putOwn t0 list (r.1.flatMap Sched.bytes))
      [(list, 16 * r.1.length)])) ∧
  (∀ f, Issues (.merr f) s e → e.exec f.k ≠ 0 →
    let ovf := if e.g.errOvf then 2 ^ 62 else 0
    (f.m = 0 → Effect (.merr f) s e (· = e.s.putG e.gid (e.putScalar f.k f.d
      (match e.g.errLog with | (_, c) :: _ => c.toNat ||| ovf | [] => ovf) e.g))) ∧
    (f.m = 1 → Effect (.merr f) s e (· = e.s.putG e.gid (e.putScalar f.k f.d
      (match e.g.errLog with | (a, _) :: _ => a.toNat | [] => 0) e.g))) ∧
    (f.m = 2 → Effect (.merr f) s e (· = e.s.putG e.gid { e.putScalar f.k f.d e.g.errLog.length e.g with
      errLog := e.g.errLog.tail, errOvf := false })))

/-! ### Engines, queues and messages -/

/-- R237 to R243, R251 and R252: a copy, a prefetch or a bulk job whose operands agree and whose checks pass is forked: an operation
that holds its rows and the memory its group sees enters the list, its lines and its quota are taken, and its slot reserved;
the chunks of a bulk job enter the queue of an engine. Nothing is copied yet; a job of no bytes is complete at once. That no address of
such a job is checked (log entry 24), and which engine a job joins (48), are the model's readings. -/
def Obligations.CopyWordsFork : Prop := ∀ (s : State) (e : Env) (sp : Spec) (lines : List Nat) (tm : Team) (v : Nat → Nat),
  e.slotBusy sp = false →
  let op := fun (kind : OpKind) (decl handle : Nat) => ({ gid := e.gid, slices := 0, kind := kind, mode := sp.mode, decl := decl,
                                                          handle := BitVec.ofNat 64 handle, mem := e.memImage } : EngOp)
  -- an operation of no bytes ends at once
  let ended := fun (none' : Prop) (t u : State) => (¬none' → u = t) ∧
    (none' → ∀ o, tget e.s.nextOp t.ops = some o → u = t.endOp e.s.nextOp o [] 2 none)
  let copies := fun (i : Instr) (f : RWord) (rs : List (Nat × Nat × Nat)) (decl : Nat) => e.tcuFull = false →
    e.chipChecks sp (rs.map fun r => r.2) (rs.map fun r => (r.1, r.2.2)) = .ok () →
    e.supply (rs.map fun r => (r.1, r.2.2)) 0 = .ok (lines, tm) →
    Effect i s e (ended (decl = 0)
      (e.fork (e.s.putT e.tid tm) sp lines { op (.rows (e.rowsOf rs)) decl (v 0) with priv := hasPriv f }))
  (∀ f, Issues (.cpy f) s e → e.exec f.k ≠ 0 → e.params f [f.d, f.a] [0, 1, 2, 3] = .ok v →
    e.spec (v 5) [0, 1] = .ok sp →
    let nx := fld (v 2) 0 32
    let at' := fun (base y z st : Nat) => ofInt 64 ((base : Int) + (z : Int) * sgn 32 (st / 2 ^ 32) + (y : Int) * sgn 32 (low 32 st))
    let rs := if nx = 0 then [] else (List.range (fld (v 2) 48 16)).flatMap fun z =>
      (List.range (fld (v 2) 32 16)).map fun y => (at' (v 0) y z (v 4), at' (v 1) y z (v 3), nx)
    privOk (hasPriv f) ((v 0, nx) :: rs.map fun r => (r.1, r.2.2)) = .ok () →
    copies (.cpy f) f rs (nx * fld (v 2) 32 16 * fld (v 2) 48 16)) ∧
  (∀ f, Issues (.gthr f) s e → e.exec f.k ≠ 0 → e.params f [f.d, f.a] [0, 1, 2, 3] = .ok v → e.spec (v 5) [0, 1] = .ok sp →
    let rs := (e.execLanes f.k).map fun (l : Nat) =>
      (ofInt 64 ((v 0 : Int) + (l : Int) * sgn 64 (v 4)), low 64 (v 1 + e.rd32 l f.b * v 3), v 2)
    v 2 ≤ 2 ^ 20 → privOk (hasPriv f) (rs.map fun r => (r.1, r.2.2)) = .ok () →
    copies (.gthr f) f (if v 2 = 0 then [] else rs) (e.execLanes f.k).length) ∧
  (∀ f, Issues (.sctr f) s e → e.exec f.k ≠ 0 → e.params f [f.d, f.a] [0, 1, 2, 3] = .ok v → e.spec (v 5) [0, 1] = .ok sp →
    let rs := (e.execLanes f.k).map fun (l : Nat) =>
      (low 64 (v 0 + e.rd32 l f.b * v 3), ofInt 64 ((v 1 : Int) + (l : Int) * sgn 64 (v 4)), v 2)
    v 2 ≤ 2 ^ 20 → privOk (hasPriv f) (rs.map fun r => (r.1, r.2.2)) = .ok () →
    copies (.sctr f) f (if v 2 = 0 then [] else rs) (e.execLanes f.k).length) ∧
  (∀ f, Issues (.pfch f) s e → e.exec f.k ≠ 0 → e.params f [f.a] [0, 3] = .ok v → v 1 ≤ 2 ^ 32 →
    e.spec (v 2) [0, 1, 15] = .ok sp → e.tcuFull = false → Effect (.pfch f) s e (· = e.fork e.s sp []
      { gid := e.gid, slices := 0, kind := .pfch (v 0) (v 1), mode := sp.mode, decl := 0, handle := BitVec.ofNat 64 (v 0) })) ∧
  (∀ f, Issues (.bulk f) s e → e.params f [f.d, f.a] [0, 3] = .ok v → v 2 ≤ 2 ^ 40 → privOk (hasPriv f) [(v 0, v 2)] = .ok () →
    (v 2 = 0 ∨ v 0 + v 2 ≤ 2 ^ 55 ∧ v 1 + v 2 ≤ 2 ^ 55) →
    let rs := if v 2 = 0 then [] else [(v 0, v 1, v 2)]
    let o := { op (.rows (e.rowsOf rs)) (v 2) (v 0) with priv := hasPriv f, engine := .bce, chunks := chunksOf (v 0) (v 2) }
    let queued := fun (t : State) => if v 2 = 0 then t else t.queueJob e.core0 e.s.nextOp (chunksOf (v 0) (v 2))
    (e.g.isCtl = true → v 3 = 0xF0 → Effect (.bulk f) s e (ended (v 2 = 0)
      (queued (e.fork e.s { mode := 15, q := 0 } [] { o with mode := 15 })))) ∧
    (e.g.isCtl = false → e.exec f.k ≠ 0 → e.spec (v 3) [0, 1, 15] = .ok sp →
      e.supply (rs.map fun r => (r.1, r.2.2)) 0 = .ok (lines, tm) →
      Effect (.bulk f) s e (ended (v 2 = 0) (queued (e.fork (e.s.putT e.tid tm) sp lines o))))) ∧
  (∀ f, Issues (.cldx f) s e → e.exec f.k ≠ 0 → e.params f [f.d, f.a] [3] = .ok v → e.spec (v 2) [0, 1] = .ok sp →
    e.tcuFull = false →
    let esz := if f.ty == .b32 then 4 else 2
    let ne := (if f.ty == .b32 then 32 else 64) * (f.m.val + 1)
    v 0 % esz = 0 → v 1 % 8 = 0 → e.chipChecks sp [(v 1, 8 + ne / 8)] [(v 0, ne * esz)] = .ok () →
    let most := v 1 + 8 + ne / 8 + ne * esz - 2 ^ 55
    (v 1 < 2 ^ 55 → e.supply [(v 0, ne * esz)] 0 = .ok (lines, tm) →
      Effect (.cldx f) s e (· = e.fork (e.s.putT e.tid tm) sp lines { op (.cldx (v 0) (v 1) ne f.ty) (ne * esz) (v 0) with
        chip := (List.range (if most = 0 then 0 else e.chipReach sp most)).map fun i => e.chipByte (2 ^ 55 + i) })) ∧
    (2 ^ 55 ≤ v 1 →
      let r := cldxBytes (fun i => e.chipByte (v 1 + i)) ne f.ty
      let vals := match e.chipByte (v 1), e.chipByte (v 1 + 1) with | some a, some b => leNat [a, b] * esz | _, _ => 0
      let runs := fun (bs : List (Option Byte)) (st : Nat) => e.supply [(v 0, bs.length)] 0 = .ok (lines, tm) →
        Effect (.cldx f) s e (· = e.fork (e.s.putT e.tid tm) sp lines
          { gid := e.gid, slices := 0, kind := .rows [{ dst := v 0, bytes := bs, len := bs.length }], mode := sp.mode,
            decl := bs.length, handle := BitVec.ofNat 64 (v 0), result := st })
      (r.2 ≠ 4 → (vals = 0 ∨ e.chipChecks sp [(v 1 + 8 + ne / 8, vals)] [] = .ok ()) → runs r.1 r.2) ∧
      ((r.2 = 4 ∨ vals ≠ 0 ∧ ∃ flt, e.chipChecks sp [(v 1 + 8 + ne / 8, vals)] [] = .error flt) →
        runs (List.replicate (ne * esz) (some 0)) 4)))

/-- R245, R247, R248, R258 and R337: CSTO's bytes, an MCST, a collective contribution and a tree build are forked too; CPYC waits in the
team's list for the round that applies it; the root of a multicast waits until every member of its cluster has issued, and one that names
another root than the lowest member's takes 0x0B. CPYC's MODE 1 and MCST's limit on the root (log entry 24), COLL's modes (25), an MCST
that waits for the lowest member's before any effect, 4,096 cycles at most, and is refused later where it names another
root (47), which engine a job joins (48) and what a refit is charged (52) are the model's readings. -/
def Obligations.EngineWordsFork : Prop := ∀ (s : State) (e : Env) (sp : Spec) (lines : List Nat) (tm : Team) (v : Nat → Nat),
  e.slotBusy sp = false →
  let op := fun (kind : OpKind) (decl handle : Nat) => ({ gid := e.gid, slices := 0, kind := kind, mode := sp.mode, decl := decl,
                                                          handle := BitVec.ofNat 64 handle, mem := e.memImage } : EngOp)
  (∀ f, Issues (.csto f) s e → e.exec f.k ≠ 0 → e.params f [f.d] [1, 3] = .ok v → e.spec (v 2) [0, 1] = .ok sp →
    let bs := cstoBytes f.ty (e.cstoElems f).1 (e.cstoElems f).2
    v 1 < 2 ^ 32 → privOk (hasPriv f) [(v 0, bs.length)] = .ok () → v 0 % 8 = 0 → e.chipChecks sp [] [(v 0, bs.length)] = .ok () →
    bs.length ≤ v 1 → e.supply [(v 0, bs.length)] 0 = .ok (lines, tm) → e.tcuFull = false →
    Effect (.csto f) s e (· = e.fork (e.s.putT e.tid tm) sp lines
      { gid := e.gid, slices := 0, kind := .rows [{ dst := v 0, bytes := bs.map some, len := bs.length }], mode := sp.mode,
        decl := bs.length, handle := BitVec.ofNat 64 (v 0), priv := hasPriv f })) ∧
  (∀ f keys, Issues (.cpyc f) s e → e.exec f.k ≠ 0 →
    let fetch := bitOf f.lo.val 2
    let w := f.ty.bits / 8
    let addr := fun l => low 64 (v 0 + (match f.b with | .v n => e.g.vr n l * w | _ => 0))
    e.params f [f.d] [3] = .ok v → e.spec (v 1) (if fetch then [0] else [0, 1, 15]) = .ok sp →
    (∀ q a, e.nextSlot sp = some (q, a) → fetch = true → 32 * w ≤ q.slotBytes) → (fetch = true → e.fetchOk = .ok ()) →
    (∀ l ∈ e.execLanes f.k, addr l % w = 0) → ((e.execLanes f.k).mapM fun l => e.wordKey l (addr l)) = .ok keys →
    e.team.charge e.lch.lr.dquota (memLines ((e.execLanes f.k).map fun l => (addr l, w))) 0 = some tm → e.tcuFull = false →
    let r := e.tokenSlot (e.s.putT e.tid tm) sp (match e.nextSlot sp with | some (_, a) => if fetch then a else 0 | none => 0)
      (if fetch then 32 * w else 0)
    Effect (.cpyc f) s e (· = r.1.modT e.tid fun t => { t with toks := t.toks ++ [(gidG e.gid,
      .cpyc (((e.execLanes f.k).zip keys).map fun x => (x.1, x.2, BitVec.ofNat 64 (e.rd f.ty x.1 f.a),
        BitVec.ofNat 64 (e.rd f.ty x.1 (Opd.plus f.a (if f.ty.bits == 64 then 2 else 1))))) f.m f.ty f.sat fetch r.2.1 r.2.2)] })) ∧
  (∀ f, Issues (.mcst f) s e → e.exec f.k ≠ 0 → (∀ k, e.sub.park ≠ .mcst k) → (e.lch.lr.clusterN = 2 ∨ e.lch.lr.clusterN = 4) →
    e.params f [f.d, f.a] [0, 1, 3] = .ok v → e.spec (v 4) [0, 1] = .ok sp →
    let root := fld (v 2) 0 2
    let len := low 32 (v 3)
    let k := e.team.mcstRoots.length
    let me := e.team.team % e.lch.lr.clusterN
    let srcs := if me = root ∧ len ≠ 0 then [(v 1, len)] else []
    let dsts := if len = 0 then [] else [(v 0, len)]
    root < e.lch.lr.clusterN → (len ≠ 0 → 2 ^ 55 ≤ v 0 ∧ (v 0 - 2 ^ 55) / 2 ^ 19 = e.team.team) →
    e.chipChecks sp srcs dsts = .ok () → e.supply dsts 0 = .ok (lines, tm) →
    let low := e.clusterTeams.headD 0
    (me ≠ 0 → ∀ r, (e.s.roots low)[k]? = some r → r ≠ root → Halts (.mcst f) s e 0x0B) ∧
    (∀ since, (e.sub.park = .mcstLow since ∨ (∀ n, e.sub.park ≠ .mcstLow n) ∧ since = e.s.cycle.toNat) →
      let held := me ≠ 0 ∧ (e.s.cycle - BitVec.ofNat 64 since).toNat < 4096 ∧ e.s.lowestWaits low k = true;
      (held → exec (.mcst f) s = .next (e.parked (.mcst f) (.mcstLow since) e.s)) ∧
      (¬held → (∀ r, (e.s.roots low)[k]? = some r → me = 0 ∨ r = root) → e.tcuFull = false →
      let t0 := e.fork (e.s.putT e.tid { tm with mcstRoots := tm.mcstRoots ++ [root] }) sp lines
        (op (.mcst root len k (v 0) (e.rowsOf (srcs.map fun r => (0, r.1, r.2)))) len (v 0))
      let t := (if me = 0 then e.clusterTeams.tail.foldl (fun t u => t.mcstRefuse u k root ((t.roots u).length + 1)) t0
        else t0).mcstPair e.clusterTeams k
      let waits := me = root ∧ ∃ u ∈ e.clusterTeams, (t.roots u).length ≤ k
      (¬waits → Effect (.mcst f) s e (· = t)) ∧ (waits → exec (.mcst f) s = .next (e.parked (.mcst f) (.mcst k) t))))) ∧
  -- a member that went on before the lowest one issued is refused then, where it names another root
  (∀ u k root n,
    let other := fun (o : Nat × EngOp) => gidTid o.2.gid == u && !o.2.isDone &&
      (match o.2.kind with | .mcst r _ j _ _ => j == k && r != root | _ => false)
    (e.s.ops.find? other = none → e.s.mcstRefuse u k root n = e.s) ∧
    ∀ id o, e.s.ops.find? other = some (id, o) → e.s.mcstRefuse u k root (n + 1) =
      ((({ e.s with ops := tdel id e.s.ops }.giveBack u o.slot).mcstShift u k).mcstFault o.gid o.pc).mcstRefuse u k root n) ∧
  (∀ gid pc g, tget gid e.s.groups = some g →
    (g.halted = true → e.s.mcstFault gid pc = e.s.putG gid { g with owed := some 0x0B }) ∧
    ∀ x, g.halted = false → g.subs.find? (fun x => x.mask &&& g.liveMask != 0) = some x → e.s.mcstFault gid pc =
      faultGroup e.s gid x.mask { code := 0x0B, slice := lowest x.mask, fpc := pc, rpc := g.pcOf x.mask }) ∧
  (∀ f k, Issues (.mcst f) s e → e.exec f.k ≠ 0 → e.sub.park = .mcst k →
    ((∀ u ∈ e.clusterTeams, k < (e.s.roots u).length) → Effect (.mcst f) s e (· = e.s)) ∧
    ((∃ u ∈ e.clusterTeams, (e.s.roots u).length ≤ k) → exec (.mcst f) s = .next (e.parked (.mcst f) (.mcst k) e.s))) ∧
  (∀ f, Issues (.coll f) s e → e.exec f.k ≠ 0 → e.params f [f.d, f.a] [0, 1, 2, 3] = .ok v →
    e.spec (v 5) [0, 1] = .ok sp →
    let i := fld (v 2) 0 6
    let x := e.ctx.entry i
    let esz := Ty.collBytes f.ty
    let rank := x.rb + e.team.team
    let root := fld (v 4) 16 32
    let n := collLen f.m.val x.np (v 3) esz root rank
    let srcs := if (f.m.val != 2 && f.m.val < 4 || f.m.val == 2 && root == rank) && v 3 != 0 then [(v 1, v 3 * esz)] else []
    let dsts := if n = 0 then [] else [(v 0, n)]
    v 3 ≤ 2 ^ 28 → x.valid = true → e.team.team < x.rn → e.team.withdrawn.contains i = false →
    (∀ q a, e.nextSlot sp = some (q, a) → 8 ≤ q.slotBytes) → v 0 % esz = 0 → v 1 % esz = 0 →
    e.chipChecks sp srcs dsts = .ok () → e.supply dsts 0 = .ok (lines, tm) →
    let step := (tget i tm.collSteps).getD 0
    let co : CollOp := { entry := i, step := step, rank := rank, op := f.m.val, ty := f.ty, dst := v 0, count := v 3, x := sgn 12 (v 4),
                         root := root, rows := e.rowsOf (srcs.map fun r => (0, r.1, r.2)) }
    let t := (e.fork (e.s.putT e.tid { tm with
        collSteps := tput i (step + 1) tm.collSteps, withdrawn := if f.m.val = 5 then nins i tm.withdrawn else tm.withdrawn }) sp lines
      { op (.coll co) n (v 0) with engine := .coll }).modC e.cid
        fun c => { c with ctable := tput i { c.entry i with busy := true } c.ctable }
    (f.m.val < 4 → Effect (.coll f) s e (· = t)) ∧
    (4 ≤ f.m.val →
      let u := (t.collSend e.cid i step { rank := rank, op := f.m.val, withdrawn := true }).collEnd e.s.nextOp 2 16 []
      ∃ o, tget e.s.nextOp u.ops = some o ∧ Effect (.coll f) s e (· = u.collFinish e.s.nextOp o co 2 []))) ∧
  (∀ f p, Issues (.bvhbBuild f) s e → e.exec f.k ≠ 0 → e.params f [f.d] [0, 1, 2, 3] = .ok v → 1 ≤ v 3 → v 3 ≤ 16 →
    e.spec (v 4) [0, 1] = .ok sp → v 0 < 2 ^ 55 → v 1 % 256 = 0 → v 1 < 2 ^ 55 → translate e.s e.cid (v 1) = .ok p →
    (p.ty = 1 ∨ p.ty = 2) → e.team.charge e.lch.lr.dquota (memLines [(v 0, 64), (v 1, v 2)]) 0 = some tm →
    let chunks := max 1 (chunksOf (v 1) (v 2))
    let o := { op (.bvh false (v 0) (v 1) (v 2) (v 3)) 0 (v 0) with engine := .bce, chunks := chunks }
    Effect (.bvhbBuild f) s e (· = (e.fork (e.s.putT e.tid tm) sp [] { o with noted := e.s.bvhLines o }).queueJob e.core0 e.s.nextOp chunks)) ∧
  (∀ f, Issues (.bvhbRefit f) s e → e.exec f.k ≠ 0 → e.params f [f.d] [3] = .ok v → e.spec (v 1) [0, 1] = .ok sp → v 0 < 2 ^ 55 →
    let body := refitNodes e.treeMem (v 0)
    let chunks := max 1 (chunksOf body.1.1 body.1.2)
    e.team.charge e.lch.lr.dquota (memLines [(v 0, 64), body.1]) body.2 = some tm →
    let o := { op (.bvh true (v 0) 0 0 0) 0 (v 0) with engine := .bce, chunks := chunks }
    Effect (.bvhbRefit f) s e (· = (e.fork (e.s.putT e.tid tm) sp [] { o with noted := e.s.bvhLines o }).queueJob e.core0 e.s.nextOp chunks))

/-- R240, R250 to R252, R255, R256, R258, R261, R337 and R358: the engines' events. A copy, a prefetch, a collective contribution or a
build that nothing holds up completes, with POISON where its bytes are damaged; a bulk job advances by chunks, each out of the queue of
an engine; one at an unmapped page is suspended with an OPID and an entry in the fault ring, and CPYCTL resumes or cancels it; a failed
one ends with FAULT, its writes discarded. A collective step whose participants have all arrived or withdrawn ends with its results,
and one that times out ends with FAULT and TMO in every arrived participant. An event for an operation or a step that it does not fit
leaves the machine as it is. The code of a timeout's event is a free value (log entries 25 and 7), when writes outside the ladder
reach their memory is entry 53, and a build that ends FAULT or POISON is entry 52. -/
def Obligations.EngineEventsComplete : Prop :=
  (∀ (s : State) (id : Nat) (o : EngOp), tget id s.ops = some o → o.active = true →
    (∀ k, o.chunks = 0 → s.opState o = .ok k →
      (∀ rs, o.kind = .rows rs →
        let ps := rs.flatMap (s.rowPuts o)
        exec (.copyComplete id) s = .next
          (s.endOp id o ps (if o.result = 2 ∧ ∃ p ∈ ps, p.v = none then 3 else o.result) (some o.decl))) ∧
      (∀ dst src ne ty, o.kind = .cldx dst src ne ty →
        let r := cldxBytes (fun i => s.srcByte o (src + i)) ne ty
        exec (.copyComplete id) s = .next (if s.cldxRefused o src ne ty then s.endOp id o [] 4 none
          else s.endOp id o (r.1.zipIdx.flatMap fun b => s.putAt o (dst + b.2) b.1) r.2 none)) ∧
      (∀ a n, o.kind = .pfch a n →
        let lines := (memLines [(a, n)]).filterMap fun l => match engineAddr s o.cid false false false (128 * l) with
          | .ok k => if keyType k == 1 || keyType k == 2 then some (homeLine k) else none
          | _ => none
        exec (.copyComplete id) s = .next ({ s with msc := nunion s.msc lines }.endOp id o [] 2 none)) ∧
      (o.kind.copying = false → exec (.copyComplete id) s = .next s) ∧
      (∀ c, o.kind = .coll c →
        (∀ st w bs, c.out = some (st, w, bs) → exec (.copyComplete id) s = .next (s.collFinish id o c st bs)) ∧
        (c.out = none → exec (.copyComplete id) s = .next (if s.collSent id o c then s else s.collLocal id o c))) ∧
      (∀ refit h ar size lmax r, o.kind = .bvh refit h ar size lmax → s.bvhJob o refit h ar size lmax = .ok r →
        let t := s.noteBvh o
        exec (.copyComplete id) s = .next (t.endOp id o
          (r.puts.flatMap fun w => w.2.zipIdx.flatMap fun x => t.putAt o (w.1 + x.2) x.1) r.status
          (if r.status = 4 then none else some (r.puts.foldl (fun n w => n + w.2.length) 0))))) ∧
    (0 < o.chunks →
      let t := { s with ops := tput id { o with chunks := o.chunks - 1 } s.ops }
      (∀ q l, s.bces.find? (fun x => x.2.any fun y => y.1 == id) = some (q, l) → exec (.bulkChunkComplete id) s =
        .next ({ t with bces := tput q (takeChunk id l) s.bces }.stealChunk q)) ∧
      (s.bces.find? (fun x => x.2.any fun y => y.1 == id) = none → exec (.bulkChunkComplete id) s = .next t)) ∧
    (∀ va, s.opState o = .unmapped va →
      let r := s.giveOpid o
      exec (.copySuspend id) s = .next (({ r.2 with ops := tput id { o with state := .suspended va, opid := some r.1 } r.2.ops }).ringPut
        o.cid (ringEntry 2 6 o.who.1 o.who.2.1 r.1.toNat va o.who.2.2.1 o.who.2.2.2))) ∧
    (∀ va code, s.opState o = .failed va code →
      let r := s.giveOpid o
      exec (.copyFail id) s = .next ((r.2.endOp id { o with opid := none } [] 4 none).ringPut
        o.cid (ringEntry 3 code o.who.1 o.who.2.1 r.1.toNat va o.who.2.2.1 o.who.2.2.2)))) ∧
  (∀ (s : State) (id cid opid : Nat) (o : EngOp), s.suspendedOp cid opid = some (id, o) →
    exec (.cpyctlResume cid opid) s = .next { s with ops := tput id { o with state := .running } s.ops } ∧
    exec (.cpyctlCancel cid opid) s = .next (s.endOp id { o with opid := none } [] 4 none)) ∧
  -- what the end of an operation leaves: its writes, or none of them, and its status in its slot
  (∀ (s : State) (id : Nat) (o : EngOp) (ps : List Put) (st : Nat) (cnt : Option Nat), o.slot = none →
    let t := s.endOp id o ps st cnt
    (∃ o', tget id t.ops = some o' ∧ o'.state = .done st ∧
      o'.team = (if st = 4 then {} else putsToW (ps.filter (·.chip))).andThen o.head ∧
      o'.writes = (if st = 4 then {} else (putsToW (ps.filter (!·.chip))).inner)) ∧
    (∀ k, k ≠ id → tget k t.ops = tget k s.ops) ∧ t.groups = s.groups ∧
    ((st = 4 ∨ ∀ p ∈ ps, p.chip = true ∨ outerKey p.at' = false) → t.mem = s.mem ∧ t.launches = s.launches)) ∧
  (∀ (s : State) (id : Nat), tget id s.ops = none →
    exec (.copyComplete id) s = .next s ∧ exec (.bulkChunkComplete id) s = .next s ∧ exec (.copySuspend id) s = .next s ∧
    exec (.copyFail id) s = .next s) ∧
  (∀ (s : State) (cid opid : Nat), s.suspendedOp cid opid = none →
    exec (.cpyctlResume cid opid) s = .next s ∧ exec (.cpyctlCancel cid opid) s = .next s) ∧
  (∀ (s : State) (cid i step : Nat) (c : Ctx) (ps : List Part),
    tget cid s.ctxs = some c → tget step (c.entry i).steps = some ps →
    (∀ rs, collResult (c.entry i) step ps = some rs →
      exec (.collStepComplete cid i step) s = .next (s.collDone cid i step rs) ∧ exec (.collTimeout cid i step) s = .next s) ∧
    (collResult (c.entry i) step ps = none → exec (.collStepComplete cid i step) s = .next s ∧
      let inn := ps.filter fun p => !p.withdrawn
      let t := s.collDone cid i step (inn.map fun p =>
        (p, 4, 128 + (ps.length - inn.length + ((c.entry i).absent step ps).length) * 2 ^ 32, []))
      let who := match (inn.findSome? fun p => p.opid).bind fun id => tget id t.ops with
        | some o => (gidTid o.gid % 2 ^ 32, lidKey (tidLid (gidTid o.gid)), gidG o.gid, lowest o.slices)
        | none => (2 ^ 32 - 1, 0, 255, 255)
      exec (.collTimeout cid i step) s = .next ((t.draw.2.ringPut cid
        (ringEntry 4 0 who.1 who.2.1 (i + step * 2 ^ 32) 0 who.2.2.1 who.2.2.2)).report (.event cid c.state t.draw.1.toNat)))) ∧
  (∀ (s : State) (cid i step : Nat), (∀ c, tget cid s.ctxs = some c → tget step (c.entry i).steps = none) →
    exec (.collStepComplete cid i step) s = .next s ∧ exec (.collTimeout cid i step) s = .next s)

/-- R268 to R278: the queue words. QPUSH fills the next slot with its handle, its count and the group's lines of what it hands over, which
become T-pending; QPOP takes its group's next filled slot, sees what another group handed over, joins what the slot's operation wrote,
and returns handle, sequence number and status, or the end of the queue, and takes fault 0x0A of a slot whose status is 5; QREL frees a
slot that its group holds; QPEEK reads the queue; a full or an empty queue parks the word. That QPOP, QPEEK and QREL ignore the upper
bits of sA, that QREL takes the slot of sB[31:0], and the lines that a QPOP takes, are the model's readings (log entry 26). -/
def Obligations.QueueWordsComplete : Prop := ∀ (s : State) (e : Env) (a : Nat) (x : Queue), e.g.isCtl = false →
  let q := fld a 0 4
  (e.lch.declOf q).isSome = true →
  let put2 := fun (f : RWord) (lo hi : Nat) => (e.execSlices f.k).flatMap fun c => match f.d with
    | .s r => [(8 * r.val + c, (BitVec.ofNat 64 lo : W64)), (8 * (r.val + 1) + c, BitVec.ofNat 64 hi)] | _ => []
  let pops := fun (f : RWord) (lo hi : Nat) =>
    { e.newPend f.d 2 (sliceBits (e.exec f.k)) with idx := e.g.nextPend, sw := put2 f lo hi }
  (∀ f h, Issues (.qpush f) s e → e.exec f.k ≠ 0 → e.whole = true → e.agreed f.k [f.a, f.b] = .ok [a, h] →
    a &&& (2 ^ 64 - 1 - 0xFFFFFFFF0F) = 0 → tget q e.team.queues = some x → x.inited = true → x.filler = gidG e.gid →
    (x.free = false → exec (.qpush f) s = .next (e.parked (.qpush f) (.slotFree q) e.s)) ∧
    (x.free = true →
      let lines := e.handLines h (fld a 8 32)
      let d : Desc := { status := 2, handle := BitVec.ofNat 64 h, count := fld a 8 32, popper := x.dealt x.fillSeq, seq := x.fillSeq,
                        hand := lineWords e.sub.lvl.view.data lines,
                        handBad := lines.map fun l => (l, e.sub.lvl.view.poison.contains l) }
      let y := { x.modDesc (x.slotOf x.fillSeq) (fun _ => d) with fillSeq := x.fillSeq + 1, allow := x.allow - 1 }
      Effect (.qpush f) s e (· = ((e.s.putG e.gid (e.g.pushLines e.team lines)).modT e.tid
        fun t => t.modQ q fun _ => y).skipQueues e.tid))) ∧
  (∀ f, Issues (.qpop f) s e → e.exec f.k ≠ 0 → e.whole = true → e.agreed f.k [f.a] = .ok [a] →
    tget q e.team.queues = some x → x.inited = true → bitOf x.popMask.toNat (gidG e.gid) = true →
    let d := x.desc x.headSeq
    (x.canPop (gidG e.gid) = false → exec (.qpop f) s = .next (e.parked (.qpop f) (.qpop q) e.s)) ∧
    (x.canPop (gidG e.gid) = true → x.headSeq = x.fillSeq →
      Completes (.qpop f) s e { new := [pops f 0 (x.headSeq.toNat * 2 ^ 32)] }) ∧
    (x.canPop (gidG e.gid) = true → x.headSeq ≠ x.fillSeq → d.status = 5 → Traps (.qpop f) s e 0x0A) ∧
    (x.canPop (gidG e.gid) = true → x.headSeq ≠ x.fillSeq → d.status ≠ 5 →
      (∀ i o, d.status ≠ 4 → d.op = some i → tget i e.s.ops = some o → o.gid ≠ e.gid → e.linesFit o.lines 0 = true) →
      e.linesFit [] 0 = true →
      let seen := if x.filler = gidG e.gid then [] else
        (d.hand.map fun w => GOp.seen e.team.tcount w.1 w.2) ++ d.handBad.map fun u => GOp.seenBad e.team.tcount u.1 u.2
      let g := ({ e.g with pend := e.g.pend ++ [pops f d.handle.toNat (d.seq.toNat * 2 ^ 32 + d.status)],
                           nextPend := e.g.nextPend + 1 }).modLvl e.sub.mask fun l => l.act seen
      let y := { x.modDesc (x.slotOf x.headSeq) (fun d => { d with status := 6, op := none, hand := [], handBad := [] }) with
        headSeq := x.headSeq + 1 }
      let t := (e.s.putG e.gid g).modT e.tid fun t => t.modQ q fun _ => y
      Effect (.qpop f) s e (· = (match d.op with | some i => t.joinOp e.gid e.sub.mask i | none => t).skipQueues e.tid))) ∧
  (∀ f, Issues (.qpeek f) s e → e.exec f.k ≠ 0 → e.agreed f.k [f.a] = .ok [a] → (tget q e.team.queues).getD {} = x →
    Completes (.qpeek f) s e { sw := put2 f (x.fillSeq.toNat + x.headSeq.toNat * 2 ^ 32)
                                       (x.allow + (x.desc x.headSeq).status * 2 ^ 16 + (if x.inited then 2 ^ 24 else 0)) }) ∧
  (∀ f b, Issues (.qrel f) s e → e.exec f.k ≠ 0 → e.whole = true → e.agreed f.k [f.a, f.b] = .ok [a, b] →
    tget q e.team.queues = some x → x.inited = true → bitOf x.popMask.toNat (gidG e.gid) = true →
    let seq : W32 := BitVec.ofNat 32 b
    (x.desc seq).status = 6 → (x.desc seq).popper = gidG e.gid → (x.desc seq).seq = seq →
    Effect (.qrel f) s e (· = e.s.modT e.tid fun t => t.modQ q fun _ =>
      { x.modDesc (x.slotOf seq) (fun d => { d with status := 0 }) with allow := x.allow + 1 }))

/-- R279, R280 and R285 to R288: EMIT hands a record to its node when the round applies; LAUNCH submits a launch record and returns its
key; LWAIT returns a launch's status; MSGRD takes the oldest message and MSGWR sends one. They wait where the chapter says they wait.
EMIT's charge and its check of the node's declaration block (log entry 27), the record of its fault 0x19
(49), that LWAIT looks at EXPIRED before it waits for a batch and counts the later launches by their keys (60), and the fault ring entry of a
MSGWR (51) are the model's readings. -/
def Obligations.LaunchAndMessageWordsComplete : Prop := ∀ (s : State) (e : Env),
  (∀ f node src key ring tm, Issues (.emit f) s e → e.g.isCtl = false → e.exec f.k ≠ 0 → e.whole = true →
    e.agreed f.k [f.d, f.a] = .ok [node, src] → e.wordKey 255 node = .ok key →
    let snap := e.team.fullSnap.getD e.lch.snap
    let r := recordOf (mread snap.data key 64)
    e.wordKey 255 r.1.aux.toNat = .ok ring → node % 64 = 0 → r.2 = true → r.1.nodeOk e.ctx.f.cores = true →
    (e.s.nodeQueues e.cid snap r.1 = none → Traps (.emit f) s e 0x19) ∧ ((e.s.nodeQueues e.cid snap r.1).isSome = true →
    mnat snap.data ring 8 = lidKey e.lid / 2 ^ 16 → lidKey e.lid % 2 ^ 16 = 0 →
    e.spb ≤ src → src + r.1.gy ≤ e.spb + e.lch.layout.rings →
    e.team.charge e.lch.lr.dquota [] ((r.1.gy + 127) / 128 * 128) = some tm →
    Effect (.emit f) s e fun t => ∃ at' : FaultRec, at'.code = 0x19 ∧ at'.fpc = e.pc ∧ t = e.s.putT e.tid { tm with toks := tm.toks ++
      [(gidG e.gid, .emit r.1 ((List.range r.1.gy).map fun i => e.chipByte (src + i)) at')] })) ∧
  (∀ f, Issues (.launch f) s e → e.g.isCtl = true →
    ((∃ o ∈ e.fenceOps, o.2.isDone = false) → exec (.launch f) s = .next (e.parked (.launch f) .ctlFence e.s)) ∧
    (∀ bs ds qs, (∀ o ∈ e.fenceOps, o.2.isDone = true) →
    let t := e.controlJoin
    let a := e.rd64 0 f.a
    let n := e.ctx.launchN + 1
    let r := recordOf bs
    a % 64 = 0 → t.recordBytes e.cid a = .ok bs → r.2 = true → r.1.launchOk e.ctx.f.cores n = true →
    t.recordBytes e.cid (r.1.entry.toNat - 64) = .ok ds → declBlock ds = some qs →
    let submitted := ((t.launchesOf e.cid).filter fun l => l.2.state == .submitted).length
    let seen := t.seenBy (r.1.depsOf e.cid n) e.ctx.waited
    (4096 ≤ submitted → exec (.launch f) s = .next (e.parked (.launch f) .submit t)) ∧
    (submitted < 4096 → Effect (.launch f) s e (· = ((t.putL (lidOf e.cid (n * 2 ^ 16))
      { lr := r.1, qdecl := qs, launchPc := e.pc, seen := seen.1, early := seen.2 }).modC e.cid
      fun c => { c with launchN := n }).modG e.gid fun g => g.wrD true f.d 0 (n * 2 ^ 16))))) ∧
  (∀ f, e.g.isCtl = true →
    let key := e.rd64 0 f.a
    let lid := lidOf e.cid key
    let back := fun (t : State) st => (t.modC e.cid fun c => { c with waited := nins lid c.waited }).modG e.gid
      fun g => g.wrD true f.d 0 st
    let later := ((e.s.launchesOf e.cid).filter fun l => lid < l.1).length
    let runs := ∃ l, tget lid e.s.launches = some l ∧ l.isDone = false
    key / 2 ^ 16 ≠ 0 → key / 2 ^ 16 ≤ e.ctx.launchN →
    (4096 ≤ later → (Issues (.lwait f) s e → Effect (.lwait f) s e (· = back e.s 7)) ∧
      (¬runs → Issues (.lwaitCancel f) s e → Effect (.lwaitCancel f) s e (· = back e.s 7)) ∧
      (runs → Issues (.lwaitCancel f) s e → Effect (.lwaitCancel f) s e (· = back (e.s.cancel lid 4) 7))) ∧
    (later < 4096 → tget lid e.s.launches = none →
      (e.s.isDone (sourceOf lid) = true → Issues (.lwait f) s e →
        Effect (.lwait f) s e (· = e.s.modG e.gid fun g => g.wrD true f.d 0 6)) ∧
      (e.s.isDone (sourceOf lid) = true → Issues (.lwaitCancel f) s e →
        Effect (.lwaitCancel f) s e (· = e.s.modG e.gid fun g => g.wrD true f.d 0 6)) ∧
      (e.s.isDone (sourceOf lid) = false → Issues (.lwait f) s e →
        exec (.lwait f) s = .next (e.parked (.lwait f) (.lwait key) e.s)) ∧
      (e.s.isDone (sourceOf lid) = false → Issues (.lwaitCancel f) s e →
        exec (.lwaitCancel f) s = .next (e.parked (.lwaitCancel f) (.lwaitCancel key) e.s))) ∧
    (∀ l, later < 4096 → tget lid e.s.launches = some l →
      (∀ st, l.state = .done st → (Issues (.lwait f) s e → Effect (.lwait f) s e (· = back e.s st)) ∧
        (Issues (.lwaitCancel f) s e → Effect (.lwaitCancel f) s e (· = back e.s st))) ∧
      (l.isDone = false → (Issues (.lwait f) s e → exec (.lwait f) s = .next (e.parked (.lwait f) (.lwait key) e.s)) ∧
        (Issues (.lwaitCancel f) s e → Effect (.lwaitCancel f) s e (· = back (e.s.cancel lid 4) 4))))) ∧
  (∀ f key, Issues (.msgrd f) s e → e.g.isCtl = true → e.rd64 0 f.a % 8 = 0 → e.ctlRange true (e.rd64 0 f.a) (e.rd64 0 f.b) = .ok key →
    (e.ctx.intail = e.ctx.consumed → exec (.msgrd f) s = .next (e.parked (.msgrd f) .msgrd e.s)) ∧
    (e.ctx.intail ≠ e.ctx.consumed →
      let at' := 4104 * (e.ctx.consumed.toNat % 64)
      let l := mnat e.ctx.inbound at' 8
      let len := if 4096 < l then 0 else l
      Effect (.msgrd f) s e (· = ((e.s.hWrite (MemW.ofCells ((mread e.ctx.inbound (at' + 8) (min len (e.rd64 0 f.b))).zipIdx.map
        fun x => (key x.2, x.1)))).modC e.cid fun c => { c with consumed := c.consumed + 1 }).modG e.gid
          fun g => g.wrD true f.d 0 (len + (if e.rd64 0 f.b < len then 2 ^ 63 else 0))))) ∧
  (∀ f key, Issues (.msgwr f) s e → e.g.isCtl = true → e.rd64 0 f.b ≤ 4096 →
    e.ctlRange false (e.rd64 0 f.a) (e.rd64 0 f.b) = .ok key →
    let n := e.rd64 0 f.b
    let off := 4104 * (e.ctx.outprog.toNat % 64)
    let t := e.s.modC e.cid fun c => { c with outprog := c.outprog + 1, acked := c.ackedAt (c.outprog + 1) c.outack }
    (64 ≤ e.ctx.outstanding → exec (.msgwr f) s = .next (e.parked (.msgwr f) .msgwr e.s)) ∧
    (e.ctx.outstanding < 64 → hostOk e.ctx (off + (8 + n) - 1) = true →
      Effect (.msgwr f) s e (· = t.hWrite (MemW.ofCells (e.ctx.hostCells off
        (leBytes 8 n ++ (List.range n).map fun i => mget (hImage e.s).data (key i)))))) ∧
    (e.ctx.outstanding < 64 → hostOk e.ctx (off + (8 + n) - 1) = false →
      Effect (.msgwr f) s e (· = (t.freshOpid e.cid).2.ringPut e.cid
        (ringEntry 3 7 (2 ^ 32 - 1) 0 (t.freshOpid e.cid).1.toNat (e.rd64 0 f.a) 255 255))))

/-! ### Trees and rays -/

/-- R297 to R314: the tree words. VGET, VSTN and VSMP give every executing lane its values as a pending result: VSMP the trilinear value of
the eight voxels around its point, with the flags of its seven interpolations, or NaN and NV where a coordinate is not finite or out of range;
VMRC its first leaf;
VLEAF the handle of a resident copy, 0 for an absent leaf, and a failed result where a byte cannot be read; VLEAF.rel frees the frame; VSET writes its voxels to grid memory;
VACT, VINS and VDEL wait in the team's list for the round that applies them; HALO registers leaves. The results where an
origin or a direction of VMRC is infinite are free values (log entry 9), and nothing is said of them. -/
def Obligations.TreeWordsComplete : Prop := ∀ (s : State) (e : Env),
  let vt := fun (f : RWord) => vtypeOf f.ty
  let n := fun (f : RWord) => if f.ty == .f64 then 2 else 1
  (∀ f (v : Nat → Nat), Issues (.vget f) s e →
    (∀ l ∈ e.execLanes f.k, ∃ h, e.walkHeader e.treeMem f l = .ok h ∧ e.treeMem.value h (e.point f l) (bitOf f.m.val 0) = .ok (v l)) →
    Completes (.vget f) s e (e.laneChange f (n f) (fun l => valueWords (vt f) (v l)) fun _ => 0)) ∧
  (∀ f (v : Nat → List Nat), Issues (.vstn f) s e →
    let offs := stencil (f.m == 1)
    (∀ l ∈ e.execLanes f.k, ∃ h, e.walkHeader e.treeMem f l = .ok h ∧ (offs.mapM fun d => match (e.point f l).shift d with
      | some q => e.treeMem.value h q true | none => .ok h.bg) = .ok (v l)) →
    Completes (.vstn f) s e (e.laneChange f (offs.length * n f) (fun l => (v l).flatMap (valueWords (vt f))) fun _ => 0)) ∧
  (∀ f (h : Nat → Hdr) (v : Nat → Nat → Nat → Nat → Nat), Issues (.vsmp f) s e →
    let pt := fun l => [(e.point f l).x, (e.point f l).y, (e.point f l).z].map (unpackFp f32)
    let off := fun l => (pt l).any fun c => c.isNan || c.isInf || (floorFrac c).1 < -(2 ^ 31 : Int) || (2 ^ 31 - 2 : Int) < (floorFrac c).1
    let at' := fun l k d => ofInt 32 ((floorFrac (((pt l)[k]?).getD (.nan false))).1 + (d : Nat))
    let fr := fun l k => (floorFrac (((pt l)[k]?).getD (.nan false))).2
    (∀ l ∈ e.execLanes f.k, e.walkHeader e.treeMem f l = .ok (h l) ∧ (off l = false → ∀ dx < 2, ∀ dy < 2, ∀ dz < 2,
      e.treeMem.value (h l) ⟨at' l 0 dx, at' l 1 dy, at' l 2 dz⟩ true = .ok (v l dx dy dz))) →
    let x := fun l dy dz => lerp (v l 0 dy dz) (v l 1 dy dz) (fr l 0)
    let y := fun l dz => lerp (x l 0 dz).1 (x l 1 dz).1 (fr l 1)
    let z := fun l => lerp (y l 0).1 (y l 1).1 (fr l 2)
    Completes (.vsmp f) s e (e.laneChange f 1 (fun l => [if off l then f32.canon else (z l).1]) fun l =>
      if off l then fNV
      else (x l 0 0).2 ||| (x l 0 1).2 ||| (x l 1 0).2 ||| (x l 1 1).2 ||| (y l 0).2 ||| (y l 1).2 ||| (z l).2)) ∧
  (∀ f, Issues (.vget f) s e → ∃ p, Completes (.vget f) s e (if e.execLanes f.k = [] then {} else { new := [p] })) ∧
  (∀ f, Issues (.vstn f) s e → ∃ p, Completes (.vstn f) s e (if e.execLanes f.k = [] then {} else { new := [p] })) ∧
  (∀ f, Issues (.vsmp f) s e → ∃ p, Completes (.vsmp f) s e (if e.execLanes f.k = [] then {} else { new := [p] })) ∧
  (∀ f, Issues (.vmrc f) s e → ∃ p, Completes (.vmrc f) s e (if e.execLanes f.k = [] then {} else { new := [p] })) ∧
  (∀ f (r : Nat → List Nat × Nat), Issues (.vmrc f) s e →
    (∀ l ∈ e.execLanes f.k, ∃ h, e.treeMem.header (e.rd64 l f.b) = .ok h ∧
      let ws := (List.range 8).map fun j => e.rd32 l (Opd.plus f.a j)
      ((ws.take 6).all fun w => !(unpackFp f32 w).isInf) = true ∧ vmrcLane e.treeMem h ws [] = .ok (r l)) →
    Completes (.vmrc f) s e (e.laneChange f 4 (fun l => (r l).1) fun l => (r l).2)) ∧
  (∀ f vs x, Issues (.vleaf f) s e → e.exec f.k ≠ 0 →
    e.agreed f.k (if f.m == 1 then [f.a] else [f.a, Opd.plus f.a 1, Opd.plus f.a 2, f.b]) = .ok vs →
    leafArg e.treeMem f (fun i => (vs[i]?).getD 0) = .error x → ∃ p, Completes (.vleaf f) s e { new := [p] } ∧ p.vw = [] ∧ p.sw = [] ∧
      p.fails.map (fun w => (w.1, w.2.code, w.2.addr)) = (e.execSlices f.k).map fun c => (4 * c, x.1, BitVec.ofNat 64 x.2)) ∧
  (∀ f vs t leaf i x, Issues (.vleaf f) s e → e.exec f.k ≠ 0 →
    e.agreed f.k (if f.m == 1 then [f.a] else [f.a, Opd.plus f.a 1, Opd.plus f.a 2, f.b]) = .ok vs →
    leafArg e.treeMem f (fun i => (vs[i]?).getD 0) = .ok (t, leaf) → leaf ≠ 0 →
    (e.frames.find? fun i => (tget i e.team.pins).isNone) = some i → e.treeMem.num leaf (leafBytes t) = .error x →
    ∃ p, Effect (.vleaf f) s e (· = (e.s.putG e.gid (e.g.addPend p)).modT e.tid fun t => { t with pins := tput i (gidG e.gid) t.pins }) ∧
      p.vw = [] ∧ p.sw = [] ∧
      p.fails.map (fun w => (w.1, w.2.code, w.2.addr)) = (e.execSlices f.k).map fun c => (4 * c, x.1, BitVec.ofNat 64 x.2)) ∧
  (∀ f vs t, Issues (.vleaf f) s e → e.exec f.k ≠ 0 →
    e.agreed f.k (if f.m == 1 then [f.a] else [f.a, Opd.plus f.a 1, Opd.plus f.a 2, f.b]) = .ok vs →
    leafArg e.treeMem f (fun i => (vs[i]?).getD 0) = .ok (t, 0) → Completes (.vleaf f) s e { new := [e.scalarResult f 0] }) ∧
  (∀ f vs t leaf i b, Issues (.vleaf f) s e → e.exec f.k ≠ 0 →
    e.agreed f.k (if f.m == 1 then [f.a] else [f.a, Opd.plus f.a 1, Opd.plus f.a 2, f.b]) = .ok vs →
    leafArg e.treeMem f (fun i => (vs[i]?).getD 0) = .ok (t, leaf) → leaf ≠ 0 →
    (e.frames.find? fun i => (tget i e.team.pins).isNone) = some i → e.treeMem.num leaf (leafBytes t) = .ok b →
    Effect (.vleaf f) s e (· = (e.s.putG e.gid (e.g.addPend (e.scalarResult f (e.frameAddr i)))).modT e.tid fun t =>
      { t with pins := tput i (gidG e.gid) t.pins,
               data := t.data.apply (MemW.ofCells (cells (e.lch.layout.pool + 4224 * i) (leBytes 4224 b))) })) ∧
  (∀ f v i, Issues (.vleafRel f) s e → e.exec f.k ≠ 0 → e.agreed f.k [f.a] = .ok [v] →
    (e.frames.find? fun i => e.frameAddr i == v && tget i e.team.pins == some (gidG e.gid)) = some i →
    Effect (.vleafRel f) s e (· = e.s.modT e.tid fun t => { t with pins := tdel i t.pins })) ∧
  (∀ f ts tm, Issues (.vset f) s e → e.execLanes f.k ≠ [] →
    ((e.execLanes f.k).mapM fun l => e.vsetTarget e.treeMem f l) = .ok ts →
    let vb := valueBytes (vt f)
    e.team.charge e.lch.lr.dquota (memLines (ts.map fun t => (t.1, vb))) 0 = some tm →
    Effect (.vset f) s e (· = (e.s.putT e.tid tm).modG e.gid fun g => g.modLvl e.sub.mask fun v =>
      { v with gmem := v.gmem.andThen (MemW.ofCells (((e.execLanes f.k).zip ts).flatMap fun x =>
        x.2.2.zip (leBytes vb (if f.ty == .f64 then e.rd64 x.1 f.d else e.rd32 x.1 f.d)))) })) ∧
  (∀ f h hd (leaf : Nat → Nat) tm, Issues (.vact f) s e → e.exec f.k ≠ 0 → e.agreed f.k [f.b] = .ok [h] →
    e.treeMem.header h = .ok hd → (∀ l ∈ e.execLanes f.k, ∃ t, e.treeMem.path hd (e.point f l) = .ok t ∧ t.leaf = leaf l) →
    let here := (e.execLanes f.k).filter fun l => leaf l != 0
    let absent := ((e.execLanes f.k).filter fun l => leaf l == 0).map fun l => originLine h ((e.point f l).origin 8)
    e.team.charge e.lch.lr.dquota
      (nunion (memLines (here.map fun l => (leaf l + 64 + 4 * ((e.point f l).voxel / 32), 4))) absent) 0 = some tm →
    Effect (.vact f) s e (· = e.s.putT e.tid { tm with
      toks := tm.toks ++ [(gidG e.gid, .vact (bitOf f.m.val 0) (e.points f) (BitVec.ofNat 64 h))] })) ∧
  (∀ f h c hd sp tm, e.exec f.k ≠ 0 → e.agreed f.k [f.b, f.c] = .ok [h, c] → e.treeMem.header h = .ok hd →
    e.spec c [0, 15] = .ok sp → (∀ q a, e.nextSlot sp = some (q, a) → 512 ≤ q.slotBytes) → (sp.mode = 0 → e.fetchOk = .ok ()) →
    e.team.charge e.lch.lr.dquota [] (640 * (e.execLanes f.k).length) = some tm →
    let r := e.tokenSlot (e.s.putT e.tid tm) sp (match e.nextSlot sp with | some (_, a) => a | none => 0) 512
    let waits := fun ins => r.1.modT e.tid fun t => { t with
      toks := t.toks ++ [(gidG e.gid, .alloc ins (e.points f) (BitVec.ofNat 64 h) r.2.1)] }
    (Issues (.vins f) s e → e.slotBusy sp = false → Effect (.vins f) s e (· = waits true)) ∧
    (Issues (.vdel f) s e → e.slotBusy sp = false → Effect (.vdel f) s e (· = waits false)) ∧
    (Issues (.vins f) s e → e.slotBusy sp = true → exec (.vins f) s = .next (e.parked (.vins f) (.slotFree sp.q) e.s)) ∧
    (Issues (.vdel f) s e → e.slotBusy sp = true → exec (.vdel f) s = .next (e.parked (.vdel f) (.slotFree sp.q) e.s))) ∧
  (∀ f a b h hd, Issues (.halo f) s e → e.exec f.k ≠ 0 → e.agreed f.k [f.a, f.b, f.c] = .ok [a, b, h] →
    let n := fld b 0 16
    let hs := (List.range n).map fun i => leNat (e.ownBytes (a - e.spb + 8 * i) 8)
    b < 2 ^ 20 → n ≤ 4096 → a % 8 = 0 → e.spb ≤ a → a + 8 * n ≤ e.spb + e.lch.layout.rings → e.treeMem.header h = .ok hd →
    (∀ x ∈ hs, x ≠ 0 ∧ x % 64 = 0) →
    Effect (.halo f) s e (· = e.s.modL e.lid fun l => { l with
      halo := l.halo ++ hs.map fun x => (BitVec.ofNat 64 x, fld b 16 4, BitVec.ofNat 64 h) }))

/-- R326 to R336: the ray words. RTRC starts a ray in each executing lane and gives its first event; RCONT answers the open event and
gives the next, and RCONT.kill ends the ray; in a replay they give the logged events. RGET reads a ray, RLOG opens and closes
the log, and RRPL arms a replay. -/
def Obligations.RayWordsComplete : Prop := ∀ (s : State) (e : Env),
  (∀ f, Issues (.rtrc f) s e → e.execLanes f.k ≠ [] →
    let ls := e.execLanes f.k
    let sp : Spec := { mode := if e.g.logOn then 0 else 15, q := e.g.logQ }
    (∀ l ∈ ls, e.rd64 l f.c < 2) → (∀ l ∈ ls, (e.g.ray l).phase ≠ .opened) →
    (e.g.logOn = true → ∃ x, e.fillQueue e.g.logQ = .ok x) → e.slotBusy sp = false →
    let at' := match e.nextSlot sp with | some (_, a) => a | none => 0
    let s1 := if e.g.logOn then e.fork e.s sp []
      { gid := e.gid, slices := 0, kind := .log ls.length [], engine := .log, mode := 0, handle := BitVec.ofNat 64 at' } else e.s
    let first := fun l => ({ e.treeMem.start (e.rayRegs f l) (bitOf (e.rd64 l f.c) 0) (e.rd64 l f.b) with
      rayId := BitVec.ofNat 64 (e.team.team * 2 ^ 32 + (32 * gidG e.gid + l) * 2 ^ 20 + (sget 0 e.g.rayCount l).toNat),
      job := if e.g.logOn then some e.s.nextOp else none } : Ray).go
    Effect (.rtrc f) s e (· = e.rayEvents (.rtrc f) f
      (s1.modG e.gid fun g => { g with rayCount := ls.foldl (fun c l => sset 0 c l (sget 0 c l + 1)) g.rayCount })
      (ls.map fun l => (l, (first l).1, (first l).2, false)))) ∧
  (∀ f, Issues (.rcont f) s e → e.execLanes f.k ≠ [] →
    (∀ l ∈ e.execLanes f.k, (e.g.ray l).phase = .replay ∨ (e.g.ray l).phase = .opened ∧ e.rd32 l f.a < 2) →
    Effect (.rcont f) s e (· = e.rayEvents (.rcont f) f e.s ((e.execLanes f.k).map fun l =>
      if (e.g.ray l).phase = .replay then (l, (e.g.ray l).replayNext, none, true)
      else
        let x := (e.g.ray l).answer (bitOf (e.rd32 l f.a) 0) (BitVec.ofNat 64 (e.rd64 l (Opd.plus f.a 2)))
        (l, x.1, x.2, false)))) ∧
  (∀ f, Issues (.rcontKill f) s e → e.execLanes f.k ≠ [] →
    (∀ l ∈ e.execLanes f.k, (e.g.ray l).phase = .replay ∨ (e.g.ray l).phase = .opened) →
    Effect (.rcontKill f) s e (· = e.rayEvents (.rcontKill f) f e.s ((e.execLanes f.k).map fun l =>
      if (e.g.ray l).phase = .replay then
        (l, { (e.g.ray l) with phase := .done, event := 4, item := none, rest := [], resp := false, ret := 0 }, none, true)
      else (l, (e.g.ray l).kill, none, false)))) ∧
  (∀ i f (rs : List (Nat × Ray × Option (Nat × Nat) × Bool)) s1 g1, tget e.gid s1.groups = some g1 → rs ≠ [] →
    ({ e with g := g1 } : Env).execLanes f.k = rs.map (·.1) → (∀ r ∈ rs, r.2.1.job = none ∧ r.2.2.1 = none) →
    ∃ a g, e.rayEvents i f s1 rs = { s1.putG e.gid g with aster := a } ∧
      (∀ r ∈ rs, tget r.1 g.rays = some r.2.1.buffered) ∧ (∀ l, l ∉ rs.map (·.1) → tget l g.rays = tget l g1.rays) ∧
      (∃ p, g.pend = g1.pend ++ [p] ∧ p.fails = [] ∧ ∀ n, f.d = .v n → p.vw = rs.flatMap fun r =>
        (r.2.1.words r.2.2.2).zipIdx.map fun w => (32 * (n.val + w.2) + r.1, BitVec.ofNat 32 w.1)) ∧
      g = { g1 with rays := g.rays, pend := g.pend, nextPend := g1.nextPend + 1 }) ∧
  (∀ f (w : Nat → List Nat), Issues (.rget f) s e →
    (∀ l ∈ e.execLanes f.k, (e.g.ray l).phase ≠ .idle ∧ (e.g.ray l).get f.m.val = .ok (w l) ∧
      ((e.g.ray l).rep = true → (e.g.ray l).tree = true ∨ f.m = 0 ∨ f.m = 3 ∨ f.m = 4)) →
    Completes (.rget f) s e (e.laneChange f (rgetSpan f.m.val) w fun _ => 0)) ∧
  (∀ f a, Issues (.rlog f) s e → e.exec f.k ≠ 0 → e.agreed f.k [f.a] = .ok [a] → a < 2 ^ 64 →
    a / 16 % 16 = 0 → a < 512 → (256 ≤ a → ∃ x, e.fillQueue (a % 16) = .ok x) →
    Effect (.rlog f) s e (· = e.s.putG e.gid { e.g with logOn := decide (256 ≤ a), logQ := a % 16 })) ∧
  (∀ f (h b : Nat → List Byte), Issues (.rrpl f) s e →
    (∀ l ∈ e.execLanes f.k, (e.g.ray l).phase ≠ .opened ∧
      let a := e.rd64 l f.a
      let n := leNat (((h l).drop 12).take 4)
      e.heldBytes a 128 = some (h l) ∧ e.heldBytes a (128 + 48 * n) = some (b l) ∧ e.heldBad a (128 + 48 * n) = false ∧
      ∀ i < n, (((b l)[128 + 48 * i]?).getD 0).toNat = 1 ∨ (((b l)[128 + 48 * i]?).getD 0).toNat = 2) →
    Effect (.rrpl f) s e (· = e.s.putG e.gid { e.g with rays := (e.execLanes f.k).foldl (fun t l =>
      tput l (replayOf (b l) (e.rd64 l f.b != 0) fun i p w =>
        if e.rd64 l f.b == 0 then {} else e.treeMem.view (e.rd64 l f.b) i p w) t) e.g.rays }))

/-- R333: HINV invalidates every entry of its die's table that stands in a way that its context has enabled, and has no other effect. -/
def Obligations.HinvInvalidatesItsWays : Prop := ∀ (s : State) (e : Env) (f : RWord), Issues (.hinv f) s e → e.exec f.k ≠ 0 →
  ∃ t : State, exec (.hinv f) s = .next (e.done (.hinv f) t) ∧ t = { e.s with aster := t.aster } ∧
    ∀ x, x ∈ t.aster ↔ x ∈ e.s.aster ∧ ¬(x.1 / 2 ^ 20 = e.die ∧ bitOf e.ctx.f.wayMask.toNat (x.1 % 16) = true)

/-! ### The world's side of the module -/

/-- R392, R398 and R399: the host's commands. BUSY (1) while a checkpoint of the context is in flight, INVALID (2) in another STATE or with
fields that are not accepted, else the command has its effect and answers 0. A created context has control memory that reads zero and
its core map at MAPBASE; what a destroyed one held and wrote of the tiers reads zero but where another context holds it; a captured one's image stands in its slot of the reserved region, and the
answer names the slot; a restored one stands as its image says. The cores that CREATE and RESTORE choose, the slots and the image's
form are the model's choice (log entries 16 and 20), and when memory is cleared is entry 5. START without LOAD, and beside a rival or one that waits, what STOP leaves, BUSY on every command and
QUERY's answer are log entries 33 and 20; START's zeroed registers are entry 3. -/
def Obligations.CommandsAnswer : Prop := ∀ (s : State) (cid : Nat) (c : Ctx), s.bootHalted = false →
  let said := fun (t : State) (op st : Nat) => t.report (.answer cid op st 0 0)
  let cmds : List (Nat × Instr × List CState) :=
    [(2, .load cid 0 0, [.idle]), (3, .start cid, [.idle]), (4, .stop cid, [.resident, .switchedOut]),
     (5, .destroy cid, [.idle, .faulted]), (6, .checkpoint cid, [.resident, .switchedOut])]
  (∀ f, let map := s.chooseCores f.cores
    let t := s.created cid f map
    tget cid s.ctxs = none → cid < 16 → s.fuse ≠ .retired → s.fieldsOk cid f map = true →
      exec (.create cid f) s = .next (said t 1 0) ∧ tget cid t.ctxs = some { state := .idle, f := f, coreMap := map } ∧
      ∀ k, k < mapKey f 0 ∨ mapKey f map.length ≤ k →
        mget t.mem k = if keyType k = 6 ∧ k / 2 ^ 60 = cid then 0 else mget s.mem k) ∧
  (∀ f, tget cid s.ctxs = none → s.fuse = .retired ∨ s.fieldsOk cid f (s.chooseCores f.cores) = false →
    exec (.create cid f) s = .next (said s 1 2)) ∧
  (tget cid s.ctxs = some c →
    (∀ x ∈ cmds, c.checkpointReq = true → exec x.2.1 s = .next (said s x.1 1)) ∧
    (∀ x ∈ cmds, c.checkpointReq = false → c.state ∉ x.2.2 → exec x.2.1 s = .next (said s x.1 2)) ∧
    (∀ f, c.checkpointReq = false → c.state ≠ .free → exec (.create cid f) s = .next (said s 1 2)) ∧
    (∀ im, c.checkpointReq = false → c.state ≠ .free → exec (.restore cid im) s = .next (said s 7 2)) ∧
    (c.checkpointReq = false → cid < 16 →
      (∀ addr len, c.state = .idle → exec (.load cid addr len) s = .next (said (s.putC cid { c with image := some (addr, len) }) 2 0)) ∧
      (∀ addr len, c.state = .idle → c.image = some (addr, len) →
        let waits := s.rival cid c ≠ none ∨ s.turnWanted cid c = true
        let c' := { c with state := if waits then .switchedOut else .resident, tvec := 0, epc := 0, ien := false, inHandler := false, tkey := 0 }
        let t := (s.putC cid c').putG (ctlGid cid) (ctlGroup addr)
        exec (.start cid) s = .next (said (if waits then t.writeRecord cid else t) 3 0)) ∧
      (c.state = .idle → c.image = none → exec (.start cid) s = .next (said s 3 2)) ∧
      (c.state = .resident ∨ c.state = .switchedOut →
        let u := (s.switchOut cid).modC cid fun c => { c with state := .idle }
        exec (.stop cid) s = .next (said { u with groups := tdel (ctlGid cid) u.groups } 4 0)) ∧
      (c.state = .idle ∨ c.state = .faulted → ∃ t, exec (.destroy cid) s = .next (said t 5 0) ∧ tget cid t.ctxs = none ∧
        (∀ x ∈ t.launches, lidCtx x.1 ≠ cid) ∧ (∀ x ∈ t.groups, gidCid x.1 ≠ cid) ∧
        let fs := framesOf (hImage s).data 4 c.f.ptroot ++ c.areas (s.record cid c).len
        let others := fun k => ∃ x ∈ s.ctxs, x.1 ≠ cid ∧ x.2.state ≠ .free ∧ ownsKey (s.holdings x.1 x.2) cid k = true
        let wrote := fun k => k / 65536 ∈ c.pages ∨ ∃ l ∈ s.launchesOf cid, k / 65536 ∈ pagesOf l.2.total
        let m := (s.launchesOf cid).foldl (fun (m : Image) l => if l.2.isDone = true then m.apply l.2.total else m)
          { data := s.mem, poison := s.memPoison }
        ∀ k, mget t.mem k = if ownsKey fs cid k = true ∧ keyType k = 6 ∨
            (keyType k = 1 ∨ keyType k = 2) ∧ (ownsKey fs cid k = true ∨ wrote k) ∧ ¬others k then 0 else mget m.data k)) ∧
      (c.state = .resident ∨ c.state = .switchedOut →
        exec (.checkpoint cid) s = .next (s.modC cid fun c => { c with checkpointReq := true }))) ∧
  exec (.query cid) s = .next (s.report (.answer cid 8 0 (s.ctxState cid).code s.cores)) ∧
  (s.quiet cid = true → let u := s.switchOut cid
    ∃ c', tget cid u.ctxs = some c' ∧ c'.state = .switchedOut ∧
      let b := u.checkpointImage cid c' (u.capture cid c')
      let slot := u.imageSlot b.len
      (reservedOk (imageBase slot) b.len = true → exec (.quietPointCapture cid) s = .next
        ({ (u.place (physKey 0 2 (imageBase slot)) b).putC cid { c' with checkpointReq := false } with
          images := imagesWith slot b.len u.images }.report (.answer cid 6 0 slot b.len))) ∧
      (reservedOk (imageBase slot) b.len = false → c'.checkpointReq = true →
        exec (.quietPointCapture cid) s = .next (said (u.putC cid { c' with checkpointReq := false }) 6 2))) ∧
  (s.quiet cid = false → exec (.quietPointCapture cid) s = .next s) ∧
  (∀ im, tget cid s.ctxs = none → 16 ≤ im ∨ s.readImage im = none → exec (.restore cid im) s = .next (said s 7 2)) ∧
  (∀ im v record ctl pages, tget cid s.ctxs = none → cid < 16 → im < 16 → s.readImage im = some (v, record, ctl, pages) →
    let map := s.chooseCores v.ctx.f.cores
    s.fuse ≠ .retired → v.ctx.f.cores ≤ s.cores → (∀ g ∈ v.groups, gidCid g.1 = cid) → s.waysOk cid v.ctx.f.wayMask map = true →
    s.framesTaken cid v record = false →
    let r := s.rebuild cid v record ctl pages
    exec (.restore cid im) s = .next (said (r.switchIn cid) 7 0) ∧ tget cid r.ctxs = some { (v.renumber s.nextOp).ctx with coreMap := map } ∧
      ∀ x ∈ v.teams, ∃ t, tget x.1 r.teams = some t)

/-- R345 to R351: a resident context that switches out becomes SWITCHED_OUT with its results returned, its tile queues drained, its save
record written at SAVE and its cached translations dropped; one that can switch in becomes RESIDENT on the cores that its map names
with the registers of its record, the INTAIL that stands in the record takes effect, and its markers go on; a time slice that ends where another context
waits gives up the cores, and the next in ascending order after the last that left them returns; a migration that the firmware can make moves a logical core and leaves a forwarding entry, and with 16
of them in use on the old core it waits. The extent of a save record (log entry 16), and the order of turns, the conditions of a
migration and the place of the core map (20), are the model's choices. -/
def Obligations.SwitchesAndMigrationComplete : Prop := ∀ (s : State) (cid : Nat) (c : Ctx), tget cid s.ctxs = some c →
  (c.state ≠ .resident → exec (.worldSwitchOut cid) s = .next s) ∧
  (c.state = .resident →
    let u := ((s.preemptCtx cid).passTurn cid).modC cid fun c => { c with state := .switchedOut }
    let t := (u.writeRecord cid).dropPages cid fun _ => false
    exec (.worldSwitchOut cid) s = .next t ∧ (tget cid t.ctxs).map (·.state) = some .switchedOut ∧
    (∃ c', tget cid u.ctxs = some c' ∧ c'.f = c.f ∧ ∀ k, k < saveKey c ∨ saveKey c + (u.record cid c').len ≤ k →
      mget t.mem k = mget s.mem k) ∧
    (∀ k ∈ t.tcache, cacheCtx k ≠ cid) ∧
    (∀ k x, tget k s.ctxs = some x → (tget k t.ctxs).map (·.after) = some (if x.shares c = true then cid else x.after)) ∧
    ∀ gid g, gidCid gid = cid → tget gid s.groups = some g →
      ∃ g', tget gid t.groups = some g' ∧ g'.tileQ = [] ∧ (∀ p ∈ g'.pend, p.returned = true) ∧
        g'.vreg = g.vreg ∧ g'.sreg = g.sreg ∧ g'.kreg = g.kreg) ∧
  (s.switchInReady cid = false → exec (.worldSwitchIn cid) s = .next s) ∧
  (s.switchInReady cid = true →
    let s1 := (((s.readMap cid).readRecord cid).modC cid fun c =>
        { c.setIntail (BitVec.ofNat 32 (mnat (hImage s).data (saveKey c + 624) 4)) with state := .resident }).modG
      (ctlGid cid) fun g => g.modSub 1 fun x => if x.park = .marker then x else { x with park := .none }
    exec (.worldSwitchIn cid) s =
      .next ((s1.groups.filter fun g => gidCid g.1 == cid && s1.gidRuns g.1).foldl (fun t g => t.resettle g.1) s1)) ∧
  (c.state ≠ .resident ∨ c.f.slice = 0 ∨ s.turnWanted cid c = false → exec (.timeSliceExpire cid) s = .next s) ∧
  (c.state = .resident → c.f.slice ≠ 0 → s.turnWanted cid c = true →
    let t := s.switchOut cid
    (t.nextTurn cid c = none → exec (.timeSliceExpire cid) s = .next t) ∧
    (∀ k, t.nextTurn cid c = some k → exec (.timeSliceExpire cid) s = .next (t.switchIn k) ∧ k ≠ cid ∧ t.switchInReady k = true ∧
      ∃ x, tget k t.ctxs = some x ∧ ∀ y ∈ t.ctxs, y.1 ≠ k → y.2.shares x = true → t.waitsTurn y.1 y.2 = true →
        (k + 15 - x.after) % 16 ≤ (y.1 + 15 - y.2.after) % 16)) ∧
  (∀ lcore phys,
    let s0 := { s with forwards := s.liveForwards }
    let c0 := { c with migrations := c.migrations.filter (· != (lcore, phys)) }
    (s0.canMigrate cid c0 lcore phys = false → exec (.migration cid lcore phys) s = .next (s0.putC cid c0)) ∧
    (s0.canMigrate cid c0 lcore phys = true → 16 ≤ s0.forwardsAt (c.phys lcore) →
      exec (.migration cid lcore phys) s = .next (s0.putC cid { c0 with migrations := c0.migrations ++ [(lcore, phys)] })) ∧
    (s0.canMigrate cid c0 lcore phys = true → s0.forwardsAt (c.phys lcore) < 16 → ∃ t, exec (.migration cid lcore phys) s = .next t ∧
      (tget cid t.ctxs).map (·.coreMap) = some (c.coreMap.set lcore phys) ∧
      (∀ k, k < mapKey c.f 0 ∨ mapKey c.f c.coreMap.length ≤ k → mget t.mem k = mget s.mem k) ∧
      t.forwards = s.liveForwards ++ [(c.phys lcore, cid, lcore, s.nextOp)])) ∧
  (∀ core lcore, (core, cid, lcore) ∈ s.liveForwards.map (fun f => (f.1, f.2.1, f.2.2.1)) →
    exec (.forward core cid lcore) s = .next { s with forwards := s.liveForwards, forwarded := s.forwarded + 1 }) ∧
  (∀ core lcore, (core, cid, lcore) ∉ s.liveForwards.map (fun f => (f.1, f.2.1, f.2.2.1)) →
    exec (.forward core cid lcore) s = .next { s with forwards := s.liveForwards })

/-- R348, R387 to R395, R397 and R381: the words and messages that reach the module. A write of INTAIL lands in the save record while its context is
switched out, and one out of bounds sets OVR; a module whose boot has halted takes no packet and no flit (R400); a packet outside the subset is dropped; a command's SEND is carried out next; a bad flit is
resent, and after 8 tries its data is poisoned; the side-band's reads report. The place of INTAIL in the record (log entry 16), the layout of a SEND and how it is carried out (log entry
54), the form of the reports (45) and POWER's value (7) are the model's choices. -/
def Obligations.MessagesComplete : Prop := ∀ (s : State) (cid : Nat) (c : Ctx), tget cid s.ctxs = some c →
  let ctxIs := fun (o : Host.Outcome State Fault Refusal) (c' : Ctx) =>
    ∃ t, o = .next t ∧ tget cid t.ctxs = some c' ∧ t = { s with ctxs := t.ctxs } ∧ ∀ k, k ≠ cid → tget k t.ctxs = tget k s.ctxs
  (∀ v, c.state = .switchedOut → ∃ t, exec (.intailWrite cid v) s = .next t ∧
    mread (hImage t).data (saveKey c + 624) 4 = leBytes 4 v.toNat ∧ t.ctxs = s.ctxs ∧
    (∀ a, a < saveKey c + 624 ∨ saveKey c + 628 ≤ a → mget t.mem a = mget s.mem a) ∧
    t = { s with mem := t.mem, memPoison := t.memPoison, launches := t.launches }) ∧
  (∀ v, c.state ≠ .switchedOut → (v - c.consumed).toNat ≤ 64 → (c.intail - c.consumed).toNat ≤ (v - c.consumed).toNat →
    ctxIs (exec (.intailWrite cid v) s) { c with intail := v }) ∧
  (∀ v, c.state ≠ .switchedOut → 64 < (v - c.consumed).toNat ∨ (v - c.consumed).toNat < (c.intail - c.consumed).toNat →
    ctxIs (exec (.intailWrite cid v) s) { c with ovr := true }) ∧
  (∀ v clr, ctxIs (exec (.outackWrite cid v clr) s)
    { c with outack := v, acked := c.ackedAt c.outprog v, ovr := if clr then false else c.ovr }) ∧
  (∀ p, Packet.accepted s.portAddr p = true ↔ 64 ≤ p.frame ∧ p.frame ≤ 9216 ∧ (p.net = .ipv4 ∨ p.net = .ipv6) ∧
    s.portAddr[p.port]? = some p.dst ∧ p.udpPort = 4791 ∧ p.reliable = true ∧ p.atomic = false) ∧
  (s.bootHalted = true → (∀ p, exec (.packetReceive p) s = .next s) ∧ ∀ f, exec (.flitReceive f) s = .next s) ∧
  (∀ p, s.bootHalted = false → Packet.accepted s.portAddr p = false →
    exec (.packetReceive p) s = .next { s with dropped := s.dropped + 1 }) ∧
  (∀ p, s.bootHalted = false → Packet.accepted s.portAddr p = true →
    (∀ slot len bs, p.op = .writeInbound cid slot len bs → slot < 64 → bs.length ≤ 4096 →
      ctxIs (exec (.packetReceive p) s)
        { c with inbound := mwrite (mwrite c.inbound (4104 * slot) (leBytes 8 len)) (4104 * slot + 8) bs }) ∧
    (∀ target bs, p.op = .hostBytes cid target bs →
      exec (.packetReceive p) s = .next (s.hWrite (MemW.ofCells (c.hostCells target bs)))) ∧
    (∀ off bs, p.op = .writeControl cid off bs → off + bs.length ≤ 2 ^ 20 →
      (c.state = .idle → exec (.packetReceive p) s = .next (s.hWrite (MemW.ofCells (cells (physKey cid 6 off) bs)))) ∧
      (c.state ≠ .idle → exec (.packetReceive p) s = .next (s.report .refused))) ∧
    (∀ block off len, p.op = .readBlock cid block off len →
      (block < 16 → off < 65536 → block * 65536 + off + len ≤ 2 ^ 20 →
        (c.state = .idle → exec (.packetReceive p) s =
          .next (s.report (.bytes cid (mread (hImage s).data (physKey cid 6 (block * 65536 + off)) len)))) ∧
        (c.state ≠ .idle → exec (.packetReceive p) s = .next (s.report .refused))) ∧
      (block = 16 ∧ off + len ≤ 4096 ∨ block = 17 ∧ off + len ≤ 512 ∨ block = 18 ∧ 8 ≤ off ∧ off + len ≤ 16 →
        exec (.packetReceive p) s = .next (s.report (.bytes cid ((List.range len).map fun i => c.blockByte block (off + i)))))) ∧
    (∀ a bs, p.op = .writeReserved a bs → 5 * 2 ^ 40 ≤ a → a + bs.length ≤ 6 * 2 ^ 40 →
      exec (.packetReceive p) s = .next (s.hWrite (MemW.ofCells (cells (physKey 0 2 a) bs)))) ∧
    (∀ a len, p.op = .readReserved a len → 5 * 2 ^ 40 ≤ a → a + len ≤ 6 * 2 ^ 40 →
      exec (.packetReceive p) s = .next (s.report (.bytes 0 (mread (hImage s).data (physKey 0 2 a) len)))) ∧
    (∀ bs, p.op = .send bs →
      (∀ i, commandOf bs = some i → bs.length = 64 → exec (.packetReceive p) s = .next { s with inputs := i :: s.inputs }) ∧
      (commandOf bs = none → exec (.packetReceive p) s =
        .next (s.report (.answer (leNat ((bs.drop 1).take 1)) (leNat (bs.take 1)) 2 0 0))))) ∧
  (∀ f, s.bootHalted = false → f.data.fits = true → f.ok = false → f.tries < 8 → exec (.flitReceive f) s = .next (s.report .resend)) ∧
  (∀ f, s.bootHalted = false → f.data.fits = true → f.ok = true ∨ 8 ≤ f.tries →
    (∀ target bs, f.data = .remote target bs →
      exec (.flitReceive f) s = .next (s.flitBytes (physKey 0 7 target) (!f.ok) bs)) ∧
    (∀ addr bs, f.data = .write addr bs → exec (.flitReceive f) s =
      .next (s.flitBytes (physKey 0 (if addr / 2 ^ 43 % 2 = 1 then 2 else 1) (addr % 2 ^ 43)) (!f.ok) bs)) ∧
    (∀ entry step rank m, f.data = .coll cid entry step rank m →
      exec (.flitReceive f) s = .next (s.collFlit cid entry step rank (!f.ok) m))) ∧
  (∀ f, f.data.fits = false → exec (.flitReceive f) s = .next s) ∧
  exec .ident s = .next (s.report (.ident "BXG4-576" s.cores s.fuse s.bootHalted)) ∧
  (∃ v, exec .power s = .next ({ s with freeCtr := s.freeCtr + 1 }.report (.power v))) ∧
  exec .logs s = .next (s.report (.logs s.errors)) ∧
  (∀ consent, consent = true ∨ s.debugOpen 2 = true → exec (.counters cid consent) s = .next (s.report (.counters cid
    ((ofCtx cid s.counters).map fun x => (x.1, s.counterWord x.1)) ((ofCtx cid s.tree).map fun x => (x.1, s.leafWord x.1))))) ∧
  (s.debugOpen 2 = false → exec (.counters cid false) s = .next (s.report .refused))

/-- R361 to R365: the debugger's actions, refused while the feature is not open or the team is not the debugger's. A single step lets the
group's lowest live sub-gang whose park is over take the issue slot for one word, with every sibling and the rest of the team held; with none
it only restarts the group. A step back puts the newest word's entries back. R355 and R360: the debugger's resume, and a TEAMCTL write for the
team of a trap slot, free the slot and restart every group by its halt and its ACTION; TEAMCTL first reads back the registers of the group
images; ACTION 2 or more, or TEAMCTL's other action, terminates the grid. How a single step chooses its sub-gang and what a resume settles
rest on log entries 19, 35 and 6; that a fault at a marker leaves the results of the other sub-gangs pending is entry 13; that further faults
of a D-interval's close are taken at the same word, one at each resume, is entry 49; that a group whose fault names a word it has left behind
goes on where it stands is entry 47. A sub-gang that took a marker's fault at a REGANG or KSYNC stays there, to join. -/
def Obligations.DebugActionsComplete : Prop := ∀ (s : State) (tid gid : Nat) (tm : Team) (g : Group),
  tget tid s.teams = some tm →
  -- the team runs again: its slot is free, its groups restart, and what stood at markers and joins goes on
  let resumed := fun (u : State) (skip : Nat → Bool) =>
    let gs := (s.liveGroups tid).map (·.1)
    let freed := (u.modC (lidCtx (tidLid tid)) fun c => { c with trapUsed := match tm.trapSlot with
        | some k => nminus c.trapUsed [k] | none => c.trapUsed }).putT tid
      ({ tm with trapped := false, debugStop := false, trapSlot := none, exitFault := none }.exitDue false)
    gs.foldl (fun t g => t.resettle g) (gs.foldl (fun t g => t.restart g (skip g)) freed)
  (s.debugOpen 0 = true → tm.trapped = false → tm.retired = false → exec (.debugStop tid) s =
    .next ((s.putT tid { tm with trapped := true, debugStop := true }).modC (lidCtx (tidLid tid)) fun c => { c with debugReq := true })) ∧
  (s.debugOpen 0 = false → exec (.debugStop tid) s = .next (s.report .refused)) ∧
  (s.debugHeld (gidTid gid) = false → ∀ off bs, ∀ i ∈ [Instr.debugImageAccess gid .read, .debugImageAccess gid (.write off bs),
    .debugSingleStep gid, .debugStepBack gid, .debugResume (gidTid gid)], exec i s = .next (s.report .refused)) ∧
  (s.debugHeld (gidTid gid) = true → tget gid s.groups = some g →
    exec (.debugImageAccess gid .read) s = .next (s.report (.image gid (s.sampleSite gid (lowest g.liveMask) g.haltPc) g.image)) ∧
    (∀ off bs, ∃ g', exec (.debugImageAccess gid (.write off bs)) s = .next (s.putG gid g') ∧
      g' = g.readBack (fun a n => mnat (mwrite (mwrite [] 0 g.image) off bs) a n) ∧
      g' = { g with vreg := g'.vreg, sreg := g'.sreg, kreg := g'.kreg, badV := [], badS := [], badK := [] }) ∧
    (let tid := gidTid gid
     let u := ((s.collectPend tid).restart gid false).resettle gid
     let goes := fun m => ∃ x, envOf u { gid := gid, mask := m } = some x ∧ x.parkOver = true
     u.mem = s.mem ∧ (∀ k, k ≠ gid → tget k u.groups = tget k (s.collectPend tid).groups) ∧
     (tget tid u.teams).map (·.trapped) = some true ∧
     (∀ p ∈ u.parties, p.gid < 2 ^ 200 → gidTid p.gid = tid → u.ready p = false) ∧
     ∃ g', tget gid u.groups = some g' ∧
       ((∀ x ∈ g'.subs, x.mask < 256 → x.mask &&& g'.liveMask ≠ 0 → ¬goes x.mask) → exec (.debugSingleStep gid) s = .next u) ∧
       (∀ x ∈ g'.subs, x.mask < 256 → x.mask &&& g'.liveMask ≠ 0 → goes x.mask →
         (∀ y ∈ g'.subs, y.mask < x.mask → y.mask &&& g'.liveMask ≠ 0 → ¬goes y.mask) →
         exec (.debugSingleStep gid) s = .next { u with cur := some { gid := gid, mask := x.mask } })) ∧
    (∀ l, tget (tidLid (gidTid gid)) s.launches = some l →
      let es := lastWord g.undo.reverse
      ∃ t g', exec (.debugStepBack gid) s = .next t ∧ t = { s with groups := t.groups, teams := t.teams } ∧ tget gid t.groups = some g' ∧
        g'.undo = g.undo.take (g.undo.length - es.length) ∧
        (∀ pc kind slice loc old, es = [(pc, kind, slice, loc, old)] →
          (kind = 0 → g'.sreg = sset 0 g.sreg (8 * loc + slice) (BitVec.ofNat 64 (leNat (old.take 8))) ∧ g'.vreg = g.vreg ∧
            g'.kreg = g.kreg) ∧
          (kind = 1 → g'.vreg = written 0 g.vreg ((List.range 4).map fun j =>
            (32 * loc + 4 * slice + j, BitVec.ofNat 32 (leNat ((old.drop (4 * j)).take 4)))) ∧ g'.sreg = g.sreg ∧ g'.kreg = g.kreg) ∧
          (kind = 2 → g'.kreg = (g.wrK loc (laneMask (2 ^ slice)) (leNat (old.take 4))).kreg ∧ g'.sreg = g.sreg ∧ g'.vreg = g.vreg) ∧
          (kind = 3 → l.layout.rings ≤ loc → g'.sreg = g.sreg ∧ g'.vreg = g.vreg ∧ g'.kreg = g.kreg ∧
            ∀ tm, tget (gidTid gid) s.teams = some tm → tget (gidTid gid) t.teams =
              some { tm with data := { tm.data with data := mwrite tm.data.data loc old } }) ∧
          (kind < 3 → t.teams = s.teams)) ∧
        (∀ x ∈ g.subs, (∃ e ∈ es, bitOf x.mask e.2.2.1 = true) → ∀ n ∈ slicesOf x.mask,
          (g'.slices[n]?).map Slice.pc = (g.slices[n]?).map fun _ => (es.head?.map (·.1)).getD 0))) ∧
  (s.debugHeld tid = true → ∃ t, exec (.debugResume tid) s = .next t ∧ (tget tid t.teams).map (·.trapSlot) = some none ∧ t.mem = s.mem) ∧
  (s.debugHeld tid = true → tm.retired = false → exec (.debugResume tid) s = .next (resumed s fun _ => false)) ∧
  (∀ cid team k, s.ctlTeam cid team = some (tid, tm, k) →
    (∀ l, tget (tidLid tid) s.launches = some l → ∃ t, exec (.teamctlTerminate cid team) s = .next t ∧
      (tget (tidLid tid) t.launches).map (·.state) = some (.done 5) ∧ (∀ k, tidLid k = tidLid tid → tget k t.teams = none)) ∧
    (tm.retired = true → ∃ t, exec (.teamctlResume cid team) s = .next t ∧
      tget tid t.teams = some ({ tm with trapped := false, debugStop := false, trapSlot := none, exitFault := none }.exitDue false) ∧ t.mem = s.mem) ∧
    (∀ c, tm.retired = false → tget cid s.ctxs = some c →
      let gs := s.liveGroups tid
      let byte := fun (a n : Nat) => mnat (hImage s).data (physKey 0 2 (c.slotAddr k + a)) n
      let action := fun gid => byte (1024 + 32 * gidG gid + 28) 1
      ((∃ x ∈ gs, 2 ≤ action x.1) → ∀ l, tget (tidLid tid) s.launches = some l → ∃ t, exec (.teamctlResume cid team) s = .next t ∧
        (tget (tidLid tid) t.launches).map (·.state) = some (.done 5) ∧ (∀ k, tidLid k = tidLid tid → tget k t.teams = none)) ∧
      ((∀ x ∈ gs, action x.1 < 2) → exec (.teamctlResume cid team) s = .next (resumed
        (gs.foldl (fun t x => t.modG x.1 fun g => g.readBack fun a n =>
          byte ((((imageOffsets gs).find? fun o => o.1 == x.1).map (·.2)).getD 0 + a) n) s) fun gid => action gid == 1)))) ∧
  -- how one group restarts, by its halt
  (∀ (u : State) (gid : Nat) (g : Group) (skip : Bool), tget gid u.groups = some g →
    let h := { g with halted := false, faultRec := none }
    let clear := fun m => fun (g : Group) => g.modSub m fun x => { x with park := .none }
    (g.faultRec = none → u.restart gid skip = u.putG gid h) ∧
    (∀ r, g.faultRec = some r → let m := ((g.subs.find? fun x => bitOf x.mask r.slice).map (·.mask)).getD 255
      let stops := r.code = 0x13 ∨ r.code = 0x14
      (r.marker = false → r.closing = false → r.rpc = r.fpc →
        (¬stops → skip = false → u.restart gid skip = u.putG gid (clear m h)) ∧
        (stops ∨ skip = true → u.restart gid skip = u.putG gid (clear m (h.advance m)))) ∧
      (r.marker = false → r.closing = false → r.rpc ≠ r.fpc → u.restart gid skip = u.putG gid h) ∧
      (r.marker = false → r.closing = true →
        (g.due = [] → u.restart gid skip = (u.putG gid h).release gid m) ∧
        (∀ x rest, g.due = x :: rest → u.restart gid skip = faultGroup (u.putG gid (clear m { h with due := rest })) gid m x)) ∧
      (r.marker = true → u.undoOn gid = false → ∃ g' : Group, u.restart gid skip = u.putG gid g' ∧
        let mine := g.pend.filter fun p => p.slices &&& m != 0
        g'.vreg = written 0 g.vreg (mine.flatMap fun p => p.vw.filter fun w => bitOf m (w.1 % 32 / 4)) ∧
        g'.sreg = written 0 g.sreg (mine.flatMap fun p => p.sw.filter fun w => bitOf m (w.1 % 8)) ∧
        g'.kreg = g.kreg ∧ g'.halted = false ∧ g'.faultRec = none ∧ (∀ p ∈ g'.pend, p.slices &&& m = 0) ∧
        g'.subs = g.subs.map (fun y => if y.mask == m then match y.park with
          | .regang => y | .ksync _ => y | _ => { y with park := .none } else y) ∧
        ∀ n : Nat, (g'.slices[n]?).map Slice.pc = (g.slices[n]?).map Slice.pc))) ∧
  (∀ bs, s.tokenOk bs = true → exec (.debugToken bs) s =
    .next { s with grants := s.grants ||| BitVec.ofNat 32 (leNat ((bs.drop 4).take 4)), nonceUsed := true }) ∧
  (∀ bs, s.tokenOk bs = false → exec (.debugToken bs) s =
    .next ({ s with nonceNo := s.nonceNo + 1, nonceUsed := false }.report (.nonce (Config.nonce (s.nonceNo + 1)))))

/-- R364, R400, R397, R254, R396, R203, R100, R183, R385 and R291: the life cycle, resets, errors with their LOGS entries, temperature,
counters that overflow and windows of the ramp limiter. A unit that is struck reads as zero in team data, in every view of a group that has not
written it, and in the spill stacks. Which of a team's images a strike on live bytes reaches is the model's choice
(log entry 55). What a warm reset keeps and a cold one clears (log entry 34), the images and views that an error marks (38), Ed25519 as
RFC 8032 has it (56) and the measurements (6) are the model's too. -/
def Obligations.LifeCycleAndErrorsComplete : Prop := ∀ (s : State),
  let logged := fun (x : ErrTarget) => { s with errors := s.errors ++ [LogRec.error x] }
  (∃ f, exec .fuseAdvance s = .next { s with fuse := f } ∧
    (s.fuse, f) ∈ [(Fuse.manufacture, Fuse.provisioned), (.provisioned, .deployed), (.deployed, .retired), (.retired, .retired)]) ∧
  (∃ t, exec .warmReset s = .next t ∧ t.ctxs = [] ∧ t.launches = [] ∧ t.teams = [] ∧ t.groups = [] ∧ t.ops = [] ∧ t.fuse = s.fuse ∧
    t.grants = s.grants ∧ (∀ c, c ∈ t.mem ↔ c ∈ (hImage s).data ∧
      (outerKey c.1 = true ∨ keyType c.1 = 2 ∧ reservedOk (c.1 % 2 ^ 56) 1 = true)) ∧
    ∀ u ∈ t.memPoison, u ∈ (hImage s).poison) ∧
  (∀ images : List FwImage, let ok := images.all fun f => ed25519Ok Config.firmwareKey f.body f.sig
    ∃ t, exec (.coldReset images) s = .next t ∧ t.ctxs = [] ∧ t.groups = [] ∧ t.grants = 0 ∧ t.fuse = s.fuse ∧
      (∀ c, c ∈ t.mem ↔ c ∈ (hImage s).data ∧ outerKey c.1 = true) ∧
      t.measured = images.map (fun f => Config.measurement f.body) ∧ t.attested = Config.attestation t.measured ∧
      t.bootHalted = !ok ∧ t.reports = s.reports ++ (if ok then [] else [.bootHalt])) ∧
  (∀ die, die < 4 → ∃ t, exec (.thermalStop die) s = .next t ∧ t.mem = s.mem ∧ t.groups = s.groups ∧
    ∀ cid c, tget cid s.ctxs = some c → (tget cid t.ctxs).map (·.state) = some .faulted ∧ ∃ code, .event cid .faulted code ∈ t.reports) ∧
  (∀ die, die < 4 → exec (.thermalClockLowering die) s = .next { s with clockLow := nins die s.clockLow }) ∧
  (∀ a, ∃ ls, exec (.uncorrectableError (.memory a)) s =
    .next { logged (.memory a) with memPoison := nins (a / 64) s.memPoison, launches := ls } ∧ ls = s.launches.map fun l => (l.1, { l.2 with
      code := l.2.code.spoil (a / 64), snap := l.2.snap.spoil (a / 64), now := l.2.now.spoil (a / 64),
      nowAtClose := l.2.nowAtClose.spoil (a / 64) })) ∧
  (∀ gid r lane, exec (.uncorrectableError (.vreg gid r lane)) s =
    .next ((logged (.vreg gid r lane)).modG gid fun g => { g with badV := nins (32 * r + lane) g.badV })) ∧
  (∀ gid r slice, exec (.uncorrectableError (.sreg gid r slice)) s =
    .next ((logged (.sreg gid r slice)).modG gid fun g => { g with badS := nins (8 * r + slice) g.badS })) ∧
  (∀ gid r, r ≠ 0 → exec (.uncorrectableError (.kreg gid r)) s =
    .next ((logged (.kreg gid r)).modG gid fun g => { g with badK := nins r g.badK })) ∧
  (∀ gid r unit, exec (.uncorrectableError (.special gid r unit)) s =
    .next ((logged (.special gid r unit)).modG gid fun g => { g with badX := nins (32 * r.code + unit) g.badX })) ∧
  (∀ gid k x g, tget gid s.groups = some g → ∃ t g', exec (.uncorrectableError (.tile gid k x)) s = .next t ∧ tget gid t.groups = some g' ∧
    t.errors = s.errors ++ [LogRec.error (.tile gid k x)] ∧ (g'.tile k).bad = nins x (g.tile k).bad ∧
    (g'.tile k).words = (g.tile k).words ∧ ∀ j, j ≠ k → tget j g'.tiles = tget j g.tiles) ∧
  (∀ tid set gen q w tm, tget tid s.teams = some tm → ∃ t tm', exec (.uncorrectableError (.bquarter tid set gen q w)) s = .next t ∧
    tget tid t.teams = some tm' ∧ t.errors = s.errors ++ [LogRec.error (.bquarter tid set gen q w)] ∧
    ∀ b, tget (bgenKey set gen) tm.bgens = some b → ∃ b', tget (bgenKey set gen) tm'.bgens = some b' ∧ (q, w) ∈ b'.bad) ∧
  (∀ op line o, tget op s.ops = some o → ∃ t, exec (.uncorrectableError (.transfer op line)) s = .next t ∧
    tget op t.ops = some { o with lost := nins line o.lost } ∧ t = { logged (.transfer op line) with ops := t.ops } ∧
    ∀ k, k ≠ op → tget k t.ops = tget k s.ops) ∧
  (∀ die stack, ∃ t, exec (.uncorrectableError (.stack die stack)) s = .next t ∧ t.mem = s.mem ∧
    (∀ c ∈ s.mem, keyType c.1 = 1 → stackOf (c.1 % 2 ^ 56) = (die, stack) → c.1 / 64 ∈ t.memPoison) ∧
    ∀ cid c, tget cid s.ctxs = some c → cid ∈ s.usesStack die stack →
      (tget cid t.ctxs).map (·.state) = some .faulted ∧ ∃ code, .event cid .faulted code ∈ t.reports) ∧
  (∀ (m : Image) u bad, (m.strike u bad).poison = nins u m.poison ∧ ∀ k, mget (m.strike u bad).data k =
    if k / 64 = u ∧ bitOf bad (k % 64) = true then 0 else mget m.data k) ∧
  (∀ tid unit bad tm, tget tid s.teams = some tm →
    let held := fun (p : Nat → Bool) => (s.teamGroups tid).any fun g => (tget unit g.2.preLines).any p
    let part := fun (p : Nat → Bool) (live : Bool) (a b : Image) =>
      b = if (a.unitLike tm.data unit && !held p) = live then a.strike unit bad else a
    let kept := fun (k : Nat) => k == 8
    let any := fun (_ : Nat) => true
    let parts := fun (live : Bool) (tm' : Team) => part kept live tm.cImg tm'.cImg ∧ part kept live tm.dImg tm'.dImg ∧
      part any live tm.cSnap tm'.cSnap ∧ part any live tm.dSnap tm'.dSnap ∧ part kept live tm.pre tm'.pre
    (∃ t tm', exec (.uncorrectableError (.preImage tid unit bad)) s = .next t ∧ tget tid t.teams = some tm' ∧
      tm'.data = tm.data ∧ parts false tm' ∧ t.errors = s.errors ++ [LogRec.error (.preImage tid unit bad)] ∧ t.groups = s.groups) ∧
    ∃ t tm', exec (.scratchpadPoison tid ⟨unit, bad⟩) s = .next t ∧ tget tid t.teams = some tm' ∧
      tm'.data = tm.data.strike unit bad ∧ parts true tm' ∧ t.errors = s.errors ++ [LogRec.scratchpad tid unit] ∧ t.mem = s.mem ∧
      ∀ gid g, gidTid gid = tid → gid < 2 ^ 200 → tget gid s.groups = some g → ∃ g', tget gid t.groups = some g' ∧
        let hit := fun (mask depth : Nat) (l : GLevel) => { l with view := l.view.strikeUnder (g.opsUnder mask depth l) ⟨unit, bad⟩ }
        g' = { g with tbase := g.tbase.strikeUnder (g.tops ++ g.topsN) ⟨unit, bad⟩, slices := g'.slices,
                      subs := g.subs.map fun x => { x with lvl := hit x.mask 17 x.lvl },
                      recs := g.recs.map fun r => { r with base := r.base.map (hit r.s r.depth) } } ∧
        let l := (tget (tidLid tid) s.launches).getD {}
        ∀ (n : Nat) x, g.slices[n]? = some x → ∃ m, g'.slices[n]? = some { x with spill := m } ∧ ∀ a,
          let at' := l.layout.spills + gidG gid * (l.lr.spill * 64) + n * (l.lr.spill * 8) + a
          mget m a = if a < l.lr.spill * 8 ∧ at' / 64 = unit ∧ bitOf bad (at' % 64) = true then 0 else mget x.spill a) ∧
  (∀ (m : Image) (ops : List GOp) unit bad,
    let u := m.strikeUnder ops ⟨unit, bad⟩
    let whole := (ops.filterMap fun o => match o with | .poison n b => if n = unit then some b else none | _ => none).getLast? = some false
    (whole → u = m) ∧
    (¬whole → u.poison = nins unit m.poison ∧ ∀ k, mget u.data k =
      if k / 64 = unit ∧ bitOf bad (k % 64) = true ∧ (∀ o ∈ ops, k / 4 * 4 ∉ o.words) then 0 else mget m.data k)) ∧
  (∀ cid core n, 2 ^ 48 ≤ (sget (0 : W64) s.counters (counterAt cid core n)).toNat →
    let k := counterAt cid core n
    exec (.counterOverflow cid core n) s = .next { s with
      counters := sset 0 s.counters k (BitVec.ofNat 64 ((sget (0 : W64) s.counters k).toNat % 2 ^ 48)),
      counterOvf := nins k s.counterOvf }) ∧
  (∀ core, s.rampDue core = true → ∃ t, exec (.rampWindowRollover core) s = .next t ∧ sget 0 t.ramp core = 0 ∧
    (core < 2 ^ 20 → sget 0 t.rampPrev core = sget 0 s.ramp core) ∧ t = { s with ramp := t.ramp, rampPrev := t.rampPrev }) ∧
  (∀ core, s.rampDue core = false → exec (.rampWindowRollover core) s = .next s)

/-! ### Steps, slots, words and invariants -/

/-- R25, R26, R291 and R379: with the slots of a cycle filled, the next begins: CYCLE advances and every quadrant with a ready sub-gang has
a slot. The next slot in which a sub-gang issues is that of the first quadrant, in order, whose next ready sub-gang the ramp limiter
does not withhold: that sub-gang steps next. It is the first after the quadrant's pointer, or, with none after it, the first. A slot is
filled, and the pointer moves to the sub-gang, when its word has issued; a word that parked before its effect, or that goes on after
its match, leaves the slot to the next. The order of the quadrants within a cycle and when CYCLE advances are the model's schedule (log
entries 1 and 4). -/
def Obligations.IssueSlotTakesTheNextReadyParty : Prop := ∀ (s : State),
  let mine := fun (k : Nat) (p : Party) => p ∈ s.parties ∧ s.slotOf p.gid = some k ∧ s.ready p = true
  (∀ k, s.nextParty k = none → ∀ p, ¬ mine k p) ∧
  (∀ k p, s.nextParty k = some p → mine k p ∧ (risingFrom none s.groups = true → ∀ q, mine k q →
    (sget 0 s.pointers k < q.num → sget 0 s.pointers k < p.num ∧ p.num ≤ q.num) ∧
    (p.num ≤ sget 0 s.pointers k → p.num ≤ q.num))) ∧
  (let u := s.newCycle;
    u = { s with cycle := s.cycle + 1, slots := u.slots, tree := u.tree, counters := u.counters } ∧
    ∀ k, k ∈ u.slots ↔ ∃ p, mine k p) ∧
  (let u := if s.slots = [] then s.newCycle else s
    let like := fun (w : State) => w = { u with tree := w.tree, counters := w.counters }
    let idle := fun (k : Nat) => ∃ w, like w ∧ ∀ p, w.nextParty k = some p → w.rampHeld p = true
    (∃ w, like w ∧ exec .issueSlot s = .next { w with slots := [] } ∧ ∀ k ∈ u.slots, idle k) ∨
    ∃ w pre k rest p, like w ∧ exec .issueSlot s = .next { w with slots := k :: rest, cur := some p } ∧
      u.slots = pre ++ k :: rest ∧ (∀ j ∈ pre, idle j) ∧ w.nextParty k = some p ∧ w.rampHeld p = false) ∧
  (∀ t p i k rest, t.slots = k :: rest → s.slotOf p.gid = some k →
    (s.heldBack t p i = true ∨ s.wentOn p = true → s.slotDone t p (some i) = t) ∧
    (s.heldBack t p i = false → s.wentOn p = false → (s.slotDone t p (some i)).slots = rest ∧ sget 0 (s.slotDone t p (some i)).pointers k = p.num))

/-- R32, R33, R58 and R59: a step of the party that holds the issue slot reads the word at its program counter. A word that decodes to `i`
is run as `i`, with its page in the translation cache; around it stand the filling of its slot, the step's counting and what the caches
hold, which change nothing else; where DEBUG bit 1 is set, the undo logs are written in the save area (R362, entry 16). A word that
does not decode takes the fault that the chapter names. With no party in the slot, the world's next input steps first, else the first
event that is due (that order is the model's: log entry 1). That a misaligned program counter raises 0x04 (log entry 32) and that ADDR
is the program counter at a fetch fault (41) are the model's readings. -/
def Obligations.StepRunsTheDecodedWord : Prop := ∀ (s : State),
  (∀ p e w i, s.cur = some p → envOf s p = some e → e.pc.toNat % 8 = 0 → e.fetchAt e.pc.toNat = .ok w → decodeWord w = .ok i →
    step s = slotted s p (some i) (tallied s i (exec i (s.fetched p))) ∧ s.fetched p = { s with tcache := (s.fetched p).tcache }) ∧
  (∀ (t : State) p i, slotted s p i (.next t) = .next (s.slotDone t p i) ∧ s.slotDone t p i = { t with
    slots := (s.slotDone t p i).slots, pointers := (s.slotDone t p i).pointers, tree := (s.slotDone t p i).tree,
    counters := (s.slotDone t p i).counters, ramp := (s.slotDone t p i).ramp, rampPrev := (s.slotDone t p i).rampPrev }) ∧
  (∀ (t : State) i, tallied s i (.next t) = .next (State.writeUndo s (tally s i (s.cached i t))) ∧
    s.cached i t = { t with tcache := (s.cached i t).tcache, leafCache := (s.cached i t).leafCache } ∧
    tally s i t = { t with counters := (tally s i t).counters, freeCtr := (tally s i t).freeCtr } ∧
    (t.counterCfg = [] → tally s i t = t) ∧
    let u := State.writeUndo s t
    u = { t with mem := u.mem, memPoison := u.memPoison, launches := u.launches } ∧
    ∀ k, (∀ c ∈ t.ctxs, bitOf c.2.f.debugCtl.toNat 1 = true →
      k < saveKey c.2 + 2 ^ 32 ∨ saveKey c.2 + 2 ^ 32 + (t.undoLogs c.1).len ≤ k) → mget u.mem k = mget t.mem k) ∧
  (∀ p e w r, s.cur = some p → envOf s p = some e → e.pc.toNat % 8 = 0 → e.fetchAt e.pc.toNat = .ok w → decodeWord w = .error r →
    ∃ x : FaultRec, step s = .next (s.slotDone (takeFault { s with cur := none } e x) p none) ∧ x.code = e.rejectCode w r ∧
      x.fpc = e.pc) ∧
  (∀ p e code, s.cur = some p → envOf s p = some e → e.pc.toNat % 8 = 0 → e.fetchAt e.pc.toNat = .error code →
    ∃ x : FaultRec, step s = .next (s.slotDone (takeFault { s with cur := none } e x) p none) ∧ x.code = code ∧ x.fpc = e.pc ∧
      x.addr = e.pc) ∧
  (∀ p e, s.cur = some p → envOf s p = some e → e.pc.toNat % 8 ≠ 0 →
    ∃ x : FaultRec, step s = .next (s.slotDone (takeFault { s with cur := none } e x) p none) ∧ x.code = 0x04 ∧ x.fpc = e.pc) ∧
  (∀ p, s.cur = some p → envOf s p = none → step s = .next (s.slotDone { s with cur := none } p none)) ∧
  (∀ i rest, s.cur = none → s.inputs = i :: rest → step s = tallied s i (exec i { s with inputs := rest })) ∧
  (s.cur = none → s.inputs = [] → step s = tallied s s.dueEvent (exec s.dueEvent s))

/-- The encoded words that the chapters of the spec print beside their assembly decode to those instructions; a word with a
reserved opcode decodes to none (R55, R58). -/
def Obligations.PrintedEncodings : Prop :=
  decodeWord 0x28000C27FA000000 = .ok (.ld { width := .w32, d := .v 1, a := .s 4 }) ∧
  decodeWord 0x0804ACA800000020 = .ok (.iaddi { d := .s 21, a := .s 21, imm := 32 }) ∧
  decodeWord 0x07C6081018008002 = .ok (.icmp { d := .k 1, a := .v 2, b := .v 3, ty := .i32, lo := 2 }) ∧
  decodeWord 0x8A061E0E10000000 = .ok (.kand { s := true, d := .k 3, a := .k 1, b := .k 2 }) ∧
  decodeWord 0x10C0400020448000 = .ok (.ffma { d := .v 8, a := .v 0, b := .v 4, c := .v 8, ty := .f32 }) ∧
  decodeWord 0x1206100818048002 = .ok (.fcmp { d := .k 2, a := .v 1, b := .v 3, ty := .f32, lo := 2 }) ∧
  decodeWord 0x1640283800002006 = .ok (.f2f { d := .v 5, a := .v 7, m := 4, lo := 6 }) ∧
  decodeWord 0x9280501030050240 = .ok (.fdiv { d := .v 10, a := .v 2, b := .v 6, ty := .f64, rnd := .rtz, negB := true, s := true }) ∧
  decodeWord 0x2009000000000004 = .ok (.bra { cc := .lt, pt := true, disp := 4 }) ∧
  decodeWord 0x21C0000000000000 = .ok (.regang {}) ∧
  decodeWord 0x2400008000000000 = .ok (.mbld { a := .v 16 }) ∧
  decodeWord 0xA446404000000000 = .ok (.mma { d := .x 0, a := .v 8, s := true }) ∧
  decodeWord 0x25064C2428048800 = .ok (.mdrs { d := .x 1, a := .s 4, b := .s 5, ty := .f32, m := 1 }) ∧
  decodeWord 0x29001C100A600010 = .ok (.atom { width := .w32, d := .v 3, a := .s 2, b := .v 1, scale := 1, sx := true, off := 16 }) ∧
  decodeWord 0x29402C3012480000 = .ok (.red { width := .w32, d := .v 5, a := .s 6, b := .v 2, scale := 1, op := 1 }) ∧
  decodeWord 0x29C0000000000800 = .ok (.cmitC { m := 1 }) ∧
  decodeWord 0x2A008000FFFFFFFD = .ok (.abrtT { cc := .ne, disp := 4294967293 }) ∧
  decodeWord 0x2A40000000001000 = .ok (.rfshD { m := 2 }) ∧
  decodeWord 0x3B00000000000000 = .ok (.tsbar {}) ∧
  decodeWord 0x2C04141804400000 = .ok (.cpy { d := .s 2, a := .s 3, c := .s 8 }) ∧
  decodeWord 0x2CC410202C400804 = .ok (.cpyc { d := .s 2, a := .v 4, b := .v 5, c := .s 8, m := 1, lo := 4 }) ∧
  decodeWord 0x2D44884004463800 = .ok (.csto { d := .s 17, a := .v 8, c := .s 8, ty := .bf16x2, m := 7 }) ∧
  decodeWord 0xB084541000000000 = .ok (.qpop { s := true, d := .s 10, a := .s 2 }) ∧
  decodeWord 0x31C40C1000000000 = .ok (.launch { d := .s 1, a := .s 2 }) ∧
  decodeWord 0x3440400410048800 = .ok (.vstn { d := .v 8, a := .v 0, b := .s 2, ty := .f32, m := 1 }) ∧
  decodeWord 0x34C0000414180000 = .ok (.vins { a := .v 0, b := .s 2, c := .s 3 }) ∧
  decodeWord 0xB800008414180000 = .ok (.rtrc { s := true, d := .v 0, a := .v 16, b := .s 2, c := .s 3 }) ∧
  decodeWord 0x3880400000000000 = .ok (.rget { d := .v 8 }) ∧
  decodeWord 0x398417F804400000 = .ok (.bvhbBuild { d := .s 2, a := .zero, c := .s 8 }) ∧
  decodeWord 0x3B40441800001000 = .ok (.rng { d := .v 8, a := .s 3, m := 2 }) ∧
  decodeWord 0x3C00041800000005 = .ok (.trap { a := .s 3, lo := 5 }) ∧
  decodeWord 0x3CC0041000000007 = .ok (.csrw { a := .s 2, lo := 7 }) ∧
  decodeWord 0xC082800002000120 =
    .ok (.pairWord { s := true, s0 := { op := .mov, d := 10 }, s1 := { op := .iadd, src := .imm 32 } }) ∧
  (∀ w, bitOf w 62 = false → opReserved (opcodeOf w) = true → decodeWord w = .error .reservedOpcode)

/-- R32, R35, R51 and R59: the bytes of every accepted instruction decode to it, with every operand at every value that its encoding
admits. -/
def Obligations.DecodeOfEncode : Prop := ∀ (i : Instr) (w : Nat) (rest : List Byte), i.wf = true → i.pairOk = true →
  encode i = some w → decodeBytes (leBytes 8 w ++ rest) = .ok (i, rest)

/-- R35, R55 and R59: a word that decodes is the encoding of the instruction it decodes to: each word has one meaning. -/
def Obligations.EncodeOfDecode : Prop := ∀ (w : Nat) (i : Instr), w < 2 ^ 64 → decodeWord w = .ok i →
  i.wf = true ∧ i.pairOk = true ∧ encode i = some w

/-- The module's state after reset (R400, R364): cycle 0, memory that reads zero, no context, launch or group, no debug grant, the
canonical memory. The values are the model's where no rule gives one (log entries 4, 5 and 6). -/
def Obligations.ResetState : Prop :=
  State.reset.Inv ∧ State.reset.cycle = 0 ∧ (∀ a, mget State.reset.mem a = 0) ∧ State.reset.ctxs = [] ∧ State.reset.launches = [] ∧
  State.reset.teams = [] ∧ State.reset.groups = [] ∧ State.reset.ops = [] ∧ State.reset.grants = 0 ∧ State.reset.cur = none ∧
  State.reset.slots = [] ∧ State.reset.inputs = []

/-- Every step keeps the memory's canonical form: addresses strictly rising, and no byte listed that reads as an unlisted one. -/
def Obligations.EveryStepKeepsTheMemoryCanonical : Prop := ∀ (s t : State), s.Inv → step s = .next t → t.Inv

/-- R364: no step moves the life-cycle fuses backward, and a step that moves them leaves every context, launch, group and byte of memory. -/
def Obligations.FusesNeverGoBack : Prop := ∀ (s t : State), step s = .next t →
  let rank := fun (f : Fuse) => match f with | .manufacture => 0 | .provisioned => 1 | .deployed => 2 | .retired => 3
  rank s.fuse ≤ rank t.fuse ∧ (s.fuse ≠ t.fuse → rank t.fuse = rank s.fuse + 1 ∧
    t.ctxs = s.ctxs ∧ t.launches = s.launches ∧ t.groups = s.groups ∧ t.mem = s.mem)

end
end

