-- ==== Sys2Proof/Laws/Encoding.lean ====
section
/-! SUPPORT. The layouts of R35, R37, R51: a word's fields read back as they were packed. -/

namespace Sys2Proof

/-! ### Fields -/

theorem unpackFields_packFields (ws fs : List Nat) (hl : ws.length = fs.length) (h : ∀ p ∈ ws.zip fs, p.2 < 2 ^ p.1) :
    unpackFields ws (packFields (ws.zip fs)) = fs := by
  induction ws generalizing fs with
  | nil => cases fs with
    | nil => rfl
    | cons => simp at hl
  | cons w ws ih => cases fs with
    | nil => simp at hl
    | cons f fs =>
      have hf : f < 2 ^ w := h (w, f) (by simp)
      have hp : 0 < 2 ^ w := Nat.two_pow_pos w
      simp only [List.zip_cons_cons, packFields, unpackFields]
      rw [Nat.add_mul_mod_self_left, Nat.mod_eq_of_lt hf, Nat.add_mul_div_left _ _ hp,
        Nat.div_eq_of_lt hf, Nat.zero_add, ih fs (by simpa using hl) fun p hp => h p (by simp [hp])]

/-- A field of a number by its place. -/
theorem unpackFields_getElem? (ws : List Nat) (w j : Nat) :
    (unpackFields ws w)[j]? = (ws[j]?).map fun n => fld w (ws.take j).sum n := by
  induction ws generalizing w j with
  | nil => simp [unpackFields]
  | cons n ws ih =>
    cases j with
    | zero => simp [unpackFields, fld]
    | succ j => simp [unpackFields, ih, fld, Nat.div_div_eq_div_mul, Nat.pow_add]

theorem packFields_lt (ws fs : List Nat) (hl : ws.length = fs.length) (h : ∀ p ∈ ws.zip fs, p.2 < 2 ^ p.1) :
    packFields (ws.zip fs) < 2 ^ ws.sum := by
  induction ws generalizing fs with
  | nil => cases fs with
    | nil => simp [packFields]
    | cons => simp at hl
  | cons w ws ih => cases fs with
    | nil => simp at hl
    | cons f fs =>
      have hf : f < 2 ^ w := h (w, f) (by simp)
      have := ih fs (by simpa using hl) fun p hp => h p (by simp [hp])
      simp only [List.zip_cons_cons, packFields, List.sum_cons, Nat.pow_add]
      calc f + 2 ^ w * packFields (ws.zip fs) < 2 ^ w + 2 ^ w * packFields (ws.zip fs) := by omega
        _ = 2 ^ w * (packFields (ws.zip fs) + 1) := by rw [Nat.mul_add, Nat.mul_one, Nat.add_comm]
        _ ≤ _ := Nat.mul_le_mul_left _ this

/-- Packing the fields of a number gives the number. -/
theorem packFields_unpackFields (ws : List Nat) (w : Nat) (h : w < 2 ^ ws.sum) :
    packFields (ws.zip (unpackFields ws w)) = w := by
  induction ws generalizing w with
  | nil => simp at h; simp [packFields, h]
  | cons n ws ih =>
    simp only [unpackFields, List.zip_cons_cons, packFields]
    rw [ih _ (Nat.div_lt_of_lt_mul (by simpa [Nat.pow_add] using h))]
    exact Nat.mod_add_div w (2 ^ n)

theorem bit_lt (b : Bool) : bit b < 2 := by cases b <;> decide
@[simp] theorem bit_beq (b : Bool) : (bit b == 1) = b := by cases b <;> rfl

@[simp] theorem Special.all_code (r : Special) : Special.all[r.code - 0xD0]? = some r := by cases r <;> rfl
theorem Special.code_range (r : Special) : 0xD0 ≤ r.code ∧ r.code < 0xEE := by cases r <;> decide

theorem Opd.code_lt (o : Opd) : o.code < 256 := by
  cases o <;> simp only [Opd.code] <;> first | omega | (rename_i r; have := r.code_range; omega)

@[simp] theorem Opd.ofCode_code (o : Opd) : Opd.ofCode o.code = some o := by
  cases o with
  | v n => revert n; decide
  | s n => revert n; decide
  | k n => revert n; decide
  | x n => revert n; decide
  | sp r => cases r <;> rfl
  | zero => rfl

@[simp] theorem Ty.ofCode_code (t : Ty) : Ty.ofCode t.code = some t := by cases t <;> rfl
theorem Ty.code_lt (t : Ty) : t.code < 16 := by cases t <;> decide
@[simp] theorem Rnd.ofCode_code (r : Rnd) : Rnd.ofCode r.code = some r := by cases r <;> rfl
theorem Rnd.code_lt (r : Rnd) : r.code < 4 := by cases r <;> decide
@[simp] theorem Cond.ofCode_code (c : Cond) : Cond.ofCode c.code = some c := by cases c <;> rfl
theorem Cond.code_lt (c : Cond) : c.code < 16 := by cases c <;> decide
@[simp] theorem Width.ofCode_code (w : Width) : Width.ofCode w.code = some w := by cases w <;> rfl
theorem Width.code_lt (w : Width) : w.code < 8 := by cases w <;> decide
@[simp] theorem PairOp.ofCode_code (p : PairOp) : PairOp.ofCode p.code = some p := by cases p <;> rfl
theorem PairOp.code_lt (p : PairOp) : p.code < 128 := by cases p <;> decide

theorem fin_ofNat_val {n : Nat} [NeZero n] (x : Fin n) : Fin.ofNat n x.val = x := by
  apply Fin.ext; simp [Fin.ofNat, Nat.mod_eq_of_lt x.isLt]

/-! ### Layouts -/

theorem RWord.fields_ok (op : Nat) (h : op < 256) (f : RWord) : ∀ p ∈ rLayout.zip (f.fields op), p.2 < 2 ^ p.1 := by
  intro p hp
  simp only [rLayout, RWord.fields, List.zip_cons_cons, List.zip_nil_right, List.mem_cons, List.not_mem_nil, or_false] at hp
  rcases hp with rfl | rfl | rfl | rfl | rfl | rfl | rfl | rfl | rfl | rfl | rfl | rfl | rfl | rfl | rfl | rfl <;>
    first | exact f.lo.isLt | exact f.m.isLt | exact f.k.isLt | exact bit_lt _ | exact Rnd.code_lt _ | exact Ty.code_lt _ |
      exact Opd.code_lt _ | exact h | decide

theorem IWord.fields_ok (op : Nat) (h : op < 256) (f : IWord) : ∀ p ∈ iLayout.zip (f.fields op), p.2 < 2 ^ p.1 := by
  intro p hp
  simp only [iLayout, IWord.fields, List.zip_cons_cons, List.zip_nil_right, List.mem_cons, List.not_mem_nil, or_false] at hp
  rcases hp with rfl | rfl | rfl | rfl | rfl | rfl | rfl | rfl <;>
    first | exact f.imm.isLt | exact f.modi.isLt | exact f.k.isLt | exact bit_lt _ | exact Opd.code_lt _ | exact h | decide

theorem MWord.fields_ok (op : Nat) (h : op < 256) (f : MWord) : ∀ p ∈ mLayout.zip (f.fields op), p.2 < 2 ^ p.1 := by
  intro p hp
  simp only [mLayout, MWord.fields, List.zip_cons_cons, List.zip_nil_right, List.mem_cons, List.not_mem_nil, or_false] at hp
  rcases hp with rfl | rfl | rfl | rfl | rfl | rfl | rfl | rfl | rfl | rfl | rfl | rfl <;>
    first | exact f.off.isLt | exact f.op.isLt | exact f.scale.isLt | exact f.k.isLt | exact bit_lt _ |
      exact Width.code_lt _ | exact Opd.code_lt _ | exact h | decide

theorem BWord.fields_ok (op : Nat) (h : op < 256) (f : BWord) : ∀ p ∈ bLayout.zip (f.fields op), p.2 < 2 ^ p.1 := by
  intro p hp
  simp only [bLayout, BWord.fields, List.zip_cons_cons, List.zip_nil_right, List.mem_cons, List.not_mem_nil, or_false] at hp
  rcases hp with rfl | rfl | rfl | rfl | rfl | rfl | rfl | rfl | rfl | rfl <;>
    first | exact f.disp.isLt | exact f.st.isLt | exact f.kt.isLt | exact bit_lt _ | exact Cond.code_lt _ | exact h | decide

theorem fields_r (op : Nat) (h : op < 256) (f : RWord) : unpackFields rLayout (Enc.r op f).toNat = f.fields op :=
  unpackFields_packFields rLayout (f.fields op) rfl (f.fields_ok op h)
theorem parseR_toNat (op : Nat) (h : op < 256) (f : RWord) : parseR (Enc.r op f).toNat = some f := by
  unfold parseR
  rw [fields_r op h f]
  simp [RWord.fields]

theorem fields_i (op : Nat) (h : op < 256) (f : IWord) : unpackFields iLayout (Enc.i op f).toNat = f.fields op :=
  unpackFields_packFields iLayout (f.fields op) rfl (f.fields_ok op h)
theorem parseI_toNat (op : Nat) (h : op < 256) (f : IWord) : parseI (Enc.i op f).toNat = some f := by
  unfold parseI
  rw [fields_i op h f]
  simp [IWord.fields]

theorem fields_m (op : Nat) (h : op < 256) (f : MWord) : unpackFields mLayout (Enc.m op f).toNat = f.fields op :=
  unpackFields_packFields mLayout (f.fields op) rfl (f.fields_ok op h)
theorem parseM_toNat (op : Nat) (h : op < 256) (f : MWord) : parseM (Enc.m op f).toNat = some f := by
  unfold parseM
  rw [fields_m op h f]
  simp [MWord.fields]

theorem fields_b (op : Nat) (h : op < 256) (f : BWord) : unpackFields bLayout (Enc.b op f).toNat = f.fields op :=
  unpackFields_packFields bLayout (f.fields op) rfl (f.fields_ok op h)
theorem parseB_toNat (op : Nat) (h : op < 256) (f : BWord) : parseB (Enc.b op f).toNat = some f := by
  unfold parseB
  rw [fields_b op h f]
  simp [BWord.fields]

theorem PSlot.fields_ok (p : PSlot) : ∀ q ∈ [8, 1, 6, 6, 3, 7].zip p.fields, q.2 < 2 ^ q.1 := by
  intro q hq
  unfold PSlot.fields at hq
  split at hq <;>
    simp only [List.zip_cons_cons, List.zip_nil_right, List.mem_cons, List.not_mem_nil, or_false] at hq <;>
    rcases hq with rfl | rfl | rfl | rfl | rfl | rfl <;>
    first | exact p.d.isLt | exact p.k.isLt | exact PairOp.code_lt _ | exact BitVec.isLt _ | exact Fin.isLt _ | decide

theorem PSlot.fields_length (p : PSlot) : p.fields.length = 6 := by unfold PSlot.fields; split <;> rfl

theorem PWord.fields_ok (f : PWord) : ∀ q ∈ pLayout.zip f.fields, q.2 < 2 ^ q.1 := by
  intro q hq
  have e : pLayout.zip f.fields =
      [8, 1, 6, 6, 3, 7].zip f.s1.fields ++ ([8, 1, 6, 6, 3, 7].zip f.s0.fields ++ [(1, 1), (1, bit f.s)]) := by
    unfold PWord.fields PSlot.fields
    split <;> split <;> rfl
  rw [e] at hq
  simp only [List.mem_append, List.mem_cons, List.not_mem_nil, or_false] at hq
  rcases hq with hq | hq | rfl | rfl
  · exact f.s1.fields_ok q hq
  · exact f.s0.fields_ok q hq
  · decide
  · exact bit_lt _

theorem fields_p (f : PWord) : unpackFields pLayout (Enc.p f).toNat = f.fields :=
  unpackFields_packFields pLayout f.fields (by simp [pLayout, PWord.fields, PSlot.fields_length]) f.fields_ok

theorem parseP_toNat (f : PWord) : parseP (Enc.p f).toNat = .ok f := by
  unfold parseP
  rw [fields_p]
  obtain ⟨s, ⟨o0, k0, d0, x0⟩, ⟨o1, k1, d1, x1⟩⟩ := f
  cases x0 <;> cases x1 <;> simp [PWord.fields, PSlot.fields, parseSlot]

/-! ### The opcode and the pair bit -/

theorem fld_one (w i : Nat) : fld w i 1 = bit (bitOf w i) := by
  unfold fld bitOf bit
  have := Nat.mod_two_eq_zero_or_one (w / 2 ^ i)
  rcases this with h | h <;> simp [h]

theorem opcodeOf_of_fields {l fs : List Nat} {w n : Nat} (h : unpackFields l w = fs) (j : Nat) (hl : l[j]? = some n)
    (hs : (l.take j).sum = 54) (hn : n = 8) : fs[j]? = some (opcodeOf w) := by
  rw [← h, unpackFields_getElem?, hl, hs, hn]; rfl

theorem pairBit_of_fields {l fs : List Nat} {w n : Nat} (h : unpackFields l w = fs) (j : Nat) (hl : l[j]? = some n)
    (hs : (l.take j).sum = 62) (hn : n = 1) : fs[j]? = some (bit (bitOf w 62)) := by
  rw [← h, unpackFields_getElem?, hl, hs, hn]; simp [fld_one]

theorem bit_eq_zero {b : Bool} (h : 0 = bit b) : b = false := by cases b <;> simp_all [bit]
theorem bit_eq_one {b : Bool} (h : 1 = bit b) : b = true := by cases b <;> simp_all [bit]

theorem opcode_r (op : Nat) (h : op < 256) (f : RWord) : opcodeOf (Enc.r op f).toNat = op := by
  have := opcodeOf_of_fields (fields_r op h f) 13 rfl rfl rfl
  simpa [RWord.fields] using this.symm
theorem pairBit_r (op : Nat) (h : op < 256) (f : RWord) : bitOf (Enc.r op f).toNat 62 = false := by
  have := pairBit_of_fields (fields_r op h f) 14 rfl rfl rfl
  exact bit_eq_zero (by simpa [RWord.fields] using this)

theorem opcode_i (op : Nat) (h : op < 256) (f : IWord) : opcodeOf (Enc.i op f).toNat = op := by
  have := opcodeOf_of_fields (fields_i op h f) 5 rfl rfl rfl
  simpa [IWord.fields] using this.symm
theorem pairBit_i (op : Nat) (h : op < 256) (f : IWord) : bitOf (Enc.i op f).toNat 62 = false := by
  have := pairBit_of_fields (fields_i op h f) 6 rfl rfl rfl
  exact bit_eq_zero (by simpa [IWord.fields] using this)

theorem opcode_m (op : Nat) (h : op < 256) (f : MWord) : opcodeOf (Enc.m op f).toNat = op := by
  have := opcodeOf_of_fields (fields_m op h f) 9 rfl rfl rfl
  simpa [MWord.fields] using this.symm
theorem pairBit_m (op : Nat) (h : op < 256) (f : MWord) : bitOf (Enc.m op f).toNat 62 = false := by
  have := pairBit_of_fields (fields_m op h f) 10 rfl rfl rfl
  exact bit_eq_zero (by simpa [MWord.fields] using this)

theorem opcode_b (op : Nat) (h : op < 256) (f : BWord) : opcodeOf (Enc.b op f).toNat = op := by
  have := opcodeOf_of_fields (fields_b op h f) 7 rfl rfl rfl
  simpa [BWord.fields] using this.symm
theorem pairBit_b (op : Nat) (h : op < 256) (f : BWord) : bitOf (Enc.b op f).toNat 62 = false := by
  have := pairBit_of_fields (fields_b op h f) 8 rfl rfl rfl
  exact bit_eq_zero (by simpa [BWord.fields] using this)

theorem pairBit_p (f : PWord) : bitOf (Enc.p f).toNat 62 = true := by
  have := pairBit_of_fields (fields_p f) 12 rfl rfl rfl
  obtain ⟨s, ⟨o0, k0, d0, x0⟩, ⟨o1, k1, d1, x1⟩⟩ := f
  refine bit_eq_one ?_
  cases x0 <;> cases x1 <;> simpa [PWord.fields, PSlot.fields] using this

/-! ### Words of 64 bits -/

theorem toNat_lt_r (op : Nat) (h : op < 256) (f : RWord) : (Enc.r op f).toNat < 2 ^ 64 :=
  packFields_lt rLayout (f.fields op) rfl (f.fields_ok op h)
theorem toNat_lt_i (op : Nat) (h : op < 256) (f : IWord) : (Enc.i op f).toNat < 2 ^ 64 :=
  packFields_lt iLayout (f.fields op) rfl (f.fields_ok op h)
theorem toNat_lt_m (op : Nat) (h : op < 256) (f : MWord) : (Enc.m op f).toNat < 2 ^ 64 :=
  packFields_lt mLayout (f.fields op) rfl (f.fields_ok op h)
theorem toNat_lt_b (op : Nat) (h : op < 256) (f : BWord) : (Enc.b op f).toNat < 2 ^ 64 :=
  packFields_lt bLayout (f.fields op) rfl (f.fields_ok op h)
theorem toNat_lt_p (f : PWord) : (Enc.p f).toNat < 2 ^ 64 :=
  packFields_lt pLayout f.fields (by simp [pLayout, PWord.fields, PSlot.fields_length]) f.fields_ok

/-! ### Decoding what was encoded -/

/-- A word of an accepted instruction decodes to it, once its layout parses back. -/
theorem decodeWord_of_parse {e : Enc} {i : Instr} (hp : parse e.toNat = .ok e) (hi : Instr.ofEnc e = some i)
    (hw : i.wf = true) (hr : i.pairOk = true) : decodeWord e.toNat = .ok i := by
  simp [decodeWord, hp, hi, hw, hr]

theorem parse_r (op : Nat) (h : op < 256) (hf : formOf op = some .r) (f : RWord) :
    parse (Enc.r op f).toNat = .ok (.r op f) := by
  simp [parse, pairBit_r op h f, opcode_r op h f, hf, parseR_toNat op h f, ofField]
theorem parse_i (op : Nat) (h : op < 256) (hf : formOf op = some .i) (f : IWord) :
    parse (Enc.i op f).toNat = .ok (.i op f) := by
  simp [parse, pairBit_i op h f, opcode_i op h f, hf, parseI_toNat op h f, ofField]
theorem parse_m (op : Nat) (h : op < 256) (hf : formOf op = some .m) (f : MWord) :
    parse (Enc.m op f).toNat = .ok (.m op f) := by
  simp [parse, pairBit_m op h f, opcode_m op h f, hf, parseM_toNat op h f, ofField]
theorem parse_b (op : Nat) (h : op < 256) (hf : formOf op = some .b) (f : BWord) :
    parse (Enc.b op f).toNat = .ok (.b op f) := by
  simp [parse, pairBit_b op h f, opcode_b op h f, hf, parseB_toNat op h f, ofField]
theorem parse_p (f : PWord) : parse (Enc.p f).toNat = .ok (.p f) := by
  simp [parse, pairBit_p f, parseP_toNat f, Except.map]

end Sys2Proof
end

