-- ==== Sys2Proof/Laws/Map.lean ====
section
/-! SUPPORT. Tables and stores: reading after writing, keys that a write leaves alone, and the canonical form, which every
operation keeps. -/

namespace Sys2Proof.Machine

variable {α : Type}

/-! ### Reading after writing -/

theorem tget_tput_same (k : Nat) (x : α) (t : Tab α) : tget k (tput k x t) = some x := by
  induction t with
  | nil => simp [tput, tget]
  | cons p t ih =>
    obtain ⟨j, y⟩ := p
    by_cases h : k < j
    · simp [tput, h, tget]
    · by_cases h2 : j = k
      · subst h2; simp [tput, tget]
      · simp [tput, tget, h, h2, ih]

theorem tget_tput_ne {k k' : Nat} (x : α) (t : Tab α) (h : k' ≠ k) : tget k' (tput k x t) = tget k' t := by
  induction t with
  | nil => simp [tput, tget, Ne.symm h]
  | cons p t ih =>
    obtain ⟨j, y⟩ := p
    by_cases h1 : k < j
    · simp [tput, h1, tget, Ne.symm h]
    · by_cases h3 : j = k
      · subst h3
        simp [tput, tget, Ne.symm h]
      · simp only [tput, h1, if_false, beq_iff_eq, h3, tget, ih]

/-- A filter that keeps every entry at a key keeps what is read there. -/
theorem tget_filter {k : Nat} (f : Nat × α → Bool) (t : Tab α) (h : ∀ x, f (k, x) = true) :
    tget k (t.filter f) = tget k t := by
  induction t with
  | nil => rfl
  | cons p t ih =>
    obtain ⟨j, y⟩ := p
    by_cases hj : j = k
    · subst hj; simp [h, tget]
    · by_cases hf : f (j, y) = true
      · simp [hf, tget, hj, ih]
      · simp [hf, tget, hj, ih]

theorem tget_tdel_same (k : Nat) (t : Tab α) : tget k (tdel k t) = none := by
  induction t with
  | nil => rfl
  | cons p t ih =>
    obtain ⟨j, y⟩ := p
    by_cases hj : j = k
    · simpa [tdel, hj] using ih
    · simp only [tdel] at ih
      simp [tdel, hj, tget, ih]

theorem tget_tdel_ne {k k' : Nat} (t : Tab α) (h : k' ≠ k) : tget k' (tdel k t) = tget k' t :=
  tget_filter _ t fun _ => by simpa using h

/-! ### Rising keys -/

theorem risingFrom_weaken {lo lo' : Option Nat} {t : Tab α} (h : risingFrom lo t = true)
    (hl : ∀ j, (match lo with | none => true | some l => decide (l < j)) = true →
      (match lo' with | none => true | some l => decide (l < j)) = true) : risingFrom lo' t = true := by
  cases t with
  | nil => rfl
  | cons p t =>
    obtain ⟨j, y⟩ := p
    simp only [risingFrom, Bool.and_eq_true] at h ⊢
    exact ⟨hl j h.1, h.2⟩

theorem risingFrom_none {lo : Option Nat} {t : Tab α} (h : risingFrom lo t = true) : risingFrom none t = true :=
  risingFrom_weaken h fun _ _ => rfl

theorem rising_tput {lo : Option Nat} {k : Nat} (x : α) {t : Tab α}
    (hk : (match lo with | none => true | some l => decide (l < k)) = true) (h : risingFrom lo t = true) :
    risingFrom lo (tput k x t) = true := by
  induction t generalizing lo with
  | nil => simp only [tput, risingFrom, Bool.and_true]; exact hk
  | cons p t ih =>
    obtain ⟨j, y⟩ := p
    simp only [risingFrom, Bool.and_eq_true] at h
    simp only [tput]
    split
    · rename_i h1
      simp only [risingFrom, Bool.and_eq_true]
      exact ⟨hk, by simpa using h1, h.2⟩
    · rename_i h1
      split
      · rename_i h2
        have h2 := eq_of_beq h2
        subst h2
        simp only [risingFrom, Bool.and_eq_true]
        exact ⟨hk, h.2⟩
      · rename_i h2
        simp only [risingFrom, Bool.and_eq_true]
        refine ⟨h.1, ih ?_ h.2⟩
        have : j ≠ k := fun e => h2 (by simp [e])
        simp only [decide_eq_true_eq]
        omega

theorem rising_filter {lo : Option Nat} (f : Nat × α → Bool) {t : Tab α} (h : risingFrom lo t = true) :
    risingFrom lo (t.filter f) = true := by
  induction t generalizing lo with
  | nil => rfl
  | cons p t ih =>
    obtain ⟨j, y⟩ := p
    simp only [risingFrom, Bool.and_eq_true] at h
    simp only [List.filter_cons]
    split
    · simp only [risingFrom, Bool.and_eq_true]
      exact ⟨h.1, ih h.2⟩
    · refine ih (risingFrom_weaken h.2 fun i hi => ?_)
      cases lo with
      | none => rfl
      | some l =>
        have h1 := h.1
        simp only [decide_eq_true_eq] at *
        omega

theorem rising_tdel {lo : Option Nat} (k : Nat) {t : Tab α} (h : risingFrom lo t = true) :
    risingFrom lo (tdel k t) = true := rising_filter _ h

/-! ### Entries of a table -/

theorem all_tput {p : Nat × α → Bool} {k : Nat} {x : α} {t : Tab α} (hx : p (k, x) = true) (h : t.all p = true) :
    (tput k x t).all p = true := by
  induction t with
  | nil => simp [tput, hx]
  | cons q t ih =>
    obtain ⟨j, y⟩ := q
    simp only [List.all_cons, Bool.and_eq_true] at h
    simp only [tput]
    split
    · simp [hx, h.1, h.2]
    · split
      · simp [hx, h.2]
      · simp [h.1, ih h.2]

theorem all_tdel {p : Nat × α → Bool} {k : Nat} {t : Tab α} (h : t.all p = true) : (tdel k t).all p = true := by
  simp only [tdel, List.all_eq_true, List.mem_filter] at h ⊢
  exact fun x hx => h x hx.1

/-! ### Stores -/

section Store
variable [DecidableEq α] {d : α}

theorem swf_sset {m : Sparse α} (k : Nat) (x : α) (h : swf d m = true) : swf d (sset d m k x) = true := by
  simp only [swf, Bool.and_eq_true] at h ⊢
  unfold sset
  split
  · exact ⟨rising_tdel k h.1, all_tdel h.2⟩
  · rename_i hx
    exact ⟨rising_tput x rfl h.1, all_tput (by simp [hx]) h.2⟩

theorem sget_sset_same (m : Sparse α) (k : Nat) (x : α) : sget d (sset d m k x) k = x := by
  unfold sset sget
  split
  · rename_i hx; rw [tget_tdel_same]; simp [hx]
  · rw [tget_tput_same]; rfl

theorem sget_sset_ne (m : Sparse α) {k k' : Nat} (x : α) (hk : k' ≠ k) : sget d (sset d m k x) k' = sget d m k' := by
  unfold sset sget
  split
  · rw [tget_tdel_ne m hk]
  · rw [tget_tput_ne x m hk]

theorem swf_filter {m : Sparse α} (f : Nat × α → Bool) (h : swf d m = true) : swf d (m.filter f) = true := by
  simp only [swf, Bool.and_eq_true] at h ⊢
  refine ⟨rising_filter f h.1, ?_⟩
  simp only [List.all_eq_true] at h ⊢
  intro p hp
  exact h.2 p (List.mem_filter.mp hp).1

end Store

/-! ### Memory -/

theorem memWf_nil : Memory.wf [] = true := rfl
theorem memWf_mset {m : Memory} (a : Nat) (b : Byte) (h : Memory.wf m = true) : Memory.wf (mset m a b) = true := swf_sset a b h
theorem mget_mset_same (m : Memory) (a : Nat) (b : Byte) : mget (mset m a b) a = b := sget_sset_same m a b
theorem mget_mset_ne (m : Memory) {a a' : Nat} (b : Byte) (ha : a' ≠ a) : mget (mset m a b) a' = mget m a' :=
  sget_sset_ne m b ha
theorem memWf_filter {m : Memory} (f : Host.Cell → Bool) (h : Memory.wf m = true) : Memory.wf (m.filter f) = true := swf_filter f h

theorem memWf_mwrite {m : Memory} {a : Nat} (l : List Byte) (h : Memory.wf m = true) : Memory.wf (mwrite m a l) = true := by
  induction l generalizing m a with
  | nil => exact h
  | cons b t ih => exact ih (memWf_mset a b h)

/-- A write of bytes leaves every byte outside them alone. -/
theorem mget_mwrite_out (m : Memory) {a x : Nat} (l : List Byte) (hx : x < a ∨ a + l.length ≤ x) :
    mget (mwrite m a l) x = mget m x := by
  induction l generalizing m a with
  | nil => rfl
  | cons b t ih =>
    simp only [List.length_cons] at hx
    simp only [mwrite]
    rw [ih _ (by omega), mget_mset_ne m b (by omega)]

theorem memWf_mapply {m : Memory} (ws : List Host.Cell) (h : Memory.wf m = true) : Memory.wf (mapply m ws) = true := by
  unfold mapply
  induction ws generalizing m with
  | nil => exact h
  | cons w t ih => exact ih (memWf_mset w.1 w.2 h)

/-- A list of bytes put into a memory leaves every address that it does not name. -/
theorem mget_mapply_out (m : Memory) {x : Nat} (ws : List Host.Cell) (hx : ∀ w ∈ ws, w.1 ≠ x) :
    mget (mapply m ws) x = mget m x := by
  unfold mapply
  induction ws generalizing m with
  | nil => rfl
  | cons w t ih =>
    simp only [List.foldl_cons]
    rw [ih _ fun v hv => hx v (List.mem_cons_of_mem _ hv), mget_mset_ne m w.2 (Ne.symm (hx w List.mem_cons_self))]

/-- The bytes written read back. -/
theorem mread_mwrite (m : Memory) (a : Nat) (l : List Byte) : mread (mwrite m a l) a l.length = l := by
  induction l generalizing m a with
  | nil => rfl
  | cons b t ih =>
    simp only [mwrite, List.length_cons, mread]
    rw [ih, mget_mwrite_out _ t (by omega), mget_mset_same]

/-! ### A change of one entry -/

theorem tget_tmod_same (k : Nat) (f : α → α) (t : Tab α) : tget k (tmod k f t) = (tget k t).map f := by
  induction t with
  | nil => rfl
  | cons p t ih =>
    obtain ⟨j, y⟩ := p
    by_cases h : j = k
    · simp [tmod, tget, h]
    · simp [tmod, tget, h, ih]

theorem tget_tmod_ne {k k' : Nat} (f : α → α) (t : Tab α) (h : k' ≠ k) : tget k' (tmod k f t) = tget k' t := by
  induction t with
  | nil => rfl
  | cons p t ih =>
    obtain ⟨j, y⟩ := p
    by_cases hj : j = k
    · subst hj; simp [tmod, tget, Ne.symm h]
    · simp [tmod, tget, hj, ih]

/-- A change of the entry just set sets the changed entry. -/
theorem tmod_tput (k : Nat) (f : α → α) (x : α) (t : Tab α) : tmod k f (tput k x t) = tput k (f x) t := by
  induction t with
  | nil => simp [tput, tmod]
  | cons p t ih =>
    obtain ⟨j, y⟩ := p
    by_cases h : k < j
    · simp [tput, h, tmod]
    · by_cases hj : j = k
      · simp [tput, hj, tmod]
      · simp [tput, h, hj, tmod, ih]

theorem tput_tput (k : Nat) (x y : α) (t : Tab α) : tput k x (tput k y t) = tput k x t := by
  induction t with
  | nil => simp [tput]
  | cons p t ih =>
    obtain ⟨j, z⟩ := p
    by_cases h : k < j
    · simp [tput, h]
    · by_cases hj : j = k
      · simp [tput, hj]
      · simp [tput, h, hj, ih]

end Sys2Proof.Machine
end

