-- ==== Sys2Proof/Laws/Memory.lean ====
section
/-! SUPPORT. The module's memory: every operation that writes it keeps its canonical form (R185, R198). -/

namespace Sys2Proof.Machine

/-- Marking units does not touch the bytes. -/
theorem Image.mark_foldl_data (p : Tab Bool) (m : Image) : (p.foldl (fun m x => m.mark x.1 x.2) m).data = m.data := by
  induction p generalizing m with
  | nil => rfl
  | cons x p ih => exact ih _

/-- The bytes of an image after writes. -/
theorem Image.apply_data (m : Image) (w : MemW) : (m.apply w).data = mapply m.data w.b := Image.mark_foldl_data w.p _

/-- A byte that a set of writes does not meet. -/
theorem Image.apply_out (m : Image) (w : MemW) {a : Nat} (h : ∀ x ∈ w.b, x.1 ≠ a) : mget (m.apply w).data a = mget m.data a := by
  rw [Image.apply_data]; exact mget_mapply_out m.data w.b h
/-- What a launch brings that another sees whole changes no other byte (R226). -/
theorem Image.withLaunch_out (m : Image) (l : Launch) (k : Nat) (x : Launch) {a : Nat} (h : ∀ w ∈ x.total.b ++ x.base.b, w.1 ≠ a) :
    mget (m.withLaunch l k x).data a = mget m.data a := by
  unfold Image.withLaunch
  rw [Image.apply_out _ _ fun w hw => h w (by simp [hw])]
  split
  · rfl
  · exact Image.apply_out m _ fun w hw => h w (by simp [hw])
/-- RFSH.D and the close add the writes of the dependences, under what the grid has written, and leave every other byte as it was (R235). -/
theorem State.withDeps_out (s : State) (l : Launch) (own : MemW) (m : Image) {a : Nat}
    (hd : ∀ x ∈ s.launches, x.1 ∈ l.seen ∨ x.1 ∈ l.early → ∀ w ∈ x.2.total.b ++ x.2.base.b, w.1 ≠ a)
    (ho : ∀ w ∈ l.base.b ++ own.b, w.1 ≠ a) : mget (s.withDeps l own m).data a = mget m.data a := by
  unfold State.withDeps
  split
  · rfl
  · rw [Image.apply_out _ _ fun w hw => ho w (by simp [hw]), Image.apply_out _ _ fun w hw => ho w (by simp [hw])]
    generalize s.launches = ls at hd
    induction ls generalizing m with
    | nil => rfl
    | cons x ls ih =>
      rw [List.foldl_cons, ih _ fun y hy => hd y (List.mem_cons_of_mem _ hy)]
      split
      · exact Image.withLaunch_out m l x.1 x.2 (hd x (by simp) (by simp_all))
      · rfl

theorem Image.apply_wf {m : Image} (w : MemW) (h : Memory.wf m.data = true) : Memory.wf (m.apply w).data = true := by
  rw [Image.apply_data]; exact memWf_mapply _ h

theorem moverlay_wf {m : Memory} (t : Tab Byte) (h : Memory.wf m = true) : Memory.wf (moverlay m t) = true := memWf_mapply t h

/-- A write from outside the grids keeps the form. -/
theorem State.hWrite_wf {s : State} (w : MemW) (h : Memory.wf s.mem = true) : Memory.wf (s.hWrite w).mem = true :=
  Image.apply_wf w h

/-- H, over the completed launches, has the form. -/
theorem hImage_wf {s : State} (h : Memory.wf s.mem = true) : Memory.wf (hImage s).data = true := by
  have key : ∀ (l : Tab Launch) (m : Image), Memory.wf m.data = true →
      Memory.wf (l.foldl (fun m l => match l.2.state with | .done _ => m.apply l.2.total | _ => m) m).data = true := by
    intro l
    induction l with
    | nil => exact fun m hm => hm
    | cons x l ih =>
      intro m hm
      refine ih _ ?_
      dsimp only
      split
      · exact Image.apply_wf _ hm
      · exact hm
  exact key _ _ h

/-- What a write leaves alone in H's own memory. -/
theorem State.hWrite_out (s : State) (w : MemW) {a : Nat} (ha : ∀ x ∈ w.b, x.1 ≠ a) : mget (s.hWrite w).mem a = mget s.mem a := by
  show mget (Image.apply _ w).data a = _
  rw [Image.apply_data]
  exact mget_mapply_out _ _ ha

/-- A stretch of bytes put in memory keeps the form. -/
theorem State.place_wf {s : State} (k : Nat) (b : Blob) (h : Memory.wf s.mem = true) : Memory.wf (s.place k b).mem = true :=
  memWf_mapply _ (memWf_filter _ h)

/-- What it leaves alone. -/
theorem State.place_out (s : State) {k a : Nat} (b : Blob) (ha : a < k ∨ k + b.len ≤ a) : mget (s.place k b).mem a = mget s.mem a := by
  have hw : ∀ w ∈ (b.cells.filter fun c => c.1 < b.len).map (fun c => (k + c.1, c.2)), w.1 ≠ a := by
    intro w hw
    simp only [List.mem_map, List.mem_filter, decide_eq_true_eq] at hw
    obtain ⟨c, ⟨-, hc⟩, rfl⟩ := hw
    dsimp only
    omega
  refine (mget_mapply_out _ _ hw).trans ?_
  refine congrArg (Option.getD · 0) (tget_filter _ _ fun x => ?_)
  simpa using ha

/-- The core map and the save record, written. -/
theorem State.writeMap_wf {s : State} (cid : Nat) (h : Memory.wf s.mem = true) : Memory.wf (s.writeMap cid).mem = true := by
  unfold State.writeMap; split
  · exact h
  · exact State.place_wf _ _ h
theorem State.writeRecord_wf {s : State} (cid : Nat) (h : Memory.wf s.mem = true) : Memory.wf (s.writeRecord cid).mem = true := by
  unfold State.writeRecord; split
  · exact State.place_wf _ _ h
  · exact h
/-- Pages put back. -/
theorem State.placePages_wf {s : State} (fs : List (Nat × Nat × Nat)) (b : Blob) (h : Memory.wf s.mem = true) :
    Memory.wf (s.placePages fs b).mem = true := by
  have key : ∀ (l : List (Nat × Nat × Nat)) (a : State × Nat), Memory.wf a.1.mem = true →
      Memory.wf (l.foldl (fun (acc : State × Nat) f =>
        (acc.1.place (physKey 0 f.1 f.2.1) (Blob.ofMem b.cells acc.2 f.2.2), acc.2 + f.2.2)) a).1.mem = true := by
    intro l
    induction l with
    | nil => exact fun a ha => ha
    | cons x l ih => exact fun a ha => ih _ (State.place_wf _ _ ha)
  exact key fs (s, 0) h

end Sys2Proof.Machine
end

