-- ==== Sys2Proof/Laws/Ops.lean ====
section
/-! SUPPORT. The shared operations of words, each with one lemma that says everything it can do: the frame of a word
(`issueWord`, `finish`), the register words, results at places, pending results, masks, flags, faults and parks. -/

namespace Sys2Proof.Machine

/-! ### Putting a group back -/

theorem State.modG_putG (s : State) (gid : Nat) (g : Group) (f : Group → Group) :
    (s.putG gid g).modG gid f = s.putG gid (f g) := by
  simp [State.putG, State.modG, tmod_tput]
theorem State.putG_putG (s : State) (gid : Nat) (g h : Group) : (s.putG gid g).putG gid h = s.putG gid h := by
  simp [State.putG, tput_tput]
@[simp] theorem State.tget_putG (s : State) (gid : Nat) (g : Group) : tget gid (s.putG gid g).groups = some g := by
  simp [State.putG, tget_tput_same]

/-! ### The frame of a word -/

theorem pendFull_iff (i : Instr) (e : Env) : e.pendFull i = false ↔
    (i.pends = true → (e.g.isCtl = true ∨ e.lanesFor i ≠ 0) → e.pending.length < 32) := by
  cases hp : i.pends <;> cases hc : e.g.isCtl <;> simp [Env.pendFull, hp, hc]

theorem ready_iff (i : Instr) (e : Env) : Ready i e ↔ preIssue i e = none := by
  unfold Ready preIssue
  rw [← pendFull_iff]
  cases e.g.isCtl <;> cases i.controlOk <;> cases i.privileged <;> cases i.overBudget e.g.budget <;> cases e.pendFull i <;>
    cases e.damaged i i.guard <;> simp

theorem envOf_s {s : State} {p : Party} {e : Env} (h : envOf s p = some e) : e.s = s ∧ e.gid = p.gid ∧ tget p.gid s.groups = some e.g := by
  unfold envOf at h
  cases hg : tget p.gid s.groups with
  | none => simp [hg] at h
  | some g =>
    cases hs : g.sub p.mask with
    | none => simp [hg, hs] at h
    | some x =>
      simp only [hg, hs, Option.bind_eq_bind, Option.bind_some] at h
      split at h
      · simp only [Option.bind_eq_some_iff] at h
        obtain ⟨_, _, h⟩ := h
        simp only [Option.some.injEq] at h
        subst h; exact ⟨rfl, rfl, rfl⟩
      · simp only [Option.bind_eq_some_iff] at h
        obtain ⟨_, _, _, _, _, _, h⟩ := h
        simp only [Option.some.injEq] at h
        subst h; exact ⟨rfl, rfl, rfl⟩

/-- The party's environment is that of the state with the issue slot empty, and the group stands in it. -/
theorem Issues.env {i : Instr} {s : State} {e : Env} (h : Issues i s e) :
    e.s = { s with cur := none } ∧ tget e.gid s.groups = some e.g := by
  obtain ⟨⟨p, -, he⟩, -⟩ := h
  obtain ⟨h1, h2, h3⟩ := envOf_s he
  exact ⟨h1, by rw [h2]; exact h3⟩

/-- What a word does once it issues. -/
theorem issueWord_issues {i : Instr} {s : State} {e : Env} (h : Issues i s e) (body : Env → Res) :
    issueWord i body s = .next (finish i e ((encode i).getD 0) (body e)) := by
  obtain ⟨⟨p, hp, he⟩, hr⟩ := h
  simp [issueWord, hp, he, (ready_iff i e).mp hr]

theorem finish_ok (i : Instr) (e : Env) (w : Nat) (t : State) : finish i e w (.ok t) = e.done i t := rfl
theorem finish_goto (i : Instr) (e : Env) (w : Nat) (t : State) : finish i e w (.goto t) = e.gone i t := rfl
theorem finish_park (i : Instr) (e : Env) (w : Nat) {p : Park} (hp : p.written = false) (t : State) :
    finish i e w (.park p t) = e.parked i p t := by simp [finish, hp, Env.parked]
/-- A park of a word that has written already comes with the word's undo log (R362). -/
theorem finish_park_written (i : Instr) (e : Env) (w : Nat) {p : Park} (hp : p.written = true) (t : State) :
    finish i e w (.park p t) = e.parked i p (e.logWord i t) := by simp [finish, hp, Env.parked]

theorem issueWord_ok {i : Instr} {s : State} {e : Env} (h : Issues i s e) {body : Env → Res} {t : State} (hb : body e = .ok t) :
    issueWord i body s = .next (e.done i t) := by rw [issueWord_issues h, hb]; rfl
theorem issueWord_goto {i : Instr} {s : State} {e : Env} (h : Issues i s e) {body : Env → Res} {t : State}
    (hb : body e = .goto t) : issueWord i body s = .next (e.gone i t) := by rw [issueWord_issues h, hb]; rfl
theorem issueWord_park {i : Instr} {s : State} {e : Env} (h : Issues i s e) {body : Env → Res} {p : Park} (hp : p.written = false)
    {t : State} (hb : body e = .park p t) : issueWord i body s = .next (e.parked i p t) := by rw [issueWord_issues h, hb, finish_park i e _ hp]

/-- A fault of a word in team code (R353). -/
theorem takeFault_team {s : State} {e : Env} {r : FaultRec} (hc : e.g.isCtl = false) (hs : s = e.s) :
    takeFault s e r = e.trapped r := by subst hs; simp [takeFault, hc, Env.trapped]
theorem takeFault_ctl {e : Env} {r : FaultRec} (hc : e.g.isCtl = true) : takeFault e.s e r = e.stopped r.code := by
  simp [takeFault, hc, Env.stopped, State.faultCtx]

theorem issueWord_traps {i : Instr} {s : State} {e : Env} (h : Issues i s e) (hc : e.g.isCtl = false) {body : Env → Res}
    {f : Flt} (hb : body e = .fault f) (ho : f.owed = false) :
    ∃ r : FaultRec, issueWord i body s = .next (e.trapped r) ∧ r.code = f.code ∧ r.fpc = e.pc ∧ r.rpc = e.pc ∧
      r.slice = lowest e.sub.mask ∧ r.addr = BitVec.ofNat 64 f.addr :=
  ⟨e.record (some i) ((encode i).getD 0) f, by
    rw [issueWord_issues h, hb]; simp [finish, ho, takeFault_team hc], rfl, rfl, rfl, rfl, rfl⟩

/-- The undo log is the only thing that the log's entries touch (R362). -/
theorem State.logUndo_putG (s : State) (e : Env) (i : Instr) (g : Group) :
    ∃ u, (s.putG e.gid g).logUndo e i = s.putG e.gid { g with undo := u } := by
  unfold State.logUndo
  split
  · rw [State.modG_putG]
    exact ⟨_, rfl⟩
  · exact ⟨g.undo, rfl⟩

theorem Env.logWord_putG (e : Env) (i : Instr) (g : Group) :
    ∃ u, e.logWord i (e.s.putG e.gid g) = e.s.putG e.gid { g with undo := u } := by
  unfold Env.logWord
  split
  · exact ⟨g.undo, rfl⟩
  · exact State.logUndo_putG e.s e i g

/-- A word whose effect is another group: that group with its program counters moved on. -/
theorem Env.done_putG (e : Env) (i : Instr) (g : Group) :
    ∃ u, e.done i (e.s.putG e.gid g) = e.after i (e.s.putG e.gid { (g.advance e.sub.mask).modSub e.sub.mask
      fun x => { x with park := .none, lastPc := e.pc } with undo := u }) := by
  obtain ⟨u, h⟩ := e.logWord_putG i ((g.advance e.sub.mask).modSub e.sub.mask
      fun x => { x with park := .none, lastPc := e.pc })
  exact ⟨u, by rw [Env.done, State.modG_putG, h]⟩

/-- A join, in one sentence (R155, R156). -/
theorem State.joinSettled_joins {s : State} {gid mask : Nat} {g : Group} (h : tget gid s.groups = some g) (join : Group → Group) :
    JoinsOnce s (s.joinSettled gid mask join) gid mask g fun w g' => g' = join w := by
  refine ⟨fun hr => by simp [State.joinSettled, h, hr], fun hr => ⟨fun l r x hf hx => by simp [State.joinSettled, h, hr, hf, hx],
    fun hf => ⟨_, by simp [State.joinSettled, h, hr, hf], rfl⟩⟩⟩

/-! ### Changes -/

/-- A group with a change made. -/
def Group.changed (g : Group) (c : Change) : Group :=
  { g with vreg := written 0 g.vreg c.vw, sreg := written 0 g.sreg c.sw, kreg := written 0 g.kreg c.kw,
           pend := g.pend.map (·.without c) ++ c.new, nextPend := g.nextPend + c.new.length,
           badV := g.badV.filter fun k => !(c.vw.any fun x => x.1 == k),
           badS := g.badS.filter fun k => !(c.sw.any fun x => x.1 == k),
           badK := g.badK.filter fun k => !(c.kw.any fun x => x.1 == k),
           badX := g.badX.filter fun k => !c.xw.contains k,
           slices := g.slices.mapIdx c.sl }

theorem Pend.without_without (p : Pend) (c d : Change) : (p.without c).without d = p.without (c.andThen d) := by
  simp only [Pend.without, Change.andThen, List.filter_filter, List.any_append, Bool.not_or]
  congr 1 <;> congr 1 <;> funext w <;> rw [Bool.and_comm]

theorem Group.changed_changed (g : Group) (c d : Change) (h : c.new = []) :
    (g.changed c).changed d = g.changed (c.andThen d) := by
  simp only [Group.changed, h, List.append_nil, List.map_map, List.length_nil, Nat.add_zero, List.filter_filter, List.mapIdx_mapIdx]
  congr 1
  · simp [written, Change.andThen]
  · simp [written, Change.andThen]
  · simp [written, Change.andThen]
  · simp only [Change.andThen]
    congr 1
    apply List.map_congr_left
    intro p _
    exact Pend.without_without p c d
  · simp only [Change.andThen, List.any_append, Bool.not_or]; congr 1; funext w; rw [Bool.and_comm]
  · simp only [Change.andThen, List.any_append, Bool.not_or]; congr 1; funext w; rw [Bool.and_comm]
  · simp only [Change.andThen, List.any_append, Bool.not_or]; congr 1; funext w; rw [Bool.and_comm]
  · congr 1; funext k; simp [Change.andThen, Bool.and_comm]

theorem Pend.without_nil (p : Pend) (c : Change) (hv : c.vw = []) (hs : c.sw = []) : p.without c = p := by
  simp [Pend.without, hv, hs]

theorem Group.changed_nil (g : Group) : g.changed {} = g := by
  have hp : g.pend.map (fun p => p.without {}) = g.pend := by
    rw [List.map_congr_left fun p _ => p.without_nil {} rfl rfl]; exact List.map_id _
  have hs : g.slices.mapIdx (fun _ x => x) = g.slices := by simp [List.mapIdx_eq_zipIdx_map]
  simp [Group.changed, written, hp, hs]

theorem modify_eq_mapIdx {α : Type} (l : List α) (i : Nat) (f : α → α) :
    l.modify i f = l.mapIdx fun n x => if n = i then f x else x := by
  apply List.ext_getElem?
  intro n
  simp only [List.getElem?_modify, List.getElem?_mapIdx]
  by_cases h : i = n <;> simp [h, eq_comm]

theorem Group.modSlice_changed (g : Group) (i : Nat) (f : Slice → Slice) :
    g.modSlice i f = g.changed { sl := fun n x => if n = i then f x else x } := by
  have hp : g.pend.map (fun p => p.without { sl := fun n x => if n = i then f x else x }) = g.pend := by
    rw [List.map_congr_left fun p _ => p.without_nil _ rfl rfl]; exact List.map_id _
  simp only [Group.changed, hp, Group.modSlice, modify_eq_mapIdx]
  simp [written]

theorem Group.wrV_changed (g : Group) (r l x : Nat) : g.wrV r l x = g.changed { vw := [(32 * r + l, BitVec.ofNat 32 x)] } := by
  have hs : g.slices.mapIdx (fun _ x => x) = g.slices := by simp [List.mapIdx_eq_zipIdx_map]
  simp [Group.wrV, Group.cancelV, Group.rawV, Group.changed, written, Pend.without, hs, bne, Bool.beq_comm]

theorem Group.wrS_changed (g : Group) (r c x : Nat) : g.wrS r c x = g.changed { sw := [(8 * r + c, BitVec.ofNat 64 x)] } := by
  have hs : g.slices.mapIdx (fun _ x => x) = g.slices := by simp [List.mapIdx_eq_zipIdx_map]
  simp [Group.wrS, Group.cancelS, Group.rawS, Group.changed, written, Pend.without, hs, bne, Bool.beq_comm]

theorem Group.wrK_changed (e : Env) (k x : Nat) :
    e.g.wrK k (laneMask e.sub.mask) x = e.g.changed { kw := e.maskWrite k x } := by
  have hs : e.g.slices.mapIdx (fun _ x => x) = e.g.slices := by simp [List.mapIdx_eq_zipIdx_map]
  by_cases h : k = 0
  · subst h
    have := e.g.changed_nil
    simp only [Group.wrK, Env.maskWrite]
    exact this.symm
  · simp [Group.wrK, Env.maskWrite, h, Group.changed, written, Pend.without, hs, bne, Bool.beq_comm]

theorem Group.raise_changed (g : Group) (c fl : Nat) :
    g.raise c fl = g.changed { sl := fun n x => if n = c then { x with status := x.status ||| BitVec.ofNat 32 fl } else x } := by
  unfold Group.raise
  by_cases h : fl = 0
  · subst h
    have : (fun n (x : Slice) => if n = c then { x with status := x.status ||| BitVec.ofNat 32 0 } else x) = fun _ x => x := by
      funext n x
      split <;> simp
    simp only [beq_self_eq_true, if_true]
    rw [this]
    exact g.changed_nil.symm
  · have hb : (fl == 0) = false := by simpa using h
    rw [hb]
    exact Group.modSlice_changed g c _

theorem Group.addPend_changed (g : Group) (p : Pend) : g.addPend p = g.changed { new := [{ p with idx := g.nextPend }] } := by
  have hp : g.pend.map (fun q => q.without { new := [{ p with idx := g.nextPend }] }) = g.pend := by
    rw [List.map_congr_left fun q _ => q.without_nil _ rfl rfl]; exact List.map_id _
  have hs : g.slices.mapIdx (fun _ x => x) = g.slices := by simp [List.mapIdx_eq_zipIdx_map]
  simp [Group.addPend, Group.changed, written, hp, hs]

/-! ### From a change to the state after the word -/

theorem slices_foldl_modify (l : List Nat) (f : Slice → Slice) (xs : List Slice) (n : Nat) (hl : l.Nodup) :
    (l.foldl (fun xs i => xs.modify i f) xs)[n]? = (xs[n]?).map fun x => if n ∈ l then f x else x := by
  induction l generalizing xs with
  | nil => simp
  | cons i l ih =>
    simp only [List.nodup_cons] at hl
    simp only [List.foldl_cons, ih _ hl.2, List.getElem?_modify, List.mem_cons]
    cases xs[n]? with
    | none => rfl
    | some x =>
      by_cases h1 : i = n
      · subst h1; simp [hl.1]
      · simp [h1, Ne.symm h1]

theorem modSlices_slices (g : Group) (l : List Nat) (f : Slice → Slice) :
    g.modSlices l f = { g with slices := l.foldl (fun xs i => xs.modify i f) g.slices } := by
  unfold Group.modSlices
  induction l generalizing g with
  | nil => rfl
  | cons i l ih => simp only [List.foldl_cons, ih]; rfl

theorem slicesOf_nodup (m : Nat) : (slicesOf m).Nodup := (List.nodup_range).filter _

/-- A group changed and moved on is what the word leaves. -/
theorem left_of_changed (e : Env) (c : Change) (u : List (W64 × Nat × Nat × Nat × List Byte)) :
    e.Left c { ((e.g.changed c).advance e.sub.mask).modSub e.sub.mask fun x => { x with park := .none, lastPc := e.pc } with
      undo := u } := by
  unfold Group.advance
  rw [modSlices_slices]
  refine ⟨rfl, rfl, rfl, rfl, rfl, rfl, rfl, rfl, rfl, ?_, rfl, rfl⟩
  intro n
  simp only [Group.modSub]
  rw [slices_foldl_modify _ _ _ _ (slicesOf_nodup _)]
  simp only [Group.changed, List.getElem?_mapIdx, Option.map_map]
  congr 1
  funext x
  simp only [Function.comp]
  split <;> rfl

/-- A write of a copy of a special register mends it (R100): the change that SFMT makes beside FMR. -/
theorem Group.mendX_changed (g : Group) (r : Special) (c : Nat) : g.mendX r c = g.changed { xw := [32 * r.code + c] } := by
  have h : g.badX.filter (· != 32 * r.code + c) = g.badX.filter fun k => !([32 * r.code + c] : List Nat).contains k := by
    congr 1; funext k; simp [bne, BEq.beq]
  rw [Group.mendX, h]
  have hs : g.slices.mapIdx (fun _ x => x) = g.slices := by rw [List.mapIdx_eq_iff]; simp
  simp [Group.changed, written, Pend.without, hs]

/-- A register word whose body makes a change completes with it. -/
theorem regWord_completes {i : Instr} {s : State} {e : Env} (h : Issues i s e) {body : Env → Chk Group} {c : Change}
    (hx : exec i s = regWord i body s) (hb : body e = .ok (e.g.changed c)) : Completes i s e c := by
  have h1 : regWord i body s = .next (e.done i (e.s.putG e.gid (e.g.changed c))) :=
    issueWord_ok h (by simp [hb])
  obtain ⟨u, hu⟩ := e.done_putG i (e.g.changed c)
  exact ⟨_, by rw [hx, h1, hu], left_of_changed e c u⟩

/-! ### Results at places -/

theorem wrD_raise_changed (g : Group) (wide : Bool) (d : Opd) (p : Nat) (r : Nat × Nat) :
    (g.wrD wide d p r.1).raise (p / 4) r.2 = g.changed
      { vw := vWords d wide [p] fun _ => r.1, sw := sWords d wide [p] fun _ => r.1, sl := raises [p] fun _ => r.2 } := by
  have hr : ∀ n x, (if n = p / 4 then { x with status := x.status ||| BitVec.ofNat 32 r.2 } else x : Slice) =
      raises [p] (fun _ => r.2) n x := by
    intro n x
    by_cases h : n = p / 4
    · simp [raises, h]
    · simp [raises, h, Ne.symm h]
  cases d with
  | v n =>
    cases wide
    · simp only [Group.wrD, Bool.false_eq_true, if_false]
      rw [Group.wrV_changed, Group.raise_changed, Group.changed_changed _ _ _ rfl]
      congr 1
      simp only [Change.andThen, vWords, sWords, List.flatMap_cons, List.flatMap_nil, List.append_nil, hr]
      simp
    · simp only [Group.wrD, if_true]
      rw [Group.wrV_changed, Group.wrV_changed, Group.raise_changed, Group.changed_changed _ _ _ rfl,
        Group.changed_changed _ _ _ rfl]
      congr 1
      simp only [Change.andThen, vWords, sWords, List.flatMap_cons, List.flatMap_nil, List.append_nil, hr]
      simp
  | s n =>
    simp only [Group.wrD]
    rw [Group.wrS_changed, Group.raise_changed, Group.changed_changed _ _ _ rfl]
    congr 1
    simp only [Change.andThen, vWords, sWords, List.map_cons, List.map_nil, List.append_nil, hr]
  | k n => simp only [Group.wrD]; rw [Group.raise_changed]; congr 1; simp only [vWords, sWords, hr]
  | x n => simp only [Group.wrD]; rw [Group.raise_changed]; congr 1; simp only [vWords, sWords, hr]
  | sp r => simp only [Group.wrD]; rw [Group.raise_changed]; congr 1; simp only [vWords, sWords, hr]
  | zero => simp only [Group.wrD]; rw [Group.raise_changed]; congr 1; simp only [vWords, sWords, hr]

theorem raises_cons (p : Nat) (ps : List Nat) (fl : Nat → Nat) (n : Nat) (x : Slice) :
    raises (p :: ps) fl n x = raises ps fl n (raises [p] (fun _ => fl p) n x) := by
  by_cases h : p / 4 = n <;> simp [raises, h]

theorem perPlace_fold (wide : Bool) (d : Opd) (f : Nat → Nat × Nat) (ps : List Nat) (g : Group) :
    ps.foldl (fun g p => let r := f p; (g.wrD wide d p r.1).raise (p / 4) r.2) g = g.changed
      { vw := vWords d wide ps fun p => (f p).1, sw := sWords d wide ps fun p => (f p).1, sl := raises ps fun p => (f p).2 } := by
  induction ps generalizing g with
  | nil =>
    have : raises [] (fun p => (f p).2) = fun _ x => x := by funext n x; simp [raises]
    rw [this]
    cases d <;> simp only [vWords, sWords, List.foldl_nil] <;> exact g.changed_nil.symm
  | cons p ps ih =>
    simp only [List.foldl_cons, ih]
    rw [wrD_raise_changed, Group.changed_changed _ _ _ rfl]
    congr 1
    simp only [Change.andThen]
    congr 1
    · cases d <;> simp [vWords]
    · cases d <;> simp [sWords]
    · funext n x; exact (raises_cons p ps _ n x).symm

/-- Results at the executing places. -/
theorem perPlace_changed (e : Env) (k : Nat) (d : Opd) (wide : Bool) (f : Nat → Nat × Nat) :
    e.perPlace k d wide f = e.g.changed (e.result k d wide f) := perPlace_fold wide d f _ _

/-- Every word that computes one value per place completes with those values. -/
theorem mapWord_completes {i : Instr} {s : State} {e : Env} (h : Issues i s e) {k : Nat} {d : Opd} {wide : Bool}
    {f : Env → Nat → Nat × Nat} (hx : exec i s = mapWord i k d wide f s) :
    Completes i s e (e.result k d wide (f e)) :=
  regWord_completes h hx (by simp [perPlace_changed])

/-- A V-class register word completes with a pending result. -/
theorem vWord_completes {i : Instr} {s : State} {e : Env} (h : Issues i s e) {k : Nat} {d : Opd} {wide : Bool}
    {f : Env → Nat → Nat × Nat} (hx : exec i s = vWord i d k wide f s) :
    Completes i s e (e.pends k d wide (f e)) := by
  refine regWord_completes h hx ?_
  by_cases hp : e.places k d = []
  · simp [hp, Env.pends, Group.changed_nil]
  · have : ((e.places k d).map fun p => (p, f e p)) ≠ [] := by simpa using hp
    have hb : (((e.places k d).map fun p => (p, f e p)) == []) = false := by simpa using hp
    simp only [hb, Bool.false_eq_true, if_false, Env.pends, hp]
    rw [Group.addPend_changed]
    congr 3
    simp only [Env.newPend, List.cons.injEq, and_true]
    congr 1
    · cases d <;> simp [vWords, List.flatMap_map]
    · cases d <;> simp [sWords, Function.comp_def]
    · simp [List.filter_map, Function.comp_def]

/-! ### Flags and masks -/

/-- A change of the same field of several slices. -/
theorem modSlices_changed (g : Group) (l : List Nat) (f : Nat → Slice → Slice) (hl : l.Nodup) :
    l.foldl (fun g c => g.modSlice c (f c)) g = g.changed { sl := fun n x => if n ∈ l then f n x else x } := by
  induction l generalizing g with
  | nil =>
    have : (fun n (x : Slice) => if n ∈ ([] : List Nat) then f n x else x) = fun _ x => x := by funext n x; simp
    rw [this]; exact g.changed_nil.symm
  | cons c l ih =>
    simp only [List.nodup_cons] at hl
    simp only [List.foldl_cons, ih _ hl.2]
    rw [Group.modSlice_changed, Group.changed_changed _ _ _ rfl]
    congr 1
    simp only [Change.andThen, List.append_nil, List.mem_cons]
    congr 1
    funext n x
    by_cases h : n = c
    · subst h; simp [hl.1]
    · simp [h]

theorem execSlices_nodup (e : Env) (k : Nat) : (e.execSlices k).Nodup := slicesOf_nodup _
theorem execLanes_nodup (e : Env) (k : Nat) : (e.execLanes k).Nodup := (List.nodup_range).filter _

theorem setFlags_changed (e : Env) (g : Group) (k : Nat) (fl : Nat → Flags5) :
    (e.execSlices k).foldl (fun g c => g.setFlags c (fl c)) g = g.changed { sl := e.sets k fl } :=
  modSlices_changed g _ (fun c x => { x with z := (fl c).z, n := (fl c).n, c := (fl c).c, v := (fl c).v, u := (fl c).u })
    (execSlices_nodup e k)

theorem raise_fold (ls : List Nat) (fl : Nat → Nat) (g : Group) :
    ls.foldl (fun g l => g.raise (l / 4) (fl l)) g = g.changed { sl := raises ls fl } := by
  have := perPlace_fold false .zero (fun p => (0, fl p)) ls g
  simpa [Group.wrD, vWords, sWords] using this

theorem maskForm_changed (e : Env) (k d : Nat) (f : Nat → Bool × Nat) :
    e.maskForm k d f = e.g.changed
      { kw := e.maskWrite d (maskWhere (e.execLanes k) fun l => (f l).1), sl := raises (e.execLanes k) fun l => (f l).2 } := by
  unfold Env.maskForm
  have key : ∀ (ls : List Nat) (m : Nat) (g : Group),
      ls.foldl (fun (acc : Nat × Group) l =>
        let q := f l
        (if q.1 then acc.1 + 2 ^ l else acc.1, acc.2.raise (l / 4) q.2)) (m, g) =
      (ls.foldl (fun m l => if (f l).1 then m + 2 ^ l else m) m, ls.foldl (fun g l => g.raise (l / 4) (f l).2) g) := by
    intro ls
    induction ls with
    | nil => intros; rfl
    | cons l ls ih => intro m g; simp only [List.foldl_cons, ih]
  simp only [key, raise_fold]
  have hs : ∀ g : Group, g.slices.mapIdx (fun _ x => x) = g.slices := fun g => by simp [List.mapIdx_eq_zipIdx_map]
  by_cases hd : d = 0
  · subst hd; simp [Group.wrK, Env.maskWrite]
  · simp [Group.wrK, Env.maskWrite, hd, Group.changed, written, maskWhere, Group.kr, bne, Bool.beq_comm]
    exact fun _ _ => rfl

/-! ### What a team is due, and what the check of R227, a refusal and a reservation leave alone -/

/-- A team that has not retired and has no fault of an EMIT goes on as it is. -/
theorem Team.exitDue_none (t : Team) (b : Bool) (hr : t.retired = false) (he : t.emitFault = []) : t.exitDue b = t := by
  simp [Team.exitDue, hr, he]
/-- A fault that a team has trapped for stays (R12, R354). -/
theorem Team.exitDue_exitFault (t : Team) (b : Bool) (h : t.exitFault.isSome = true) : (t.exitDue b).exitFault = t.exitFault := by
  simp only [Team.exitDue]
  split <;> simp

/-- An entry that nobody has left has no absent participant. -/
theorem CEntry.absent_nil (x : CEntry) (n : Nat) (ps : List Part) (h : x.gone = []) : x.absent n ps = [] := by
  simp [CEntry.absent, h]

@[simp] theorem State.noteReads_groups (s : State) (tid : Nat) (l : List Nat) : (s.noteReads tid l).groups = s.groups := rfl
@[simp] theorem State.noteReads_mem (s : State) (tid : Nat) (l : List Nat) : (s.noteReads tid l).mem = s.mem := rfl
@[simp] theorem State.noteReads_ops (s : State) (tid : Nat) (l : List Nat) : (s.noteReads tid l).ops = s.ops := rfl

/-- Reads of a job change only what its team has read. -/
theorem State.noteBvh_eq (s : State) (o : EngOp) : ∃ l, s.noteBvh o = s.noteReads (gidTid o.gid) l := ⟨_, rfl⟩

/-- A turn that passes changes the contexts only, and of them none that the one that leaves shares no core with (R345). -/
theorem State.passTurn_eq (s : State) (cid : Nat) : ∃ cs, s.passTurn cid = { s with ctxs := cs } := by
  unfold State.passTurn
  repeat' split
  all_goals exact ⟨_, rfl⟩
@[simp] theorem State.passTurn_groups (s : State) (cid : Nat) : (s.passTurn cid).groups = s.groups := by
  obtain ⟨cs, h⟩ := s.passTurn_eq cid; rw [h]
@[simp] theorem State.passTurn_mem (s : State) (cid : Nat) : (s.passTurn cid).mem = s.mem := by
  obtain ⟨cs, h⟩ := s.passTurn_eq cid; rw [h]

/-- Reservations of waiting operations change operations and queues only. -/
theorem State.reserveWanted_eq (s : State) (tid gid q : Nat) :
    ∃ (os : Tab EngOp) (ts : Tab Team), s.reserveWanted tid gid q = { s with ops := os, teams := ts } := by
  suffices h : ∀ (l : Tab EngOp) (t : State), (∃ os ts, t = { s with ops := os, teams := ts }) →
      ∃ os ts, l.foldl _ t = { s with ops := os, teams := ts } from h s.ops s ⟨_, _, rfl⟩
  intro l
  induction l with
  | nil => exact fun t h => h
  | cons o l ih =>
    rintro _ ⟨os, ts, rfl⟩
    refine ih _ ?_
    dsimp only
    repeat' split
    all_goals exact ⟨_, _, rfl⟩

end Sys2Proof.Machine
end

