-- ==== Sys2Proof/Laws/PerInstr.lean ====
section
/-! SUPPORT. The per-instruction family `Encoding`: the word of an accepted instruction has 64 bits and decodes to the
instruction (R32, R35, R51, R59). An event has no word. -/

namespace Sys2Proof.Laws.Encoding

def Statement (i : Instr) : Prop :=
  i.wf = true → i.pairOk = true → ∀ w, encode i = some w → w < 2 ^ 64 ∧ decodeWord w = .ok i

theorem statement_of_enc {i : Instr} (e : Enc) (he : i.toEnc = some e) (hl : e.toNat < 2 ^ 64) (hp : parse e.toNat = .ok e)
    (hi : i.wf = true → Instr.ofEnc e = some i) : Statement i := by
  intro hw hr w h
  simp only [encode, he, Option.map_some, Option.some.injEq] at h
  subst h
  exact ⟨hl, decodeWord_of_parse hp (hi hw) hw hr⟩

theorem statement_of_event {i : Instr} (he : i.toEnc = none) : Statement i := by
  intro _ _ w h
  simp [encode, he] at h

theorem of_r {i : Instr} (op : Nat) (h : op < 256) (hf : formOf op = some .r) (f : RWord)
    (he : i.toEnc = some (.r op f)) (hi : i.wf = true → Instr.ofEnc (.r op f) = some i) : Statement i :=
  statement_of_enc _ he (toNat_lt_r op h f) (parse_r op h hf f) hi
theorem of_i {i : Instr} (op : Nat) (h : op < 256) (hf : formOf op = some .i) (f : IWord)
    (he : i.toEnc = some (.i op f)) (hi : i.wf = true → Instr.ofEnc (.i op f) = some i) : Statement i :=
  statement_of_enc _ he (toNat_lt_i op h f) (parse_i op h hf f) hi
theorem of_m {i : Instr} (op : Nat) (h : op < 256) (hf : formOf op = some .m) (f : MWord)
    (he : i.toEnc = some (.m op f)) (hi : i.wf = true → Instr.ofEnc (.m op f) = some i) : Statement i :=
  statement_of_enc _ he (toNat_lt_m op h f) (parse_m op h hf f) hi
theorem of_b {i : Instr} (op : Nat) (h : op < 256) (hf : formOf op = some .b) (f : BWord)
    (he : i.toEnc = some (.b op f)) (hi : i.wf = true → Instr.ofEnc (.b op f) = some i) : Statement i :=
  statement_of_enc _ he (toNat_lt_b op h f) (parse_b op h hf f) hi

theorem nop (f : RWord) : Statement (.nop f) := of_r 0x00 (by decide) rfl f rfl fun _ => rfl
theorem mov (f : RWord) : Statement (.mov f) := of_r 0x01 (by decide) rfl f rfl fun _ => rfl
theorem movi (f : IWord) : Statement (.movi f) := of_i 0x02 (by decide) rfl f rfl fun _ => rfl
theorem movh (f : IWord) : Statement (.movh f) := of_i 0x03 (by decide) rfl f rfl fun _ => rfl
theorem rdln (f : RWord) : Statement (.rdln f) := of_r 0x04 (by decide) rfl f rfl fun _ => rfl
theorem wrln (f : RWord) : Statement (.wrln f) := of_r 0x05 (by decide) rfl f rfl fun _ => rfl
theorem shfl (f : RWord) : Statement (.shfl f) := of_r 0x06 (by decide) rfl f rfl fun _ => rfl
theorem sel (f : RWord) : Statement (.sel f) := of_r 0x07 (by decide) rfl f rfl fun _ => rfl
theorem iadd (f : RWord) : Statement (.iadd f) := of_r 0x08 (by decide) rfl f rfl fun _ => rfl
theorem isub (f : RWord) : Statement (.isub f) := of_r 0x09 (by decide) rfl f rfl fun _ => rfl
theorem imul (f : RWord) : Statement (.imul f) := of_r 0x0A (by decide) rfl f rfl fun _ => rfl
theorem imulh (f : RWord) : Statement (.imulh f) := of_r 0x0B (by decide) rfl f rfl fun _ => rfl
theorem imad (f : RWord) : Statement (.imad f) := of_r 0x0C (by decide) rfl f rfl fun _ => rfl
theorem imin (f : RWord) : Statement (.imin f) := of_r 0x0D (by decide) rfl f rfl fun _ => rfl
theorem imax (f : RWord) : Statement (.imax f) := of_r 0x0E (by decide) rfl f rfl fun _ => rfl
theorem iabs (f : RWord) : Statement (.iabs f) := of_r 0x0F (by decide) rfl f rfl fun _ => rfl
theorem ineg (f : RWord) : Statement (.ineg f) := of_r 0x10 (by decide) rfl f rfl fun _ => rfl
theorem and (f : RWord) : Statement (.and f) := of_r 0x11 (by decide) rfl f rfl fun _ => rfl
theorem or (f : RWord) : Statement (.or f) := of_r 0x12 (by decide) rfl f rfl fun _ => rfl
theorem xor (f : RWord) : Statement (.xor f) := of_r 0x13 (by decide) rfl f rfl fun _ => rfl
theorem not (f : RWord) : Statement (.not f) := of_r 0x14 (by decide) rfl f rfl fun _ => rfl
theorem shl (f : RWord) : Statement (.shl f) := of_r 0x15 (by decide) rfl f rfl fun _ => rfl
theorem shr (f : RWord) : Statement (.shr f) := of_r 0x16 (by decide) rfl f rfl fun _ => rfl
theorem sar (f : RWord) : Statement (.sar f) := of_r 0x17 (by decide) rfl f rfl fun _ => rfl
theorem rot (f : RWord) : Statement (.rot f) := of_r 0x18 (by decide) rfl f rfl fun _ => rfl
theorem popc (f : RWord) : Statement (.popc f) := of_r 0x19 (by decide) rfl f rfl fun _ => rfl
theorem clz (f : RWord) : Statement (.clz f) := of_r 0x1A (by decide) rfl f rfl fun _ => rfl
theorem brev (f : RWord) : Statement (.brev f) := of_r 0x1B (by decide) rfl f rfl fun _ => rfl
theorem bfx (f : RWord) : Statement (.bfx f) := of_r 0x1C (by decide) rfl f rfl fun _ => rfl
theorem bfi (f : RWord) : Statement (.bfi f) := of_r 0x1D (by decide) rfl f rfl fun _ => rfl
theorem lea (f : RWord) : Statement (.lea f) := of_r 0x1E (by decide) rfl f rfl fun _ => rfl
theorem icmp (f : RWord) : Statement (.icmp f) := of_r 0x1F (by decide) rfl f rfl fun _ => rfl
theorem iaddi (f : IWord) : Statement (.iaddi f) := of_i 0x20 (by decide) rfl f rfl fun _ => rfl
theorem andi (f : IWord) : Statement (.andi f) := of_i 0x21 (by decide) rfl f rfl fun _ => rfl
theorem ori (f : IWord) : Statement (.ori f) := of_i 0x22 (by decide) rfl f rfl fun _ => rfl
theorem xori (f : IWord) : Statement (.xori f) := of_i 0x23 (by decide) rfl f rfl fun _ => rfl
theorem shli (f : IWord) : Statement (.shli f) := of_i 0x24 (by decide) rfl f rfl fun _ => rfl
theorem shri (f : IWord) : Statement (.shri f) := of_i 0x25 (by decide) rfl f rfl fun _ => rfl
theorem icmpi (f : IWord) : Statement (.icmpi f) := of_i 0x26 (by decide) rfl f rfl fun _ => rfl
theorem imuli (f : IWord) : Statement (.imuli f) := of_i 0x27 (by decide) rfl f rfl fun _ => rfl
theorem kand (f : RWord) : Statement (.kand f) := of_r 0x28 (by decide) rfl f rfl fun _ => rfl
theorem kor (f : RWord) : Statement (.kor f) := of_r 0x29 (by decide) rfl f rfl fun _ => rfl
theorem kxor (f : RWord) : Statement (.kxor f) := of_r 0x2A (by decide) rfl f rfl fun _ => rfl
theorem knot (f : RWord) : Statement (.knot f) := of_r 0x2B (by decide) rfl f rfl fun _ => rfl
theorem kmov (f : RWord) : Statement (.kmov f) := of_r 0x2C (by decide) rfl f rfl fun _ => rfl
theorem kpop (f : RWord) : Statement (.kpop f) := of_r 0x2D (by decide) rfl f rfl fun _ => rfl
theorem kffs (f : RWord) : Statement (.kffs f) := of_r 0x2E (by decide) rfl f rfl fun _ => rfl
theorem kset (f : RWord) : Statement (.kset f) := of_r 0x2F (by decide) rfl f rfl fun _ => rfl
theorem sfmt (f : IWord) : Statement (.sfmt f) := of_i 0x30 (by decide) rfl f rfl fun _ => rfl
theorem prmt (f : RWord) : Statement (.prmt f) := of_r 0x31 (by decide) rfl f rfl fun _ => rfl
theorem pack (f : RWord) : Statement (.pack f) := of_r 0x32 (by decide) rfl f rfl fun _ => rfl
theorem unpk (f : RWord) : Statement (.unpk f) := of_r 0x33 (by decide) rfl f rfl fun _ => rfl
theorem clrst (f : RWord) : Statement (.clrst f) := of_r 0x34 (by decide) rfl f rfl fun _ => rfl
theorem fadd (f : RWord) : Statement (.fadd f) := of_r 0x40 (by decide) rfl f rfl fun _ => rfl
theorem fsub (f : RWord) : Statement (.fsub f) := of_r 0x41 (by decide) rfl f rfl fun _ => rfl
theorem fmul (f : RWord) : Statement (.fmul f) := of_r 0x42 (by decide) rfl f rfl fun _ => rfl
theorem ffma (f : RWord) : Statement (.ffma f) := of_r 0x43 (by decide) rfl f rfl fun _ => rfl
theorem fmin (f : RWord) : Statement (.fmin f) := of_r 0x44 (by decide) rfl f rfl fun _ => rfl
theorem fmax (f : RWord) : Statement (.fmax f) := of_r 0x45 (by decide) rfl f rfl fun _ => rfl
theorem fabs (f : RWord) : Statement (.fabs f) := of_r 0x46 (by decide) rfl f rfl fun _ => rfl
theorem fneg (f : RWord) : Statement (.fneg f) := of_r 0x47 (by decide) rfl f rfl fun _ => rfl
theorem fcmp (f : RWord) : Statement (.fcmp f) := of_r 0x48 (by decide) rfl f rfl fun _ => rfl
theorem fclass (f : RWord) : Statement (.fclass f) := of_r 0x49 (by decide) rfl f rfl fun _ => rfl
theorem fdiv (f : RWord) : Statement (.fdiv f) := of_r 0x4A (by decide) rfl f rfl fun _ => rfl
theorem fsqrt (f : RWord) : Statement (.fsqrt f) := of_r 0x4B (by decide) rfl f rfl fun _ => rfl
theorem frcp (f : RWord) : Statement (.frcp f) := of_r 0x4C (by decide) rfl f rfl fun _ => rfl
theorem frsq (f : RWord) : Statement (.frsq f) := of_r 0x4D (by decide) rfl f rfl fun _ => rfl
theorem fex2 (f : RWord) : Statement (.fex2 f) := of_r 0x4E (by decide) rfl f rfl fun _ => rfl
theorem flg2 (f : RWord) : Statement (.flg2 f) := of_r 0x4F (by decide) rfl f rfl fun _ => rfl
theorem fsin (f : RWord) : Statement (.fsin f) := of_r 0x50 (by decide) rfl f rfl fun _ => rfl
theorem fcos (f : RWord) : Statement (.fcos f) := of_r 0x51 (by decide) rfl f rfl fun _ => rfl
theorem frnd (f : RWord) : Statement (.frnd f) := of_r 0x52 (by decide) rfl f rfl fun _ => rfl
theorem fscl (f : RWord) : Statement (.fscl f) := of_r 0x53 (by decide) rfl f rfl fun _ => rfl
theorem fgexp (f : RWord) : Statement (.fgexp f) := of_r 0x54 (by decide) rfl f rfl fun _ => rfl
theorem fcps (f : RWord) : Statement (.fcps f) := of_r 0x55 (by decide) rfl f rfl fun _ => rfl
theorem faddi (f : IWord) : Statement (.faddi f) := of_i 0x56 (by decide) rfl f rfl fun _ => rfl
theorem fmuli (f : IWord) : Statement (.fmuli f) := of_i 0x57 (by decide) rfl f rfl fun _ => rfl
theorem ffmai (f : IWord) : Statement (.ffmai f) := of_i 0x58 (by decide) rfl f rfl fun _ => rfl
theorem f2f (f : RWord) : Statement (.f2f f) := of_r 0x59 (by decide) rfl f rfl fun _ => rfl
theorem f2i (f : RWord) : Statement (.f2i f) := of_r 0x5A (by decide) rfl f rfl fun _ => rfl
theorem i2f (f : RWord) : Statement (.i2f f) := of_r 0x5B (by decide) rfl f rfl fun _ => rfl
theorem bpack (f : RWord) : Statement (.bpack f) := of_r 0x5C (by decide) rfl f rfl fun _ => rfl
theorem bunpk (f : RWord) : Statement (.bunpk f) := of_r 0x5D (by decide) rfl f rfl fun _ => rfl
theorem fdp2 (f : RWord) : Statement (.fdp2 f) := of_r 0x5E (by decide) rfl f rfl fun _ => rfl
theorem pairWord (f : PWord) : Statement (.pairWord f) :=
  statement_of_enc (.p f) rfl (toNat_lt_p f) (parse_p f) fun _ => rfl
theorem bra (f : BWord) : Statement (.bra f) := of_b 0x80 (by decide) rfl f rfl fun _ => rfl
theorem bkz (f : BWord) : Statement (.bkz f) := of_b 0x81 (by decide) rfl f rfl fun _ => rfl
theorem bknz (f : BWord) : Statement (.bknz f) := of_b 0x82 (by decide) rfl f rfl fun _ => rfl
theorem loop (f : BWord) : Statement (.loop f) := of_b 0x8A (by decide) rfl f rfl fun _ => rfl
theorem jmpi (f : RWord) : Statement (.jmpi f) := of_r 0x83 (by decide) rfl f rfl fun _ => rfl
theorem call (f : BWord) : Statement (.call f) := of_b 0x84 (by decide) rfl f rfl fun _ => rfl
theorem calli (f : RWord) : Statement (.calli f) := of_r 0x85 (by decide) rfl f rfl fun _ => rfl
theorem ret (f : RWord) : Statement (.ret f) := of_r 0x86 (by decide) rfl f rfl fun _ => rfl
theorem regang (f : RWord) : Statement (.regang f) := of_r 0x87 (by decide) rfl f rfl fun _ => rfl
theorem ksync (f : RWord) : Statement (.ksync f) := of_r 0x88 (by decide) rfl f rfl fun _ => rfl
theorem exit (f : RWord) : Statement (.exit f) := of_r 0x89 (by decide) rfl f rfl fun _ => rfl
theorem mbld (f : RWord) : Statement (.mbld f) := of_r 0x90 (by decide) rfl f rfl fun _ => rfl
theorem mma (f : RWord) : Statement (.mma f) := of_r 0x91 (by decide) rfl f rfl fun _ => rfl
theorem mzro (f : RWord) : Statement (.mzro f) := of_r 0x92 (by decide) rfl f rfl fun _ => rfl
theorem mdrn (f : RWord) : Statement (.mdrn f) := of_r 0x93 (by decide) rfl f rfl fun _ => rfl
theorem mdrs (f : RWord) : Statement (.mdrs f) := of_r 0x94 (by decide) rfl f rfl fun _ => rfl
theorem mdrm (f : RWord) : Statement (.mdrm f) := of_r 0x95 (by decide) rfl f rfl fun _ => rfl
theorem mseq (f : RWord) : Statement (.mseq f) := of_r 0x96 (by decide) rfl f rfl fun _ => rfl
theorem mgrp (f : RWord) : Statement (.mgrp f) := of_r 0x97 (by decide) rfl f rfl fun _ => rfl
theorem merr (f : RWord) : Statement (.merr f) := of_r 0x98 (by decide) rfl f rfl fun _ => rfl
theorem mscl (f : RWord) : Statement (.mscl f) := of_r 0x99 (by decide) rfl f rfl fun _ => rfl
theorem mred (f : RWord) : Statement (.mred f) := of_r 0x9A (by decide) rfl f rfl fun _ => rfl
theorem ld (f : MWord) : Statement (.ld f) := of_m 0xA0 (by decide) rfl f rfl fun _ => rfl
theorem st (f : MWord) : Statement (.st f) := of_m 0xA1 (by decide) rfl f rfl fun _ => rfl
theorem pushs (f : RWord) : Statement (.pushs f) := of_r 0xA2 (by decide) rfl f rfl fun _ => rfl
theorem pops (f : RWord) : Statement (.pops f) := of_r 0xA3 (by decide) rfl f rfl fun _ => rfl
theorem atom (f : MWord) : Statement (.atom f) := of_m 0xA4 (by decide) rfl f rfl fun _ => rfl
theorem red (f : MWord) : Statement (.red f) := of_m 0xA5 (by decide) rfl f rfl fun _ => rfl
theorem cas (f : MWord) : Statement (.cas f) := of_m 0xA6 (by decide) rfl f rfl fun _ => rfl
theorem cmitT (f : RWord) : Statement (.cmitT f) := of_r 0xA7 (by decide) rfl f rfl fun h => by
  have h : (f.bare 0 && f.k == 0) = true := h
  have hm : f.m = 0 := by simp [RWord.bare] at h; exact h.1.1.2
  show (if f.m == 0 then some (Instr.cmitT f) else if f.m == 1 then some (Instr.cmitC f) else if f.m == 2 then some (Instr.cmitD f) else none) = _
  rw [hm]; rfl
theorem cmitC (f : RWord) : Statement (.cmitC f) := of_r 0xA7 (by decide) rfl f rfl fun h => by
  have h : (f.bare 1 && f.k == 0) = true := h
  have hm : f.m = 1 := by simp [RWord.bare] at h; exact Fin.ext h.1.1.2
  show (if f.m == 0 then some (Instr.cmitT f) else if f.m == 1 then some (Instr.cmitC f) else if f.m == 2 then some (Instr.cmitD f) else none) = _
  rw [hm]; rfl
theorem cmitD (f : RWord) : Statement (.cmitD f) := of_r 0xA7 (by decide) rfl f rfl fun h => by
  have h : (f.bare 2 && f.k == 0) = true := h
  have hm : f.m = 2 := by simp [RWord.bare] at h; exact Fin.ext h.1.1.2
  show (if f.m == 0 then some (Instr.cmitT f) else if f.m == 1 then some (Instr.cmitC f) else if f.m == 2 then some (Instr.cmitD f) else none) = _
  rw [hm]; rfl
theorem abrtG (f : BWord) : Statement (.abrtG f) := of_b 0xA8 (by decide) rfl f rfl fun h => by
  have h : (f.cc == .eq && !f.pt && f.kt == 0 && f.st == 0) = true := h
  have hm : f.cc = .eq := by simp at h; exact h.1.1.1
  show (if f.cc == .eq then some (Instr.abrtG f) else some (Instr.abrtT f)) = _
  rw [hm]; rfl
theorem abrtT (f : BWord) : Statement (.abrtT f) := of_b 0xA8 (by decide) rfl f rfl fun h => by
  have h : (f.cc == .ne && !f.pt && f.kt == 0 && f.st == 0) = true := h
  have hm : f.cc = .ne := by simp at h; exact h.1.1.1
  show (if f.cc == .eq then some (Instr.abrtG f) else some (Instr.abrtT f)) = _
  rw [hm]; rfl
theorem rfshT (f : RWord) : Statement (.rfshT f) := of_r 0xA9 (by decide) rfl f rfl fun h => by
  have h : (f.bare 0 && f.k == 0) = true := h
  have hm : f.m = 0 := by simp [RWord.bare] at h; exact h.1.1.2
  show (if f.m == 0 then some (Instr.rfshT f) else if f.m == 2 then some (Instr.rfshD f) else none) = _
  rw [hm]; rfl
theorem rfshD (f : RWord) : Statement (.rfshD f) := of_r 0xA9 (by decide) rfl f rfl fun h => by
  have h : (f.bare 2 && f.k == 0) = true := h
  have hm : f.m = 2 := by simp [RWord.bare] at h; exact Fin.ext h.1.1.2
  show (if f.m == 0 then some (Instr.rfshT f) else if f.m == 2 then some (Instr.rfshD f) else none) = _
  rw [hm]; rfl
theorem fence (f : RWord) : Statement (.fence f) := of_r 0xAA (by decide) rfl f rfl fun _ => rfl
theorem cpy (f : RWord) : Statement (.cpy f) := of_r 0xB0 (by decide) rfl f rfl fun _ => rfl
theorem gthr (f : RWord) : Statement (.gthr f) := of_r 0xB1 (by decide) rfl f rfl fun _ => rfl
theorem sctr (f : RWord) : Statement (.sctr f) := of_r 0xB2 (by decide) rfl f rfl fun _ => rfl
theorem cpyc (f : RWord) : Statement (.cpyc f) := of_r 0xB3 (by decide) rfl f rfl fun _ => rfl
theorem mcst (f : RWord) : Statement (.mcst f) := of_r 0xB4 (by decide) rfl f rfl fun _ => rfl
theorem csto (f : RWord) : Statement (.csto f) := of_r 0xB5 (by decide) rfl f rfl fun _ => rfl
theorem cldx (f : RWord) : Statement (.cldx f) := of_r 0xB6 (by decide) rfl f rfl fun _ => rfl
theorem pfch (f : RWord) : Statement (.pfch f) := of_r 0xB7 (by decide) rfl f rfl fun _ => rfl
theorem bulk (f : RWord) : Statement (.bulk f) := of_r 0xB8 (by decide) rfl f rfl fun _ => rfl
theorem coll (f : RWord) : Statement (.coll f) := of_r 0xB9 (by decide) rfl f rfl fun _ => rfl
theorem qinit (f : RWord) : Statement (.qinit f) := of_r 0xC0 (by decide) rfl f rfl fun _ => rfl
theorem qpush (f : RWord) : Statement (.qpush f) := of_r 0xC1 (by decide) rfl f rfl fun _ => rfl
theorem qpop (f : RWord) : Statement (.qpop f) := of_r 0xC2 (by decide) rfl f rfl fun _ => rfl
theorem qpeek (f : RWord) : Statement (.qpeek f) := of_r 0xC3 (by decide) rfl f rfl fun _ => rfl
theorem qrel (f : RWord) : Statement (.qrel f) := of_r 0xC4 (by decide) rfl f rfl fun _ => rfl
theorem emit (f : RWord) : Statement (.emit f) := of_r 0xC5 (by decide) rfl f rfl fun _ => rfl
theorem trig (f : RWord) : Statement (.trig f) := of_r 0xC6 (by decide) rfl f rfl fun _ => rfl
theorem launch (f : RWord) : Statement (.launch f) := of_r 0xC7 (by decide) rfl f rfl fun _ => rfl
theorem lwait (f : RWord) : Statement (.lwait f) := of_r 0xC8 (by decide) rfl f rfl fun h => by
  have h : (f.k == 0 && f.ty == .b32 && f.plain && f.lo == 0 && f.m == 0 && f.d.isS && f.a.isS && f.un [.b, .c]) = true := h
  have hm : f.m = 0 := by simp at h; simp_all
  show (if f.m == 0 then some (Instr.lwait f) else if f.m == 1 then some (Instr.lwaitCancel f) else none) = _
  rw [hm]; rfl
theorem lwaitCancel (f : RWord) : Statement (.lwaitCancel f) := of_r 0xC8 (by decide) rfl f rfl fun h => by
  have h : (f.k == 0 && f.ty == .b32 && f.plain && f.lo == 0 && f.m == 1 && f.d.isS && f.a.isS && f.un [.b, .c]) = true := h
  have hm : f.m = 1 := by simp at h; simp_all
  show (if f.m == 0 then some (Instr.lwait f) else if f.m == 1 then some (Instr.lwaitCancel f) else none) = _
  rw [hm]; rfl
theorem msgrd (f : RWord) : Statement (.msgrd f) := of_r 0xC9 (by decide) rfl f rfl fun _ => rfl
theorem msgwr (f : RWord) : Statement (.msgwr f) := of_r 0xCA (by decide) rfl f rfl fun _ => rfl
theorem vget (f : RWord) : Statement (.vget f) := of_r 0xD0 (by decide) rfl f rfl fun _ => rfl
theorem vstn (f : RWord) : Statement (.vstn f) := of_r 0xD1 (by decide) rfl f rfl fun _ => rfl
theorem vset (f : RWord) : Statement (.vset f) := of_r 0xD2 (by decide) rfl f rfl fun _ => rfl
theorem vins (f : RWord) : Statement (.vins f) := of_r 0xD3 (by decide) rfl f rfl fun _ => rfl
theorem vdel (f : RWord) : Statement (.vdel f) := of_r 0xD4 (by decide) rfl f rfl fun _ => rfl
theorem vact (f : RWord) : Statement (.vact f) := of_r 0xD5 (by decide) rfl f rfl fun _ => rfl
theorem vleaf (f : RWord) : Statement (.vleaf f) := of_r 0xD6 (by decide) rfl f rfl fun h => by
  have h : (f.d.isS && f.a.isS && (if f.m == 0 then f.a.spanOk 3 && f.b.isS else f.b.isZ) && f.un [.c] && f.ty == .b32 && f.m < 2 && f.plain && f.lo == 0) = true := h
  have hm : f.m < 2 := by simp at h; simp_all
  have hm : (f.m == 2) = false := by
    cases he : f.m == 2 with
    | false => rfl
    | true => rw [eq_of_beq he] at hm; exact absurd hm (by decide)
  show (if f.m == 2 then some (Instr.vleafRel f) else some (Instr.vleaf f)) = _
  rw [hm]; rfl
theorem vleafRel (f : RWord) : Statement (.vleafRel f) := of_r 0xD6 (by decide) rfl f rfl fun h => by
  have h : (f.d.isZ && f.a.isS && f.b.isZ && f.un [.c] && f.ty == .b32 && f.m == 2 && f.plain && f.lo == 0) = true := h
  have hm : f.m = 2 := by simp at h; simp_all
  show (if f.m == 2 then some (Instr.vleafRel f) else some (Instr.vleaf f)) = _
  rw [hm]; rfl
theorem vmrc (f : RWord) : Statement (.vmrc f) := of_r 0xD7 (by decide) rfl f rfl fun _ => rfl
theorem halo (f : RWord) : Statement (.halo f) := of_r 0xD8 (by decide) rfl f rfl fun _ => rfl
theorem vsmp (f : RWord) : Statement (.vsmp f) := of_r 0xD9 (by decide) rfl f rfl fun _ => rfl
theorem rtrc (f : RWord) : Statement (.rtrc f) := of_r 0xE0 (by decide) rfl f rfl fun _ => rfl
theorem rcont (f : RWord) : Statement (.rcont f) := of_r 0xE1 (by decide) rfl f rfl fun h => by
  have h : (f.d.isV && f.d.isEven && f.d.spanOk 8 && f.a.isV && f.a.isEven && f.a.spanOk 4 && f.un [.b, .c] && f.ty == .b32 && f.m == 0 && f.plain && f.lo == 0) = true := h
  have hm : f.m = 0 := by simp at h; simp_all
  show (if f.m == 0 then some (Instr.rcont f) else if f.m == 1 then some (Instr.rcontKill f) else none) = _
  rw [hm]; rfl
theorem rcontKill (f : RWord) : Statement (.rcontKill f) := of_r 0xE1 (by decide) rfl f rfl fun h => by
  have h : (f.d.isV && f.d.isEven && f.d.spanOk 8 && f.a.isZ && f.un [.b, .c] && f.ty == .b32 && f.m == 1 && f.plain && f.lo == 0) = true := h
  have hm : f.m = 1 := by simp at h; simp_all
  show (if f.m == 0 then some (Instr.rcont f) else if f.m == 1 then some (Instr.rcontKill f) else none) = _
  rw [hm]; rfl
theorem rget (f : RWord) : Statement (.rget f) := of_r 0xE2 (by decide) rfl f rfl fun _ => rfl
theorem rlog (f : RWord) : Statement (.rlog f) := of_r 0xE3 (by decide) rfl f rfl fun _ => rfl
theorem rrpl (f : RWord) : Statement (.rrpl f) := of_r 0xE4 (by decide) rfl f rfl fun _ => rfl
theorem hinv (f : RWord) : Statement (.hinv f) := of_r 0xE5 (by decide) rfl f rfl fun _ => rfl
theorem bvhbBuild (f : RWord) : Statement (.bvhbBuild f) := of_r 0xE6 (by decide) rfl f rfl fun h => by
  have h : (f.d.isS && f.a.isZ && f.un [.b] && f.c.isS && f.c.isQuad && f.ty == .b32 && f.m == 0 && f.plain && f.lo == 0) = true := h
  have hm : f.m = 0 := by simp at h; simp_all
  show (if f.m == 0 then some (Instr.bvhbBuild f) else if f.m == 1 then some (Instr.bvhbRefit f) else none) = _
  rw [hm]; rfl
theorem bvhbRefit (f : RWord) : Statement (.bvhbRefit f) := of_r 0xE6 (by decide) rfl f rfl fun h => by
  have h : (f.d.isS && f.a.isZ && f.un [.b] && f.c.isS && f.c.isQuad && f.ty == .b32 && f.m == 1 && f.plain && f.lo == 0) = true := h
  have hm : f.m = 1 := by simp at h; simp_all
  show (if f.m == 0 then some (Instr.bvhbBuild f) else if f.m == 1 then some (Instr.bvhbRefit f) else none) = _
  rw [hm]; rfl
theorem bar (f : RWord) : Statement (.bar f) := of_r 0xE8 (by decide) rfl f rfl fun h => by
  have h : (f.bare 0 && f.k == 0) = true := h
  have hm : f.m = 0 := by simp [RWord.bare] at h; exact h.1.1.2
  show (if f.m == 0 then some (Instr.bar f) else if f.m == 1 then some (Instr.cbar f) else none) = _
  rw [hm]; rfl
theorem cbar (f : RWord) : Statement (.cbar f) := of_r 0xE8 (by decide) rfl f rfl fun h => by
  have h : (f.bare 1 && f.k == 0) = true := h
  have hm : f.m = 1 := by simp [RWord.bare] at h; exact Fin.ext h.1.1.2
  show (if f.m == 0 then some (Instr.bar f) else if f.m == 1 then some (Instr.cbar f) else none) = _
  rw [hm]; rfl
theorem arrv (f : RWord) : Statement (.arrv f) := of_r 0xE9 (by decide) rfl f rfl fun _ => rfl
theorem wait (f : RWord) : Statement (.wait f) := of_r 0xEA (by decide) rfl f rfl fun _ => rfl
theorem gbar (f : RWord) : Statement (.gbar f) := of_r 0xEB (by decide) rfl f rfl fun _ => rfl
theorem tsbar (f : RWord) : Statement (.tsbar f) := of_r 0xEC (by decide) rfl f rfl fun _ => rfl
theorem rng (f : RWord) : Statement (.rng f) := of_r 0xED (by decide) rfl f rfl fun _ => rfl
theorem cntr (f : RWord) : Statement (.cntr f) := of_r 0xEE (by decide) rfl f rfl fun _ => rfl
theorem cntc (f : RWord) : Statement (.cntc f) := of_r 0xEF (by decide) rfl f rfl fun _ => rfl
theorem trap (f : RWord) : Statement (.trap f) := of_r 0xF0 (by decide) rfl f rfl fun _ => rfl
theorem brk (f : RWord) : Statement (.brk f) := of_r 0xF1 (by decide) rfl f rfl fun _ => rfl
theorem csrr (f : RWord) : Statement (.csrr f) := of_r 0xF2 (by decide) rfl f rfl fun _ => rfl
theorem csrw (f : RWord) : Statement (.csrw f) := of_r 0xF3 (by decide) rfl f rfl fun _ => rfl
theorem iret (f : RWord) : Statement (.iret f) := of_r 0xF4 (by decide) rfl f rfl fun _ => rfl
theorem tlbi (f : RWord) : Statement (.tlbi f) := of_r 0xF5 (by decide) rfl f rfl fun _ => rfl
theorem halt (f : RWord) : Statement (.halt f) := of_r 0xF6 (by decide) rfl f rfl fun _ => rfl
theorem pendingResultReturn (gid idx : Nat) : Statement (.pendingResultReturn gid idx) := statement_of_event rfl
theorem teamTrap (tid : Nat) : Statement (.teamTrap tid) := statement_of_event rfl
theorem admitTeam (core : Nat) : Statement (.admitTeam core) := statement_of_event rfl
theorem groupRetire (gid : Nat) : Statement (.groupRetire gid) := statement_of_event rfl
theorem gridComplete (lid : Nat) : Statement (.gridComplete lid) := statement_of_event rfl
theorem promote (ctx : Nat) : Statement (.promote ctx) := statement_of_event rfl
theorem roundApply (lid : Nat) : Statement (.roundApply lid) := statement_of_event rfl
theorem teamCollectiveMatch (tid : Nat) : Statement (.teamCollectiveMatch tid) := statement_of_event rfl
theorem teamPhaseComplete (tid : Nat) : Statement (.teamPhaseComplete tid) := statement_of_event rfl
theorem cbarRelease (lid cluster : Nat) : Statement (.cbarRelease lid cluster) := statement_of_event rfl
theorem dIntervalClose (lid : Nat) : Statement (.dIntervalClose lid) := statement_of_event rfl
theorem tileOpComplete (gid : Nat) : Statement (.tileOpComplete gid) := statement_of_event rfl
theorem copyComplete (op : Nat) : Statement (.copyComplete op) := statement_of_event rfl
theorem bulkChunkComplete (op : Nat) : Statement (.bulkChunkComplete op) := statement_of_event rfl
theorem copySuspend (op : Nat) : Statement (.copySuspend op) := statement_of_event rfl
theorem copyFail (op : Nat) : Statement (.copyFail op) := statement_of_event rfl
theorem collStepComplete (ctx entry step : Nat) : Statement (.collStepComplete ctx entry step) := statement_of_event rfl
theorem collTimeout (ctx entry step : Nat) : Statement (.collTimeout ctx entry step) := statement_of_event rfl
theorem rampWindowRollover (core : Nat) : Statement (.rampWindowRollover core) := statement_of_event rfl
theorem timeSliceExpire (ctx : Nat) : Statement (.timeSliceExpire ctx) := statement_of_event rfl
theorem worldSwitchOut (ctx : Nat) : Statement (.worldSwitchOut ctx) := statement_of_event rfl
theorem worldSwitchIn (ctx : Nat) : Statement (.worldSwitchIn ctx) := statement_of_event rfl
theorem migration (ctx lcore phys : Nat) : Statement (.migration ctx lcore phys) := statement_of_event rfl
theorem forward (core ctx lcore : Nat) : Statement (.forward core ctx lcore) := statement_of_event rfl
theorem controlInterrupt (ctx : Nat) : Statement (.controlInterrupt ctx) := statement_of_event rfl
theorem teamctlResume (ctx team : Nat) : Statement (.teamctlResume ctx team) := statement_of_event rfl
theorem teamctlTerminate (ctx team : Nat) : Statement (.teamctlTerminate ctx team) := statement_of_event rfl
theorem cpyctlResume (ctx opid : Nat) : Statement (.cpyctlResume ctx opid) := statement_of_event rfl
theorem cpyctlCancel (ctx opid : Nat) : Statement (.cpyctlCancel ctx opid) := statement_of_event rfl
theorem create (ctx : Nat) (f : CtxFields) : Statement (.create ctx f) := statement_of_event rfl
theorem load (ctx addr len : Nat) : Statement (.load ctx addr len) := statement_of_event rfl
theorem start (ctx : Nat) : Statement (.start ctx) := statement_of_event rfl
theorem stop (ctx : Nat) : Statement (.stop ctx) := statement_of_event rfl
theorem destroy (ctx : Nat) : Statement (.destroy ctx) := statement_of_event rfl
theorem checkpoint (ctx : Nat) : Statement (.checkpoint ctx) := statement_of_event rfl
theorem quietPointCapture (ctx : Nat) : Statement (.quietPointCapture ctx) := statement_of_event rfl
theorem restore (ctx image : Nat) : Statement (.restore ctx image) := statement_of_event rfl
theorem query (ctx : Nat) : Statement (.query ctx) := statement_of_event rfl
theorem intailWrite (ctx : Nat) (v : W32) : Statement (.intailWrite ctx v) := statement_of_event rfl
theorem outackWrite (ctx : Nat) (v : W32) (clrOvr : Bool) : Statement (.outackWrite ctx v clrOvr) := statement_of_event rfl
theorem packetReceive (p : Packet) : Statement (.packetReceive p) := statement_of_event rfl
theorem flitReceive (f : Flit) : Statement (.flitReceive f) := statement_of_event rfl
theorem ident : Statement (.ident) := statement_of_event rfl
theorem power : Statement (.power) := statement_of_event rfl
theorem logs : Statement (.logs) := statement_of_event rfl
theorem counters (ctx : Nat) (consent : Bool) : Statement (.counters ctx consent) := statement_of_event rfl
theorem debugStop (tid : Nat) : Statement (.debugStop tid) := statement_of_event rfl
theorem debugImageAccess (gid : Nat) (acc : ImgAccess) : Statement (.debugImageAccess gid acc) := statement_of_event rfl
theorem debugSingleStep (gid : Nat) : Statement (.debugSingleStep gid) := statement_of_event rfl
theorem debugStepBack (gid : Nat) : Statement (.debugStepBack gid) := statement_of_event rfl
theorem debugResume (tid : Nat) : Statement (.debugResume tid) := statement_of_event rfl
theorem debugToken (bytes : List Byte) : Statement (.debugToken bytes) := statement_of_event rfl
theorem fuseAdvance : Statement (.fuseAdvance) := statement_of_event rfl
theorem warmReset : Statement (.warmReset) := statement_of_event rfl
theorem coldReset (images : List FwImage) : Statement (.coldReset images) := statement_of_event rfl
theorem thermalStop (die : Nat) : Statement (.thermalStop die) := statement_of_event rfl
theorem uncorrectableError (t : ErrTarget) : Statement (.uncorrectableError t) := statement_of_event rfl
theorem scratchpadPoison (tid : Nat) (e : Strike) : Statement (.scratchpadPoison tid e) := statement_of_event rfl
theorem counterOverflow (ctx core n : Nat) : Statement (.counterOverflow ctx core n) := statement_of_event rfl
theorem issueSlot : Statement (.issueSlot) := statement_of_event rfl
theorem thermalClockLowering (die : Nat) : Statement (.thermalClockLowering die) := statement_of_event rfl

end Sys2Proof.Laws.Encoding
end

