-- ==== Sys2Proof/Laws/State.lean ====
section
/-! SUPPORT. What each update of a State leaves in each field: one equation per field per update, so that no proof unfolds a record
update. -/

namespace Sys2Proof.Machine

/-! ### putG -/

@[simp] theorem State.putG_cycle (s : State) (k : Nat) (g : Group) : (s.putG k g).cycle = s.cycle := rfl
@[simp] theorem State.putG_inputs (s : State) (k : Nat) (g : Group) : (s.putG k g).inputs = s.inputs := rfl
@[simp] theorem State.putG_cur (s : State) (k : Nat) (g : Group) : (s.putG k g).cur = s.cur := rfl
@[simp] theorem State.putG_slots (s : State) (k : Nat) (g : Group) : (s.putG k g).slots = s.slots := rfl
@[simp] theorem State.putG_pointers (s : State) (k : Nat) (g : Group) : (s.putG k g).pointers = s.pointers := rfl
@[simp] theorem State.putG_mem (s : State) (k : Nat) (g : Group) : (s.putG k g).mem = s.mem := rfl
@[simp] theorem State.putG_memPoison (s : State) (k : Nat) (g : Group) : (s.putG k g).memPoison = s.memPoison := rfl
@[simp] theorem State.putG_ctxs (s : State) (k : Nat) (g : Group) : (s.putG k g).ctxs = s.ctxs := rfl
@[simp] theorem State.putG_launches (s : State) (k : Nat) (g : Group) : (s.putG k g).launches = s.launches := rfl
@[simp] theorem State.putG_teams (s : State) (k : Nat) (g : Group) : (s.putG k g).teams = s.teams := rfl
@[simp] theorem State.putG_groups (s : State) (k : Nat) (g : Group) : (s.putG k g).groups = tput k g s.groups := rfl
@[simp] theorem State.putG_ops (s : State) (k : Nat) (g : Group) : (s.putG k g).ops = s.ops := rfl
@[simp] theorem State.putG_nextOp (s : State) (k : Nat) (g : Group) : (s.putG k g).nextOp = s.nextOp := rfl
@[simp] theorem State.putG_bces (s : State) (k : Nat) (g : Group) : (s.putG k g).bces = s.bces := rfl
@[simp] theorem State.putG_tree (s : State) (k : Nat) (g : Group) : (s.putG k g).tree = s.tree := rfl
@[simp] theorem State.putG_counters (s : State) (k : Nat) (g : Group) : (s.putG k g).counters = s.counters := rfl
@[simp] theorem State.putG_counterCfg (s : State) (k : Nat) (g : Group) : (s.putG k g).counterCfg = s.counterCfg := rfl
@[simp] theorem State.putG_counterOvf (s : State) (k : Nat) (g : Group) : (s.putG k g).counterOvf = s.counterOvf := rfl
@[simp] theorem State.putG_ramp (s : State) (k : Nat) (g : Group) : (s.putG k g).ramp = s.ramp := rfl
@[simp] theorem State.putG_rampPrev (s : State) (k : Nat) (g : Group) : (s.putG k g).rampPrev = s.rampPrev := rfl
@[simp] theorem State.putG_msc (s : State) (k : Nat) (g : Group) : (s.putG k g).msc = s.msc := rfl
@[simp] theorem State.putG_aster (s : State) (k : Nat) (g : Group) : (s.putG k g).aster = s.aster := rfl
@[simp] theorem State.putG_leafCache (s : State) (k : Nat) (g : Group) : (s.putG k g).leafCache = s.leafCache := rfl
@[simp] theorem State.putG_ghosts (s : State) (k : Nat) (g : Group) : (s.putG k g).ghosts = s.ghosts := rfl
@[simp] theorem State.putG_tcache (s : State) (k : Nat) (g : Group) : (s.putG k g).tcache = s.tcache := rfl
@[simp] theorem State.putG_forwards (s : State) (k : Nat) (g : Group) : (s.putG k g).forwards = s.forwards := rfl
@[simp] theorem State.putG_forwarded (s : State) (k : Nat) (g : Group) : (s.putG k g).forwarded = s.forwarded := rfl
@[simp] theorem State.putG_walks (s : State) (k : Nat) (g : Group) : (s.putG k g).walks = s.walks := rfl
@[simp] theorem State.putG_images (s : State) (k : Nat) (g : Group) : (s.putG k g).images = s.images := rfl
@[simp] theorem State.putG_errors (s : State) (k : Nat) (g : Group) : (s.putG k g).errors = s.errors := rfl
@[simp] theorem State.putG_cores (s : State) (k : Nat) (g : Group) : (s.putG k g).cores = s.cores := rfl
@[simp] theorem State.putG_fuse (s : State) (k : Nat) (g : Group) : (s.putG k g).fuse = s.fuse := rfl
@[simp] theorem State.putG_grants (s : State) (k : Nat) (g : Group) : (s.putG k g).grants = s.grants := rfl
@[simp] theorem State.putG_nonceNo (s : State) (k : Nat) (g : Group) : (s.putG k g).nonceNo = s.nonceNo := rfl
@[simp] theorem State.putG_nonceUsed (s : State) (k : Nat) (g : Group) : (s.putG k g).nonceUsed = s.nonceUsed := rfl
@[simp] theorem State.putG_clockLow (s : State) (k : Nat) (g : Group) : (s.putG k g).clockLow = s.clockLow := rfl
@[simp] theorem State.putG_dropped (s : State) (k : Nat) (g : Group) : (s.putG k g).dropped = s.dropped := rfl
@[simp] theorem State.putG_reports (s : State) (k : Nat) (g : Group) : (s.putG k g).reports = s.reports := rfl
@[simp] theorem State.putG_bootHalted (s : State) (k : Nat) (g : Group) : (s.putG k g).bootHalted = s.bootHalted := rfl
@[simp] theorem State.putG_portAddr (s : State) (k : Nat) (g : Group) : (s.putG k g).portAddr = s.portAddr := rfl
@[simp] theorem State.putG_moduleId (s : State) (k : Nat) (g : Group) : (s.putG k g).moduleId = s.moduleId := rfl
@[simp] theorem State.putG_flitSeq (s : State) (k : Nat) (g : Group) : (s.putG k g).flitSeq = s.flitSeq := rfl
@[simp] theorem State.putG_measured (s : State) (k : Nat) (g : Group) : (s.putG k g).measured = s.measured := rfl
@[simp] theorem State.putG_attested (s : State) (k : Nat) (g : Group) : (s.putG k g).attested = s.attested := rfl
@[simp] theorem State.putG_fwUnlock (s : State) (k : Nat) (g : Group) : (s.putG k g).fwUnlock = s.fwUnlock := rfl
@[simp] theorem State.putG_fwTrace (s : State) (k : Nat) (g : Group) : (s.putG k g).fwTrace = s.fwTrace := rfl
@[simp] theorem State.putG_freeCtr (s : State) (k : Nat) (g : Group) : (s.putG k g).freeCtr = s.freeCtr := rfl

/-! ### putT -/

@[simp] theorem State.putT_cycle (s : State) (k : Nat) (t : Team) : (s.putT k t).cycle = s.cycle := rfl
@[simp] theorem State.putT_inputs (s : State) (k : Nat) (t : Team) : (s.putT k t).inputs = s.inputs := rfl
@[simp] theorem State.putT_cur (s : State) (k : Nat) (t : Team) : (s.putT k t).cur = s.cur := rfl
@[simp] theorem State.putT_slots (s : State) (k : Nat) (t : Team) : (s.putT k t).slots = s.slots := rfl
@[simp] theorem State.putT_pointers (s : State) (k : Nat) (t : Team) : (s.putT k t).pointers = s.pointers := rfl
@[simp] theorem State.putT_mem (s : State) (k : Nat) (t : Team) : (s.putT k t).mem = s.mem := rfl
@[simp] theorem State.putT_memPoison (s : State) (k : Nat) (t : Team) : (s.putT k t).memPoison = s.memPoison := rfl
@[simp] theorem State.putT_ctxs (s : State) (k : Nat) (t : Team) : (s.putT k t).ctxs = s.ctxs := rfl
@[simp] theorem State.putT_launches (s : State) (k : Nat) (t : Team) : (s.putT k t).launches = s.launches := rfl
@[simp] theorem State.putT_teams (s : State) (k : Nat) (t : Team) : (s.putT k t).teams = tput k t s.teams := rfl
@[simp] theorem State.putT_groups (s : State) (k : Nat) (t : Team) : (s.putT k t).groups = s.groups := rfl
@[simp] theorem State.putT_ops (s : State) (k : Nat) (t : Team) : (s.putT k t).ops = s.ops := rfl
@[simp] theorem State.putT_nextOp (s : State) (k : Nat) (t : Team) : (s.putT k t).nextOp = s.nextOp := rfl
@[simp] theorem State.putT_bces (s : State) (k : Nat) (t : Team) : (s.putT k t).bces = s.bces := rfl
@[simp] theorem State.putT_tree (s : State) (k : Nat) (t : Team) : (s.putT k t).tree = s.tree := rfl
@[simp] theorem State.putT_counters (s : State) (k : Nat) (t : Team) : (s.putT k t).counters = s.counters := rfl
@[simp] theorem State.putT_counterCfg (s : State) (k : Nat) (t : Team) : (s.putT k t).counterCfg = s.counterCfg := rfl
@[simp] theorem State.putT_counterOvf (s : State) (k : Nat) (t : Team) : (s.putT k t).counterOvf = s.counterOvf := rfl
@[simp] theorem State.putT_ramp (s : State) (k : Nat) (t : Team) : (s.putT k t).ramp = s.ramp := rfl
@[simp] theorem State.putT_rampPrev (s : State) (k : Nat) (t : Team) : (s.putT k t).rampPrev = s.rampPrev := rfl
@[simp] theorem State.putT_msc (s : State) (k : Nat) (t : Team) : (s.putT k t).msc = s.msc := rfl
@[simp] theorem State.putT_aster (s : State) (k : Nat) (t : Team) : (s.putT k t).aster = s.aster := rfl
@[simp] theorem State.putT_leafCache (s : State) (k : Nat) (t : Team) : (s.putT k t).leafCache = s.leafCache := rfl
@[simp] theorem State.putT_ghosts (s : State) (k : Nat) (t : Team) : (s.putT k t).ghosts = s.ghosts := rfl
@[simp] theorem State.putT_tcache (s : State) (k : Nat) (t : Team) : (s.putT k t).tcache = s.tcache := rfl
@[simp] theorem State.putT_forwards (s : State) (k : Nat) (t : Team) : (s.putT k t).forwards = s.forwards := rfl
@[simp] theorem State.putT_forwarded (s : State) (k : Nat) (t : Team) : (s.putT k t).forwarded = s.forwarded := rfl
@[simp] theorem State.putT_walks (s : State) (k : Nat) (t : Team) : (s.putT k t).walks = s.walks := rfl
@[simp] theorem State.putT_images (s : State) (k : Nat) (t : Team) : (s.putT k t).images = s.images := rfl
@[simp] theorem State.putT_errors (s : State) (k : Nat) (t : Team) : (s.putT k t).errors = s.errors := rfl
@[simp] theorem State.putT_cores (s : State) (k : Nat) (t : Team) : (s.putT k t).cores = s.cores := rfl
@[simp] theorem State.putT_fuse (s : State) (k : Nat) (t : Team) : (s.putT k t).fuse = s.fuse := rfl
@[simp] theorem State.putT_grants (s : State) (k : Nat) (t : Team) : (s.putT k t).grants = s.grants := rfl
@[simp] theorem State.putT_nonceNo (s : State) (k : Nat) (t : Team) : (s.putT k t).nonceNo = s.nonceNo := rfl
@[simp] theorem State.putT_nonceUsed (s : State) (k : Nat) (t : Team) : (s.putT k t).nonceUsed = s.nonceUsed := rfl
@[simp] theorem State.putT_clockLow (s : State) (k : Nat) (t : Team) : (s.putT k t).clockLow = s.clockLow := rfl
@[simp] theorem State.putT_dropped (s : State) (k : Nat) (t : Team) : (s.putT k t).dropped = s.dropped := rfl
@[simp] theorem State.putT_reports (s : State) (k : Nat) (t : Team) : (s.putT k t).reports = s.reports := rfl
@[simp] theorem State.putT_bootHalted (s : State) (k : Nat) (t : Team) : (s.putT k t).bootHalted = s.bootHalted := rfl
@[simp] theorem State.putT_portAddr (s : State) (k : Nat) (t : Team) : (s.putT k t).portAddr = s.portAddr := rfl
@[simp] theorem State.putT_moduleId (s : State) (k : Nat) (t : Team) : (s.putT k t).moduleId = s.moduleId := rfl
@[simp] theorem State.putT_flitSeq (s : State) (k : Nat) (t : Team) : (s.putT k t).flitSeq = s.flitSeq := rfl
@[simp] theorem State.putT_measured (s : State) (k : Nat) (t : Team) : (s.putT k t).measured = s.measured := rfl
@[simp] theorem State.putT_attested (s : State) (k : Nat) (t : Team) : (s.putT k t).attested = s.attested := rfl
@[simp] theorem State.putT_fwUnlock (s : State) (k : Nat) (t : Team) : (s.putT k t).fwUnlock = s.fwUnlock := rfl
@[simp] theorem State.putT_fwTrace (s : State) (k : Nat) (t : Team) : (s.putT k t).fwTrace = s.fwTrace := rfl
@[simp] theorem State.putT_freeCtr (s : State) (k : Nat) (t : Team) : (s.putT k t).freeCtr = s.freeCtr := rfl

/-! ### putL -/

@[simp] theorem State.putL_cycle (s : State) (k : Nat) (l : Launch) : (s.putL k l).cycle = s.cycle := rfl
@[simp] theorem State.putL_inputs (s : State) (k : Nat) (l : Launch) : (s.putL k l).inputs = s.inputs := rfl
@[simp] theorem State.putL_cur (s : State) (k : Nat) (l : Launch) : (s.putL k l).cur = s.cur := rfl
@[simp] theorem State.putL_slots (s : State) (k : Nat) (l : Launch) : (s.putL k l).slots = s.slots := rfl
@[simp] theorem State.putL_pointers (s : State) (k : Nat) (l : Launch) : (s.putL k l).pointers = s.pointers := rfl
@[simp] theorem State.putL_mem (s : State) (k : Nat) (l : Launch) : (s.putL k l).mem = s.mem := rfl
@[simp] theorem State.putL_memPoison (s : State) (k : Nat) (l : Launch) : (s.putL k l).memPoison = s.memPoison := rfl
@[simp] theorem State.putL_ctxs (s : State) (k : Nat) (l : Launch) : (s.putL k l).ctxs = s.ctxs := rfl
@[simp] theorem State.putL_launches (s : State) (k : Nat) (l : Launch) : (s.putL k l).launches = tput k l s.launches := rfl
@[simp] theorem State.putL_teams (s : State) (k : Nat) (l : Launch) : (s.putL k l).teams = s.teams := rfl
@[simp] theorem State.putL_groups (s : State) (k : Nat) (l : Launch) : (s.putL k l).groups = s.groups := rfl
@[simp] theorem State.putL_ops (s : State) (k : Nat) (l : Launch) : (s.putL k l).ops = s.ops := rfl
@[simp] theorem State.putL_nextOp (s : State) (k : Nat) (l : Launch) : (s.putL k l).nextOp = s.nextOp := rfl
@[simp] theorem State.putL_bces (s : State) (k : Nat) (l : Launch) : (s.putL k l).bces = s.bces := rfl
@[simp] theorem State.putL_tree (s : State) (k : Nat) (l : Launch) : (s.putL k l).tree = s.tree := rfl
@[simp] theorem State.putL_counters (s : State) (k : Nat) (l : Launch) : (s.putL k l).counters = s.counters := rfl
@[simp] theorem State.putL_counterCfg (s : State) (k : Nat) (l : Launch) : (s.putL k l).counterCfg = s.counterCfg := rfl
@[simp] theorem State.putL_counterOvf (s : State) (k : Nat) (l : Launch) : (s.putL k l).counterOvf = s.counterOvf := rfl
@[simp] theorem State.putL_ramp (s : State) (k : Nat) (l : Launch) : (s.putL k l).ramp = s.ramp := rfl
@[simp] theorem State.putL_rampPrev (s : State) (k : Nat) (l : Launch) : (s.putL k l).rampPrev = s.rampPrev := rfl
@[simp] theorem State.putL_msc (s : State) (k : Nat) (l : Launch) : (s.putL k l).msc = s.msc := rfl
@[simp] theorem State.putL_aster (s : State) (k : Nat) (l : Launch) : (s.putL k l).aster = s.aster := rfl
@[simp] theorem State.putL_leafCache (s : State) (k : Nat) (l : Launch) : (s.putL k l).leafCache = s.leafCache := rfl
@[simp] theorem State.putL_ghosts (s : State) (k : Nat) (l : Launch) : (s.putL k l).ghosts = s.ghosts := rfl
@[simp] theorem State.putL_tcache (s : State) (k : Nat) (l : Launch) : (s.putL k l).tcache = s.tcache := rfl
@[simp] theorem State.putL_forwards (s : State) (k : Nat) (l : Launch) : (s.putL k l).forwards = s.forwards := rfl
@[simp] theorem State.putL_forwarded (s : State) (k : Nat) (l : Launch) : (s.putL k l).forwarded = s.forwarded := rfl
@[simp] theorem State.putL_walks (s : State) (k : Nat) (l : Launch) : (s.putL k l).walks = s.walks := rfl
@[simp] theorem State.putL_images (s : State) (k : Nat) (l : Launch) : (s.putL k l).images = s.images := rfl
@[simp] theorem State.putL_errors (s : State) (k : Nat) (l : Launch) : (s.putL k l).errors = s.errors := rfl
@[simp] theorem State.putL_cores (s : State) (k : Nat) (l : Launch) : (s.putL k l).cores = s.cores := rfl
@[simp] theorem State.putL_fuse (s : State) (k : Nat) (l : Launch) : (s.putL k l).fuse = s.fuse := rfl
@[simp] theorem State.putL_grants (s : State) (k : Nat) (l : Launch) : (s.putL k l).grants = s.grants := rfl
@[simp] theorem State.putL_nonceNo (s : State) (k : Nat) (l : Launch) : (s.putL k l).nonceNo = s.nonceNo := rfl
@[simp] theorem State.putL_nonceUsed (s : State) (k : Nat) (l : Launch) : (s.putL k l).nonceUsed = s.nonceUsed := rfl
@[simp] theorem State.putL_clockLow (s : State) (k : Nat) (l : Launch) : (s.putL k l).clockLow = s.clockLow := rfl
@[simp] theorem State.putL_dropped (s : State) (k : Nat) (l : Launch) : (s.putL k l).dropped = s.dropped := rfl
@[simp] theorem State.putL_reports (s : State) (k : Nat) (l : Launch) : (s.putL k l).reports = s.reports := rfl
@[simp] theorem State.putL_bootHalted (s : State) (k : Nat) (l : Launch) : (s.putL k l).bootHalted = s.bootHalted := rfl
@[simp] theorem State.putL_portAddr (s : State) (k : Nat) (l : Launch) : (s.putL k l).portAddr = s.portAddr := rfl
@[simp] theorem State.putL_moduleId (s : State) (k : Nat) (l : Launch) : (s.putL k l).moduleId = s.moduleId := rfl
@[simp] theorem State.putL_flitSeq (s : State) (k : Nat) (l : Launch) : (s.putL k l).flitSeq = s.flitSeq := rfl
@[simp] theorem State.putL_measured (s : State) (k : Nat) (l : Launch) : (s.putL k l).measured = s.measured := rfl
@[simp] theorem State.putL_attested (s : State) (k : Nat) (l : Launch) : (s.putL k l).attested = s.attested := rfl
@[simp] theorem State.putL_fwUnlock (s : State) (k : Nat) (l : Launch) : (s.putL k l).fwUnlock = s.fwUnlock := rfl
@[simp] theorem State.putL_fwTrace (s : State) (k : Nat) (l : Launch) : (s.putL k l).fwTrace = s.fwTrace := rfl
@[simp] theorem State.putL_freeCtr (s : State) (k : Nat) (l : Launch) : (s.putL k l).freeCtr = s.freeCtr := rfl

/-! ### putC -/

@[simp] theorem State.putC_cycle (s : State) (k : Nat) (c : Ctx) : (s.putC k c).cycle = s.cycle := rfl
@[simp] theorem State.putC_inputs (s : State) (k : Nat) (c : Ctx) : (s.putC k c).inputs = s.inputs := rfl
@[simp] theorem State.putC_cur (s : State) (k : Nat) (c : Ctx) : (s.putC k c).cur = s.cur := rfl
@[simp] theorem State.putC_slots (s : State) (k : Nat) (c : Ctx) : (s.putC k c).slots = s.slots := rfl
@[simp] theorem State.putC_pointers (s : State) (k : Nat) (c : Ctx) : (s.putC k c).pointers = s.pointers := rfl
@[simp] theorem State.putC_mem (s : State) (k : Nat) (c : Ctx) : (s.putC k c).mem = s.mem := rfl
@[simp] theorem State.putC_memPoison (s : State) (k : Nat) (c : Ctx) : (s.putC k c).memPoison = s.memPoison := rfl
@[simp] theorem State.putC_ctxs (s : State) (k : Nat) (c : Ctx) : (s.putC k c).ctxs = tput k c s.ctxs := rfl
@[simp] theorem State.putC_launches (s : State) (k : Nat) (c : Ctx) : (s.putC k c).launches = s.launches := rfl
@[simp] theorem State.putC_teams (s : State) (k : Nat) (c : Ctx) : (s.putC k c).teams = s.teams := rfl
@[simp] theorem State.putC_groups (s : State) (k : Nat) (c : Ctx) : (s.putC k c).groups = s.groups := rfl
@[simp] theorem State.putC_ops (s : State) (k : Nat) (c : Ctx) : (s.putC k c).ops = s.ops := rfl
@[simp] theorem State.putC_nextOp (s : State) (k : Nat) (c : Ctx) : (s.putC k c).nextOp = s.nextOp := rfl
@[simp] theorem State.putC_bces (s : State) (k : Nat) (c : Ctx) : (s.putC k c).bces = s.bces := rfl
@[simp] theorem State.putC_tree (s : State) (k : Nat) (c : Ctx) : (s.putC k c).tree = s.tree := rfl
@[simp] theorem State.putC_counters (s : State) (k : Nat) (c : Ctx) : (s.putC k c).counters = s.counters := rfl
@[simp] theorem State.putC_counterCfg (s : State) (k : Nat) (c : Ctx) : (s.putC k c).counterCfg = s.counterCfg := rfl
@[simp] theorem State.putC_counterOvf (s : State) (k : Nat) (c : Ctx) : (s.putC k c).counterOvf = s.counterOvf := rfl
@[simp] theorem State.putC_ramp (s : State) (k : Nat) (c : Ctx) : (s.putC k c).ramp = s.ramp := rfl
@[simp] theorem State.putC_rampPrev (s : State) (k : Nat) (c : Ctx) : (s.putC k c).rampPrev = s.rampPrev := rfl
@[simp] theorem State.putC_msc (s : State) (k : Nat) (c : Ctx) : (s.putC k c).msc = s.msc := rfl
@[simp] theorem State.putC_aster (s : State) (k : Nat) (c : Ctx) : (s.putC k c).aster = s.aster := rfl
@[simp] theorem State.putC_leafCache (s : State) (k : Nat) (c : Ctx) : (s.putC k c).leafCache = s.leafCache := rfl
@[simp] theorem State.putC_ghosts (s : State) (k : Nat) (c : Ctx) : (s.putC k c).ghosts = s.ghosts := rfl
@[simp] theorem State.putC_tcache (s : State) (k : Nat) (c : Ctx) : (s.putC k c).tcache = s.tcache := rfl
@[simp] theorem State.putC_forwards (s : State) (k : Nat) (c : Ctx) : (s.putC k c).forwards = s.forwards := rfl
@[simp] theorem State.putC_forwarded (s : State) (k : Nat) (c : Ctx) : (s.putC k c).forwarded = s.forwarded := rfl
@[simp] theorem State.putC_walks (s : State) (k : Nat) (c : Ctx) : (s.putC k c).walks = s.walks := rfl
@[simp] theorem State.putC_images (s : State) (k : Nat) (c : Ctx) : (s.putC k c).images = s.images := rfl
@[simp] theorem State.putC_errors (s : State) (k : Nat) (c : Ctx) : (s.putC k c).errors = s.errors := rfl
@[simp] theorem State.putC_cores (s : State) (k : Nat) (c : Ctx) : (s.putC k c).cores = s.cores := rfl
@[simp] theorem State.putC_fuse (s : State) (k : Nat) (c : Ctx) : (s.putC k c).fuse = s.fuse := rfl
@[simp] theorem State.putC_grants (s : State) (k : Nat) (c : Ctx) : (s.putC k c).grants = s.grants := rfl
@[simp] theorem State.putC_nonceNo (s : State) (k : Nat) (c : Ctx) : (s.putC k c).nonceNo = s.nonceNo := rfl
@[simp] theorem State.putC_nonceUsed (s : State) (k : Nat) (c : Ctx) : (s.putC k c).nonceUsed = s.nonceUsed := rfl
@[simp] theorem State.putC_clockLow (s : State) (k : Nat) (c : Ctx) : (s.putC k c).clockLow = s.clockLow := rfl
@[simp] theorem State.putC_dropped (s : State) (k : Nat) (c : Ctx) : (s.putC k c).dropped = s.dropped := rfl
@[simp] theorem State.putC_reports (s : State) (k : Nat) (c : Ctx) : (s.putC k c).reports = s.reports := rfl
@[simp] theorem State.putC_bootHalted (s : State) (k : Nat) (c : Ctx) : (s.putC k c).bootHalted = s.bootHalted := rfl
@[simp] theorem State.putC_portAddr (s : State) (k : Nat) (c : Ctx) : (s.putC k c).portAddr = s.portAddr := rfl
@[simp] theorem State.putC_moduleId (s : State) (k : Nat) (c : Ctx) : (s.putC k c).moduleId = s.moduleId := rfl
@[simp] theorem State.putC_flitSeq (s : State) (k : Nat) (c : Ctx) : (s.putC k c).flitSeq = s.flitSeq := rfl
@[simp] theorem State.putC_measured (s : State) (k : Nat) (c : Ctx) : (s.putC k c).measured = s.measured := rfl
@[simp] theorem State.putC_attested (s : State) (k : Nat) (c : Ctx) : (s.putC k c).attested = s.attested := rfl
@[simp] theorem State.putC_fwUnlock (s : State) (k : Nat) (c : Ctx) : (s.putC k c).fwUnlock = s.fwUnlock := rfl
@[simp] theorem State.putC_fwTrace (s : State) (k : Nat) (c : Ctx) : (s.putC k c).fwTrace = s.fwTrace := rfl
@[simp] theorem State.putC_freeCtr (s : State) (k : Nat) (c : Ctx) : (s.putC k c).freeCtr = s.freeCtr := rfl

/-! ### modG -/

@[simp] theorem State.modG_cycle (s : State) (k : Nat) (f : Group → Group) : (s.modG k f).cycle = s.cycle := rfl
@[simp] theorem State.modG_inputs (s : State) (k : Nat) (f : Group → Group) : (s.modG k f).inputs = s.inputs := rfl
@[simp] theorem State.modG_cur (s : State) (k : Nat) (f : Group → Group) : (s.modG k f).cur = s.cur := rfl
@[simp] theorem State.modG_slots (s : State) (k : Nat) (f : Group → Group) : (s.modG k f).slots = s.slots := rfl
@[simp] theorem State.modG_pointers (s : State) (k : Nat) (f : Group → Group) : (s.modG k f).pointers = s.pointers := rfl
@[simp] theorem State.modG_mem (s : State) (k : Nat) (f : Group → Group) : (s.modG k f).mem = s.mem := rfl
@[simp] theorem State.modG_memPoison (s : State) (k : Nat) (f : Group → Group) : (s.modG k f).memPoison = s.memPoison := rfl
@[simp] theorem State.modG_ctxs (s : State) (k : Nat) (f : Group → Group) : (s.modG k f).ctxs = s.ctxs := rfl
@[simp] theorem State.modG_launches (s : State) (k : Nat) (f : Group → Group) : (s.modG k f).launches = s.launches := rfl
@[simp] theorem State.modG_teams (s : State) (k : Nat) (f : Group → Group) : (s.modG k f).teams = s.teams := rfl
@[simp] theorem State.modG_groups (s : State) (k : Nat) (f : Group → Group) : (s.modG k f).groups = tmod k f s.groups := rfl
@[simp] theorem State.modG_ops (s : State) (k : Nat) (f : Group → Group) : (s.modG k f).ops = s.ops := rfl
@[simp] theorem State.modG_nextOp (s : State) (k : Nat) (f : Group → Group) : (s.modG k f).nextOp = s.nextOp := rfl
@[simp] theorem State.modG_bces (s : State) (k : Nat) (f : Group → Group) : (s.modG k f).bces = s.bces := rfl
@[simp] theorem State.modG_tree (s : State) (k : Nat) (f : Group → Group) : (s.modG k f).tree = s.tree := rfl
@[simp] theorem State.modG_counters (s : State) (k : Nat) (f : Group → Group) : (s.modG k f).counters = s.counters := rfl
@[simp] theorem State.modG_counterCfg (s : State) (k : Nat) (f : Group → Group) : (s.modG k f).counterCfg = s.counterCfg := rfl
@[simp] theorem State.modG_counterOvf (s : State) (k : Nat) (f : Group → Group) : (s.modG k f).counterOvf = s.counterOvf := rfl
@[simp] theorem State.modG_ramp (s : State) (k : Nat) (f : Group → Group) : (s.modG k f).ramp = s.ramp := rfl
@[simp] theorem State.modG_rampPrev (s : State) (k : Nat) (f : Group → Group) : (s.modG k f).rampPrev = s.rampPrev := rfl
@[simp] theorem State.modG_msc (s : State) (k : Nat) (f : Group → Group) : (s.modG k f).msc = s.msc := rfl
@[simp] theorem State.modG_aster (s : State) (k : Nat) (f : Group → Group) : (s.modG k f).aster = s.aster := rfl
@[simp] theorem State.modG_leafCache (s : State) (k : Nat) (f : Group → Group) : (s.modG k f).leafCache = s.leafCache := rfl
@[simp] theorem State.modG_ghosts (s : State) (k : Nat) (f : Group → Group) : (s.modG k f).ghosts = s.ghosts := rfl
@[simp] theorem State.modG_tcache (s : State) (k : Nat) (f : Group → Group) : (s.modG k f).tcache = s.tcache := rfl
@[simp] theorem State.modG_forwards (s : State) (k : Nat) (f : Group → Group) : (s.modG k f).forwards = s.forwards := rfl
@[simp] theorem State.modG_forwarded (s : State) (k : Nat) (f : Group → Group) : (s.modG k f).forwarded = s.forwarded := rfl
@[simp] theorem State.modG_walks (s : State) (k : Nat) (f : Group → Group) : (s.modG k f).walks = s.walks := rfl
@[simp] theorem State.modG_images (s : State) (k : Nat) (f : Group → Group) : (s.modG k f).images = s.images := rfl
@[simp] theorem State.modG_errors (s : State) (k : Nat) (f : Group → Group) : (s.modG k f).errors = s.errors := rfl
@[simp] theorem State.modG_cores (s : State) (k : Nat) (f : Group → Group) : (s.modG k f).cores = s.cores := rfl
@[simp] theorem State.modG_fuse (s : State) (k : Nat) (f : Group → Group) : (s.modG k f).fuse = s.fuse := rfl
@[simp] theorem State.modG_grants (s : State) (k : Nat) (f : Group → Group) : (s.modG k f).grants = s.grants := rfl
@[simp] theorem State.modG_nonceNo (s : State) (k : Nat) (f : Group → Group) : (s.modG k f).nonceNo = s.nonceNo := rfl
@[simp] theorem State.modG_nonceUsed (s : State) (k : Nat) (f : Group → Group) : (s.modG k f).nonceUsed = s.nonceUsed := rfl
@[simp] theorem State.modG_clockLow (s : State) (k : Nat) (f : Group → Group) : (s.modG k f).clockLow = s.clockLow := rfl
@[simp] theorem State.modG_dropped (s : State) (k : Nat) (f : Group → Group) : (s.modG k f).dropped = s.dropped := rfl
@[simp] theorem State.modG_reports (s : State) (k : Nat) (f : Group → Group) : (s.modG k f).reports = s.reports := rfl
@[simp] theorem State.modG_bootHalted (s : State) (k : Nat) (f : Group → Group) : (s.modG k f).bootHalted = s.bootHalted := rfl
@[simp] theorem State.modG_portAddr (s : State) (k : Nat) (f : Group → Group) : (s.modG k f).portAddr = s.portAddr := rfl
@[simp] theorem State.modG_moduleId (s : State) (k : Nat) (f : Group → Group) : (s.modG k f).moduleId = s.moduleId := rfl
@[simp] theorem State.modG_flitSeq (s : State) (k : Nat) (f : Group → Group) : (s.modG k f).flitSeq = s.flitSeq := rfl
@[simp] theorem State.modG_measured (s : State) (k : Nat) (f : Group → Group) : (s.modG k f).measured = s.measured := rfl
@[simp] theorem State.modG_attested (s : State) (k : Nat) (f : Group → Group) : (s.modG k f).attested = s.attested := rfl
@[simp] theorem State.modG_fwUnlock (s : State) (k : Nat) (f : Group → Group) : (s.modG k f).fwUnlock = s.fwUnlock := rfl
@[simp] theorem State.modG_fwTrace (s : State) (k : Nat) (f : Group → Group) : (s.modG k f).fwTrace = s.fwTrace := rfl
@[simp] theorem State.modG_freeCtr (s : State) (k : Nat) (f : Group → Group) : (s.modG k f).freeCtr = s.freeCtr := rfl

/-! ### modT -/

@[simp] theorem State.modT_cycle (s : State) (k : Nat) (f : Team → Team) : (s.modT k f).cycle = s.cycle := rfl
@[simp] theorem State.modT_inputs (s : State) (k : Nat) (f : Team → Team) : (s.modT k f).inputs = s.inputs := rfl
@[simp] theorem State.modT_cur (s : State) (k : Nat) (f : Team → Team) : (s.modT k f).cur = s.cur := rfl
@[simp] theorem State.modT_slots (s : State) (k : Nat) (f : Team → Team) : (s.modT k f).slots = s.slots := rfl
@[simp] theorem State.modT_pointers (s : State) (k : Nat) (f : Team → Team) : (s.modT k f).pointers = s.pointers := rfl
@[simp] theorem State.modT_mem (s : State) (k : Nat) (f : Team → Team) : (s.modT k f).mem = s.mem := rfl
@[simp] theorem State.modT_memPoison (s : State) (k : Nat) (f : Team → Team) : (s.modT k f).memPoison = s.memPoison := rfl
@[simp] theorem State.modT_ctxs (s : State) (k : Nat) (f : Team → Team) : (s.modT k f).ctxs = s.ctxs := rfl
@[simp] theorem State.modT_launches (s : State) (k : Nat) (f : Team → Team) : (s.modT k f).launches = s.launches := rfl
@[simp] theorem State.modT_teams (s : State) (k : Nat) (f : Team → Team) : (s.modT k f).teams = tmod k f s.teams := rfl
@[simp] theorem State.modT_groups (s : State) (k : Nat) (f : Team → Team) : (s.modT k f).groups = s.groups := rfl
@[simp] theorem State.modT_ops (s : State) (k : Nat) (f : Team → Team) : (s.modT k f).ops = s.ops := rfl
@[simp] theorem State.modT_nextOp (s : State) (k : Nat) (f : Team → Team) : (s.modT k f).nextOp = s.nextOp := rfl
@[simp] theorem State.modT_bces (s : State) (k : Nat) (f : Team → Team) : (s.modT k f).bces = s.bces := rfl
@[simp] theorem State.modT_tree (s : State) (k : Nat) (f : Team → Team) : (s.modT k f).tree = s.tree := rfl
@[simp] theorem State.modT_counters (s : State) (k : Nat) (f : Team → Team) : (s.modT k f).counters = s.counters := rfl
@[simp] theorem State.modT_counterCfg (s : State) (k : Nat) (f : Team → Team) : (s.modT k f).counterCfg = s.counterCfg := rfl
@[simp] theorem State.modT_counterOvf (s : State) (k : Nat) (f : Team → Team) : (s.modT k f).counterOvf = s.counterOvf := rfl
@[simp] theorem State.modT_ramp (s : State) (k : Nat) (f : Team → Team) : (s.modT k f).ramp = s.ramp := rfl
@[simp] theorem State.modT_rampPrev (s : State) (k : Nat) (f : Team → Team) : (s.modT k f).rampPrev = s.rampPrev := rfl
@[simp] theorem State.modT_msc (s : State) (k : Nat) (f : Team → Team) : (s.modT k f).msc = s.msc := rfl
@[simp] theorem State.modT_aster (s : State) (k : Nat) (f : Team → Team) : (s.modT k f).aster = s.aster := rfl
@[simp] theorem State.modT_leafCache (s : State) (k : Nat) (f : Team → Team) : (s.modT k f).leafCache = s.leafCache := rfl
@[simp] theorem State.modT_ghosts (s : State) (k : Nat) (f : Team → Team) : (s.modT k f).ghosts = s.ghosts := rfl
@[simp] theorem State.modT_tcache (s : State) (k : Nat) (f : Team → Team) : (s.modT k f).tcache = s.tcache := rfl
@[simp] theorem State.modT_forwards (s : State) (k : Nat) (f : Team → Team) : (s.modT k f).forwards = s.forwards := rfl
@[simp] theorem State.modT_forwarded (s : State) (k : Nat) (f : Team → Team) : (s.modT k f).forwarded = s.forwarded := rfl
@[simp] theorem State.modT_walks (s : State) (k : Nat) (f : Team → Team) : (s.modT k f).walks = s.walks := rfl
@[simp] theorem State.modT_images (s : State) (k : Nat) (f : Team → Team) : (s.modT k f).images = s.images := rfl
@[simp] theorem State.modT_errors (s : State) (k : Nat) (f : Team → Team) : (s.modT k f).errors = s.errors := rfl
@[simp] theorem State.modT_cores (s : State) (k : Nat) (f : Team → Team) : (s.modT k f).cores = s.cores := rfl
@[simp] theorem State.modT_fuse (s : State) (k : Nat) (f : Team → Team) : (s.modT k f).fuse = s.fuse := rfl
@[simp] theorem State.modT_grants (s : State) (k : Nat) (f : Team → Team) : (s.modT k f).grants = s.grants := rfl
@[simp] theorem State.modT_nonceNo (s : State) (k : Nat) (f : Team → Team) : (s.modT k f).nonceNo = s.nonceNo := rfl
@[simp] theorem State.modT_nonceUsed (s : State) (k : Nat) (f : Team → Team) : (s.modT k f).nonceUsed = s.nonceUsed := rfl
@[simp] theorem State.modT_clockLow (s : State) (k : Nat) (f : Team → Team) : (s.modT k f).clockLow = s.clockLow := rfl
@[simp] theorem State.modT_dropped (s : State) (k : Nat) (f : Team → Team) : (s.modT k f).dropped = s.dropped := rfl
@[simp] theorem State.modT_reports (s : State) (k : Nat) (f : Team → Team) : (s.modT k f).reports = s.reports := rfl
@[simp] theorem State.modT_bootHalted (s : State) (k : Nat) (f : Team → Team) : (s.modT k f).bootHalted = s.bootHalted := rfl
@[simp] theorem State.modT_portAddr (s : State) (k : Nat) (f : Team → Team) : (s.modT k f).portAddr = s.portAddr := rfl
@[simp] theorem State.modT_moduleId (s : State) (k : Nat) (f : Team → Team) : (s.modT k f).moduleId = s.moduleId := rfl
@[simp] theorem State.modT_flitSeq (s : State) (k : Nat) (f : Team → Team) : (s.modT k f).flitSeq = s.flitSeq := rfl
@[simp] theorem State.modT_measured (s : State) (k : Nat) (f : Team → Team) : (s.modT k f).measured = s.measured := rfl
@[simp] theorem State.modT_attested (s : State) (k : Nat) (f : Team → Team) : (s.modT k f).attested = s.attested := rfl
@[simp] theorem State.modT_fwUnlock (s : State) (k : Nat) (f : Team → Team) : (s.modT k f).fwUnlock = s.fwUnlock := rfl
@[simp] theorem State.modT_fwTrace (s : State) (k : Nat) (f : Team → Team) : (s.modT k f).fwTrace = s.fwTrace := rfl
@[simp] theorem State.modT_freeCtr (s : State) (k : Nat) (f : Team → Team) : (s.modT k f).freeCtr = s.freeCtr := rfl

/-! ### modL -/

@[simp] theorem State.modL_cycle (s : State) (k : Nat) (f : Launch → Launch) : (s.modL k f).cycle = s.cycle := rfl
@[simp] theorem State.modL_inputs (s : State) (k : Nat) (f : Launch → Launch) : (s.modL k f).inputs = s.inputs := rfl
@[simp] theorem State.modL_cur (s : State) (k : Nat) (f : Launch → Launch) : (s.modL k f).cur = s.cur := rfl
@[simp] theorem State.modL_slots (s : State) (k : Nat) (f : Launch → Launch) : (s.modL k f).slots = s.slots := rfl
@[simp] theorem State.modL_pointers (s : State) (k : Nat) (f : Launch → Launch) : (s.modL k f).pointers = s.pointers := rfl
@[simp] theorem State.modL_mem (s : State) (k : Nat) (f : Launch → Launch) : (s.modL k f).mem = s.mem := rfl
@[simp] theorem State.modL_memPoison (s : State) (k : Nat) (f : Launch → Launch) : (s.modL k f).memPoison = s.memPoison := rfl
@[simp] theorem State.modL_ctxs (s : State) (k : Nat) (f : Launch → Launch) : (s.modL k f).ctxs = s.ctxs := rfl
@[simp] theorem State.modL_launches (s : State) (k : Nat) (f : Launch → Launch) : (s.modL k f).launches = tmod k f s.launches := rfl
@[simp] theorem State.modL_teams (s : State) (k : Nat) (f : Launch → Launch) : (s.modL k f).teams = s.teams := rfl
@[simp] theorem State.modL_groups (s : State) (k : Nat) (f : Launch → Launch) : (s.modL k f).groups = s.groups := rfl
@[simp] theorem State.modL_ops (s : State) (k : Nat) (f : Launch → Launch) : (s.modL k f).ops = s.ops := rfl
@[simp] theorem State.modL_nextOp (s : State) (k : Nat) (f : Launch → Launch) : (s.modL k f).nextOp = s.nextOp := rfl
@[simp] theorem State.modL_bces (s : State) (k : Nat) (f : Launch → Launch) : (s.modL k f).bces = s.bces := rfl
@[simp] theorem State.modL_tree (s : State) (k : Nat) (f : Launch → Launch) : (s.modL k f).tree = s.tree := rfl
@[simp] theorem State.modL_counters (s : State) (k : Nat) (f : Launch → Launch) : (s.modL k f).counters = s.counters := rfl
@[simp] theorem State.modL_counterCfg (s : State) (k : Nat) (f : Launch → Launch) : (s.modL k f).counterCfg = s.counterCfg := rfl
@[simp] theorem State.modL_counterOvf (s : State) (k : Nat) (f : Launch → Launch) : (s.modL k f).counterOvf = s.counterOvf := rfl
@[simp] theorem State.modL_ramp (s : State) (k : Nat) (f : Launch → Launch) : (s.modL k f).ramp = s.ramp := rfl
@[simp] theorem State.modL_rampPrev (s : State) (k : Nat) (f : Launch → Launch) : (s.modL k f).rampPrev = s.rampPrev := rfl
@[simp] theorem State.modL_msc (s : State) (k : Nat) (f : Launch → Launch) : (s.modL k f).msc = s.msc := rfl
@[simp] theorem State.modL_aster (s : State) (k : Nat) (f : Launch → Launch) : (s.modL k f).aster = s.aster := rfl
@[simp] theorem State.modL_leafCache (s : State) (k : Nat) (f : Launch → Launch) : (s.modL k f).leafCache = s.leafCache := rfl
@[simp] theorem State.modL_ghosts (s : State) (k : Nat) (f : Launch → Launch) : (s.modL k f).ghosts = s.ghosts := rfl
@[simp] theorem State.modL_tcache (s : State) (k : Nat) (f : Launch → Launch) : (s.modL k f).tcache = s.tcache := rfl
@[simp] theorem State.modL_forwards (s : State) (k : Nat) (f : Launch → Launch) : (s.modL k f).forwards = s.forwards := rfl
@[simp] theorem State.modL_forwarded (s : State) (k : Nat) (f : Launch → Launch) : (s.modL k f).forwarded = s.forwarded := rfl
@[simp] theorem State.modL_walks (s : State) (k : Nat) (f : Launch → Launch) : (s.modL k f).walks = s.walks := rfl
@[simp] theorem State.modL_images (s : State) (k : Nat) (f : Launch → Launch) : (s.modL k f).images = s.images := rfl
@[simp] theorem State.modL_errors (s : State) (k : Nat) (f : Launch → Launch) : (s.modL k f).errors = s.errors := rfl
@[simp] theorem State.modL_cores (s : State) (k : Nat) (f : Launch → Launch) : (s.modL k f).cores = s.cores := rfl
@[simp] theorem State.modL_fuse (s : State) (k : Nat) (f : Launch → Launch) : (s.modL k f).fuse = s.fuse := rfl
@[simp] theorem State.modL_grants (s : State) (k : Nat) (f : Launch → Launch) : (s.modL k f).grants = s.grants := rfl
@[simp] theorem State.modL_nonceNo (s : State) (k : Nat) (f : Launch → Launch) : (s.modL k f).nonceNo = s.nonceNo := rfl
@[simp] theorem State.modL_nonceUsed (s : State) (k : Nat) (f : Launch → Launch) : (s.modL k f).nonceUsed = s.nonceUsed := rfl
@[simp] theorem State.modL_clockLow (s : State) (k : Nat) (f : Launch → Launch) : (s.modL k f).clockLow = s.clockLow := rfl
@[simp] theorem State.modL_dropped (s : State) (k : Nat) (f : Launch → Launch) : (s.modL k f).dropped = s.dropped := rfl
@[simp] theorem State.modL_reports (s : State) (k : Nat) (f : Launch → Launch) : (s.modL k f).reports = s.reports := rfl
@[simp] theorem State.modL_bootHalted (s : State) (k : Nat) (f : Launch → Launch) : (s.modL k f).bootHalted = s.bootHalted := rfl
@[simp] theorem State.modL_portAddr (s : State) (k : Nat) (f : Launch → Launch) : (s.modL k f).portAddr = s.portAddr := rfl
@[simp] theorem State.modL_moduleId (s : State) (k : Nat) (f : Launch → Launch) : (s.modL k f).moduleId = s.moduleId := rfl
@[simp] theorem State.modL_flitSeq (s : State) (k : Nat) (f : Launch → Launch) : (s.modL k f).flitSeq = s.flitSeq := rfl
@[simp] theorem State.modL_measured (s : State) (k : Nat) (f : Launch → Launch) : (s.modL k f).measured = s.measured := rfl
@[simp] theorem State.modL_attested (s : State) (k : Nat) (f : Launch → Launch) : (s.modL k f).attested = s.attested := rfl
@[simp] theorem State.modL_fwUnlock (s : State) (k : Nat) (f : Launch → Launch) : (s.modL k f).fwUnlock = s.fwUnlock := rfl
@[simp] theorem State.modL_fwTrace (s : State) (k : Nat) (f : Launch → Launch) : (s.modL k f).fwTrace = s.fwTrace := rfl
@[simp] theorem State.modL_freeCtr (s : State) (k : Nat) (f : Launch → Launch) : (s.modL k f).freeCtr = s.freeCtr := rfl

/-! ### modC -/

@[simp] theorem State.modC_cycle (s : State) (k : Nat) (f : Ctx → Ctx) : (s.modC k f).cycle = s.cycle := rfl
@[simp] theorem State.modC_inputs (s : State) (k : Nat) (f : Ctx → Ctx) : (s.modC k f).inputs = s.inputs := rfl
@[simp] theorem State.modC_cur (s : State) (k : Nat) (f : Ctx → Ctx) : (s.modC k f).cur = s.cur := rfl
@[simp] theorem State.modC_slots (s : State) (k : Nat) (f : Ctx → Ctx) : (s.modC k f).slots = s.slots := rfl
@[simp] theorem State.modC_pointers (s : State) (k : Nat) (f : Ctx → Ctx) : (s.modC k f).pointers = s.pointers := rfl
@[simp] theorem State.modC_mem (s : State) (k : Nat) (f : Ctx → Ctx) : (s.modC k f).mem = s.mem := rfl
@[simp] theorem State.modC_memPoison (s : State) (k : Nat) (f : Ctx → Ctx) : (s.modC k f).memPoison = s.memPoison := rfl
@[simp] theorem State.modC_ctxs (s : State) (k : Nat) (f : Ctx → Ctx) : (s.modC k f).ctxs = tmod k f s.ctxs := rfl
@[simp] theorem State.modC_launches (s : State) (k : Nat) (f : Ctx → Ctx) : (s.modC k f).launches = s.launches := rfl
@[simp] theorem State.modC_teams (s : State) (k : Nat) (f : Ctx → Ctx) : (s.modC k f).teams = s.teams := rfl
@[simp] theorem State.modC_groups (s : State) (k : Nat) (f : Ctx → Ctx) : (s.modC k f).groups = s.groups := rfl
@[simp] theorem State.modC_ops (s : State) (k : Nat) (f : Ctx → Ctx) : (s.modC k f).ops = s.ops := rfl
@[simp] theorem State.modC_nextOp (s : State) (k : Nat) (f : Ctx → Ctx) : (s.modC k f).nextOp = s.nextOp := rfl
@[simp] theorem State.modC_bces (s : State) (k : Nat) (f : Ctx → Ctx) : (s.modC k f).bces = s.bces := rfl
@[simp] theorem State.modC_tree (s : State) (k : Nat) (f : Ctx → Ctx) : (s.modC k f).tree = s.tree := rfl
@[simp] theorem State.modC_counters (s : State) (k : Nat) (f : Ctx → Ctx) : (s.modC k f).counters = s.counters := rfl
@[simp] theorem State.modC_counterCfg (s : State) (k : Nat) (f : Ctx → Ctx) : (s.modC k f).counterCfg = s.counterCfg := rfl
@[simp] theorem State.modC_counterOvf (s : State) (k : Nat) (f : Ctx → Ctx) : (s.modC k f).counterOvf = s.counterOvf := rfl
@[simp] theorem State.modC_ramp (s : State) (k : Nat) (f : Ctx → Ctx) : (s.modC k f).ramp = s.ramp := rfl
@[simp] theorem State.modC_rampPrev (s : State) (k : Nat) (f : Ctx → Ctx) : (s.modC k f).rampPrev = s.rampPrev := rfl
@[simp] theorem State.modC_msc (s : State) (k : Nat) (f : Ctx → Ctx) : (s.modC k f).msc = s.msc := rfl
@[simp] theorem State.modC_aster (s : State) (k : Nat) (f : Ctx → Ctx) : (s.modC k f).aster = s.aster := rfl
@[simp] theorem State.modC_leafCache (s : State) (k : Nat) (f : Ctx → Ctx) : (s.modC k f).leafCache = s.leafCache := rfl
@[simp] theorem State.modC_ghosts (s : State) (k : Nat) (f : Ctx → Ctx) : (s.modC k f).ghosts = s.ghosts := rfl
@[simp] theorem State.modC_tcache (s : State) (k : Nat) (f : Ctx → Ctx) : (s.modC k f).tcache = s.tcache := rfl
@[simp] theorem State.modC_forwards (s : State) (k : Nat) (f : Ctx → Ctx) : (s.modC k f).forwards = s.forwards := rfl
@[simp] theorem State.modC_forwarded (s : State) (k : Nat) (f : Ctx → Ctx) : (s.modC k f).forwarded = s.forwarded := rfl
@[simp] theorem State.modC_walks (s : State) (k : Nat) (f : Ctx → Ctx) : (s.modC k f).walks = s.walks := rfl
@[simp] theorem State.modC_images (s : State) (k : Nat) (f : Ctx → Ctx) : (s.modC k f).images = s.images := rfl
@[simp] theorem State.modC_errors (s : State) (k : Nat) (f : Ctx → Ctx) : (s.modC k f).errors = s.errors := rfl
@[simp] theorem State.modC_cores (s : State) (k : Nat) (f : Ctx → Ctx) : (s.modC k f).cores = s.cores := rfl
@[simp] theorem State.modC_fuse (s : State) (k : Nat) (f : Ctx → Ctx) : (s.modC k f).fuse = s.fuse := rfl
@[simp] theorem State.modC_grants (s : State) (k : Nat) (f : Ctx → Ctx) : (s.modC k f).grants = s.grants := rfl
@[simp] theorem State.modC_nonceNo (s : State) (k : Nat) (f : Ctx → Ctx) : (s.modC k f).nonceNo = s.nonceNo := rfl
@[simp] theorem State.modC_nonceUsed (s : State) (k : Nat) (f : Ctx → Ctx) : (s.modC k f).nonceUsed = s.nonceUsed := rfl
@[simp] theorem State.modC_clockLow (s : State) (k : Nat) (f : Ctx → Ctx) : (s.modC k f).clockLow = s.clockLow := rfl
@[simp] theorem State.modC_dropped (s : State) (k : Nat) (f : Ctx → Ctx) : (s.modC k f).dropped = s.dropped := rfl
@[simp] theorem State.modC_reports (s : State) (k : Nat) (f : Ctx → Ctx) : (s.modC k f).reports = s.reports := rfl
@[simp] theorem State.modC_bootHalted (s : State) (k : Nat) (f : Ctx → Ctx) : (s.modC k f).bootHalted = s.bootHalted := rfl
@[simp] theorem State.modC_portAddr (s : State) (k : Nat) (f : Ctx → Ctx) : (s.modC k f).portAddr = s.portAddr := rfl
@[simp] theorem State.modC_moduleId (s : State) (k : Nat) (f : Ctx → Ctx) : (s.modC k f).moduleId = s.moduleId := rfl
@[simp] theorem State.modC_flitSeq (s : State) (k : Nat) (f : Ctx → Ctx) : (s.modC k f).flitSeq = s.flitSeq := rfl
@[simp] theorem State.modC_measured (s : State) (k : Nat) (f : Ctx → Ctx) : (s.modC k f).measured = s.measured := rfl
@[simp] theorem State.modC_attested (s : State) (k : Nat) (f : Ctx → Ctx) : (s.modC k f).attested = s.attested := rfl
@[simp] theorem State.modC_fwUnlock (s : State) (k : Nat) (f : Ctx → Ctx) : (s.modC k f).fwUnlock = s.fwUnlock := rfl
@[simp] theorem State.modC_fwTrace (s : State) (k : Nat) (f : Ctx → Ctx) : (s.modC k f).fwTrace = s.fwTrace := rfl
@[simp] theorem State.modC_freeCtr (s : State) (k : Nat) (f : Ctx → Ctx) : (s.modC k f).freeCtr = s.freeCtr := rfl

/-! ### report -/

@[simp] theorem State.report_cycle (s : State) (r : Report) : (s.report r).cycle = s.cycle := rfl
@[simp] theorem State.report_inputs (s : State) (r : Report) : (s.report r).inputs = s.inputs := rfl
@[simp] theorem State.report_cur (s : State) (r : Report) : (s.report r).cur = s.cur := rfl
@[simp] theorem State.report_slots (s : State) (r : Report) : (s.report r).slots = s.slots := rfl
@[simp] theorem State.report_pointers (s : State) (r : Report) : (s.report r).pointers = s.pointers := rfl
@[simp] theorem State.report_mem (s : State) (r : Report) : (s.report r).mem = s.mem := rfl
@[simp] theorem State.report_memPoison (s : State) (r : Report) : (s.report r).memPoison = s.memPoison := rfl
@[simp] theorem State.report_ctxs (s : State) (r : Report) : (s.report r).ctxs = s.ctxs := rfl
@[simp] theorem State.report_launches (s : State) (r : Report) : (s.report r).launches = s.launches := rfl
@[simp] theorem State.report_teams (s : State) (r : Report) : (s.report r).teams = s.teams := rfl
@[simp] theorem State.report_groups (s : State) (r : Report) : (s.report r).groups = s.groups := rfl
@[simp] theorem State.report_ops (s : State) (r : Report) : (s.report r).ops = s.ops := rfl
@[simp] theorem State.report_nextOp (s : State) (r : Report) : (s.report r).nextOp = s.nextOp := rfl
@[simp] theorem State.report_bces (s : State) (r : Report) : (s.report r).bces = s.bces := rfl
@[simp] theorem State.report_tree (s : State) (r : Report) : (s.report r).tree = s.tree := rfl
@[simp] theorem State.report_counters (s : State) (r : Report) : (s.report r).counters = s.counters := rfl
@[simp] theorem State.report_counterCfg (s : State) (r : Report) : (s.report r).counterCfg = s.counterCfg := rfl
@[simp] theorem State.report_counterOvf (s : State) (r : Report) : (s.report r).counterOvf = s.counterOvf := rfl
@[simp] theorem State.report_ramp (s : State) (r : Report) : (s.report r).ramp = s.ramp := rfl
@[simp] theorem State.report_rampPrev (s : State) (r : Report) : (s.report r).rampPrev = s.rampPrev := rfl
@[simp] theorem State.report_msc (s : State) (r : Report) : (s.report r).msc = s.msc := rfl
@[simp] theorem State.report_aster (s : State) (r : Report) : (s.report r).aster = s.aster := rfl
@[simp] theorem State.report_leafCache (s : State) (r : Report) : (s.report r).leafCache = s.leafCache := rfl
@[simp] theorem State.report_ghosts (s : State) (r : Report) : (s.report r).ghosts = s.ghosts := rfl
@[simp] theorem State.report_tcache (s : State) (r : Report) : (s.report r).tcache = s.tcache := rfl
@[simp] theorem State.report_forwards (s : State) (r : Report) : (s.report r).forwards = s.forwards := rfl
@[simp] theorem State.report_forwarded (s : State) (r : Report) : (s.report r).forwarded = s.forwarded := rfl
@[simp] theorem State.report_walks (s : State) (r : Report) : (s.report r).walks = s.walks := rfl
@[simp] theorem State.report_images (s : State) (r : Report) : (s.report r).images = s.images := rfl
@[simp] theorem State.report_errors (s : State) (r : Report) : (s.report r).errors = s.errors := rfl
@[simp] theorem State.report_cores (s : State) (r : Report) : (s.report r).cores = s.cores := rfl
@[simp] theorem State.report_fuse (s : State) (r : Report) : (s.report r).fuse = s.fuse := rfl
@[simp] theorem State.report_grants (s : State) (r : Report) : (s.report r).grants = s.grants := rfl
@[simp] theorem State.report_nonceNo (s : State) (r : Report) : (s.report r).nonceNo = s.nonceNo := rfl
@[simp] theorem State.report_nonceUsed (s : State) (r : Report) : (s.report r).nonceUsed = s.nonceUsed := rfl
@[simp] theorem State.report_clockLow (s : State) (r : Report) : (s.report r).clockLow = s.clockLow := rfl
@[simp] theorem State.report_dropped (s : State) (r : Report) : (s.report r).dropped = s.dropped := rfl
@[simp] theorem State.report_reports (s : State) (r : Report) : (s.report r).reports = s.reports ++ [r] := rfl
@[simp] theorem State.report_bootHalted (s : State) (r : Report) : (s.report r).bootHalted = s.bootHalted := rfl
@[simp] theorem State.report_portAddr (s : State) (r : Report) : (s.report r).portAddr = s.portAddr := rfl
@[simp] theorem State.report_moduleId (s : State) (r : Report) : (s.report r).moduleId = s.moduleId := rfl
@[simp] theorem State.report_flitSeq (s : State) (r : Report) : (s.report r).flitSeq = s.flitSeq := rfl
@[simp] theorem State.report_measured (s : State) (r : Report) : (s.report r).measured = s.measured := rfl
@[simp] theorem State.report_attested (s : State) (r : Report) : (s.report r).attested = s.attested := rfl
@[simp] theorem State.report_fwUnlock (s : State) (r : Report) : (s.report r).fwUnlock = s.fwUnlock := rfl
@[simp] theorem State.report_fwTrace (s : State) (r : Report) : (s.report r).fwTrace = s.fwTrace := rfl
@[simp] theorem State.report_freeCtr (s : State) (r : Report) : (s.report r).freeCtr = s.freeCtr := rfl

end Sys2Proof.Machine
end

