-- ==== Sys2Proof/Tests/Slice0.lean ====
section
/-! SUPPORT. Tests of the model, each a named theorem: words written out from the spec's encodings and what they decode
to, ill-formed terms that the checks refuse, single steps with results from the spec's worked examples, and for every
obligation states that meet its hypotheses (`witness_<name>`). -/

namespace Sys2Proof.Tests
open Sys2Proof Sys2Proof.Machine

/-! ### Decoding: words written out from the field tables (R35 to R39, R51) -/

theorem test_decode_moves :
    decodeTableWord 64 0x0000000000000000 = some (.nop {}) ∧
    decodeTableWord 64 0x0040561800000000 = some (.mov { d := .v 10, a := .k 3 }) ∧
    decodeTableWord 64 0x00802003FF800000 = some (.movi { d := .v 4, modi := 3, imm := 4286578688 }) ∧
    decodeTableWord 64 0x00C4280012345678 = some (.movh { d := .s 5, imm := 305419896 }) ∧
    decodeTableWord 64 0x0104181420020000 = some (.rdln { d := .s 3, a := .v 2, b := .s 4, ty := .n64 }) ∧
    decodeTableWord 64 0x01503C17F8000000 = some (.wrln { d := .v 7, a := .s 2, b := .zero, k := 2 }) ∧
    decodeTableWord 64 0x0180302C08001800 = some (.shfl { d := .v 6, a := .v 5, b := .s 1, m := 3 }) ∧
    decodeTableWord 64 0x01C008141E248000 = some (.sel { d := .v 1, a := .v 2, b := .s 3, c := .k 4, ty := .f32 }) :=
  by and_intros <;> rfl

theorem test_decode_integers :
    decodeTableWord 64 0x0200180C10008100 = some (.iadd { d := .v 3, a := .v 1, b := .s 2, ty := .i32, sat := true }) ∧
    decodeTableWord 64 0x0247FC0C10020001 = some (.isub { d := .zero, a := .s 1, b := .s 2, ty := .n64, lo := 1 }) ∧
    decodeTableWord 64 0x0280102030018000 = some (.imul { d := .v 2, a := .v 4, b := .v 6, ty := .i64 }) ∧
    decodeTableWord 64 0x02C0102430010000 = some (.imulh { d := .v 2, a := .v 4, b := .s 6, ty := .n32 }) ∧
    decodeTableWord 64 0x0300102034088080 = some (.imad { d := .v 2, a := .v 4, b := .v 6, c := .s 1, ty := .i32, negA := true }) ∧
    decodeTableWord 64 0x0340081018038000 = some (.imin { d := .v 1, a := .v 2, b := .v 3, ty := .i8x4 }) ∧
    decodeTableWord 64 0x03840C1418030000 = some (.imax { d := .s 1, a := .s 2, b := .s 3, ty := .n16x2 }) ∧
    decodeTableWord 64 0x03C0081000028000 = some (.iabs { d := .v 1, a := .v 2, ty := .i16x2 }) ∧
    decodeTableWord 64 0x0400081000008100 = some (.ineg { d := .v 1, a := .v 2, ty := .i32, sat := true }) ∧
    decodeTableWord 64 0x0780102030002000 = some (.lea { d := .v 2, a := .v 4, b := .v 6, m := 4 }) ∧
    decodeTableWord 64 0x0804ACA800000020 = some (.iaddi { d := .s 21, a := .s 21, imm := 32 }) ∧
    decodeTableWord 64 0x09C01021FFFFFFFD = some (.imuli { d := .v 2, a := .v 4, modi := 1, imm := 4294967293 }) :=
  by and_intros <;> rfl

theorem test_decode_logic :
    decodeTableWord 64 0x0440685060000040 = some (.and { d := .v 13, a := .v 10, b := .v 12, negB := true }) ∧
    decodeTableWord 64 0x0480081618000000 = some (.or { d := .v 1, a := .v 2, b := .k 3 }) ∧
    decodeTableWord 64 0x04C40C1418020000 = some (.xor { d := .s 1, a := .s 2, b := .s 3, ty := .n64 }) ∧
    decodeTableWord 64 0x0500081000000000 = some (.not { d := .v 1, a := .v 2, ty := .b32 }) ∧
    decodeTableWord 64 0x0540081018010000 = some (.shl { d := .v 1, a := .v 2, b := .v 3, ty := .n32 }) ∧
    decodeTableWord 64 0x0580081418010000 = some (.shr { d := .v 1, a := .v 2, b := .s 3, ty := .n32 }) ∧
    decodeTableWord 64 0x05C40C1418018000 = some (.sar { d := .s 1, a := .s 2, b := .s 3, ty := .i64 }) ∧
    decodeTableWord 64 0x0600081418000000 = some (.rot { d := .v 1, a := .v 2, b := .s 3 }) ∧
    decodeTableWord 64 0x06400E8000000000 = some (.popc { d := .v 1, a := .sp .lane }) ∧
    decodeTableWord 64 0x06840C1000020000 = some (.clz { d := .s 1, a := .s 2, ty := .n64 }) ∧
    decodeTableWord 64 0x06C0081000000000 = some (.brev { d := .v 1, a := .v 2 }) ∧
    decodeTableWord 64 0x070008141C208000 = some (.bfx { d := .v 1, a := .v 2, b := .s 3, c := .s 4, ty := .i32 }) ∧
    decodeTableWord 64 0x074008141C200000 = some (.bfi { d := .v 1, a := .v 2, b := .s 3, c := .s 4 }) ∧
    decodeTableWord 64 0x08400810000000FF = some (.andi { d := .v 1, a := .v 2, imm := 255 }) ∧
    decodeTableWord 64 0x08840C1380000000 = some (.ori { d := .s 1, a := .s 2, modi := 3, imm := 2147483648 }) ∧
    decodeTableWord 64 0x08C0081000000001 = some (.xori { d := .v 1, a := .v 2, imm := 1 }) ∧
    decodeTableWord 64 0x090008100000001F = some (.shli { d := .v 1, a := .v 2, imm := 31 }) ∧
    decodeTableWord 64 0x09440C110000003F = some (.shri { d := .s 1, a := .s 2, modi := 1, imm := 63 }) :=
  by and_intros <;> rfl

theorem test_decode_comparisons :
    decodeTableWord 64 0x07C6081018008002 = some (.icmp { d := .k 1, a := .v 2, b := .v 3, ty := .i32, lo := 2 }) ∧
    decodeTableWord 64 0x07C7FCAC3000800E = some (.icmp { d := .zero, a := .s 21, b := .s 6, ty := .i32, lo := 14 }) ∧
    decodeTableWord 64 0x09861020A0000001 = some (.icmpi { d := .k 2, a := .v 4, imm := 2684354561 }) ∧
    decodeTableWord 64 0x8A061E0E10000000 = some (.kand { s := true, d := .k 3, a := .k 1, b := .k 2 }) ∧
    decodeTableWord 64 0x0A460E1738000000 = some (.kor { d := .k 1, a := .k 2, b := .sp .kact }) ∧
    decodeTableWord 64 0x0A863E0608000000 = some (.kxor { d := .k 7, a := .k 0, b := .k 1 }) ∧
    decodeTableWord 64 0x0AC62E2000000000 = some (.knot { d := .k 5, a := .k 4 }) ∧
    decodeTableWord 64 0x0B0C1E2000000000 = some (.kmov { d := .s 3, a := .k 4, k := 1 }) ∧
    decodeTableWord 64 0x0B44160800000800 = some (.kpop { d := .s 2, a := .k 1, m := 1 }) ∧
    decodeTableWord 64 0x0B80160800000000 = some (.kffs { d := .v 2, a := .k 1 }) ∧
    decodeTableWord 64 0x0BC6300000000000 = some (.kset { d := .k 6 }) :=
  by and_intros <;> rfl

theorem test_decode_packing :
    decodeTableWord 64 0x0C00042100000000 = some (.sfmt { modi := 1, a := .s 4 }) ∧
    decodeTableWord 64 0x0C4008101C200000 = some (.prmt { d := .v 1, a := .v 2, b := .v 3, c := .s 4 }) ∧
    decodeTableWord 64 0x0C80081018040100 = some (.pack { d := .v 1, a := .v 2, b := .v 3, ty := .n8x4, sat := true }) ∧
    decodeTableWord 64 0x0CC0081000039800 = some (.unpk { d := .v 1, a := .v 2, ty := .i8x4, m := 3 }) ∧
    decodeTableWord 64 0x0D040C1000000000 = some (.clrst { d := .s 1, a := .s 2 }) ∧
    decodeTableWord 64 0x170008100004B800 = some (.bpack { d := .v 1, a := .v 2, ty := .f32, m := 7 }) ∧
    decodeTableWord 64 0x174008100004C000 = some (.bunpk { d := .v 1, a := .v 2, ty := .f32, m := 8 }) :=
  by and_intros <;> rfl

theorem test_decode_floats :
    decodeTableWord 64 0x1000081418048080 = some (.fadd { d := .v 1, a := .v 2, b := .s 3, ty := .f32, negA := true }) ∧
    decodeTableWord 64 0x1040102030050600 = some (.fsub { d := .v 2, a := .v 4, b := .v 6, ty := .f64, rnd := .rup }) ∧
    decodeTableWord 64 0x10840C1418048100 = some (.fmul { d := .s 1, a := .s 2, b := .s 3, ty := .f32, sat := true }) ∧
    decodeTableWord 64 0x10C0400020448000 = some (.ffma { d := .v 8, a := .v 0, b := .v 4, c := .v 8, ty := .f32 }) ∧
    decodeTableWord 64 0x90C0400020448000 = some (.ffma { d := .v 8, a := .v 0, b := .v 4, c := .v 8, ty := .f32, s := true }) ∧
    decodeTableWord 64 0x1100081018048000 = some (.fmin { d := .v 1, a := .v 2, b := .v 3, ty := .f32 }) ∧
    decodeTableWord 64 0x1140081018048040 = some (.fmax { d := .v 1, a := .v 2, b := .v 3, ty := .f32, negB := true }) ∧
    decodeTableWord 64 0x1180081000060000 = some (.fabs { d := .v 1, a := .v 2, ty := .bf16x2 }) ∧
    decodeTableWord 64 0x11C0102000050000 = some (.fneg { d := .v 2, a := .v 4, ty := .f64 }) ∧
    decodeTableWord 64 0x1206100818048002 = some (.fcmp { d := .k 2, a := .v 1, b := .v 3, ty := .f32, lo := 2 }) ∧
    decodeTableWord 64 0x1240081000050000 = some (.fclass { d := .v 1, a := .v 2, ty := .f64 }) ∧
    decodeTableWord 64 0x1480081000048C00 = some (.frnd { d := .v 1, a := .v 2, ty := .f32, m := 1, rnd := .rdn }) ∧
    decodeTableWord 64 0x14C0081018048000 = some (.fscl { d := .v 1, a := .v 2, b := .v 3, ty := .f32 }) ∧
    decodeTableWord 64 0x1500081000048000 = some (.fgexp { d := .v 1, a := .v 2, ty := .f32 }) ∧
    decodeTableWord 64 0x1540081018059000 = some (.fcps { d := .v 1, a := .v 2, b := .v 3, ty := .f16x2, m := 2 }) ∧
    decodeTableWord 64 0x158008103F800000 = some (.faddi { d := .v 1, a := .v 2, imm := 1065353216 }) ∧
    decodeTableWord 64 0x15C0102140000000 = some (.fmuli { d := .v 2, a := .v 4, modi := 1, imm := 1073741824 }) ∧
    decodeTableWord 64 0x16000810BF800000 = some (.ffmai { d := .v 1, a := .v 2, imm := 3212836864 }) ∧
    decodeTableWord 64 0x1640283800002006 = some (.f2f { d := .v 5, a := .v 7, m := 4, lo := 6 }) ∧
    decodeTableWord 64 0x1680081000048A00 = some (.f2i { d := .v 1, a := .v 2, ty := .f32, m := 1, rnd := .rtz }) ∧
    decodeTableWord 64 0x16C0081000010800 = some (.i2f { d := .v 1, a := .v 2, ty := .n32, m := 1 }) ∧
    decodeTableWord 64 0x1780081018260000 = some (.fdp2 { d := .v 1, a := .v 2, b := .v 3, c := .v 4, ty := .bf16x2 }) :=
  by and_intros <;> rfl

theorem test_decode_pendingFloats :
    decodeTableWord 64 0x9280501030050240 = some (.fdiv { d := .v 10, a := .v 2, b := .v 6, ty := .f64, rnd := .rtz, negB := true, s := true }) ∧
    decodeTableWord 64 0x92D0D0D000050000 = some (.fsqrt { s := true, k := 2, d := .v 26, a := .v 26, ty := .f64 }) ∧
    decodeTableWord 64 0x1300081000048000 = some (.frcp { d := .v 1, a := .v 2, ty := .f32 }) ∧
    decodeTableWord 64 0x1340081000048000 = some (.frsq { d := .v 1, a := .v 2, ty := .f32 }) ∧
    decodeTableWord 64 0x1380081000048000 = some (.fex2 { d := .v 1, a := .v 2, ty := .f32 }) ∧
    decodeTableWord 64 0x13C0081000048080 = some (.flg2 { d := .v 1, a := .v 2, ty := .f32, negA := true }) ∧
    decodeTableWord 64 0x1400081000048000 = some (.fsin { d := .v 1, a := .v 2, ty := .f32 }) ∧
    decodeTableWord 64 0x1440081000048010 = some (.fcos { d := .v 1, a := .v 2, ty := .f32, lo := 16 }) :=
  by and_intros <;> rfl

theorem test_decode_branches :
    decodeTableWord 64 0x2009000000000004 = some (.bra { cc := .lt, pt := true, disp := 4 }) ∧
    decodeTableWord 64 0x20070000FFFFFFF8 = some (.bra { cc := .al, disp := 4294967288 }) ∧
    decodeTableWord 64 0x2047300000000002 = some (.bkz { cc := .al, kt := 3, disp := 2 }) ∧
    decodeTableWord 64 0x208F2000FFFFFFFE = some (.bknz { cc := .al, kt := 2, pt := true, disp := 4294967294 }) ∧
    decodeTableWord 64 0x22870240FFFFFFF0 = some (.loop { cc := .al, st := 9, disp := 4294967280 }) ∧
    decodeTableWord 64 0x20C0042800000800 = some (.jmpi { a := .s 5, m := 1 }) ∧
    decodeTableWord 64 0x2107000000000010 = some (.call { cc := .al, disp := 16 }) ∧
    decodeTableWord 64 0x2140043000000000 = some (.calli { a := .s 6 }) ∧
    decodeTableWord 64 0x2180000000000000 = some (.ret {}) ∧
    decodeTableWord 64 0x21C0000000000000 = some (.regang {}) ∧
    decodeTableWord 64 0x2200040800000000 = some (.ksync { a := .s 1 }) ∧
    decodeTableWord 64 0x2258000000000000 = some (.exit { k := 3 }) :=
  by and_intros <;> rfl

theorem test_decode_tiles :
    decodeTableWord 64 0x2400008000000000 = some (.mbld { a := .v 16 }) ∧
    decodeTableWord 64 0xA446404000000000 = some (.mma { d := .x 0, a := .v 8, s := true }) ∧
    decodeTableWord 64 0x2486780000000000 = some (.mzro { d := .x 7 }) ∧
    decodeTableWord 64 0x24C0265000002800 = some (.mdrn { d := .v 4, a := .x 2, m := 5 }) ∧
    decodeTableWord 64 0x25064C2428048800 = some (.mdrs { d := .x 1, a := .s 4, b := .s 5, ty := .f32, m := 1 }) ∧
    decodeTableWord 64 0x25464C2428008900 = some (.mdrm { d := .x 1, a := .s 4, b := .s 5, ty := .i32, m := 1, sat := true }) ∧
    decodeTableWord 64 0x25840C141C400800 = some (.mseq { d := .s 1, a := .s 2, b := .s 3, c := .s 8, m := 1 }) ∧
    decodeTableWord 64 0x25C4EC1CD4E00000 = some (.mgrp { d := .s 29, a := .s 3, b := .s 26, c := .s 28 }) ∧
    decodeTableWord 64 0x2604080000001000 = some (.merr { d := .s 1, m := 2 }) ∧
    decodeTableWord 64 0x2646481000048000 = some (.mscl { d := .x 1, a := .v 2, ty := .f32 }) ∧
    decodeTableWord 64 0x2680164800050800 = some (.mred { d := .v 2, a := .x 1, ty := .f64, m := 1 }) :=
  by and_intros <;> rfl

theorem test_decode_memory :
    decodeTableWord 64 0x28000C27FA000000 = some (.ld { width := .w32, d := .v 1, a := .s 4 }) ∧
    decodeTableWord 64 0xA808142802400000 = some (.ld { s := true, k := 1, width := .w32, d := .v 2, a := .s 5, b := .v 0, scale := 1 }) ∧
    decodeTableWord 64 0x280844380A000300 = some (.ld { k := 1, width := .w32, d := .v 8, a := .s 7, b := .v 1, off := 768 }) ∧
    decodeTableWord 64 0x2848142852400000 = some (.st { k := 1, width := .w32, d := .v 2, a := .s 5, b := .v 10, scale := 1 }) ∧
    decodeTableWord 64 0x2880002000001800 = some (.pushs { a := .v 4, m := 3 }) ∧
    decodeTableWord 64 0x28C4400000007800 = some (.pops { d := .s 8, m := 15 }) ∧
    decodeTableWord 64 0x29001C100A600010 = some (.atom { width := .w32, d := .v 3, a := .s 2, b := .v 1, scale := 1, sx := true, off := 16 }) ∧
    decodeTableWord 64 0x29402C3012480000 = some (.red { width := .w32, d := .v 5, a := .s 6, b := .v 2, scale := 1, op := 1 }) ∧
    decodeTableWord 64 0x298024100A400000 = some (.cas { width := .w32, d := .v 4, a := .s 2, b := .v 1, scale := 1 }) :=
  by and_intros <;> rfl

theorem test_decode_ladder :
    decodeTableWord 64 0x29C0000000000000 = some (.cmitT {}) ∧
    decodeTableWord 64 0x29C0000000000800 = some (.cmitC { m := 1 }) ∧
    decodeTableWord 64 0x29C0000000001000 = some (.cmitD { m := 2 }) ∧
    decodeTableWord 64 0x2A000000FFFFFFFD = some (.abrtG { cc := .eq, disp := 4294967293 }) ∧
    decodeTableWord 64 0x2A008000FFFFFFFD = some (.abrtT { cc := .ne, disp := 4294967293 }) ∧
    decodeTableWord 64 0x2A40000000000000 = some (.rfshT {}) ∧
    decodeTableWord 64 0x2A40000000001000 = some (.rfshD { m := 2 }) ∧
    decodeTableWord 64 0x2A80000000000000 = some (.fence {}) ∧
    decodeTableWord 64 0x3A00000000000000 = some (.bar {}) ∧
    decodeTableWord 64 0x3A00000000000800 = some (.cbar { m := 1 }) ∧
    decodeTableWord 64 0x3A44200000000000 = some (.arrv { d := .s 4 }) ∧
    decodeTableWord 64 0x3A80042000000000 = some (.wait { a := .s 4 }) ∧
    decodeTableWord 64 0x3AC0000000000000 = some (.gbar {}) ∧
    decodeTableWord 64 0x3B00000000000000 = some (.tsbar {}) :=
  by and_intros <;> rfl

theorem test_decode_engines :
    decodeTableWord 64 0x2C04141804400000 = some (.cpy { d := .s 2, a := .s 3, c := .s 8 }) ∧
    decodeTableWord 64 0x2C44141824400002 = some (.gthr { d := .s 2, a := .s 3, b := .v 4, c := .s 8, lo := 2 }) ∧
    decodeTableWord 64 0x2C84141824400011 = some (.sctr { d := .s 2, a := .s 3, b := .v 4, c := .s 8, lo := 17 }) ∧
    decodeTableWord 64 0x2CC410202C400804 = some (.cpyc { d := .s 2, a := .v 4, b := .v 5, c := .s 8, m := 1, lo := 4 }) ∧
    decodeTableWord 64 0x2CC4D077FC610004 = some (.cpyc { d := .s 26, a := .v 14, b := .zero, c := .s 12, ty := .n32, lo := 4 }) ∧
    decodeTableWord 64 0x2D04141804400000 = some (.mcst { d := .s 2, a := .s 3, c := .s 8 }) ∧
    decodeTableWord 64 0x2D44884004463800 = some (.csto { d := .s 17, a := .v 8, c := .s 8, ty := .bf16x2, m := 7 }) ∧
    decodeTableWord 64 0x2D84AC8804463800 = some (.cldx { d := .s 21, a := .s 17, c := .s 8, ty := .bf16x2, m := 7 }) ∧
    decodeTableWord 64 0x2DC0041804400000 = some (.pfch { a := .s 3, c := .s 8 }) ∧
    decodeTableWord 64 0x2E04DCC004E00000 = some (.bulk { d := .s 27, a := .s 24, c := .s 28 }) ∧
    decodeTableWord 64 0x2E44141804449800 = some (.coll { d := .s 2, a := .s 3, c := .s 8, ty := .f32, m := 3 }) :=
  by and_intros <;> rfl

theorem test_decode_queues :
    decodeTableWord 64 0x3000041418000000 = some (.qinit { a := .s 2, b := .s 3 }) ∧
    decodeTableWord 64 0x3040041418000000 = some (.qpush { a := .s 2, b := .s 3 }) ∧
    decodeTableWord 64 0xB084541000000000 = some (.qpop { s := true, d := .s 10, a := .s 2 }) ∧
    decodeTableWord 64 0x30C4241000000000 = some (.qpeek { d := .s 4, a := .s 2 }) ∧
    decodeTableWord 64 0x3100041418000000 = some (.qrel { a := .s 2, b := .s 3 }) ∧
    decodeTableWord 64 0x31440C1000000000 = some (.emit { d := .s 1, a := .s 2 }) ∧
    decodeTableWord 64 0x3180000000000000 = some (.trig {}) ∧
    decodeTableWord 64 0x31C40C1000000000 = some (.launch { d := .s 1, a := .s 2 }) ∧
    decodeTableWord 64 0x32040C1000000000 = some (.lwait { d := .s 1, a := .s 2 }) ∧
    decodeTableWord 64 0x32040C1000000800 = some (.lwaitCancel { d := .s 1, a := .s 2, m := 1 }) ∧
    decodeTableWord 64 0x32440C1418000000 = some (.msgrd { d := .s 1, a := .s 2, b := .s 3 }) ∧
    decodeTableWord 64 0x3280041418000000 = some (.msgwr { a := .s 2, b := .s 3 }) :=
  by and_intros <;> rfl

theorem test_decode_trees :
    decodeTableWord 64 0x3400200410048000 = some (.vget { d := .v 4, a := .v 0, b := .s 2, ty := .f32 }) ∧
    decodeTableWord 64 0x3440400410048800 = some (.vstn { d := .v 8, a := .v 0, b := .s 2, ty := .f32, m := 1 }) ∧
    decodeTableWord 64 0x3480200410010800 = some (.vset { d := .v 4, a := .v 0, b := .s 2, ty := .n32, m := 1 }) ∧
    decodeTableWord 64 0x34C0000414180000 = some (.vins { a := .v 0, b := .s 2, c := .s 3 }) ∧
    decodeTableWord 64 0x3508000414180000 = some (.vdel { a := .v 0, b := .s 2, c := .s 3, k := 1 }) ∧
    decodeTableWord 64 0x3548008478000000 = some (.vact { k := 1, a := .v 16, b := .s 15 }) ∧
    decodeTableWord 64 0x35840C1428000000 = some (.vleaf { d := .s 1, a := .s 2, b := .s 5 }) ∧
    decodeTableWord 64 0x3587FC17F8001000 = some (.vleafRel { d := .zero, a := .s 2, b := .zero, m := 2 }) ∧
    decodeTableWord 64 0x35C0204410000000 = some (.vmrc { d := .v 4, a := .v 8, b := .s 2 }) ∧
    decodeTableWord 64 0x3600041C24780000 = some (.halo { a := .s 3, b := .s 4, c := .s 15 }) ∧
    decodeTableWord 64 0x3640200410048000 = some (.vsmp { d := .v 4, a := .v 0, b := .s 2, ty := .f32 }) :=
  by and_intros <;> rfl

theorem test_decode_rays :
    decodeTableWord 64 0xB800008414180000 = some (.rtrc { s := true, d := .v 0, a := .v 16, b := .s 2, c := .s 3 }) ∧
    decodeTableWord 64 0xB84000C000000000 = some (.rcont { s := true, d := .v 0, a := .v 24 }) ∧
    decodeTableWord 64 0x384007F800000800 = some (.rcontKill { d := .v 0, a := .zero, m := 1 }) ∧
    decodeTableWord 64 0x3880400000000000 = some (.rget { d := .v 8 }) ∧
    decodeTableWord 64 0x38C0042000000000 = some (.rlog { a := .s 4 }) ∧
    decodeTableWord 64 0x390000A410000000 = some (.rrpl { a := .v 20, b := .s 2 }) ∧
    decodeTableWord 64 0x3940000000000000 = some (.hinv {}) ∧
    decodeTableWord 64 0x398417F804400000 = some (.bvhbBuild { d := .s 2, a := .zero, c := .s 8 }) ∧
    decodeTableWord 64 0x398417F804400800 = some (.bvhbRefit { d := .s 2, a := .zero, c := .s 8, m := 1 }) :=
  by and_intros <;> rfl

theorem test_decode_system :
    decodeTableWord 64 0x3B40441800001000 = some (.rng { d := .v 8, a := .s 3, m := 2 }) ∧
    decodeTableWord 64 0x3B840C1000000000 = some (.cntr { d := .s 1, a := .s 2 }) ∧
    decodeTableWord 64 0x3BC0041418000000 = some (.cntc { a := .s 2, b := .s 3 }) ∧
    decodeTableWord 64 0x3C00041800000005 = some (.trap { a := .s 3, lo := 5 }) ∧
    decodeTableWord 64 0x3C4007F800000000 = some (.brk { a := .zero }) ∧
    decodeTableWord 64 0x3C84080000000002 = some (.csrr { d := .s 1, lo := 2 }) ∧
    decodeTableWord 64 0x3CC0041000000007 = some (.csrw { a := .s 2, lo := 7 }) ∧
    decodeTableWord 64 0x3D00000000000000 = some (.iret {}) ∧
    decodeTableWord 64 0x3D40041418000000 = some (.tlbi { a := .s 2, b := .s 3 }) ∧
    decodeTableWord 64 0x3D80000000000000 = some (.halt {}) :=
  by and_intros <;> rfl


/-- The worked pair word, FMUL.f32 v4, v0 beside IADD.i32 v9, 1, with its marker. -/
theorem test_decode_pair :
    decodeTableWord 64 0xC781000002048101 =
      some (.pairWord { s := true, s0 := { op := .fmul, d := 4, src := .reg 0 }, s1 := { op := .iadd, d := 9, src := .imm 1 } }) := rfl

/-! ### Well-formedness: a term for each check that the check refuses -/

theorem test_ill_formed_immediate :
    Instr.wf (.movi { d := .v 4, modi := 4 }) = false ∧
    Instr.wf (.movi { d := .v 5, modi := 3 }) = false ∧
    Instr.wf (.movi { d := .v 4, a := .v 1, modi := 3 }) = false ∧
    Instr.wf (.movh { d := .v 4 }) = false ∧
    Instr.wf (.iaddi { d := .v 1, a := .v 2, modi := 2 }) = false ∧
    Instr.wf (.iaddi { d := .v 1, a := .v 2, modi := 4 }) = false ∧
    Instr.wf (.andi { d := .v 1, a := .v 2, modi := 2 }) = false ∧
    Instr.wf (.ori { d := .v 1, a := .v 2, modi := 4 }) = false ∧
    Instr.wf (.xori { d := .s 1, a := .v 2 }) = false ∧
    Instr.wf (.shli { d := .v 1, a := .v 2, imm := 32 }) = false ∧
    Instr.wf (.shri { d := .v 2, a := .v 4, modi := 1, imm := 64 }) = false ∧
    Instr.wf (.icmpi { d := .k 0, a := .v 2 }) = false ∧
    Instr.wf (.icmpi { d := .k 1, a := .v 2, imm := 0x60000000 }) = false ∧
    Instr.wf (.imuli { d := .v 1, a := .v 2, modi := 1 }) = false ∧
    Instr.wf (.sfmt { imm := 65536 }) = false ∧
    Instr.wf (.faddi { d := .v 1, a := .k 2 }) = false ∧
    Instr.wf (.fmuli { d := .v 1, a := .v 2, modi := 1 }) = false ∧
    Instr.wf (.ffmai { d := .k 1, a := .v 2 }) = false :=
  by and_intros <;> rfl

theorem test_ill_formed_memory_and_branch :
    Instr.wf (.ld { d := .v 1, a := .v 2, width := .w32 }) = false ∧
    Instr.wf (.ld { d := .s 1, a := .s 2, b := .v 3, width := .w32 }) = false ∧
    Instr.wf (.ld { d := .v 1, a := .s 2, b := .v 3, width := .w32, sx := true }) = false ∧
    Instr.wf (.ld { d := .v 3, a := .s 2, b := .v 3, width := .w64 }) = false ∧
    Instr.wf (.st { d := .v 2, a := .s 2, b := .v 3, width := .w128 }) = false ∧
    Instr.wf (.st { d := .zero, a := .s 2, width := .w32 }) = false ∧
    Instr.wf (.atom { d := .v 1, a := .s 2, b := .v 3, width := .w8 }) = false ∧
    Instr.wf (.red { d := .s 2, a := .s 2, width := .w32 }) = false ∧
    Instr.wf (.cas { d := .v 1, a := .s 2, b := .v 3, width := .w32 }) = false ∧
    Instr.wf (.cas { d := .v 2, a := .s 2, b := .v 3, width := .w32, op := 1 }) = false ∧
    Instr.wf (.bra { kt := 1 }) = false ∧
    Instr.wf (.bra { st := 1 }) = false ∧
    Instr.wf (.bkz { cc := .eq }) = false ∧
    Instr.wf (.bknz { cc := .al, st := 1 }) = false ∧
    Instr.wf (.loop { cc := .al, kt := 1 }) = false ∧
    Instr.wf (.call { cc := .al, pt := true }) = false ∧
    Instr.wf (.abrtG { cc := .ne }) = false ∧
    Instr.wf (.abrtT { cc := .ne, kt := 1 }) = false :=
  by and_intros <;> rfl

theorem test_ill_formed_pair :
    Instr.wf (.pairWord { s0 := { op := .nop, d := 1 }, s1 := { op := .nop } }) = false :=
  rfl

theorem test_ill_formed_shared :
    Instr.wf (.mov { d := .k 1, a := .v 2 }) = false ∧
    Instr.wf (.mov { d := .s 1, a := .v 2 }) = false ∧
    Instr.wf (.mov { d := .s 1, a := .sp .lane }) = false ∧
    Instr.wf (.mov { d := .v 1, a := .v 2, ty := .f64 }) = false ∧
    Instr.wf (.mov { d := .v 1, a := .v 2, ty := .i16x2 }) = false ∧
    Instr.wf (.sel { d := .v 1, a := .v 2, b := .v 3, c := .v 4 }) = false ∧
    Instr.wf (.fadd { d := .v 1, a := .k 2, b := .v 3, ty := .f32 }) = false ∧
    Instr.wf (.fadd { d := .v 1, a := .v 2, b := .v 3, ty := .f32, lo := 4 }) = false ∧
    Instr.wf (.iadd { d := .v 1, a := .v 2, b := .v 3, lo := 1 }) = false ∧
    Instr.wf (.imad { d := .v 2, a := .v 4, b := .v 6, c := .v 1, ty := .i64 }) = false ∧
    Instr.wf (.rdln { d := .s 1, a := .v 2, b := .s 3, ty := .i32 }) = false ∧
    Instr.wf (.icmp { d := .k 1, a := .v 2, b := .v 3, ty := .i32, lo := 6 }) = false ∧
    Instr.wf (.icmp { d := .zero, a := .v 2, b := .s 3, ty := .i32, lo := 14 }) = false ∧
    Instr.wf (.fcmp { d := .k 1, a := .v 2, b := .v 3, ty := .f32, lo := 4 }) = false ∧
    Instr.wf (.f2f { d := .v 1, a := .v 2, ty := .b32, m := 0, lo := 0 }) = false ∧
    Instr.wf (.f2f { d := .v 1, a := .v 2, m := 2, lo := 2 }) = false ∧
    Instr.wf (.mdrs { d := .x 1, a := .s 4, b := .s 5, ty := .f64, rnd := .rtz }) = false ∧
    Instr.wf (.mdrs { d := .x 1, a := .s 4, b := .s 5, ty := .i32, sat := true }) = false ∧
    Instr.wf (.cpyc { d := .s 2, a := .v 4, b := .zero, c := .s 8, ty := .f32, m := 1 }) = false ∧
    Instr.wf (.cpyc { d := .s 2, a := .v 4, b := .zero, c := .s 9, ty := .n32 }) = false ∧
    Instr.wf (.cpyc { d := .s 2, a := .v 126, b := .zero, c := .s 8, ty := .n64, m := 6 }) = false ∧
    Instr.wf (.rget { d := .v 126, m := 0 }) = false ∧
    Instr.wf (.vget { d := .v 4, a := .v 126, b := .s 2, ty := .f32 }) = false ∧
    Instr.wf (.pushs { a := .v 120, m := 15 }) = false ∧
    Instr.wf (.rtrc { d := .v 1, a := .v 16, b := .s 2, c := .s 3 }) = false :=
  by and_intros <;> rfl

theorem test_ill_formed_register_words_1 :
    Instr.wf (.nop { d := .x 7 }) = false ∧
    Instr.wf (.mov { d := .v 10, a := .x 7 }) = false ∧
    Instr.wf (.rdln { d := .s 3, a := .v 2, ty := .n64, b := .x 7 }) = false ∧
    Instr.wf (.wrln { d := .v 7, a := .s 2, b := .zero, k := 2, c := .x 7 }) = false ∧
    Instr.wf (.shfl { d := .v 6, a := .v 5, b := .s 1, m := 3, ty := .i16x2 }) = false ∧
    Instr.wf (.sel { d := .v 1, a := .v 2, b := .s 3, c := .k 4, ty := .f16x2 }) = false ∧
    Instr.wf (.iadd { d := .v 3, a := .v 1, b := .s 2, ty := .i32, sat := true, m := 15 }) = false ∧
    Instr.wf (.isub { d := .zero, a := .s 1, b := .s 2, ty := .n64, lo := 1, rnd := .rup }) = false ∧
    Instr.wf (.imul { d := .v 2, a := .v 4, b := .v 6, ty := .i64, negA := true }) = false ∧
    Instr.wf (.imulh { d := .v 2, a := .v 4, b := .s 6, ty := .n32, negA := true }) = false ∧
    Instr.wf (.imad { d := .v 2, a := .v 4, b := .v 6, c := .s 1, ty := .i32, negA := true, lo := 31 }) = false ∧
    Instr.wf (.imin { d := .v 1, a := .v 2, b := .v 3, ty := .i8x4, negC := true }) = false ∧
    Instr.wf (.imax { d := .s 1, a := .s 2, b := .s 3, ty := .n16x2, lo := 31 }) = false ∧
    Instr.wf (.iabs { a := .v 2, ty := .i16x2, d := .x 7 }) = false ∧
    Instr.wf (.ineg { a := .v 2, ty := .i32, sat := true, d := .x 7 }) = false ∧
    Instr.wf (.and { d := .v 13, b := .v 12, negB := true, a := .x 7 }) = false ∧
    Instr.wf (.or { d := .v 1, a := .v 2, b := .x 7 }) = false ∧
    Instr.wf (.xor { d := .s 1, a := .s 2, b := .s 3, ty := .n64, c := .x 7 }) = false ∧
    Instr.wf (.not { d := .v 1, a := .v 2, ty := .i16x2 }) = false ∧
    Instr.wf (.shl { d := .v 1, a := .v 2, b := .v 3, ty := .f16x2 }) = false ∧
    Instr.wf (.shr { d := .v 1, a := .v 2, b := .s 3, ty := .n32, m := 15 }) = false ∧
    Instr.wf (.sar { d := .s 1, a := .s 2, b := .s 3, ty := .i64, rnd := .rup }) = false ∧
    Instr.wf (.rot { d := .v 1, a := .v 2, b := .s 3, sat := true }) = false ∧
    Instr.wf (.popc { d := .v 1, a := .sp .lane, negA := true }) = false ∧
    Instr.wf (.clz { d := .s 1, a := .s 2, ty := .n64, negB := true }) = false ∧
    Instr.wf (.brev { d := .v 1, a := .v 2, negC := true }) = false ∧
    Instr.wf (.bfx { d := .v 1, a := .v 2, b := .s 3, c := .s 4, ty := .i32, lo := 31 }) = false ∧
    Instr.wf (.bfi { a := .v 2, b := .s 3, c := .s 4, d := .x 7 }) = false ∧
    Instr.wf (.lea { a := .v 4, b := .v 6, m := 4, d := .x 7 }) = false ∧
    Instr.wf (.icmp { d := .zero, b := .s 6, ty := .i32, lo := 14, a := .x 7 }) = false ∧
    Instr.wf (.kand { s := true, d := .k 3, a := .k 1, b := .x 7 }) = false :=
  by and_intros <;> rfl

theorem test_ill_formed_register_words_2 :
    Instr.wf (.kor { d := .k 1, a := .k 2, b := .sp .kact, c := .x 7 }) = false ∧
    Instr.wf (.kxor { d := .k 7, a := .k 0, b := .k 1, ty := .i16x2 }) = false ∧
    Instr.wf (.knot { d := .k 5, a := .k 4, ty := .f16x2 }) = false ∧
    Instr.wf (.kmov { d := .s 3, a := .k 4, k := 1, m := 15 }) = false ∧
    Instr.wf (.kpop { d := .s 2, a := .k 1, m := 1, rnd := .rup }) = false ∧
    Instr.wf (.kffs { d := .v 2, a := .k 1, sat := true }) = false ∧
    Instr.wf (.kset { d := .k 6, negA := true }) = false ∧
    Instr.wf (.prmt { d := .v 1, a := .v 2, b := .v 3, c := .s 4, negB := true }) = false ∧
    Instr.wf (.pack { d := .v 1, a := .v 2, b := .v 3, ty := .n8x4, sat := true, negC := true }) = false ∧
    Instr.wf (.unpk { d := .v 1, a := .v 2, ty := .i8x4, m := 3, lo := 31 }) = false ∧
    Instr.wf (.clrst { a := .s 2, d := .x 7 }) = false ∧
    Instr.wf (.fadd { a := .v 2, b := .s 3, ty := .f32, negA := true, d := .x 7 }) = false ∧
    Instr.wf (.fsub { d := .v 2, b := .v 6, ty := .f64, rnd := .rup, a := .x 7 }) = false ∧
    Instr.wf (.fmul { d := .s 1, a := .s 2, ty := .f32, sat := true, b := .x 7 }) = false ∧
    Instr.wf (.ffma { d := .v 8, a := .v 0, b := .v 4, ty := .f32, s := true, c := .x 7 }) = false ∧
    Instr.wf (.fmin { d := .v 1, a := .v 2, b := .v 3, ty := .i16x2 }) = false ∧
    Instr.wf (.fmax { d := .v 1, a := .v 2, b := .v 3, negB := true, ty := .f16x2 }) = false ∧
    Instr.wf (.fabs { d := .v 1, a := .v 2, ty := .bf16x2, m := 15 }) = false ∧
    Instr.wf (.fneg { d := .v 2, a := .v 4, ty := .f64, rnd := .rup }) = false ∧
    Instr.wf (.fcmp { d := .k 2, a := .v 1, b := .v 3, ty := .f32, lo := 2, sat := true }) = false ∧
    Instr.wf (.fclass { d := .v 1, a := .v 2, ty := .f64, negA := true }) = false ∧
    Instr.wf (.fdiv { d := .v 10, a := .v 2, b := .v 6, ty := .f64, rnd := .rtz, negB := true, s := true, negC := true }) = false ∧
    Instr.wf (.fsqrt { s := true, k := 2, d := .v 26, a := .v 26, ty := .f64, negC := true }) = false ∧
    Instr.wf (.frcp { d := .v 1, a := .v 2, ty := .f32, lo := 31 }) = false ∧
    Instr.wf (.frsq { a := .v 2, ty := .f32, d := .x 7 }) = false ∧
    Instr.wf (.fex2 { a := .v 2, ty := .f32, d := .x 7 }) = false ∧
    Instr.wf (.flg2 { d := .v 1, ty := .f32, negA := true, a := .x 7 }) = false ∧
    Instr.wf (.fsin { d := .v 1, a := .v 2, ty := .f32, b := .x 7 }) = false ∧
    Instr.wf (.fcos { d := .v 1, a := .v 2, ty := .f32, lo := 16, c := .x 7 }) = false ∧
    Instr.wf (.frnd { d := .v 1, a := .v 2, m := 1, rnd := .rdn, ty := .i16x2 }) = false ∧
    Instr.wf (.fscl { d := .v 1, a := .v 2, b := .v 3, ty := .f16x2 }) = false :=
  by and_intros <;> rfl

theorem test_ill_formed_register_words_3 :
    Instr.wf (.fgexp { d := .v 1, a := .v 2, ty := .f32, m := 15 }) = false ∧
    Instr.wf (.fcps { d := .v 1, a := .v 2, b := .v 3, ty := .f16x2, m := 2, rnd := .rup }) = false ∧
    Instr.wf (.f2f { d := .v 5, a := .v 7, m := 4, lo := 6, negA := true }) = false ∧
    Instr.wf (.f2i { d := .v 1, a := .v 2, ty := .f32, m := 1, rnd := .rtz, negB := true }) = false ∧
    Instr.wf (.i2f { d := .v 1, a := .v 2, ty := .n32, m := 1, negB := true }) = false ∧
    Instr.wf (.bpack { d := .v 1, a := .v 2, ty := .f32, m := 7, negC := true }) = false ∧
    Instr.wf (.bunpk { d := .v 1, a := .v 2, ty := .f32, m := 8, lo := 31 }) = false ∧
    Instr.wf (.fdp2 { a := .v 2, b := .v 3, c := .v 4, ty := .bf16x2, d := .x 7 }) = false ∧
    Instr.wf (.jmpi { a := .s 5, m := 1, d := .x 7 }) = false ∧
    Instr.wf (.calli { a := .x 7 }) = false ∧
    Instr.wf (.ret { b := .x 7 }) = false ∧
    Instr.wf (.regang { c := .x 7 }) = false ∧
    Instr.wf (.ksync { a := .s 1, ty := .i16x2 }) = false ∧
    Instr.wf (.exit { k := 3, ty := .f16x2 }) = false ∧
    Instr.wf (.mbld { a := .v 16, m := 15 }) = false ∧
    Instr.wf (.mma { d := .x 0, a := .v 8, s := true, rnd := .rup }) = false ∧
    Instr.wf (.mzro { d := .x 7, sat := true }) = false ∧
    Instr.wf (.mdrn { d := .v 4, a := .x 2, m := 5, negA := true }) = false ∧
    Instr.wf (.mdrs { d := .x 1, a := .s 4, b := .s 5, ty := .f32, m := 1, negB := true }) = false ∧
    Instr.wf (.mdrm { d := .x 1, a := .s 4, b := .s 5, ty := .i32, m := 1, sat := true, negC := true }) = false ∧
    Instr.wf (.mseq { d := .s 1, a := .s 2, b := .s 3, c := .s 8, m := 1, lo := 31 }) = false ∧
    Instr.wf (.mgrp { a := .s 3, b := .s 26, c := .s 28, d := .x 7 }) = false ∧
    Instr.wf (.merr { m := 2, d := .x 7 }) = false ∧
    Instr.wf (.mscl { d := .x 1, ty := .f32, a := .x 7 }) = false ∧
    Instr.wf (.mred { d := .v 2, a := .x 1, ty := .f64, m := 1, b := .x 7 }) = false ∧
    Instr.wf (.pushs { a := .v 4, m := 3, c := .x 7 }) = false ∧
    Instr.wf (.pops { d := .s 8, m := 15, ty := .i16x2 }) = false ∧
    Instr.wf (.cmitT { ty := .f16x2 }) = false ∧
    Instr.wf (.cmitC { m := 15 }) = false ∧
    Instr.wf (.cmitD { m := 2, rnd := .rup }) = false ∧
    Instr.wf (.rfshT { sat := true }) = false :=
  by and_intros <;> rfl

theorem test_ill_formed_register_words_4 :
    Instr.wf (.rfshD { m := 2, negA := true }) = false ∧
    Instr.wf (.fence { negB := true }) = false ∧
    Instr.wf (.cpy { d := .s 2, a := .s 3, c := .s 8, negC := true }) = false ∧
    Instr.wf (.gthr { d := .s 2, a := .s 3, b := .v 4, c := .s 8, lo := 31 }) = false ∧
    Instr.wf (.sctr { a := .s 3, b := .v 4, c := .s 8, lo := 17, d := .x 7 }) = false ∧
    Instr.wf (.cpyc { a := .v 14, b := .zero, c := .s 12, ty := .n32, lo := 4, d := .x 7 }) = false ∧
    Instr.wf (.mcst { d := .s 2, c := .s 8, a := .x 7 }) = false ∧
    Instr.wf (.csto { d := .s 17, a := .v 8, c := .s 8, ty := .bf16x2, m := 7, b := .x 7 }) = false ∧
    Instr.wf (.cldx { d := .s 21, a := .s 17, ty := .bf16x2, m := 7, c := .x 7 }) = false ∧
    Instr.wf (.pfch { a := .s 3, c := .s 8, ty := .i16x2 }) = false ∧
    Instr.wf (.bulk { d := .s 27, a := .s 24, c := .s 28, ty := .f16x2 }) = false ∧
    Instr.wf (.coll { d := .s 2, a := .s 3, c := .s 8, ty := .f32, m := 15 }) = false ∧
    Instr.wf (.qinit { a := .s 2, b := .s 3, rnd := .rup }) = false ∧
    Instr.wf (.qpush { a := .s 2, b := .s 3, sat := true }) = false ∧
    Instr.wf (.qpop { s := true, d := .s 10, a := .s 2, negA := true }) = false ∧
    Instr.wf (.qpeek { d := .s 4, a := .s 2, negB := true }) = false ∧
    Instr.wf (.qrel { a := .s 2, b := .s 3, negC := true }) = false ∧
    Instr.wf (.emit { d := .s 1, a := .s 2, lo := 31 }) = false ∧
    Instr.wf (.trig { k := 1 }) = false ∧
    Instr.wf (.launch { a := .s 2, d := .x 7 }) = false ∧
    Instr.wf (.lwait { d := .s 1, a := .x 7 }) = false ∧
    Instr.wf (.lwaitCancel { d := .s 1, a := .s 2, m := 1, b := .x 7 }) = false ∧
    Instr.wf (.msgrd { d := .s 1, a := .s 2, b := .s 3, c := .x 7 }) = false ∧
    Instr.wf (.msgwr { a := .s 2, b := .s 3, ty := .i16x2 }) = false ∧
    Instr.wf (.vget { d := .v 4, a := .v 0, b := .s 2, ty := .f32, m := 15 }) = false ∧
    Instr.wf (.vstn { d := .v 8, a := .v 0, b := .s 2, ty := .f32, m := 15 }) = false ∧
    Instr.wf (.vset { d := .v 4, a := .v 0, b := .s 2, ty := .n32, m := 1, rnd := .rup }) = false ∧
    Instr.wf (.vins { a := .v 0, b := .s 2, c := .s 3, sat := true }) = false ∧
    Instr.wf (.vdel { a := .v 0, b := .s 2, c := .s 3, k := 1, negA := true }) = false ∧
    Instr.wf (.vact { k := 1, a := .v 16, b := .s 15, negB := true }) = false ∧
    Instr.wf (.vleaf { d := .s 1, a := .s 2, b := .s 5, negC := true }) = false :=
  by and_intros <;> rfl

theorem test_ill_formed_register_words_5 :
    Instr.wf (.vleafRel { d := .zero, a := .s 2, b := .zero, m := 2, lo := 31 }) = false ∧
    Instr.wf (.vmrc { a := .v 8, b := .s 2, d := .x 7 }) = false ∧
    Instr.wf (.halo { a := .s 3, b := .s 4, c := .s 15, d := .x 7 }) = false ∧
    Instr.wf (.vsmp { d := .v 4, b := .s 2, ty := .f32, a := .x 7 }) = false ∧
    Instr.wf (.rtrc { s := true, d := .v 0, a := .v 16, c := .s 3, b := .x 7 }) = false ∧
    Instr.wf (.rcont { s := true, d := .v 0, a := .v 24, c := .x 7 }) = false ∧
    Instr.wf (.rcontKill { d := .v 0, a := .zero, m := 1, ty := .i16x2 }) = false ∧
    Instr.wf (.rget { d := .v 8, ty := .f16x2 }) = false ∧
    Instr.wf (.rlog { a := .s 4, m := 15 }) = false ∧
    Instr.wf (.rrpl { a := .v 20, b := .s 2, rnd := .rup }) = false ∧
    Instr.wf (.hinv { sat := true }) = false ∧
    Instr.wf (.bvhbBuild { d := .s 2, a := .zero, c := .s 8, negA := true }) = false ∧
    Instr.wf (.bvhbRefit { d := .s 2, a := .zero, c := .s 8, m := 1, negB := true }) = false ∧
    Instr.wf (.bar { negC := true }) = false ∧
    Instr.wf (.cbar { m := 1, lo := 31 }) = false ∧
    Instr.wf (.arrv { d := .s 4, k := 1 }) = false ∧
    Instr.wf (.wait { a := .s 4, d := .x 7 }) = false ∧
    Instr.wf (.gbar { a := .x 7 }) = false ∧
    Instr.wf (.tsbar { b := .x 7 }) = false ∧
    Instr.wf (.rng { d := .v 8, a := .s 3, m := 2, c := .x 7 }) = false ∧
    Instr.wf (.cntr { d := .s 1, a := .s 2, ty := .i16x2 }) = false ∧
    Instr.wf (.cntc { a := .s 2, b := .s 3, ty := .f16x2 }) = false ∧
    Instr.wf (.trap { a := .s 3, lo := 5, m := 15 }) = false ∧
    Instr.wf (.brk { a := .zero, rnd := .rup }) = false ∧
    Instr.wf (.csrr { d := .s 1, lo := 2, sat := true }) = false ∧
    Instr.wf (.csrw { a := .s 2, lo := 7, negA := true }) = false ∧
    Instr.wf (.iret { negB := true }) = false ∧
    Instr.wf (.tlbi { a := .s 2, b := .s 3, negC := true }) = false ∧
    Instr.wf (.halt { lo := 31 }) = false :=
  by and_intros <;> rfl

/-- The pair rule of R53: the refused word of the example (four registers of one bank), and two destinations in one bank. -/
theorem test_pair_rule :
    PWord.pairRule { s0 := { op := .fadd, d := 0, src := .reg 4 }, s1 := { op := .fadd, d := 8, src := .reg 12 } } = false ∧
    PWord.pairRule { s0 := { op := .mov, d := 0, src := .reg 1 }, s1 := { op := .mov, d := 4, src := .reg 2 } } = false ∧
    PWord.pairRule { s0 := { op := .mov, d := 0, src := .reg 1 }, s1 := { op := .mov, d := 1, src := .reg 0 } } = true :=
  ⟨rfl, rfl, rfl⟩

/-! ### Small states -/

/-- One group of one team at a word, all registers zero. -/
def base : State := State.reset.withFetchWord 64 0
/-- The control core at a word. -/
def baseCtl : State := State.reset.withFetchWord 64 0x3D80000000000000
def lid0 : Nat := lidOf 0 (2 ^ 16)
def tid0 : Nat := tidOf lid0 0
def gid0 : Nat := gidOf tid0 0
/-- The second GiB of addresses reaches control memory. -/
def mappedCtl (s : State) : State := s.hWrite (MemW.ofCells (cells (physKey 0 1 0x3008) (leBytes 8 501)))
/-- The team state with its group, team and launch changed. -/
def inTeam (f : Group → Group := id) (t : Team → Team := id) (l : Launch → Launch := id) : State :=
  ((base.modG gid0 f).modT tid0 t).modL lid0 l
/-- The same with a sub-gang of four slices in the issue slot. -/
def half (f : Group → Group := id) : State :=
  { inTeam (fun g => f { g with subs := [{ mask := 15 }, { mask := 240 }] }) with cur := some { gid := gid0, mask := 15 } }
def onCtl (f : Group → Group := id) (c : Ctx → Ctx := id) (l : Launch → Launch := id) : State :=
  ((baseCtl.modG (ctlGid 0) f).modC 0 c).modL lid0 l
/-- Scalar registers equal in all slices. -/
def sregs (l : List (Nat × Nat)) (g : Group) : Group :=
  { g with sreg := l.flatMap fun x => (List.range 8).map fun c => (8 * x.1 + c, BitVec.ofNat 64 x.2) }
/-- A scalar register of the control core. -/
def cregs (l : List (Nat × Nat)) (g : Group) : Group := { g with sreg := l.map fun x => (8 * x.1, BitVec.ofNat 64 x.2) }
/-- Vector registers equal in all lanes. -/
def vregs (l : List (Nat × Nat)) (g : Group) : Group :=
  { g with vreg := l.flatMap fun x => (List.range 32).map fun c => (32 * x.1 + c, BitVec.ofNat 32 x.2) }
/-- A queue of four slots of 512 bytes, filled and popped by group 0. -/
def queue0 : Queue :=
  { inited := true, slots := 4, slotBytes := 512, ring := BitVec.ofNat 64 (2 ^ 55 + 4096), allow := 4, popMask := 1,
    descs := List.replicate 4 {} }
def withQueue (t : Team) : Team := { t with queues := [(0, queue0)] }
def declares (l : Launch) : Launch := { l with qdecl := [(0, 4, 512)] }
def pend0 : Pend := { idx := 0, pc := 0, slices := 255, dst := 0, nreg := 1, vw := [(3, 7)] }

/-- An instruction issues in a state, and its environment meets a condition. -/
def takes (i : Instr) (s : State) (c : Env → Bool := fun _ => true) : Bool :=
  match s.cur with
  | none => false
  | some p => match envOf { s with cur := none } p with
    | none => false
    | some e => (preIssue i e).isNone && c e

/-- What `takes` says. -/
theorem takes_issues {i : Instr} {s : State} {c : Env → Bool} (h : takes i s c = true) : ∃ e, Issues i s e ∧ c e = true := by
  unfold takes at h
  cases hp : s.cur with
  | none => simp [hp] at h
  | some p =>
    cases he : envOf { s with cur := none } p with
    | none => simp [hp, he] at h
    | some e =>
      simp only [hp, he, Bool.and_eq_true, Option.isNone_iff_eq_none] at h
      exact ⟨e, ⟨⟨p, hp, he⟩, (ready_iff i e).mpr h.1⟩, h.2⟩

/-- A party stands in a state, before the checks at issue. -/
def stands (s : State) (c : Env → Bool) : Bool :=
  match s.cur with
  | none => false
  | some p => match envOf { s with cur := none } p with | none => false | some e => c e

def isOk {ε α : Type} (x : Except ε α) (p : α → Bool := fun _ => true) : Bool := match x with | .ok a => p a | .error _ => false

/-! ### One step, with results taken from the spec's worked examples or worked out by hand from its rules -/

/-- The group after one instruction. -/
def after (i : Instr) (s : State) (c : Group → Bool) : Bool :=
  match exec i s with | .next t => (tget gid0 t.groups).any c | _ => false
def status (g : Group) (c : Nat) : Nat := ((g.slices[c]?).getD {}).status.toNat
/-- One lane of slice 0 active. -/
def lane0 (f : Group → Group := id) : State := inTeam fun g => { f g with kact := 1 }

/-- The example after R110: 100 + 50 delivers 127 and raises IOV. -/
theorem test_iadd_sat : after (.iadd { d := .v 1, a := .v 2, b := .v 3, ty := .i8x4, sat := true })
    (lane0 (vregs [(2, 0x64), (3, 0x32)])) (fun g => g.vr 1 0 == 0x7F && status g 0 == fIOV) = true := by decide
theorem test_iadd_wraps : after (.iadd { d := .v 1, a := .v 2, b := .v 3, ty := .n16x2 })
    (lane0 (vregs [(2, 0xFFFF0001), (3, 0x00010002)])) (fun g => g.vr 1 0 == 3 && g.vr 1 1 == 0) = true := by decide
/-- R99 by hand: 99 − 100 borrows, 100 − 100 does not. -/
theorem test_icmpi_flags : after (.icmpi { d := .zero, a := .s 5, modi := 1, imm := 0xE0000064 }) (inTeam fun g =>
      { g with sreg := (List.range 8).map fun c => (40 + c, if c == 7 then 100 else 99) })
    (fun g => g.slices.take 7 |>.all fun c => !c.z && c.n && !c.c && !c.v) = true ∧
  after (.icmpi { d := .zero, a := .s 5, modi := 1, imm := 0xE0000064 }) (inTeam fun g =>
      { g with sreg := (List.range 8).map fun c => (40 + c, if c == 7 then 100 else 99) })
    (fun g => g.slices.drop 7 |>.all fun c => c.z && !c.n && c.c && !c.v) = true := ⟨by decide, by decide⟩
/-- The first example of the floating-point chapter: one rounding against two. -/
theorem test_fmul_tie : after (.fmul { d := .v 2, a := .v 0, b := .v 0, ty := .f32 }) (lane0 (vregs [(0, 0x3F800800)]))
    (fun g => g.vr 2 0 == 0x3F801000 && status g 0 == fNX) = true := by decide
theorem test_ffma_once : after (.ffma { d := .v 2, a := .v 0, b := .v 0, c := .v 1, ty := .f32 })
    (lane0 (vregs [(0, 0x3F800800), (1, 0xBF801000)])) (fun g => g.vr 2 0 == 0x33800000 && status g 0 == 0) = true := by decide
theorem test_fadd_zero : after (.fadd { d := .v 2, a := .v 0, b := .v 1, ty := .f32 })
    (lane0 (vregs [(0, 0x3F801000), (1, 0xBF801000)])) (fun g => g.vr 2 0 == 0 && status g 0 == 0) = true := by decide
/-- The table "F2I boundaries". -/
theorem test_f2i_ties_to_even : after (.f2i { d := .v 2, a := .v 0, ty := .f32 }) (lane0 (vregs [(0, 0x40200000)]))
    (fun g => g.vr 2 0 == 2 && status g 0 == fNX) = true := by decide
theorem test_f2i_saturates : after (.f2i { d := .v 2, a := .v 0, ty := .f32, rnd := .rtz }) (lane0 (vregs [(0, 0x4F32D05E)]))
    (fun g => g.vr 2 0 == 0x7FFFFFFF && status g 0 == fNV) = true := by decide
/-- "Encodings" of the same chapter: 300.0 to E4M3, into byte 2. -/
theorem test_f2f_e4m3 : after (.f2f { d := .v 5, a := .v 7, m := 4, lo := 6 }) (lane0 (vregs [(5, 0x11223344), (7, 0x43960000)]))
    (fun g => g.vr 5 0 == 0x11793344 && status g 0 == fNX) = true := by decide
theorem test_f2f_e4m3_overflow : after (.f2f { d := .v 5, a := .v 7, m := 4, lo := 6 })
    (lane0 (vregs [(5, 0x11223344), (7, 0x43FA0000)]))
    (fun g => g.vr 5 0 == 0x117E3344 && status g 0 == fOF + fNX) = true := by decide
/-- "Example: one SB4 block": 3.0, −0.375, 0.25, 0.0, 1.0, 0.6875. -/
theorem test_bpack_sb4 : after (.bpack { d := .v 1, a := .v 2, ty := .f32, m := 7 }) (inTeam fun g => { g with
      kact := 0xFFFF, vreg := [(64, 0x40400000), (65, 0xBEC00000), (66, 0x3E800000), (68, 0x3F800000), (69, 0x3F300000)] })
    (fun g => g.vr 1 0 == 0x064CF480 && g.vr 1 1 == 0x0C80 && g.vr 1 2 == 0 && status g 0 == fNX) = true := by decide +kernel
/-- The second lane's word of MOVI and the two halves of a 64-bit immediate (R104). -/
theorem test_movh : after (.movh { d := .s 5, imm := 0x12345678 }) (inTeam (sregs [(5, 0xAAAAAAAA99999999)]))
    (fun g => g.sr 5 0 == 0x1234567899999999) = true := by decide
/-- R105: the butterfly with lane i XOR 1. -/
theorem test_shfl_bfly : after (.shfl { d := .v 1, a := .v 2, b := .s 1, m := 3 }) (inTeam fun g => { sregs [(1, 1)] g with
      vreg := [(64, 7), (65, 9)] }) (fun g => g.vr 1 0 == 9 && g.vr 1 1 == 7) = true := by decide
/-- "A parted group and its masks": KPOP in the sub-gang of slices 0 to 3 counts that sub-gang's lanes. -/
theorem test_kpop_sub_gang : after (.kpop { d := .s 3, a := .k 1 }) (half fun g => { g with kreg := [(1, 0xFFFF0204)] })
    (fun g => g.sr 3 0 == 2 && g.sr 3 3 == 2 && g.sr 3 4 == 0) = true := by decide
/-- "One pair word": FMUL.f32 v4, v0 beside IADD.i32 v9, 1. -/
theorem test_pair_word : after (.pairWord { s0 := { op := .fmul, d := 4, src := .reg 0 }, s1 := { op := .iadd, d := 9, src := .imm 1 } })
    (lane0 (vregs [(0, 0x40000000), (4, 0x40400000), (9, 41)])) (fun g => g.vr 4 0 == 0x40C00000 && g.vr 9 0 == 42) = true := by decide
/-- "A flag that arrives after it is cleared": CLRST reads all of STATUS and clears the bits of A (R118). -/
theorem test_clrst : after (.clrst { d := .s 1, a := .s 9 })
    (inTeam fun g => { sregs [(9, 0x1F)] g with slices := g.slices.map fun c => { c with status := 0x22 } })
    (fun g => g.sr 1 0 == 0x22 && status g 0 == 0x20) = true := by decide
/-- Case A of "two groups on one word": the atomic's pending result is the old value, and it adds to the view (R206). -/
theorem test_atom_add : after (.atom { d := .v 3, a := .s 2, b := .zero, width := .w32, op := 0 }) (inTeam fun g =>
      { sregs [(2, 2 ^ 55)] g with kact := 1, vreg := [(96, 1)], subs := g.subs.map fun u =>
        { u with lvl := { u.lvl with view := { data := [(0, 10)] } } } })
    (fun g => g.vr 3 0 == 1 && g.pend.map (·.vw) == [[(96, 10)]] && g.subs.all fun u => mget u.lvl.view.data 0 == 11) = true := by decide
/-- A store in the team window and where it goes, low byte first (R186). -/
theorem test_st_byte_order : after (.st { d := .s 1, a := .s 2, b := .zero, width := .w32 })
    (inTeam fun g => { sregs [(1, 0x04030201), (2, 2 ^ 55 + 8)] g with kact := 1 })
    (fun g => g.subs.all fun u => (List.range 4).map (fun i => (mget u.lvl.view.data (8 + i)).toNat) == [1, 2, 3, 4]) = true := by decide

/-- R88: bits 95:0 hold W in two's complement, bits 96, 97 and 98 the flags, bits 127:99 zero; the bytes are little-endian. -/
theorem test_wire_layout :
    Wire.num { w := -2, nan := true } = 0x00000004FFFFFFFFFFFFFFFFFFFFFFFE ∧
    (Wire.bytes { w := -2, nan := true }).head? = some 0xFE ∧
    Wire.of 0x00000001000000000000000000000005 = { w := 5, pinf := true } := by and_intros <;> decide

/-! ### What meets the hypotheses of each obligation -/

/-- The bytes of an empty tree of f32 voxels: no voxels, a root table of 16 entries at 0x9000 and four arenas. -/
def treeBytes : List Byte :=
  leBytes 8 0 ++ leBytes 8 0x9000 ++ leBytes 8 0 ++ leBytes 8 (7 * 2 ^ 8 + 4 * 2 ^ 16) ++
    (List.range 4).flatMap fun i => leBytes 8 (0xA000 + 64 * i)
/-- A team whose launch holds that tree at 0x8000. -/
def withTree : State :=
  (inTeam fun g => { sregs [(2, 0x8000), (3, 0xF0), (7, 2 ^ 55)] g with kact := 1 }).modL lid0 fun l =>
    { l with snap := { data := (cells (physKey 0 1 (2 ^ 30 + 0x8000)) treeBytes).filter fun c => c.2 != 0 } }
/-- The same with a leaf at the origin: an entry in every place of the root table, an upper and a lower node. -/
def withLeaf (leaf : Nat) : State :=
  let entries := (List.range 16).flatMap fun i => cells (physKey 0 1 (2 ^ 30 + 0x9000 + 32 * i + 12)) (leBytes 4 1 ++ leBytes 8 0x20000)
  let nodes := cells (physKey 0 1 (2 ^ 30 + 0x20040)) (leBytes 8 0x40000) ++ cells (physKey 0 1 (2 ^ 30 + 0x40040)) (leBytes 8 leaf)
  withTree.modL lid0 fun l => { l with lr := { l.lr with leafpool := 1 }, snap := { data := l.snap.data ++ entries ++ nodes } }
/-- The same with the headers of its nodes, and an arena with room. -/
def withNodes (leaf : Nat) : State :=
  let head := fun (at' kind parent : Nat) => cells (physKey 0 1 (2 ^ 30 + at')) (leBytes 32 (kind * 2 ^ 96 + parent * 2 ^ 128 + 0x8000 * 2 ^ 192))
  let arena := cells (physKey 0 1 (2 ^ 30 + 0xA000)) (leBytes 8 64 ++ leBytes 8 (2 ^ 20))
  (withLeaf leaf).modL lid0 fun l =>
    { l with snap := l.snap.apply (MemW.ofCells (head 0x20000 2 0 ++ head 0x40000 1 0x20000 ++ head 0x80000 0 0x40000 ++ arena)) }
/-- A launch or a node record at 0x8000, with its flags, bytes 12 to 15 and last field. -/
def nodeCells (flags gy aux : Nat) : List Host.Cell :=
  (cells (physKey 0 1 (2 ^ 30 + 0x8000)) (leBytes 8 0x1000 ++ leBytes 4 1 ++ leBytes 4 gy ++ leBytes 4 1 ++ leBytes 2 1 ++
    leBytes 5 (2 ^ 8 + 2 ^ 24) ++ leBytes 1 flags ++ leBytes 8 0 ++ leBytes 4 1 ++ leBytes 16 0 ++ leBytes 8 aux)).filter fun c => c.2 != 0

theorem witness_MovesComplete :
    (takes (.nop {}) base) = true ∧
    (takes (.mov { d := .v 1, a := .v 2 }) base) = true ∧
    (takes (.sel { d := .v 1, a := .v 2, b := .v 3, c := .k 1 }) base) = true ∧
    (takes (.prmt { d := .v 1, a := .v 2, b := .v 3, c := .v 4 }) base) = true ∧
    (takes (.movi { d := .v 1, modi := 3 }) base) = true ∧
    (takes (.movh { d := .s 1 }) base) = true ∧
    (takes (.shfl { d := .v 6, a := .v 5, b := .s 1 }) base fun e =>
      (e.execLanes 0).all fun l => (shflSrc 0 (e.rd32 l (.s 1)) l).all e.hasLane) = true ∧
    (takes (.rdln { d := .s 3, a := .v 2, b := .s 4 }) base fun e =>
      (e.execSlices 0).all fun c => e.hasLane (e.rd64 (4 * c) (.s 4) % 32)) = true ∧
    (takes (.wrln { d := .v 3, a := .s 2, b := .s 4 }) base fun e =>
      (e.execSlices 0).all fun c => e.hasLane (e.rd64 (4 * c) (.s 4) % 32)) = true :=
  by and_intros <;> decide

theorem witness_RegisterWordsTrap :
    (takes (.shfl { d := .v 6, a := .v 5, b := .s 1 }) (half (sregs [(1, 31)])) fun e =>
      (e.execLanes 0).any fun l => (shflSrc 0 (e.rd32 l (.s 1)) l).any fun j => !e.hasLane j) = true ∧
    (takes (.rdln { d := .s 3, a := .v 2, b := .s 4 }) (half (sregs [(4, 16)])) fun e =>
      (e.execSlices 0).any fun c => !e.hasLane (e.rd64 (4 * c) (.s 4) % 32)) = true ∧
    (takes (.wrln { d := .v 3, a := .s 2, b := .s 4 }) (half (sregs [(4, 16)])) fun e =>
      (e.execSlices 0).any fun c => !e.hasLane (e.rd64 (4 * c) (.s 4) % 32)) = true ∧
    (takes (.sfmt { imm := 0xFFFF }) base fun e => !(e.execSlices 0).isEmpty && !fmrValid 0xFFFF) = true ∧
    (takes (.bpack { d := .v 1, a := .v 2, ty := .f32, m := 6 }) (inTeam fun g => { g with kact := 1 }) fun e =>
      (halves (e.exec 0)).isNone) = true ∧
    (takes (.bunpk { d := .v 1, a := .v 2, ty := .f32, m := 6 }) (inTeam fun g => { g with kact := 1 }) fun e =>
      (halves (e.exec 0)).isNone) = true :=
  by and_intros <;> decide

theorem witness_IntegerArithmeticCompletes :
    (takes (.iadd { d := .v 1, a := .v 2, b := .v 3 }) base) = true ∧
    (takes (.iadd { d := .zero, a := .s 2, b := .s 3, lo := 1 }) base) = true ∧
    (takes (.isub { d := .v 1, a := .v 2, b := .v 3 }) base) = true ∧
    (takes (.isub { d := .zero, a := .s 2, b := .s 3, lo := 1 }) base) = true ∧
    (takes (.imul { d := .v 1, a := .v 2, b := .v 3, ty := .i32 }) base) = true ∧
    (takes (.imulh { d := .v 1, a := .v 2, b := .v 3, ty := .i32 }) base) = true ∧
    (takes (.imad { d := .v 1, a := .v 2, b := .v 3, c := .v 4, ty := .i32 }) base) = true ∧
    (takes (.imin { d := .v 1, a := .v 2, b := .v 3, ty := .i32 }) base) = true ∧
    (takes (.imax { d := .v 1, a := .v 2, b := .v 3, ty := .i32 }) base) = true ∧
    (takes (.iabs { d := .v 1, a := .v 2, ty := .i32 }) base) = true ∧
    (takes (.ineg { d := .v 1, a := .v 2, ty := .i32 }) base) = true ∧
    (takes (.lea { d := .v 2, a := .v 4, b := .v 6 }) base) = true ∧
    (takes (.iaddi { d := .v 1, a := .v 2, imm := 1 }) base) = true ∧
    (takes (.imuli { d := .v 1, a := .v 2, imm := 3 }) base) = true :=
  by and_intros <;> decide

theorem witness_LogicAndShiftsComplete :
    (takes (.and { d := .v 1, a := .v 2, b := .v 3 }) base) = true ∧
    (takes (.or { d := .v 1, a := .v 2, b := .v 3 }) base) = true ∧
    (takes (.xor { d := .v 1, a := .v 2, b := .v 3 }) base) = true ∧
    (takes (.shl { d := .v 1, a := .v 2, b := .v 3 }) base) = true ∧
    (takes (.shr { d := .v 1, a := .v 2, b := .v 3 }) base) = true ∧
    (takes (.sar { d := .v 1, a := .v 2, b := .v 3 }) base) = true ∧
    (takes (.rot { d := .v 1, a := .v 2, b := .v 3 }) base) = true ∧
    (takes (.not { d := .v 1, a := .v 2 }) base) = true ∧
    (takes (.popc { d := .v 1, a := .v 2 }) base) = true ∧
    (takes (.clz { d := .v 1, a := .v 2 }) base) = true ∧
    (takes (.brev { d := .v 1, a := .v 2 }) base) = true ∧
    (takes (.bfx { d := .v 1, a := .v 2, b := .s 3, c := .s 4, ty := .i32 }) base) = true ∧
    (takes (.bfi { d := .v 1, a := .v 2, b := .s 3, c := .s 4 }) base) = true ∧
    (takes (.andi { d := .v 1, a := .v 2, imm := 1 }) base) = true ∧
    (takes (.ori { d := .v 1, a := .v 2, imm := 1 }) base) = true ∧
    (takes (.xori { d := .v 1, a := .v 2, imm := 1 }) base) = true ∧
    (takes (.shli { d := .v 1, a := .v 2, imm := 1 }) base) = true ∧
    (takes (.shri { d := .v 1, a := .v 2, imm := 1 }) base) = true ∧
    (takes (.kpop { d := .s 2, a := .k 1, m := 1 }) base) = true ∧
    (takes (.kffs { d := .v 2, a := .k 1 }) base) = true :=
  by and_intros <;> decide

theorem witness_ComparisonsAndMasksComplete :
    (takes (.icmp { d := .k 1, a := .v 2, b := .v 3, ty := .i32, lo := 2 }) base) = true ∧
    (takes (.icmp { d := .zero, a := .s 2, b := .s 3, ty := .i32, lo := 14 }) base) = true ∧
    (takes (.icmpi { d := .k 2, a := .v 4, imm := 0xA0000001 }) base) = true ∧
    (takes (.icmpi { d := .zero, a := .s 4, imm := 0xE0000001 }) base) = true ∧
    (takes (.fcmp { d := .k 2, a := .v 1, b := .v 3, ty := .f32, lo := 2 }) base) = true ∧
    (takes (.fcmp { d := .zero, a := .s 1, b := .s 3, ty := .f32, lo := 14 }) base) = true ∧
    (takes (.kand { d := .k 1, a := .k 2, b := .k 3 }) base) = true ∧
    (takes (.kor { d := .k 1, a := .k 2, b := .k 3 }) base) = true ∧
    (takes (.kxor { d := .k 1, a := .k 2, b := .k 3 }) base) = true ∧
    (takes (.knot { d := .k 5, a := .k 4 }) base) = true ∧
    (takes (.kset { d := .k 6 }) base) = true ∧
    (takes (.kmov { d := .k 6, a := .v 3 }) base) = true ∧
    (takes (.kmov { d := .k 6, a := .s 3 }) base) = true ∧
    (takes (.kmov { d := .k 6, a := .k 3 }) base) = true ∧
    (takes (.kmov { d := .s 6, a := .k 3 }) base) = true :=
  by and_intros <;> decide

theorem witness_PackingAndStatusComplete :
    (takes (.pack { d := .v 1, a := .v 2, b := .v 3, ty := .n8x4 }) base) = true ∧
    (takes (.unpk { d := .v 1, a := .v 2, ty := .n8x4 }) base) = true ∧
    (takes (.sfmt { imm := 0x0311 }) base fun _ => fmrValid 0x0311) = true ∧
    (takes (.clrst { d := .s 1, a := .s 2 }) base) = true ∧
    (takes (.bpack { d := .v 1, a := .v 2, ty := .f32, m := 6 }) base fun e => (halves (e.exec 0)).isSome) = true ∧
    (takes (.bunpk { d := .v 1, a := .v 2, ty := .f32, m := 6 }) base fun e => (halves (e.exec 0)).isSome) = true ∧
    (takes (.sfmt { imm := 0x0311 }) (inTeam fun g => { g with badX := [32 * Special.fmr.code] }) fun e =>
      fmrValid 0x0311 && e.g.badX != []) = true :=
  by and_intros <;> decide

theorem witness_FloatingPointCompletes :
    (takes (.fadd { d := .v 1, a := .v 2, b := .v 3, ty := .f32 }) base) = true ∧
    (takes (.fsub { d := .v 1, a := .v 2, b := .v 3, ty := .f32 }) base) = true ∧
    (takes (.fmul { d := .v 1, a := .v 2, b := .v 3, ty := .f32 }) base) = true ∧
    (takes (.fmin { d := .v 1, a := .v 2, b := .v 3, ty := .f32 }) base) = true ∧
    (takes (.fmax { d := .v 1, a := .v 2, b := .v 3, ty := .f32 }) base) = true ∧
    (takes (.fcps { d := .v 1, a := .v 2, b := .v 3, ty := .f32 }) base) = true ∧
    (takes (.ffma { d := .v 1, a := .v 2, b := .v 3, c := .v 4, ty := .f32 }) base) = true ∧
    (takes (.fabs { d := .v 1, a := .v 2, ty := .f32 }) base) = true ∧
    (takes (.fneg { d := .v 1, a := .v 2, ty := .f32 }) base) = true ∧
    (takes (.fclass { d := .v 1, a := .v 2, ty := .f32 }) base) = true ∧
    (takes (.frnd { d := .v 1, a := .v 2, ty := .f32 }) base) = true ∧
    (takes (.fgexp { d := .v 1, a := .v 2, ty := .f32 }) base) = true ∧
    (takes (.f2i { d := .v 1, a := .v 2, ty := .f32 }) base) = true ∧
    (takes (.fscl { d := .v 1, a := .v 2, b := .v 3, ty := .f32 }) base) = true ∧
    (takes (.i2f { d := .v 1, a := .v 2, ty := .i32, m := 1 }) base) = true ∧
    (takes (.f2f { d := .v 5, a := .v 7, m := 4, lo := 6 }) base) = true ∧
    (takes (.fdp2 { d := .v 1, a := .v 2, b := .v 3, c := .v 4, ty := .bf16x2 }) base) = true ∧
    (takes (.faddi { d := .v 1, a := .v 2, imm := 0x3F800000 }) base) = true ∧
    (takes (.fmuli { d := .v 1, a := .v 2, imm := 0x3F800000 }) base) = true ∧
    (takes (.ffmai { d := .v 1, a := .v 2, imm := 0x3F800000 }) base) = true :=
  by and_intros <;> decide

theorem witness_PendingFloatingPointCompletes :
    (takes (.fdiv { d := .v 1, a := .v 2, b := .v 3, ty := .f32 }) base) = true ∧
    (takes (.fsqrt { d := .v 1, a := .v 2, ty := .f32 }) base) = true ∧
    (takes (.frcp { d := .v 1, a := .v 2, ty := .f32 }) base) = true ∧
    (takes (.frsq { d := .v 1, a := .v 2, ty := .f32 }) base) = true ∧
    (takes (.fex2 { d := .v 1, a := .v 2, ty := .f32 }) base) = true ∧
    (takes (.flg2 { d := .v 1, a := .v 2, ty := .f32 }) base) = true ∧
    (takes (.fsin { d := .v 1, a := .v 2, ty := .f32 }) base) = true ∧
    (takes (.fcos { d := .v 1, a := .v 2, ty := .f32 }) base) = true :=
  by and_intros <;> decide

theorem witness_PairWordsComplete :
    (takes (.pairWord { s0 := { op := .mov, d := 10 }, s1 := { op := .iadd, src := .imm 32 } }) base) = true :=
  by decide

theorem witness_BranchesComplete :
    (takes (.bra { cc := .al, disp := 4 }) base fun e => e.live != [] && (e.target 4).isSome &&
      e.live.all fun i => condHolds .al (e.g.flags i)) = true ∧
    (takes (.bra { cc := .eq, disp := 4 }) base fun e => e.live != [] && e.live.all fun i => !condHolds .eq (e.g.flags i)) = true ∧
    (takes (.bkz { cc := .al, kt := 3, disp := 4 }) base fun e => e.live != [] && (e.target 4).isSome &&
      e.live.all fun i => e.g.maskBits 3 i == 0) = true ∧
    (takes (.bknz { cc := .al, kt := 0, disp := 4 }) base fun e => e.live != [] && (e.target 4).isSome &&
      e.live.all fun i => e.g.maskBits 0 i != 0) = true ∧
    (takes (.loop { cc := .al, st := 9, disp := 4 }) (inTeam (sregs [(9, 5)])) fun e => e.live != [] &&
      (e.target 4).isSome && e.live.all fun i => e.g.sr 9 i != 1) = true ∧
    (takes (.jmpi { a := .s 5 }) (inTeam (sregs [(5, 0x2000)])) fun e => e.live != [] &&
      e.live.all fun i => e.rd64 (4 * i) (.s 5) == 0x2000) = true :=
  by and_intros <;> decide

theorem witness_PartingWordsPart :
    (takes (.bra { cc := .lt, pt := true, disp := 4 }) base fun e => e.live != [] && e.g.depthOf 255 != 16 && (e.target 4).isSome) = true ∧
    (takes (.bkz { cc := .al, kt := 1, pt := true, disp := 4 }) base fun e => e.live != [] && e.g.depthOf 255 != 16 &&
      (e.target 4).isSome) = true ∧
    (takes (.bknz { cc := .al, kt := 1, pt := true, disp := 4 }) base fun e => e.live != [] && e.g.depthOf 255 != 16 &&
      (e.target 4).isSome) = true ∧
    (takes (.loop { cc := .al, st := 9, pt := true, disp := 4 }) base fun e => e.live != [] && e.g.depthOf 255 != 16 &&
      (e.target 4).isSome) = true ∧
    (takes (.jmpi { a := .s 5, m := 1 }) (inTeam (sregs [(5, 0x2000)])) fun e => e.live != [] && e.g.depthOf 255 != 16 &&
      e.live.all fun i => e.rd64 (4 * i) (.s 5) % 8 == 0) = true :=
  by and_intros <;> decide

theorem witness_ControlMemoryAndGroupWordsTrap :
    (takes (.bra { cc := .eq, disp := 4 }) (inTeam fun g => { g with slices := g.slices.modify 0 fun x => { x with z := true } }) fun e =>
      e.target 4 != some (e.pc + 8) && (e.target 4).isSome && condHolds .eq (e.g.flags 0) &&
      !condHolds .eq (e.g.flags 1)) = true ∧
    (takes (.bkz { cc := .al, kt := 1, disp := 4 }) (inTeam fun g => { g with kreg := [(1, 15)] }) fun e =>
      e.g.maskBits 1 1 == 0 && e.g.maskBits 1 0 != 0) = true ∧
    (takes (.bknz { cc := .al, kt := 1, disp := 4 }) (inTeam fun g => { g with kreg := [(1, 15)] }) fun e =>
      e.g.maskBits 1 0 != 0 && e.g.maskBits 1 1 == 0) = true ∧
    (takes (.loop { cc := .al, st := 9, disp := 4 }) (inTeam fun g => { g with sreg := [(73, 1)] }) fun e =>
      e.g.sr 9 0 != 1 && e.g.sr 9 1 == 1) = true ∧
    (takes (.bra { cc := .al, pt := true, disp := 4 }) (inTeam fun g => { g with recs := [{ s := 255, path := [], fmr := [], depth := 16 }] }) fun e =>
      e.g.depthOf 255 == 16 && e.live != []) = true ∧
    (takes (.bra { cc := .al, disp := 0x80000000 }) base fun e => (e.target 0x80000000).isNone && e.live.contains 0 &&
      condHolds .al (e.g.flags 0)) = true ∧
    (takes (.jmpi { a := .s 5 }) (inTeam (sregs [(5, 0x2004)])) fun e => e.live.contains 0 && e.rd64 0 (.s 5) % 8 != 0) = true ∧
    (takes (.call { cc := .al, disp := 4 }) (inTeam fun g => { g with slices := g.slices.map fun x => { x with call := List.replicate 16 0 } }) fun e =>
      (e.target 4).isSome && (e.g.slice 0).call.length == 16) = true ∧
    (takes (.calli { a := .s 5 }) (inTeam fun g => { g with sreg := [(40, 0x2000)] }) fun e => e.rd64 0 (.s 5) != e.rd64 4 (.s 5)) = true ∧
    (takes (.ret {}) base fun e => (e.g.slice 0).call == []) = true ∧
    (takes (.regang {}) base fun e => e.g.depthOf 255 == 0) = true ∧
    (takes (.ld { d := .v 1, a := .s 4, width := .w32 }) (inTeam (sregs [(4, 2 ^ 55 + 2)])) fun e =>
      (e.places 0 (.v 1)).contains 0 && e.addr { d := .v 1, a := .s 4, width := .w32 } 0 % 4 != 0) = true ∧
    (takes (.pushs { a := .v 4, m := 15 }) base fun e => e.lch.lr.spill * 8 < (e.g.slice 0).sp + 16 * spillSize (.v 4)) = true ∧
    (takes (.pops { d := .s 4 }) base fun e => (e.g.slice 0).sp < spillSize (.s 4)) = true ∧
    (takes (.cbar { m := 1 }) half fun e => !e.whole) = true ∧
    (takes (.mbld { a := .v 16 }) half fun e => !e.whole) = true ∧
    (takes (.mma { d := .x 0, a := .v 8 }) half fun e => !e.whole) = true ∧
    (takes (.gbar {}) (inTeam id id fun l => { l with lr := { l.lr with coop := false } }) fun e => e.whole && !e.lch.lr.coop) = true ∧
    (takes (.tsbar {}) (inTeam id id fun l => { l with lr := { l.lr with coop := false } }) fun e => e.whole && !e.lch.lr.coop) = true ∧
    (takes (.ld { d := .v 1, a := .s 4, width := .w32 }) (inTeam (sregs [(4, 2 ^ 40)])) fun e =>
      (e.places 0 (.v 1)).contains 0 && e.addr { d := .v 1, a := .s 4, width := .w32 } 0 % 4 == 0 &&
      (match e.locate false false (e.addr { d := .v 1, a := .s 4, width := .w32 } 0) with | .error c => c == 6 | .ok _ => false)) = true ∧
    (takes (.ld { d := .v 1, a := .s 4, width := .w32 }) (inTeam (sregs [(4, 0x8000)])) fun e =>
      (e.places 0 (.v 1)).contains 0 &&
      (match e.locate false false (e.addr { d := .v 1, a := .s 4, width := .w32 } 0) with | .error c => c == 5 | .ok _ => false)) = true ∧
    (takes (.st { d := .v 1, a := .s 4, width := .w32 }) (inTeam (sregs [(4, 2 ^ 55 + 12288)])) fun e =>
      (e.places 0 (.v 1)).contains 0 &&
      (match e.locate true false (e.addr { d := .v 1, a := .s 4, width := .w32 } 0) with | .error c => c == 7 | .ok _ => false)) = true ∧
    (takes (.ld { d := .s 1, a := .s 4, width := .w32 }) (onCtl (cregs [(4, 2 ^ 55)])) fun e => e.g.isCtl &&
      (e.places 0 (.s 1)).contains 0 &&
      (match e.locate false false (e.addr { d := .s 1, a := .s 4, width := .w32 } 0) with | .error c => c == 7 | .ok _ => false)) = true ∧
    (takes (.st { d := .v 1, a := .s 4, width := .w32 }) (inTeam (sregs [(4, 2 ^ 55 + 4096)]) withQueue declares) fun e =>
      isOk (e.locate true false (2 ^ 55 + 4096)) fun l => let x : Place := { p := 0, addr := 2 ^ 55 + 4096, loc := l };
      x.inRing e && !e.team.holds e.lch (gidG e.gid) x.off) = true ∧
    (takes (.st { d := .v 1, a := .s 4, width := .w32 }) (inTeam (sregs [(4, 2 ^ 55)]) id fun l => { l with lr := { l.lr with shadow := 0 } }) fun e =>
      isOk (e.locate true false (2 ^ 55)) fun l => let x : Place := { p := 0, addr := 2 ^ 55, loc := l };
      !x.inRing e && !e.linesFit (Access.st.takes e { d := .v 1, a := .s 4, width := .w32 } [x]).1 0) = true ∧
    (takes (.ld { d := .v 1, a := .s 4, width := .w32 }) (inTeam fun g => { sregs [(4, 2 ^ 55)] g with subs := g.subs.map fun u => { u with lvl := { u.lvl with view := { poison := [0] } } } }) fun e =>
      isOk (e.locate false false (2 ^ 55)) fun l => e.damagedAt 4 { p := 0, addr := 2 ^ 55, loc := l }) = true ∧
    (takes (.atom { d := .v 1, a := .s 4, width := .w32, sx := true }) half fun e => !e.whole) = true ∧
    (stands (mappedCtl (onCtl id)) fun e => e.g.isCtl && isOk (translate e.s e.cid (2 ^ 30)) (fun q => q.ty == 6 &&
      isOk (blockOf q.target)) && isOk (translate e.s e.cid 0x8000) fun q => q.ty != 6) = true ∧
    (stands (mappedCtl base) fun e => !e.g.isCtl && isOk (translate e.s e.cid (2 ^ 30)) (fun q => q.ty == 6) &&
      isOk (e.window (2 ^ 55)) (fun w => w.1) && !isOk (e.window (2 ^ 55 + 2 ^ 40))) = true ∧
    (stands (inTeam id id fun l => { l with lr := { l.lr with clog := 1, gx := 2 } }) fun e =>
      isOk (e.window (2 ^ 55 + 2 ^ 19)) fun w => !w.1) = true ∧
    (takes (.bkz { cc := .al, kt := 1, pt := true, disp := 4 }) (inTeam fun g => { g with recs := [{ s := 255, path := [], fmr := [], depth := 16 }] }) fun e =>
      (e.target 4).isSome && e.g.depthOf 255 == 16) = true ∧
    (takes (.bknz { cc := .al, kt := 1, pt := true, disp := 4 }) (inTeam fun g => { g with recs := [{ s := 255, path := [], fmr := [], depth := 16 }] }) fun e =>
      (e.target 4).isSome && e.g.depthOf 255 == 16) = true ∧
    (takes (.loop { cc := .al, st := 9, pt := true, disp := 4 }) (inTeam fun g => { g with recs := [{ s := 255, path := [], fmr := [], depth := 16 }] }) fun e =>
      (e.target 4).isSome && e.g.depthOf 255 == 16) = true ∧
    (takes (.bkz { cc := .al, kt := 3, disp := 0x80000000 }) base fun e => (e.target 0x80000000).isNone &&
      e.live.contains 0 && !e.g.isCtl && e.g.maskBits 3 0 == 0) = true ∧
    (takes (.bknz { cc := .al, kt := 0, disp := 0x80000000 }) base fun e => (e.target 0x80000000).isNone &&
      e.live.contains 0 && !e.g.isCtl && e.g.maskBits 0 0 != 0) = true ∧
    (takes (.loop { cc := .al, st := 9, disp := 0x80000000 }) (inTeam (sregs [(9, 5)])) fun e =>
      (e.target 0x80000000).isNone && e.live.contains 0 && e.g.sr 9 0 != 1) = true ∧
    (takes (.call { cc := .al, disp := 0x80000000 }) base fun e => (e.target 0x80000000).isNone && e.live.contains 0) = true ∧
    (takes (.jmpi { a := .s 5 }) (inTeam (sregs [(5, 2 ^ 56)])) fun e => e.live.contains 0 &&
      e.live.all (fun n => e.rd64 (4 * n) (.s 5) % 8 == 0) && 2 ^ 56 ≤ e.rd64 0 (.s 5)) = true ∧
    (takes (.jmpi { a := .s 5, m := 1 }) (inTeam fun g => { sregs [(5, 0x2000)] g with recs := [{ s := 255, path := [], fmr := [], depth := 16 }] }) fun e =>
      e.live.contains 0 && e.g.depthOf 255 == 16 && e.live.all fun n => e.rd64 (4 * n) (.s 5) == 0x2000) = true ∧
    (takes (.jmpi { a := .s 5 }) (inTeam fun g => { g with sreg := [(40, 0x2000)] }) fun e => e.live.contains 0 &&
      e.live.contains 1 && e.live.all (fun n => e.rd64 (4 * n) (.s 5) % 8 == 0) && e.rd64 0 (.s 5) != e.rd64 4 (.s 5)) = true ∧
    (takes (.calli { a := .s 6 }) (inTeam (sregs [(6, 0x2004)])) fun e => e.live.contains 0 &&
      e.live.all fun n => e.rd64 (4 * n) (.s 6) == 0x2004) = true ∧
    (takes (.calli { a := .s 6 }) (inTeam (sregs [(6, 2 ^ 56)])) fun e => e.live.contains 0 &&
      e.live.all fun n => e.rd64 (4 * n) (.s 6) == 2 ^ 56) = true ∧
    (takes (.calli { a := .s 6 }) (inTeam fun g => { sregs [(6, 0x2000)] g with slices := g.slices.map fun x => { x with call := List.replicate 16 0 } }) fun e =>
      e.live.contains 0 && e.live.all (fun n => e.rd64 (4 * n) (.s 6) == 0x2000) && (e.g.slice 0).call.length == 16) = true ∧
    (takes (.ret {}) (inTeam fun g => { g with slices := g.slices.mapIdx fun n x => { x with call := [BitVec.ofNat 64 (8 * n)] } }) fun e =>
      e.live.contains 0 && e.live.contains 1 && e.live.all (fun n => (e.g.slice n).call != []) &&
      (e.g.slice 0).call.head? != (e.g.slice 1).call.head?) = true :=
  by and_intros <;> decide

theorem witness_PartOfTheGangTraps :
    (takes (.atom { d := .v 3, a := .s 2, width := .w32, sx := true }) half fun e => e.sub.mask != 255 && !e.g.isCtl) = true ∧
    (takes (.cas { d := .v 4, a := .s 2, width := .w32, sx := true }) half fun e => e.sub.mask != 255) = true ∧
    (takes (.cmitT {}) half fun e => e.sub.mask != 255) = true ∧
    (takes (.cmitC { m := 1 }) half fun e => e.sub.mask != 255) = true ∧
    (takes (.cmitD { m := 2 }) half fun e => e.sub.mask != 255) = true ∧
    (takes (.bar {}) half fun e => e.sub.mask != 255) = true ∧
    (takes (.abrtG { disp := 4 }) half fun e => e.sub.mask != 255) = true ∧
    (takes (.atom { d := .v 3, a := .s 4, width := .w32, sx := true }) (inTeam fun g => { sregs [(4, 2 ^ 55)] g with kact := 1 }) fun e =>
      let f : MWord := { d := .v 3, a := .s 4, width := .w32, sx := true }; e.sub.mask == 255 && e.exec 0 == 1 &&
      e.s.tokenHolds e.team e.tid e.gid && isOk (e.reach f true false) fun ps => isOk (e.noPoison f ps) &&
      isOk (e.needLines f.d ps (e.rmwLines true true 4))) = true ∧
    (takes (.cas { d := .v 4, a := .s 4, width := .w32, sx := true }) (inTeam fun g => { sregs [(4, 2 ^ 55)] g with kact := 1 }) fun e =>
      let f : MWord := { d := .v 4, a := .s 4, width := .w32, sx := true }; e.sub.mask == 255 && e.exec 0 == 1 &&
      e.s.tokenHolds e.team e.tid e.gid && isOk (e.reach f true true) fun ps => isOk (e.noPoison f ps) &&
      isOk (e.needLines f.d ps (e.rmwLines true false 4))) = true ∧
    (takes (.cmitT {}) (inTeam fun g => { g with kact := 1 }) fun e => e.sub.mask == 255 && e.exec 0 == 1) = true ∧
    (takes (.abrtG { disp := 4 }) (inTeam fun g => { g with kact := 1 }) fun e => e.sub.mask == 255 && e.exec 0 == 1 &&
      (e.target 4).isSome) = true ∧
    (takes (.cmitC { m := 1 }) (inTeam fun g => { g with kact := 1 }) fun e => e.sub.mask == 255 && e.exec 0 == 1 &&
      e.g.owed.isNone && e.deferOpen.isNone) = true ∧
    (takes (.cmitD { m := 2 }) (inTeam fun g => { g with kact := 1 }) fun e => e.sub.mask == 255 && e.exec 0 == 1 &&
      e.g.owed.isNone && e.deferOpen.isNone) = true ∧
    (takes (.bar {}) (inTeam fun g => { g with kact := 1 }) fun e => e.sub.mask == 255 && e.exec 0 == 1 &&
      e.g.owed.isNone && e.deferOpen.isNone) = true :=
  by and_intros <;> decide

theorem witness_CallsComplete :
    (takes (.call { cc := .al, disp := 4 }) base fun e => e.live != [] && (e.target 4).isSome &&
      (slicesOf 255).all fun i => (e.g.slice i).call.length != 16) = true ∧
    (takes (.calli { a := .s 6 }) (inTeam (sregs [(6, 0x2000)])) fun e => e.live != [] &&
      e.live.all (fun i => e.rd64 (4 * i) (.s 6) == 0x2000) &&
      (slicesOf 255).all fun i => (e.g.slice i).call.length != 16) = true ∧
    (takes (.ret {}) (inTeam fun g => { g with slices := g.slices.map fun x => { x with call := [0x2000] } }) fun e =>
      e.live != [] && e.live.all fun i => (e.g.slice i).call.head? == some 0x2000) = true :=
  by and_intros <;> decide

theorem witness_JoinsAndExitComplete :
    (takes (.regang {}) (inTeam fun g => { g with recs := [{ s := 255, path := [], fmr := [], depth := 1 }] }) fun e =>
      e.g.depthOf 255 != 0) = true ∧
    (takes (.ksync { a := .s 1 }) (inTeam (sregs [(1, 255)])) fun e => e.live != [] && (e.g.innermost 255).isNone &&
      e.live.all fun i => fld (e.rd64 (4 * i) (.s 1)) 0 8 == 255) = true ∧
    (takes (.exit { k := 1 }) base fun e => e.exec 1 == 0) = true ∧
    (takes (.exit {}) base fun e => e.exec 0 != 0) = true ∧
    ((let g : Group := { subs := [{ mask := 15, park := .regang }, { mask := 240 }], recs := [{ s := 255, path := [], fmr := [], depth := 1 }] };
      (g.innermost 15).isSome && (g.liveSubs 255).any fun p => p.park != .regang)) = true ∧
    ((let g : Group := { subs := [{ mask := 15, park := .regang }, { mask := 240, park := .regang }], recs := [{ s := 255, path := [], fmr := [], depth := 1 }] };
      (g.innermost 15).isSome && !g.halted && (g.liveSubs 255).length == 2 &&
      (g.liveSubs 255).all fun p => p.park == .regang && g.innermost p.mask == g.innermost 15 &&
      g.pcOf p.mask == g.pcOf 15)) = true ∧
    (takes (.ksync { a := .s 1 }) (inTeam fun g => { g with sreg := [(8, 255)] }) fun e => !e.g.isCtl &&
      e.live.contains 0 && e.live.contains 1 && fld (e.rd64 4 (.s 1)) 0 8 != fld (e.rd64 0 (.s 1)) 0 8) = true ∧
    (takes (.ksync { a := .s 1 }) (inTeam (sregs [(1, 254)])) fun e => !e.g.isCtl && e.live.contains 0 &&
      fld (e.rd64 0 (.s 1)) 0 8 &&& e.sub.mask != e.sub.mask) = true ∧
    (takes (.ksync { a := .s 1 }) (half fun g => { sregs [(1, 31)] g with recs := [{ s := 15, path := [], fmr := [], depth := 1 }] }) fun e =>
      !e.g.isCtl && e.live.contains 0 && (e.g.innermost 15).any fun r => 31 &&& r.s != 31) = true ∧
    ((let s := half fun g => { g with subs := [{ mask := 15, park := .regang }, { mask := 240, park := .regang }], recs := [{ s := 255, path := [], fmr := [], depth := 1 }], slices := g.slices.mapIdx fun n x => if n < 4 then x else { x with pc := 8 } };
      (tget gid0 s.groups).any fun g => !g.halted && (g.innermost 15).isSome &&
      (g.liveSubs 255).all (fun p => p.park == .regang && g.innermost p.mask == g.innermost 15) &&
      (g.liveSubs 255).any (fun p => g.pcOf p.mask != g.pcOf 15) &&
      ((g.subs.find? fun x => bitOf x.mask (lowest (255 &&& g.liveMask))).bind fun y => envOf s { gid := gid0, mask := y.mask }).any fun e =>
      !e.g.isCtl)) = true ∧
    ((let g : Group := { subs := [{ mask := 15, park := .ksync 255 }, { mask := 240 }] }; (g.sub 15).isSome &&
      (g.liveSubs 255).any fun p => p.park == .none)) = true ∧
    ((let s := half fun g => { g with subs := [{ mask := 15, park := .ksync 255 }, { mask := 240, park := .ksync 255 }] };
      (tget gid0 s.groups).any fun g => !g.halted && (g.liveSubs 255).length == 2 &&
      (g.liveSubs 255).all fun p => p.park == .ksync 255 && g.pcOf p.mask == g.pcOf 15 &&
      g.innermost p.mask == g.innermost 15 && p.mask &&& 255 == p.mask)) = true ∧
    ((let s := half fun g => { g with subs := [{ mask := 15, park := .ksync 255 }, { mask := 240, park := .ksync 240 }] };
      (tget gid0 s.groups).any fun g => !g.halted &&
      (g.liveSubs 255).all (fun p => p.park == .ksync 255 || p.park == .ksync 240) &&
      (g.liveSubs 255).any (fun p => p.park != .ksync 255) &&
      ((g.subs.find? fun x => bitOf x.mask (lowest (255 &&& g.liveMask))).bind fun y => envOf s { gid := gid0, mask := y.mask }).any fun e =>
      !e.g.isCtl)) = true ∧
    ((let g : Group := { subs := [{ mask := 15, park := .regang }, { mask := 240, park := .regang }], recs := [{ s := 255, path := [], fmr := [], depth := 1 }], pend := [pend0] };
      (g.innermost 15).isSome && !g.halted && (g.liveSubs 255).length == 2 &&
      (g.liveSubs 255).all (fun p => p.park == .regang && g.innermost p.mask == g.innermost 15 &&
      g.pcOf p.mask == g.pcOf 15) && !g.allReturned 255)) = true ∧
    ((let g : Group := { subs := [{ mask := 15, park := .regang }, { mask := 240, park := .regang }], recs := [{ s := 255, path := [], fmr := [], depth := 1 }], pend := [{ pend0 with returned := true, fails := [(0, { code := 4, slice := 0, fpc := 0, rpc := 0 })] }] };
      (g.innermost 15).isSome && !g.halted && (g.liveSubs 255).length == 2 &&
      (g.liveSubs 255).all (fun p => p.park == .regang && g.innermost p.mask == g.innermost 15 &&
      g.pcOf p.mask == g.pcOf 15) && g.allReturned 255 &&
      (g.failedLane 255).any fun r => (g.subs.find? fun x => bitOf x.mask (r.1 / 4)).isSome)) = true ∧
    ((let g : Group := { subs := [{ mask := 15, park := .regang }, { mask := 240, park := .regang }], recs := [{ s := 255, path := [], fmr := [], depth := 1 }], pend := [{ pend0 with returned := true }] };
      (g.innermost 15).isSome && !g.halted && (g.liveSubs 255).length == 2 &&
      (g.liveSubs 255).all (fun p => p.park == .regang && g.innermost p.mask == g.innermost 15 &&
      g.pcOf p.mask == g.pcOf 15) && g.allReturned 255 && (g.failedLane 255).isNone)) = true ∧
    ((let g : Group := { subs := [{ mask := 15, park := .ksync 255 }, { mask := 240, park := .ksync 255 }], recs := [{ s := 255, path := [], fmr := [], depth := 1 }], pend := [pend0] };
      (g.innermost 15).isSome && !g.halted && (g.liveSubs 255).length == 2 &&
      (g.liveSubs 255).all (fun p => p.park == .ksync 255 && g.innermost p.mask == g.innermost 15 &&
      g.pcOf p.mask == g.pcOf 15) && !g.allReturned 255)) = true ∧
    ((let g : Group := { subs := [{ mask := 15, park := .ksync 255 }, { mask := 240, park := .ksync 255 }], recs := [{ s := 255, path := [], fmr := [], depth := 1 }], pend := [{ pend0 with returned := true, fails := [(0, { code := 4, slice := 0, fpc := 0, rpc := 0 })] }] };
      (g.innermost 15).isSome && !g.halted && (g.liveSubs 255).length == 2 &&
      (g.liveSubs 255).all (fun p => p.park == .ksync 255 && g.innermost p.mask == g.innermost 15 &&
      g.pcOf p.mask == g.pcOf 15) && g.allReturned 255 &&
      (g.failedLane 255).any fun r => (g.subs.find? fun x => bitOf x.mask (r.1 / 4)).isSome)) = true ∧
    ((let g : Group := { subs := [{ mask := 15, park := .ksync 255 }, { mask := 240, park := .ksync 255 }], recs := [{ s := 255, path := [], fmr := [], depth := 1 }], pend := [{ pend0 with returned := true }] };
      (g.innermost 15).isSome && !g.halted && (g.liveSubs 255).length == 2 &&
      (g.liveSubs 255).all (fun p => p.park == .ksync 255 && g.innermost p.mask == g.innermost 15 &&
      g.pcOf p.mask == g.pcOf 15) && g.allReturned 255 && (g.failedLane 255).isNone)) = true ∧
    (takes (.exit {}) (inTeam fun g => { g with rays := [(0, { phase := .opened })] }) fun e => bitOf (e.exec 0) 0 &&
      (e.g.ray 0).phase == .opened) = true :=
  by and_intros <;> decide

theorem witness_AccessReachesAddress :
    (takes (.ld { d := .v 1, a := .s 4, width := .w32 }) (inTeam (sregs [(4, 2 ^ 55)])) fun e =>
      isOk (e.reach { d := .v 1, a := .s 4, width := .w32 } false false) fun ps => ps != []) = true :=
  by decide

theorem witness_LoadCompletes :
    (takes (.ld { d := .v 1, a := .s 4, width := .w32 }) (inTeam (sregs [(4, 2 ^ 55)])) fun e =>
      isOk (e.reach { d := .v 1, a := .s 4, width := .w32 } false false) fun ps => isOk (e.noPoison { d := .v 1, a := .s 4, width := .w32 } ps)) = true :=
  by decide

theorem witness_StoreCompletes :
    (takes (.st { d := .v 1, a := .s 4, width := .w32 }) (inTeam (sregs [(4, 2 ^ 55)])) fun e => !e.g.isCtl &&
      isOk (e.reach { d := .v 1, a := .s 4, width := .w32 } true false) fun ps => isOk (e.needLines (.v 1) ps fun l => (e.placeLines 4 l, 0))) = true ∧
    (takes (.st { d := .s 1, a := .s 4, width := .w64 }) (mappedCtl (onCtl (cregs [(4, 2 ^ 30 + 64)]))) fun e =>
      e.g.isCtl && isOk (e.reach { d := .s 1, a := .s 4, width := .w64 } true false) fun ps => ps.length == 1 &&
      isOk (e.needLines (.s 1) ps fun l => (e.placeLines 8 l, 0)) &&
      ps.all fun x => match x.loc with | .mem _ => true | _ => false) = true ∧
    (takes (.st { d := .s 1, a := .s 4, width := .w64 }) (mappedCtl (onCtl (cregs [(4, 2 ^ 30 + 2 ^ 20)]))) fun e =>
      e.g.isCtl && isOk (e.reach { d := .s 1, a := .s 4, width := .w64 } true false) fun ps => ps.length == 1 &&
      ps.all fun x => match x.loc with | .block _ _ => true | _ => false) = true :=
  by and_intros <;> decide

theorem witness_AtomicWordsComplete :
    (takes (.atom { d := .v 3, a := .s 4, width := .w32 }) (inTeam (sregs [(4, 2 ^ 55)])) fun e =>
      let f : MWord := { d := .v 3, a := .s 4, width := .w32 };
      isOk (e.reach f true false) fun ps => isOk (e.noPoison f ps) &&
      isOk (e.needLines f.d ps (e.rmwLines false true 4))) = true ∧
    (takes (.atom { d := .v 3, a := .s 4, width := .w32, sx := true }) (inTeam (sregs [(4, 2 ^ 55)])) fun e =>
      let f : MWord := { d := .v 3, a := .s 4, width := .w32, sx := true }; e.whole &&
      e.s.tokenHolds e.team e.tid e.gid && isOk (e.reach f true false) fun ps => isOk (e.noPoison f ps) &&
      isOk (e.needLines f.d ps (e.rmwLines true true 4))) = true ∧
    (takes (.cas { d := .v 4, a := .s 4, width := .w32 }) (inTeam (sregs [(4, 2 ^ 55)])) fun e =>
      let f : MWord := { d := .v 4, a := .s 4, width := .w32 };
      isOk (e.reach f true true) fun ps => isOk (e.noPoison f ps) &&
      isOk (e.needLines f.d ps (e.rmwLines false false 4))) = true ∧
    (takes (.red { d := .v 3, a := .s 4, width := .w32 }) (inTeam (sregs [(4, 2 ^ 55)])) fun e =>
      let f : MWord := { d := .v 3, a := .s 4, width := .w32 };
      isOk (e.reach f true false) fun ps => isOk (e.needLines f.d ps (e.rmwLines false true 4))) = true ∧
    (takes (.atom { d := .v 3, a := .s 4, width := .w32 }) (inTeam fun g => { sregs [(4, 2 ^ 55)] g with kact := 1 }) fun e =>
      let f : MWord := { d := .v 3, a := .s 4, width := .w32 };
      isOk (e.reach f true false) fun ps => ps.length == 1 && isOk (e.noPoison f ps) &&
      isOk (e.needLines f.d ps (e.rmwLines false true 4)) &&
      ps.all fun x => match x.loc with | .own off => e.lch.areaOf off == .data | _ => false) = true ∧
    (takes (.cas { d := .v 4, a := .s 4, width := .w64, sx := true }) (inTeam (sregs [(4, 2 ^ 55)])) fun e =>
      let f : MWord := { d := .v 4, a := .s 4, width := .w64, sx := true }; e.whole &&
      e.s.tokenHolds e.team e.tid e.gid && isOk (e.reach f true true) fun ps => ps.length == 32 &&
      isOk (e.noPoison f ps) && isOk (e.needLines f.d ps (e.rmwLines true false 8))) = true ∧
    (takes (.atom { d := .v 3, a := .s 4, width := .w32 }) (inTeam (fun g => { sregs [(4, 2 ^ 55 + 64)] g with kact := 1 }) withQueue fun l => { l with qdecl := [(0, 4, 512)], lr := { l.lr with scratch := 1 } }) fun e =>
      let f : MWord := { d := .v 3, a := .s 4, width := .w32 }; e.lch.areaOf 64 == .ring &&
      (match e.reach f true false with | .ok ps => ps.length == 1 && ps.all (·.inRing e) | .error _ => true)) = true :=
  by and_intros <;> decide

theorem witness_SpillStackCompletes :
    (takes (.pushs { a := .v 4 }) base fun e =>
      (slicesOf (e.sub.mask &&& e.g.liveMask)).all fun c => (e.g.slice c).sp + spillSize (.v 4) ≤ e.lch.lr.spill * 8) = true ∧
    (takes (.pops { d := .s 8 }) (inTeam fun g => { g with slices := g.slices.map fun x => { x with sp := 16 } }) fun e =>
      (slicesOf (e.sub.mask &&& e.g.liveMask)).all fun c => spillSize (.s 8) ≤ (e.g.slice c).sp) = true ∧
    (takes (.pops { d := .v 4, m := 1 }) (inTeam fun g => { g with slices := g.slices.map fun x => { x with sp := 32, spill := [(0, 1), (31, 2)] } }) fun e =>
      (slicesOf (e.sub.mask &&& e.g.liveMask)).all fun c => 2 * spillSize (.v 4) ≤ (e.g.slice c).sp) = true :=
  by and_intros <;> decide

theorem witness_WordsCheckedAtIssue :
    (stands baseCtl fun e => e.g.isCtl && !Instr.controlOk (.bar {})) = true ∧
    (stands base fun e => !e.g.isCtl && Instr.privileged (.halt {})) = true ∧
    (stands (inTeam fun g => { g with budget := 16 }) fun e => Instr.overBudget (.mov { d := .v 16, a := .v 0 }) e.g.budget) = true ∧
    (stands (inTeam fun g => { g with badV := [64] }) fun e => (e.damaged (.mov { d := .v 1, a := .v 2 }) 0).isSome &&
      !Instr.isV (.mov { d := .v 1, a := .v 2 }) && !Instr.overBudget (.mov { d := .v 1, a := .v 2 }) e.g.budget) = true ∧
    (stands (inTeam fun g => { g with pend := List.replicate 32 pend0 }) fun e =>
      Instr.isV (.fsqrt { d := .v 1, a := .v 2, ty := .f32 }) &&
      e.lanesFor (.fsqrt { d := .v 1, a := .v 2, ty := .f32 }) != 0 && 32 ≤ e.pending.length &&
      Instr.pends (.fsqrt { d := .v 1, a := .v 2, ty := .f32 })) = true :=
  by and_intros <;> decide

theorem witness_PrivilegedWordsTrapInTeamCode :
    (stands base fun e => !e.g.isCtl) = true ∧
    ((opPrivileged (opcodeOf 0x3D80000000000001) && !bitOf 0x3D80000000000001 62 && !isOk (decodeWord 0x3D80000000000001))) = true :=
  by and_intros <;> decide

theorem witness_TrapWordsComplete :
    (takes (.trap { a := .s 3, lo := 5 }) base fun e => !e.g.isCtl && e.exec 0 != 0) = true ∧
    (takes (.brk { a := .s 3, lo := 5 }) base fun e => !e.g.isCtl && e.exec 0 != 0) = true ∧
    (takes (.trap { a := .s 3, lo := 31 }) (inTeam fun g => { g with kact := 0 }) fun e => !e.g.isCtl && e.exec 0 == 0) = true ∧
    (takes (.brk { a := .s 3, lo := 31 }) (inTeam fun g => { g with kact := 0 }) fun e => !e.g.isCtl && e.exec 0 == 0) = true ∧
    (takes (.trap { a := .s 3 }) baseCtl fun e => e.g.isCtl) = true ∧
    (takes (.brk { a := .s 3 }) baseCtl fun e => e.g.isCtl) = true :=
  by and_intros <;> decide

theorem witness_InterruptAndReturnComplete :
    ((let s := onCtl id fun c => { c with ien := true, debugReq := true };
      (tget 0 s.ctxs).any (fun c => c.state == .resident && c.ien && !c.inHandler && ecause s 0 c != 0) &&
      (tget (ctlGid 0) s.groups).any fun g => g.parked != .marker)) = true ∧
    (takes (.iret {}) (onCtl id fun c => { c with inHandler := true, epc := 0x1008 }) fun e => e.g.isCtl &&
      e.gid == ctlGid e.cid && e.ctx.inHandler) = true ∧
    (takes (.iret {}) baseCtl fun e => e.g.isCtl && !e.ctx.inHandler) = true :=
  by and_intros <;> decide

theorem witness_ControlRegistersComplete :
    (takes (.csrr { d := .s 1, lo := 0 }) baseCtl fun e => e.g.isCtl) = true ∧
    (takes (.csrr { d := .s 1, lo := 11 }) baseCtl fun e => e.g.isCtl) = true ∧
    (takes (.csrr { d := .s 1, lo := 12 }) baseCtl fun e => e.g.isCtl) = true ∧
    (takes (.csrw { a := .s 1, lo := 0 }) baseCtl fun e => e.rd64 0 (.s 1) % 8 == 0) = true ∧
    (takes (.csrw { a := .s 1, lo := 0 }) (onCtl (cregs [(1, 4)])) fun e => e.rd64 0 (.s 1) % 8 != 0) = true ∧
    (takes (.csrw { a := .s 1, lo := 7 }) baseCtl fun e => fld (e.rd64 0 (.s 1)) 32 2 == 0) = true ∧
    (takes (.csrw { a := .s 1, lo := 7 }) (onCtl (cregs [(1, 2 ^ 32)])) fun e => fld (e.rd64 0 (.s 1)) 32 2 == 1) = true ∧
    (takes (.csrw { a := .s 1, lo := 7 }) (onCtl (cregs [(1, 3 * 2 ^ 32)])) fun e => 2 ≤ fld (e.rd64 0 (.s 1)) 32 2) = true ∧
    (takes (.csrw { a := .s 1, lo := 8 }) baseCtl fun e => !bitOf (e.rd64 0 (.s 1)) 32) = true ∧
    (takes (.csrw { a := .s 1, lo := 8 }) (onCtl (cregs [(1, 2 ^ 32)])) fun e => bitOf (e.rd64 0 (.s 1)) 32) = true ∧
    (takes (.csrw { a := .s 1, lo := 9 }) baseCtl) = true ∧
    (takes (.tlbi { a := .s 1, b := .s 2 }) baseCtl) = true ∧
    (takes (.halt {}) (onCtl id id fun l => { l with state := .done 0 }) fun e => (e.s.launchesOf e.cid).all fun l => l.2.isDone) = true ∧
    (takes (.halt {}) baseCtl fun e => (e.s.launchesOf e.cid).any fun l => !l.2.isDone) = true :=
  by and_intros <;> decide

theorem witness_CounterWordsComplete :
    (takes (.rng { d := .v 8, a := .s 3, m := 2 }) base) = true ∧
    (takes (.cntr { d := .s 1, a := .s 2 }) base fun e => e.exec 0 != 0 &&
      isOk (e.agreed 0 [.s 2]) fun v => isOk (e.counterOf (v.headD 0))) = true ∧
    (takes (.cntr { d := .s 1, a := .s 2 }) baseCtl fun e => e.g.isCtl &&
      isOk (e.agreed 0 [.s 2]) fun v => isOk (e.counterOf (v.headD 0))) = true ∧
    (takes (.cntc { a := .s 2, b := .s 3 }) (onCtl (cregs [(3, 0x1010)])) fun e => e.rd64 0 (.s 3) < 2 ^ 15 &&
      eventOk false (fld (e.rd64 0 (.s 3)) 0 8) && 0 < e.ctx.f.cores) = true ∧
    (takes (.cntc { a := .s 2, b := .s 3 }) (onCtl (cregs [(2, 16), (3, 0x1020)])) fun e =>
      eventOk (bitOf (e.rd64 0 (.s 2)) 4) (fld (e.rd64 0 (.s 3)) 0 8)) = true :=
  by and_intros <;> decide

theorem witness_MarkersAndReturnsComplete :
    ((let s := inTeam fun g => { g with pend := [pend0] }; !s.undoOn gid0 &&
      (tget gid0 s.groups).any fun g => (g.sub 255).isSome && !g.allReturned 255)) = true ∧
    ((let s := inTeam fun g => { g with pend := [{ pend0 with returned := true }] };
      (tget gid0 s.groups).any fun g => g.allReturned 255 && (g.failedPend 255).isNone)) = true ∧
    ((let s := inTeam fun g => { g with pend := [{ pend0 with returned := true, fails := [(0, { code := 4, slice := 0, fpc := 0, rpc := 0 })] }] };
      (tget gid0 s.groups).any fun g => g.allReturned 255 && (g.failedPend 255).isSome)) = true ∧
    (base.gidRuns gid0) = true ∧
    (!State.reset.gidRuns gid0) = true ∧
    (((tget gid0 (inTeam fun g => { g with tileQ := [.zero 0] }).groups).any fun g => g.tileQ == [.zero 0])) = true ∧
    (((tget gid0 (inTeam fun g => { g with tileQ := [.mma 0 0 0x0311 [] [] [] []] }).groups).any fun g => (g.tile 0).bad == [] &&
      g.tileQ != [])) = true ∧
    ((let s := inTeam fun g => { g with pend := [{ pend0 with returned := true, flags := [(1, 2)] }], badV := [3] };
      (tget gid0 s.groups).any fun g => g.allReturned 255 && (g.failedPend 255).isNone &&
      g.pend.any fun p => p.flags != [])) = true ∧
    (((tget gid0 (inTeam fun g => { g with tileQ := [.mma 0 0 0x0311 [] [] [0] [7]], tiles := [(0, { bad := [5] })] }).groups).any fun g => (g.tile 0).bad != [] &&
      g.tileQ == [.mma 0 0 0x0311 [] [] [0] [7]])) = true ∧
    (((tget gid0 (inTeam fun g => { g with tileQ := [.scale 0 .f32 15 []] }).groups).any fun g => g.tileQ == [.scale 0 .f32 15 []])) = true ∧
    (((inTeam fun g => { g with errLog := List.replicate 16 (0, 0) }).quadLog gid0 == 16 && base.quadLog gid0 == 0)) = true :=
  by and_intros <;> decide

theorem witness_LadderWordsComplete :
    (takes (.cmitT {}) base fun e => e.whole) = true ∧
    (takes (.rfshT {}) base fun e => e.s.tokenHolds e.team e.tid e.gid) = true ∧
    (takes (.rfshT {}) ((inTeam fun g => { g with round := 1 }).putG (gid0 + 1) {}) fun e => !e.s.tokenHolds e.team e.tid e.gid) = true ∧
    (takes (.abrtG { disp := 4 }) base fun e => e.whole && (e.target 4).isSome) = true ∧
    (takes (.fence {}) base fun e => !e.g.isCtl && e.fenceOps.all fun o => o.2.isDone) = true ∧
    (takes (.fence {}) baseCtl fun e => e.g.isCtl && e.fenceOps.all fun o => o.2.isDone) = true ∧
    (takes (.fence {}) { base with ops := [(0, { gid := gid0, slices := 255, kind := .rows [], mode := 15 })] } fun e =>
      e.fenceOps.any fun o => !o.2.isDone) = true :=
  by and_intros <;> decide

theorem witness_CommitsDeposit :
    (((({} : Group).subs == [{}]) && !({} : Group).late ({ team := 0 } : Team))) = true :=
  by decide

theorem witness_CollectiveWordsArrive :
    (takes (.cmitC { m := 1 }) base fun e => e.whole && e.g.owed.isNone && e.deferOpen.isNone) = true ∧
    (takes (.cmitD { m := 2 }) base) = true ∧
    (takes (.trig {}) base) = true ∧
    (takes (.rfshD { m := 2 }) base fun e => e.sub.park != .rfshD) = true ∧
    (takes (.abrtT { cc := .ne, disp := 4 }) base fun e => (e.target 4).isSome) = true ∧
    (takes (.qinit { a := .s 2, b := .s 3 }) (inTeam id id declares) fun e =>
      isOk (e.agreed 0 [.s 2, .s 3]) fun v => isOk (e.queueNo (v.headD 0) 0x3F0F)) = true ∧
    (takes (.gbar {}) base fun e => e.lch.lr.coop) = true ∧
    (takes (.tsbar {}) base fun e => e.lch.lr.coop) = true ∧
    (takes (.cbar { m := 1 }) base) = true ∧
    (takes (.bar {}) base) = true :=
  by and_intros <;> decide

theorem witness_PhaseWordsComplete :
    (takes (.rfshD { m := 2 }) (inTeam fun g => { g with subs := [{ park := .rfshD }] }) fun e => e.sub.park == .rfshD &&
      e.depsDone && e.g.owed.isNone) = true ∧
    (takes (.rfshD { m := 2 }) ((inTeam (fun g => { g with subs := [{ park := .rfshD }] }) id fun l => { l with early := [lid0 - 1] }).putL (lid0 - 1) {}) fun e =>
      e.sub.park == .rfshD && !e.depsDone) = true ∧
    (takes (.arrv { d := .s 4 }) base fun e => e.whole && e.g.owed.isNone && e.g.deferred.isNone) = true ∧
    (takes (.wait { a := .s 4 }) (inTeam fun g => { g with arrivals := 2 }) fun e =>
      isOk (e.agreed 0 [.s 4]) fun v => e.g.arrivals - 1 - BitVec.ofNat 16 (v.headD 0) == 1) = true ∧
    (takes (.wait { a := .s 4 }) (inTeam fun g => { g with arrivals := 3 }) fun e =>
      isOk (e.agreed 0 [.s 4]) fun v => e.g.arrivals - 1 - BitVec.ofNat 16 (v.headD 0) == 2) = true ∧
    (takes (.wait { a := .s 4 }) (inTeam fun g => { g with arrivals := 1 }) fun e => e.g.owed.isNone &&
      e.deferOpen.isNone && isOk (e.agreed 0 [.s 4]) fun v => e.g.arrivals - 1 - BitVec.ofNat 16 (v.headD 0) == 0) = true ∧
    (takes (.wait { a := .s 4 }) (inTeam fun g => { g with arrivals := 1, deferred := some 0 }) fun e =>
      e.g.owed.isNone && e.deferOpen.isSome) = true ∧
    (takes (.rfshD { m := 2 }) ((inTeam (fun g => { g with subs := [{ park := .rfshD }] }) id fun l => { l with early := [lid0 - 1] }).putL (lid0 - 1) { state := .done 0 }) fun e =>
      e.sub.park == .rfshD && e.depsDone && e.g.owed.isNone && e.lch.early != []) = true :=
  by and_intros <;> decide

theorem witness_TeamEventsComplete :
    ((let s := inTeam fun g => { g with subs := [{ park := .coll .cmitC }] }; s.matchReady tid0 &&
      (tget tid0 s.teams).any fun t => (mismatch t (s.liveGroups tid0)).isNone &&
      ((s.liveGroups tid0).head?.bind fun g => g.2.arrival t) == some (.coll .cmitC))) = true ∧
    ((let s := (inTeam fun g => { g with subs := [{ park := .coll .cmitC }] }).putG (gid0 + 1) { subs := [{ park := .coll .cmitD }] };
      s.matchReady tid0 &&
      (tget tid0 s.teams).any fun t => (mismatch t (s.liveGroups tid0)).any fun x => x.2.parked == .coll .cmitD)) = true ∧
    ((inTeam fun g => { g with subs := [{ park := .bar 0 }], arrivals := 1 }).phaseReady tid0) = true ∧
    (((inTeam fun g => { g with subs := [{ park := .cbar }] }).cbarReady lid0 0 && (tkeys base.teams).Nodup)) = true ∧
    ((let s := inTeam id fun t => { t with trapped := true }; (tget tid0 s.teams).any (fun t => t.trapped &&
      t.trapSlot.isNone) && (tget 0 s.ctxs).any fun c => c.freeSlot.isSome && !ringFull c)) = true ∧
    ((let s := (inTeam fun g => { g with tops := [.store 0 7] }).putG (gid0 + 1) { tops := [.store 0 8], deferred := some 0 };
      decide ((tkeys s.groups).Pairwise (· < ·)) && (s.teamGroups tid0).map (·.1) == [gid0, gid0 + 1] &&
      (s.teamGroups tid0).all (fun x => x.2.tops.flatMap GOp.stores == [0]) &&
      (tget tid0 s.teams).any fun t => t.live gid0 && t.live (gid0 + 1))) = true ∧
    ((let s := inTeam (fun g => { g with tops := [.store 0 7] }) fun t => { t with ordered := [(0, 5)], left := [0] };
      decide ((tkeys s.groups).Pairwise (· < ·)) && (tget tid0 s.teams).any fun t => !t.live gid0 &&
      t.ordered.any fun w => (s.teamGroups tid0).any fun x => (x.2.tops.flatMap GOp.words).contains w.1)) = true ∧
    ((let s := inTeam fun g => { g with subs := [{ park := .bar 0 }], arrivals := 1 }; s.phaseReady tid0 &&
      (tget (tidLid tid0) s.launches).isSome && (tget tid0 ((s.runTiles tid0).tClose tid0 false).1.teams).isSome)) = true ∧
    ((let s := inTeam (fun g => { g with subs := [{ park := .coll (.abrtT 0x1000) }] }) (fun t => { t with ordered := [(0, 5)] }) id;
      s.matchReady tid0 && (tget (tidLid tid0) s.launches).isSome &&
      (tget tid0 s.teams).any fun t => (mismatch t (s.liveGroups tid0)).isNone &&
      ((s.liveGroups tid0).head?.bind fun g => g.2.arrival t).isSome && t.ordered != [])) = true ∧
    ((let s := inTeam (fun g => { g with subs := [{ park := .coll (.rfshD) }] }) id id; s.matchReady tid0 &&
      (tget (tidLid tid0) s.launches).isSome &&
      (tget tid0 s.teams).any fun t => (mismatch t (s.liveGroups tid0)).isNone &&
      ((s.liveGroups tid0).head?.bind fun g => g.2.arrival t) == some (.coll (.rfshD)))) = true ∧
    ((let s := inTeam (fun g => { g with subs := [{ park := .coll (.gbar) }] }) id id; s.matchReady tid0 &&
      (tget (tidLid tid0) s.launches).isSome &&
      (tget tid0 s.teams).any fun t => (mismatch t (s.liveGroups tid0)).isNone &&
      ((s.liveGroups tid0).head?.bind fun g => g.2.arrival t) == some (.coll (.gbar)))) = true ∧
    ((let s := inTeam (fun g => { g with subs := [{ park := .coll (.tsbar) }] }) id id; s.matchReady tid0 &&
      (tget (tidLid tid0) s.launches).isSome &&
      (tget tid0 s.teams).any fun t => (mismatch t (s.liveGroups tid0)).isNone &&
      ((s.liveGroups tid0).head?.bind fun g => g.2.arrival t) == some (.coll (.tsbar)))) = true ∧
    ((let s := inTeam (fun g => { g with subs := [{ park := .coll (.qinit 0 0) }] }) id declares; s.matchReady tid0 &&
      (tget (tidLid tid0) s.launches).isSome &&
      (tget tid0 s.teams).any fun t => (mismatch t (s.liveGroups tid0)).isNone &&
      ((s.liveGroups tid0).head?.bind fun g => g.2.arrival t) == some (.coll (.qinit 0 0)))) = true ∧
    ((let s := inTeam (fun g => { g with subs := [{ park := .coll (.qinit 0 1) }] }) (fun t => { t with queues := [(0, { queue0 with descs := [{ status := 1 }, {}, {}, {}] })] }) declares;
      s.matchReady tid0 && (tget (tidLid tid0) s.launches).isSome &&
      (tget tid0 s.teams).any fun t => (mismatch t (s.liveGroups tid0)).isNone &&
      ((s.liveGroups tid0).head?.bind fun g => g.2.arrival t) == some (.coll (.qinit 0 1)) &&
      (tget 0 t.queues).any fun x => x.inited && x.descs.any fun d => d.status == 1)) = true ∧
    ((let s := inTeam (fun g => { g with subs := [{ park := .coll (.qinit 0 1) }] }) id declares; s.matchReady tid0 &&
      (tget (tidLid tid0) s.launches).isSome &&
      (tget tid0 s.teams).any fun t => (mismatch t (s.liveGroups tid0)).isNone &&
      ((s.liveGroups tid0).head?.bind fun g => g.2.arrival t) == some (.coll (.qinit 0 1)) &&
      (tget 0 t.queues).isNone && (tget (tidLid tid0) s.launches).any fun l => (l.declOf 0).isSome)) = true ∧
    ((let s := inTeam fun g => { g with subs := [{ mark := true }] };
      (tget gid0 s.groups).any fun g => (g.sub 255).any fun x => x.mark)) = true ∧
    (((tget gid0 base.groups).any fun g => (g.sub 255).any fun x => !x.mark)) = true ∧
    (((envOf base { gid := gid0, mask := 255 }).any fun e => !e.g.isCtl)) = true :=
  by and_intros <;> decide

theorem witness_GridEventsComplete :
    ((let s := inTeam id fun t => { t with rounds := [{ k := 1 }], nrounds := 1 }; s.nextRound lid0 == some (1, 0))) = true ∧
    ((let s := inTeam id (fun t => { t with atGrid := some false }) id; s.closeReady lid0)) = true ∧
    ((let s := inTeam id (fun t => { t with retired := true }) fun l => { l with closed := true }; s.completeReady lid0)) = true ∧
    ((let s := inTeam id fun t => { t with rounds := [{ k := 1, toks := [(0, .mdrm [] .f32 false 0)] }], nrounds := 1 };
      s.nextRound lid0 == some (1, 0) &&
      (tget tid0 s.teams).any fun t => (t.rounds.find? fun r => r.k == 1).any fun r => r.toks != [] && !r.full)) = true ∧
    ((let s := inTeam id fun t => { t with rounds := [{ k := 1, full := true }], nrounds := 1 };
      s.nextRound lid0 == some (1, 0) &&
      (tget tid0 s.teams).any fun t => (t.rounds.find? fun r => r.k == 1).any fun r => r.toks == [] && r.full)) = true ∧
    ((let s := (inTeam id (fun t => { t with atGrid := some false }) fun l => { l with lr := { l.lr with gx := 2 } }).putT (tidOf lid0 1) { team := 1, rounds := [{ k := 1 }], nrounds := 1, atGrid := some false };
      s.nextRound lid0 == none && s.earlyRound lid0 == some (1, 1))) = true ∧
    ((let l : Launch := { now := { poison := [1] } }; l.now.bad 64 4 && !l.now.bad 0 4)) = true ∧
    ((let node : LRec := { entry := 0, gx := 1, gy := 8, gz := 1, aux := 0x8000 };
      let s := (inTeam id id fun l => { l with now := { data := (cells (physKey 0 1 (2 ^ 30 + 0x8008)) (leBytes 8 4)).filter fun c => c.2 != 0 } }).putL (lidOf 0 (lidKey lid0 + 1)) { lr := {} };
      (tget lid0 s.launches).any fun l => let i := s.gridNum 0 l 0x8008 8; i % 1 == 0 && 4 ≤ i &&
      !s.isDone (lidOf 0 (lidKey lid0 + 1)) && node.gz == 1)) = true ∧
    ((let node : LRec := { entry := 0, gx := 1, gy := 8, gz := 1, aux := 0x8000 };
      let s := inTeam id id fun l => { l with now := { data := (cells (physKey 0 1 (2 ^ 30 + 0x8008)) (leBytes 8 65535)).filter fun c => c.2 != 0 } };
      (tget lid0 s.launches).any fun l => s.gridNum 0 l 0x8008 8 == 65535 && node.gz == 1)) = true ∧
    ((let node : LRec := { entry := 0, gx := 1, gy := 8, gz := 2, aux := 0x8000 };
      let s := inTeam id id fun l => { l with now := { data := (cells (physKey 0 1 (2 ^ 30 + 0x8008)) (leBytes 8 0)).filter fun c => c.2 != 0 } };
      (tget lid0 s.launches).any fun l => s.gridNum 0 l 0x8008 8 == 0 && node.gz == 2)) = true ∧
    ((let s := inTeam (fun g => { g with owed := some 8 }) (fun t => { t with emitFault := [(gid0, { code := 0x19 })] });
      (tget gid0 s.groups).any fun g => (tget tid0 s.teams).any fun t => (s.closeFaults t (some gid0) gid0 g).map (·.code) == [8, 0x19, 0x10] &&
      s.closeFaults { team := 0 } none gid0 {} == [])) = true :=
  by and_intros <;> decide

theorem witness_SchedulerEventsComplete :
    ((let s := inTeam id id fun l => { l with state := .submitted };
      (tget lid0 s.launches).any fun l => s.depState lid0 l == some true && l.refusal.isNone && !l.lr.leaf)) = true ∧
    ((let s := inTeam id id fun l => { l with state := .submitted, lr := { l.lr with scratch := 60000 } };
      (tget lid0 s.launches).any fun l => s.depState lid0 l == some true && l.refusal.isSome)) = true ∧
    ((let s := { base with groups := [], teams := [] }; (s.admitPlan 0).isSome)) = true ∧
    ((inTeam fun g => { g with kact := 0 }).retireReady gid0) = true ∧
    ((let s := (inTeam (fun g => { g with kact := 0 }) withQueue fun l => { l with lr := { l.lr with p := 0, c := 1 } });
      s.retireReady gid0 && (tget lid0 s.launches).any (fun l => (List.range l.lr.groups).all (· == 0)) &&
      (tget tid0 s.teams).any fun t => (tget 0 t.queues).any fun x => x.inited && x.filler == 0)) = true ∧
    ((let s := (inTeam (fun g => { g with kact := 0 }) id fun l => { l with lr := { l.lr with c := 2 } });
      s.retireReady gid0 && (tget lid0 s.launches).any fun l => !(List.range l.lr.groups).all (· == 0))) = true :=
  by and_intros <;> decide

theorem witness_TileWordsComplete :
    (takes (.mbld { a := .v 16 }) base fun e => isOk (e.all32 0) &&
      isOk e.oneFmr (fun fmr => 16 + e.quarters.length * matB (fld fmr.toNat 4 4) ≤ e.g.budget) &&
      gidG e.gid < e.lch.lr.c) = true ∧
    (takes (.mma { d := .x 0, a := .v 8 }) (inTeam (fun g => { g with mbldCount := 1 }) fun t => { t with bgens := [(bgenKey 0 1, { quarters := [(0, 1, [])] })] }) fun e =>
      isOk (e.all32 0) && isOk (e.owns (.x 0)) && isOk e.oneFmr (fun fmr => fld fmr.toNat 0 4 == 1 &&
      8 + matA 1 ≤ e.g.budget) && e.members.all fun m => e.g.mbldCount ≤ e.mblds m) = true ∧
    (takes (.mzro { d := .x 7 }) base fun e => e.exec 0 != 0 && isOk (e.owns (.x 7)) && e.g.tileQ.length < 8) = true ∧
    (takes (.mscl { d := .x 1, a := .v 2, ty := .f32 }) base fun e => isOk (e.owns (.x 1))) = true :=
  by and_intros <;> decide

theorem witness_MultiplyRoundsOnce :
    ((matInt (fld 0x0311 0 4) == false && fld 0x0311 0 4 ≤ 8 && ({} : Tile).bad == [])) = true ∧
    ((matInt (fld 0x0344 0 4) && fld 0x0344 0 4 ≤ 8 && ({ bad := [5] } : Tile).bad != [])) = true ∧
    ((damagedBits [true] 0 16 && damagedBits [false, true] 32 8 && matInt 6 == false)) = true :=
  by and_intros <;> decide

theorem witness_RegisterDrainsComplete :
    (takes (.mdrn { d := .v 4, a := .x 2 }) base fun e => e.exec 0 != 0 && isOk (e.owns (.x 2))) = true ∧
    (takes (.mdrn { d := .v 4, a := .x 2, ty := .f64 }) base fun e => isOk (e.owns (.x 2))) = true ∧
    (takes (.mred { d := .v 2, a := .x 1, ty := .i32, m := 1 }) base fun e => isOk (e.owns (.x 1))) = true ∧
    (takes (.mred { d := .v 2, a := .x 1, ty := .i32 }) base fun e => e.exec 0 != 0 && tileNo (.x 1) < e.g.ntiles &&
      e.s.quadTiles e.gid < 8) = true ∧
    (takes (.mred { d := .v 2, a := .x 1, ty := .f32, m := 1 }) base fun e => e.exec 0 != 0 &&
      tileNo (.x 1) < e.g.ntiles && e.s.quadTiles e.gid < 8) = true ∧
    (takes (.mred { d := .v 2, a := .x 1, ty := .f64 }) base fun e => e.exec 0 != 0 && tileNo (.x 1) < e.g.ntiles &&
      e.s.quadTiles e.gid < 8) = true ∧
    (takes (.mred { d := .v 2, a := .x 1, ty := .f32 }) (inTeam fun g => { g with tileQ := List.replicate 8 (.zero 0) }) fun e =>
      e.exec 0 != 0 && tileNo (.x 1) < e.g.ntiles && 8 ≤ e.s.quadTiles e.gid) = true :=
  by and_intros <;> decide

theorem witness_MemoryDrainsComplete :
    (takes (.mdrs { d := .x 1, a := .s 4, b := .s 5, ty := .f32, m := 0 }) (inTeam (sregs [(4, 2 ^ 55), (5, 128)])) fun e =>
      isOk (e.owns (.x 1)) &&
      isOk (e.drainAddrs { d := .x 1, a := .s 4, b := .s 5, ty := .f32, m := 0 }) fun as => isOk (e.teamRanges true (as.map fun a => (a, drainRowLen .f32))) &&
      e.linesFit (e.ownLines (as.map fun a => (a, drainRowLen .f32))) 0) = true ∧
    (takes (.mdrs { d := .x 1, a := .s 4, b := .s 5, ty := .f32, m := 1 }) (inTeam (sregs [(4, 2 ^ 55), (5, 128)])) fun e =>
      isOk (e.owns (.x 1)) &&
      isOk (e.drainAddrs { d := .x 1, a := .s 4, b := .s 5, ty := .f32, m := 1 }) fun as => isOk (e.teamRanges true (as.map fun a => (a, drainRowLen .f32))) &&
      e.linesFit (e.ownLines (as.map fun a => (a, drainRowLen .f32))) 0) = true ∧
    (takes (.mdrm { d := .x 1, a := .s 4, b := .s 5, ty := .f32 }) (inTeam (sregs [(4, 0x8000), (5, 128)])) fun e =>
      isOk (e.drainAddrs { d := .x 1, a := .s 4, b := .s 5, ty := .f32 }) fun as => isOk (e.memRange (as.map fun a => (a, drainRowLen .f32))) &&
      (e.team.charge e.lch.lr.dquota (memLines (as.map fun a => (a, drainRowLen .f32))) 0).isSome) = true :=
  by and_intros <;> decide

theorem witness_SequencerWordsComplete :
    (takes (.mseq { d := .s 1, a := .s 2, b := .s 3, c := .s 8 }) (inTeam (sregs [(2, 2 ^ 55), (8, 2 ^ 55 + 256)])) fun e =>
      isOk (e.agreed 0 [.s 2, .s 3, .s 8]) && isOk (e.teamRanges false [(2 ^ 55, 80)]) &&
      isOk (e.teamRanges true [(2 ^ 55 + 256, 4 * (mseqList 0 0 0 []).length)]) &&
      e.linesFit (e.ownLines [(2 ^ 55 + 256, 4 * (mseqList 0 0 0 []).length)]) 0) = true ∧
    (takes (.mgrp { d := .s 1, a := .s 2, b := .s 3, c := .s 8 }) (inTeam (sregs [(2, 2 ^ 55), (3, 1 + 2 ^ 16 + 2 ^ 32), (8, 2 ^ 55 + 256)])) fun e =>
      isOk (e.agreed 0 [.s 2, .s 3, .s 8]) && isOk (e.teamRanges false [(2 ^ 55, 4)]) &&
      isOk (e.teamRanges true [(2 ^ 55 + 256, 16 * (mgrpRun 1 1 [0]).1.length)])) = true ∧
    (takes (.merr { d := .s 1 }) base fun e => e.exec 0 != 0) = true ∧
    (takes (.mseq { d := .s 1, a := .s 2, b := .s 3, c := .s 8, m := 1 }) (inTeam (sregs [(2, 2 ^ 55), (8, 2 ^ 55 + 256), (9, 0x8000), (10, 0x9000), (11, 64 * 2 ^ 8)]) withQueue fun l => { declares l with snap := {} }) fun e =>
      isOk (e.agreed 0 [.s 2, .s 3, .s 8, .s 9, .s 10, .s 11]) (fun vs => vs == [2 ^ 55, 0, 2 ^ 55 + 256, 0x8000, 0x9000, 64 * 2 ^ 8]) &&
      isOk (e.teamRanges false [(2 ^ 55, 80)]) && isOk (e.fillQueue 0) (fun x => 128 ≤ x.slotBytes) &&
      (let kept := mseqList 0 0 0 []; isOk (e.teamRanges true [(2 ^ 55 + 256, 4 * kept.length)]) &&
      isOk (e.chipChecks { mode := 15, q := 0 } (kept.flatMap fun b => [(0x8000 + 64 * b, 64), (0x9000 + 64 * b, 64)]) []) &&
      e.linesFit (e.ownLines [(2 ^ 55 + 256, 4 * kept.length)]) 0)) = true ∧
    (takes (.mseq { d := .s 1, a := .s 2, b := .s 3, c := .s 8, m := 1 }) (inTeam (fun g => { g with subs := [{ park := .mseq 0 }] }) withQueue declares) fun e =>
      e.sub.park == .mseq 0 && !(e.s.reserveWanted e.tid e.gid 0).wanting e.gid 0) = true ∧
    (takes (.mseq { d := .s 1, a := .s 2, b := .s 3, c := .s 8, m := 1 }) { inTeam (fun g => { g with subs := [{ park := .mseq 0 }] }) (fun t => { t with queues := [(0, { queue0 with descs := List.replicate 4 { status := 2 } })] }) declares with ops := [(0, { gid := gid0, slices := 255, kind := .rows [], mode := 0, want := some 0 })] } fun e =>
      e.sub.park == .mseq 0 && (e.team.queues.any fun q => !q.2.free) &&
      (e.s.reserveWanted e.tid e.gid 0).wanting e.gid 0) = true ∧
    ((let t := { inTeam id withQueue declares with ops := [(0, { gid := gid0, slices := 255, kind := .rows [{ dst := 0, src := some 0x8000, len := 64 }], mode := 0, want := some 0, decl := 64 })] };
      (tget tid0 t.teams).any (fun tm => (tget 0 tm.queues).any (·.free)) && !t.tcuFull gid0 &&
      (t.ops.filter fun y => y.2.gid == gid0 && y.2.want == some 0).length == 1)) = true ∧
    (takes (.mgrp { d := .s 1, a := .s 2, b := .s 3, c := .s 8, m := 1 }) (inTeam (sregs [(2, 2 ^ 55), (3, 1 + 2 ^ 16 + 2 ^ 32 + 2 ^ 48), (8, 2 ^ 55 + 256), (9, 2 ^ 55 + 1024)])) fun e =>
      isOk (e.agreed 0 [.s 2, .s 3, .s 8, .s 9]) && isOk (e.teamRanges false [(2 ^ 55, 4)]) &&
      (let r := mgrpRun 1 1 [0];
      let rs := (2 ^ 55 + 256, 16 * r.1.length) :: r.2.1.map fun k => (2 ^ 55 + 1024 + k * 64, 128);
      isOk (e.teamRanges true rs) && e.linesFit (e.ownLines rs) 0)) = true ∧
    (takes (.merr { d := .s 1 }) (inTeam fun g => { g with errOvf := true }) fun e => e.exec 0 != 0 && e.g.errOvf &&
      e.g.errLog == []) = true :=
  by and_intros <;> decide

theorem witness_CopyWordsFork :
    (takes (.cpy { d := .s 2, a := .s 3, c := .s 8 }) (inTeam (sregs [(2, 2 ^ 55), (3, 0x8000), (8, 64 + 2 ^ 32 + 2 ^ 48), (11, 16)])) fun e =>
      isOk (e.params { d := .s 2, a := .s 3, c := .s 8 } [.s 2, .s 3] [0, 1, 2, 3]) (fun v => isOk (e.spec (v 5) [0, 1]) fun sp => !e.slotBusy sp &&
      !e.tcuFull && isOk (e.chipChecks sp [(v 1, 64)] [(v 0, 64)]) && isOk (e.supply [(v 0, 64)] 0))) = true ∧
    (takes (.gthr { d := .s 2, a := .s 3, b := .v 4, c := .s 8 }) (inTeam (sregs [(2, 2 ^ 55), (3, 0x8000), (8, 4), (9, 8), (10, 4), (11, 16)])) fun e =>
      isOk (e.params { d := .s 2, a := .s 3, b := .v 4, c := .s 8 } [.s 2, .s 3] [0, 1, 2, 3]) (fun v => isOk (e.spec (v 5) [0, 1]) fun sp => !e.slotBusy sp &&
      !e.tcuFull && v 2 ≤ 2 ^ 20)) = true ∧
    (takes (.sctr { d := .s 2, a := .s 3, b := .v 4, c := .s 8 }) (inTeam (sregs [(2, 0x8000), (3, 2 ^ 55), (8, 4), (9, 8), (10, 4), (11, 16)])) fun e =>
      isOk (e.params { d := .s 2, a := .s 3, b := .v 4, c := .s 8 } [.s 2, .s 3] [0, 1, 2, 3]) (fun v => isOk (e.spec (v 5) [0, 1]) fun sp => !e.slotBusy sp &&
      !e.tcuFull && v 2 ≤ 2 ^ 20)) = true ∧
    (takes (.pfch { a := .s 3, c := .s 8 }) (inTeam (sregs [(3, 0x8000), (8, 64), (11, 0xF0)])) fun e =>
      isOk (e.params { a := .s 3, c := .s 8 } [.s 3] [0, 3]) (fun v => !e.tcuFull && v 1 ≤ 2 ^ 32 &&
      isOk (e.spec (v 2) [0, 1, 15]))) = true ∧
    (takes (.bulk { d := .s 2, a := .s 3, c := .s 8 }) (onCtl (cregs [(2, 0x8000), (3, 0x9000), (8, 64), (11, 0xF0)])) fun e =>
      e.g.isCtl && isOk (e.params { d := .s 2, a := .s 3, c := .s 8 } [.s 2, .s 3] [0, 3]) (fun v => v 3 == 0xF0 &&
      v 2 != 0 && v 0 + v 2 ≤ 2 ^ 55)) = true ∧
    (takes (.bulk { d := .s 2, a := .s 3, c := .s 8 }) (inTeam (sregs [(2, 0x8000), (3, 0x9000), (8, 64), (11, 0xF0)])) fun e =>
      isOk (e.params { d := .s 2, a := .s 3, c := .s 8 } [.s 2, .s 3] [0, 3]) (fun v => isOk (e.spec (v 3) [0, 1, 15]) &&
      v 2 != 0 && isOk (e.supply [(v 0, v 2)] 0))) = true ∧
    (takes (.bulk { d := .s 2, a := .s 3, c := .s 8 }) (inTeam (sregs [(2, 0x8000), (3, 0x9000), (11, 0xF0)])) fun e =>
      isOk (e.params { d := .s 2, a := .s 3, c := .s 8 } [.s 2, .s 3] [0, 3]) (fun v => isOk (e.spec (v 3) [0, 1, 15]) &&
      v 2 == 0)) = true ∧
    (takes (.cldx { d := .s 2, a := .s 3, c := .s 8 }) (inTeam (sregs [(2, 2 ^ 55), (3, 0x8000), (11, 16)])) fun e =>
      isOk (e.params { d := .s 2, a := .s 3, c := .s 8 } [.s 2, .s 3] [3]) (fun v => isOk (e.spec (v 2) [0, 1]) fun sp => isOk (e.chipChecks sp [(v 1, 12)] [(v 0, 128)]) &&
      isOk (e.supply [(v 0, 128)] 0))) = true ∧
    (takes (.cldx { d := .s 2, a := .s 3, c := .s 8 }) (inTeam fun g => { sregs [(2, 2 ^ 55), (3, 2 ^ 55 + 512), (11, 16)] g with subs := g.subs.map fun u => { u with lvl := { u.lvl with view := { data := [(514, 32)] } } } }) fun e =>
      isOk (e.params { d := .s 2, a := .s 3, c := .s 8 } [.s 2, .s 3] [3]) (fun v => isOk (e.spec (v 2) [0, 1]) fun sp => isOk (e.chipChecks sp [(v 1, 12)] [(v 0, 128)]) &&
      (cldxBytes (fun i => e.chipByte (v 1 + i)) 32 .b32).2 != 4 &&
      isOk (e.supply [(v 0, (cldxBytes (fun i => e.chipByte (v 1 + i)) 32 .b32).1.length)] 0))) = true :=
  by and_intros <;> decide +kernel

theorem witness_EngineWordsFork :
    (takes (.csto { d := .s 2, a := .v 8, c := .s 8 }) (inTeam (sregs [(2, 2 ^ 55), (9, 512), (11, 16)])) fun e =>
      let f : RWord := { d := .s 2, a := .v 8, c := .s 8 };
      isOk (e.params f [.s 2] [1, 3]) (fun v => isOk (e.spec (v 2) [0, 1]) fun sp => let bs := cstoBytes .b32 (e.cstoElems f).1 (e.cstoElems f).2;
      bs.length ≤ v 1 && isOk (e.chipChecks sp [] [(v 0, bs.length)]) && isOk (e.supply [(v 0, bs.length)] 0))) = true ∧
    (takes (.cpyc { d := .s 2, a := .v 4, b := .zero, c := .s 8, ty := .n32 }) (inTeam (fun g => { sregs [(2, 0x8000), (11, 0xF0)] g with kact := 1 })) fun e =>
      let f : RWord := { d := .s 2, a := .v 4, b := .zero, c := .s 8, ty := .n32 };
      isOk (e.params f [.s 2] [3]) (fun v => isOk (e.spec (v 1) [0, 1, 15]) fun sp => !e.slotBusy sp &&
      (e.execLanes 0).all (fun l => isOk (e.wordKey l (low 64 (v 0)))) &&
      (e.team.charge e.lch.lr.dquota (memLines ((e.execLanes 0).map fun _ => (v 0, 4))) 0).isSome)) = true ∧
    (takes (.mcst { d := .s 2, a := .s 3, c := .s 8 }) (inTeam (sregs [(8, 1), (11, 16)]) id fun l => { l with lr := { l.lr with clog := 1, gx := 2 } }) fun e =>
      (e.lch.lr.clusterN == 2) &&
      isOk (e.params { d := .s 2, a := .s 3, c := .s 8 } [.s 2, .s 3] [0, 1, 3]) (fun v => isOk (e.spec (v 4) [0, 1]) fun sp => fld (v 2) 0 2 < 2 &&
      low 32 (v 3) == 0 && isOk (e.chipChecks sp [] []) && isOk (e.supply [] 0)) && e.team.team % 2 == 0 &&
      e.sub.park == .none && !e.tcuFull) = true ∧
    (takes (.mcst { d := .s 2, a := .s 3, c := .s 8 }) (inTeam (sregs [(11, 16)]) id fun l => { l with lr := { l.lr with clog := 1, gx := 2 } }) fun e =>
      isOk (e.params { d := .s 2, a := .s 3, c := .s 8 } [.s 2, .s 3] [0, 1, 3]) (fun v => fld (v 2) 0 2 == 0) &&
      e.clusterTeams.any fun u => (e.s.roots u).length ≤ e.team.mcstRoots.length) = true ∧
    (takes (.mcst { d := .s 2, a := .s 3, c := .s 8 }) (inTeam (fun g => { g with subs := [{ park := .mcst 0 }] }) (fun t => { t with mcstRoots := [0] }) fun l => { l with lr := { l.lr with clog := 0 } }) fun e =>
      e.sub.park == .mcst 0 && e.clusterTeams.all (fun u => 0 < (e.s.roots u).length)) = true ∧
    (takes (.mcst { d := .s 2, a := .s 3, c := .s 8 }) (inTeam (fun g => { g with subs := [{ park := .mcst 1 }] }) (fun t => { t with mcstRoots := [0] }) fun l => { l with lr := { l.lr with clog := 0 } }) fun e =>
      e.sub.park == .mcst 1 && e.clusterTeams.any (fun u => (e.s.roots u).length ≤ 1)) = true ∧
    (takes (.coll { d := .s 2, a := .s 3, c := .s 8, ty := .f32, m := 0 }) { inTeam (sregs [(2, 0x8000), (3, 0x9000), (9, 1), (11, 16)]) with ctxs := [(0, { state := .resident, f := { cores := 1, ptroot := 0x1000 }, coreMap := [0], launchN := 1, ctable := [(0, { bytes := cells 0 (leBytes 4 1 ++ leBytes 4 0 ++ leBytes 4 1 ++ leBytes 4 100) |>.filter (·.2 != 0) |> fun l => mset l 20 1 })] })] } fun e =>
      (e.ctx.entry 0).valid && e.team.team < (e.ctx.entry 0).rn &&
      isOk (e.params { d := .s 2, a := .s 3, c := .s 8 } [.s 2, .s 3] [0, 1, 2, 3]) (fun v => v 3 == 1 &&
      isOk (e.spec (v 5) [0, 1]) fun sp => !e.slotBusy sp && isOk (e.chipChecks sp [(v 1, 4)] [(v 0, 4)]) &&
      isOk (e.supply [(v 0, 4)] 0))) = true ∧
    (takes (.coll { d := .s 2, a := .s 3, c := .s 8, ty := .f32, m := 4 }) { inTeam (sregs [(11, 16)]) with ctxs := [(0, { state := .resident, f := { cores := 1, ptroot := 0x1000 }, coreMap := [0], launchN := 1, ctable := [(0, { bytes := cells 0 (leBytes 4 1 ++ leBytes 4 0 ++ leBytes 4 1 ++ leBytes 4 100) |>.filter (·.2 != 0) |> fun l => mset l 20 1 })] })] } fun e =>
      (e.ctx.entry 0).valid && e.team.team < (e.ctx.entry 0).rn && !(e.ctx.entry 0).gone.contains 0 &&
      isOk (e.params { d := .s 2, a := .s 3, c := .s 8 } [.s 2, .s 3] [0, 1, 2, 3]) (fun v => isOk (e.spec (v 5) [0, 1]) fun sp => !e.slotBusy sp &&
      isOk (e.chipChecks sp [] []) && isOk (e.supply [] 0))) = true ∧
    (takes (.bvhbBuild { d := .s 2, a := .zero, c := .s 8 }) (inTeam (sregs [(2, 0x8000), (8, 0x9000), (10, 4), (11, 16)])) fun e =>
      isOk (e.params { d := .s 2, a := .zero, c := .s 8 } [.s 2] [0, 1, 2, 3]) (fun v => v 3 == 4 &&
      isOk (e.spec (v 4) [0, 1]) && isOk (translate e.s e.cid (v 1)) (fun p => p.ty == 1) &&
      (e.team.charge e.lch.lr.dquota (memLines [(v 0, 64), (v 1, v 2)]) 0).isSome)) = true ∧
    (takes (.bvhbRefit { d := .s 2, a := .zero, c := .s 8, m := 1 }) (inTeam (sregs [(2, 0x8000), (11, 16)])) fun e =>
      isOk (e.params { d := .s 2, a := .zero, c := .s 8 } [.s 2] [3]) (fun v => isOk (e.spec (v 1) [0, 1]) &&
      v 0 == 0x8000 &&
      (e.team.charge e.lch.lr.dquota (memLines [(v 0, 64), (refitNodes e.treeMem (v 0)).1]) (refitNodes e.treeMem (v 0)).2).isSome)) = true ∧
    (takes (.mcst { d := .s 2, a := .s 3, c := .s 8 }) (let s := inTeam id (fun t => { t with mcstRoots := [] }) fun l => { l with lr := { l.lr with clog := 1, gx := 2 } };
      let t := tidOf lid0 1;
      { (s.putT t { team := 1 }).putG (gidOf t 0) (sregs [(8, 0), (11, 16)] ((tget gid0 s.groups).getD {})) with cur := some { gid := gidOf t 0, mask := 255 } }) fun e =>
      (e.team.team % 2 == 1) &&
      isOk (e.params { d := .s 2, a := .s 3, c := .s 8 } [.s 2, .s 3] [0, 1, 3]) (fun v => isOk (e.spec (v 4) [0, 1]) fun sp => !e.slotBusy sp &&
      isOk (e.chipChecks sp [] []) && isOk (e.supply [] 0) && low 32 (v 3) == 0 &&
      e.s.lowestWaits (e.clusterTeams.headD 0) 0 && e.mcstHeld e.s.cycle.toNat && e.sub.park == .none)) = true ∧
    (takes (.mcst { d := .s 2, a := .s 3, c := .s 8 }) (let s := inTeam id (fun t => { t with mcstRoots := [1] }) fun l => { l with lr := { l.lr with clog := 1, gx := 2 } };
      let t := tidOf lid0 1;
      { (s.putT t { team := 1 }).putG (gidOf t 0) (sregs [(8, 0), (11, 16)] ((tget gid0 s.groups).getD {})) with cur := some { gid := gidOf t 0, mask := 255 } }) fun e =>
      (e.team.team % 2 == 1) &&
      isOk (e.params { d := .s 2, a := .s 3, c := .s 8 } [.s 2, .s 3] [0, 1, 3]) (fun v => isOk (e.spec (v 4) [0, 1]) fun sp => !e.slotBusy sp &&
      isOk (e.chipChecks sp [] []) && isOk (e.supply [] 0) && low 32 (v 3) == 0 &&
      ((e.s.roots (e.clusterTeams.headD 0))[0]?).any fun r => r != fld (v 2) 0 2)) = true ∧
    (takes (.mcst { d := .s 2, a := .s 3, c := .s 8 }) (let s := inTeam id (fun t => { t with mcstRoots := [0] }) fun l => { l with lr := { l.lr with clog := 1, gx := 2 } };
      let t := tidOf lid0 1;
      { (s.putT t { team := 1 }).putG (gidOf t 0) (sregs [(8, 0), (11, 16)] ((tget gid0 s.groups).getD {})) with cur := some { gid := gidOf t 0, mask := 255 } }) fun e =>
      (e.team.team % 2 == 1) &&
      isOk (e.params { d := .s 2, a := .s 3, c := .s 8 } [.s 2, .s 3] [0, 1, 3]) (fun v => isOk (e.spec (v 4) [0, 1]) fun sp => !e.slotBusy sp &&
      isOk (e.chipChecks sp [] []) && isOk (e.supply [] 0) && low 32 (v 3) == 0 &&
      !e.s.lowestWaits (e.clusterTeams.headD 0) 0 && (e.s.roots (e.clusterTeams.headD 0))[0]? == some 0 && !e.tcuFull)) = true ∧
    (takes (.mcst { d := .s 2, a := .s 3, c := .s 8 }) (let s := inTeam id (fun t => { t with mcstRoots := [] }) fun l => { l with lr := { l.lr with clog := 1, gx := 2 } };
      let t := tidOf lid0 1;
      { (s.putT t { team := 1 }).putG (gidOf t 0) { (sregs [(8, 0), (11, 16)] ((tget gid0 s.groups).getD {})) with subs := [{ park := .mcstLow 5 }] } with cycle := 5000, cur := some { gid := gidOf t 0, mask := 255 } }) fun e =>
      (e.team.team % 2 == 1) &&
      isOk (e.params { d := .s 2, a := .s 3, c := .s 8 } [.s 2, .s 3] [0, 1, 3]) (fun v => isOk (e.spec (v 4) [0, 1]) fun sp => !e.slotBusy sp &&
      isOk (e.chipChecks sp [] []) && isOk (e.supply [] 0) && low 32 (v 3) == 0 && e.sub.park == .mcstLow 5 &&
      !e.mcstHeld 5 && e.s.lowestWaits (e.clusterTeams.headD 0) 0 && !e.tcuFull)) = true ∧
    ((let o : EngOp := { gid := gid0, slices := 0, kind := .mcst 1 0 0 0 [], mode := 0, pc := 0x1000 };
      let s := inTeam id (fun t => { t with mcstRoots := [1] }); (tget gid0 s.groups).any (fun g => !g.halted &&
      (g.subs.find? fun x => x.mask &&& g.liveMask != 0).isSome) &&
      (({ s with ops := [(0, o)] }.ops.find? fun o => gidTid o.2.gid == tid0 && !o.2.isDone &&
      (match o.2.kind with | .mcst r _ j _ _ => j == 0 && r != 0 | _ => false)) == some (0, o)))) = true ∧
    (((inTeam fun g => { g with halted := true }).groups.any fun g => g.2.halted)) = true :=
  by and_intros <;> decide +kernel

theorem witness_EngineEventsComplete :
    ((let o : EngOp := { gid := gid0, slices := 0, kind := .rows [], mode := 15 }; let s := { base with ops := [(0, o)] };
      o.active && o.chunks == 0 && (match s.opState o with | .ok _ => true | _ => false))) = true ∧
    ((let o : EngOp := { gid := gid0, slices := 0, kind := .rows [], mode := 15, chunks := 2 }; o.active && 0 < o.chunks)) = true ∧
    ((let o : EngOp := { gid := gid0, slices := 0, kind := .rows [{ dst := 0x8000, src := some (2 ^ 40), len := 4 }], mode := 15 };
      let s := { base with ops := [(0, o)] }; (match s.opState o with | .unmapped _ => true | _ => false))) = true ∧
    ((let o : EngOp := { gid := gid0, slices := 0, kind := .rows [{ dst := 2 ^ 30 + 64, src := some 0x8000, len := 4 }], mode := 15 };
      let s := mappedCtl { base with ops := [(0, o)] };
      (match s.opState o with | .failed _ _ => true | _ => false))) = true ∧
    ((let o : EngOp := { gid := gid0, slices := 0, kind := .rows [], mode := 15, state := .suspended 0, opid := some 1 };
      (State.suspendedOp { base with ops := [(0, o)] } 0 1).isSome)) = true ∧
    ((let x : CEntry := { bytes := mset (cells 0 (leBytes 4 1 ++ leBytes 4 0 ++ leBytes 4 1 ++ leBytes 4 100) |>.filter (·.2 != 0)) 20 1 };
      (collResult x 1 [{ rank := 0, op := 0 }]).isSome && (collResult x 1 []).isNone)) = true :=
  by and_intros <;> decide

theorem witness_QueueWordsComplete :
    (takes (.qpush { a := .s 2, b := .s 3 }) (inTeam (sregs [(3, 2 ^ 55)]) withQueue declares) fun e => !e.g.isCtl &&
      e.whole && (e.lch.declOf 0).isSome && (isOk (e.fillQueue 0) fun x => x.free)) = true ∧
    (takes (.qpop { d := .s 10, a := .s 2 }) (inTeam (sregs []) withQueue declares) fun e => !e.g.isCtl && e.whole &&
      (e.lch.declOf 0).isSome && (isOk (e.inited 0) fun x => bitOf x.popMask.toNat 0 && !x.canPop 0)) = true ∧
    (takes (.qpeek { d := .s 4, a := .s 2 }) (inTeam (sregs []) withQueue declares) fun e => !e.g.isCtl && e.whole &&
      (e.lch.declOf 0).isSome && true) = true ∧
    (takes (.qrel { a := .s 2, b := .s 3 }) (inTeam id (fun t => { t with queues := [(0, { queue0 with descs := [{ status := 6 }, {}, {}, {}] })] }) declares) fun e =>
      isOk (e.agreed 0 [.s 2, .s 3]) && isOk (e.inited 0) fun x => (x.desc 0).status == 6 && (x.desc 0).popper == 0) = true ∧
    (takes (.qpop { d := .s 10, a := .s 2 }) (inTeam id (fun t => { t with queues := [(0, { queue0 with fillSeq := 1, descs := [{ status := 2 }, {}, {}, {}] })] }) declares) fun e =>
      isOk (e.inited 0) fun x => x.canPop 0 && x.headSeq != x.fillSeq && e.linesFit [] 0) = true ∧
    (takes (.qpop { d := .s 10, a := .s 2 }) (inTeam id (fun t => { t with queues := [(0, { queue0 with fillSeq := 1, descs := [{ status := 5 }, {}, {}, {}] })] }) declares) fun e =>
      isOk (e.inited 0) fun x => x.canPop 0 && x.headSeq != x.fillSeq && (x.desc x.headSeq).status == 5) = true ∧
    (takes (.qpop { d := .s 10, a := .s 2 }) (inTeam id (fun t => { t with queues := [(0, { queue0 with fdone := true })] }) declares) fun e =>
      isOk (e.inited 0) fun x => x.canPop 0 && x.headSeq == x.fillSeq) = true ∧
    (takes (.qpop { d := .s 10, a := .s 2 }) (inTeam id (fun t => { t with queues := [(0, { queue0 with fillSeq := 1, descs := [{ status := 4, op := some 0 }, {}, {}, {}] })] }) declares) fun e =>
      isOk (e.inited 0) fun x => x.canPop 0 && x.headSeq != x.fillSeq && (x.desc x.headSeq).status == 4 &&
      e.linesFit [] 0) = true :=
  by and_intros <;> decide

theorem witness_LaunchAndMessageWordsComplete :
    (takes (.emit { d := .s 2, a := .s 3 }) (inTeam (sregs [(2, 0x8000), (3, 2 ^ 55)]) id fun l => { l with snap := { data := nodeCells 4 8 0x9000 ++ cells (physKey 0 1 (2 ^ 30 + 0x9000)) [1] } }) fun e =>
      e.whole && e.exec 0 != 0 && isOk (e.agreed 0 [.s 2, .s 3]) (fun v => v == [0x8000, 2 ^ 55]) &&
      isOk (e.wordKey 255 0x8000) (fun k => let r := recordOf (mread e.lch.snap.data k 64); r.2 &&
      (e.s.nodeQueues e.cid e.lch.snap r.1).isSome && r.1.nodeOk e.ctx.f.cores && r.1.gy == 8 &&
      isOk (e.wordKey 255 r.1.aux.toNat) (fun q => mnat e.lch.snap.data q 8 == lidKey e.lid / 2 ^ 16)) &&
      lidKey e.lid % 2 ^ 16 == 0 && (e.team.charge e.lch.lr.dquota [] 128).isSome) = true ∧
    (takes (.launch { d := .s 1, a := .s 2 }) { baseCtl with ops := [(0, { gid := ctlGid 0, slices := 1, kind := .rows [], mode := 15 })] } fun e =>
      e.g.isCtl && e.fenceOps.any fun o => !o.2.isDone) = true ∧
    (takes (.launch { d := .s 1, a := .s 2 }) ((onCtl (cregs [(2, 0x8000)])).hWrite (MemW.ofCells (nodeCells 0 1 0))) fun e =>
      e.g.isCtl && (e.fenceOps.all fun o => o.2.isDone) &&
      isOk (e.controlJoin.recordBytes 0 0x8000) (fun bs => let r := recordOf bs; r.2 &&
      r.1.launchOk e.ctx.f.cores 2 &&
      isOk (e.controlJoin.recordBytes 0 (r.1.entry.toNat - 64)) fun ds => (declBlock ds).isSome)) = true ∧
    (takes (.lwait { d := .s 1, a := .s 2 }) (onCtl (cregs [(2, 2 ^ 16)]) id fun l => { l with state := .done 0 }) fun e =>
      e.rd64 0 (.s 2) / 2 ^ 16 == 1 && 1 ≤ e.ctx.launchN &&
      ((e.s.launchesOf e.cid).filter fun l => lid0 < l.1).length < 4096 &&
      (tget lid0 e.s.launches).any fun l => l.isDone) = true ∧
    (takes (.lwait { d := .s 1, a := .s 2 }) (onCtl (cregs [(2, 2 ^ 16 + 1)])) fun e =>
      (tget (lid0 + 1) e.s.launches).isNone && !e.s.isDone (sourceOf (lid0 + 1))) = true ∧
    (takes (.lwait { d := .s 1, a := .s 2 }) (onCtl (cregs [(2, 2 ^ 16 + 1)]) id fun l => { l with state := .done 0 }) fun e =>
      (tget (lid0 + 1) e.s.launches).isNone && e.s.isDone (sourceOf (lid0 + 1))) = true ∧
    (takes (.lwait { d := .s 1, a := .s 2 }) (onCtl (cregs [(2, 2 ^ 16)])) fun e =>
      (tget lid0 e.s.launches).any fun l => !l.isDone) = true ∧
    (takes (.lwaitCancel { d := .s 1, a := .s 2, m := 1 }) (onCtl (cregs [(2, 2 ^ 16)])) fun e =>
      (tget lid0 e.s.launches).any fun l => !l.isDone) = true ∧
    (takes (.msgrd { d := .s 1, a := .s 2, b := .s 3 }) (mappedCtl (onCtl (cregs [(2, 2 ^ 30), (3, 64)]))) fun e =>
      isOk (e.ctlRange true (2 ^ 30) 64) && e.ctx.intail == e.ctx.consumed) = true ∧
    (takes (.msgrd { d := .s 1, a := .s 2, b := .s 3 }) (mappedCtl (onCtl (cregs [(2, 2 ^ 30), (3, 64)]) fun c => { c with intail := 1 })) fun e =>
      isOk (e.ctlRange true (2 ^ 30) 64) && e.ctx.intail != e.ctx.consumed) = true ∧
    (takes (.msgwr { a := .s 2, b := .s 3 }) (mappedCtl (onCtl (cregs [(2, 2 ^ 30), (3, 64)]))) fun e =>
      isOk (e.ctlRange false (2 ^ 30) 64) && e.ctx.outstanding < 64 && !hostOk e.ctx (8 + 64 - 1)) = true ∧
    (takes (.msgwr { a := .s 2, b := .s 3 }) (mappedCtl (onCtl (cregs [(2, 2 ^ 30), (3, 64)]) fun c => { c with conns := [(17, 16), (24, 1)] })) fun e =>
      isOk (e.ctlRange false (2 ^ 30) 64) && e.ctx.outstanding < 64 && hostOk e.ctx (8 + 64 - 1)) = true ∧
    (takes (.msgwr { a := .s 2, b := .s 3 }) (mappedCtl (onCtl (cregs [(2, 2 ^ 30), (3, 64)]) fun c => { c with outprog := 64 })) fun e =>
      64 ≤ e.ctx.outstanding && isOk (e.ctlRange false (2 ^ 30) 64)) = true ∧
    (takes (.lwaitCancel { d := .s 1, a := .s 2, m := 1 }) { onCtl (cregs [(2, 2 ^ 16)]) with launches := (lid0, (default : Launch)) :: (List.range 4097).map fun i => (lid0 + 1 + i, default) } fun e =>
      4096 ≤ ((e.s.launchesOf e.cid).filter fun l => lid0 < l.1).length &&
      (tget lid0 e.s.launches).any fun l => !l.isDone) = true ∧
    (takes (.emit { d := .s 2, a := .s 3 }) (inTeam (sregs [(2, 0x8000), (3, 2 ^ 55)]) id fun l => { l with snap := { data := cells (physKey 0 1 (2 ^ 30 + 0xFC0)) [255, 255, 255, 255] ++ nodeCells 4 8 0x9000 ++ cells (physKey 0 1 (2 ^ 30 + 0x9000)) [1] } }) fun e =>
      e.whole && e.exec 0 != 0 && isOk (e.agreed 0 [.s 2, .s 3]) (fun v => v == [0x8000, 2 ^ 55]) &&
      isOk (e.wordKey 255 0x8000) (fun k => let r := recordOf (mread e.lch.snap.data k 64); r.2 &&
      r.1.nodeOk e.ctx.f.cores && isOk (e.wordKey 255 r.1.aux.toNat) && (e.s.nodeQueues e.cid e.lch.snap r.1).isNone)) = true :=
  by and_intros <;> decide +kernel

theorem witness_TreeWordsComplete :
    (takes (.vget { d := .v 4, a := .v 0, b := .s 2, ty := .f32, k := 1 }) base fun e => e.execLanes 1 == []) = true ∧
    (takes (.vstn { d := .v 8, a := .v 0, b := .s 2, ty := .f32, k := 1 }) base fun e => e.execLanes 1 == []) = true ∧
    (takes (.vsmp { d := .v 8, a := .v 0, b := .s 2, ty := .f32, k := 1 }) base fun e => e.execLanes 1 == []) = true ∧
    (takes (.vmrc { d := .v 4, a := .v 8, b := .s 2 }) base fun e => e.execLanes 0 != []) = true ∧
    (takes (.vget { d := .v 4, a := .v 0, b := .s 2, ty := .f32 }) withTree fun e =>
      (e.execLanes 0).all fun l => isOk (e.walkHeader e.treeMem { d := .v 4, a := .v 0, b := .s 2, ty := .f32 } l) fun h => isOk (e.treeMem.value h (e.point { a := .v 0 } l) false)) = true ∧
    (takes (.vleaf { d := .s 1, a := .s 4, b := .s 2 }) withTree fun e =>
      isOk (e.agreed 0 [.s 4, .s 5, .s 6, .s 2]) fun vs => isOk (leafArg e.treeMem { d := .s 1, a := .s 4, b := .s 2 } fun i => (vs[i]?).getD 0) fun x => x.2 == 0) = true ∧
    (takes (.vmrc { d := .v 4, a := .v 8, b := .s 2 }) withTree fun e =>
      (e.execLanes 0).all fun l => isOk (e.treeMem.header (e.rd64 l (.s 2))) fun h => let ws := (List.range 8).map fun j => e.rd32 l (Opd.plus (.v 8) j);
      ((ws.take 6).all fun w => !(unpackFp f32 w).isInf) && isOk (vmrcLane e.treeMem h ws [])) = true ∧
    (takes (.vleaf { d := .s 1, a := .s 4, b := .s 2 }) (inTeam (sregs [(2, 1)])) fun e =>
      isOk (e.agreed 0 [.s 4, .s 5, .s 6, .s 2]) fun vs => !isOk (leafArg e.treeMem { d := .s 1, a := .s 4, b := .s 2 } fun i => (vs[i]?).getD 0)) = true ∧
    (takes (.vleaf { d := .s 1, a := .s 4, b := .s 2 }) (withLeaf 0x40000000) fun e =>
      isOk (e.agreed 0 [.s 4, .s 5, .s 6, .s 2]) fun vs => isOk (leafArg e.treeMem { d := .s 1, a := .s 4, b := .s 2 } fun i => (vs[i]?).getD 0) (fun x => x.2 == 0x40000000 &&
      !isOk (e.treeMem.num x.2 (leafBytes x.1))) && (e.frames.find? fun i => (tget i e.team.pins).isNone) == some 0) = true ∧
    (takes (.vset { d := .v 1, a := .v 4, b := .s 2, ty := .f32 }) (withLeaf 0x50000) fun e => e.execLanes 0 == [0] &&
      isOk ((e.execLanes 0).mapM fun l => e.vsetTarget e.treeMem { d := .v 1, a := .v 4, b := .s 2, ty := .f32 } l) fun ts => (e.team.charge e.lch.lr.dquota (memLines (ts.map fun t => (t.1, 4))) 0).isSome) = true ∧
    (takes (.vact { a := .v 4, b := .s 2 }) (withLeaf 0x50000) fun e =>
      isOk (e.agreed 0 [.s 2]) fun v => isOk (e.treeMem.header (v.headD 0)) fun hd => isOk (e.treeMem.path hd (e.point { a := .v 4 } 0)) fun t => t.leaf == 0x50000) = true ∧
    (takes (.vact { a := .v 0, b := .s 2 }) withTree fun e =>
      isOk (e.agreed 0 [.s 2]) fun v => isOk (e.treeMem.header (v.headD 0))) = true ∧
    (takes (.vins { a := .v 0, b := .s 2, c := .s 3 }) withTree fun e =>
      isOk (e.agreed 0 [.s 2, .s 3]) fun v => isOk (e.treeMem.header (v.headD 0)) &&
      isOk (e.spec 0xF0 [0, 15]) fun sp => !e.slotBusy sp) = true ∧
    (takes (.vdel { a := .v 0, b := .s 2, c := .s 3 }) withTree fun e =>
      isOk (e.agreed 0 [.s 2, .s 3]) fun v => isOk (e.treeMem.header (v.headD 0)) &&
      isOk (e.spec 0xF0 [0, 15]) fun sp => !e.slotBusy sp) = true ∧
    (takes (.halo { a := .s 7, b := .s 8, c := .s 2 }) withTree fun e =>
      isOk (e.agreed 0 [.s 7, .s 8, .s 2]) fun v => isOk (e.treeMem.header ((v[2]?).getD 0)) && e.spb ≤ v.headD 0 &&
      fld ((v[1]?).getD 0) 0 16 == 0) = true ∧
    (takes (.vleafRel { d := .zero, a := .s 2, b := .zero, m := 2 }) (inTeam (sregs [(2, 2 ^ 55 + 4096)]) (fun t => { t with pins := [(0, 0)] }) fun l => { l with lr := { l.lr with leafpool := 1 } }) fun e =>
      (e.frames.find? fun i => e.frameAddr i == 2 ^ 55 + 4096 && tget i e.team.pins == some 0).isSome) = true :=
  by and_intros <;> decide +kernel

theorem witness_TreeWordsComplete_samples :
    (takes (.vsmp { d := .v 8, a := .v 0, b := .s 2, ty := .f32 }) withTree fun e => e.execLanes 0 == [0] &&
      isOk (e.walkHeader e.treeMem { d := .v 8, a := .v 0, b := .s 2, ty := .f32 } 0) fun h => (List.range 8).all fun j => isOk (e.treeMem.value h ⟨ofInt 32 (j % 2 : Nat), ofInt 32 (j / 2 % 2 : Nat), ofInt 32 (j / 4 : Nat)⟩ true)) = true ∧
    (takes (.vsmp { d := .v 8, a := .v 0, b := .s 2, ty := .f32 }) (withTree.modG gid0 fun g => { g with vreg := [(0, 0x7FC00000)] }) fun e =>
      e.execLanes 0 == [0] && (unpackFp f32 (e.point { a := .v 0 } 0).x).isNan &&
      isOk (e.walkHeader e.treeMem { d := .v 8, a := .v 0, b := .s 2, ty := .f32 } 0)) = true :=
  by and_intros <;> decide +kernel

theorem witness_RayWordsComplete :
    (takes (.rtrc { d := .v 0, a := .v 16, b := .s 2, c := .s 3 }) base fun e => e.execLanes 0 != [] &&
      (e.execLanes 0).all fun l => e.rd64 l (.s 3) < 2 && (e.g.ray l).phase != .opened) = true ∧
    (takes (.rcont { d := .v 0, a := .v 24 }) (inTeam fun g => { g with rays := (List.range 32).map fun l => (l, { phase := .opened }) }) fun e =>
      (e.execLanes 0).all fun l => (e.g.ray l).phase == .opened && e.rd32 l (.v 24) < 2) = true ∧
    (takes (.rcontKill { d := .v 0, a := .zero, m := 1 }) (inTeam fun g => { g with rays := (List.range 32).map fun l => (l, { phase := .replay }) }) fun e =>
      (e.execLanes 0).all fun l => (e.g.ray l).phase == .replay) = true ∧
    (takes (.rget { d := .v 8 }) (inTeam fun g => { g with rays := (List.range 32).map fun l => (l, { phase := .opened }) }) fun e =>
      (e.execLanes 0).all fun l => (e.g.ray l).phase != .idle && isOk ((e.g.ray l).get 0)) = true ∧
    (takes (.rlog { a := .s 4 }) base fun e => isOk (e.agreed 0 [.s 4]) fun v => v == [0]) = true ∧
    (takes (.rrpl { a := .v 20, b := .s 2 }) (inTeam fun g => { (vregs [(21, 2 ^ 23)] g) with kact := 1 }) fun e =>
      (e.execLanes 0).all fun l => (e.g.ray l).phase != .opened && (e.heldBytes (e.rd64 l (.v 20)) 128).isSome &&
      !e.heldBad (e.rd64 l (.v 20)) 128) = true :=
  by and_intros <;> decide

theorem witness_HinvInvalidatesItsWays :
    (takes (.hinv {}) base fun e => e.exec 0 != 0) = true :=
  by decide

theorem witness_CommandsAnswer :
    ((tget 0 State.reset.ctxs).isNone && State.reset.fuse != .retired &&
      State.reset.fieldsOk 0 { trapn := 1, cores := 1, ptroot := 0x1000 } (State.reset.chooseCores 1)) = true ∧
    ((!State.reset.fieldsOk 0 { cores := 577 } (State.reset.chooseCores 577))) = true ∧
    ((let s := State.reset.putC 0 { state := .idle, coreMap := [0], image := some (0x1000, 8) };
      (tget 0 s.ctxs).any fun c => c.state == .idle && (s.rival 0 c).isNone && !c.checkpointReq)) = true ∧
    ((let s := (base.modC 0 fun c => { c with checkpointReq := true }); (tget 0 s.ctxs).any fun c => c.checkpointReq)) = true ∧
    ((let s := (onCtl (fun g => { g with subs := [{ mask := 1, park := .halt }] }) (fun c => { c with checkpointReq := true }) fun l => { l with state := .done 0 });
      s.quiet 0)) = true ∧
    (!base.quiet 0) = true ∧
    ((State.reset.readImage 15).isNone) = true ∧
    ((let s0 := State.reset.putC 0 { state := .switchedOut, f := { cores := 1, ptroot := 0x1000 }, coreMap := [0] };
      (tget 0 s0.ctxs).any fun c => let s := State.reset.place (physKey 0 2 (imageBase 1)) (s0.checkpointImage 0 c (s0.capture 0 c));
      (s.readImage 1).any fun x => x.1.ctx.f.cores ≤ s.cores && x.1.groups == [] &&
      s.waysOk 0 x.1.ctx.f.wayMask (s.chooseCores 1) && s.fuse != .retired)) = true ∧
    ((let s := (base.putC 1 { state := .idle, coreMap := [0], image := some (0x1000, 8) });
      (tget 1 s.ctxs).any fun c => c.state == .idle && (s.rival 1 c).isSome && !c.checkpointReq)) = true ∧
    ((let s := (State.reset.putC 1 { state := .idle, coreMap := [0], image := some (0x1000, 8) }).putC 2 { state := .switchedOut, coreMap := [0] };
      (tget 1 s.ctxs).any fun c => c.state == .idle && (s.rival 1 c).isNone && s.turnWanted 1 c)) = true :=
  by and_intros <;> decide +kernel

theorem witness_SwitchesAndMigrationComplete :
    ((tget 0 base.ctxs).any fun c => c.state == .resident) = true ∧
    ((base.modC 0 fun c => { c with state := .switchedOut }).switchInReady 0) = true ∧
    (!base.switchInReady 0) = true ∧
    ((let s := (State.reset.putC 0 { state := .resident, f := { slice := 100 }, coreMap := [0] }).putC 1 { state := .switchedOut, coreMap := [0] };
      (tget 0 s.ctxs).any fun c => s.turnWanted 0 c && (s.switchOut 0).nextTurn 0 c == some 1 && c.f.slice != 0 &&
      c.state == .resident)) = true ∧
    ((tget 0 base.ctxs).any fun c => base.canMigrate 0 c 0 5 && base.forwardsAt (c.phys 0) < 16) = true ∧
    ((tget 0 base.ctxs).any fun c => !base.canMigrate 0 c 0 0 && !base.canMigrate 0 c 0 576) = true ∧
    ((let s := { base with nextOp := 1, forwards := List.replicate 16 (0, 0, 0, 1), ops := [(0, { gid := gid0, slices := 0, kind := .rows [], mode := 15 })] };
      (tget 0 s.ctxs).any fun c => s.liveForwards == s.forwards && s.canMigrate 0 c 0 5 &&
      16 ≤ s.forwardsAt (c.phys 0))) = true ∧
    ((let s := { base with nextOp := 1, forwards := [(3, 0, 0, 1)], ops := [(0, { gid := gid0, slices := 0, kind := .rows [], mode := 15 })] };
      s.liveForwards == s.forwards)) = true ∧
    ((let s := ((State.reset.putC 0 { state := .resident, f := { slice := 100 }, coreMap := [0] }).putC 1 { state := .switchedOut, f := { cores := 2, mapbase := 0x100 }, coreMap := [0, 1] }).putC 2 { state := .resident, f := { slice := 100 }, coreMap := [1] };
      let s := { s with mem := [(physKey 0 1 0x102, 1)] }; (tget 0 s.ctxs).any fun c => s.turnWanted 0 c &&
      (s.switchOut 0).nextTurn 0 c == none && c.f.slice != 0)) = true :=
  by and_intros <;> decide +kernel

theorem witness_MessagesComplete :
    ((tget 0 base.ctxs).any fun c => c.state != .switchedOut && ((64 : W32) - c.consumed).toNat ≤ 64 &&
      64 < ((65 : W32) - c.consumed).toNat) = true ∧
    ((tget 0 (base.modC 0 fun c => { c with state := .switchedOut }).ctxs).any fun c => c.state == .switchedOut) = true ∧
    ((Packet.accepted base.portAddr { frame := 9216, udpPort := 4791, reliable := true, atomic := false, op := .writeInbound 0 63 8 [1] })) = true ∧
    ((!Packet.accepted base.portAddr { frame := 9217, udpPort := 4791, reliable := true, atomic := false, op := .writeInbound 0 63 8 [1] })) = true ∧
    ((!Packet.accepted base.portAddr { dst := 1, frame := 64, udpPort := 4791, reliable := true, atomic := false, op := .readReserved 0 1 })) = true ∧
    ((commandOf (leBytes 1 3 ++ leBytes 63 0) == some (.start 0) && (leBytes 1 3 ++ leBytes 63 0).length == 64 &&
      (commandOf (leBytes 1 9 ++ leBytes 63 0)).isNone)) = true ∧
    (((FlitData.coll 0 0 0 0 (.wires (List.replicate 240 0))).fits &&
      !(FlitData.coll 0 0 0 0 (.wires (List.replicate 256 0))).fits)) = true ∧
    (((FlitData.remote 0 (List.replicate 240 0)).fits && !(FlitData.write 0 (List.replicate 241 0)).fits)) = true ∧
    ((let s := { State.reset with fuse := .deployed }; !s.debugOpen 2 && State.reset.debugOpen 2)) = true ∧
    (({ State.reset with bootHalted := true } : State).bootHalted && !State.reset.bootHalted) = true :=
  by and_intros <;> decide +kernel

theorem witness_DebugActionsComplete :
    ((let s := base; s.debugOpen 0 && (tget tid0 s.teams).any fun t => !t.trapped && !t.retired)) = true ∧
    (!({ base with fuse := .deployed } : State).debugOpen 0) = true ∧
    (!base.debugHeld tid0) = true ∧
    ((let s := inTeam id fun t => { t with trapped := true, debugStop := true }; s.debugHeld tid0 &&
      gidTid gid0 == tid0 && (tget gid0 s.groups).isSome && (tget lid0 s.launches).isSome)) = true ∧
    ((lastWord [(0, 0, 3, 5, leBytes 16 9)] == [(0, 0, 3, 5, leBytes 16 9)])) = true ∧
    ((let s := inTeam id (fun t => { t with trapped := true, trapSlot := some 0, retired := true });
      (s.modC 0 fun c => { c with tkey := 2 ^ 16 }).ctlTeam 0 0 |>.isSome)) = true ∧
    (!State.reset.tokenOk []) = true ∧
    ((let s := inTeam id fun t => { t with trapped := true, debugStop := true };
      let u := ((s.collectPend tid0).restart gid0 false).resettle gid0; s.debugHeld tid0 &&
      (tget gid0 u.groups).any fun g => g.subs.any fun x => x.mask < 256 && x.mask &&& g.liveMask != 0 &&
      (envOf u { gid := gid0, mask := x.mask }).any (·.parkOver))) = true ∧
    ((let s := inTeam (fun g => { g with subs := [{ park := .qpop 0 }] }) fun t => { withQueue t with trapped := true, debugStop := true };
      let u := ((s.collectPend tid0).restart gid0 false).resettle gid0; s.debugHeld tid0 &&
      (tget gid0 u.groups).any fun g => g.subs.all fun x => !((envOf u { gid := gid0, mask := x.mask }).any (·.parkOver)))) = true ∧
    ((let s := inTeam id fun t => { t with trapped := true, debugStop := true }; s.debugHeld tid0 &&
      (tget tid0 s.teams).any fun t => !t.retired)) = true ∧
    ((let s := (inTeam id fun t => { t with trapped := true, trapSlot := some 0 }).modC 0 fun c => { c with tkey := 2 ^ 16 };
      (s.ctlTeam 0 0).any fun x => !x.2.1.retired && !(s.liveGroups tid0).isEmpty &&
      (tget 0 s.ctxs).any fun c => (s.liveGroups tid0).all fun g => mnat (hImage s).data (physKey 0 2 (c.slotAddr x.2.2 + (1024 + 32 * gidG g.1 + 28))) 1 < 2)) = true ∧
    ((let s := ((inTeam id fun t => { t with trapped := true, trapSlot := some 0 }).modC 0 fun c => { c with tkey := 2 ^ 16 });
      let s := s.hWrite (MemW.ofCells (((tget 0 s.ctxs).map fun c => cells (physKey 0 2 (c.slotAddr 0 + 1052)) [2]).getD []));
      (s.ctlTeam 0 0).any fun x => !x.2.1.retired &&
      (tget 0 s.ctxs).any fun c => (s.liveGroups tid0).any fun g => 2 ≤ mnat (hImage s).data (physKey 0 2 (c.slotAddr x.2.2 + (1024 + 32 * gidG g.1 + 28))) 1)) = true ∧
    (((inTeam fun g => { g with faultRec := some { code := 0x13 } }).groups.any fun g => g.2.faultRec.any fun r => !r.marker &&
      !r.closing && r.code == 0x13)) = true ∧
    (((inTeam fun g => { g with faultRec := some { code := 0x06, marker := true }, pend := [pend0] }).groups.any fun g => g.2.faultRec.any fun r => r.marker &&
      !State.undoOn base g.1)) = true ∧
    (((inTeam fun g => { g with faultRec := some { code := 0x08, closing := true } }).groups.any fun g => g.2.faultRec.any fun r => !r.marker &&
      r.closing)) = true ∧
    (((inTeam fun g => { g with faultRec := some { code := 0x0B, fpc := 0x1000, rpc := 0x1008 } }).groups.any fun g => g.2.faultRec.any fun r => !r.marker &&
      !r.closing && r.rpc != r.fpc)) = true ∧
    (((inTeam fun g => { g with faultRec := some { code := 0x08, closing := true }, due := [{ code := 0x19, closing := true }] }).groups.any fun g => g.2.due.length == 1 &&
      g.2.faultRec.any fun r => !r.marker && r.closing)) = true ∧
    (((inTeam fun g => { g with faultRec := some { code := 0x06, marker := true }, subs := [{ park := .regang }] }).groups.any fun g => g.2.faultRec.any fun r => r.marker &&
      g.2.subs.any fun x => x.park == .regang)) = true :=
  by and_intros <;> decide

theorem witness_LifeCycleAndErrorsComplete :
    ((State.rampDue { State.reset with ramp := [(3, 1)], cycle := 3300 } 3 && !State.reset.rampDue 3)) = true ∧
    ((let s := { State.reset with counters := [(counterAt 0 0 0, BitVec.ofNat 64 (2 ^ 48))] };
      2 ^ 48 ≤ (sget (0 : W64) s.counters (counterAt 0 0 0)).toNat)) = true ∧
    (((tget tid0 base.teams).isSome && (tget gid0 base.groups).any fun g => !g.lines.contains 0 && !g.tlines.contains 0)) = true ∧
    ((base.usesStack 0 1).contains 0) = true ∧
    ((base.mem.any fun c => keyType c.1 == 1 && stackOf (c.1 % 2 ^ 56) == (0, 1))) = true ∧
    ((tget 0 { base with ops := [(0, { gid := gid0, slices := 0, kind := .rows [], mode := 15 })] }.ops).isSome) = true :=
  by and_intros <;> decide

theorem witness_IssueSlotTakesTheNextReadyParty :
    ((State.reset.nextParty 0).isNone) = true ∧
    ((let s : State := { base with cur := none, slots := [0] }; s.nextParty 0 == some { gid := gid0, mask := 255 } &&
      risingFrom none s.groups && s.slotOf gid0 == some 0 && !s.rampHeld { gid := gid0, mask := 255 })) = true ∧
    ((let t : State := { inTeam (fun g => { g with subs := [{ park := .fence }] }) with slots := [0] };
      base.heldBack t { gid := gid0, mask := 255 } (.fence {}))) = true ∧
    ((!base.heldBack { base with slots := [0] } { gid := gid0, mask := 255 } (.nop {}))) = true :=
  by and_intros <;> decide

theorem witness_StepRunsTheDecodedWord :
    (stands base fun e => e.pc.toNat % 8 == 0 && isOk (e.fetchAt e.pc.toNat) fun w => isOk (decodeWord w) fun i => i == .nop {}) = true ∧
    (stands (State.reset.withFetchWord 64 (0x35 * 2 ^ 54)) fun e => isOk (e.fetchAt e.pc.toNat) fun w => !isOk (decodeWord w)) = true ∧
    (stands (inTeam fun g => { g with slices := g.slices.map fun x => { x with pc := BitVec.ofNat 64 (2 ^ 40) } }) fun e =>
      !isOk (e.fetchAt e.pc.toNat)) = true ∧
    (stands (inTeam fun g => { g with slices := g.slices.map fun x => { x with pc := 0x1004 } }) fun e => e.pc.toNat % 8 != 0) = true ∧
    ((envOf base { gid := 5, mask := 255 }).isNone) = true ∧
    ((State.reset.cur.isNone && State.reset.inputs == [])) = true :=
  by and_intros <;> decide

theorem witness_PrintedEncodings :
    ((!bitOf (0x35 * 2 ^ 54) 62 && opReserved (opcodeOf (0x35 * 2 ^ 54)))) = true :=
  by decide

theorem witness_DecodeOfEncode :
    ((let i := Instr.nop {}; i.wf && i.pairOk && (encode i).isSome)) = true :=
  by decide

theorem witness_EncodeOfDecode :
    (isOk (decodeWord 0x3D80000000000000)) = true :=
  by decide

theorem witness_EveryStepKeepsTheMemoryCanonical :
    ((Memory.wf base.mem && (match step base with | .next _ => true | _ => false))) = true :=
  by decide

theorem witness_FusesNeverGoBack :
    ((let s := { State.reset with inputs := [.fuseAdvance] }; match step s with | .next t => s.fuse != t.fuse | _ => false)) = true :=
  by decide

theorem witness_GridEventsComplete_tree :
    ((let s := withTree; let a : App := { tm := { s := s, cid := 0, img := ((tget lid0 s.launches).getD {}).snap } };
      isOk (a.tm.header 0x8000) (fun h => isOk (a.tm.goodPath h ⟨0, 0, 0⟩) fun q => q.leaf == 0) &&
      !isOk (a.tm.header 0x9000))) = true ∧
    ((let bytes := leBytes 8 0 ++ leBytes 8 0x9000 ++ leBytes 8 0 ++ leBytes 8 (7 * 2 ^ 8 + 4 * 2 ^ 16) ++ (List.range 4).flatMap fun _ => leBytes 8 0xA000;
      let arena := leBytes 8 64 ++ leBytes 8 (2 ^ 20) ++ leBytes 8 0 ++ leBytes 8 0;
      let s := (inTeam id id fun l => { l with snap := { data := (cells (physKey 0 1 (2 ^ 30 + 0x8000)) bytes ++ cells (physKey 0 1 (2 ^ 30 + 0xA000)) arena).filter fun c => c.2 != 0 } });
      let a : App := { tm := { s := s, cid := 0, img := ((tget lid0 s.launches).getD {}).snap } };
      isOk (a.tm.header 0x8000) (fun h => h.arenas.dedup == [0xA000]) &&
      isOk (a.tm.arena 0xA000) fun r => r.2.2.2 == 0)) = true ∧
    ((let bytes := leBytes 8 0 ++ leBytes 8 0x9000 ++ leBytes 8 0 ++ leBytes 8 (7 * 2 ^ 8 + 4 * 2 ^ 16) ++ (List.range 4).flatMap fun _ => leBytes 8 0xA000;
      let arena := leBytes 8 64 ++ leBytes 8 (2 ^ 20) ++ leBytes 8 0 ++ leBytes 8 0x50000;
      let s := (inTeam id id fun l => { l with snap := { data := (cells (physKey 0 1 (2 ^ 30 + 0x8000)) bytes ++ cells (physKey 0 1 (2 ^ 30 + 0xA000)) arena).filter fun c => c.2 != 0 } });
      let a : App := { tm := { s := s, cid := 0, img := ((tget lid0 s.launches).getD {}).snap } };
      isOk (a.tm.header 0x8000) (fun h => h.arenas.dedup == [0xA000]) &&
      isOk (a.tm.arena 0xA000) fun r => r.2.2.2 == 0x50000 &&
      isOk (a.put (a.tailOf a.tm.img.data.length 0x50000) 8 0) fun b => isOk (b.put 0xA010 8 0x50000) fun c => isOk (c.put 0xA018 8 0))) = true :=
  by and_intros <;> decide +kernel

theorem witness_GridEventsComplete_leaf :
    ((let s := withNodes 0x80000;
      let a : App := { tm := { s := s, cid := 0, img := ((tget lid0 s.launches).getD {}).snap } };
      isOk (a.tm.header 0x8000) (fun h => isOk (a.tm.goodPath h ⟨0, 0, 0⟩) fun q => q.leaf != 0))) = true :=
  by decide +kernel

theorem witness_GridEventsComplete_free :
    ((let s := withNodes 0; let a : App := { tm := { s := s, cid := 0, img := ((tget lid0 s.launches).getD {}).snap } };
      isOk (a.tm.header 0x8000) (fun h => isOk (a.tm.goodPath h ⟨0, 0, 0⟩) fun q => q.leaf == 0 && q.lower != 0 &&
      q.upper != 0 && isOk (a.tm.arena ((h.arenas[h.owner (Pt.origin ⟨0, 0, 0⟩ 8)]?).getD 0)) fun r => r.2.2.1 == 0))) = true :=
  by decide +kernel

theorem witness_SchedulerEventsComplete_leaf :
    ((let s := ((withTree.modL lid0 fun l => { l with state := .submitted, lr := { l.lr with leaf := true, aux := 0x8000 } }).hWrite (MemW.ofCells ((cells (physKey 0 1 (2 ^ 30 + 0x8000)) treeBytes).filter fun c => c.2 != 0)));
      (tget lid0 s.launches).any fun l => (tget 0 s.ctxs).any fun c => s.depState lid0 l == some true &&
      l.refusal.isNone && (c.dies l.lr.l).all (fun d => s.dieUse d < 256) &&
      (let m : TreeMem := { s := s, cid := 0, img := s.visible lid0 l };
      isOk (m.header 0x8000) fun h => isOk (m.activeLeaves h)))) = true ∧
    ((let s := inTeam id id fun l => { l with state := .submitted, lr := { l.lr with leaf := true, aux := 0x8000 } };
      (tget lid0 s.launches).any fun l => (tget 0 s.ctxs).any fun c => s.depState lid0 l == some true &&
      l.refusal.isNone && (c.dies l.lr.l).all (fun d => s.dieUse d < 256) &&
      (let m : TreeMem := { s := s, cid := 0, img := s.visible lid0 l }; !isOk (m.header 0x8000)))) = true :=
  by and_intros <;> decide +kernel

theorem witness_SchedulerEventsComplete_die :
    ((let l0 := (tget lid0 base.launches).getD {};
      let s := { base with launches := (lid0, { l0 with state := .submitted }) :: (List.range 256).map fun i => (lid0 + 1 + i, { l0 with state := .eligible }) };
      (tget lid0 s.launches).any fun l => (tget 0 s.ctxs).any fun c => s.depState lid0 l == some true &&
      l.refusal.isNone && (c.dies l.lr.l).any fun d => 256 ≤ s.dieUse d)) = true :=
  by decide +kernel

end Sys2Proof.Tests
end

section
/-! SUPPORT. Privileged words in team code (R56): at issue each of them raises fault 0x18 before anything else is looked at, and a
word of a privileged opcode that does not decode raises the same fault (R59). -/

namespace Sys2Proof

/-! ### Decoding the privileged opcodes -/

theorem opPrivileged_iff (op : Nat) : opPrivileged op = true ↔
    op = 0xC7 ∨ op = 0xC8 ∨ op = 0xC9 ∨ op = 0xCA ∨ op = 0xEF ∨ op = 0xF2 ∨ op = 0xF3 ∨ op = 0xF4 ∨ op = 0xF5 ∨ op = 0xF6 := by
  simp [opPrivileged]

theorem formOf_of_opPrivileged {op : Nat} (h : opPrivileged op = true) : formOf op = some .r := by
  rcases (opPrivileged_iff op).mp h with rfl | rfl | rfl | rfl | rfl | rfl | rfl | rfl | rfl | rfl <;> rfl

theorem Instr.privileged_of_ofR {op : Nat} {f : RWord} {i : Instr} (h : opPrivileged op = true) (hi : Instr.ofR op f = some i) :
    i.privileged = true := by
  rcases (opPrivileged_iff op).mp h with rfl | rfl | rfl | rfl | rfl | rfl | rfl | rfl | rfl | rfl
  case inr.inl =>
    -- 0xC8 is LWAIT or LWAIT_CANCEL, by MODA (R287)
    simp only [Instr.ofR] at hi
    split at hi
    · cases hi; rfl
    · split at hi <;> cases hi
      rfl
  all_goals cases hi; rfl

/-- The pair rule of R53 is about pair words, and no pair word is privileged. -/
theorem Instr.pairOk_of_privileged {i : Instr} (h : i.privileged = true) : i.pairOk = true := by
  unfold Instr.pairOk
  split
  · cases h
  · rfl

/-- A word of a privileged opcode fails to decode only by its fields: its opcode is not reserved and the pair rule does not
apply to it. -/
theorem decodeWord_error_of_opPrivileged {w : Nat} {r : Reject} (hb : bitOf w 62 = false) (ho : opPrivileged (opcodeOf w) = true)
    (hd : decodeWord w = .error r) : r = .reservedField ∨ r = .illFormed := by
  have hp : parse w = ofField ((parseR w).map (.r (opcodeOf w))) := by simp [parse, hb, formOf_of_opPrivileged ho]
  cases hf : parseR w with
  | none =>
    simp only [decodeWord, hp, hf, ofField, Option.map] at hd
    cases hd; exact .inl rfl
  | some f =>
    simp only [decodeWord, hp, hf, ofField, Option.map, Instr.ofEnc] at hd
    cases hi : Instr.ofR (opcodeOf w) f with
    | none => rw [hi] at hd; cases hd; exact .inr rfl
    | some i =>
      have hk : i.pairOk = true := Instr.pairOk_of_privileged (Instr.privileged_of_ofR ho hi)
      simp only [hi, hk] at hd
      split at hd <;> cases hd
      exact .inr rfl

namespace Machine

/-- Fields that are not accepted, under a privileged opcode, are a privilege fault in team code (R59). -/
theorem Env.rejectCode_of_opPrivileged {e : Env} {w : Nat} {r : Reject} (hc : e.g.isCtl = false) (hb : bitOf w 62 = false)
    (ho : opPrivileged (opcodeOf w) = true) (hr : r = .reservedField ∨ r = .illFormed) : e.rejectCode w r = 0x18 := by
  have hm : privilegedOps.contains (opcodeOf w) = true := ho
  rcases hr with rfl | rfl <;> simp only [Env.rejectCode, hc, hb, hm] <;> rfl

/-! ### Issuing a privileged word -/

theorem preIssue_of_privileged {i : Instr} {e : Env} (hc : e.g.isCtl = false) (hp : i.privileged = true) :
    preIssue i e = some (.fault (flt 0x18)) := by
  simp [preIssue, hc, hp]

/-- Every privileged word runs in the frame of `issueWord`, so it meets the checks of issue before its own body. -/
theorem exec_of_privileged {i : Instr} (hp : i.privileged = true) (s : State) : ∃ body, exec i s = issueWord i body s := by
  cases i with
  | csrr | csrw | iret | halt | tlbi | msgrd | msgwr | launch | lwait | lwaitCancel | cntc => exact ⟨_, rfl⟩
  | _ => cases hp

theorem traps_of_privileged {i : Instr} {s : State} {p : Party} {e : Env} (hs : s.cur = some p)
    (he : envOf { s with cur := none } p = some e) (hc : e.g.isCtl = false) (hp : i.privileged = true) : Traps i s e 0x18 := by
  obtain ⟨body, hx⟩ := exec_of_privileged hp s
  refine ⟨e.record (some i) ((encode i).getD 0) (flt 0x18), ?_, rfl, rfl, rfl, rfl⟩
  rw [hx, ← takeFault_team hc rfl]
  simp [issueWord, hs, he, preIssue_of_privileged hc hp, finish, flt]

/-- Settles O22: the privilege check comes before the body of every privileged word, and a word of a privileged opcode that does
not decode fails by its fields alone. -/
theorem privilegedWordsTrapInTeamCode : Obligations.PrivilegedWordsTrapInTeamCode := by
  intro s p e hs he hc
  refine ⟨fun f i hi => traps_of_privileged hs he hc ?_, fun w r hb ho hd =>
    Env.rejectCode_of_opPrivileged hc hb ho (decodeWord_error_of_opPrivileged hb ho hd)⟩
  simp only [List.mem_cons, List.not_mem_nil, or_false] at hi
  rcases hi with rfl | rfl | rfl | rfl | rfl | rfl | rfl | rfl | rfl | rfl | rfl <;> rfl

end Machine
end Sys2Proof
end

section
/-! SUPPORT. HINV (R333): the die's Aster table loses the entries in the ways that the context has enabled, and the word changes
nothing else. -/

namespace Sys2Proof.Machine

/-- A word that executes once for the group, with an executing lane, has its body's effect. -/
theorem onceWord_ok {i : Instr} {s : State} {e : Env} (h : Issues i s e) (hx : e.exec i.guard ≠ 0) {body : Env → Chk Res} {t : State}
    (hb : body e = .ok (.ok t)) : onceWord i body s = .next (e.done i t) := by
  have hx' : (e.exec i.guard == 0) = false := beq_false_of_ne hx
  exact issueWord_ok h (by simp [hx', hb, ofChk])

/-- The entry's place is on the issuing die, in a way that the context has enabled. -/
def Env.asterOwns (e : Env) (place : Nat) : Bool := place / 2 ^ 20 == e.die && bitOf e.ctx.f.wayMask.toNat (place % 16)

theorem Env.asterOwns_iff (e : Env) (place : Nat) :
    e.asterOwns place = true ↔ place / 2 ^ 20 = e.die ∧ bitOf e.ctx.f.wayMask.toNat (place % 16) = true := by
  rw [asterOwns, Bool.and_eq_true, beq_iff_eq]

/-- HINV's effect is one field: the table without the entries that the context's ways own. -/
theorem exec_hinv {s : State} {e : Env} {f : RWord} (h : Issues (.hinv f) s e) (hx : e.exec f.k ≠ 0) :
    exec (.hinv f) s = .next (e.done (.hinv f) { e.s with aster := e.s.aster.filter fun a => !e.asterOwns a.1 }) :=
  onceWord_ok h hx rfl

/-- Settles O47: the entries that stay are those that the filter of HINV's effect keeps. -/
theorem hinvInvalidatesItsWays : Obligations.HinvInvalidatesItsWays := by
  intro s e f h hx
  refine ⟨_, exec_hinv h hx, rfl, fun x => ?_⟩
  have hkeep : (!e.asterOwns x.1) = true ↔ ¬(x.1 / 2 ^ 20 = e.die ∧ bitOf e.ctx.f.wayMask.toNat (x.1 % 16) = true) := by
    rw [Bool.not_eq_true', ← Bool.not_eq_true, e.asterOwns_iff]
  exact List.mem_filter.trans (and_congr_right' hkeep)

end Sys2Proof.Machine
end

section
/-! SUPPORT. The encoding of words (R32, R35, R51, R59): every accepted instruction is read back from its bytes, and a word that decodes
is the encoding of what it decodes to. -/

namespace Sys2Proof

/-! ### Bytes of a word -/

theorem leNat_leBytes (n v : Nat) (h : v < 256 ^ n) : leNat (leBytes n v) = v := by
  induction n generalizing v with
  | zero => simp at h; simp [leBytes, leNat, h]
  | succ n ih =>
    have hq : v / 256 < 256 ^ n := Nat.div_lt_of_lt_mul (by rw [Nat.mul_comm, ← Nat.pow_succ]; exact h)
    simp only [leBytes, leNat, ih _ hq, BitVec.toNat_ofNat]
    omega

theorem leBytes_length (n v : Nat) : (leBytes n v).length = n := by
  induction n generalizing v with
  | zero => rfl
  | succ n ih => simp [leBytes, ih]

/-- Decoding from memory reads the word whose bytes come first, and leaves the bytes after it. -/
theorem decodeBytes_leBytes {w : Nat} {i : Instr} (hw : w < 2 ^ 64) (hd : decodeWord w = .ok i) (rest : List Byte) :
    decodeBytes (leBytes 8 w ++ rest) = .ok (i, rest) := by
  have hl := leBytes_length 8 w
  have hs : ¬(leBytes 8 w ++ rest).length < 8 := by rw [List.length_append, hl]; omega
  rw [decodeBytes, if_neg hs, List.take_left' hl, List.drop_left' hl, leNat_leBytes 8 w (by simpa using hw), hd]
  rfl

/-! ### Codes of operands and modifiers -/

theorem Special.code_of_all {n : Nat} {r : Special} (h : Special.all[n]? = some r) : r.code = 0xD0 + n := by
  have key : ∀ n : Fin 30, ∀ r ∈ Special.all[n.val]?, r.code = 0xD0 + n.val := by decide
  obtain ⟨hn, -⟩ := List.getElem?_eq_some_iff.mp h
  exact key ⟨n, hn⟩ r h
theorem fin_val_ofNat {n x : Nat} [NeZero n] (h : x < n) : (Fin.ofNat n x).val = x := Nat.mod_eq_of_lt h
theorem bitVec_toNat_ofNat {n x : Nat} (h : x < 2 ^ n) : (BitVec.ofNat n x).toNat = x := by
  rw [BitVec.toNat_ofNat, Nat.mod_eq_of_lt h]
theorem bit_beq_one {n : Nat} (h : n < 2) : bit (n == 1) = n := by
  rcases (by omega : n = 0 ∨ n = 1) with rfl | rfl <;> rfl

/-- The ranges of operand bytes do not meet (R40). -/
theorem Opd.code_of_ofCode {c : Nat} {o : Opd} (h : Opd.ofCode c = some o) : o.code = c := by
  unfold Opd.ofCode at h
  split at h
  next hv => cases h; rw [Opd.code, fin_val_ofNat hv]
  split at h
  next hv hs => cases h; rw [Opd.code, fin_val_ofNat (by omega)]; omega
  split at h
  next hs hk => cases h; rw [Opd.code, fin_val_ofNat (by omega)]; omega
  split at h
  next hk hx => cases h; rw [Opd.code, fin_val_ofNat (by omega)]; omega
  split at h
  next hz => cases h; exact (beq_iff_eq.mp hz).symm
  next hz =>
    obtain ⟨r, hr, rfl⟩ := Option.map_eq_some_iff.mp h
    rw [Opd.code, Special.code_of_all hr]; omega
theorem Ty.code_of_ofCode {c : Nat} {t : Ty} (hc : c < 16) (h : Ty.ofCode c = some t) : t.code = c := by
  have key : ∀ c : Fin 16, ∀ t ∈ Ty.ofCode c.val, t.code = c.val := by decide
  exact key ⟨c, hc⟩ t h
theorem Rnd.code_of_ofCode {c : Nat} {r : Rnd} (hc : c < 4) (h : Rnd.ofCode c = some r) : r.code = c := by
  have key : ∀ c : Fin 4, ∀ r ∈ Rnd.ofCode c.val, r.code = c.val := by decide
  exact key ⟨c, hc⟩ r h
theorem Cond.code_of_ofCode {n : Nat} {c : Cond} (hc : n < 16) (h : Cond.ofCode n = some c) : c.code = n := by
  have key : ∀ n : Fin 16, ∀ c ∈ Cond.ofCode n.val, c.code = n.val := by decide
  exact key ⟨n, hc⟩ c h
theorem Width.code_of_ofCode {c : Nat} {w : Width} (hc : c < 8) (h : Width.ofCode c = some w) : w.code = c := by
  have key : ∀ c : Fin 8, ∀ w ∈ Width.ofCode c.val, w.code = c.val := by decide
  exact key ⟨c, hc⟩ w h
theorem PairOp.code_of_ofCode {c : Nat} {p : PairOp} (hc : c < 128) (h : PairOp.ofCode c = some p) : p.code = c := by
  have key : ∀ c : Fin 128, ∀ p ∈ PairOp.ofCode c.val, p.code = c.val := by decide
  exact key ⟨c, hc⟩ p h

/-! ### The fields of a word that parses -/

/-- Every field read from a number fits its width. -/
theorem unpackFields_lt (ws : List Nat) (w : Nat) : ∀ p ∈ ws.zip (unpackFields ws w), p.2 < 2 ^ p.1 := by
  induction ws generalizing w with
  | nil => simp [unpackFields]
  | cons n ws ih =>
    intro p hp
    simp only [unpackFields, List.zip_cons_cons, List.mem_cons] at hp
    rcases hp with rfl | hp
    · exact Nat.mod_lt _ (Nat.two_pow_pos n)
    · exact ih _ p hp

theorem RWord.fields_of_parseR {w : Nat} {f : RWord} (hp : bitOf w 62 = false) (h : parseR w = some f) :
    f.fields (opcodeOf w) = unpackFields rLayout w := by
  unfold parseR at h
  split at h
  case h_2 => cases h
  case h_1 lo nc nb na sat rnd m ty c b a d k op p s hf =>
    have ho := opcodeOf_of_fields hf 13 rfl rfl rfl
    have hq := pairBit_of_fields hf 14 rfl rfl rfl
    have hlt := unpackFields_lt rLayout w
    rw [hf] at hlt ⊢
    simp only [Option.bind_eq_bind, Option.bind_eq_some_iff, Option.some.injEq] at h
    obtain ⟨rnd', hrnd, ty', hty, c', hc, b', hb, a', ha, d', hd, rfl⟩ := h
    simp only [rLayout, List.zip_cons_cons, List.zip_nil_right, List.mem_cons, List.not_mem_nil, or_false, forall_eq_or_imp,
      forall_eq] at hlt
    obtain ⟨hlo, hnc, hnb, hna, hsat, hrl, hm, htl, hcl, hbl, hal, hdl, hk, -, -, hs⟩ := hlt
    simp only [List.getElem?_cons_succ, List.getElem?_cons_zero, Option.some.injEq, hp] at ho hq
    simp only [RWord.fields, fin_val_ofNat (n := 32) hlo, fin_val_ofNat (n := 16) hm, fin_val_ofNat (n := 8) hk, bit_beq_one hnc, bit_beq_one hnb,
      bit_beq_one hna, bit_beq_one hsat, bit_beq_one hs, Rnd.code_of_ofCode hrl hrnd, Ty.code_of_ofCode htl hty,
      Opd.code_of_ofCode hc, Opd.code_of_ofCode hb, Opd.code_of_ofCode ha, Opd.code_of_ofCode hd, ho, hq]
    rfl

theorem IWord.fields_of_parseI {w : Nat} {f : IWord} (hp : bitOf w 62 = false) (h : parseI w = some f) :
    f.fields (opcodeOf w) = unpackFields iLayout w := by
  unfold parseI at h
  split at h
  case h_2 => cases h
  case h_1 imm modi a d k op p s hf =>
    have ho := opcodeOf_of_fields hf 5 rfl rfl rfl
    have hq := pairBit_of_fields hf 6 rfl rfl rfl
    have hlt := unpackFields_lt iLayout w
    rw [hf] at hlt ⊢
    simp only [Option.bind_eq_bind, Option.bind_eq_some_iff, Option.some.injEq] at h
    obtain ⟨a', ha, d', hd, rfl⟩ := h
    simp only [iLayout, List.zip_cons_cons, List.zip_nil_right, List.mem_cons, List.not_mem_nil, or_false, forall_eq_or_imp,
      forall_eq] at hlt
    obtain ⟨himm, hmodi, hal, hdl, hk, -, -, hs⟩ := hlt
    simp only [List.getElem?_cons_succ, List.getElem?_cons_zero, Option.some.injEq, hp] at ho hq
    simp only [IWord.fields, bitVec_toNat_ofNat himm, fin_val_ofNat (n := 8) hmodi, fin_val_ofNat (n := 8) hk, bit_beq_one hs,
      Opd.code_of_ofCode ha, Opd.code_of_ofCode hd, ho, hq]
    rfl

theorem MWord.fields_of_parseM {w : Nat} {f : MWord} (hp : bitOf w 62 = false) (h : parseM w = some f) :
    f.fields (opcodeOf w) = unpackFields mLayout w := by
  unfold parseM at h
  split at h
  case h_2 => cases h
  case h_1 off op sx scale width b a d k oc p s hf =>
    have ho := opcodeOf_of_fields hf 9 rfl rfl rfl
    have hq := pairBit_of_fields hf 10 rfl rfl rfl
    have hlt := unpackFields_lt mLayout w
    rw [hf] at hlt ⊢
    simp only [Option.bind_eq_bind, Option.bind_eq_some_iff, Option.some.injEq] at h
    obtain ⟨width', hwd, b', hb, a', ha, d', hd, rfl⟩ := h
    simp only [mLayout, List.zip_cons_cons, List.zip_nil_right, List.mem_cons, List.not_mem_nil, or_false, forall_eq_or_imp,
      forall_eq] at hlt
    obtain ⟨hoff, hop, hsx, hscale, hwl, hbl, hal, hdl, hk, -, -, hs⟩ := hlt
    simp only [List.getElem?_cons_succ, List.getElem?_cons_zero, Option.some.injEq, hp] at ho hq
    simp only [MWord.fields, bitVec_toNat_ofNat hoff, fin_val_ofNat (n := 4) hop, fin_val_ofNat (n := 4) hscale,
      fin_val_ofNat (n := 8) hk, bit_beq_one hsx, bit_beq_one hs, Width.code_of_ofCode hwl hwd, Opd.code_of_ofCode hb, Opd.code_of_ofCode ha,
      Opd.code_of_ofCode hd, ho, hq]
    rfl

theorem BWord.fields_of_parseB {w : Nat} {f : BWord} (hp : bitOf w 62 = false) (h : parseB w = some f) :
    f.fields (opcodeOf w) = unpackFields bLayout w := by
  unfold parseB at h
  split at h
  case h_2 => cases h
  case h_1 disp st kt cc pt op p s hf =>
    have ho := opcodeOf_of_fields hf 7 rfl rfl rfl
    have hq := pairBit_of_fields hf 8 rfl rfl rfl
    have hlt := unpackFields_lt bLayout w
    rw [hf] at hlt ⊢
    simp only [Option.bind_eq_bind, Option.bind_eq_some_iff, Option.some.injEq] at h
    obtain ⟨cc', hcc, rfl⟩ := h
    simp only [bLayout, List.zip_cons_cons, List.zip_nil_right, List.mem_cons, List.not_mem_nil, or_false, forall_eq_or_imp,
      forall_eq] at hlt
    obtain ⟨hdisp, -, hst, hkt, hcl, hpt, -, -, -, hs⟩ := hlt
    simp only [List.getElem?_cons_succ, List.getElem?_cons_zero, Option.some.injEq, hp] at ho hq
    simp only [BWord.fields, bitVec_toNat_ofNat hdisp, fin_val_ofNat (n := 64) hst, fin_val_ofNat (n := 8) hkt, bit_beq_one hpt, bit_beq_one hs,
      Cond.code_of_ofCode hcl hcc, ho, hq]
    rfl

/-- A slot that parses has the fields it was read from: the one of A6 and IMM8 that is not the source is zero (R51). -/
theorem PSlot.fields_of_parseSlot {imm i a d k oc : Nat} {op : PairOp} {p : PSlot} (h : parseSlot imm i a d k op = some p)
    (hop : op.code = oc) (himm : imm < 2 ^ 8) (hi : i < 2 ^ 1) (ha : a < 2 ^ 6) (hd : d < 2 ^ 6) (hk : k < 2 ^ 3) :
    p.fields = [imm, i, a, d, k, oc] := by
  unfold parseSlot at h
  split at h
  · split at h <;> cases h
    simp_all only [beq_iff_eq, PSlot.fields, bitVec_toNat_ofNat himm, fin_val_ofNat (n := 64) hd, fin_val_ofNat (n := 8) hk]
  · split at h <;> cases h
    have hi0 : i = 0 := by simp_all only [beq_iff_eq]; omega
    simp_all only [beq_iff_eq, PSlot.fields, fin_val_ofNat (n := 64) ha, fin_val_ofNat (n := 64) hd, fin_val_ofNat (n := 8) hk]

theorem PWord.fields_of_parseP {w : Nat} {f : PWord} (hp : bitOf w 62 = true) (h : parseP w = .ok f) :
    f.fields = unpackFields pLayout w := by
  unfold parseP at h
  split at h
  case h_2 => cases h
  case h_1 imm1 i1 a1 d1 k1 op1 imm0 i0 a0 d0 k0 op0 p s hf =>
    have hq := pairBit_of_fields hf 12 rfl rfl rfl
    have hlt := unpackFields_lt pLayout w
    rw [hf] at hlt ⊢
    split at h
    case h_2 => cases h
    case h_1 o0 o1 ho0 ho1 =>
      split at h
      case h_2 => cases h
      case h_1 s0 s1 hs0 hs1 =>
        cases h
        simp only [pLayout, List.zip_cons_cons, List.zip_nil_right, List.mem_cons, List.not_mem_nil, or_false, forall_eq_or_imp,
          forall_eq] at hlt
        obtain ⟨hm1, hi1, ha1, hd1, hk1, hc1, hm0, hi0, ha0, hd0, hk0, hc0, -, hs⟩ := hlt
        simp only [List.getElem?_cons_succ, List.getElem?_cons_zero, Option.some.injEq, hp] at hq
        rw [PWord.fields, PSlot.fields_of_parseSlot hs1 (PairOp.code_of_ofCode hc1 ho1) hm1 hi1 ha1 hd1 hk1,
          PSlot.fields_of_parseSlot hs0 (PairOp.code_of_ofCode hc0 ho0) hm0 hi0 ha0 hd0 hk0, bit_beq_one hs, hq]
        rfl

/-- A word that parses is the word of its layout. -/
theorem Enc.toNat_of_parse {w : Nat} {e : Enc} (hw : w < 2 ^ 64) (h : parse w = .ok e) : e.toNat = w := by
  unfold parse at h
  split at h
  next hb =>
    cases hp : parseP w with
    | error r => rw [hp] at h; cases h
    | ok f =>
      rw [hp] at h; cases h
      rw [Enc.toNat, PWord.fields_of_parseP hb hp]
      exact packFields_unpackFields pLayout w hw
  next hb =>
    rw [Bool.not_eq_true] at hb
    split at h
    · cases h
    · cases hp : parseR w with
      | none => rw [hp] at h; cases h
      | some f =>
        rw [hp] at h; cases h
        rw [Enc.toNat, RWord.fields_of_parseR hb hp]
        exact packFields_unpackFields rLayout w hw
    · cases hp : parseI w with
      | none => rw [hp] at h; cases h
      | some f =>
        rw [hp] at h; cases h
        rw [Enc.toNat, IWord.fields_of_parseI hb hp]
        exact packFields_unpackFields iLayout w hw
    · cases hp : parseM w with
      | none => rw [hp] at h; cases h
      | some f =>
        rw [hp] at h; cases h
        rw [Enc.toNat, MWord.fields_of_parseM hb hp]
        exact packFields_unpackFields mLayout w hw
    · cases hp : parseB w with
      | none => rw [hp] at h; cases h
      | some f =>
        rw [hp] at h; cases h
        rw [Enc.toNat, BWord.fields_of_parseB hb hp]
        exact packFields_unpackFields bLayout w hw

/-! ### The opcode map (R55) -/

/-- The opcodes of R-type words that MODA tells apart (R55). -/
def sharedOpcodes : List Nat := [0xA7, 0xA9, 0xC8, 0xD6, 0xE1, 0xE6, 0xE8]

/-- Sixteen opcodes, but for the shared ones. -/
def opcodeBlock (n : Nat) : List Nat := (List.range' (16 * n) 16).filter (!sharedOpcodes.contains ·)

theorem Instr.toEnc_ofR_block (f : RWord) {n : Nat} (hn : n < 16) : ∀ op ∈ opcodeBlock n,
    (Instr.ofR op f).bind Instr.toEnc = (Instr.ofR op f).map fun _ => Enc.r op f := by
  refine List.map_inj_left.1 ?_
  interval_cases n <;> rfl

theorem Instr.toEnc_ofR_shared (f : RWord) : ∀ op ∈ sharedOpcodes,
    (Instr.ofR op f).bind Instr.toEnc = (Instr.ofR op f).map fun _ => Enc.r op f := by
  refine List.map_inj_left.1 ?_
  obtain ⟨s, k, d, a, b, c, ty, m, rnd, sat, negA, negB, negC, lo⟩ := f
  fin_cases m <;> rfl

theorem Instr.toEnc_of_ofR {op : Nat} {f : RWord} {i : Instr} (hop : op < 256) (h : Instr.ofR op f = some i) : i.toEnc = some (.r op f) := by
  have hall : (Instr.ofR op f).bind Instr.toEnc = (Instr.ofR op f).map fun _ => Enc.r op f := by
    by_cases hs : op ∈ sharedOpcodes
    · exact Instr.toEnc_ofR_shared f op hs
    · refine Instr.toEnc_ofR_block f (n := op / 16) (by omega) op (List.mem_filter.2 ⟨?_, by simpa using hs⟩)
      rw [List.mem_range'_1]
      omega
  rwa [h] at hall

/-- The instruction of a layout has that layout. -/
theorem Instr.toEnc_of_ofEnc {e : Enc} {i : Instr} (hop : ∀ op f, e = .r op f → op < 256) (h : Instr.ofEnc e = some i) : i.toEnc = some e := by
  cases e with
  | p f => cases h; rfl
  | i op f =>
    simp only [Instr.ofEnc, Instr.ofI] at h
    split at h <;> cases h <;> rfl
  | m op f =>
    simp only [Instr.ofEnc, Instr.ofM] at h
    split at h <;> cases h <;> rfl
  | b op f =>
    simp only [Instr.ofEnc, Instr.ofB] at h
    split at h
    case h_6 => split at h <;> cases h <;> rfl
    all_goals cases h <;> rfl
  | r op f => exact Instr.toEnc_of_ofR (hop op f rfl) h

/-- The opcode of an R-type word has eight bits. -/
theorem opcode_lt_of_parse {w op : Nat} {f : RWord} (h : parse w = .ok (.r op f)) : op < 256 := by
  unfold parse at h
  split at h
  · cases hp : parseP w <;> rw [hp] at h <;> cases h
  · split at h
    · cases h
    · cases hp : parseR w <;> rw [hp] at h <;> cases h
      exact Nat.mod_lt _ (by decide)
    · cases hp : parseI w <;> rw [hp] at h <;> cases h
    · cases hp : parseM w <;> rw [hp] at h <;> cases h
    · cases hp : parseB w <;> rw [hp] at h <;> cases h

/-- What decoding a word has found. -/
theorem decodeWord_ok {w : Nat} {i : Instr} (h : decodeWord w = .ok i) :
    ∃ e, parse w = .ok e ∧ Instr.ofEnc e = some i ∧ i.wf = true ∧ i.pairOk = true := by
  unfold decodeWord at h
  split at h
  · cases h
  next e he =>
    split at h
    · cases h
    next j hj =>
      split at h
      · cases h
      next hwf =>
        split at h
        · cases h
        next hpo =>
          cases h
          exact ⟨e, he, hj, by simpa using hwf, by simpa using hpo⟩

namespace Laws.Encoding

/-- The encoding of every instruction, word by word. -/
theorem statement : ∀ i, Statement i
  | .nop f => nop f | .mov f => mov f | .movi f => movi f | .movh f => movh f | .rdln f => rdln f | .wrln f => wrln f
  | .shfl f => shfl f | .sel f => sel f | .iadd f => iadd f | .isub f => isub f | .imul f => imul f
  | .imulh f => imulh f | .imad f => imad f | .imin f => imin f | .imax f => imax f | .iabs f => iabs f
  | .ineg f => ineg f | .and f => and f | .or f => or f | .xor f => xor f | .not f => not f | .shl f => shl f
  | .shr f => shr f | .sar f => sar f | .rot f => rot f | .popc f => popc f | .clz f => clz f | .brev f => brev f
  | .bfx f => bfx f | .bfi f => bfi f | .lea f => lea f | .icmp f => icmp f | .iaddi f => iaddi f | .andi f => andi f
  | .ori f => ori f | .xori f => xori f | .shli f => shli f | .shri f => shri f | .icmpi f => icmpi f
  | .imuli f => imuli f | .kand f => kand f | .kor f => kor f | .kxor f => kxor f | .knot f => knot f
  | .kmov f => kmov f | .kpop f => kpop f | .kffs f => kffs f | .kset f => kset f | .sfmt f => sfmt f
  | .prmt f => prmt f | .pack f => pack f | .unpk f => unpk f | .clrst f => clrst f | .fadd f => fadd f
  | .fsub f => fsub f | .fmul f => fmul f | .ffma f => ffma f | .fmin f => fmin f | .fmax f => fmax f
  | .fabs f => fabs f | .fneg f => fneg f | .fcmp f => fcmp f | .fclass f => fclass f | .fdiv f => fdiv f
  | .fsqrt f => fsqrt f | .frcp f => frcp f | .frsq f => frsq f | .fex2 f => fex2 f | .flg2 f => flg2 f
  | .fsin f => fsin f | .fcos f => fcos f | .frnd f => frnd f | .fscl f => fscl f | .fgexp f => fgexp f
  | .fcps f => fcps f | .faddi f => faddi f | .fmuli f => fmuli f | .ffmai f => ffmai f | .f2f f => f2f f
  | .f2i f => f2i f | .i2f f => i2f f | .bpack f => bpack f | .bunpk f => bunpk f | .fdp2 f => fdp2 f
  | .pairWord f => pairWord f | .bra f => bra f | .bkz f => bkz f | .bknz f => bknz f | .loop f => loop f
  | .jmpi f => jmpi f | .call f => call f | .calli f => calli f | .ret f => ret f | .regang f => regang f
  | .ksync f => ksync f | .exit f => exit f | .mbld f => mbld f | .mma f => mma f | .mzro f => mzro f
  | .mdrn f => mdrn f | .mdrs f => mdrs f | .mdrm f => mdrm f | .mseq f => mseq f | .mgrp f => mgrp f
  | .merr f => merr f | .mscl f => mscl f | .mred f => mred f | .ld f => ld f | .st f => st f | .pushs f => pushs f
  | .pops f => pops f | .atom f => atom f | .red f => red f | .cas f => cas f | .cmitT f => cmitT f
  | .cmitC f => cmitC f | .cmitD f => cmitD f | .abrtG f => abrtG f | .abrtT f => abrtT f | .rfshT f => rfshT f
  | .rfshD f => rfshD f | .fence f => fence f | .cpy f => cpy f | .gthr f => gthr f | .sctr f => sctr f
  | .cpyc f => cpyc f | .mcst f => mcst f | .csto f => csto f | .cldx f => cldx f | .pfch f => pfch f
  | .bulk f => bulk f | .coll f => coll f | .qinit f => qinit f | .qpush f => qpush f | .qpop f => qpop f
  | .qpeek f => qpeek f | .qrel f => qrel f | .emit f => emit f | .trig f => trig f | .launch f => launch f
  | .lwait f => lwait f | .lwaitCancel f => lwaitCancel f | .msgrd f => msgrd f | .msgwr f => msgwr f
  | .vget f => vget f | .vstn f => vstn f | .vset f => vset f | .vins f => vins f | .vdel f => vdel f
  | .vact f => vact f | .vleaf f => vleaf f | .vleafRel f => vleafRel f | .vmrc f => vmrc f | .halo f => halo f
  | .vsmp f => vsmp f | .rtrc f => rtrc f | .rcont f => rcont f | .rcontKill f => rcontKill f | .rget f => rget f
  | .rlog f => rlog f | .rrpl f => rrpl f | .hinv f => hinv f | .bvhbBuild f => bvhbBuild f
  | .bvhbRefit f => bvhbRefit f | .bar f => bar f | .cbar f => cbar f | .arrv f => arrv f | .wait f => wait f
  | .gbar f => gbar f | .tsbar f => tsbar f | .rng f => rng f | .cntr f => cntr f | .cntc f => cntc f
  | .trap f => trap f | .brk f => brk f | .csrr f => csrr f | .csrw f => csrw f | .iret f => iret f
  | .tlbi f => tlbi f | .halt f => halt f | .pendingResultReturn gid idx => pendingResultReturn gid idx
  | .teamTrap tid => teamTrap tid | .admitTeam core => admitTeam core | .groupRetire gid => groupRetire gid
  | .gridComplete lid => gridComplete lid | .promote ctx => promote ctx | .roundApply lid => roundApply lid
  | .teamCollectiveMatch tid => teamCollectiveMatch tid | .teamPhaseComplete tid => teamPhaseComplete tid
  | .cbarRelease lid cluster => cbarRelease lid cluster | .dIntervalClose lid => dIntervalClose lid
  | .tileOpComplete gid => tileOpComplete gid | .copyComplete op => copyComplete op
  | .bulkChunkComplete op => bulkChunkComplete op | .copySuspend op => copySuspend op | .copyFail op => copyFail op
  | .collStepComplete ctx entry step => collStepComplete ctx entry step
  | .collTimeout ctx entry step => collTimeout ctx entry step | .rampWindowRollover core => rampWindowRollover core
  | .timeSliceExpire ctx => timeSliceExpire ctx | .worldSwitchOut ctx => worldSwitchOut ctx
  | .worldSwitchIn ctx => worldSwitchIn ctx | .migration ctx lcore phys => migration ctx lcore phys
  | .forward core ctx lcore => forward core ctx lcore | .controlInterrupt ctx => controlInterrupt ctx
  | .teamctlResume ctx team => teamctlResume ctx team | .teamctlTerminate ctx team => teamctlTerminate ctx team
  | .cpyctlResume ctx opid => cpyctlResume ctx opid | .cpyctlCancel ctx opid => cpyctlCancel ctx opid
  | .create ctx f => create ctx f | .load ctx addr len => load ctx addr len | .start ctx => start ctx
  | .stop ctx => stop ctx | .destroy ctx => destroy ctx | .checkpoint ctx => checkpoint ctx
  | .quietPointCapture ctx => quietPointCapture ctx | .restore ctx image => restore ctx image
  | .query ctx => query ctx | .intailWrite ctx v => intailWrite ctx v
  | .outackWrite ctx v clrOvr => outackWrite ctx v clrOvr | .packetReceive p => packetReceive p
  | .flitReceive f => flitReceive f | .ident => ident | .power => power | .logs => logs
  | .counters ctx consent => counters ctx consent | .debugStop tid => debugStop tid
  | .debugImageAccess gid acc => debugImageAccess gid acc | .debugSingleStep gid => debugSingleStep gid
  | .debugStepBack gid => debugStepBack gid | .debugResume tid => debugResume tid
  | .debugToken bytes => debugToken bytes | .fuseAdvance => fuseAdvance | .warmReset => warmReset
  | .coldReset images => coldReset images | .thermalStop die => thermalStop die
  | .uncorrectableError t => uncorrectableError t | .scratchpadPoison tid e => scratchpadPoison tid e
  | .counterOverflow ctx core n => counterOverflow ctx core n | .issueSlot => issueSlot
  | .thermalClockLowering die => thermalClockLowering die
end Laws.Encoding

/-- Settles O56: the word of every accepted instruction decodes to it, and its eight bytes are read as that word. -/
theorem decodeOfEncode : Obligations.DecodeOfEncode := by
  intro i w rest hwf hpair he
  obtain ⟨hlt, hd⟩ := Laws.Encoding.statement i hwf hpair w he
  exact decodeBytes_leBytes hlt hd rest

/-- Settles O57: the layout that a word parses to packs to the word again, and the instruction found for a layout has that layout. -/
theorem encodeOfDecode : Obligations.EncodeOfDecode := by
  intro w i hw hd
  obtain ⟨e, hp, hi, hwf, hpair⟩ := decodeWord_ok hd
  refine ⟨hwf, hpair, ?_⟩
  rw [encode, Instr.toEnc_of_ofEnc (fun op f he => opcode_lt_of_parse (he ▸ hp)) hi, Option.map_some, Enc.toNat_of_parse hw hp]

end Sys2Proof
end

section
/-! SUPPORT. The state after reset, and the words that the spec prints. -/

namespace Sys2Proof

/-- A full word with a reserved opcode has no layout (R55). -/
theorem decodeWord_of_opReserved {w : Nat} (hb : bitOf w 62 = false) (ho : opReserved (opcodeOf w) = true) :
    decodeWord w = .error .reservedOpcode := by
  simp [decodeWord, parse, formOf, hb, ho]

/-- Settles O55: each printed word is read field by field, and a reserved opcode has no layout. -/
theorem printedEncodings : Obligations.PrintedEncodings := by
  refine ⟨?_, ?_, ?_, ?_, ?_, ?_, ?_, ?_, ?_, ?_, ?_, ?_, ?_, ?_, ?_, ?_, ?_, ?_, ?_, ?_, ?_, ?_, ?_, ?_, ?_, ?_, ?_, ?_, ?_, ?_,
    ?_, ?_, ?_, fun _ => decodeWord_of_opReserved⟩ <;> rfl

namespace Machine

/-- Settles O58: every field is the one that the state after reset is written with. -/
theorem resetState : Obligations.ResetState :=
  ⟨memWf_nil, rfl, fun _ => rfl, rfl, rfl, rfl, rfl, rfl, rfl, rfl, rfl, rfl⟩

end Machine
end Sys2Proof
end

section
/-! SUPPORT. Moves and lane words (R102 to R107), integer arithmetic (R108, R111, R114), and logic, shifts and bit fields (R109, R110,
R115): each word's body is a change of its group. -/

namespace Sys2Proof.Machine

/-! ### Words whose body checks first -/

/-- No place is refused. -/
theorem find?_none_of_forall {α : Type} {l : List α} {p : α → Bool} (h : ∀ x ∈ l, p x = false) : l.find? p = none :=
  List.find?_eq_none.mpr fun x hx => by simp [h x hx]

/-- A refused place is found, though it may not be the first. -/
theorem find?_some_of_mem {α : Type} {l : List α} {p : α → Bool} {x : α} (hx : x ∈ l) (h : p x = true) : ∃ y, l.find? p = some y :=
  Option.isSome_iff_exists.mp (List.find?_isSome.mpr ⟨x, hx, h⟩)

/-- A register word whose body faults traps in team code. -/
theorem regWord_traps {i : Instr} {s : State} {e : Env} (h : Issues i s e) (hc : e.g.isCtl = false) {body : Env → Chk Group} {f : Flt}
    (hx : exec i s = regWord i body s) (hb : body e = .error f) (ho : f.owed = false) : Traps i s e f.code := by
  obtain ⟨r, hr, hcode, hfpc, hrpc, hslice, -⟩ := issueWord_traps (f := f) h hc
    (body := fun e => match body e with | .ok g => .ok (e.s.putG e.gid g) | .error f => .fault f) (by simp only [hb]) ho
  exact ⟨r, by rw [hx]; exact hr, hcode, hfpc, hrpc, hslice⟩

/-! ### Moves -/

theorem moviValue_eq (f : IWord) : moviValue f.modi f.d.isS f.imm =
    if f.modi = 3 then f.imm.toNat * 2 ^ 32
    else if f.modi = 1 ∧ f.d.isS = true then sext 32 64 f.imm.toNat else f.imm.toNat := by
  generalize f.modi = m
  generalize f.d.isS = b
  revert m
  cases b <;> intro m <;> fin_cases m <;> rfl

/-- WRLN's writes, slice after slice, are one change (R107). -/
theorem wrlnFold_changed (wide : Bool) (d : Opd) (lane val : Nat → Nat) (cs : List Nat) (g : Group) :
    cs.foldl (fun g c => g.wrD wide d (lane c) (val c)) g = g.changed
      { vw := cs.flatMap fun c => vWords d wide [lane c] fun _ => val c,
        sw := cs.flatMap fun c => sWords d wide [lane c] fun _ => val c } := by
  induction cs generalizing g with
  | nil => exact g.changed_nil.symm
  | cons c cs ih =>
    have hone : g.wrD wide d (lane c) (val c) = g.changed
        { vw := vWords d wide [lane c] fun _ => val c, sw := sWords d wide [lane c] fun _ => val c } := by
      have h := wrD_raise_changed g wide d (lane c) (val c, 0)
      have hr : raises [lane c] (fun _ => 0) = fun _ x => x := by
        funext n x
        by_cases hn : lane c / 4 = n <;> simp [raises, hn]
      rwa [Group.raise, if_pos (beq_self_eq_true _), hr] at h
    rw [List.foldl_cons, ih, hone, Group.changed_changed _ _ _ rfl]
    rfl

/-- Settles O1: NOP's change is empty, the lane words find every lane that they name, and the others are maps over the places of D. -/
theorem movesComplete : Obligations.MovesComplete := by
  intro s e
  refine ⟨fun f h => ?nop, fun f h => ?mov, fun f h => ?sel, fun f h => ?prmt, fun f h => ?movi, fun f h => ?movh,
    fun f h hl => ?shfl, fun f h hl => ?rdln, fun f h hl => ?wrln⟩
  case nop => exact regWord_completes h rfl (by rw [Group.changed_nil])
  case mov => exact mapWord_completes h rfl
  case sel => exact mapWord_completes h rfl
  case prmt => exact mapWord_completes h rfl
  case movi =>
    have hm := mapWord_completes h (f := fun _ _ => (moviValue f.modi f.d.isS f.imm, 0)) rfl
    rwa [moviValue_eq] at hm
  case movh => exact mapWord_completes h rfl
  case shfl =>
    refine regWord_completes h rfl ?_
    dsimp only
    rw [find?_none_of_forall, perPlace_changed]
    · show Except.ok (e.g.changed _) = Except.ok (e.g.changed _)
      congr 3
      funext l
      cases shflSrc f.m (e.rd32 l f.b) l <;> rfl
    · intro l hm
      split
      next j hj => rw [hl l hm j hj]; rfl
      next => rfl
  case rdln =>
    refine regWord_completes h rfl ?_
    dsimp only
    rw [find?_none_of_forall, perPlace_changed]
    · rfl
    · exact fun c hc => congrArg not (hl c hc)
  case wrln =>
    refine regWord_completes h rfl ?_
    dsimp only
    rw [find?_none_of_forall, wrlnFold_changed]
    · rfl
    · exact fun c hc => congrArg not (hl c hc)

/-! ### Integer arithmetic -/

/-- IADD and ISUB with `.f`: the flags are set after the result has been written. -/
theorem flagWord_completes {i : Instr} {s : State} {e : Env} (h : Issues i s e) {f : RWord} {g : (Nat → Int) → Int}
    {fl : Nat → Nat → Nat → Flags5} (hx : exec i s = flagWord i f g fl s) :
    Completes i s e ((e.result f.k f.d (f.ty.bits == 64) fun p => intElems f.ty false g [e.rd f.ty p f.a, e.rd f.ty p f.b]).andThen
      { sl := e.sets f.k fun c => fl f.ty.bits (e.rd f.ty (4 * c) f.a) (e.rd f.ty (4 * c) f.b) }) := by
  refine regWord_completes h hx ?_
  simp only [perPlace_changed, setFlags_changed]
  rw [Group.changed_changed _ _ _ rfl]
  rfl

/-- A word whose change has nothing after it. -/
theorem Change.andThen_nil (c : Change) (hn : c.new = []) : c.andThen { sl := fun _ x => x } = c := by
  cases c
  cases hn
  simp [Change.andThen]

theorem iaddi_completes {s : State} {e : Env} {f : IWord} (h : Issues (.iaddi f) s e) : Completes (.iaddi f) s e
    ((e.result f.k f.d (f.iw == 64) fun p => ((e.rdW f.iw p f.a + sext 32 f.iw f.imm.toNat) % 2 ^ f.iw, 0)).andThen
      { sl := if f.modi.val / 4 % 2 = 1 then e.sets f.k fun c => addFlags f.iw (e.rdW f.iw (4 * c) f.a) (sext 32 f.iw f.imm.toNat)
              else fun _ x => x }) := by
  refine regWord_completes h rfl ?_
  by_cases hm : f.modi.val / 4 % 2 = 1
  · simp only [hm, beq_self_eq_true, if_true, perPlace_changed, setFlags_changed]
    rw [Group.changed_changed _ _ _ rfl]
    rfl
  · rw [if_neg (by simpa using hm), if_neg hm, Change.andThen_nil _ rfl, perPlace_changed]
    rfl

/-- Settles O3: each word is a map over the places of D of an exact result narrowed once; `.f` sets the flags after it. -/
theorem integerArithmeticCompletes : Obligations.IntegerArithmeticCompletes := by
  intro s e
  refine ⟨fun f h hf => ?iadd, fun f h hf => ?iaddF, fun f h hf => ?isub, fun f h hf => ?isubF, fun f h => ?imul, fun f h => ?imulh,
    fun f h => ?imad, fun f h => ?imin, fun f h => ?imax, fun f h => ?iabs, fun f h => ?ineg, fun f h => ?lea,
    fun f h => iaddi_completes h, fun f h => ?imuli⟩
  case iadd => exact mapWord_completes h (if_neg (by simp [hf]))
  case iaddF => exact flagWord_completes h (if_pos (by simp [hf]))
  case isub => exact mapWord_completes h (if_neg (by simp [hf]))
  case isubF => exact flagWord_completes h (if_pos (by simp [hf]))
  all_goals exact mapWord_completes h rfl

/-! ### Logic, shifts and bit fields -/

/-- The two names of the width that MODI bit 0 selects (R114). -/
theorem IWord.w_eq_iw (f : IWord) : IWord.w f = f.iw := rfl

/-- Settles O4: each word is a map over the places of D of a function of the operands' bits. -/
theorem logicAndShiftsComplete : Obligations.LogicAndShiftsComplete := by
  intro s e
  refine ⟨fun f h => ?and, fun f h => ?or, fun f h => ?xor, fun f h => ?not, fun f h => ?shl, fun f h => ?shr, fun f h => ?sar,
    fun f h => ?rot, fun f h => ?popc, fun f h => ?clz, fun f h => ?brev, fun f h => ?bfx, fun f h => ?bfi, fun f h => ?andi,
    fun f h => ?ori, fun f h => ?xori, fun f h => ?shli, fun f h => ?shri, fun f h => ?kpop, fun f h => ?kffs⟩
  case andi | ori | xori =>
    have hm := mapWord_completes h rfl
    simpa only [IWord.limm, IWord.w_eq_iw, beq_iff_eq] using hm
  case shri =>
    have hm := mapWord_completes h rfl
    simpa only [shr, IWord.w_eq_iw, beq_iff_eq] using hm
  case kpop =>
    have hm := mapWord_completes h rfl
    simpa only [beq_iff_eq] using hm
  all_goals exact mapWord_completes h rfl

end Sys2Proof.Machine
end

section
/-! SUPPORT. Comparisons and masks (R112, R113, R115, R126, R127), packing, format and status (R116 to R118, R143), floating-point words
(R121 to R142), pair words (R51 to R54), and the register words that trap (R105, R117, R143). -/

namespace Sys2Proof.Machine

/-! ### Comparisons -/

/-- Raising nothing changes nothing (R96). -/
theorem raises_zero (ps : List Nat) : (raises ps fun _ => 0) = fun _ x => x := by
  funext c x
  have hstep : ∀ (l : List Nat) (st : W32), l.foldl (fun st _ => st ||| BitVec.ofNat 32 0) st = st := by
    intro l
    induction l with
    | nil => exact fun _ => rfl
    | cons p l ih => intro st; rw [List.foldl_cons, ih]; simp
  simp only [raises, hstep]

/-- A comparison into a mask raises no flag where its condition raises none. -/
theorem icmpWord_mask_completes {i : Instr} {s : State} {e : Env} (h : Issues i s e) {k cc w : Nat} {d : Opd} {n : Fin 8}
    (hd : d = .k n) {a b : Env → Nat → Nat} (hx : exec i s = icmpWord i k d cc w a b s) :
    Completes i s e { kw := e.maskWrite n (maskWhere (e.execLanes k) fun l => intCond cc w (a e l) (b e l)) } := by
  subst hd
  refine regWord_completes h hx ?_
  dsimp only
  rw [maskForm_changed, raises_zero]

/-- A comparison with no mask D sets the flags of the executing slices. -/
theorem icmpWord_flags_completes {i : Instr} {s : State} {e : Env} (h : Issues i s e) {k cc w : Nat} {d : Opd}
    (hd : ∀ n, d ≠ .k n) {a b : Env → Nat → Nat} (hx : exec i s = icmpWord i k d cc w a b s) :
    Completes i s e { sl := e.sets k fun c => subFlags w (a e (4 * c)) (b e (4 * c)) } := by
  refine regWord_completes h hx ?_
  split
  next n => exact absurd rfl (hd n)
  next => rw [setFlags_changed]

theorem fcmp_mask_completes {s : State} {e : Env} {f : RWord} {n : Fin 8} (hd : f.d = .k n) (h : Issues (.fcmp f) s e) :
    let v := fun (neg : Bool) (o : Opd) l => unpackFp (fpFmt f.ty) (pre (fpFmt f.ty) false neg (e.rd f.ty l o))
    Completes (.fcmp f) s e
      { kw := e.maskWrite n (maskWhere (e.execLanes f.k) fun l => (fpCond f.lo (v f.negA f.a l) (v f.negB f.b l)).1),
        sl := raises (e.execLanes f.k) fun l => if (fpCond f.lo (v f.negA f.a l) (v f.negB f.b l)).2 then fNV else 0 } := by
  refine regWord_completes h rfl ?_
  rw [hd]
  dsimp only
  rw [maskForm_changed]

/-- Flags and NV of one slice together (R126, R127). -/
theorem setFlags_raise_eq (g : Group) (c : Nat) (fl : Flags5) (nv : Bool) :
    (g.setFlags c fl).raise c (if nv then fNV else 0) = g.modSlice c fun x => { x with
      z := fl.z, n := fl.n, c := fl.c, v := fl.v, u := fl.u, status := if nv then x.status ||| BitVec.ofNat 32 fNV else x.status } := by
  rw [Group.setFlags, Group.modSlice_changed, Group.raise_changed, Group.changed_changed _ _ _ rfl, Group.modSlice_changed]
  congr 1
  simp only [Change.andThen, List.append_nil]
  congr 1
  funext n x
  by_cases hn : n = c <;> cases nv <;> simp [hn]

theorem fcmp_flags_completes {s : State} {e : Env} {f : RWord} (hd : ∀ n, f.d ≠ .k n) (h : Issues (.fcmp f) s e) :
    let v := fun (neg : Bool) (o : Opd) c => unpackFp (fpFmt f.ty) (pre (fpFmt f.ty) false neg (e.rd f.ty (4 * c) o))
    Completes (.fcmp f) s e
      { sl := fun c x => if c ∈ e.execSlices f.k then
          let r := fcmpFlags (cmpFp (v f.negA f.a c) (v f.negB f.b c))
          { x with z := r.z, n := r.n, c := r.c, v := r.v, u := r.u,
                   status := if (v f.negA f.a c).isSnan || (v f.negB f.b c).isSnan then x.status ||| BitVec.ofNat 32 fNV else x.status }
        else x } := by
  refine regWord_completes h rfl ?_
  dsimp only
  split
  next n hn => exact absurd hn (hd n)
  next =>
    simp only [setFlags_raise_eq]
    exact congrArg Except.ok (modSlices_changed e.g _ _ (execSlices_nodup e f.k))

/-! ### Mask words -/

theorem kWord_completes {i : Instr} {s : State} {e : Env} (h : Issues i s e) {f : RWord} {g : Nat → Nat → Nat}
    (hx : exec i s = kWord i f g s) : Completes i s e (e.maskTo f.d (g (e.mask f.a) (e.mask f.b))) := by
  refine regWord_completes h hx ?_
  cases hd : f.d with
  | k n => exact congrArg Except.ok (Group.wrK_changed e n _)
  | _ => exact congrArg Except.ok e.g.changed_nil.symm

theorem exec_kset (f : RWord) (s : State) : exec (.kset f) s = regWord (.kset f) (fun e => .ok (match f.d with
    | .k n => e.g.wrK n (laneMask e.sub.mask) (e.exec f.k)
    | _ => e.g)) s := rfl

theorem kset_completes {s : State} {e : Env} {f : RWord} (h : Issues (.kset f) s e) :
    Completes (.kset f) s e (e.maskTo f.d (e.exec f.k)) := by
  refine regWord_completes h (exec_kset f s) ?_
  cases hd : f.d with
  | k n => exact congrArg Except.ok (Group.wrK_changed e n _)
  | _ => exact congrArg Except.ok e.g.changed_nil.symm

/-- KMOV to a mask, with the bits that its source gives. -/
def Env.kmovBits (e : Env) (f : RWord) : Nat :=
  match f.a with
  | .v _ => maskWhere (e.execLanes f.k) fun l => e.rd32 l f.a != 0
  | .s r => (slicesOf e.sub.mask).foldl (fun m c => m + fld (e.g.sr r c) (4 * c) 4 * 2 ^ (4 * c)) 0
  | a => e.mask a

theorem Env.kmovBits_v (e : Env) {f : RWord} {r : Fin 128} (ha : f.a = .v r) :
    e.kmovBits f = maskWhere (e.execLanes f.k) fun l => e.rd32 l f.a != 0 := by simp only [Env.kmovBits, ha]
theorem Env.kmovBits_s (e : Env) {f : RWord} {r : Fin 64} (ha : f.a = .s r) :
    e.kmovBits f = (slicesOf e.sub.mask).foldl (fun m c => m + fld (e.g.sr r c) (4 * c) 4 * 2 ^ (4 * c)) 0 := by
  simp only [Env.kmovBits, ha]
theorem Env.kmovBits_mask (e : Env) {f : RWord} (ha : f.a.isMask = true) : e.kmovBits f = e.mask f.a := by
  unfold Env.kmovBits
  split
  next hv => rw [hv] at ha; cases ha
  next hv => rw [hv] at ha; cases ha
  next => rfl

theorem exec_kmov_mask {f : RWord} {n : Fin 8} (hd : f.d = .k n) (s : State) :
    exec (.kmov f) s = regWord (.kmov f) (fun e => .ok (e.g.wrK n (laneMask e.sub.mask) (e.kmovBits f))) s := by
  show execKmov f s = _
  unfold execKmov
  rw [hd]
  rfl

theorem kmov_mask_completes {s : State} {e : Env} {f : RWord} {n : Fin 8} (hd : f.d = .k n) (h : Issues (.kmov f) s e) :
    Completes (.kmov f) s e (e.maskTo f.d (e.kmovBits f)) := by
  refine regWord_completes h (exec_kmov_mask hd s) ?_
  rw [hd]
  exact congrArg Except.ok (Group.wrK_changed e n _)

theorem exec_kmov_other {f : RWord} (hd : ∀ n, f.d ≠ .k n) (s : State) :
    exec (.kmov f) s = mapWord (.kmov f) f.k f.d false (fun e _ => (e.mask f.a, 0)) s := by
  show execKmov f s = _
  unfold execKmov
  split
  next n hn => exact absurd hn (hd n)
  next => rfl

theorem exec_icmp (f : RWord) (s : State) : exec (.icmp f) s =
    icmpWord (.icmp f) f.k f.d f.lo f.ty.bits (fun e p => e.rd f.ty p f.a) (fun e p => e.rd f.ty p f.b) s := rfl
theorem exec_icmpi (f : IWord) (s : State) : exec (.icmpi f) s =
    icmpWord (.icmpi f) f.k f.d (f.imm.toNat / 2 ^ 28) f.iw (fun e p => e.rdW f.iw p f.a)
      (fun _ _ => sext 28 f.iw (f.imm.toNat % 2 ^ 28)) s := rfl

/-- Settles O5: comparisons write a mask or the flags, and the mask words write the sub-gang's bits of theirs. -/
theorem comparisonsAndMasksComplete : Obligations.ComparisonsAndMasksComplete := by
  refine ⟨fun s e => ⟨fun f n hd h => ?icmpMask, fun f hd h => ?icmpFlags, fun f n hd h => ?icmpiMask, fun f hd h => ?icmpiFlags,
    fun f n hd h => fcmp_mask_completes hd h, fun f hd h => fcmp_flags_completes hd h⟩,
    fun s e => ⟨fun f h => kWord_completes h rfl, fun f h => kWord_completes h rfl, fun f h => kWord_completes h rfl,
      fun f h => ?knot, fun f h => kset_completes h, fun f n r hd ha h => ?kmovV, fun f n r hd ha h => ?kmovS,
      fun f n hd ha h => ?kmovK, fun f hd h => mapWord_completes h (exec_kmov_other hd s)⟩⟩
  case icmpMask => exact (icmpWord_mask_completes h hd (exec_icmp f s) :)
  case icmpFlags => exact (icmpWord_flags_completes h hd (exec_icmp f s) :)
  case icmpiMask => exact (icmpWord_mask_completes h hd (exec_icmpi f s) :)
  case icmpiFlags => exact (icmpWord_flags_completes h hd (exec_icmpi f s) :)
  case knot =>
    have hk := kWord_completes h (g := fun a _ => compl 32 a) rfl
    simpa only [compl, low] using hk
  case kmovV => exact e.kmovBits_v ha ▸ kmov_mask_completes hd h
  case kmovS => exact e.kmovBits_s ha ▸ kmov_mask_completes hd h
  case kmovK => exact e.kmovBits_mask ha ▸ kmov_mask_completes hd h

end Sys2Proof.Machine
end

section
/-! SUPPORT. Packing, format and status (R116 to R118, R143), floating-point words (R121 to R142), pair words (R51 to R54), and the
register words that trap (R105, R117, R143). -/

namespace Sys2Proof.Machine

/-! ### Format and status -/

/-- SFMT writes FMR slice after slice, and each write mends the slice's copy (R100, R117). -/
theorem sfmtFold_changed (v : Nat → Nat) (cs : List Nat) (hcs : cs.Nodup) (g : Group) :
    cs.foldl (fun g c => (g.modSlice c fun x => { x with fmr := BitVec.ofNat 16 (v c) }).mendX .fmr c) g = g.changed
      { sl := fun c x => if c ∈ cs then { x with fmr := BitVec.ofNat 16 (v c) } else x, xw := cs.map (32 * Special.fmr.code + ·) } := by
  induction cs generalizing g with
  | nil => simpa using g.changed_nil.symm
  | cons c cs ih =>
    obtain ⟨hc, hcs⟩ := List.nodup_cons.mp hcs
    rw [List.foldl_cons, ih hcs, Group.modSlice_changed, Group.mendX_changed, Group.changed_changed _ _ _ rfl,
      Group.changed_changed _ _ _ rfl]
    congr 1
    simp only [Change.andThen, List.append_nil, List.nil_append, List.map_cons, List.mem_cons]
    congr 1
    funext n x
    by_cases hn : n = c
    · subst hn; simp [hc]
    · simp [hn]

theorem sfmt_completes {s : State} {e : Env} {f : IWord} (h : Issues (.sfmt f) s e) :
    let v := fun c => if f.modi = 1 then e.rd64 (4 * c) f.a % 2 ^ 16 else f.imm.toNat
    (∀ c ∈ e.execSlices f.k, fmrValid (v c) = true) → Completes (.sfmt f) s e
      { sl := fun c x => if c ∈ e.execSlices f.k then { x with fmr := BitVec.ofNat 16 (v c) } else x,
        xw := (e.execSlices f.k).map (32 * Special.fmr.code + ·) } := by
  intro v hv
  refine regWord_completes h rfl ?_
  simp only [beq_iff_eq, low]
  rw [find?_none_of_forall, sfmtFold_changed v _ (execSlices_nodup e f.k)]
  exact fun c hc => congrArg not (hv c hc)

theorem exec_clrst (f : RWord) (s : State) : exec (.clrst f) s = regWord (.clrst f) (fun e =>
    .ok ((e.execSlices f.k).foldl (fun g c => g.modSlice c fun x =>
      { x with status := x.status &&& ~~~ (BitVec.ofNat 32 (e.rd64 (4 * c) f.a)) }) (e.perPlace f.k f.d true fun _ => (e.status, 0)))) s := rfl

theorem clrst_completes {s : State} {e : Env} {f : RWord} (h : Issues (.clrst f) s e) : Completes (.clrst f) s e
    ((e.result f.k f.d true fun _ => (e.status, 0)).andThen
      { sl := fun c x => if c ∈ e.execSlices f.k then
          { x with status := x.status &&& ~~~ (BitVec.ofNat 32 (e.rd64 (4 * c) f.a)) } else x }) := by
  refine regWord_completes h (exec_clrst f s) ?_
  rw [perPlace_changed, modSlices_changed _ _ (fun c x => { x with status := x.status &&& ~~~ (BitVec.ofNat 32 (e.rd64 (4 * c) f.a)) })
    (execSlices_nodup e f.k), Group.changed_changed _ _ _ rfl]

/-! ### Blocks (R143) -/

/-- Values written at places, with no flags. -/
theorem wrDFold_changed (wide : Bool) (d : Opd) (val : Nat → Nat) (ps : List Nat) (g : Group) :
    ps.foldl (fun g p => g.wrD wide d p (val p)) g = g.changed { vw := vWords d wide ps val, sw := sWords d wide ps val } := by
  have h := perPlace_fold wide d (fun p => (val p, 0)) ps g
  simpa only [Group.raise, beq_self_eq_true, if_true, raises_zero] using h

/-- The 16 words of a half, counted from its first lane. -/
theorem wrHalf_changed (d : Opd) (h : Nat) (val : Nat → Nat) (g : Group) :
    (List.range 16).foldl (fun g w => g.wrD false d (16 * h + w) (val w)) g = g.changed
      { vw := vWords d false ((List.range 16).map (16 * h + ·)) fun p => val (p - 16 * h),
        sw := sWords d false ((List.range 16).map (16 * h + ·)) fun p => val (p - 16 * h) } := by
  rw [← wrDFold_changed, List.foldl_map]
  simp only [Nat.add_sub_cancel_left]

/-- Changes of registers and STATUS made one after another are one change. -/
theorem blockFold_changed (vw : Nat → List (Nat × W32)) (sw : Nat → List (Nat × W64)) (place : Nat → Nat) (fl : Nat → Nat)
    (hs : List Nat) (g : Group) :
    hs.foldl (fun g h => g.changed { vw := vw h, sw := sw h, sl := raises [place h] fun _ => fl (place h) }) g = g.changed
      { vw := hs.flatMap vw, sw := hs.flatMap sw, sl := raises (hs.map place) fl } := by
  induction hs generalizing g with
  | nil =>
    have hr : raises [] fl = fun _ x => x := by funext n x; simp [raises]
    simp only [List.foldl_nil, List.flatMap_nil, List.map_nil, hr]
    exact g.changed_nil.symm
  | cons h hs ih =>
    rw [List.foldl_cons, ih, Group.changed_changed _ _ _ rfl]
    congr 1
    simp only [Change.andThen, List.flatMap_cons, List.map_cons, List.append_nil]
    congr 1
    funext n x
    exact (raises_cons (place h) (hs.map place) fl n x).symm

theorem bpack_completes {s : State} {e : Env} {f : RWord} {hs : List Nat} (h : Issues (.bpack f) s e)
    (hh : halves (e.exec f.k) = some hs) :
    let blk := fun h => sbEncode (sbM f.m) ((List.range 16).map fun i => unpackFp f32 (e.rd32 (16 * h + i) f.a))
    Completes (.bpack f) s e
      { vw := hs.flatMap fun h => vWords f.d false ((List.range 16).map (16 * h + ·)) fun p => fld (blk h).1 (32 * (p - 16 * h)) 32,
        sw := hs.flatMap fun h => sWords f.d false ((List.range 16).map (16 * h + ·)) fun p => fld (blk h).1 (32 * (p - 16 * h)) 32,
        sl := raises (hs.map (16 * ·)) fun p => (blk (p / 16)).2 } := by
  intro blk
  refine regWord_completes h rfl ?_
  rw [hh]
  refine congrArg Except.ok (Eq.trans ?_ (blockFold_changed _ _ (16 * ·) (fun p => (blk (p / 16)).2) hs e.g))
  congr 1
  funext g h
  have hq : 4 * h = 16 * h / 4 := by omega
  have hb : 16 * h / 16 = h := by omega
  dsimp only
  rw [wrHalf_changed f.d h fun w => fld (blk h).1 (32 * w) 32, hq, hb,
    show ∀ g : Group, g.raise (16 * h / 4) (blk h).2 = g.changed { sl := raises [16 * h] fun _ => (blk h).2 } from
      fun g => raise_fold [16 * h] (fun _ => (blk h).2) g, Group.changed_changed _ _ _ rfl]
  simp only [Change.andThen, List.append_nil]

theorem bunpk_completes {s : State} {e : Env} {f : RWord} {hs : List Nat} (h : Issues (.bunpk f) s e)
    (hh : halves (e.exec f.k) = some hs) :
    let blk := fun h => (List.range 5).foldl (fun b w => b + e.rd32 (16 * h + w) f.a * 2 ^ (32 * w)) 0
    let val := fun h p => (packFp f32 .rne false (sbElem (sbM f.m) (blk h) (p - 16 * h))).1
    Completes (.bunpk f) s e
      { vw := hs.flatMap fun h => vWords f.d false ((List.range 16).map (16 * h + ·)) (val h),
        sw := hs.flatMap fun h => sWords f.d false ((List.range 16).map (16 * h + ·)) (val h) } := by
  intro blk val
  refine regWord_completes h rfl ?_
  rw [hh]
  have hfold := blockFold_changed (fun h => vWords f.d false ((List.range 16).map (16 * h + ·)) (val h))
    (fun h => sWords f.d false ((List.range 16).map (16 * h + ·)) (val h)) (16 * ·) (fun _ => 0) hs e.g
  simp only [raises_zero] at hfold
  refine congrArg Except.ok (Eq.trans ?_ hfold)
  congr 1
  funext g h
  exact wrHalf_changed f.d h (fun i => (packFp f32 .rne false (sbElem (sbM f.m) (blk h) i)).1) g

/-- Settles O6: SFMT and CLRST act slice by slice, BPACK and BUNPK half by half, PACK and UNPK place by place. -/
theorem packingAndStatusComplete : Obligations.PackingAndStatusComplete := by
  intro s e
  exact ⟨fun f h => mapWord_completes h rfl, fun f h => mapWord_completes h rfl, fun f h => sfmt_completes h,
    fun f h => clrst_completes h, fun f hs h hh => bpack_completes h hh, fun f hs h hh => bunpk_completes h hh⟩

/-! ### Floating-point words -/

/-- Settles O7: each word is a map over the places of D of the chapter's function of its operands. -/
theorem floatingPointCompletes : Obligations.FloatingPointCompletes := by
  intro s e
  refine ⟨fun f h => ?fadd, fun f h => ?fsub, fun f h => ?fmul, fun f h => ?ffma, fun f h => ?fmin, fun f h => ?fmax, fun f h => ?fabs,
    fun f h => ?fneg, fun f h => ?fcps, fun f h => ?fclass, fun f h => ?frnd, fun f h => ?fscl, fun f h => ?fgexp, fun f h => ?f2i,
    fun f h => ?i2f, fun f h => ?f2f, fun f h => ?fdp2, fun f h => ?faddi, fun f h => ?fmuli, fun f h => ?ffmai⟩
  case f2f =>
    have hm := mapWord_completes h rfl
    simpa only [beq_iff_eq, ge_iff_le] using hm
  all_goals exact (mapWord_completes h rfl :)

/-- Settles O8: each word leaves one pending result with the chapter's function of its operands at every place of D. -/
theorem pendingFloatingPointCompletes : Obligations.PendingFloatingPointCompletes := by
  intro s e
  refine ⟨fun f h => ?fdiv, fun f h => ?fsqrt, fun f h => ?frcp, fun f h => ?frsq, fun f h => ?fex2, fun f h => ?flg2,
    fun f h => ?fsin, fun f h => ?fcos⟩
  all_goals exact (vWord_completes h rfl :)

/-! ### Pair words -/

/-- The change of one slot, with its operands read in `e` (R52, R54). -/
def Env.slotChange (e : Env) (p : PSlot) : Change :=
  if p.op = .nop then {} else
    { vw := (e.execLanes p.k).map fun l => (32 * p.d.val + l, BitVec.ofNat 32 (pairOp p.op (e.g.vr p.d l) (pairSrc e p l)).1),
      sl := raises (e.execLanes p.k) fun l => (pairOp p.op (e.g.vr p.d l) (pairSrc e p l)).2 }

theorem Env.slotChange_new (e : Env) (p : PSlot) : (e.slotChange p).new = [] := by
  unfold Env.slotChange
  split <;> rfl

theorem pairSlot_changed (e : Env) (g : Group) (p : PSlot) : pairSlot e g p = g.changed (e.slotChange p) := by
  unfold pairSlot Env.slotChange
  by_cases hp : p.op = .nop
  · simp only [hp, beq_self_eq_true, if_true]
    exact g.changed_nil.symm
  · simp only [hp, if_false, beq_iff_eq]
    have hf := perPlace_fold false (.v ⟨p.d.val, by omega⟩) (fun l => pairOp p.op (e.g.vr p.d l) (pairSrc e p l)) (e.execLanes p.k) g
    simpa only [Group.wrD, vWords, sWords, Bool.false_eq_true, if_false, ← List.map_eq_flatMap] using hf

theorem exec_pairWord (f : PWord) (s : State) :
    exec (.pairWord f) s = regWord (.pairWord f) (fun e => .ok (pairSlot e (pairSlot e e.g f.s0) f.s1)) s := rfl

/-- Settles O9: slot 1 reads in the environment before slot 0 wrote, and its change follows slot 0's. -/
theorem pairWordsComplete : Obligations.PairWordsComplete := by
  intro s e f h
  have hc : Completes (.pairWord f) s e ((e.slotChange f.s0).andThen (e.slotChange f.s1)) := by
    refine regWord_completes h (exec_pairWord f s) ?_
    rw [pairSlot_changed, pairSlot_changed, Group.changed_changed _ _ _ (e.slotChange_new _)]
  exact hc

/-! ### Register words that trap -/

/-- A register word that finds a refused place traps, whichever place is found first. -/
theorem find_traps {i : Instr} {s : State} {e : Env} (h : Issues i s e) (hc : e.g.isCtl = false) {l : List Nat} {p : Nat → Bool}
    {x : Nat} (hx : x ∈ l) (hp : p x = true) {bad : Nat → Flt} {good : Chk Group} {body : Env → Chk Group}
    (hb : body e = match l.find? p with | some y => .error (bad y) | none => good) (he : exec i s = regWord i body s) {code : Nat}
    (hcode : ∀ y, (bad y).code = code ∧ (bad y).owed = false) : Traps i s e code := by
  obtain ⟨y, hy⟩ := find?_some_of_mem hx hp
  rw [hy] at hb
  obtain ⟨hcy, hoy⟩ := hcode y
  exact hcy ▸ regWord_traps h hc he hb hoy

/-- Settles O2: the lane, FMR value or half that is refused is found before the word writes. -/
theorem registerWordsTrap : Obligations.RegisterWordsTrap := by
  refine ⟨fun s e hc => ⟨fun f l j h hl hj hn => ?shfl, fun f c h hl hn => ?rdln, fun f c h hl hn => ?wrln⟩,
    fun s e hc => ⟨fun f c h hl hn => ?sfmt, fun f h hn => ?bpack, fun f h hn => ?bunpk⟩⟩
  case shfl =>
    refine find_traps h hc hl (p := fun l => match shflSrc f.m (e.rd32 l f.b) l with | some j => !e.hasLane j | none => false) ?_ rfl rfl
      fun _ => ⟨rfl, rfl⟩
    simp [hj, hn]
  case rdln | wrln => exact find_traps h hc hl (p := fun c => !e.hasLane (low 5 (e.rd64 (4 * c) f.b))) (congrArg not hn) rfl rfl fun _ => ⟨rfl, rfl⟩
  case sfmt =>
    refine find_traps h hc hl (p := fun c => !fmrValid (if f.modi == 1 then low 16 (e.rd64 (4 * c) f.a) else f.imm.toNat)) ?_ rfl rfl
      fun _ => ⟨rfl, rfl⟩
    simpa only [beq_iff_eq, low, Bool.not_eq_true'] using hn
  case bpack | bunpk => exact regWord_traps h hc (f := flt 0x03) rfl (by dsimp only; rw [hn]) rfl

end Sys2Proof.Machine
end

section
/-! SUPPORT. Branches, calls and parting (R146 to R154): masks of slices, what a decision makes of a group, and where control words go. -/

namespace Sys2Proof.Machine

/-! ### Bits of a mask -/

theorem bitOf_eq_testBit (w i : Nat) : bitOf w i = w.testBit i := by
  rw [Nat.testBit_eq_decide_div_mod_eq]
  exact Bool.beq_eq_decide_eq _ _

theorem mem_slicesOf {m i : Nat} : i ∈ slicesOf m ↔ i < 8 ∧ bitOf m i = true := by simp [slicesOf]

/-- The mask of the chosen numbers below a bound lies below 2 to that bound. -/
theorem maskOf_filter_range_lt (p : Nat → Bool) (n : Nat) : maskOf ((List.range n).filter p) < 2 ^ n := by
  induction n with
  | zero => exact Nat.one_pos
  | succ n ih =>
    have hstep : maskOf ((List.range (n + 1)).filter p) ≤ maskOf ((List.range n).filter p) + 2 ^ n := by
      rw [List.range_succ, List.filter_append]
      cases hp : p n <;> simp [hp, maskOf]
    rw [Nat.pow_succ]
    omega

theorem bitOf_maskOf_filter_range (p : Nat → Bool) (n i : Nat) :
    bitOf (maskOf ((List.range n).filter p)) i = (decide (i < n) && p i) := by
  induction n with
  | zero => simp [maskOf, bitOf]
  | succ n ih =>
    have hlt := maskOf_filter_range_lt p n
    rw [bitOf_eq_testBit] at ih ⊢
    rw [List.range_succ, List.filter_append]
    cases hp : p n
    · rw [List.filter_singleton, hp]
      rw [cond_false, List.append_nil, ih]
      by_cases hi : i = n
      · subst hi; simp [hp]
      · congr 1
        exact decide_eq_decide.mpr (by omega)
    · have hm : maskOf ((List.range n).filter p ++ [n].filter p) = 2 ^ n + maskOf ((List.range n).filter p) := by
        simp [maskOf, hp, Nat.add_comm]
      rw [hm]
      rcases Nat.lt_trichotomy i n with hi | hi | hi
      · rw [Nat.testBit_two_pow_add_gt hi, ih]
        simp [hi, Nat.lt_succ_of_lt hi]
      · subst hi
        rw [Nat.testBit_two_pow_add_eq, Nat.testBit_lt_two_pow hlt]
        simp [hp]
      · rw [Nat.testBit_lt_two_pow]
        · simp [Nat.not_lt.mpr hi]
        · calc 2 ^ n + maskOf ((List.range n).filter p) < 2 ^ n + 2 ^ n := by omega
            _ = 2 ^ (n + 1) := by rw [Nat.pow_succ]; omega
            _ ≤ 2 ^ i := Nat.pow_le_pow_right (by decide) hi

/-- The mask of a set of slices holds them and no other bit. -/
theorem bitOf_maskOf_slicesOf (m i : Nat) : bitOf (maskOf (slicesOf m)) i = true ↔ i ∈ slicesOf m := by
  rw [slicesOf, bitOf_maskOf_filter_range, Bool.and_eq_true, decide_eq_true_eq, ← slicesOf, mem_slicesOf]

theorem bitOf_lowest {m i : Nat} (hi : i < 32) (hb : bitOf m i = true) : bitOf m (lowest m) = true := by
  obtain ⟨j, hj⟩ := Option.isSome_iff_exists.mp (List.find?_isSome.mpr ⟨i, List.mem_range.mpr hi, hb⟩)
  rw [lowest, hj]
  exact List.find?_some hj

/-- The slice that a decision takes as its first is live. -/
theorem lowest_live_mem {e : Env} (h : e.live ≠ []) : lowest (maskOf e.live) ∈ e.live := by
  obtain ⟨i, hi⟩ := List.exists_mem_of_ne_nil _ h
  have hb := (bitOf_maskOf_slicesOf _ i).mpr hi
  exact (bitOf_maskOf_slicesOf _ _).mp (bitOf_lowest (by have := (mem_slicesOf.mp hi).1; omega) hb)

/-! ### A group that goes to a word -/

theorem setPcs_const (g : Group) (l : List Nat) (pc : W64) : (g.setPcs l fun _ => pc) = g.modSlices l fun x => { x with pc := pc } := rfl

/-- A group changed in its scalar registers and slices that goes to `pc` is what a control word that agrees leaves. -/
theorem went_of_changed (e : Env) (sw : List (Nat × W64)) (sl : Nat → Slice → Slice) (pc : W64) :
    e.Went { sw := sw, sl := sl } pc (((e.g.changed { sw := sw, sl := sl }).setPcs (slicesOf e.sub.mask) fun _ => pc).modSub
      e.sub.mask fun x => { x with park := .none }) := by
  rw [setPcs_const, modSlices_slices]
  refine ⟨rfl, rfl, by simp [Group.modSub, Group.changed], rfl, fun n => ?_, rfl, ?_⟩
  · simp only [Group.modSub]
    rw [slices_foldl_modify _ _ _ _ (slicesOf_nodup _)]
    simp only [Group.changed, List.getElem?_mapIdx, Option.map_map]
    congr 1
    funext x
    simp only [Function.comp]
    split <;> rfl
  · simp [Group.modSub, Group.changed, written]

/-- A control word whose body goes on with such a group goes there. -/
theorem issueWord_goes {i : Instr} {s : State} {e : Env} (h : Issues i s e) {body : Env → Res} {sw : List (Nat × W64)}
    {sl : Nat → Slice → Slice} {pc : W64} (hx : exec i s = issueWord i body s)
    (hb : body e = .goto (e.s.putG e.gid (((e.g.changed { sw := sw, sl := sl }).setPcs (slicesOf e.sub.mask) fun _ => pc).modSub
      e.sub.mask fun x => { x with park := .none }))) : Goes i s e { sw := sw, sl := sl } pc :=
  ⟨_, by rw [hx, issueWord_goto h hb], went_of_changed e sw sl pc⟩

/-! ### Decisions that agree (R146) -/

/-- With PT = 0 the live slices agree: the sub-gang goes where they go. -/
theorem Env.decide_agree (e : Env) (hl : e.live ≠ []) (g : Group) (way : Nat → Way) (keep : Bool) {w : Way}
    (hw : ∀ i ∈ e.live, way i = w) : e.decide g false way keep =
      .goto (e.s.putG e.gid ((g.setPcs (slicesOf e.sub.mask) fun _ => w.2).modSub e.sub.mask fun x => { x with park := .none })) := by
  have hf : way (lowest (maskOf e.live)) = w := hw _ (lowest_live_mem hl)
  have ha : (e.live.all fun i => way i == w) = true := List.all_eq_true.mpr fun i hi => beq_iff_eq.mpr (hw i hi)
  simp only [Env.decide, hf, ha, Bool.false_eq_true, if_false, if_true]

/-- A branch on which the live slices agree. -/
theorem Env.branch_agree (e : Env) (hl : e.live ≠ []) (g : Group) (f : BWord) (hpt : f.pt = false) (taken : Nat → Bool) (keep : Bool)
    {b : Bool} {t : W64} (ht : b = true → e.target f.disp = some t) (hb : ∀ i ∈ e.live, taken i = b) : e.branch g f taken keep =
      .goto (e.s.putG e.gid ((g.setPcs (slicesOf e.sub.mask) fun _ => if b then t else e.pc + 8).modSub e.sub.mask
        fun x => { x with park := .none })) := by
  unfold Env.branch
  cases htgt : e.target f.disp with
  | none =>
    have hf : b = false := by
      cases b with
      | false => rfl
      | true => rw [ht rfl] at htgt; cases htgt
    have hany : e.live.any taken = false := List.any_eq_false.mpr fun i hi => by simp [hb i hi, hf]
    simp only [hany, Bool.false_eq_true, if_false, hpt, hf]
    exact e.decide_agree hl g _ keep (w := (false, e.pc + 8)) fun _ _ => rfl
  | some t' =>
    simp only [hpt]
    refine (e.decide_agree hl g _ keep (w := if b then (true, t') else (false, e.pc + 8)) fun i hi => by rw [hb i hi]).trans ?_
    cases b with
    | false => rfl
    | true => rw [ht rfl] at htgt; cases htgt; rfl

/-- BRA, BKZ and BKNZ change no register before the decision. -/
theorem branch_goes {i : Instr} {s : State} {e : Env} (h : Issues i s e) (hl : e.live ≠ []) {f : BWord} (hpt : f.pt = false)
    {taken : Env → Nat → Bool} (hx : exec i s = issueWord i (fun e => e.branch e.g f (taken e) false) s) {b : Bool} {t : W64}
    (ht : b = true → e.target f.disp = some t) (hb : ∀ i ∈ e.live, taken e i = b) : Goes i s e {} (if b then t else e.pc + 8) := by
  refine issueWord_goes h hx (sw := []) (sl := fun _ x => x) ?_
  have hg : e.g.changed { sw := [], sl := fun _ x => x } = e.g := e.g.changed_nil
  rw [hg]
  exact e.branch_agree hl e.g f hpt _ false ht hb

/-! ### LOOP's counter (R152) -/

theorem sget_written_of_notMem {α : Type} [DecidableEq α] (d : α) (ws : List (Nat × α)) (m : Sparse α) (k : Nat)
    (h : ∀ w ∈ ws, w.1 ≠ k) : sget d (written d m ws) k = sget d m k := by
  induction ws generalizing m with
  | nil => rfl
  | cons w ws ih =>
    rw [List.forall_mem_cons] at h
    have hw := ih (sset d m w.1 w.2) h.2
    rw [sget_sset_ne _ _ h.1.symm] at hw
    exact hw

/-- A store reads back the entry that was put in under a key of its own. -/
theorem sget_written_map {α : Type} [DecidableEq α] (d : α) (l : List Nat) (hl : l.Nodup) (key : Nat → Nat)
    (hkey : ∀ i j, key i = key j → i = j) (x : Nat → α) (m : Sparse α) {i : Nat} (hi : i ∈ l) :
    sget d (written d m (l.map fun i => (key i, x i))) (key i) = x i := by
  induction l generalizing m with
  | nil => cases hi
  | cons j l ih =>
    obtain ⟨hj, hl⟩ := List.nodup_cons.mp hl
    show sget d (written d (sset d m (key j) (x j)) (l.map fun i => (key i, x i))) (key i) = x i
    rcases List.mem_cons.mp hi with rfl | hi
    · rw [sget_written_of_notMem, sget_sset_same]
      intro w hw
      obtain ⟨k, hk, rfl⟩ := List.mem_map.mp hw
      exact fun h => hj (hkey _ _ h ▸ hk)
    · exact ih hl _ hi

/-- The group after LOOP's decrement. -/
def Env.countedGroup (e : Env) (st : Nat) : Group :=
  e.live.foldl (fun g i => g.wrS st i (low 64 (e.g.sr st i + (2 ^ 64 - 1)))) e.g

/-- Values written to one scalar register, slice after slice. -/
theorem wrSFold_changed (st : Nat) (v : Nat → Nat) (l : List Nat) (g : Group) :
    l.foldl (fun g i => g.wrS st i (low 64 (v i))) g = g.changed
      { sw := l.map fun i => (8 * st + i, BitVec.ofNat 64 (v i)), sl := fun _ x => x } := by
  induction l generalizing g with
  | nil => exact g.changed_nil.symm
  | cons i l ih =>
    have hlow : BitVec.ofNat 64 (low 64 (v i)) = BitVec.ofNat 64 (v i) :=
      BitVec.eq_of_toNat_eq (by simp only [low, BitVec.toNat_ofNat, Nat.mod_mod])
    rw [List.foldl_cons, ih, Group.wrS_changed, Group.changed_changed _ _ _ rfl, hlow]
    rfl

theorem Env.countedGroup_changed (e : Env) (st : Nat) : e.countedGroup st = e.g.changed { sw := e.counted st, sl := fun _ x => x } :=
  wrSFold_changed st (fun i => e.g.sr st i + (2 ^ 64 - 1)) e.live e.g

/-- LOOP goes on in a slice whose counter was not 1. -/
theorem Env.countedGroup_sr (e : Env) (st : Nat) {i : Nat} (hi : i ∈ e.live) :
    ((e.countedGroup st).sr st i != 0) = (e.g.sr st i != 1) := by
  have hlt : e.g.sr st i < 2 ^ 64 := BitVec.isLt _
  have hs : (e.countedGroup st).sr st i = (e.g.sr st i + (2 ^ 64 - 1)) % 2 ^ 64 := by
    rw [Env.countedGroup_changed]
    show (sget 0 (written 0 e.g.sreg (e.counted st)) (8 * st + i)).toNat = _
    rw [Env.counted, sget_written_map 0 e.live (slicesOf_nodup _) (8 * st + ·) (fun _ _ h => Nat.add_left_cancel h) _ _ hi,
      BitVec.toNat_ofNat]
  rw [hs, Bool.eq_iff_iff, bne_iff_ne, bne_iff_ne]
  omega

theorem exec_loop (f : BWord) (s : State) : exec (.loop f) s = issueWord (.loop f)
    (fun e => e.branch (e.countedGroup f.st) f (fun i => (e.countedGroup f.st).sr f.st i != 0) true) s := rfl

theorem loop_goes {s : State} {e : Env} {f : BWord} (h : Issues (.loop f) s e) (hl : e.live ≠ []) (hpt : f.pt = false) {b : Bool}
    {t : W64} (ht : b = true → e.target f.disp = some t) (hb : ∀ i ∈ e.live, (e.g.sr f.st i != 1) = b) :
    Goes (.loop f) s e { sw := e.counted f.st } (if b then t else e.pc + 8) := by
  refine issueWord_goes h (exec_loop f s) (sw := e.counted f.st) (sl := fun _ x => x) ?_
  rw [← Env.countedGroup_changed]
  exact e.branch_agree hl _ f hpt _ true ht fun i hi => (e.countedGroup_sr f.st hi).trans (hb i hi)

/-! ### Targets read from registers (R153, R154) -/

theorem Env.targetsOk_ok (e : Env) {o : Opd} (h : ∀ i ∈ e.live, e.rd64 (4 * i) o % 8 = 0 ∧ e.rd64 (4 * i) o < 2 ^ 56) :
    e.targetsOk o = .ok () := by
  unfold Env.targetsOk
  dsimp only
  rw [find?_none_of_forall fun i hi => by simp [(h i hi).1], find?_none_of_forall fun i hi => by simpa using (h i hi).2]
  rfl

theorem jmpi_goes {s : State} {e : Env} {f : RWord} (h : Issues (.jmpi f) s e) (hl : e.live ≠ []) (hm : f.m.val ≠ 1) {t : W64}
    (h8 : t.toNat % 8 = 0) (h56 : t.toNat < 2 ^ 56) (ht : ∀ i ∈ e.live, e.rd64 (4 * i) f.a = t.toNat) : Goes (.jmpi f) s e {} t := by
  refine issueWord_goes h rfl (sw := []) (sl := fun _ x => x) ?_
  have hg : e.g.changed { sw := [], sl := fun _ x => x } = e.g := e.g.changed_nil
  have hmb : (f.m.val == 1) = false := beq_false_of_ne hm
  rw [e.targetsOk_ok fun i hi => by rw [ht i hi]; exact ⟨h8, h56⟩, hg]
  simp only [hmb]
  refine e.decide_agree hl e.g _ false (w := (true, t)) fun i hi => ?_
  rw [ht i hi, BitVec.ofNat_toNat, BitVec.setWidth_eq]

/-- Settles O10: the live slices agree, so the decision has one way and the sub-gang takes it. -/
theorem branchesComplete : Obligations.BranchesComplete := by
  intro s e b t hl
  exact ⟨fun f h hpt ht hb => branch_goes h hl hpt rfl ht hb, fun f h hpt ht hb => branch_goes h hl hpt rfl ht hb,
    fun f h hpt ht hb => branch_goes h hl hpt rfl ht hb, fun f h hpt ht hb => loop_goes h hl hpt ht hb,
    fun f h hm h8 h56 ht => jmpi_goes h hl hm h8 h56 ht⟩

/-! ### Calls (R154) -/

theorem any_eq_false_of_forall {α : Type} {l : List α} {p : α → Bool} (h : ∀ x ∈ l, p x = false) : l.any p = false :=
  List.any_eq_false.mpr fun x hx => by simp [h x hx]

/-- A change of the sub-gang's slices, in one sentence. -/
theorem modSlices_eq_changed (g : Group) (m : Nat) (f : Slice → Slice) :
    g.modSlices (slicesOf m) f = g.changed { sw := [], sl := fun n x => if n ∈ slicesOf m then f x else x } :=
  modSlices_changed g _ (fun _ => f) (slicesOf_nodup m)

/-- What a call does to a slice: the next word's address goes on its call stack. -/
def Env.pushCall (e : Env) (n : Nat) (x : Slice) : Slice :=
  if n ∈ slicesOf e.sub.mask then { x with call := (e.pc + 8) :: x.call } else x

theorem Env.callTo_ok (e : Env) (t : W64) (h : ∀ i ∈ slicesOf e.sub.mask, (e.g.slice i).call.length ≠ 16) :
    e.callTo t = .goto (e.s.putG e.gid (((e.g.changed { sw := [], sl := e.pushCall }).setPcs (slicesOf e.sub.mask)
      fun _ => t).modSub e.sub.mask fun x => { x with park := .none })) := by
  have hg : e.g.modSlices (slicesOf e.sub.mask) (fun x => { x with call := (e.pc + 8) :: x.call }) =
      e.g.changed { sw := [], sl := e.pushCall } := modSlices_eq_changed e.g e.sub.mask _
  unfold Env.callTo
  dsimp only
  rw [any_eq_false_of_forall fun i hi => beq_false_of_ne (h i hi), ← hg]
  rfl

theorem call_goes {s : State} {e : Env} {t : W64} {f : BWord} (h : Issues (.call f) s e) (ht : e.target f.disp = some t)
    (hs : ∀ i ∈ slicesOf e.sub.mask, (e.g.slice i).call.length ≠ 16) : Goes (.call f) s e { sl := e.pushCall } t := by
  refine issueWord_goes h rfl (sw := []) ?_
  rw [ht]
  exact e.callTo_ok t hs

theorem calli_goes {s : State} {e : Env} (hl : e.live ≠ []) {t : W64} {f : RWord} (h : Issues (.calli f) s e) (h8 : t.toNat % 8 = 0)
    (h56 : t.toNat < 2 ^ 56) (ht : ∀ i ∈ e.live, e.rd64 (4 * i) f.a = t.toNat)
    (hs : ∀ i ∈ slicesOf e.sub.mask, (e.g.slice i).call.length ≠ 16) : Goes (.calli f) s e { sl := e.pushCall } t := by
  refine issueWord_goes h rfl (sw := []) ?_
  have hfirst : e.rd64 (4 * lowest (maskOf e.live)) f.a = t.toNat := ht _ (lowest_live_mem hl)
  have hany : (e.live.any fun i => e.rd64 (4 * i) f.a != t.toNat) = false :=
    any_eq_false_of_forall fun i hi => by simp [ht i hi]
  simp only [hfirst, hany, Bool.false_eq_true, if_false, e.targetsOk_ok fun i hi => by rw [ht i hi]; exact ⟨h8, h56⟩,
    BitVec.ofNat_toNat, BitVec.setWidth_eq]
  exact e.callTo_ok t hs

theorem ret_goes {s : State} {e : Env} (hl : e.live ≠ []) {t : W64} {f : RWord} (h : Issues (.ret f) s e)
    (ht : ∀ i ∈ e.live, (e.g.slice i).call.head? = some t) : Goes (.ret f) s e
      { sl := fun n x => if n ∈ slicesOf e.sub.mask then { x with call := x.call.tail } else x } t := by
  refine issueWord_goes h rfl (sw := []) ?_
  have htop : ∀ i ∈ e.live, (e.g.slice i).call.headD 0 = t := fun i hi => by
    rw [List.headD_eq_head?_getD, ht i hi]; rfl
  have hempty : (e.live.any fun i => (e.g.slice i).call.isEmpty) = false := any_eq_false_of_forall fun i hi => by
    cases hc : (e.g.slice i).call with
    | nil => have := ht i hi; rw [hc] at this; cases this
    | cons => rfl
  have hany : (e.live.any fun i => (e.g.slice i).call.headD 0 != t) = false :=
    any_eq_false_of_forall fun i hi => by simp only [htop i hi, bne_self_eq_false]
  rw [← modSlices_eq_changed]
  simp only [htop _ (lowest_live_mem hl), hempty, hany, Bool.false_eq_true, if_false]

/-- Settles O14: the stacks have room, or agree on their top, so each word goes to one target. -/
theorem callsComplete : Obligations.CallsComplete := by
  intro s e t hl
  exact ⟨fun f h ht hs => call_goes h ht hs, fun f h h8 h56 ht hs => calli_goes hl h h8 h56 ht hs, fun f h ht => ret_goes hl h ht⟩

end Sys2Proof.Machine
end

section
/-! SUPPORT. Parting (R148 to R150): the paths of a decision, the record and the sub-gangs that it makes. -/

namespace Sys2Proof.Machine

/-! ### Paths -/

/-- One slice taken into the paths. -/
def addPath (way : Nat → Way) (ps : List (Way × List Nat)) (i : Nat) : List (Way × List Nat) :=
  if ps.any (fun p => p.1 == way i) then ps.map fun p => if p.1 == way i then (p.1, p.2 ++ [i]) else p else ps ++ [(way i, [i])]

theorem pathsOf_eq (way : Nat → Way) (l : List Nat) : pathsOf way l = l.foldl (addPath way) [] := rfl

theorem pathsOf_concat (way : Nat → Way) (l : List Nat) (i : Nat) : pathsOf way (l ++ [i]) = addPath way (pathsOf way l) i := by
  simp only [pathsOf_eq, List.foldl_append, List.foldl_cons, List.foldl_nil]

theorem mem_addPath {way : Nat → Way} {ps : List (Way × List Nat)} {i : Nat} {p : Way × List Nat} (hp : p ∈ addPath way ps i) :
    (∃ q ∈ ps, p = if q.1 == way i then (q.1, q.2 ++ [i]) else q) ∨ p = (way i, [i]) ∧ ∀ q ∈ ps, q.1 ≠ way i := by
  unfold addPath at hp
  split at hp
  next =>
    obtain ⟨q, hq, rfl⟩ := List.mem_map.mp hp
    exact .inl ⟨q, hq, rfl⟩
  next hany =>
    have hne : ∀ q ∈ ps, q.1 ≠ way i := fun q hq hqw => hany (List.any_eq_true.mpr ⟨q, hq, beq_iff_eq.mpr hqw⟩)
    rcases List.mem_append.mp hp with hq | hq
    · exact .inl ⟨p, hq, by rw [if_neg (by simpa using hne p hq)]⟩
    · exact .inr ⟨List.mem_singleton.mp hq, hne⟩

theorem way_mem_addPath (way : Nat → Way) (ps : List (Way × List Nat)) (i : Nat) {w : Way} :
    (∃ p ∈ addPath way ps i, p.1 = w) ↔ w = way i ∨ ∃ p ∈ ps, p.1 = w := by
  unfold addPath
  split
  next hany =>
    obtain ⟨q, hq, hqi⟩ := List.any_eq_true.mp hany
    constructor
    · rintro ⟨p, hp, rfl⟩
      obtain ⟨q', hq', rfl⟩ := List.mem_map.mp hp
      exact .inr ⟨q', hq', by split <;> rfl⟩
    · have hmap : ∀ q ∈ ps, ∃ p ∈ ps.map (fun p => if p.1 == way i then (p.1, p.2 ++ [i]) else p), p.1 = q.1 :=
        fun q hq => ⟨_, List.mem_map.mpr ⟨q, hq, rfl⟩, by split <;> rfl⟩
      rintro (rfl | ⟨p, hp, rfl⟩)
      · exact (beq_iff_eq.mp hqi) ▸ hmap q hq
      · exact hmap p hp
  next =>
    constructor
    · rintro ⟨p, hp, rfl⟩
      rcases List.mem_append.mp hp with hq | hq
      · exact .inr ⟨p, hq, rfl⟩
      · exact .inl (by rw [List.mem_singleton.mp hq])
    · rintro (rfl | ⟨p, hp, rfl⟩)
      · exact ⟨_, List.mem_append_right _ List.mem_cons_self, rfl⟩
      · exact ⟨p, List.mem_append_left _ hp, rfl⟩

/-- Every way that a slice takes has a path. -/
theorem exists_path (way : Nat → Way) (l : List Nat) {w : Way} : (∃ p ∈ pathsOf way l, p.1 = w) ↔ ∃ i ∈ l, way i = w := by
  induction l using List.reverseRecOn with
  | nil => simp [pathsOf]
  | append_singleton l i ih =>
    rw [pathsOf_concat, way_mem_addPath, ih]
    simp only [List.mem_append, List.mem_singleton]
    constructor
    · rintro (rfl | ⟨j, hj, rfl⟩)
      · exact ⟨i, .inr rfl, rfl⟩
      · exact ⟨j, .inl hj, rfl⟩
    · rintro ⟨j, hj | rfl, rfl⟩
      · exact .inr ⟨j, hj, rfl⟩
      · exact .inl rfl

/-- A path holds the slices that go its way, in order. -/
theorem path_slices (way : Nat → Way) (l : List Nat) : ∀ p ∈ pathsOf way l, p.2 = l.filter fun i => way i == p.1 := by
  induction l using List.reverseRecOn with
  | nil => intro p hp; cases hp
  | append_singleton l i ih =>
    intro p hp
    rw [pathsOf_concat] at hp
    rw [List.filter_append]
    rcases mem_addPath hp with ⟨q, hq, rfl⟩ | ⟨rfl, hne⟩
    · by_cases hw : q.1 = way i
      · have hq2 := ih q hq
        rw [hw] at hq2
        simp [hw, hq2]
      · simp [hw, ih q hq, Ne.symm hw]
    · have hnil : l.filter (fun j => way j == way i) = [] := List.filter_eq_nil_iff.mpr fun j hj hji => by
        obtain ⟨q, hq, hqw⟩ := (exists_path way l).mpr ⟨j, hj, beq_iff_eq.mp hji⟩
        exact hne q hq hqw
      simp [hnil]

/-! ### The group after a parting -/

/-- The program counters that the paths set: each slice's own way. -/
theorem setPaths_slices (way : Nat → Way) (ps : List (Way × List Nat)) (hw : ∀ p ∈ ps, ∀ i ∈ p.2, way i = p.1)
    (hn : ∀ p ∈ ps, p.2.Nodup) (g : Group) :
    ∃ sl, ps.foldl (fun g p => g.setPcs p.2 fun _ => p.1.2) g = { g with slices := sl } ∧
      ∀ n, sl[n]? = (g.slices[n]?).map fun x => if ∃ p ∈ ps, n ∈ p.2 then { x with pc := (way n).2 } else x := by
  induction ps generalizing g with
  | nil => exact ⟨g.slices, rfl, fun n => by simp⟩
  | cons p ps ih =>
    rw [List.forall_mem_cons] at hw hn
    obtain ⟨sl, hsl, hget⟩ := ih hw.2 hn.2 (g.setPcs p.2 fun _ => p.1.2)
    refine ⟨sl, ?_, fun n => ?_⟩
    · rw [List.foldl_cons, hsl, setPcs_const, modSlices_slices]
    · rw [hget n, setPcs_const, modSlices_slices, slices_foldl_modify _ _ _ _ hn.1, Option.map_map]
      congr 1
      funext x
      have hex : (∃ q ∈ p :: ps, n ∈ q.2) ↔ n ∈ p.2 ∨ ∃ q ∈ ps, n ∈ q.2 := List.exists_mem_cons_iff _ _ _
      simp only [Function.comp, hex]
      by_cases hp : n ∈ p.2
      · simp only [hp, true_or, if_true, hw.1 n hp, ite_self]
      · simp only [hp, if_false, false_or]

/-- What a parting leaves of a group that is otherwise `g0` (R148, R149). -/
def Env.Parted (e : Env) (g0 : Group) (way : Nat → Way) (g : Group) : Prop :=
  ∃ (kids : List SubGang) (r : Record), g.recs = g0.recs ++ [r] ∧ r.s = e.sub.mask ∧ r.depth = g0.depthOf e.sub.mask + 1 ∧
    (∀ n ∈ slicesOf e.sub.mask, r.fmr[n]? = some (g0.slice n).fmr) ∧
    (∀ n, g.slices[n]? = (g0.slices[n]?).map fun x => if n ∈ slicesOf e.sub.mask then { x with pc := (way n).2 } else x) ∧
    g.subs = g0.subs.flatMap (fun x => if x.mask == e.sub.mask then kids else [x]) ∧
    (∀ k ∈ kids, k.park = .none ∧ k.lastPc = e.pc ∧ k.lvl.view = e.sub.lvl.view) ∧
    (∀ m ∈ slicesOf e.sub.mask, ∀ n ∈ slicesOf e.sub.mask,
      (∃ k ∈ kids, bitOf k.mask m = true ∧ bitOf k.mask n = true) ↔ way m = way n) ∧
    g = { g0 with recs := g.recs, slices := g.slices, subs := g.subs }

/-- The mask of a path holds the slices that go its way. -/
theorem bitOf_path_mask {way : Nat → Way} {m : Nat} {p : Way × List Nat} (hp : p ∈ pathsOf way (slicesOf m)) {n : Nat}
    (hn : n ∈ slicesOf m) : bitOf (maskOf p.2) n = true ↔ way n = p.1 := by
  obtain ⟨hlt, hb⟩ := mem_slicesOf.mp hn
  rw [path_slices way _ p hp, slicesOf, List.filter_filter, bitOf_maskOf_filter_range]
  simp [hlt, hb]

theorem parted_of_paths (e : Env) (g0 : Group) (way : Nat → Way) :
    e.Parted g0 way (g0.part e.sub e.pc (pathsOf way (slicesOf e.sub.mask))) := by
  have hps := path_slices way (slicesOf e.sub.mask)
  obtain ⟨sl, hsl, hget⟩ := setPaths_slices way (pathsOf way (slicesOf e.sub.mask))
    (fun p hp i hi => by rw [hps p hp] at hi; simpa using (List.mem_filter.mp hi).2)
    (fun p hp => by rw [hps p hp]; exact (slicesOf_nodup _).filter _) g0
  have hcover : ∀ n, (∃ p ∈ pathsOf way (slicesOf e.sub.mask), n ∈ p.2) ↔ n ∈ slicesOf e.sub.mask := by
    intro n
    constructor
    · rintro ⟨p, hp, hn⟩
      rw [hps p hp] at hn
      exact List.mem_of_mem_filter hn
    · intro hn
      obtain ⟨p, hp, hpw⟩ := (exists_path way _).mpr ⟨n, hn, rfl⟩
      exact ⟨p, hp, by rw [hps p hp, List.mem_filter]; exact ⟨hn, by simp [hpw]⟩⟩
  unfold Group.part
  dsimp only
  rw [hsl]
  refine ⟨_, _, rfl, rfl, rfl, fun n hn => ?fmr, fun n => ?slices, rfl, fun k hk => ?kids, fun m hm n hn => ?masks, rfl⟩
  case fmr =>
    obtain ⟨hlt, hb⟩ := mem_slicesOf.mp hn
    simp [hlt, hb]
  case slices => simp only [hget n, hcover]
  case kids =>
    obtain ⟨p, -, rfl⟩ := List.mem_map.mp hk
    refine ⟨rfl, rfl, ?_⟩
    dsimp only
    split <;> rfl
  case masks =>
    constructor
    · rintro ⟨k, hk, hkm, hkn⟩
      obtain ⟨p, hp, rfl⟩ := List.mem_map.mp hk
      exact ((bitOf_path_mask hp hm).mp hkm).trans ((bitOf_path_mask hp hn).mp hkn).symm
    · intro hw
      obtain ⟨p, hp, hpw⟩ := (exists_path way _).mpr ⟨m, hm, rfl⟩
      exact ⟨_, List.mem_map.mpr ⟨p, hp, rfl⟩, (bitOf_path_mask hp hm).mpr hpw.symm, (bitOf_path_mask hp hn).mpr (hw ▸ hpw.symm)⟩

/-! ### Decisions with PT = 1 -/

/-- The ways of the live slices give those of all slices. -/
theorem Env.wayOf_congr (e : Env) (hl : e.live ≠ []) {w₁ w₂ : Nat → Way} (h : ∀ i ∈ e.live, w₁ i = w₂ i) : e.wayOf w₁ = e.wayOf w₂ := by
  funext i
  unfold Env.wayOf
  split
  next hi => exact h i (List.contains_iff_mem.mp hi)
  next =>
    rw [List.find?_congr (p₁ := fun j => !(w₁ j).1) fun j hj => by rw [h j hj]]
    split
    next j hj => exact h j (List.mem_of_find?_eq_some hj)
    next => exact h _ (lowest_live_mem hl)

theorem Env.decide_part (e : Env) (g : Group) (hd : g.depthOf e.sub.mask ≠ 16) (way : Nat → Way) (keep : Bool) :
    e.decide g true way keep = .goto (e.s.putG e.gid (g.part e.sub e.pc (pathsOf (e.wayOf way) (slicesOf e.sub.mask)))) := by
  simp only [Env.decide, if_true, beq_false_of_ne hd, Bool.false_eq_true, if_false]

/-- A parting branch whose target the live slices that take it can reach. -/
theorem Env.branch_part (e : Env) (hl : e.live ≠ []) (g : Group) (hd : g.depthOf e.sub.mask ≠ 16) {f : BWord} (hpt : f.pt = true)
    {taken : Nat → Bool} {t : W64} (ht : ∀ i ∈ e.live, taken i = true → e.target f.disp = some t) (keep : Bool) :
    e.branch g f taken keep = .goto (e.s.putG e.gid (g.part e.sub e.pc
      (pathsOf (e.wayOf fun i => if taken i then (true, t) else (false, e.pc + 8)) (slicesOf e.sub.mask)))) := by
  have hway : ∀ w : Nat → Way, (∀ i ∈ e.live, w i = if taken i then (true, t) else (false, e.pc + 8)) →
      e.decide g f.pt w keep = .goto (e.s.putG e.gid (g.part e.sub e.pc
        (pathsOf (e.wayOf fun i => if taken i then (true, t) else (false, e.pc + 8)) (slicesOf e.sub.mask)))) := fun w hw => by
    rw [hpt, e.decide_part g hd, e.wayOf_congr hl hw]
  unfold Env.branch
  cases htgt : e.target f.disp with
  | none =>
    have hno : ∀ i ∈ e.live, taken i = false := fun i hi => by
      cases hti : taken i with
      | false => rfl
      | true => rw [ht i hi hti] at htgt; cases htgt
    simp only [any_eq_false_of_forall hno, Bool.false_eq_true, if_false]
    exact hway _ fun i hi => by rw [hno i hi]; rfl
  | some t' =>
    refine hway _ fun i hi => ?_
    cases hti : taken i with
    | false => rfl
    | true => rw [ht i hi hti] at htgt; cases htgt; rfl

/-- A control word whose body parts the sub-gang parts it. -/
theorem issueWord_parts {i : Instr} {s : State} {e : Env} (h : Issues i s e) {body : Env → Res} {g0 : Group} {way : Nat → Way}
    (hx : exec i s = issueWord i body s)
    (hb : body e = .goto (e.s.putG e.gid (g0.part e.sub e.pc (pathsOf way (slicesOf e.sub.mask))))) : Parts i s e g0 way := by
  obtain ⟨kids, r, hp⟩ := parted_of_paths e g0 way
  exact ⟨_, kids, r, by rw [hx, issueWord_goto h hb], hp⟩

theorem branch_parts {i : Instr} {s : State} {e : Env} (h : Issues i s e) (hl : e.live ≠ []) (hd : e.g.depthOf e.sub.mask ≠ 16)
    {f : BWord} {taken : Env → Nat → Bool} (hx : exec i s = issueWord i (fun e => e.branch e.g f (taken e) false) s) {t : W64}
    (ht : f.pt = true ∧ ∀ i ∈ e.live, taken e i = true → e.target f.disp = some t) :
    Parts i s e e.g (e.wayOf fun i => if taken e i then (true, t) else (false, e.pc + 8)) :=
  issueWord_parts h hx (e.branch_part hl e.g hd ht.1 ht.2 false)

theorem loop_parts {s : State} {e : Env} {f : BWord} (h : Issues (.loop f) s e) (hl : e.live ≠ [])
    (hd : e.g.depthOf e.sub.mask ≠ 16) {t : W64}
    (ht : f.pt = true ∧ ∀ i ∈ e.live, (e.g.sr f.st i != 1) = true → e.target f.disp = some t) :
    Parts (.loop f) s e (e.countedGroup f.st) (e.wayOf fun i => if e.g.sr f.st i != 1 then (true, t) else (false, e.pc + 8)) := by
  have hdc : (e.countedGroup f.st).depthOf e.sub.mask ≠ 16 := by rw [e.countedGroup_changed]; exact hd
  have hway : (e.wayOf fun i => if e.g.sr f.st i != 1 then (true, t) else (false, e.pc + 8)) =
      e.wayOf fun i => if (e.countedGroup f.st).sr f.st i != 0 then (true, t) else (false, e.pc + 8) :=
    e.wayOf_congr hl fun i hi => by rw [e.countedGroup_sr f.st hi]
  rw [hway]
  exact issueWord_parts h (exec_loop f s) (e.branch_part hl _ hdc ht.1 (fun i hi hti => ht.2 i hi (by rwa [← e.countedGroup_sr f.st hi])) true)

/-- Settles O11: a parting decision makes one path for each way of the slices, and a record of them all. -/
theorem partingWordsPart : Obligations.PartingWordsPart := by
  intro s e t hl hd
  refine ⟨fun f h ht => ?bra, fun f h ht => ?bkz, fun f h ht => ?bknz, fun f h ht => ?loop, fun f h hm ht => ?jmpi⟩
  case bra => exact branch_parts h hl hd (taken := fun e i => condHolds f.cc (e.g.flags i)) rfl ht
  case bkz => exact branch_parts h hl hd (taken := fun e i => e.g.isCtl || e.g.maskBits f.kt i == 0) rfl ht
  case bknz => exact branch_parts h hl hd (taken := fun e i => !e.g.isCtl && e.g.maskBits f.kt i != 0) rfl ht
  case loop =>
    refine ⟨e.countedGroup f.st, ?_, ?_, loop_parts h hl hd ht⟩
    · rw [e.countedGroup_changed]; rfl
    · rw [e.countedGroup_changed]; simp [Group.changed, written, List.mapIdx_eq_zipIdx_map]
  case jmpi =>
    refine issueWord_parts h rfl ?_
    rw [e.targetsOk_ok ht, hm]
    exact e.decide_part e.g hd _ false

end Sys2Proof.Machine
end

section
/-! SUPPORT. What a step does around its word: the slot and its leaf, the counters, the caches and the undo logs (R25, R341, R362, R379,
R381); and the fetch (R32, R33, R58). -/

namespace Sys2Proof.Machine

/-! ### Counting -/

/-- A state that differs in the counters and the trees only. -/
def State.Counted (s u : State) : Prop := ∃ tree counters, u = { s with tree := tree, counters := counters }

theorem State.Counted.refl (s : State) : s.Counted s := ⟨s.tree, s.counters, rfl⟩
theorem State.Counted.trans {s t u : State} : s.Counted t → t.Counted u → s.Counted u := by
  rintro ⟨_, _, rfl⟩ ⟨tree, counters, rfl⟩
  exact ⟨tree, counters, rfl⟩
theorem State.Counted.frame {s u : State} : s.Counted u → u = { s with tree := u.tree, counters := u.counters } := by
  rintro ⟨_, _, rfl⟩; rfl

/-- A pass that changes a state by steps of a kind changes it by one such step. -/
theorem foldl_of_steps {α σ : Type} {R : σ → σ → Prop} (hr : ∀ s, R s s) (ht : ∀ {s t u}, R s t → R t u → R s u) {f : σ → α → σ}
    (l : List α) (h : ∀ s, ∀ x ∈ l, R s (f s x)) (s : σ) : R s (l.foldl f s) :=
  List.foldlRecOn l f (hr s) fun _ hb x hx => ht hb (h _ x hx)

/-- A state that differs in the counters only. -/
def State.Recounted (s u : State) : Prop := ∃ counters, u = { s with counters := counters }

theorem State.Recounted.refl (s : State) : s.Recounted s := ⟨s.counters, rfl⟩
theorem State.Recounted.trans {s t u : State} : s.Recounted t → t.Recounted u → s.Recounted u := by
  rintro ⟨_, rfl⟩ ⟨counters, rfl⟩
  exact ⟨counters, rfl⟩
theorem State.Recounted.counted {s u : State} : s.Recounted u → s.Counted u := by
  rintro ⟨counters, rfl⟩
  exact ⟨s.tree, counters, rfl⟩

theorem State.countEvent_recounted (s : State) (cid core ev : Nat) (quad : Option Nat) (n : Nat) :
    s.Recounted (s.countEvent cid core ev quad n) := by
  unfold State.countEvent
  dsimp only
  generalize hb : (n == 0 || !_) = b
  cases b with
  | false => exact ⟨_, rfl⟩
  | true => exact .refl s

theorem State.countLeaves_counted (s : State) (cid : Nat) (ls : List (Nat × Nat × Nat)) : s.Counted (s.countLeaves cid ls) := by
  have htree : s.Counted { s with tree := addAll (s.tree.length + ls.length) s.tree (ls.map fun l => (treeLeaf cid l.1 l.2.1 l.2.2, 1)) } :=
    ⟨_, _, rfl⟩
  unfold State.countLeaves
  dsimp only
  split
  · exact htree
  · exact htree.trans (foldl_of_steps .refl .trans ls (fun u x _ => (u.countEvent_recounted ..).counted) _)

theorem State.countSlot_counted (s : State) (k : Nat) (leaf : Option Nat) : s.Counted (s.countSlot k leaf) := by
  unfold State.countSlot
  split
  · exact s.countLeaves_counted ..
  · exact .refl s

/-! ### The slot -/

/-- What the filling of a slot can change. -/
def State.Slotted (s u : State) : Prop := u = { s with
  slots := u.slots, pointers := u.pointers, tree := u.tree, counters := u.counters, ramp := u.ramp, rampPrev := u.rampPrev }

theorem State.slotDone_slotted (s t : State) (p : Party) (i : Option Instr) : t.Slotted (s.slotDone t p i) := by
  unfold State.slotDone
  split
  next => rfl
  next k rest _ =>
    split
    next => rfl
    next =>
      split
      next =>
        obtain ⟨tree, counters, h⟩ := t.countSlot_counted k none
        rw [h]; rfl
      next i =>
        split
        next => rfl
        next =>
          obtain ⟨tree, counters, h⟩ := t.countSlot_counted k (some (s.wordLeaf p i))
          dsimp only
          rw [h]
          split
          · split <;> rfl
          · rfl

/-! ### The counters of a step -/

/-- A pass of counts. -/
theorem recounted_foldl {α : Type} {f : State → α → State} (l : List α) (h : ∀ (s : State) x, s.Recounted (f s x)) (s : State) :
    s.Recounted (l.foldl f s) :=
  foldl_of_steps .refl .trans l (fun u x _ => h u x) s

theorem State.tallyRounds_recounted (s old : State) (lid : Nat) : s.Recounted (s.tallyRounds old lid) := by
  unfold State.tallyRounds
  refine recounted_foldl _ (fun s t => recounted_foldl _ (fun s q => ?_) s) s
  exact ((s.countEvent_recounted ..).trans (State.countEvent_recounted ..)).trans (State.countEvent_recounted ..)

theorem State.tallyMsc_recounted (s old : State) (i : Instr) : s.Recounted (s.tallyMsc old i) := by
  unfold State.tallyMsc
  have hfree := recounted_foldl (s.ctxs.filter fun c => c.2.state == .resident) (fun s c => recounted_foldl (List.range 4)
    (fun s d => recounted_foldl [0, 1, 3, 4] (fun s e => s.countEvent_recounted c.1 d (0x20 + e) none
      ((Config.freeValue (s.freeCtr + 3 + 24 * c.1 + 6 * d + e)).toNat % 2 ^ 16)) s) s) s
  dsimp only
  generalize State.requester _ i = r
  cases r with
  | none => exact hfree
  | some cid =>
    refine hfree.trans (recounted_foldl _ (fun s d => ?_) _)
    exact (s.countEvent_recounted ..).trans (State.countEvent_recounted ..)

/-- What the counting of a step can change. -/
theorem tally_frame (old : State) (i : Instr) (s : State) :
    ∃ counters freeCtr, tally old i s = { s with counters := counters, freeCtr := freeCtr } := by
  unfold tally
  split
  next => exact ⟨s.counters, s.freeCtr, rfl⟩
  next =>
    dsimp only
    have hgroups := recounted_foldl (f := fun (u : State) (g : Nat × Group) => if 2 ^ 200 ≤ g.1 then u
        else (old.groupCounts s i g.1 g.2).foldl (fun u c => u.countEvent (gidCid g.1) (old.quadOf g.1).1 c.1 c.2.1 c.2.2) u)
      old.groups (fun u g => by
        split
        · exact .refl u
        · exact recounted_foldl _ (fun u c => u.countEvent_recounted ..) u) s
    split
    all_goals
      obtain ⟨c, hc⟩ := hgroups
      rw [hc]
    next lid =>
      obtain ⟨_, h⟩ := (State.tallyRounds_recounted _ old lid).trans (State.tallyMsc_recounted _ old (.roundApply lid))
      rw [h]; exact ⟨_, _, rfl⟩
    next =>
      obtain ⟨_, h⟩ := State.tallyMsc_recounted _ old i
      rw [h]; exact ⟨_, _, rfl⟩

theorem tally_unconfigured (old : State) (i : Instr) {s : State} (h : s.counterCfg = []) : tally old i s = s := by
  unfold tally
  rw [h]; rfl

/-! ### The caches -/

theorem State.cachePage_frame (s : State) (unit cid va : Nat) : ∃ tcache, s.cachePage unit cid va = { s with tcache := tcache } := by
  unfold State.cachePage
  split
  · exact ⟨s.tcache, rfl⟩
  · split
    · exact ⟨s.tcache, rfl⟩
    · dsimp only
      split_ifs <;> exact ⟨_, rfl⟩

theorem State.fetched_frame (s : State) (p : Party) : s.fetched p = { s with tcache := (s.fetched p).tcache } := by
  unfold State.fetched
  split
  next e _ =>
    split
    · rfl
    · obtain ⟨_, h⟩ := s.cachePage_frame e.pcore e.cid e.pc.toNat
      rw [h]
  next => rfl

/-- A state that differs in what the caches hold only. -/
def State.Cached (s u : State) : Prop := ∃ tcache leafCache, u = { s with tcache := tcache, leafCache := leafCache }
theorem State.Cached.refl (s : State) : s.Cached s := ⟨s.tcache, s.leafCache, rfl⟩
theorem State.Cached.trans {s t u : State} : s.Cached t → t.Cached u → s.Cached u := by
  rintro ⟨_, _, rfl⟩ ⟨tcache, leafCache, rfl⟩
  exact ⟨tcache, leafCache, rfl⟩

theorem State.cachePage_cached (s : State) (unit cid va : Nat) : s.Cached (s.cachePage unit cid va) := by
  obtain ⟨tcache, h⟩ := s.cachePage_frame unit cid va
  exact ⟨tcache, s.leafCache, h⟩
theorem State.cacheLeaves_cached (s : State) (core cid : Nat) (hs : List Nat) : s.Cached (s.cacheLeaves core cid hs) := by
  unfold State.cacheLeaves
  dsimp only
  split
  · exact .refl s
  · exact ⟨s.tcache, _, rfl⟩
theorem State.cachePages_cached (s : State) (unit cid : Nat) (l : List Nat) : s.Cached (l.foldl (fun s a => s.cachePage unit cid a) s) :=
  foldl_of_steps .refl .trans l (fun u a _ => u.cachePage_cached unit cid a) s

theorem State.cached_cached (old : State) (i : Instr) (s : State) : s.Cached (old.cached i s) := by
  unfold State.cached
  split
  case _ | _ | _ | _ | _ =>
    split
    · exact (s.cacheLeaves_cached ..).trans (State.cachePages_cached ..)
    · exact .refl s
  case _ =>
    split
    · split
      · split
        · exact s.cachePages_cached ..
        · exact .refl s
      · exact .refl s
    · exact .refl s
  case _ => exact .refl s

/-! ### The undo logs -/

/-- What the undo logs in the save areas change: memory, with what completed launches left there. -/
theorem State.writeUndo_spec (old s : State) : ∃ mem memPoison launches,
    State.writeUndo old s = { s with mem := mem, memPoison := memPoison, launches := launches } ∧
    ∀ k, (∀ c ∈ s.ctxs, bitOf c.2.f.debugCtl.toNat 1 = true → k < saveKey c.2 + 2 ^ 32 ∨ saveKey c.2 + 2 ^ 32 + (s.undoLogs c.1).len ≤ k) →
      mget mem k = mget s.mem k := by
  unfold State.writeUndo
  refine List.foldlRecOn s.ctxs _ (motive := fun u => ∃ mem memPoison launches,
    u = { s with mem := mem, memPoison := memPoison, launches := launches } ∧ ∀ k, (∀ c ∈ s.ctxs, bitOf c.2.f.debugCtl.toNat 1 = true →
      k < saveKey c.2 + 2 ^ 32 ∨ saveKey c.2 + 2 ^ 32 + (s.undoLogs c.1).len ≤ k) → mget mem k = mget s.mem k)
    ⟨s.mem, s.memPoison, s.launches, rfl, fun _ _ => rfl⟩ ?_
  rintro u ⟨mem, memPoison, launches, rfl, hk⟩ c hc
  split
  next hb =>
    refine ⟨_, _, _, rfl, fun k hout => (State.place_out _ _ ?_).trans (hk k hout)⟩
    exact hout c hc (Bool.and_eq_true_iff.mp hb).1
  next => exact ⟨mem, memPoison, launches, rfl, hk⟩

/-! ### The step -/

theorem step_of_fetch_inl {s : State} {p : Party} (hc : s.cur = some p) {i : Instr} (h : s.fetch p = .inl i) :
    step s = slotted s p (some i) (tallied s i (exec i (s.fetched p))) := by
  simp only [step, hc, h]
theorem step_of_fetch_inr {s : State} {p : Party} (hc : s.cur = some p) {t : State} (h : s.fetch p = .inr t) :
    step s = .next (s.slotDone t p none) := by
  simp only [step, hc, h, slotted]

section
variable {s : State} {p : Party} {e : Env} (he : envOf s p = some e)
include he

theorem fetch_ok (h8 : e.pc.toNat % 8 = 0) {w : Nat} (hw : e.fetchAt e.pc.toNat = .ok w) {i : Instr} (hi : decodeWord w = .ok i) :
    s.fetch p = .inl i := by
  simp [State.fetch, he, h8, hw, hi]
theorem fetch_reject (h8 : e.pc.toNat % 8 = 0) {w : Nat} (hw : e.fetchAt e.pc.toNat = .ok w) {r : Reject} (hr : decodeWord w = .error r) :
    s.fetch p = .inr (takeFault { s with cur := none } e (e.record none w (flt (e.rejectCode w r)))) := by
  simp [State.fetch, he, h8, hw, hr]
theorem fetch_error (h8 : e.pc.toNat % 8 = 0) {code : Nat} (hw : e.fetchAt e.pc.toNat = .error code) :
    s.fetch p = .inr (takeFault { s with cur := none } e (e.record none 0 { code := code, addr := e.pc.toNat })) := by
  simp [State.fetch, he, h8, hw]
theorem fetch_misaligned (h8 : e.pc.toNat % 8 ≠ 0) :
    s.fetch p = .inr (takeFault { s with cur := none } e (e.record none 0 { code := 0x04, addr := e.pc.toNat })) := by
  simp [State.fetch, he, h8]

end

/-- Settles O54: the cases of a step's fetch, and the frames of what stands around the word. -/
theorem stepRunsTheDecodedWord : Obligations.StepRunsTheDecodedWord := by
  intro s
  refine ⟨fun p e w i hc he h8 hw hi => ⟨step_of_fetch_inl hc (fetch_ok he h8 hw hi), s.fetched_frame p⟩,
    fun t p i => ⟨rfl, s.slotDone_slotted t p i⟩, fun t i => ⟨rfl, ?cached, ?tally, tally_unconfigured s i, ?undo⟩,
    fun p e w r hc he h8 hw hr => ⟨_, step_of_fetch_inr hc (fetch_reject he h8 hw hr), rfl, rfl⟩,
    fun p e code hc he h8 hw => ⟨_, step_of_fetch_inr hc (fetch_error he h8 hw), rfl, rfl, BitVec.ofNat_toNat ..⟩,
    fun p e hc he h8 => ⟨_, step_of_fetch_inr hc (fetch_misaligned he h8), rfl, rfl⟩,
    fun p hc he => step_of_fetch_inr hc (by simp [State.fetch, he]), fun i rest hc hi => by simp only [step, hc, hi],
    fun hc hi => by simp only [step, hc, hi]⟩
  case cached =>
    obtain ⟨_, _, h⟩ := s.cached_cached i t
    rw [h]
  case tally =>
    obtain ⟨_, _, h⟩ := tally_frame s i t
    rw [h]
  case undo =>
    obtain ⟨_, _, _, h, hk⟩ := State.writeUndo_spec s t
    rw [h]
    exact ⟨rfl, hk⟩

end Sys2Proof.Machine
end

section
/-! SUPPORT. The issue slots (R25, R26, R291, R379): the order of the parties, and the slot that the next word takes. -/

namespace Sys2Proof.Machine

/-! ### The parties of a quadrant -/

theorem pairwise_of_rising {α : Type} {t : Tab α} : ∀ {lo : Option Nat}, risingFrom lo t = true → t.Pairwise fun a b => a.1 < b.1 := by
  induction t with
  | nil => exact fun _ => .nil
  | cons x t ih =>
    intro lo h
    have ht : risingFrom (some x.1) t = true := (Bool.and_eq_true_iff.mp h).2
    have hlt : ∀ {l : Nat} {u : Tab α}, risingFrom (some l) u = true → ∀ y ∈ u, l < y.1 := by
      intro l u
      induction u generalizing l with
      | nil => intro _ y hy; cases hy
      | cons z u ihu =>
        intro hu y hy
        obtain ⟨hz, hu⟩ := Bool.and_eq_true_iff.mp hu
        have hlz : l < z.1 := of_decide_eq_true hz
        rcases List.mem_cons.mp hy with rfl | hy
        · exact hlz
        · exact hlz.trans (ihu hu y hy)
    exact .cons (hlt ht) (ih ht)

/-- The parties stand in the order of their numbers. -/
theorem parties_pairwise {s : State} (h : risingFrom none s.groups = true) : s.parties.Pairwise fun p q => p.num < q.num := by
  unfold State.parties
  refine List.pairwise_flatMap.mpr ⟨fun g _ => ?same, (pairwise_of_rising h).imp fun hab x hx y hy => ?other⟩
  case same =>
    refine List.pairwise_filterMap.mpr (List.pairwise_lt_range.imp fun hab x hx y hy => ?_)
    split at hx <;> split at hy <;> cases hx <;> cases hy
    simp only [Party.num]; omega
  case other =>
    obtain ⟨m, hm, hx⟩ := List.mem_filterMap.mp hx
    obtain ⟨n, hn, hy⟩ := List.mem_filterMap.mp hy
    split at hx <;> split at hy <;> cases hx <;> cases hy
    rw [List.mem_range] at hm hn
    simp only [Party.num]; omega

/-- The ready parties of a quadrant. -/
def State.quadParties (s : State) (k : Nat) : List Party := s.parties.filter fun p => s.slotOf p.gid == some k && s.ready p

theorem mem_quadParties {s : State} {k : Nat} {p : Party} :
    p ∈ s.quadParties k ↔ p ∈ s.parties ∧ s.slotOf p.gid = some k ∧ s.ready p = true := by
  simp [State.quadParties]

theorem nextParty_eq (s : State) (k : Nat) : s.nextParty k =
    ((s.quadParties k).find? fun p => sget 0 s.pointers k < p.num).orElse fun _ => (s.quadParties k).head? := rfl

theorem quadParties_eq_nil_of_nextParty {s : State} {k : Nat} (h : s.nextParty k = none) : s.quadParties k = [] := by
  rw [nextParty_eq] at h
  cases hf : (s.quadParties k).find? fun p => decide (sget 0 s.pointers k < p.num) with
  | some p => rw [hf] at h; cases h
  | none => rw [hf] at h; exact List.head?_eq_none_iff.mp h

/-- The next party is the first after the pointer, or, with none after it, the first. -/
theorem nextParty_cases {s : State} {k : Nat} {p : Party} (h : s.nextParty k = some p) :
    ((s.quadParties k).find? fun p => decide (sget 0 s.pointers k < p.num)) = some p ∨
    (∀ q ∈ s.quadParties k, q.num ≤ sget 0 s.pointers k) ∧ (s.quadParties k).head? = some p := by
  rw [nextParty_eq] at h
  cases hf : (s.quadParties k).find? fun p => decide (sget 0 s.pointers k < p.num) with
  | some q => rw [hf] at h; exact .inl h
  | none =>
    rw [hf] at h
    exact .inr ⟨fun q hq => by simpa using List.find?_eq_none.mp hf q hq, h⟩

theorem mem_of_nextParty {s : State} {k : Nat} {p : Party} (h : s.nextParty k = some p) : p ∈ s.quadParties k := by
  rcases nextParty_cases h with h | ⟨-, h⟩
  · exact List.mem_of_find?_eq_some h
  · exact List.mem_of_mem_head? (Option.mem_def.mpr h)

/-- Of the entries of a list in order that a test takes, the one found is the least. -/
theorem find?_least {l : List Party} (hl : l.Pairwise fun p q => p.num < q.num) {f : Party → Bool} {p q : Party} (hf : l.find? f = some p)
    (hq : q ∈ l) (hfq : f q = true) : p.num ≤ q.num := by
  obtain ⟨-, as, bs, rfl, has⟩ := List.find?_eq_some_iff_append.mp hf
  rcases List.mem_append.mp hq with hq | hq
  · have := has q hq
    rw [hfq] at this
    cases this
  · rcases List.mem_cons.mp hq with rfl | hq
    · exact le_rfl
    · exact (List.rel_of_pairwise_cons (List.pairwise_append.mp hl).2.1 hq).le

theorem nextParty_least {s : State} {k : Nat} {p : Party} (h : s.nextParty k = some p) (hg : risingFrom none s.groups = true) {q : Party}
    (hq : q ∈ s.quadParties k) :
    (sget 0 s.pointers k < q.num → sget 0 s.pointers k < p.num ∧ p.num ≤ q.num) ∧ (p.num ≤ sget 0 s.pointers k → p.num ≤ q.num) := by
  have hl : (s.quadParties k).Pairwise fun p q => p.num < q.num := (parties_pairwise hg).filter _
  rcases nextParty_cases h with hf | ⟨hle, hhead⟩
  · have hp : sget 0 s.pointers k < p.num := by simpa using List.find?_some hf
    exact ⟨fun hqk => ⟨hp, find?_least hl hf hq (decide_eq_true hqk)⟩, fun hpk => absurd hp (Nat.not_lt.mpr hpk)⟩
  · have hfirst : (s.quadParties k).find? (fun _ => true) = some p := by
      cases hc : s.quadParties k with
      | nil => rw [hc] at hq; cases hq
      | cons x l => rw [hc] at hhead; exact hhead
    exact ⟨fun hqk => absurd hqk (Nat.not_lt.mpr (hle q hq)), fun _ => find?_least hl hfirst hq rfl⟩

/-! ### A cycle begins -/

theorem mem_nins {k j : Nat} {l : List Nat} : j ∈ nins k l ↔ j = k ∨ j ∈ l := by
  induction l with
  | nil => simp [nins]
  | cons x l ih =>
    unfold nins
    split_ifs with hlt heq
    · simp
    · simp [beq_iff_eq.mp heq]
    · simp only [List.mem_cons, ih]; tauto

theorem newCycle_frame (s : State) : s.newCycle = { s with
    cycle := s.cycle + 1, slots := s.newCycle.slots, tree := s.newCycle.tree, counters := s.newCycle.counters } := by
  unfold State.newCycle
  dsimp only
  generalize List.foldl _ ([] : List Nat) s.parties = ks
  obtain ⟨tree, counters, h⟩ := foldl_of_steps .refl .trans (R := State.Counted) s.ctxs (fun u c _ => by
    show u.Counted (if c.2.state != .resident then u else u.countLeaves c.1 ((List.range c.2.f.cores).flatMap fun i =>
      (List.range 4).filterMap fun q => if ks.contains (slotKey (c.2.phys i) q) then none else some (i, q, s.idleLeaf c.1 (c.2.phys i) q)))
    split
    · exact .refl u
    · exact u.countLeaves_counted ..) s
  rw [h]

theorem mem_newCycle_slots {s : State} {k : Nat} : k ∈ s.newCycle.slots ↔ ∃ p ∈ s.parties, s.slotOf p.gid = some k ∧ s.ready p = true := by
  have hfold : ∀ (ps : List Party) (l : List Nat), k ∈ ps.foldl (fun l p => match s.slotOf p.gid with
      | some k => if s.ready p then nins k l else l
      | none => l) l ↔ k ∈ l ∨ ∃ p ∈ ps, s.slotOf p.gid = some k ∧ s.ready p = true := by
    intro ps
    induction ps with
    | nil => simp
    | cons p ps ih =>
      intro l
      rw [List.foldl_cons, ih, List.exists_mem_cons_iff]
      cases hs : s.slotOf p.gid with
      | none => simp
      | some j =>
        cases hr : s.ready p with
        | false => simp
        | true => simp only [if_true, mem_nins, Option.some.injEq, and_true, eq_comm (a := j), or_assoc, or_left_comm (a := k = j)]
  exact (hfold s.parties []).trans (by simp)

/-! ### A slot is taken -/

/-- A quadrant in which no sub-gang issues: none is ready, or the one that is next is withheld. -/
def State.SlotIdle (u : State) (k : Nat) : Prop := ∃ w, u.Counted w ∧ ∀ p, w.nextParty k = some p → w.rampHeld p = true

/-- What the choice of a slot answers. -/
theorem takeSlot_spec (u : State) (ks : List Nat) (w : State) (hw : u.Counted w) :
    (∃ v, u.Counted v ∧ State.takeSlot ks w = { v with slots := [] } ∧ ∀ k ∈ ks, u.SlotIdle k) ∨
    ∃ v pre k rest p, u.Counted v ∧ State.takeSlot ks w = { v with slots := k :: rest, cur := some p } ∧
      ks = pre ++ k :: rest ∧ (∀ j ∈ pre, u.SlotIdle j) ∧ v.nextParty k = some p ∧ v.rampHeld p = false := by
  induction ks generalizing w with
  | nil => exact .inl ⟨w, hw, rfl, fun k hk => absurd hk List.not_mem_nil⟩
  | cons k ks ih =>
    have pass : ∀ leaf, (∀ p, w.nextParty k = some p → w.rampHeld p = true) →
        State.takeSlot (k :: ks) w = State.takeSlot ks (w.countSlot k leaf) →
        (∃ v, u.Counted v ∧ State.takeSlot (k :: ks) w = { v with slots := [] } ∧ ∀ j ∈ k :: ks, u.SlotIdle j) ∨
        ∃ v pre j rest p, u.Counted v ∧ State.takeSlot (k :: ks) w = { v with slots := j :: rest, cur := some p } ∧
          k :: ks = pre ++ j :: rest ∧ (∀ j ∈ pre, u.SlotIdle j) ∧ v.nextParty j = some p ∧ v.rampHeld p = false := by
      intro leaf hidle hstep
      rw [hstep]
      have hk : u.SlotIdle k := ⟨w, hw, hidle⟩
      rcases ih (w.countSlot k leaf) (hw.trans (w.countSlot_counted k leaf)) with
        ⟨v, hv, he, hi⟩ | ⟨v, pre, j, rest, p, hv, he, rfl, hi, hn, hr⟩
      · exact .inl ⟨v, hv, he, List.forall_mem_cons.mpr ⟨hk, hi⟩⟩
      · exact .inr ⟨v, k :: pre, j, rest, p, hv, he, rfl, List.forall_mem_cons.mpr ⟨hk, hi⟩, hn, hr⟩
    cases hn : w.nextParty k with
    | none => exact pass none (by simp [hn]) (by simp only [State.takeSlot, hn])
    | some p =>
      cases hr : w.rampHeld p with
      | true => exact pass (some 1) (by simp [hn, hr]) (by simp only [State.takeSlot, hn, hr, if_true])
      | false =>
        exact .inr ⟨w, [], k, ks, p, hw, by simp only [State.takeSlot, hn, hr, Bool.false_eq_true, if_false], rfl,
          fun j hj => absurd hj List.not_mem_nil, hn, hr⟩

/-! ### A slot is filled -/

theorem slotDone_left {s t : State} {p : Party} {i : Instr} (h : s.heldBack t p i = true ∨ s.wentOn p = true) :
    s.slotDone t p (some i) = t := by
  have hb : (s.heldBack t p i || s.wentOn p) = true := Bool.or_eq_true_iff.mpr h
  unfold State.slotDone
  simp only [hb, if_true, ite_self]
  split <;> rfl

theorem slotDone_filled {s t : State} {p : Party} {i : Instr} {k : Nat} {rest : List Nat} (ht : t.slots = k :: rest)
    (hs : s.slotOf p.gid = some k) (hh : s.heldBack t p i = false) (hw : s.wentOn p = false) :
    (s.slotDone t p (some i)).slots = rest ∧ sget 0 (s.slotDone t p (some i)).pointers k = p.num := by
  obtain ⟨tree, counters, hc⟩ := t.countSlot_counted k (some (s.wordLeaf p i))
  simp only [State.slotDone, ht, hs, hh, hw, hc, bne_self_eq_false, Bool.or_self, Bool.false_eq_true, if_false, true_and]
  exact sget_sset_same _ _ _

/-- Settles O53: the parties of a quadrant stand in order, and the choice of a slot passes over the quadrants that issue nothing. -/
theorem issueSlotTakesTheNextReadyParty : Obligations.IssueSlotTakesTheNextReadyParty := by
  intro s
  refine ⟨fun k h p hp => ?none, fun k p h => ⟨?mem, fun hg q hq => nextParty_least h hg (mem_quadParties.mpr hq)⟩,
    ⟨newCycle_frame s, fun k => ?slots⟩, ?take, fun t p i k rest ht hs => ⟨slotDone_left, slotDone_filled ht hs⟩⟩
  case none =>
    have := mem_quadParties.mpr hp
    rw [quadParties_eq_nil_of_nextParty h] at this
    cases this
  case mem => exact mem_quadParties.mp (mem_of_nextParty h)
  case slots => exact mem_newCycle_slots
  case take =>
    have hexec : exec .issueSlot s =
        .next (State.takeSlot (if s.slots = [] then s.newCycle else s).slots (if s.slots = [] then s.newCycle else s)) := by
      rw [show exec .issueSlot s = execIssueSlot s from rfl]
      unfold execIssueSlot
      simp only [beq_iff_eq]
    dsimp only
    rw [hexec]
    generalize (if s.slots = [] then s.newCycle else s) = u
    have hidle : ∀ k, u.SlotIdle k → ∃ w : State, w = { u with tree := w.tree, counters := w.counters } ∧
        ∀ p, w.nextParty k = some p → w.rampHeld p = true := fun k ⟨w, hw, hp⟩ => ⟨w, hw.frame, hp⟩
    rcases takeSlot_spec u u.slots u (.refl u) with ⟨v, hv, he, hi⟩ | ⟨v, pre, k, rest, p, hv, he, hs, hi, hn, hr⟩
    · exact .inl ⟨v, hv.frame, congrArg _ he, fun k hk => hidle k (hi k hk)⟩
    · exact .inr ⟨v, pre, k, rest, p, hv.frame, congrArg _ he, hs, fun k hk => hidle k (hi k hk), hn, hr⟩

end Sys2Proof.Machine
end

section
/-! SUPPORT. What the shared operations, the ladder, the control words and the engines leave of the fuses and of the module's own memory:
most change neither (`Kept`), the others write bytes only (`Writes`), and a write keeps the canonical form. -/

namespace Sys2Proof.Machine

/-! ### The two relations -/

/-- Neither the fuses nor a byte of the module's memory move. -/
@[simp] abbrev State.Kept (s t : State) : Prop := t.fuse = s.fuse ∧ t.mem = s.mem
/-- The fuses do not move, and memory keeps its canonical form. -/
@[simp] abbrev State.Writes (s t : State) : Prop := t.fuse = s.fuse ∧ (Memory.wf s.mem = true → Memory.wf t.mem = true)

theorem State.Kept.writes {s t : State} (h : s.Kept t) : s.Writes t := ⟨h.1, fun hw => h.2 ▸ hw⟩
theorem State.Writes.refl (s : State) : s.Writes s := ⟨rfl, id⟩
theorem State.Writes.trans {s t u : State} (h : s.Writes t) (h' : t.Writes u) : s.Writes u := ⟨h'.1.trans h.1, fun hw => h'.2 (h.2 hw)⟩
theorem State.Kept.trans {s t u : State} (h : s.Kept t) (h' : t.Kept u) : s.Kept u := ⟨h'.1.trans h.1, h'.2.trans h.2⟩

@[simp] theorem ite_fuse (c : Prop) [Decidable c] (s t : State) : (if c then s else t).fuse = if c then s.fuse else t.fuse := apply_ite ..
@[simp] theorem ite_mem (c : Prop) [Decidable c] (s t : State) : (if c then s else t).mem = if c then s.mem else t.mem := apply_ite ..

/-- A pass of steps that move neither. -/
@[simp] theorem foldl_kept {α : Type} {f : State → α → State} (h : ∀ (u : State) x, u.Kept (f u x)) (l : List α) (s : State) : s.Kept (l.foldl f s) :=
  foldl_of_steps (R := State.Kept) (fun _ => ⟨rfl, rfl⟩) .trans l (fun u x _ => h u x) s
/-- A pass of writes. -/
theorem foldl_writes {α : Type} {f : State → α → State} (h : ∀ (u : State) x, u.Writes (f u x)) (l : List α) (s : State) : s.Writes (l.foldl f s) :=
  foldl_of_steps (R := State.Writes) .refl .trans l (fun u x _ => h u x) s

theorem State.hWrite_writes (s : State) (w : MemW) : s.Writes (s.hWrite w) := ⟨rfl, State.hWrite_wf w⟩

/-! ### Faults, markers and the frame of a word -/

@[simp] theorem endCheckpoint_kept (s : State) (cid : Nat) : s.Kept (s.endCheckpoint cid) := by
  unfold State.endCheckpoint; split <;> simp
@[simp] theorem passTurn_kept (s : State) (cid : Nat) : s.Kept (s.passTurn cid) := by
  unfold State.passTurn; split <;> simp
@[simp] theorem faultCtx_kept (s : State) (cid code : Nat) : s.Kept (s.faultCtx cid code) := by
  simp [State.faultCtx]
@[simp] theorem takeFault_kept (s : State) (e : Env) (r : FaultRec) : s.Kept (takeFault s e r) := by
  simp [takeFault]
@[simp] theorem faultGroup_kept (s : State) (gid mask : Nat) (r : FaultRec) : s.Kept (faultGroup s gid mask r) := by
  unfold faultGroup; split <;> simp
@[simp] theorem takeInterrupt_kept (s : State) (cid : Nat) : s.Kept (takeInterrupt s cid) := by
  unfold takeInterrupt; split <;> simp
@[simp] theorem returnInterrupt_kept (s : State) (cid : Nat) : s.Kept (returnInterrupt s cid) := by
  unfold returnInterrupt; split <;> simp
@[simp] theorem logUndo_kept (s : State) (e : Env) (i : Instr) : s.Kept (s.logUndo e i) := by simp [State.logUndo]
@[simp] theorem logWord_kept (s : State) (e : Env) (i : Instr) : s.Kept (e.logWord i s) := by simp [Env.logWord]
@[simp] theorem settle_kept (s : State) (gid mask : Nat) : s.Kept (s.settle gid mask) := by
  unfold State.settle
  repeat' split
  all_goals simp
@[simp] theorem marker_kept (s : State) (gid mask : Nat) : s.Kept (s.marker gid mask) := by
  unfold State.marker; split <;> simp
@[simp] theorem release_kept (s : State) (gid mask : Nat) : s.Kept (s.release gid mask) := by
  unfold State.release
  repeat' split
  all_goals simp

/-- A result whose state has only been written to. -/
def Res.Writes (s : State) : Res → Prop
  | .ok t | .goto t | .park _ t | .faultIn t _ => s.Writes t
  | .fault _ => True
@[simp] theorem Res.writes_ok (s t : State) : Res.Writes s (.ok t) ↔ s.Writes t := Iff.rfl
@[simp] theorem Res.writes_goto (s t : State) : Res.Writes s (.goto t) ↔ s.Writes t := Iff.rfl
@[simp] theorem Res.writes_park (s t : State) (p : Park) : Res.Writes s (.park p t) ↔ s.Writes t := Iff.rfl
@[simp] theorem Res.writes_faultIn (s t : State) (f : Flt) : Res.Writes s (.faultIn t f) ↔ s.Writes t := Iff.rfl
@[simp] theorem Res.writes_fault (s : State) (f : Flt) : Res.Writes s (.fault f) := trivial
@[simp] theorem Res.writes_ite (s : State) (c : Prop) [Decidable c] (a b : Res) :
    Res.Writes s (if c then a else b) ↔ if c then Res.Writes s a else Res.Writes s b := by split <;> rfl

/-- A check whose result, if it has one, has only been written to. -/
def ChkWrites (s : State) (c : Chk Res) : Prop := ∀ r, c = .ok r → Res.Writes s r
@[simp] theorem chkWrites_ok (s : State) (r : Res) : ChkWrites s (.ok r) ↔ Res.Writes s r :=
  ⟨fun h => h r rfl, fun h r' hr => by cases hr; exact h⟩
@[simp] theorem chkWrites_pure (s : State) (r : Res) : ChkWrites s (pure r) ↔ Res.Writes s r := chkWrites_ok s r
@[simp] theorem chkWrites_error (s : State) (f : Flt) : ChkWrites s (.error f) := fun _ h => nomatch h
@[simp] theorem chkWrites_throw (s : State) (f : Flt) : ChkWrites s (throw f) := fun _ h => nomatch h
@[simp] theorem chkWrites_bind_iff {α : Type} (s : State) (x : Chk α) (f : α → Chk Res) :
    ChkWrites s (x >>= f) ↔ ∀ a, x = .ok a → ChkWrites s (f a) := by
  cases x with
  | error _ => exact ⟨fun _ _ h => (nomatch h), fun _ => chkWrites_error s _⟩
  | ok a => exact ⟨fun h a' ha => by cases ha; exact h, fun h => h a rfl⟩
theorem chkWrites_bind {α : Type} {s : State} {x : Chk α} {f : α → Chk Res} (h : ∀ a, ChkWrites s (f a)) : ChkWrites s (x >>= f) :=
  (chkWrites_bind_iff ..).mpr fun a _ => h a
@[simp] theorem chkWrites_map_iff {α : Type} (s : State) (x : Chk α) (f : α → Res) :
    ChkWrites s (f <$> x) ↔ ∀ a, x = .ok a → Res.Writes s (f a) := by
  cases x with
  | error _ => exact ⟨fun _ _ h => (nomatch h), fun _ => chkWrites_error s _⟩
  | ok a => exact ⟨fun h a' ha => by cases ha; exact (chkWrites_ok ..).mp h, fun h => (chkWrites_ok ..).mpr (h a rfl)⟩
@[simp] theorem chkWrites_ite (s : State) (c : Prop) [Decidable c] (a b : Chk Res) :
    ChkWrites s (if c then a else b) ↔ if c then ChkWrites s a else ChkWrites s b := by split <;> rfl
@[simp] theorem ofChk_writes (s : State) (c : Chk Res) : Res.Writes s (ofChk c) ↔ ChkWrites s c := by
  cases c <;> simp [ofChk]

/-- An outcome whose state, if there is one, has only been written to. -/
structure OutWrites (s : State) (o : Host.Outcome State Fault Refusal) : Prop where
  next : ∀ t, o = .next t → s.Writes t
@[simp] theorem outWrites_next (s t : State) : OutWrites s (.next t) ↔ s.Writes t :=
  ⟨fun h => h.next t rfl, fun h => ⟨fun t' ht => by cases ht; exact h⟩⟩
@[simp] theorem outWrites_fault (s : State) (f : Fault) : OutWrites s (.fault f) := ⟨fun _ h => nomatch h⟩
@[simp] theorem outWrites_refused (s : State) (r : Refusal) : OutWrites s (.refused r) := ⟨fun _ h => nomatch h⟩

theorem finish_writes {i : Instr} {e : Env} {s : State} (hs : s.Kept e.s) (w : Nat) {r : Res} (hr : Res.Writes s r) : s.Writes (finish i e w r) := by
  unfold finish
  cases r <;> simp_all

theorem preIssue_writes {i : Instr} {e : Env} {s : State} (hs : s.Kept e.s) {r : Res} (h : preIssue i e = some r) : Res.Writes s r := by
  unfold preIssue at h
  split_ifs at h
  case pos | pos | pos => cases h; trivial
  case pos => cases h; exact hs.writes
  case neg =>
    split at h
    · cases h; trivial
    · cases h

theorem Res.Writes.of_kept {s t : State} (hs : s.Kept t) {r : Res} (h : Res.Writes t r) : Res.Writes s r := by
  cases r with
  | fault => trivial
  | ok u | goto u | park _ u | faultIn u _ => exact hs.writes.trans h

/-- A word whose body only writes. -/
theorem issueWord_writes {i : Instr} {body : Env → Res} {s : State} (h : ∀ e, Res.Writes e.s (body e)) :
    OutWrites s (issueWord i body s) := by
  unfold issueWord
  split
  next => simp
  next p _ =>
    dsimp only
    split
    next => simp
    next e he =>
      have hs : s.Kept e.s := (envOf_s he).1 ▸ ⟨rfl, rfl⟩
      split
      · simp [implicitMarker]
      next r hr => exact (outWrites_next ..).mpr (finish_writes hs _ (preIssue_writes hs hr))
      · exact (outWrites_next ..).mpr (finish_writes hs _ (.of_kept hs (h e)))

@[simp] theorem regWord_writes (i : Instr) (body : Env → Chk Group) (s : State) : OutWrites s (regWord i body s) :=
  issueWord_writes fun e => by split <;> simp
theorem onceWord_writes {i : Instr} {body : Env → Chk Res} {s : State} (h : ∀ e, ChkWrites e.s (body e)) :
    OutWrites s (onceWord i body s) :=
  issueWord_writes fun e => by
    split
    · exact .refl _
    · exact (ofChk_writes ..).mpr (h e)

end Sys2Proof.Machine
end

section
/-! SUPPORT. Fuses and memory under the words of control flow, of the scratchpad path and of the ladder. -/

namespace Sys2Proof.Machine

/-! ### Control words -/

@[simp] theorem decide_writes (e : Env) (g : Group) (pt : Bool) (way : Nat → Way) (keep : Bool) :
    Res.Writes e.s (e.decide g pt way keep) := by
  simp [Env.decide]
@[simp] theorem branch_writes (e : Env) (g : Group) (f : BWord) (taken : Nat → Bool) (keep : Bool) :
    Res.Writes e.s (e.branch g f taken keep) := by
  unfold Env.branch; split <;> simp
@[simp] theorem callTo_writes (e : Env) (t : W64) : Res.Writes e.s (e.callTo t) := by simp [Env.callTo]

@[simp] theorem faultJoin_kept (s : State) (gid : Nat) (g : Group) (mask : Nat) : s.Kept (s.faultJoin gid g mask) := by
  unfold State.faultJoin
  dsimp only
  repeat' split
  all_goals simp
@[simp] theorem joinSettled_kept (s : State) (gid mask : Nat) (join : Group → Group) : s.Kept (s.joinSettled gid mask join) := by
  unfold State.joinSettled
  repeat' split
  all_goals simp
@[simp] theorem tryJoin_kept (s : State) (gid mask : Nat) : s.Kept (s.tryJoin gid mask) := by
  unfold State.tryJoin
  repeat' split
  all_goals simp
@[simp] theorem rejoin_kept (s : State) (gid : Nat) : s.Kept (s.rejoin gid) := by
  unfold State.rejoin; split <;> simp
@[simp] theorem parkJoin_writes (e : Env) (p : Park) : Res.Writes e.s (e.parkJoin p) := by simp [Env.parkJoin]

/-! ### The scratchpad path -/

theorem put_writes (e : Env) (s : State) (x : Place) (bs : List Byte) : s.Writes (e.put s x bs) := by
  unfold Env.put
  split
  · simp
  · exact s.hWrite_writes _
  · simp
  · simp
@[simp] theorem wipe_kept (e : Env) (s : State) (n : Nat) (ps : List Place) : s.Kept (e.wipe s n ps) := by simp [Env.wipe]

/-! ### The ladder -/

@[simp] theorem modGroups_kept (s : State) (tid : Nat) (f : Nat → Group → Group) : s.Kept (s.modGroups tid f) := ⟨rfl, rfl⟩
@[simp] theorem commit_kept (s : State) (tid : Nat) (d : Bool) : s.Kept (s.commit tid d) := by
  unfold State.commit; split <;> simp
@[simp] theorem joinOp_kept (s : State) (gid mask id : Nat) : s.Kept (s.joinOp gid mask id) := by
  unfold State.joinOp; split <;> simp
@[simp] theorem joinPhase_kept (s : State) (gid : Nat) (p : BitVec 16) : s.Kept (s.joinPhase gid p) := by simp [State.joinPhase]
@[simp] theorem catchUp_kept (s : State) (gid : Nat) : s.Kept (s.catchUp gid) := by
  unfold State.catchUp
  repeat' split
  all_goals simp
@[simp] theorem collPark_writes (e : Env) (check : Env → Chk Coll) : ChkWrites e.s (e.collPark check) := by
  unfold Env.collPark
  refine chkWrites_bind fun _ => chkWrites_bind fun _ => ?_
  split <;> simp
theorem collWord_writes (i : Instr) (check : Env → Chk Coll) (s : State) : OutWrites s (collWord i check s) :=
  issueWord_writes fun e => by simp
theorem controlJoin_writes (e : Env) : e.s.Writes e.controlJoin := by
  unfold Env.controlJoin
  refine foldl_writes (fun u o => ?_) _ _
  exact (u.hWrite_writes o.2.writes).trans ⟨rfl, id⟩

/-! ### The fault ring, the slots and the engines -/

theorem ringPut_writes (s : State) (cid : Nat) (bs : List Byte) : s.Writes (s.ringPut cid bs) := by
  unfold State.ringPut
  repeat' split
  · simp
  · simp
  · exact s.hWrite_writes _
theorem ringDrain_writes (s : State) (cid : Nat) : s.Writes (s.ringDrain cid) := by
  unfold State.ringDrain
  split
  · simp
  · exact foldl_writes (fun u bs => ringPut_writes u cid bs) _ (s.putC cid _)
@[simp] theorem freshOpid_kept (s : State) (cid : Nat) : s.Kept (s.freshOpid cid).2 := by
  unfold State.freshOpid; split <;> simp
@[simp] theorem skipQueues_kept (s : State) (tid : Nat) : s.Kept (s.skipQueues tid) := by
  unfold State.skipQueues; split <;> simp
@[simp] theorem fillSlot_kept (s : State) (tid : Nat) (slot : Option (Nat × W32)) (status : Nat) (count : Option Nat) :
    s.Kept (s.fillSlot tid slot status count) := by
  unfold State.fillSlot; split <;> simp
@[simp] theorem noteReads_kept (s : State) (tid : Nat) (lines : List Nat) : s.Kept (s.noteReads tid lines) := ⟨rfl, rfl⟩
@[simp] theorem markLines_kept (s : State) (o : EngOp) (late : Bool) : s.Kept (s.markLines o late) := by simp [State.markLines]
@[simp] theorem fork_kept (e : Env) (s : State) (sp : Spec) (lines : List Nat) (op : EngOp) : s.Kept (e.fork s sp lines op) := by
  simp [Env.fork]
@[simp] theorem sendFlit_kept (s : State) (f : FlitData) : s.Kept (s.sendFlit f) := ⟨rfl, rfl⟩
@[simp] theorem collBusy_kept (s : State) (cid entry : Nat) : s.Kept (s.collBusy cid entry) := ⟨rfl, rfl⟩
theorem endOp_writes (s : State) (id : Nat) (o : EngOp) (ps : List Put) (status : Nat) (count : Option Nat) :
    s.Writes (s.endOp id o ps status count) := by
  unfold State.endOp
  dsimp only
  generalize EngOp.mk .. = o'
  have hmark : s.Kept (if (status != 4) = true then s.markLines o true else s) := by simp
  generalize (if (status != 4) = true then s.markLines o true else s) = t at hmark
  generalize (putsToW (ps.filter fun p => !p.chip && outerKey p.at')).outer = w
  have hout : t.Writes (if (status != 4 && w.b != []) = true then
      (remoteRuns w.b).foldl (fun s r => s.sendFlit (.remote r.1 r.2)) (t.hWrite w) else t) := by
    split
    · exact (t.hWrite_writes w).trans (foldl_kept (fun u x => sendFlit_kept u _) _ _).writes
    · exact .refl t
  generalize (if (status != 4 && w.b != []) = true then _ else t) = u at hout
  refine hmark.writes.trans (hout.trans ?_)
  split <;> simp

/-! ### Copies -/

theorem copyRun_writes (e : Env) (sp : Spec) (rs : List (Nat × Nat × Nat)) (decl handle : Nat) (priv : Bool) :
    ChkWrites e.s (e.copyRun sp rs decl handle priv) := by
  unfold Env.copyRun
  dsimp only
  refine chkWrites_bind fun _ => chkWrites_bind fun x => ?_
  generalize EngOp.mk .. = op
  have hfork : e.s.Kept (e.fork (e.s.putT e.tid x.2) sp x.1 op) := by simp
  generalize e.fork (e.s.putT e.tid x.2) sp x.1 op = t at hfork
  split_ifs
  · simp
  · simp
  · split
    · exact (chkWrites_pure ..).mpr (hfork.writes.trans (endOp_writes ..))
    · exact (chkWrites_pure ..).mpr hfork.writes
  · exact (chkWrites_pure ..).mpr hfork.writes
theorem laneCopy_writes (e : Env) (f : RWord) (gather : Bool) : ChkWrites e.s (e.laneCopy f gather) := by
  unfold Env.laneCopy
  exact chkWrites_bind fun _ => chkWrites_bind fun _ => chkWrites_bind fun _ => chkWrites_bind fun _ => copyRun_writes _ _ _ _ _ _
@[simp] theorem mcstPair_kept (s : State) (tids : List Nat) (k : Nat) : s.Kept (s.mcstPair tids k) := by
  unfold State.mcstPair
  split
  · simp
  dsimp only
  split
  · simp
  split
  · refine foldl_kept (fun u t => ?_) tids s
    repeat' split
    all_goals simp
  · simp
@[simp] theorem giveBack_kept (s : State) (tid : Nat) (slot : Option (Nat × W32)) : s.Kept (s.giveBack tid slot) := by
  unfold State.giveBack
  repeat' split
  all_goals simp
@[simp] theorem mcstFault_kept (s : State) (gid : Nat) (pc : W64) : s.Kept (s.mcstFault gid pc) := by
  unfold State.mcstFault
  repeat' split
  all_goals simp
@[simp] theorem mcstShift_kept (s : State) (tid k : Nat) : s.Kept (s.mcstShift tid k) := ⟨rfl, rfl⟩
@[simp] theorem mcstRefuse_kept (n : Nat) (s : State) (tid k root : Nat) : s.Kept (s.mcstRefuse tid k root n) := by
  induction n generalizing s with
  | zero => simp [State.mcstRefuse]
  | succ n ih =>
    unfold State.mcstRefuse
    split
    · simp
    · exact State.Kept.trans (by simp) (ih _)
@[simp] theorem bytesRun_writes (e : Env) (sp : Spec) (dst : Nat) (bs : List (Option Byte)) (status : Nat) (priv : Bool) :
    ChkWrites e.s (e.bytesRun sp dst bs status priv) := by
  unfold Env.bytesRun
  refine chkWrites_bind fun _ => ?_
  dsimp only
  split_ifs <;> simp
@[simp] theorem queueJob_kept (s : State) (core id chunks : Nat) : s.Kept (s.queueJob core id chunks) := by simp [State.queueJob]
@[simp] theorem stealChunk_kept (s : State) (k : Nat) : s.Kept (s.stealChunk k) := by
  unfold State.stealChunk
  dsimp only
  repeat' split
  all_goals simp

/-! ### Collectives -/

@[simp] theorem collPart_kept (s : State) (cid entry step : Nat) (p : Part) : s.Kept (s.collPart cid entry step p) := ⟨rfl, rfl⟩
@[simp] theorem collSend_kept (s : State) (cid entry step : Nat) (p : Part) : s.Kept (s.collSend cid entry step p) := by
  unfold State.collSend
  dsimp only
  split <;> simp
@[simp] theorem collEnd_kept (s : State) (id status word : Nat) (bytes : List Byte) : s.Kept (s.collEnd id status word bytes) := by
  unfold State.collEnd
  repeat' split
  all_goals simp
theorem collFinish_writes (s : State) (id : Nat) (o : EngOp) (c : CollOp) (status : Nat) (bytes : List Byte) :
    s.Writes (s.collFinish id o c status bytes) := endOp_writes ..
@[simp] theorem collDone_kept (s : State) (cid entry step : Nat) (rs : List (Part × Nat × Nat × List Byte)) :
    s.Kept (s.collDone cid entry step rs) := by
  unfold State.collDone
  exact foldl_kept (fun u r => by split <;> simp) rs s

end Sys2Proof.Machine
end

section
/-! SUPPORT. Fuses and memory under the scratchpad's atomics, the rays and builds, the matrix units, the match of the team-collective words
and the rounds of a grid. -/

namespace Sys2Proof.Machine

/-! ### Places in turn, and the slots of token-applied words -/

theorem rmw_writes (e : Env) (ordered : Bool) (n : Nat) (s : State) (x : Place) (new : Nat → Option Nat) (op : Nat → GOp) :
    s.Writes (e.rmw ordered n s x new op).2 := by
  unfold Env.rmw
  split
  · simp
  split
  · dsimp only
    split
    · exact put_writes ..
    · simp
  split
  · simp
  · dsimp only
    split <;> simp
theorem rmwAll_writes (s : State) (ps : List Place) {one : State → Place → Nat × State} (h : ∀ (u : State) x, u.Writes (one u x).2) :
    s.Writes (rmwAll s ps one).2 := by
  unfold rmwAll
  exact List.foldlRecOn (motive := fun acc : List (Nat × Nat) × State => s.Writes acc.2) ps _ (.refl s) fun acc hacc x _ => hacc.trans (h _ x)
theorem rmwAll_modG_writes {s t : State} (ht : s.Kept t) (ps : List Place) {one : State → Place → Nat × State}
    (h : ∀ (u : State) x, u.Writes (one u x).2) (gid : Nat) (f : Group → Group) : s.Writes ((rmwAll t ps one).2.modG gid f) :=
  ht.writes.trans (rmwAll_writes t ps h)
@[simp] theorem tokenSlot_kept (e : Env) (s : State) (sp : Spec) (handle decl : Nat) : s.Kept (e.tokenSlot s sp handle decl).1 := by
  unfold Env.tokenSlot
  dsimp only
  repeat' split
  all_goals simp

/-! ### Rays and builds -/

theorem logRay_writes (s : State) (lane : Nat) (r : Ray) : s.Writes (s.logRay lane r) := by
  unfold State.logRay
  split
  · simp
  split
  · simp
  split
  · dsimp only
    split
    · simp
    split
    · split
      · exact endOp_writes ..
      · simp
    · simp
  · simp
@[simp] theorem asterNote_kept (e : Env) (s : State) (r : Ray) : s.Kept (e.asterNote s r) := by
  unfold Env.asterNote
  split
  · dsimp only
    split
    · simp
    · split <;> simp
  · simp
theorem rayEvents_writes (e : Env) (i : Instr) (f : RWord) (s : State) (rs : List (Nat × Ray × Option (Nat × Nat) × Bool)) :
    s.Writes (e.rayEvents i f s rs) := by
  unfold Env.rayEvents
  refine State.Writes.trans ?_ (foldl_writes (fun u r => ?_) rs _)
  · simp
  · split
    · exact (logRay_writes u r.1 r.2.1).trans (asterNote_kept ..).writes
    · exact .refl u
theorem exitRays_writes (e : Env) (s : State) (lanes : Nat) : s.Writes (e.exitRays s lanes) := by
  unfold Env.exitRays
  refine foldl_writes (fun u l => ?_) _ s
  dsimp only
  split
  · exact (State.Kept.writes ⟨rfl, rfl⟩).trans (logRay_writes _ l _)
  · exact .refl u
theorem bvhEnd_writes (s : State) (id : Nat) (o : EngOp) (r : Except Verdict BvhOut) : s.Writes (s.bvhEnd id o r) := by
  unfold State.bvhEnd
  split
  · simp
  · exact (noteReads_kept ..).writes.trans (endOp_writes ..)
theorem bvhb_writes (e : Env) (f : RWord) (refit : Bool) : ChkWrites e.s (e.bvhb f refit) := by
  unfold Env.bvhb
  refine chkWrites_bind fun _ => ?_
  dsimp only
  iterate 5 refine chkWrites_bind fun _ => ?_
  split
  · simp
  · split <;> simp
@[simp] theorem collLocal_kept (s : State) (id : Nat) (o : EngOp) (c : CollOp) : s.Kept (s.collLocal id o c) := collSend_kept ..
@[simp] theorem giveOpid_kept (s : State) (o : EngOp) : s.Kept (s.giveOpid o).2 := by
  unfold State.giveOpid; split <;> simp

/-! ### Tiles -/

@[simp] theorem logBad_kept (s : State) (gid : Nat) (pc : W64) (l : List W64) : s.Kept (s.logBad gid pc l) := by
  unfold State.logBad
  split <;> simp
@[simp] theorem tileStep_kept (s : State) (gid : Nat) : s.Kept (s.tileStep gid) := by
  unfold State.tileStep
  split
  · simp
  split
  · simp
  · dsimp only
    split <;> simp
@[simp] theorem tileFlush_kept (s : State) (gid : Nat) : s.Kept (s.tileFlush gid) := by
  unfold State.tileFlush
  split <;> simp
@[simp] theorem tilePush_kept (s : State) (gid : Nat) (op : TileOp) : s.Kept (s.tilePush gid op) := ⟨rfl, rfl⟩
@[simp] theorem drain_kept (e : Env) (k : Nat) (read : Tile → List W64) : e.s.Kept (e.drain k read).1 := by simp [Env.drain]
@[simp] theorem putOwn_kept (e : Env) (s : State) (a : Nat) (bs : List Byte) : s.Kept (e.putOwn s a bs) := by simp [Env.putOwn]
@[simp] theorem wipeRanges_kept (e : Env) (s : State) (rs : List (Nat × Nat)) : s.Kept (e.wipeRanges s rs) := wipe_kept ..
@[simp] theorem reserveWanted_kept (s : State) (tid gid q : Nat) : s.Kept (s.reserveWanted tid gid q) := by
  unfold State.reserveWanted
  refine foldl_kept (fun u o => ?_) _ s
  repeat' split
  all_goals simp
@[simp] theorem mseqOn_writes (e : Env) (s : State) (q : Nat) : Res.Writes s (e.mseqOn s q) := by
  unfold Env.mseqOn
  dsimp only
  split <;> simp

/-! ### The match -/

@[simp] theorem tClose_kept (s : State) (tid : Nat) (all : Bool) : s.Kept (s.tClose tid all).1 := by
  unfold State.tClose
  split <;> simp
@[simp] theorem faultAt_kept (s : State) (gid code : Nat) (closing : Bool) : s.Kept (s.faultAt gid code closing) := by
  unfold State.faultAt
  split <;> simp
@[simp] theorem releaseTo_kept (s : State) (gid : Nat) (t : W64) : s.Kept (s.releaseTo gid t) := by
  unfold State.releaseTo
  split <;> simp
@[simp] theorem goOn_kept (s : State) (tid : Nat) (ovf : List Nat) : s.Kept (s.goOn tid ovf) := by simp [State.goOn]
@[simp] theorem runTiles_kept (s : State) (tid : Nat) : s.Kept (s.runTiles tid) := by simp [State.runTiles]
@[simp] theorem cmitAll_kept (s : State) (tid : Nat) : s.Kept (s.cmitAll tid) := by
  unfold State.cmitAll
  split <;> simp
@[simp] theorem abortT_kept (s : State) (tid : Nat) : s.Kept (s.abortT tid) := by
  unfold State.abortT
  split
  · refine State.Kept.trans ?_ (foldl_kept (fun u g => ?_) _ _)
    · exact ⟨rfl, rfl⟩
    · split <;> simp
  · simp
@[simp] theorem parkAll_kept (s : State) (tid : Nat) (p : Park) (ovf : List Nat) : s.Kept (s.parkAll tid p ovf) := by
  simp [State.parkAll]
theorem qinit_kept {s t : State} {tid a b : Nat} (h : s.qinit tid a b = .ok t) : s.Kept t := by
  unfold State.qinit at h
  split at h
  · dsimp only at h
    split at h
    · cases h
    split at h
    · cases h
    · cases h; exact ⟨rfl, rfl⟩
  · cases h; exact ⟨rfl, rfl⟩
@[simp] theorem collEffect_kept (s : State) (tid : Nat) (c : Coll) : s.Kept (s.collEffect tid c) := by
  cases c with
  | qinit a b =>
    simp only [State.collEffect]
    split
    next t ht => exact (qinit_kept ht).trans (by simp)
    next => simp
  | _ => simp [State.collEffect]

/-! ### Rounds and launches -/

@[simp] theorem slotBytesAt_kept (s : State) (tid : Nat) (slot : Option (Nat × W32)) (bs : List Byte) : s.Kept (s.slotBytesAt tid slot bs) := by
  unfold State.slotBytesAt
  repeat' split
  all_goals simp
@[simp] theorem gridPut_kept (s : State) (lid va : Nat) (bs : List (Option Byte)) (early : Bool) : s.Kept (s.gridPut lid va bs early) :=
  ⟨rfl, rfl⟩
@[simp] theorem form_kept (s : State) (lid : Nat) (node : LRec) (b : Nat) (fixed : Bool) : s.Kept (s.form lid node b fixed) := by
  unfold State.form
  split <;> simp
@[simp] theorem fixFormed_kept (s : State) (lid : Nat) : s.Kept (s.fixFormed lid) := by
  unfold State.fixFormed
  split <;> simp
theorem applyEmit_kept {s t : State} {lid gid : Nat} {early : Bool} {node : LRec} {bytes : List (Option Byte)} {at' : FaultRec}
    (h : s.applyEmit lid gid early node bytes at' = some t) : s.Kept t := by
  unfold State.applyEmit at h
  split at h
  · cases h; simp
  · extract_lets cid aux i bc b blk put s₁ nrec s₂ s₃ s₄ nb at h
    have hput : ∀ (u : State) va n x, u.Kept (put u va n x) := fun u va n x => gridPut_kept ..
    split at h
    · cases h
    split at h
    · cases h; exact ⟨rfl, rfl⟩
    · have h₁ : s.Kept s₁ := by
        show s.Kept (if i % bc == 0 then put (put s blk 4 0) (blk + 4) 4 b else s)
        split
        · exact (hput _ _ _ _).trans (hput _ _ _ _)
        · simp
      have h₃ : s.Kept s₃ := (h₁.trans (gridPut_kept ..)).trans ((hput _ _ _ _).trans (hput _ _ _ _))
      have h₄ : s.Kept s₄ := h₃.trans ⟨State.modL_fuse .., State.modL_mem ..⟩
      clear_value nb s₄ nrec
      split at h
      · cases h
        exact h₄.trans ((form_kept ..).trans (hput _ _ _ _))
      · cases h
        exact h₄
theorem applyTok_kept {s t : State} {lid tid gid : Nat} {early : Bool} {op : TokOp} (h : s.applyTok lid tid early gid op = some t) :
    s.Kept t := by
  unfold State.applyTok at h
  split at h
  · cases h; simp
  · cases op with
    | emit node bytes at' => exact applyEmit_kept h
    | cpyc lanes o ty sat fetch slot hold =>
      cases h
      split <;> simp
    | _ => cases h; simp
@[simp] theorem applyToks_kept (s : State) (lid tid : Nat) (early : Bool) (l : List (Nat × TokOp)) :
    s.Kept (s.applyToks lid tid early l).1 := by
  induction l generalizing s with
  | nil => simp [State.applyToks]
  | cons x l ih =>
    unfold State.applyToks
    split
    next t ht => exact (applyTok_kept ht).trans (ih t)
    next => simp
@[simp] theorem applyRound_kept (s : State) (lid k t : Nat) : s.Kept (s.applyRound lid k t) := by
  unfold State.applyRound
  dsimp only
  split
  · simp
  split
  · simp
  · split <;> simp
@[simp] theorem storeRound_kept (s : State) (lid k t : Nat) : s.Kept (s.storeRound lid k t) := by
  unfold State.storeRound
  split <;> simp
@[simp] theorem raiseDue_kept (s : State) (due : List (Nat × Nat × Nat)) : s.Kept (s.raiseDue due) := by simp [State.raiseDue]
@[simp] theorem leaveGrid_kept (s : State) (t : Team) (taker : Option Nat) (gid : Nat) (g : Group) : s.Kept (s.leaveGrid t taker gid g) := by
  unfold State.leaveGrid
  split <;> simp
@[simp] theorem dClose_kept (s : State) (lid : Nat) : s.Kept (s.dClose lid) := by
  unfold State.dClose
  split
  · simp
  · dsimp only
    refine State.Kept.trans ?_ (foldl_kept (fun u t => foldl_kept (fun v g => ?_) _ u) _ _)
    · simp
    · split <;> simp
@[simp] theorem releaseEntries_kept (s : State) (cid : Nat) (es : List Nat) : s.Kept (s.releaseEntries cid es) := by
  simp [State.releaseEntries]
@[simp] theorem dropTeams_kept (s : State) (lid : Nat) : s.Kept (s.dropTeams lid) := by simp [State.dropTeams]
@[simp] theorem failToks_kept (s : State) (lid : Nat) : s.Kept (s.failToks lid) := by simp [State.failToks]
@[simp] theorem cancel_kept (s : State) (lid status : Nat) : s.Kept (s.cancel lid status) := by
  unfold State.cancel
  split <;> simp
@[simp] theorem ctlPut_kept (s : State) (gid : Nat) (d : Opd) (x : Nat) : s.Kept (s.ctlPut gid d x) := ⟨rfl, rfl⟩
theorem lwait_writes (e : Env) (f : RWord) (cancel : Bool) : ChkWrites e.s (e.lwait e.s f cancel) := by
  unfold Env.lwait
  extract_lets key n lid s
  refine chkWrites_bind fun _ => ?_
  have hs : e.s.Kept s := by
    show e.s.Kept (if cancel && ((tget lid e.s.launches).any fun l => !l.isDone) then e.s.cancel lid 4 else e.s)
    simp
  split
  · simp [hs.1, hs.2]
  split
  · split <;> simp [hs.1, hs.2]
  · split <;> simp [hs.1, hs.2]
@[simp] theorem makeEligible_kept (s : State) (lid : Nat) (l : Launch) : s.Kept (s.makeEligible lid l) := by simp [State.makeEligible]
@[simp] theorem promoteOne_kept (s : State) (lid : Nat) : s.Kept (s.promoteOne lid) := by
  unfold State.promoteOne
  repeat' split
  all_goals simp
@[simp] theorem admitTeam_kept (s : State) (lid : Nat) (l : Launch) (t : Nat) : s.Kept (s.admitTeam lid l t) := by simp [State.admitTeam]
@[simp] theorem retireJoin_kept (s : State) (gid : Nat) (t : Team) : s.Kept (s.retireJoin gid t) := by simp [State.retireJoin]
@[simp] theorem retireTeam_kept (s : State) (tid : Nat) : s.Kept (s.retireTeam tid) := by simp [State.retireTeam]

end Sys2Proof.Machine
end

section
/-! SUPPORT. Fuses and memory under every word. -/

namespace Sys2Proof.Machine

/-! ### Control words -/

theorem bra_writes (f : BWord) (s : State) : OutWrites s (execBra f s) := issueWord_writes fun _ => branch_writes ..
theorem bkz_writes (f : BWord) (s : State) : OutWrites s (execBkz f s) := issueWord_writes fun _ => branch_writes ..
theorem bknz_writes (f : BWord) (s : State) : OutWrites s (execBknz f s) := issueWord_writes fun _ => branch_writes ..
theorem loop_writes (f : BWord) (s : State) : OutWrites s (execLoop f s) := issueWord_writes fun _ => branch_writes ..
theorem jmpi_writes (f : RWord) (s : State) : OutWrites s (execJmpi f s) := issueWord_writes fun e => by split <;> simp
theorem call_writes (f : BWord) (s : State) : OutWrites s (execCall f s) := issueWord_writes fun e => by split <;> simp
theorem calli_writes (f : RWord) (s : State) : OutWrites s (execCalli f s) := issueWord_writes fun e => by
  dsimp only
  split
  · simp
  · split <;> simp
theorem ret_writes (f : RWord) (s : State) : OutWrites s (execRet f s) := issueWord_writes fun e => by simp
theorem regang_writes (f : RWord) (s : State) : OutWrites s (execRegang f s) := issueWord_writes fun e => by simp
theorem ksync_writes (f : RWord) (s : State) : OutWrites s (execKsync f s) := issueWord_writes fun e => by simp
theorem exit_writes (f : RWord) (s : State) : OutWrites s (execExit f s) := issueWord_writes fun e => by
  dsimp only
  split
  · simp
  · refine (Res.writes_goto ..).mpr (State.Writes.trans ?_ ((exitRays_writes ..).trans (rejoin_kept ..).writes))
    simp

/-! ### The scratchpad path -/

theorem ld_writes (f : MWord) (s : State) : OutWrites s (execLd f s) := issueWord_writes fun e => by simp
theorem st_writes (f : MWord) (s : State) : OutWrites s (execSt f s) := issueWord_writes fun e => by
  refine (ofChk_writes ..).mpr (chkWrites_bind fun ps => chkWrites_bind fun _ => (chkWrites_pure ..).mpr ?_)
  have hput : e.s.Writes (ps.foldl (fun s x => e.put s x (leBytes (Width.bytes f.width) (e.dValue f.d (Width.bytes f.width) x.p)))
      (if e.g.isCtl then e.s else e.s.putG e.gid (e.g.takeLines (e.placeLines (Width.bytes f.width) ps) 0))) :=
    State.Writes.trans (by simp) (foldl_writes (fun u x => put_writes e u x _) ps _)
  refine (Res.writes_ok ..).mpr (hput.trans ?_)
  simp
theorem atom_writes (f : MWord) (s : State) : OutWrites s (execAtom f s) := issueWord_writes fun e => by
  refine (ofChk_writes ..).mpr (chkWrites_bind fun _ => chkWrites_bind fun ps => ?_)
  extract_lets val
  refine chkWrites_bind fun _ => chkWrites_bind fun _ => ?_
  generalize e.g.takeLines _ _ = g
  split
  · simp
  · have h := rmwAll_modG_writes (s := e.s) (t := e.s.putG e.gid g) (by simp) ps
      (fun u x => rmw_writes e f.sx (Width.bytes f.width) u x
        (fun old => some (atomNew (Width.bytes f.width) f.op old (val x.p)))
        fun _ => GOp.atom x.off (Width.bytes f.width) f.op (BitVec.ofNat 64 (val x.p))) e.gid
    exact (chkWrites_pure ..).mpr ((Res.writes_ok ..).mpr (h _))
theorem cas_writes (f : MWord) (s : State) : OutWrites s (execCas f s) := issueWord_writes fun e => by
  refine (ofChk_writes ..).mpr (chkWrites_bind fun _ => chkWrites_bind fun ps => ?_)
  extract_lets
  refine chkWrites_bind fun _ => chkWrites_bind fun _ => ?_
  generalize e.g.takeLines _ _ = g
  split
  · simp
  · extract_lets t
    have ht : e.s.Kept t := by simp [t]
    clear_value t
    have h := rmwAll_modG_writes ht ps
      (fun u x => rmw_writes e f.sx (Width.bytes f.width) u x
        (fun old => if old == low (8 * Width.bytes f.width) (e.dValue f.d (Width.bytes f.width) x.p) then
          some (e.casNew f.d (Width.bytes f.width) x.p) else none)
        fun v => GOp.store x.off (BitVec.ofNat 32 v)) e.gid
    exact (chkWrites_pure ..).mpr ((Res.writes_ok ..).mpr (h _))
theorem red_writes (f : MWord) (s : State) : OutWrites s (execRed f s) := issueWord_writes fun e => by
  refine (ofChk_writes ..).mpr (chkWrites_bind fun ps => chkWrites_bind fun _ => (chkWrites_pure ..).mpr ((Res.writes_ok ..).mpr ?_))
  refine State.Writes.trans ?_ (wipe_kept ..).writes
  refine State.Writes.trans (State.Kept.writes ⟨rfl, rfl⟩) (foldl_writes (fun u x => ?_) _ _)
  split
  · exact (put_writes ..).trans (State.Kept.writes ⟨rfl, rfl⟩)
  · simp

/-! ### The ladder and the barriers -/

theorem cmitT_writes (f : RWord) (s : State) : OutWrites s (execCmitT f s) := issueWord_writes fun e => by simp
theorem abrtG_writes (f : BWord) (s : State) : OutWrites s (execAbrtG f s) := issueWord_writes fun e => by simp
theorem rfshT_writes (f : RWord) (s : State) : OutWrites s (execRfshT f s) := issueWord_writes fun e => by simp
theorem rfshD_writes (f : RWord) (s : State) : OutWrites s (execRfshD f s) := issueWord_writes fun e => by
  refine (ofChk_writes ..).mpr ?_
  split
  · split
    · simp
    · dsimp only
      split <;> simp
  · simp
theorem fence_writes (f : RWord) (s : State) : OutWrites s (execFence f s) := issueWord_writes fun e => by
  split
  · simp
  split
  · exact (Res.writes_ok ..).mpr (controlJoin_writes e)
  · simp
theorem bar_writes (f : RWord) (s : State) : OutWrites s (execBar f s) := issueWord_writes fun e => by
  refine (ofChk_writes ..).mpr (chkWrites_bind fun _ => chkWrites_bind fun _ => ?_)
  split <;> simp
theorem cbar_writes (f : RWord) (s : State) : OutWrites s (execCbar f s) := issueWord_writes fun e => by simp
theorem arrv_writes (f : RWord) (s : State) : OutWrites s (execArrv f s) := issueWord_writes fun e => by
  refine (ofChk_writes ..).mpr (chkWrites_bind fun _ => chkWrites_bind fun _ => ?_)
  split <;> simp
theorem wait_writes (f : RWord) (s : State) : OutWrites s (execWait f s) := issueWord_writes fun e => by
  refine (ofChk_writes ..).mpr (chkWrites_bind fun _ => chkWrites_bind fun _ => chkWrites_bind fun _ => ?_)
  dsimp only
  split
  · simp
  split
  · simp
  · refine chkWrites_bind fun _ => ?_
    split <;> simp
theorem gridBarrier_writes (e : Env) (c : Coll) : ChkWrites e.s (e.gridBarrier c) := by simp [Env.gridBarrier]
theorem gbar_writes (f : RWord) (s : State) : OutWrites s (execGbar f s) :=
  issueWord_writes fun _ => (ofChk_writes ..).mpr (gridBarrier_writes _ _)
theorem tsbar_writes (f : RWord) (s : State) : OutWrites s (execTsbar f s) :=
  issueWord_writes fun _ => (ofChk_writes ..).mpr (gridBarrier_writes _ _)

/-! ### Copies and jobs -/

theorem cpy_writes (f : RWord) (s : State) : OutWrites s (execCpy f s) := onceWord_writes fun e => by
  exact chkWrites_bind fun _ => chkWrites_bind fun _ => chkWrites_bind fun _ => copyRun_writes _ _ _ _ _ _
theorem cpyc_writes (f : RWord) (s : State) : OutWrites s (execCpyc f s) := onceWord_writes fun e => by
  extract_lets fetch w
  refine chkWrites_bind fun v => chkWrites_bind fun sp => ?_
  extract_lets addr handle jp2 jp1
  have h2 : ∀ u, ChkWrites e.s (jp2 u) := fun u => by
    refine chkWrites_bind fun keys => ?_
    clear_value handle addr
    dsimp only
    split
    · simp
    · split
      · refine chkWrites_bind fun _ => ?_
        split
        · simp
        · split <;> simp
      · split
        · simp
        · split <;> simp
  have h1 : ∀ u, ChkWrites e.s (jp1 u) := fun u => by
    dsimp only [jp1]
    clear_value jp2
    split
    · simp
    · exact h2 _
  clear_value jp1
  split
  · exact chkWrites_bind fun _ => h1 _
  · exact h1 _
theorem mcst_writes (f : RWord) (s : State) : OutWrites s (execMcst f s) := onceWord_writes fun e => by
  extract_lets n tids me open' k since
  split
  · split <;> simp
  · refine chkWrites_bind fun v => ?_
    extract_lets root len dsts rows
    refine chkWrites_bind fun _ => chkWrites_bind fun sp => ?_
    iterate 6 refine chkWrites_bind fun _ => ?_
    clear_value open' dsts rows
    split
    · simp
    split
    · simp
    split
    · simp
    · extract_lets op s₁ s₂
      have h₁ : e.s.Kept s₁ := by simp [s₁]
      clear_value s₁
      have h₂ : e.s.Kept s₂ := by
        refine h₁.trans ?_
        simp [s₂]
      split <;> simp [h₂.1, h₂.2]
theorem csto_writes (f : RWord) (s : State) : OutWrites s (execCsto f s) := onceWord_writes fun e => by simp
theorem cldx_writes (f : RWord) (s : State) : OutWrites s (execCldx f s) := onceWord_writes fun e => by
  refine chkWrites_bind fun v => ?_
  extract_lets most vals
  iterate 4 refine chkWrites_bind fun _ => ?_
  extract_lets past op
  clear_value op vals
  split
  · refine chkWrites_bind fun x => ?_
    split
    split
    · simp
    · split <;> simp
  · generalize cldxBytes _ _ _ = r
    obtain ⟨bs, st⟩ := r
    dsimp -zeta only
    extract_lets refused
    clear_value refused
    split <;> exact bytesRun_writes _ _ _ _ _ _
theorem pfch_writes (f : RWord) (s : State) : OutWrites s (execPfch f s) := onceWord_writes fun e => by simp
theorem bulk_writes (f : RWord) (s : State) : OutWrites s (execBulk f s) := onceWord_writes fun e => by
  refine chkWrites_bind fun v => ?_
  extract_lets n ends rows id dsts jp
  have hjp : ∀ sp, ChkWrites e.s (jp sp) := fun sp => by
    dsimp -zeta only [jp]
    extract_lets op finish jp'
    have hfin : ∀ t : State, e.s.Kept t → e.s.Writes (finish t) := fun t ht => by
      dsimp only [finish]
      split
      · split
        · exact ht.writes.trans (endOp_writes ..)
        · exact ht.writes
      · exact (ht.trans (queueJob_kept ..)).writes
    clear_value finish op
    have hjp' : ∀ u, ChkWrites e.s (jp' u) := fun u => by
      dsimp only [jp']
      split
      · exact (chkWrites_pure ..).mpr (hfin _ (fork_kept ..))
      · refine chkWrites_bind fun x => ?_
        split
        · simp
        · exact (chkWrites_pure ..).mpr (hfin _ (by simp))
    clear_value jp'
    split
    · exact chkWrites_bind fun _ => hjp' _
    split
    · exact chkWrites_bind fun _ => hjp' _
    · exact hjp' _
  clear_value jp
  refine chkWrites_bind fun _ => chkWrites_bind fun _ => ?_
  split <;> exact chkWrites_bind fun _ => hjp _
theorem coll_writes (f : RWord) (s : State) : OutWrites s (execColl f s) := onceWord_writes fun e => by
  refine chkWrites_bind fun v => ?_
  extract_lets i x count root op esz rank n src srcs dsts
  refine chkWrites_bind fun _ => chkWrites_bind fun _ => chkWrites_bind fun sp => ?_
  extract_lets jp
  have hjp : ∀ u, ChkWrites e.s (jp u) := fun u => by
    clear_value dsts srcs
    iterate 4 refine chkWrites_bind fun _ => ?_
    split
    split
    · simp
    · extract_lets step t co o s₁ s₂ s₃ s₄
      have h₂ : e.s.Kept s₂ := by simp [s₂, s₁]
      clear_value s₂
      have h₄ : e.s.Kept s₄ := h₂.trans (by simp [s₄, s₃])
      clear_value s₄
      split
      · exact (chkWrites_pure ..).mpr ((Res.writes_ok ..).mpr h₂.writes)
      split
      · exact (chkWrites_pure ..).mpr ((Res.writes_ok ..).mpr (h₄.writes.trans (collFinish_writes ..)))
      · exact (chkWrites_pure ..).mpr ((Res.writes_ok ..).mpr h₄.writes)
  clear_value jp
  split
  · exact chkWrites_bind fun _ => hjp _
  · exact hjp _

/-! ### Queues, launches and messages -/

theorem qpush_writes (f : RWord) (s : State) : OutWrites s (execQpush f s) := onceWord_writes fun e => by simp
theorem qpop_writes (f : RWord) (s : State) : OutWrites s (execQpop f s) := onceWord_writes fun e => by
  refine chkWrites_bind fun _ => chkWrites_bind fun _ => chkWrites_bind fun q => chkWrites_bind fun x => chkWrites_bind fun _ => ?_
  split
  · simp
  split
  · simp
  extract_lets d lines g₁ seen g₂ s₁ s₂
  have h₁ : e.s.Kept s₁ := by simp [s₁]
  clear_value s₁
  have h₂ : e.s.Kept s₂ := h₁.trans (by dsimp only [s₂]; split <;> simp)
  clear_value s₂ lines
  refine chkWrites_bind fun _ => chkWrites_bind fun _ => ?_
  simp [h₂.1, h₂.2]
theorem qpeek_writes (f : RWord) (s : State) : OutWrites s (execQpeek f s) := onceWord_writes fun e => by simp
theorem qrel_writes (f : RWord) (s : State) : OutWrites s (execQrel f s) := onceWord_writes fun e => by simp
theorem emit_writes (f : RWord) (s : State) : OutWrites s (execEmit f s) := onceWord_writes fun e => by
  extract_lets snap
  refine chkWrites_bind fun _ => chkWrites_bind fun v => ?_
  extract_lets node src
  refine chkWrites_bind fun key => ?_
  split
  iterate 4 refine chkWrites_bind fun _ => ?_
  split <;> simp
theorem launch_writes (f : RWord) (s : State) : OutWrites s (execLaunch f s) := issueWord_writes fun e => by
  refine (ofChk_writes ..).mpr ?_
  split
  · simp
  have hj := controlJoin_writes e
  generalize e.controlJoin = s₁ at hj
  extract_lets s₂ a n
  refine chkWrites_bind fun _ => chkWrites_bind fun bs => ?_
  split
  refine chkWrites_bind fun _ => chkWrites_bind fun ds => ?_
  split
  · simp
  · split
    · exact (chkWrites_pure ..).mpr ((Res.writes_park ..).mpr hj)
    · split
      refine (chkWrites_pure ..).mpr ((Res.writes_ok ..).mpr (State.Writes.trans (t := s₂) hj ?_))
      simp
theorem lwaitWord_writes (f : RWord) (s : State) : OutWrites s (execLwait f s) :=
  issueWord_writes fun e => (ofChk_writes ..).mpr (lwait_writes e f false)
theorem lwaitCancelWord_writes (f : RWord) (s : State) : OutWrites s (execLwaitCancel f s) :=
  issueWord_writes fun e => (ofChk_writes ..).mpr (lwait_writes e f true)
theorem msgrd_writes (f : RWord) (s : State) : OutWrites s (execMsgrd f s) := issueWord_writes fun e => by
  refine (ofChk_writes ..).mpr ?_
  extract_lets a n at' l len bs
  refine chkWrites_bind fun _ => chkWrites_bind fun key => ?_
  split
  · simp
  · extract_lets s₁ s₂
    have h₁ : e.s.Writes s₁ := e.s.hWrite_writes _
    clear_value s₁
    refine (chkWrites_pure ..).mpr ((Res.writes_ok ..).mpr (h₁.trans ?_))
    simp [s₂]
theorem msgwr_writes (f : RWord) (s : State) : OutWrites s (execMsgwr f s) := issueWord_writes fun e => by
  refine (ofChk_writes ..).mpr ?_
  extract_lets a n img off s₁
  have h₁ : e.s.Kept s₁ := by simp [s₁]
  clear_value s₁
  refine chkWrites_bind fun _ => chkWrites_bind fun key => ?_
  split
  · simp
  · extract_lets bs
    split
    · exact (chkWrites_pure ..).mpr ((Res.writes_ok ..).mpr (h₁.writes.trans (State.hWrite_writes ..)))
    · exact (chkWrites_pure ..).mpr ((Res.writes_ok ..).mpr ((h₁.trans (freshOpid_kept ..)).writes.trans (ringPut_writes ..)))

/-! ### Trees and rays -/

theorem vget_writes (f : RWord) (s : State) : OutWrites s (execVget f s) := issueWord_writes fun e => by simp
theorem vstn_writes (f : RWord) (s : State) : OutWrites s (execVstn f s) := issueWord_writes fun e => by simp
theorem vsmp_writes (f : RWord) (s : State) : OutWrites s (execVsmp f s) := issueWord_writes fun e => by simp
theorem vmrc_writes (f : RWord) (s : State) : OutWrites s (execVmrc f s) := issueWord_writes fun e => by simp
theorem vleaf_writes (f : RWord) (s : State) : OutWrites s (execVleaf f s) := onceWord_writes fun e => by
  refine chkWrites_bind fun vs => ?_
  dsimp only
  split
  · simp
  · simp
  · split
    · simp
    · split <;> simp
theorem vleafRel_writes (f : RWord) (s : State) : OutWrites s (execVleafRel f s) := onceWord_writes fun e => by
  refine chkWrites_bind fun vs => ?_
  dsimp only
  split <;> simp
theorem vset_writes (f : RWord) (s : State) : OutWrites s (execVset f s) := issueWord_writes fun e => by
  refine (ofChk_writes ..).mpr (chkWrites_bind fun ts => ?_)
  split <;> simp
theorem vact_writes (f : RWord) (s : State) : OutWrites s (execVact f s) := onceWord_writes fun e => by
  refine chkWrites_bind fun vs => chkWrites_bind fun hd => chkWrites_bind fun ps => ?_
  dsimp only
  split <;> simp
theorem allocWord_writes (e : Env) (f : RWord) (ins : Bool) : ChkWrites e.s (e.allocWord f ins) := by
  unfold Env.allocWord
  refine chkWrites_bind fun vs => ?_
  extract_lets h
  refine chkWrites_bind fun _ => chkWrites_bind fun sp => ?_
  extract_lets handle jp2 jp1
  have h2 : ∀ u, ChkWrites e.s (jp2 u) := fun u => by
    dsimp only [jp2]
    clear_value handle
    split
    · simp
    · split <;> simp
  have h1 : ∀ u, ChkWrites e.s (jp1 u) := fun u => by
    dsimp only [jp1]
    clear_value jp2
    split
    · exact chkWrites_bind fun _ => h2 _
    · exact h2 _
  clear_value jp1
  split
  · exact chkWrites_bind fun _ => h1 _
  · exact h1 _
theorem halo_writes (f : RWord) (s : State) : OutWrites s (execHalo f s) := onceWord_writes fun e => by
  refine chkWrites_bind fun vs => ?_
  extract_lets a b h n hs
  iterate 3 refine chkWrites_bind fun _ => ?_
  split <;> simp
theorem rtrc_writes (f : RWord) (s : State) : OutWrites s (execRtrc f s) := issueWord_writes fun e => by
  refine (ofChk_writes ..).mpr ?_
  extract_lets ls sp id handle s₁ m rs s₂ jp3 jp2 jp1
  have h₂ : e.s.Kept s₂ := by simp [s₂, s₁]
  clear_value s₂ rs
  have h3 : ∀ u, ChkWrites e.s (jp3 u) := fun u => by
    dsimp only [jp3]
    split
    · simp
    · exact (chkWrites_pure ..).mpr ((Res.writes_ok ..).mpr (h₂.writes.trans (rayEvents_writes ..)))
  have h2 : ∀ u, ChkWrites e.s (jp2 u) := fun u => by
    dsimp only [jp2]
    clear_value jp3
    split
    · exact chkWrites_bind fun _ => h3 _
    · exact h3 _
  have h1 : ∀ u, ChkWrites e.s (jp1 u) := fun u => by
    dsimp only [jp1]
    clear_value jp2
    split
    · exact chkWrites_bind fun _ => h2 _
    · exact h2 _
  clear_value jp1
  split
  · simp
  split
  · exact chkWrites_bind fun _ => h1 _
  · exact h1 _
theorem rcont_writes (f : RWord) (s : State) : OutWrites s (execRcont f s) := issueWord_writes fun e => by
  refine (ofChk_writes ..).mpr ?_
  extract_lets ls jp
  have hjp : ∀ u, ChkWrites e.s (jp u) := fun u => by
    dsimp only [jp]
    split
    · simp
    · exact (chkWrites_pure ..).mpr ((Res.writes_ok ..).mpr (rayEvents_writes ..))
  clear_value jp
  split
  · exact chkWrites_bind fun _ => hjp _
  · exact hjp _
theorem rcontKill_writes (f : RWord) (s : State) : OutWrites s (execRcontKill f s) := issueWord_writes fun e => by
  refine (ofChk_writes ..).mpr ?_
  extract_lets ls jp
  have hjp : ∀ u, ChkWrites e.s (jp u) := fun u => by
    dsimp only [jp]
    split
    · simp
    · exact (chkWrites_pure ..).mpr ((Res.writes_ok ..).mpr (rayEvents_writes ..))
  clear_value jp
  split
  · exact chkWrites_bind fun _ => hjp _
  · exact hjp _
theorem rget_writes (f : RWord) (s : State) : OutWrites s (execRget f s) := issueWord_writes fun e => by
  refine (ofChk_writes ..).mpr ?_
  extract_lets ls sel jp
  have hjp : ∀ u, ChkWrites e.s (jp u) := fun u => by simp [jp]
  clear_value jp
  split
  · exact chkWrites_bind fun _ => hjp _
  · exact hjp _
theorem rlog_writes (f : RWord) (s : State) : OutWrites s (execRlog f s) := onceWord_writes fun e => by simp
theorem rrpl_writes (f : RWord) (s : State) : OutWrites s (execRrpl f s) := issueWord_writes fun e => by simp
theorem hinv_writes (f : RWord) (s : State) : OutWrites s (execHinv f s) := onceWord_writes fun e => by simp

/-! ### The matrix units -/

theorem mbld_writes (f : RWord) (s : State) : OutWrites s (execMbld f s) := issueWord_writes fun e => by simp
theorem mma_writes (f : RWord) (s : State) : OutWrites s (execMma f s) := issueWord_writes fun e => by simp
theorem mzro_writes (f : RWord) (s : State) : OutWrites s (execMzro f s) := onceWord_writes fun e => by simp
theorem mscl_writes (f : RWord) (s : State) : OutWrites s (execMscl f s) := onceWord_writes fun e => by simp
theorem mdrn_writes (f : RWord) (s : State) : OutWrites s (execMdrn f s) := onceWord_writes fun e => by simp
theorem mred_writes (f : RWord) (s : State) : OutWrites s (execMred f s) := onceWord_writes fun e => by simp
theorem mdrs_writes (f : RWord) (s : State) : OutWrites s (execMdrs f s) := onceWord_writes fun e => by simp
theorem mdrm_writes (f : RWord) (s : State) : OutWrites s (execMdrm f s) := onceWord_writes fun e => by
  refine chkWrites_bind fun _ => ?_
  extract_lets k
  refine chkWrites_bind fun _ => ?_
  extract_lets rs
  refine chkWrites_bind fun _ => ?_
  split
  · simp
  split
  · simp
  split
  next s₁ t hd =>
    have h₁ : e.s.Kept s₁ := by
      rw [show s₁ = _ from (congrArg Prod.fst hd).symm]
      exact drain_kept ..
    split
    extract_lets s₂ n
    have h₂ : e.s.Kept s₂ := h₁.trans (by simp [s₂])
    clear_value s₂ n
    split <;> simp [h₂.1, h₂.2]
theorem mseq_writes (f : RWord) (s : State) : OutWrites s (execMseq f s) := onceWord_writes fun e => by
  split
  · simp
  · extract_lets g
    refine chkWrites_bind fun v => ?_
    extract_lets blk list bytes n kept qn bb rs srcs lines s₁ s₂ ops s₃ jp2 jp1
    have h₂ : e.s.Kept s₂ := by simp [s₂, s₁]
    have h₃ : e.s.Kept s₃ := h₂.trans (foldl_kept (fun u o => by simp) ops s₂)
    clear_value s₃ s₂
    have h2 : ∀ u, ChkWrites e.s (jp2 u) := fun u => by
      refine chkWrites_bind fun _ => ?_
      split
      · simp [h₂.1, h₂.2]
      · exact (chkWrites_pure ..).mpr (.of_kept h₃ (mseqOn_writes ..))
    clear_value jp2
    have h1 : ∀ u, ChkWrites e.s (jp1 u) := fun u => by
      refine chkWrites_bind fun _ => ?_
      split
      · exact chkWrites_bind fun _ => h2 _
      · exact h2 _
    clear_value jp1
    refine chkWrites_bind fun _ => chkWrites_bind fun _ => chkWrites_bind fun _ => ?_
    split
    · exact chkWrites_bind fun _ => chkWrites_bind fun _ => chkWrites_bind fun _ => h1 _
    · exact h1 _
theorem mgrp_writes (f : RWord) (s : State) : OutWrites s (execMgrp f s) := onceWord_writes fun e => by simp
theorem merr_writes (f : RWord) (s : State) : OutWrites s (execMerr f s) := onceWord_writes fun e => by simp

/-! ### Counters and the control program -/

theorem rng_writes (f : RWord) (s : State) : OutWrites s (execRng f s) := issueWord_writes fun e => by simp
theorem cntr_writes (f : RWord) (s : State) : OutWrites s (execCntr f s) := onceWord_writes fun e => by simp
theorem cntc_writes (f : RWord) (s : State) : OutWrites s (execCntc f s) := issueWord_writes fun e => by simp
theorem trapWord_writes (i : Instr) (code n : Nat) (s : State) : OutWrites s (trapWord i code n s) := onceWord_writes fun e => by simp
theorem csrr_writes (f : RWord) (s : State) : OutWrites s (execCsrr f s) := issueWord_writes fun e => by split <;> simp
theorem iret_writes (f : RWord) (s : State) : OutWrites s (execIret f s) := issueWord_writes fun e => by simp
theorem tlbi_writes (f : RWord) (s : State) : OutWrites s (execTlbi f s) := issueWord_writes fun e => by simp [State.dropPages]
theorem halt_writes (f : RWord) (s : State) : OutWrites s (execHalt f s) := issueWord_writes fun e => by simp [State.draw]

end Sys2Proof.Machine
end

section
/-! SUPPORT. Fuses and memory under the events, the host's commands and what reaches the module from outside. -/

namespace Sys2Proof.Machine

/-! ### The match, rounds and grids -/

theorem matchState_writes (tid : Nat) (s : State) :
    OutWrites s (execTeamCollectiveMatch tid s) := by
  refine (outWrites_next ..).mpr ?_
  split
  · simp
  split
  · simp
  dsimp only
  split
  next gid g _ =>
    split <;> simp
  next =>
    split <;> simp
theorem phase_writes (tid : Nat) (s : State) : OutWrites s (execTeamPhaseComplete tid s) := by
  refine (outWrites_next ..).mpr (State.Kept.writes ?_)
  split
  · simp
  split
  · simp
  · dsimp only
    refine State.Kept.trans ?_ (foldl_kept (fun u g => ?_) _ _)
    · simp
    · repeat' split
      all_goals simp
theorem cbarRelease_writes (lid cluster : Nat) (s : State) : OutWrites s (execCbarRelease lid cluster s) := by
  refine (outWrites_next ..).mpr (State.Kept.writes ?_)
  split
  · simp
  · refine State.Kept.trans (foldl_kept (fun u t => ?_) _ _) (foldl_kept (fun u t => ?_) _ _)
    · simp
    · split <;> simp
theorem roundApply_writes (lid : Nat) (s : State) : OutWrites s (execRoundApply lid s) := by
  refine (outWrites_next ..).mpr ?_
  repeat' split
  all_goals simp
theorem dIntervalClose_writes (lid : Nat) (s : State) : OutWrites s (execDIntervalClose lid s) := by
  refine (outWrites_next ..).mpr ?_
  split <;> simp
theorem promote_writes (cid : Nat) (s : State) : OutWrites s (execPromote cid s) :=
  (outWrites_next ..).mpr (foldl_kept (fun u (l : Nat × Launch) => promoteOne_kept u l.1) _ _).writes
theorem admit_writes (core : Nat) (s : State) : OutWrites s (execAdmitTeam core s) := by
  refine (outWrites_next ..).mpr ?_
  repeat' split
  · simp
  · simp
  · exact (foldl_kept (fun u t => admitTeam_kept u _ _ t) _ _).writes
theorem groupRetire_writes (gid : Nat) (s : State) : OutWrites s (execGroupRetire gid s) := by
  refine (outWrites_next ..).mpr ?_
  split
  · simp
  · dsimp only
    split
    · split <;> simp
    · simp
theorem gridComplete_writes (lid : Nat) (s : State) : OutWrites s (execGridComplete lid s) := by
  refine (outWrites_next ..).mpr (State.Kept.writes ?_)
  split
  · simp
  split
  · simp
  · extract_lets early s₁ s₂
    have h₁ : s.Kept s₁ := foldl_kept (fun u node => by dsimp only; split <;> simp) _ _
    clear_value s₁
    exact h₁.trans (by simp [s₂])
theorem tier2_writes (s : State) (a : Nat) (bs : List Byte) : s.Writes (s.tier2 a bs) := s.hWrite_writes _
@[simp] theorem collectPend_kept (s : State) (tid : Nat) : s.Kept (s.collectPend tid) := modGroups_kept ..
theorem teamTrap_writes (tid : Nat) (s : State) : OutWrites s (execTeamTrap tid s) := by
  refine (outWrites_next ..).mpr ?_
  split
  · simp
  · extract_lets s₁ lid cid
    have h₁ : s.Kept s₁ := runTiles_kept ..
    clear_value s₁
    split
    next t l c _ _ _ =>
      extract_lets k gs sum base s₂ s₃ s₄ s₅ s₆
      have h₂ : s₁.Writes s₂ := tier2_writes ..
      have h₃ : s₂.Writes s₃ := foldl_writes (fun u o => by split; exacts [tier2_writes .., .refl _]) _ _
      have h₆ : s₃.Kept s₆ := by simp [s₆, s₅, s₄]
      have h := h₁.writes.trans (h₂.trans (h₃.trans h₆.writes))
      clear_value s₆ gs sum
      split
      refine h.trans (State.Writes.trans ?_ (ringPut_writes ..))
      repeat' split
      all_goals simp [State.report]
    next => exact h₁.writes

/-! ### Results, tiles and engines -/

@[simp] theorem resettle_kept (s : State) (gid : Nat) : s.Kept (s.resettle gid) := by
  unfold State.resettle
  split
  · simp
  · refine State.Kept.trans (foldl_kept (fun u x => ?_) _ _) (rejoin_kept ..)
    split <;> simp
theorem pendingReturn_writes (gid idx : Nat) (s : State) : OutWrites s (execPendingResultReturn gid idx s) := by
  refine (outWrites_next ..).mpr ?_
  dsimp only
  split <;> simp
theorem tileOp_writes (gid : Nat) (s : State) : OutWrites s (execTileOpComplete gid s) := (outWrites_next ..).mpr (tileStep_kept ..).writes
theorem copyComplete_writes (id : Nat) (s : State) : OutWrites s (execCopyComplete id s) := by
  refine (outWrites_next ..).mpr ?_
  split
  · simp
  split
  · simp
  split
  · simp
  · simp
  split
  · exact endOp_writes ..
  · dsimp only
    split <;> exact endOp_writes ..
  · exact State.Writes.trans (State.Kept.writes ⟨rfl, rfl⟩) (endOp_writes ..)
  · split
    · exact collFinish_writes ..
    · split <;> simp
  · exact bvhEnd_writes ..
  · simp
theorem bulkChunk_writes (id : Nat) (s : State) : OutWrites s (execBulkChunkComplete id s) := by
  refine (outWrites_next ..).mpr ?_
  dsimp only
  repeat' split
  all_goals simp
theorem copySuspend_writes (id : Nat) (s : State) : OutWrites s (execCopySuspend id s) := by
  refine (outWrites_next ..).mpr ?_
  split
  · simp
  split
  · simp
  split
  · exact State.Writes.trans (giveOpid_kept ..).writes (State.Writes.trans (State.Kept.writes ⟨rfl, rfl⟩) (ringPut_writes ..))
  · simp
theorem copyFail_writes (id : Nat) (s : State) : OutWrites s (execCopyFail id s) := by
  refine (outWrites_next ..).mpr ?_
  split
  · simp
  split
  · simp
  split
  · exact State.Writes.trans (giveOpid_kept ..).writes (State.Writes.trans (endOp_writes ..) (ringPut_writes ..))
  · simp
theorem collStep_writes (cid entry step : Nat) (s : State) : OutWrites s (execCollStepComplete cid entry step s) := by
  refine (outWrites_next ..).mpr ?_
  repeat' split
  all_goals simp
theorem collTimeout_writes (cid entry step : Nat) (s : State) : OutWrites s (execCollTimeout cid entry step s) := by
  refine (outWrites_next ..).mpr ?_
  split
  · simp
  split
  · simp
  split
  · simp
  · extract_lets inn out s₁ o
    have h₁ : s.Kept s₁ := collDone_kept ..
    clear_value s₁ o
    refine h₁.writes.trans (State.Writes.trans ?_ ((ringPut_writes _ _ _).trans (State.Kept.writes ⟨rfl, rfl⟩)))
    simp

/-! ### The scheduler's clock and the world -/

theorem rampRollover_writes (core : Nat) (s : State) : OutWrites s (execRampWindowRollover core s) := by
  refine (outWrites_next ..).mpr ?_
  split <;> simp [State.rampRoll]
@[simp] theorem preempt_kept (s : State) (gid : Nat) : s.Kept (s.preempt gid) := by simp [State.preempt]
@[simp] theorem preemptCtx_kept (s : State) (cid : Nat) : s.Kept (s.preemptCtx cid) := by simp [State.preemptCtx]
theorem place_writes (s : State) (k : Nat) (b : Blob) : s.Writes (s.place k b) := ⟨rfl, s.place_wf k b⟩
theorem writeMap_writes (s : State) (cid : Nat) : s.Writes (s.writeMap cid) := by
  unfold State.writeMap
  split
  · simp
  · exact place_writes ..
theorem writeRecord_writes (s : State) (cid : Nat) : s.Writes (s.writeRecord cid) := by
  unfold State.writeRecord
  split
  · exact place_writes ..
  · simp
theorem switchOut_writes (s : State) (cid : Nat) : s.Writes (s.switchOut cid) := by
  unfold State.switchOut
  split
  · refine State.Writes.trans (State.Writes.trans ?_ (writeRecord_writes ..)) (State.Kept.writes ⟨rfl, rfl⟩)
    simp
  · simp
@[simp] theorem readMap_kept (s : State) (cid : Nat) : s.Kept (s.readMap cid) := by
  simp [State.readMap]
@[simp] theorem readRecord_kept (s : State) (cid : Nat) : s.Kept (s.readRecord cid) := by
  unfold State.readRecord
  split
  · simp
  · refine List.foldlRecOn (motive := fun acc : State × Nat => s.Kept acc.1) _ _ ?_ fun acc hacc i _ => hacc
    simp
@[simp] theorem switchIn_kept (s : State) (cid : Nat) : s.Kept (s.switchIn cid) := by
  unfold State.switchIn
  split
  · simp
  · dsimp only
    refine State.Kept.trans ?_ (foldl_kept (fun u g => resettle_kept ..) _ _)
    simp
theorem timeSlice_writes (cid : Nat) (s : State) : OutWrites s (execTimeSliceExpire cid s) := by
  refine (outWrites_next ..).mpr ?_
  split
  · split
    · dsimp only
      split
      · exact (switchOut_writes ..).trans (switchIn_kept ..).writes
      · exact switchOut_writes ..
    · simp
  · simp
theorem migration_writes (cid lcore phys : Nat) (s : State) : OutWrites s (execMigration cid lcore phys s) := by
  refine (outWrites_next ..).mpr ?_
  split
  · simp
  · extract_lets old s₁ c' s₂ s₃ s₄
    split
    · simp [s₁]
    split
    · simp [s₁]
    · have h₂ : s.Kept s₂ := State.Kept.trans (t := s₁) ⟨rfl, rfl⟩ (foldl_kept (fun u t => foldl_kept (fun v g => preempt_kept ..) _ _) _ _)
      have h₃ : s₂.Writes s₃ := State.Writes.trans (State.Kept.writes (by simp)) (writeMap_writes ..)
      have h₄ : s₃.Kept s₄ := ⟨rfl, rfl⟩
      refine h₂.writes.trans (h₃.trans (h₄.trans (foldl_kept (fun u t => foldl_kept (fun v g => ?_) _ _) _ _)).writes)
      split <;> simp
theorem forward_writes (core cid lcore : Nat) (s : State) : OutWrites s (execForward core cid lcore s) := by
  refine (outWrites_next ..).mpr ?_
  dsimp only
  split <;> simp
theorem controlInterrupt_writes (cid : Nat) (s : State) : OutWrites s (execControlInterrupt cid s) := by
  refine (outWrites_next ..).mpr ?_
  split <;> simp

/-! ### Team traps, TEAMCTL and CPYCTL -/

@[simp] theorem restart_kept (s : State) (gid : Nat) (skip : Bool) : s.Kept (s.restart gid skip) := by
  unfold State.restart
  split
  · simp
  · dsimp only
    repeat' split
    all_goals simp
@[simp] theorem unhalt_kept (s : State) (tid : Nat) (skip : Nat → Bool) : s.Kept (s.unhalt tid skip) := by
  unfold State.unhalt
  split
  · simp
  · dsimp only
    split
    · simp
    · refine State.Kept.trans ?_ (foldl_kept (fun u g => resettle_kept ..) _ _)
      simp
@[simp] theorem teamResume_kept (s : State) (cid team : Nat) : s.Kept (s.teamResume cid team) := by
  unfold State.teamResume
  split
  · split
    · simp
    · dsimp only
      split
      · simp
      · refine State.Kept.trans (foldl_kept (fun u g => ?_) _ _) (unhalt_kept ..)
        simp
  · simp
@[simp] theorem teamTerminate_kept (s : State) (cid team : Nat) : s.Kept (s.teamTerminate cid team) := by
  unfold State.teamTerminate; split <;> simp
@[simp] theorem cpyResume_kept (s : State) (cid opid : Nat) : s.Kept (s.cpyResume cid opid) := by
  unfold State.cpyResume; split <;> simp
theorem cpyCancel_writes (s : State) (cid opid : Nat) : s.Writes (s.cpyCancel cid opid) := by
  unfold State.cpyCancel
  split
  · exact endOp_writes ..
  · simp
theorem csrPut_writes {s t : State} {cid n x : Nat} (h : s.csrPut cid n x = some t) : s.Writes t := by
  unfold State.csrPut at h
  split at h
  · split at h
    · cases h; simp
    · cases h
  · cases h; simp
  · cases h; simp
  · cases h; exact State.Writes.trans (State.Kept.writes ⟨rfl, rfl⟩) (ringDrain_writes ..)
  · cases h; simp
  · cases h; split <;> simp
  · cases h
    split
    · exact cpyCancel_writes ..
    · simp
  · cases h
theorem csrw_writes (f : RWord) (s : State) : OutWrites s (execCsrw f s) := issueWord_writes fun e => by
  split
  next t ht => exact csrPut_writes ht
  next => simp

/-! ### The host's commands -/

theorem command_writes {s : State} {cid op : Nat} {allowed : List CState} {f : Ctx → Option State}
    (h : ∀ c t, f c = some t → s.Writes t) : s.Writes (s.command cid op allowed f) := by
  unfold State.command
  split
  · simp
  dsimp only
  split
  · simp [State.report]
  split
  · simp [State.report]
  split
  · simp [State.report]
  next t ht => exact (h _ t ht).trans (State.Kept.writes ⟨rfl, rfl⟩)
theorem created_writes (s : State) (cid : Nat) (f : CtxFields) (map : List Nat) : s.Writes (s.created cid f map) := by
  unfold State.created
  refine State.Writes.trans ?_ (writeMap_writes _ cid)
  exact ⟨rfl, memWf_filter _⟩
theorem create_writes (cid : Nat) (f : CtxFields) (s : State) : OutWrites s (execCreate cid f s) :=
  (outWrites_next ..).mpr (command_writes fun c t ht => by
    dsimp only at ht
    split at ht
    · cases ht
    · cases ht
      exact created_writes ..)
theorem load_writes (cid addr len : Nat) (s : State) : OutWrites s (execLoad cid addr len s) :=
  (outWrites_next ..).mpr (command_writes fun c t ht => by cases ht; simp)
theorem start_writes (cid : Nat) (s : State) : OutWrites s (execStart cid s) :=
  (outWrites_next ..).mpr (command_writes fun c t ht => by
    dsimp only at ht
    split at ht
    · cases ht
    · cases ht
      split
      · exact State.Writes.trans (State.Kept.writes ⟨rfl, rfl⟩) (writeRecord_writes ..)
      · simp)
theorem stop_writes (cid : Nat) (s : State) : OutWrites s (execStop cid s) :=
  (outWrites_next ..).mpr (command_writes fun c t ht => by
    cases ht
    exact (switchOut_writes ..).trans (State.Kept.writes ⟨rfl, rfl⟩))
theorem destroy_writes (cid : Nat) (s : State) : OutWrites s (execDestroy cid s) :=
  (outWrites_next ..).mpr (command_writes fun c t ht => by
    cases ht
    refine ⟨rfl, fun hw => memWf_filter _ ?_⟩
    refine List.foldlRecOn (motive := fun m : Image => Memory.wf m.data = true) _ _ hw fun m hm l _ => ?_
    split
    · exact Image.apply_wf _ hm
    · exact hm)
theorem checkpoint_writes (cid : Nat) (s : State) : OutWrites s (execCheckpoint cid s) := by
  refine (outWrites_next ..).mpr ?_
  dsimp only
  repeat' split
  all_goals simp [State.report]
/-- A placed image, its slot taken and the command answered. -/
theorem placed_writes (s : State) (cid k : Nat) (b : Blob) (c : Ctx) (images : Tab Nat) (r : Report) :
    s.Writes ({ (s.place k b).putC cid c with images := images }.report r) :=
  (place_writes s k b).trans (State.Kept.writes ⟨rfl, rfl⟩)
theorem capture_writes (cid : Nat) (s : State) : OutWrites s (execQuietPointCapture cid s) := by
  refine (outWrites_next ..).mpr ?_
  split
  · simp
  extract_lets s₁
  have h₁ : s.Writes s₁ := switchOut_writes s cid
  clear_value s₁
  split
  · exact h₁
  · extract_lets b slot s₂
    clear_value b slot
    split
    · exact h₁.trans (endCheckpoint_kept ..).writes
    · exact h₁.trans (placed_writes ..)
theorem placePages_writes (s : State) (fs : List (Nat × Nat × Nat)) (pages : Blob) : s.Writes (s.placePages fs pages) := by
  refine ⟨?_, State.placePages_wf _ _⟩
  unfold State.placePages
  exact List.foldlRecOn (motive := fun acc : State × Nat => acc.1.fuse = s.fuse) _ _ rfl fun acc hacc x _ => hacc
theorem rebuild_writes (s : State) (cid : Nat) (image : Saved) (record ctl pages : Blob) : s.Writes (s.rebuild cid image record ctl pages) := by
  unfold State.rebuild
  extract_lets v s₁ s₂
  have h₁ : s.Writes s₁ := ((placePages_writes ..).trans (place_writes ..)).trans (place_writes ..)
  clear_value s₁ v
  exact h₁.trans (State.Writes.trans (State.Kept.writes ⟨rfl, rfl⟩) (writeMap_writes ..))
theorem restore_writes (cid image : Nat) (s : State) : OutWrites s (execRestore cid image s) :=
  (outWrites_next ..).mpr (command_writes fun c t ht => by
    repeat' split at ht
    · cases ht
    · cases ht
    · cases ht
    · cases ht
      exact (rebuild_writes ..).trans (switchIn_kept ..).writes)
theorem query_writes (cid : Nat) (s : State) : OutWrites s (execQuery cid s) := by
  refine (outWrites_next ..).mpr ?_
  split <;> simp [State.report]

/-! ### Mailboxes, packets, flits and the side-band -/

theorem intail_writes (cid : Nat) (v : W32) (s : State) : OutWrites s (execIntailWrite cid v s) := by
  refine (outWrites_next ..).mpr ?_
  split
  · split
    · exact place_writes ..
    · simp
  · simp
theorem outack_writes (cid : Nat) (v : W32) (clr : Bool) (s : State) : OutWrites s (execOutackWrite cid v clr s) := by
  simp [execOutackWrite]
@[simp] theorem hostRead_kept (s : State) (cid block off len : Nat) : s.Kept (s.hostRead cid block off len) := by
  unfold State.hostRead
  repeat' split
  all_goals simp [State.report]
theorem packetOp_writes (s : State) (op : PacketOp) : s.Writes (s.packetOp op) := by
  unfold State.packetOp
  split
  · split <;> simp
  · split
    · exact s.hWrite_writes _
    · simp [State.report]
  · simp
  · split
    · exact s.hWrite_writes _
    · simp
  · split
    · exact tier2_writes ..
    · simp [State.report]
  · split <;> simp [State.report]
  · split
    · split <;> simp [State.report]
    · simp [State.report]
theorem packet_writes (p : Packet) (s : State) : OutWrites s (execPacketReceive p s) := by
  refine (outWrites_next ..).mpr ?_
  split
  · simp
  split
  · exact packetOp_writes ..
  · simp
@[simp] theorem modEntry_kept (s : State) (cid i : Nat) (f : CEntry → CEntry) : s.Kept (s.modEntry cid i f) := ⟨rfl, rfl⟩
@[simp] theorem collFlit_kept (s : State) (cid entry step rank : Nat) (bad : Bool) (m : CollMsg) :
    s.Kept (s.collFlit cid entry step rank bad m) := by
  unfold State.collFlit
  dsimp only
  repeat' split
  all_goals simp
theorem flit_writes (f : Flit) (s : State) : OutWrites s (execFlitReceive f s) := by
  refine (outWrites_next ..).mpr ?_
  split
  · simp
  split
  · simp [State.report]
  split
  · simp
  · exact s.hWrite_writes _
  · exact s.hWrite_writes _

/-! ### The debugger, resets and errors -/

theorem debugStop_writes (tid : Nat) (s : State) : OutWrites s (execDebugStop tid s) := by
  refine (outWrites_next ..).mpr ?_
  repeat' split
  all_goals simp [State.report]
theorem debugImage_writes (gid : Nat) (acc : ImgAccess) (s : State) : OutWrites s (execDebugImageAccess gid acc s) := by
  refine (outWrites_next ..).mpr ?_
  repeat' split
  all_goals simp [State.report]
theorem debugStep_writes (gid : Nat) (s : State) : OutWrites s (execDebugSingleStep gid s) := by
  refine (outWrites_next ..).mpr ?_
  split
  · simp [State.report]
  · dsimp only
    split
    · simp
    · split <;> simp
@[simp] theorem undoAll_kept (s : State) (gid rings : Nat) (es : List Undo) : s.Kept (s.undoAll gid rings es) := by
  unfold State.undoAll
  refine foldl_kept (fun u x => ?_) es s
  split <;> simp
theorem debugStepBack_writes (gid : Nat) (s : State) : OutWrites s (execDebugStepBack gid s) := by
  refine (outWrites_next ..).mpr ?_
  repeat' split
  all_goals simp [State.report]
theorem debugResume_writes (tid : Nat) (s : State) : OutWrites s (execDebugResume tid s) := by
  refine (outWrites_next ..).mpr ?_
  split <;> simp [State.report]
theorem debugToken_writes (bytes : List Byte) (s : State) : OutWrites s (execDebugToken bytes s) := by
  refine (outWrites_next ..).mpr ?_
  split <;> simp [State.report]
theorem warmReset_writes (s : State) : OutWrites s (execWarmReset s) :=
  (outWrites_next ..).mpr ⟨rfl, fun h => memWf_filter _ (hImage_wf h)⟩
theorem coldReset_writes (images : List FwImage) (s : State) : OutWrites s (execColdReset images s) := by
  refine (outWrites_next ..).mpr ?_
  dsimp only
  split <;> exact ⟨rfl, fun h => memWf_filter _ (hImage_wf h)⟩
@[simp] theorem spoilLine_kept (s : State) (u : Nat) : s.Kept (s.spoilLine u) := ⟨rfl, rfl⟩
@[simp] theorem faultAll_kept (s : State) (cids : List Nat) : s.Kept (s.faultAll cids) := by simp [State.faultAll, State.draw]
theorem thermalStop_writes (die : Nat) (s : State) : OutWrites s (execThermalStop die s) := by
  refine (outWrites_next ..).mpr ?_
  split <;> simp
theorem error_writes (t : ErrTarget) (s : State) : OutWrites s (execUncorrectableError t s) := by
  refine (outWrites_next ..).mpr ?_
  cases t <;> dsimp only
  case kreg gid r => split <;> simp
  all_goals simp
theorem poison_writes (tid : Nat) (e : Strike) (s : State) : OutWrites s (execScratchpadPoison tid e s) := by
  simp [execScratchpadPoison]
theorem overflow_writes (cid core n : Nat) (s : State) : OutWrites s (execCounterOverflow cid core n s) := by
  refine (outWrites_next ..).mpr ?_
  dsimp only
  split <;> simp
theorem clockLowering_writes (die : Nat) (s : State) : OutWrites s (execThermalClockLowering die s) := by
  refine (outWrites_next ..).mpr ?_
  split <;> simp

end Sys2Proof.Machine
end

section
/-! SUPPORT. Fuses and memory under every step (R364). -/

namespace Sys2Proof.Machine

/-! ### The shapes of register words -/

theorem mapWord_writes (i : Instr) (k : Nat) (d : Opd) (wide : Bool) (f : Env → Nat → Nat × Nat) (s : State) :
    OutWrites s (mapWord i k d wide f s) := regWord_writes _ _ s
theorem vWord_writes (i : Instr) (d : Opd) (k : Nat) (wide : Bool) (f : Env → Nat → Nat × Nat) (s : State) :
    OutWrites s (vWord i d k wide f s) := regWord_writes _ _ s
theorem flagWord_writes (i : Instr) (f : RWord) (g : (Nat → Int) → Int) (fl : Nat → Nat → Nat → Flags5) (s : State) :
    OutWrites s (flagWord i f g fl s) := regWord_writes _ _ s
theorem kWord_writes (i : Instr) (f : RWord) (g : Nat → Nat → Nat) (s : State) : OutWrites s (kWord i f g s) := regWord_writes _ _ s
theorem icmpWord_writes (i : Instr) (k : Nat) (d : Opd) (cc w : Nat) (a b : Env → Nat → Nat) (s : State) :
    OutWrites s (icmpWord i k d cc w a b s) := regWord_writes _ _ s
theorem intWord_writes (i : Instr) (f : RWord) (sat : Bool) (g : (Nat → Int) → Int) (s : State) : OutWrites s (intWord i f sat g s) :=
  mapWord_writes ..
theorem bitWord_writes (i : Instr) (f : RWord) (g : Nat → Nat → Nat → Nat → Nat) (s : State) : OutWrites s (bitWord i f g s) :=
  mapWord_writes ..
theorem immWord_writes (i : Instr) (f : IWord) (g : Nat → Nat → Nat) (s : State) : OutWrites s (immWord i f g s) := mapWord_writes ..
theorem signWord_writes (i : Instr) (f : RWord) (g : Bool → Bool → Bool) (s : State) : OutWrites s (signWord i f g s) :=
  mapWord_writes ..
theorem transWord_writes (i : Instr) (f : RWord) (fn : Nat) (s : State) : OutWrites s (transWord i f fn s) := vWord_writes ..
theorem fimmWord_writes (i : Instr) (f : IWord) (g : Fmt → Rnd → FV → FV → FV → Nat × Nat) (s : State) : OutWrites s (fimmWord i f g s) :=
  mapWord_writes ..
theorem iadd_writes (f : RWord) (s : State) : OutWrites s (execIadd f s) := by
  unfold execIadd
  split
  · exact flagWord_writes ..
  · exact intWord_writes ..
theorem isub_writes (f : RWord) (s : State) : OutWrites s (execIsub f s) := by
  unfold execIsub
  split
  · exact flagWord_writes ..
  · exact intWord_writes ..
theorem kmov_writes (f : RWord) (s : State) : OutWrites s (execKmov f s) := by
  unfold execKmov
  split
  · exact regWord_writes _ _ s
  · exact mapWord_writes ..

/-! ### Words whose shape leaves a function open -/

theorem nop_writes (f : RWord) (s : State) : OutWrites s (execNop f s) := by unfold execNop; exact regWord_writes ..
theorem imul_writes (f : RWord) (s : State) : OutWrites s (execImul f s) := by unfold execImul; exact intWord_writes ..
theorem imulh_writes (f : RWord) (s : State) : OutWrites s (execImulh f s) := by unfold execImulh; exact intWord_writes ..
theorem imad_writes (f : RWord) (s : State) : OutWrites s (execImad f s) := by unfold execImad; exact intWord_writes ..
theorem imin_writes (f : RWord) (s : State) : OutWrites s (execImin f s) := by unfold execImin; exact intWord_writes ..
theorem imax_writes (f : RWord) (s : State) : OutWrites s (execImax f s) := by unfold execImax; exact intWord_writes ..
theorem iabs_writes (f : RWord) (s : State) : OutWrites s (execIabs f s) := by unfold execIabs; exact intWord_writes ..
theorem ineg_writes (f : RWord) (s : State) : OutWrites s (execIneg f s) := by unfold execIneg; exact intWord_writes ..
theorem and_writes (f : RWord) (s : State) : OutWrites s (execAnd f s) := by unfold execAnd; exact bitWord_writes ..
theorem or_writes (f : RWord) (s : State) : OutWrites s (execOr f s) := by unfold execOr; exact bitWord_writes ..
theorem xor_writes (f : RWord) (s : State) : OutWrites s (execXor f s) := by unfold execXor; exact bitWord_writes ..
theorem not_writes (f : RWord) (s : State) : OutWrites s (execNot f s) := by unfold execNot; exact bitWord_writes ..
theorem shl_writes (f : RWord) (s : State) : OutWrites s (execShl f s) := by unfold execShl; exact bitWord_writes ..
theorem shr_writes (f : RWord) (s : State) : OutWrites s (execShr f s) := by unfold execShr; exact bitWord_writes ..
theorem sar_writes (f : RWord) (s : State) : OutWrites s (execSar f s) := by unfold execSar; exact bitWord_writes ..
theorem rot_writes (f : RWord) (s : State) : OutWrites s (execRot f s) := by unfold execRot; exact bitWord_writes ..
theorem popc_writes (f : RWord) (s : State) : OutWrites s (execPopc f s) := by unfold execPopc; exact bitWord_writes ..
theorem clz_writes (f : RWord) (s : State) : OutWrites s (execClz f s) := by unfold execClz; exact bitWord_writes ..
theorem brev_writes (f : RWord) (s : State) : OutWrites s (execBrev f s) := by unfold execBrev; exact bitWord_writes ..
theorem icmp_writes (f : RWord) (s : State) : OutWrites s (execIcmp f s) := by unfold execIcmp; exact icmpWord_writes ..
theorem andi_writes (f : IWord) (s : State) : OutWrites s (execAndi f s) := by unfold execAndi; exact immWord_writes ..
theorem ori_writes (f : IWord) (s : State) : OutWrites s (execOri f s) := by unfold execOri; exact immWord_writes ..
theorem xori_writes (f : IWord) (s : State) : OutWrites s (execXori f s) := by unfold execXori; exact immWord_writes ..
theorem shli_writes (f : IWord) (s : State) : OutWrites s (execShli f s) := by unfold execShli; exact immWord_writes ..
theorem shri_writes (f : IWord) (s : State) : OutWrites s (execShri f s) := by unfold execShri; exact immWord_writes ..
theorem icmpi_writes (f : IWord) (s : State) : OutWrites s (execIcmpi f s) := by unfold execIcmpi; exact icmpWord_writes ..
theorem imuli_writes (f : IWord) (s : State) : OutWrites s (execImuli f s) := by unfold execImuli; exact immWord_writes ..
theorem kand_writes (f : RWord) (s : State) : OutWrites s (execKand f s) := by unfold execKand; exact kWord_writes ..
theorem kor_writes (f : RWord) (s : State) : OutWrites s (execKor f s) := by unfold execKor; exact kWord_writes ..
theorem kxor_writes (f : RWord) (s : State) : OutWrites s (execKxor f s) := by unfold execKxor; exact kWord_writes ..
theorem knot_writes (f : RWord) (s : State) : OutWrites s (execKnot f s) := by unfold execKnot; exact kWord_writes ..
theorem kset_writes (f : RWord) (s : State) : OutWrites s (execKset f s) := by unfold execKset; exact regWord_writes ..
theorem clrst_writes (f : RWord) (s : State) : OutWrites s (execClrst f s) := by unfold execClrst; exact regWord_writes ..
theorem fabs_writes (f : RWord) (s : State) : OutWrites s (execFabs f s) := by unfold execFabs; exact signWord_writes ..
theorem fneg_writes (f : RWord) (s : State) : OutWrites s (execFneg f s) := by unfold execFneg; exact signWord_writes ..
theorem fcps_writes (f : RWord) (s : State) : OutWrites s (execFcps f s) := by unfold execFcps; exact signWord_writes ..
theorem faddi_writes (f : IWord) (s : State) : OutWrites s (execFaddi f s) := by unfold execFaddi; exact fimmWord_writes ..
theorem fmuli_writes (f : IWord) (s : State) : OutWrites s (execFmuli f s) := by unfold execFmuli; exact fimmWord_writes ..
theorem ffmai_writes (f : IWord) (s : State) : OutWrites s (execFfmai f s) := by unfold execFfmai; exact fimmWord_writes ..
theorem pairWord_writes (f : PWord) (s : State) : OutWrites s (execPairWord f s) := by unfold execPairWord; exact regWord_writes ..

/-! ### Every instruction and event -/

theorem State.Counted.writes {s t : State} (h : s.Counted t) : s.Writes t := by
  rw [h.frame]; exact .refl s
theorem issueSlot_writes (s : State) : OutWrites s (execIssueSlot s) := by
  refine (outWrites_next ..).mpr ?_
  have h₁ : s.Kept (if s.slots == [] then s.newCycle else s) := by
    split
    · rw [newCycle_frame]; exact ⟨rfl, rfl⟩
    · exact ⟨rfl, rfl⟩
  generalize (if s.slots == [] then s.newCycle else s) = u at h₁
  refine h₁.writes.trans ?_
  obtain ⟨v, hv, h, _⟩ | ⟨v, _, _, _, _, hv, h, _⟩ := takeSlot_spec u u.slots u (.refl u)
  all_goals
    show u.Writes (State.takeSlot u.slots u)
    rw [h]
    exact hv.writes.trans (.refl _)

/-- Only the fuse word moves the fuses; every other instruction and event keeps them, and the canonical memory. -/
theorem exec_writes {i : Instr} (hi : i ≠ .fuseAdvance) (s : State) : OutWrites s (exec i s) := by
  cases i with
  | rdln f | wrln f | shfl f | iaddi f | sfmt f | fcmp f | bpack f | bunpk f | pushs f | pops f => exact regWord_writes _ _ s
  | mov f | movi f | movh f | sel f | bfx f | bfi f | lea f | kpop f | kffs f | prmt f | pack f | unpk f | fadd f | fsub f
  | fmul f | ffma f | fmin f | fmax f | fclass f | frnd f | fscl f | fgexp f | f2f f | f2i f | i2f f | fdp2 f => exact mapWord_writes ..
  | fdiv f | fsqrt f => exact vWord_writes ..
  | frcp f | frsq f | fex2 f | flg2 f | fsin f | fcos f => exact transWord_writes ..
  | cmitC f | cmitD f | abrtT f | qinit f | trig f => exact collWord_writes _ _ s
  | nop f => exact nop_writes f s
  | imul f => exact imul_writes f s
  | imulh f => exact imulh_writes f s
  | imad f => exact imad_writes f s
  | imin f => exact imin_writes f s
  | imax f => exact imax_writes f s
  | iabs f => exact iabs_writes f s
  | ineg f => exact ineg_writes f s
  | and f => exact and_writes f s
  | or f => exact or_writes f s
  | xor f => exact xor_writes f s
  | not f => exact not_writes f s
  | shl f => exact shl_writes f s
  | shr f => exact shr_writes f s
  | sar f => exact sar_writes f s
  | rot f => exact rot_writes f s
  | popc f => exact popc_writes f s
  | clz f => exact clz_writes f s
  | brev f => exact brev_writes f s
  | icmp f => exact icmp_writes f s
  | andi f => exact andi_writes f s
  | ori f => exact ori_writes f s
  | xori f => exact xori_writes f s
  | shli f => exact shli_writes f s
  | shri f => exact shri_writes f s
  | icmpi f => exact icmpi_writes f s
  | imuli f => exact imuli_writes f s
  | kand f => exact kand_writes f s
  | kor f => exact kor_writes f s
  | kxor f => exact kxor_writes f s
  | knot f => exact knot_writes f s
  | kset f => exact kset_writes f s
  | clrst f => exact clrst_writes f s
  | fabs f => exact fabs_writes f s
  | fneg f => exact fneg_writes f s
  | fcps f => exact fcps_writes f s
  | faddi f => exact faddi_writes f s
  | fmuli f => exact fmuli_writes f s
  | ffmai f => exact ffmai_writes f s
  | pairWord f => exact pairWord_writes f s
  | iadd f => exact iadd_writes f s
  | isub f => exact isub_writes f s
  | kmov f => exact kmov_writes f s
  | bra f => exact bra_writes ..
  | bkz f => exact bkz_writes ..
  | bknz f => exact bknz_writes ..
  | loop f => exact loop_writes ..
  | jmpi f => exact jmpi_writes ..
  | call f => exact call_writes ..
  | calli f => exact calli_writes ..
  | ret f => exact ret_writes ..
  | regang f => exact regang_writes ..
  | ksync f => exact ksync_writes ..
  | exit f => exact exit_writes ..
  | mbld f => exact mbld_writes ..
  | mma f => exact mma_writes ..
  | mzro f => exact mzro_writes ..
  | mdrn f => exact mdrn_writes ..
  | mdrs f => exact mdrs_writes ..
  | mdrm f => exact mdrm_writes ..
  | mseq f => exact mseq_writes ..
  | mgrp f => exact mgrp_writes ..
  | merr f => exact merr_writes ..
  | mscl f => exact mscl_writes ..
  | mred f => exact mred_writes ..
  | ld f => exact ld_writes ..
  | st f => exact st_writes ..
  | atom f => exact atom_writes ..
  | red f => exact red_writes ..
  | cas f => exact cas_writes ..
  | cmitT f => exact cmitT_writes ..
  | abrtG f => exact abrtG_writes ..
  | rfshT f => exact rfshT_writes ..
  | rfshD f => exact rfshD_writes ..
  | fence f => exact fence_writes ..
  | cpy f => exact cpy_writes ..
  | gthr f => exact onceWord_writes fun e => laneCopy_writes e f true
  | sctr f => exact onceWord_writes fun e => laneCopy_writes e f false
  | cpyc f => exact cpyc_writes ..
  | mcst f => exact mcst_writes ..
  | csto f => exact csto_writes ..
  | cldx f => exact cldx_writes ..
  | pfch f => exact pfch_writes ..
  | bulk f => exact bulk_writes ..
  | coll f => exact coll_writes ..
  | qpush f => exact qpush_writes ..
  | qpop f => exact qpop_writes ..
  | qpeek f => exact qpeek_writes ..
  | qrel f => exact qrel_writes ..
  | emit f => exact emit_writes ..
  | launch f => exact launch_writes ..
  | lwait f => exact lwaitWord_writes ..
  | lwaitCancel f => exact lwaitCancelWord_writes ..
  | msgrd f => exact msgrd_writes ..
  | msgwr f => exact msgwr_writes ..
  | vget f => exact vget_writes ..
  | vstn f => exact vstn_writes ..
  | vset f => exact vset_writes ..
  | vins f => exact onceWord_writes fun e => allocWord_writes e f true
  | vdel f => exact onceWord_writes fun e => allocWord_writes e f false
  | vact f => exact vact_writes ..
  | vleaf f => exact vleaf_writes ..
  | vleafRel f => exact vleafRel_writes ..
  | vmrc f => exact vmrc_writes ..
  | halo f => exact halo_writes ..
  | vsmp f => exact vsmp_writes ..
  | rtrc f => exact rtrc_writes ..
  | rcont f => exact rcont_writes ..
  | rcontKill f => exact rcontKill_writes ..
  | rget f => exact rget_writes ..
  | rlog f => exact rlog_writes ..
  | rrpl f => exact rrpl_writes ..
  | hinv f => exact hinv_writes ..
  | bvhbBuild f => exact onceWord_writes fun e => bvhb_writes e f false
  | bvhbRefit f => exact onceWord_writes fun e => bvhb_writes e f true
  | bar f => exact bar_writes ..
  | cbar f => exact cbar_writes ..
  | arrv f => exact arrv_writes ..
  | wait f => exact wait_writes ..
  | gbar f => exact gbar_writes ..
  | tsbar f => exact tsbar_writes ..
  | rng f => exact rng_writes ..
  | cntr f => exact cntr_writes ..
  | cntc f => exact cntc_writes ..
  | trap f => exact trapWord_writes ..
  | brk f => exact trapWord_writes ..
  | csrr f => exact csrr_writes ..
  | csrw f => exact csrw_writes ..
  | iret f => exact iret_writes ..
  | tlbi f => exact tlbi_writes ..
  | halt f => exact halt_writes ..
  | pendingResultReturn gid idx => exact pendingReturn_writes ..
  | teamTrap tid => exact teamTrap_writes ..
  | admitTeam core => exact admit_writes ..
  | groupRetire gid => exact groupRetire_writes ..
  | gridComplete lid => exact gridComplete_writes ..
  | promote ctx => exact promote_writes ..
  | roundApply lid => exact roundApply_writes ..
  | teamCollectiveMatch tid => exact matchState_writes ..
  | teamPhaseComplete tid => exact phase_writes ..
  | cbarRelease lid cluster => exact cbarRelease_writes ..
  | dIntervalClose lid => exact dIntervalClose_writes ..
  | tileOpComplete gid => exact tileOp_writes ..
  | copyComplete op => exact copyComplete_writes ..
  | bulkChunkComplete op => exact bulkChunk_writes ..
  | copySuspend op => exact copySuspend_writes ..
  | copyFail op => exact copyFail_writes ..
  | collStepComplete ctx entry step => exact collStep_writes ..
  | collTimeout ctx entry step => exact collTimeout_writes ..
  | rampWindowRollover core => exact rampRollover_writes ..
  | timeSliceExpire ctx => exact timeSlice_writes ..
  | worldSwitchOut ctx => exact (outWrites_next ..).mpr (switchOut_writes ..)
  | worldSwitchIn ctx => exact (outWrites_next ..).mpr (switchIn_kept ..).writes
  | migration ctx lcore phys => exact migration_writes ..
  | forward core ctx lcore => exact forward_writes ..
  | controlInterrupt ctx => exact controlInterrupt_writes ..
  | teamctlResume ctx team => exact (outWrites_next ..).mpr (teamResume_kept ..).writes
  | teamctlTerminate ctx team => exact (outWrites_next ..).mpr (teamTerminate_kept ..).writes
  | cpyctlResume ctx opid => exact (outWrites_next ..).mpr (cpyResume_kept ..).writes
  | cpyctlCancel ctx opid => exact (outWrites_next ..).mpr (cpyCancel_writes ..)
  | create ctx f => exact create_writes ..
  | load ctx addr len => exact load_writes ..
  | start ctx => exact start_writes ..
  | stop ctx => exact stop_writes ..
  | destroy ctx => exact destroy_writes ..
  | checkpoint ctx => exact checkpoint_writes ..
  | quietPointCapture ctx => exact capture_writes ..
  | restore ctx image => exact restore_writes ctx image s
  | query ctx => exact query_writes ..
  | intailWrite ctx v => exact intail_writes ..
  | outackWrite ctx v clrOvr => exact outack_writes ..
  | packetReceive p => exact packet_writes ..
  | flitReceive f => exact flit_writes ..
  | ident => exact (outWrites_next ..).mpr (.refl _)
  | power => exact (outWrites_next ..).mpr (.refl _)
  | logs => exact (outWrites_next ..).mpr (.refl _)
  | counters ctx consent => exact (outWrites_next ..).mpr (.refl _)
  | debugStop tid => exact debugStop_writes ..
  | debugImageAccess gid acc => exact debugImage_writes ..
  | debugSingleStep gid => exact debugStep_writes ..
  | debugStepBack gid => exact debugStepBack_writes ..
  | debugResume tid => exact debugResume_writes ..
  | debugToken bytes => exact debugToken_writes ..
  | fuseAdvance => exact absurd rfl hi
  | warmReset => exact warmReset_writes ..
  | coldReset images => exact coldReset_writes ..
  | thermalStop die => exact thermalStop_writes ..
  | uncorrectableError t => exact error_writes ..
  | scratchpadPoison tid e => exact poison_writes ..
  | counterOverflow ctx core n => exact overflow_writes ..
  | issueSlot => exact issueSlot_writes s
  | thermalClockLowering die => exact clockLowering_writes ..

/-! ### The step -/

/-- The fuses, the memory, the contexts, the launches and the groups stand. -/
def State.SameWorld (s t : State) : Prop :=
  t.fuse = s.fuse ∧ t.mem = s.mem ∧ t.ctxs = s.ctxs ∧ t.launches = s.launches ∧ t.groups = s.groups
theorem State.Slotted.sameWorld {s t : State} (h : s.Slotted t) : s.SameWorld t := by
  rw [h]; exact ⟨rfl, rfl, rfl, rfl, rfl⟩
theorem tally_sameWorld (old : State) (i : Instr) (s : State) : s.SameWorld (tally old i s) := by
  obtain ⟨_, _, h⟩ := tally_frame old i s
  rw [h]; exact ⟨rfl, rfl, rfl, rfl, rfl⟩
theorem fetched_sameWorld (s : State) (p : Party) : s.SameWorld (s.fetched p) := by
  rw [s.fetched_frame p]; exact ⟨rfl, rfl, rfl, rfl, rfl⟩
theorem cached_sameWorld (old : State) (i : Instr) (s : State) : s.SameWorld (old.cached i s) := by
  obtain ⟨_, _, h⟩ := old.cached_cached i s
  rw [h]; exact ⟨rfl, rfl, rfl, rfl, rfl⟩
theorem State.SameWorld.trans {s t u : State} (h : s.SameWorld t) (h' : t.SameWorld u) : s.SameWorld u := by
  obtain ⟨h₁, h₂, h₃, h₄, h₅⟩ := h
  obtain ⟨k₁, k₂, k₃, k₄, k₅⟩ := h'
  exact ⟨k₁.trans h₁, k₂.trans h₂, k₃.trans h₃, k₄.trans h₄, k₅.trans h₅⟩
theorem State.SameWorld.kept {s t : State} (h : s.SameWorld t) : s.Kept t := ⟨h.1, h.2.1⟩

theorem writeUndo_writes (old s : State) : s.Writes (State.writeUndo old s) := by
  unfold State.writeUndo
  refine foldl_writes (fun u c => ?_) _ _
  split
  · exact place_writes ..
  · exact .refl u
/-- Where no group moved, the undo logs in the save areas stand. -/
theorem writeUndo_of_groups {old s : State} (h : s.groups = old.groups) : State.writeUndo old s = s := by
  have hlogs : ∀ cid, old.undoLogs cid = s.undoLogs cid := fun cid => by unfold State.undoLogs; rw [h]
  unfold State.writeUndo
  exact List.foldlRecOn (motive := fun u => u = s) _ _ rfl fun u hu c _ => by simp [hlogs, hu]

theorem fetch_kept {s t : State} {p : Party} (h : s.fetch p = .inr t) : s.Kept t := by
  unfold State.fetch at h
  split at h
  · cases h; exact ⟨rfl, rfl⟩
  · dsimp only at h
    repeat' split at h
    all_goals cases h
    all_goals simp

/-- What a step does: it runs an instruction or an event, and around it stand its counting, the caches, the undo logs and the slot; or
its fetch faults. -/
theorem step_runs {s t : State} (h : step s = .next t) :
    s.Kept t ∨ ∃ i u v, s.SameWorld u ∧ exec i u = .next v ∧ (State.writeUndo s (tally s i (s.cached i v))).SameWorld t := by
  have runs : ∀ {i : Instr} {o : Host.Outcome State Fault Refusal} {t : State}, tallied s i o = .next t →
      ∃ v, o = .next v ∧ State.writeUndo s (tally s i (s.cached i v)) = t := by
    intro i o t h
    cases o with
    | next v => cases h; exact ⟨v, rfl, rfl⟩
    | fault | refused => cases h
  have same : ∀ u : State, u.SameWorld u := fun u => ⟨rfl, rfl, rfl, rfl, rfl⟩
  cases hc : s.cur with
  | some p =>
    cases hf : s.fetch p with
    | inl i =>
      rw [step_of_fetch_inl hc hf] at h
      cases ho : tallied s i (exec i (s.fetched p)) with
      | next w =>
        rw [ho] at h
        cases h
        obtain ⟨v, hv, rfl⟩ := runs ho
        exact .inr ⟨i, s.fetched p, v, fetched_sameWorld s p, hv, (State.slotDone_slotted s _ p (some i)).sameWorld⟩
      | fault | refused => rw [ho] at h; cases h
    | inr u =>
      rw [step_of_fetch_inr hc hf] at h
      cases h
      exact .inl ((fetch_kept hf).trans (State.slotDone_slotted s u p none).sameWorld.kept)
  | none =>
    cases hi : s.inputs with
    | cons i rest =>
      have h' : tallied s i (exec i { s with inputs := rest }) = .next t := by simpa only [step, hc, hi] using h
      obtain ⟨v, hv, rfl⟩ := runs h'
      exact .inr ⟨i, { s with inputs := rest }, v, ⟨rfl, rfl, rfl, rfl, rfl⟩, hv, same _⟩
    | nil =>
      have h' : tallied s s.dueEvent (exec s.dueEvent s) = .next t := by simpa only [step, hc, hi] using h
      obtain ⟨v, hv, rfl⟩ := runs h'
      exact .inr ⟨s.dueEvent, s, v, same s, hv, same _⟩

/-- A step keeps the fuses and the canonical memory, or it advances the fuses and nothing else of the world. -/
theorem step_writes {s t : State} (h : step s = .next t) :
    s.Writes t ∨ (t.fuse = s.fuse.next ∧ t.mem = s.mem ∧ t.ctxs = s.ctxs ∧ t.launches = s.launches ∧ t.groups = s.groups) := by
  obtain hk | ⟨i, u, v, hu, hv, ht⟩ := step_runs h
  · exact .inl hk.writes
  by_cases hi : i = .fuseAdvance
  · subst hi
    cases hv
    obtain ⟨h₁, h₂, h₃, h₄, h₅⟩ := tally_sameWorld s .fuseAdvance { u with fuse := u.fuse.next }
    obtain ⟨u₁, u₂, u₃, u₄, u₅⟩ := hu
    have hcached : s.cached .fuseAdvance { u with fuse := u.fuse.next } = { u with fuse := u.fuse.next } := rfl
    rw [hcached, writeUndo_of_groups (h₅.trans u₅)] at ht
    obtain ⟨t₁, t₂, t₃, t₄, t₅⟩ := ht
    refine .inr ⟨?_, t₂.trans (h₂.trans u₂), t₃.trans (h₃.trans u₃), t₄.trans (h₄.trans u₄), t₅.trans (h₅.trans u₅)⟩
    rw [t₁, h₁, ← u₁]
  · have hw := hu.kept.writes.trans ((exec_writes hi u).next v hv)
    have ha := (cached_sameWorld s i v).trans (tally_sameWorld s i _)
    exact .inl (((hw.trans ha.kept.writes).trans (writeUndo_writes s _)).trans ht.kept.writes)

/-- Settles O59: every instruction, every event and what stands around them write memory by writes that keep its canonical form. -/
theorem everyStepKeepsTheMemoryCanonical : Obligations.EveryStepKeepsTheMemoryCanonical := by
  intro s t hs h
  obtain hw | ⟨_, hm, _⟩ := step_writes h
  · exact hw.2 hs
  · exact (congrArg Memory.wf hm).trans hs

/-- Settles O60: only the fuse word moves the fuses, by one, and it leaves the rest of the world. -/
theorem fusesNeverGoBack : Obligations.FusesNeverGoBack := by
  intro s t h
  obtain ⟨hf, _⟩ | ⟨hf, hm, hc, hl, hg⟩ := step_writes h
  · rw [hf]
    exact ⟨Nat.le_refl _, fun hne => absurd rfl hne⟩
  · rw [hf]
    cases hs : s.fuse
    all_goals simp [Fuse.next, hm, hc, hl, hg]

end Sys2Proof.Machine
end

section
/-! SUPPORT. The frame of a word once more: a body that faults, in team code and in control code, and the words that act once for their
group. TRAP and BRK, the control interrupt, IRET, and the counters' words (R359, R360, R376 to R383). -/

namespace Sys2Proof.Machine

/-! ### Checks in turn -/

@[simp] theorem chk_ok_bind {α β : Type} (a : α) (f : α → Chk β) : ((Except.ok a : Chk α) >>= f) = f a := rfl
@[simp] theorem chk_error_bind {α β : Type} (x : Flt) (f : α → Chk β) : ((Except.error x : Chk α) >>= f) = .error x := rfl
@[simp] theorem chk_ok_map {α β : Type} (a : α) (f : α → β) : (f <$> (Except.ok a : Chk α)) = .ok (f a) := rfl
@[simp] theorem chk_pure {α : Type} (a : α) : (pure a : Chk α) = .ok a := rfl
@[simp] theorem chk_throw {α : Type} (x : Flt) : (throw x : Chk α) = .error x := rfl
@[simp] theorem guardC_true (x : Flt) : guardC true x = .ok () := rfl
@[simp] theorem guardC_false (x : Flt) : guardC false x = .error x := rfl

/-! ### A body that faults -/

section
variable {i : Instr} {s : State} {e : Env} (h : Issues i s e) {body : Env → Res} {f : Flt}
include h

/-- The trap record of a word's fault. -/
theorem issueWord_faults (hb : body e = .fault f) (ho : f.owed = false) :
    issueWord i body s = .next (takeFault e.s e (e.record (some i) ((encode i).getD 0) f)) := by
  rw [issueWord_issues h, hb]
  simp [finish, ho]

theorem stopped_of_fault (hx : exec i s = issueWord i body s) (hb : body e = .fault f) (ho : f.owed = false) (hc : e.g.isCtl = true) :
    exec i s = .next (e.stopped f.code) := by
  rw [hx, issueWord_faults h hb ho, takeFault_ctl hc]
  rfl

theorem refused_of_fault (hx : exec i s = issueWord i body s) (hb : body e = .fault f) (ho : f.owed = false) :
    Refused i s e f.code f.lane f.addr :=
  ⟨fun hc => ⟨_, by rw [hx, issueWord_faults h hb ho, takeFault_team hc rfl], rfl, rfl, rfl, rfl, rfl, rfl⟩,
    fun hc => stopped_of_fault h hx hb ho hc⟩

theorem traps_of_fault (hx : exec i s = issueWord i body s) (hb : body e = .fault f) (ho : f.owed = false) (hc : e.g.isCtl = false) :
    Traps i s e f.code :=
  ⟨_, by rw [hx, issueWord_faults h hb ho, takeFault_team hc rfl], rfl, rfl, rfl, rfl⟩

theorem halts_of_fault (hx : exec i s = issueWord i body s) (hb : body e = .fault f) (ho : f.owed = false) : Halts i s e f.code :=
  ⟨traps_of_fault h hx hb ho, stopped_of_fault h hx hb ho⟩

end

/-! ### Words that act once for their group -/

section
variable {i : Instr} {s : State} {e : Env} (h : Issues i s e) {body : Env → Chk Res}
include h

theorem onceWord_acts (ha : e.acts i.guard) :
    onceWord i body s = .next (finish i e ((encode i).getD 0) (ofChk (body e))) := by
  refine (issueWord_issues h _).trans ?_
  have hb : (e.exec i.guard == 0 && !e.g.isCtl) = false := by
    rcases ha with ha | ha
    · simp [ha]
    · simp [ha]
  simp [hb]

theorem onceWord_idle (hc : e.g.isCtl = false) (hx : e.exec i.guard = 0) : onceWord i body s = .next (e.done i e.s) :=
  issueWord_ok h (by simp [hc, hx])

theorem onceWord_next (ha : e.acts i.guard) {t : State} (hb : body e = .ok (.ok t)) : onceWord i body s = .next (e.done i t) := by
  rw [onceWord_acts h ha, hb]; rfl

theorem onceWord_parks (ha : e.acts i.guard) {p : Park} (hp : p.written = false) {t : State} (hb : body e = .ok (.park p t)) :
    onceWord i body s = .next (e.parked i p t) := by
  rw [onceWord_acts h ha, hb]; exact congrArg _ (finish_park i e _ hp t)

theorem onceWord_faults (ha : e.acts i.guard) {f : Flt} (hb : body e = .error f) (ho : f.owed = false) :
    onceWord i body s = .next (takeFault e.s e (e.record (some i) ((encode i).getD 0) f)) := by
  rw [onceWord_acts h ha, hb]
  simp [ofChk, finish, ho]

end

/-- A word whose state is its group with a change completes with it. -/
theorem completes_of_done {i : Instr} {s : State} {e : Env} {c : Change} (hx : exec i s = .next (e.done i (e.s.putG e.gid (e.g.changed c)))) :
    Completes i s e c := by
  obtain ⟨u, hu⟩ := e.done_putG i (e.g.changed c)
  exact ⟨_, hx.trans (congrArg _ hu), left_of_changed e c u⟩

/-! ### TRAP and BRK -/

section
variable {i : Instr} {s : State} {e : Env} (h : Issues i s e) {code n : Nat} (hx : exec i s = trapWord i code n s)
include h hx

theorem trapWord_trapped (hc : e.g.isCtl = false) (he : e.exec i.guard ≠ 0) :
    ∃ r : FaultRec, exec i s = .next (e.trapped r) ∧ r.code = code ∧ r.arg = BitVec.ofNat 64 n ∧ r.fpc = e.pc := by
  refine ⟨e.record (some i) ((encode i).getD 0) { code := code, arg := n },
    hx.trans ((onceWord_faults h (.inl he) rfl rfl).trans ?_), rfl, rfl, rfl⟩
  rw [takeFault_team hc rfl]

theorem trapWord_idle (hc : e.g.isCtl = false) (he : e.exec i.guard = 0) : Effect i s e (· = e.s) :=
  ⟨_, hx.trans (onceWord_idle h hc he), rfl⟩

theorem trapWord_stopped (hc : e.g.isCtl = true) : exec i s = .next (e.stopped code) := by
  refine hx.trans ((onceWord_faults h (.inr hc) rfl rfl).trans ?_)
  rw [takeFault_ctl hc]
  rfl

end

/-- Settles O23: both words are one body that faults, for a group that acts. -/
theorem trapWordsComplete : Obligations.TrapWordsComplete := by
  intro s e
  exact ⟨fun f h hc hx => trapWord_trapped h rfl hc hx, fun f h hc hx => trapWord_trapped h rfl hc hx,
    fun f h hc hx => trapWord_idle h rfl hc hx, fun f h hc hx => trapWord_idle h rfl hc hx,
    fun f h hc => trapWord_stopped h rfl hc, fun f h hc => trapWord_stopped h rfl hc⟩

/-! ### The control interrupt and IRET -/

/-- Control code's context stands in the environment. -/
theorem Issues.ctx {i : Instr} {s : State} {e : Env} (h : Issues i s e) : tget e.cid e.s.ctxs = some e.ctx := by
  obtain ⟨⟨p, -, he⟩, -⟩ := h
  unfold envOf at he
  simp only [Option.bind_eq_bind, Option.bind_eq_some_iff] at he
  obtain ⟨g, -, sub, -, he⟩ := he
  split at he
  · simp only [Option.bind_eq_some_iff, Option.some.injEq] at he
    obtain ⟨c, hc, rfl⟩ := he
    exact hc
  · simp only [Option.bind_eq_some_iff, Option.some.injEq] at he
    obtain ⟨t, -, l, -, c, hc, rfl⟩ := he
    exact hc

theorem Issues.group {i : Instr} {s : State} {e : Env} (h : Issues i s e) : tget e.gid e.s.groups = some e.g := by
  obtain ⟨hs, hg⟩ := h.env
  rw [hs]; exact hg

theorem iret_state {e : Env} (hx : tget e.cid e.s.ctxs = some e.ctx) (hg : tget e.gid e.s.groups = some e.g) (hgid : e.gid = ctlGid e.cid) :
    let t := (returnInterrupt e.s e.cid).modC e.cid fun c => { c with debugReq := false }
    t = { e.s with ctxs := t.ctxs, groups := t.groups } ∧
    tget e.cid t.ctxs = some { e.ctx with inHandler := false, debugReq := false } ∧
    tget e.gid t.groups = some { e.g with slices := e.g.slices.modify 0 fun x => { x with pc := e.ctx.epc } } ∧
    (∀ k, k ≠ e.gid → tget k t.groups = tget k e.s.groups) ∧ (∀ k, k ≠ e.cid → tget k t.ctxs = tget k e.s.ctxs) := by
  simp only [returnInterrupt, hx]
  refine ⟨rfl, ?_, ?_, fun k hk => ?_, fun k hk => ?_⟩
  · simp [State.modC, State.putC, State.modG, tget_tmod_same, tget_tput_same]
  · simp [State.modC, State.putC, State.modG, tget_tmod_same, ← hgid, hg, Group.modSlice]
  · exact tget_tmod_ne _ _ (hgid ▸ hk)
  · exact (tget_tmod_ne _ _ hk).trans (tget_tput_ne _ _ hk)

/-- Settles O24: the interrupt's two writes, IRET's two writes, and its fault outside the handler. -/
theorem interruptAndReturnComplete : Obligations.InterruptAndReturnComplete := by
  intro s cid c g e
  refine ⟨fun hc hg hr hi hn he hp => ?_, fun f h hc hgid hin => ?_, fun f h hc hin => ?_⟩
  · have hready : s.interruptReady cid = true := by simp [State.interruptReady, hc, hg, hr, hi, hn, he, hp]
    show Host.Outcome.next (if s.interruptReady cid then takeInterrupt s cid else s) = _
    simp only [hready, if_true, takeInterrupt, hc, hg]
    rfl
  · exact ⟨_, issueWord_goto h (by simp [hin]), iret_state h.ctx h.group hgid⟩
  · exact stopped_of_fault (f := flt 0x01) h rfl (by simp [hin]) rfl hc

/-! ### CSR words, HALT -/

/-- A resident context's control program at a HALT, with no launch left. -/
def haltState : State :=
  { cur := some { gid := ctlGid 1, mask := 1 }, ctxs := [(1, { state := .resident, coreMap := [0] })], groups := [(ctlGid 1, ctlGroup 0)] }
def haltEnv : Env :=
  { s := { haltState with cur := none }, gid := ctlGid 1, g := ctlGroup 0, sub := { mask := 1 }, cid := 1,
    ctx := { state := .resident, coreMap := [0] }, pc := 0 }

theorem halt_issues : Issues (.halt {}) haltState haltEnv :=
  ⟨⟨{ gid := ctlGid 1, mask := 1 }, rfl, rfl⟩, (ready_iff ..).mpr rfl⟩

theorem Env.logWord_ctxs (e : Env) (i : Instr) (t : State) : (e.logWord i t).ctxs = t.ctxs := by
  unfold Env.logWord State.logUndo
  repeat' split
  all_goals rfl

theorem Env.gone_ctxs (e : Env) {i : Instr} (hm : i.marker = false) (t : State) : (e.gone i t).ctxs = t.ctxs := by
  have ha : ∀ u, e.after i u = u := fun u => by simp [Env.after, hm]
  rw [Env.gone, ha, Env.logWord_ctxs]
  rfl

/-- Refutes O25: a resident context that halts passes its turn, so its own `after` names it afterwards, as that of every context
that shares its cores does (R345); the statement keeps the old value. -/
theorem not_controlRegistersComplete : ¬ Obligations.ControlRegistersComplete := by
  intro h
  obtain ⟨-, -, -, hhalt, -⟩ := h haltState haltEnv rfl
  obtain ⟨x, t, hx, -, hc, -⟩ := hhalt {} halt_issues (by intro l hl; cases hl)
  obtain ⟨u, hu, ha⟩ : ∃ u, exec (.halt {}) haltState = .next u ∧ (tget 1 u.ctxs).map (·.after) = some 1 := ⟨_, rfl, by decide⟩
  rw [hx] at hu
  have hut : haltEnv.gone (.halt {}) t = u := by injection hu
  rw [← hut, Env.gone_ctxs _ rfl] at ha
  rw [show haltEnv.cid = 1 from rfl] at hc
  rw [hc] at ha
  revert ha
  decide

/-! ### Counters and draws -/

/-- The words of a walk that answers every executing lane. -/
theorem walkPend_ok (e : Env) (i : Instr) (f : RWord) (nreg : Nat) (ws : Nat → List Nat) (fl : Nat → Nat) :
    e.walkPend i f nreg (fun l => .ok (ws l, fl l)) = e.g.changed (e.laneChange f nreg ws fl) := by
  unfold Env.walkPend Env.laneChange
  by_cases hl : e.execLanes f.k = []
  · simp [hl, Group.changed_nil]
  · have hb : (e.execLanes f.k == []) = false := beq_false_of_ne hl
    have hflags : ((e.execLanes f.k).filterMap fun l => if fl l = 0 then none else some (l, BitVec.ofNat 32 (fl l))) =
        ((e.execLanes f.k).filter fun l => fl l != 0).map fun l => (l, BitVec.ofNat 32 (fl l)) := by
      rw [← List.filterMap_eq_map, List.filterMap_filter]
      refine List.filterMap_congr fun l _ => ?_
      by_cases h : fl l = 0 <;> simp [h]
    simp only [hb, Bool.false_eq_true, if_false, hl]
    rw [Group.addPend_changed]
    congr 3
    simp [Env.lanePend, Env.newPend, Env.fails, List.filterMap_map, hflags, List.flatMap_map] <;> rfl

theorem scalarPend_changed (e : Env) (f : RWord) (x : Nat) : e.scalarPend f x [] = e.g.changed { new := [e.scalarResult f x] } := by
  unfold Env.scalarPend
  exact Group.addPend_changed ..

/-- A change that is new pending results only. -/
theorem Group.changed_new (g : Group) (l : List Pend) : g.changed { new := l } =
    { g with pend := g.pend ++ l, nextPend := g.nextPend + l.length } := by
  have hp : g.pend.map (·.without { new := l }) = g.pend := by
    rw [List.map_congr_left fun q _ => q.without_nil _ rfl rfl]; exact List.map_id _
  have hs : g.slices.mapIdx (fun _ x => x) = g.slices := by simp [List.mapIdx_eq_zipIdx_map]
  simp [Group.changed, written, hp, hs]
theorem Env.laneChange_new (e : Env) (f : RWord) (nreg : Nat) (ws : Nat → List Nat) (fl : Nat → Nat) :
    e.laneChange f nreg ws fl = { new := (e.laneChange f nreg ws fl).new } := by
  unfold Env.laneChange
  split <;> rfl

/-- Each lane counts its own draw. -/
theorem draws_written (m m' : Sparse W32) {ls : List Nat} (hl : ls.Nodup) (hm : ∀ l ∈ ls, sget 0 m' l = sget 0 m l) :
    ls.foldl (fun d l => sset 0 d l (sget 0 d l + 1)) m' = written 0 m' (ls.map fun l => (l, sget 0 m l + 1)) := by
  induction ls generalizing m' with
  | nil => rfl
  | cons l ls ih =>
    obtain ⟨hn, hl⟩ := List.nodup_cons.mp hl
    have hne : ∀ k ∈ ls, k ≠ l := fun k hk h => hn (h ▸ hk)
    rw [List.foldl_cons, ih _ hl fun k hk => by rw [sget_sset_ne _ _ (hne k hk), hm k (List.mem_cons_of_mem _ hk)]]
    rw [hm l List.mem_cons_self]
    rfl

/-- Settles O26: RNG and CNTR leave a pending result, and CNTC's checks pass where its operands are in range. -/
theorem counterWordsComplete : Obligations.CounterWordsComplete := by
  intro s e
  refine ⟨fun f h => ?_, fun f v x h ha hv hx => ?_, fun f h => ?_⟩
  · intro x ws
    have hw := walkPend_ok e (.rng f) f (if f.m == 2 then 4 else 1) ws fun _ => 0
    refine ⟨_, issueWord_ok h (t := e.s.putG e.gid { e.walkPend (.rng f) f (if f.m == 2 then 4 else 1) (fun l => .ok (ws l, 0)) with
      draws := (e.execLanes f.k).foldl (fun d l => sset 0 d l (sget 0 d l + 1))
        (e.walkPend (.rng f) f (if f.m == 2 then 4 else 1) fun l => .ok (ws l, 0)).draws }) rfl, ?_⟩
    rw [hw, e.laneChange_new, Group.changed_new]
    exact congrArg (fun d => e.s.putG e.gid { e.g with
      pend := e.g.pend ++ (e.laneChange f (if f.m == 2 then 4 else 1) ws fun _ => 0).new,
      nextPend := e.g.nextPend + (e.laneChange f (if f.m == 2 then 4 else 1) ws fun _ => 0).new.length, draws := d })
      (draws_written e.g.draws e.g.draws (execLanes_nodup e f.k) fun _ _ => rfl)
  · exact completes_of_done (onceWord_next h ha (by simp [hv, hx, scalarPend_changed]))
  · intro a b k ha ha5 hb hev hcore
    have hargs : (decide (a < 2 ^ 26) && fld a 5 11 == 0 && decide (b < 2 ^ 15)) = true := by
      rw [decide_eq_true ha, decide_eq_true hb, ha5]; rfl
    have hplace : (if bitOf a 4 then decide (fld a 0 4 < 4) && decide (fld a 16 10 < 4) else decide (fld a 16 10 < e.ctx.f.cores)) = true := by
      split at hcore <;> simp_all
    refine ⟨_, issueWord_ok h ?_, rfl⟩
    show ofChk (guardC (decide (a < 2 ^ 26) && fld a 5 11 == 0 && decide (b < 2 ^ 15)) (flt 0x01) >>= fun _ =>
      guardC (eventOk (bitOf a 4) (fld b 0 8)) (flt 0x01) >>= fun _ =>
      guardC (if bitOf a 4 then decide (fld a 0 4 < 4) && decide (fld a 16 10 < 4) else decide (fld a 16 10 < e.ctx.f.cores)) (flt 0x01)
        >>= fun _ => _) = _
    rw [hargs, hev, hplace]
    rfl

end Sys2Proof.Machine
end

section
/-! SUPPORT. The checks that every word meets before it has an effect (R16, R47, R56, R57, R100), and the spill stack (R204, R205). -/

namespace Sys2Proof.Machine

/-! ### Every word runs in one frame -/

theorem exec_issueWord {i : Instr} (hi : i.toEnc.isSome = true) (s : State) : ∃ body, exec i s = issueWord i body s := by
  cases i with
  | iadd f =>
    show ∃ body, execIadd f s = _
    unfold execIadd
    split <;> exact ⟨_, rfl⟩
  | isub f =>
    show ∃ body, execIsub f s = _
    unfold execIsub
    split <;> exact ⟨_, rfl⟩
  | kmov f =>
    show ∃ body, execKmov f s = _
    unfold execKmov
    split <;> exact ⟨_, rfl⟩
  | pendingResultReturn | teamTrap | admitTeam | groupRetire | gridComplete | promote | roundApply | teamCollectiveMatch | teamPhaseComplete
  | cbarRelease | dIntervalClose | tileOpComplete | copyComplete | bulkChunkComplete | copySuspend | copyFail | collStepComplete | collTimeout
  | rampWindowRollover | timeSliceExpire | worldSwitchOut | worldSwitchIn | migration | forward | controlInterrupt | teamctlResume
  | teamctlTerminate | cpyctlResume | cpyctlCancel | create | load | start | stop | destroy | checkpoint | quietPointCapture | restore | query
  | intailWrite | outackWrite | packetReceive | flitReceive | ident | power | logs | counters | debugStop | debugImageAccess | debugSingleStep
  | debugStepBack | debugResume | debugToken | fuseAdvance | warmReset | coldReset | thermalStop | uncorrectableError | scratchpadPoison
  | counterOverflow | issueSlot | thermalClockLowering => cases hi
  | _ => exact ⟨_, rfl⟩

section
variable {i : Instr} {s : State} {p : Party} {e : Env} (hi : i.toEnc.isSome = true) (hp : s.cur = some p)
  (he : envOf { s with cur := none } p = some e)
include hi hp he

/-- A check that a word fails at issue. -/
theorem exec_of_preIssue {f : Flt} (h : preIssue i e = some (.fault f)) (ho : f.owed = false) :
    exec i s = .next (takeFault e.s e (e.record (some i) ((encode i).getD 0) f)) := by
  obtain ⟨body, hx⟩ := exec_issueWord hi s
  simp [hx, issueWord, hp, he, h, finish, ho]

theorem traps_of_preIssue {f : Flt} (h : preIssue i e = some (.fault f)) (ho : f.owed = false) (hc : e.g.isCtl = false) :
    Traps i s e f.code :=
  ⟨_, by rw [exec_of_preIssue hi hp he h ho, takeFault_team hc rfl], rfl, rfl, rfl, rfl⟩

theorem stopped_of_preIssue {f : Flt} (h : preIssue i e = some (.fault f)) (ho : f.owed = false) (hc : e.g.isCtl = true) :
    exec i s = .next (e.stopped f.code) := by
  rw [exec_of_preIssue hi hp he h ho, takeFault_ctl hc]
  rfl

/-- The thirty-third word that would hold pending results waits as at a marker (R47). -/
theorem exec_of_pendFull {t : State} (h : preIssue i e = some (.park .marker t)) :
    exec i s = .next (State.settle { s with cur := none } e.gid e.sub.mask) := by
  obtain ⟨body, hx⟩ := exec_issueWord hi s
  simp [hx, issueWord, hp, he, h, implicitMarker]

end

/-- Settles O21: the checks of issue in their order, each with its fault, and the wait for pending results. -/
theorem wordsCheckedAtIssue : Obligations.WordsCheckedAtIssue := by
  refine ⟨fun i s p e hi hp he => ⟨fun hc hk => ?_, fun hc hv => ?_, fun hc hv hb => ?_, fun hn hc hv hb hd => ?_, fun hn hc hk hd => ?_⟩,
    fun i s p e hi hpend hp he hfull => ⟨fun hc hv hb hl => ?_, fun hc hk => ?_⟩⟩
  · exact stopped_of_preIssue (f := flt 0x01) hi hp he (by simp [preIssue, hc, hk]) rfl hc
  · exact traps_of_preIssue (f := flt 0x18) hi hp he (by simp [preIssue, hc, hv]) rfl hc
  · exact traps_of_preIssue (f := flt 0x01) hi hp he (by simp [preIssue, hc, hv, hb]) rfl hc
  · obtain ⟨⟨c, l⟩, hd⟩ := Option.ne_none_iff_exists'.mp hd
    have hn' : e.pendFull i = false := (pendFull_iff i e).mpr fun hpend h => hn hpend (h.resolve_left (by simp [hc]))
    exact traps_of_preIssue (f := { code := 0x15, lane := l, fslice := some c }) hi hp he (by simp [preIssue, hc, hv, hb, hn', hd]) rfl hc
  · obtain ⟨⟨c, l⟩, hd⟩ := Option.ne_none_iff_exists'.mp hd
    have hn' : e.pendFull i = false := (pendFull_iff i e).mpr fun hpend _ => hn hpend
    exact stopped_of_preIssue (f := { code := 0x15, lane := l, fslice := some c }) hi hp he (by simp [preIssue, hc, hk, hn', hd]) rfl hc
  · have hn' : e.pendFull i = true := by simp [Env.pendFull, hpend, hl, hfull]
    exact exec_of_pendFull hi hp he (t := e.s) (by simp [preIssue, hc, hv, hb, hn'])
  · have hn' : e.pendFull i = true := by simp [Env.pendFull, hpend, hc, hfull]
    exact exec_of_pendFull hi hp he (t := e.s) (by simp [preIssue, hc, hk, hn'])

/-! ### The spill stack -/

/-- Settles O20: a push is a change of the live slices, a pop a change of them and a pending result. -/
theorem spillStackCompletes : Obligations.SpillStackCompletes := by
  intro s e live
  refine ⟨?push, ?pop⟩
  case push =>
    intro f h n bytes hroom
    have hany : (live.any fun c => decide (e.lch.lr.spill * 8 < (e.g.slice c).sp + n * spillSize f.a)) = false :=
      any_eq_false_of_forall fun c hc => decide_eq_false (Nat.not_lt.mpr (hroom c hc))
    have hfold := modSlices_changed e.g live
      (fun c x => { x with spill := mwrite x.spill x.sp (bytes c), sp := x.sp + n * spillSize f.a }) (slicesOf_nodup _)
    exact regWord_completes h rfl ((if_neg (ne_true_of_eq_false hany)).trans (congrArg Except.ok hfold))
  case pop =>
    intro f h n hroom size bytes
    have hany : (live.any fun c => decide ((e.g.slice c).sp < n * size)) = false :=
      any_eq_false_of_forall fun c hc => decide_eq_false (Nat.not_lt.mpr (hroom c hc))
    have hmod := modSlices_eq_changed e.g (e.sub.mask &&& e.g.liveMask) fun x => { x with sp := x.sp - n * size }
    refine regWord_completes h rfl ((if_neg (ne_true_of_eq_false hany)).trans (congrArg Except.ok ?_))
    dsimp only
    rw [hmod, Group.addPend_changed, Group.changed_changed _ _ _ rfl]
    rfl

end Sys2Proof.Machine
end

section
/-! SUPPORT. The words of the visibility ladder and of the barriers (R215 to R235, R368 to R374): each word's body, once its conditions are
known. -/

namespace Sys2Proof.Machine

/-! ### Conditions of the words -/

theorem Env.needWhole_ok {e : Env} (h : e.whole = true) : e.needWhole = .ok () := by simp [Env.needWhole, h]
theorem Env.needWhole_error {e : Env} (h : e.whole = false) : e.needWhole = .error (flt 0x03) := by simp [Env.needWhole, h]
theorem Env.owed_ok {e : Env} (h : e.g.owed = none) : e.owed = .ok () := by simp [Env.owed, h]
theorem Env.whole_iff {e : Env} : e.whole = true ↔ e.sub.mask = 255 := by simp [Env.whole]
theorem Env.abortTarget_ok {e : Env} {f : BWord} {t : W64} (h : e.target f.disp = some t) : e.abortTarget f = .ok t := by
  simp [Env.abortTarget, h]

/-- A whole gang that owes nothing and has no deferred refresh of an open phase parks at a team-collective word. -/
theorem Env.collPark_ok {e : Env} {check : Env → Chk Coll} {c : Coll} (hw : e.whole = true) (ho : e.g.owed = none)
    (hd : e.deferOpen = none) (hc : check e = .ok c) : e.collPark check = .ok (.park (.coll c) (e.s.catchUp e.gid)) := by
  simp [Env.collPark, Env.needWhole_ok hw, Env.owed_ok ho, hd, hc]

theorem Env.collPark_coll {e : Env} (c : Coll) (hw : e.whole = true) (ho : e.g.owed = none) (hd : e.deferOpen = none) :
    e.collPark (fun _ => .ok c) = .ok (.park (.coll c) (e.s.catchUp e.gid)) := Env.collPark_ok hw ho hd rfl

section
variable {i : Instr} {s : State} {e : Env} (h : Issues i s e)
include h

/-- A word whose body parks in turn. -/
theorem chkWord_parks {body : Env → Chk Res} {p : Park} {t : State} (hx : exec i s = issueWord i (fun e => ofChk (body e)) s)
    (hp : p.written = false) (hb : body e = .ok (.park p t)) : exec i s = .next (e.parked i p t) :=
  hx.trans (issueWord_park h hp (by rw [hb]; rfl))

theorem chkWord_ok {body : Env → Chk Res} {t : State} (hx : exec i s = issueWord i (fun e => ofChk (body e)) s)
    (hb : body e = .ok (.ok t)) : Effect i s e (· = t) :=
  ⟨t, hx.trans (issueWord_ok h (by rw [hb]; rfl)), rfl⟩

theorem chkWord_goto {body : Env → Chk Res} {t : State} (hx : exec i s = issueWord i (fun e => ofChk (body e)) s)
    (hb : body e = .ok (.goto t)) : exec i s = .next (e.gone i t) :=
  hx.trans (issueWord_goto h (by rw [hb]; rfl))

theorem chkWord_traps {body : Env → Chk Res} {f : Flt} (hx : exec i s = issueWord i (fun e => ofChk (body e)) s)
    (hb : body e = .error f) (ho : f.owed = false) (hc : e.g.isCtl = false) : Traps i s e f.code :=
  traps_of_fault (f := f) h hx (by rw [hb]; rfl) ho hc

theorem collWord_arrives {check : Env → Chk Coll} {c : Coll} (hx : exec i s = collWord i check s) (hw : e.whole = true)
    (ho : e.g.owed = none) (hd : e.deferOpen = none) (hc : check e = .ok c) :
    exec i s = .next (e.parked i (.coll c) (e.s.catchUp e.gid)) :=
  chkWord_parks h hx rfl (Env.collPark_ok hw ho hd hc)

end

/-- BAR's arrival (R368). -/
theorem bar_arrives {s : State} {e : Env} {f : RWord} (h : Issues (.bar f) s e) (hw : e.whole = true) (ho : e.g.owed = none)
    (hd : e.deferOpen = none) : exec (.bar f) s = .next (e.parked (.bar f) (.bar e.g.arrivals.toNat)
      ((e.s.catchUp e.gid).modG e.gid fun g => { g.cmitT e.team with arrivals := g.arrivals + 1 })) :=
  chkWord_parks h rfl rfl (by simp [Env.needWhole_ok hw, Env.owed_ok ho, hd])

theorem cmitT_effect {s : State} {e : Env} {f : RWord} (h : Issues (.cmitT f) s e) (hw : e.whole = true) :
    Effect (.cmitT f) s e (· = e.s.putG e.gid (e.g.cmitT e.team)) :=
  chkWord_ok h rfl (by simp [Env.needWhole_ok hw])

/-- The group after ABRT.G: the level's writes gone, and its eight slices at the target. -/
def Env.aborted (e : Env) (t : W64) : Group :=
  (e.g.abortG.modSlices (List.range 8) fun x => { x with pc := t }).modSub e.sub.mask fun x => { x with park := .none }

theorem abrtG_goes {s : State} {e : Env} {f : BWord} (h : Issues (.abrtG f) s e) (hw : e.whole = true) {t : W64}
    (ht : e.target f.disp = some t) : exec (.abrtG f) s = .next (e.gone (.abrtG f) (e.s.putG e.gid (e.aborted t))) :=
  chkWord_goto h rfl (by simp [Env.needWhole_ok hw, Env.abortTarget_ok ht, Env.aborted])

theorem Env.aborted_slices (e : Env) (t : W64) (n : Nat) :
    (e.aborted t).slices[n]? = (e.g.slices[n]?).map fun x => if n < 8 then { x with pc := t } else x := by
  have hs : (e.aborted t).slices = (List.range 8).foldl (fun xs i => xs.modify i fun x => { x with pc := t }) e.g.slices := by
    simp [Env.aborted, modSlices_slices, Group.modSub, Group.abortG]
  rw [hs, slices_foldl_modify _ _ _ _ List.nodup_range]
  simp

theorem Env.aborted_lvl (e : Env) (t : W64) : ∀ x ∈ (e.aborted t).subs, x.lvl = { view := e.g.tbase } := by
  intro x hx
  simp only [Env.aborted, modSlices_slices, Group.modSub, Group.abortG, List.mem_map, List.map_map, Function.comp] at hx
  obtain ⟨y, -, rfl⟩ := hx
  split <;> rfl

theorem Env.aborted_frame (e : Env) (t : W64) :
    e.aborted t = { e.g with slices := (e.aborted t).slices, subs := (e.aborted t).subs, lines := [], contrib := 0 } := by
  simp [Env.aborted, modSlices_slices, Group.modSub, Group.abortG]

/-! ### CMIT.T, RFSH.T, ABRT.G, FENCE -/

/-- Settles O28: each word by its body; ABRT.G by the group it leaves. -/
theorem ladderWordsComplete : Obligations.LadderWordsComplete := by
  intro s e
  refine ⟨fun f h hw => cmitT_effect h hw, fun f h ht => ?_, fun f h ht => ?_, fun f t h hw ht => ?_, fun f h hd hc => ?_,
    fun f h hd hc => ?_, fun f h hd => ?_⟩
  · exact ⟨_, issueWord_ok h (by simp [ht]; rfl), rfl⟩
  · exact issueWord_park h rfl (by simp [ht])
  · exact ⟨e.aborted t, abrtG_goes h hw ht, e.aborted_slices t, e.aborted_lvl t, by simp [Env.aborted, modSlices_slices, Group.modSub, Group.abortG],
      by simp [Env.aborted, modSlices_slices, Group.modSub, Group.abortG], e.aborted_frame t⟩
  · have hn : (e.fenceOps.any fun o => !o.2.isDone) = false := any_eq_false_of_forall fun o ho => by simp [hd o ho]
    exact ⟨_, issueWord_ok h (by simp only [hn, hc]; rfl), rfl⟩
  · have hn : (e.fenceOps.any fun o => !o.2.isDone) = false := any_eq_false_of_forall fun o ho => by simp [hd o ho]
    exact ⟨_, issueWord_ok h (by simp only [hn, hc]; rfl), rfl⟩
  · have hn : (e.fenceOps.any fun o => !o.2.isDone) = true := by
      obtain ⟨o, ho, hf⟩ := hd
      exact List.any_eq_true.mpr ⟨o, ho, by simp [hf]⟩
    exact issueWord_park h (by split <;> rfl) (by simp [hn])

/-! ### Commits -/

/-- A byte of a memory from which some addresses are taken. -/
theorem mget_filter (m : Memory) (p : Nat → Bool) (a : Nat) : mget (m.filter fun c => p c.1) a = if p a then mget m a else 0 := by
  by_cases ha : p a
  · simp only [ha, if_true]
    unfold mget sget
    rw [tget_filter _ m fun x => ha]
  · simp only [ha, Bool.false_eq_true, if_false]
    have hn : ∀ c ∈ m.filter (fun c => p c.1), c.1 ≠ a := fun c hc h => ha (h ▸ (List.mem_filter.mp hc).2)
    generalize m.filter (fun c => p c.1) = l at hn
    unfold mget sget
    induction l with
    | nil => rfl
    | cons c l ih =>
      rw [tget, if_neg (by simpa using hn c (by simp))]
      exact ih fun d hd => hn d (by simp [hd])

/-- Settles O29: CMIT.T on the one level of a group that is not late, and the deposit. -/
theorem commitsDeposit : Obligations.CommitsDeposit := by
  intro g t x l
  refine ⟨fun hx hl => ?_, ⟨rfl, rfl, rfl, rfl, rfl, rfl, rfl⟩, fun a => ?_⟩
  · simp [Group.cmitT, hx, hl]
  · exact (mget_filter t.data.data (fun a => decide (a < l.layout.pool)) a).trans (by simp)

/-! ### Team-collective words -/

/-- Settles O30: every word is a park of `Env.collPark`, or BAR's or CBAR's own. -/
theorem collectiveWordsArrive : Obligations.CollectiveWordsArrive := by
  intro s e hw ho hd
  refine ⟨fun f h => collWord_arrives h rfl hw ho hd rfl, fun f h => collWord_arrives h rfl hw ho hd rfl,
    fun f h => collWord_arrives h rfl hw ho hd rfl, fun f h hp => ?_, fun f t h ht => ?_, fun f a b q h ha hq => ?_, fun f h hc => ?_,
    fun f h hc => ?_, fun f h => ?_, fun f h => bar_arrives h hw ho hd⟩
  · exact chkWord_parks h rfl rfl (by simp [hp, Env.collPark_coll _ hw ho hd])
  · exact collWord_arrives h rfl hw ho hd (by simp [Env.abortTarget_ok ht])
  · exact collWord_arrives h rfl hw ho hd (by simp [ha, hq])
  · exact chkWord_parks h rfl rfl (by simp [Env.gridBarrier, Env.needWhole_ok hw, hc, Env.collPark_coll _ hw ho hd])
  · exact chkWord_parks h rfl rfl (by simp [Env.gridBarrier, Env.needWhole_ok hw, hc, Env.collPark_coll _ hw ho hd])
  · exact chkWord_parks h rfl rfl (by simp [Env.needWhole_ok hw, Env.owed_ok ho])

/-! ### RFSH.D, ARRV and WAIT -/

/-- With no deferred refresh there is nothing to catch up. -/
theorem catchUp_none {s : State} {gid : Nat} {g : Group} (hg : tget gid s.groups = some g) (hd : g.deferred = none) : s.catchUp gid = s := by
  simp [State.catchUp, hg, hd]

theorem arrv_effect {s : State} {e : Env} {f : RWord} (h : Issues (.arrv f) s e) (hw : e.whole = true) (ho : e.g.owed = none)
    (hd : e.g.deferred = none) : Effect (.arrv f) s e (· = e.s.putG e.gid { e.g.cmitT e.team with
      pend := e.g.pend ++ [e.scalarResult f e.g.arrivals.toNat], nextPend := e.g.nextPend + 1,
      arrivals := e.g.arrivals + 1, deferred := some e.g.arrivals }) := by
  have hl : e.g.late e.team = false := by simp [Group.late, hd]
  have hdo : e.deferOpen = none := by simp [Env.deferOpen, hl]
  refine chkWord_ok h rfl ?_
  simp only [Env.needWhole_ok hw, Env.owed_ok ho, chk_ok_bind, hdo, catchUp_none h.group hd, h.group, Option.getD_some, chk_pure,
    scalarPend_changed, Group.changed_new, Group.cmitT, hl]
  rfl

/-- WAIT by the distance of the phase from the group's last (R371). -/
theorem wait_cases {s : State} {e : Env} {f : RWord} {p : Nat} (h : Issues (.wait f) s e) (hw : e.whole = true)
    (ha : e.agreed f.k [f.a] = .ok [p]) (hp : p < 2 ^ 16) :
    let d := e.g.arrivals - 1 - BitVec.ofNat 16 p
    (d = 1 → Effect (.wait f) s e (· = e.s)) ∧
    (d ≠ 0 → d ≠ 1 → Effect (.wait f) s e (· = e.s.putG e.gid (e.g.raiseAll fST))) ∧
    (d = 0 → e.g.owed = none → e.deferOpen = none →
      Effect (.wait f) s e (· = (e.s.joinPhase e.gid (BitVec.ofNat 16 p)).catchUp e.gid)) ∧
    (∀ q, d = 0 → e.g.owed = none → e.deferOpen = some q → exec (.wait f) s = .next (e.parked (.wait f) (.phase q) e.s)) := by
  intro d
  have hpre : e.needWhole = .ok () := Env.needWhole_ok hw
  refine ⟨fun h1 => chkWord_ok h rfl ?_, fun h0 h1 => chkWord_ok h rfl ?_, fun h0 ho hd => chkWord_ok h rfl ?_,
    fun q h0 ho hd => chkWord_parks h rfl rfl ?_⟩
  all_goals
    simp only [hpre, ha, chk_ok_bind, List.getElem?_cons_zero, Option.getD_some, hp, decide_true, guardC_true]
  · rw [show e.g.arrivals - 1 - BitVec.ofNat 16 p = 1 from h1]; rfl
  · rw [if_neg (by simpa [d] using h1), if_pos (by simpa [d] using h0)]; rfl
  · rw [show e.g.arrivals - 1 - BitVec.ofNat 16 p = 0 from h0, Env.owed_ok ho, hd]; rfl
  · rw [show e.g.arrivals - 1 - BitVec.ofNat 16 p = 0 from h0, Env.owed_ok ho, hd]; rfl

/-- Settles O31: RFSH.D after its match, what the snapshot becomes, and the barrier words by the cases of their bodies. -/
theorem phaseWordsComplete : Obligations.PhaseWordsComplete := by
  intro s e
  refine ⟨fun f h hp hd ho => ?_, ⟨fun he => ?_, fun a hs hl => State.withDeps_out _ _ _ _ hs hl⟩, fun f h hp hd => ?_,
    fun f h hw ho hd => arrv_effect h hw ho hd, fun f p h hw ha hp => wait_cases h hw ha hp⟩
  · exact chkWord_ok h rfl (by simp [hp, hd, ho])
  · simp [State.withDeps, he]
  · exact chkWord_parks h rfl rfl (by simp [hp, hd])

end Sys2Proof.Machine
end

section
/-! SUPPORT. The checks of an access in their order (R196, R197), and where control words, accesses and group words trap. -/

namespace Sys2Proof.Machine

/-! ### Checks that run along a list -/

theorem find?_eq_some_of_split {α : Type} {p : α → Bool} {l before after : List α} {x : α} (hl : l = before ++ x :: after)
    (hb : ∀ y ∈ before, p y = false) (hx : p x = true) : l.find? p = some x :=
  List.find?_eq_some_iff_append.mpr ⟨hx, before, after, hl, fun y hy => by simp [hb y hy]⟩

/-- A walk stops at the first place that a check refuses. -/
theorem mapM_error_of_split {α β : Type} {g : α → Chk β} {l before after : List α} {x : α} {c : Flt} (hl : l = before ++ x :: after)
    (hb : ∀ y ∈ before, ∃ z, g y = .ok z) (hx : g x = .error c) : l.mapM g = .error c := by
  subst hl
  induction before with
  | nil => simp [List.mapM_cons, hx]
  | cons y before ih =>
    obtain ⟨z, hz⟩ := hb y (by simp)
    simp [List.mapM_cons, hz, ih fun w hw => hb w (List.mem_cons_of_mem _ hw)]

/-- A walk that no place refuses gives each place's answer. -/
theorem mapM_ok_iff {α β : Type} {g : α → Chk β} {l : List α} {zs : List β} :
    l.mapM g = .ok zs ↔ List.Forall₂ (fun x z => g x = .ok z) l zs := by
  induction l generalizing zs with
  | nil => simp [List.mapM_nil, eq_comm]
  | cons x l ih =>
    rw [List.mapM_cons]
    cases hx : g x with
    | error c => simp [List.forall₂_cons_left_iff, hx]
    | ok z =>
      cases hl : l.mapM g with
      | error c =>
        simp only [chk_ok_bind, chk_error_bind, reduceCtorEq, List.forall₂_cons_left_iff, hx, Except.ok.injEq, false_iff]
        rintro ⟨b, u, -, hu, -⟩
        rw [ih.mpr hu] at hl
        cases hl
      | ok ys =>
        simp only [chk_ok_bind, chk_pure, Except.ok.injEq, List.forall₂_cons_left_iff, hx]
        constructor
        · rintro rfl
          exact ⟨z, ys, rfl, ih.mp hl, rfl⟩
        · rintro ⟨b, u, rfl, hu, rfl⟩
          rw [ih.mpr hu, Except.ok.injEq] at hl
          rw [hl]

/-! ### Where an access reaches -/

/-- A check that names the first place that it refuses. -/
def refuseAt {α : Type} (o : Option α) (x : α → Flt) : Chk Unit := match o with | some a => .error (x a) | none => .ok ()

/-- Whether an address has no translation. -/
def untranslated (x : (Nat × Nat) × Except Nat Loc) : Bool := match x.2 with | .error c => c == 6 | .ok _ => false

theorem untranslated_iff {x : (Nat × Nat) × Except Nat Loc} : untranslated x = true ↔ x.2 = .error 6 := by
  unfold untranslated
  split <;> simp_all

/-- A place, or the fault of its address. -/
def placeAt (d : Opd) (x : (Nat × Nat) × Except Nat Loc) : Chk Place :=
  match x.2 with
  | .error c => .error (placeFlt d c x.1.1 x.1.2)
  | .ok l => .ok { p := x.1.1, addr := x.1.2, loc := l }

/-- The lanes or slices of an access with their addresses. -/
def Env.addrs (e : Env) (f : MWord) : List (Nat × Nat) := (e.places f.k f.d).map fun p => (p, e.addr f p)
def Env.located (e : Env) (f : MWord) (write cas : Bool) : List ((Nat × Nat) × Except Nat Loc) :=
  (e.addrs f).map fun x => (x, e.locate write cas x.2)

theorem placeAt_ok {d : Opd} {p a : Nat} {r : Except Nat Loc} {z : Place} :
    placeAt d ((p, a), r) = .ok z ↔ p = z.p ∧ a = z.addr ∧ r = .ok z.loc := by
  cases r with
  | error c => simp [placeAt]
  | ok l => cases z; simp [placeAt]

/-- Checks 2 to 5 of R197 in their order. -/
theorem Env.reach_eq (e : Env) (f : MWord) (write cas : Bool) : e.reach f write cas = (do
    refuseAt ((e.addrs f).find? fun x => x.2 % Width.bytes f.width != 0) fun x => placeFlt f.d 0x04 x.1 x.2
    refuseAt ((e.located f write cas).find? untranslated) fun x => placeFlt f.d 0x06 x.1.1 x.1.2
    let out ← (e.located f write cas).mapM (placeAt f.d)
    refuseAt (out.find? fun x => x.inRing e && !e.team.holds e.lch (gidG e.gid) x.off) fun x => placeFlt f.d 0x0B x.p x.addr
    return out) := by
  unfold Env.reach
  dsimp only
  split
  · rename_i x h1
    have h1' : (e.addrs f).find? (fun x => x.2 % Width.bytes f.width != 0) = some x := h1
    rw [h1']; rfl
  rename_i h1
  have h1' : (e.addrs f).find? (fun x => x.2 % Width.bytes f.width != 0) = none := h1
  rw [h1']
  simp only [refuseAt, chk_pure, chk_ok_bind]
  split
  · rename_i x h2
    have h2' : (e.located f write cas).find? untranslated = some x := h2
    rw [h2']; rfl
  rename_i h2
  have h2' : (e.located f write cas).find? untranslated = none := h2
  rw [h2']
  show ((e.located f write cas).mapM (placeAt f.d) >>= _) = ((e.located f write cas).mapM (placeAt f.d) >>= _)
  refine bind_congr fun out => ?_
  split
  · rename_i x h3; rw [h3]; rfl
  · rename_i h3; rw [h3]; rfl

section
variable {e : Env} {f : MWord} {write cas : Bool} {before after : List Nat} {p : Nat} (hp : e.places f.k f.d = before ++ p :: after)
include hp

theorem Env.addrs_split : e.addrs f = before.map (fun q => (q, e.addr f q)) ++ (p, e.addr f p) :: after.map fun q => (q, e.addr f q) := by
  simp [Env.addrs, hp]

/-- Check 2: the first misaligned address. -/
theorem Env.reach_misaligned (hb : ∀ q ∈ before, e.addr f q % Width.bytes f.width = 0) (hx : e.addr f p % Width.bytes f.width ≠ 0) :
    e.reach f write cas = .error (placeFlt f.d 0x04 p (e.addr f p)) := by
  rw [Env.reach_eq, find?_eq_some_of_split (Env.addrs_split hp) (List.forall_mem_map.mpr fun q hq => by simp [hb q hq]) (by simpa using hx)]
  rfl

theorem Env.located_split : e.located f write cas = before.map (fun q => ((q, e.addr f q), e.locate write cas (e.addr f q))) ++
    ((p, e.addr f p), e.locate write cas (e.addr f p)) :: after.map fun q => ((q, e.addr f q), e.locate write cas (e.addr f q)) := by
  simp [Env.located, Env.addrs, hp, Function.comp_def]

omit hp in
theorem Env.addrs_aligned (ha : ∀ q ∈ e.places f.k f.d, e.addr f q % Width.bytes f.width = 0) :
    (e.addrs f).find? (fun x => x.2 % Width.bytes f.width != 0) = none :=
  find?_none_of_forall (List.forall_mem_map.mpr fun q hq => by simp [ha q hq])

/-- Check 3: the first address without a translation. -/
theorem Env.reach_untranslated (ha : ∀ q ∈ e.places f.k f.d, e.addr f q % Width.bytes f.width = 0)
    (hb : ∀ q ∈ before, e.locate write cas (e.addr f q) ≠ .error 6) (hx : e.locate write cas (e.addr f p) = .error 6) :
    e.reach f write cas = .error (placeFlt f.d 0x06 p (e.addr f p)) := by
  rw [Env.reach_eq, Env.addrs_aligned ha, find?_eq_some_of_split (Env.located_split hp)
    (List.forall_mem_map.mpr fun q hq => by simpa using mt untranslated_iff.mp (hb q hq)) (untranslated_iff.mpr hx)]
  rfl

/-- Check 4: the first address whose type or permission refuses it. -/
theorem Env.reach_refused (ha : ∀ q ∈ e.places f.k f.d, e.addr f q % Width.bytes f.width = 0)
    (ht : ∀ q ∈ e.places f.k f.d, e.locate write cas (e.addr f q) ≠ .error 6)
    (hb : ∀ q ∈ before, ∃ l, e.locate write cas (e.addr f q) = .ok l) {c : Nat} (hx : e.locate write cas (e.addr f p) = .error c) :
    e.reach f write cas = .error (placeFlt f.d c p (e.addr f p)) := by
  have hu : (e.located f write cas).find? untranslated = none := find?_none_of_forall (by
    simp only [Env.located, Env.addrs, List.map_map, List.forall_mem_map]
    intro q hq
    simpa using mt untranslated_iff.mp (ht q hq))
  rw [Env.reach_eq, Env.addrs_aligned ha, hu, mapM_error_of_split (Env.located_split hp) (List.forall_mem_map.mpr fun q hq => ?_)
    (c := placeFlt f.d c p (e.addr f p)) (by simp [placeAt, hx])]
  · rfl
  · obtain ⟨l, hl⟩ := hb q hq
    exact ⟨{ p := q, addr := e.addr f q, loc := l }, by simp only [placeAt, hl]⟩

end

/-- What checks 2 to 4 ask of the places of an access. -/
structure Env.Reaches (e : Env) (f : MWord) (write cas : Bool) (ps : List Place) : Prop where
  places : ps.map (·.p) = e.places f.k f.d
  passed : ∀ x ∈ ps, x.addr = e.addr f x.p ∧ x.addr % Width.bytes f.width = 0 ∧ e.locate write cas x.addr = .ok x.loc

theorem Env.Reaches.located_eq {e : Env} {f : MWord} {write cas : Bool} {ps : List Place} (h : e.Reaches f write cas ps) :
    e.located f write cas = ps.map fun x => ((x.p, x.addr), .ok x.loc) := by
  rw [Env.located, Env.addrs, ← h.places, List.map_map, List.map_map]
  refine List.map_congr_left fun x hx => ?_
  obtain ⟨ha, -, hl⟩ := h.passed x hx
  simp [← ha, hl]

/-- Places that pass checks 2 to 4 meet check 5, ring bytes. -/
theorem Env.reach_of_reaches {e : Env} {f : MWord} {write cas : Bool} {ps : List Place} (h : e.Reaches f write cas ps) :
    e.reach f write cas = (do
      refuseAt (ps.find? fun x => x.inRing e && !e.team.holds e.lch (gidG e.gid) x.off) fun x => placeFlt f.d 0x0B x.p x.addr
      return ps) := by
  have hal : (e.addrs f).find? (fun x => x.2 % Width.bytes f.width != 0) = none := Env.addrs_aligned fun q hq => by
    rw [← h.places] at hq
    obtain ⟨x, hx, rfl⟩ := List.mem_map.mp hq
    obtain ⟨ha, hm, -⟩ := h.passed x hx
    rw [← ha, hm]
  have hu : (e.located f write cas).find? untranslated = none := by
    rw [h.located_eq]
    exact find?_none_of_forall (List.forall_mem_map.mpr fun x _ => rfl)
  have hm : (e.located f write cas).mapM (placeAt f.d) = .ok ps := by
    rw [h.located_eq, mapM_ok_iff, List.forall₂_map_left_iff]
    exact List.forall₂_same.mpr fun x _ => rfl
  rw [Env.reach_eq, hal, hu, hm]
  rfl

theorem refuseAt_ok {α : Type} {o : Option α} {x : α → Flt} {u : Unit} : refuseAt o x = .ok u ↔ o = none := by
  cases o <;> simp [refuseAt]

/-- Each check that passes says what it asks. -/
theorem chk_bind_ok {α β : Type} {x : Chk α} {g : α → Chk β} {b : β} : (x >>= g) = .ok b ↔ ∃ a, x = .ok a ∧ g a = .ok b := by
  cases x <;> simp

/-- An access reaches a list of places exactly when they pass the four checks. -/
theorem Env.reach_ok_iff {e : Env} {f : MWord} {write cas : Bool} {ps : List Place} : e.reach f write cas = .ok ps ↔
    e.Reaches f write cas ps ∧ ∀ x ∈ ps, x.inRing e = true → e.team.holds e.lch (gidG e.gid) x.off = true := by
  constructor
  · intro h
    have hr : e.Reaches f write cas ps := by
      rw [Env.reach_eq] at h
      simp only [chk_bind_ok, refuseAt_ok, chk_pure, Except.ok.injEq] at h
      obtain ⟨-, hal, -, -, out, hm, -, -, rfl⟩ := h
      rw [mapM_ok_iff, Env.located, Env.addrs, List.forall₂_map_left_iff, List.forall₂_map_left_iff] at hm
      simp only [placeAt_ok] at hm
      have hps : e.places f.k f.d = out.map (·.p) := by
        rw [← List.forall₂_eq_eq_eq, List.forall₂_map_right_iff]
        exact hm.imp fun _ _ h => h.1
      rw [hps, List.forall₂_map_left_iff, List.forall₂_same] at hm
      refine ⟨hps.symm, fun x hx => ?_⟩
      obtain ⟨-, ha, hl⟩ := hm x hx
      have hmem : (x.p, e.addr f x.p) ∈ e.addrs f := List.mem_map.mpr ⟨x.p, hps ▸ List.mem_map_of_mem hx, rfl⟩
      exact ⟨ha.symm, by rw [← ha]; simpa using List.find?_eq_none.mp hal _ hmem, ha ▸ hl⟩
    refine ⟨hr, ?_⟩
    rw [Env.reach_of_reaches hr] at h
    simp only [chk_bind_ok, refuseAt_ok, chk_pure, and_true, exists_const, List.find?_eq_none] at h
    intro x hx hi
    simpa [hi] using h x hx
  · rintro ⟨hr, hh⟩
    rw [Env.reach_of_reaches hr, find?_none_of_forall fun x hx => ?_]
    · rfl
    · cases hi : x.inRing e <;> simp [hh x hx, hi]

/-- Settles O16: what `Env.reach` answers has passed its checks. -/
theorem accessReachesAddress : Obligations.AccessReachesAddress := by
  intro e f write cas ps h
  obtain ⟨⟨hp, hx⟩, hr⟩ := Env.reach_ok_iff.mp h
  refine ⟨hp, fun x hm => ?_⟩
  obtain ⟨ha, h8, hl⟩ := hx x hm
  exact ⟨ha, h8, hl, hr x hm⟩

/-! ### The five words that reach memory -/

/-- An ordered atomic word has the whole gang. -/
def Env.gangOk (e : Env) (a : Access) (f : MWord) : Prop := (a = .atom ∨ a = .cas) → f.sx = true → e.whole = true

theorem Env.gangOk_guard {e : Env} {a : Access} {f : MWord} (h : e.gangOk a f) (ha : a = .atom ∨ a = .cas) :
    guardC (!f.sx || e.whole) (flt 0x03) = .ok () := by
  cases hs : f.sx with
  | false => rfl
  | true => simp [h ha hs]

section
variable {a : Access} {f : MWord} {s : State} {e : Env} (h : Issues (a.word f) s e) (hw : e.gangOk a f)
include h hw

theorem access_refused {x : Flt} (hx : e.reach f a.writes (a == .cas) = .error x) (ho : x.owed = false) :
    Refused (a.word f) s e x.code x.lane x.addr := by
  cases a with
  | ld => exact refused_of_fault (f := x) h rfl (by rw [show e.reach f false false = _ from hx]; rfl) ho
  | st => exact refused_of_fault (f := x) h rfl (by rw [show e.reach f true false = _ from hx]; rfl) ho
  | red => exact refused_of_fault (f := x) h rfl (by rw [show e.reach f true false = _ from hx]; rfl) ho
  | atom =>
    exact refused_of_fault (f := x) h rfl (by rw [Env.gangOk_guard hw (.inl rfl), show e.reach f true false = _ from hx]; rfl) ho
  | cas =>
    exact refused_of_fault (f := x) h rfl (by rw [Env.gangOk_guard hw (.inr rfl), show e.reach f true true = _ from hx]; rfl) ho

theorem access_overflows {ps : List Place} (hr : e.reach f a.writes (a == .cas) = .ok ps) (hl : a ≠ .ld) {x : Flt}
    (hx : e.needLines f.d ps (a.takes e f) = .error x) (ho : x.owed = false) : Refused (a.word f) s e x.code x.lane x.addr := by
  cases a with
  | ld => exact absurd rfl hl
  | st => exact refused_of_fault (f := x) h rfl (by
      rw [show e.reach f true false = _ from hr, chk_ok_bind]
      exact congrArg (fun c => ofChk (c >>= _)) hx) ho
  | red => exact refused_of_fault (f := x) h rfl (by
      rw [show e.reach f true false = _ from hr, chk_ok_bind]
      exact congrArg (fun c => ofChk (c >>= _)) hx) ho
  | atom => exact refused_of_fault (f := x) h rfl (by
      rw [Env.gangOk_guard hw (.inl rfl), show e.reach f true false = _ from hr, chk_ok_bind, chk_ok_bind]
      exact congrArg (fun c => ofChk (c >>= _)) hx) ho
  | cas => exact refused_of_fault (f := x) h rfl (by
      rw [Env.gangOk_guard hw (.inr rfl), show e.reach f true true = _ from hr, chk_ok_bind, chk_ok_bind]
      exact congrArg (fun c => ofChk (c >>= _)) hx) ho

theorem access_damaged {ps : List Place} (hr : e.reach f a.writes (a == .cas) = .ok ps) (hd : a.reads = true)
    (hn : a ≠ .ld → e.needLines f.d ps (a.takes e f) = .ok ()) {x : Flt} (hx : e.noPoison f ps = .error x) (ho : x.owed = false) :
    Refused (a.word f) s e x.code x.lane x.addr := by
  cases a with
  | st => cases hd
  | red => cases hd
  | ld => exact refused_of_fault (f := x) h rfl (by rw [show e.reach f false false = _ from hr, chk_ok_bind, hx]; rfl) ho
  | atom => exact refused_of_fault (f := x) h rfl (by
      rw [Env.gangOk_guard hw (.inl rfl), show e.reach f true false = _ from hr, chk_ok_bind, chk_ok_bind,
        show e.needLines f.d ps (e.rmwLines f.sx true _) = _ from hn (by decide), hx]; rfl) ho
  | cas => exact refused_of_fault (f := x) h rfl (by
      rw [Env.gangOk_guard hw (.inr rfl), show e.reach f true true = _ from hr, chk_ok_bind, chk_ok_bind,
        show e.needLines f.d ps (e.rmwLines f.sx false _) = _ from hn (by decide), hx]; rfl) ho

end

/-- Check 6 where all fits, and in control code. -/
theorem Env.needLines_ok {e : Env} {d : Opd} {ps : List Place} {take : List Place → List Nat × Nat}
    (h : e.g.isCtl = true ∨ e.linesFit (take ps).1 (take ps).2 = true) : e.needLines d ps take = .ok () := by
  unfold Env.needLines
  rcases h with h | h <;> simp [h]

/-- Check 6 names the first place that the lines do not hold. -/
theorem Env.needLines_error {e : Env} {d : Opd} {ps before after : List Place} {x : Place} {take : List Place → List Nat × Nat}
    (hc : e.g.isCtl = false) (hp : ps = before ++ x :: after)
    (hb : ∀ k < before.length, e.linesFit (take (ps.take (k + 1))).1 (take (ps.take (k + 1))).2 = true)
    (hx : ¬e.linesFit (take (before ++ [x])).1 (take (before ++ [x])).2 = true)
    (hn : ¬e.linesFit (take ps).1 (take ps).2 = true) : e.needLines d ps take = .error (placeFlt d 0x08 x.p x.addr) := by
  have hz : ps.zipIdx = before.zipIdx ++ (x, before.length) :: after.zipIdx (before.length + 1) := by
    rw [hp, List.zipIdx_append]; simp
  have hfind : ps.zipIdx.find? (fun y => !e.linesFit (take (ps.take (y.2 + 1))).1 (take (ps.take (y.2 + 1))).2) = some (x, before.length) := by
    refine find?_eq_some_of_split hz (fun y hy => ?_) ?_
    · have hlt : y.2 < before.length := by simpa using (List.mem_zipIdx hy).2.1
      simp [hb y.2 hlt]
    · have htake : ps.take (before.length + 1) = before ++ [x] := by rw [hp]; simp [List.take_append]
      simpa [htake] using hx
  unfold Env.needLines
  dsimp only
  rw [hc, Bool.false_or, if_neg hn, hfind]

/-- Check 7 looks at the places in turn. -/
theorem Env.noPoison_eq (e : Env) (f : MWord) (ps : List Place) :
    e.noPoison f ps = refuseAt (ps.find? (e.damagedAt (Width.bytes f.width))) fun x => placeFlt f.d 0x15 x.p x.addr := by
  unfold Env.noPoison
  dsimp only
  split
  · rename_i y hy
    have hy' : ps.find? (e.damagedAt (Width.bytes f.width)) = some y := hy
    rw [hy']; rfl
  · rename_i hy
    have hy' : ps.find? (e.damagedAt (Width.bytes f.width)) = none := hy
    rw [hy']; rfl

/-- Check 7 names the first damaged place. -/
theorem Env.noPoison_error {e : Env} {f : MWord} {ps before after : List Place} {x : Place} (hp : ps = before ++ x :: after)
    (hb : ∀ y ∈ before, e.damagedAt (Width.bytes f.width) y = false) (hx : e.damagedAt (Width.bytes f.width) x = true) :
    e.noPoison f ps = .error (placeFlt f.d 0x15 x.p x.addr) := by
  rw [Env.noPoison_eq, find?_eq_some_of_split hp hb hx]
  rfl

end Sys2Proof.Machine
end

section
/-! SUPPORT. Where control words, accesses and group words trap, and what an address reaches (R146 to R158, R188 to R205). -/

namespace Sys2Proof.Machine

/-! ### Control words -/

section
variable {e : Env} {g : Group} {way : Nat → Way} {keep : Bool}

theorem Env.decide_deep (hd : g.depthOf e.sub.mask = 16) : e.decide g true way keep = .fault (flt 0x0C) := by
  simp [Env.decide, hd]

/-- Two live slices with different ways. -/
theorem Env.decide_apart {i j : Nat} (hi : i ∈ e.live) (hj : j ∈ e.live) (hne : way i ≠ way j) : e.decide g false way keep =
    if keep then .faultIn (e.s.putG e.gid g) (flt 0x03) else .fault (flt 0x03) := by
  have ha : (e.live.all fun n => way n == way (lowest (maskOf e.live))) = false := by
    refine Bool.eq_false_iff.mpr fun ha => hne ?_
    rw [List.all_eq_true] at ha
    exact (beq_iff_eq.mp (ha i hi)).trans (beq_iff_eq.mp (ha j hj)).symm
  simp only [Env.decide, Bool.false_eq_true, if_false, ha]

variable {f : BWord} {taken : Nat → Bool} {t : W64}

theorem Env.branch_deep (ht : e.target f.disp = some t) (hpt : f.pt = true) (hd : g.depthOf e.sub.mask = 16) :
    e.branch g f taken keep = .fault (flt 0x0C) := by
  simp only [Env.branch, ht, hpt, Env.decide_deep hd]

theorem Env.branch_apart (ht : e.target f.disp = some t) (hpt : f.pt = false) {i j : Nat} (hi : i ∈ e.live) (hj : j ∈ e.live)
    (hti : taken i = true) (htj : taken j = false) : e.branch g f taken keep =
    if keep then .faultIn (e.s.putG e.gid g) (flt 0x03) else .fault (flt 0x03) := by
  simp only [Env.branch, ht, hpt]
  exact Env.decide_apart hi hj (by simp [hti, htj])

theorem Env.branch_outside (ht : e.target f.disp = none) {i : Nat} (hi : i ∈ e.live) (hti : taken i = true) :
    e.branch g f taken keep = .fault (e.outside f.disp) := by
  simp only [Env.branch, ht, List.any_eq_true.mpr ⟨i, hi, hti⟩, if_true]

end

theorem takeFault_of_team {e : Env} (hc : e.g.isCtl = false) (t : State) (r : FaultRec) :
    takeFault t e r = Env.trapped { e with s := t } r := by simp [takeFault, hc, Env.trapped]

section
variable {s : State} {e : Env} {i j : Nat} (hi : i ∈ e.live) (hj : j ∈ e.live)
include hi hj

omit hi hj in
/-- A change of scalar registers only. -/
theorem Group.changed_scalars (g : Group) (sw : List (Nat × W64)) : g.changed { sw := sw, sl := fun _ x => x } =
    { g with sreg := written 0 g.sreg sw, pend := g.pend.map (·.without { sw := sw, sl := fun _ x => x }),
             badS := g.badS.filter fun k => !(sw.any fun x => x.1 == k) } := by
  have hs : g.slices.mapIdx (fun _ x => x) = g.slices := by simp [List.mapIdx_eq_zipIdx_map]
  simp [Group.changed, written, hs]

/-- LOOP whose live slices disagree: the decrement stays (entry 14). -/
theorem loop_apart {f : BWord} (h : Issues (.loop f) s e) {t : W64} (hpt : f.pt = false) (ht : e.target f.disp = some t)
    (hni : e.g.sr f.st i ≠ 1) (hnj : e.g.sr f.st j = 1) (hc : e.g.isCtl = false) : ∃ (g : Group) (r : FaultRec),
      exec (.loop f) s = .next (Env.trapped { e with s := e.s.putG e.gid g } r) ∧ r.code = 3 ∧ r.fpc = e.pc ∧
      g.sreg = written 0 e.g.sreg (e.counted f.st) ∧
      g = { e.g with sreg := g.sreg, pend := g.pend, badS := g.badS, undo := g.undo } := by
  have hb : e.branch (e.countedGroup f.st) f (fun n => (e.countedGroup f.st).sr f.st n != 0) true =
      .faultIn (e.s.putG e.gid (e.countedGroup f.st)) (flt 0x03) :=
    Env.branch_apart ht hpt hi hj ((e.countedGroup_sr f.st hi).trans (by simpa using hni)) ((e.countedGroup_sr f.st hj).trans (by simp [hnj]))
  obtain ⟨u, hu⟩ := e.logWord_putG (.loop f) (e.countedGroup f.st)
  refine ⟨{ e.countedGroup f.st with undo := u }, e.record (some (.loop f)) ((encode (.loop f)).getD 0) (flt 0x03), ?_, rfl, rfl, ?_, ?_⟩
  · refine (exec_loop f s).trans ((issueWord_issues h _).trans ?_)
    rw [hb]
    show Host.Outcome.next (takeFault (e.logWord (.loop f) (e.s.putG e.gid (e.countedGroup f.st))) e _) = _
    rw [hu]
    exact congrArg _ (takeFault_of_team hc _ _)
  · rw [e.countedGroup_changed]; rfl
  · rw [e.countedGroup_changed, Group.changed_scalars]

end

/-- A call on a full stack. -/
theorem Env.callTo_full {e : Env} {c : Nat} (hc : c ∈ slicesOf e.sub.mask) (hlen : (e.g.slice c).call.length = 16) (t : W64) :
    e.callTo t = .fault (flt 0x1A) := by
  unfold Env.callTo
  dsimp only
  rw [List.any_eq_true.mpr ⟨c, hc, by simp [hlen]⟩, if_pos rfl]

/-! ### Targets read from registers -/

section
variable {e : Env} {o : Opd} {i : Nat} (hi : i ∈ e.live)
include hi

/-- A misaligned target. -/
theorem Env.targetsOk_misaligned (h : e.rd64 (4 * i) o % 8 ≠ 0) : ∃ x, e.targetsOk o = .error x ∧ x.code = 0x04 ∧ x.owed = false := by
  obtain ⟨n, hn⟩ := find?_some_of_mem (p := fun n => !(e.rd64 (4 * n) o % 8 == 0)) hi (by simpa using h)
  refine ⟨{ code := 0x04, fslice := some n, addr := e.rd64 (4 * n) o }, ?_, rfl, rfl⟩
  unfold Env.targetsOk
  dsimp only
  rw [hn]
  rfl

/-- A target outside the address space. -/
theorem Env.targetsOk_outside (ha : ∀ n ∈ e.live, e.rd64 (4 * n) o % 8 = 0) (h : 2 ^ 56 ≤ e.rd64 (4 * i) o) :
    ∃ x, e.targetsOk o = .error x ∧ x.code = 0x06 ∧ x.owed = false := by
  obtain ⟨n, hn⟩ := find?_some_of_mem (p := fun n => !Decidable.decide (e.rd64 (4 * n) o < 2 ^ 56)) hi (by simpa using h)
  refine ⟨{ code := 0x06, fslice := some n, addr := e.rd64 (4 * n) o }, ?_, rfl, rfl⟩
  unfold Env.targetsOk
  dsimp only
  rw [find?_none_of_forall fun n hn => by simp [ha n hn], hn]
  rfl

end

section
variable {s : State} {e : Env} {i j : Nat} (hi : i ∈ e.live) (hj : j ∈ e.live)
include hi hj

theorem jmpi_halts {f : RWord} (h : Issues (.jmpi f) s e) :
    let dest := fun n => e.rd64 (4 * n) f.a
    (dest i % 8 ≠ 0 → Halts (.jmpi f) s e 0x04) ∧
    ((∀ n ∈ e.live, dest n % 8 = 0) → 2 ^ 56 ≤ dest i → Halts (.jmpi f) s e 0x06) ∧
    ((∀ n ∈ e.live, dest n % 8 = 0 ∧ dest n < 2 ^ 56) →
      (f.m = 1 → e.g.depthOf e.sub.mask = 16 → Halts (.jmpi f) s e 0x0C) ∧ (f.m ≠ 1 → dest i ≠ dest j → Halts (.jmpi f) s e 0x03)) := by
  intro dest
  refine ⟨fun h8 => ?_, fun ha h56 => ?_, fun ha => ⟨fun hm hd => ?_, fun hm hne => ?_⟩⟩
  · obtain ⟨x, hx, hc, ho⟩ := Env.targetsOk_misaligned hi h8
    exact hc ▸ halts_of_fault h rfl (by rw [hx]) ho
  · obtain ⟨x, hx, hc, ho⟩ := Env.targetsOk_outside hi ha h56
    exact hc ▸ halts_of_fault h rfl (by rw [hx]) ho
  · have hmb : (f.m.val == 1) = true := by rw [hm]; rfl
    exact halts_of_fault (f := flt 0x0C) h rfl (by rw [e.targetsOk_ok ha, hmb]; exact Env.decide_deep hd) rfl
  · have hmb : (f.m.val == 1) = false := beq_false_of_ne fun hv => hm (Fin.ext hv)
    have hway : ((true, BitVec.ofNat 64 (dest i)) : Way) ≠ (true, BitVec.ofNat 64 (dest j)) := fun hw => hne (by
      have hnat : (BitVec.ofNat 64 (dest i)).toNat = (BitVec.ofNat 64 (dest j)).toNat := congrArg (fun w : Way => w.2.toNat) hw
      have h1 := (ha i hi).2
      have h2 := (ha j hj).2
      simp only [BitVec.toNat_ofNat] at hnat
      omega)
    exact halts_of_fault (f := flt 0x03) h rfl (by rw [e.targetsOk_ok ha, hmb]; exact Env.decide_apart hi hj hway) rfl

theorem calli_halts {f : RWord} (h : Issues (.calli f) s e) :
    let dest := fun n => e.rd64 (4 * n) f.a
    (dest i ≠ dest j → Halts (.calli f) s e 0x03) ∧
    ((∀ n ∈ e.live, dest n = dest i) →
      (dest i % 8 ≠ 0 → Halts (.calli f) s e 0x04) ∧ (dest i % 8 = 0 → 2 ^ 56 ≤ dest i → Halts (.calli f) s e 0x06) ∧
      (dest i % 8 = 0 → dest i < 2 ^ 56 → ∀ c ∈ slicesOf e.sub.mask, (e.g.slice c).call.length = 16 → Halts (.calli f) s e 0x1A)) := by
  intro dest
  refine ⟨fun hne => ?_, fun ha => ?_⟩
  · have hany : (e.live.any fun n => e.rd64 (4 * n) f.a != e.rd64 (4 * lowest (maskOf e.live)) f.a) = true := by
      rw [List.any_eq_true]
      by_cases hd : dest i = dest (lowest (maskOf e.live))
      · exact ⟨j, hj, by simpa [dest, hd] using fun hjl : dest j = dest (lowest (maskOf e.live)) => hne (hd.trans hjl.symm)⟩
      · exact ⟨i, hi, by simpa [dest] using hd⟩
    exact halts_of_fault (f := flt 0x03) h rfl (by simp only [hany, if_true]) rfl
  have hany : (e.live.any fun n => e.rd64 (4 * n) f.a != e.rd64 (4 * lowest (maskOf e.live)) f.a) = false :=
    any_eq_false_of_forall fun n hn => by
      have hlow : dest (lowest (maskOf e.live)) = dest i := ha _ (lowest_live_mem (List.ne_nil_of_mem hi))
      simpa [dest, hlow] using ha n hn
  refine ⟨fun h8 => ?_, fun h8 h56 => ?_, fun h8 h56 c hc hlen => ?_⟩
  · obtain ⟨x, hx, hc, ho⟩ := Env.targetsOk_misaligned hi h8
    exact hc ▸ halts_of_fault h rfl (by simp only [hany, hx, Bool.false_eq_true, if_false]) ho
  · obtain ⟨x, hx, hc, ho⟩ := Env.targetsOk_outside hi (fun n hn => by rw [← h8]; exact congrArg (· % 8) (ha n hn)) h56
    exact hc ▸ halts_of_fault h rfl (by simp only [hany, hx, Bool.false_eq_true, if_false]) ho
  · have hok : e.targetsOk f.a = .ok () := e.targetsOk_ok fun n hn => by
      have hd : e.rd64 (4 * n) f.a = dest i := ha n hn
      rw [hd]; exact ⟨h8, h56⟩
    exact halts_of_fault (f := flt 0x1A) h rfl (by
      simp only [hany, hok, Bool.false_eq_true, if_false]; exact Env.callTo_full hc hlen _) rfl

theorem ret_halts {f : RWord} (h : Issues (.ret f) s e) :
    ((e.g.slice i).call = [] → Halts (.ret f) s e 0x1A) ∧
    ((∀ n ∈ e.live, (e.g.slice n).call ≠ []) → (e.g.slice i).call.head? ≠ (e.g.slice j).call.head? → Halts (.ret f) s e 0x03) := by
  refine ⟨fun he => ?_, fun hne hd => ?_⟩
  · have hany : (e.live.any fun n => (e.g.slice n).call.isEmpty) = true := List.any_eq_true.mpr ⟨i, hi, by simp [he]⟩
    exact halts_of_fault (f := flt 0x1A) h rfl (by simp only [hany, if_true]) rfl
  · have hany : (e.live.any fun n => (e.g.slice n).call.isEmpty) = false := any_eq_false_of_forall fun n hn => by simp [hne n hn]
    have hap : (e.live.any fun n => (e.g.slice n).call.headD 0 != (e.g.slice (lowest (maskOf e.live))).call.headD 0) = true := by
      have htop : ∀ n ∈ e.live, (e.g.slice n).call.head? = some ((e.g.slice n).call.headD 0) := fun n hn => by
        obtain ⟨x, l, hx⟩ := List.exists_cons_of_ne_nil (hne n hn)
        rw [hx]; rfl
      rw [htop i hi, htop j hj, ne_eq, Option.some.injEq] at hd
      rw [List.any_eq_true]
      by_cases hl : (e.g.slice i).call.headD 0 = (e.g.slice (lowest (maskOf e.live))).call.headD 0
      · exact ⟨j, hj, bne_iff_ne.mpr fun hjl => hd (hl.trans hjl.symm)⟩
      · exact ⟨i, hi, bne_iff_ne.mpr hl⟩
    exact halts_of_fault (f := flt 0x03) h rfl (by simp only [hany, hap, Bool.false_eq_true, if_false, if_true]) rfl

/-- A control word that traps or stops the control program (R146, R152 to R154). -/
theorem controlWords_halt (t : W64) :
    (∀ f, Issues (.bra f) s e → f.pt = false → e.target f.disp = some t →
      condHolds f.cc (e.g.flags i) = true → condHolds f.cc (e.g.flags j) = false → Halts (.bra f) s e 0x03) ∧
    (∀ f, Issues (.bkz f) s e → f.pt = false → e.target f.disp = some t →
      e.g.maskBits f.kt i = 0 → e.g.maskBits f.kt j ≠ 0 → e.g.isCtl = false → Traps (.bkz f) s e 0x03) ∧
    (∀ f, Issues (.bknz f) s e → f.pt = false → e.target f.disp = some t →
      e.g.maskBits f.kt i ≠ 0 → e.g.maskBits f.kt j = 0 → e.g.isCtl = false → Traps (.bknz f) s e 0x03) ∧
    (∀ f, f.pt = true → e.target f.disp = some t → e.g.depthOf e.sub.mask = 16 →
      (Issues (.bra f) s e → Halts (.bra f) s e 0x0C) ∧ (Issues (.bkz f) s e → Halts (.bkz f) s e 0x0C) ∧
      (Issues (.bknz f) s e → Halts (.bknz f) s e 0x0C) ∧ (Issues (.loop f) s e → Halts (.loop f) s e 0x0C)) ∧
    (∀ f, e.target f.disp = none →
      (Issues (.bra f) s e → condHolds f.cc (e.g.flags i) = true → Halts (.bra f) s e 0x06) ∧
      (Issues (.bkz f) s e → (e.g.isCtl = true ∨ e.g.maskBits f.kt i = 0) → Halts (.bkz f) s e 0x06) ∧
      (Issues (.bknz f) s e → e.g.isCtl = false → e.g.maskBits f.kt i ≠ 0 → Traps (.bknz f) s e 0x06) ∧
      (Issues (.loop f) s e → e.g.sr f.st i ≠ 1 → Halts (.loop f) s e 0x06) ∧
      (Issues (.call f) s e → Halts (.call f) s e 0x06)) := by
  refine ⟨fun f h hpt ht hti htj => ?_, fun f h hpt ht hti htj hc => ?_, fun f h hpt ht hti htj hc => ?_,
    fun f hpt ht hd => ⟨fun h => ?_, fun h => ?_, fun h => ?_, fun h => ?_⟩,
    fun f ht => ⟨fun h hti => ?_, fun h hti => ?_, fun h hc hti => ?_, fun h hti => ?_, fun h => ?_⟩⟩
  · exact halts_of_fault (f := flt 0x03) h rfl (Env.branch_apart ht hpt hi hj hti htj) rfl
  · exact traps_of_fault (f := flt 0x03) h rfl (Env.branch_apart ht hpt hi hj (by simp [hti]) (by simp [hc, htj])) rfl hc
  · exact traps_of_fault (f := flt 0x03) h rfl (Env.branch_apart ht hpt hi hj (by simp [hc, hti]) (by simp [htj])) rfl hc
  · exact halts_of_fault (f := flt 0x0C) h rfl (Env.branch_deep ht hpt hd) rfl
  · exact halts_of_fault (f := flt 0x0C) h rfl (Env.branch_deep ht hpt hd) rfl
  · exact halts_of_fault (f := flt 0x0C) h rfl (Env.branch_deep ht hpt hd) rfl
  · have hdc : (e.countedGroup f.st).depthOf e.sub.mask = 16 := by rw [e.countedGroup_changed]; exact hd
    exact halts_of_fault (f := flt 0x0C) h (exec_loop f s) (Env.branch_deep ht hpt hdc) rfl
  · exact halts_of_fault (f := e.outside f.disp) h rfl (Env.branch_outside ht hi hti) rfl
  · exact halts_of_fault (f := e.outside f.disp) h rfl (Env.branch_outside ht hi (by rcases hti with hc | hk <;> simp [*])) rfl
  · exact traps_of_fault (f := e.outside f.disp) h rfl (Env.branch_outside ht hi (by simp [hc, hti])) rfl hc
  · exact halts_of_fault (f := e.outside f.disp) h (exec_loop f s)
      (Env.branch_outside ht hi ((e.countedGroup_sr f.st hi).trans (by simpa using hti))) rfl
  · exact halts_of_fault (f := e.outside f.disp) h rfl (by rw [ht]) rfl

end

/-! ### Accesses in the order of their checks (R197) -/

/-- Checks 2 to 4, by the first place that one of them refuses. -/
theorem access_refused_by_place {s : State} {e : Env} {a : Access} {f : MWord} {before after : List Nat} {p : Nat}
    (h : Issues (a.word f) s e) (hw : e.gangOk a f) (hp : e.places f.k f.d = before ++ p :: after) :
    let n := Width.bytes f.width
    let at' := fun q => e.locate a.writes (a == .cas) (e.addr f q)
    let faults := fun code => Refused (a.word f) s e code (if f.d.isV then p else 255) (e.addr f p)
    ((∀ q ∈ before, e.addr f q % n = 0) → e.addr f p % n ≠ 0 → faults 0x04) ∧
    ((∀ q ∈ e.places f.k f.d, e.addr f q % n = 0) →
      ((∀ q ∈ before, at' q ≠ .error 6) → at' p = .error 6 → faults 0x06) ∧
      (∀ c, (∀ q ∈ e.places f.k f.d, at' q ≠ .error 6) → (∀ q ∈ before, ∃ l, at' q = .ok l) → at' p = .error c → faults c)) :=
  ⟨fun hb hx => access_refused h hw (Env.reach_misaligned hp hb hx) rfl,
    fun ha => ⟨fun hb hx => access_refused h hw (Env.reach_untranslated hp ha hb hx) rfl,
      fun _ ht hb hx => access_refused h hw (Env.reach_refused hp ha ht hb hx) rfl⟩⟩

/-- Checks 5 to 7, by the first place that one of them refuses. -/
theorem access_refused_by_bytes {s : State} {e : Env} {a : Access} {f : MWord} {ps before after : List Place} {x : Place}
    (h : Issues (a.word f) s e) (hw : e.gangOk a f) (hp : ps = before ++ x :: after) (hr : e.Reaches f a.writes (a == .cas) ps) :
    let n := Width.bytes f.width
    let holds := fun (y : Place) => y.inRing e = true → e.team.holds e.lch (gidG e.gid) y.off = true
    let fits := fun (l : List Place) => e.linesFit (a.takes e f l).1 (a.takes e f l).2 = true
    let faults := fun code => Refused (a.word f) s e code (if f.d.isV then x.p else 255) x.addr
    ((∀ y ∈ before, holds y) → ¬holds x → faults 0x0B) ∧
    ((∀ y ∈ ps, holds y) →
      (a ≠ .ld → e.g.isCtl = false → (∀ k < before.length, fits (ps.take (k + 1))) → ¬fits (before ++ [x]) → ¬fits ps → faults 0x08) ∧
      (a.reads = true → (a = .ld ∨ e.g.isCtl = true ∨ fits ps) →
        (∀ y ∈ before, e.damagedAt n y = false) → e.damagedAt n x = true → faults 0x15)) := by
  intro n holds fits faults
  have hring : ∀ y : Place, (y.inRing e && !e.team.holds e.lch (gidG e.gid) y.off) = false ↔ holds y := fun y => by
    simp only [holds]
    cases y.inRing e <;> simp
  refine ⟨fun hb hx => access_refused h hw (x := placeFlt f.d 0x0B x.p x.addr) ?_ rfl, fun hh => ?_⟩
  · rw [Env.reach_of_reaches hr, find?_eq_some_of_split hp (fun y hy => (hring y).mpr (hb y hy))
      (Bool.not_eq_false _ ▸ mt (hring x).mp hx)]
    rfl
  have hok : e.reach f a.writes (a == .cas) = .ok ps := Env.reach_ok_iff.mpr ⟨hr, hh⟩
  refine ⟨fun hl hc hb hx hn => access_overflows h hw hok hl (Env.needLines_error hc hp hb hx hn) rfl,
    fun hd hfit hb hx => access_damaged h hw hok hd (fun hl => Env.needLines_ok ?_) (Env.noPoison_error hp hb hx) rfl⟩
  rcases hfit with h1 | h1 | h1
  · exact absurd h1 hl
  · exact .inl h1
  · exact .inr h1

/-! ### What an address reaches (R188, R191, R283) -/

section
variable {e : Env} {write cas : Bool} {va : Nat}

theorem Env.locate_chip (h : 2 ^ 55 ≤ va) (h' : va < 2 ^ 56) :
    e.locate write cas va = if e.g.isCtl then .error 7 else e.chip write va := by
  unfold Env.locate
  rw [if_neg (by omega), if_pos h]

theorem Env.locate_translated (h : va < 2 ^ 55) :
    (∀ c, translate e.s e.cid va = .error c → e.locate write cas va = .error c) ∧
    (∀ q, translate e.s e.cid va = .ok q → (q.ty ≠ 6 → e.locate write cas va = .error 5) ∧
      (q.ty = 6 → e.g.isCtl = false → e.locate write cas va = .error 7) ∧
      (q.ty = 6 → e.g.isCtl = true →
        (∀ c, blockOf q.target = .error c → e.locate write cas va = .error c) ∧
        (∀ b off, blockOf q.target = .ok (b, off) →
          let shut := if write then q.w = false ∨ b = 18 ∨ cas = true ∧ (16 ≤ b ∨ q.r = false) else q.r = false
          (shut → e.locate write cas va = .error 7) ∧
          (¬shut → e.locate write cas va = .ok (if b < 16 then .mem (physKey e.cid 6 q.target) else .block b off))))) := by
  unfold Env.locate
  rw [if_neg (by omega), if_neg (by omega)]
  refine ⟨fun c hc => by rw [hc], fun q hq => ?_⟩
  rw [hq]
  refine ⟨fun ht => by simp [ht], fun ht hc => by simp [ht, hc], fun ht hc => ⟨fun c hb => by simp [ht, hc, hb], fun b off hb => ?_⟩⟩
  intro shut
  have hs : (if write then !q.w || b == 18 || cas && (16 ≤ b || !q.r) else !q.r) = true ↔ shut := by
    cases write <;> simp [shut, or_assoc]
  constructor
  · intro h1
    simp [ht, hc, hb, hs.mpr h1]
  · intro h1
    simp [ht, hc, hb, mt hs.mp h1]

theorem Env.locate_window (h : 2 ^ 55 ≤ va) (h' : va < 2 ^ 56) (hc : e.g.isCtl = false) :
    let y := e.lch.layout
    (∀ c, e.window va = .error c → e.locate write cas va = .error c) ∧
    (∀ u off, e.window va = .ok (true, u, off) →
      (off < y.pool → e.locate write cas va = .ok (.own off)) ∧
      (y.rings ≤ off → y.pool ≤ off → off < y.spills → e.locate write cas va = if write then .error 7
        else if tget ((off - y.pool) / 4224) e.team.pins = some (gidG e.gid) then .ok (.own off) else .error 0x0F) ∧
      (y.rings ≤ off → y.pool ≤ off → y.spills ≤ off →
        e.locate write cas va = if off < y.sys ∨ write then .error 7 else .ok (.own off))) ∧
    (∀ u off, e.window va = .ok (false, u, off) →
      e.locate write cas va = if (off < y.rings ∨ off < y.pool) ∧ write = false then .ok (.peer (e.peerImage u) off) else .error 7) := by
  rw [Env.locate_chip h h', hc]
  simp only [Bool.false_eq_true, if_false, Env.chip]
  refine ⟨fun c hw => by rw [hw], fun u off hw => ?_, fun u off hw => ?_⟩
  · rw [hw]
    dsimp only
    unfold Launch.areaOf
    dsimp only
    refine ⟨fun h1 => ?_, fun h1 h2 h3 => ?_, fun h1 h2 h3 => ?_⟩
    · by_cases hr : off < e.lch.layout.rings <;> simp [h1, hr]
    · simp [Nat.not_lt.mpr h1, Nat.not_lt.mpr h2, h3]
    · by_cases hs : off < e.lch.layout.sys <;> simp [Nat.not_lt.mpr h1, Nat.not_lt.mpr h2, Nat.not_lt.mpr h3, hs]
  · rw [hw]
    dsimp only
    unfold Launch.areaOf
    dsimp only
    by_cases hr : off < e.lch.layout.rings
    · cases write <;> simp [hr]
    · by_cases hp : off < e.lch.layout.pool
      · cases write <;> simp [hr, hp]
      · by_cases hs : off < e.lch.layout.spills
        · simp [hr, hp, hs]
        · by_cases hy : off < e.lch.layout.sys <;> simp [hr, hp, hs, hy]

end

/-! ### The spill stack, and words of the whole gang -/

theorem groupWords_trap (s : State) (e : Env) (hc : e.g.isCtl = false) :
    (∀ (h : RWord) c, c ∈ slicesOf (e.sub.mask &&& e.g.liveMask) →
      (Issues (.pushs h) s e → e.lch.lr.spill * 8 < (e.g.slice c).sp + (h.m.val + 1) * spillSize h.a → Traps (.pushs h) s e 0x0E) ∧
      (Issues (.pops h) s e → (e.g.slice c).sp < (h.m.val + 1) * spillSize h.d → Traps (.pops h) s e 0x0E)) ∧
    (e.whole = false → (∀ f, Issues (.cbar f) s e → Traps (.cbar f) s e 0x03) ∧
      (∀ f, Issues (.mbld f) s e → Traps (.mbld f) s e 0x03) ∧ (∀ f, Issues (.mma f) s e → Traps (.mma f) s e 0x03)) ∧
    (e.whole = true → e.lch.lr.coop = false → (∀ f, Issues (.gbar f) s e → Traps (.gbar f) s e 0x12) ∧
      (∀ f, Issues (.tsbar f) s e → Traps (.tsbar f) s e 0x12)) := by
  refine ⟨fun h c hm => ⟨fun hi hsp => ?_, fun hi hsp => ?_⟩, fun hw => ⟨fun f hi => ?_, fun f hi => ?_, fun f hi => ?_⟩,
    fun hw hco => ⟨fun f hi => ?_, fun f hi => ?_⟩⟩
  · exact regWord_traps hi hc (f := flt 0x0E) rfl (if_pos (List.any_eq_true.mpr ⟨c, hm, by simpa using hsp⟩)) rfl
  · exact regWord_traps hi hc (f := flt 0x0E) rfl (if_pos (List.any_eq_true.mpr ⟨c, hm, by simpa using hsp⟩)) rfl
  · exact chkWord_traps hi (f := flt 0x03) rfl (by rw [Env.needWhole_error hw]; rfl) rfl hc
  · exact chkWord_traps hi (f := flt 0x03) rfl (by simp [Env.all32, hw]) rfl hc
  · exact chkWord_traps hi (f := flt 0x03) rfl (by simp [Env.all32, hw]) rfl hc
  · exact chkWord_traps hi (f := flt 0x12) rfl (by simp [Env.gridBarrier, Env.needWhole_ok hw, hco]) rfl hc
  · exact chkWord_traps hi (f := flt 0x12) rfl (by simp [Env.gridBarrier, Env.needWhole_ok hw, hco]) rfl hc

/-- Settles O12: control words by the decision that they reach, accesses by the first place that a check refuses, addresses by their range. -/
theorem controlMemoryAndGroupWordsTrap : Obligations.ControlMemoryAndGroupWordsTrap := by
  refine ⟨fun s e t i j hi hj => ?_, fun s e a f before after p h hw hp => access_refused_by_place h hw hp,
    fun s e a f ps before after x h hw hp hps hx => access_refused_by_bytes h hw hp ⟨hps, hx⟩, fun e write cas va => ?_, groupWords_trap⟩
  · obtain ⟨hbra, hbkz, hbknz, hdeep, hout⟩ := controlWords_halt (s := s) hi hj t
    exact ⟨hbra, hbkz, hbknz, fun f h hpt ht hni hnj hc => loop_apart hi hj h hpt ht hni hnj hc, hdeep, hout, fun f h => jmpi_halts hi hj h,
      fun f h ht c hc hlen => halts_of_fault (f := flt 0x1A) h rfl (by rw [ht]; exact Env.callTo_full hc hlen t) rfl,
      fun f h => calli_halts hi hj h, fun f h => ret_halts hi hj h,
      fun f h hd => halts_of_fault (f := flt 0x0C) h rfl (by simp [hd]) rfl⟩
  · exact ⟨fun h => by unfold Env.locate; rw [if_pos h], Env.locate_translated, fun h h' hc => by rw [Env.locate_chip h h', hc]; rfl,
      Env.locate_window⟩

end Sys2Proof.Machine
end

section
/-! SUPPORT. Bytes: what a read of a memory gives after writes, and control memory at H (R4, R185, R200, R235). -/

namespace Sys2Proof.Machine

/-! ### Reads and writes -/

theorem mread_eq_map (m : Memory) (a n : Nat) : mread m a n = (List.range n).map fun i => mget m (a + i) := by
  induction n generalizing a with
  | zero => rfl
  | succ n ih =>
    rw [mread, ih, List.range_succ_eq_map, List.map_cons, List.map_map]
    simp [Function.comp_def, Nat.add_comm, Nat.add_left_comm]

@[simp] theorem mread_length (m : Memory) (a n : Nat) : (mread m a n).length = n := by simp [mread_eq_map]

theorem mread_getElem? (m : Memory) (a n i : Nat) : (mread m a n)[i]? = if i < n then some (mget m (a + i)) else none := by
  rw [mread_eq_map]
  by_cases h : i < n <;> simp [h]

theorem mread_congr {m m' : Memory} {a n : Nat} (h : ∀ x, a ≤ x → x < a + n → mget m x = mget m' x) : mread m a n = mread m' a n := by
  rw [mread_eq_map, mread_eq_map]
  exact List.map_congr_left fun i hi => h _ (by omega) (by have := List.mem_range.mp hi; omega)

theorem mnat_congr {m m' : Memory} {a n : Nat} (h : ∀ x, a ≤ x → x < a + n → mget m x = mget m' x) : mnat m a n = mnat m' a n :=
  congrArg leNat (mread_congr h)

/-- A byte of a written range does not depend on what stood there. -/
theorem mget_mwrite_in (m m' : Memory) {a x : Nat} (l : List Byte) (hx : a ≤ x) (hx' : x < a + l.length) :
    mget (mwrite m a l) x = mget (mwrite m' a l) x := by
  induction l generalizing a m m' with
  | nil => simp at hx'; omega
  | cons b l ih =>
    rw [mwrite, mwrite]
    rcases Nat.eq_or_lt_of_le hx with rfl | hlt
    · rw [mget_mwrite_out _ l (by omega), mget_mwrite_out _ l (by omega), mget_mset_same, mget_mset_same]
    · exact ih _ _ hlt (by simp at hx'; omega)

/-- Writes of the same bytes keep two memories that read alike so. -/
theorem mget_mwrite_congr {m m' : Memory} (h : ∀ x, mget m x = mget m' x) (a : Nat) (l : List Byte) (x : Nat) :
    mget (mwrite m a l) x = mget (mwrite m' a l) x := by
  by_cases hx : a ≤ x ∧ x < a + l.length
  · exact mget_mwrite_in m m' l hx.1 hx.2
  · rw [mget_mwrite_out m l (by omega), mget_mwrite_out m' l (by omega), h]

/-- What a range holds may be written over it. -/
theorem mget_mwrite_mread (m v : Memory) (a n x : Nat) :
    mget (mwrite m a (mread v a n)) x = if a ≤ x ∧ x < a + n then mget v x else mget m x := by
  split
  · next h =>
    have hr : mread (mwrite m a (mread v a n)) a n = mread v a n := by simpa using mread_mwrite m a (mread v a n)
    have hi := congrArg (·[x - a]?) hr
    have hlt : x - a < n := by omega
    have hxa : a + (x - a) = x := by omega
    simp only [mread_getElem?, hlt, if_true, hxa, Option.some.injEq] at hi
    exact hi
  · next h => exact mget_mwrite_out m _ (by simp; omega)

theorem leNat_lt (l : List Byte) : leNat l < 2 ^ (8 * l.length) := by
  induction l with
  | nil => decide
  | cons b l ih =>
    have hb : b.toNat < 256 := b.isLt
    have hp : 2 ^ (8 * (b :: l).length) = 256 * 2 ^ (8 * l.length) := by
      rw [List.length_cons, Nat.mul_succ, Nat.pow_add]; omega
    rw [leNat, hp]
    omega

theorem leBytes_leNat (l : List Byte) : leBytes l.length (leNat l) = l := by
  induction l with
  | nil => rfl
  | cons b l ih =>
    have hb : b.toNat < 256 := b.isLt
    have hd : (b.toNat + 256 * leNat l) / 256 = leNat l := by omega
    have hm : BitVec.ofNat 8 (b.toNat + 256 * leNat l) = b := BitVec.eq_of_toNat_eq (by simp only [BitVec.toNat_ofNat]; omega)
    rw [List.length_cons, leBytes, leNat, hd, hm, ih]

theorem leBytes_mod (n v : Nat) : leBytes n (v % 2 ^ (8 * n)) = leBytes n v := by
  induction n generalizing v with
  | zero => rfl
  | succ n ih =>
    have hp : 2 ^ (8 * (n + 1)) = 256 * 2 ^ (8 * n) := by rw [Nat.mul_succ, Nat.pow_add]; omega
    have hm : BitVec.ofNat 8 (v % 2 ^ (8 * (n + 1))) = BitVec.ofNat 8 v := BitVec.eq_of_toNat_eq (by
      simp only [BitVec.toNat_ofNat]
      rw [hp]
      exact Nat.mod_mod_of_dvd v ⟨2 ^ (8 * n), rfl⟩)
    rw [leBytes, leBytes, hm, hp, Nat.mod_mul_right_div_self, ih]

theorem leNat_leBytes_mod (n v : Nat) : leNat (leBytes n v) = v % 2 ^ (8 * n) := by
  rw [← leBytes_mod]
  refine leNat_leBytes n _ ?_
  have hp : (256 : Nat) ^ n = 2 ^ (8 * n) := by rw [Nat.pow_mul]
  rw [hp]
  exact Nat.mod_lt _ (Nat.two_pow_pos _)

theorem mnat_lt (m : Memory) (a n : Nat) : mnat m a n < 2 ^ (8 * n) := by simpa [mnat] using leNat_lt (mread m a n)

theorem leBytes_mnat (m : Memory) (a n : Nat) : leBytes n (mnat m a n) = mread m a n := by
  simpa [mnat] using leBytes_leNat (mread m a n)

/-- A number read back where it was written. -/
theorem mnat_mwrite_same (m : Memory) (a n v : Nat) : mnat (mwrite m a (leBytes n v)) a n = v % 2 ^ (8 * n) := by
  have h := mread_mwrite m a (leBytes n v)
  rw [leBytes_length] at h
  rw [mnat, h, leNat_leBytes_mod]

theorem mnat_mwrite_out (m : Memory) {a b n : Nat} (l : List Byte) (h : b + n ≤ a ∨ a + l.length ≤ b) :
    mnat (mwrite m a l) b n = mnat m b n :=
  mnat_congr fun x _ _ => mget_mwrite_out m l (by omega)

/-! ### Writes by cells -/

theorem mapply_cells (m : Memory) (a : Nat) (bs : List Byte) : mapply m (cells a bs) = mwrite m a bs := by
  unfold cells mapply
  rw [List.foldl_map]
  suffices h : ∀ k, (bs.zipIdx k).foldl (fun m x => mset m (a + x.2) x.1) m = mwrite m (a + k) bs from h 0
  intro k
  induction bs generalizing m k with
  | nil => rfl
  | cons b bs ih => rw [List.zipIdx_cons, List.foldl_cons, ih, mwrite]; rfl

/-- What an address that some writes meet holds after them does not depend on what stood there. -/
theorem mget_mapply_in (m m' : Memory) {x : Nat} {ws : List Host.Cell} (hx : ∃ w ∈ ws, w.1 = x) : mget (mapply m ws) x = mget (mapply m' ws) x := by
  induction ws generalizing m m' with
  | nil => obtain ⟨w, hw, -⟩ := hx; cases hw
  | cons w ws ih =>
    show mget (mapply (mset m w.1 w.2) ws) x = mget (mapply (mset m' w.1 w.2) ws) x
    by_cases h : ∃ v ∈ ws, v.1 = x
    · exact ih _ _ h
    · have hn : ∀ v ∈ ws, v.1 ≠ x := fun v hv hvx => h ⟨v, hv, hvx⟩
      obtain ⟨v, hv, rfl⟩ := hx
      rcases List.mem_cons.mp hv with rfl | hv
      · rw [mget_mapply_out _ ws hn, mget_mapply_out _ ws hn, mget_mset_same, mget_mset_same]
      · exact absurd rfl (hn v hv)

theorem mget_mapply_congr {m m' : Memory} {x : Nat} (ws : List Host.Cell) (h : mget m x = mget m' x) :
    mget (mapply m ws) x = mget (mapply m' ws) x := by
  by_cases hx : ∃ w ∈ ws, w.1 = x
  · exact mget_mapply_in m m' hx
  · have hn : ∀ w ∈ ws, w.1 ≠ x := fun w hw hwx => hx ⟨w, hw, hwx⟩
    rw [mget_mapply_out _ ws hn, mget_mapply_out _ ws hn, h]

theorem mem_of_tget {α : Type} {k : Nat} {x : α} {t : Tab α} (h : tget k t = some x) : (k, x) ∈ t := by
  induction t with
  | nil => cases h
  | cons p t ih =>
    obtain ⟨j, y⟩ := p
    rw [tget] at h
    split at h
    · next hj => rw [← beq_iff_eq.mp hj, ← Option.some.inj h]; simp
    · exact List.mem_cons_of_mem _ (ih h)

theorem tget_none_iff {α : Type} {k : Nat} {t : Tab α} : tget k t = none ↔ ∀ p ∈ t, p.1 ≠ k := by
  induction t with
  | nil => simp [tget]
  | cons p t ih =>
    obtain ⟨j, y⟩ := p
    by_cases hj : j = k <;> simp [tget, hj, ih]

theorem lt_of_risingFrom {α : Type} {j : Nat} {t : Tab α} (h : risingFrom (some j) t = true) : ∀ q ∈ t, j < q.1 := by
  induction t generalizing j with
  | nil => simp
  | cons p t ih =>
    obtain ⟨k, y⟩ := p
    simp only [risingFrom, Bool.and_eq_true, decide_eq_true_eq] at h
    intro q hq
    rcases List.mem_cons.mp hq with rfl | hq
    · exact h.1
    · exact h.1.trans (ih h.2 q hq)

/-- A memory reads a table's bytes over its own. -/
theorem mget_mapply_rising {t : Tab Byte} (m : Memory) (x : Nat) {lo : Option Nat} (h : risingFrom lo t = true) :
    mget (mapply m t) x = (tget x t).getD (mget m x) := by
  induction t generalizing m lo with
  | nil => rfl
  | cons p t ih =>
    obtain ⟨j, y⟩ := p
    have ht : risingFrom (some j) t = true := (Bool.and_eq_true_iff.mp h).2
    show mget (mapply (mset m j y) t) x = _
    rw [ih _ ht, tget]
    by_cases hj : j = x
    · subst hj
      have hn : tget j t = none := tget_none_iff.mpr fun q hq hqj => by
        have := lt_of_risingFrom ht q hq
        omega
      simp [hn, mget_mset_same]
    · rw [if_neg (by simpa using hj), mget_mset_ne m y (Ne.symm hj)]

/-- A table over which later writes are put reads as the writes over what it read. -/
theorem mget_mapply_toverlay (m : Memory) {t : Tab Byte} (ws : List Host.Cell) (h : risingFrom none t = true) (x : Nat) :
    mget (mapply m (toverlay t ws)) x = mget (mapply (mapply m t) ws) x := by
  induction ws generalizing t with
  | nil => rfl
  | cons w ws ih =>
    have ht : risingFrom none (tput w.1 w.2 t) = true := rising_tput _ rfl h
    refine (ih ht).trans (mget_mapply_congr (m' := mset (mapply m t) w.1 w.2) ws ?_)
    rw [mget_mapply_rising _ _ ht]
    by_cases hx : x = w.1
    · rw [hx, tget_tput_same, mget_mset_same]; rfl
    · rw [tget_tput_ne _ _ hx, mget_mset_ne _ _ hx, mget_mapply_rising _ _ h]

/-- Writes that name each byte once read as the bytes written. -/
theorem mget_mapply_ofCells (m : Memory) (a : Nat) (bs : List Byte) (x : Nat) :
    mget (mapply m (MemW.ofCells (cells a bs)).b) x = mget (mwrite m a bs) x :=
  (mget_mapply_toverlay m (t := []) (cells a bs) rfl x).trans (by rw [← mapply_cells]; rfl)

/-! ### Control memory at H (R235) -/

/-- What a launch has brought to H: its writes, once it has completed. -/
def Launch.brought (l : Launch) : MemW := match l.state with | .done _ => l.total | _ => {}

theorem hImage_eq (s : State) : hImage s = s.launches.foldl (fun m l => m.apply l.2.brought) { data := s.mem, poison := s.memPoison } := by
  unfold hImage
  congr 1
  funext m l
  unfold Launch.brought
  cases l.2.state <;> rfl

theorem hImage_data (s : State) : (hImage s).data = s.launches.foldl (fun m l => mapply m l.2.brought.b) s.mem := by
  rw [hImage_eq]
  suffices h : ∀ m : Image, (s.launches.foldl (fun m l => m.apply l.2.brought) m).data =
      s.launches.foldl (fun m l => mapply m l.2.brought.b) m.data from h _
  induction s.launches with
  | nil => exact fun _ => rfl
  | cons l ls ih => exact fun m => (ih _).trans (by rw [Image.apply_data]; rfl)

/-- What a launch keeps under a later write. -/
def Launch.below (w : MemW) (l : Launch) : Launch :=
  match l.state with
  | .done _ => { l with total := { b := l.total.b.filter fun c => (tget c.1 w.b).isNone, p := l.total.p.filter fun c => (tget c.1 w.p).isNone } }
  | _ => l

theorem State.hWrite_launches (s : State) (w : MemW) : (s.hWrite w).launches = s.launches.map fun l => (l.1, l.2.below w) := by
  refine List.map_congr_left fun l _ => ?_
  unfold Launch.below
  split <;> simp_all

theorem Launch.below_brought (w : MemW) (l : Launch) : (l.below w).brought.b = l.brought.b.filter fun c => (tget c.1 w.b).isNone := by
  unfold Launch.brought Launch.below
  cases hl : l.state <;> simp [hl]

theorem mget_mapply_below {m m' : Memory} {x : Nat} (h : mget m x = mget m' x) (ws : List Host.Cell) (b : Tab Byte) :
    mget (mapply m (ws.filter fun c => (tget c.1 b).isNone)) x = if (tget x b).isSome then mget m' x else mget (mapply m' ws) x := by
  induction ws generalizing m m' with
  | nil => simp [mapply, h]
  | cons c ws ih =>
    by_cases hc : (tget c.1 b).isNone
    · rw [List.filter_cons_of_pos (by simpa using hc)]
      by_cases hx : c.1 = x
      · have hn : (tget x b).isSome = false := by rw [← hx]; simpa using hc
        exact (ih (m := mset m c.1 c.2) (m' := mset m' c.1 c.2) (by rw [hx, mget_mset_same, mget_mset_same])).trans (by rw [hn]; rfl)
      · refine (ih (m := mset m c.1 c.2) (m' := mset m' c.1 c.2) ?_).trans ?_
        · rw [mget_mset_ne _ _ (Ne.symm hx), mget_mset_ne _ _ (Ne.symm hx), h]
        · rw [mget_mset_ne _ _ (Ne.symm hx)]; rfl
    · rw [List.filter_cons_of_neg (by simpa using hc), ih h]
      by_cases hx : c.1 = x
      · have hs : (tget x b).isSome = true := by rw [← hx]; simpa [Option.isSome_iff_ne_none] using hc
        rw [hs]; rfl
      · refine ite_congr rfl (fun _ => rfl) fun _ => mget_mapply_congr (m' := mset m' c.1 c.2) ws ?_
        rw [mget_mset_ne _ _ (Ne.symm hx)]

/-- A write to H from outside the grids stands over every completed launch (R235). -/
theorem hImage_hWrite (s : State) (w : MemW) (x : Nat) : mget (hImage (s.hWrite w)).data x = mget (mapply (hImage s).data w.b) x := by
  have hm : (s.hWrite w).mem = mapply s.mem w.b := Image.apply_data _ w
  rw [hImage_data, hImage_data, s.hWrite_launches, List.foldl_map, hm]
  simp only [Launch.below_brought]
  generalize s.launches = ls
  suffices h : ∀ m m' : Memory, mget m x = mget (mapply m' w.b) x →
      mget (ls.foldl (fun m l => mapply m (l.2.brought.b.filter fun c => (tget c.1 w.b).isNone)) m) x =
        mget (mapply (ls.foldl (fun m l => mapply m l.2.brought.b) m') w.b) x from h _ _ rfl
  induction ls with
  | nil => exact fun _ _ h => h
  | cons l ls ih =>
    intro m m' h
    refine ih _ _ ?_
    rw [mget_mapply_below rfl]
    cases hx : tget x w.b with
    | some b =>
      have hin : ∃ v ∈ w.b, v.1 = x := ⟨_, mem_of_tget hx, rfl⟩
      exact h.trans (mget_mapply_in _ _ hin)
    | none =>
      have hout : ∀ v ∈ w.b, v.1 ≠ x := tget_none_iff.mp hx
      rw [mget_mapply_out _ _ hout] at h ⊢
      exact mget_mapply_congr _ h

end Sys2Proof.Machine
end

section
/-! SUPPORT. The state that a word of team code leaves while it acts: its own group and its own team. LD, ST and what an address of its own
window holds (R196 to R203). -/

namespace Sys2Proof.Machine

/-! ### The state in which only the own group and the own team stand otherwise -/

/-- The state with another group and another team of the word's own. -/
def Env.acting (e : Env) (g : Group) (tm : Team) : State := (e.s.putG e.gid g).modT e.tid fun _ => tm

theorem tmod_tmod {α : Type} (k : Nat) (f h : α → α) (t : Tab α) : tmod k f (tmod k h t) = tmod k (fun x => f (h x)) t := by
  induction t with
  | nil => rfl
  | cons p t ih =>
    obtain ⟨j, y⟩ := p
    by_cases hj : j = k <;> simp [tmod, hj, ih]

theorem tmod_const {α : Type} {k : Nat} {x : α} {t : Tab α} (h : tget k t = some x) : tmod k (fun _ => x) t = t := by
  induction t with
  | nil => rfl
  | cons p t ih =>
    obtain ⟨j, y⟩ := p
    by_cases hj : j = k
    · simp [tget, hj] at h; simp [tmod, hj, h]
    · simp only [tget, beq_iff_eq, hj, if_false] at h; simp [tmod, hj, ih h]

section
variable {e : Env} {g : Group} {tm : Team}

theorem Env.acting_modG (f : Group → Group) : (e.acting g tm).modG e.gid f = e.acting (f g) tm := by
  simp [Env.acting, State.modG, State.modT, State.putG, tmod_tput]

theorem Env.acting_modT (f : Team → Team) : (e.acting g tm).modT e.tid f = e.acting g (f tm) := by
  simp [Env.acting, State.modT, State.putG, tmod_tmod]

theorem Env.acting_group : tget e.gid (e.acting g tm).groups = some g := tget_tput_same ..

theorem Env.acting_groups_ne {k : Nat} (h : k ≠ e.gid) : tget k (e.acting g tm).groups = tget k e.s.groups := tget_tput_ne _ _ h

theorem Env.acting_team (h : tget e.tid e.s.teams = some e.team) : tget e.tid (e.acting g tm).teams = some tm := by
  show tget e.tid (tmod e.tid _ e.s.teams) = _
  rw [tget_tmod_same, h]; rfl

theorem Env.acting_teams_ne {k : Nat} (h : k ≠ e.tid) : tget k (e.acting g tm).teams = tget k e.s.teams := tget_tmod_ne _ _ h

theorem Env.acting_own (h : tget e.tid e.s.teams = some e.team) : e.acting g e.team = e.s.putG e.gid g := by
  simp only [Env.acting, State.modT, State.putG, tmod_const h]

end

/-- Team code's environment, as the state gives it. -/
structure Env.InTeam (e : Env) : Prop where
  group : tget e.gid e.s.groups = some e.g
  sub : e.g.sub e.sub.mask = some e.sub
  ctl : e.g.isCtl = false
  tid : e.tid = gidTid e.gid
  lid : e.lid = tidLid e.tid
  cid : e.cid = lidCtx e.lid
  team : tget e.tid e.s.teams = some e.team
  lch : tget e.lid e.s.launches = some e.lch
  ctx : tget e.cid e.s.ctxs = some e.ctx
  pc : e.pc = e.g.pcOf e.sub.mask

theorem Issues.inTeam {i : Instr} {s : State} {e : Env} (h : Issues i s e) (hc : e.g.isCtl = false) : e.InTeam := by
  obtain ⟨⟨p, -, he⟩, -⟩ := h
  unfold envOf at he
  simp only [Option.bind_eq_bind, Option.bind_eq_some_iff] at he
  obtain ⟨g, hg, sub, hs, he⟩ := he
  have hm : sub.mask = p.mask := by simpa using List.find?_some hs
  split at he
  · next hctl =>
    simp only [Option.bind_eq_some_iff, Option.some.injEq] at he
    obtain ⟨c, -, rfl⟩ := he
    exact absurd (hctl.symm.trans hc) (by decide)
  · simp only [Option.bind_eq_some_iff, Option.some.injEq] at he
    obtain ⟨t, ht, l, hl, c, hx, rfl⟩ := he
    exact ⟨hg, hm ▸ hs, hc, rfl, rfl, rfl, ht, hl, hx, by rw [hm]⟩

/-- The environment of the word's own sub-gang while the word acts. -/
theorem Env.InTeam.acting_env {e : Env} (he : e.InTeam) {g : Group} {tm : Team} {x : SubGang} (hc : g.isCtl = false)
    (hx : g.sub e.sub.mask = some x) : envOf (e.acting g tm) { gid := e.gid, mask := e.sub.mask } =
      some { e with s := e.acting g tm, g := g, sub := x, team := tm, pc := g.pcOf e.sub.mask } := by
  unfold envOf
  simp only [Env.acting_group, Option.bind_eq_bind, Option.bind_some, hx, hc, Bool.false_eq_true, if_false, ← he.tid, ← he.lid, ← he.cid,
    Env.acting_team he.team]
  have hl : tget e.lid (e.acting g tm).launches = some e.lch := he.lch
  have hk : tget e.cid (e.acting g tm).ctxs = some e.ctx := he.ctx
  simp only [hl, hk, Option.bind_some]

/-! ### The own sub-gang's level of writes -/

theorem Env.levelled_sub {e : Env} (h : e.g.sub e.sub.mask = some e.sub) (lvl : SubGang → GLevel) (lines : List Nat) (c : Nat) :
    (e.levelled lvl lines c).sub e.sub.mask = some { e.sub with lvl := lvl e.sub } := by
  unfold Group.sub at h ⊢
  have hm : ∀ x : SubGang, ((if x.mask == e.sub.mask then { x with lvl := lvl x } else x).mask == e.sub.mask) = (x.mask == e.sub.mask) :=
    fun x => by split <;> rfl
  rw [Env.levelled, List.find?_map, Function.comp_def]
  simp only [hm, h, Option.map_some, beq_self_eq_true, if_true]

theorem Env.levelled_modLvl (e : Env) (lvl : SubGang → GLevel) (lines : List Nat) (c : Nat) (f : GLevel → GLevel) :
    (e.levelled lvl lines c).modLvl e.sub.mask f = e.levelled (fun x => f (lvl x)) lines c := by
  simp only [Group.modLvl, Group.modSub, Env.levelled, List.map_map]
  congr 1
  refine List.map_congr_left fun x _ => ?_
  simp only [Function.comp]
  by_cases hx : (x.mask == e.sub.mask) = true <;> simp [hx]

theorem Env.levelled_start (e : Env) (lines : List Nat) (c : Nat) : e.levelled (·.lvl) lines c = { e.g with lines := lines, contrib := c } := by
  simp [Env.levelled]

/-- A word takes its lines first. -/
theorem Env.InTeam.takes {e : Env} (he : e.InTeam) (lines : List Nat) (extra : Nat) : e.s.putG e.gid (e.g.takeLines lines extra) =
    e.acting (e.levelled (·.lvl) (nunion e.g.lines lines) (e.g.contrib + extra)) e.team := by
  rw [Env.acting_own he.team, Env.levelled_start]; rfl

/-! ### What a write in team code reaches -/

/-- A write of team code reaches its own window's data or ring bytes, at the offset of its address (R191). -/
theorem Env.locate_own {e : Env} (hc : e.g.isCtl = false) {cas : Bool} {va : Nat} {l : Loc} (h : e.locate true cas va = .ok l) :
    l = .own (va % 2 ^ 19) ∧ 2 ^ 55 ≤ va ∧ (va - 2 ^ 55) / 2 ^ 19 = e.team.team ∧
      (e.lch.areaOf (va % 2 ^ 19) = .data ∨ e.lch.areaOf (va % 2 ^ 19) = .ring) := by
  unfold Env.locate at h
  split at h
  · cases h
  split at h
  · next hlo =>
    rw [hc] at h
    simp only [Bool.false_eq_true, if_false, Env.chip, Env.window] at h
    split at h
    · cases h
    · next hwin =>
      split at hwin
      · cases hwin
      split at hwin
      · next hu =>
        simp only [Except.ok.injEq, Prod.mk.injEq, true_and] at hwin
        obtain ⟨-, rfl⟩ := hwin
        have hteam : (va - 2 ^ 55) / 2 ^ 19 = e.team.team := by simpa using hu
        cases ha : e.lch.areaOf (va % 2 ^ 19) <;> rw [ha] at h <;> simp at h
        · exact ⟨h.symm, hlo, hteam, .inl rfl⟩
        · exact ⟨h.symm, hlo, hteam, .inr rfl⟩
      · split at hwin <;> simp at hwin
    · split at h <;> simp at h
  · split at h
    · cases h
    · split at h
      · cases h
      · simp [hc] at h

/-! ### The view after a store -/

/-- Words written with what a memory `v` holds: the result reads as `v` there. -/
theorem mget_putWords (v : Memory) (ws : List Nat) (m : Memory) (x : Nat) :
    mget (ws.foldl (fun m w => mputNat m w 4 (mnat v w 4)) m) x = if ∃ w ∈ ws, w ≤ x ∧ x < w + 4 then mget v x else mget m x := by
  induction ws generalizing m with
  | nil => simp
  | cons w ws ih =>
    rw [List.foldl_cons, ih, mputNat, leBytes_mnat, mget_mwrite_mread]
    by_cases h : ∃ u ∈ ws, u ≤ x ∧ x < u + 4
    · obtain ⟨u, hu, hx⟩ := h
      rw [if_pos ⟨u, hu, hx⟩, if_pos ⟨u, List.mem_cons_of_mem _ hu, hx⟩]
    · rw [if_neg h]
      by_cases hw : w ≤ x ∧ x < w + 4
      · rw [if_pos hw, if_pos ⟨w, by simp, hw⟩]
      · rw [if_neg hw, if_neg]
        rintro ⟨u, hu, hx⟩
        rcases List.mem_cons.mp hu with rfl | hu
        · exact hw hx
        · exact h ⟨u, hu, hx⟩

/-- The aligned words of a range cover it. -/
theorem exists_aligned4 {a n x : Nat} (h : a ≤ x) (h' : x < a + n) : ∃ w ∈ aligned4 a n, w ≤ x ∧ x < w + 4 := by
  refine ⟨4 * (x / 4), ?_, by omega, by omega⟩
  unfold aligned4
  refine List.mem_map.mpr ⟨x / 4 - a / 4, List.mem_range.mpr (by omega), by omega⟩

theorem replay_stores_data (v : Memory) (ws : List Nat) (m : Image) :
    (replay m (ws.map fun w => .store w (BitVec.ofNat 32 (mnat v w 4)))).data = ws.foldl (fun m w => mputNat m w 4 (mnat v w 4)) m.data := by
  unfold replay
  induction ws generalizing m with
  | nil => rfl
  | cons w ws ih =>
    have hn : (BitVec.ofNat 32 (mnat v w 4)).toNat = mnat v w 4 := by
      rw [BitVec.toNat_ofNat]; exact Nat.mod_eq_of_lt (mnat_lt v w 4)
    rw [List.map_cons, List.foldl_cons, ih, GOp.run, hn]
    rfl

/-- A store's words leave the view with the bytes stored (R200, R202). -/
theorem GLevel.storeBytes_view (l : GLevel) (a : Nat) (bs : List Byte) (x : Nat) :
    mget (l.storeBytes a bs).view.data x = mget (mwrite l.view.data a bs) x := by
  have hd : (l.storeBytes a bs).view.data =
      (aligned4 a bs.length).foldl (fun m w => mputNat m w 4 (mnat (mwrite l.view.data a bs) w 4)) l.view.data :=
    replay_stores_data ..
  rw [hd, mget_putWords]
  split
  · rfl
  · next h =>
    refine (mget_mwrite_out _ _ ?_).symm
    by_contra hx
    exact h (exists_aligned4 (by omega) (by omega))

/-! ### What an aligned access reads -/

/-- An aligned word of 4 or 8 bytes lies in one unit. -/
theorem unitPieces_word {off n : Nat} (hn : n = 4 ∨ n = 8) (ha : off % n = 0) : unitPieces off n = [(off, n)] := by
  have hu : unitsOf off n = [off / 64] := by
    unfold unitsOf
    rcases hn with rfl | rfl
    · rw [if_neg (by decide), show (off + 4 - 1) / 64 + 1 - off / 64 = 1 by omega]; simp
    · rw [if_neg (by decide), show (off + 8 - 1) / 64 + 1 - off / 64 = 1 by omega]; simp
  unfold unitPieces
  rw [hu]
  rcases hn with rfl | rfl <;> simp <;> omega

/-- An aligned word of the own window: team data as the view holds it, a ring slot in place. -/
theorem Env.readAt_word (c : Env) {n : Nat} {x : Place} (hn : n = 4 ∨ n = 8) (hl : x.loc = .own x.off) (ha : x.off % n = 0)
    (har : c.lch.areaOf x.off = .data ∨ c.lch.areaOf x.off = .ring) : leNat (c.readAt n x) =
      if c.lch.areaOf x.off == .ring then mnat c.team.data.data x.off n else mnat c.sub.lvl.view.data x.off n := by
  unfold Env.readAt
  rw [hl]
  simp only [Env.ownBytes, unitPieces_word hn ha, List.flatMap_cons, List.flatMap_nil, List.append_nil]
  rcases har with h | h <;> simp [h, mnat]

/-! ### LD (R201) -/

theorem Env.memPend_changed (e : Env) (d : Opd) (n k : Nat) (vals : List (Nat × Nat)) (g : Group) : e.memPend d n k vals g = g.changed
    (if vals = [] then {} else { new := [{ e.newPend d (if d.isV then (n + 3) / 4 else (n + 7) / 8) (sliceBits (e.exec k)) with
      idx := g.nextPend, vw := vals.flatMap fun v => dVec d n v.1 v.2, sw := vals.flatMap fun v => dSca d n v.1 v.2 }] }) := by
  unfold Env.memPend
  by_cases hv : vals = []
  · simp [hv, Group.changed_nil]
  · rw [if_neg (by simpa using hv), if_neg hv, Group.addPend_changed]

/-- Settles O17: LD is its checks and a pending result. -/
theorem loadCompletes : Obligations.LoadCompletes := by
  intro s e f ps h hr hp n val
  have hx : exec (.ld f) s = .next (e.done (.ld f) (e.s.putG e.gid (e.memPend f.d n f.k (ps.map fun x => (x.p, val x)) e.g))) :=
    issueWord_ok h (by rw [hr, chk_ok_bind, hp]; rfl)
  rw [Env.memPend_changed] at hx
  have hc := completes_of_done hx
  simpa only [List.map_eq_nil_iff, List.flatMap_map] using hc

end Sys2Proof.Machine
end

section
/-! SUPPORT. ST, place by place: what the sub-gang's view, the ring slots and control memory hold after it (R198, R202, R203, R283). -/

namespace Sys2Proof.Machine

/-! ### Writes of places into a memory -/

/-- The bytes of places written in order. -/
def putPlaces (bytes : Place → List Byte) (ps : List Place) (m : Memory) : Memory := ps.foldl (fun m x => mwrite m x.off (bytes x)) m

theorem putPlaces_congr (bytes : Place → List Byte) (ps : List Place) {m m' : Memory} (h : ∀ a, mget m a = mget m' a) :
    ∀ a, mget (putPlaces bytes ps m) a = mget (putPlaces bytes ps m') a := by
  induction ps generalizing m m' with
  | nil => exact h
  | cons x ps ih => exact ih (mget_mwrite_congr h _ _)

/-! ### The state after a word's writes -/

/-- The own group with a level of writes, the lines of R214 and its slices. -/
def Env.levelledAt (e : Env) (lvl : SubGang → GLevel) (lines : List Nat) (contrib : Nat) (sl : List Slice) : Group :=
  { e.levelled lvl lines contrib with slices := sl }

theorem Env.levelledAt_modLvl (e : Env) (lvl : SubGang → GLevel) (lines : List Nat) (c : Nat) (sl : List Slice) (f : GLevel → GLevel) :
    (e.levelledAt lvl lines c sl).modLvl e.sub.mask f = e.levelledAt (fun x => f (lvl x)) lines c sl :=
  congrArg (fun g : Group => { g with slices := sl }) (e.levelled_modLvl lvl lines c f)

theorem Env.levelledAt_sub {e : Env} (h : e.g.sub e.sub.mask = some e.sub) (lvl : SubGang → GLevel) (lines : List Nat) (c : Nat)
    (sl : List Slice) : (e.levelledAt lvl lines c sl).sub e.sub.mask = some { e.sub with lvl := lvl e.sub } := e.levelled_sub h lvl lines c

/-- A state in which the view and the ring slots read as two memories, and no more has changed than the team's data, the group's level and
the flags of its slices. -/
structure Env.WroteBytes (e : Env) (lines : List Nat) (contrib : Nat) (sl : List Slice) (t : State) (view ring : Memory) : Prop where
  acted : ∃ (lvl : SubGang → GLevel) (tm : Team), t = e.acting (e.levelledAt lvl lines contrib sl) tm ∧ tm = { e.team with data := tm.data } ∧
    (∀ a, mget (lvl e.sub).view.data a = mget view a) ∧ ∀ a, mget tm.data.data a = mget ring a

section
variable {e : Env} {lines : List Nat} {contrib : Nat} {sl : List Slice} {t : State} {view ring : Memory}

/-- One place of a store in team code. -/
theorem Env.WroteBytes.put (h : e.WroteBytes lines contrib sl t view ring) {x : Place} (hx : x.loc = .own x.off)
    (bs : List Byte) : e.WroteBytes lines contrib sl (e.put t x bs)
      (if x.inRing e then view else mwrite view x.off bs) (if x.inRing e then mwrite ring x.off bs else ring) := by
  obtain ⟨lvl, tm, rfl, htm, hv, hr⟩ := h
  unfold Env.put
  rw [hx]
  cases hi : x.inRing e with
  | true =>
    refine ⟨lvl, _, Env.acting_modT _, ?_, hv, fun a => ?_⟩
    · rw [htm]
    · exact mget_mwrite_congr hr _ _ a
  | false =>
    refine ⟨fun y => (lvl y).storeBytes x.off bs, tm, ?_, htm, fun a => ?_, hr⟩
    · exact (Env.acting_modG _).trans (by rw [Env.levelledAt_modLvl])
    · exact (GLevel.storeBytes_view ..).trans (mget_mwrite_congr hv _ _ a)

/-- The places of a store in turn. -/
theorem Env.WroteBytes.puts (h : e.WroteBytes lines contrib sl t view ring) (bytes : Place → List Byte) {ps : List Place}
    (hps : ∀ x ∈ ps, x.loc = .own x.off) : e.WroteBytes lines contrib sl (ps.foldl (fun s x => e.put s x (bytes x)) t)
      (putPlaces bytes (ps.filter fun x => !x.inRing e) view) (putPlaces bytes (ps.filter fun x => x.inRing e) ring) := by
  induction ps generalizing t view ring with
  | nil => exact h
  | cons x ps ih =>
    have hput := ih (h.put (hps x (by simp)) (bytes x)) fun y hy => hps y (List.mem_cons_of_mem _ hy)
    cases hi : x.inRing e <;> simpa [hi, putPlaces] using hput

/-- Poison goes, and no byte changes. -/
theorem Env.WroteBytes.wipe (h : e.WroteBytes lines contrib sl t view ring) (n : Nat) (ps : List Place) :
    e.WroteBytes lines contrib sl (e.wipe t n ps) view ring := by
  unfold Env.wipe
  dsimp only
  generalize wholeUnits _ = us
  induction us generalizing t with
  | nil => exact h
  | cons u us ih =>
    refine ih ?_
    obtain ⟨lvl, tm, rfl, htm, hv, hr⟩ := h
    dsimp only
    split
    · refine ⟨lvl, _, Env.acting_modT _, ?_, hv, hr⟩
      rw [htm]
    · exact ⟨fun y => (lvl y).act [.poison u false], tm, (Env.acting_modG _).trans (by rw [Env.levelledAt_modLvl]), htm, hv, hr⟩

end

/-- Where a word's lines are taken and nothing is written yet. -/
theorem Env.InTeam.wroteBytes {e : Env} (he : e.InTeam) (lines : List Nat) (extra : Nat) :
    e.WroteBytes (nunion e.g.lines lines) (e.g.contrib + extra) e.g.slices (e.s.putG e.gid (e.g.takeLines lines extra))
      e.sub.lvl.view.data e.team.data.data :=
  ⟨(·.lvl), e.team, he.takes lines extra, rfl, fun _ => rfl, fun _ => rfl⟩

theorem Env.reaches_own {e : Env} (hc : e.g.isCtl = false) {f : MWord} {cas : Bool} {ps : List Place} (h : e.reach f true cas = .ok ps) :
    ∀ x ∈ ps, x.loc = .own x.off := by
  intro x hx
  obtain ⟨-, -, hl⟩ := (Env.reach_ok_iff.mp h).1.passed x hx
  obtain ⟨ho, -⟩ := Env.locate_own hc hl
  simp only [Place.off, ho]

/-! ### ST -/

/-- The state after ST's own effect. -/
def Env.stored (e : Env) (f : MWord) (ps : List Place) : State :=
  let n := Width.bytes f.width
  let s := if e.g.isCtl then e.s else e.s.putG e.gid (e.g.takeLines (e.placeLines n ps) 0)
  let s := ps.foldl (fun s x => e.put s x (leBytes n (e.dValue f.d n x.p))) s
  if e.g.isCtl then s else e.wipe s n ps

theorem st_effect {s : State} {e : Env} {f : MWord} {ps : List Place} (h : Issues (.st f) s e) (hr : e.reach f true false = .ok ps)
    (hl : (e.needLines f.d ps fun l => (e.placeLines (Width.bytes f.width) l, 0)) = .ok ()) : Effect (.st f) s e (· = e.stored f ps) :=
  ⟨_, issueWord_ok h (by rw [hr, chk_ok_bind, hl]; rfl), rfl⟩

/-- Stores of control code into control memory: H reads as the bytes written in order, and no more of the module has changed. -/
theorem hWrites_put {e : Env} (bytes : Place → List Byte) {ps : List Place} (hps : ∀ x ∈ ps, ∃ k, x.loc = .mem k) (s : State) :
    let t := ps.foldl (fun s x => e.put s x (bytes x)) s
    t = { s with mem := t.mem, memPoison := t.memPoison, launches := t.launches } ∧
    ∀ a, mget (hImage t).data a = mget (putPlaces bytes ps (hImage s).data) a := by
  induction ps generalizing s with
  | nil => exact ⟨rfl, fun _ => rfl⟩
  | cons x ps ih =>
    obtain ⟨k, hk⟩ := hps x (by simp)
    have hput : e.put s x (bytes x) = s.hWrite (MemW.ofCells (cells k (bytes x))) := by unfold Env.put; rw [hk]
    have hoff : x.off = k := by simp only [Place.off, hk]
    intro t
    obtain ⟨ht, hb⟩ := ih (fun y hy => hps y (List.mem_cons_of_mem _ hy)) (e.put s x (bytes x))
    change t = { e.put s x (bytes x) with mem := t.mem, memPoison := t.memPoison, launches := t.launches } at ht
    refine ⟨?_, fun a => (hb a).trans (putPlaces_congr bytes ps (fun b => ?_) a)⟩
    · clear_value t
      rw [hput] at ht
      exact ht
    · dsimp only
      rw [hput, hoff]
      exact (hImage_hWrite ..).trans (mget_mapply_ofCells ..)

/-- Settles O18: the places of ST in turn, in the own window, in control memory, or in a control block. -/
theorem storeCompletes : Obligations.StoreCompletes := by
  intro s e f ps h hr hl bytes
  obtain ⟨t, hx, rfl⟩ := st_effect h hr hl
  refine ⟨fun hc => ⟨_, hx, ?_⟩, fun hc hm => ⟨_, hx, ?_⟩, fun hc x b off hps hb => ⟨_, hx, ?_⟩⟩
  · have he := h.inTeam hc
    have hw := ((he.wroteBytes (e.placeLines (Width.bytes f.width) ps) 0).puts bytes (Env.reaches_own hc hr)).wipe (Width.bytes f.width) ps
    obtain ⟨lvl, tm, ht, htm, hv, hd⟩ := hw
    have hst : e.stored f ps = e.acting (e.levelled lvl (nunion e.g.lines (e.placeLines (Width.bytes f.width) ps)) e.g.contrib) tm :=
      Eq.trans (by simp only [Env.stored, hc]; rfl) ht
    rw [hst]
    exact ⟨lvl, _, tm, rfl, fun k hk => Env.acting_teams_ne hk, Env.acting_team he.team, htm, hd, hv⟩
  · have hst : e.stored f ps = ps.foldl (fun s x => e.put s x (bytes x)) e.s := by simp only [Env.stored, hc]; rfl
    rw [hst]
    exact hWrites_put bytes hm e.s
  · have hst : e.stored f ps = e.put e.s x (bytes x) := by simp only [Env.stored, hc, hps]; rfl
    rw [hst]
    unfold Env.put
    rw [hb]

end Sys2Proof.Machine
end

section
/-! SUPPORT. ATOM, CAS and RED, place by place (R206 to R209, R434), and the words that need the whole gang (R158). -/

namespace Sys2Proof.Machine

/-! ### One place of ATOM or CAS -/

/-- The level of writes after an operation that is no ordered one: a store of CAS, or the operation itself. -/
def rmwLevel (o : GOp) (off n v : Nat) (l : GLevel) : GLevel :=
  match o with
  | .store _ _ => l.storeBytes off (leBytes n v)
  | o => l.act [o]

/-- What a place leaves in the group's level and in the team. -/
def Env.rmwNext (e : Env) (ordered : Bool) (n : Nat) (x : Place) (new : Option Nat) (old : Nat) (op : Nat → GOp) (l : GLevel) (tm : Team) :
    GLevel × Team :=
  if x.inRing e then (l, match new with
    | some v => { tm with data := { tm.data with data := mwrite tm.data.data x.off (leBytes n v) } } | none => tm)
  else if ordered then (match new with | some v => l.act (seenOps tm.tcount x.off n v) | none => l, tm.orderedWrite e.gid x.off n (new.getD old))
  else (match new with | some v => rmwLevel (op v) x.off n v l | none => l, tm)

/-- The old value at a place. -/
def Env.rmwOld (e : Env) (ordered : Bool) (n : Nat) (x : Place) (l : GLevel) (tm : Team) : Nat :=
  if x.inRing e then leNat (({ e with sub := { e.sub with lvl := l }, team := tm } : Env).readAt n x)
  else if ordered then tm.orderedRead x.off n
  else leNat (({ e with sub := { e.sub with lvl := l }, team := tm } : Env).readAt n x)

theorem Env.rmw_acting {e : Env} (he : e.InTeam) (ordered : Bool) (n : Nat) {x : Place} (hx : x.loc = .own x.off) (new : Nat → Option Nat)
    (op : Nat → GOp) (lvl : SubGang → GLevel) (lines : List Nat) (contrib : Nat) (tm : Team) :
    let old := e.rmwOld ordered n x (lvl e.sub) tm
    let next := fun l => e.rmwNext ordered n x (new old) old op l tm
    e.rmw ordered n (e.acting (e.levelled lvl lines contrib) tm) x new op =
      (old, e.acting (e.levelled (fun y => (next (lvl y)).1) lines contrib) (next (lvl e.sub)).2) := by
  have hread : ∀ (s' : State) (g : Group) (pc : W64),
      ({ e with s := s', g := g, sub := { e.sub with lvl := lvl e.sub }, team := tm, pc := pc } : Env).readAt n x =
      ({ e with sub := { e.sub with lvl := lvl e.sub }, team := tm } : Env).readAt n x := fun _ _ _ => by
    unfold Env.readAt; rw [hx]; rfl
  intro old next
  unfold Env.rmw
  rw [he.acting_env (g := e.levelled lvl lines contrib) he.ctl (e.levelled_sub he.sub lvl lines contrib)]
  simp only [hread, he.ctl, Bool.or_false]
  cases hi : x.inRing e with
  | true =>
    have ho : old = leNat (({ e with sub := { e.sub with lvl := lvl e.sub }, team := tm } : Env).readAt n x) := by
      simp only [old, Env.rmwOld, hi, if_true]
    simp only [if_true, ← ho, next, Env.rmwNext, hi]
    cases new old with
    | none => rfl
    | some v =>
      unfold Env.put
      rw [hx]
      simp only [hi, if_true, Env.acting_modT]
  | false =>
    cases ordered with
    | true =>
      have ho : old = tm.orderedRead x.off n := by simp [old, Env.rmwOld, hi]
      simp only [Bool.false_eq_true, if_false, if_true, ← ho, next, Env.rmwNext, hi, Env.acting_modT, Env.acting_modG, Env.levelled_modLvl]
      cases new old <;> rfl
    | false =>
      have ho : old = leNat (({ e with sub := { e.sub with lvl := lvl e.sub }, team := tm } : Env).readAt n x) := by simp [old, Env.rmwOld, hi]
      simp only [Bool.false_eq_true, if_false, ← ho, next, Env.rmwNext, hi]
      cases new old with
      | none => rfl
      | some v => simp only [Env.acting_modG, Env.levelled_modLvl]; rfl

/-! ### The places in turn -/

/-- The lanes of a word from a state and the old values so far. -/
def rmwFrom (acc : List (Nat × Nat) × State) (ps : List Place) (one : State → Place → Nat × State) : List (Nat × Nat) × State :=
  ps.foldl (fun acc x => let r := one acc.2 x; (acc.1 ++ [(x.p, r.1)], r.2)) acc

section
variable {e : Env} (he : e.InTeam) (ordered : Bool) (n : Nat) (new : Place → Nat → Option Nat) (op : Place → Nat → GOp)
include he

/-- Whatever the places write, it is the group's level and the team that change; each place has an old value. -/
theorem Env.rmwFrom_acting {ps : List Place} (hps : ∀ x ∈ ps, x.loc = .own x.off) (vals : List (Nat × Nat)) (lvl : SubGang → GLevel)
    (lines : List Nat) (contrib : Nat) (tm : Team) : ∃ lvl' tm' vals',
      rmwFrom (vals, e.acting (e.levelled lvl lines contrib) tm) ps (fun s x => e.rmw ordered n s x (new x) (op x)) =
        (vals ++ vals', e.acting (e.levelled lvl' lines contrib) tm') ∧ vals'.length = ps.length := by
  induction ps generalizing vals lvl tm with
  | nil => exact ⟨lvl, tm, [], by simp [rmwFrom], rfl⟩
  | cons x ps ih =>
    have hx := Env.rmw_acting he ordered n (hps x (by simp)) (new x) (op x) lvl lines contrib tm
    obtain ⟨lvl', tm', vals', h, hl⟩ := ih (fun y hy => hps y (List.mem_cons_of_mem _ hy)) (vals ++ [(x.p, _)]) _ _
    refine ⟨lvl', tm', (x.p, e.rmwOld ordered n x (lvl e.sub) tm) :: vals', ?_, by simp [hl]⟩
    rw [rmwFrom, List.foldl_cons]
    simp only [hx]
    rw [List.append_cons vals _ vals']
    exact h

end

/-- The new value of a place, where it has one. -/
def putNew (new : Option Nat) (a n : Nat) (m : Memory) : Memory := match new with | some v => mwrite m a (leBytes n v) | none => m

/-- One place of `Env.inTurn`. -/
def Env.turn (e : Env) (ordered : Bool) (n : Nat) (new : Nat → Nat → Option Nat) (acc : List (Nat × Nat) × Memory × Team) (x : Place) :
    List (Nat × Nat) × Memory × Team :=
  let old := if x.inRing e then mnat acc.2.2.data.data x.off n else if ordered then acc.2.2.orderedRead x.off n else mnat acc.2.1 x.off n
  (acc.1 ++ [(x.p, old)],
   if x.inRing e then acc.2.1 else putNew (new x.p old) x.off n acc.2.1,
   if x.inRing e then { acc.2.2 with data := { acc.2.2.data with data := putNew (new x.p old) x.off n acc.2.2.data.data } }
   else if ordered then acc.2.2.orderedWrite e.gid x.off n ((new x.p old).getD old) else acc.2.2)

theorem Env.inTurn_eq (e : Env) (ordered : Bool) (n : Nat) (new : Nat → Nat → Option Nat) (ps : List Place) :
    e.inTurn ordered n new ps = ps.foldl (e.turn ordered n new) ([], e.sub.lvl.view.data, e.team) := rfl

/-- Ordered values shown to the view (R213): the bytes of the new value. -/
theorem GLevel.act_seen (l : GLevel) (tc off v : Nat) {n : Nat} (hn : n = 4 ∨ n = 8) (a : Nat) :
    mget (l.act (seenOps tc off n v)).view.data a = mget (mwrite l.view.data off (leBytes n v)) a := by
  have hmod : ∀ u, leBytes 4 (u % 2 ^ 32) = leBytes 4 u := leBytes_mod 4
  rcases hn with rfl | rfl
  · have hd : (l.act (seenOps tc off 4 v)).view.data = mwrite l.view.data off (leBytes 4 (v % 2 ^ 32)) := by
      simp [GLevel.act, seenOps, replay, GOp.run, mputNat]
    rw [hd, hmod]
  · have hd : (l.act (seenOps tc off 8 v)).view.data =
        mwrite (mwrite l.view.data off (leBytes 4 (v % 2 ^ 32))) (off + 4) (leBytes 4 (v / 2 ^ 32 % 2 ^ 32)) := by
      simp [GLevel.act, seenOps, replay, GOp.run, mputNat, List.range_succ]
    have hs : leBytes 8 v = leBytes 4 v ++ leBytes 4 (v / 2 ^ 32) := by
      simp [leBytes, Nat.div_div_eq_div_mul]
    have happ : ∀ (m : Memory) (k : Nat) (l₁ l₂ : List Byte), mwrite m k (l₁ ++ l₂) = mwrite (mwrite m k l₁) (k + l₁.length) l₂ := by
      intro m k l₁ l₂
      induction l₁ generalizing m k with
      | nil => rfl
      | cons b l₁ ih => rw [List.cons_append, mwrite, ih, mwrite, List.length_cons]; congr 1; omega
    rw [hd, hmod, hmod, hs, happ, leBytes_length]

/-- An operation that is no ordered one leaves its new value in the view. -/
def OpWrites (n : Nat) (x : Place) (new : Nat → Option Nat) (op : Nat → GOp) : Prop :=
  ∀ (l : GLevel) (v : Nat), new (mnat l.view.data x.off n) = some v → ∀ a,
    mget (rmwLevel (op v) x.off n v l).view.data a = mget (mwrite l.view.data x.off (leBytes n v)) a

/-- A place of a word of 4 or 8 bytes, aligned, in the own data or ring. -/
structure Env.WordAt (e : Env) (n : Nat) (x : Place) : Prop where
  loc : x.loc = .own x.off
  aligned : x.off % n = 0
  area : e.lch.areaOf x.off = .data ∨ e.lch.areaOf x.off = .ring

theorem Env.WordAt.inRing {e : Env} {n : Nat} {x : Place} (h : e.WordAt n x) (hc : e.g.isCtl = false) :
    x.inRing e = (e.lch.areaOf x.off == .ring) := by
  have hl := h.loc
  unfold Place.inRing
  rw [hl]
  simp [hc]

section
variable {e : Env} (he : e.InTeam) {ordered : Bool} {n : Nat} (hn : n = 4 ∨ n = 8)
include he hn

/-- The old value of a place, as `Env.inTurn` has it. -/
theorem Env.rmwOld_eq {x : Place} (hx : e.WordAt n x) (l : GLevel) (tm : Team) : e.rmwOld ordered n x l tm =
    if x.inRing e then mnat tm.data.data x.off n else if ordered then tm.orderedRead x.off n else mnat l.view.data x.off n := by
  have hread := Env.readAt_word { e with sub := { e.sub with lvl := l }, team := tm } hn hx.loc hx.aligned hx.area
  have hi := hx.inRing he.ctl
  unfold Env.rmwOld
  rw [hread, ← hi]
  cases x.inRing e <;> rfl

/-- A place does to the machine what it does in turn without it. -/
theorem Env.rmwNext_turn {x : Place} (hx : e.WordAt n x) {new : Nat → Nat → Option Nat} {op : Nat → GOp} (hop : OpWrites n x (new x.p) op)
    {l : GLevel} {view : Memory} (hv : ∀ a, mget l.view.data a = mget view a) (vals : List (Nat × Nat)) (tm : Team) :
    let old := e.rmwOld ordered n x l tm
    let next := e.rmwNext ordered n x (new x.p old) old op l tm
    let r := e.turn ordered n new (vals, view, tm) x
    r.1 = vals ++ [(x.p, old)] ∧ r.2.2 = next.2 ∧ ∀ a, mget next.1.view.data a = mget r.2.1 a := by
  intro old next r
  have hold : old = if x.inRing e then mnat tm.data.data x.off n else if ordered then tm.orderedRead x.off n else mnat view x.off n := by
    have hnat : mnat l.view.data x.off n = mnat view x.off n := mnat_congr fun a _ _ => hv a
    rw [← hnat]
    exact Env.rmwOld_eq he hn hx l tm
  have hr : r = (vals ++ [(x.p, old)],
      if x.inRing e then view else putNew (new x.p old) x.off n view,
      if x.inRing e then { tm with data := { tm.data with data := putNew (new x.p old) x.off n tm.data.data } }
      else if ordered then tm.orderedWrite e.gid x.off n ((new x.p old).getD old) else tm) := by
    rw [hold]; rfl
  rw [hr]
  refine ⟨rfl, ?_, fun a => ?_⟩
  · simp only [next, Env.rmwNext]
    split
    · cases new x.p old <;> rfl
    · split <;> rfl
  · simp only [next, Env.rmwNext]
    cases hi : x.inRing e with
    | true => exact hv a
    | false =>
      cases ho : ordered with
      | true =>
        cases hnew : new x.p old with
        | none => exact hv a
        | some v => exact (GLevel.act_seen l _ _ v hn a).trans (mget_mwrite_congr hv _ _ a)
      | false =>
        cases hnew : new x.p old with
        | none => exact hv a
        | some v =>
          have hl : old = mnat l.view.data x.off n := by
            have := Env.rmwOld_eq (ordered := ordered) he hn hx l tm
            rw [hi, ho] at this
            simpa [old, ho] using this
          exact (hop l v (hl ▸ hnew) a).trans (mget_mwrite_congr hv _ _ a)

/-- The places of a word in turn, on the machine and without it. -/
theorem Env.rmwFrom_turns {ps : List Place} (hps : ∀ x ∈ ps, e.WordAt n x) {new : Nat → Nat → Option Nat} {op : Place → Nat → GOp}
    (hop : ∀ x ∈ ps, OpWrites n x (new x.p) (op x)) (vals : List (Nat × Nat)) (lvl : SubGang → GLevel) (lines : List Nat) (contrib : Nat)
    (tm : Team) {view : Memory} (hv : ∀ a, mget (lvl e.sub).view.data a = mget view a) :
    let r := ps.foldl (e.turn ordered n new) (vals, view, tm)
    ∃ lvl', rmwFrom (vals, e.acting (e.levelled lvl lines contrib) tm) ps (fun s x => e.rmw ordered n s x (new x.p) (op x)) =
        (r.1, e.acting (e.levelled lvl' lines contrib) r.2.2) ∧ ∀ a, mget (lvl' e.sub).view.data a = mget r.2.1 a := by
  induction ps generalizing vals lvl tm view with
  | nil => exact ⟨lvl, rfl, hv⟩
  | cons x ps ih =>
    have hx := hps x (by simp)
    have hm := Env.rmw_acting he ordered n hx.loc (new x.p) (op x) lvl lines contrib tm
    obtain ⟨h1, h2, h3⟩ := Env.rmwNext_turn he hn hx (hop x (by simp)) hv vals tm
    generalize e.rmwOld ordered n x (lvl e.sub) tm = old at hm h1 h2 h3
    have hturn : e.turn ordered n new (vals, view, tm) x = (vals ++ [(x.p, old)], (e.turn ordered n new (vals, view, tm) x).2.1,
        (e.rmwNext ordered n x (new x.p old) old (op x) (lvl e.sub) tm).2) := by rw [← h1, ← h2]
    obtain ⟨lvl', hl, hb⟩ := ih (fun y hy => hps y (List.mem_cons_of_mem _ hy)) (fun y hy => hop y (List.mem_cons_of_mem _ hy))
      (vals ++ [(x.p, old)]) (fun y => (e.rmwNext ordered n x (new x.p old) old (op x) (lvl y) tm).1)
      (e.rmwNext ordered n x (new x.p old) old (op x) (lvl e.sub) tm).2 h3
    intro r
    have hr : r = ps.foldl (e.turn ordered n new) _ := congrArg (ps.foldl (e.turn ordered n new)) hturn
    rw [hr]
    refine ⟨lvl', ?_, hb⟩
    rw [rmwFrom, List.foldl_cons]
    simp only [hm]
    exact hl

end

/-! ### ATOM and CAS -/

/-- The new value of ATOM at a place. -/
def Env.atomAt (e : Env) (f : MWord) (p old : Nat) : Option Nat :=
  some (atomNew (Width.bytes f.width) f.op old (low (8 * Width.bytes f.width) (e.dValue f.d (Width.bytes f.width) p)))

/-- The new value of CAS at a place, where it writes. -/
def Env.casAt (e : Env) (f : MWord) (p old : Nat) : Option Nat :=
  let n := Width.bytes f.width
  if old = low (8 * n) (e.dValue f.d n p) then some (e.casNew f.d n p) else none

theorem atom_opWrites {e : Env} {f : MWord} (hn : Width.bytes f.width = 4 ∨ Width.bytes f.width = 8) (x : Place) :
    OpWrites (Width.bytes f.width) x (e.atomAt f x.p) fun _ =>
      .atom x.off (Width.bytes f.width) f.op (BitVec.ofNat 64 (low (8 * Width.bytes f.width) (e.dValue f.d (Width.bytes f.width) x.p))) := by
  intro l v hv a
  have hval : ∀ u, (BitVec.ofNat 64 (low (8 * Width.bytes f.width) u)).toNat = low (8 * Width.bytes f.width) u := fun u => by
    rw [BitVec.toNat_ofNat]
    refine Nat.mod_eq_of_lt (lt_of_lt_of_le (Nat.mod_lt _ (Nat.two_pow_pos _)) (Nat.pow_le_pow_right (by decide) ?_))
    rcases hn with h | h <;> rw [h]; decide
  simp only [Env.atomAt, Option.some.injEq] at hv
  simp only [rmwLevel, GLevel.act, replay, List.foldl_cons, List.foldl_nil, GOp.run, hval, hv]
  rfl

theorem cas_opWrites {e : Env} {f : MWord} (x : Place) :
    OpWrites (Width.bytes f.width) x (e.casAt f x.p) fun v => .store x.off (BitVec.ofNat 32 v) :=
  fun l v _ a => GLevel.storeBytes_view l x.off (leBytes (Width.bytes f.width) v) a

end Sys2Proof.Machine
end

section
/-! SUPPORT. The atomic words complete (R206 to R209, R434), and the words that need the whole gang (R158). -/

namespace Sys2Proof.Machine

/-! ### What the atomic words leave -/

/-- The pending result of a memory word that answers each of its places. -/
def Env.memResult (e : Env) (d : Opd) (n k : Nat) (vals : List (Nat × Nat)) (idx : Nat) : List Pend :=
  if vals = [] then [] else [{ e.newPend d (if d.isV then (n + 3) / 4 else (n + 7) / 8) (sliceBits (e.exec k)) with
    idx := idx, vw := vals.flatMap fun v => dVec d n v.1 v.2, sw := vals.flatMap fun v => dSca d n v.1 v.2 }]

theorem Env.memPend_eq (e : Env) (d : Opd) (n k : Nat) (vals : List (Nat × Nat)) (g : Group) : e.memPend d n k vals g =
    { g with pend := g.pend ++ e.memResult d n k vals g.nextPend, nextPend := g.nextPend + (e.memResult d n k vals g.nextPend).length } := by
  rw [Env.memPend_changed, ← Group.changed_new]
  unfold Env.memResult
  split <;> rfl

/-- A place that passed the checks of a write, aligned to 4 or 8 bytes. -/
theorem Env.wordAt_of_reach {e : Env} (hc : e.g.isCtl = false) {f : MWord} {cas : Bool} {ps : List Place} (h : e.reach f true cas = .ok ps)
    (hn : Width.bytes f.width = 4 ∨ Width.bytes f.width = 8) : ∀ x ∈ ps, e.WordAt (Width.bytes f.width) x := by
  intro x hx
  obtain ⟨-, ha, hl⟩ := (Env.reach_ok_iff.mp h).1.passed x hx
  obtain ⟨ho, -, -, har⟩ := Env.locate_own hc hl
  have hoff : x.off = x.addr % 2 ^ 19 := by simp only [Place.off, ho]
  refine ⟨by rw [hoff, ho], ?_, hoff ▸ har⟩
  rw [hoff]
  rcases hn with h | h <;> rw [h] at ha ⊢ <;> omega

/-- A word that changes no register, no memory of the module and nothing of another group, and leaves `n` pending results. -/
def Env.Keeps (e : Env) (t : State) (n : Nat) : Prop :=
  t.mem = e.s.mem ∧ (∀ k, k ≠ e.gid → tget k t.groups = tget k e.s.groups) ∧
    ∃ g, tget e.gid t.groups = some g ∧ g.vreg = e.g.vreg ∧ g.sreg = e.g.sreg ∧ g.kreg = e.g.kreg ∧ g.pend.length = e.g.pend.length + n

/-- What ATOM and CAS do in turn stands in the view, in the team and in one pending result. -/
def Env.TookValues (e : Env) (t : State) (f : MWord) (new : Nat → Nat → Option Nat) (ps : List Place) : Prop :=
  let n := Width.bytes f.width
  let r := e.inTurn f.sx n new ps
  ∃ g x, tget e.gid t.groups = some g ∧ g.sub e.sub.mask = some x ∧
    (∀ a, mget x.lvl.view.data a = mget r.2.1 a) ∧ tget e.tid t.teams = some r.2.2 ∧
    g.pend = e.g.pend ++ if ps = [] then [] else [{ e.newPend f.d (if f.d.isV then (n + 3) / 4 else (n + 7) / 8) (sliceBits (e.exec f.k)) with
      idx := e.g.nextPend, vw := r.1.flatMap fun v => dVec f.d n v.1 v.2, sw := r.1.flatMap fun v => dSca f.d n v.1 v.2 }]

/-- Each place has an old value. -/
theorem Env.inTurn_nil_iff (e : Env) (ordered : Bool) (n : Nat) (new : Nat → Nat → Option Nat) (ps : List Place) :
    (e.inTurn ordered n new ps).1 = [] ↔ ps = [] := by
  have hlen : ∀ acc, (ps.foldl (e.turn ordered n new) acc).1.length = acc.1.length + ps.length := by
    induction ps with
    | nil => exact fun _ => rfl
    | cons x ps ih =>
      intro acc
      rw [List.foldl_cons, ih]
      simp only [Env.turn, List.length_append, List.length_cons, List.length_nil]
      omega
  rw [Env.inTurn_eq, ← List.length_eq_zero_iff, hlen, List.length_nil, Nat.zero_add, List.length_eq_zero_iff]

/-- The state after the places of ATOM or CAS. -/
def Env.rmwDone (e : Env) (f : MWord) (ps : List Place) (lines : List Nat × Nat) (new : Nat → Nat → Option Nat) (op : Place → Nat → GOp) : State :=
  let n := Width.bytes f.width
  let r := rmwFrom ([], e.s.putG e.gid (e.g.takeLines lines.1 lines.2)) ps fun s x => e.rmw f.sx n s x (new x.p) (op x)
  r.2.modG e.gid fun g => e.memPend f.d n f.k r.1 g

section
variable {e : Env} (he : e.InTeam) {f : MWord} {ps : List Place} (lines : List Nat × Nat) (new : Nat → Nat → Option Nat) (op : Place → Nat → GOp)
include he

theorem Env.rmwDone_keeps (hps : ∀ x ∈ ps, x.loc = .own x.off) : e.Keeps (e.rmwDone f ps lines new op) (if ps = [] then 0 else 1) := by
  obtain ⟨lvl, tm, vals, hr, hl⟩ := Env.rmwFrom_acting he f.sx (Width.bytes f.width) (fun x => new x.p) op hps [] (·.lvl)
    (nunion e.g.lines lines.1) (e.g.contrib + lines.2) e.team
  have hd : e.rmwDone f ps lines new op = e.acting (e.memPend f.d (Width.bytes f.width) f.k vals
      (e.levelled lvl (nunion e.g.lines lines.1) (e.g.contrib + lines.2))) tm := by
    unfold Env.rmwDone
    dsimp only
    rw [he.takes, hr, Env.acting_modG]
    rfl
  rw [hd, Env.memPend_eq]
  refine ⟨rfl, fun k hk => Env.acting_groups_ne hk, _, Env.acting_group, rfl, rfl, rfl, ?_⟩
  have hv : vals = [] ↔ ps = [] := by rw [← List.length_eq_zero_iff, hl, List.length_eq_zero_iff]
  simp only [Env.levelled, List.length_append, Env.memResult, hv]
  split <;> rfl

theorem Env.rmwDone_turns (hn : Width.bytes f.width = 4 ∨ Width.bytes f.width = 8) (hps : ∀ x ∈ ps, e.WordAt (Width.bytes f.width) x)
    (hop : ∀ x ∈ ps, OpWrites (Width.bytes f.width) x (new x.p) (op x)) :
    let n := Width.bytes f.width
    let r := e.inTurn f.sx n new ps
    ∃ lvl, e.rmwDone f ps lines new op =
        e.acting (e.memPend f.d n f.k r.1 (e.levelled lvl (nunion e.g.lines lines.1) (e.g.contrib + lines.2))) r.2.2 ∧
      ∀ a, mget (lvl e.sub).view.data a = mget r.2.1 a := by
  intro n r
  obtain ⟨lvl, hr, hv⟩ := Env.rmwFrom_turns he (ordered := f.sx) hn hps hop [] (·.lvl) (nunion e.g.lines lines.1) (e.g.contrib + lines.2) e.team
    (view := e.sub.lvl.view.data) fun _ => rfl
  refine ⟨lvl, ?_, hv⟩
  unfold Env.rmwDone
  dsimp only
  rw [he.takes, hr, Env.acting_modG]
  rfl

theorem Env.rmwDone_tookValues (hn : Width.bytes f.width = 4 ∨ Width.bytes f.width = 8) (hps : ∀ x ∈ ps, e.WordAt (Width.bytes f.width) x)
    (hop : ∀ x ∈ ps, OpWrites (Width.bytes f.width) x (new x.p) (op x)) : e.TookValues (e.rmwDone f ps lines new op) f new ps := by
  obtain ⟨lvl, hd, hv⟩ := Env.rmwDone_turns he lines new op hn hps hop
  rw [hd, Env.memPend_eq]
  exact ⟨_, _, Env.acting_group, e.levelled_sub he.sub lvl (nunion e.g.lines lines.1) (e.g.contrib + lines.2), hv, Env.acting_team he.team,
    congrArg (e.g.pend ++ ·) (if_congr (e.inTurn_nil_iff ..) rfl rfl)⟩

end

/-- An ordered word has the whole gang, and its group the team token. -/
def Env.orderedOk (e : Env) (f : MWord) : Prop := f.sx = true → e.whole = true ∧ e.s.tokenHolds e.team e.tid e.gid = true

theorem Env.orderedOk.guard {e : Env} {f : MWord} (h : e.orderedOk f) : guardC (!f.sx || e.whole) (flt 0x03) = .ok () := by
  cases hs : f.sx with
  | false => rfl
  | true => simp [(h hs).1]

theorem Env.orderedOk.token {e : Env} {f : MWord} (h : e.orderedOk f) :
    (f.sx && e.exec f.k != 0 && !e.s.tokenHolds e.team e.tid e.gid) = false := by
  cases hs : f.sx with
  | false => rfl
  | true => simp [(h hs).2]

/-- The state after ATOM's own effect. -/
def Env.atomDone (e : Env) (f : MWord) (ps : List Place) : State :=
  let n := Width.bytes f.width
  e.rmwDone f ps (e.rmwLines f.sx true n ps) (e.atomAt f) fun x _ => .atom x.off n f.op (BitVec.ofNat 64 (low (8 * n) (e.dValue f.d n x.p)))

/-- The state after CAS's own effect. -/
def Env.casDone (e : Env) (f : MWord) (ps : List Place) : State :=
  e.rmwDone f ps ((e.rmwLines f.sx false (Width.bytes f.width) ps).1, 0) (e.casAt f) fun x v => .store x.off (BitVec.ofNat 32 v)

section
variable {s : State} {e : Env} {f : MWord} {ps : List Place} (ho : e.orderedOk f)
include ho

theorem atom_effect (h : Issues (.atom f) s e) (hr : e.reach f true false = .ok ps) (hp : e.noPoison f ps = .ok ())
    (hl : e.needLines f.d ps (e.rmwLines f.sx true (Width.bytes f.width)) = .ok ()) : Effect (.atom f) s e (· = e.atomDone f ps) := by
  refine ⟨_, issueWord_ok h ?_, rfl⟩
  simp only [ho.guard, hr, hl, hp, ho.token, chk_ok_bind, Bool.false_eq_true, if_false]
  rfl

theorem cas_effect (hc : e.g.isCtl = false) (h : Issues (.cas f) s e) (hr : e.reach f true true = .ok ps) (hp : e.noPoison f ps = .ok ())
    (hl : e.needLines f.d ps (e.rmwLines f.sx false (Width.bytes f.width)) = .ok ()) : Effect (.cas f) s e (· = e.casDone f ps) := by
  have hnew : ∀ p, (fun old => if old == low (8 * Width.bytes f.width) (e.dValue f.d (Width.bytes f.width) p)
      then some (e.casNew f.d (Width.bytes f.width) p) else none) = e.casAt f p := fun p => by
    funext old
    simp only [Env.casAt, beq_iff_eq]
  refine ⟨_, issueWord_ok h ?_, rfl⟩
  simp only [ho.guard, hr, hl, hp, ho.token, chk_ok_bind, Bool.false_eq_true, if_false, hc, hnew]
  rfl

end

/-- Settles O13: the guard of each word on a sub-gang that is no whole gang, and its effect on one that is. -/
theorem partOfTheGangTraps : Obligations.PartOfTheGangTraps := by
  intro s e hc
  refine ⟨fun hm => ?_, fun hm => ?_⟩
  · have hw : e.whole = false := Bool.eq_false_iff.mpr (mt Env.whole_iff.mp hm)
    have hn : e.needWhole = .error (flt 0x03) := Env.needWhole_error hw
    have hcoll : ∀ c, e.collPark (fun _ => .ok c) = .error (flt 0x03) := fun c => by simp [Env.collPark, hn]
    exact ⟨fun f h hs => chkWord_traps h (f := flt 0x03) rfl (by simp [hs, hw]) rfl hc,
      fun f h hs => chkWord_traps h (f := flt 0x03) rfl (by simp [hs, hw]) rfl hc,
      fun f h => chkWord_traps h (f := flt 0x03) rfl (by rw [hn]; rfl) rfl hc, fun f h => chkWord_traps h (f := flt 0x03) rfl (hcoll _) rfl hc,
      fun f h => chkWord_traps h (f := flt 0x03) rfl (hcoll _) rfl hc, fun f h => chkWord_traps h (f := flt 0x03) rfl (by rw [hn]; rfl) rfl hc,
      fun f h => chkWord_traps h (f := flt 0x03) rfl (by rw [hn]; rfl) rfl hc⟩
  · have hw : e.whole = true := Env.whole_iff.mpr hm
    refine ⟨fun f ps h hs ht hr hp hl => ?_, fun f ps h hs ht hr hp hl => ?_, fun f h => cmitT_effect h hw,
      fun f t h ht => ⟨_, abrtG_goes h hw ht⟩, fun ho hd => ⟨fun f h => collWord_arrives h rfl hw ho hd rfl,
        fun f h => collWord_arrives h rfl hw ho hd rfl, fun f h => ⟨_, _, bar_arrives h hw ho hd⟩⟩⟩
    · obtain ⟨t, hx, rfl⟩ := atom_effect (fun _ => ⟨hw, ht⟩) h hr hp (hs ▸ hl)
      exact ⟨_, hx, (Env.rmwDone_keeps (h.inTeam hc) _ _ _ (Env.reaches_own hc hr)).1⟩
    · obtain ⟨t, hx, rfl⟩ := cas_effect (fun _ => ⟨hw, ht⟩) hc h hr hp (hs ▸ hl)
      exact ⟨_, hx, (Env.rmwDone_keeps (h.inTeam hc) _ _ _ (Env.reaches_own hc hr)).1⟩

/-! ### RED: the words that it folds into -/

/-- The first place of each address. -/
def redFirsts (ps : List Place) : List Place :=
  ps.filter fun x => match ps.find? fun y => y.addr == x.addr with | some y => y.p == x.p | none => false

/-- The contributions of the lanes that name a place's word. -/
def redValues (ps : List Place) (val : Nat → Nat) (x : Place) : List (Option W64) :=
  (List.range 32).map fun l => if ps.any fun y => y.p == l && y.addr == x.addr then some (BitVec.ofNat 64 (val l)) else none

theorem redGroups_eq (ps : List Place) (val : Nat → Nat) : redGroups ps val = (redFirsts ps).map fun x => (x, redValues ps val x) := rfl

theorem mem_redFirsts {ps : List Place} {x : Place} : x ∈ redFirsts ps ↔
    x ∈ ps ∧ ∃ y, (ps.find? fun y => y.addr == x.addr) = some y ∧ y.p = x.p := by
  unfold redFirsts
  rw [List.mem_filter]
  refine and_congr_right fun _ => ?_
  cases ps.find? fun y => y.addr == x.addr <;> simp

/-- Every word that a place names has its first place. -/
theorem exists_redFirst {ps : List Place} {y : Place} (hy : y ∈ ps) : ∃ x ∈ redFirsts ps, x.addr = y.addr := by
  obtain ⟨x, hx⟩ := find?_some_of_mem (p := fun z : Place => z.addr == y.addr) hy (by simp)
  have ha : x.addr = y.addr := by simpa using List.find?_some hx
  refine ⟨x, mem_redFirsts.mpr ⟨List.mem_of_find?_eq_some hx, x, ?_, rfl⟩, ha⟩
  rw [ha]
  exact hx

/-- Two first places have two addresses. -/
theorem redFirsts_pairwise {ps : List Place} (hp : (ps.map (·.p)).Nodup) : (redFirsts ps).Pairwise fun x y => x.addr ≠ y.addr := by
  have hd : (redFirsts ps).Pairwise fun x y => x.p ≠ y.p := (List.pairwise_map.mp hp).filter _
  refine hd.imp_of_mem fun {x y} hx hy hxy ha => hxy ?_
  obtain ⟨-, u, hu, hup⟩ := mem_redFirsts.mp hx
  obtain ⟨-, v, hv, hvp⟩ := mem_redFirsts.mp hy
  rw [ha, hv, Option.some.injEq] at hu
  rw [← hup, ← hvp, hu]

/-- Words folded into a memory, one after another. -/
def foldWords (n : Nat) (new : Place → Nat → Nat) (ps : List Place) (m : Memory) : Memory :=
  ps.foldl (fun m x => mwrite m x.off (leBytes n (new x (mnat m x.off n)))) m

theorem foldWords_out (n : Nat) (new : Place → Nat → Nat) {ps : List Place} (m : Memory) {a : Nat}
    (h : ∀ x ∈ ps, a < x.off ∨ x.off + n ≤ a) : mget (foldWords n new ps m) a = mget m a := by
  induction ps generalizing m with
  | nil => rfl
  | cons x ps ih =>
    refine (ih _ fun y hy => h y (List.mem_cons_of_mem _ hy)).trans (mget_mwrite_out m _ ?_)
    rw [leBytes_length]
    exact h x (by simp)

/-- Words apart from each other: each gets its new value. -/
theorem foldWords_word (n : Nat) (new : Place → Nat → Nat) {ps : List Place} (hd : ps.Pairwise fun x y => x.off + n ≤ y.off ∨ y.off + n ≤ x.off)
    (m : Memory) : ∀ x ∈ ps, mnat (foldWords n new ps m) x.off n = new x (mnat m x.off n) % 2 ^ (8 * n) := by
  induction ps generalizing m with
  | nil => simp
  | cons y ps ih =>
    obtain ⟨hy, hps⟩ := List.pairwise_cons.mp hd
    intro x hx
    rcases List.mem_cons.mp hx with rfl | hx
    · show mnat (foldWords n new ps (mwrite m x.off (leBytes n (new x (mnat m x.off n))))) x.off n = _
      refine (mnat_congr fun a ha ha' => foldWords_out n new _ fun z hz => ?_).trans (mnat_mwrite_same ..)
      have := hy z hz
      omega
    · show mnat (foldWords n new ps (mwrite m y.off (leBytes n (new y (mnat m y.off n))))) x.off n = _
      refine (ih hps _ x hx).trans ?_
      rw [mnat_mwrite_out]
      rw [leBytes_length]
      have := hy x hx
      omega

/-! ### RED on the machine -/

/-- A RED's contributions on the sub-gang's view. -/
theorem Env.WroteBytes.red {e : Env} {lines : List Nat} {contrib : Nat} {sl : List Slice} {t : State} {view ring : Memory}
    (h : e.WroteBytes lines contrib sl t view ring) (off n code : Nat) (vs : List (Option W64)) :
    e.WroteBytes lines contrib sl (t.modG e.gid fun g => g.modLvl e.sub.mask fun l => l.act [.red off n code vs])
      (mwrite view off (leBytes n (redNew n code (mnat view off n) vs).1)) ring := by
  obtain ⟨lvl, tm, rfl, htm, hv, hr⟩ := h
  refine ⟨fun y => (lvl y).act [.red off n code vs], tm, (Env.acting_modG _).trans (by rw [Env.levelledAt_modLvl]), htm, fun a => ?_, hr⟩
  have hn : mnat (lvl e.sub).view.data off n = mnat view off n := mnat_congr fun a _ _ => hv a
  rw [← hn]
  exact mget_mwrite_congr hv _ _ a

theorem Group.raiseAll_slices (g : Group) (fl : Nat) : g.raiseAll fl = { g with slices := (g.raiseAll fl).slices } := by
  unfold Group.raiseAll
  rw [modSlices_slices]

/-- Flags raised in the slices. -/
theorem Env.WroteBytes.raise {e : Env} {lines : List Nat} {contrib : Nat} {sl : List Slice} {t : State} {view ring : Memory}
    (h : e.WroteBytes lines contrib sl t view ring) (fl : Nat) :
    ∃ sl', e.WroteBytes lines contrib sl' (t.modG e.gid fun g => g.raiseAll fl) view ring := by
  obtain ⟨lvl, tm, rfl, htm, hv, hr⟩ := h
  have hl : (e.levelledAt lvl lines contrib sl).raiseAll fl =
      e.levelledAt lvl lines contrib ((e.levelledAt lvl lines contrib sl).raiseAll fl).slices := Group.raiseAll_slices _ fl
  exact ⟨_, lvl, tm, (Env.acting_modG _).trans (by rw [hl]), htm, hv, hr⟩

/-- One word of RED. -/
def Env.redStep (e : Env) (n code : Nat) (vs : Place → List (Option W64)) (s : State) (x : Place) : State :=
  if x.inRing e then
    (e.put s x (leBytes n (redNew n code (leNat (e.readAt n x)) (vs x)).1)).modG e.gid
      fun g => g.raiseAll (redNew n code (leNat (e.readAt n x)) (vs x)).2
  else s.modG e.gid fun g => g.modLvl e.sub.mask fun l => l.act [.red x.off n code (vs x)]

theorem Env.WroteBytes.reds {e : Env} {lines : List Nat} {contrib : Nat} {sl : List Slice} {t : State} {view ring : Memory}
    (h : e.WroteBytes lines contrib sl t view ring) (n code : Nat) (vs : Place → List (Option W64)) {ps : List Place}
    (hps : ∀ x ∈ ps, x.loc = .own x.off) : ∃ sl', e.WroteBytes lines contrib sl' (ps.foldl (e.redStep n code vs) t)
      (foldWords n (fun x old => (redNew n code old (vs x)).1) (ps.filter fun x => !x.inRing e) view)
      (foldWords n (fun x _ => (redNew n code (leNat (e.readAt n x)) (vs x)).1) (ps.filter fun x => x.inRing e) ring) := by
  induction ps generalizing t view ring sl with
  | nil => exact ⟨sl, h⟩
  | cons x ps ih =>
    have htail : ∀ y ∈ ps, y.loc = .own y.off := fun y hy => hps y (List.mem_cons_of_mem _ hy)
    cases hi : x.inRing e with
    | true =>
      have hput := h.put (hps x (by simp)) (leBytes n (redNew n code (leNat (e.readAt n x)) (vs x)).1)
      simp only [hi, if_true] at hput
      obtain ⟨sl₁, h₁⟩ := hput.raise (redNew n code (leNat (e.readAt n x)) (vs x)).2
      obtain ⟨sl₂, h₂⟩ := ih h₁ htail
      refine ⟨sl₂, ?_⟩
      rw [List.foldl_cons, show e.redStep n code vs t x = _ from if_pos hi, List.filter_cons_of_neg (by simp [hi]), List.filter_cons_of_pos hi]
      exact h₂
    | false =>
      obtain ⟨sl₂, h₂⟩ := ih (h.red x.off n code (vs x)) htail
      refine ⟨sl₂, ?_⟩
      rw [List.foldl_cons, show e.redStep n code vs t x = _ from if_neg (by simp [hi]), List.filter_cons_of_pos (by simp [hi]),
        List.filter_cons_of_neg (by simp [hi])]
      exact h₂

/-- The state after RED's own effect. -/
def Env.redDone (e : Env) (f : MWord) (ps : List Place) : State :=
  let n := Width.bytes f.width
  let lines := e.rmwLines false true n ps
  e.wipe ((redFirsts ps).foldl (e.redStep n (f.op.val + if f.sx then 4 else 0) (redValues ps fun p => low (8 * n) (e.dValue f.d n p)))
    (e.s.putG e.gid (e.g.takeLines lines.1 lines.2))) n ps

theorem red_effect {s : State} {e : Env} {f : MWord} {ps : List Place} (h : Issues (.red f) s e) (hr : e.reach f true false = .ok ps)
    (hl : e.needLines f.d ps (e.rmwLines false true (Width.bytes f.width)) = .ok ()) : Effect (.red f) s e (· = e.redDone f ps) := by
  refine ⟨_, issueWord_ok h ?_, rfl⟩
  simp only [hr, hl, chk_ok_bind, redGroups_eq, List.foldl_map]
  rfl

end Sys2Proof.Machine
end

section
/-! SUPPORT. The atomic words complete: their statement from the places in turn (R206 to R209, R434). -/

namespace Sys2Proof.Machine

/-! ### Places of different addresses -/

theorem Env.reach_off {e : Env} (hc : e.g.isCtl = false) {f : MWord} {cas : Bool} {ps : List Place} (h : e.reach f true cas = .ok ps) :
    ∀ x ∈ ps, x.off = x.addr % 2 ^ 19 ∧ 2 ^ 55 ≤ x.addr ∧ (x.addr - 2 ^ 55) / 2 ^ 19 = e.team.team := by
  intro x hx
  obtain ⟨-, -, hl⟩ := (Env.reach_ok_iff.mp h).1.passed x hx
  obtain ⟨ho, hlo, ht, -⟩ := Env.locate_own hc hl
  exact ⟨by simp only [Place.off, ho], hlo, ht⟩

/-- Aligned words at different addresses of one window do not meet. -/
theorem Env.words_apart {e : Env} (hc : e.g.isCtl = false) {f : MWord} {cas : Bool} {ps : List Place} (h : e.reach f true cas = .ok ps)
    (hn : Width.bytes f.width = 4 ∨ Width.bytes f.width = 8) {x y : Place} (hx : x ∈ ps) (hy : y ∈ ps) (hne : x.addr ≠ y.addr) :
    x.off + Width.bytes f.width ≤ y.off ∨ y.off + Width.bytes f.width ≤ x.off := by
  obtain ⟨hxo, hxl, hxt⟩ := Env.reach_off hc h x hx
  obtain ⟨hyo, hyl, hyt⟩ := Env.reach_off hc h y hy
  obtain ⟨-, hxa, -⟩ := (Env.reach_ok_iff.mp h).1.passed x hx
  obtain ⟨-, hya, -⟩ := (Env.reach_ok_iff.mp h).1.passed y hy
  rcases hn with h | h <;> rw [h] at hxa hya ⊢ <;> omega

theorem places_nodup (e : Env) (k : Nat) (d : Opd) : (e.places k d).Nodup := by
  unfold Env.places
  split
  · exact execLanes_nodup e k
  · exact (execSlices_nodup e k).map fun a b h => by omega

/-! ### RED -/

section
variable {e : Env} (he : e.InTeam) {f : MWord} {ps : List Place} (hr : e.reach f true false = .ok ps)
include he hr

theorem Env.redDone_wrote : ∃ sl, let n := Width.bytes f.width
    let vs := redValues ps fun p => low (8 * n) (e.dValue f.d n p)
    let code := f.op.val + if f.sx then 4 else 0
    e.WroteBytes (nunion e.g.lines (e.rmwLines false true n ps).1) (e.g.contrib + (e.rmwLines false true n ps).2) sl (e.redDone f ps)
      (foldWords n (fun x old => (redNew n code old (vs x)).1) ((redFirsts ps).filter fun x => !x.inRing e) e.sub.lvl.view.data)
      (foldWords n (fun x _ => (redNew n code (leNat (e.readAt n x)) (vs x)).1) ((redFirsts ps).filter fun x => x.inRing e) e.team.data.data) := by
  have hps : ∀ x ∈ redFirsts ps, x.loc = .own x.off := fun x hx => Env.reaches_own he.ctl hr x (mem_redFirsts.mp hx).1
  obtain ⟨sl, h⟩ := (he.wroteBytes (e.rmwLines false true (Width.bytes f.width) ps).1 (e.rmwLines false true (Width.bytes f.width) ps).2).reds
    (Width.bytes f.width) (f.op.val + if f.sx then 4 else 0)
    (redValues ps fun p => low (8 * Width.bytes f.width) (e.dValue f.d (Width.bytes f.width) p)) hps
  exact ⟨sl, h.wipe _ _⟩

/-- What a fold into the words of the first places leaves at each place and elsewhere. -/
theorem Env.red_folded (hn : Width.bytes f.width = 4 ∨ Width.bytes f.width = 8) (ring : Bool) {old new : Memory} {val : Nat → Nat} {code : Nat}
    {next : Place → Nat → Nat} (hnext : ∀ x ∈ ps, x.inRing e = ring →
      next x (mnat old x.off (Width.bytes f.width)) =
        (redNew (Width.bytes f.width) code (mnat old x.off (Width.bytes f.width)) (redValues ps val x)).1)
    (hnew : ∀ a, mget new a = mget (foldWords (Width.bytes f.width) next ((redFirsts ps).filter fun x => x.inRing e == ring) old) a) :
    let n := Width.bytes f.width
    (∀ y ∈ ps, y.inRing e = ring → mnat new y.off n = (redNew n code (mnat old y.off n) (redValues ps val y)).1 % 2 ^ (8 * n)) ∧
    (∀ a, (∀ y ∈ ps, y.inRing e = ring → a < y.off ∨ y.off + n ≤ a) → mget new a = mget old a) := by
  intro n
  have hp : (ps.map (·.p)).Nodup := (Env.reach_ok_iff.mp hr).1.places ▸ places_nodup e f.k f.d
  have hapart : ((redFirsts ps).filter fun x => x.inRing e == ring).Pairwise fun x y => x.off + n ≤ y.off ∨ y.off + n ≤ x.off :=
    ((redFirsts_pairwise hp).imp_of_mem fun hx hy hne =>
      Env.words_apart he.ctl hr hn (mem_redFirsts.mp hx).1 (mem_redFirsts.mp hy).1 hne).filter _
  refine ⟨fun y hy hi => ?_, fun a ha => (hnew a).trans (foldWords_out n next old fun x hx => ?_)⟩
  · obtain ⟨x, hx, hxy⟩ := exists_redFirst hy
    have hxp := (mem_redFirsts.mp hx).1
    have hoff : x.off = y.off := by rw [(Env.reach_off he.ctl hr x hxp).1, (Env.reach_off he.ctl hr y hy).1, hxy]
    have hloc : x.loc = y.loc := by rw [Env.reaches_own he.ctl hr x hxp, Env.reaches_own he.ctl hr y hy, hoff]
    have hix : x.inRing e = ring := by rw [← hi]; unfold Place.inRing; rw [hloc]
    have hvs : redValues ps val x = redValues ps val y := by unfold redValues; rw [hxy]
    have hw := foldWords_word n next hapart old x (List.mem_filter.mpr ⟨hx, by simp [hix]⟩)
    rw [hnext x hxp hix, hvs, hoff] at hw
    exact (mnat_congr fun a _ _ => hnew a).trans hw
  · obtain ⟨hx, hi⟩ := List.mem_filter.mp hx
    exact ha x (mem_redFirsts.mp hx).1 (by simpa using hi)

end

/-- RED keeps the registers, and folds each word in the view or in the ring. -/
theorem red_completes {s : State} {e : Env} {f : MWord} {ps : List Place} (hc : e.g.isCtl = false) (h : Issues (.red f) s e)
    (hr : e.reach f true false = .ok ps) (hl : e.needLines f.d ps (e.rmwLines false true (Width.bytes f.width)) = .ok ()) :
    Effect (.red f) s e fun t => e.Keeps t 0 ∧
        let n := Width.bytes f.width
        let vs := fun (y : Place) => redValues ps (fun l => low (8 * n) (e.dValue f.d n l)) y
        let folded := fun (ring : Bool) (old new : Memory) =>
          (∀ y ∈ ps, y.inRing e = ring →
            mnat new y.off n = (redNew n (f.op.val + (if f.sx then 4 else 0)) (mnat old y.off n) (vs y)).1 % 2 ^ (8 * n)) ∧
          (∀ a, (∀ y ∈ ps, y.inRing e = ring → a < y.off ∨ y.off + n ≤ a) → mget new a = mget old a)
        n = 4 ∨ n = 8 → ∃ g x tm, tget e.gid t.groups = some g ∧ g.sub e.sub.mask = some x ∧ tget e.tid t.teams = some tm ∧
          folded false e.sub.lvl.view.data x.lvl.view.data ∧ folded true e.team.data.data tm.data.data := by
  obtain ⟨t, hx, rfl⟩ := red_effect h hr hl
  have he := h.inTeam hc
  obtain ⟨sl, lvl, tm, ht, htm, hv, hd⟩ := Env.redDone_wrote he hr
  refine ⟨_, hx, ?_, fun hn => ?_⟩
  · rw [ht]
    exact ⟨rfl, fun k hk => Env.acting_groups_ne hk, _, Env.acting_group, rfl, rfl, rfl, rfl⟩
  · rw [ht]
    have hword := Env.wordAt_of_reach hc hr hn
    refine ⟨_, _, tm, Env.acting_group, Env.levelledAt_sub he.sub .., Env.acting_team he.team, ?_, ?_⟩
    · refine Env.red_folded he hr hn false (next := fun x old => (redNew (Width.bytes f.width) (f.op.val + if f.sx then 4 else 0) old
        (redValues ps (fun p => low (8 * Width.bytes f.width) (e.dValue f.d (Width.bytes f.width) p)) x)).1)
        (fun _ _ _ => rfl) fun a => (hv a).trans ?_
      simp only [beq_false]
    · refine Env.red_folded he hr hn true (next := fun x _ => (redNew (Width.bytes f.width) (f.op.val + if f.sx then 4 else 0)
        (leNat (e.readAt (Width.bytes f.width) x))
        (redValues ps (fun p => low (8 * Width.bytes f.width) (e.dValue f.d (Width.bytes f.width) p)) x)).1)
        (fun x hx hi => ?_) fun a => (hd a).trans ?_
      · have hring := (hword x hx).inRing hc
        rw [hi] at hring
        rw [Env.readAt_word e hn (hword x hx).loc (hword x hx).aligned (hword x hx).area, ← hring]
        rfl
      · simp only [beq_true]

/-- ATOM or CAS with its values, from its state. -/
theorem Env.rmwDone_spec {e : Env} (he : e.InTeam) {f : MWord} {ps : List Place} {cas : Bool} (hr : e.reach f true cas = .ok ps)
    (lines : List Nat × Nat) (new : Nat → Nat → Option Nat) (op : Place → Nat → GOp)
    (hop : Width.bytes f.width = 4 ∨ Width.bytes f.width = 8 → ∀ x ∈ ps, OpWrites (Width.bytes f.width) x (new x.p) (op x)) :
    e.Keeps (e.rmwDone f ps lines new op) (if ps = [] then 0 else 1) ∧
    (Width.bytes f.width = 4 ∨ Width.bytes f.width = 8 → e.TookValues (e.rmwDone f ps lines new op) f new ps) :=
  ⟨Env.rmwDone_keeps he lines new op (Env.reaches_own he.ctl hr),
    fun hn => Env.rmwDone_tookValues he lines new op hn (Env.wordAt_of_reach he.ctl hr hn) (hop hn)⟩

/-- An ATOM of one place of team data, not ordered. -/
theorem atom_one {s : State} {e : Env} {f : MWord} {x : Place} {off : Nat} (h : Issues (.atom f) s e) (hc : e.g.isCtl = false)
    (hs : f.sx = false) (hr : e.reach f true false = .ok [x]) (hp : e.noPoison f [x] = .ok ()) (hl : x.loc = .own off)
    (ha : e.lch.areaOf off = .data) (hn : Width.bytes f.width = 4 ∨ Width.bytes f.width = 8)
    (hlines : e.needLines f.d [x] (e.rmwLines false true (Width.bytes f.width)) = .ok ()) :
    let n := Width.bytes f.width
    let old := mnat e.sub.lvl.view.data off n
    Effect (.atom f) s e fun t => ∃ (g : Group) (lvl : SubGang → GLevel) (lines : List Nat) (contrib : Nat),
      t = e.s.putG e.gid g ∧ g = { e.levelled lvl lines contrib with pend := g.pend, nextPend := g.nextPend } ∧
      (∀ a, mget (lvl e.sub).view.data a =
        mget (mwrite e.sub.lvl.view.data off (leBytes n (atomNew n f.op old (low (8 * n) (e.dValue f.d n x.p))))) a) ∧
      g.pend = e.g.pend ++ [{ e.newPend f.d (if f.d.isV then (n + 3) / 4 else (n + 7) / 8) (sliceBits (e.exec f.k)) with
        idx := e.g.nextPend, vw := dVec f.d n x.p old, sw := dSca f.d n x.p old }] := by
  intro n old
  have he := h.inTeam hc
  have hoff : x.off = off := by simp only [Place.off, hl]
  have hi : x.inRing e = false := by unfold Place.inRing; rw [hl]; simp [ha]
  have hturn : e.inTurn f.sx n (e.atomAt f) [x] = ([(x.p, old)],
      mwrite e.sub.lvl.view.data off (leBytes n (atomNew n f.op old (low (8 * n) (e.dValue f.d n x.p)))), e.team) := by
    rw [Env.inTurn_eq, hs, List.foldl_cons, List.foldl_nil]
    unfold Env.turn
    simp only [hi, hoff, Bool.false_eq_true, if_false]
    rfl
  obtain ⟨t, hx, rfl⟩ := atom_effect (fun ho => absurd (hs.symm.trans ho) (by decide)) h hr hp (hs ▸ hlines)
  obtain ⟨lvl, hd, hv⟩ := Env.rmwDone_turns he (e.rmwLines f.sx true n [x]) (e.atomAt f)
    (fun x _ => .atom x.off n f.op (BitVec.ofNat 64 (low (8 * n) (e.dValue f.d n x.p)))) hn (Env.wordAt_of_reach hc hr hn)
    fun y _ => atom_opWrites hn y
  rw [hturn] at hd hv
  refine ⟨_, hx, _, lvl, nunion e.g.lines (e.rmwLines f.sx true n [x]).1, e.g.contrib + (e.rmwLines f.sx true n [x]).2,
    hd.trans (Env.acting_own he.team), ?_, hv, ?_⟩
  · rw [Env.memPend_eq]
  · rw [Env.memPend_eq]
    simp [n, Env.memResult, Env.levelled]

/-- Settles O19: ATOM and CAS in turn, RED word by word, and the ATOM of one place. -/
theorem atomicWordsComplete : Obligations.AtomicWordsComplete := by
  refine ⟨fun s e ps hc => ⟨fun f h ho hr hp hl => ?_, fun f h ho hr hp hl => ?_, fun f h hr hl => red_completes hc h hr hl⟩,
    fun s e f x off h hc hs hr hp hl ha hn hlines => atom_one h hc hs hr hp hl ha hn hlines⟩
  · obtain ⟨t, hx, rfl⟩ := atom_effect ho h hr hp hl
    exact ⟨_, hx, Env.rmwDone_spec (h.inTeam hc) hr _ _ _ fun hn y _ => atom_opWrites hn y⟩
  · obtain ⟨t, hx, rfl⟩ := cas_effect ho hc h hr hp hl
    exact ⟨_, hx, Env.rmwDone_spec (h.inTeam hc) hr _ _ _ fun _ y _ => cas_opWrites y⟩

end Sys2Proof.Machine
end

section
/-! SUPPORT. Pending results written at a marker (R44 to R49), the returns of results, and the array's events (R172). -/

namespace Sys2Proof.Machine

/-! ### Pending results written -/

/-- A group in which some pending results have been written: register words without cancellation, and flags. -/
def Group.pended (g : Group) (ps : List Pend) : Group :=
  { g with vreg := written 0 g.vreg (ps.flatMap (·.vw)), sreg := written 0 g.sreg (ps.flatMap (·.sw)),
           badV := g.badV.filter fun k => !(ps.any fun p => p.vw.any fun w => w.1 == k),
           badS := g.badS.filter fun k => !(ps.any fun p => p.sw.any fun w => w.1 == k),
           slices := g.slices.mapIdx fun n y => { y with status :=
             (ps.flatMap fun p => p.flags.filter fun w => w.1 / 4 == n).foldl (fun st w => st ||| w.2) y.status } }

theorem written_append {α : Type} [DecidableEq α] (d : α) (m : Sparse α) (l₁ l₂ : List (Nat × α)) :
    written d m (l₁ ++ l₂) = written d (written d m l₁) l₂ := List.foldl_append ..

theorem Group.pended_nil (g : Group) : g.pended [] = g := by
  have hs : g.slices.mapIdx (fun _ y => y) = g.slices := by simp [List.mapIdx_eq_zipIdx_map]
  simp [Group.pended, written, hs]

theorem Group.pended_append (g : Group) (ps qs : List Pend) : g.pended (ps ++ qs) = (g.pended ps).pended qs := by
  simp only [Group.pended, List.flatMap_append, written_append, List.any_append, Bool.not_or, List.filter_filter, List.mapIdx_mapIdx,
    List.foldl_append, Bool.and_comm]
  rfl

theorem rawV_fold (ws : List (Nat × W32)) (g : Group) : ws.foldl (fun g w => g.rawV w.1 w.2) g =
    { g with vreg := written 0 g.vreg ws, badV := g.badV.filter fun k => !(ws.any fun w => w.1 == k) } := by
  induction ws generalizing g with
  | nil => simp [written]
  | cons w ws ih =>
    rw [List.foldl_cons, ih]
    simp only [Group.rawV, List.filter_filter, List.any_cons, Bool.not_or]
    congr 1
    refine List.filter_congr fun k _ => ?_
    rw [Bool.and_comm, bne_comm]
    rfl

theorem rawS_fold (ws : List (Nat × W64)) (g : Group) : ws.foldl (fun g w => g.rawS w.1 w.2) g =
    { g with sreg := written 0 g.sreg ws, badS := g.badS.filter fun k => !(ws.any fun w => w.1 == k) } := by
  induction ws generalizing g with
  | nil => simp [written]
  | cons w ws ih =>
    rw [List.foldl_cons, ih]
    simp only [Group.rawS, List.filter_filter, List.any_cons, Bool.not_or]
    congr 1
    refine List.filter_congr fun k _ => ?_
    rw [Bool.and_comm, bne_comm]
    rfl

theorem raise_slices (g : Group) (c : Nat) (fl : W32) : g.raise c fl.toNat =
    { g with slices := g.slices.mapIdx fun n y => if c = n then { y with status := y.status ||| fl } else y } := by
  have hs : ∀ (xs : List Slice) (f : Slice → Slice), xs.modify c f = xs.mapIdx fun n y => if c = n then f y else y := fun xs f => by
    refine List.ext_getElem? fun n => ?_
    simp only [List.getElem?_modify, List.getElem?_mapIdx]
    cases xs[n]? <;> simp
  unfold Group.raise
  split
  · next h =>
    have h0 : fl = 0 := BitVec.eq_of_toNat_eq (by simpa using h)
    have hid : g.slices.mapIdx (fun n y => if c = n then { y with status := y.status ||| fl } else y) = g.slices := by
      refine List.ext_getElem? fun n => ?_
      rw [List.getElem?_mapIdx, h0]
      cases g.slices[n]? with
      | none => rfl
      | some y => simp
    rw [hid]
  · simp only [Group.modSlice, hs, BitVec.ofNat_toNat, BitVec.setWidth_eq]

theorem raiseFlags_fold (fs : List (Nat × W32)) (g : Group) : fs.foldl (fun g w => g.raise (w.1 / 4) w.2.toNat) g =
    { g with slices := g.slices.mapIdx fun n y =>
        { y with status := (fs.filter fun w => w.1 / 4 == n).foldl (fun st w => st ||| w.2) y.status } } := by
  induction fs generalizing g with
  | nil =>
    have hs : g.slices.mapIdx (fun _ y => y) = g.slices := by simp [List.mapIdx_eq_zipIdx_map]
    simp [hs]
  | cons w fs ih =>
    rw [List.foldl_cons, ih, raise_slices]
    simp only [List.mapIdx_mapIdx]
    congr 1
    refine congrArg (List.mapIdx · g.slices) ?_
    funext n y
    by_cases h : w.1 / 4 = n <;> simp [h]

theorem Group.applyPend_pended (g : Group) (p : Pend) : g.applyPend p = g.pended [p] := by
  unfold Group.applyPend
  dsimp only
  rw [rawV_fold, rawS_fold, raiseFlags_fold]
  simp [Group.pended]

/-- The results of some slices in the order of issue. -/
def Group.duePend (g : Group) (mask : Nat) : List Pend := (g.pend.filter fun p => p.slices &&& mask != 0).map (·.only mask)

theorem Group.writePend_pended (g : Group) (mask : Nat) : g.writePend mask = { g.pended (g.duePend mask) with
    pend := (g.pend.map fun p => p.only (255 - mask &&& 255)).filter fun p => p.slices != 0 || !p.returned,
    wrote := g.wrote + g.pend.countP fun p => (p.only mask).vw != [] || (p.only mask).sw != [] } := by
  have hf : ∀ (ps : List Pend) (h : Group), ps.foldl (fun g p => if p.slices &&& mask == 0 then g else g.applyPend (p.only mask)) h =
      h.pended ((ps.filter fun p => p.slices &&& mask != 0).map (·.only mask)) := by
    intro ps
    induction ps with
    | nil => exact fun h => h.pended_nil.symm
    | cons p ps ih =>
      intro h
      rw [List.foldl_cons, ih]
      by_cases hp : p.slices &&& mask = 0
      · simp [hp]
      · rw [List.filter_cons_of_pos (by simpa using hp), List.map_cons, if_neg (by simpa using hp), Group.applyPend_pended,
          ← Group.pended_append]
        rfl
  unfold Group.writePend
  dsimp only
  rw [hf]
  rfl

end Sys2Proof.Machine
end

section
/-! SUPPORT. Accumulator tiles rewritten element by element, and the array's multiply (R83 to R85, R167, R183, R184). -/

namespace Sys2Proof.Machine

/-! ### Elements of a rewritten tile -/

/-- A list of the nonzero values of a function, by key. -/
theorem sget_filterMap (N : Nat) (v : Nat → W32) (k : Nat) :
    sget 0 ((List.range N).filterMap fun i => if v i = 0 then none else some (i, v i)) k = if k < N then v k else 0 := by
  unfold sget
  by_cases hk : k < N ∧ v k ≠ 0
  · have hmem : (k, v k) ∈ (List.range N).filterMap fun i => if v i = 0 then none else some (i, v i) :=
      List.mem_filterMap.mpr ⟨k, List.mem_range.mpr hk.1, if_neg hk.2⟩
    cases ht : tget k ((List.range N).filterMap fun i => if v i = 0 then none else some (i, v i)) with
    | none => exact absurd rfl (tget_none_iff.mp ht _ hmem)
    | some x =>
      obtain ⟨i, -, hi⟩ := List.mem_filterMap.mp (mem_of_tget ht)
      split at hi
      · cases hi
      · simp only [Option.some.injEq, Prod.mk.injEq] at hi
        obtain ⟨rfl, rfl⟩ := hi
        simp [hk.1]
  · have hnone : tget k ((List.range N).filterMap fun i => if v i = 0 then none else some (i, v i)) = none := tget_none_iff.mpr fun p hp hpk => by
      obtain ⟨i, hi, hs⟩ := List.mem_filterMap.mp hp
      split at hs
      · cases hs
      · next h0 =>
        simp only [Option.some.injEq] at hs
        subst hs
        simp only at hpk
        exact hk ⟨hpk ▸ List.mem_range.mp hi, hpk ▸ h0⟩
    rw [hnone]
    split
    · next h => simpa using (not_and_not_right.mp hk h).symm
    · rfl

/-- The new words of a rewritten tile (none: kept). -/
def buildWord (wide : Bool) (f : Nat → Option Nat) (i : Nat) : Option Nat :=
  if wide then (if i < 512 then (f (i / 2)).map fun v => if i % 2 == 0 then low 32 v else v / 2 ^ 32 else none) else f i

/-- What a word of a rewritten tile holds. -/
def Tile.newWord (t : Tile) (wide : Bool) (f : Nat → Option Nat) (i : Nat) : W32 :=
  match buildWord wide f i with | some v => BitVec.ofNat 32 v | none => sget 0 t.words i

theorem Tile.build_eq (t : Tile) (wide : Bool) (f : Nat → Option Nat) : t.build wide f = { t with
    words := (List.range 1024).filterMap fun i => if t.newWord wide f i = 0 then none else some (i, t.newWord wide f i),
    bad := t.bad.filter fun i => (buildWord wide f i).isNone } := rfl

theorem Tile.build_words (t : Tile) (wide : Bool) (f : Nat → Option Nat) {i : Nat} (hi : i < 1024) :
    sget 0 (t.build wide f).words i = t.newWord wide f i := by
  rw [Tile.build_eq]
  dsimp only
  rw [sget_filterMap, if_pos hi]

theorem Tile.build_bad (t : Tile) (wide : Bool) (f : Nat → Option Nat) (i : Nat) :
    (t.build wide f).bad.contains i = (t.bad.contains i && (buildWord wide f i).isNone) := by
  rw [Tile.build_eq]
  dsimp only
  rw [Bool.eq_iff_iff, Bool.and_eq_true, List.contains_iff_mem, List.contains_iff_mem, List.mem_filter]

@[simp] theorem Tile.build_flags (t : Tile) (wide : Bool) (f : Nat → Option Nat) : (t.build wide f).flags = t.flags := by
  rw [Tile.build_eq]

/-- The elements of a tile of 32 or 64 bits that lie in it. -/
def elemCount (wide : Bool) : Nat := if wide then 256 else 1024

theorem two_words (v : Nat) : low 32 v % 2 ^ 32 + 2 ^ 32 * (v / 2 ^ 32 % 2 ^ 32) = v % 2 ^ 64 := by
  have hp : (2 : Nat) ^ 64 = 2 ^ 32 * 2 ^ 32 := (Nat.pow_add 2 32 32)
  rw [low, Nat.mod_mod, hp, Nat.mod_mul]

/-- The words of an element of 64 bits. -/
theorem buildWord_wide {f : Nat → Option Nat} {x : Nat} (hx : x < 256) : buildWord true f (2 * x) = (f x).map (low 32) ∧
    buildWord true f (2 * x + 1) = (f x).map (· / 2 ^ 32) := by
  have h1 : (2 * x + 1) / 2 = x := by omega
  have h2 : (2 * x + 1) % 2 = 1 := by omega
  constructor
  · simp [buildWord, show 2 * x < 512 by omega]
  · simp [buildWord, show 2 * x + 1 < 512 by omega, h1, h2]

/-- An element that is rewritten holds the new value, narrowed, and is whole. -/
theorem Tile.get_build_some (t : Tile) (wide : Bool) {f : Nat → Option Nat} {x v : Nat} (hx : x < elemCount wide) (hf : f x = some v) :
    (t.build wide f).get wide x = (v % 2 ^ (if wide then 64 else 32), false) := by
  unfold Tile.get
  cases wide with
  | true =>
    have hx' : x < 256 := hx
    obtain ⟨h0, h1⟩ := buildWord_wide (f := f) hx'
    rw [hf] at h0 h1
    simp only [Tile.build_bad, Tile.build_words t true f (show 2 * x < 1024 by omega), Tile.build_words t true f (show 2 * x + 1 < 1024 by omega),
      Tile.newWord, h0, h1, Option.map_some, Option.isNone_some, Bool.and_false, Bool.or_false, Bool.false_eq_true, if_true, if_false,
      BitVec.toNat_ofNat, two_words]
  | false =>
    have h0 : buildWord false f x = some v := hf
    simp only [Tile.build_bad, Tile.build_words t false f hx, Tile.newWord, h0, Option.isNone_some, Bool.and_false, Bool.false_eq_true,
      if_false, BitVec.toNat_ofNat]

/-- An element that is kept. -/
theorem Tile.get_build_none (t : Tile) (wide : Bool) {f : Nat → Option Nat} {x : Nat} (hx : x < elemCount wide) (hf : f x = none) :
    (t.build wide f).get wide x = t.get wide x := by
  unfold Tile.get
  cases wide with
  | true =>
    have hx' : x < 256 := hx
    obtain ⟨h0, h1⟩ := buildWord_wide (f := f) hx'
    rw [hf] at h0 h1
    simp only [Tile.build_bad, Tile.build_words t true f (show 2 * x < 1024 by omega), Tile.build_words t true f (show 2 * x + 1 < 1024 by omega),
      Tile.newWord, h0, h1, Option.map_none, Option.isNone_none, Bool.and_true, reduceIte]
  | false =>
    have h0 : buildWord false f x = none := hf
    simp only [Tile.build_bad, Tile.build_words t false f hx, Tile.newWord, h0, Option.isNone_none, Bool.and_true, reduceIte, Bool.false_eq_true]

/-- A damaged word makes its element read as zero (R183). -/
theorem Tile.get_bad (t : Tile) (wide : Bool) {x : Nat} (hx : x ∈ t.bad) : t.get wide (if wide then x / 2 else x) = (0, true) := by
  cases wide with
  | true =>
    have hw : (t.bad.contains (2 * (x / 2)) || t.bad.contains (2 * (x / 2) + 1)) = true := by
      rw [Bool.or_eq_true, List.contains_iff_mem, List.contains_iff_mem]
      rcases Nat.mod_two_eq_zero_or_one x with h | h
      · exact .inl (by rwa [show 2 * (x / 2) = x by omega])
      · exact .inr (by rwa [show 2 * (x / 2) + 1 = x by omega])
    simp only [Tile.get, if_true, hw]
  | false =>
    have hw : t.bad.contains x = true := List.contains_iff_mem.mpr hx
    simp only [Tile.get, Bool.false_eq_true, if_false, hw, if_true]

/-! ### The multiply -/

/-- The flags of a fold are those of its elements together. -/
theorem bitOf_foldl_or {α : Type} (l : List α) (h : α → Nat) (i : Nat) :
    bitOf (l.foldl (fun fl x => fl ||| h x) 0) i = true ↔ ∃ x ∈ l, bitOf (h x) i = true := by
  suffices hs : ∀ a, bitOf (l.foldl (fun fl x => fl ||| h x) a) i = true ↔ bitOf a i = true ∨ ∃ x ∈ l, bitOf (h x) i = true by
    rw [hs]
    simp [bitOf_eq_testBit]
  induction l with
  | nil => simp
  | cons x l ih =>
    intro a
    rw [List.foldl_cons, ih]
    simp only [bitOf_eq_testBit, Nat.testBit_or, Bool.or_eq_true, List.exists_mem_cons_iff, or_assoc]

theorem mem_zipIdx_map {α : Type} (h : Nat → α) (n : Nat) {p : α × Nat} : p ∈ ((List.range n).map h).zipIdx ↔ p.2 < n ∧ p.1 = h p.2 := by
  rw [List.mk_mem_zipIdx_iff_getElem? (x := p.1) (i := p.2)]
  by_cases hp : p.2 < n <;> simp [hp, eq_comm]

/-- What the array logs of damage, from the damage of A's rows, of B's columns and of the tile. -/
theorem mem_mmaLog {code k n : Nat} {lostA lostB : Nat → List Nat} (hB : ∀ j, ∀ m ∈ lostB j, m < matK code) {bad : Nat → Bool} {N : Nat} {c : W64} :
    c ∈ (((List.range n).map lostA).zipIdx.flatMap fun r => r.1.map fun m => coord k m r.2 0) ++
        logB code k ((List.range n).map lostB) ++ ((List.range N).filter bad).map (fun e => coord k (e % n) (e / n) 2) ↔
      (∃ i < n, ∃ m ∈ lostA i, c = coord k m i 0) ∨ (∃ j < n, ∃ m ∈ lostB j, c = coord k j m 1) ∨
        ∃ x < N, bad x = true ∧ c = coord k (x % n) (x / n) 2 := by
  rw [List.mem_append, List.mem_append, or_assoc]
  refine or_congr ?_ (or_congr ?_ ?_)
  · simp only [List.mem_flatMap, List.mem_map, mem_zipIdx_map]
    constructor
    · rintro ⟨p, ⟨hp, h1⟩, m, hm, rfl⟩
      exact ⟨p.2, hp, m, h1 ▸ hm, rfl⟩
    · rintro ⟨i, hi, m, hm, rfl⟩
      exact ⟨(lostA i, i), ⟨hi, rfl⟩, m, hm, rfl⟩
  · simp only [logB, List.mem_flatMap, List.mem_filterMap, mem_zipIdx_map, List.mem_range]
    constructor
    · rintro ⟨m, -, p, ⟨hp, h1⟩, hc⟩
      split at hc
      · next h =>
        simp only [Option.some.injEq] at hc
        exact ⟨p.2, hp, m, h1 ▸ List.contains_iff_mem.mp h, hc.symm⟩
      · cases hc
    · rintro ⟨j, hj, m, hm, rfl⟩
      exact ⟨m, hB j m hm, (lostB j, j), ⟨hj, rfl⟩, if_pos (List.contains_iff_mem.mpr hm)⟩
  · simp only [List.mem_map, List.mem_filter, List.mem_range, and_assoc, eq_comm (a := c)]

theorem elemsFp_lost_lt (code : Nat) (st : Nat × List Bool) : ∀ m ∈ (elemsFp code st).2, m < matK code := by
  intro m hm
  unfold elemsFp at hm
  dsimp only at hm
  split at hm
  · exact List.mem_range.mp (List.mem_filter.mp hm).1
  · exact List.mem_range.mp (List.mem_filter.mp hm).1

theorem elemsInt_lost_lt (code : Nat) (sg : Bool) (st : Nat × List Bool) : ∀ m ∈ (elemsInt code sg st).2, m < matK code :=
  fun _ hm => List.mem_range.mp (List.mem_filter.mp hm).1

/-- A row or a column of an operand, by its number. -/
theorem rows_getElem {α : Type} (h : Nat → α) {n i : Nat} (hi : i < n) (d : α) : ((((List.range n).map h)[i]?).getD d) = h i := by
  simp [hi]

theorem matN_le (code : Nat) : matN code * matN code ≤ elemCount (code == 0) := by
  unfold matN elemCount
  split <;> simp_all

section
variable (t : Tile) (k : Nat) (fmr : BitVec 16) (a b : List W32) (badA badB : List Nat)

/-- An output of the multiply, from its row of A and its column of B. -/
def mmaOut (x : Nat) : Nat × Nat :=
  let code := fld fmr.toNat 0 4
  let n := matN code
  let wide := code == 0
  let sa := stringOf a badA (stringA code (x / n))
  let sb := stringOf b badB (stringB code (x % n))
  if matInt code then satInt true 32 (sgn 32 (t.get wide x).1 +
    (((elemsInt code (bitOf fmr.toNat 8) sa).1.zip (elemsInt code (bitOf fmr.toNat 9) sb).1).map fun p => p.1 * p.2).sum)
  else dotFp (if wide then f64 else f32) .rne false (unpackFp (if wide then f64 else f32) (t.get wide x).1)
    ((elemsFp code sa).1.zip (elemsFp code sb).1)

/-- The damaged elements of a row of A and of a column of B. -/
def mmaLostA (i : Nat) : List Nat :=
  let code := fld fmr.toNat 0 4
  let st := stringOf a badA (stringA code i)
  if matInt code then (elemsInt code (bitOf fmr.toNat 8) st).2 else (elemsFp code st).2
def mmaLostB (j : Nat) : List Nat :=
  let code := fld fmr.toNat 0 4
  let st := stringOf b badB (stringB code j)
  if matInt code then (elemsInt code (bitOf fmr.toNat 9) st).2 else (elemsFp code st).2

theorem mmaLostB_lt (j : Nat) : ∀ m ∈ mmaLostB fmr b badB j, m < matK (fld fmr.toNat 0 4) := by
  intro m hm
  unfold mmaLostB at hm
  dsimp only at hm
  split at hm
  · exact elemsInt_lost_lt _ _ _ m hm
  · exact elemsFp_lost_lt _ _ m hm

/-- The multiply, in terms of its outputs and of what is damaged. -/
theorem mmaRun_eq :
    let code := fld fmr.toNat 0 4
    let n := matN code
    let wide := code == 0
    (mmaRun t k fmr a b badA badB).1 = t.build wide (fun x => if x < n * n then some (mmaOut t fmr a b badA badB x).1 else none) ∧
    (mmaRun t k fmr a b badA badB).2.1 = (List.range (n * n)).foldl (fun fl x => fl ||| (mmaOut t fmr a b badA badB x).2) 0 ∧
    (mmaRun t k fmr a b badA badB).2.2 =
      (((List.range n).map (mmaLostA fmr a badA)).zipIdx.flatMap fun r => r.1.map fun m => coord k m r.2 0) ++
        logB code k ((List.range n).map (mmaLostB fmr b badB)) ++
        ((List.range (n * n)).filter fun x => (t.get wide x).2).map (fun e => coord k (e % n) (e / n) 2) := by
  intro code n wide
  have hrow : ∀ {α : Type} (h : Nat → α) (d : α) (x : Nat), x < n * n → (((List.range n).map h)[x / n]?).getD d = h (x / n) :=
    fun h d _ hx => rows_getElem h (Nat.div_lt_of_lt_mul hx) d
  have hcol : ∀ {α : Type} (h : Nat → α) (d : α) (x : Nat), x < n * n → (((List.range n).map h)[x % n]?).getD d = h (x % n) :=
    fun h d _ hx => rows_getElem h (Nat.mod_lt _ (Nat.pos_of_mul_pos_left (Nat.zero_lt_of_lt hx))) d
  have hfold : ∀ {f h : Nat → Nat}, (∀ x < n * n, f x = h x) →
      (List.range (n * n)).foldl (fun fl x => fl ||| f x) 0 = (List.range (n * n)).foldl (fun fl x => fl ||| h x) 0 :=
    fun hfh => List.foldl_ext _ _ _ fun _ x hx => by rw [hfh x (List.mem_range.mp hx)]
  have hbuild : ∀ {f h : Nat → Nat}, (∀ x < n * n, f x = h x) →
      (fun x => if x < n * n then some (f x) else none) = fun x => if x < n * n then some (h x) else none := fun hfh => by
    funext x
    split
    · next hx => rw [hfh x hx]
    · rfl
  have hzip : ∀ {α : Type} (h : Nat → α × List Nat), ((((List.range n).map h).zipIdx.flatMap fun r => r.1.2.map fun m => coord k m r.2 0)) =
      (((List.range n).map fun i => (h i).2).zipIdx.flatMap fun r => r.1.map fun m => coord k m r.2 0) := fun h => by
    rw [show ((List.range n).map fun i => (h i).2) = ((List.range n).map h).map (·.2) by rw [List.map_map]; rfl,
      List.zipIdx_map (f := (·.2)) (l := (List.range n).map h), List.flatMap_map]
    rfl
  unfold mmaRun
  dsimp only
  cases hm : matInt (fld fmr.toNat 0 4) with
  | true =>
    rw [if_pos rfl]
    have hout : ∀ x < n * n, mmaOut t fmr a b badA badB x = satInt true 32 (sgn 32 (t.get wide x).1 +
        (((((((List.range n).map fun i => stringOf a badA (stringA code i)).map (elemsInt code (bitOf fmr.toNat 8)))[x / n]?).getD ([], [])).1.zip
          (((((List.range n).map fun j => stringOf b badB (stringB code j)).map (elemsInt code (bitOf fmr.toNat 9)))[x % n]?).getD ([], [])).1).map
            fun p => p.1 * p.2).sum) := fun x hx => by
      rw [List.map_map, List.map_map, hrow _ _ x hx, hcol _ _ x hx]
      unfold mmaOut
      rw [if_pos hm]
      rfl
    refine ⟨congrArg (t.build wide) (hbuild fun x hx => congrArg (·.1) (hout x hx).symm), hfold fun x hx => congrArg (·.2) (hout x hx).symm, ?_⟩
    rw [List.map_map, List.map_map, hzip, List.map_map]
    have ha : (fun i => ((elemsInt code (bitOf fmr.toNat 8) ∘ fun i => stringOf a badA (stringA code i)) i).2) = mmaLostA fmr a badA :=
      funext fun i => by unfold mmaLostA; exact (if_pos hm).symm
    have hb : ((·.2) ∘ elemsInt code (bitOf fmr.toNat 9) ∘ fun j => stringOf b badB (stringB code j)) = mmaLostB fmr b badB :=
      funext fun i => by unfold mmaLostB; exact (if_pos hm).symm
    exact ha ▸ hb ▸ rfl
  | false =>
    rw [if_neg Bool.false_ne_true]
    have hout : ∀ x < n * n, mmaOut t fmr a b badA badB x = dotFp (if wide then f64 else f32) .rne false
        (unpackFp (if wide then f64 else f32) (t.get wide x).1)
        ((((((List.range n).map fun i => stringOf a badA (stringA code i)).map (elemsFp code))[x / n]?).getD ([], [])).1.zip
          (((((List.range n).map fun j => stringOf b badB (stringB code j)).map (elemsFp code))[x % n]?).getD ([], [])).1) := fun x hx => by
      rw [List.map_map, List.map_map, hrow _ _ x hx, hcol _ _ x hx]
      unfold mmaOut
      rw [if_neg (by rw [hm]; exact Bool.false_ne_true)]
      rfl
    refine ⟨congrArg (t.build wide) (hbuild fun x hx => congrArg (·.1) (hout x hx).symm), hfold fun x hx => congrArg (·.2) (hout x hx).symm, ?_⟩
    rw [List.map_map, List.map_map, hzip, List.map_map]
    have ha : (fun i => ((elemsFp code ∘ fun i => stringOf a badA (stringA code i)) i).2) = mmaLostA fmr a badA :=
      funext fun i => by unfold mmaLostA; exact (if_neg (by rw [hm]; exact Bool.false_ne_true)).symm
    have hb : ((·.2) ∘ elemsFp code ∘ fun j => stringOf b badB (stringB code j)) = mmaLostB fmr b badB :=
      funext fun i => by unfold mmaLostB; exact (if_neg (by rw [hm]; exact Bool.false_ne_true)).symm
    exact ha ▸ hb ▸ rfl

end

/-! ### Damaged elements of an operand (R183, R184) -/

/-- An element of a list of values of which the damaged ones are zero. -/
theorem damaged_zero {α : Type} {n i : Nat} (hi : i < n) (bad : Nat → Bool) (h : Nat → α) (zero : α) (hb : bad i = true) :
    ((List.range n).map fun i => if bad i then zero else h i)[i]? = some zero := by
  rw [List.getElem?_map, List.getElem?_range hi]
  simp [hb]

theorem elemsInt_damaged {code : Nat} {st : Nat × List Bool} {i : Nat} (hi : i < matK code) :
    let w := matBits code
    (i ∈ (elemsInt code true st).2 ↔ damagedBits st.2 (i * w) w = true) ∧
      (damagedBits st.2 (i * w) w = true → ∀ sg, (elemsInt code sg st).1[i]? = some 0) := by
  refine ⟨by simp [elemsInt, hi], fun h sg => ?_⟩
  exact damaged_zero hi (fun i => ((List.range (matK code)).filter fun i => damagedBits st.2 (i * matBits code) (matBits code)).contains i)
    (fun i => rd sg (matBits code) (fld st.1 (i * matBits code) (matBits code))) 0
    (List.contains_iff_mem.mpr (List.mem_filter.mpr ⟨List.mem_range.mpr hi, h⟩))

theorem elemsFp_damaged {code : Nat} {st : Nat × List Bool} {i : Nat} (hc : code ≤ 3) (hi : i < matK code) :
    let w := matBits code
    (i ∈ (elemsFp code st).2 ↔ damagedBits st.2 (i * w) w = true) ∧
      (damagedBits st.2 (i * w) w = true → (elemsFp code st).1[i]? = some (.fin false 0 0)) := by
  unfold elemsFp
  simp only [if_pos hc]
  refine ⟨by simp [hi], fun h => ?_⟩
  exact damaged_zero hi (fun i => ((List.range (matK code)).filter fun i => damagedBits st.2 (i * matBits code) (matBits code)).contains i)
    (fun i => unpackFp (matFmt code) (fld st.1 (i * matBits code) (matBits code))) (.fin false 0 0)
    (List.contains_iff_mem.mpr (List.mem_filter.mpr ⟨List.mem_range.mpr hi, h⟩))

theorem elemsSb_damaged {code : Nat} {st : Nat × List Bool} {i : Nat} (hc : 6 ≤ code) (hi : i < matK code) :
    let m := sbM code
    let scale := damagedBits st.2 (i / 16 * sbBits m) 16
    let own := damagedBits st.2 (i / 16 * sbBits m + 16 + i % 16 * (m + 1)) (m + 1)
    (i ∈ (elemsFp code st).2 ↔ scale = true ∧ i % 16 = 0 ∨ scale = false ∧ own = true) ∧
      (scale = true ∨ own = true → (elemsFp code st).1[i]? = some (.fin false 0 0)) := by
  unfold elemsFp
  simp only [if_neg (show ¬ code ≤ 3 by omega)]
  refine ⟨by simp [hi], fun h => ?_⟩
  exact damaged_zero hi (fun i => damagedBits st.2 (i / 16 * sbBits (sbM code)) 16 ||
      damagedBits st.2 (i / 16 * sbBits (sbM code) + 16 + i % 16 * (sbM code + 1)) (sbM code + 1))
    (fun i => sbElem (sbM code) (fld st.1 (i / 16 * sbBits (sbM code)) (sbBits (sbM code))) (i % 16)) (.fin false 0 0)
    (Bool.or_eq_true _ _ ▸ h)

/-- Settles O36: the elements by `Tile.get_build_some`, the flags and the log by `mmaRun_eq`. -/
theorem multiplyRoundsOnce : Obligations.MultiplyRoundsOnce := by
  unfold Obligations.MultiplyRoundsOnce
  intro t k fmr a b badA badB code n wide acc sa sb fp int out lostA lostB r _
  have hout : mmaOut t fmr a b badA badB = out := funext fun _ => rfl
  have hA : mmaLostA fmr a badA = lostA := funext fun _ => rfl
  have hB : mmaLostB fmr b badB = lostB := funext fun _ => rfl
  obtain ⟨hr1, hr2, hr3⟩ := mmaRun_eq t k fmr a b badA badB
  rw [hout] at hr1 hr2
  refine ⟨fun x hx => ?_, ?_, fun i => ?_, fun c => ?_, fun x hx => Tile.get_bad t wide hx, fun st i hi => ⟨fun _ => elemsInt_damaged hi,
    fun hc => elemsFp_damaged hc hi, fun hc => elemsSb_damaged hc hi⟩⟩
  · exact hr1 ▸ Tile.get_build_some t wide (Nat.lt_of_lt_of_le hx (matN_le code)) (if_pos hx)
  · exact hr1 ▸ Tile.build_flags t wide _
  · rw [show r.2.1 = _ from hr2, bitOf_foldl_or]
    simp only [List.mem_range]
    rfl
  · rw [show r.2.2 = _ from hr3, mem_mmaLog (fun j => mmaLostB_lt fmr b badB j), hA, hB]

end Sys2Proof.Machine
end

section
/-! SUPPORT. Markers (R44 to R48), the returns of pending results, and the array's events (R172, R183, R184). -/

namespace Sys2Proof.Machine

/-! ### Markers -/

theorem not_mask_and (m mask : Nat) : (m &&& (255 - mask &&& 255)) &&& mask = 0 := by
  have h : (255 - mask &&& 255) &&& mask = 0 := by
    by_cases hm : mask ≤ 255
    · refine Nat.eq_of_testBit_eq fun i => ?_
      have hs := Nat.testBit_two_pow_sub_succ (n := 8) (x := mask) (by omega) i
      rw [show 2 ^ 8 - (mask + 1) = 255 - mask by omega] at hs
      rw [Nat.testBit_and, Nat.testBit_and, hs]
      cases mask.testBit i <;> simp
    · rw [show 255 - mask = 0 by omega, Nat.zero_and, Nat.zero_and]
  rw [Nat.and_assoc, h, Nat.and_zero]

theorem Group.writePend_off (g : Group) (mask : Nat) : ∀ p ∈ (g.writePend mask).pend, p.slices &&& mask = 0 := by
  rw [Group.writePend_pended]
  intro p hp
  obtain ⟨q, -, rfl⟩ := List.mem_map.mp (List.mem_filter.mp hp).1
  exact not_mask_and q.slices mask

/-- A marker whose results have all returned unfailed, where no undo log is written (R44, R46, R48). -/
theorem settled_marker (g : Group) (mask : Nat) :
    let mine := g.pend.filter fun p => p.slices &&& mask != 0
    let g' := (g.writePendLogged mask false).modSub mask fun x => { x with park := .none }
    g'.vreg = written 0 g.vreg (mine.flatMap fun p => p.vw.filter fun w => bitOf mask (w.1 % 32 / 4)) ∧
    g'.sreg = written 0 g.sreg (mine.flatMap fun p => p.sw.filter fun w => bitOf mask (w.1 % 8)) ∧
    g'.badV = g.badV.filter (fun k => !(mine.any fun p => p.vw.any fun w => bitOf mask (w.1 % 32 / 4) && w.1 == k)) ∧
    g'.badS = g.badS.filter (fun k => !(mine.any fun p => p.sw.any fun w => bitOf mask (w.1 % 8) && w.1 == k)) ∧
    (∀ p ∈ g'.pend, p.slices &&& mask = 0) ∧
    g'.subs = g.subs.map (fun y => if y.mask == mask then { y with park := .none } else y) ∧
    (∀ n : Nat, g'.slices[n]? = (g.slices[n]?).map fun y => { y with status :=
      (mine.flatMap fun p => p.flags.filter fun w => bitOf mask (w.1 / 4) && w.1 / 4 == n).foldl (fun st w => st ||| w.2) y.status }) ∧
    g'.wrote = g.wrote + g.pend.countP (fun p => (p.only mask).vw != [] || (p.only mask).sw != []) ∧
    g' = { g with vreg := g'.vreg, sreg := g'.sreg, badV := g'.badV, badS := g'.badS, pend := g'.pend, subs := g'.subs,
                  slices := g'.slices, wrote := g'.wrote } := by
  intro mine
  have hoff := g.writePend_off mask
  have hlog : g.writePendLogged mask false = g.writePend mask := rfl
  rw [hlog]
  rw [Group.writePend_pended] at hoff ⊢
  dsimp only
  refine ⟨?_, ?_, ?_, ?_, hoff, rfl, fun n => ?_, rfl, rfl⟩
  · simp only [Group.modSub, Group.pended, Group.duePend, List.flatMap_map]; rfl
  · simp only [Group.modSub, Group.pended, Group.duePend, List.flatMap_map]; rfl
  · simp only [mine, Group.modSub, Group.pended, Group.duePend, List.any_map, Function.comp_def, Pend.only, List.any_filter]; rfl
  · simp only [mine, Group.modSub, Group.pended, Group.duePend, List.any_map, Function.comp_def, Pend.only, List.any_filter]; rfl
  · simp only [Group.modSub, Group.pended, Group.duePend, List.flatMap_map, List.getElem?_mapIdx, Pend.only, List.filter_filter, Bool.and_comm]
    rfl

/-! ### The array's events -/

/-- Flags raised twice in every slice are raised once. -/
theorem Group.raiseAll_raiseAll (g : Group) (fl : Nat) : (g.raiseAll fl).raiseAll fl = g.raiseAll fl := by
  unfold Group.raiseAll
  rw [modSlices_slices, modSlices_slices]
  congr 1
  refine List.ext_getElem? fun n => ?_
  rw [slices_foldl_modify _ _ _ _ List.nodup_range, slices_foldl_modify _ _ _ _ List.nodup_range]
  cases g.slices[n]? with
  | none => rfl
  | some y =>
    simp only [Option.map_some]
    congr 1
    split
    · rw [BitVec.or_assoc, BitVec.or_self]
    · rfl

/-- A group with an entry of the error log, or without room for it (R184). -/
def Group.logged (g : Group) (full : Bool) (pc c : W64) : Group :=
  { g with errLog := if full then g.errLog else g.errLog ++ [(pc, c)], errOvf := if full then true else g.errOvf }

theorem Group.raiseAll_logged (g : Group) (full : Bool) (pc c : W64) (fl : Nat) :
    (g.logged full pc c).raiseAll fl = (g.raiseAll fl).logged full pc c := by
  unfold Group.raiseAll
  rw [modSlices_slices, modSlices_slices]
  rfl

/-- One step of the log. -/
def State.logOne (gid : Nat) (pc : W64) (s : State) (c : W64) : State := s.modG gid fun g => g.logged (decide (16 ≤ s.quadLog gid)) pc c

theorem State.logBad_cons (s : State) (gid : Nat) (pc c : W64) (l : List W64) :
    s.logBad gid pc (c :: l) = (c :: l).foldl (State.logOne gid pc) (s.modG gid fun g => g.raiseAll fME) := by
  unfold State.logBad
  rw [if_neg (by simp)]
  congr 1
  funext s c
  by_cases h : 16 ≤ s.quadLog gid
  · simp only [State.logOne, Group.logged, h, reduceIte, decide_true]
  · simp only [State.logOne, Group.logged, h, reduceIte, decide_false, Bool.false_eq_true]

/-- A group's flags do not count in its quadrant's error log. -/
theorem State.quadLog_raiseAll (s : State) (gid fl : Nat) : (s.modG gid fun g => g.raiseAll fl).quadLog gid = s.quadLog gid := by
  have hm : ∀ (q : Nat → Bool) (gs : Tab Group),
      ((tmod gid (fun g => g.raiseAll fl) gs).map fun g => if q g.1 then g.2.errLog.length else 0) =
        gs.map fun g => if q g.1 then g.2.errLog.length else 0 := fun q gs => by
    induction gs with
    | nil => rfl
    | cons p gs ih =>
      obtain ⟨j, y⟩ := p
      by_cases hj : j = gid
      · simp only [tmod, beq_iff_eq, hj, if_true, List.map_cons, show (y.raiseAll fl).errLog = y.errLog by rw [Group.raiseAll_slices]]
      · simp only [tmod, beq_iff_eq, hj, if_false, List.map_cons, ih]
  unfold State.quadLog State.quadSum
  rw [show (s.modG gid fun g => g.raiseAll fl).quadrant = s.quadrant from rfl]
  exact congrArg List.sum (hm (fun j => j == gid || (s.quadrant gid).isSome && s.quadrant j == s.quadrant gid) s.groups)

theorem State.modG_modG (s : State) (gid : Nat) (f h : Group → Group) : (s.modG gid f).modG gid h = s.modG gid fun x => h (f x) := by
  simp only [State.modG, tmod_tmod]

/-- The entries of a word's damage are logged one by one. -/
theorem State.logBad_split (s : State) (gid : Nat) (pc c : W64) (l : List W64) :
    s.logBad gid pc (c :: l) = (s.logBad gid pc [c]).logBad gid pc l := by
  cases l with
  | nil => rfl
  | cons c' l =>
    rw [State.logBad_cons, State.logBad_cons, State.logBad_cons]
    have h : (State.logOne gid pc (s.modG gid fun g => g.raiseAll fME) c).modG gid (fun g => g.raiseAll fME) =
        State.logOne gid pc (s.modG gid fun g => g.raiseAll fME) c := by
      unfold State.logOne
      rw [State.modG_modG, State.modG_modG, State.modG_modG]
      exact congrArg (s.modG gid) (funext fun g => by rw [Group.raiseAll_logged, Group.raiseAll_raiseAll])
    simp only [List.foldl_cons, List.foldl_nil, h]

/-- A fold of flags over the elements that are rewritten. -/
theorem foldl_or_filter {α : Type} (l : List α) (p : α → Bool) (h : α → Nat) (a : Nat) :
    l.foldl (fun fl x => fl ||| if p x then h x else 0) a = (l.filter p).foldl (fun fl x => fl ||| h x) a := by
  induction l generalizing a with
  | nil => rfl
  | cons x l ih =>
    rw [List.foldl_cons, ih]
    by_cases hp : p x = true
    · rw [List.filter_cons_of_pos hp, List.foldl_cons, if_pos hp]
    · rw [List.filter_cons_of_neg hp, if_neg hp, Nat.or_zero]

/-- A group whose oldest tile word has put a tile in, with its flags raised (R85, R172). -/
def Group.tileDone (g : Group) (rest : List TileOp) (k : Nat) (t : Tile) (fl : Nat) : Group :=
  { g with tileQ := rest, tiles := tput k { t with flags := t.flags ||| BitVec.ofNat 32 fl } g.tiles }

theorem Group.tput_raiseTile (g : Group) (rest : List TileOp) (k fl : Nat) (t : Tile) :
    ({ g with tileQ := rest, tiles := tput k t g.tiles } : Group).raiseTile k fl = g.tileDone rest k t fl := by
  unfold Group.raiseTile Group.tileDone
  simp only [Group.tile, tget_tput_same, Option.getD_some, tput_tput]

theorem Group.tileDone_tile (g : Group) (rest : List TileOp) (k fl : Nat) (t : Tile) :
    (g.tileDone rest k t fl).tile k = { t with flags := t.flags ||| BitVec.ofNat 32 fl } := by
  simp only [Group.tileDone, Group.tile, tget_tput_same, Option.getD_some]

theorem mmaRun_flags (t : Tile) (k : Nat) (fmr : BitVec 16) (a b : List W32) (badA badB : List Nat) :
    (mmaRun t k fmr a b badA badB).1.flags = t.flags := by
  rw [(mmaRun_eq t k fmr a b badA badB).1, Tile.build_flags]

theorem Tile.get_flags (t : Tile) (fl : W32) (wide : Bool) (x : Nat) : ({ t with flags := fl } : Tile).get wide x = t.get wide x := rfl

theorem Group.tile_tileQ (g : Group) (q : List TileOp) (k : Nat) : ({ g with tileQ := q } : Group).tile k = g.tile k := rfl

section
variable (s : State) (gid : Nat) {g : Group} (hg : tget gid s.groups = some g)
include hg

theorem tileStep_mma {pc : W64} {k : Nat} {fmr : BitVec 16} {a b : List W32} {badA badB : List Nat} {rest : List TileOp}
    (hq : g.tileQ = .mma pc k fmr a b badA badB :: rest) :
    let r := mmaRun (g.tile k) k fmr a b badA badB
    s.tileStep gid = (s.putG gid (g.tileDone rest k r.1 r.2.1)).logBad gid pc r.2.2 := by
  unfold State.tileStep
  simp only [hg, hq]
  rw [Group.tput_raiseTile]
  simp only [Group.tile_tileQ]

/-- MSCL's multiplication of a tile's rows. -/
theorem tileStep_scale {k : Nat} {ty : Ty} {ex : W32} {f : List W64} {rest : List TileOp} (hq : g.tileQ = .scale k ty ex f :: rest) :
    let wide := ty == .f64
    let n := if wide then 16 else 32
    let fm := if wide then f64 else f32
    let out := fun x => mulFp fm .rne false (unpackFp fm ((g.tile k).get wide x).1) (unpackFp fm ((f[x / n]?).getD 0).toNat)
    let t := (g.tile k).build wide fun x => if x < n * n && bitOf ex.toNat (x / n) then some (out x).1 else none
    s.tileStep gid = s.putG gid (g.tileDone rest k t
      (((List.range (n * n)).filter fun x => bitOf ex.toNat (x / n)).foldl (fun fl x => fl ||| (out x).2) 0)) := by
  intro wide n fm out t
  unfold State.tileStep
  simp only [hg, hq]
  rw [Group.tput_raiseTile]
  simp only [Group.tile_tileQ]
  have ht : ((g.tile k).build wide fun x => (if x < n * n && bitOf ex.toNat (x / n) then some (out x) else none).map Prod.fst) = t := by
    congr 1
    funext x
    split <;> rfl
  have hfl : (List.range (n * n)).foldl (fun fl x => fl |||
      (match (if x < n * n && bitOf ex.toNat (x / n) then some (out x) else none : Option (Nat × Nat)) with | some r => r.2 | none => 0)) 0 =
      ((List.range (n * n)).filter fun x => bitOf ex.toNat (x / n)).foldl (fun fl x => fl ||| (out x).2) 0 := by
    rw [← foldl_or_filter]
    refine List.foldl_ext _ _ _ fun fl x hx => ?_
    simp only [List.mem_range.mp hx, decide_true, Bool.true_and]
    cases bitOf ex.toNat (x / n) <;> rfl
  exact congrArg (s.putG gid) (congrArg₂ (g.tileDone rest k) ht hfl)

end

theorem tileSide_le (wide : Bool) : (if wide then 16 else 32) * (if wide then 16 else 32) ≤ elemCount wide := by
  cases wide <;> decide

theorem State.gidRuns_modG (s : State) (k gid : Nat) (f : Group → Group) : (s.modG k f).gidRuns gid = s.gidRuns gid := by
  simp [State.gidRuns, State.teamRuns]

/-- Settles O27: markers by `settled_marker`, the array's words by `tileStep_mma` and `tileStep_scale`. -/
theorem markersAndReturnsComplete : Obligations.MarkersAndReturnsComplete := by
  unfold Obligations.MarkersAndReturnsComplete
  refine ⟨fun s gid mask g x hg hx hundo => ⟨fun h => ?_, fun h hf => ?_, fun r h hf => ?_⟩, fun s gid idx => ⟨fun h => ?_, fun h => ?_,
    fun g k rest hg hq => ?_, fun g pc k fmr a b badA badB rest hg hq => ?_, fun g k ty ex f rest hg hq => ?_, fun pc => rfl,
    fun g pc c hg => ?_, fun pc c l => s.logBad_split gid pc c l⟩⟩
  · simp [State.settle, hg, hx, h]
  · refine ⟨_, ?_, settled_marker g mask⟩
    simp [State.settle, hg, hx, h, hf, hundo]
  · simp [State.settle, hg, hx, h, hf]
  · exact congrArg Host.Outcome.next (if_neg (by rw [State.gidRuns_modG, h]; exact Bool.false_ne_true))
  · exact congrArg Host.Outcome.next (if_pos (by rw [State.gidRuns_modG, h]))
  · refine congrArg Host.Outcome.next ?_
    simp [State.tileStep, hg, hq]
  · refine ⟨_, congrArg Host.Outcome.next (tileStep_mma s gid hg hq), ?_, fun j hj => tget_tput_ne _ _ hj, rfl⟩
    exact (tget_tput_same ..).trans (by rw [mmaRun_flags])
  · refine ⟨_, congrArg Host.Outcome.next (tileStep_scale s gid hg hq), fun x hx => ?_, ?_, fun j hj => tget_tput_ne _ _ hj, rfl⟩
    · have hn : x < elemCount (ty == .f64) := Nat.lt_of_lt_of_le hx (tileSide_le _)
      rw [Group.tileDone_tile, Tile.get_flags]
      by_cases hb : bitOf ex.toNat (x / (if (ty == .f64) = true then 16 else 32)) = true
      · exact (Tile.get_build_some (g.tile k) (ty == .f64) hn (if_pos (Bool.and_eq_true_iff.mpr ⟨decide_eq_true hx, hb⟩))).trans (if_pos hb).symm
      · exact (Tile.get_build_none (g.tile k) (ty == .f64) hn (if_neg fun h => hb (Bool.and_eq_true_iff.mp h).2)).trans (if_neg hb).symm
    · rw [Group.tileDone_tile, Tile.build_flags]
  · rw [State.logBad_cons]
    simp only [List.foldl_cons, List.foldl_nil, State.logOne, State.modG_modG, State.quadLog_raiseAll]
    refine congrArg (fun h => s.modG gid h) (funext fun g => ?_)
    rw [Group.raiseAll_slices]
    by_cases h : 16 ≤ s.quadLog gid <;> simp only [Group.logged, h, decide_true, decide_false, reduceIte, Bool.false_eq_true]

end Sys2Proof.Machine
end

section
/-! SUPPORT. Joins at KSYNC (R156). -/

namespace Sys2Proof.Machine

/-- A group of which one sub-gang of two live slices, with different program counters, is parked at a KSYNC of those two slices. -/
def ksyncGroup : Group :=
  { kact := 0xFF#32, subs := [{ mask := 3, park := .ksync 3 }], slices := [{ pc := 0 }, { pc := 8 }, {}, {}, {}, {}, {}, {}] }
def ksyncState : State := { groups := [(0, ksyncGroup)] }

/-- Its KSYNC puts both slices at the word after that of the lowest live slice. -/
theorem ksync_slice : ((tget 0 (ksyncState.tryJoin 0 3).groups).bind fun g => (g.slices[1]?).map (·.pc)) = some 8 := by decide

/-- Refutes O15: KSYNC sends every slice to the word after that at which its sub-gang stands, which is the word of the lowest live slice;
the statement adds 8 to each slice's own program counter, which is another place where a sub-gang's slices stand at different words. -/
theorem not_joinsAndExitComplete : ¬ Obligations.JoinsAndExitComplete := by
  intro h
  obtain ⟨-, hjoin, -⟩ := h.2.2 ksyncState 0 3 3 ksyncGroup { mask := 3, park := .ksync 3 } rfl rfl rfl rfl
  have hlive : ksyncGroup.liveSubs 3 = [{ mask := 3, park := .ksync 3 }] := by decide
  rw [hlive] at hjoin
  obtain ⟨m', hm, hsub, hnone, -⟩ := hjoin (by simp)
  have hm3 : m' = 3 := by
    have h3 : 3 &&& m' = 3 := hsub _ List.mem_cons_self
    rw [← hm, Nat.and_comm, h3]
  subst hm3
  obtain ⟨g', hg', hslices, -⟩ := hnone (by decide)
  have hpc := ksync_slice
  rw [hg', State.putG_groups, tget_tput_same, Option.bind_some, hslices 1] at hpc
  revert hpc
  decide

end Sys2Proof.Machine
end

section
/-! SUPPORT. MBLD, MMA, MZRO and MSCL (R164 to R172), and the drains to registers (R174 to R179). -/

namespace Sys2Proof.Machine

/-! ### Drains to registers -/

theorem ofInt_sgn {w n : Nat} (h : n < 2 ^ w) : ofInt w (sgn w n) = n := by
  have hc : ((n : Int) % ((2 ^ w : Nat) : Int)).toNat = n := by
    rw [Int.emod_eq_of_lt (Int.natCast_nonneg n) (by exact_mod_cast h), Int.toNat_natCast]
  unfold ofInt sgn
  rw [Nat.mod_eq_of_lt h]
  dsimp only
  split
  · exact hc
  · rw [show (n : Int) - (2 ^ w : Nat) = n + ((2 ^ w : Nat) : Int) * (-1) by ring, Int.add_mul_emod_self_left]
    exact hc

theorem sgn_ge (n : Nat) : -(2 ^ 31 : Int) ≤ sgn 32 n := by
  unfold sgn
  dsimp only
  split <;> omega

theorem Tile.get_lt (t : Tile) (x : Nat) : (t.get false x).1 < 2 ^ 32 := by
  unfold Tile.get
  simp only [Bool.false_eq_true, if_false]
  split
  · exact Nat.two_pow_pos 32
  · exact BitVec.isLt _

/-- The greatest element of a list of 32-bit words, read as signed. -/
theorem max_words (xs : List Nat) : ∀ x, x < 2 ^ 32 → (∀ y ∈ xs, y < 2 ^ 32) →
    xs.foldl (fun a b => if sgn 32 a < sgn 32 b then b else a) x = ofInt 32 ((xs.map (sgn 32)).foldl max (sgn 32 x)) := by
  induction xs with
  | nil => exact fun x hx _ => (ofInt_sgn hx).symm
  | cons y ys ih =>
    intro x hx hys
    obtain ⟨hy, hys⟩ := List.forall_mem_cons.mp hys
    rw [List.foldl_cons, List.map_cons, List.foldl_cons]
    by_cases hlt : sgn 32 x < sgn 32 y
    · rw [if_pos hlt, ih y hy hys, max_eq_right hlt.le]
    · rw [if_neg hlt, ih x hx hys, max_eq_left (not_lt.mp hlt)]

/-- A row of a tile. -/
theorem range_cons {n : Nat} (hn : 0 < n) {α : Type} (c : Nat → α) : (List.range n).map c = c 0 :: ((List.range n).drop 1).map c := by
  obtain ⟨m, rfl⟩ : ∃ m, n = m + 1 := ⟨n - 1, by omega⟩
  rw [List.range_succ_eq_map]
  simp

section
variable {s : State} {e : Env} {f : RWord}

theorem mdrn_effect (h : Issues (.mdrn f) s e) (hx : e.exec f.k ≠ 0) (ht : tileNo f.a < e.g.ntiles) (hr : e.s.quadTiles e.gid < 8) :
    let wide := f.ty == .f64
    let n := if wide then 16 else 32
    let c := f.m.val % 4
    let inChunk := fun x => x < n * n && 8 * c ≤ x % n && x % n < 8 * c + 8
    let r := e.drain (tileNo f.a) fun t => t.badLog (tileNo f.a) wide inChunk
    let v := match f.d with | .v n => n.val | _ => 0
    Effect (.mdrn f) s e (· = r.1.modG e.gid fun g =>
      (if bitOf f.m.val 2 then { g with tiles := tput (tileNo f.a) (r.2.build wide fun x => if inChunk x then some 0 else none) g.tiles }
        else g).addPend { e.newPend f.d 8 (sliceBits (e.exec f.k)) with
          vw := (e.execLanes f.k).flatMap fun l => if wide then (List.range 4).flatMap fun j =>
              let x := (r.2.get true (16 * (l % 16) + 8 * c + 4 * (l / 16) + j)).1
              [(32 * (v + 2 * j) + l, BitVec.ofNat 32 x), (32 * (v + 2 * j + 1) + l, BitVec.ofNat 32 (x / 2 ^ 32))]
            else (List.range 8).map fun j => (32 * (v + j) + l, BitVec.ofNat 32 (r.2.get false (32 * l + 8 * c + j)).1) }) := by
  refine ⟨_, onceWord_next h (.inl hx) (t := _) ?_, rfl⟩
  have hown : e.owns f.a = .ok () := by simp [Env.owns, ht]
  have hfull : e.tilesFull = false := by simp [Env.tilesFull, hr]
  simp only [hown, hfull, chk_ok_bind]
  rfl

/-- A row's reduction, as MRED's statement has it. -/
def redRow (f : RWord) (t : Tile) (i : Nat) : Nat × Nat :=
  let wide := f.ty == .f64
  let n := if wide then 16 else 32
  let fm := if wide then f64 else f32
  let c := fun j => (t.get wide (n * i + j)).1
  if f.ty = .i32 then
    let xs := (List.range n).map fun j => sgn 32 (c j)
    if f.m = 0 then (ofInt 32 (xs.foldl max (-(2 ^ 31 : Int))), 0) else satInt true 32 xs.sum
  else if f.m = 0 then
    ((List.range n).drop 1).foldl (fun a j => ((minMaxFp fm true a.1 (c j)).1, a.2 ||| (minMaxFp fm true a.1 (c j)).2)) (c 0, 0)
  else dotFp fm .rne false (unpackFp fm (c 0)) (((List.range n).drop 1).map fun j => (unpackFp fm (c j), FV.one))

/-- A row's reduction, as the model has it: over the list of its elements. -/
def redList (f : RWord) (row : List Nat) : Nat × Nat :=
  let wide := f.ty == .f64
  let fm := if wide then f64 else f32
  match row with
  | [] => (0, 0)
  | x :: xs =>
    if f.ty == Ty.i32 then
      if f.m == 0 then (xs.foldl (fun a b => if sgn 32 a < sgn 32 b then b else a) x, 0)
      else satInt true 32 ((x :: xs).map (sgn 32)).sum
    else if f.m == 0 then xs.foldl (fun a b => let r := minMaxFp fm true a.1 b; (r.1, a.2 ||| r.2)) (x, 0)
    else dotFp fm .rne false (unpackFp fm x) (xs.map fun y => (unpackFp fm y, FV.one))

theorem redList_row (f : RWord) (t : Tile) (i : Nat) :
    let wide := f.ty == .f64
    let n := if wide then 16 else 32
    redList f ((List.range n).map fun j => (t.get wide (n * i + j)).1) = redRow f t i := by
  intro wide n
  have hn : 0 < n := by simp only [n]; split <;> omega
  rw [range_cons hn]
  unfold redList redRow
  dsimp only
  by_cases hi : f.ty = .i32
  · have hw : (f.ty == .f64) = false := by rw [hi]; rfl
    have hwide : wide = false := hw
    rw [if_pos hi, if_pos (by rw [hi]; rfl)]
    by_cases hm : f.m = 0
    · rw [if_pos hm, if_pos (beq_iff_eq.mpr hm), max_words _ _ (hwide ▸ Tile.get_lt t _) (by
        simp only [List.forall_mem_map, hwide]; exact fun _ _ => Tile.get_lt t _)]
      have hmap : (List.range n).map (fun j => sgn 32 (t.get wide (n * i + j)).1) =
          sgn 32 (t.get wide (n * i + 0)).1 :: (((List.range n).drop 1).map fun j => (t.get wide (n * i + j)).1).map (sgn 32) := by
        rw [range_cons hn, List.map_map]; rfl
      rw [show (List.range (if (f.ty == Ty.f64) = true then 16 else 32)).map (fun j => sgn 32 (t.get (f.ty == .f64)
        ((if (f.ty == Ty.f64) = true then 16 else 32) * i + j)).1) = _ from hmap, List.foldl_cons, max_eq_right (sgn_ge _)]
    · rw [if_neg hm, if_neg (by simpa using hm), ← range_cons hn fun j => (t.get wide (n * i + j)).1, List.map_map]
      rfl
  · rw [if_neg hi, if_neg (by simpa using hi)]
    by_cases hm : f.m = 0
    · rw [if_pos hm, if_pos (beq_iff_eq.mpr hm), List.foldl_map]
    · rw [if_neg hm, if_neg (by simpa using hm), List.map_map]
      rfl

theorem mred_effect (h : Issues (.mred f) s e) (hx : e.exec f.k ≠ 0) (ht : tileNo f.a < e.g.ntiles) (hr : e.s.quadTiles e.gid < 8) :
    let wide := f.ty == .f64
    let n := if wide then 16 else 32
    let r := e.drain (tileNo f.a) fun t => t.badLog (tileNo f.a) wide fun x => x / n < n
    let v := match f.d with | .v n => n.val | _ => 0
    let lanes := (e.execLanes f.k).filter (· < n)
    Effect (.mred f) s e (· = r.1.modG e.gid fun g => g.addPend { e.newPend f.d (if wide then 2 else 1) (sliceBits (e.exec f.k)) with
      vw := lanes.flatMap fun l => (32 * v + l, BitVec.ofNat 32 (redRow f r.2 l).1) ::
        (if wide then [(32 * (v + 1) + l, BitVec.ofNat 32 ((redRow f r.2 l).1 / 2 ^ 32))] else []),
      flags := (lanes.filter fun l => (redRow f r.2 l).2 != 0).map fun l => (l, BitVec.ofNat 32 (redRow f r.2 l).2) }) := by
  refine ⟨_, onceWord_next h (.inl hx) (t := _) ?_, rfl⟩
  have hown : e.owns f.a = .ok () := by simp [Env.owns, ht]
  have hfull : e.tilesFull = false := by simp [Env.tilesFull, hr]
  simp only [hown, hfull, chk_ok_bind, ← redList_row]
  rfl

theorem mdrn_waits (h : Issues (.mdrn f) s e) (hx : e.exec f.k ≠ 0) (ht : tileNo f.a < e.g.ntiles) (hr : 8 ≤ e.s.quadTiles e.gid) :
    exec (.mdrn f) s = .next (e.parked (.mdrn f) .tileFull e.s) :=
  onceWord_parks h (.inl hx) rfl (by simp [Env.owns, ht, Env.tilesFull, hr])

theorem mred_waits (h : Issues (.mred f) s e) (hx : e.exec f.k ≠ 0) (ht : tileNo f.a < e.g.ntiles) (hr : 8 ≤ e.s.quadTiles e.gid) :
    exec (.mred f) s = .next (e.parked (.mred f) .tileFull e.s) :=
  onceWord_parks h (.inl hx) rfl (by simp [Env.owns, ht, Env.tilesFull, hr])

end

/-- Settles O37: the drains' effects, and the rows' reductions by `redList_row`. -/
theorem registerDrainsComplete : Obligations.RegisterDrainsComplete := by
  unfold Obligations.RegisterDrainsComplete
  intro s e _ base
  refine ⟨fun f hx ht hr => ⟨fun h => mdrn_waits h hx ht hr, fun h => mred_waits h hx ht hr⟩, fun f h hx ht hr hty => ?_,
    fun f h hx ht hr hty => ?_, fun f h hx ht hr => mred_effect h hx ht hr⟩
  · have hw : (f.ty == .f64) = false := beq_false_of_ne hty
    have hd := mdrn_effect h hx ht hr
    simp only [hw, Bool.false_eq_true, if_false] at hd
    exact hd
  · have hw : (f.ty == .f64) = true := beq_iff_eq.mpr hty
    have hd := mdrn_effect h hx ht hr
    simp only [hw, if_true] at hd
    exact hd

/-! ### Words that enter the tile queue -/

section
variable {s : State} {e : Env} {f : RWord}

theorem Env.oneFmr_ok {fmr : BitVec 16} (h0 : (e.g.slice 0).fmr = fmr) (hall : ∀ x ∈ e.g.slices, x.fmr = fmr)
    (hab : fld fmr.toNat 0 4 = fld fmr.toNat 4 4) (hc : fld fmr.toNat 0 4 ≤ 8) : e.oneFmr = .ok fmr := by
  unfold Env.oneFmr
  have hs : (e.g.slices.all fun x => x.fmr == fmr) = true := List.all_eq_true.mpr fun x hx => beq_iff_eq.mpr (hall x hx)
  simp [h0, hs, hab ▸ hc, hab]

theorem Env.all32_ok {k : Nat} (hm : e.sub.mask = 255) (hx : e.exec k = 2 ^ 32 - 1) : e.all32 k = .ok () := by
  simp [Env.all32, Env.whole_iff.mpr hm, hx]

/-- The last of the entries of a list with different keys. -/
theorem tget_toverlay_mem {α : Type} {ws : List (Nat × α)} (hn : (ws.map Prod.fst).Nodup) {k : Nat} {v : α} (h : (k, v) ∈ ws) (t : Tab α) :
    tget k (toverlay t ws) = some v := by
  induction ws generalizing t with
  | nil => cases h
  | cons w ws ih =>
    rw [List.map_cons, List.nodup_cons] at hn
    rcases List.mem_cons.mp h with rfl | h'
    · have hout : ∀ (l : List (Nat × α)) (t : Tab α), k ∉ l.map Prod.fst → tget k (toverlay t l) = tget k t := by
        intro l
        induction l with
        | nil => exact fun _ _ => rfl
        | cons x l ihl =>
          intro t hx
          rw [List.map_cons, List.mem_cons, not_or] at hx
          exact (ihl _ hx.2).trans (tget_tput_ne _ _ hx.1)
      exact (hout ws _ hn.1).trans (tget_tput_same ..)
    · exact ih hn.2 h' _

theorem bgenKey_parts {set gen : Nat} (h : gen < 2 ^ 40) : bgenKey set gen / 2 ^ 40 = set ∧ bgenKey set gen % 2 ^ 40 = gen := by
  unfold bgenKey
  omega

/-- A guard that passes. -/
theorem chk_guard_bind {α : Type} {p : Prop} [Decidable p] (h : p) (x : Flt) (k : Unit → Chk α) : (guardC (decide p) x >>= k) = k () := by
  simp [h]

/-- The quarters that an MBLD deposits, with their words. -/
def Env.mbldWords (e : Env) (v code : Nat) : List (Nat × Nat × List W32) :=
  e.quarters.zipIdx.map fun q => (q.1, code, (List.range (matB code)).flatMap fun r =>
    (List.range 32).map fun l => BitVec.ofNat 32 (e.g.vr (v + q.2 * matB code + r) l))

/-- The team's generations after an MBLD: two slots of the set, the new one with the group's quarters (R164, R165). -/
def Env.mbldGens (e : Env) (v code : Nat) (gens : Tab BGen) : Tab BGen :=
  let set := gidG e.gid / 4
  let gen := e.g.mbldCount + 1
  let nB := matB code
  let bad := e.quarters.zipIdx.flatMap fun q => (List.range (32 * nB)).filterMap fun w =>
    if e.g.badV.contains (32 * (v + q.2 * nB + w / 32) + w % 32) then some (q.1, w) else none
  let b := (tget (bgenKey set gen.toNat) gens).getD {}
  let b := { b with quarters := toverlay b.quarters (e.mbldWords v code), bad := b.bad ++ bad }
  tput (bgenKey set gen.toNat) b (gens.filter fun x => x.1 / 2 ^ 40 != set ||
    [e.g.mbldCount, gen, gen + 1].any fun n => x.1 % 2 ^ 40 == n.toNat)

/-- The generation before the one that is loaded stays. -/
theorem Env.mbldGens_before (v code : Nat) (gens : Tab BGen) :
    tget (bgenKey (gidG e.gid / 4) e.g.mbldCount.toNat) (e.mbldGens v code gens) = tget (bgenKey (gidG e.gid / 4) e.g.mbldCount.toNat) gens := by
  have hlt : ∀ n : W32, n.toNat < 2 ^ 40 := fun n => n.isLt.trans (by decide)
  have hne : bgenKey (gidG e.gid / 4) e.g.mbldCount.toNat ≠ bgenKey (gidG e.gid / 4) (e.g.mbldCount + 1).toNat := fun h => by
    have hm := congrArg (· % 2 ^ 40) h
    simp only [(bgenKey_parts (hlt _)).2] at hm
    have : e.g.mbldCount = e.g.mbldCount + 1 := BitVec.eq_of_toNat_eq hm
    bv_omega
  refine (tget_tput_ne _ _ hne).trans (tget_filter _ _ fun x => ?_)
  exact Bool.or_eq_true_iff.mpr (.inr (List.any_eq_true.mpr ⟨_, List.mem_cons_self, beq_iff_eq.mpr (bgenKey_parts (hlt _)).2⟩))

theorem Env.mbldGens_new (v code : Nat) (gens : Tab BGen) : ∃ b,
    tget (bgenKey (gidG e.gid / 4) (e.g.mbldCount + 1).toNat) (e.mbldGens v code gens) = some b ∧
    ∀ i q, e.quarters[i]? = some q → tget q b.quarters = some (code,
      (List.range (matB code)).flatMap fun r => (List.range 32).map fun l => BitVec.ofNat 32 (e.g.vr (v + i * matB code + r) l)) := by
  refine ⟨_, tget_tput_same .., fun i q hq => tget_toverlay_mem ?_ ?_ _⟩
  · have hk : (e.mbldWords v code).map Prod.fst = e.quarters := by
      unfold Env.mbldWords
      rw [List.map_map]
      exact List.zipIdx_map_fst ..
    rw [hk]
    exact List.nodup_range.filter _
  · exact List.mem_map.mpr ⟨(q, i), List.mk_mem_zipIdx_iff_getElem?.mpr hq, rfl⟩

/-- MBLD under its conditions (R164, R165). -/
theorem mbld_effect (h : Issues (.mbld f) s e) {fmr : BitVec 16} {v : Nat} (hall : e.all32 f.k = .ok ()) (hfmr : e.oneFmr = .ok fmr)
    (hg : gidG e.gid < e.lch.lr.c) (hv : (match f.a with | .v n => n.val | _ => 0) = v)
    (hb : v + e.quarters.length * matB (fld fmr.toNat 4 4) ≤ e.g.budget) :
    (e.g.mbldCount.toNat < 2 ∨ (∀ m ∈ e.members, e.loaded e.g.mbldCount m = true) → exec (.mbld f) s = .next (e.done (.mbld f)
      ((e.s.modT e.tid fun t => { t with bgens := e.mbldGens v (fld fmr.toNat 4 4) t.bgens }).putG e.gid
        { e.g with mbldCount := e.g.mbldCount + 1 }))) ∧
    (2 ≤ e.g.mbldCount.toNat → (∃ m ∈ e.members, e.loaded e.g.mbldCount m = false) →
      exec (.mbld f) s = .next (e.parked (.mbld f) .mbld e.s)) := by
  have hwait : (decide (2 ≤ e.g.mbldCount.toNat) && e.members.any fun m => !e.loaded e.g.mbldCount m) = true ↔
      2 ≤ e.g.mbldCount.toNat ∧ ∃ m ∈ e.members, e.loaded e.g.mbldCount m = false := by simp
  subst hv
  constructor
  · intro hw
    have hno : (decide (2 ≤ e.g.mbldCount.toNat) && e.members.any fun m => !e.loaded e.g.mbldCount m) = false := by
      rw [Bool.eq_false_iff, Ne, hwait]
      rintro ⟨h2, m, hm, hl⟩
      rcases hw with hw | hw
      · omega
      · exact absurd (hw m hm) (by simp [hl])
    refine issueWord_ok h ?_
    simp only [hall, hfmr, hg, hno, chk_ok_bind, decide_true, guardC_true]
    exact (congrArg ofChk (chk_guard_bind hb _ _)).trans rfl
  · intro h2 hm
    refine issueWord_park h rfl ?_
    simp only [hall, hfmr, hg, hwait.mpr ⟨h2, hm⟩, chk_ok_bind, decide_true, guardC_true]
    exact (congrArg ofChk (chk_guard_bind hb _ _)).trans rfl

theorem mma_effect (h : Issues (.mma f) s e) {fmr : BitVec 16} {v : Nat} (hall : e.all32 f.k = .ok ()) (hfmr : e.oneFmr = .ok fmr)
    (hv : (match f.a with | .v n => n.val | _ => 0) = v) (hb : v + matA (fld fmr.toNat 0 4) ≤ e.g.budget) (ht : tileNo f.d < e.g.ntiles)
    (hc : e.g.mbldCount ≠ 0) (hs : ∀ m ∈ e.members, e.short e.g.mbldCount m = false) :
    let code := fld fmr.toNat 0 4
    let b := (tget (bgenKey (gidG e.gid / 4) e.g.mbldCount.toNat) e.team.bgens).getD {}
    ((∃ m ∈ e.members, e.loaded e.g.mbldCount m = false) → exec (.mma f) s = .next (e.parked (.mma f) .generation e.s)) ∧
    ((∀ m ∈ e.members, e.loaded e.g.mbldCount m = true) → (∀ q ∈ b.quarters, q.2.1 = code) →
      (e.s.quadTiles e.gid < 8 → exec (.mma f) s = .next (e.done (.mma f) (e.s.tilePush e.gid (.mma e.pc (tileNo f.d) fmr
        ((List.range (32 * matA code)).map fun w => BitVec.ofNat 32 (e.g.vr (v + w / 32) (w % 32)))
        ((List.range 4).flatMap fun q => match tget q b.quarters with | some x => x.2 | none => List.replicate (32 * matB code) 0)
        ((List.range (32 * matA code)).filter fun w => e.g.badV.contains (32 * (v + w / 32) + w % 32))
        (b.bad.map fun x => 32 * matB code * x.1 + x.2))))) ∧
      (¬ e.s.quadTiles e.gid < 8 → exec (.mma f) s = .next (e.parked (.mma f) .tileFull e.s))) := by
  intro code b
  subst hv
  have hown : e.owns f.d = .ok () := by simp [Env.owns, ht]
  have hg0 : (e.g.mbldCount != 0) = true := bne_iff_ne.mpr hc
  have hshort : (e.members.any (e.short e.g.mbldCount)) = false := any_eq_false_of_forall hs
  refine ⟨fun ⟨m, hm, hl⟩ => ?_, fun hload hq => ?_⟩
  · have hno : (e.members.all (e.loaded e.g.mbldCount)) = false := List.all_eq_false.mpr ⟨m, hm, by simp [hl]⟩
    refine issueWord_park h rfl ?_
    simp only [hall, hfmr, hown, hg0, hshort, hno, chk_ok_bind, guardC_true, Bool.not_false]
    exact (congrArg ofChk (chk_guard_bind hb _ _)).trans rfl
  · have hyes : (e.members.all (e.loaded e.g.mbldCount)) = true := List.all_eq_true.mpr hload
    have hqs : (b.quarters.all fun q => q.2.1 == code) = true := List.all_eq_true.mpr fun q hm => beq_iff_eq.mpr (hq q hm)
    have hqs' : ((tget (bgenKey (gidG e.gid / 4) e.g.mbldCount.toNat) e.team.bgens).getD {}).quarters.all
        (fun q => q.2.1 == fld fmr.toNat 0 4) = true := hqs
    constructor
    · intro hr
      have hfull : e.tilesFull = false := by simp [Env.tilesFull, hr]
      refine issueWord_ok h ?_
      simp only [hall, hfmr, hown, hg0, hshort, hyes, hqs', hfull, chk_ok_bind, guardC_true, Bool.not_false, Bool.not_true,
        Bool.false_eq_true, if_false]
      exact (congrArg ofChk (chk_guard_bind hb _ _)).trans rfl
    · intro hr
      have hfull : e.tilesFull = true := by simp [Env.tilesFull]; omega
      refine issueWord_park h rfl ?_
      simp only [hall, hfmr, hown, hg0, hshort, hyes, hqs', hfull, chk_ok_bind, guardC_true, Bool.not_false, Bool.not_true,
        Bool.false_eq_true, if_false]
      exact (congrArg ofChk (chk_guard_bind hb _ _)).trans rfl

end

/-- A word that enters the tile queue, or waits for it (R172). -/
theorem tileWord_enters {i : Instr} {s : State} {e : Env} {d : Opd} (h : Issues i s e) (hx : e.exec i.guard ≠ 0) (ht : tileNo d < e.g.ntiles)
    (op : TileOp) {body : Env → Chk Res} (hw : exec i s = onceWord i body s)
    (hb : body e = (e.owns d >>= fun _ => if e.tilesFull then pure (.park .tileFull e.s) else pure (.ok (e.s.tilePush e.gid op)))) :
    (e.s.quadTiles e.gid < 8 → exec i s = .next (e.done i (e.s.tilePush e.gid op))) ∧
    (¬ e.s.quadTiles e.gid < 8 → exec i s = .next (e.parked i .tileFull e.s)) := by
  have hown : e.owns d = .ok () := by simp [Env.owns, ht]
  constructor
  · intro hr
    have hfull : e.tilesFull = false := by simp [Env.tilesFull, hr]
    exact hw.trans (onceWord_next h (.inl hx) (by rw [hb, hown, hfull]; rfl))
  · intro hr
    have hfull : e.tilesFull = true := by simp [Env.tilesFull]; omega
    exact hw.trans (onceWord_parks h (.inl hx) rfl (by rw [hb, hown, hfull]; rfl))

/-- Settles O35: MBLD by `mbld_effect` and `Env.mbldGens_new`, MMA by `mma_effect`, the others by `tileWord_enters`. -/
theorem tileWordsComplete : Obligations.TileWordsComplete := by
  unfold Obligations.TileWordsComplete
  intro s e hc set count oneFmr base room enters
  refine ⟨fun f fmr h hm hx hfmr hg hb => ?_, fun f fmr h hm hx hfmr hb ht h0 hs => ?_, fun f h hx ht => ?_,
    fun f h hx => onceWord_idle h hc hx, fun f h hx ht => ?_, fun f h hx => onceWord_idle h hc hx⟩
  · obtain ⟨hf0, hfa, hfab, hfc⟩ := hfmr
    obtain ⟨hgo, hwait⟩ := mbld_effect h (Env.all32_ok hm hx) (Env.oneFmr_ok hf0 hfa hfab hfc) hg rfl hb
    refine ⟨fun hw => ⟨_, hgo hw, rfl, tget_tput_same .., fun k hk => tget_tput_ne _ _ hk, fun k hk => tget_tmod_ne _ _ hk, ?_⟩, hwait⟩
    obtain ⟨bg, hbg, hq⟩ := e.mbldGens_new (base f) (fld fmr.toNat 4 4) e.team.bgens
    refine ⟨{ e.team with bgens := e.mbldGens (base f) (fld fmr.toNat 4 4) e.team.bgens }, bg, ?_, rfl,
      e.mbldGens_before (base f) (fld fmr.toNat 4 4) e.team.bgens, hbg, hq⟩
    exact (tget_tmod_same ..).trans (by rw [(h.inTeam hc).team]; rfl)
  · obtain ⟨hf0, hfa, hfab, hfc⟩ := hfmr
    exact mma_effect h (Env.all32_ok hm hx) (Env.oneFmr_ok hf0 hfa hfab hfc) rfl hb ht h0 hs
  · exact tileWord_enters h hx ht (.zero (tileNo f.d)) rfl rfl
  · exact tileWord_enters h hx ht (.scale (tileNo f.d) f.ty (BitVec.ofNat 32 (e.exec f.k))
      ((List.range 32).map fun l => BitVec.ofNat 64 (e.rd f.ty l f.a))) rfl rfl

end Sys2Proof.Machine
end

section
/-! SUPPORT. Units that a list of bytes covers whole, a sub-gang's level of writes, states with one team of one group, and MDRS with
additions (R177, R203). -/

namespace Sys2Proof.Machine

/-! ### Units covered whole -/

theorem nins_sorted {k : Nat} {l : List Nat} (h : l.Pairwise (· < ·)) : (nins k l).Pairwise (· < ·) := by
  induction l with
  | nil => simp [nins]
  | cons j l ih =>
    rw [List.pairwise_cons] at h
    unfold nins
    split_ifs with hlt heq
    · refine List.pairwise_cons.mpr ⟨fun x hx => ?_, List.pairwise_cons.mpr h⟩
      rcases List.mem_cons.mp hx with rfl | hx
      · exact hlt
      · exact hlt.trans (h.1 x hx)
    · exact List.pairwise_cons.mpr h
    · refine List.pairwise_cons.mpr ⟨fun x hx => ?_, ih h.2⟩
      rcases mem_nins.mp hx with rfl | hx
      · have : j ≠ x := fun h => heq (beq_iff_eq.mpr h)
        omega
      · exact h.1 x hx

theorem mem_insAll {α : Type} {f : α → Nat} {l : List α} {j : Nat} : ∀ {acc : List Nat},
    j ∈ l.foldl (fun l a => nins (f a) l) acc ↔ j ∈ acc ∨ ∃ a ∈ l, f a = j := by
  induction l with
  | nil => simp
  | cons x l ih =>
    intro acc
    rw [List.foldl_cons, ih, mem_nins]
    simp only [List.exists_mem_cons_iff, eq_comm (a := j), or_assoc, or_left_comm]

theorem insAll_sorted {α : Type} (f : α → Nat) (l : List α) : ∀ {acc : List Nat}, acc.Pairwise (· < ·) →
    (l.foldl (fun l a => nins (f a) l) acc).Pairwise (· < ·) := by
  induction l with
  | nil => exact fun h => h
  | cons x l ih => exact fun h => ih (nins_sorted h)

/-- A unit all of whose bytes are listed is covered whole. -/
theorem mem_wholeUnits {l : List Nat} {u : Nat} (h : ∀ i < 64, 64 * u + i ∈ l) : u ∈ wholeUnits l := by
  unfold wholeUnits
  dsimp only
  have hmem : ∀ i < 64, 64 * u + i ∈ l.foldl (fun l a => nins a l) [] := fun i hi => mem_insAll.mpr (.inr ⟨_, h i hi, rfl⟩)
  have hsort : (l.foldl (fun l a => nins a l) []).Pairwise (· < ·) := insAll_sorted id l .nil
  generalize l.foldl (fun l a => nins a l) [] = ks at hmem hsort
  refine List.mem_filter.mpr ⟨mem_insAll.mpr (.inr ⟨64 * u, hmem 0 (by omega), by omega⟩), beq_iff_eq.mpr ?_⟩
  have hnd : (ks.filter fun a => a / 64 == u).Nodup := ((hsort.imp fun h => Nat.ne_of_lt h).filter _)
  have hset : (ks.filter fun a => a / 64 == u).toFinset = (Finset.range 64).image fun i => 64 * u + i := by
    ext a
    simp only [List.mem_toFinset, List.mem_filter, beq_iff_eq, Finset.mem_image, Finset.mem_range]
    constructor
    · rintro ⟨-, ha⟩
      exact ⟨a % 64, Nat.mod_lt _ (by decide), by omega⟩
    · rintro ⟨i, hi, rfl⟩
      exact ⟨hmem i hi, by omega⟩
  rw [← List.toFinset_card_of_nodup hnd, hset, Finset.card_image_of_injective _ fun a b hab => by simpa using hab, Finset.card_range]

/-! ### The level of writes of a word's sub-gang -/

/-- The level of writes of the word's sub-gang in a state. -/
def Env.level (e : Env) (t : State) : Option GLevel := (tget e.gid t.groups).bind fun g => (g.sub e.sub.mask).map (·.lvl)

theorem Group.sub_map (g : Group) (mask : Nat) (f : SubGang → SubGang) (hf : ∀ x, (f x).mask = x.mask) :
    ({ g with subs := g.subs.map f } : Group).sub mask = (g.sub mask).map f := by
  unfold Group.sub
  rw [List.find?_map]
  refine congrArg (Option.map f) (congrArg (List.find? · g.subs) (funext fun x => ?_))
  rw [Function.comp_apply, hf]

theorem Env.level_modG (e : Env) (t : State) (f : Group → Group) {h : GLevel → GLevel}
    (hf : ∀ g, ((f g).sub e.sub.mask).map (·.lvl) = ((g.sub e.sub.mask).map (·.lvl)).map h) :
    e.level (t.modG e.gid f) = (e.level t).map h := by
  unfold Env.level
  rw [State.modG_groups, tget_tmod_same]
  cases tget e.gid t.groups with
  | none => rfl
  | some g => exact hf g

theorem Env.level_modLvl (e : Env) (t : State) (f : GLevel → GLevel) :
    e.level (t.modG e.gid fun g => g.modLvl e.sub.mask f) = (e.level t).map f :=
  e.level_modG t _ fun g => by
    unfold Group.modLvl Group.modSub
    rw [Group.sub_map _ _ _ fun x => by split <;> rfl]
    cases hx : g.sub e.sub.mask with
    | none => rfl
    | some x =>
      have hm : x.mask = e.sub.mask := by simpa using List.find?_some hx
      simp [hm]

theorem Env.level_modT (e : Env) (t : State) (k : Nat) (f : Team → Team) : e.level (t.modT k f) = e.level t := rfl

/-- The poison that is cleared adds the operations of a sub-gang, and those in team data one each. -/
theorem Env.level_wipe (e : Env) (n : Nat) (ps : List Place) (t : State) :
    ∃ h : GLevel → GLevel, e.level (e.wipe t n ps) = (e.level t).map h ∧ (∀ l, l.ops.length ≤ (h l).ops.length) ∧
      ((∃ u ∈ wholeUnits (ps.flatMap fun x => match x.loc with | .own off => (List.range n).map (· + off) | _ => []),
        64 * u < e.lch.layout.rings) → ∀ l, l.ops.length < (h l).ops.length) := by
  unfold Env.wipe
  dsimp only
  generalize wholeUnits _ = us
  induction us generalizing t with
  | nil => exact ⟨id, by simp, fun _ => le_rfl, fun ⟨u, hu, _⟩ => nomatch hu⟩
  | cons u us ih =>
    rw [List.foldl_cons]
    split
    · next hr =>
      obtain ⟨h, hl, hle, hlt⟩ := ih (t.modT e.tid fun t => { t with data := t.data.mark u false })
      refine ⟨h, hl.trans (by rw [Env.level_modT]), hle, fun ⟨v, hv, hlow⟩ => hlt ⟨v, ?_, hlow⟩⟩
      rcases List.mem_cons.mp hv with rfl | hv
      · omega
      · exact hv
    · next hr =>
      obtain ⟨h, hl, hle, -⟩ := ih (t.modG e.gid fun g => g.modLvl e.sub.mask fun l => l.act [.poison u false])
      have hadd : ∀ l : GLevel, l.ops.length < (h (l.act [.poison u false])).ops.length := fun l =>
        Nat.lt_of_lt_of_le (by simp [GLevel.act]) (hle _)
      exact ⟨fun l => h (l.act [.poison u false]), hl.trans (by rw [Env.level_modLvl, Option.map_map]; rfl), fun l => (hadd l).le,
        fun _ => hadd⟩

/-- What follows a word's effect leaves its sub-gang's level of writes. -/
theorem Env.level_done (e : Env) {i : Instr} (hm : i.marker = false) (t : State) : e.level (e.done i t) = e.level t := by
  have hpc : e.level (t.modG e.gid fun g => (g.advance e.sub.mask).modSub e.sub.mask fun x => { x with park := .none, lastPc := e.pc }) =
      e.level t := by
    refine (e.level_modG t _ (h := id) fun g => ?_).trans (by simp)
    unfold Group.modSub
    rw [Group.sub_map _ _ _ fun x => by split <;> rfl]
    have hsub : (g.advance e.sub.mask).sub e.sub.mask = g.sub e.sub.mask := by
      unfold Group.advance
      rw [modSlices_slices]
      rfl
    rw [hsub]
    cases g.sub e.sub.mask with
    | none => rfl
    | some x =>
      simp only [Option.map_some, id_eq]
      split <;> rfl
  unfold Env.done Env.after Env.logWord
  simp only [hm, Bool.false_eq_true, if_false]
  split
  · exact hpc
  · unfold State.logUndo
    split
    · refine (e.level_modG _ _ (h := id) fun g => ?_).trans (by simpa using hpc)
      simp [Group.addUndo, Group.sub]
    · exact hpc

/-! ### MDRS with additions -/

/-- One addition of an MDRS to its sub-gang's level (R177). -/
def Env.drainAct (e : Env) (f : RWord) (x : Nat × Nat) (l : GLevel) : GLevel :=
  let op := GOp.drain x.1 f.ty f.sat (BitVec.ofNat 64 x.2) (tileNo f.d)
  if e.lch.areaOf x.1 = .ring then { l with ops := l.ops ++ [op] } else { l with ops := l.ops ++ [op], view := (op.run l.view).1 }

/-- The state that the additions of an MDRS leave before poison is cleared. -/
def Env.drainAdds (e : Env) (f : RWord) (addrs : List Nat) : State :=
  let lines := e.rowLines (some (drainElem f.ty)) (addrs.map fun a => (a, drainRowLen f.ty))
  let r := e.drain (tileNo f.d) fun t => t.badLog (tileNo f.d) (f.ty == .f64) fun _ => true
  let t0 := (r.1.modG e.gid fun g => g.raiseTile (tileNo f.d) (drainRows f r.2).2).modG e.gid fun g => g.takeLines lines.1 lines.2
  ((addrs.zip (drainRows f r.2).1).flatMap fun r => r.2.zipIdx.map fun x => ((r.1 + drainElem f.ty * x.2) % 2 ^ 19, x.1)).foldl
    (fun t x => t.modG e.gid fun g => g.modLvl e.sub.mask (e.drainAct f x)) t0

/-- MDRS with additions: its operations are noted, then poison is cleared in the units that its rows cover. -/
theorem mdrs_adds {s : State} {e : Env} {f : RWord} (h : Issues (.mdrs f) s e) (hx : e.exec f.k ≠ 0) {addrs : List Nat}
    (ht : e.owns f.d = .ok ()) (ha : e.drainAddrs f = .ok addrs)
    (hr : e.teamRanges true (addrs.map fun a => (a, drainRowLen f.ty)) = .ok ())
    (hf : e.needFit (some (drainElem f.ty)) (addrs.map fun a => (a, drainRowLen f.ty)) = .ok ()) (hfull : e.tilesFull = false) (hm : f.m ≠ 0) :
    exec (.mdrs f) s = .next (e.done (.mdrs f)
      (e.wipeRanges (e.drainAdds f addrs) (addrs.map fun a => (a, drainRowLen f.ty)))) := by
  refine onceWord_next h (.inl hx) ?_
  have hm' : (f.m == 0) = false := beq_false_of_ne hm
  simp only [ht, ha, hr, hm', hf, hfull, chk_ok_bind, Bool.false_eq_true, if_false]
  unfold Env.drainAdds Env.drainAct
  simp only [List.foldl_flatMap, List.foldl_map, State.modG_modG, beq_iff_eq]
  rfl

theorem Env.level_foldl_isSome (e : Env) {α : Type} (f : α → GLevel → GLevel) (l : List α) : ∀ t : State, (e.level t).isSome = true →
    (e.level (l.foldl (fun t x => t.modG e.gid fun g => g.modLvl e.sub.mask (f x)) t)).isSome = true := by
  induction l with
  | nil => exact fun _ h => h
  | cons x l ih => exact fun t h => ih _ (by rw [Env.level_modLvl, Option.isSome_map]; exact h)

theorem Env.level_drainAdds_isSome {e : Env} {f : RWord}
    (h : (e.level (e.drain (tileNo f.d) fun t => t.badLog (tileNo f.d) (f.ty == .f64) fun _ => true).1).isSome = true) (addrs : List Nat) :
    (e.level (e.drainAdds f addrs)).isSome = true := by
  unfold Env.drainAdds
  dsimp only
  refine e.level_foldl_isSome (e.drainAct f) _ _ ?_
  have hid : ∀ (t : State) (f : Group → Group), (∀ g, (f g).subs = g.subs) → e.level (t.modG e.gid f) = e.level t := fun t f hf =>
    (e.level_modG t f (h := id) fun g => by simp [Group.sub, hf]).trans (by simp)
  rwa [hid _ _ (fun g => show (g.takeLines _ _).subs = g.subs from rfl), hid _ _ (fun g => show (g.raiseTile _ _).subs = g.subs from rfl)]

/-! ### States with one team of one group -/

def oneLid : Nat := lidOf 0 (2 ^ 16)
def oneTid : Nat := tidOf oneLid 0
def oneGid : Nat := gidOf oneTid 0
def oneCtx : Ctx := { state := .resident, f := { cores := 1, ptroot := 0x1000 }, coreMap := [0], launchN := 1 }

/-- A resident context with one launch of one team of one group, whose whole gang holds the issue slot. -/
def oneTeam (g : Group) (t : Team) (l : Launch) : State :=
  { cur := some { gid := oneGid, mask := 255 }, ctxs := [(0, oneCtx)], launches := [(oneLid, l)], teams := [(oneTid, t)],
    groups := [(oneGid, g)] }

/-- The environment of that gang. -/
def oneEnv (g : Group) (t : Team) (l : Launch) : Env :=
  { s := { oneTeam g t l with cur := none }, gid := oneGid, g := g, sub := { mask := 255 }, tid := oneTid, team := t, lid := oneLid, lch := l,
    cid := 0, ctx := oneCtx, pc := g.pcOf 255 }

/-- Scalar registers equal in all slices. -/
def scalarsOf (l : List (Nat × Nat)) : Sparse W64 := l.flatMap fun x => (List.range 8).map fun c => (8 * x.1 + c, BitVec.ofNat 64 x.2)

/-! ### O38 -/

def drainGroup : Group := { (placedLaunch []).newGroup 0 with ntiles := 8, sreg := scalarsOf [(4, 2 ^ 55)] }
def drainState : State := oneTeam drainGroup { team := 0 } (placedLaunch [])
def drainEnv : Env := oneEnv drainGroup { team := 0 } (placedLaunch [])
def drainWord : RWord := { d := .x 1, a := .s 4, b := .s 5, ty := .f64, m := 1 }

theorem drain_issues : Issues (.mdrs drainWord) drainState drainEnv :=
  ⟨⟨{ gid := oneGid, mask := 255 }, rfl, rfl⟩, (ready_iff ..).mpr (by decide)⟩

/-- Its rows all lie at the start of the team's window. -/
def drainRowsAt : List Nat := (List.range 16).map fun i => (2 ^ 55 + i * 0) % 2 ^ 64

theorem drain_addrs : drainEnv.drainAddrs drainWord = .ok drainRowsAt := by rfl

theorem drain_teamRanges : drainEnv.teamRanges true (drainRowsAt.map fun a => (a, drainRowLen .f64)) = .ok () := by rfl

theorem drain_needFit : drainEnv.needFit (some (drainElem .f64)) (drainRowsAt.map fun a => (a, drainRowLen .f64)) = .ok () := by
  decide

/-- The first unit of the window is covered whole. -/
theorem drain_covers : 0 ∈ wholeUnits (((drainRowsAt.map fun a => (a, drainRowLen .f64)).flatMap fun r => (List.range r.2).map fun i =>
    ({ p := 0, addr := 0, loc := .own (r.1 % 2 ^ 19 + i) } : Place)).flatMap
      fun x => match x.loc with | .own off => (List.range 1).map (· + off) | _ => []) := by
  refine mem_wholeUnits fun i hi => List.mem_flatMap.mpr ⟨{ p := 0, addr := 0, loc := .own (2 ^ 55 % 2 ^ 19 + i) }, ?_, ?_⟩
  · exact List.mem_flatMap.mpr ⟨(2 ^ 55, 128), by decide, List.mem_map.mpr ⟨i, List.mem_range.mpr (by omega), rfl⟩⟩
  · exact List.mem_map.mpr ⟨0, by decide, by omega⟩

/-- Refutes O38: an MDRS with additions also clears the poison of the units that its rows cover (R203), which adds operations to the
sub-gang's level; the statement leaves them out. -/
theorem not_memoryDrainsComplete : ¬ Obligations.MemoryDrainsComplete := by
  intro h
  obtain ⟨hs, -⟩ := h drainState drainEnv (2 ^ 55) 0 rfl
  have hagree : ∀ c ∈ drainEnv.execSlices drainWord.k, drainEnv.rd64 (4 * c) drainWord.a = 2 ^ 55 ∧ drainEnv.rd64 (4 * c) drainWord.b = 0 := by
    decide
  have hbytes : ∀ i < 128, drainEnv.teamByte true (2 ^ 55 + i) = none := by decide
  obtain ⟨-, hadd, -⟩ := hs drainWord drain_issues ⟨by decide, by decide, by decide, by decide, hagree⟩ (fun x hx i hi => by
    obtain ⟨j, -, rfl⟩ := List.mem_map.mp hx
    simpa using hbytes i hi) (by decide)
  have hstmt : exec (.mdrs drainWord) drainState = .next (drainEnv.done (.mdrs drainWord) (drainEnv.drainAdds drainWord drainRowsAt)) :=
    hadd (by decide) (by decide)
  have hmodel := mdrs_adds drain_issues (by decide) rfl drain_addrs drain_teamRanges drain_needFit (by decide) (by decide)
  have hdone := Host.Outcome.next.inj (hstmt.symm.trans hmodel)
  have hlevel := congrArg drainEnv.level hdone
  rw [Env.level_done _ rfl, Env.level_done _ rfl] at hlevel
  obtain ⟨l, hl⟩ := Option.isSome_iff_exists.mp (Env.level_drainAdds_isSome (f := drainWord) (e := drainEnv) (by decide) drainRowsAt)
  obtain ⟨u, hu, -, hlt⟩ := drainEnv.level_wipe 1 ((drainRowsAt.map fun a => (a, drainRowLen .f64)).flatMap fun r =>
    (List.range r.2).map fun i => { p := 0, addr := 0, loc := .own (r.1 % 2 ^ 19 + i) }) (drainEnv.drainAdds drainWord drainRowsAt)
  have hwipe : drainEnv.level (drainEnv.wipeRanges (drainEnv.drainAdds drainWord drainRowsAt)
    (drainRowsAt.map fun a => (a, drainRowLen drainWord.ty))) = _ := hu
  rw [hwipe, hl, Option.map_some, Option.some.injEq] at hlevel
  exact absurd (congrArg (fun l : GLevel => l.ops.length) hlevel) (Nat.ne_of_lt (hlt ⟨0, drain_covers, by decide⟩ l))

end Sys2Proof.Machine
end

section
/-! SUPPORT. MSEQ, MGRP and MERR (R180 to R182, R184). -/

namespace Sys2Proof.Machine

/-! ### States that differ in their groups and teams only -/

/-- Nothing but groups and teams has changed. -/
def State.TeamsOnly (s t : State) : Prop := t = { s with groups := t.groups, teams := t.teams }

theorem State.TeamsOnly.refl (s : State) : s.TeamsOnly s := rfl
theorem State.TeamsOnly.trans {s t u : State} (h : s.TeamsOnly t) (h' : t.TeamsOnly u) : s.TeamsOnly u := by
  unfold State.TeamsOnly at *
  rw [h', h]
theorem State.TeamsOnly.putG {s t : State} (h : s.TeamsOnly t) (k : Nat) (g : Group) : s.TeamsOnly (t.putG k g) := h.trans rfl
theorem State.TeamsOnly.modG {s t : State} (h : s.TeamsOnly t) (k : Nat) (f : Group → Group) : s.TeamsOnly (t.modG k f) := h.trans rfl
theorem State.TeamsOnly.modT {s t : State} (h : s.TeamsOnly t) (k : Nat) (f : Team → Team) : s.TeamsOnly (t.modT k f) := h.trans rfl

theorem State.TeamsOnly.foldl {α : Type} {f : State → α → State} (hf : ∀ (s : State) (x : α), s.TeamsOnly (f s x)) (l : List α) (s : State) :
    s.TeamsOnly (l.foldl f s) := by
  induction l generalizing s with
  | nil => exact .refl s
  | cons x l ih => exact (hf s x).trans (ih _)

theorem Env.putOwn_teamsOnly (e : Env) (s : State) (a : Nat) (bs : List Byte) : s.TeamsOnly (e.putOwn s a bs) := by
  refine State.TeamsOnly.foldl (fun s p => ?_) _ s
  dsimp only
  split
  · exact .modT (.refl s) _ _
  · exact .modG (.refl s) _ _

theorem Env.wipeRanges_teamsOnly (e : Env) (s : State) (rs : List (Nat × Nat)) : s.TeamsOnly (e.wipeRanges s rs) := by
  refine State.TeamsOnly.foldl (fun s u => ?_) _ s
  split
  · exact .modT (.refl s) _ _
  · exact .modG (.refl s) _ _

theorem State.markLines_teams (s : State) (o : EngOp) (late : Bool) : s.markLines o late = { s with teams := (s.markLines o late).teams } := by
  unfold State.markLines State.noteReads
  split <;> rfl

/-! ### Operations that wait for a slot -/

/-- An operation that moves rows notes the same lines in states with the same mappings. -/
theorem State.noting_rows {s t : State} (hc : t.ctxs = s.ctxs) (hm : t.mem = s.mem) (hp : t.memPoison = s.memPoison)
    (hl : t.launches = s.launches) {o : EngOp} {rs : List Row} (hk : o.kind = .rows rs) : t.noting o = s.noting o := by
  have hi : hImage t = hImage s := by unfold hImage; rw [hl, hm, hp]
  have ht : ∀ cid va, translate t cid va = translate s cid va := fun cid va => by unfold translate; rw [hc, hi]
  unfold State.noting State.readLines State.rangesOf State.opRanges State.physLines
  simp only [hk, ht]

/-- An operation enters the list, and waits for a slot (R181). -/
def State.forkWanted (s : State) (o : EngOp) : State :=
  let o := s.noting o
  { s with ops := tput s.nextOp o s.ops, nextOp := s.nextOp + 1 }.markLines o false

/-- What a list of such operations leaves. -/
theorem State.forkAllWanted {os : List EngOp} (hos : ∀ o ∈ os, ∃ rs, o.kind = .rows rs) : ∀ (s : State),
    let t := os.foldl State.forkWanted s
    t = { s with teams := t.teams, ops := t.ops, nextOp := s.nextOp + os.length } ∧ (∀ k < s.nextOp, tget k t.ops = tget k s.ops) ∧
      ∀ (i : Nat) (o : EngOp), os[i]? = some o → tget (s.nextOp + i) t.ops = some (s.noting o) := by
  induction os with
  | nil => exact fun s => ⟨rfl, fun _ _ => rfl, fun _ _ h => nomatch h⟩
  | cons o os ih =>
    intro s
    obtain ⟨hfr, hlow, hnew⟩ := ih (fun o ho => hos o (List.mem_cons_of_mem _ ho)) (s.forkWanted o)
    have hf : s.forkWanted o = { s with teams := (s.forkWanted o).teams, ops := tput s.nextOp (s.noting o) s.ops, nextOp := s.nextOp + 1 } :=
      State.markLines_teams ..
    have hops : (s.forkWanted o).ops = tput s.nextOp (s.noting o) s.ops := by rw [hf]
    have hnext : (s.forkWanted o).nextOp = s.nextOp + 1 := by rw [hf]
    rw [List.foldl_cons]
    refine ⟨?_, fun k hk => ?_, fun i o' hi => ?_⟩
    · refine hfr.trans ?_
      rw [hnext, hf, List.length_cons, Nat.add_assoc, Nat.add_comm 1]
    · rw [hlow k (by omega), hops]
      exact tget_tput_ne _ _ (Nat.ne_of_lt hk)
    · cases i with
      | zero =>
        obtain rfl : o = o' := by simpa using hi
        rw [Nat.add_zero, hlow _ (by omega), hops]
        exact tget_tput_same ..
      | succ i =>
        have hi' : os[i]? = some o' := by simpa using hi
        obtain ⟨rs, hk⟩ := hos o' (List.mem_cons_of_mem _ (List.mem_of_getElem? hi'))
        have hn := hnew i o' hi'
        rw [hnext] at hn
        rw [show s.nextOp + (i + 1) = s.nextOp + 1 + i by omega, hn]
        exact congrArg some (State.noting_rows (by rw [hf]) (by rw [hf]) (by rw [hf]) (by rw [hf]) hk)

/-- One operation's turn to take a slot. -/
def State.reserveOne (tid gid q : Nat) (s : State) (o : Nat × EngOp) : State :=
  if o.2.gid == gid && o.2.want == some q then
    match tget tid s.teams with
    | none => s
    | some t => match tget q t.queues with
      | none => s
      | some x =>
        if !x.free || s.tcuFull gid then s
        else
          let addr := x.slotAddr x.fillSeq
          let rs := match o.2.kind with
            | .rows rs => OpKind.rows (rs.map fun r => { r with dst := r.dst + addr }) | k => k
          let op := { o.2 with want := none, slot := some (q, x.fillSeq), kind := rs, handle := BitVec.ofNat 64 addr }
          { s with ops := tput o.1 op s.ops }.modT tid fun t => t.modQ q fun x => x.reserve 1 addr op.decl (some o.1)
  else s

theorem State.reserveWanted_foldl (s : State) (tid gid q : Nat) : s.reserveWanted tid gid q = s.ops.foldl (State.reserveOne tid gid q) s := rfl

theorem State.reserveAll_filter (tid gid q : Nat) (l : List (Nat × EngOp)) (s : State) : l.foldl (State.reserveOne tid gid q) s =
    (l.filter fun y => y.2.gid == gid && y.2.want == some q).foldl (State.reserveOne tid gid q) s := by
  induction l generalizing s with
  | nil => rfl
  | cons y l ih =>
    by_cases hy : (y.2.gid == gid && y.2.want == some q) = true
    · rw [List.filter_cons, if_pos hy, List.foldl_cons, List.foldl_cons, ih]
    · rw [List.filter_cons, if_neg hy, List.foldl_cons, ih, State.reserveOne, if_neg hy]

section
variable {t : State} {tid gid q : Nat} {tm : Team} {x : Queue} (ht : tget tid t.teams = some tm) (hx : tget q tm.queues = some x)
include ht hx

theorem State.reserveWanted_full (h : x.free = false ∨ t.tcuFull gid = true) : t.reserveWanted tid gid q = t := by
  have hone : ∀ y, State.reserveOne tid gid q t y = t := fun y => by
    unfold State.reserveOne
    have hb : (!x.free || t.tcuFull gid) = true := by rcases h with h | h <;> simp [h]
    split
    · simp only [ht, hx, hb, if_true]
    · rfl
  rw [State.reserveWanted_foldl]
  induction t.ops with
  | nil => rfl
  | cons y l ih => rw [List.foldl_cons, hone, ih]

theorem State.reserveWanted_one {id : Nat} {o : EngOp} (ho : (t.ops.filter fun y => y.2.gid == gid && y.2.want == some q) = [(id, o)])
    (hfree : x.free = true) (hroom : t.tcuFull gid = false) {rs : List Row} (hk : o.kind = .rows rs) :
    let addr := x.slotAddr x.fillSeq
    let taken := { o with
      want := none, slot := some (q, x.fillSeq), handle := BitVec.ofNat 64 addr,
      kind := .rows (rs.map fun r => { r with dst := r.dst + addr }) }
    t.reserveWanted tid gid q = { t with ops := tput id taken t.ops }.modT tid fun t => t.modQ q fun x => x.reserve 1 addr o.decl (some id) := by
  have hy : (o.gid == gid && o.want == some q) = true := by
    have := List.mem_filter.mp (ho ▸ List.mem_singleton_self (id, o))
    exact this.2
  rw [State.reserveWanted_foldl, State.reserveAll_filter, ho, List.foldl_cons, List.foldl_nil, State.reserveOne, if_pos hy]
  simp only [ht, hx, hfree, hroom, hk, Bool.not_true, Bool.or_false, Bool.false_eq_true, if_false]

end

/-! ### The words -/

section
variable {s : State} {e : Env} {f : RWord}

theorem Env.needFit_ok {e : Env} {rs : List (Nat × Nat)} (h : e.linesFit (e.ownLines rs) 0 = true) : e.needFit none rs = .ok () := by
  unfold Env.needFit Env.rowLines
  simp only [h, if_true]

/-- MSEQ's list, written with its count (R180). -/
def Env.mseqWritten (e : Env) (f : RWord) (list : Nat) (kept : List Nat) : State :=
  let rs := [(list, 4 * kept.length)]
  let t0 := e.s.putG e.gid ((e.putScalar f.k f.d kept.length e.g).takeLines (e.ownLines rs) 0)
  if kept == [] then t0 else e.wipeRanges (e.putOwn t0 list (kept.flatMap fun b => leBytes 4 b)) rs

theorem ite_beq_nil {α β : Type} [BEq α] [LawfulBEq α] (l : List α) (a b : β) [Decidable (l = [])] :
    (if (l == []) = true then a else b) = if l = [] then a else b := by
  by_cases h : l = [] <;> simp [h]

theorem onceWord_body {i : Instr} (h : Issues i s e) (ha : e.acts i.guard) {body : Env → Chk Res} {r : Res} (hb : body e = .ok r) :
    onceWord i body s = .next (finish i e ((encode i).getD 0) r) := by
  rw [onceWord_acts h ha, hb]; rfl

/-- A number of MSEQ's parameter block (R180). -/
abbrev Env.blockNum (e : Env) (blk i k : Nat) : Nat := leNat (((e.ownBytes (blk % 2 ^ 19) 80).drop i).take k)

theorem blockNum_guard {e : Env} {blk : Nat} (h1 : e.blockNum blk 8 1 ≤ 16) (h2 : e.blockNum blk 9 7 = 0) (h3 : e.blockNum blk 0 4 < 2 ^ 31)
    (h4 : e.blockNum blk 4 4 ≤ 2 ^ 26) : guardC (decide (e.blockNum blk 8 1 ≤ 16) && e.blockNum blk 9 7 == 0 &&
      decide (e.blockNum blk 0 4 < 2 ^ 31) && decide (e.blockNum blk 4 4 ≤ 2 ^ 26)) (flt 0x01) = .ok () := by
  simp only [decide_eq_true h1, beq_iff_eq.mpr h2, decide_eq_true h3, decide_eq_true h4, Bool.and_self, guardC_true]

/-- The kept key blocks of a word's query block. -/
abbrev Env.mseqKept (e : Env) (blk q : Nat) : List Nat :=
  mseqList (e.blockNum blk 0 4) (e.blockNum blk 4 4) q ((List.range (e.blockNum blk 8 1)).map fun i => e.blockNum blk (16 + 4 * i) 4)

theorem mseq_list (hx : e.exec f.k ≠ 0) (h : Issues (.mseq f) s e) (hp : ∀ j, e.sub.park ≠ .mseq j) (hm : f.m.val ≠ 1) {blk q list : Nat}
    (ha : e.agreed f.k [f.a, f.b, f.c] = .ok [blk, q, list]) (h16 : blk % 16 = 0) (hb : e.teamRanges false [(blk, 80)] = .ok ())
    (hguard : guardC (decide (e.blockNum blk 8 1 ≤ 16) && e.blockNum blk 9 7 == 0 &&
      decide (e.blockNum blk 0 4 < 2 ^ 31) && decide (e.blockNum blk 4 4 ≤ 2 ^ 26)) (flt 0x01) = .ok ())
    (hr : e.teamRanges true [(list, 4 * (e.mseqKept blk q).length)] = .ok ())
    (hl : e.linesFit (e.ownLines [(list, 4 * (e.mseqKept blk q).length)]) 0 = true) :
    exec (.mseq f) s = .next (e.done (.mseq f) (e.mseqWritten f list (e.mseqKept blk q))) := by
  refine onceWord_next h (.inl hx) ?_
  have hg : (f.m.val == 1) = false := beq_false_of_ne hm
  have h16' : (blk % 16 == 0) = true := beq_iff_eq.mpr h16
  split
  · next j hj => exact absurd hj (hp j)
  · simp only [hg, Bool.false_eq_true, if_false, List.append_nil, ha, chk_ok_bind, List.getElem?_cons_zero, List.getElem?_cons_succ,
      Option.getD_some, h16', guardC_true, hb]
    rw [show guardC _ (flt 0x01) = .ok () from hguard, chk_ok_bind, show e.teamRanges true _ = .ok () from hr, chk_ok_bind,
      show e.needFit none _ = .ok () from Env.needFit_ok hl, chk_ok_bind]
    rfl

/-- The copy that MSEQ.g forks of a kept block's K and V (R181). -/
def Env.mseqOp (e : Env) (kb vb par b : Nat) : EngOp :=
  { gid := e.gid, slices := e.sub.mask, mode := 0, pc := e.pc, decl := 2 * fld par 8 24, want := some (fld par 0 4), mem := e.memImage,
    kind := .rows (e.rowsOf [(0, low 64 (kb + b * fld par 8 24), fld par 8 24), (fld par 8 24, low 64 (vb + b * fld par 8 24), fld par 8 24)]) }

theorem mseqG_body (hx : e.exec f.k ≠ 0) (h : Issues (.mseq f) s e) (hp : ∀ j, e.sub.park ≠ .mseq j) (hm : f.m.val = 1)
    {blk q list kb vb par : Nat} {x : Queue}
    (ha : e.agreed f.k [f.a, f.b, f.c, Opd.plus f.c 1, Opd.plus f.c 2, Opd.plus f.c 3] = .ok [blk, q, list, kb, vb, par])
    (h16 : blk % 16 = 0) (hb : e.teamRanges false [(blk, 80)] = .ok ())
    (hguard : guardC (decide (e.blockNum blk 8 1 ≤ 16) && e.blockNum blk 9 7 == 0 &&
      decide (e.blockNum blk 0 4 < 2 ^ 31) && decide (e.blockNum blk 4 4 ≤ 2 ^ 26)) (flt 0x01) = .ok ())
    (hbb : fld par 8 24 % 64 = 0) (hb0 : fld par 8 24 ≠ 0) (hq : e.fillQueue (fld par 0 4) = .ok x) (hsz : 2 * fld par 8 24 ≤ x.slotBytes)
    (hr : e.teamRanges true [(list, 4 * (e.mseqKept blk q).length)] = .ok ())
    (hc : e.chipChecks { mode := 15, q := 0 } ((e.mseqKept blk q).flatMap fun b =>
      [(low 64 (kb + b * fld par 8 24), fld par 8 24), (low 64 (vb + b * fld par 8 24), fld par 8 24)]) [] = .ok ())
    (hl : e.linesFit (e.ownLines [(list, 4 * (e.mseqKept blk q).length)]) 0 = true) :
    exec (.mseq f) s = .next (finish (.mseq f) e ((encode (.mseq f)).getD 0)
      (e.mseqOn (((e.mseqKept blk q).map (e.mseqOp kb vb par)).foldl State.forkWanted (e.mseqWritten f list (e.mseqKept blk q))) (fld par 0 4))) := by
  refine onceWord_body h (.inl hx) ?_
  have hg : (f.m.val == 1) = true := beq_iff_eq.mpr hm
  have h16' : (blk % 16 == 0) = true := beq_iff_eq.mpr h16
  have ha' : e.agreed f.k ([f.a, f.b, f.c] ++ (List.range 3).map fun i => Opd.plus f.c (i + 1)) = .ok [blk, q, list, kb, vb, par] := ha
  have hbb' : (fld par 8 24 % 64 == 0 && fld par 8 24 != 0) = true := by simp [hbb, hb0]
  split
  · next j hj => exact absurd hj (hp j)
  · simp only [hg, if_true, ha', chk_ok_bind, List.getElem?_cons_zero, List.getElem?_cons_succ, Option.getD_some, h16', guardC_true, hb]
    rw [show guardC _ (flt 0x01) = .ok () from hguard, chk_ok_bind]
    simp only [hbb', guardC_true, chk_ok_bind, hq, hsz, decide_true]
    rw [show e.teamRanges true _ = .ok () from hr, chk_ok_bind, show e.chipChecks _ _ _ = .ok () from hc, chk_ok_bind,
      show e.needFit none _ = .ok () from Env.needFit_ok hl, chk_ok_bind]
    rfl

theorem Park.written_eq_false {p : Park} (h : ∀ j, p ≠ .mseq j) : p.written = false := by
  unfold Park.written
  split
  · next j => exact absurd rfl (h j)
  · rfl

/-- What MSEQ.g forks, and how it goes on (R181). -/
theorem mseqG_forks (hp : ∀ j, e.sub.park ≠ .mseq j) {kept : List Nat} {list kb vb par : Nat}
    (he : exec (.mseq f) s = .next (finish (.mseq f) e ((encode (.mseq f)).getD 0)
      (e.mseqOn ((kept.map (e.mseqOp kb vb par)).foldl State.forkWanted (e.mseqWritten f list kept)) (fld par 0 4)))) :
    ∃ t : State, t.groups = (e.mseqWritten f list kept).groups ∧ t.mem = (e.mseqWritten f list kept).mem ∧
      t.nextOp = e.s.nextOp + kept.length ∧
      (∀ (i b : Nat), kept[i]? = some b → tget (e.s.nextOp + i) t.ops = some (e.s.noting (e.mseqOp kb vb par b))) ∧
      let u := t.reserveWanted e.tid e.gid (fld par 0 4)
      (u.wanting e.gid (fld par 0 4) = false → exec (.mseq f) s = .next (e.done (.mseq f) u)) ∧
      (u.wanting e.gid (fld par 0 4) = true →
        exec (.mseq f) s = .next (e.parked (.mseq f) (.mseq (fld par 0 4)) (u.logUndo e (.mseq f)))) := by
  have hw : e.s.TeamsOnly (e.mseqWritten f list kept) := by
    have h0 := (State.TeamsOnly.refl e.s).putG e.gid ((e.putScalar f.k f.d kept.length e.g).takeLines (e.ownLines [(list, 4 * kept.length)]) 0)
    unfold Env.mseqWritten
    dsimp only
    split
    · exact h0
    · exact (h0.trans (e.putOwn_teamsOnly ..)).trans (e.wipeRanges_teamsOnly ..)
  generalize e.mseqWritten f list kept = w at *
  have hkind : ∀ b, ∃ rs, (e.mseqOp kb vb par b).kind = .rows rs := fun b => ⟨_, rfl⟩
  obtain ⟨hfr, -, hnew⟩ := State.forkAllWanted (os := kept.map (e.mseqOp kb vb par)) (by simpa using fun b _ => hkind b) w
  refine ⟨_, (congrArg State.groups hfr).trans rfl, (congrArg State.mem hfr).trans rfl, (congrArg State.nextOp hfr).trans ?_,
    fun i b hi => ?_, fun hu => ?_, fun hu => ?_⟩
  · have hn : w.nextOp = e.s.nextOp := by rw [hw]
    simp [hn]
  · have hn := hnew i (e.mseqOp kb vb par b) (by simp [hi])
    rw [show w.nextOp = e.s.nextOp by rw [hw]] at hn
    obtain ⟨rs, hk⟩ := hkind b
    exact hn.trans (congrArg some (State.noting_rows (by rw [hw]) (by rw [hw]) (by rw [hw]) (by rw [hw]) hk))
  · rw [he]
    unfold Env.mseqOn
    simp only [hu, Bool.false_eq_true, if_false]
    rfl
  · have hpark : e.sub.park.written = false := Park.written_eq_false hp
    rw [he]
    unfold Env.mseqOn
    simp only [hu, if_true, finish, show ∀ q, (Park.mseq q).written = true from fun _ => rfl, Env.logWord, hpark, Bool.false_eq_true, if_false]
    rfl

/-- MSEQ.g goes on reserving slots (R181). -/
theorem mseqG_resumes (hx : e.exec f.k ≠ 0) (h : Issues (.mseq f) s e) {qn : Nat} (hp : e.sub.park = .mseq qn) :
    let u := e.s.reserveWanted e.tid e.gid qn
    (u.wanting e.gid qn = false → Effect (.mseq f) s e (· = u)) ∧
    (u.wanting e.gid qn = true → exec (.mseq f) s = .next (e.parked (.mseq f) (.mseq qn) u)) := by
  intro u
  have hb : exec (.mseq f) s = .next (finish (.mseq f) e ((encode (.mseq f)).getD 0) (e.mseqOn e.s qn)) :=
    onceWord_body h (.inl hx) (by simp only [hp]; rfl)
  refine ⟨fun hu => ⟨u, ?_, rfl⟩, fun hu => ?_⟩
  · rw [hb]
    unfold Env.mseqOn
    simp only [show (e.s.reserveWanted e.tid e.gid qn).wanting e.gid qn = false from hu, Bool.false_eq_true, if_false]
    rfl
  · rw [hb]
    unfold Env.mseqOn
    simp only [show (e.s.reserveWanted e.tid e.gid qn).wanting e.gid qn = true from hu, if_true, finish, hp, Park.written, Env.logWord]
    rfl

/-- A scalar result changes no field but registers and pending results. -/
theorem Env.putScalar_errLog (e : Env) (k : Nat) (d : Opd) (x : Nat) (g : Group) : (e.putScalar k d x g).errLog = g.errLog := by
  unfold Env.putScalar
  induction e.execSlices k generalizing g with
  | nil => rfl
  | cons c cs ih =>
    rw [List.foldl_cons, ih]
    cases d <;> rfl

/-- MGRP under its conditions (R182): `out` is where `.z` writes its zero rows. -/
theorem mgrp_effect (hx : e.exec f.k ≠ 0) (h : Issues (.mgrp f) s e) {src p list out : Nat} {v : List Nat} {z : Bool} (hz : (f.m.val == 1) = z)
    (ha : e.agreed f.k ([f.a, f.b, f.c] ++ if z then [Opd.plus f.c 1] else []) = .ok (src :: p :: list :: v)) (hv : (v[0]?).getD 0 = out)
    (hguard : guardC (1 ≤ fld p 0 16 && fld p 0 16 ≤ 1024 && 1 ≤ fld p 16 16 && fld p 16 16 ≤ 1024 && (!z || 1 ≤ fld p 48 16)) (flt 0x01) = .ok ())
    (hs : e.teamRanges false [(src, 4 * fld p 0 16)] = .ok ()) :
    let r := mgrpRun (fld p 16 16) (fld p 32 16) ((List.range (fld p 0 16)).map fun i => leNat (e.ownBytes ((src + 4 * i) % 2 ^ 19) 4))
    let zr := if z then r.2.1.map fun k => (low 64 (out + k * fld p 48 16 * 64), fld p 16 16 * 128) else []
    let rs := (list, 16 * r.1.length) :: zr
    e.teamRanges true rs = .ok () → e.linesFit (e.ownLines rs) 0 = true →
    let g := (e.putScalar f.k f.d r.1.length e.g).takeLines (e.ownLines rs) 0
    let t0 := e.s.putG e.gid (if r.2.2.1 || 2 ^ 32 ≤ r.2.2.2 then g.raiseAll fIOV else g)
    let t1 := if r.1 == [] then t0 else e.putOwn t0 list (r.1.flatMap Sched.bytes)
    Effect (.mgrp f) s e (· = e.wipeRanges (zr.foldl (fun t x => e.putOwn t x.1 (List.replicate x.2 0)) t1) rs) := by
  intro r zr rs hr hl g t0 t1
  refine ⟨_, onceWord_next h (.inl hx) (t := _) ?_, rfl⟩
  subst hz hv
  simp only [ha, chk_ok_bind, List.getElem?_cons_zero, List.getElem?_cons_succ, Option.getD_some]
  rw [show guardC _ (flt 0x01) = .ok () from hguard, chk_ok_bind, hs, chk_ok_bind, show e.teamRanges true _ = .ok () from hr, chk_ok_bind,
    show e.needFit none _ = .ok () from Env.needFit_ok hl, chk_ok_bind]
  rfl

/-- MERR (R184). -/
theorem merr_effect (hx : e.exec f.k ≠ 0) (h : Issues (.merr f) s e) :
    let ovf := if e.g.errOvf then 2 ^ 62 else 0
    (f.m = 0 → Effect (.merr f) s e (· = e.s.putG e.gid (e.putScalar f.k f.d
      (match e.g.errLog with | (_, c) :: _ => c.toNat ||| ovf | [] => ovf) e.g))) ∧
    (f.m = 1 → Effect (.merr f) s e (· = e.s.putG e.gid (e.putScalar f.k f.d
      (match e.g.errLog with | (a, _) :: _ => a.toNat | [] => 0) e.g))) ∧
    (f.m = 2 → Effect (.merr f) s e (· = e.s.putG e.gid { e.putScalar f.k f.d e.g.errLog.length e.g with
      errLog := e.g.errLog.tail, errOvf := false })) := by
  intro ovf
  refine ⟨fun hm => ⟨_, onceWord_next h (.inl hx) (t := _) ?_, rfl⟩, fun hm => ⟨_, onceWord_next h (.inl hx) (t := _) ?_, rfl⟩,
    fun hm => ⟨_, onceWord_next h (.inl hx) (t := _) ?_, rfl⟩⟩
  · simp only [hm]
    cases e.g.errLog <;> rfl
  · simp only [hm]
    cases e.g.errLog <;> rfl
  · refine Eq.trans (b := .ok (.ok (e.s.putG e.gid { e.putScalar f.k f.d e.g.errLog.length e.g with
      errLog := (e.putScalar f.k f.d e.g.errLog.length e.g).errLog.tail, errOvf := false }))) ?_ (by rw [Env.putScalar_errLog])
    simp only [hm]
    generalize e.g.errLog = l
    cases l <;> rfl

end

/-- Settles O39: MSEQ by `mseq_list`, `mseqG_forks` and `mseqG_resumes`, MGRP by `mgrp_effect`, MERR by `merr_effect`. -/
theorem sequencerWordsComplete : Obligations.SequencerWordsComplete := by
  unfold Obligations.SequencerWordsComplete
  intro s e _
  refine ⟨fun f blk q list h hx hp hm ha h16 hb h1 h2 h3 h4 hr hl => ?_,
    fun f blk q list kb vb par x h hx hp hm ha h16 hb h1 h2 h3 h4 hbb hb0 hq hsz hr hc hl => ?_, fun f qn h hx hp => mseqG_resumes hx h hp,
    fun t tm qn x ht hx => ⟨State.reserveWanted_full ht hx, fun id o ho hfree hroom rs hk => State.reserveWanted_one ht hx ho hfree hroom hk⟩,
    fun f src p list out h hx hm ha h1 h2 h3 h4 h5 hs hr hl => ?_, fun f src p list h hx hm ha h1 h2 h3 h4 hs hr hl => ?_,
    fun f h hx => merr_effect hx h⟩
  · refine ⟨_, mseq_list hx h hp hm ha h16 hb (blockNum_guard h1 h2 h3 h4) hr hl, ?_⟩
    exact ite_beq_nil ..
  · have hf := mseqG_forks hp (mseqG_body hx h hp hm ha h16 hb (blockNum_guard h1 h2 h3 h4) hbb hb0 hq hsz hr hc hl)
    unfold Env.mseqWritten at hf
    dsimp only at hf
    rw [ite_beq_nil] at hf
    exact hf
  · have he := mgrp_effect (z := true) (v := [out]) hx h (beq_iff_eq.mpr hm) ha rfl
      (by simp only [decide_eq_true h1, decide_eq_true h2, decide_eq_true h3, decide_eq_true h4, decide_eq_true h5]; rfl) hs hr hl
    simp only [ite_beq_nil] at he
    exact he
  · have he := mgrp_effect (z := false) (v := []) hx h (beq_false_of_ne hm) ha rfl
      (by simp only [decide_eq_true h1, decide_eq_true h2, decide_eq_true h3, decide_eq_true h4]; rfl) hs hr hl
    simp only [ite_beq_nil] at he
    exact he

end Sys2Proof.Machine
end

section
/-! SUPPORT. A parked group that goes on, in a state whose groups do not stand in ascending order. -/

namespace Sys2Proof.Machine

/-- Two groups in descending order, and a team. -/
def unsortedState : State := { teams := [(0, { team := 0 })], groups := [(1, {}), (0, {})] }

/-- Refutes O32: `State.releaseTo` changes the group where it stands in the table, and the statement puts it at its place in ascending
order; where a table is not in that order these differ, and the statement holds of every state. -/
theorem not_teamEventsComplete : ¬ Obligations.TeamEventsComplete := by
  intro h
  obtain ⟨-, -, -, -, -, -, hrelease, -⟩ := h.1 unsortedState 0 { team := 0 } rfl
  have hlen := congrArg (fun t : State => t.groups.length) (hrelease 0 0 {} {} rfl rfl)
  revert hlen
  decide

end Sys2Proof.Machine
end

section
/-! SUPPORT. Bytes placed in memory, and O50: what reaches the module from outside. -/

namespace Sys2Proof.Machine

/-! ### What a placed range leaves and what it shows -/

/-- Of writes that name distinct addresses, those of 0 may be left out where 0 stands. -/
theorem mget_mapply_nonzero {m : Memory} {ws : List Host.Cell} (hz : ∀ w ∈ ws, mget m w.1 = 0)
    (hd : ws.Pairwise fun v w => v.1 ≠ w.1) (x : Nat) : mget (mapply m (ws.filter fun c => c.2 != 0)) x = mget (mapply m ws) x := by
  induction ws generalizing m with
  | nil => rfl
  | cons w ws ih =>
    obtain ⟨hw, hd⟩ := List.pairwise_cons.mp hd
    by_cases h0 : w.2 = 0
    · rw [List.filter_cons_of_neg (by simp [h0]), ih (fun v hv => hz v (List.mem_cons_of_mem _ hv)) hd]
      refine mget_mapply_congr (m' := mset m w.1 w.2) ws ?_
      by_cases hx : x = w.1
      · rw [hx, mget_mset_same, h0, hz w (by simp)]
      · rw [mget_mset_ne _ _ hx]
    · rw [List.filter_cons_of_pos (by simpa using h0)]
      refine ih (m := mset m w.1 w.2) (fun v hv => ?_) hd
      rw [mget_mset_ne _ _ (hw v hv).symm, hz v (List.mem_cons_of_mem _ hv)]

theorem cells_distinct (a : Nat) (bs : List Byte) : (cells a bs).Pairwise fun v w => v.1 ≠ w.1 := by
  unfold cells
  rw [List.pairwise_map, ← List.pairwise_map (f := Prod.snd) (R := fun i j => a + i ≠ a + j), List.zipIdx_map_snd]
  exact List.Pairwise.imp (by omega) (List.nodup_range' (n := bs.length) (s := 0))

theorem mem_cells_range {a : Nat} {bs : List Byte} {c : Host.Cell} (h : c ∈ cells a bs) : a ≤ c.1 ∧ c.1 < a + bs.length := by
  obtain ⟨x, hx, rfl⟩ := List.mem_map.mp h
  have := List.snd_lt_of_mem_zipIdx hx
  exact ⟨by omega, by omega⟩

namespace State

theorem mget_place_out (s : State) {k x : Nat} (b : Blob) (hx : x < k ∨ k + b.len ≤ x) : mget (s.place k b).mem x = mget s.mem x := by
  unfold place
  rw [mget_mapply_out, mget_filter s.mem fun a => a < k || k + b.len ≤ a, if_pos (by simpa using hx)]
  intro w hw
  obtain ⟨c, hc, rfl⟩ := List.mem_map.mp hw
  have : c.1 < b.len := by simpa using (List.mem_filter.mp hc).2
  show k + c.1 ≠ x
  omega

/-- Placing some bytes writes them. -/
theorem mget_place_ofBytes (s : State) (k : Nat) (bs : List Byte) (x : Nat) :
    mget (s.place k (Blob.ofBytes bs)).mem x = mget (mwrite s.mem k bs) x := by
  by_cases hx : x < k ∨ k + bs.length ≤ x
  · rw [s.mget_place_out _ hx, mget_mwrite_out _ _ hx]
  have hcells : (((Blob.ofBytes bs).cells.filter fun c => c.1 < (Blob.ofBytes bs).len).map fun c => (k + c.1, c.2)) =
      (cells k bs).filter fun c => c.2 != 0 := by
    have hall : ((Blob.ofBytes bs).cells.filter fun c => c.1 < (Blob.ofBytes bs).len) = (Blob.ofBytes bs).cells :=
      List.filter_eq_self.mpr fun c hc => decide_eq_true (by simpa [Blob.ofBytes] using (mem_cells_range (List.mem_filter.mp hc).1).2)
    rw [hall]
    simp [Blob.ofBytes, cells, List.filter_map, Function.comp_def]
  show mget (mapply (s.mem.filter fun c => _) _) x = _
  rw [hcells, mget_mapply_nonzero ?_ (cells_distinct k bs), mapply_cells, mget_mwrite_in _ s.mem bs (by omega) (by omega)]
  intro w hw
  have := mem_cells_range hw
  rw [mget_filter s.mem fun a => a < k || k + (Blob.ofBytes bs).len ≤ a, if_neg]
  have hlen : (Blob.ofBytes bs).len = bs.length := rfl
  rw [Bool.or_eq_true, decide_eq_true_eq, decide_eq_true_eq, hlen]
  omega

/-- What is placed stands over every completed launch. -/
theorem hImage_place_in (s : State) {k x : Nat} (b : Blob) (h : k ≤ x) (h' : x < k + b.len) :
    mget (hImage (s.place k b)).data x = mget (s.place k b).mem x := by
  rw [hImage_data]
  have hout : ∀ l ∈ (s.place k b).launches, ∀ c ∈ l.2.brought.b, c.1 ≠ x := by
    intro l hl c hc hcx
    obtain ⟨l, hl, rfl⟩ := List.mem_map.mp hl
    unfold Launch.brought Launch.isDone at hc
    cases hs : l.2.state <;> simp [hs] at hc
    omega
  generalize (s.place k b).mem = m
  generalize (s.place k b).launches = ls at hout
  induction ls generalizing m with
  | nil => rfl
  | cons l ls ih =>
    rw [List.foldl_cons, ih _ fun l hl => hout l (List.mem_cons_of_mem _ hl), mget_mapply_out _ _ (hout l (by simp))]

theorem mread_hImage_place (s : State) (k : Nat) (bs : List Byte) :
    mread (hImage (s.place k (Blob.ofBytes bs))).data k bs.length = bs := by
  rw [mread_congr (m' := mwrite s.mem k bs), mread_mwrite]
  intro x h h'
  rw [s.hImage_place_in _ h h', mget_place_ofBytes]

end State

/-! ### Mailbox words, packets, flits and the side-band -/

theorem Packet.accepted_iff (addrs : List Nat) (p : Packet) : Packet.accepted addrs p = true ↔ 64 ≤ p.frame ∧ p.frame ≤ 9216 ∧
    (p.net = .ipv4 ∨ p.net = .ipv6) ∧ addrs[p.port]? = some p.dst ∧ p.udpPort = 4791 ∧ p.reliable = true ∧ p.atomic = false := by
  have hnet : (p.net != .other) = true ↔ p.net = .ipv4 ∨ p.net = .ipv6 := by cases p.net <;> decide
  simp only [Packet.accepted, Bool.and_eq_true, hnet, decide_eq_true_eq, beq_iff_eq, Bool.not_eq_true', and_assoc]

theorem execPacketReceive_accepted {s : State} {p : Packet} (hb : s.bootHalted = false) (hp : Packet.accepted s.portAddr p = true) :
    exec (.packetReceive p) s = .next (s.packetOp p.op) := by
  show Host.Outcome.next (if _ then _ else _) = _
  rw [hb, hp]; rfl

theorem execFlitReceive_taken {s : State} {f : Flit} (hb : s.bootHalted = false) (hf : f.data.fits = true) (ht : f.ok = true ∨ 8 ≤ f.tries) :
    exec (.flitReceive f) s = .next (match f.data with
      | .coll cid entry step rank m => s.collFlit cid entry step rank (!f.ok) m
      | .remote target bs => s.flitBytes (physKey 0 7 target) (!f.ok) bs
      | .write addr bs => s.flitBytes (if bitOf addr 43 then physKey 0 2 (fld addr 0 43) else physKey 0 1 (fld addr 0 43)) (!f.ok) bs) := by
  have hr : (!f.ok && decide (f.tries < 8)) = false := by
    rcases ht with h | h
    · rw [h]; rfl
    · rw [decide_eq_false (by omega), Bool.and_false]
  show Host.Outcome.next (if _ then _ else if _ then _ else _) = _
  rw [hb, hf, hr]; rfl

theorem State.ctxState_eq {s : State} {cid : Nat} {c : Ctx} (hc : tget cid s.ctxs = some c) : s.ctxState cid = c.state := by
  rw [State.ctxState, hc]

/-- What the host reads of an existing context. -/
theorem State.hostRead_of_ctx {s : State} {cid : Nat} {c : Ctx} (hc : tget cid s.ctxs = some c) (block off len : Nat) :
    s.hostRead cid block off len =
      if block < 16 && off < 65536 && block * 65536 + off + len ≤ 2 ^ 20 then
        if c.state == .idle then s.report (.bytes cid (mread (hImage s).data (physKey cid 6 (block * 65536 + off)) len)) else s.report .refused
      else if block == 16 && off + len ≤ 4096 || block == 17 && off + len ≤ 512 || block == 18 && 8 ≤ off && off + len ≤ 16 then
        s.report (.bytes cid ((List.range len).map fun i => c.blockByte block (off + i)))
      else s.report .refused := by
  rw [State.hostRead, hc]

/-- Settles O50. A word of INTAIL that lands in a save record is read back there, since a placed range stands over what launches brought. -/
theorem messagesComplete : Obligations.MessagesComplete := by
  intro s cid c hc ctxIs
  have hput : ∀ c' : Ctx, ctxIs (.next (s.putC cid c')) c' := fun c' =>
    ⟨_, rfl, tget_tput_same .., rfl, fun _ hk => tget_tput_ne _ _ hk⟩
  have hmod : ∀ f : Ctx → Ctx, ctxIs (.next (s.modC cid f)) (f c) := fun f =>
    ⟨_, rfl, by rw [State.modC, tget_tmod_same, hc]; rfl, rfl, fun _ hk => tget_tmod_ne _ _ hk⟩
  have hword : ∀ v, exec (.intailWrite cid v) s = .next
      (if c.state == .switchedOut then s.place (intailKey c) (Blob.ofBytes (leBytes 4 v.toNat)) else s.putC cid (c.setIntail v)) := fun v => by
    show Host.Outcome.next (match tget cid s.ctxs with | some c => _ | none => _) = _
    rw [hc]
  refine ⟨fun v hs => ?_, fun v hs h64 hle => ?_, fun v hs hout => ?_, fun v clr => ?_, Packet.accepted_iff s.portAddr,
    fun hb => ⟨fun p => ?_, fun f => ?_⟩, fun p hb hp => ?_, fun p hb hp => ?_, fun f hb hf hok ht => ?_, fun f hb hf ht => ?_,
    fun f hf => ?_, rfl, ⟨_, rfl⟩, rfl,
    fun consent h => ?_, fun h => ?_⟩
  · rw [hword, hs]
    have hlen : (leBytes 4 v.toNat).length = 4 := leBytes_length ..
    have hread := s.mread_hImage_place (intailKey c) (leBytes 4 v.toNat)
    rw [hlen] at hread
    exact ⟨_, rfl, hread, rfl, fun a ha => s.mget_place_out _ (by rw [intailKey, Blob.ofBytes, hlen]; exact ha), rfl⟩
  · rw [hword, if_neg (by simpa using hs), Ctx.setIntail, if_pos (by simpa using ⟨h64, hle⟩)]
    exact hput _
  · rw [hword, if_neg (by simpa using hs), Ctx.setIntail, if_neg (by rw [Bool.and_eq_true, decide_eq_true_eq, decide_eq_true_eq]; omega)]
    exact hput _
  · have hovr : (if clr then false else c.ovr) = (c.ovr && !clr) := by cases clr <;> simp
    rw [hovr]
    exact hmod fun c => { c with outack := v, acked := c.ackedAt c.outprog v, ovr := c.ovr && !clr }
  · show Host.Outcome.next (if _ then _ else _) = _
    rw [hb]; rfl
  · show Host.Outcome.next (if _ then _ else _) = _
    rw [hb]; rfl
  · show Host.Outcome.next (if _ then _ else if _ then _ else _) = _
    rw [hb, hp]; rfl
  · rw [execPacketReceive_accepted hb hp]
    refine ⟨fun slot len bs ho hslot hlen => ?_, fun target bs ho => ?_, fun off bs ho hlen => ?_, fun block off len ho => ?_,
      fun a bs ho ha hend => ?_, fun a len ho ha hend => ?_, fun bs ho => ⟨fun i hi hlen => ?_, fun hi => ?_⟩⟩
    · rw [ho, State.packetOp, if_pos (by simpa using ⟨hslot, hlen⟩)]
      exact hmod fun c => { c with inbound := mwrite (mwrite c.inbound (slotBytes * slot) (leBytes 8 len)) (slotBytes * slot + 8) bs }
    · rw [ho, State.packetOp, hc]
    · rw [ho, State.packetOp, State.ctxState_eq hc]
      exact ⟨fun hi => by rw [if_pos (by simpa using ⟨hi, hlen⟩)], fun hi => by rw [if_neg (by simp [hi])]⟩
    · rw [ho, State.packetOp, State.hostRead_of_ctx hc]
      refine ⟨fun hblock hoff hlen => ?_, fun hother => ?_⟩
      · rw [if_pos (by simpa using ⟨⟨hblock, hoff⟩, hlen⟩)]
        exact ⟨fun hi => by rw [if_pos (by simpa using hi)], fun hi => by rw [if_neg (by simpa using hi)]⟩
      · rw [if_neg (by simp; omega), if_pos (by simp; omega)]
    · rw [ho, State.packetOp, if_pos (by simpa [reservedOk] using ⟨ha, hend⟩)]; rfl
    · rw [ho, State.packetOp, if_pos (by simpa [reservedOk] using ⟨ha, hend⟩)]
    · rw [ho, State.packetOp, hi]
      exact congrArg _ (if_pos (by simpa using hlen))
    · rw [ho, State.packetOp, hi]
  · show Host.Outcome.next (if _ then _ else if _ then _ else _) = _
    rw [hb, hf, hok, decide_eq_true ht]; rfl
  · rw [execFlitReceive_taken hb hf ht]
    refine ⟨fun target bs hd => by rw [hd], fun addr bs hd => ?_, fun entry step rank m hd => by rw [hd]⟩
    have hkey : (if bitOf addr 43 then physKey 0 2 (fld addr 0 43) else physKey 0 1 (fld addr 0 43)) =
        physKey 0 (if addr / 2 ^ 43 % 2 = 1 then 2 else 1) (addr % 2 ^ 43) := by
      by_cases h43 : addr / 2 ^ 43 % 2 = 1
      · rw [bitOf, h43]; simp [fld]
      · rw [bitOf, beq_eq_false_iff_ne.mpr h43, if_neg h43]; simp [fld]
    rw [hd, ← hkey]
  · show Host.Outcome.next (if _ then _ else _) = _
    rw [hf, Bool.not_false, Bool.or_true]; rfl
  · have hor : (consent || s.debugOpen 2) = true := by simpa using h
    show Host.Outcome.next (s.report (if _ then _ else _)) = _
    rw [hor]; rfl
  · show Host.Outcome.next (s.report (if _ then _ else _)) = _
    rw [h]; rfl

end Sys2Proof.Machine
end

section
/-! SUPPORT. O40: the copy, prefetch and bulk words, each of which forks an operation. -/

namespace Sys2Proof.Machine

/-- An operation of no bytes ends at once. -/
def State.endedIf (id : Nat) (none' : Bool) (t : State) : State :=
  if none' then (match tget id t.ops with | some o => t.endOp id o [] 2 none | none => t) else t

theorem State.endedIf_spec (id n : Nat) (t : State) : (¬n = 0 → t.endedIf id (n == 0) = t) ∧
    (n = 0 → ∀ o, tget id t.ops = some o → t.endedIf id (n == 0) = t.endOp id o [] 2 none) := by
  refine ⟨fun h => if_neg (by simpa using h), fun h o ho => ?_⟩
  rw [endedIf, if_pos (by simpa using h), ho]

section
variable {s : State} {e : Env} {f : RWord} {sp : Spec} {lines : List Nat} {tm : Team} {v : Nat → Nat}

/-- A word that moves rows forks them once its checks pass (R239). -/
theorem Env.copyRun_forks {rs : List (Nat × Nat × Nat)} (decl handle : Nat) (priv : Bool) (hb : e.slotBusy sp = false) (hq : e.tcuFull = false)
    (hc : e.chipChecks sp (rs.map fun r => r.2) (rs.map fun r => (r.1, r.2.2)) = .ok ())
    (hs : e.supply (rs.map fun r => (r.1, r.2.2)) 0 = .ok (lines, tm)) :
    e.copyRun sp rs decl handle priv = .ok (.ok ((e.fork (e.s.putT e.tid tm) sp lines
      { gid := e.gid, slices := 0, kind := .rows (e.rowsOf rs), mode := sp.mode, decl := decl, handle := BitVec.ofNat 64 handle,
        mem := e.memImage, priv := priv }).endedIf e.s.nextOp (decl == 0))) := by
  unfold Env.copyRun
  dsimp only
  rw [hc, chk_ok_bind, hs, chk_ok_bind]
  simp only [hb, hq, Bool.false_eq_true, if_false]
  unfold State.endedIf
  generalize e.fork _ _ _ _ = t
  cases decl == 0
  · rfl
  · cases tget e.s.nextOp t.ops <;> rfl

/-- A word whose bytes are known forks them. -/
theorem Env.bytesRun_forks {bs : List (Option Byte)} (dst status : Nat) (priv : Bool) (hb : e.slotBusy sp = false) (hq : e.tcuFull = false)
    (hs : e.supply [(dst, bs.length)] 0 = .ok (lines, tm)) :
    e.bytesRun sp dst bs status priv = .ok (.ok (e.fork (e.s.putT e.tid tm) sp lines
      { gid := e.gid, slices := 0, kind := .rows [{ dst := dst, bytes := bs, len := bs.length }], mode := sp.mode, decl := bs.length,
        handle := BitVec.ofNat 64 dst, result := status, priv := priv })) := by
  unfold Env.bytesRun
  rw [hs, chk_ok_bind]
  simp only [hb, hq, Bool.false_eq_true, if_false]
  rfl

/-- The rows of a box copy (R241), row by row of its planes. -/
theorem boxRows_eq (nx ny nz : Nat) (row : Nat → Nat → Nat × Nat × Nat) :
    ((List.range nz).flatMap fun z => (List.range ny).filterMap fun y => if nx == 0 then none else some (row y z)) =
      if nx = 0 then [] else (List.range nz).flatMap fun z => (List.range ny).map fun y => row y z := by
  by_cases h : nx = 0 <;> simp [h, List.filterMap_eq_map']

/-- The rows of GTHR and SCTR all have one length, so where they hold no byte none is left. -/
theorem laneRows_filter (gather : Bool) : (e.laneRows f v gather).filter (fun r => r.2.2 != 0) =
    if v 2 = 0 then [] else e.laneRows f v gather := by
  by_cases h : v 2 = 0 <;> cases gather <;> simp [Env.laneRows, h]

theorem cpy_effect (h : Issues (.cpy f) s e) (hx : e.exec f.k ≠ 0) (hb : e.slotBusy sp = false) (hq : e.tcuFull = false)
    (hp : e.params f [f.d, f.a] [0, 1, 2, 3] = .ok v) (hsp : e.spec (v 5) [0, 1] = .ok sp) :
    let nx := fld (v 2) 0 32
    let at' := fun (base y z st : Nat) => ofInt 64 ((base : Int) + (z : Int) * sgn 32 (st / 2 ^ 32) + (y : Int) * sgn 32 (low 32 st))
    let rs := if nx = 0 then [] else (List.range (fld (v 2) 48 16)).flatMap fun z =>
      (List.range (fld (v 2) 32 16)).map fun y => (at' (v 0) y z (v 4), at' (v 1) y z (v 3), nx)
    privOk (hasPriv f) ((v 0, nx) :: rs.map fun r => (r.1, r.2.2)) = .ok () →
    e.chipChecks sp (rs.map fun r => r.2) (rs.map fun r => (r.1, r.2.2)) = .ok () →
    e.supply (rs.map fun r => (r.1, r.2.2)) 0 = .ok (lines, tm) →
    exec (.cpy f) s = .next (e.done (.cpy f) ((e.fork (e.s.putT e.tid tm) sp lines
      { gid := e.gid, slices := 0, kind := .rows (e.rowsOf rs), mode := sp.mode, decl := nx * fld (v 2) 32 16 * fld (v 2) 48 16,
        handle := BitVec.ofNat 64 (v 0), mem := e.memImage, priv := hasPriv f }).endedIf
          e.s.nextOp (nx * fld (v 2) 32 16 * fld (v 2) 48 16 == 0))) := by
  intro nx at' rs hpriv hc hs
  refine onceWord_next h (.inl hx) ?_
  rw [hp, chk_ok_bind]
  dsimp only
  rw [boxRows_eq nx (fld (v 2) 32 16) (fld (v 2) 48 16) fun y z => (at' (v 0) y z (v 4), at' (v 1) y z (v 3), nx), show privOk _ _ = _ from hpriv,
    chk_ok_bind, hsp, chk_ok_bind]
  exact Env.copyRun_forks _ _ _ hb hq hc hs

/-- GTHR and SCTR (R243): a row for each executing lane, or none where the rows hold no byte. -/
theorem laneCopy_forks (gather : Bool) (hb : e.slotBusy sp = false) (hq : e.tcuFull = false)
    (hp : e.params f [f.d, f.a] [0, 1, 2, 3] = .ok v) (hsp : e.spec (v 5) [0, 1] = .ok sp) (hlen : v 2 ≤ 2 ^ 20) :
    let rs := e.laneRows f v gather
    let kept := if v 2 = 0 then [] else rs
    privOk (hasPriv f) (rs.map fun r => (r.1, r.2.2)) = .ok () →
    e.chipChecks sp (kept.map fun r => r.2) (kept.map fun r => (r.1, r.2.2)) = .ok () →
    e.supply (kept.map fun r => (r.1, r.2.2)) 0 = .ok (lines, tm) →
    e.laneCopy f gather = .ok (.ok ((e.fork (e.s.putT e.tid tm) sp lines
      { gid := e.gid, slices := 0, kind := .rows (e.rowsOf kept), mode := sp.mode, decl := (e.execLanes f.k).length,
        handle := BitVec.ofNat 64 (v 0), mem := e.memImage, priv := hasPriv f }).endedIf e.s.nextOp ((e.execLanes f.k).length == 0))) := by
  intro rs kept hpriv hc hs
  have hl : (e.laneRows f v gather).length = (e.execLanes f.k).length := by simp [Env.laneRows]
  unfold Env.laneCopy
  rw [hp, chk_ok_bind, chk_guard_bind hlen]
  dsimp only
  rw [show privOk _ _ = _ from hpriv, chk_ok_bind, hsp, chk_ok_bind, hl, laneRows_filter]
  exact Env.copyRun_forks _ _ _ hb hq hc hs

theorem pfch_effect (h : Issues (.pfch f) s e) (hx : e.exec f.k ≠ 0) (hb : e.slotBusy sp = false) (hq : e.tcuFull = false)
    (hp : e.params f [f.a] [0, 3] = .ok v) (hlen : v 1 ≤ 2 ^ 32) (hsp : e.spec (v 2) [0, 1, 15] = .ok sp) :
    exec (.pfch f) s = .next (e.done (.pfch f) (e.fork e.s sp []
      { gid := e.gid, slices := 0, kind := .pfch (v 0) (v 1), mode := sp.mode, decl := 0, handle := BitVec.ofNat 64 (v 0) })) := by
  refine onceWord_next h (.inl hx) ?_
  rw [hp, chk_ok_bind, chk_guard_bind hlen, hsp, chk_ok_bind]
  simp only [hb, hq, Bool.false_eq_true, if_false]
  rfl

/-- The operation of a bulk job, its mode aside. -/
abbrev Env.bulkOp (e : Env) (f : RWord) (v : Nat → Nat) (mode : Nat) : EngOp :=
  { gid := e.gid, slices := 0, kind := .rows (e.rowsOf (if v 2 = 0 then [] else [(v 0, v 1, v 2)])), mode := mode, decl := v 2,
    handle := BitVec.ofNat 64 (v 0), mem := e.memImage, priv := hasPriv f, engine := .bce, chunks := chunksOf (v 0) (v 2) }
/-- A forked bulk job enters an engine's queue; one of no bytes ends. -/
abbrev Env.bulkQueued (e : Env) (v : Nat → Nat) (t : State) : State :=
  (if v 2 = 0 then t else t.queueJob e.core0 e.s.nextOp (chunksOf (v 0) (v 2))).endedIf e.s.nextOp (v 2 == 0)

/-- The ends of a bulk job, whose addresses its checks look at (R252). -/
abbrev bulkEnds (v : Nat → Nat) : List Nat := if v 2 == 0 then [] else [v 0, v 1, v 0 + v 2 - 1, v 1 + v 2 - 1]

theorem bulkEnds_inMem (hm : v 2 = 0 ∨ v 0 + v 2 ≤ 2 ^ 55 ∧ v 1 + v 2 ≤ 2 ^ 55) : ∀ a ∈ bulkEnds v, a < 2 ^ 55 := by
  intro a ha
  unfold bulkEnds at ha
  by_cases h0 : v 2 = 0
  · simp [h0] at ha
  · rw [if_neg (by simpa using h0)] at ha
    simp only [List.mem_cons, List.not_mem_nil, or_false] at ha
    omega

theorem bulkEnds_mapped (hm : v 2 = 0 ∨ v 0 + v 2 ≤ 2 ^ 55 ∧ v 1 + v 2 ≤ 2 ^ 55) :
    (bulkEnds v).find? (fun a => decide (2 ^ 56 ≤ a)) = none ∧ (bulkEnds v).find? (fun a => !inMem a) = none := by
  refine ⟨find?_none_of_forall fun a ha => decide_eq_false ?_, find?_none_of_forall fun a ha => ?_⟩
  · have := bulkEnds_inMem hm a ha
    omega
  · rw [inMem, decide_eq_true (bulkEnds_inMem hm a ha)]; rfl

theorem bulkRows_eq (e : Env) (v : Nat → Nat) : (if v 2 == 0 then [] else e.rowsOf [(v 0, v 1, v 2)]) =
    e.rowsOf (if v 2 = 0 then [] else [(v 0, v 1, v 2)]) := by
  by_cases h0 : v 2 = 0 <;> simp [h0, Env.rowsOf]

theorem Env.bulkQueued_eq (t : State) : e.bulkQueued v t = if v 2 == 0 then (match tget e.s.nextOp t.ops with
    | some o => t.endOp e.s.nextOp o [] 2 none | none => t) else t.queueJob e.core0 e.s.nextOp (chunksOf (v 0) (v 2)) := by
  unfold Env.bulkQueued State.endedIf
  by_cases h0 : v 2 = 0 <;> simp [h0]

theorem bulk_control (h : Issues (.bulk f) s e) (hctl : e.g.isCtl = true) (hp : e.params f [f.d, f.a] [0, 3] = .ok v) (hlen : v 2 ≤ 2 ^ 40)
    (hpriv : privOk (hasPriv f) [(v 0, v 2)] = .ok ()) (hm : v 2 = 0 ∨ v 0 + v 2 ≤ 2 ^ 55 ∧ v 1 + v 2 ≤ 2 ^ 55) (h3 : v 3 = 0xF0) :
    exec (.bulk f) s = .next (e.done (.bulk f) (e.bulkQueued v (e.fork e.s { mode := 15, q := 0 } [] (e.bulkOp f v 15)))) := by
  refine onceWord_next h (.inr hctl) ?_
  rw [hp, chk_ok_bind, chk_guard_bind hlen, hpriv, chk_ok_bind]
  simp only [hctl, if_true, h3, BEq.rfl, chk_ok_bind]
  rw [(bulkEnds_mapped hm).1, (bulkEnds_mapped hm).2, bulkRows_eq, Env.bulkQueued_eq]
  rfl

theorem bulk_team (h : Issues (.bulk f) s e) (hctl : e.g.isCtl = false) (hx : e.exec f.k ≠ 0) (hb : e.slotBusy sp = false)
    (hp : e.params f [f.d, f.a] [0, 3] = .ok v) (hlen : v 2 ≤ 2 ^ 40) (hpriv : privOk (hasPriv f) [(v 0, v 2)] = .ok ())
    (hm : v 2 = 0 ∨ v 0 + v 2 ≤ 2 ^ 55 ∧ v 1 + v 2 ≤ 2 ^ 55) (hsp : e.spec (v 3) [0, 1, 15] = .ok sp)
    (hs : e.supply (if v 2 = 0 then [] else [(v 0, v 2)]) 0 = .ok (lines, tm)) :
    exec (.bulk f) s = .next (e.done (.bulk f) (e.bulkQueued v (e.fork (e.s.putT e.tid tm) sp lines (e.bulkOp f v sp.mode)))) := by
  refine onceWord_next h (.inl hx) ?_
  have hs' : e.supply (if v 2 == 0 then [] else [(v 0, v 2)]) 0 = .ok (lines, tm) := by
    by_cases h0 : v 2 = 0 <;> simpa [h0] using hs
  rw [hp, chk_ok_bind, chk_guard_bind hlen, hpriv, chk_ok_bind]
  simp only [hctl, Bool.false_eq_true, if_false, hsp, chk_ok_bind]
  rw [(bulkEnds_mapped hm).1, (bulkEnds_mapped hm).2, bulkRows_eq, Env.bulkQueued_eq]
  dsimp only
  rw [hs', chk_ok_bind]
  simp only [hb, Bool.false_eq_true, if_false]
  rfl

theorem ite_beq_zero {α : Type} (n : Nat) (a b : α) : (if n == 0 then a else b) = if n = 0 then a else b := by
  by_cases h : n = 0 <;> simp [h]

/-- The bytes that a compressed source in the scratchpad gives, and its status; one whose value bytes may not be read gives zeros and FAULT (R250). -/
theorem cldx_memory (h : Issues (.cldx f) s e) (hx : e.exec f.k ≠ 0) (hb : e.slotBusy sp = false) (hq : e.tcuFull = false)
    (hp : e.params f [f.d, f.a] [3] = .ok v) (hsp : e.spec (v 2) [0, 1] = .ok sp) :
    let esz := if f.ty == .b32 then 4 else 2
    let ne := (if f.ty == .b32 then 32 else 64) * (f.m.val + 1)
    let most := v 1 + 8 + ne / 8 + ne * esz - 2 ^ 55
    v 0 % esz = 0 → v 1 % 8 = 0 → e.chipChecks sp [(v 1, 8 + ne / 8)] [(v 0, ne * esz)] = .ok () → v 1 < 2 ^ 55 →
    e.supply [(v 0, ne * esz)] 0 = .ok (lines, tm) →
    exec (.cldx f) s = .next (e.done (.cldx f) (e.fork (e.s.putT e.tid tm) sp lines
      { gid := e.gid, slices := 0, kind := .cldx (v 0) (v 1) ne f.ty, mode := sp.mode, decl := ne * esz, handle := BitVec.ofNat 64 (v 0),
        mem := e.memImage, chip := (List.range (if most = 0 then 0 else e.chipReach sp most)).map fun i => e.chipByte (2 ^ 55 + i) })) := by
  intro esz ne most h0 h1 hc hmem hs
  refine onceWord_next h (.inl hx) ?_
  rw [hp, chk_ok_bind, hsp, chk_ok_bind]
  dsimp only
  rw [show guardC (v 0 % esz == 0) _ = .ok () by rw [h0]; rfl, chk_ok_bind, show guardC (v 1 % 8 == 0) _ = .ok () by rw [h1]; rfl, chk_ok_bind,
    hc, chk_ok_bind, if_pos (show inMem (v 1) = true from decide_eq_true hmem), hs, chk_ok_bind]
  rw [← ite_beq_zero most 0 (e.chipReach sp most)]
  simp only [hb, hq, Bool.false_eq_true, if_false]
  rfl

theorem cldx_chip (h : Issues (.cldx f) s e) (hx : e.exec f.k ≠ 0) (hb : e.slotBusy sp = false) (hq : e.tcuFull = false)
    (hp : e.params f [f.d, f.a] [3] = .ok v) (hsp : e.spec (v 2) [0, 1] = .ok sp) :
    let esz := if f.ty == .b32 then 4 else 2
    let ne := (if f.ty == .b32 then 32 else 64) * (f.m.val + 1)
    let r := cldxBytes (fun i => e.chipByte (v 1 + i)) ne f.ty
    let vals := match e.chipByte (v 1), e.chipByte (v 1 + 1) with | some a, some b => leNat [a, b] * esz | _, _ => 0
    let refused := r.2 = 4 ∨ vals ≠ 0 ∧ ∃ flt, e.chipChecks sp [(v 1 + 8 + ne / 8, vals)] [] = .error flt
    v 0 % esz = 0 → v 1 % 8 = 0 → e.chipChecks sp [(v 1, 8 + ne / 8)] [(v 0, ne * esz)] = .ok () → 2 ^ 55 ≤ v 1 →
    ∀ bs st, (refused ∧ bs = List.replicate (ne * esz) (some 0) ∧ st = 4 ∨ ¬refused ∧ (bs, st) = r) →
      e.supply [(v 0, bs.length)] 0 = .ok (lines, tm) →
      exec (.cldx f) s = .next (e.done (.cldx f) (e.fork (e.s.putT e.tid tm) sp lines
          { gid := e.gid, slices := 0, kind := .rows [{ dst := v 0, bytes := bs, len := bs.length }], mode := sp.mode,
            decl := bs.length, handle := BitVec.ofNat 64 (v 0), result := st })) := by
  intro esz ne r vals refused h0 h1 hc hchip bs st hbs hs
  refine onceWord_next h (.inl hx) ?_
  rw [hp, chk_ok_bind, hsp, chk_ok_bind]
  dsimp only
  rw [show guardC (v 0 % esz == 0) _ = .ok () by rw [h0]; rfl, chk_ok_bind, show guardC (v 1 % 8 == 0) _ = .ok () by rw [h1]; rfl, chk_ok_bind,
    hc, chk_ok_bind, if_neg (show ¬inMem (v 1) = true by rw [inMem, decide_eq_true_eq]; omega)]
  have hrun := Env.bytesRun_forks (v 0) st false hb hq hs
  have hchecks : (match e.chipChecks sp [(v 1 + 8 + ne / 8, vals)] [] with | .error _ => true | .ok _ => false) = true ↔
      ∃ flt, e.chipChecks sp [(v 1 + 8 + ne / 8, vals)] [] = .error flt := by
    cases e.chipChecks sp [(v 1 + 8 + ne / 8, vals)] [] <;> simp
  have hrefused : (r.2 == 4 || (r.2 != 4 && vals != 0 && match e.chipChecks sp [(v 1 + 8 + ne / 8, vals)] [] with
      | .error _ => true | .ok _ => false)) = true ↔ refused := by
    rw [Bool.or_eq_true, Bool.and_eq_true, Bool.and_eq_true, hchecks, beq_iff_eq, bne_iff_ne, bne_iff_ne]
    exact ⟨fun h => h.imp_right fun h => ⟨h.1.2, h.2⟩,
      fun h => or_iff_not_imp_left.mpr fun h4 => ⟨⟨h4, (h.resolve_left h4).1⟩, (h.resolve_left h4).2⟩⟩
  rcases hbs with ⟨hr, rfl, rfl⟩ | ⟨hr, heq⟩
  · exact (if_pos (hrefused.mpr hr)).trans hrun
  · refine (if_neg fun h => hr (hrefused.mp h)).trans ?_
    obtain ⟨rfl, rfl⟩ := Prod.mk.inj heq
    exact hrun

end

/-- Settles O40: each word forks its operation, by the lemma on it. -/
theorem copyWordsFork : Obligations.CopyWordsFork := by
  intro s e sp lines tm v hb op ended copies
  have hended : ∀ (n : Nat) (t : State), ended (n = 0) t (t.endedIf e.s.nextOp (n == 0)) := fun n t => t.endedIf_spec e.s.nextOp n
  refine ⟨fun f h hx hp hsp hpriv hq hc hs => ⟨_, cpy_effect h hx hb hq hp hsp hpriv hc hs, hended ..⟩,
    fun f h hx hp hsp hlen hpriv hq hc hs => ⟨_, onceWord_next h (.inl hx) (laneCopy_forks true hb hq hp hsp hlen hpriv hc hs), hended ..⟩,
    fun f h hx hp hsp hlen hpriv hq hc hs => ⟨_, onceWord_next h (.inl hx) (laneCopy_forks false hb hq hp hsp hlen hpriv hc hs), hended ..⟩,
    fun f h hx hp hlen hsp hq => ⟨_, pfch_effect h hx hb hq hp hlen hsp, rfl⟩, fun f h hp hlen hpriv hm => ?_,
    fun f h hx hp hsp hq h0 h1 hc => ⟨fun hmem hs => ⟨_, cldx_memory h hx hb hq hp hsp h0 h1 hc hmem hs, rfl⟩, fun hchip => ?_⟩⟩
  · intro rs o queued
    have hrs : (rs.map fun r => (r.1, r.2.2)) = if v 2 = 0 then [] else [(v 0, v 2)] := by
      by_cases h0 : v 2 = 0 <;> simp [rs, h0]
    refine ⟨fun hctl h3 => ⟨_, bulk_control h hctl hp hlen hpriv hm h3, hended ..⟩, fun hctl hx hsp hs => ?_⟩
    rw [hrs] at hs
    exact ⟨_, bulk_team h hctl hx hb hp hlen hpriv hm hsp hs, hended ..⟩
  · intro r vals runs
    have hrun := @cldx_chip s e f sp lines tm v h hx hb hq hp hsp h0 h1 hc hchip
    refine ⟨fun h4 hvals hs => ⟨_, hrun _ _ (.inr ⟨?_, rfl⟩) hs, rfl⟩, fun hr hs => ⟨_, hrun _ _ (.inl ⟨hr, rfl, rfl⟩) hs, rfl⟩⟩
    rintro (hr | ⟨hv, flt, hf⟩)
    · exact h4 hr
    · rcases hvals with hv0 | hok
      · exact hv hv0
      · exact absurd (hok.symm.trans hf) (by simp)

end Sys2Proof.Machine
end

section
/-! SUPPORT. O41: the words that hand their work to the engines. -/

namespace Sys2Proof.Machine

/-! ### Compressed stores, combining copies and tree builds -/

section
variable {s : State} {e : Env} {f : RWord} {sp : Spec} {lines : List Nat} {tm : Team} {v : Nat → Nat}

theorem csto_effect (h : Issues (.csto f) s e) (hx : e.exec f.k ≠ 0) (hb : e.slotBusy sp = false) (hq : e.tcuFull = false)
    (hp : e.params f [f.d] [1, 3] = .ok v) (hsp : e.spec (v 2) [0, 1] = .ok sp) :
    let bs := cstoBytes f.ty (e.cstoElems f).1 (e.cstoElems f).2
    v 1 < 2 ^ 32 → privOk (hasPriv f) [(v 0, bs.length)] = .ok () → v 0 % 8 = 0 → e.chipChecks sp [] [(v 0, bs.length)] = .ok () →
    bs.length ≤ v 1 → e.supply [(v 0, bs.length)] 0 = .ok (lines, tm) →
    exec (.csto f) s = .next (e.done (.csto f) (e.fork (e.s.putT e.tid tm) sp lines
      { gid := e.gid, slices := 0, kind := .rows [{ dst := v 0, bytes := bs.map some, len := bs.length }], mode := sp.mode,
        decl := bs.length, handle := BitVec.ofNat 64 (v 0), priv := hasPriv f })) := by
  intro bs h1 hpriv h0 hc hlen hs
  refine onceWord_next h (.inl hx) ?_
  have hl : (bs.map some).length = bs.length := List.length_map ..
  rw [← hl] at hs
  rw [hp, chk_ok_bind, chk_guard_bind h1]
  dsimp only
  rw [show privOk _ _ = _ from hpriv, chk_ok_bind, hsp, chk_ok_bind, show guardC (v 0 % 8 == 0) _ = .ok () by rw [h0]; rfl, chk_ok_bind,
    show e.chipChecks sp [] _ = _ from hc, chk_ok_bind]
  refine (chk_guard_bind hlen ..).trans ((Env.bytesRun_forks (v 0) 2 (hasPriv f) hb hq hs).trans ?_)
  rw [hl]

theorem cpyc_effect (h : Issues (.cpyc f) s e) (hx : e.exec f.k ≠ 0) (hb : e.slotBusy sp = false) (hq : e.tcuFull = false)
    (hp : e.params f [f.d] [3] = .ok v) {keys : List Nat} :
    let fetch := bitOf f.lo.val 2
    let w := f.ty.bits / 8
    let addr := fun l => low 64 (v 0 + (match f.b with | .v n => e.g.vr n l * w | _ => 0))
    e.spec (v 1) (if fetch then [0] else [0, 1, 15]) = .ok sp →
    (∀ q a, e.nextSlot sp = some (q, a) → fetch = true → 32 * w ≤ q.slotBytes) → (fetch = true → e.fetchOk = .ok ()) →
    (∀ l ∈ e.execLanes f.k, addr l % w = 0) → ((e.execLanes f.k).mapM fun l => e.wordKey l (addr l)) = .ok keys →
    e.team.charge e.lch.lr.dquota (memLines ((e.execLanes f.k).map fun l => (addr l, w))) 0 = some tm →
    let r := e.tokenSlot (e.s.putT e.tid tm) sp (match e.nextSlot sp with | some (_, a) => if fetch then a else 0 | none => 0)
      (if fetch then 32 * w else 0)
    exec (.cpyc f) s = .next (e.done (.cpyc f) (r.1.modT e.tid fun t => { t with toks := t.toks ++ [(gidG e.gid,
      .cpyc (((e.execLanes f.k).zip keys).map fun x => (x.1, x.2, BitVec.ofNat 64 (e.rd f.ty x.1 f.a),
        BitVec.ofNat 64 (e.rd f.ty x.1 (Opd.plus f.a (if f.ty.bits == 64 then 2 else 1))))) f.m f.ty f.sat fetch r.2.1 r.2.2)] })) := by
  intro fetch w addr hsp hslot hfetch hal hkeys hch r
  refine onceWord_next h (.inl hx) ?_
  have hfind : ∀ p : Nat → Bool, p = (fun l => addr l % w != 0) → (e.execLanes f.k).find? p = none := by
    rintro p rfl
    exact find?_none_of_forall fun l hl => by simp [hal l hl]
  have hkeys' : ∀ g : Nat → Chk Nat, g = (fun l => e.wordKey l (addr l)) → (e.execLanes f.k).mapM g = .ok keys := by
    rintro g rfl
    exact hkeys
  have hch' : ∀ ls : List Nat, ls = memLines ((e.execLanes f.k).map fun l => (addr l, w)) → e.team.charge e.lch.lr.dquota ls 0 = some tm := by
    rintro ls rfl
    exact hch
  have hr : r = e.tokenSlot (e.s.putT e.tid tm) sp (match e.nextSlot sp with | some (_, a) => if fetch then a else 0 | none => 0)
    (if fetch then 32 * w else 0) := rfl
  clear_value r
  rw [hp, chk_ok_bind, show e.spec (v 1) _ = _ from hsp, chk_ok_bind]
  dsimp only
  rcases hns : e.nextSlot sp with _ | ⟨q, a⟩ <;> rw [hns] at hr
  case' some =>
    dsimp only
    rw [show guardC (!fetch || decide (32 * w ≤ q.slotBytes)) flt0B = .ok () by
      cases hf : fetch
      · rfl
      · rw [decide_eq_true (hslot q a hns hf)]; rfl, chk_ok_bind]
  case' none => dsimp only
  all_goals
    rw [hfind]
    · dsimp only
      rw [hkeys', chk_ok_bind, hch']
      · dsimp only
        by_cases hf : fetch = true
        · refine (if_pos hf).trans ?_
          rw [hfetch hf, chk_ok_bind]
          refine (if_neg (by simp [hb])).trans ((if_neg (by simp [hq])).trans ?_)
          rw [hr]; rfl
        · refine (if_neg hf).trans ((if_neg (by simp [hb])).trans ((if_neg (by simp [hq])).trans ?_))
          rw [hr]; rfl
      · rfl
      · rfl
    · rfl

theorem bvhbBuild_effect (h : Issues (.bvhbBuild f) s e) (hx : e.exec f.k ≠ 0) (hb : e.slotBusy sp = false)
    (hp : e.params f [f.d] [0, 1, 2, 3] = .ok v) (h3 : 1 ≤ v 3) (h3' : v 3 ≤ 16) (hsp : e.spec (v 4) [0, 1] = .ok sp) (h0 : v 0 < 2 ^ 55)
    (hal : v 1 % 256 = 0) (h1 : v 1 < 2 ^ 55) {p : Pte} (ht : translate e.s e.cid (v 1) = .ok p) (hty : p.ty = 1 ∨ p.ty = 2)
    (hch : e.team.charge e.lch.lr.dquota (memLines [(v 0, 64), (v 1, v 2)]) 0 = some tm) :
    let chunks := max 1 (chunksOf (v 1) (v 2))
    let o : EngOp := { gid := e.gid, slices := 0, kind := .bvh false (v 0) (v 1) (v 2) (v 3), mode := sp.mode, decl := 0,
                       handle := BitVec.ofNat 64 (v 0), mem := e.memImage, engine := .bce, chunks := chunks }
    exec (.bvhbBuild f) s = .next (e.done (.bvhbBuild f)
      ((e.fork (e.s.putT e.tid tm) sp [] { o with noted := e.s.bvhLines o }).queueJob e.core0 e.s.nextOp chunks)) := by
  intro chunks o
  refine onceWord_next h (.inl hx) ?_
  unfold Env.bvhb
  have hpage : (p.ty == 1 || p.ty == 2) = true := by simpa using hty
  simp only [Bool.false_eq_true, if_false, hp, chk_ok_bind, h3, h3', decide_true, Bool.and_true, Bool.false_or, guardC_true, hsp, hal, BEq.rfl, inMem,
    h0, h1, ht, hpage, hch, hb]
  rw [chk_guard_bind (by omega)]
  rfl

theorem bvhbRefit_effect (h : Issues (.bvhbRefit f) s e) (hx : e.exec f.k ≠ 0) (hb : e.slotBusy sp = false)
    (hp : e.params f [f.d] [3] = .ok v) (hsp : e.spec (v 1) [0, 1] = .ok sp) (h0 : v 0 < 2 ^ 55) :
    let body := refitNodes e.treeMem (v 0)
    let chunks := max 1 (chunksOf body.1.1 body.1.2)
    let o : EngOp := { gid := e.gid, slices := 0, kind := .bvh true (v 0) 0 0 0, mode := sp.mode, decl := 0,
                       handle := BitVec.ofNat 64 (v 0), mem := e.memImage, engine := .bce, chunks := chunks }
    e.team.charge e.lch.lr.dquota (memLines [(v 0, 64), body.1]) body.2 = some tm →
    exec (.bvhbRefit f) s = .next (e.done (.bvhbRefit f)
      ((e.fork (e.s.putT e.tid tm) sp [] { o with noted := e.s.bvhLines o }).queueJob e.core0 e.s.nextOp chunks)) := by
  intro body chunks o hch
  refine onceWord_next h (.inl hx) ?_
  unfold Env.bvhb
  simp only [if_true, hp, chk_ok_bind, Bool.true_or, guardC_true, hsp, inMem, h0, decide_true]
  rw [chk_guard_bind (by omega), show e.team.charge _ (memLines [(v 0, 64), (refitNodes e.treeMem (v 0)).1]) _ = _ from hch]
  refine (if_neg (by simp [hb])).trans ?_
  rfl

end

/-! ### Multicast (R247) -/

section
variable {s : State} {e : Env} {f : RWord} {sp : Spec} {lines : List Nat} {tm : Team} {v : Nat → Nat}

/-- A word that its checks refuse (R353, R360). -/
theorem onceWord_halts {i : Instr} (h : Issues i s e) {body : Env → Chk Res} (hx : exec i s = onceWord i body s) (ha : e.acts i.guard) {x : Flt}
    (hb : body e = .error x) (ho : x.owed = false) : Halts i s e x.code := by
  refine halts_of_fault h hx ?_ ho
  have hn : (e.exec i.guard == 0 && !e.g.isCtl) = false := by rcases ha with ha | ha <;> simp [ha]
  rw [hn, hb]; rfl

theorem mcst_again (h : Issues (.mcst f) s e) (hx : e.exec f.k ≠ 0) {k : Nat} (hk : e.sub.park = .mcst k) :
    ((∀ u ∈ e.clusterTeams, k < (e.s.roots u).length) → Effect (.mcst f) s e (· = e.s)) ∧
    ((∃ u ∈ e.clusterTeams, (e.s.roots u).length ≤ k) → exec (.mcst f) s = .next (e.parked (.mcst f) (.mcst k) e.s)) := by
  refine ⟨fun hall => ⟨_, onceWord_next h (.inl hx) (t := _) ?_, rfl⟩, fun hany => onceWord_parks h (.inl hx) rfl (t := _) ?_⟩
  · simp only [hk]
    exact congrArg Except.ok (if_neg (by simpa using hall))
  · simp only [hk]
    exact congrArg Except.ok (if_pos (by simpa using hany))

/-- A team's k-th MCST that is not done and names another root. -/
def otherRoot (u k root : Nat) (o : Nat × EngOp) : Bool := gidTid o.2.gid == u && !o.2.isDone &&
  (match o.2.kind with | .mcst r _ j _ _ => j == k && r != root | _ => false)

theorem State.mcstRefuse_succ (t : State) (u k root n : Nat) : t.mcstRefuse u k root (n + 1) = match t.ops.find? (otherRoot u k root) with
    | none => t
    | some (id, o) => ((({ t with ops := tdel id t.ops }.giveBack u o.slot).mcstShift u k).mcstFault o.gid o.pc).mcstRefuse u k root n := rfl

theorem State.mcstRefuse_none {t : State} {u k root : Nat} (n : Nat) (ho : t.ops.find? (otherRoot u k root) = none) :
    t.mcstRefuse u k root n = t := by
  cases n with
  | zero => rfl
  | succ n => rw [mcstRefuse_succ, ho]

theorem State.mcstRefuse_some {t : State} {u k root id : Nat} {o : EngOp} (n : Nat) (ho : t.ops.find? (otherRoot u k root) = some (id, o)) :
    t.mcstRefuse u k root (n + 1) =
      ((({ t with ops := tdel id t.ops }.giveBack u o.slot).mcstShift u k).mcstFault o.gid o.pc).mcstRefuse u k root n := by
  rw [mcstRefuse_succ, ho]

theorem mcstFault_halted {t : State} {gid : Nat} {g : Group} (pc : W64) (hg : tget gid t.groups = some g) (hh : g.halted = true) :
    t.mcstFault gid pc = t.putG gid { g with owed := some 0x0B } := by
  rw [State.mcstFault, hg]
  exact if_pos hh

theorem mcstFault_live {t : State} {gid : Nat} {g : Group} {x : SubGang} (pc : W64) (hg : tget gid t.groups = some g) (hh : g.halted = false)
    (hx : g.subs.find? (fun x => x.mask &&& g.liveMask != 0) = some x) : t.mcstFault gid pc =
      faultGroup t gid x.mask { code := 0x0B, slice := lowest x.mask, fpc := pc, rpc := g.pcOf x.mask } := by
  rw [State.mcstFault, hg]
  refine (if_neg (by simp [hh])).trans ?_
  rw [hx]; rfl

/-- The rows that the root of a multicast reads, and those that each member writes (R247). -/
abbrev mcstSrcs (v : Nat → Nat) (me root len : Nat) : List (Nat × Nat) := if me = root ∧ len ≠ 0 then [(v 1, len)] else []
abbrev mcstDsts (v : Nat → Nat) (len : Nat) : List (Nat × Nat) := if len = 0 then [] else [(v 0, len)]

theorem mcstSrcs_eq (v : Nat → Nat) (me root len : Nat) : (if me == root && len != 0 then [(v 1, len)] else []) = mcstSrcs v me root len := by
  by_cases h : me = root ∧ len ≠ 0
  · simp [mcstSrcs, h]
  · rw [mcstSrcs, if_neg h, if_neg (by simpa using h)]

theorem mcstRows_eq (e : Env) (v : Nat → Nat) (me root len : Nat) : (if me == root && len != 0 then e.rowsOf [(0, v 1, len)] else []) =
    e.rowsOf ((mcstSrcs v me root len).map fun r => (0, r.1, r.2)) := by
  by_cases h : me = root ∧ len ≠ 0
  · simp [mcstSrcs, h]
  · rw [mcstSrcs, if_neg h, if_neg (by simpa using h)]; rfl

/-- Since when an MCST waits to be compared. -/
def Env.mcstSince (e : Env) : Nat := match e.sub.park with | .mcstLow n => n | _ => e.s.cycle.toNat

theorem Env.mcstSince_eq {since : Nat} (h : e.sub.park = .mcstLow since ∨ (∀ n, e.sub.park ≠ .mcstLow n) ∧ since = e.s.cycle.toNat) :
    e.mcstSince = since := by
  unfold Env.mcstSince
  split
  · next n hn =>
    rcases h with h | ⟨h, -⟩
    · exact Park.mcstLow.inj (hn.symm.trans h)
    · exact absurd hn (h n)
  · next hn =>
    rcases h with h | ⟨-, rfl⟩
    · exact absurd h (hn since)
    · rfl

/-- The state after an MCST has forked its operation, with those that it refuses and the ones that it pairs. -/
def Env.mcstForked (e : Env) (sp : Spec) (lines : List Nat) (tm : Team) (v : Nat → Nat) (root len k me : Nat) : State :=
  let t0 := e.fork (e.s.putT e.tid { tm with mcstRoots := tm.mcstRoots ++ [root] }) sp lines
    { gid := e.gid, slices := 0, kind := .mcst root len k (v 0) (e.rowsOf ((mcstSrcs v me root len).map fun r => (0, r.1, r.2))),
      mode := sp.mode, decl := len, handle := BitVec.ofNat 64 (v 0), mem := e.memImage }
  (if me = 0 then e.clusterTeams.tail.foldl (fun t u => t.mcstRefuse u k root ((t.roots u).length + 1)) t0 else t0).mcstPair e.clusterTeams k

/-- The last steps of an MCST, once its operands and its checks have passed. -/
def Env.mcstEnd (e : Env) (sp : Spec) (lines : List Nat) (tm : Team) (v : Nat → Nat) (root len k me : Nat) : Chk Res := do
  guardC (((e.s.roots (e.clusterTeams.headD 0))[k]?).all fun r => me == 0 || r == root) flt0B
  if me != 0 && e.mcstHeld e.mcstSince && e.s.lowestWaits (e.clusterTeams.headD 0) k then return .park (.mcstLow e.mcstSince) e.s
  if e.tcuFull then return .park .tcuFull e.s
  let t := e.mcstForked sp lines tm v root len k me
  if me == root && (e.clusterTeams.any fun u => (t.roots u).length ≤ k) then return .park (.mcst k) t
  return .ok t

theorem mcst_body (hb : e.slotBusy sp = false) (hpark : ∀ k, e.sub.park ≠ .mcst k)
    (hn : e.lch.lr.clusterN = 2 ∨ e.lch.lr.clusterN = 4) (hp : e.params f [f.d, f.a] [0, 1, 3] = .ok v) (hsp : e.spec (v 4) [0, 1] = .ok sp)
    {root len me : Nat} (hr : fld (v 2) 0 2 = root) (hl : low 32 (v 3) = len) (hme : e.team.team % e.lch.lr.clusterN = me)
    (hroot : root < e.lch.lr.clusterN) (hlen : len ≠ 0 → 2 ^ 55 ≤ v 0 ∧ (v 0 - 2 ^ 55) / 2 ^ 19 = e.team.team)
    (hc : e.chipChecks sp (mcstSrcs v me root len) (mcstDsts v len) = .ok ()) (hs : e.supply (mcstDsts v len) 0 = .ok (lines, tm)) :
    ∃ body, exec (.mcst f) s = onceWord (.mcst f) body s ∧ body e = e.mcstEnd sp lines tm v root len e.team.mcstRoots.length me := by
  refine ⟨_, rfl, ?_⟩
  have hdst : ∀ d ∈ mcstDsts v len, 2 ^ 55 ≤ d.1 ∧ (d.1 - 2 ^ 55) / 2 ^ 19 = e.team.team := by
    intro d hd
    by_cases h0 : len = 0
    · simp [mcstDsts, h0] at hd
    · rw [mcstDsts, if_neg h0, List.mem_singleton] at hd
      rw [hd]
      exact hlen h0
  have hchip : ((mcstDsts v len).all fun d => !inMem d.1) = true := List.all_eq_true.mpr fun d hd => by
    have := (hdst d hd).1
    rw [inMem, decide_eq_false (by omega)]; rfl
  have hteam : ((mcstDsts v len).all fun d => (d.1 - 2 ^ 55) / 2 ^ 19 == e.team.team) = true :=
    List.all_eq_true.mpr fun d hd => beq_iff_eq.mpr (hdst d hd).2
  have hn' : (e.lch.lr.clusterN == 2 || e.lch.lr.clusterN == 4) = true := by simpa using hn
  split
  · next j hj => exact absurd hj (hpark j)
  · rw [hp, chk_ok_bind]
    simp only [hr, hl, hme, mcstSrcs_eq, mcstRows_eq, hsp, hc, hs, chk_ok_bind, hroot, decide_true, Bool.true_or, guardC_true,
      hchip, hteam, hn', hb, Bool.false_eq_true, if_false, ite_beq_zero]
    rfl

theorem mcstRoots_agree {root k me : Nat} (hr : ∀ r, (e.s.roots (e.clusterTeams.headD 0))[k]? = some r → me = 0 ∨ r = root) :
    (((e.s.roots (e.clusterTeams.headD 0))[k]?).all fun r => me == 0 || r == root) = true := by
  cases hk : (e.s.roots (e.clusterTeams.headD 0))[k]? with
  | none => rfl
  | some r => simpa using hr r hk

theorem mcstEnd_refused {root len k me r : Nat} (hm : me ≠ 0) (hr : (e.s.roots (e.clusterTeams.headD 0))[k]? = some r) (hne : r ≠ root) :
    e.mcstEnd sp lines tm v root len k me = .error flt0B := by
  rw [Env.mcstEnd, hr]
  have hg : Option.all (fun r => me == 0 || r == root) (some r) = false := by simp [hm, hne]
  rw [hg]; rfl

theorem mcstEnd_waits {root len k me : Nat} (hr : ∀ r, (e.s.roots (e.clusterTeams.headD 0))[k]? = some r → me = 0 ∨ r = root)
    (hm : me ≠ 0) (hh : e.mcstHeld e.mcstSince = true) (hl : e.s.lowestWaits (e.clusterTeams.headD 0) k = true) :
    e.mcstEnd sp lines tm v root len k me = .ok (.park (.mcstLow e.mcstSince) e.s) := by
  rw [Env.mcstEnd, mcstRoots_agree hr, guardC_true, chk_ok_bind, hh, hl, bne_iff_ne.mpr hm]
  rfl

theorem mcstEnd_forks {root len k me : Nat} (hr : ∀ r, (e.s.roots (e.clusterTeams.headD 0))[k]? = some r → me = 0 ∨ r = root)
    (hh : (me != 0 && e.mcstHeld e.mcstSince && e.s.lowestWaits (e.clusterTeams.headD 0) k) = false) (hq : e.tcuFull = false) :
    let t := e.mcstForked sp lines tm v root len k me
    e.mcstEnd sp lines tm v root len k me = .ok (if me = root ∧ ∃ u ∈ e.clusterTeams, (t.roots u).length ≤ k then .park (.mcst k) t else .ok t) := by
  intro t
  rw [Env.mcstEnd, mcstRoots_agree hr, guardC_true, chk_ok_bind, hh, hq]
  refine Eq.trans (b := (if me == root && (e.clusterTeams.any fun u => (t.roots u).length ≤ k) then .ok (.park (.mcst k) t) else .ok (.ok t))) rfl ?_
  by_cases hw : me = root ∧ ∃ u ∈ e.clusterTeams, (t.roots u).length ≤ k
  · rw [if_pos hw]
    exact if_pos (by simpa using hw)
  · rw [if_neg hw]
    exact if_neg (by simpa using hw)

end

/-! ### Collectives (R257 to R260) -/

section
variable {s : State} {e : Env} {f : RWord} {sp : Spec} {lines : List Nat} {tm : Team} {v : Nat → Nat}

theorem State.markLines_ops (t : State) (o : EngOp) (late : Bool) : (t.markLines o late).ops = t.ops := by rw [markLines_teams]

theorem State.noting_kind (t : State) (o : EngOp) : (t.noting o).kind = o.kind := by
  unfold noting
  split <;> rfl

/-- An operation as it is forked (R240). -/
abbrev Env.forkedOp (e : Env) (t : State) (sp : Spec) (lines : List Nat) (op : EngOp) : EngOp :=
  let slot := match tget sp.q ((tget e.tid t.teams).getD e.team).queues with
    | some x => if sp.mode == 0 then some (sp.q, x.fillSeq) else none
    | none => none
  { op with gid := e.gid, slices := if e.g.isCtl then 1 else e.sub.mask, mode := sp.mode, slot := slot,
            phase := e.g.arrivals, lines := lines, pc := e.pc }

/-- A forked operation stands under the next number. -/
theorem Env.fork_op (e : Env) (t : State) (sp : Spec) (lines : List Nat) (op : EngOp) :
    ∃ o, tget t.nextOp (e.fork t sp lines op).ops = some o ∧ o.kind = op.kind := by
  have hmod : ∀ (c : Bool) (u : State) (f : Team → Team), (if c then u.modT e.tid f else u).ops = u.ops := fun c _ _ => by cases c <;> rfl
  exact ⟨t.noting (e.forkedOp t sp lines op),
    (congrArg (tget t.nextOp) ((hmod ..).trans (State.markLines_ops ..))).trans (tget_tput_same ..), t.noting_kind _⟩

theorem State.collSend_ops (t : State) (cid entry step : Nat) (p : Part) : (t.collSend cid entry step p).ops = t.ops := by
  unfold State.collSend
  dsimp only
  split
  · split
    · generalize p.flits = ms
      generalize hu : t.collPart cid entry step p = u
      have hops : u.ops = t.ops := by rw [← hu]; rfl
      rw [← hops]
      clear hu hops
      induction ms generalizing u with
      | nil => rfl
      | cons m ms ih => exact ih _
    · rfl
  · rfl

/-- What a participant of a collective reads. -/
abbrev collSrcs (v : Nat → Nat) (m root rank esz : Nat) : List (Nat × Nat) :=
  if (m != 2 && m < 4 || m == 2 && root == rank) && v 3 != 0 then [(v 1, v 3 * esz)] else []

/-- The state after a COLL has forked its operation. -/
def Env.collForked (e : Env) (f : RWord) (sp : Spec) (lines : List Nat) (tm : Team) (v : Nat → Nat) (n : Nat) (co : CollOp) : State :=
  let left := if f.m.val = 5 then nins co.entry tm.withdrawn else tm.withdrawn
  (e.fork (e.s.putT e.tid { tm with collSteps := tput co.entry (co.step + 1) tm.collSteps, withdrawn := left }) sp lines
      { gid := e.gid, slices := 0, kind := .coll co, mode := sp.mode, decl := n, handle := BitVec.ofNat 64 (v 0), mem := e.memImage,
        engine := .coll }).modC e.cid fun c => { c with ctable := tput co.entry { c.entry co.entry with busy := true } c.ctable }

/-- The state in which a withdrawal's slot is filled (R260). -/
def Env.collLeft (e : Env) (f : RWord) (sp : Spec) (lines : List Nat) (tm : Team) (v : Nat → Nat) (n : Nat) (co : CollOp) : State :=
  ((e.collForked f sp lines tm v n co).collSend e.cid co.entry co.step { rank := co.rank, op := co.op, withdrawn := true }).collEnd
    e.s.nextOp 2 16 []

theorem coll_body (hb : e.slotBusy sp = false) (hp : e.params f [f.d, f.a] [0, 1, 2, 3] = .ok v) (hsp : e.spec (v 5) [0, 1] = .ok sp)
    {i rank root esz n : Nat} (hi : fld (v 2) 0 6 = i) (hrank : (e.ctx.entry i).rb + e.team.team = rank) (hroot : fld (v 4) 16 32 = root)
    (hesz : Ty.collBytes f.ty = esz) (hn : collLen f.m.val (e.ctx.entry i).np (v 3) esz root rank = n)
    (h3 : v 3 ≤ 2 ^ 28) (hvalid : (e.ctx.entry i).valid = true) (hteam : e.team.team < (e.ctx.entry i).rn)
    (hwd : e.team.withdrawn.contains i = false) (hslot : ∀ q a, e.nextSlot sp = some (q, a) → 8 ≤ q.slotBytes)
    (h0 : v 0 % esz = 0) (h1 : v 1 % esz = 0)
    (hc : e.chipChecks sp (collSrcs v f.m.val root rank esz) (if n = 0 then [] else [(v 0, n)]) = .ok ())
    (hs : e.supply (if n = 0 then [] else [(v 0, n)]) 0 = .ok (lines, tm)) {co : CollOp}
    (hco : co = { entry := i, step := (tget i tm.collSteps).getD 0, rank := rank, op := f.m.val, ty := f.ty, dst := v 0, count := v 3,
                  x := sgn 12 (v 4), root := root, rows := e.rowsOf ((collSrcs v f.m.val root rank esz).map fun r => (0, r.1, r.2)) }) :
    ∃ body, exec (.coll f) s = onceWord (.coll f) body s ∧ (f.m.val < 4 → body e = .ok (.ok (e.collForked f sp lines tm v n co))) ∧
      (4 ≤ f.m.val → ∀ o, tget e.s.nextOp (e.collLeft f sp lines tm v n co).ops = some o →
        body e = .ok (.ok ((e.collLeft f sp lines tm v n co).collFinish e.s.nextOp o co 2 []))) := by
  refine ⟨_, rfl, ?_⟩
  rw [hp]
  have hguard : ((e.ctx.entry i).valid && decide (e.team.team < (e.ctx.entry i).rn) && !e.team.withdrawn.contains i) = true := by
    rw [hvalid, hwd, decide_eq_true hteam]; rfl
  simp only [hi, hrank, hroot, hesz, hn, ite_beq_zero, chk_guard_bind h3, hguard, guardC_true, chk_ok_bind, hsp, h0, h1, BEq.rfl]
  rcases hns : e.nextSlot sp with _ | ⟨q, a⟩
  case' some =>
    dsimp only
    rw [chk_guard_bind (hslot q a hns)]
  case' none => dsimp only
  all_goals
    rw [hc, chk_ok_bind, hs, chk_ok_bind]
    simp only [hb, Bool.false_eq_true, if_false, beq_iff_eq]
    subst hco
    refine ⟨fun h4 => if_pos h4, fun h4 o ho => (if_neg (by omega)).trans ?_⟩
    generalize hu : e.collLeft f sp lines tm v n _ = u at ho
    refine Eq.trans (b := (match tget e.s.nextOp u.ops with
      | some o => (.ok (.ok (u.collFinish e.s.nextOp o _ 2 [])) : Chk Res) | none => .ok (.ok u))) (by rw [← hu]; rfl) ?_
    rw [ho]

/-- The operation of a withdrawal still stands under its number. -/
theorem Env.collLeft_op (e : Env) (f : RWord) (sp : Spec) (lines : List Nat) (tm : Team) (v : Nat → Nat) (n : Nat) (co : CollOp) :
    ∃ o, tget e.s.nextOp (e.collLeft f sp lines tm v n co).ops = some o := by
  obtain ⟨o, ho, hk⟩ : ∃ o, tget e.s.nextOp (e.collForked f sp lines tm v n co).ops = some o ∧ o.kind = .coll co :=
    e.fork_op (e.s.putT e.tid _) sp lines
      { gid := e.gid, slices := 0, kind := .coll co, mode := sp.mode, decl := n, handle := BitVec.ofNat 64 (v 0), mem := e.memImage,
        engine := .coll }
  rw [← State.collSend_ops _ e.cid co.entry co.step { rank := co.rank, op := co.op, withdrawn := true }] at ho
  unfold Env.collLeft
  unfold State.collEnd
  rw [ho]
  dsimp only
  rw [hk]
  dsimp only
  split
  · exact ⟨o, ho⟩
  · exact ⟨_, tget_tput_same ..⟩

end

/-- Settles O41: each word hands its work on, by the lemma on it. -/
theorem engineWordsFork : Obligations.EngineWordsFork := by
  intro s e sp lines tm v hb op
  refine ⟨fun f h hx hp hsp h1 hpriv h0 hc hlen hs hq => ⟨_, csto_effect h hx hb hq hp hsp h1 hpriv h0 hc hlen hs, rfl⟩,
    fun f keys h hx hp hsp hslot hfetch hal hkeys hch hq => ⟨_, cpyc_effect h hx hb hq hp hsp hslot hfetch hal hkeys hch, rfl⟩,
    fun f h hx hpark hn hp hsp => ?_, fun u k root n => ⟨State.mcstRefuse_none n, fun id o => State.mcstRefuse_some n⟩,
    fun gid pc g hg => ⟨mcstFault_halted pc hg, fun x hh hx => mcstFault_live pc hg hh hx⟩, fun f k h hx hk => mcst_again h hx hk,
    fun f h hx hp hsp => ?_,
    fun f p h hx hp h3 h3' hsp h0 hal h1 ht hty hch => ⟨_, bvhbBuild_effect h hx hb hp h3 h3' hsp h0 hal h1 ht hty hch, rfl⟩,
    fun f h hx hp hsp h0 hch => ⟨_, bvhbRefit_effect h hx hb hp hsp h0 hch, rfl⟩⟩
  · intro root len k me srcs dsts hroot hlen hc hs low
    obtain ⟨body, hbody, hend⟩ := mcst_body (s := s) hb hpark hn hp hsp rfl rfl rfl hroot hlen hc hs
    refine ⟨fun hm r hr hne => onceWord_halts h hbody (.inl hx) (hend.trans (mcstEnd_refused hm hr hne)) rfl, fun since hsince => ?_⟩
    have hsince' := Env.mcstSince_eq hsince
    subst hsince'
    have hheld : e.mcstHeld e.mcstSince = true ↔ (e.s.cycle - BitVec.ofNat 64 e.mcstSince).toNat < 4096 := by
      rw [Env.mcstHeld, decide_eq_true_eq]; rfl
    refine ⟨fun ⟨hm, hh, hl⟩ => ?_, fun hh hr hq => ?_⟩
    · have hnone : ∀ r, (e.s.roots low)[k]? = some r → me = 0 ∨ r = root := fun r hr => by
        have hlow : (e.s.roots low).length ≤ k := decide_eq_true_eq.mp (Bool.and_eq_true_iff.mp hl).1
        rw [List.getElem?_eq_none hlow] at hr
        cases hr
      exact hbody.trans (onceWord_parks h (.inl hx) rfl (hend.trans (mcstEnd_waits hnone hm (hheld.mpr hh) hl)))
    · have hno : (me != 0 && e.mcstHeld e.mcstSince && e.s.lowestWaits low k) = false := by
        rw [Bool.eq_false_iff]
        intro hb'
        simp only [Bool.and_eq_true, bne_iff_ne] at hb'
        exact hh ⟨hb'.1.1, hheld.mp hb'.1.2, hb'.2⟩
      intro t0 t waits
      have hfork := hend.trans (mcstEnd_forks hr hno hq)
      exact ⟨fun hw => ⟨_, hbody.trans (onceWord_next h (.inl hx) (hfork.trans (congrArg Except.ok (if_neg hw)))), rfl⟩,
        fun hw => hbody.trans (onceWord_parks h (.inl hx) rfl (hfork.trans (congrArg Except.ok (if_pos hw))))⟩
  · intro i x esz rank root n srcs dsts h3 hvalid hteam hwd hslot h0 h1 hc hs step co t
    obtain ⟨body, hbody, hfork, hleave⟩ := coll_body (s := s) hb hp hsp rfl rfl rfl rfl rfl h3 hvalid hteam hwd hslot h0 h1 hc hs rfl
    refine ⟨fun h4 => ⟨_, hbody.trans (onceWord_next h (.inl hx) (hfork h4)), rfl⟩, fun h4 => ?_⟩
    obtain ⟨o, ho⟩ := e.collLeft_op f sp lines tm v n co
    exact ⟨o, ho, _, hbody.trans (onceWord_next h (.inl hx) (hleave h4 o ho)), rfl⟩

end Sys2Proof.Machine
end

section
/-! SUPPORT. O43: the queue words. -/

namespace Sys2Proof.Machine

theorem ite_beq_eq {α : Type} (m n : Nat) (a b : α) : (if m == n then a else b) = if m = n then a else b := by
  by_cases h : m = n <;> simp [h]

theorem tmod_of_tget {α : Type} {k : Nat} {x : α} {t : Tab α} (f : α → α) (h : tget k t = some x) : tmod k f t = tmod k (fun _ => f x) t := by
  calc tmod k f t = tmod k f (tmod k (fun _ => x) t) := by rw [tmod_const h]
    _ = tmod k (fun _ => f x) t := tmod_tmod ..

/-- A change of a queue is a new queue in its place. -/
theorem State.modQ_const {t : State} {tid q : Nat} {tm : Team} {x y : Queue} {f : Queue → Queue} (ht : tget tid t.teams = some tm)
    (hq : tget q tm.queues = some x) (hf : f x = y) : (t.modT tid fun t => t.modQ q f) = t.modT tid fun t => t.modQ q fun _ => y := by
  unfold State.modT
  rw [tmod_of_tget (fun t : Team => t.modQ q f) ht, tmod_of_tget (fun t : Team => t.modQ q fun _ => y) ht]
  unfold Team.modQ
  rw [tmod_of_tget f hq, hf]

section
variable {s : State} {e : Env} {f : RWord} {a : Nat} {x : Queue}

/-- The queue that an operand names, where its declaration stands (R273). -/
theorem Env.queueNo_ok {used : Nat} (ha : a &&& (2 ^ 64 - 1 - used) = 0) (hd : (e.lch.declOf (fld a 0 4)).isSome = true) :
    e.queueNo a used = .ok (fld a 0 4) := by
  unfold Env.queueNo
  rw [beq_iff_eq.mpr ha, guardC_true, chk_ok_bind, hd]
  rfl

theorem Env.queueNo_any (hd : (e.lch.declOf (fld a 0 4)).isSome = true) : e.queueNo a (2 ^ 64 - 1) = .ok (fld a 0 4) :=
  e.queueNo_ok (by simp) hd

theorem Env.inited_ok {q : Nat} (hq : tget q e.team.queues = some x) (hi : x.inited = true) : e.inited q = .ok x := by
  rw [Env.inited, hq]
  exact if_pos hi

theorem Env.fillQueue_ok {q : Nat} (hd : (e.lch.declOf q).isSome = true) (hq : tget q e.team.queues = some x) (hi : x.inited = true)
    (hf : x.filler = gidG e.gid) : e.fillQueue q = .ok x := by
  obtain ⟨d, hd⟩ := Option.isSome_iff_exists.mp hd
  rw [Env.fillQueue, hd, hq]
  exact if_pos (by simp [hi, hf])

/-! ### QPUSH (R275) -/

/-- A filled slot with what it hands over. -/
theorem Queue.pushed_eq (x : Queue) (h n : Nat) (hand : List (Nat × W32)) (bad : List (Nat × Bool)) :
    ((x.reserve 2 h n none).modDesc ((x.reserve 2 h n none).slotOf x.fillSeq) fun d => { d with hand := hand, handBad := bad }) =
      { x.modDesc (x.slotOf x.fillSeq) (fun _ => { status := 2, handle := BitVec.ofNat 64 h, count := n, popper := x.dealt x.fillSeq,
                                                   seq := x.fillSeq, hand := hand, handBad := bad }) with
        fillSeq := x.fillSeq + 1, allow := x.allow - 1 } := by
  have hslot : (x.reserve 2 h n none).slotOf x.fillSeq = x.slotOf x.fillSeq := rfl
  rw [hslot]
  simp only [Queue.reserve, Queue.modDesc, List.modify_modify_eq]
  rfl

theorem qpush_waits (hi : Issues (.qpush f) s e) (hx : e.exec f.k ≠ 0) (hw : e.whole = true) {h : Nat} (hab : e.agreed f.k [f.a, f.b] = .ok [a, h])
    (ha : a &&& (2 ^ 64 - 1 - 0xFFFFFFFF0F) = 0) (hd : (e.lch.declOf (fld a 0 4)).isSome = true) (hq : tget (fld a 0 4) e.team.queues = some x)
    (hinit : x.inited = true) (hfill : x.filler = gidG e.gid) (hfree : x.free = false) :
    exec (.qpush f) s = .next (e.parked (.qpush f) (.slotFree (fld a 0 4)) e.s) := by
  refine onceWord_parks hi (.inl hx) rfl ?_
  simp only [Env.needWhole_ok hw, chk_ok_bind, hab, List.getElem?_cons_zero, List.getElem?_cons_succ, Option.getD_some]
  rw [e.queueNo_ok ha hd, chk_ok_bind, Env.fillQueue_ok hd hq hinit hfill, chk_ok_bind, hfree]
  rfl

theorem qpush_fills (hi : Issues (.qpush f) s e) (hc : e.g.isCtl = false) (hx : e.exec f.k ≠ 0) (hw : e.whole = true) {h : Nat}
    (hab : e.agreed f.k [f.a, f.b] = .ok [a, h]) (ha : a &&& (2 ^ 64 - 1 - 0xFFFFFFFF0F) = 0) (hd : (e.lch.declOf (fld a 0 4)).isSome = true)
    (hq : tget (fld a 0 4) e.team.queues = some x) (hinit : x.inited = true) (hfill : x.filler = gidG e.gid) (hfree : x.free = true) :
    let lines := e.handLines h (fld a 8 32)
    exec (.qpush f) s = .next (e.done (.qpush f) (((e.s.putG e.gid (e.g.pushLines e.team lines)).modT e.tid fun t => t.modQ (fld a 0 4) fun _ =>
      { x.modDesc (x.slotOf x.fillSeq) (fun _ => { status := 2, handle := BitVec.ofNat 64 h, count := fld a 8 32, popper := x.dealt x.fillSeq,
                                                   seq := x.fillSeq, hand := lineWords e.sub.lvl.view.data lines,
                                                   handBad := lines.map fun l => (l, e.sub.lvl.view.poison.contains l) }) with
        fillSeq := x.fillSeq + 1, allow := x.allow - 1 }).skipQueues e.tid)) := by
  intro lines
  refine onceWord_next hi (.inl hx) ?_
  simp only [Env.needWhole_ok hw, chk_ok_bind, hab, List.getElem?_cons_zero, List.getElem?_cons_succ, Option.getD_some]
  rw [e.queueNo_ok ha hd, chk_ok_bind, Env.fillQueue_ok hd hq hinit hfill, chk_ok_bind, hfree]
  refine congrArg (fun t : State => Except.ok (Res.ok (t.skipQueues e.tid))) ?_
  exact State.modQ_const (hi.inTeam hc).team hq (x.pushed_eq ..)

/-! ### QPOP (R276) -/

section
variable (hi : Issues (.qpop f) s e) (hc : e.g.isCtl = false) (hx : e.exec f.k ≠ 0) (hw : e.whole = true) (hag : e.agreed f.k [f.a] = .ok [a])
  (hd : (e.lch.declOf (fld a 0 4)).isSome = true) (hq : tget (fld a 0 4) e.team.queues = some x) (hinit : x.inited = true)
  (hpop : bitOf x.popMask.toNat (gidG e.gid) = true)

/-- The lines that the operation of a slot adds to its popper's. -/
def Env.popLines (e : Env) (d : Desc) : List Nat := if d.status == 4 then [] else match d.op.bind fun i => tget i e.s.ops with
  | some o => if o.gid == e.gid then [] else o.lines
  | none => []

/-- What a popper sees that another group handed over. -/
def Env.popSeen (e : Env) (x : Queue) (d : Desc) : List GOp := if x.filler = gidG e.gid then [] else
  (d.hand.map fun w => GOp.seen e.team.tcount w.1 w.2) ++ d.handBad.map fun u => GOp.seenBad e.team.tcount u.1 u.2

/-- The last steps of QPOP, once its operand names a queue that its group may pop. -/
def Env.popEnd (e : Env) (f : RWord) (q : Nat) (x : Queue) : Chk Res := do
  if !x.canPop (gidG e.gid) then return .park (.qpop q) e.s
  if x.headSeq == x.fillSeq then return .ok (e.s.putG e.gid (e.g.addPend (popPend e f 0 (x.headSeq.toNat * 2 ^ 32))))
  let d := x.desc x.headSeq
  guardC (d.status != 5) (flt 0x0A)
  guardC (e.linesFit (e.popLines d) 0) (flt 0x08)
  let g := (e.g.addPend (popPend e f d.handle.toNat (d.seq.toNat * 2 ^ 32 + d.status))).modLvl e.sub.mask fun l => l.act (e.popSeen x d)
  let s := (e.s.putG e.gid g).modT e.tid fun t => t.modQ q fun y =>
    { y.modDesc (y.slotOf y.headSeq) (fun d => { d with status := 6, op := none, hand := [], handBad := [] }) with headSeq := y.headSeq + 1 }
  let s := match d.op with | some i => s.joinOp e.gid e.sub.mask i | none => s
  return .ok (s.skipQueues e.tid)

include hw hag hd hq hinit hpop in
theorem qpop_body : ∃ body, exec (.qpop f) s = onceWord (.qpop f) body s ∧ body e = e.popEnd f (fld a 0 4) x := by
  refine ⟨_, rfl, ?_⟩
  simp only [Env.needWhole_ok hw, chk_ok_bind, hag, List.getElem?_cons_zero, Option.getD_some]
  rw [Env.queueNo_any hd, chk_ok_bind, Env.inited_ok hq hinit, chk_ok_bind, hpop, guardC_true, chk_ok_bind]
  unfold Env.popEnd Env.popLines Env.popSeen
  simp only [ite_beq_eq] <;> rfl

theorem popEnd_waits {q : Nat} (h : x.canPop (gidG e.gid) = false) : e.popEnd f q x = .ok (.park (.qpop q) e.s) := by
  rw [Env.popEnd, h]; rfl

theorem popEnd_ends {q : Nat} (h : x.canPop (gidG e.gid) = true) (hs : x.headSeq = x.fillSeq) :
    e.popEnd f q x = .ok (.ok (e.s.putG e.gid (e.g.addPend (popPend e f 0 (x.headSeq.toNat * 2 ^ 32))))) := by
  rw [Env.popEnd, h, hs, BEq.rfl]; rfl

theorem popEnd_canceled {q : Nat} (h : x.canPop (gidG e.gid) = true) (hs : x.headSeq ≠ x.fillSeq) (hst : (x.desc x.headSeq).status = 5) :
    e.popEnd f q x = .error (flt 0x0A) := by
  rw [Env.popEnd, h, beq_false_of_ne hs]
  refine Eq.trans (b := guardC ((x.desc x.headSeq).status != 5) (flt 0x0A) >>= fun _ => _) rfl ?_
  rw [hst]
  rfl

theorem popLines_fit {d : Desc} (h : ∀ i o, d.status ≠ 4 → d.op = some i → tget i e.s.ops = some o → o.gid ≠ e.gid → e.linesFit o.lines 0 = true)
    (h0 : e.linesFit [] 0 = true) : e.linesFit (e.popLines d) 0 = true := by
  unfold Env.popLines
  by_cases h4 : d.status = 4
  · rw [beq_iff_eq.mpr h4]; exact h0
  · rw [beq_false_of_ne h4]
    cases hop : d.op with
    | none => exact h0
    | some i =>
      show e.linesFit (match tget i e.s.ops with | some o => if o.gid == e.gid then [] else o.lines | none => []) 0 = true
      cases ho : tget i e.s.ops with
      | none => exact h0
      | some o =>
        by_cases hg : o.gid = e.gid
        · simpa [hg] using h0
        · simpa [hg] using h i o h4 hop ho hg

include hi hc hq in
theorem popEnd_pops (h : x.canPop (gidG e.gid) = true) (hs : x.headSeq ≠ x.fillSeq) (hst : (x.desc x.headSeq).status ≠ 5)
    (hfit : e.linesFit (e.popLines (x.desc x.headSeq)) 0 = true) :
    let d := x.desc x.headSeq
    let g := (e.g.addPend (popPend e f d.handle.toNat (d.seq.toNat * 2 ^ 32 + d.status))).modLvl e.sub.mask fun l => l.act (e.popSeen x d)
    let y := { x.modDesc (x.slotOf x.headSeq) (fun d => { d with status := 6, op := none, hand := [], handBad := [] }) with
      headSeq := x.headSeq + 1 }
    let t := (e.s.putG e.gid g).modT e.tid fun t => t.modQ (fld a 0 4) fun _ => y
    e.popEnd f (fld a 0 4) x = .ok (.ok ((match d.op with | some i => t.joinOp e.gid e.sub.mask i | none => t).skipQueues e.tid)) := by
  intro d g y t
  have ht := State.modQ_const (t := e.s.putG e.gid g) (x := x) (y := y) (hi.inTeam hc).team hq (f := fun y =>
    { y.modDesc (y.slotOf y.headSeq) (fun d => { d with status := 6, op := none, hand := [], handBad := [] }) with headSeq := y.headSeq + 1 }) rfl
  rw [Env.popEnd, h, beq_false_of_ne hs]
  refine Eq.trans (b := guardC (d.status != 5) (flt 0x0A) >>= fun _ => guardC (e.linesFit (e.popLines d) 0) (flt 0x08) >>= fun _ => _) rfl ?_
  rw [bne_iff_ne.mpr hst, guardC_true, chk_ok_bind, hfit, guardC_true, chk_ok_bind]
  exact congrArg (fun t : State =>
    Except.ok (Res.ok ((match d.op with | some i => t.joinOp e.gid e.sub.mask i | none => t).skipQueues e.tid))) ht

end

/-! ### QPEEK and QREL (R277, R278) -/

/-- A pair of values written to two registers of a slice. -/
def pairWrites (d : Opd) (lo hi c : Nat) : List (Nat × W64) :=
  match d with | .s r => [(8 * r.val + c, BitVec.ofNat 64 lo), (8 * (r.val + 1) + c, BitVec.ofNat 64 hi)] | _ => []

/-- A pair of values written for each executing slice. -/
theorem putPairs_changed (d : Opd) (lo hi : Nat) (l : List Nat) (g : Group) :
    (l.foldl (fun g c => match d with | .s r => (g.wrS r.val c lo).wrS (r.val + 1) c hi | _ => g) g) = g.changed
      { sw := l.flatMap (pairWrites d lo hi) } := by
  induction l generalizing g with
  | nil => exact g.changed_nil.symm
  | cons c l ih =>
    rw [List.foldl_cons, ih]
    cases d with
    | s r =>
      dsimp only
      rw [Group.wrS_changed, Group.wrS_changed, Group.changed_changed _ _ _ rfl, Group.changed_changed _ _ _ rfl]
      rfl
    | _ => rfl

theorem qpeek_completes (hi : Issues (.qpeek f) s e) (hx : e.exec f.k ≠ 0) (hag : e.agreed f.k [f.a] = .ok [a])
    (hd : (e.lch.declOf (fld a 0 4)).isSome = true) (hq : (tget (fld a 0 4) e.team.queues).getD {} = x) :
    Completes (.qpeek f) s e { sw := (e.execSlices f.k).flatMap (pairWrites f.d (x.fillSeq.toNat + x.headSeq.toNat * 2 ^ 32)
      (x.allow + (x.desc x.headSeq).status * 2 ^ 16 + (if x.inited then 2 ^ 24 else 0))) } := by
  refine completes_of_done (onceWord_next hi (.inl hx) ?_)
  simp only [hag, chk_ok_bind, List.getElem?_cons_zero, Option.getD_some]
  rw [Env.queueNo_any hd, chk_ok_bind, hq]
  exact congrArg (fun g => Except.ok (Res.ok (e.s.putG e.gid g))) (putPairs_changed f.d _ _ (e.execSlices f.k) e.g)

theorem qrel_frees (hi : Issues (.qrel f) s e) (hc : e.g.isCtl = false) (hx : e.exec f.k ≠ 0) (hw : e.whole = true) {b : Nat}
    (hab : e.agreed f.k [f.a, f.b] = .ok [a, b]) (hd : (e.lch.declOf (fld a 0 4)).isSome = true) (hq : tget (fld a 0 4) e.team.queues = some x)
    (hinit : x.inited = true) (hpop : bitOf x.popMask.toNat (gidG e.gid) = true) :
    let seq : W32 := BitVec.ofNat 32 b
    (x.desc seq).status = 6 → (x.desc seq).popper = gidG e.gid → (x.desc seq).seq = seq →
    exec (.qrel f) s = .next (e.done (.qrel f) (e.s.modT e.tid fun t => t.modQ (fld a 0 4) fun _ =>
      { x.modDesc (x.slotOf seq) (fun d => { d with status := 0 }) with allow := x.allow + 1 })) := by
  intro seq hst hpp hseq
  refine onceWord_next hi (.inl hx) ?_
  simp only [Env.needWhole_ok hw, chk_ok_bind, hab, List.getElem?_cons_zero, List.getElem?_cons_succ, Option.getD_some]
  rw [Env.queueNo_any hd, chk_ok_bind, Env.inited_ok hq hinit, chk_ok_bind, hpop, guardC_true, chk_ok_bind]
  rw [show guardC _ flt0B = .ok () from (congrArg (guardC · flt0B)
    (show ((x.desc seq).status == 6 && (x.desc seq).popper == gidG e.gid && (x.desc seq).seq == seq) = true by simp [hst, hpp, hseq])), chk_ok_bind]
  exact congrArg (fun t => Except.ok (Res.ok t)) (State.modQ_const (hi.inTeam hc).team hq rfl)

end

/-- Settles O43: QPUSH by `qpush_fills`, QPOP by the steps of `Env.popEnd`, QPEEK and QREL by their lemmas. -/
theorem queueWordsComplete : Obligations.QueueWordsComplete := by
  intro s e a x hc q hd put2 pops
  refine ⟨fun f h hi hx hw hab ha hq hinit hfill => ⟨qpush_waits hi hx hw hab ha hd hq hinit hfill,
      fun hfree => ⟨_, qpush_fills hi hc hx hw hab ha hd hq hinit hfill hfree, rfl⟩⟩, fun f hi hx hw hag hq hinit hpop => ?_,
    fun f hi hx hag hq => qpeek_completes hi hx hag hd hq,
    fun f b hi hx hw hab hq hinit hpop hst hpp hseq => ⟨_, qrel_frees hi hc hx hw hab hd hq hinit hpop hst hpp hseq, rfl⟩⟩
  obtain ⟨body, hbody, hend⟩ := qpop_body (s := s) hw hag hd hq hinit hpop
  refine ⟨fun h => hbody.trans (onceWord_parks hi (.inl hx) rfl (hend.trans (popEnd_waits h))), fun h hs => ?_,
    fun h hs hst => (onceWord_halts hi hbody (.inl hx) (hend.trans (popEnd_canceled h hs hst)) rfl).1 hc, fun h hs hst hfit h0 => ?_⟩
  · refine completes_of_done (hbody.trans (onceWord_next hi (.inl hx) (hend.trans ((popEnd_ends h hs).trans ?_))))
    rw [Group.addPend_changed]
    rfl
  · exact ⟨_, hbody.trans (onceWord_next hi (.inl hx) (hend.trans (popEnd_pops hi hc hq h hs hst (popLines_fit hfit h0)))), rfl⟩

end Sys2Proof.Machine
end

section
/-! SUPPORT. O44: EMIT and the control words for launches and messages. -/

namespace Sys2Proof.Machine

/-! ### What a cancelled launch leaves of the others -/

theorem foldl_launches {α : Type} {f : State → α → State} (hf : ∀ s a, (f s a).launches = s.launches) (l : List α) (s : State) :
    (l.foldl f s).launches = s.launches := by
  induction l generalizing s with
  | nil => rfl
  | cons a l ih => rw [List.foldl_cons, ih, hf]

theorem State.fillSlot_launches (s : State) (tid : Nat) (slot : Option (Nat × W32)) (status : Nat) (count : Option Nat) :
    (s.fillSlot tid slot status count).launches = s.launches := by
  unfold State.fillSlot
  split
  · rfl
  · unfold State.skipQueues
    split <;> rfl

theorem State.failToks_launches (s : State) (lid : Nat) : (s.failToks lid).launches = s.launches :=
  foldl_launches (fun s _ => foldl_launches (fun s _ => s.fillSlot_launches ..) _ s) _ s

theorem State.dropTeams_launches (s : State) (lid : Nat) : (s.dropTeams lid).launches = s.launches := by
  unfold State.dropTeams State.releaseEntries
  refine (foldl_launches ?_ _ _).trans rfl
  intro _ _
  rfl

theorem State.cancel_launches {s : State} {lid : Nat} {l : Launch} (status : Nat) (hl : tget lid s.launches = some l) :
    ∃ l' : Launch, l'.state = .done status ∧ (s.cancel lid status).launches = tput lid l' s.launches := by
  rw [State.cancel, hl]
  exact ⟨_, rfl, (State.dropTeams_launches ..).trans (congrArg (tput lid _) (State.failToks_launches ..))⟩

theorem filter_tput {α : Type} {p : Nat → Bool} {k : Nat} (x : α) (t : Tab α) (h : p k = false) :
    ((tput k x t).filter fun y => p y.1) = t.filter fun y => p y.1 := by
  induction t with
  | nil => simp [tput, h]
  | cons y t ih =>
    obtain ⟨j, y⟩ := y
    rw [tput]
    split
    · simp [h]
    · split
      · next hj =>
        have hj : j = k := by simpa using hj
        simp [h, hj]
      · simp only [List.filter_cons, ih]

/-- The launches of a context after one are as many, once that one is cancelled. -/
theorem State.later_cancel {s : State} {lid cid : Nat} {l : Launch} (status : Nat) (hl : tget lid s.launches = some l) :
    ((s.cancel lid status).launchesOf cid).filter (fun l => lid < l.1) = (s.launchesOf cid).filter fun l => lid < l.1 := by
  obtain ⟨l', -, h⟩ := s.cancel_launches status hl
  unfold State.launchesOf
  rw [h, List.filter_filter, List.filter_filter]
  exact filter_tput (p := fun k => decide (lid < k) && lidCtx k == cid) _ _ (by simp)

/-! ### LAUNCH and LWAIT (R285 to R287) -/

section
variable {s : State} {e : Env} {f : RWord}

theorem launch_waits (h : Issues (.launch f) s e) (ho : ∃ o ∈ e.fenceOps, o.2.isDone = false) :
    exec (.launch f) s = .next (e.parked (.launch f) .ctlFence e.s) := by
  have hany : (e.fenceOps.any fun o => !o.2.isDone) = true := by simpa using ho
  refine (issueWord_park h rfl ?_)
  rw [hany]; rfl

/-- The last steps of LAUNCH, once its record and its declaration block are accepted. -/
def Env.launchEnd (e : Env) (f : RWord) (t : State) (r : LRec) (qs : List (Nat × Nat × Nat)) : Res :=
  let n := e.ctx.launchN + 1
  if 4096 ≤ ((t.launchesOf e.cid).filter fun l => l.2.state == .submitted).length then .park .submit t
  else
    let seen := t.seenBy (r.depsOf e.cid n) e.ctx.waited
    .ok (((t.putL (lidOf e.cid (n * 2 ^ 16)) { lr := r, qdecl := qs, launchPc := e.pc, seen := seen.1, early := seen.2 }).modC e.cid
      fun c => { c with launchN := n }).ctlPut e.gid f.d (n * 2 ^ 16))

theorem launch_body {bs ds : List Byte} {qs : List (Nat × Nat × Nat)} (ho : ∀ o ∈ e.fenceOps, o.2.isDone = true)
    (hal : e.rd64 0 f.a % 64 = 0) (hbs : e.controlJoin.recordBytes e.cid (e.rd64 0 f.a) = .ok bs) (hz : (recordOf bs).2 = true)
    (hok : (recordOf bs).1.launchOk e.ctx.f.cores (e.ctx.launchN + 1) = true)
    (hds : e.controlJoin.recordBytes e.cid ((recordOf bs).1.entry.toNat - 64) = .ok ds) (hq : declBlock ds = some qs) :
    ∃ body, exec (.launch f) s = issueWord (.launch f) body s ∧ body e = e.launchEnd f e.controlJoin (recordOf bs).1 qs := by
  refine ⟨_, rfl, ?_⟩
  have hany : (e.fenceOps.any fun o => !o.2.isDone) = false := by simpa using ho
  simp only [hany, Bool.false_eq_true, if_false]
  rw [show guardC (e.ctl64 f.a % 64 == 0) _ = .ok () from congrArg (guardC · _) (beq_iff_eq.mpr hal), chk_ok_bind,
    show State.recordBytes _ _ (e.ctl64 f.a) = _ from hbs, chk_ok_bind]
  rw [hz, hok, show guardC (true && true) _ = .ok () from rfl, chk_ok_bind, hds, chk_ok_bind, hq]
  unfold Env.launchEnd
  dsimp only
  by_cases hn : 4096 ≤ ((e.controlJoin.launchesOf e.cid).filter fun l => l.2.state == .submitted).length
  · rw [if_pos hn, if_pos hn]; rfl
  · rw [if_neg hn, if_neg hn]; rfl

/-- What LWAIT returns, and the launch that counts as waited for. -/
def Env.lwaitBack (e : Env) (f : RWord) (lid : Nat) (t : State) (status : Nat) : State :=
  (t.modC e.cid fun c => { c with waited := nins lid c.waited }).ctlPut e.gid f.d status

theorem lwait_eq (cancel : Bool) {t : State} (h0 : e.rd64 0 f.a / 2 ^ 16 ≠ 0) (hn : e.rd64 0 f.a / 2 ^ 16 ≤ e.ctx.launchN) {lid : Nat}
    (hlid : lidOf e.cid (e.rd64 0 f.a) = lid) :
    e.lwait t f cancel =
      let u := if cancel && ((tget lid t.launches).any fun l => !l.isDone) then t.cancel lid 4 else t
      if 4096 ≤ ((u.launchesOf e.cid).filter fun l => lid < l.1).length then .ok (.ok (e.lwaitBack f lid u 7))
      else match tget lid u.launches with
        | none => if u.isDone (sourceOf lid) then .ok (.ok (u.ctlPut e.gid f.d 6))
          else .ok (.park (if cancel then .lwaitCancel (e.rd64 0 f.a) else .lwait (e.rd64 0 f.a)) u)
        | some l => match l.state with
          | .done st => .ok (.ok (e.lwaitBack f lid u st))
          | _ => .ok (.park (.lwait (e.rd64 0 f.a)) u) := by
  subst hlid
  have hg : (e.rd64 0 f.a / 2 ^ 16 != 0 && decide (e.rd64 0 f.a / 2 ^ 16 ≤ e.ctx.launchN)) = true := by simp; omega
  unfold Env.lwait
  dsimp only
  rw [show guardC (e.ctl64 f.a / 2 ^ 16 != 0 && decide (e.ctl64 f.a / 2 ^ 16 ≤ e.ctx.launchN)) (flt 0x19) = .ok () from
    congrArg (guardC · (flt 0x19)) hg, chk_ok_bind]
  rfl

section
variable {t : State} (h0 : e.rd64 0 f.a / 2 ^ 16 ≠ 0) (hn : e.rd64 0 f.a / 2 ^ 16 ≤ e.ctx.launchN) {lid : Nat}
  (hlid : lidOf e.cid (e.rd64 0 f.a) = lid) {cancel : Bool}
include h0 hn hlid

section
variable (hno : (cancel && ((tget lid t.launches).any fun l => !l.isDone)) = false)
include hno

theorem lwait_expired (hlate : 4096 ≤ ((t.launchesOf e.cid).filter fun l => lid < l.1).length) :
    e.lwait t f cancel = .ok (.ok (e.lwaitBack f lid t 7)) := by
  rw [lwait_eq cancel h0 hn hlid, hno]
  exact if_pos hlate

variable (hlate : ((t.launchesOf e.cid).filter fun l => lid < l.1).length < 4096)
include hlate

theorem lwait_unformed (hl : tget lid t.launches = none) :
    e.lwait t f cancel = if t.isDone (sourceOf lid) then .ok (.ok (t.ctlPut e.gid f.d 6))
      else .ok (.park (if cancel then .lwaitCancel (e.rd64 0 f.a) else .lwait (e.rd64 0 f.a)) t) := by
  rw [lwait_eq cancel h0 hn hlid, hno]
  refine (if_neg (by simpa using hlate)).trans ?_
  simp only [Bool.false_eq_true, if_false, hl]

theorem lwait_done {l : Launch} {st : Nat} (hl : tget lid t.launches = some l) (hst : l.state = .done st) :
    e.lwait t f cancel = .ok (.ok (e.lwaitBack f lid t st)) := by
  rw [lwait_eq cancel h0 hn hlid, hno]
  refine (if_neg (by simpa using hlate)).trans ?_
  simp only [Bool.false_eq_true, if_false, hl, hst]

theorem lwait_running {l : Launch} (hl : tget lid t.launches = some l) (hd : l.isDone = false) :
    e.lwait t f cancel = .ok (.park (.lwait (e.rd64 0 f.a)) t) := by
  rw [lwait_eq cancel h0 hn hlid, hno]
  refine (if_neg (by simpa using hlate)).trans ?_
  simp only [Bool.false_eq_true, if_false, hl]
  unfold Launch.isDone at hd
  cases hs : l.state <;> simp_all

end

theorem lwait_cancelled {l : Launch} (hl : tget lid t.launches = some l) (hd : l.isDone = false) :
    e.lwait t f true = .ok (.ok (e.lwaitBack f lid (t.cancel lid 4)
      (if 4096 ≤ ((t.launchesOf e.cid).filter fun l => lid < l.1).length then 7 else 4))) := by
  obtain ⟨l', hst, hls⟩ := t.cancel_launches 4 hl
  have hl' : tget lid (t.cancel lid 4).launches = some l' := by rw [hls, tget_tput_same]
  rw [lwait_eq true h0 hn hlid, hl]
  simp only [Option.any_some, hd, Bool.not_false, Bool.and_self, if_true, State.later_cancel 4 hl, hl', hst]
  split <;> rfl

end

/-! ### MSGRD and MSGWR (R288, R390) -/

theorem msgrd_waits {key : Nat → Nat} (h : Issues (.msgrd f) s e) (ha : e.rd64 0 f.a % 8 = 0)
    (hk : e.ctlRange true (e.rd64 0 f.a) (e.rd64 0 f.b) = .ok key) (hno : e.ctx.intail = e.ctx.consumed) :
    exec (.msgrd f) s = .next (e.parked (.msgrd f) .msgrd e.s) := by
  refine issueWord_park h rfl ?_
  have hg : ∀ x, guardC (e.ctl64 f.a % 8 == 0) x = .ok () := fun x => congrArg (guardC · x) (beq_iff_eq.mpr ha)
  dsimp only
  rw [hg, chk_ok_bind,
    show e.ctlRange true (e.ctl64 f.a) (e.ctl64 f.b) = _ from hk, chk_ok_bind, hno, BEq.rfl]
  rfl

theorem msgrd_takes {key : Nat → Nat} (h : Issues (.msgrd f) s e) (ha : e.rd64 0 f.a % 8 = 0)
    (hk : e.ctlRange true (e.rd64 0 f.a) (e.rd64 0 f.b) = .ok key) (hno : e.ctx.intail ≠ e.ctx.consumed) :
    let at' := 4104 * (e.ctx.consumed.toNat % 64)
    let l := mnat e.ctx.inbound at' 8
    let len := if 4096 < l then 0 else l
    exec (.msgrd f) s = .next (e.done (.msgrd f) (((e.s.hWrite (MemW.ofCells
      ((mread e.ctx.inbound (at' + 8) (min len (e.rd64 0 f.b))).zipIdx.map fun x => (key x.2, x.1)))).modC e.cid
        fun c => { c with consumed := c.consumed + 1 }).modG e.gid
          fun g => g.wrD true f.d 0 (len + (if e.rd64 0 f.b < len then 2 ^ 63 else 0)))) := by
  intro at' l len
  refine issueWord_ok h ?_
  have hg : ∀ x, guardC (e.ctl64 f.a % 8 == 0) x = .ok () := fun x => congrArg (guardC · x) (beq_iff_eq.mpr ha)
  dsimp only
  rw [hg, chk_ok_bind,
    show e.ctlRange true (e.ctl64 f.a) (e.ctl64 f.b) = _ from hk, chk_ok_bind, beq_false_of_ne hno]
  rfl

/-- What MSGWR does once its range is accepted. -/
def Env.msgwrEnd (e : Env) (f : RWord) (key : Nat → Nat) : Res :=
  let n := e.rd64 0 f.b
  let off := 4104 * (e.ctx.outprog.toNat % 64)
  let t := e.s.modC e.cid fun c => { c with outprog := c.outprog + 1, acked := c.ackedAt (c.outprog + 1) c.outack }
  if 64 ≤ e.ctx.outstanding then .park .msgwr e.s
  else if hostOk e.ctx (off + (8 + n) - 1) then .ok (t.hWrite (MemW.ofCells (e.ctx.hostCells off
    (leBytes 8 n ++ (List.range n).map fun i => mget (hImage e.s).data (key i)))))
  else .ok ((t.freshOpid e.cid).2.ringPut e.cid (ringEntry 3 7 (2 ^ 32 - 1) 0 (t.freshOpid e.cid).1.toNat (e.rd64 0 f.a) 255 255))

theorem msgwr_body {key : Nat → Nat} (hlen : e.rd64 0 f.b ≤ 4096) (hk : e.ctlRange false (e.rd64 0 f.a) (e.rd64 0 f.b) = .ok key) :
    ∃ body, exec (.msgwr f) s = issueWord (.msgwr f) body s ∧ body e = e.msgwrEnd f key := by
  refine ⟨_, rfl, ?_⟩
  have hg : ∀ x, guardC (decide (e.ctl64 f.b ≤ 4096)) x = .ok () := fun x => congrArg (guardC · x) (decide_eq_true hlen)
  dsimp only
  rw [hg, chk_ok_bind, show e.ctlRange false (e.ctl64 f.a) (e.ctl64 f.b) = _ from hk, chk_ok_bind]
  unfold Env.msgwrEnd
  by_cases ho : 64 ≤ e.ctx.outstanding
  · rw [if_pos ho, if_pos ho]; rfl
  · rw [if_neg ho, if_neg ho]
    have hl : (leBytes 8 (e.ctl64 f.b) ++ (List.range (e.ctl64 f.b)).map fun i => mget (hImage e.s).data (key i)).length = 8 + e.rd64 0 f.b := by
      simp [Env.ctl64, leBytes_length]
    rw [hl]
    by_cases hh : hostOk e.ctx (4104 * (e.ctx.outprog.toNat % 64) + (8 + e.rd64 0 f.b) - 1) = true
    · rw [if_pos hh]
      exact congrArg ofChk (if_pos hh)
    · rw [if_neg hh]
      exact congrArg ofChk (if_neg hh)

/-! ### EMIT (R280) -/

/-- The last steps of EMIT, once its node and its ring are words of memory. -/
def Env.emitEnd (e : Env) (f : RWord) (node src ring : Nat) (snap : Image) (r : LRec) : Chk Res := do
  guardC (e.s.nodeQueues e.cid snap r).isSome { code := 0x19, addr := node }
  guardC (mnat snap.data ring 8 == lidKey e.lid / 2 ^ 16 && lidKey e.lid % 2 ^ 16 == 0) (flt 0x19)
  guardC (e.spb ≤ src && src + r.gy ≤ e.spb + e.lch.layout.rings) { code := 0x07, addr := src }
  match e.team.charge e.lch.lr.dquota [] ((r.gy + 127) / 128 * 128) with
  | none => throw (flt 0x09)
  | some t => return .ok (e.s.putT e.tid { t with toks := t.toks ++
      [(gidG e.gid, .emit r ((List.range r.gy).map fun i => e.chipByte (src + i))
        (e.record (some (.emit f)) ((encode (.emit f)).getD 0) (flt 0x19)))] })

theorem emit_body {node src key ring : Nat} (hw : e.whole = true) (hag : e.agreed f.k [f.d, f.a] = .ok [node, src])
    (hnode : e.wordKey 255 node = .ok key) :
    let snap := e.team.fullSnap.getD e.lch.snap
    let r := recordOf (mread snap.data key 64)
    e.wordKey 255 r.1.aux.toNat = .ok ring → node % 64 = 0 → r.2 = true → r.1.nodeOk e.ctx.f.cores = true →
    ∃ body, exec (.emit f) s = onceWord (.emit f) body s ∧ body e = e.emitEnd f node src ring snap r.1 := by
  intro snap r hring hal hz hok
  refine ⟨_, rfl, ?_⟩
  simp only [Env.needWhole_ok hw, chk_ok_bind, hag, List.getElem?_cons_zero, List.getElem?_cons_succ, Option.getD_some, hnode]
  rw [show e.wordKey 255 _ = _ from hring, chk_ok_bind]
  have hg : (node % 64 == 0 && r.2 && r.1.nodeOk e.ctx.f.cores && (e.s.nodeQueues e.cid snap r.1).isSome) =
      (e.s.nodeQueues e.cid snap r.1).isSome := by rw [hz, hok, hal]; rfl
  exact congrArg (guardC · _ >>= fun _ => _) hg

end

/-- Settles O44: EMIT by `emit_body`, LAUNCH by `launch_body`, LWAIT by the cases of `lwait_eq`, the messages by their lemmas. -/
theorem launchAndMessageWordsComplete : Obligations.LaunchAndMessageWordsComplete := by
  intro s e
  refine ⟨fun f node src key ring tm h hc hx hw hag hnode => ?_, fun f h hc => ⟨launch_waits h, fun bs ds qs ho => ?_⟩, fun f hc => ?_,
    fun f key h hc ha hk => ⟨fun hno => msgrd_waits h ha hk hno, fun hno => ⟨_, msgrd_takes h ha hk hno, rfl⟩⟩, fun f key h hc hlen hk => ?_⟩
  · intro snap r hring hal hz hok
    obtain ⟨body, hbody, hend⟩ := emit_body (s := s) hw hag hnode hring hal hz hok
    refine ⟨fun hq => ?_, fun hq hkey hlow hsrc hend' hch => ?_⟩
    · refine (onceWord_halts h hbody (.inl hx) (x := { code := 0x19, addr := node }) (hend.trans ?_) rfl).1 hc
      rw [Env.emitEnd, hq]; rfl
    · have hg : (mnat snap.data ring 8 == lidKey e.lid / 2 ^ 16 && lidKey e.lid % 2 ^ 16 == 0) = true := by
        rw [Bool.and_eq_true, beq_iff_eq, beq_iff_eq]
        exact ⟨hkey, hlow⟩
      have hs : (decide (e.spb ≤ src) && decide (src + r.1.gy ≤ e.spb + e.lch.layout.rings)) = true := by simp [hsrc, hend']
      refine ⟨_, hbody.trans (onceWord_next h (.inl hx) (hend.trans ?_)),
        e.record (some (.emit f)) ((encode (.emit f)).getD 0) (flt 0x19), rfl, rfl, rfl⟩
      rw [Env.emitEnd, hq, guardC_true, chk_ok_bind, hg, guardC_true, chk_ok_bind, hs, guardC_true, chk_ok_bind, hch]
      rfl
  · intro t a n r hal hbs hz hok hds hq submitted seen
    obtain ⟨body, hbody, hend⟩ := launch_body (s := s) ho hal hbs hz hok hds hq
    exact ⟨fun hfull => hbody.trans (issueWord_park h rfl (hend.trans (if_pos hfull))),
      fun hroom => ⟨_, hbody.trans (issueWord_ok h (hend.trans (if_neg (Nat.not_le.mpr hroom)))), rfl⟩⟩
  · intro key lid back later runs h0 hn
    have hno : ¬runs → ∀ cancel, (cancel && ((tget lid e.s.launches).any fun l => !l.isDone)) = false := fun hr cancel => by
      rw [Bool.eq_false_iff]
      intro hb
      cases hl : tget lid e.s.launches with
      | none => simp [hl] at hb
      | some l => exact hr ⟨l, hl, by simpa [hl] using (Bool.and_eq_true_iff.mp hb).2⟩
    have hlwait : (false && ((tget lid e.s.launches).any fun l => !l.isDone)) = false := rfl
    refine ⟨fun hlate => ⟨fun h => ?_, fun hr h => ?_, fun ⟨l, hl, hd⟩ h => ?_⟩, fun hlate hl => ?_,
      fun l hlate hl => ⟨fun st hst => ?_, fun hd => ?_⟩⟩
    · exact ⟨_, issueWord_ok h (congrArg ofChk (lwait_expired h0 hn rfl hlwait hlate)), rfl⟩
    · exact ⟨_, issueWord_ok h (congrArg ofChk (lwait_expired h0 hn rfl (hno hr true) hlate)), rfl⟩
    · refine ⟨_, issueWord_ok h (congrArg ofChk (lwait_cancelled h0 hn rfl hl hd)), ?_⟩
      rw [if_pos hlate]; rfl
    · have hr : ¬runs := fun ⟨l, hl', _⟩ => Option.some_ne_none l (hl'.symm.trans hl)
      have hun := fun cancel => lwait_unformed (f := f) h0 hn rfl (hno hr cancel) hlate hl
      exact ⟨fun hs h => ⟨_, issueWord_ok h (congrArg ofChk ((hun false).trans (if_pos hs))), rfl⟩,
        fun hs h => ⟨_, issueWord_ok h (congrArg ofChk ((hun true).trans (if_pos hs))), rfl⟩,
        fun hs h => issueWord_park h rfl (congrArg ofChk ((hun false).trans (if_neg (Bool.eq_false_iff.mp hs)))),
        fun hs h => issueWord_park h rfl (congrArg ofChk ((hun true).trans (if_neg (Bool.eq_false_iff.mp hs))))⟩
    · have hr : ¬runs := fun ⟨l', hl', hd⟩ => by
        obtain rfl := Option.some.inj (hl.symm.trans hl')
        rw [Launch.isDone, hst] at hd
        cases hd
      exact ⟨fun h => ⟨_, issueWord_ok h (congrArg ofChk (lwait_done h0 hn rfl hlwait hlate hl hst)), rfl⟩,
        fun h => ⟨_, issueWord_ok h (congrArg ofChk (lwait_done h0 hn rfl (hno hr true) hlate hl hst)), rfl⟩⟩
    · refine ⟨fun h => issueWord_park h rfl (congrArg ofChk (lwait_running h0 hn rfl hlwait hlate hl hd)), fun h => ?_⟩
      refine ⟨_, issueWord_ok h (congrArg ofChk (lwait_cancelled h0 hn rfl hl hd)), ?_⟩
      rw [if_neg (Nat.not_le.mpr hlate)]; rfl
  · obtain ⟨body, hbody, hend⟩ := msgwr_body (s := s) hlen hk
    refine ⟨fun ho => hbody.trans (issueWord_park h rfl (hend.trans (if_pos ho))), fun ho hh => ?_, fun ho hh => ?_⟩
    · exact ⟨_, hbody.trans (issueWord_ok h (hend.trans ((if_neg (by omega)).trans (if_pos hh)))), rfl⟩
    · exact ⟨_, hbody.trans (issueWord_ok h (hend.trans ((if_neg (by omega)).trans (if_neg (by simp [hh]))))), rfl⟩

end Sys2Proof.Machine
end

section
/-! SUPPORT. The life cycle and the errors: what a strike leaves of an image, of a team's images and of a group, and contexts that stop
together (R364, R397, R400, R203, R183). -/

namespace Sys2Proof.Machine

/-! ### Tables under a map of their entries -/

/-- What is read under a map that changes entries key by key. -/
theorem tget_map {α β : Type} (f : Nat → α → β) (t : Tab α) (k : Nat) : tget k (t.map fun x => (x.1, f x.1 x.2)) = (tget k t).map (f k) := by
  induction t with
  | nil => rfl
  | cons p t ih =>
    obtain ⟨j, x⟩ := p
    by_cases h : j = k
    · subst h; simp [tget]
    · simp [tget, h, ih]

theorem State.tget_modGroups_eq (s : State) (tid gid : Nat) (f : Nat → Group → Group) : tget gid (s.modGroups tid f).groups =
    (tget gid s.groups).map fun g => if gidTid gid == tid && gid < 2 ^ 200 then f gid g else g := by
  have hmap : (s.modGroups tid f).groups = s.groups.map fun x => (x.1, if gidTid x.1 == tid && x.1 < 2 ^ 200 then f x.1 x.2 else x.2) :=
    List.map_congr_left fun x _ => (apply_ite (Prod.mk x.1) ..).symm
  rw [hmap, tget_map (fun k x => if gidTid k == tid && k < 2 ^ 200 then f k x else x)]

theorem State.tget_modGroups {s : State} {tid gid : Nat} {g : Group} (f : Nat → Group → Group) (ht : gidTid gid = tid) (hg : gid < 2 ^ 200)
    (h : tget gid s.groups = some g) : tget gid (s.modGroups tid f).groups = some (f gid g) := by
  rw [State.tget_modGroups_eq, h]
  exact congrArg some (if_pos (by rw [ht, decide_eq_true hg, beq_self_eq_true]; rfl))

/-! ### Bytes that are struck read zero -/

/-- A store of zeros at some addresses. -/
theorem mget_mapply_zeros (m : Memory) (ks : List Nat) (k : Nat) :
    mget (mapply m (ks.map fun a => (a, 0))) k = if k ∈ ks then 0 else mget m k := by
  induction ks generalizing m with
  | nil => rfl
  | cons a ks ih =>
    show mget (mapply (mset m a 0) (ks.map fun a => (a, 0))) k = _
    rw [ih]
    by_cases hk : k = a
    · subst hk; simp [mget_mset_same]
    · simp [mget_mset_ne _ _ hk, hk]

/-- The addresses of the bytes of a unit that a mask names. -/
theorem mem_struck {u bad k : Nat} : k ∈ ((List.range 64).filter (bitOf bad)).map (64 * u + ·) ↔ k / 64 = u ∧ bitOf bad (k % 64) = true := by
  simp only [List.mem_map, List.mem_filter, List.mem_range]
  constructor
  · rintro ⟨i, ⟨hi, hb⟩, rfl⟩
    rw [show (64 * u + i) / 64 = u by omega, show (64 * u + i) % 64 = i by omega]
    exact ⟨rfl, hb⟩
  · rintro ⟨rfl, hb⟩
    exact ⟨k % 64, ⟨by omega, hb⟩, by omega⟩

theorem Image.mget_strike (m : Image) (u bad k : Nat) :
    mget (m.strike u bad).data k = if k / 64 = u ∧ bitOf bad (k % 64) = true then 0 else mget m.data k := by
  have h := mget_mapply_zeros m.data (((List.range 64).filter (bitOf bad)).map (64 * u + ·)) k
  rw [List.map_map] at h
  exact h.trans (if_congr mem_struck rfl rfl)

/-- The clears of a unit by a group's own operations. -/
def clearsOf (ops : List GOp) (u : Nat) : List Bool :=
  ops.filterMap fun o => match o with | .poison n b => if n = u then some b else none | _ => none

theorem Image.strikeUnder_eq (m : Image) (ops : List GOp) (u bad : Nat) : m.strikeUnder ops ⟨u, bad⟩ =
    if (clearsOf ops u).getLast? = some false then m
    else m.strike u (maskOf ((List.range 64).filter fun i => bitOf bad i && !(ops.flatMap GOp.words).contains ((64 * u + i) / 4 * 4))) := by
  have hc : (ops.filterMap fun o => match o with | .poison n b => if n == u then some b else none | _ => none) = clearsOf ops u :=
    List.filterMap_congr fun o _ => by cases o <;> simp
  rw [← hc]
  exact if_congr beq_iff_eq rfl rfl

theorem Image.mget_strikeUnder (m : Image) (ops : List GOp) (u bad : Nat) (h : ¬(clearsOf ops u).getLast? = some false) (k : Nat) :
    mget (m.strikeUnder ops ⟨u, bad⟩).data k =
      if k / 64 = u ∧ bitOf bad (k % 64) = true ∧ (∀ o ∈ ops, k / 4 * 4 ∉ o.words) then 0 else mget m.data k := by
  rw [Image.strikeUnder_eq, if_neg h, Image.mget_strike]
  refine if_congr (and_congr_right fun hk => ?_) rfl rfl
  rw [bitOf_maskOf_filter_range, show 64 * u + k % 64 = k by omega]
  simp [Nat.mod_lt]

/-! ### A strike on the spill stacks -/

/-- The bytes of a unit that fall in a window, with their places in it. -/
theorem mget_struck_window (m : Memory) (base n unit bad a : Nat) :
    mget (mapply m (((((List.range 64).filter (bitOf bad)).map (64 * unit + ·)).filter fun b => base ≤ b && b < base + n).map
      fun b => (b - base, 0))) a = if a < n ∧ (base + a) / 64 = unit ∧ bitOf bad ((base + a) % 64) = true then 0 else mget m a := by
  have h := mget_mapply_zeros m
    (((((List.range 64).filter (bitOf bad)).map (64 * unit + ·)).filter fun b => base ≤ b && b < base + n).map (· - base)) a
  rw [List.map_map] at h
  refine h.trans (if_congr ?_ rfl rfl)
  simp only [List.mem_map (f := (· - base)), List.mem_filter (p := fun b => decide (base ≤ b) && decide (b < base + n)), mem_struck,
    Bool.and_eq_true, decide_eq_true_eq]
  constructor
  · rintro ⟨b, ⟨hb, hlo, hhi⟩, rfl⟩
    rw [Nat.add_sub_cancel' hlo]
    exact ⟨by omega, hb⟩
  · rintro ⟨ha, hb⟩
    exact ⟨base + a, ⟨hb, by omega, by omega⟩, by omega⟩

theorem Launch.strikeSpill_slice (l : Launch) (gid unit bad : Nat) (g : Group) {n : Nat} {x : Slice} (hx : g.slices[n]? = some x) :
    ∃ m, (l.strikeSpill gid ⟨unit, bad⟩ g).slices[n]? = some { x with spill := m } ∧ ∀ a,
      let at' := l.layout.spills + gidG gid * (l.lr.spill * 64) + n * (l.lr.spill * 8) + a
      mget m a = if a < l.lr.spill * 8 ∧ at' / 64 = unit ∧ bitOf bad (at' % 64) = true then 0 else mget x.spill a := by
  have hz : g.slices.zipIdx[n]? = some (x, n) := by rw [List.getElem?_zipIdx, hx]; simp
  exact ⟨_, (List.getElem?_map ..).trans (congrArg _ hz), fun a => mget_struck_window ..⟩

/-! ### Contexts that stop together -/

/-- What stopping some contexts leaves: memory, the groups, the poison, what was reported, and every context that had stopped. -/
def State.Stopping (s t : State) : Prop :=
  t.mem = s.mem ∧ t.groups = s.groups ∧ t.memPoison = s.memPoison ∧ (∀ r ∈ s.reports, r ∈ t.reports) ∧
  ∀ cid, (tget cid t.ctxs).isSome = (tget cid s.ctxs).isSome ∧
    ((tget cid s.ctxs).map (·.state) = some .faulted → (tget cid t.ctxs).map (·.state) = some .faulted)

theorem State.Stopping.refl (s : State) : s.Stopping s := ⟨rfl, rfl, rfl, fun _ h => h, fun _ => ⟨rfl, id⟩⟩
theorem State.Stopping.trans {s t u : State} : s.Stopping t → t.Stopping u → s.Stopping u :=
  fun ⟨hm, hg, hp, hr, hc⟩ ⟨hm', hg', hp', hr', hc'⟩ => ⟨hm'.trans hm, hg'.trans hg, hp'.trans hp, fun r h => hr' r (hr r h),
    fun cid => ⟨(hc' cid).1.trans (hc cid).1, fun h => (hc' cid).2 ((hc cid).2 h)⟩⟩

/-- What a turn that passes leaves of a context. -/
theorem State.passTurn_map {β : Type} {p : Ctx → β} (hp : ∀ x a, p { x with after := a } = p x) (s : State) (cid k : Nat) :
    (tget k (s.passTurn cid).ctxs).map p = (tget k s.ctxs).map p := by
  unfold State.passTurn
  split
  · next c hc =>
    split
    · have hmap : (s.ctxs.map fun x => if x.2.shares c then (x.1, { x.2 with after := cid }) else x) =
          s.ctxs.map fun x => (x.1, if x.2.shares c then { x.2 with after := cid } else x.2) :=
        List.map_congr_left fun x _ => (apply_ite (Prod.mk x.1) ..).symm
      simp only [hmap, tget_map fun _ (x : Ctx) => if x.shares c then { x with after := cid } else x, Option.map_map]
      refine congrArg (Option.map · _) (funext fun x => ?_)
      dsimp only [Function.comp]
      split
      · exact hp x cid
      · rfl
    · rfl
  · rfl

/-- What the end of a checkpoint leaves of a context. -/
theorem State.endCheckpoint_map {β : Type} {p : Ctx → β} (hp : ∀ x, p { x with checkpointReq := false } = p x) (s : State) (cid k : Nat) :
    (tget k (s.endCheckpoint cid).ctxs).map p = (tget k s.ctxs).map p := by
  unfold State.endCheckpoint
  split
  · next c hc =>
    split
    · by_cases hk : k = cid
      · subst hk
        simp [State.report, State.putC, tget_tput_same, hc, hp]
      · simp [State.report, State.putC, tget_tput_ne _ _ hk]
    · rfl
  · rfl

/-- A context that faults: its state, its event, and what stays. -/
theorem State.faultCtx_state (s : State) (cid code k : Nat) : (tget k (s.faultCtx cid code).ctxs).map (·.state) =
    if k = cid then (tget k s.ctxs).map fun _ => .faulted else (tget k s.ctxs).map (·.state) := by
  rw [State.faultCtx, State.endCheckpoint_map fun _ => rfl]
  have hp := s.passTurn_map (p := (·.state)) (fun _ _ => rfl) cid k
  by_cases hk : k = cid
  · subst hk
    rw [if_pos rfl]
    show (tget k (tmod k _ (s.passTurn k).ctxs)).map _ = _
    rw [tget_tmod_same]
    cases h : tget k s.ctxs <;> cases h' : tget k (s.passTurn k).ctxs <;> simp [h, h'] at hp ⊢
  · rw [if_neg hk, ← hp]
    show (tget k (tmod cid _ (s.passTurn cid).ctxs)).map _ = _
    rw [tget_tmod_ne _ _ hk]

theorem State.endCheckpoint_frame (s : State) (cid : Nat) : (s.endCheckpoint cid).groups = s.groups ∧ (s.endCheckpoint cid).memPoison = s.memPoison ∧
    ∀ r ∈ s.reports, r ∈ (s.endCheckpoint cid).reports := by
  unfold State.endCheckpoint
  split
  · split
    · exact ⟨rfl, rfl, fun r h => List.mem_append_left _ h⟩
    · exact ⟨rfl, rfl, fun _ h => h⟩
  · exact ⟨rfl, rfl, fun _ h => h⟩

theorem State.faultCtx_stopping (s : State) (cid code : Nat) :
    s.Stopping (s.faultCtx cid code) ∧ .event cid .faulted code ∈ (s.faultCtx cid code).reports := by
  obtain ⟨cs, hcs⟩ := s.passTurn_eq cid
  have hst := s.faultCtx_state cid code
  have hm := (faultCtx_kept s cid code).2
  unfold State.faultCtx at hst hm ⊢
  dsimp only at hst hm ⊢
  obtain ⟨hg, hp, hr⟩ := ((({ (s.passTurn cid).modC cid fun c => { c with state := .faulted } with
    errors := ((s.passTurn cid).modC cid fun c => { c with state := .faulted }).errors ++ [LogRec.fault cid code] } : State).report
      (.event cid .faulted code)).endCheckpoint_frame cid)
  refine ⟨⟨hm, hg.trans (by rw [hcs]; rfl), hp.trans (by rw [hcs]; rfl), fun r h => hr r ?_, fun k => ?_⟩, hr _ ?_⟩
  · refine List.mem_append_left _ ?_
    rw [hcs]; exact h
  · have h := hst k
    refine ⟨?_, fun hf => h.trans ?_⟩
    · have := congrArg Option.isSome h
      rwa [Option.isSome_map, apply_ite Option.isSome, Option.isSome_map, Option.isSome_map, ite_self] at this
    · split
      · exact (congrArg (Option.map _) rfl).trans (by cases hk : tget k s.ctxs <;> simp [hk] at hf ⊢)
      · exact hf
  · exact List.mem_append_right _ (List.mem_singleton_self _)

theorem State.faultAll_stopping (s : State) (cids : List Nat) : s.Stopping (s.faultAll cids) :=
  foldl_of_steps State.Stopping.refl .trans cids (fun u cid _ => ((u.draw).2.faultCtx_stopping cid _).1) s

theorem State.faultAll_stops (s : State) {cids : List Nat} {cid : Nat} {c : Ctx} (h : cid ∈ cids) (hc : tget cid s.ctxs = some c) :
    (tget cid (s.faultAll cids).ctxs).map (·.state) = some .faulted ∧ ∃ code, .event cid .faulted code ∈ (s.faultAll cids).reports := by
  induction cids generalizing s c with
  | nil => cases h
  | cons x cids ih =>
    show (tget cid (((s.draw).2.faultCtx x _).faultAll cids).ctxs).map (·.state) = _ ∧ ∃ code, _ ∈ (((s.draw).2.faultCtx x _).faultAll cids).reports
    obtain ⟨-, -, -, hr, hs⟩ := ((s.draw).2.faultCtx x (s.draw).1.toNat).faultAll_stopping cids
    by_cases hx : cid = x
    · subst hx
      refine ⟨(hs cid).2 ?_, _, hr _ ((s.draw).2.faultCtx_stopping cid _).2⟩
      rw [State.faultCtx_state, if_pos rfl]
      exact congrArg _ hc
    · obtain ⟨c', hc'⟩ := Option.isSome_iff_exists.mp ((((s.draw).2.faultCtx_stopping x (s.draw).1.toNat).1.2.2.2.2 cid).1.trans
        (congrArg Option.isSome hc))
      exact ih _ ((List.mem_cons.mp h).resolve_left hx) hc'

/-! ### The images of a team under a strike -/

theorem Team.modImages_parts (t : Team) (gs : List (Nat × Group)) (u : Nat) (live : Bool) (f : Image → Image) :
    let held := fun (p : Nat → Bool) => gs.any fun g => (tget u g.2.preLines).any p
    let part := fun (p : Nat → Bool) (a b : Image) => b = if (a.unitLike t.data u && !held p) = live then f a else a
    let t' := t.modImages gs u live f
    part (· == 8) t.cImg t'.cImg ∧ part (· == 8) t.dImg t'.dImg ∧ part (fun _ => true) t.cSnap t'.cSnap ∧
      part (fun _ => true) t.dSnap t'.dSnap ∧ part (· == 8) t.pre t'.pre :=
  ⟨if_congr beq_iff_eq rfl rfl, if_congr beq_iff_eq rfl rfl, if_congr beq_iff_eq rfl rfl, if_congr beq_iff_eq rfl rfl,
    if_congr beq_iff_eq rfl rfl⟩

theorem Group.tile_tput (g : Group) (k : Nat) (x : Tile) : ({ g with tiles := tput k x g.tiles } : Group).tile k = x := by
  simp [Group.tile, tget_tput_same]

/-- A stack that fails spoils the units that hold anything in it. -/
theorem State.spoilLines_poison (s : State) (us : List Nat) {u : Nat} (h : u ∈ us ∨ u ∈ s.memPoison) :
    u ∈ (us.foldl (fun s u => s.spoilLine u) s).memPoison := by
  induction us generalizing s with
  | nil => exact h.resolve_left List.not_mem_nil
  | cons x us ih =>
    refine ih _ ?_
    rcases h with h | h
    · exact (List.mem_cons.mp h).symm.imp id fun hx => mem_nins.mpr (.inl hx)
    · exact .inr (mem_nins.mpr (.inr h))

/-- Spoiled units are the module's poison and those of the grids' images: nothing else moves. -/
theorem State.spoilLines_frame (s : State) (us : List Nat) :
    ∃ ps ls, us.foldl (fun s u => s.spoilLine u) s = { s with memPoison := ps, launches := ls } :=
  foldl_of_steps (R := fun s t : State => ∃ ps ls, t = { s with memPoison := ps, launches := ls }) (fun s => ⟨s.memPoison, s.launches, rfl⟩)
    (by rintro s _ _ ⟨ps, ls, rfl⟩ ⟨ps', ls', rfl⟩; exact ⟨ps', ls', rfl⟩) us (fun _ _ _ => ⟨_, _, rfl⟩) s

end Sys2Proof.Machine
end

section
/-! CLAIM. The life cycle, resets, errors, temperature and counters (R364, R400, R397, R254, R203). -/

namespace Sys2Proof.Machine

/-- Settles O52: the contexts that stop by `State.faultAll_stops`, the strikes by `Image.mget_strike`, `Image.mget_strikeUnder` and
`Launch.strikeSpill_slice`. -/
theorem lifeCycleAndErrorsComplete : Obligations.LifeCycleAndErrorsComplete := by
  intro s logged
  refine ⟨⟨s.fuse.next, rfl, by cases s.fuse <;> decide⟩, ?warm, ?cold, ?thermal, fun die hd => congrArg Host.Outcome.next (if_pos hd),
    fun a => ⟨_, rfl, rfl⟩, fun _ _ _ => rfl, fun _ _ _ => rfl, fun gid r hr => congrArg Host.Outcome.next (if_neg (by simpa using hr)),
    fun _ _ _ => rfl, ?tile, ?bquarter, ?transfer, ?stack, ?strike, ?team, ?under, ?counter, ?ramp, ?idle⟩
  case warm =>
    refine ⟨_, rfl, rfl, rfl, rfl, rfl, rfl, rfl, rfl, fun c => ?_, fun u hu => (List.mem_filter.mp hu).1⟩
    show c ∈ (hImage s).data.filter (fun c => staysWarm c.1) ↔ _
    simp [staysWarm]
  case cold =>
    intro images ok
    have hall : images.all (FwImage.ok ·) = ok := rfl
    cases hok : ok with
    | true =>
      refine ⟨_, congrArg Host.Outcome.next (if_pos (hall.trans hok)), rfl, rfl, rfl, rfl, fun c => List.mem_filter, rfl, rfl, rfl, ?_⟩
      exact (List.append_nil _).symm
    | false =>
      exact ⟨_, congrArg Host.Outcome.next (if_neg (by rw [hall, hok]; exact Bool.false_ne_true)), rfl, rfl, rfl, rfl, fun c => List.mem_filter,
        rfl, rfl, rfl, rfl⟩
  case thermal =>
    intro die hd
    obtain ⟨hm, hg, -⟩ := s.faultAll_stopping (tkeys s.ctxs)
    exact ⟨_, congrArg Host.Outcome.next (if_neg (Nat.not_le.mpr hd)), hm, hg, fun cid c hc =>
      s.faultAll_stops (List.mem_map.mpr ⟨_, mem_of_tget hc, rfl⟩) hc⟩
  case tile =>
    intro gid k x g hg
    refine ⟨_, _, rfl, (tget_tmod_same ..).trans (congrArg _ hg), rfl, ?_, ?_, fun j hj => tget_tput_ne _ _ hj⟩
    · exact congrArg Tile.bad (g.tile_tput k { g.tile k with bad := nins x (g.tile k).bad })
    · exact (congrArg Tile.words (g.tile_tput k { g.tile k with bad := nins x (g.tile k).bad })).trans rfl
  case bquarter =>
    intro tid set gen q w tm htm
    refine ⟨_, _, rfl, (tget_tmod_same ..).trans (congrArg _ htm), rfl, fun b hb => ⟨_, (tget_tmod_same ..).trans (congrArg _ hb), ?_⟩⟩
    dsimp only
    split
    · next h => simpa using h
    · exact List.mem_append_right _ (List.mem_singleton_self _)
  case transfer =>
    intro op line o ho
    exact ⟨_, rfl, (tget_tmod_same ..).trans (congrArg _ ho), rfl, fun k hk => tget_tmod_ne _ _ hk⟩
  case stack =>
    intro die stack
    let us := (s.mem.filter fun c => keyType c.1 == 1 && stackOf (c.1 % 2 ^ 56) == (die, stack)).foldl (fun l c => nins (c.1 / 64) l) []
    obtain ⟨ps, ls, hu⟩ := (logged (.stack die stack)).spoilLines_frame us
    have hps : ∀ u ∈ us, u ∈ ps := fun u h => by
      have := (logged (.stack die stack)).spoilLines_poison us (.inl h)
      rwa [hu] at this
    let u : State := { logged (.stack die stack) with memPoison := ps, launches := ls }
    obtain ⟨hm, -, hp, -⟩ := u.faultAll_stopping (s.usesStack die stack)
    refine ⟨u.faultAll (s.usesStack die stack), congrArg (fun t : State => Host.Outcome.next (t.faultAll (s.usesStack die stack))) hu, hm,
      fun c hc ht hst => hp ▸ hps _ (mem_insAll.mpr (.inr ⟨c, List.mem_filter.mpr ⟨hc, ?_⟩, rfl⟩)),
      fun cid c hc hin => u.faultAll_stops hin hc⟩
    rw [ht, hst, BEq.rfl, BEq.rfl]; rfl
  case strike =>
    exact fun m u bad => ⟨rfl, m.mget_strike u bad⟩
  case team =>
    intro tid unit bad tm htm held part kept any parts
    refine ⟨⟨_, _, rfl, (tget_tmod_same ..).trans (congrArg _ htm), rfl, ?_, rfl, rfl⟩,
      ⟨_, _, rfl, (tget_tmod_same ..).trans (congrArg _ htm), rfl, ?_, rfl, rfl, fun gid g ht hg h => ?_⟩⟩
    · exact tm.modImages_parts (s.teamGroups tid) unit false (·.strike unit bad)
    · exact tm.modImages_parts (s.teamGroups tid) unit true (·.strike unit bad)
    · exact ⟨_, State.tget_modGroups _ ht hg h, rfl, fun n x hx => Launch.strikeSpill_slice _ gid unit bad (g.strike ⟨unit, bad⟩) hx⟩
  case under =>
    intro m ops unit bad u whole
    refine ⟨fun h => (m.strikeUnder_eq ops unit bad).trans (if_pos h), fun h => ⟨?_, m.mget_strikeUnder ops unit bad h⟩⟩
    exact congrArg Image.poison ((m.strikeUnder_eq ops unit bad).trans (if_neg h))
  case counter =>
    exact fun cid core n h => congrArg Host.Outcome.next (if_neg (Nat.not_lt.mpr h))
  case ramp =>
    intro core h
    refine ⟨_, congrArg Host.Outcome.next (if_pos h), sget_sset_same s.ramp core 0, fun hc => ?_, rfl⟩
    have hne : core ≠ 2 ^ 20 + core := by omega
    exact (sget_sset_ne (d := 0) (sset 0 s.rampPrev core (sget 0 s.ramp core)) (s.rampNo core + 1) hne).trans (sget_sset_same ..)
  case idle =>
    exact fun core h => congrArg Host.Outcome.next (if_neg (Bool.eq_false_iff.mp h))

end Sys2Proof.Machine
end

section
/-! SUPPORT. Contexts on and off their cores: what pre-empting the groups and placing bytes leave (R345, R349). -/

namespace Sys2Proof.Machine

/-! ### Steps that change groups only -/

/-- A state that differs in its groups only. -/
def State.GroupsOnly (s t : State) : Prop := ∃ gs, t = { s with groups := gs }

theorem State.GroupsOnly.refl (s : State) : s.GroupsOnly s := ⟨s.groups, rfl⟩
theorem State.GroupsOnly.trans {s t u : State} : s.GroupsOnly t → t.GroupsOnly u → s.GroupsOnly u := by
  rintro ⟨gs, rfl⟩ ⟨gs', rfl⟩
  exact ⟨gs', rfl⟩

theorem State.logBad_groups (s : State) (gid : Nat) (pc : W64) (l : List W64) : s.GroupsOnly (s.logBad gid pc l) := by
  unfold State.logBad
  split
  · exact .refl s
  · refine .trans (t := s.modG gid fun g => g.raiseAll fME) ⟨_, rfl⟩ (foldl_of_steps .refl .trans l (fun u c _ => ?_) _)
    split <;> exact ⟨_, rfl⟩

theorem State.tileStep_groups (s : State) (gid : Nat) : s.GroupsOnly (s.tileStep gid) := by
  unfold State.tileStep
  split
  · exact .refl s
  · split
    · exact .refl s
    · split
      · exact ⟨_, rfl⟩
      · exact .trans ⟨_, rfl⟩ (State.logBad_groups _ _ _ _)
      · exact ⟨_, rfl⟩

theorem State.tileFlush_groups (s : State) (gid : Nat) : s.GroupsOnly (s.tileFlush gid) := by
  unfold State.tileFlush
  split
  · exact .refl s
  · exact foldl_of_steps .refl .trans _ (fun u _ _ => u.tileStep_groups gid) s

theorem State.preempt_groups (s : State) (gid : Nat) : s.GroupsOnly (s.preempt gid) := .trans ⟨_, rfl⟩ (State.tileFlush_groups _ _)

theorem State.preemptCtx_groups (s : State) (cid : Nat) : s.GroupsOnly (s.preemptCtx cid) :=
  foldl_of_steps .refl .trans _ (fun u g _ => u.preempt_groups g.1) s

/-! ### A context that leaves its cores -/

@[simp] theorem State.place_ctxs (s : State) (k : Nat) (b : Blob) : (s.place k b).ctxs = s.ctxs := rfl
@[simp] theorem State.place_groups (s : State) (k : Nat) (b : Blob) : (s.place k b).groups = s.groups := rfl
@[simp] theorem State.place_teams (s : State) (k : Nat) (b : Blob) : (s.place k b).teams = s.teams := rfl

theorem State.writeRecord_of_ctx {s : State} {cid : Nat} {c : Ctx} (h : tget cid s.ctxs = some c) :
    s.writeRecord cid = s.place (saveKey c) (s.record cid c) := by rw [State.writeRecord, h]
theorem State.writeMap_of_ctx {s : State} {cid : Nat} {c : Ctx} (h : tget cid s.ctxs = some c) :
    s.writeMap cid = s.place (mapKey c.f 0) (Blob.ofBytes (c.coreMap.flatMap (leBytes 2))) := by rw [State.writeMap, h]

/-- What a written core map leaves of memory. -/
theorem State.mget_writeMap_out {s : State} {cid : Nat} {c : Ctx} (h : tget cid s.ctxs = some c) {k : Nat}
    (hk : k < mapKey c.f 0 ∨ mapKey c.f c.coreMap.length ≤ k) : mget (s.writeMap cid).mem k = mget s.mem k := by
  rw [State.writeMap_of_ctx h]
  refine State.mget_place_out _ _ (hk.imp id fun hk => ?_)
  have hlen : (Blob.ofBytes (c.coreMap.flatMap (leBytes 2))).len = 2 * c.coreMap.length := by
    simp [Blob.ofBytes, List.length_flatMap, leBytes_length, Nat.mul_comm]
  rw [hlen]
  simp only [mapKey, physKey] at hk ⊢
  omega

/-- What the context at a number becomes as the context `c` of number `cid` leaves its cores. -/
def Ctx.afterLeave (x c : Ctx) (cid k : Nat) : Ctx :=
  { x with after := if x.shares c then cid else x.after, state := if k = cid then .switchedOut else x.state }

theorem State.tget_passTurn {s : State} {cid : Nat} {c : Ctx} (hc : tget cid s.ctxs = some c) (hst : c.state = .resident) (k : Nat) :
    tget k (s.passTurn cid).ctxs = (tget k s.ctxs).map fun x => if x.shares c then { x with after := cid } else x := by
  have hmap : (s.passTurn cid).ctxs = s.ctxs.map fun x => (x.1, if x.2.shares c then { x.2 with after := cid } else x.2) := by
    unfold State.passTurn
    simp only [hc, hst, BEq.rfl, if_true]
    exact List.map_congr_left fun x _ => (apply_ite (Prod.mk x.1) ..).symm
  rw [hmap, tget_map fun _ (x : Ctx) => if x.shares c then { x with after := cid } else x]

theorem State.switchOut_resident {s : State} {cid : Nat} {c : Ctx} (hc : tget cid s.ctxs = some c) (hst : c.state = .resident) :
    s.switchOut cid = ((((s.preemptCtx cid).passTurn cid).modC cid fun c => { c with state := .switchedOut }).writeRecord cid).dropPages cid
      fun _ => false := by
  unfold State.switchOut
  rw [State.ctxState_eq hc, hst]

/-- The contexts after one has left its cores. -/
theorem State.tget_leftCores {s : State} {cid : Nat} {c : Ctx} (hc : tget cid s.ctxs = some c) (hst : c.state = .resident) (k : Nat) :
    tget k (((s.preemptCtx cid).passTurn cid).modC cid fun c => { c with state := .switchedOut }).ctxs =
      (tget k s.ctxs).map fun x => x.afterLeave c cid k := by
  obtain ⟨gs, hgs⟩ := s.preemptCtx_groups cid
  have hc' : tget cid (s.preemptCtx cid).ctxs = some c := by rw [hgs]; exact hc
  have hp := State.tget_passTurn hc' hst k
  rw [show (s.preemptCtx cid).ctxs = s.ctxs by rw [hgs]] at hp
  by_cases hk : k = cid
  · subst hk
    refine (tget_tmod_same ..).trans ?_
    rw [hp, Option.map_map]
    refine congrArg (Option.map · _) (funext fun x => ?_)
    simp only [Function.comp, Ctx.afterLeave, if_true]
    split <;> rfl
  · refine (tget_tmod_ne _ _ hk).trans (hp.trans ?_)
    refine congrArg (Option.map · _) (funext fun x => ?_)
    simp only [Ctx.afterLeave, hk, if_false]
    split <;> rfl

theorem State.writeRecord_ctxs (s : State) (cid : Nat) : (s.writeRecord cid).ctxs = s.ctxs := by
  unfold State.writeRecord
  split <;> rfl

end Sys2Proof.Machine
end

section
/-! CLAIM. The host's commands (R392, R398, R399). -/

namespace Sys2Proof.Machine

/-- A resident context whose checkpoint is in flight. -/
def inFlightState : State := { ctxs := [(0, { state := .resident, checkpointReq := true })] }

theorem inFlight_checkpoint : execCheckpoint 0 inFlightState = .next (inFlightState.report (.answer 0 6 1 0 0)) := rfl

/-- Refutes O48: its clause on CHECKPOINT does not ask that none is in flight, and a second one is answered BUSY, as its first clause says. -/
theorem not_commandsAnswer : ¬Obligations.CommandsAnswer := by
  intro h
  obtain ⟨-, -, hctx, -⟩ := h inFlightState 0 { state := .resident, checkpointReq := true } rfl
  obtain ⟨-, -, -, -, -, hcheckpoint⟩ := hctx rfl
  have heq := Host.Outcome.next.inj (inFlight_checkpoint.symm.trans (hcheckpoint (.inl rfl)))
  exact absurd (congrArg (fun t : State => t.reports.length) heq) (by decide)

end Sys2Proof.Machine
end

section
/-! SUPPORT. What markers, joins and restarts of one group leave: every other group, every core map, every trap slot and the rest of the
state (R44, R155, R355). -/

namespace Sys2Proof.Machine

/-- A state that differs in one group, in teams and contexts, and in what was logged and reported: core maps and trap slots stay, and so do
the teams that were trapped. -/
def State.Acts (gid : Nat) (s t : State) : Prop :=
  ∃ gs ts cs es rs, t = { s with groups := gs, teams := ts, ctxs := cs, errors := es, reports := rs } ∧
    (∀ k, k ≠ gid → tget k gs = tget k s.groups) ∧ (tget gid gs).isSome = (tget gid s.groups).isSome ∧
    (∀ k, (tget k cs).map (·.coreMap) = (tget k s.ctxs).map (·.coreMap)) ∧
    (∀ k, (tget k ts).map (·.trapSlot) = (tget k s.teams).map (·.trapSlot)) ∧
    ∀ k, (tget k s.teams).map (·.trapped) = some true → (tget k ts).map (·.trapped) = some true

namespace State.Acts
variable {gid : Nat} {s t u : State}

theorem refl (s : State) : s.Acts gid s :=
  ⟨s.groups, s.teams, s.ctxs, s.errors, s.reports, rfl, fun _ _ => rfl, rfl, fun _ => rfl, fun _ => rfl, fun _ => id⟩

theorem trans (h : s.Acts gid t) (h' : t.Acts gid u) : s.Acts gid u := by
  obtain ⟨gs, ts, cs, es, rs, rfl, hg, hi, hc, hs, ht⟩ := h
  obtain ⟨gs', ts', cs', es', rs', rfl, hg', hi', hc', hs', ht'⟩ := h'
  exact ⟨gs', ts', cs', es', rs', rfl, fun k hk => (hg' k hk).trans (hg k hk), hi'.trans hi, fun k => (hc' k).trans (hc k),
    fun k => (hs' k).trans (hs k), fun k h => ht' k (ht k h)⟩

theorem modG (s : State) (gid : Nat) (f : Group → Group) : s.Acts gid (s.modG gid f) :=
  ⟨_, s.teams, s.ctxs, s.errors, s.reports, rfl, fun _ hk => tget_tmod_ne _ _ hk, by rw [tget_tmod_same, Option.isSome_map],
    fun _ => rfl, fun _ => rfl, fun _ => id⟩

theorem putG {g : Group} (h : tget gid s.groups = some g) (g' : Group) : s.Acts gid (s.putG gid g') :=
  ⟨_, s.teams, s.ctxs, s.errors, s.reports, rfl, fun _ hk => tget_tput_ne _ _ hk, by rw [tget_tput_same, h]; rfl,
    fun _ => rfl, fun _ => rfl, fun _ => id⟩

end State.Acts

theorem State.endCheckpoint_eq (s : State) (cid : Nat) : ∃ cs rs, s.endCheckpoint cid = { s with ctxs := cs, reports := rs } := by
  unfold State.endCheckpoint
  split
  · split
    · exact ⟨_, _, rfl⟩
    · exact ⟨s.ctxs, s.reports, rfl⟩
  · exact ⟨s.ctxs, s.reports, rfl⟩

theorem State.faultCtx_acts (s : State) (gid cid code : Nat) : s.Acts gid (s.faultCtx cid code) := by
  obtain ⟨cs, hcs⟩ := s.passTurn_eq cid
  have hturn := s.passTurn_map (p := (·.coreMap)) (fun _ _ => rfl) cid
  let u : State := ({ ({ s with ctxs := cs } : State).modC cid fun c => { c with state := .faulted } with
    errors := s.errors ++ [LogRec.fault cid code] } : State).report (.event cid .faulted code)
  have hu : s.faultCtx cid code = u.endCheckpoint cid := by rw [State.faultCtx, hcs]; rfl
  obtain ⟨cs', rs, h⟩ := u.endCheckpoint_eq cid
  have hend := u.endCheckpoint_map (p := (·.coreMap)) (fun _ => rfl) cid
  rw [hcs] at hturn
  rw [h] at hend
  refine ⟨s.groups, s.teams, cs', s.errors ++ [LogRec.fault cid code], rs, hu.trans h, fun _ _ => rfl, rfl, fun k => ?_, fun _ => rfl, fun _ => id⟩
  rw [← hturn k]
  refine (hend k).trans ?_
  show (tget k (tmod cid _ cs)).map _ = (tget k cs).map _
  by_cases hk : k = cid
  · subst hk; rw [tget_tmod_same, Option.map_map]; rfl
  · rw [tget_tmod_ne _ _ hk]

theorem takeFault_acts (s : State) (e : Env) (r : FaultRec) : s.Acts e.gid (takeFault s e r) := by
  unfold takeFault
  split
  · exact s.faultCtx_acts _ _ _
  · refine .trans (.modG s e.gid _) ⟨_, _, _, _, _, rfl, fun _ _ => rfl, rfl, fun _ => rfl, fun k => ?_, fun k h => ?_⟩
    · by_cases hk : k = e.tid
      · subst hk; rw [tget_tmod_same, Option.map_map]; rfl
      · rw [tget_tmod_ne _ _ hk]
    · by_cases hk : k = e.tid
      · subst hk
        rw [tget_tmod_same, Option.map_map]
        obtain ⟨t, ht, -⟩ := Option.map_eq_some_iff.mp h
        exact congrArg (Option.map _) ht
      · rwa [tget_tmod_ne _ _ hk]

theorem faultGroup_acts (s : State) (gid mask : Nat) (r : FaultRec) : s.Acts gid (faultGroup s gid mask r) := by
  unfold faultGroup
  split
  · next e he =>
    have hg : e.gid = gid := (envOf_s he).2.1
    exact hg ▸ takeFault_acts s e r
  · exact .refl s

theorem State.settle_acts (s : State) (gid mask : Nat) : s.Acts gid (s.settle gid mask) := by
  unfold State.settle
  split
  · exact .refl s
  · next g hg =>
    split
    · exact .refl s
    · split
      · exact .putG hg _
      · split
        · exact .trans (.putG hg _) (faultGroup_acts ..)
        · exact .putG hg _

theorem State.marker_acts (s : State) (gid mask : Nat) : s.Acts gid (s.marker gid mask) := by
  unfold State.marker
  split
  · exact .refl s
  · exact foldl_of_steps .refl .trans _ (fun u x _ => u.settle_acts gid x.mask) s

theorem State.release_acts (s : State) (gid mask : Nat) : s.Acts gid (s.release gid mask) := by
  unfold State.release
  split
  · exact .refl s
  · next g hg =>
    split
    · exact .refl s
    · dsimp only
      split
      · exact .trans (.putG hg _) (State.marker_acts ..)
      · exact .putG hg _

theorem State.faultJoin_acts (s : State) (gid : Nat) (g : Group) (mask : Nat) : s.Acts gid (s.faultJoin gid g mask) := by
  unfold State.faultJoin
  dsimp only
  split
  · exact .refl s
  · split
    · exact .refl s
    · next e he =>
      have hg : e.gid = gid := (envOf_s he).2.1
      exact hg ▸ takeFault_acts s e _

theorem State.joinSettled_acts (s : State) (gid mask : Nat) (join : Group → Group) : s.Acts gid (s.joinSettled gid mask join) := by
  unfold State.joinSettled
  split
  · exact .refl s
  · next g hg =>
    split
    · exact .refl s
    · split
      · exact .putG hg _
      · split
        · exact faultGroup_acts ..
        · exact .refl s

theorem State.tryJoin_acts (s : State) (gid mask : Nat) : s.Acts gid (s.tryJoin gid mask) := by
  unfold State.tryJoin
  split
  · exact .refl s
  · next g hg =>
    split
    · exact .refl s
    · split
      · exact .refl s
      · split
        · split
          · exact .refl s
          · dsimp only
            split
            · exact .refl s
            · split
              · exact State.faultJoin_acts ..
              · exact State.joinSettled_acts ..
        · dsimp only
          split
          · exact .refl s
          · split
            · exact State.faultJoin_acts ..
            · split
              · exact .putG hg _
              · exact State.joinSettled_acts ..
        · exact .refl s

theorem State.rejoin_acts (s : State) (gid : Nat) : s.Acts gid (s.rejoin gid) := by
  unfold State.rejoin
  split
  · exact .refl s
  · exact foldl_of_steps .refl .trans _ (fun u x _ => u.tryJoin_acts gid x.mask) s

theorem State.resettle_acts (s : State) (gid : Nat) : s.Acts gid (s.resettle gid) := by
  unfold State.resettle
  split
  · exact .refl s
  · refine .trans (foldl_of_steps .refl .trans _ (fun u x _ => ?_) s) (State.rejoin_acts ..)
    split
    · exact u.settle_acts gid x.mask
    · exact .refl u

end Sys2Proof.Machine
end

section
/-! CLAIM. World switches, time slices and migrations (R345 to R351). -/

namespace Sys2Proof.Machine

/-! ### A group that is pre-empted (R349, R350) -/

/-- A group with its registers as they were. -/
def Group.SameRegs (g h : Group) : Prop := h.vreg = g.vreg ∧ h.sreg = g.sreg ∧ h.kreg = g.kreg ∧ h.pend = g.pend
/-- A group whose results are collected and whose tile queue is empty. -/
def Group.Drained (g : Group) : Prop := g.tileQ = [] ∧ ∀ p ∈ g.pend, p.returned = true

/-- What a step of a group's tile queue leaves: a word less in the queue, its registers and its results. -/
def Ticks (gid : Nat) (s t : State) : Prop := (∀ k, k ≠ gid → tget k t.groups = tget k s.groups) ∧
  ∀ g, tget gid s.groups = some g → ∃ h, tget gid t.groups = some h ∧ h.tileQ = g.tileQ ∧ g.SameRegs h

theorem Ticks.refl (gid : Nat) (s : State) : Ticks gid s s := ⟨fun _ _ => rfl, fun g hg => ⟨g, hg, rfl, rfl, rfl, rfl, rfl⟩⟩
theorem Ticks.trans {gid : Nat} {s t u : State} : Ticks gid s t → Ticks gid t u → Ticks gid s u := by
  rintro ⟨hk, hg⟩ ⟨hk', hg'⟩
  refine ⟨fun k h => (hk' k h).trans (hk k h), fun g h => ?_⟩
  obtain ⟨x, hx, hq, hv, hs, hr, hp⟩ := hg g h
  obtain ⟨y, hy, hq', hv', hs', hr', hp'⟩ := hg' x hx
  exact ⟨y, hy, hq'.trans hq, hv'.trans hv, hs'.trans hs, hr'.trans hr, hp'.trans hp⟩
theorem Ticks.modG (gid : Nat) (s : State) {f : Group → Group} (hf : ∀ g, (f g).tileQ = g.tileQ ∧ g.SameRegs (f g)) :
    Ticks gid s (s.modG gid f) :=
  ⟨fun _ hk => tget_tmod_ne _ _ hk, fun g hg => ⟨f g, (tget_tmod_same ..).trans (congrArg _ hg), hf g⟩⟩

theorem Group.raiseAll_regs (g : Group) (fl : Nat) : (g.raiseAll fl).tileQ = g.tileQ ∧ g.SameRegs (g.raiseAll fl) := by
  rw [Group.raiseAll_slices]
  exact ⟨rfl, rfl, rfl, rfl, rfl⟩

theorem State.logBad_ticks (s : State) (gid : Nat) (pc : W64) (l : List W64) : Ticks gid s (s.logBad gid pc l) := by
  unfold State.logBad
  split
  · exact .refl gid s
  · refine .trans (.modG gid s fun g => g.raiseAll_regs fME) (foldl_of_steps (.refl gid) .trans l (fun u c _ => ?_) _)
    split
    · exact .modG gid u fun g => ⟨rfl, rfl, rfl, rfl, rfl⟩
    · exact .modG gid u fun g => ⟨rfl, rfl, rfl, rfl, rfl⟩

theorem State.tileStep_ticks (s : State) (gid : Nat) {g : Group} (hg : tget gid s.groups = some g) :
    (∀ k, k ≠ gid → tget k (s.tileStep gid).groups = tget k s.groups) ∧
    ∃ h, tget gid (s.tileStep gid).groups = some h ∧ h.tileQ = g.tileQ.tail ∧ g.SameRegs h := by
  have hput : ∀ h : Group, h.tileQ = g.tileQ.tail → g.SameRegs h → ∀ t, Ticks gid (s.putG gid h) t →
      (∀ k, k ≠ gid → tget k t.groups = tget k s.groups) ∧ ∃ h, tget gid t.groups = some h ∧ h.tileQ = g.tileQ.tail ∧ g.SameRegs h := by
    rintro h hq ⟨hv, hs, hk, hp⟩ t ⟨hne, hsame⟩
    obtain ⟨h', hh', hq', hv', hs', hk', hp'⟩ := hsame h (tget_tput_same ..)
    exact ⟨fun k hk => (hne k hk).trans (tget_tput_ne _ _ hk), h', hh', hq'.trans hq, hv'.trans hv, hs'.trans hs, hk'.trans hk, hp'.trans hp⟩
  cases hq : g.tileQ with
  | nil =>
    have hs : s.tileStep gid = s := by simp only [State.tileStep, hg, hq]
    rw [hs]
    exact ⟨fun _ _ => rfl, g, hg, hq, rfl, rfl, rfl, rfl⟩
  | cons op rest =>
    rw [hq] at hput
    unfold State.tileStep
    simp only [hg, hq]
    cases op with
    | zero k =>
      refine hput _ ?_ ?_ _ (.refl ..)
      · rfl
      · exact ⟨rfl, rfl, rfl, rfl⟩
    | mma pc k fmr a b ba bb =>
      refine hput _ ?_ ?_ _ (State.logBad_ticks ..)
      · rfl
      · exact ⟨rfl, rfl, rfl, rfl⟩
    | scale k ty ex f =>
      refine hput _ ?_ ?_ _ (.refl ..)
      · rfl
      · exact ⟨rfl, rfl, rfl, rfl⟩

/-- A flushed queue is empty, and registers, results and other groups stay. -/
theorem State.tileFlush_drains {s : State} {gid : Nat} {g : Group} (hg : tget gid s.groups = some g) :
    (∀ k, k ≠ gid → tget k (s.tileFlush gid).groups = tget k s.groups) ∧
    ∃ h, tget gid (s.tileFlush gid).groups = some h ∧ h.tileQ = [] ∧ g.SameRegs h := by
  suffices hs : ∀ (q : List TileOp) (s : State) (g : Group), tget gid s.groups = some g → g.tileQ = q →
      (∀ k, k ≠ gid → tget k (q.foldl (fun s _ => s.tileStep gid) s).groups = tget k s.groups) ∧
      ∃ h, tget gid (q.foldl (fun s _ => s.tileStep gid) s).groups = some h ∧ h.tileQ = [] ∧ g.SameRegs h by
    rw [State.tileFlush, hg]
    exact hs g.tileQ s g hg rfl
  intro q
  induction q with
  | nil => exact fun s g hg hq => ⟨fun _ _ => rfl, g, hg, hq, rfl, rfl, rfl, rfl⟩
  | cons op rest ih =>
    intro s g hg hq
    obtain ⟨hne, h, hh, hq', hv, hs, hk, hp⟩ := s.tileStep_ticks gid hg
    rw [hq] at hq'
    obtain ⟨hne', h', hh', hq'', hv', hs', hk', hp'⟩ := ih _ h hh hq'
    exact ⟨fun k hk => (hne' k hk).trans (hne k hk), h', hh', hq'', hv'.trans hv, hs'.trans hs, hk'.trans hk, hp'.trans hp⟩

theorem State.preempt_drains {s : State} {gid : Nat} {g : Group} (hg : tget gid s.groups = some g) :
    (∀ k, k ≠ gid → tget k (s.preempt gid).groups = tget k s.groups) ∧
    ∃ h, tget gid (s.preempt gid).groups = some h ∧ h.Drained ∧ h.vreg = g.vreg ∧ h.sreg = g.sreg ∧ h.kreg = g.kreg := by
  obtain ⟨hne, h, hh, hq, hv, hs, hk, hp⟩ := State.tileFlush_drains (s := s.modG gid fun g => { g with
    pend := (g.pend.map fun p => { p with returned := true }).filter (·.slices != 0) }) ((tget_tmod_same ..).trans (congrArg _ hg))
  refine ⟨fun k h => (hne k h).trans (tget_tmod_ne _ _ h), h, hh, ⟨hq, fun p hpm => ?_⟩, hv, hs, hk⟩
  obtain ⟨x, -, rfl⟩ := List.mem_map.mp (List.mem_filter.mp (hp ▸ hpm)).1
  rfl

theorem State.tget_preempt_ne (s : State) {gid k : Nat} (hk : k ≠ gid) : tget k (s.preempt gid).groups = tget k s.groups := by
  cases hg : tget gid s.groups with
  | some g => exact (State.preempt_drains hg).1 k hk
  | none =>
    have hnone : ∀ f, tget gid (s.modG gid f).groups = none := fun f => (tget_tmod_same ..).trans (congrArg _ hg)
    unfold State.preempt State.tileFlush
    rw [hnone]
    exact tget_tmod_ne _ _ hk

/-- A pre-emption of some groups: each of them is drained, and every group keeps its registers. -/
theorem preemptAll_drains (l : List (Nat × Group)) {s : State} {gid : Nat} {g : Group} (hg : tget gid s.groups = some g) :
    ∃ h, tget gid (l.foldl (fun s g => s.preempt g.1) s).groups = some h ∧ h.vreg = g.vreg ∧ h.sreg = g.sreg ∧ h.kreg = g.kreg ∧
      ((∃ x ∈ l, x.1 = gid) ∨ g.Drained → h.Drained) := by
  induction l generalizing s g with
  | nil => exact ⟨g, hg, rfl, rfl, rfl, fun h => h.resolve_left (by simp)⟩
  | cons x l ih =>
    by_cases hx : x.1 = gid
    · subst hx
      obtain ⟨-, h, hh, hd, hv, hs, hk⟩ := State.preempt_drains hg
      obtain ⟨h', hh', hv', hs', hk', hd'⟩ := ih hh
      exact ⟨h', hh', hv'.trans hv, hs'.trans hs, hk'.trans hk, fun _ => hd' (.inr hd)⟩
    · have hne : tget gid (s.preempt x.1).groups = some g := (s.tget_preempt_ne (Ne.symm hx)).trans hg
      obtain ⟨h', hh', hv', hs', hk', hd'⟩ := ih hne
      refine ⟨h', hh', hv', hs', hk', fun h => hd' (h.imp_left ?_)⟩
      rintro ⟨y, hy, rfl⟩
      exact ⟨y, (List.mem_cons.mp hy).resolve_left fun e => hx (congrArg Prod.fst e).symm, rfl⟩

/-! ### Migration (R351) -/

/-- Steps that touch groups, teams, contexts and logs only, and leave the core maps. -/
def State.KeepsMaps (s t : State) : Prop := t.mem = s.mem ∧ t.forwards = s.forwards ∧
  ∀ k, (tget k t.ctxs).map (·.coreMap) = (tget k s.ctxs).map (·.coreMap)

theorem State.KeepsMaps.refl (s : State) : s.KeepsMaps s := ⟨rfl, rfl, fun _ => rfl⟩
theorem State.KeepsMaps.trans {s t u : State} : s.KeepsMaps t → t.KeepsMaps u → s.KeepsMaps u :=
  fun ⟨hm, hf, hc⟩ ⟨hm', hf', hc'⟩ => ⟨hm'.trans hm, hf'.trans hf, fun k => (hc' k).trans (hc k)⟩
theorem State.Acts.keepsMaps {gid : Nat} {s t : State} (h : s.Acts gid t) : s.KeepsMaps t := by
  obtain ⟨_, _, _, _, _, rfl, -, -, hc, -⟩ := h
  exact ⟨rfl, rfl, hc⟩

/-- A migration that goes through. -/
theorem migration_moves {s : State} {cid lcore phys : Nat} {c : Ctx} (hc : tget cid s.ctxs = some c) :
    let s0 : State := { s with forwards := s.liveForwards }
    let c0 : Ctx := { c with migrations := c.migrations.filter (· != (lcore, phys)) }
    s0.canMigrate cid c0 lcore phys = true → s0.forwardsAt (c.phys lcore) < 16 → ∃ t, execMigration cid lcore phys s = .next t ∧
      (tget cid t.ctxs).map (·.coreMap) = some (c.coreMap.set lcore phys) ∧
      (∀ k, k < mapKey c.f 0 ∨ mapKey c.f c.coreMap.length ≤ k → mget t.mem k = mget s.mem k) ∧
      t.forwards = s.liveForwards ++ [(c.phys lcore, cid, lcore, s.nextOp)] := by
  intro s0 c0 hcan hroom
  let u := (s0.coreTeams cid lcore).foldl (fun s t => (s.teamGroups t.1).foldl (fun s g => s.preempt g.1) s) s0
  obtain ⟨gs, hu⟩ : s0.GroupsOnly u := foldl_of_steps .refl .trans _
    (fun v t _ => foldl_of_steps .refl .trans _ (fun w g _ => w.preempt_groups g.1) v) s0
  let c1 : Ctx := { c0 with coreMap := c0.coreMap.set lcore phys }
  have hc1 : tget cid (u.putC cid c1).ctxs = some c1 := tget_tput_same ..
  let v : State := (u.putC cid c1).writeMap cid
  let w : State := { v with forwards := v.forwards ++ [(c.phys lcore, cid, lcore, v.nextOp)] }
  have hv : v = (u.putC cid c1).place _ _ := State.writeMap_of_ctx hc1
  refine ⟨(w.coreTeams cid lcore).foldl (fun s t => (s.teamGroups t.1).foldl (fun s g => if s.gidRuns g.1 then s.resettle g.1 else s) s) w, ?_, ?_⟩
  · unfold execMigration
    rw [hc]
    refine congrArg Host.Outcome.next ((if_neg (by rw [show State.canMigrate _ _ _ _ _ = true from hcan]; decide)).trans
      (if_neg (Nat.not_le.mpr hroom)))
  · obtain ⟨hm, hf, hk⟩ : w.KeepsMaps _ := foldl_of_steps (f := fun (s : State) (t : Nat × Team) => (s.teamGroups t.1).foldl
      (fun s g => if s.gidRuns g.1 then s.resettle g.1 else s) s) State.KeepsMaps.refl .trans (w.coreTeams cid lcore) (fun x t _ =>
        foldl_of_steps State.KeepsMaps.refl .trans _ (fun y g _ => by
          split
          · exact (y.resettle_acts g.1).keepsMaps
          · exact .refl y) x) w
    refine ⟨(hk cid).trans ?_, fun k hk => ?_, hf.trans ?_⟩
    · show (tget cid v.ctxs).map _ = _
      rw [hv]
      exact congrArg (Option.map _) hc1
    · rw [hm]
      show mget v.mem k = _
      rw [State.mget_writeMap_out hc1 (by simpa [c1, c0] using hk)]
      show mget u.mem k = _
      rw [hu]
    · show v.forwards ++ [(c.phys lcore, cid, lcore, v.nextOp)] = _
      rw [hv]
      show u.forwards ++ [(c.phys lcore, cid, lcore, u.nextOp)] = _
      rw [hu]

/-! ### World switch and turns (R345, R346) -/

/-- What a context that leaves its cores leaves: its groups drained, its record at SAVE, its translations dropped, and the turn passed. -/
theorem switchOut_leaves {s : State} {cid : Nat} {c : Ctx} (hc : tget cid s.ctxs = some c) (hst : c.state = .resident) :
    let u := ((s.preemptCtx cid).passTurn cid).modC cid fun c => { c with state := .switchedOut }
    let t := (u.writeRecord cid).dropPages cid fun _ => false
    (tget cid t.ctxs).map (·.state) = some .switchedOut ∧
    (∃ c', tget cid u.ctxs = some c' ∧ c'.f = c.f ∧ ∀ k, k < saveKey c ∨ saveKey c + (u.record cid c').len ≤ k →
      mget t.mem k = mget s.mem k) ∧
    (∀ k ∈ t.tcache, cacheCtx k ≠ cid) ∧
    (∀ k x, tget k s.ctxs = some x → (tget k t.ctxs).map (·.after) = some (if x.shares c = true then cid else x.after)) ∧
    ∀ gid g, gidCid gid = cid → tget gid s.groups = some g →
      ∃ g', tget gid t.groups = some g' ∧ g'.tileQ = [] ∧ (∀ p ∈ g'.pend, p.returned = true) ∧
        g'.vreg = g.vreg ∧ g'.sreg = g.sreg ∧ g'.kreg = g.kreg := by
  intro u t
  have hu := State.tget_leftCores hc hst
  have hcu := (hu cid).trans (congrArg _ hc)
  have htc : t.ctxs = u.ctxs := u.writeRecord_ctxs cid
  have hmem : t.mem = (u.writeRecord cid).mem := rfl
  have hum : u.mem = s.mem := (State.passTurn_mem ..).trans (by
    obtain ⟨gs, h⟩ := s.preemptCtx_groups cid
    rw [h])
  refine ⟨?_, ⟨_, hcu, rfl, fun k hk => ?_⟩, fun k hk => ?_, fun k x hx => ?_, fun gid g hgid hg => ?_⟩
  · rw [htc]
    exact (congrArg (Option.map _) hcu).trans (congrArg some (if_pos rfl))
  · rw [hmem, State.writeRecord_of_ctx hcu, ← hum]
    exact State.mget_place_out u (u.record cid (c.afterLeave c cid cid)) hk
  · have := (List.mem_filter.mp hk).2
    simpa using this
  · rw [htc]
    exact congrArg (Option.map _) ((hu k).trans (congrArg _ hx))
  · have htg : t.groups = (s.preemptCtx cid).groups := by
      have : (u.writeRecord cid).groups = u.groups := by rw [State.writeRecord_of_ctx hcu]; rfl
      exact this.trans (State.passTurn_groups ..)
    obtain ⟨h, hh, hv, hs, hk, hd⟩ := preemptAll_drains (s.groups.filter fun g => gidCid g.1 == cid) hg
    obtain ⟨hq, hp⟩ := hd (.inl ⟨_, List.mem_filter.mpr ⟨mem_of_tget hg, by simpa using hgid⟩, rfl⟩)
    exact ⟨h, (congrArg (tget gid) htg).trans hh, hq, hp, hv, hs, hk⟩

theorem turnDue_least {s : State} {k : Nat} (h : s.turnDue k = true) : s.switchInReady k = true ∧
    ∃ x, tget k s.ctxs = some x ∧ ∀ y ∈ s.ctxs, y.1 ≠ k → y.2.shares x = true → s.waitsTurn y.1 y.2 = true →
      (k + 15 - x.after) % 16 ≤ (y.1 + 15 - y.2.after) % 16 := by
  obtain ⟨hready, hturn⟩ := Bool.and_eq_true_iff.mp h
  refine ⟨hready, ?_⟩
  cases hx : tget k s.ctxs with
  | none => simp [hx] at hturn
  | some x =>
    refine ⟨x, rfl, fun y hy hne hsh hw => ?_⟩
    simp only [hx, Bool.not_eq_true', List.any_eq_false] at hturn
    have := hturn y hy
    refine Nat.le_of_not_lt fun hlt => this ?_
    rw [hsh, hw, decide_eq_true (show y.2.turn y.1 < x.turn k from hlt), bne_iff_ne.mpr hne]
    rfl

/-- Settles O49: a context that leaves by `switchOut_leaves`, the turns by `turnDue_least`, a migration by `migration_moves`. -/
theorem switchesAndMigrationComplete : Obligations.SwitchesAndMigrationComplete := by
  intro s cid c hc
  refine ⟨fun hst => ?stays, fun hst => ?leaves, fun h => congrArg Host.Outcome.next (if_pos (by rw [h]; rfl)), fun h => ?returns, fun h => ?slice,
    fun hst hs ht => ?turn, fun lcore phys => ?migrate, fun core lcore h => ?forward, fun core lcore h => ?lost⟩
  case stays =>
    refine congrArg Host.Outcome.next ?_
    unfold State.switchOut
    rw [State.ctxState_eq hc]
    cases hs : c.state with
    | resident => exact absurd hs hst
    | _ => rfl
  case leaves =>
    exact ⟨congrArg Host.Outcome.next (State.switchOut_resident hc hst), switchOut_leaves hc hst⟩
  case returns =>
    refine congrArg Host.Outcome.next ((if_neg (by rw [h]; exact Bool.false_ne_true)).trans ?_)
    have hpark : (fun x : SubGang => if x.park == .marker then x else { x with park := .none }) =
        fun x => if x.park = .marker then x else { x with park := .none } := funext fun x => if_congr beq_iff_eq rfl rfl
    rw [hpark]
    rfl
  case slice =>
    have hno : (c.state == .resident && c.f.slice != 0 && s.turnWanted cid c) = false := by
      rcases h with h | h | h
      · rw [beq_false_of_ne h]; rfl
      · simp [h]
      · simp [h]
    show execTimeSliceExpire cid s = _
    unfold execTimeSliceExpire
    rw [hc]
    exact congrArg Host.Outcome.next (if_neg (Bool.eq_false_iff.mp hno))
  case turn =>
    intro t
    have hexec : exec (.timeSliceExpire cid) s = .next (match t.nextTurn cid c with | some k => t.switchIn k | none => t) := by
      have hyes : (c.state == .resident && c.f.slice != 0 && s.turnWanted cid c) = true := by simp [hst, hs, ht]
      show execTimeSliceExpire cid s = _
      unfold execTimeSliceExpire
      rw [hc]
      exact congrArg Host.Outcome.next (if_pos hyes)
    refine ⟨fun h => by rw [hexec, h], fun k h => ?_⟩
    obtain ⟨x, hx, rfl⟩ := Option.map_eq_some_iff.mp (show (t.ctxs.find? _).map _ = some k from h)
    have hfind := List.find?_some hx
    simp only [Bool.and_eq_true, bne_iff_ne, ne_eq] at hfind
    exact ⟨by rw [hexec, h], hfind.1.1, turnDue_least hfind.2⟩
  case migrate =>
    intro s0 c0
    refine ⟨fun h => ?_, fun h hfull => ?_, migration_moves hc⟩
    · show execMigration cid lcore phys s = _
      unfold execMigration
      rw [hc]
      exact congrArg Host.Outcome.next (if_pos (by rw [show State.canMigrate _ _ _ _ _ = false from h]; rfl))
    · show execMigration cid lcore phys s = _
      unfold execMigration
      rw [hc]
      exact congrArg Host.Outcome.next ((if_neg (by rw [show State.canMigrate _ _ _ _ _ = true from h]; decide)).trans (if_pos hfull))
  case forward =>
    refine congrArg Host.Outcome.next (if_pos ?_)
    obtain ⟨f, hf, he⟩ := List.mem_map.mp h
    simp only [Prod.mk.injEq] at he
    exact List.any_eq_true.mpr ⟨f, hf, by simp [he]⟩
  case lost =>
    refine congrArg Host.Outcome.next (if_neg fun hany => h ?_)
    obtain ⟨f, hf, he⟩ := List.any_eq_true.mp hany
    simp only [Bool.and_eq_true, beq_iff_eq] at he
    exact List.mem_map.mpr ⟨f, hf, by simp [he]⟩

end Sys2Proof.Machine
end

section
/-! SUPPORT. Restarting a team (R355): what each halt leaves of its group, and the steps that a resume is made of. -/

namespace Sys2Proof.Machine

/-! ### One group restarts -/

/-- The group that restarts, its halt gone. -/
def Group.restarted (g : Group) : Group := { g with halted := false, faultRec := none }
/-- A sub-gang whose park is over. -/
def Group.unparked (g : Group) (m : Nat) : Group := g.modSub m fun x => { x with park := .none }

section
variable {u : State} {gid : Nat} {g : Group} {skip : Bool} (hg : tget gid u.groups = some g)
include hg

theorem restart_plain (hr : g.faultRec = none) : u.restart gid skip = u.putG gid g.restarted := by
  unfold State.restart
  simp only [hg, hr]
  rfl

variable {r : FaultRec} (hr : g.faultRec = some r)
include hr

theorem restart_fault : u.restart gid skip =
    if r.marker then (u.putG gid g.restarted).modG gid fun h => (h.writePendLogged (g.faultSub r) (u.undoOn gid)).modSub (g.faultSub r) fun x =>
      match x.park with | .regang | .ksync _ => x | _ => { x with park := .none }
    else if r.closing then match g.due with
      | x :: rest => faultGroup ((u.putG gid g.restarted).modG gid fun h => { h with due := rest }.unparked (g.faultSub r)) gid (g.faultSub r) x
      | [] => (u.putG gid g.restarted).release gid (g.faultSub r)
    else if r.rpc != r.fpc then u.putG gid g.restarted
    else if r.code == 0x13 || r.code == 0x14 || skip then
      (u.putG gid g.restarted).modG gid fun h => (h.advance (g.faultSub r)).unparked (g.faultSub r)
    else (u.putG gid g.restarted).modG gid fun h => h.unparked (g.faultSub r) := by
  unfold State.restart
  rw [hg]
  dsimp only
  rw [hr]
  rfl

theorem restart_here (hm : r.marker = false) (hc : r.closing = false) (hp : r.rpc = r.fpc) :
    (¬(r.code = 0x13 ∨ r.code = 0x14) → skip = false → u.restart gid skip = u.putG gid (g.restarted.unparked (g.faultSub r))) ∧
    ((r.code = 0x13 ∨ r.code = 0x14) ∨ skip = true →
      u.restart gid skip = u.putG gid ((g.restarted.advance (g.faultSub r)).unparked (g.faultSub r))) := by
  have h := restart_fault (skip := skip) hg hr
  rw [hm, hc, hp, bne_self_eq_false, if_neg Bool.false_ne_true, if_neg Bool.false_ne_true, if_neg Bool.false_ne_true, State.modG_putG,
    State.modG_putG] at h
  exact ⟨fun hs hk => h.trans (if_neg (by simpa [hk] using hs)), fun hs => h.trans (if_pos (by simpa using hs))⟩

theorem restart_gone (hm : r.marker = false) (hc : r.closing = false) (hp : r.rpc ≠ r.fpc) : u.restart gid skip = u.putG gid g.restarted := by
  have h := restart_fault (skip := skip) hg hr
  rw [hm, hc, if_neg Bool.false_ne_true, if_neg Bool.false_ne_true] at h
  exact h.trans (if_pos (bne_iff_ne.mpr hp))

theorem restart_closing (hm : r.marker = false) (hc : r.closing = true) :
    (g.due = [] → u.restart gid skip = (u.putG gid g.restarted).release gid (g.faultSub r)) ∧
    ∀ x rest, g.due = x :: rest → u.restart gid skip =
      faultGroup (u.putG gid ({ g.restarted with due := rest }.unparked (g.faultSub r))) gid (g.faultSub r) x := by
  have h := restart_fault (skip := skip) hg hr
  rw [hm, hc, if_neg Bool.false_ne_true, if_pos rfl] at h
  refine ⟨fun hd => ?_, fun x rest hd => ?_⟩
  · rw [h, hd]
  · rw [h, hd]
    exact congrArg (faultGroup · gid (g.faultSub r) x) (State.modG_putG ..)

/-- The group after the results of its faulted marker are written (R355). -/
def Group.settledAt (g : Group) (m : Nat) : Group := (g.restarted.writePend m).modSub m fun x =>
  match x.park with | .regang | .ksync _ => x | _ => { x with park := .none }

theorem restart_marker (hm : r.marker = true) (hu : u.undoOn gid = false) : u.restart gid skip = u.putG gid (g.settledAt (g.faultSub r)) := by
  have h := restart_fault (skip := skip) hg hr
  rw [hm, if_pos rfl, State.modG_putG, hu] at h
  exact h

end

theorem Group.settledAt_spec (g : Group) (m : Nat) :
    let mine := g.pend.filter fun p => p.slices &&& m != 0
    let g' := g.settledAt m
    g'.vreg = written 0 g.vreg (mine.flatMap fun p => p.vw.filter fun w => bitOf m (w.1 % 32 / 4)) ∧
    g'.sreg = written 0 g.sreg (mine.flatMap fun p => p.sw.filter fun w => bitOf m (w.1 % 8)) ∧
    g'.kreg = g.kreg ∧ g'.halted = false ∧ g'.faultRec = none ∧ (∀ p ∈ g'.pend, p.slices &&& m = 0) ∧
    g'.subs = g.subs.map (fun y => if y.mask == m then match y.park with
      | .regang => y | .ksync _ => y | _ => { y with park := .none } else y) ∧
    ∀ n : Nat, (g'.slices[n]?).map Slice.pc = (g.slices[n]?).map Slice.pc := by
  intro mine g'
  have hdue : ∀ {β : Type} (f : Pend → List β), (g.restarted.duePend m).flatMap f = mine.flatMap fun p => f (p.only m) := fun f => by
    unfold Group.duePend
    rw [List.flatMap_map]; rfl
  have hw := g.restarted.writePend_pended m
  refine ⟨?_, ?_, ?_, ?_, ?_, fun p hp => ?_, ?_, fun n => ?_⟩
  · exact (congrArg Group.vreg hw).trans (congrArg (written 0 g.vreg) (hdue _))
  · exact (congrArg Group.sreg hw).trans (congrArg (written 0 g.sreg) (hdue _))
  · exact (congrArg Group.kreg hw).trans rfl
  · exact congrArg Group.halted hw
  · exact congrArg Group.faultRec hw
  · have hp' : p ∈ (g.restarted.writePend m).pend := hp
    rw [hw] at hp'
    obtain ⟨q, -, rfl⟩ := List.mem_map.mp (List.mem_filter.mp hp').1
    exact not_mask_and q.slices m
  · have hs : (g.restarted.writePend m).subs = g.subs := (congrArg Group.subs hw).trans rfl
    exact congrArg (List.map _) hs
  · have hs : g'.slices = (g.restarted.pended (g.restarted.duePend m)).slices := (congrArg Group.slices hw).trans rfl
    rw [hs, Group.pended, List.getElem?_mapIdx, Option.map_map]
    rfl

/-! ### What a restart and a resume leave -/

theorem State.restart_acts (s : State) (gid : Nat) (skip : Bool) : s.Acts gid (s.restart gid skip) := by
  cases hg : tget gid s.groups with
  | none =>
    unfold State.restart
    rw [hg]
    exact .refl s
  | some g =>
    cases hr : g.faultRec with
    | none => exact restart_plain hg hr ▸ .putG hg _
    | some r =>
      rw [restart_fault hg hr]
      split
      · exact .trans (.putG hg _) (.modG ..)
      · split
        · split
          · exact .trans (.trans (.putG hg _) (.modG ..)) (faultGroup_acts ..)
          · exact .trans (.putG hg _) (State.release_acts ..)
        · split
          · exact .putG hg _
          · split
            · exact .trans (.putG hg _) (.modG ..)
            · exact .trans (.putG hg _) (.modG ..)

/-- A team whose halt is over, its slot free (R355). -/
def Team.unhalted (t : Team) : Team := { t with trapped := false, debugStop := false, trapSlot := none, exitFault := none }.exitDue false

theorem Team.exitDue_frame (t : Team) (guilty : Bool) :
    (t.exitDue guilty).left = t.left ∧ (t.exitDue guilty).trapSlot = t.trapSlot ∧ (t.exitDue guilty).retired = t.retired := by
  unfold Team.exitDue
  dsimp only
  repeat' split
  all_goals exact ⟨rfl, rfl, rfl⟩

/-- A state in which a team's slot is free. -/
def State.freed (u : State) (tid : Nat) (t : Team) : State :=
  (u.modC (lidCtx (tidLid tid)) fun c => { c with trapUsed := match t.trapSlot with | some k => nminus c.trapUsed [k] | none => c.trapUsed }).putT
    tid t.unhalted

theorem unhalt_eq {u : State} {tid : Nat} {t : Team} (h : tget tid u.teams = some t) (skip : Nat → Bool) : u.unhalt tid skip =
    if t.retired then u.freed tid t
    else (((u.freed tid t).liveGroups tid).map (·.1)).foldl (fun s g => s.resettle g)
      ((((u.freed tid t).liveGroups tid).map (·.1)).foldl (fun s g => s.restart g (skip g)) (u.freed tid t)) := by
  unfold State.unhalt
  rw [h]
  rfl

/-- The live groups of a team by number: those of its groups that have not left. -/
theorem State.liveGroups_keys {s : State} {tid : Nat} {t : Team} (h : tget tid s.teams = some t) : (s.liveGroups tid).map (·.1) =
    (s.groups.map (·.1)).filter fun k => t.live k && (gidTid k == tid && decide (k < 2 ^ 200)) := by
  unfold State.liveGroups
  rw [h]
  dsimp only
  rw [State.teamGroups, List.filter_filter, List.filter_map]
  rfl

theorem unhalt_resumes {s u : State} {tid : Nat} {t : Team} (hs : tget tid s.teams = some t) (hu : tget tid u.teams = some t)
    (hk : u.groups.map (·.1) = s.groups.map (·.1)) (hr : t.retired = false) (skip : Nat → Bool) : u.unhalt tid skip =
    ((s.liveGroups tid).map (·.1)).foldl (fun s g => s.resettle g)
      (((s.liveGroups tid).map (·.1)).foldl (fun s g => s.restart g (skip g)) (u.freed tid t)) := by
  have ht : tget tid (u.freed tid t).teams = some t.unhalted := tget_tput_same ..
  have hlive : ((u.freed tid t).liveGroups tid).map (·.1) = (s.liveGroups tid).map (·.1) := by
    rw [State.liveGroups_keys ht, State.liveGroups_keys hs]
    have hl : t.unhalted.left = t.left := (Team.exitDue_frame _ _).1
    show (u.groups.map (·.1)).filter _ = _
    rw [hk]
    unfold Team.live
    rw [hl]
  rw [unhalt_eq hu, hr, hlive]
  rfl

/-- What a resume leaves: memory, and the trap slots of all teams but the one that is freed. -/
theorem unhalt_frees {s : State} {tid : Nat} {t : Team} (h : tget tid s.teams = some t) (skip : Nat → Bool) :
    (tget tid (s.unhalt tid skip).teams).map (·.trapSlot) = some none ∧ (s.unhalt tid skip).mem = s.mem := by
  have hfreed : (tget tid (s.freed tid t).teams).map (·.trapSlot) = some none :=
    (congrArg (Option.map _) (tget_tput_same ..)).trans (congrArg some (Team.exitDue_frame _ _).2.1)
  have hsteps : ∀ (f : State → Nat → State), (∀ (u : State) g, u.Acts g (f u g)) → ∀ (l : List Nat) (u : State),
      (∀ k, (tget k (l.foldl f u).teams).map (·.trapSlot) = (tget k u.teams).map (·.trapSlot)) ∧ (l.foldl f u).mem = u.mem := fun f hf l u =>
    foldl_of_steps (R := fun s t : State => (∀ k, (tget k t.teams).map (·.trapSlot) = (tget k s.teams).map (·.trapSlot)) ∧ t.mem = s.mem)
      (fun _ => ⟨fun _ => rfl, rfl⟩) (fun ⟨h, hm⟩ ⟨h', hm'⟩ => ⟨fun k => (h' k).trans (h k), hm'.trans hm⟩) l (fun u g _ => by
        obtain ⟨_, _, _, _, _, he, -, -, -, hs, -⟩ := hf u g
        rw [he]
        exact ⟨hs, rfl⟩) u
  rw [unhalt_eq h]
  split
  · exact ⟨hfreed, rfl⟩
  · obtain ⟨h₁, m₁⟩ := hsteps (fun s g => s.restart g (skip g)) (fun u g => u.restart_acts g (skip g)) (((s.freed tid t).liveGroups tid).map (·.1))
      (s.freed tid t)
    obtain ⟨h₂, m₂⟩ := hsteps (fun s g => s.resettle g) (fun u g => u.resettle_acts g) (((s.freed tid t).liveGroups tid).map (·.1)) _
    exact ⟨(h₂ tid).trans ((h₁ tid).trans hfreed), m₂.trans m₁⟩

end Sys2Proof.Machine
end

section
/-! CLAIM. The debugger's actions and TEAMCTL (R355, R360 to R365). -/

namespace Sys2Proof.Machine

/-! ### A step back (R362) -/

/-- What putting an entry back leaves of a group. -/
def Group.Undone (g h : Group) : Prop := h.undo = g.undo ∧ h.slices = g.slices ∧ h.subs.map (·.mask) = g.subs.map (·.mask)

theorem Group.Undone.trans {g h i : Group} : g.Undone h → h.Undone i → g.Undone i :=
  fun ⟨hu, hs, hm⟩ ⟨hu', hs', hm'⟩ => ⟨hu'.trans hu, hs'.trans hs, hm'.trans hm⟩

theorem Group.rawVs_frame (l : List Nat) (key : Nat → Nat) (x : Nat → W32) (g : Group) :
    let h := l.foldl (fun g j => g.rawV (key j) (x j)) g
    h.vreg = written 0 g.vreg (l.map fun j => (key j, x j)) ∧ h.sreg = g.sreg ∧ h.kreg = g.kreg ∧ g.Undone h := by
  induction l generalizing g with
  | nil => exact ⟨rfl, rfl, rfl, rfl, rfl, rfl⟩
  | cons j l ih =>
    obtain ⟨hv, hs, hk, hu⟩ := ih (g.rawV (key j) (x j))
    exact ⟨hv, hs, hk, Group.Undone.trans ⟨rfl, rfl, rfl⟩ hu⟩

theorem Group.undoOne_frame (g : Group) (x : Undo) : g.Undone (g.undoOne x) := by
  obtain ⟨pc, _ | _ | _ | kind, slice, loc, old⟩ := x
  · exact ⟨rfl, rfl, rfl⟩
  · exact (Group.rawVs_frame _ _ _ g).2.2.2
  · show g.Undone (g.wrK loc (laneMask (2 ^ slice)) (leNat (old.take 4)))
    unfold Group.wrK
    split <;> exact ⟨rfl, rfl, rfl⟩
  · refine ⟨rfl, rfl, ?_⟩
    show (g.subs.map _).map _ = _
    rw [List.map_map]
    exact List.map_congr_left fun y _ => by dsimp only [Function.comp]; split <;> rfl

/-- What putting some entries back leaves: all but groups and teams, and of the group its slices and sub-gangs. -/
def State.Undoes (gid : Nat) (s t : State) : Prop := (∃ gs ts, t = { s with groups := gs, teams := ts }) ∧
  ∀ g, tget gid s.groups = some g → ∃ h, tget gid t.groups = some h ∧ g.Undone h

theorem State.undoAll_undoes (s : State) (gid rings : Nat) (es : List Undo) : s.Undoes gid (s.undoAll gid rings es) := by
  refine foldl_of_steps (R := State.Undoes gid) (fun s => ⟨⟨s.groups, s.teams, rfl⟩, fun g h => ⟨g, h, rfl, rfl, rfl⟩⟩) ?_ es (fun u x _ => ?_) s
  · rintro s _ _ ⟨⟨gs, ts, rfl⟩, hg⟩ ⟨⟨gs', ts', rfl⟩, hg'⟩
    refine ⟨⟨gs', ts', rfl⟩, fun g h => ?_⟩
    obtain ⟨h₁, e₁, u₁⟩ := hg g h
    obtain ⟨h₂, e₂, u₂⟩ := hg' h₁ e₁
    exact ⟨h₂, e₂, u₁.trans u₂⟩
  · split
    · exact ⟨⟨u.groups, _, rfl⟩, fun g h => ⟨g, h, rfl, rfl, rfl⟩⟩
    · exact ⟨⟨_, u.teams, rfl⟩, fun g h => ⟨_, (tget_tmod_same ..).trans (congrArg _ h), g.undoOne_frame x⟩⟩

/-- The slices of some sub-gangs stand at a word again. -/
def Group.standAt (g : Group) (l : List SubGang) (pc : W64) : Group :=
  l.foldl (fun g x => (g.setPcs (slicesOf x.mask) fun _ => pc).modSub x.mask fun y => { y with park := .none }) g

theorem Group.standAt_frame (l : List SubGang) (pc : W64) (g : Group) :
    (g.standAt l pc).vreg = g.vreg ∧ (g.standAt l pc).sreg = g.sreg ∧ (g.standAt l pc).kreg = g.kreg ∧ (g.standAt l pc).undo = g.undo ∧
    ∀ n : Nat, ((g.standAt l pc).slices[n]?).map Slice.pc =
      (g.slices[n]?).map fun y => if ∃ x ∈ l, n ∈ slicesOf x.mask then pc else y.pc := by
  induction l generalizing g with
  | nil => exact ⟨rfl, rfl, rfl, rfl, fun n => by simp [Group.standAt]⟩
  | cons x l ih =>
    obtain ⟨hv, hs, hk, hu, hp⟩ := ih ((g.setPcs (slicesOf x.mask) fun _ => pc).modSub x.mask fun y => { y with park := .none })
    rw [setPcs_const, modSlices_slices] at hv hs hk hu hp
    have hstep : g.standAt (x :: l) pc =
        Group.standAt ((g.setPcs (slicesOf x.mask) fun _ => pc).modSub x.mask fun y => { y with park := .none }) l pc := rfl
    rw [hstep, setPcs_const, modSlices_slices]
    refine ⟨hv, hs, hk, hu, fun n => (hp n).trans ?_⟩
    show (((slicesOf x.mask).foldl (fun xs i => xs.modify i fun y => { y with pc := pc }) g.slices)[n]?).map _ = _
    rw [slices_foldl_modify _ _ _ _ (slicesOf_nodup _), Option.map_map]
    refine congrArg (Option.map · _) (funext fun y => ?_)
    by_cases hl : ∃ x ∈ l, n ∈ slicesOf x.mask
    · simp [hl]
    · by_cases hx : n ∈ slicesOf x.mask
      · simp [hl, hx]
      · simp [hl, hx]

section
variable {s : State} {gid : Nat} {g : Group} {l : Launch} (hh : s.debugHeld (gidTid gid) = true) (hg : tget gid s.groups = some g)
  (hl : tget (tidLid (gidTid gid)) s.launches = some l)

/-- The state in which the newest word's entries are back and its slices not yet. -/
def State.undone (s : State) (gid : Nat) (g : Group) (l : Launch) : State :=
  (s.modG gid fun x => { x with undo := x.undo.take (x.undo.length - (lastWord g.undo.reverse).length) }).undoAll gid l.layout.rings
    (lastWord g.undo.reverse)

include hh hg hl in
theorem stepBack_eq : execDebugStepBack gid s = .next ((s.undone gid g l).modG gid fun x =>
    x.standAt (x.subs.filter fun y => (lastWord g.undo.reverse).any fun e => bitOf y.mask e.2.2.1)
      (((lastWord g.undo.reverse).head?.map (·.1)).getD 0)) := by
  unfold execDebugStepBack
  rw [hh, hg, hl]
  rfl

/-- What one entry put back makes of a group and a team (R362). -/
theorem undone_one {pc : W64} {kind slice loc : Nat} {old : List Byte} (he : lastWord g.undo.reverse = [(pc, kind, slice, loc, old)]) :
    (kind < 3 → (s.undone gid g l).teams = s.teams) ∧
    (kind = 3 → l.layout.rings ≤ loc → (s.undone gid g l).groups = (s.modG gid fun x =>
      { x with undo := x.undo.take (x.undo.length - (lastWord g.undo.reverse).length) }).groups ∧
      ∀ tm, tget (gidTid gid) s.teams = some tm → tget (gidTid gid) (s.undone gid g l).teams =
        some { tm with data := { tm.data with data := mwrite tm.data.data loc old } }) ∧
    (kind < 3 → ∀ x, tget gid s.groups = some x → tget gid (s.undone gid g l).groups = some
      ({ x with undo := x.undo.take (x.undo.length - (lastWord g.undo.reverse).length) }.undoOne (pc, kind, slice, loc, old))) := by
  have hone : s.undone gid g l = if kind == 3 && l.layout.rings ≤ loc then
      (s.modG gid fun x => { x with undo := x.undo.take (x.undo.length - (lastWord g.undo.reverse).length) }).modT (gidTid gid) fun t =>
        { t with data := { t.data with data := mwrite t.data.data loc old } }
      else (s.modG gid fun x => { x with undo := x.undo.take (x.undo.length - (lastWord g.undo.reverse).length) }).modG gid fun x =>
        x.undoOne (pc, kind, slice, loc, old) := by
    unfold State.undone
    rw [he]
    rfl
  have hlt : kind < 3 → (kind == 3 && decide (l.layout.rings ≤ loc)) = false := fun h => by
    rw [beq_false_of_ne (by omega)]; rfl
  refine ⟨fun h => ?_, fun h hr => ?_, fun h x hx => ?_⟩
  · rw [hone, hlt h]; rfl
  · rw [hone, h, decide_eq_true hr]
    exact ⟨rfl, fun tm htm => (tget_tmod_same ..).trans (congrArg _ htm)⟩
  · rw [hone, hlt h]
    exact (tget_tmod_same ..).trans (congrArg _ ((tget_tmod_same ..).trans (congrArg _ hx)))

end

/-! ### A single step -/

/-- Whether the park of a sub-gang of a group is over. -/
def State.goes (u : State) (gid m : Nat) : Bool := match envOf u { gid := gid, mask := m } with | some e => e.parkOver | none => false

theorem State.goes_iff (u : State) (gid m : Nat) :
    u.goes gid m = true ↔ ∃ x, envOf u { gid := gid, mask := m } = some x ∧ x.parkOver = true := by
  unfold State.goes
  cases envOf u { gid := gid, mask := m } with
  | none => simp
  | some e => simp

/-- The state in which a group has restarted for a single step. -/
def State.stepped (s : State) (gid : Nat) : State := ((s.collectPend (gidTid gid)).restart gid false).resettle gid

section
variable {s : State} {gid : Nat} (hh : s.debugHeld (gidTid gid) = true) {g : Group} (hg : tget gid (s.stepped gid).groups = some g)
include hh hg

theorem singleStep_eq : execDebugSingleStep gid s = .next
    (match (List.range 256).find? fun m => decide ((g.subs.any fun x => x.mask == m && m &&& g.liveMask != 0) = true ∧
        (s.stepped gid).goes gid m = true) with
      | some m => { s.stepped gid with cur := some { gid := gid, mask := m } }
      | none => s.stepped gid) := by
  have hfind := List.find?_filter (xs := List.range 256) (p := fun m => g.subs.any fun x => x.mask == m && m &&& g.liveMask != 0)
    (q := fun m => (s.stepped gid).goes gid m)
  unfold execDebugSingleStep
  rw [hh, ← hfind]
  refine congrArg Host.Outcome.next (Eq.trans (b := match tget gid (s.stepped gid).groups with
    | none => s.stepped gid
    | some g => match ((((List.range 256).filter fun m => g.subs.any fun x => x.mask == m && m &&& g.liveMask != 0).map fun m =>
        ({ gid := gid, mask := m } : Party)).find? fun p => (s.stepped gid).goes p.gid p.mask) with
      | some p => { s.stepped gid with cur := some p }
      | none => s.stepped gid) rfl ?_)
  rw [hg]
  dsimp only
  rw [List.find?_map]
  simp only [Function.comp_def]
  generalize List.find? (fun m => (s.stepped gid).goes gid m) _ = o
  cases o <;> rfl

theorem singleStep_holds (h : ∀ x ∈ g.subs, x.mask < 256 → x.mask &&& g.liveMask ≠ 0 → ¬(s.stepped gid).goes gid x.mask = true) :
    execDebugSingleStep gid s = .next (s.stepped gid) := by
  rw [singleStep_eq hh hg, List.find?_eq_none.mpr fun m hm => ?_]
  rw [decide_eq_true_eq]
  rintro ⟨hany, hgo⟩
  obtain ⟨x, hx, hxm⟩ := List.any_eq_true.mp hany
  simp only [Bool.and_eq_true, beq_iff_eq, bne_iff_ne] at hxm
  obtain ⟨rfl, hlive⟩ := hxm
  exact h x hx (List.mem_range.mp hm) hlive hgo

theorem singleStep_takes {x : SubGang} (hx : x ∈ g.subs) (hlt : x.mask < 256) (hlive : x.mask &&& g.liveMask ≠ 0)
    (hgo : (s.stepped gid).goes gid x.mask = true)
    (hmin : ∀ y ∈ g.subs, y.mask < x.mask → y.mask &&& g.liveMask ≠ 0 → ¬(s.stepped gid).goes gid y.mask = true) :
    execDebugSingleStep gid s = .next { s.stepped gid with cur := some { gid := gid, mask := x.mask } } := by
  rw [singleStep_eq hh hg, List.find?_range_eq_some.mpr ⟨?_, List.mem_range.mpr hlt, fun m hm => ?_⟩]
  · exact decide_eq_true ⟨List.any_eq_true.mpr ⟨x, hx, by simp [hlive]⟩, hgo⟩
  · rw [Bool.not_eq_true', decide_eq_false_iff_not]
    rintro ⟨hany, hgo'⟩
    obtain ⟨y, hy, hym⟩ := List.any_eq_true.mp hany
    simp only [Bool.and_eq_true, beq_iff_eq, bne_iff_ne] at hym
    obtain ⟨rfl, hylive⟩ := hym
    exact hmin y hy hm hylive hgo'

end

/-- A team that is trapped keeps its parties from issuing. -/
theorem not_ready_of_trapped {u : State} {p : Party} (hp : p.gid < 2 ^ 200)
    (h : (tget (gidTid p.gid) u.teams).map (·.trapped) = some true) : u.ready p = false := by
  have hruns : u.gidRuns p.gid = false := by
    obtain ⟨t, ht, htr⟩ := Option.map_eq_some_iff.mp h
    unfold State.gidRuns State.teamRuns
    rw [if_neg (Nat.not_le.mpr hp), ht]
    cases tget (lidCtx (tidLid (gidTid p.gid))) u.ctxs with
    | none => rfl
    | some c => simp only [htr]; rfl
  unfold State.ready
  rw [hruns]
  rfl

/-- What a group that restarts for a single step leaves (R355). -/
theorem stepped_frame {s : State} {gid : Nat} {g : Group} (hh : s.debugHeld (gidTid gid) = true) (hg : tget gid s.groups = some g) :
    (s.stepped gid).mem = s.mem ∧ (∀ k, k ≠ gid → tget k (s.stepped gid).groups = tget k (s.collectPend (gidTid gid)).groups) ∧
    (tget (gidTid gid) (s.stepped gid).teams).map (·.trapped) = some true ∧ ∃ g', tget gid (s.stepped gid).groups = some g' := by
  have htrap : (tget (gidTid gid) s.teams).map (·.trapped) = some true := by
    unfold State.debugHeld at hh
    cases ht : tget (gidTid gid) s.teams with
    | none => simp [ht] at hh
    | some t => simp only [ht, Bool.and_eq_true] at hh; exact congrArg some hh.2.2
  obtain ⟨gs, ts, cs, es, rs, hu, hne, hsome, -, -, htr⟩ :=
    (State.restart_acts (s.collectPend (gidTid gid)) gid false).trans (State.resettle_acts _ gid)
  have hin : (tget gid (s.collectPend (gidTid gid)).groups).isSome = true := by
    rw [State.collectPend, State.tget_modGroups_eq, hg]; rfl
  unfold State.stepped
  rw [hu]
  exact ⟨rfl, hne, htr _ htrap, Option.isSome_iff_exists.mp (hsome.trans hin)⟩

/-! ### TEAMCTL (R355, R360) -/

section
variable {s : State} {cid team tid k : Nat} {tm : Team} (hctl : s.ctlTeam cid team = some (tid, tm, k))
include hctl

theorem ctlTeam_ctx : ∃ c, tget cid s.ctxs = some c := by
  unfold State.ctlTeam at hctl
  cases hc : tget cid s.ctxs with
  | none => simp [hc] at hctl
  | some c => exact ⟨c, rfl⟩

theorem teamResume_eq {c : Ctx} (hc : tget cid s.ctxs = some c) : s.teamResume cid team =
    if tm.retired then s.unhalt tid fun _ => false
    else
      let byte := fun (a n : Nat) => mnat (hImage s).data (physKey 0 2 (c.slotAddr k + a)) n
      let gs := s.liveGroups tid
      if gs.any fun g => 2 ≤ byte (1024 + 32 * gidG g.1 + 28) 1 then s.cancel (tidLid tid) 5
      else (gs.foldl (fun s g => s.modG g.1 fun h => h.readBack fun a n =>
        byte (((((imageOffsets gs).find? fun o => o.1 == g.1).map (·.2)).getD 0) + a) n) s).unhalt tid
          fun gid => byte (1024 + 32 * gidG gid + 28) 1 == 1 := by
  unfold State.teamResume
  rw [hctl, hc]
  simp only [Nat.add_assoc]

end

/-- A pass of steps that keep a part of the state. -/
theorem foldl_same {α σ β : Type} (p : σ → β) {f : σ → α → σ} (hf : ∀ s a, p (f s a) = p s) (l : List α) (s : σ) : p (l.foldl f s) = p s :=
  foldl_of_steps (R := fun s t => p t = p s) (fun _ => rfl) (fun h h' => h'.trans h) l (fun s a _ => hf s a) s

theorem tmod_keys {α : Type} (k : Nat) (f : α → α) (t : Tab α) : (tmod k f t).map (·.1) = t.map (·.1) := by
  induction t with
  | nil => rfl
  | cons x t ih =>
    obtain ⟨j, y⟩ := x
    unfold tmod
    split
    · rfl
    · rw [List.map_cons, List.map_cons, ih]

theorem State.dropTeams_teams (s : State) (lid : Nat) : (s.dropTeams lid).teams = s.teams.filter fun t => tidLid t.1 != lid := by
  unfold State.dropTeams State.releaseEntries
  refine (foldl_same State.teams ?_ _ _).trans rfl
  exact fun _ _ => rfl

/-- A grid that is cancelled: its launch is done and its teams are gone. -/
theorem cancel_ends {s : State} {lid : Nat} {l : Launch} (hl : tget lid s.launches = some l) (status : Nat) :
    (tget lid (s.cancel lid status).launches).map (·.state) = some (.done status) ∧
    ∀ k, tidLid k = lid → tget k (s.cancel lid status).teams = none := by
  obtain ⟨l', hst, hls⟩ := s.cancel_launches status hl
  refine ⟨by rw [hls, tget_tput_same]; exact congrArg some hst, fun k hk => ?_⟩
  rw [State.cancel, hl]
  dsimp only
  rw [State.dropTeams_teams, tget_none_iff]
  intro x hx e
  have := (List.mem_filter.mp hx).2
  simp [e, hk] at this

theorem teamctl_acts {s : State} {cid team tid k : Nat} {tm : Team} (htm : tget tid s.teams = some tm)
    (hctl : s.ctlTeam cid team = some (tid, tm, k)) {c : Ctx} (hr : tm.retired = false) (hc : tget cid s.ctxs = some c) :
    let gs := s.liveGroups tid
    let byte := fun (a n : Nat) => mnat (hImage s).data (physKey 0 2 (c.slotAddr k + a)) n
    let action := fun gid => byte (1024 + 32 * gidG gid + 28) 1
    ((∃ x ∈ gs, 2 ≤ action x.1) → s.teamResume cid team = s.cancel (tidLid tid) 5) ∧
    ((∀ x ∈ gs, action x.1 < 2) → s.teamResume cid team = (gs.map (·.1)).foldl (fun t g => t.resettle g)
      ((gs.map (·.1)).foldl (fun t g => t.restart g (action g == 1)) ((gs.foldl (fun t x => t.modG x.1 fun g => g.readBack fun a n =>
        byte ((((imageOffsets gs).find? fun o => o.1 == x.1).map (·.2)).getD 0 + a) n) s).freed tid tm))) := by
  intro gs byte action
  have heq := teamResume_eq hctl hc
  rw [hr, if_neg Bool.false_ne_true] at heq
  refine ⟨fun ⟨x, hx, h⟩ => heq.trans (if_pos (List.any_eq_true.mpr ⟨x, hx, decide_eq_true h⟩)), fun h => ?_⟩
  refine (heq.trans (if_neg ?_)).trans (unhalt_resumes htm ?_ ?_ hr _)
  · intro hany
    obtain ⟨x, hx, hd⟩ := List.any_eq_true.mp hany
    exact absurd (of_decide_eq_true hd) (Nat.not_le.mpr (h x hx))
  · refine (congrArg (tget tid) (foldl_same State.teams ?_ _ s)).trans htm
    exact fun _ _ => rfl
  · refine foldl_same (fun t : State => t.groups.map (·.1)) ?_ _ s
    exact fun _ _ => tmod_keys ..

/-! ### The debugger's actions -/

theorem debug_refused {s : State} {gid : Nat} (hh : s.debugHeld (gidTid gid) = false) (off : Nat) (bs : List Byte) :
    ∀ i ∈ [Instr.debugImageAccess gid .read, .debugImageAccess gid (.write off bs), .debugSingleStep gid, .debugStepBack gid,
      .debugResume (gidTid gid)], exec i s = .next (s.report .refused) := by
  intro i hi
  have hneg : (!s.debugHeld (gidTid gid)) = true := by rw [hh]; rfl
  simp only [List.mem_cons, List.not_mem_nil, or_false] at hi
  rcases hi with rfl | rfl | rfl | rfl | rfl
  · exact congrArg Host.Outcome.next (if_pos hneg)
  · exact congrArg Host.Outcome.next (if_pos hneg)
  · exact congrArg Host.Outcome.next (if_pos hneg)
  · exact congrArg Host.Outcome.next (if_pos hneg)
  · exact congrArg Host.Outcome.next (if_neg (Bool.eq_false_iff.mp hh))

theorem Group.readBack_frame (g : Group) (rd : Nat → Nat → Nat) : g.readBack rd = { g with
    vreg := (g.readBack rd).vreg, sreg := (g.readBack rd).sreg, kreg := (g.readBack rd).kreg, badV := [], badS := [], badK := [] } := rfl

section
variable {s : State} {gid : Nat} {g : Group} (hh : s.debugHeld (gidTid gid) = true) (hg : tget gid s.groups = some g)
include hh hg

theorem imageAccess_read : execDebugImageAccess gid .read s =
    .next (s.report (.image gid (s.sampleSite gid (lowest g.liveMask) g.haltPc) g.image)) := by
  unfold execDebugImageAccess
  rw [hh, hg]
  rfl

theorem imageAccess_write (off : Nat) (bs : List Byte) : execDebugImageAccess gid (.write off bs) s =
    .next (s.putG gid (g.readBack fun a n => mnat (mwrite (mwrite [] 0 g.image) off bs) a n)) := by
  unfold execDebugImageAccess
  rw [hh, hg]
  rfl

theorem stepBack_spec {l : Launch} (hl : tget (tidLid (gidTid gid)) s.launches = some l) :
    let es := lastWord g.undo.reverse
    ∃ t g', execDebugStepBack gid s = .next t ∧ t = { s with groups := t.groups, teams := t.teams } ∧ tget gid t.groups = some g' ∧
      g'.undo = g.undo.take (g.undo.length - es.length) ∧
      (∀ pc kind slice loc old, es = [(pc, kind, slice, loc, old)] →
        (kind = 0 → g'.sreg = sset 0 g.sreg (8 * loc + slice) (BitVec.ofNat 64 (leNat (old.take 8))) ∧ g'.vreg = g.vreg ∧
          g'.kreg = g.kreg) ∧
        (kind = 1 → g'.vreg = written 0 g.vreg ((List.range 4).map fun j =>
          (32 * loc + 4 * slice + j, BitVec.ofNat 32 (leNat ((old.drop (4 * j)).take 4)))) ∧ g'.sreg = g.sreg ∧ g'.kreg = g.kreg) ∧
        (kind = 2 → g'.kreg = (g.wrK loc (laneMask (2 ^ slice)) (leNat (old.take 4))).kreg ∧ g'.sreg = g.sreg ∧ g'.vreg = g.vreg) ∧
        (kind = 3 → l.layout.rings ≤ loc → g'.sreg = g.sreg ∧ g'.vreg = g.vreg ∧ g'.kreg = g.kreg ∧
          ∀ tm, tget (gidTid gid) s.teams = some tm → tget (gidTid gid) t.teams =
            some { tm with data := { tm.data with data := mwrite tm.data.data loc old } }) ∧
        (kind < 3 → t.teams = s.teams)) ∧
      ∀ x ∈ g.subs, (∃ e ∈ es, bitOf x.mask e.2.2.1 = true) → ∀ n ∈ slicesOf x.mask,
        (g'.slices[n]?).map Slice.pc = (g.slices[n]?).map fun _ => (es.head?.map (·.1)).getD 0 := by
  intro es
  obtain ⟨⟨gs, ts, hu⟩, hund⟩ := State.undoAll_undoes (s.modG gid fun x =>
    { x with undo := x.undo.take (x.undo.length - (lastWord g.undo.reverse).length) }) gid l.layout.rings (lastWord g.undo.reverse)
  obtain ⟨h, hh', hundo, hslices, hmasks⟩ := hund _ ((tget_tmod_same ..).trans (congrArg _ hg))
  have hput : tget gid ((s.undone gid g l).modG gid fun x => x.standAt (x.subs.filter fun y => es.any fun e => bitOf y.mask e.2.2.1)
      ((es.head?.map (·.1)).getD 0)).groups = some (h.standAt (h.subs.filter fun y => es.any fun e => bitOf y.mask e.2.2.1)
      ((es.head?.map (·.1)).getD 0)) := (tget_tmod_same ..).trans (congrArg _ hh')
  obtain ⟨hv, hs, hk, huf, hpc⟩ := h.standAt_frame (h.subs.filter fun y => es.any fun e => bitOf y.mask e.2.2.1) ((es.head?.map (·.1)).getD 0)
  refine ⟨_, _, stepBack_eq hh hg hl, ?_, hput, huf.trans hundo, fun pc kind slice loc old he => ?_, fun x hx ⟨e, hee, hb⟩ n hn => ?_⟩
  · unfold State.undone
    rw [hu]; rfl
  · obtain ⟨hteams, hring, hone⟩ := undone_one (s := s) (gid := gid) (g := g) (l := l) he
    have hsame : kind < 3 → h =
        { g with undo := g.undo.take (g.undo.length - (lastWord g.undo.reverse).length) }.undoOne (pc, kind, slice, loc, old) :=
      fun h3 => Option.some.inj (hh'.symm.trans (hone h3 g hg))
    rw [hv, hs, hk]
    refine ⟨fun h0 => ?_, fun h1 => ?_, fun h2 => ?_, fun h3 hr => ?_, fun h3 => hteams h3⟩
    · subst h0
      rw [hsame (by omega)]
      exact ⟨rfl, rfl, rfl⟩
    · subst h1
      rw [hsame (by omega)]
      obtain ⟨hv, hs, hk, -⟩ := Group.rawVs_frame (List.range 4) (fun j => 32 * loc + 4 * slice + j)
        (fun j => BitVec.ofNat 32 (leNat ((old.drop (4 * j)).take 4)))
        { g with undo := g.undo.take (g.undo.length - (lastWord g.undo.reverse).length) }
      exact ⟨hv, hs, hk⟩
    · subst h2
      rw [hsame (by omega)]
      show (Group.wrK _ _ _ _).kreg = (Group.wrK _ _ _ _).kreg ∧ (Group.wrK _ _ _ _).sreg = _ ∧ (Group.wrK _ _ _ _).vreg = _
      unfold Group.wrK
      split <;> exact ⟨rfl, rfl, rfl⟩
    · obtain ⟨hgs, htm⟩ := hring h3 hr
      have hsame : h = { g with undo := g.undo.take (g.undo.length - (lastWord g.undo.reverse).length) } :=
        Option.some.inj (hh'.symm.trans ((congrArg (tget gid) hgs).trans ((tget_tmod_same ..).trans (congrArg _ hg))))
      rw [hsame]
      exact ⟨rfl, rfl, rfl, htm⟩
  · rw [hpc n, hslices]
    refine congrArg (Option.map · _) (funext fun y => if_pos ?_)
    obtain ⟨z, hz, hzm⟩ := List.mem_map.mp (hmasks ▸ List.mem_map_of_mem (f := fun x : SubGang => x.mask) hx)
    exact ⟨z, List.mem_filter.mpr ⟨hz, List.any_eq_true.mpr ⟨e, hee, by rw [hzm]; exact hb⟩⟩, by rw [hzm]; exact hn⟩

end

theorem debugStop_stops {s : State} {tid : Nat} {tm : Team} (htm : tget tid s.teams = some tm) (ho : s.debugOpen 0 = true)
    (ht : tm.trapped = false) (hr : tm.retired = false) : execDebugStop tid s =
    .next ((s.putT tid { tm with trapped := true, debugStop := true }).modC (lidCtx (tidLid tid)) fun c => { c with debugReq := true }) := by
  unfold execDebugStop
  rw [ho, htm]
  refine congrArg Host.Outcome.next ((if_neg Bool.false_ne_true).trans (if_neg ?_))
  rw [ht, hr]
  exact Bool.false_ne_true

/-- Settles O51: a resume by `unhalt_resumes`, the restarts of a group by the `restart_…` lemmas, a step back by `stepBack_spec`, a single
step by `singleStep_takes`, TEAMCTL by `teamctl_acts`. -/
theorem debugActionsComplete : Obligations.DebugActionsComplete := by
  intro s tid gid tm g htm resumed
  refine ⟨debugStop_stops htm, fun ho => congrArg Host.Outcome.next (if_pos (by rw [ho]; rfl)), debug_refused,
    fun hh hg => ⟨imageAccess_read hh hg, fun off bs => ⟨_, imageAccess_write hh hg off bs, rfl, Group.readBack_frame ..⟩, ?step,
      fun l hl => stepBack_spec hh hg hl⟩,
    fun hh => ⟨_, congrArg Host.Outcome.next (if_pos hh), unhalt_frees htm _⟩,
    fun hh hr => congrArg Host.Outcome.next ((if_pos hh).trans (unhalt_resumes htm htm rfl hr _)),
    fun cid team k hctl => ⟨fun l hl => ⟨_, ?terminate, cancel_ends hl 5⟩, fun hr => ?retired, fun c hr hc => ?running⟩,
    fun u gid g skip hg => ?restart, fun bs h => congrArg Host.Outcome.next (if_pos h),
    fun bs h => congrArg Host.Outcome.next (if_neg (Bool.eq_false_iff.mp h))⟩
  case step =>
    intro tid u goes
    obtain ⟨hm, hne, htrap, g', hg'⟩ := stepped_frame hh hg
    refine ⟨hm, hne, htrap, fun p _ hp ht => not_ready_of_trapped hp (ht ▸ htrap), g', hg', fun h => ?_, fun x hx hlt hlive hgo hmin => ?_⟩
    · exact singleStep_holds hh hg' fun x hx hlt hlive hgo => h x hx hlt hlive ((State.goes_iff ..).mp hgo)
    · exact singleStep_takes hh hg' hx hlt hlive ((State.goes_iff ..).mpr hgo) fun y hy hlt hlive hgo =>
        hmin y hy hlt hlive ((State.goes_iff ..).mp hgo)
  case terminate =>
    show Host.Outcome.next (s.teamTerminate cid team) = _
    unfold State.teamTerminate
    rw [hctl]
  case retired =>
    obtain ⟨c, hc⟩ := ctlTeam_ctx hctl
    refine ⟨s.freed tid tm, congrArg Host.Outcome.next ?_, tget_tput_same .., rfl⟩
    rw [teamResume_eq hctl hc, hr, if_pos rfl, unhalt_eq htm, hr, if_pos rfl]
  case running =>
    intro gs byte action
    obtain ⟨hstop, hgo⟩ := teamctl_acts htm hctl hr hc
    exact ⟨fun h l hl => ⟨_, congrArg Host.Outcome.next (hstop h), cancel_ends hl 5⟩, fun h => congrArg Host.Outcome.next (hgo h)⟩
  case restart =>
    intro h clear
    refine ⟨restart_plain hg, fun r hr => ?_⟩
    intro m stops
    exact ⟨restart_here hg hr, restart_gone hg hr, restart_closing hg hr, fun hm hu => ⟨_, restart_marker hg hr hm hu, g.settledAt_spec m⟩⟩

end Sys2Proof.Machine
end

section
/-! SUPPORT. The events of the engines: completion, bulk chunks, suspension, failure and collective steps. -/

namespace Sys2Proof.Machine

/-! ### What the end of an operation leaves -/

/-- The flits of an operation change only the reports. -/
theorem State.sendFlits_frame (rs : List (Nat × List Byte)) (t : State) :
    let u := rs.foldl (fun s r => s.sendFlit (.remote r.1 r.2)) t
    u.ops = t.ops ∧ u.groups = t.groups := by
  induction rs generalizing t with
  | nil => exact ⟨rfl, rfl⟩
  | cons r rs ih => exact ih (t.sendFlit (.remote r.1 r.2))

/-- An operation as it ends (R240). -/
abbrev EngOp.ended (o : EngOp) (ps : List Put) (st : Nat) : EngOp :=
  { o with state := .done st, team := (if st != 4 then putsToW (ps.filter (·.chip)) else {}).andThen o.head,
           writes := if st != 4 then (putsToW (ps.filter (!·.chip))).inner else {} }

/-- What the writes of an operation that reach memory outside the ladder leave. -/
def State.reached (s : State) (keep : Bool) (out : MemW) : State :=
  if keep && out.b != [] then (remoteRuns out.b).foldl (fun s r => s.sendFlit (.remote r.1 r.2)) (s.hWrite out) else s

theorem State.reached_ops (s : State) (keep : Bool) (out : MemW) : (s.reached keep out).ops = s.ops := by
  unfold State.reached
  split
  · exact (State.sendFlits_frame ..).1
  · rfl

theorem State.reached_groups (s : State) (keep : Bool) (out : MemW) : (s.reached keep out).groups = s.groups := by
  unfold State.reached
  split
  · exact (State.sendFlits_frame ..).2
  · rfl

theorem State.reached_of_none (s : State) (keep : Bool) (out : MemW) (h : keep = false ∨ out.b = []) : s.reached keep out = s :=
  if_neg fun hk => by simp_all

/-- The busy flag of a collective's entry, as the end of an operation leaves it. -/
def State.settleColl (s : State) (o : EngOp) : State :=
  match o.kind with
  | .coll c => s.collBusy o.cid c.entry
  | _ => s

theorem State.settleColl_eq (s : State) (o : EngOp) : s.settleColl o = { s with ctxs := (s.settleColl o).ctxs } := by
  unfold State.settleColl
  split <;> rfl

theorem State.endOp_of_slot (s : State) (id : Nat) (o : EngOp) (ps : List Put) (st : Nat) (cnt : Option Nat) (hs : o.slot = none) :
    s.endOp id o ps st cnt =
      let u := (if st != 4 then s.markLines o true else s).reached (st != 4) (putsToW (ps.filter fun p => !p.chip && outerKey p.at')).outer
      State.settleColl { u with ops := tput id (o.ended ps st) u.ops } o := by
  have h : s.endOp id o ps st cnt =
      let u := (if st != 4 then s.markLines o true else s).reached (st != 4) (putsToW (ps.filter fun p => !p.chip && outerKey p.at')).outer
      State.settleColl ({ u with ops := tput id (o.ended ps st) u.ops }.fillSlot (gidTid o.gid) o.slot st cnt) o := rfl
  rw [hs] at h
  exact h

/-- What the end of an operation that fills no slot leaves of the memory, the operations and the groups. -/
theorem State.endOp_frame (s : State) (id : Nat) (o : EngOp) (ps : List Put) (st : Nat) (cnt : Option Nat) (hs : o.slot = none) :
    (s.endOp id o ps st cnt).ops = tput id (o.ended ps st) s.ops ∧ (s.endOp id o ps st cnt).groups = s.groups ∧
      (st = 4 ∨ (ps.filter fun p => !p.chip && outerKey p.at') = [] →
        (s.endOp id o ps st cnt).mem = s.mem ∧ (s.endOp id o ps st cnt).launches = s.launches) := by
  rw [State.endOp_of_slot s id o ps st cnt hs]
  dsimp only
  rw [State.settleColl_eq]
  have hm : (if st != 4 then s.markLines o true else s) = { s with teams := (if st != 4 then s.markLines o true else s).teams } := by
    split
    · exact State.markLines_teams ..
    · rfl
  rw [hm]
  refine ⟨congrArg _ (State.reached_ops ..), State.reached_groups .., fun h => ?_⟩
  rw [State.reached_of_none]
  · exact ⟨rfl, rfl⟩
  · exact h.elim (fun h => .inl (by simp [h])) fun h => .inr (by rw [h]; rfl)

/-! ### The events -/

/-- What an engine makes of an operation that nothing holds up, by its kind. -/
def State.finished (s : State) (id : Nat) (o : EngOp) : State :=
  match o.kind with
  | .rows rs =>
    let ps := rs.flatMap (s.rowPuts o)
    s.endOp id o ps (if o.result == 2 && ps.any (fun p => p.v.isNone) then 3 else o.result) (some o.decl)
  | .cldx dst src ne ty =>
    let r := cldxBytes (fun i => s.srcByte o (src + i)) ne ty
    if s.cldxRefused o src ne ty then s.endOp id o [] 4 none
    else s.endOp id o (r.1.zipIdx.flatMap fun b => s.putAt o (dst + b.2) b.1) r.2 none
  | .pfch a n =>
    { s with msc := nunion s.msc ((memLines [(a, n)]).filterMap fun l => match engineAddr s o.cid false false false (128 * l) with
      | .ok k => if keyType k == 1 || keyType k == 2 then some (homeLine k) else none
      | _ => none) }.endOp id o [] 2 none
  | .coll c => match c.out with
    | some (status, _, bytes) => s.collFinish id o c status bytes
    | none => if s.collSent id o c then s else s.collLocal id o c
  | .bvh refit h ar size lmax => s.bvhEnd id o (s.bvhJob o refit h ar size lmax)
  | _ => s

/-- COPY_COMPLETE on an operation that nothing holds up (R240). -/
theorem copyComplete_finishes {s : State} {id : Nat} {o : EngOp} {k : Nat} (h : tget id s.ops = some o) (ha : o.active = true)
    (hc : o.chunks = 0) (hk : o.kind.copying = true) (hv : s.opState o = .ok k) :
    exec (.copyComplete id) s = .next (s.finished id o) := by
  show execCopyComplete id s = _
  unfold execCopyComplete
  rw [h]
  dsimp only
  rw [if_neg (by simp [ha, hc, hk]), hv]
  rfl

/-- COPY_COMPLETE on an operation that no engine finishes leaves the machine as it is. -/
theorem copyComplete_skips {s : State} {id : Nat} {o : EngOp} (h : tget id s.ops = some o) (hk : o.kind.copying = false) :
    exec (.copyComplete id) s = .next s := by
  show execCopyComplete id s = _
  unfold execCopyComplete
  rw [h]
  exact congrArg Host.Outcome.next (if_pos (by simp [hk]))

/-- A copy of rows ends with POISON where a byte that it writes is damaged (R254). -/
theorem State.finished_rows {s : State} {id : Nat} {o : EngOp} {rs : List Row} (hk : o.kind = .rows rs) :
    let ps := rs.flatMap (s.rowPuts o)
    s.finished id o = s.endOp id o ps (if o.result = 2 ∧ ∃ p ∈ ps, p.v = none then 3 else o.result) (some o.decl) := by
  unfold State.finished
  simp only [hk, Bool.and_eq_true, beq_iff_eq, List.any_eq_true, Option.isNone_iff_eq_none]

theorem State.finished_bvh {s : State} {id : Nat} {o : EngOp} {refit : Bool} {h ar size lmax : Nat} {r : BvhOut}
    (hk : o.kind = .bvh refit h ar size lmax) (hr : s.bvhJob o refit h ar size lmax = .ok r) :
    let t := s.noteBvh o
    s.finished id o = t.endOp id o (r.puts.flatMap fun w => w.2.zipIdx.flatMap fun x => t.putAt o (w.1 + x.2) x.1) r.status
      (if r.status = 4 then none else some (r.puts.foldl (fun n w => n + w.2.length) 0)) := by
  unfold State.finished
  simp only [hk, hr, State.bvhEnd, beq_iff_eq]

/-- BULK_CHUNK_COMPLETE on a job with chunks left (R252). -/
theorem bulkChunkComplete_advances {s : State} {id : Nat} {o : EngOp} (h : tget id s.ops = some o) (ha : o.active = true)
    (hc : 0 < o.chunks) :
    let t := { s with ops := tput id { o with chunks := o.chunks - 1 } s.ops }
    (∀ q l, s.bces.find? (fun x => x.2.any fun y => y.1 == id) = some (q, l) →
      exec (.bulkChunkComplete id) s = .next ({ t with bces := tput q (takeChunk id l) s.bces }.stealChunk q)) ∧
    (s.bces.find? (fun x => x.2.any fun y => y.1 == id) = none → exec (.bulkChunkComplete id) s = .next t) := by
  have hx : exec (.bulkChunkComplete id) s = execBulkChunkComplete id s := rfl
  unfold execBulkChunkComplete at hx
  rw [h] at hx
  dsimp only at hx
  rw [if_pos (by simp [ha, hc])] at hx
  refine ⟨fun q l hq => ?_, fun hq => ?_⟩
  · rw [hq] at hx
    exact hx
  · rw [hq] at hx
    exact hx

/-- COPY_SUSPEND (R255) and COPY_FAIL (R256). -/
theorem copySuspend_suspends {s : State} {id : Nat} {o : EngOp} {va : Nat} (h : tget id s.ops = some o) (ha : o.active = true)
    (hv : s.opState o = .unmapped va) :
    let r := s.giveOpid o
    exec (.copySuspend id) s = .next (({ r.2 with ops := tput id { o with state := .suspended va, opid := some r.1 } r.2.ops }).ringPut
      o.cid (ringEntry 2 6 o.who.1 o.who.2.1 r.1.toNat va o.who.2.2.1 o.who.2.2.2)) := by
  show execCopySuspend id s = _
  unfold execCopySuspend
  rw [h]
  dsimp only
  rw [if_neg (by simp [ha]), hv]

theorem copyFail_fails {s : State} {id : Nat} {o : EngOp} {va code : Nat} (h : tget id s.ops = some o) (ha : o.active = true)
    (hv : s.opState o = .failed va code) :
    let r := s.giveOpid o
    exec (.copyFail id) s = .next ((r.2.endOp id { o with opid := none } [] 4 none).ringPut
      o.cid (ringEntry 3 code o.who.1 o.who.2.1 r.1.toNat va o.who.2.2.1 o.who.2.2.2)) := by
  show execCopyFail id s = _
  unfold execCopyFail
  rw [h]
  dsimp only
  rw [if_neg (by simp [ha]), hv]

/-- An event for an operation that is not there leaves the machine as it is. -/
theorem engineEvents_absent {s : State} {id : Nat} (h : tget id s.ops = none) :
    exec (.copyComplete id) s = .next s ∧ exec (.bulkChunkComplete id) s = .next s ∧ exec (.copySuspend id) s = .next s ∧
      exec (.copyFail id) s = .next s := by
  refine ⟨?_, ?_, ?_, ?_⟩
  · show execCopyComplete id s = _
    unfold execCopyComplete
    rw [h]
  · show execBulkChunkComplete id s = _
    unfold execBulkChunkComplete
    rw [h]
  · show execCopySuspend id s = _
    unfold execCopySuspend
    rw [h]
  · show execCopyFail id s = _
    unfold execCopyFail
    rw [h]

/-! ### Suspended copies (R255) -/

theorem cpyctl_of_suspended {s : State} {id cid opid : Nat} {o : EngOp} (h : s.suspendedOp cid opid = some (id, o)) :
    exec (.cpyctlResume cid opid) s = .next { s with ops := tput id { o with state := .running } s.ops } ∧
      exec (.cpyctlCancel cid opid) s = .next (s.endOp id { o with opid := none } [] 4 none) := by
  constructor
  · show Host.Outcome.next (s.cpyResume cid opid) = _
    unfold State.cpyResume
    rw [h]
  · show Host.Outcome.next (s.cpyCancel cid opid) = _
    unfold State.cpyCancel
    rw [h]

theorem cpyctl_of_none {s : State} {cid opid : Nat} (h : s.suspendedOp cid opid = none) :
    exec (.cpyctlResume cid opid) s = .next s ∧ exec (.cpyctlCancel cid opid) s = .next s := by
  constructor
  · show Host.Outcome.next (s.cpyResume cid opid) = _
    unfold State.cpyResume
    rw [h]
  · show Host.Outcome.next (s.cpyCancel cid opid) = _
    unfold State.cpyCancel
    rw [h]

/-! ### Collective steps (R258, R261) -/

theorem collSteps_of_result {s : State} {cid i step : Nat} {c : Ctx} {ps : List Part} {rs : List (Part × Nat × Nat × List Byte)}
    (hc : tget cid s.ctxs = some c) (hp : tget step (c.entry i).steps = some ps) (hr : collResult (c.entry i) step ps = some rs) :
    exec (.collStepComplete cid i step) s = .next (s.collDone cid i step rs) ∧ exec (.collTimeout cid i step) s = .next s := by
  constructor
  · show execCollStepComplete cid i step s = _
    unfold execCollStepComplete
    rw [hc]
    dsimp only
    rw [hp]
    dsimp only
    rw [hr]
  · show execCollTimeout cid i step s = _
    unfold execCollTimeout
    rw [hc]
    dsimp only
    rw [hp]
    dsimp only
    rw [if_pos (by rw [hr]; rfl)]

theorem collSteps_of_unmet {s : State} {cid i step : Nat} {c : Ctx} {ps : List Part}
    (hc : tget cid s.ctxs = some c) (hp : tget step (c.entry i).steps = some ps) (hr : collResult (c.entry i) step ps = none) :
    exec (.collStepComplete cid i step) s = .next s ∧
      let inn := ps.filter fun p => !p.withdrawn
      let t := s.collDone cid i step (inn.map fun p =>
        (p, 4, 128 + (ps.length - inn.length + ((c.entry i).absent step ps).length) * 2 ^ 32, []))
      let who := match (inn.findSome? fun p => p.opid).bind fun id => tget id t.ops with
        | some o => (gidTid o.gid % 2 ^ 32, lidKey (tidLid (gidTid o.gid)), gidG o.gid, lowest o.slices)
        | none => (2 ^ 32 - 1, 0, 255, 255)
      exec (.collTimeout cid i step) s = .next ((t.draw.2.ringPut cid
        (ringEntry 4 0 who.1 who.2.1 (i + step * 2 ^ 32) 0 who.2.2.1 who.2.2.2)).report (.event cid c.state t.draw.1.toNat)) := by
  constructor
  · show execCollStepComplete cid i step s = _
    unfold execCollStepComplete
    rw [hc]
    dsimp only
    rw [hp]
    dsimp only
    rw [hr]
  · intro inn t who
    have hx : exec (.collTimeout cid i step) s = execCollTimeout cid i step s := rfl
    unfold execCollTimeout at hx
    rw [hc] at hx
    dsimp only at hx
    rw [hp] at hx
    dsimp only at hx
    rw [if_neg (by rw [hr]; exact Bool.false_ne_true)] at hx
    exact hx

theorem collSteps_of_absent {s : State} {cid i step : Nat} (h : ∀ c, tget cid s.ctxs = some c → tget step (c.entry i).steps = none) :
    exec (.collStepComplete cid i step) s = .next s ∧ exec (.collTimeout cid i step) s = .next s := by
  have hx : exec (.collStepComplete cid i step) s = execCollStepComplete cid i step s := rfl
  have hy : exec (.collTimeout cid i step) s = execCollTimeout cid i step s := rfl
  unfold execCollStepComplete at hx
  unfold execCollTimeout at hy
  cases hc : tget cid s.ctxs with
  | none =>
    rw [hc] at hx hy
    exact ⟨hx, hy⟩
  | some c =>
    rw [hc] at hx hy
    dsimp only at hx hy
    rw [h c hc] at hx hy
    exact ⟨hx, hy⟩

end Sys2Proof.Machine
end

section
/-! CLAIM. The engines' events (R240, R250 to R261, R337, R358). -/

namespace Sys2Proof.Machine

/-- Settles O42: each event is the engine's rule where the operation fits it, and leaves the machine as it is elsewhere. -/
theorem engineEventsComplete : Obligations.EngineEventsComplete := by
  unfold Obligations.EngineEventsComplete
  refine ⟨fun s id o h ha => ⟨fun k hc hv => ?_, fun hc => bulkChunkComplete_advances h ha hc,
      fun va hv => copySuspend_suspends h ha hv, fun va code hv => copyFail_fails h ha hv⟩,
    fun s id cid opid o h => cpyctl_of_suspended h, fun s id o ps st cnt hs => ?_, fun s id h => engineEvents_absent h,
    fun s cid opid h => cpyctl_of_none h,
    fun s cid i step c ps hc hp => ⟨fun rs hr => collSteps_of_result hc hp hr, fun hr => collSteps_of_unmet hc hp hr⟩,
    fun s cid i step h => collSteps_of_absent h⟩
  · have hfin := copyComplete_finishes (k := k) h ha hc
    refine ⟨fun rs hk => ?_, fun dst src ne ty hk => ?_, fun a n hk => ?_, fun hk => copyComplete_skips h hk,
      fun c hk => ⟨fun st w bs hout => ?_, fun hout => ?_⟩, fun refit hd ar size lmax r hk hr => ?_⟩
    · exact (hfin (by rw [hk]; rfl) hv).trans (congrArg Host.Outcome.next (State.finished_rows hk))
    · rw [hfin (by rw [hk]; rfl) hv]
      unfold State.finished
      rw [hk]
    · rw [hfin (by rw [hk]; rfl) hv]
      unfold State.finished
      simp only [hk] <;> rfl
    · rw [hfin (by rw [hk]; rfl) hv]
      unfold State.finished
      rw [hk]
      dsimp only
      rw [hout]
    · rw [hfin (by rw [hk]; rfl) hv]
      unfold State.finished
      rw [hk]
      dsimp only
      rw [hout]
    · exact (hfin (by rw [hk]; rfl) hv).trans (congrArg Host.Outcome.next (State.finished_bvh hk hr))
  · intro t
    obtain ⟨hops, hgroups, hmem⟩ := State.endOp_frame s id o ps st cnt hs
    refine ⟨⟨o.ended ps st, ?_, rfl, ?_, ?_⟩, fun k hk => ?_, hgroups, fun h => hmem (h.imp_right fun h => ?_)⟩
    · rw [hops]
      exact tget_tput_same ..
    · by_cases h : st = 4 <;> simp [h]
    · by_cases h : st = 4 <;> simp [h]
    · rw [hops]
      exact tget_tput_ne _ _ hk
    · refine List.filter_eq_nil_iff.2 fun p hp => ?_
      rcases h p hp with h | h <;> simp [h]

end Sys2Proof.Machine
end

section
/-! CLAIM. The tree words (R297 to R314). -/

namespace Sys2Proof.Machine

/-! ### Walks -/

@[simp] theorem walk_ok_bind {α β : Type} (a : α) (f : α → Walk β) : ((Except.ok a : Walk α) >>= f) = f a := rfl
@[simp] theorem walk_pure {α : Type} (a : α) : (pure a : Walk α) = .ok a := rfl

theorem walkPend_congr (e : Env) (i : Instr) (f : RWord) (nreg : Nat) {res res' : Nat → Walk (List Nat × Nat)}
    (h : ∀ l ∈ e.execLanes f.k, res l = res' l) : e.walkPend i f nreg res = e.walkPend i f nreg res' := by
  have hm : ((e.execLanes f.k).map fun l => (l, res l)) = (e.execLanes f.k).map fun l => (l, res' l) :=
    List.map_congr_left fun l hl => by rw [h l hl]
  unfold Env.walkPend
  dsimp only
  rw [hm]

/-- A walking word whose executing lanes all have their words completes with them. -/
theorem walk_completes {i : Instr} {s : State} {e : Env} (h : Issues i s e) {f : RWord} {nreg : Nat}
    {res : Env → Nat → Walk (List Nat × Nat)} {ws : Nat → List Nat} {fl : Nat → Nat}
    (hx : exec i s = issueWord i (fun e => .ok (e.s.putG e.gid (e.walkPend i f nreg (res e)))) s)
    (hr : ∀ l ∈ e.execLanes f.k, res e l = .ok (ws l, fl l)) : Completes i s e (e.laneChange f nreg ws fl) := by
  refine completes_of_done ((hx.trans (issueWord_ok h rfl)).trans ?_)
  rw [walkPend_congr e i f nreg hr, walkPend_ok]

/-- A walking word leaves one pending result, or none without an executing lane. -/
theorem walk_leaves {i : Instr} {s : State} {e : Env} (h : Issues i s e) {f : RWord} {nreg : Nat}
    {res : Env → Nat → Walk (List Nat × Nat)}
    (hx : exec i s = issueWord i (fun e => .ok (e.s.putG e.gid (e.walkPend i f nreg (res e)))) s) :
    ∃ p, Completes i s e (if e.execLanes f.k = [] then {} else { new := [p] }) := by
  have hg : ∃ p, e.walkPend i f nreg (res e) = e.g.changed (if e.execLanes f.k = [] then {} else { new := [p] }) := by
    by_cases hl : e.execLanes f.k = []
    · exact ⟨{ idx := 0, pc := 0, slices := 0, dst := 0, nreg := 0 }, by simp [Env.walkPend, hl, Group.changed_nil]⟩
    · obtain ⟨p, hp⟩ : ∃ p, e.walkPend i f nreg (res e) = e.g.addPend p := ⟨_, if_neg (by simpa using hl)⟩
      exact ⟨{ p with idx := e.g.nextPend }, by rw [hp, Group.addPend_changed, if_neg hl]⟩
  obtain ⟨p, hp⟩ := hg
  exact ⟨p, completes_of_done ((hx.trans (issueWord_ok h rfl)).trans (by rw [hp]))⟩

/-! ### VGET and VSTN (R300, R301) -/

theorem walkHeader_vt {e : Env} {m : TreeMem} {f : RWord} {l : Nat} {h : Hdr} (hh : e.walkHeader m f l = .ok h) : h.vt = vtypeOf f.ty := by
  unfold Env.walkHeader at hh
  cases hd : m.header (e.rd64 l f.b) with
  | error x => rw [hd] at hh; exact absurd hh (by simp [bind, Except.bind])
  | ok y =>
    rw [hd] at hh
    by_cases hv : y.vt = vtypeOf f.ty
    · simp only [walk_ok_bind, hv, beq_self_eq_true, if_true, walk_pure, Except.ok.injEq] at hh
      exact hh ▸ hv
    · rw [walk_ok_bind, if_neg (by simpa using hv)] at hh
      exact absurd hh (by simp [throw, throwThe, MonadExceptOf.throw])

section
variable {s : State} {e : Env} {f : RWord}

theorem vget_completes {v : Nat → Nat} (h : Issues (.vget f) s e)
    (hv : ∀ l ∈ e.execLanes f.k, ∃ h, e.walkHeader e.treeMem f l = .ok h ∧ e.treeMem.value h (e.point f l) (bitOf f.m.val 0) = .ok (v l)) :
    Completes (.vget f) s e (e.laneChange f (regs (f.ty == .f64)) (fun l => valueWords (vtypeOf f.ty) (v l)) fun _ => 0) := by
  refine walk_completes h rfl fun l hl => ?_
  obtain ⟨hd, hh, hval⟩ := hv l hl
  simp only [hh, walk_ok_bind, hval, walk_pure, walkHeader_vt hh]

theorem vstn_completes {v : Nat → List Nat} (h : Issues (.vstn f) s e)
    (hv : ∀ l ∈ e.execLanes f.k, ∃ h, e.walkHeader e.treeMem f l = .ok h ∧ ((stencil (f.m == 1)).mapM fun d => match (e.point f l).shift d with
      | some q => e.treeMem.value h q true | none => .ok h.bg) = .ok (v l)) :
    Completes (.vstn f) s e (e.laneChange f ((stencil (f.m == 1)).length * regs (f.ty == .f64))
      (fun l => (v l).flatMap (valueWords (vtypeOf f.ty))) fun _ => 0) := by
  refine walk_completes h rfl fun l hl => ?_
  obtain ⟨hd, hh, hval⟩ := hv l hl
  have hw : ((stencil (f.m == 1)).mapM fun d => match (e.point f l).shift d with
      | some q => e.treeMem.value hd q true | none => pure hd.bg) = .ok (v l) := hval
  simp only [hh, walk_ok_bind]
  exact (congrArg (· >>= _) hw).trans (by simp only [walk_ok_bind, walk_pure, walkHeader_vt hh])

end

/-! ### VSMP (R302) -/

/-- A coordinate of a sample has no voxels around it. -/
def offRange (c : FV) : Bool := c.isNan || c.isInf || (floorFrac c).1 < -(2 ^ 31 : Int) || (2 ^ 31 - 2 : Int) < (floorFrac c).1

/-- The voxel at an offset from a sample's floor. -/
def TreeMem.corner (m : TreeMem) (h : Hdr) (base : Pt) (dx dy dz : Int) : Walk Nat :=
  match base.shift (dx, dy, dz) with
  | some q => m.value h q true
  | none => pure h.bg

/-- The interpolation along x of two voxels. -/
def TreeMem.edge (m : TreeMem) (h : Hdr) (base : Pt) (fx : FV) (dy dz : Int) : Walk (Nat × Nat) := do
  let a ← m.corner h base 0 dy dz
  let b ← m.corner h base 1 dy dz
  return lerp a b fx

/-- The floor of three coordinates. -/
def floorPt (u v w : FV) : Pt := ⟨ofInt 32 (floorFrac u).1, ofInt 32 (floorFrac v).1, ofInt 32 (floorFrac w).1⟩

/-- The sample of one lane (R302). -/
def TreeMem.sample (m : TreeMem) (h : Hdr) (u v w : FV) : Walk (List Nat × Nat) := do
  if [u, v, w].any (fun c => c.isNan || c.isInf) ||
      ([u, v, w].map floorFrac).any (fun x => x.1 < -(2 ^ 31 : Int) || (2 ^ 31 - 2 : Int) < x.1) then return ([f32.canon], fNV)
  let e00 ← m.edge h (floorPt u v w) (floorFrac u).2 0 0
  let e01 ← m.edge h (floorPt u v w) (floorFrac u).2 0 1
  let e10 ← m.edge h (floorPt u v w) (floorFrac u).2 1 0
  let e11 ← m.edge h (floorPt u v w) (floorFrac u).2 1 1
  let y0 := lerp e00.1 e10.1 (floorFrac v).2
  let y1 := lerp e01.1 e11.1 (floorFrac v).2
  let z := lerp y0.1 y1.1 (floorFrac w).2
  return ([z.1], e00.2 ||| e01.2 ||| e10.2 ||| e11.2 ||| y0.2 ||| y1.2 ||| z.2)

theorem sgn_ofInt {z : Int} (hl : -(2 ^ 31 : Int) ≤ z) (hh : z < 2 ^ 31) : sgn 32 (ofInt 32 z) = z := by
  unfold sgn ofInt
  dsimp only
  split <;> omega

theorem shift_floor {z : Int} {d : Nat} (hl : -(2 ^ 31 : Int) ≤ z) (hh : z ≤ 2 ^ 31 - 2) (hd : d < 2) :
    (let v := sgn 32 (ofInt 32 z) + (d : Int)
     if v < -(2 ^ 31 : Int) || (2 ^ 31 : Int) ≤ v then none else some (ofInt 32 v)) = some (ofInt 32 (z + d)) := by
  rw [sgn_ofInt hl (by omega)]
  exact if_neg (by simp; omega)

theorem off_any (l : List FV) : l.any offRange = (l.any (fun c => c.isNan || c.isInf) ||
    (l.map floorFrac).any (fun x => x.1 < -(2 ^ 31 : Int) || (2 ^ 31 - 2 : Int) < x.1)) := by
  induction l with
  | nil => rfl
  | cons c l ih =>
    simp only [List.any_cons, List.map_cons, ih, offRange]
    cases c.isNan <;> cases c.isInf <;> simp [Bool.or_assoc, Bool.or_left_comm]

/-- The voxels around a sample in range are those at its floor plus 0 or 1 on each axis. -/
theorem corner_floor {m : TreeMem} {h : Hdr} {u v w : FV} (ho : [u, v, w].any offRange = false) {dx dy dz : Nat}
    (hx : dx < 2) (hy : dy < 2) (hz : dz < 2) : m.corner h (floorPt u v w) dx dy dz = m.value h
      ⟨ofInt 32 ((floorFrac u).1 + dx), ofInt 32 ((floorFrac v).1 + dy), ofInt 32 ((floorFrac w).1 + dz)⟩ true := by
  simp only [List.any_cons, List.any_nil, Bool.or_false, Bool.or_eq_false_iff, offRange, decide_eq_false_iff_not, not_lt] at ho
  obtain ⟨⟨⟨-, hul⟩, huh⟩, ⟨⟨-, hvl⟩, hvh⟩, ⟨-, hwl⟩, hwh⟩ := ho
  have hs : (floorPt u v w).shift (dx, dy, dz) =
      some ⟨ofInt 32 ((floorFrac u).1 + dx), ofInt 32 ((floorFrac v).1 + dy), ofInt 32 ((floorFrac w).1 + dz)⟩ := by
    unfold Pt.shift floorPt
    dsimp only
    rw [shift_floor hul huh hx, shift_floor hvl hvh hy, shift_floor hwl hwh hz]
  unfold TreeMem.corner
  rw [hs]

/-- A sample in range interpolates along x, then y, then z. -/
theorem sample_in {m : TreeMem} {h : Hdr} {u v w : FV} {c : Nat → Nat → Nat → Nat} (ho : [u, v, w].any offRange = false)
    (hc : ∀ dx < 2, ∀ dy < 2, ∀ dz < 2, m.value h
      ⟨ofInt 32 ((floorFrac u).1 + (dx : Nat)), ofInt 32 ((floorFrac v).1 + (dy : Nat)), ofInt 32 ((floorFrac w).1 + (dz : Nat))⟩ true =
        .ok (c dx dy dz)) :
    let x := fun dy dz => lerp (c 0 dy dz) (c 1 dy dz) (floorFrac u).2
    let y := fun dz => lerp (x 0 dz).1 (x 1 dz).1 (floorFrac v).2
    let z := lerp (y 0).1 (y 1).1 (floorFrac w).2
    m.sample h u v w = .ok ([z.1], (x 0 0).2 ||| (x 0 1).2 ||| (x 1 0).2 ||| (x 1 1).2 ||| (y 0).2 ||| (y 1).2 ||| z.2) := by
  intro x y z
  have hedge : ∀ dy < 2, ∀ dz < 2, m.edge h (floorPt u v w) (floorFrac u).2 (dy : Nat) (dz : Nat) = .ok (x dy dz) := by
    intro dy hy dz hz
    have h0 := corner_floor (m := m) (h := h) ho (dx := 0) (by decide) hy hz
    have h1 := corner_floor (m := m) (h := h) ho (dx := 1) (by decide) hy hz
    rw [hc 0 (by decide) dy hy dz hz] at h0
    rw [hc 1 (by decide) dy hy dz hz] at h1
    unfold TreeMem.edge
    exact (congrArg (· >>= _) h0).trans ((walk_ok_bind ..).trans ((congrArg (· >>= _) h1).trans rfl))
  have h00 := hedge 0 (by decide) 0 (by decide)
  have h01 := hedge 0 (by decide) 1 (by decide)
  have h10 := hedge 1 (by decide) 0 (by decide)
  have h11 := hedge 1 (by decide) 1 (by decide)
  simp only [Nat.cast_zero, Nat.cast_one] at h00 h01 h10 h11
  unfold TreeMem.sample
  rw [← off_any, if_neg (by simp only [ho]; decide)]
  simp only [h00, h01, h10, h11, walk_ok_bind, walk_pure]
  rfl

theorem sample_off {m : TreeMem} {h : Hdr} {u v w : FV} (ho : [u, v, w].any offRange = true) :
    m.sample h u v w = .ok ([f32.canon], fNV) := by
  unfold TreeMem.sample
  rw [← off_any, if_pos ho]
  rfl

/-- A lane of VSMP takes the sample of its point in the tree that it names. -/
def Env.sampleLane (e : Env) (f : RWord) (l : Nat) : Walk (List Nat × Nat) := do
  let h ← e.walkHeader e.treeMem f l
  e.treeMem.sample h (unpackFp f32 (e.point f l).x) (unpackFp f32 (e.point f l).y) (unpackFp f32 (e.point f l).z)

theorem vsmp_issues (f : RWord) (s : State) : exec (.vsmp f) s =
    issueWord (.vsmp f) (fun e => .ok (e.s.putG e.gid (e.walkPend (.vsmp f) f 1 (e.sampleLane f)))) s := by
  show execVsmp f s = _
  unfold execVsmp
  refine congrArg (fun b => issueWord (.vsmp f) b s) (funext fun e => ?_)
  refine congrArg (fun r => Res.ok (e.s.putG e.gid (e.walkPend (.vsmp f) f 1 r))) (funext fun l => ?_)
  refine congrArg (fun r => e.walkHeader e.treeMem f l >>= r) (funext fun h => ?_)
  unfold TreeMem.sample
  exact if_congr Iff.rfl rfl rfl

/-! ### VMRC (R303) -/

/-- With a finite origin and direction every axis states its slab. -/
theorem openAxis_finite {ws : List Nat} (h : ((ws.take 6).all fun w => !(unpackFp f32 w).isInf) = true) {i : Nat} (hi : i < 3) :
    openAxis (((ws.map (unpackFp f32))[i]?).getD (.nan false)) (((ws.map (unpackFp f32))[i + 3]?).getD (.nan false)) = false := by
  have hinf : ∀ j < 6, (((ws.map (unpackFp f32))[j]?).getD (.nan false)).isInf = false := by
    intro j hj
    rw [List.getElem?_map]
    cases hw : ws[j]? with
    | none => rfl
    | some w =>
      have hm : w ∈ ws.take 6 := List.mem_of_getElem? (by rw [List.getElem?_take, if_pos hj]; exact hw)
      simpa using List.all_eq_true.1 h w hm
  unfold openAxis
  rw [hinf i (by omega), hinf (i + 3) (by omega)]
  rfl

theorem vmrcLane_finite {m : TreeMem} {h : Hdr} {ws : List Nat} (hf : ((ws.take 6).all fun w => !(unpackFp f32 w).isInf) = true)
    (free : List Nat) : vmrcLane m h ws free = vmrcLane m h ws [] := by
  unfold vmrcLane
  simp only [openAxis_finite hf (i := 0) (by decide), openAxis_finite hf (i := 1) (by decide), openAxis_finite hf (i := 2) (by decide),
    Bool.or_false, Bool.and_false, Bool.false_eq_true, if_false]

section
variable {s : State} {e : Env} {f : RWord}

theorem vmrc_completes {r : Nat → List Nat × Nat} (h : Issues (.vmrc f) s e)
    (hr : ∀ l ∈ e.execLanes f.k, ∃ h, e.treeMem.header (e.rd64 l f.b) = .ok h ∧
      let ws := (List.range 8).map fun j => e.rd32 l (Opd.plus f.a j)
      ((ws.take 6).all fun w => !(unpackFp f32 w).isInf) = true ∧ vmrcLane e.treeMem h ws [] = .ok (r l)) :
    Completes (.vmrc f) s e (e.laneChange f 4 (fun l => (r l).1) fun l => (r l).2) := by
  refine walk_completes h rfl fun l hl => ?_
  obtain ⟨hd, hh, hf, hv⟩ := hr l hl
  simp only [hh, walk_ok_bind]
  exact (vmrcLane_finite hf _).trans hv

/-! ### The leaf pool (R304, R305) -/

theorem sliceBits_eq (x : Nat) : sliceBits x = maskOf ((List.range 8).filter fun c => fld x (4 * c) 4 != 0) := by
  rw [maskOf, List.foldl_filter]
  rfl

theorem mem_execSlices {k c : Nat} : c ∈ e.execSlices k ↔ c < 8 ∧ fld (e.exec k) (4 * c) 4 ≠ 0 := by
  unfold Env.execSlices
  rw [mem_slicesOf, sliceBits_eq, bitOf_maskOf_filter_range]
  simp

/-- A mask of lanes with no nibble set is empty. -/
theorem eq_zero_of_nibbles {x : Nat} (hlt : x < 2 ^ 32) (hz : ∀ c < 8, fld x (4 * c) 4 = 0) : x = 0 := by
  refine Nat.eq_of_testBit_eq fun i => ?_
  rw [Nat.zero_testBit]
  by_cases hi : i < 32
  · have h := congrArg (Nat.testBit · (i % 4)) (hz (i / 4) (by omega))
    rw [fld, Nat.testBit_mod_two_pow, Nat.testBit_div_two_pow, Nat.add_comm, Nat.div_add_mod] at h
    simpa [Nat.mod_lt] using h
  · exact Nat.testBit_lt_two_pow (Nat.lt_of_lt_of_le hlt (Nat.pow_le_pow_right (by decide) (by omega)))

/-- A word with an executing lane has an executing slice. -/
theorem Env.execSlices_ne {k : Nat} (hx : e.exec k ≠ 0) : e.execSlices k ≠ [] := by
  intro h
  have hlt : e.exec k < 2 ^ 32 :=
    Nat.lt_of_le_of_lt (Nat.le_trans Nat.and_le_left Nat.and_le_right) e.g.kact.isLt
  refine hx (eq_zero_of_nibbles hlt fun c hc => ?_)
  by_contra hne
  exact List.not_mem_nil (h ▸ mem_execSlices.mpr ⟨hc, hne⟩ : c ∈ [])

/-- What VLEAF names (R304). -/
abbrev leafOpds (f : RWord) : List Opd := if f.m == 1 then [f.a] else [f.a, Opd.plus f.a 1, Opd.plus f.a 2, f.b]

/-- The failed result of VLEAF. -/
def Env.leafFailure (e : Env) (f : RWord) (x : Nat × Nat) : Pend :=
  { e.newPend f.d 1 (sliceBits (e.exec f.k)) with
    idx := e.g.nextPend
    fails := e.fails (.vleaf f) ((e.execSlices f.k).map fun c => (4 * c, { code := x.1, fslice := some c, addr := x.2 })) }

theorem Env.leafFailure_fails (e : Env) (f : RWord) (x : Nat × Nat) : (e.leafFailure f x).fails.map (fun w => (w.1, w.2.code, w.2.addr)) =
    (e.execSlices f.k).map fun c => (4 * c, x.1, BitVec.ofNat 64 x.2) := by
  simp [Env.leafFailure, Env.fails, Env.record, List.map_map, Function.comp_def]

theorem scalarPend_fails (hx : e.exec f.k ≠ 0) (x : Nat × Nat) :
    e.scalarPend f 0 (e.fails (.vleaf f) ((e.execSlices f.k).map fun c' => (4 * c', { code := x.1, fslice := some c', addr := x.2 }))) =
      e.g.addPend (e.leafFailure f x) := by
  have hne : e.fails (.vleaf f) ((e.execSlices f.k).map fun c' => (4 * c', ({ code := x.1, fslice := some c', addr := x.2 } : Flt))) ≠ [] := by
    simpa [Env.fails] using Env.execSlices_ne hx
  unfold Env.scalarPend
  dsimp only
  rw [if_pos (by simpa using hne)]
  rfl

theorem vleaf_fails (h : Issues (.vleaf f) s e) (hx : e.exec f.k ≠ 0) {vs : List Nat} (hv : e.agreed f.k (leafOpds f) = .ok vs) {x : Nat × Nat}
    (hl : (leafArg e.treeMem f fun i => (vs[i]?).getD 0) = .error x) :
    Completes (.vleaf f) s e { new := [e.leafFailure f x] } := by
  refine completes_of_done (onceWord_next h (.inl hx) ?_)
  simp only [hv, chk_ok_bind, hl, chk_pure]
  rw [scalarPend_fails hx, Group.addPend_changed]
  rfl

theorem vleaf_absent (h : Issues (.vleaf f) s e) (hx : e.exec f.k ≠ 0) {vs : List Nat} (hv : e.agreed f.k (leafOpds f) = .ok vs) {t : Nat}
    (hl : (leafArg e.treeMem f fun i => (vs[i]?).getD 0) = .ok (t, 0)) :
    Completes (.vleaf f) s e { new := [e.scalarResult f 0] } := by
  refine completes_of_done (onceWord_next h (.inl hx) ?_)
  simp only [hv, chk_ok_bind, hl, chk_pure]
  rw [scalarPend_changed]

section
variable (h : Issues (.vleaf f) s e) (hx : e.exec f.k ≠ 0) {vs : List Nat} (hv : e.agreed f.k (leafOpds f) = .ok vs) {t leaf i : Nat}
  (hl : (leafArg e.treeMem f fun i => (vs[i]?).getD 0) = .ok (t, leaf)) (h0 : leaf ≠ 0)
  (hi : (e.frames.find? fun i => (tget i e.team.pins).isNone) = some i)
include h hx hv hl h0 hi

theorem vleaf_unreadable {x : Nat × Nat} (hn : e.treeMem.num leaf (leafBytes t) = .error x) :
    Effect (.vleaf f) s e (· = (e.s.putG e.gid (e.g.addPend (e.leafFailure f x))).modT e.tid fun t =>
      { t with pins := tput i (gidG e.gid) t.pins }) := by
  obtain ⟨n, rfl⟩ := Nat.exists_eq_succ_of_ne_zero h0
  refine ⟨_, onceWord_next h (.inl hx) ?_, rfl⟩
  simp only [hv, chk_ok_bind, hl, chk_pure, hi, hn]
  rw [← scalarPend_fails hx]

theorem vleaf_pins {b : Nat} (hn : e.treeMem.num leaf (leafBytes t) = .ok b) :
    Effect (.vleaf f) s e (· = (e.s.putG e.gid (e.g.addPend (e.scalarResult f (e.frameAddr i)))).modT e.tid fun t =>
      { t with pins := tput i (gidG e.gid) t.pins,
               data := t.data.apply (MemW.ofCells (cells (e.lch.layout.pool + 4224 * i) (leBytes 4224 b))) }) := by
  obtain ⟨n, rfl⟩ := Nat.exists_eq_succ_of_ne_zero h0
  refine ⟨_, onceWord_next h (.inl hx) ?_, rfl⟩
  simp only [hv, chk_ok_bind, hl, chk_pure, hi, hn]
  rfl

end

theorem vleafRel_frees (h : Issues (.vleafRel f) s e) (hx : e.exec f.k ≠ 0) {v i : Nat} (hv : e.agreed f.k [f.a] = .ok [v])
    (hi : (e.frames.find? fun i => e.frameAddr i == v && tget i e.team.pins == some (gidG e.gid)) = some i) :
    Effect (.vleafRel f) s e (· = e.s.modT e.tid fun t => { t with pins := tdel i t.pins }) := by
  refine ⟨_, onceWord_next h (.inl hx) ?_, rfl⟩
  simp only [hv, chk_ok_bind, List.getElem?_cons_zero, Option.getD_some, hi, chk_pure]

/-! ### Writing voxels and activity (R306, R307) -/

@[simp] theorem ofWalk_ok {α : Type} (l : Nat) (a : α) : ofWalk l (.ok a) = .ok a := rfl

theorem mapM_ofWalk {α : Type} {g : Nat → Walk α} {l : List Nat} {ts : List α} (h : l.mapM g = .ok ts) :
    (l.mapM fun x => ofWalk x (g x)) = .ok ts := by
  induction l generalizing ts with
  | nil => exact congrArg Except.ok (Except.ok.inj h)
  | cons x l ih =>
    rw [List.mapM_cons] at h ⊢
    cases hx : g x with
    | error c => rw [hx] at h; cases h
    | ok y =>
      rw [hx, walk_ok_bind] at h
      cases hl : l.mapM g with
      | error c => rw [hl] at h; cases h
      | ok ys =>
        rw [hl] at h
        rw [ih hl]
        exact congrArg Except.ok (Except.ok.inj h)

theorem vset_completes (h : Issues (.vset f) s e) (hx : e.execLanes f.k ≠ []) {ts : List (Nat × List Nat)} {tm : Team}
    (ht : ((e.execLanes f.k).mapM fun l => e.vsetTarget e.treeMem f l) = .ok ts)
    (hc : e.team.charge e.lch.lr.dquota (memLines (ts.map fun t => (t.1, valueBytes (vtypeOf f.ty)))) 0 = some tm) :
    Effect (.vset f) s e (· = (e.s.putT e.tid tm).modG e.gid fun g => g.modLvl e.sub.mask fun v =>
      { v with gmem := v.gmem.andThen (MemW.ofCells (((e.execLanes f.k).zip ts).flatMap fun x =>
        x.2.2.zip (leBytes (valueBytes (vtypeOf f.ty)) (if f.ty == .f64 then e.rd64 x.1 f.d else e.rd32 x.1 f.d)))) }) := by
  refine ⟨_, issueWord_ok h ?_, rfl⟩
  simp only [mapM_ofWalk ht, chk_ok_bind, hc, chk_pure, ofChk]
  rw [if_neg (by simpa using hx)]

theorem mapM_chk_ok {α : Type} {g : Nat → Chk α} {y : Nat → α} {l : List Nat} (h : ∀ x ∈ l, g x = .ok (y x)) :
    l.mapM g = .ok (l.map y) :=
  mapM_ok_iff.mpr (List.forall₂_map_right_iff.mpr (List.forall₂_same.mpr h))

theorem vact_waits (h : Issues (.vact f) s e) (hx : e.exec f.k ≠ 0) {hv : Nat} {hd : Hdr} {leaf : Nat → Nat} {tm : Team}
    (hvs : e.agreed f.k [f.b] = .ok [hv]) (hh : e.treeMem.header hv = .ok hd)
    (hl : ∀ l ∈ e.execLanes f.k, ∃ t, e.treeMem.path hd (e.point f l) = .ok t ∧ t.leaf = leaf l)
    (hc : e.team.charge e.lch.lr.dquota
      (nunion (memLines (((e.execLanes f.k).filter fun l => leaf l != 0).map fun l => (leaf l + 64 + 4 * ((e.point f l).voxel / 32), 4)))
        (((e.execLanes f.k).filter fun l => leaf l == 0).map fun l => originLine hv ((e.point f l).origin 8))) 0 = some tm) :
    Effect (.vact f) s e (· = e.s.putT e.tid { tm with
      toks := tm.toks ++ [(gidG e.gid, .vact (bitOf f.m.val 0) (e.points f) (BitVec.ofNat 64 hv))] }) := by
  have hm : ((e.execLanes f.k).mapM fun l => ofWalk l (e.treeMem.path hd (e.point f l)) >>= fun t => .ok (e.point f l, t.leaf)) =
      (.ok ((e.execLanes f.k).map fun l => (e.point f l, leaf l)) : Chk (List (Pt × Nat))) :=
    mapM_chk_ok fun l hm => by
      obtain ⟨t, ht, htl⟩ := hl l hm
      rw [ht, ← htl]
      rfl
  refine ⟨_, onceWord_next h (.inl hx) ?_, rfl⟩
  simp only [hvs, chk_ok_bind, List.getElem?_cons_zero, Option.getD_some, hh, ofWalk_ok, hm, List.filter_map, List.map_map,
    Function.comp_def, hc, chk_pure]

/-! ### The allocator's words (R308) -/

/-- What VINS and VDEL leave for the round that applies them. -/
def Env.allocWaits (e : Env) (f : RWord) (h : Nat) (sp : Spec) (tm : Team) (ins : Bool) : State :=
  let r := e.tokenSlot (e.s.putT e.tid tm) sp (match e.nextSlot sp with | some (_, a) => a | none => 0) 512
  r.1.modT e.tid fun t => { t with toks := t.toks ++ [(gidG e.gid, .alloc ins (e.points f) (BitVec.ofNat 64 h) r.2.1)] }

theorem allocWord_ends {h c : Nat} {hd : Hdr} {sp : Spec} {tm : Team} (hv : e.agreed f.k [f.b, f.c] = .ok [h, c])
    (hh : e.treeMem.header h = .ok hd) (hs : e.spec c [0, 15] = .ok sp) (hb : ∀ q a, e.nextSlot sp = some (q, a) → 512 ≤ q.slotBytes)
    (hf : sp.mode = 0 → e.fetchOk = .ok ()) (hc : e.team.charge e.lch.lr.dquota [] (640 * (e.execLanes f.k).length) = some tm) (ins : Bool) :
    e.allocWord f ins = .ok (if e.slotBusy sp then .park (.slotFree sp.q) e.s else .ok (e.allocWaits f h sp tm ins)) := by
  unfold Env.allocWord Env.allocWaits
  simp only [hv, chk_ok_bind, List.getElem?_cons_zero, List.getElem?_cons_succ, Option.getD_some, hh, ofWalk_ok, hs, hc, chk_pure]
  refine Eq.trans (b := if e.slotBusy sp then .ok (.park (.slotFree sp.q) e.s) else .ok (.ok _)) ?_ (apply_ite Except.ok ..).symm
  cases hn : e.nextSlot sp with
  | none =>
    by_cases hm : sp.mode = 0
    · simp only [hm, hf hm, beq_self_eq_true, if_true, chk_ok_bind]
    · simp only [beq_false_of_ne hm, Bool.false_eq_true, if_false]
  | some x =>
    simp only [decide_eq_true (hb x.1 x.2 hn), guardC_true, chk_ok_bind]
    by_cases hm : sp.mode = 0
    · simp only [hm, hf hm, beq_self_eq_true, if_true, chk_ok_bind]
    · simp only [beq_false_of_ne hm, Bool.false_eq_true, if_false]

/-- VINS and VDEL wait for the round that applies them, or for their slot. -/
theorem allocWord_completes {i : Instr} {ins : Bool} (h : Issues i s e) (hi : exec i s = onceWord i (fun e => e.allocWord f ins) s)
    (hx : e.exec i.guard ≠ 0) {sp : Spec} {t : State}
    (hb : e.allocWord f ins = .ok (if e.slotBusy sp then .park (.slotFree sp.q) e.s else .ok t)) :
    (e.slotBusy sp = false → Effect i s e (· = t)) ∧
      (e.slotBusy sp = true → exec i s = .next (e.parked i (.slotFree sp.q) e.s)) := by
  constructor
  · intro hbusy
    rw [hbusy] at hb
    exact ⟨_, hi.trans (onceWord_next h (.inl hx) hb), rfl⟩
  · intro hbusy
    rw [hbusy] at hb
    exact hi.trans (onceWord_parks h (.inl hx) rfl hb)

/-! ### Halo registrations (R311) -/

theorem halo_registers (h : Issues (.halo f) s e) (hx : e.exec f.k ≠ 0) {a b hv : Nat} {hd : Hdr}
    (hvs : e.agreed f.k [f.a, f.b, f.c] = .ok [a, b, hv]) (hb : b < 2 ^ 20) (hn : fld b 0 16 ≤ 4096) (ha : a % 8 = 0) (hlo : e.spb ≤ a)
    (hhi : a + 8 * fld b 0 16 ≤ e.spb + e.lch.layout.rings) (hh : e.treeMem.header hv = .ok hd)
    (hs : ∀ x ∈ (List.range (fld b 0 16)).map fun i => leNat (e.ownBytes (a - e.spb + 8 * i) 8), x ≠ 0 ∧ x % 64 = 0) :
    Effect (.halo f) s e (· = e.s.modL e.lid fun l => { l with
      halo := l.halo ++ ((List.range (fld b 0 16)).map fun i => leNat (e.ownBytes (a - e.spb + 8 * i) 8)).map fun x =>
        (BitVec.ofNat 64 x, fld b 16 4, BitVec.ofNat 64 hv) }) := by
  have hfind : (((List.range (fld b 0 16)).map fun i => leNat (e.ownBytes (a - e.spb + 8 * i) 8)).find? fun x => x == 0 || x % 64 != 0) = none :=
    List.find?_eq_none.2 fun x hx => by simp [hs x hx]
  refine ⟨_, onceWord_next h (.inl hx) ?_, rfl⟩
  simp only [hvs, chk_ok_bind, List.getElem?_cons_zero, List.getElem?_cons_succ, Option.getD_some, decide_eq_true hb, decide_eq_true hn, ha,
    decide_eq_true hlo, decide_eq_true hhi, beq_self_eq_true, Bool.and_self, guardC_true, hh, ofWalk_ok, hfind, chk_pure]

end

/-- Settles O45: each word's walks, by lane, and its effect where the checks of the chapter pass. -/
theorem treeWordsComplete : Obligations.TreeWordsComplete := by
  intro s e vt n
  refine ⟨fun f v h hv => vget_completes h hv, fun f v h hv => vstn_completes h hv, fun f hd v h => ?_, fun f h => walk_leaves h rfl,
    fun f h => walk_leaves h rfl, fun f h => walk_leaves h (vsmp_issues f s), fun f h => walk_leaves h rfl,
    fun f r h hr => vmrc_completes h hr,
    fun f vs x h hx hv hl => ⟨_, vleaf_fails h hx hv hl, rfl, rfl, e.leafFailure_fails f x⟩,
    fun f vs t leaf i x h hx hv hl h0 hi hn => ⟨_, vleaf_unreadable h hx hv hl h0 hi hn, rfl, rfl, e.leafFailure_fails f x⟩,
    fun f vs t h hx hv hl => vleaf_absent h hx hv hl, fun f vs t leaf i b h hx hv hl h0 hi hn => vleaf_pins h hx hv hl h0 hi hn,
    fun f v i h hx hv hi => vleafRel_frees h hx hv hi, fun f ts tm h hx ht hc => vset_completes h hx ht hc,
    fun f hv hd leaf tm h hx hvs hh hl hc => vact_waits h hx hvs hh hl hc,
    fun f hv c hd sp tm hx hvs hh hs hb hf hc => ?_,
    fun f a b hv hd h hx hvs hb hn ha hlo hhi hh hz => halo_registers h hx hvs hb hn ha hlo hhi hh hz⟩
  · intro pt off at' fr hl x y z
    refine walk_completes h (vsmp_issues f s) fun l hm => ?_
    obtain ⟨hh, hc⟩ := hl l hm
    unfold Env.sampleLane
    rw [hh, walk_ok_bind]
    cases ho : off l with
    | true => exact (sample_off ho).trans rfl
    | false => exact sample_in ho (hc ho)
  · intro r waits
    have hend := allocWord_ends hvs hh hs hb hf hc
    exact ⟨fun h => (allocWord_completes h rfl hx (hend true)).1, fun h => (allocWord_completes h rfl hx (hend false)).1,
      fun h => (allocWord_completes h rfl hx (hend true)).2, fun h => (allocWord_completes h rfl hx (hend false)).2⟩

end Sys2Proof.Machine
end

section
/-! CLAIM. The ray words (R326 to R336). -/

namespace Sys2Proof.Machine

/-! ### The lanes of a ray word -/

section
variable {s : State} {e : Env} {f : RWord}

/-- RTRC starts a ray in each executing lane (R327). -/
theorem rtrc_starts (h : Issues (.rtrc f) s e) (hx : e.execLanes f.k ≠ []) (hc : ∀ l ∈ e.execLanes f.k, e.rd64 l f.c < 2)
    (hp : ∀ l ∈ e.execLanes f.k, (e.g.ray l).phase ≠ .opened) (hq : e.g.logOn = true → ∃ x, e.fillQueue e.g.logQ = .ok x)
    (hb : e.slotBusy { mode := if e.g.logOn then 0 else 15, q := e.g.logQ } = false) :
    let ls := e.execLanes f.k
    let sp : Spec := { mode := if e.g.logOn then 0 else 15, q := e.g.logQ }
    let at' := match e.nextSlot sp with | some (_, a) => a | none => 0
    let s1 := if e.g.logOn then e.fork e.s sp []
      { gid := e.gid, slices := 0, kind := .log ls.length [], engine := .log, mode := 0, handle := BitVec.ofNat 64 at' } else e.s
    let first := fun l => ({ e.treeMem.start (e.rayRegs f l) (bitOf (e.rd64 l f.c) 0) (e.rd64 l f.b) with
      rayId := BitVec.ofNat 64 (e.team.team * 2 ^ 32 + (32 * gidG e.gid + l) * 2 ^ 20 + (sget 0 e.g.rayCount l).toNat),
      job := if e.g.logOn then some e.s.nextOp else none } : Ray).go
    Effect (.rtrc f) s e (· = e.rayEvents (.rtrc f) f
      (s1.modG e.gid fun g => { g with rayCount := ls.foldl (fun c l => sset 0 c l (sget 0 c l + 1)) g.rayCount })
      (ls.map fun l => (l, (first l).1, (first l).2, false))) := by
  have hodd : ((e.execLanes f.k).find? fun l => 2 ≤ e.rd64 l f.c) = none :=
    List.find?_eq_none.2 fun l hl => by simpa using hc l hl
  have hopen : ((e.execLanes f.k).find? fun l => (e.g.ray l).phase == .opened) = none :=
    List.find?_eq_none.2 fun l hl => by simpa using hp l hl
  refine ⟨_, issueWord_ok h ?_, rfl⟩
  simp only [beq_false_of_ne hx, hodd, hopen]
  by_cases hl : e.g.logOn = true
  · obtain ⟨x, hx⟩ := hq hl
    simp only [hl, hx, if_true] at hb ⊢
    simp only [hb, chk_ok_bind, chk_pure] <;> rfl
  · rw [Bool.not_eq_true] at hl
    simp only [hl, Bool.false_eq_true, if_false] at hb ⊢
    simp only [hb, chk_pure] <;> rfl

/-- RCONT answers the open events and goes on in the replays (R328, R336). -/
theorem rcont_answers (h : Issues (.rcont f) s e) (hx : e.execLanes f.k ≠ [])
    (hp : ∀ l ∈ e.execLanes f.k, (e.g.ray l).phase = .replay ∨ (e.g.ray l).phase = .opened ∧ e.rd32 l f.a < 2) :
    Effect (.rcont f) s e (· = e.rayEvents (.rcont f) f e.s ((e.execLanes f.k).map fun l =>
      if (e.g.ray l).phase = .replay then (l, (e.g.ray l).replayNext, none, true)
      else
        let x := (e.g.ray l).answer (bitOf (e.rd32 l f.a) 0) (BitVec.ofNat 64 (e.rd64 l (Opd.plus f.a 2)))
        (l, x.1, x.2, false))) := by
  have hodd : ((e.execLanes f.k).find? fun l =>
      (e.g.ray l).phase != .replay && ((e.g.ray l).phase != .opened || 2 ≤ e.rd32 l f.a)) = none :=
    List.find?_eq_none.2 fun l hl => by
      rcases hp l hl with hr | ⟨ho, ha⟩
      · simp [hr]
      · simp [ho, ha]
  refine ⟨_, issueWord_ok h ?_, rfl⟩
  simp only [beq_false_of_ne hx, hodd, beq_iff_eq]
  rfl

theorem rcontKill_ends (h : Issues (.rcontKill f) s e) (hx : e.execLanes f.k ≠ [])
    (hp : ∀ l ∈ e.execLanes f.k, (e.g.ray l).phase = .replay ∨ (e.g.ray l).phase = .opened) :
    Effect (.rcontKill f) s e (· = e.rayEvents (.rcontKill f) f e.s ((e.execLanes f.k).map fun l =>
      if (e.g.ray l).phase = .replay then
        (l, { (e.g.ray l) with phase := .done, event := 4, item := none, rest := [], resp := false, ret := 0 }, none, true)
      else (l, (e.g.ray l).kill, none, false))) := by
  have hodd : ((e.execLanes f.k).find? fun l => (e.g.ray l).phase != .replay && (e.g.ray l).phase != .opened) = none :=
    List.find?_eq_none.2 fun l hl => by rcases hp l hl with hr | hr <;> simp [hr]
  refine ⟨_, issueWord_ok h ?_, rfl⟩
  simp only [beq_false_of_ne hx, hodd, beq_iff_eq]
  rfl

/-- RGET reads a ray in each executing lane (R329). -/
theorem rget_reads {w : Nat → List Nat} (h : Issues (.rget f) s e)
    (hw : ∀ l ∈ e.execLanes f.k, (e.g.ray l).phase ≠ .idle ∧ (e.g.ray l).get f.m.val = .ok (w l) ∧
      ((e.g.ray l).rep = true → (e.g.ray l).tree = true ∨ f.m = 0 ∨ f.m = 3 ∨ f.m = 4)) :
    Completes (.rget f) s e (e.laneChange f (rgetSpan f.m.val) w fun _ => 0) := by
  have hodd : ((e.execLanes f.k).find? fun l => (e.g.ray l).phase == .idle ||
      (e.g.ray l).rep && !(e.g.ray l).tree && (f.m.val == 1 || f.m.val == 2 || f.m.val == 5)) = none :=
    List.find?_eq_none.2 fun l hl => by
      obtain ⟨hi, -, ht⟩ := hw l hl
      by_cases hr : (e.g.ray l).rep = true
      · rcases ht hr with ht | ht | ht | ht <;> simp [hi, ht]
      · simp [hi, hr]
  refine completes_of_done (issueWord_ok h ?_)
  simp only [hodd, chk_pure, ofChk]
  rw [← walkPend_ok e (.rget f) f (rgetSpan f.m.val) w fun _ => 0]
  exact congrArg (fun g => Res.ok (e.s.putG e.gid g)) (walkPend_congr e _ f _ fun l hl => by rw [(hw l hl).2.1])

end

/-! ### The log (R334) -/

theorem rlog_switches {s : State} {e : Env} {f : RWord} {a : Nat} (h : Issues (.rlog f) s e) (hx : e.exec f.k ≠ 0)
    (hv : e.agreed f.k [f.a] = .ok [a]) (hz : a / 16 % 16 = 0) (ha : a < 512) (hq : 256 ≤ a → ∃ x, e.fillQueue (a % 16) = .ok x) :
    Effect (.rlog f) s e (· = e.s.putG e.gid { e.g with logOn := decide (256 ≤ a), logQ := a % 16 }) := by
  have hfields : ∀ x < 16, ∀ y < 2, (x + 256 * y) &&& (2 ^ 64 - 1 - 0x10F) = 0 ∧ bitOf (x + 256 * y) 8 = decide (256 ≤ x + 256 * y) := by decide
  obtain ⟨hm, hbit⟩ := hfields (a % 16) (by omega) (a / 256) (by omega)
  rw [show a % 16 + 256 * (a / 256) = a by omega] at hm hbit
  have hq' : fld a 0 4 = a % 16 := by simp [fld]
  refine ⟨_, onceWord_next h (.inl hx) ?_, rfl⟩
  simp only [hv, chk_ok_bind, List.getElem?_cons_zero, Option.getD_some, hm, beq_self_eq_true, guardC_true, hbit, hq']
  by_cases hon : 256 ≤ a
  · obtain ⟨x, hx⟩ := hq hon
    simp only [hon, decide_true, if_true, hx, chk_ok_bind, chk_pure]
  · simp only [hon, decide_false, Bool.false_eq_true, if_false, chk_pure]

/-! ### A replay (R336) -/

/-- The ray that a replay arms in a lane. -/
abbrev Env.armed (e : Env) (f : RWord) (b : Nat → List Byte) (l : Nat) : Ray :=
  replayOf (b l) (e.rd64 l f.b != 0) fun i p w => if e.rd64 l f.b == 0 then {} else e.treeMem.view (e.rd64 l f.b) i p w

theorem rrpl_arms {s : State} {e : Env} {f : RWord} {h b : Nat → List Byte} (hi : Issues (.rrpl f) s e)
    (hl : ∀ l ∈ e.execLanes f.k, (e.g.ray l).phase ≠ .opened ∧
      let a := e.rd64 l f.a
      let n := leNat (((h l).drop 12).take 4)
      e.heldBytes a 128 = some (h l) ∧ e.heldBytes a (128 + 48 * n) = some (b l) ∧ e.heldBad a (128 + 48 * n) = false ∧
      ∀ i < n, (((b l)[128 + 48 * i]?).getD 0).toNat = 1 ∨ (((b l)[128 + 48 * i]?).getD 0).toNat = 2) :
    Effect (.rrpl f) s e (· = e.s.putG e.gid { e.g with rays := (e.execLanes f.k).foldl (fun t l => tput l (e.armed f b l) t) e.g.rays }) := by
  refine ⟨_, issueWord_ok hi ?_, rfl⟩
  extract_lets ls m
  subst m ls
  rw [mapM_chk_ok (y := fun l => (l, e.armed f b l)) fun l hm => ?_, chk_ok_bind, List.foldl_map]
  · rfl
  obtain ⟨hp, hh, hb, hbad, hk⟩ := hl l hm
  have hall : ((List.range ((128 + 48 * leNat (((h l).drop 12).take 4) - 128) / 48)).all fun i =>
      (((b l)[128 + 48 * i]?).getD 0).toNat == 1 || (((b l)[128 + 48 * i]?).getD 0).toNat == 2) = true :=
    List.all_eq_true.2 fun i hi => by simpa using hk i (by have := List.mem_range.1 hi; omega)
  -- what the scratchpad holds is a variable of a lemma of its own: the kernel would otherwise compute it to compare the matches on it
  generalize e.heldBytes = held at hh hb ⊢
  generalize e.heldBad = bad at hbad ⊢
  as_aux_lemma =>
    simp only [bne_iff_ne.2 hp, guardC_true, chk_ok_bind, hh, hb, hbad, Bool.not_false, hall, chk_pure]

/-! ### The events of some lanes (R327, R331, R334) -/

theorem asterNote_frame (e : Env) (s : State) (r : Ray) : ∃ a, e.asterNote s r = { s with aster := a } := by
  unfold Env.asterNote
  split
  · dsimp only
    split
    · exact ⟨_, rfl⟩
    · split
      · exact ⟨_, rfl⟩
      · exact ⟨_, rfl⟩
  · exact ⟨_, rfl⟩

/-- The rays of some lanes put in place. -/
def Group.withRays (g : Group) (rs : List (Nat × Ray × Option (Nat × Nat) × Bool)) : Group :=
  { g with rays := rs.foldl (fun t r => tput r.1 r.2.1.buffered t) g.rays }

theorem withRays_eq (g : Group) (rs : List (Nat × Ray × Option (Nat × Nat) × Bool)) :
    rs.foldl (fun (g : Group) r => { g with rays := tput r.1 r.2.1.buffered g.rays }) g = g.withRays rs := by
  induction rs generalizing g with
  | nil => rfl
  | cons r rs ih => exact ih _

theorem tget_foldl_tput {α β : Type} (k : α → Nat) (v : α → β) (rs : List α) (t : Tab β) (hn : (rs.map k).Nodup) :
    (∀ r ∈ rs, tget (k r) (rs.foldl (fun t r => tput (k r) (v r) t) t) = some (v r)) ∧
      ∀ l, l ∉ rs.map k → tget l (rs.foldl (fun t r => tput (k r) (v r) t) t) = tget l t := by
  induction rs generalizing t with
  | nil => exact ⟨fun _ h => absurd h List.not_mem_nil, fun _ _ => rfl⟩
  | cons r rs ih =>
    rw [List.map_cons, List.nodup_cons] at hn
    obtain ⟨hin, hout⟩ := ih (tput (k r) (v r) t) hn.2
    refine ⟨fun x hx => ?_, fun l hl => ?_⟩
    · rcases List.mem_cons.1 hx with rfl | hx
      · exact (hout _ hn.1).trans (tget_tput_same ..)
      · exact hin x hx
    · rw [List.map_cons, List.mem_cons, not_or] at hl
      exact (hout l hl.2).trans (tget_tput_ne _ _ hl.1)

/-- What the ray words answer in a lane. -/
def eventWords (rs : List (Nat × Ray × Option (Nat × Nat) × Bool)) (l : Nat) : Walk (List Nat × Nat) :=
  match rs.find? fun r => r.1 == l with
  | some (_, _, some x, _) => .error x
  | some (_, r, none, rep) => .ok (r.words rep, 0)
  | none => .ok ([], 0)

theorem noteRays_frame (e : Env) {rs : List (Nat × Ray × Option (Nat × Nat) × Bool)} (hq : ∀ r ∈ rs, r.2.1.job = none) (u : State) :
    ∃ a, rs.foldl (fun s r => if r.2.1.phase == .done && !r.2.2.2 then e.asterNote (s.logRay r.1 r.2.1) r.2.1 else s) u =
      { u with aster := a } := by
  refine foldl_of_steps (R := fun s t : State => ∃ a, t = { s with aster := a }) (fun s => ⟨s.aster, rfl⟩) ?_ rs (fun u r hr => ?_) u
  · rintro s t u ⟨a, rfl⟩ ⟨b, rfl⟩
    exact ⟨b, rfl⟩
  · split
    · have hlog : u.logRay r.1 r.2.1 = u := by
        unfold State.logRay
        rw [hq r hr]
      rw [hlog]
      exact asterNote_frame ..
    · exact ⟨u.aster, rfl⟩

/-- The events of rays that log nothing end in their lanes, in one pending result and in the Aster table alone. -/
theorem rayEvents_quiet {e : Env} {i : Instr} {f : RWord} {rs : List (Nat × Ray × Option (Nat × Nat) × Bool)} {s1 : State} {g1 : Group}
    (hg : tget e.gid s1.groups = some g1) (hq : ∀ r ∈ rs, r.2.1.job = none) :
    ∃ a, e.rayEvents i f s1 rs =
      { s1.putG e.gid (({ e with g := g1.withRays rs } : Env).walkPend i f 8 (eventWords rs)) with aster := a } := by
  unfold Env.rayEvents
  rw [hg, Option.getD_some, withRays_eq]
  exact noteRays_frame e hq _

theorem eventWords_of_mem {rs : List (Nat × Ray × Option (Nat × Nat) × Bool)} (hn : (rs.map (·.1)).Nodup)
    {r : Nat × Ray × Option (Nat × Nat) × Bool} (hr : r ∈ rs) (hf : r.2.2.1 = none) : eventWords rs r.1 = .ok (r.2.1.words r.2.2.2, 0) := by
  have hfind : (rs.find? fun x => x.1 == r.1) = some r := by
    induction rs with
    | nil => cases hr
    | cons x rs ih =>
      rw [List.map_cons, List.nodup_cons] at hn
      rcases List.mem_cons.1 hr with rfl | hr
      · simp
      · have hne : (x.1 == r.1) = false := beq_false_of_ne fun h => hn.1 (h ▸ List.mem_map_of_mem hr)
        rw [List.find?_cons, hne]
        exact ih hn.2 hr
  obtain ⟨l, ray, _ | x, rep⟩ := r
  · unfold eventWords
    rw [hfind]
  · cases hf

/-- The events leave one pending result, with each lane's ray from vD up. -/
theorem walkPend_events {e : Env} {i : Instr} {f : RWord} {rs : List (Nat × Ray × Option (Nat × Nat) × Bool)} (hne : rs ≠ [])
    (hl : e.execLanes f.k = rs.map (·.1)) (hf : ∀ r ∈ rs, r.2.2.1 = none) :
    ∃ p, e.walkPend i f 8 (eventWords rs) = e.g.addPend p ∧ p.fails = [] ∧ ∀ n, f.d = .v n → p.vw = rs.flatMap fun r =>
      (r.2.1.words r.2.2.2).zipIdx.map fun w => (32 * (n.val + w.2) + r.1, BitVec.ofNat 32 w.1) := by
  have hn : (rs.map (·.1)).Nodup := hl ▸ execLanes_nodup e f.k
  have hmap : ((rs.map (·.1)).map fun l => (l, eventWords rs l)) = rs.map fun r => (r.1, Except.ok (r.2.1.words r.2.2.2, 0)) := by
    rw [List.map_map]
    exact List.map_congr_left fun r hr => congrArg (Prod.mk r.1) (eventWords_of_mem hn hr (hf r hr))
  unfold Env.walkPend
  dsimp only
  rw [if_neg (by simpa [hl] using hne), hl, hmap]
  refine ⟨_, rfl, ?_, fun n hd => ?_⟩
  · simp [List.filterMap_map, Env.fails]
  · simp [List.filterMap_map, List.flatMap_map, hd]

/-- Settles O46: the lanes of each ray word, what its events leave, and the log and the replay that RLOG and RRPL arm. -/
theorem rayWordsComplete : Obligations.RayWordsComplete := by
  intro s e
  refine ⟨fun f h hx => ?_, fun f h hx hp => rcont_answers h hx hp, fun f h hx hp => rcontKill_ends h hx hp,
    fun i f rs s1 g1 hg hne hl hq => ?_, fun f w h hw => rget_reads h hw,
    fun f a h hx hv _ hz ha hq => rlog_switches h hx hv hz ha hq, fun f h b hi hl => rrpl_arms hi hl⟩
  · intro ls sp hc hp hq hb
    exact rtrc_starts h hx hc hp hq hb
  · obtain ⟨a, ha⟩ := rayEvents_quiet (i := i) (f := f) hg fun r hr => (hq r hr).1
    obtain ⟨p, hp, hfails, hvw⟩ := walkPend_events (e := { e with g := g1.withRays rs }) (i := i) hne hl fun r hr => (hq r hr).2
    have hn : (rs.map (·.1)).Nodup := hl ▸ execLanes_nodup { e with g := g1 } f.k
    obtain ⟨hin, hout⟩ := tget_foldl_tput (fun r : Nat × Ray × Option (Nat × Nat) × Bool => r.1) (fun r => r.2.1.buffered) rs g1.rays hn
    rw [hp] at ha
    exact ⟨a, _, ha, hin, hout, ⟨{ p with idx := g1.nextPend }, rfl, hfails, hvw⟩, rfl⟩

end Sys2Proof.Machine
end

section
/-! SUPPORT. The application of rounds (R220, R221): what it leaves, and its operations one at a time. -/

namespace Sys2Proof.Machine

/-! ### Tables that lose no entry -/

/-- Every key of a table is one of the other. -/
def Tab.Within {α β : Type} (t : Tab α) (u : Tab β) : Prop := ∀ k, (tget k t).isSome = true → (tget k u).isSome = true

namespace Tab.Within
variable {α β γ : Type}

theorem refl (t : Tab α) : Tab.Within t t := fun _ => id
theorem trans {t : Tab α} {u : Tab β} {v : Tab γ} (h : Tab.Within t u) (h' : Tab.Within u v) : Tab.Within t v := fun k hk => h' k (h k hk)

theorem tput (k : Nat) (x : α) (t : Tab α) : Tab.Within t (Machine.tput k x t) := fun j hj => by
  by_cases h : j = k
  · subst h
    rw [tget_tput_same]; rfl
  · rwa [tget_tput_ne _ _ h]
theorem tmod (k : Nat) (f : α → α) (t : Tab α) : Tab.Within t (Machine.tmod k f t) := fun j hj => by
  by_cases h : j = k
  · subst h
    rw [tget_tmod_same, Option.isSome_map]
    exact hj
  · rwa [tget_tmod_ne _ _ h]
end Tab.Within

/-! ### Words changed in turn (R245, R246) -/

/-- One word that a token-applied operation changes. -/
def modifyStep (early : Bool) (acc : Launch × List Nat × Bool) (w : Nat × Nat × (Nat → Nat × Nat) × (Nat × Nat)) : Launch × List Nat × Bool :=
  if acc.1.now.bad w.1 w.2.1 then (acc.1, acc.2.1 ++ [0], true)
  else
    let v := mnat acc.1.now.data w.1 w.2.1
    let r := w.2.2.1 v
    let l := acc.1.put { b := cells w.1 (leBytes w.2.1 r.1) } early
    ({ l with flagsDue := if r.2 == 0 then l.flagsDue else l.flagsDue ++ [(w.2.2.2.1, w.2.2.2.2, r.2)] }, acc.2.1 ++ [v], acc.2.2)

theorem readModify_eq (l : Launch) (early : Bool) (ws : List (Nat × Nat × (Nat → Nat × Nat) × (Nat × Nat))) :
    l.readModify early ws = ws.foldl (modifyStep early) (l, [], false) := rfl

theorem modifyStep_acc (early : Bool) (l : Launch) (o : List Nat) (b : Bool) (w : Nat × Nat × (Nat → Nat × Nat) × (Nat × Nat)) :
    modifyStep early (l, o, b) w =
      ((modifyStep early (l, [], false) w).1, o ++ (modifyStep early (l, [], false) w).2.1, b || (modifyStep early (l, [], false) w).2.2) := by
  unfold modifyStep
  by_cases h : l.now.bad w.1 w.2.1 = true <;> simp [h]

theorem modifySteps_acc (early : Bool) (ws : List (Nat × Nat × (Nat → Nat × Nat) × (Nat × Nat))) (l : Launch) (o : List Nat) (b : Bool) :
    ws.foldl (modifyStep early) (l, o, b) =
      ((l.readModify early ws).1, o ++ (l.readModify early ws).2.1, b || (l.readModify early ws).2.2) := by
  induction ws generalizing l o b with
  | nil => simp [readModify_eq]
  | cons w ws ih =>
    rw [readModify_eq, List.foldl_cons, List.foldl_cons, modifyStep_acc early l o b w]
    generalize modifyStep early (l, [], false) w = m
    obtain ⟨l', o', b'⟩ := m
    rw [ih, ih]
    simp [List.append_assoc, Bool.or_assoc]

/-- Words change one after the other. -/
theorem Launch.readModify_cons (l : Launch) (early : Bool) (w : Nat × Nat × (Nat → Nat × Nat) × (Nat × Nat))
    (ws : List (Nat × Nat × (Nat → Nat × Nat) × (Nat × Nat))) :
    let x := l.readModify early [w]
    let y := x.1.readModify early ws
    l.readModify early (w :: ws) = (y.1, x.2.1 ++ y.2.1, x.2.2 || y.2.2) := by
  intro x y
  exact modifySteps_acc early ws x.1 x.2.1 x.2.2

theorem Launch.readModify_token (l : Launch) (early : Bool) (ws : List (Nat × Nat × (Nat → Nat × Nat) × (Nat × Nat))) :
    (l.readModify early ws).1.token = l.token := by
  rw [readModify_eq]
  refine foldl_same (fun acc : Launch × List Nat × Bool => acc.1.token) ?_ _ _
  intro acc w
  unfold modifyStep
  split <;> rfl

/-- The launch of a batch is not the launch that it is formed from. -/
theorem formed_ne (lid b : Nat) : lid ≠ formedKey lid b := by
  unfold formedKey lidOf lidCtx lidKey
  omega

/-! ### What an application leaves (R221) -/

/-- A step of a launch's round: no group changes, the launch keeps its token, and no team is lost. -/
def State.Applies (lid : Nat) (s t : State) : Prop :=
  t.groups = s.groups ∧ (tget lid t.launches).map (·.token) = (tget lid s.launches).map (·.token) ∧ Tab.Within s.teams t.teams

namespace State.Applies
variable {lid : Nat} {s t u : State}

theorem refl (s : State) : s.Applies lid s := ⟨rfl, rfl, .refl _⟩
theorem trans (h : s.Applies lid t) (h' : t.Applies lid u) : s.Applies lid u :=
  ⟨h'.1.trans h.1, h'.2.1.trans h.2.1, h.2.2.trans h'.2.2⟩

theorem launch {l : Launch} (h : s.Applies lid t) (hl : tget lid s.launches = some l) : ∃ l', tget lid t.launches = some l' := by
  have htok := h.2.1
  rw [hl] at htok
  obtain ⟨l', hl', -⟩ := Option.map_eq_some_iff.1 htok
  exact ⟨l', hl'⟩

theorem modL (s : State) (f : Launch → Launch) (hf : ∀ l, (f l).token = l.token) : s.Applies lid (s.modL lid f) := by
  refine ⟨rfl, ?_, .refl _⟩
  show (tget lid (tmod lid f s.launches)).map (·.token) = _
  rw [tget_tmod_same, Option.map_map]
  exact congrFun (congrArg Option.map (funext hf)) _
theorem putL {l l' : Launch} (h : tget lid s.launches = some l) (hl : l'.token = l.token) : s.Applies lid (s.putL lid l') := by
  refine ⟨rfl, ?_, .refl _⟩
  show (tget lid (tput lid l' s.launches)).map (·.token) = _
  rw [tget_tput_same, h]
  exact congrArg some hl
theorem modT (s : State) (tid : Nat) (f : Team → Team) : s.Applies lid (s.modT tid f) := ⟨rfl, rfl, .tmod _ _ _⟩
theorem putT (s : State) (tid : Nat) (t : Team) : s.Applies lid (s.putT tid t) := ⟨rfl, rfl, .tput _ _ _⟩
theorem ops (s : State) (os : Tab EngOp) : s.Applies lid { s with ops := os } := ⟨rfl, rfl, .refl _⟩
theorem gridPut (s : State) (va : Nat) (bs : List (Option Byte)) (early : Bool) : s.Applies lid (s.gridPut lid va bs early) :=
  modL _ _ fun _ => rfl

theorem slotBytesAt (s : State) (tid : Nat) (slot : Option (Nat × W32)) (bs : List Byte) : s.Applies lid (s.slotBytesAt tid slot bs) := by
  unfold State.slotBytesAt
  split
  · split
    · split
      · exact putT ..
      · exact refl s
    · exact refl s
  · exact refl s

theorem skipQueues (s : State) (tid : Nat) : s.Applies lid (s.skipQueues tid) := by
  unfold State.skipQueues
  split
  · exact refl s
  · exact (putT ..).trans (ops ..)

theorem fillSlot (s : State) (tid : Nat) (slot : Option (Nat × W32)) (status : Nat) (count : Option Nat) :
    s.Applies lid (s.fillSlot tid slot status count) := by
  unfold State.fillSlot
  split
  · exact refl s
  · exact (modT ..).trans (skipQueues ..)

theorem form (s : State) (node : LRec) (b : Nat) (fixed : Bool) : s.Applies lid (s.form lid node b fixed) := by
  unfold State.form
  split
  · exact refl s
  · exact ⟨rfl, congrArg _ (tget_tput_ne _ _ (formed_ne lid b)), .refl _⟩

theorem applyEmit {gid : Nat} {early : Bool} {node : LRec} {bytes : List (Option Byte)} {at' : FaultRec}
    (h : s.applyEmit lid gid early node bytes at' = some t) : s.Applies lid t := by
  unfold State.applyEmit at h
  split at h
  · cases h; exact refl s
  · extract_lets cid aux i bc b blk put s₁ nrec s₂ s₃ s₄ nb at h
    have hput : ∀ (u : State) va n x, u.Applies lid (put u va n x) := fun u va n x => gridPut ..
    split at h
    · cases h
    split at h
    · cases h; exact modT ..
    · have h₁ : s.Applies lid s₁ := by
        show s.Applies lid (if i % bc == 0 then put (put s blk 4 0) (blk + 4) 4 b else s)
        split
        · exact (hput _ _ _ _).trans (hput _ _ _ _)
        · exact refl s
      have h₄ : s.Applies lid s₄ := ((h₁.trans (gridPut ..)).trans ((hput _ _ _ _).trans (hput _ _ _ _))).trans
        (modL _ _ fun l => by split <;> rfl)
      clear_value nb s₄ nrec
      split at h
      · cases h
        exact h₄.trans ((form ..).trans (hput _ _ _ _))
      · cases h
        exact h₄

theorem applyTok {tid gid : Nat} {early : Bool} {op : TokOp} (h : s.applyTok lid tid early gid op = some t) : s.Applies lid t := by
  unfold State.applyTok at h
  split at h
  · cases h; exact refl s
  · next l hl =>
    cases op with
    | emit node bytes at' => exact applyEmit h
    | cpyc lanes o ty sat fetch slot hold =>
      cases h
      refine trans ?_ (u := match hold with | some id => _ | none => _) (by split; exacts [ops .., refl _])
      refine trans ?_ (fillSlot ..)
      have hput := putL (l' := _) hl (l.readModify_token early (lanes.map fun x =>
        (x.2.1, ty.bits / 8, (fun old => cpycNew o ty sat old x.2.2.1.toNat x.2.2.2.toNat), (gid, x.1 / 4))))
      split
      · exact (hput.trans (modT ..)).trans (slotBytesAt ..)
      · exact hput.trans (modT ..)
    | mdrm es ty sat tile => cases h; exact putL hl (l.readModify_token ..)
    | alloc ins ls h' slot =>
      cases h
      refine trans (trans ?_ (slotBytesAt ..)) (fillSlot ..)
      exact putL hl rfl
    | vact clr ls h' => cases h; exact putL hl rfl

theorem applyToks (s : State) (tid : Nat) (early : Bool) (l : List (Nat × TokOp)) : s.Applies lid (s.applyToks lid tid early l).1 := by
  induction l generalizing s with
  | nil => exact refl s
  | cons x l ih =>
    unfold State.applyToks
    split
    next t ht => exact (applyTok ht).trans (ih t)
    next => exact refl s

end State.Applies

/-! ### The lanes of the allocator (R307 to R309) -/

/-- One lane of VINS or VDEL. -/
def App.allocLane (ins : Bool) (hv : Nat) (acc : App × List (Nat × Nat × Nat)) (l : Nat × Nat × Nat × Nat) : App × List (Nat × Nat × Nat) :=
  match (if ins then acc.1.insert hv ⟨l.2.1, l.2.2.1, l.2.2.2⟩ else acc.1.remove hv ⟨l.2.1, l.2.2.1, l.2.2.2⟩) with
  | .ok (a', h, st) => (a', acc.2 ++ [(l.1, h, st)])
  | .error (a', st) => (a', acc.2 ++ [(l.1, 0, st)])

theorem App.alloc_eq (a : App) (ins : Bool) (hv : Nat) (ls : List (Nat × Nat × Nat × Nat)) :
    a.alloc ins hv ls = ls.foldl (App.allocLane ins hv) (a, []) := rfl

theorem App.allocLane_acc (ins : Bool) (hv : Nat) (a : App) (o : List (Nat × Nat × Nat)) (l : Nat × Nat × Nat × Nat) :
    App.allocLane ins hv (a, o) l = ((App.allocLane ins hv (a, []) l).1, o ++ (App.allocLane ins hv (a, []) l).2) := by
  unfold App.allocLane
  dsimp only
  generalize (if ins then a.insert hv ⟨l.2.1, l.2.2.1, l.2.2.2⟩ else a.remove hv ⟨l.2.1, l.2.2.1, l.2.2.2⟩) = r
  cases r <;> simp

theorem App.allocLanes_acc (ins : Bool) (hv : Nat) (ls : List (Nat × Nat × Nat × Nat)) (a : App) (o : List (Nat × Nat × Nat)) :
    ls.foldl (App.allocLane ins hv) (a, o) = ((a.alloc ins hv ls).1, o ++ (a.alloc ins hv ls).2) := by
  induction ls generalizing a o with
  | nil => simp [App.alloc_eq]
  | cons l ls ih =>
    rw [App.alloc_eq, List.foldl_cons, List.foldl_cons, App.allocLane_acc ins hv a o l]
    generalize App.allocLane ins hv (a, []) l = m
    obtain ⟨a', o'⟩ := m
    rw [ih, ih]
    simp [List.append_assoc]

/-- The lanes of VINS and VDEL take their turns. -/
theorem App.alloc_cons (a : App) (ins : Bool) (hv : Nat) (l : Nat × Nat × Nat × Nat) (ls : List (Nat × Nat × Nat × Nat)) :
    let one := a.alloc ins hv [l]
    (a.alloc ins hv (l :: ls)) = ((one.1.alloc ins hv ls).1, one.2 ++ (one.1.alloc ins hv ls).2) := by
  intro one
  exact App.allocLanes_acc ins hv ls one.1 one.2

section
variable {a : App} {hv lane x y z : Nat}

theorem App.alloc_one_ok {ins : Bool} {b : App} {hd st : Nat}
    (h : (if ins then a.insert hv ⟨x, y, z⟩ else a.remove hv ⟨x, y, z⟩) = .ok (b, hd, st)) :
    a.alloc ins hv [(lane, x, y, z)] = (b, [(lane, hd, st)]) := by
  rw [App.alloc_eq, List.foldl_cons, List.foldl_nil, App.allocLane, h]
  rfl

theorem App.alloc_one_error {ins : Bool} {b : App} {st : Nat}
    (h : (if ins then a.insert hv ⟨x, y, z⟩ else a.remove hv ⟨x, y, z⟩) = .error (b, st)) :
    a.alloc ins hv [(lane, x, y, z)] = (b, [(lane, 0, st)]) := by
  rw [App.alloc_eq, List.foldl_cons, List.foldl_nil, App.allocLane, h]
  rfl

@[simp] theorem alloc_ok_bind {α β : Type} (v : α) (f : α → Alloc β) : ((Except.ok v : Alloc α) >>= f) = f v := rfl
@[simp] theorem alloc_error_bind {α β : Type} (v : App × Nat) (f : α → Alloc β) : ((Except.error v : Alloc α) >>= f) = .error v := rfl
@[simp] theorem alloc_pure {α : Type} (v : α) : (pure v : Alloc α) = .ok v := rfl
@[simp] theorem alloc_throw {α : Type} (v : App × Nat) : (throw v : Alloc α) = .error v := rfl
@[simp] theorem liftW_ok {α : Type} (b : App) (v : α) : liftW b (.ok v) = .ok v := rfl

/-- A walk that fails stops its lane with status 3 or 4. -/
theorem liftW_error {α : Type} (b : App) (w : Nat × Nat) : ∃ st, (liftW b (.error w) : Alloc α) = .error (b, st) ∧ (st = 3 ∨ st = 4) := by
  unfold liftW
  exact ⟨_, rfl, by split <;> simp⟩

/-- A step of the allocator that ends as told, or stops its lane where it stands with status 3 or 4. -/
def Lasts {α : Type} (a : App) (P : α → Prop) (m : Alloc α) : Prop :=
  (∃ v, m = .ok v ∧ P v) ∨ ∃ st, m = .error (a, st) ∧ (st = 3 ∨ st = 4)

theorem Lasts.pure {α : Type} {P : α → Prop} {v : α} (h : P v) : Lasts a P (.ok v) := .inl ⟨v, rfl, h⟩
theorem Lasts.throw {α : Type} {P : α → Prop} : Lasts a P (.error (a, 4)) := .inr ⟨4, rfl, .inr rfl⟩
theorem Lasts.bind {α β : Type} {P : α → Prop} {Q : β → Prop} {m : Alloc α} {f : α → Alloc β} (hm : Lasts a P m)
    (hf : ∀ v, P v → Lasts a Q (f v)) : Lasts a Q (m >>= f) := by
  rcases hm with ⟨v, rfl, hv⟩ | ⟨st, rfl, hst⟩
  · exact hf v hv
  · exact .inr ⟨st, rfl, hst⟩
theorem Lasts.walk {α : Type} (w : Walk α) : Lasts a (fun _ => True) (liftW a w) := by
  cases w with
  | ok v => exact .inl ⟨v, rfl, trivial⟩
  | error w => exact .inr (liftW_error a w)

/-- A lane that lasts answers what its step gives, or status 3 or 4. -/
theorem App.alloc_one_lasts {ins : Bool} {P : App × Nat × Nat → Prop}
    (h : Lasts a P (if ins then a.insert hv ⟨x, y, z⟩ else a.remove hv ⟨x, y, z⟩)) :
    (∃ b hd st, P (b, hd, st) ∧ a.alloc ins hv [(lane, x, y, z)] = (b, [(lane, hd, st)])) ∨
      ∃ st, a.alloc ins hv [(lane, x, y, z)] = (a, [(lane, 0, st)]) ∧ (st = 3 ∨ st = 4) := by
  rcases h with ⟨⟨b, hd, st⟩, hm, hP⟩ | ⟨st, hm, hst⟩
  · exact .inl ⟨b, hd, st, hP, App.alloc_one_ok hm⟩
  · exact .inr ⟨st, App.alloc_one_error hm, hst⟩

/-- A lane whose tree does not read takes status 3 or 4. -/
theorem App.alloc_unread {w : Nat × Nat} (ins : Bool)
    (h : a.tm.header hv = .error w ∨ ∃ h, a.tm.header hv = .ok h ∧ a.tm.goodPath h ⟨x, y, z⟩ = .error w) :
    ∃ st, a.alloc ins hv [(lane, x, y, z)] = (a, [(lane, 0, st)]) ∧ (st = 3 ∨ st = 4) := by
  obtain ⟨st, hst, hor⟩ := liftW_error (α := Unit) a w
  have hlift : ∀ (α : Type), (liftW a (.error w) : Alloc α) = .error (a, st) := fun α => by
    unfold liftW at hst ⊢
    exact congrArg Except.error (Except.error.inj hst)
  refine ⟨st, App.alloc_one_error ?_, hor⟩
  unfold App.insert App.remove
  rcases h with h | ⟨hd, h, hp⟩
  · cases ins <;> simp [h, hlift]
  · cases ins <;> simp [h, hp, hlift]

section
variable {h : Hdr} {p : TPath} (hh : a.tm.header hv = .ok h) (hp : a.tm.goodPath h ⟨x, y, z⟩ = .ok p)
include hh hp

theorem App.insert_present (hl : p.leaf ≠ 0) : a.insert hv ⟨x, y, z⟩ = .ok (a, p.leaf, 0) := by
  unfold App.insert
  simp [hh, hp, hl]

theorem App.remove_absent (hl : p.leaf = 0) : a.remove hv ⟨x, y, z⟩ = .ok (a, 0, 0) := by
  unfold App.remove
  simp [hh, hp, hl]

/-- VDEL takes a leaf that is there off its tree, or changes nothing. -/
theorem App.remove_present (hl : p.leaf ≠ 0) : Lasts a (fun v => v.2 = (p.leaf, 1)) (a.remove hv ⟨x, y, z⟩) := by
  unfold App.remove
  simp only [hh, hp, liftW_ok, alloc_ok_bind, beq_false_of_ne hl, Bool.false_eq_true, if_false]
  refine .bind (.walk _) fun _ _ => .bind (.walk _) fun _ _ => .bind (.walk _) fun _ _ => .bind (.walk _) fun _ _ =>
    .bind (.walk _) fun _ _ => .pure rfl

end

/-! ### A new leaf (R309) -/

section
variable {h : Hdr} {o : Pt} {parent body size top lim fl pl : Nat}
  (ha : a.tm.arena ((h.arenas[h.owner o]?).getD 0) = .ok (top, lim, fl, pl))
include ha

theorem App.create_full (hf : fl = 0) (hlim : lim < (top + 63) / 64 * 64 + size) : a.create h o 0 parent body size = .error (a, 2) := by
  unfold App.create
  simp only [ha, liftW_ok, alloc_ok_bind]
  rw [if_neg (by simp [hf]), if_pos hlim, alloc_throw, alloc_error_bind]

/-- A new leaf takes the head of the arena's free list, or the first free place below its limit. -/
theorem App.create_leaf (hf : fl ≠ 0 ∨ (top + 63) / 64 * 64 + size ≤ lim) :
    Lasts a (fun v => v.2 = if fl ≠ 0 then fl else (h.arenas[h.owner o]?).getD 0 + (top + 63) / 64 * 64) (a.create h o 0 parent body size) := by
  unfold App.create
  simp only [ha, liftW_ok, alloc_ok_bind]
  by_cases h0 : fl = 0
  · have hlim : ¬lim < (top + 63) / 64 * 64 + size := Nat.not_lt.2 (hf.resolve_left (not_not.2 h0))
    rw [if_neg (not_not.2 h0), if_neg (show ¬(0 == 0 && fl != 0) = true by simp [h0]), if_neg hlim]
    exact .bind (.walk _) fun _ _ => .bind (.walk _) fun _ _ => .pure rfl
  · rw [if_pos h0, if_pos (show (0 == 0 && fl != 0) = true by simp [h0])]
    by_cases hal : fl % 64 = 0
    · rw [if_neg (by simp [hal])]
      refine .bind (.walk _) fun next _ => ?_
      by_cases hn : next % 64 = 0
      · rw [if_neg (by simp [hn])]
        exact .bind (.walk _) fun _ _ => .bind (.walk _) fun _ _ => .pure rfl
      · rw [if_pos (by simpa using hn)]
        exact .throw
    · rw [if_pos (by simpa using hal)]
      exact .throw

end

section
variable {h : Hdr} {p : TPath} {top lim fl pl : Nat} (hh : a.tm.header hv = .ok h) (hp : a.tm.goodPath h ⟨x, y, z⟩ = .ok p)
  (hl : p.leaf = 0) (hlo : p.lower ≠ 0) (hup : p.upper ≠ 0)
  (ha : a.tm.arena ((h.arenas[h.owner (Pt.origin ⟨x, y, z⟩ 8)]?).getD 0) = .ok (top, lim, fl, pl))
include hh hp hl hlo hup ha

theorem App.insert_full (hf : fl = 0) (hlim : lim < (top + 63) / 64 * 64 + leafBytes h.vt) : a.insert hv ⟨x, y, z⟩ = .error (a, 2) := by
  unfold App.insert
  simp [hh, hp, hl, hlo, hup, App.create_full ha hf hlim]

/-- VINS puts a leaf under the nodes that are there. -/
theorem App.insert_leaf (hf : fl ≠ 0 ∨ (top + 63) / 64 * 64 + leafBytes h.vt ≤ lim) :
    Lasts a (fun v => v.2 = (if fl ≠ 0 then fl else (h.arenas[h.owner (Pt.origin ⟨x, y, z⟩ 8)]?).getD 0 + (top + 63) / 64 * 64, 1))
      (a.insert hv ⟨x, y, z⟩) := by
  unfold App.insert
  simp only [hh, hp, liftW_ok, alloc_ok_bind, hl, bne_self_eq_false, Bool.false_eq_true, if_false, bne_iff_ne.2 hlo, bne_iff_ne.2 hup, if_true,
    alloc_pure]
  refine .bind (App.create_leaf ha hf) fun v hv => .bind (.walk _) fun _ _ => .bind (.walk _) fun _ _ => .pure ?_
  rw [hv]

end

@[simp] theorem walk_error_bind {α β : Type} (v : Nat × Nat) (f : α → Walk β) : ((Except.error v : Walk α) >>= f) = .error v := rfl
@[simp] theorem walk_throw {α : Type} (v : Nat × Nat) : (throw v : Walk α) = .error v := rfl

/-- VACT changes the bit of its voxel, where the leaf is there (R307). -/
theorem App.vact_absent {h : Hdr} {p : TPath} (hh : a.tm.header hv = .ok h) (hp : a.tm.goodPath h ⟨x, y, z⟩ = .ok p) (hl : p.leaf = 0)
    (clr : Bool) : a.vact clr hv [(lane, x, y, z)] = a := by
  unfold App.vact
  simp [hh, hp, hl]

theorem App.vact_present {h : Hdr} {p : TPath} (hh : a.tm.header hv = .ok h) (hp : a.tm.goodPath h ⟨x, y, z⟩ = .ok p) (hl : p.leaf ≠ 0)
    {clr : Bool} {old : Nat} {b : App} (ho : a.tm.num (p.leaf + 64 + 4 * (Pt.voxel ⟨x, y, z⟩ / 32)) 4 = .ok old)
    (hb : a.put (p.leaf + 64 + 4 * (Pt.voxel ⟨x, y, z⟩ / 32)) 4 (if clr then old &&& (2 ^ 32 - 1 - 2 ^ (Pt.voxel ⟨x, y, z⟩ % 32))
      else old ||| 2 ^ (Pt.voxel ⟨x, y, z⟩ % 32)) = .ok b) : a.vact clr hv [(lane, x, y, z)] = b := by
  unfold App.vact
  simp only [List.foldl_cons, List.foldl_nil, hh, hp, walk_ok_bind, beq_false_of_ne hl, Bool.false_eq_true, if_false, ho, hb]

end

/-! ### The lists of an arena at a close (R296) -/

/-- One arena at a close. -/
def App.reclaimArena (a : App) (ar : Nat) : App := match (do
    let (_, _, fl, pl) ← a.tm.arena ar
    if pl == 0 then return a
    let a1 ← a.put (a.tailOf a.tm.img.data.length pl) 8 fl
    let a2 ← a1.put (ar + 16) 8 pl
    a2.put (ar + 24) 8 0 : Walk App) with
  | .ok a' => a' | .error _ => a

theorem App.reclaim_one {a : App} {hv ar : Nat} {h : Hdr} (hh : a.tm.header hv = .ok h) (hd : h.arenas.dedup = [ar]) :
    a.reclaim [hv] = a.reclaimArena ar := by
  unfold App.reclaim
  rw [List.flatMap_cons, hh, List.flatMap_nil, List.append_nil, hd]
  rfl

theorem App.reclaimArena_none {a : App} {ar top lim fl : Nat} (ha : a.tm.arena ar = .ok (top, lim, fl, 0)) : a.reclaimArena ar = a := by
  unfold App.reclaimArena
  simp [ha]

theorem App.reclaimArena_links {a b c d : App} {ar top lim fl pl : Nat} (ha : a.tm.arena ar = .ok (top, lim, fl, pl)) (hp : pl ≠ 0)
    (hb : a.put (a.tailOf a.tm.img.data.length pl) 8 fl = .ok b) (hc : b.put (ar + 16) 8 pl = .ok c) (hd : c.put (ar + 24) 8 0 = .ok d) :
    a.reclaimArena ar = d := by
  unfold App.reclaimArena
  simp only [ha, walk_ok_bind, beq_false_of_ne hp, Bool.false_eq_true, if_false, hb, hc, hd]

/-! ### The first round that is left (R28, R225) -/

/-- The earlier of two pairs. -/
def earlier (m : Option (Nat × Nat)) (x : Nat × Nat) : Option (Nat × Nat) :=
  match m with
  | some y => if x.1 < y.1 || x.1 == y.1 && x.2 < y.2 then some x else m
  | none => some x

/-- A pair does not come after another. -/
def NotAfter (y x : Nat × Nat) : Prop := y.1 < x.1 ∨ y.1 = x.1 ∧ y.2 ≤ x.2

theorem NotAfter.trans {x y z : Nat × Nat} : NotAfter x y → NotAfter y z → NotAfter x z := by unfold NotAfter; omega

theorem earlier_some (m : Option (Nat × Nat)) (x : Nat × Nat) : ∃ y, earlier m x = some y ∧ NotAfter y x ∧ (∀ w, m = some w → NotAfter y w) ∧
    (y = x ∨ m = some y) := by
  unfold earlier NotAfter
  cases m with
  | none => exact ⟨x, rfl, by omega, nofun, .inl rfl⟩
  | some w =>
    dsimp only
    split
    · next h =>
      simp only [Bool.or_eq_true, decide_eq_true_eq, Bool.and_eq_true, beq_iff_eq] at h
      exact ⟨x, rfl, by omega, fun v hv => by cases hv; omega, .inl rfl⟩
    · next h =>
      simp only [Bool.or_eq_true, decide_eq_true_eq, Bool.and_eq_true, beq_iff_eq] at h
      exact ⟨w, rfl, by omega, fun v hv => by cases hv; omega, .inr rfl⟩

/-- The earliest of some pairs is one of them, and none comes before it. -/
theorem foldl_earlier {l : List (Nat × Nat)} {m : Option (Nat × Nat)} {y : Nat × Nat} (h : l.foldl earlier m = some y) :
    (y ∈ l ∨ m = some y) ∧ (∀ x ∈ l, NotAfter y x) ∧ ∀ w, m = some w → NotAfter y w := by
  induction l generalizing m with
  | nil =>
    refine ⟨.inr h, nofun, fun w hw => ?_⟩
    rw [List.foldl_nil, hw] at h
    cases h
    exact .inr ⟨rfl, le_refl _⟩
  | cons x l ih =>
    rw [List.foldl_cons] at h
    obtain ⟨v, hv, hvx, hvm, hor⟩ := earlier_some m x
    rw [hv] at h
    obtain ⟨hmem, hall, hw⟩ := ih h
    have hyv := hw v rfl
    refine ⟨?_, fun z hz => ?_, fun w hm => hyv.trans (hvm w hm)⟩
    · rcases hmem with hm | hm
      · exact .inl (List.mem_cons_of_mem _ hm)
      · cases hm
        exact hor.imp (fun h => by rw [h]; exact List.mem_cons_self) id
    · rcases List.mem_cons.1 hz with rfl | hz
      · exact hyv.trans hvx
      · exact hall z hz

theorem foldl_earlier_none {l : List (Nat × Nat)} (h : l.foldl earlier none = none) : l = [] := by
  cases l with
  | nil => rfl
  | cons x l =>
    have hs : ∀ (l : List (Nat × Nat)) (y : Nat × Nat), (l.foldl earlier (some y)).isSome = true := fun l => by
      induction l with
      | nil => exact fun _ => rfl
      | cons x l ih =>
        intro y
        obtain ⟨v, hv, -⟩ := earlier_some (some y) x
        rw [List.foldl_cons, hv]
        exact ih v
    have := hs l x
    rw [List.foldl_cons, show earlier none x = some x from rfl] at h
    rw [h] at this
    cases this

/-- The rounds that are left of a launch's teams. -/
def State.pairsLeft (s : State) (lid : Nat) : List (Nat × Nat) := (s.teamsOf lid).flatMap fun t => t.2.rounds.map fun r => (r.k, t.2.team)

theorem State.earlyRound_eq (s : State) (lid : Nat) :
    s.earlyRound lid = if s.allAtClose lid then (s.pairsLeft lid).foldl earlier none else none := by
  unfold State.earlyRound
  cases s.allAtClose lid <;> rfl

theorem State.closeReady_iff {s : State} {lid : Nat} (h : s.allAtClose lid = true) : s.closeReady lid = (s.earlyRound lid).isNone := by
  rw [State.earlyRound_eq, if_pos h, State.closeReady, h, Bool.true_and, Bool.eq_iff_iff, List.all_eq_true]
  constructor
  · intro hall
    have : s.pairsLeft lid = [] := by
      unfold State.pairsLeft
      rw [List.flatMap_eq_nil_iff]
      intro t ht
      rw [show t.2.rounds = [] by simpa using hall t ht]
      rfl
    rw [this]
    rfl
  · intro hn t ht
    have hnil := foldl_earlier_none (Option.isNone_iff_eq_none.1 hn)
    have := (List.flatMap_eq_nil_iff.1 hnil) t ht
    simpa using this

end Sys2Proof.Machine
end

section
/-! CLAIM. The events of a grid: rounds, the close of a D-interval and completion (R24, R220, R221, R225). -/

namespace Sys2Proof.Machine

/-! ### A round applies (R221) -/

/-- Whether early dependants see what a round writes (R282). -/
abbrev Team.seesRound (tm : Team) (k : Nat) : Bool := tm.trigger.elim true fun j => decide (k ≤ j)

/-- A launch as its round begins. -/
abbrev Launch.opened (l : Launch) (tm : Team) (r : Round) (k u : Nat) : Launch := { l.put r.plain (tm.seesRound k) with token := (k, u) }

/-- The machine as the token-applied operations of a round find it. -/
abbrev State.opened (s : State) (lid : Nat) (l : Launch) (tm : Team) (r : Round) (k u : Nat) : State :=
  (s.modL lid fun _ => (l.opened tm r k u).seenAt tm r).modT (tidOf lid u) fun t => { t with ownApplied := t.ownApplied.andThen r.plain }

/-- The rounds of a team after one has applied as far as it could. -/
abbrev roundsLeft (tm : Team) (k : Nat) (left : List (Nat × TokOp)) : List Round :=
  if left == [] then tm.rounds.filter fun r => r.k != k else tm.rounds.map fun r => if r.k == k then { r with plain := {}, toks := left } else r

/-- What a round leaves, from the state after its operations. -/
def State.roundEnd (a : State) (lid k u : Nat) (l1 : Launch) (r : Round) (tm : Team) (left : List (Nat × TokOp)) : State :=
  let s := (a.modL lid fun l => l.unseen l1 r).modT (tidOf lid u) fun t => { t with rounds := roundsLeft tm k left }
  if left == [] then (s.fixFormed lid).modL lid fun l => { l with token := (k, u + 1) } else s

theorem State.applyRound_body {s : State} {lid k u : Nat} {tm : Team} {r : Round} (ht : tget (tidOf lid u) s.teams = some tm)
    (hr : (tm.rounds.find? fun r => r.k == k) = some r) :
    let s1 := (s.modL lid fun l => l.opened tm r k u).modT (tidOf lid u) fun t => { t with ownApplied := t.ownApplied.andThen r.plain }
    let a := (s1.modL lid fun l => l.seenAt tm r).applyToks lid (tidOf lid u) (tm.seesRound k) r.toks
    s.applyRound lid k u = a.1.roundEnd lid k u ((tget lid s1.launches).getD {}) r tm a.2 := by
  intro s1 a
  unfold State.applyRound
  dsimp only
  rw [ht]
  dsimp only
  rw [hr]
  subst a s1
  unfold Launch.opened Team.seesRound
  cases tm.trigger <;> rfl

theorem State.applyRound_eq {s : State} {lid k u : Nat} {l : Launch} {tm : Team} {r : Round} (hl : tget lid s.launches = some l)
    (ht : tget (tidOf lid u) s.teams = some tm) (hr : (tm.rounds.find? fun r => r.k == k) = some r) :
    let a := (s.opened lid l tm r k u).applyToks lid (tidOf lid u) (tm.seesRound k) r.toks
    s.applyRound lid k u = a.1.roundEnd lid k u (l.opened tm r k u) r tm a.2 := by
  let s1 := (s.modL lid fun l => l.opened tm r k u).modT (tidOf lid u) fun t => { t with ownApplied := t.ownApplied.andThen r.plain }
  have hl0 : tget lid s1.launches = some (l.opened tm r k u) := by
    show tget lid (tmod lid _ s.launches) = _
    rw [tget_tmod_same, hl]; rfl
  have hs : (s1.modL lid fun l => l.seenAt tm r) = s.opened lid l tm r k u :=
    congrArg (fun ls => { s1 with launches := ls }) ((tmod_tmod ..).trans (tmod_of_tget _ hl))
  have h : s.applyRound lid k u =
      ((s1.modL lid fun l => l.seenAt tm r).applyToks lid (tidOf lid u) (tm.seesRound k) r.toks).1.roundEnd lid k u
        ((tget lid s1.launches).getD {}) r tm ((s1.modL lid fun l => l.seenAt tm r).applyToks lid (tidOf lid u) (tm.seesRound k) r.toks).2 :=
    State.applyRound_body ht hr
  rw [hs, hl0] at h
  exact h

/-! ### What a round leaves -/

/-- A launch formed from another, with what it sees of it fixed (R281). -/
def Launch.fixedAt (lid : Nat) (l : Launch) (k : Nat) (x : Launch) : Launch :=
  if sourceOf k == lid && k != lid && !x.fixed then { x with base := l.total, fixed := true } else x

theorem State.fixFormed_of {s : State} {lid : Nat} {l : Launch} (h : tget lid s.launches = some l) :
    s.fixFormed lid = { s with launches := s.launches.map fun x => (x.1, l.fixedAt lid x.1 x.2) } := by
  unfold State.fixFormed
  rw [h]
  refine congrArg (fun ls => { s with launches := ls }) (List.map_congr_left fun x _ => ?_)
  unfold Launch.fixedAt
  split <;> rfl

theorem Launch.fixedAt_self (lid : Nat) (l x : Launch) : l.fixedAt lid lid x = x := by simp [Launch.fixedAt]

theorem Launch.unseen_total (l' l : Launch) (r : Round) : (l'.unseen l r).total = l'.total := by
  unfold Launch.unseen
  split <;> rfl
theorem Launch.unseen_token (l' l : Launch) (r : Round) : (l'.unseen l r).token = l'.token := by
  unfold Launch.unseen
  split <;> rfl
theorem Launch.seenAt_token (l : Launch) (t : Team) (r : Round) : (l.seenAt t r).token = l.token := by
  unfold Launch.seenAt
  split <;> rfl

/-- What the end of a round leaves. -/
theorem State.roundEnd_frame {a : State} {lid k u : Nat} {l1 la : Launch} {r : Round} {tm : Team} {left : List (Nat × TokOp)}
    (hla : tget lid a.launches = some la) (ht : (tget (tidOf lid u) a.teams).isSome = true) (htok : la.token = (k, u)) :
    let t := a.roundEnd lid k u l1 r tm left
    tget lid t.launches = some { la.unseen l1 r with token := if left = [] then (k, u + 1) else (k, u) } ∧
      t.groups = a.groups ∧ t.ops = a.ops ∧ t.errors = a.errors ∧ t.mem = a.mem ∧
      (tget (tidOf lid u) t.teams).map (·.rounds) = some (roundsLeft tm k left) ∧
      (left = [] → ∀ f x, f ≠ lid → sourceOf f = lid → tget f a.launches = some x → x.fixed = false →
        tget f t.launches = some { x with base := la.total, fixed := true }) := by
  intro t
  let s := (a.modL lid fun l => l.unseen l1 r).modT (tidOf lid u) fun t => { t with rounds := roundsLeft tm k left }
  have hls : tget lid s.launches = some (la.unseen l1 r) := by
    show tget lid (tmod lid _ a.launches) = _
    rw [tget_tmod_same, hla]; rfl
  have hteam : (tget (tidOf lid u) s.teams).map (·.rounds) = some (roundsLeft tm k left) := by
    obtain ⟨x, hx⟩ := Option.isSome_iff_exists.1 ht
    show (tget (tidOf lid u) (tmod (tidOf lid u) _ a.teams)).map (·.rounds) = _
    rw [tget_tmod_same, hx]; rfl
  have hother : ∀ f, f ≠ lid → tget f s.launches = tget f a.launches := fun f hf => tget_tmod_ne _ _ hf
  by_cases hleft : left = []
  · have hfix := State.fixFormed_of hls
    have hend : t = (s.fixFormed lid).modL lid fun l => { l with token := (k, u + 1) } := if_pos (by simp [hleft])
    rw [hend, hfix]
    refine ⟨?_, rfl, rfl, rfl, rfl, hteam, fun _ f x hf hsrc hx hfx => ?_⟩
    · show tget lid (tmod lid _ (s.launches.map fun x => (x.1, (la.unseen l1 r).fixedAt lid x.1 x.2))) = _
      rw [tget_tmod_same, tget_map, hls, if_pos hleft, Option.map_some, Launch.fixedAt_self]
      rfl
    · show tget f (tmod lid _ (s.launches.map fun x => (x.1, (la.unseen l1 r).fixedAt lid x.1 x.2))) = _
      rw [tget_tmod_ne _ _ hf, tget_map, hother f hf, hx, Option.map_some, Launch.fixedAt, if_pos (by simp [hsrc, hf, hfx]),
        Launch.unseen_total]
  · have hend : t = s := if_neg (by simpa using hleft)
    rw [hend]
    refine ⟨?_, rfl, rfl, rfl, rfl, hteam, fun h => absurd h hleft⟩
    rw [hls, if_neg hleft]
    have hu := (la.unseen_token l1 r).trans htok
    generalize la.unseen l1 r = x at hu ⊢
    rw [← hu]

section
variable {s : State} {lid k u : Nat} {l : Launch} {tm : Team} {r : Round} (hl : tget lid s.launches = some l)
  (hn : s.nextRound lid = some (k, u)) (ht : tget (tidOf lid u) s.teams = some tm) (hr : (tm.rounds.find? fun r => r.k == k) = some r)
include hl hn ht hr

/-- The round at the token applies (R221). -/
theorem roundApply_applies :
    let s1 := s.opened lid l tm r k u
    let a := s1.applyToks lid (tidOf lid u) (tm.seesRound k) r.toks
    ∃ t la l', exec (.roundApply lid) s = .next t ∧ tget lid a.1.launches = some la ∧ tget lid t.launches = some l' ∧
      l' = { la.unseen (l.opened tm r k u) r with token := if a.2 = [] then (k, u + 1) else (k, u) } ∧
      t.mem = s.mem ∧ t.groups = s.groups ∧ t.ops = a.1.ops ∧ t.errors = a.1.errors ∧
      (tget (tidOf lid u) t.teams).map (·.rounds) = some (if a.2 = [] then tm.rounds.filter fun r => r.k != k
        else tm.rounds.map fun r => if r.k == k then { r with plain := {}, toks := a.2 } else r) ∧
      (a.2 = [] → ∀ f x, f ≠ lid → sourceOf f = lid → tget f a.1.launches = some x → x.fixed = false →
        tget f t.launches = some { x with base := la.total, fixed := true }) := by
  intro s1 a
  have hx : exec (.roundApply lid) s = .next (a.1.roundEnd lid k u (l.opened tm r k u) r tm a.2) := by
    rw [← State.applyRound_eq hl ht hr]
    show execRoundApply lid s = _
    unfold execRoundApply
    rw [hn]
  obtain ⟨hgroups, htok, hteams⟩ := State.Applies.applyToks (lid := lid) s1 (tidOf lid u) (tm.seesRound k) r.toks
  have h1 : tget lid s1.launches = some ((l.opened tm r k u).seenAt tm r) := by
    show tget lid (tmod lid _ s.launches) = _
    rw [tget_tmod_same, hl]; rfl
  rw [h1, Option.map_some, Launch.seenAt_token] at htok
  obtain ⟨la, hla, hlat⟩ := Option.map_eq_some_iff.1 htok
  have hteam : (tget (tidOf lid u) a.1.teams).isSome = true := hteams _ (by
    show (tget (tidOf lid u) (tmod (tidOf lid u) _ s.teams)).isSome = true
    rw [tget_tmod_same, ht]; rfl)
  obtain ⟨hl', hg, hops, herr, hmem, hrounds, hfixed⟩ :=
    State.roundEnd_frame (l1 := l.opened tm r k u) (r := r) (tm := tm) (left := a.2) hla hteam hlat
  refine ⟨_, la, _, hx, hla, hl', rfl, hmem.trans (applyToks_kept ..).2, hg.trans hgroups, hops, herr, ?_, hfixed⟩
  rw [hrounds]
  exact congrArg some (if_congr beq_iff_eq rfl rfl)

/-- A round of plain writes alone. -/
theorem roundApply_plain (htoks : r.toks = []) :
    ∃ t l', exec (.roundApply lid) s = .next t ∧
      tget lid t.launches = some l' ∧ l'.total = l.total.andThen r.plain ∧ l'.token = (k, u + 1) ∧
      (r.full = false → l'.now = l.now.apply r.plain) ∧ (r.full = true → l'.now = (l.now.apply r.plain).apply l'.total) ∧
      (tget (tidOf lid u) t.teams).map (·.rounds) = some (tm.rounds.filter fun r => r.k != k) ∧ t.mem = s.mem ∧ t.groups = s.groups := by
  obtain ⟨t, la, l', hx, hla, hl', rfl, hmem, hgroups, -, -, hrounds, -⟩ := roundApply_applies hl hn ht hr
  rw [htoks] at hla hl' hrounds
  have hla' : la = (l.opened tm r k u).seenAt tm r := by
    have h1 : tget lid (s.opened lid l tm r k u).launches = some ((l.opened tm r k u).seenAt tm r) := by
      show tget lid (tmod lid _ s.launches) = _
      rw [tget_tmod_same, hl]; rfl
    exact Option.some.inj (hla.symm.trans h1)
  subst hla'
  refine ⟨t, _, hx, hl', ?_, rfl, fun hf => ?_, fun hf => ?_, hrounds, hmem, hgroups⟩
  · unfold Launch.unseen Launch.seenAt
    cases r.full <;> rfl
  · unfold Launch.unseen Launch.seenAt
    rw [hf]
    rfl
  · unfold Launch.unseen Launch.seenAt
    rw [hf]
    rfl

end

end Sys2Proof.Machine
end

section
/-! CLAIM. The events of a grid: its operations at the token, its close and its completion (R24, R225, R245, R280). -/

namespace Sys2Proof.Machine

/-! ### The operations of a round (R176, R177, R245, R246, R307, R309) -/

section
variable {s : State} {lid : Nat} {l : Launch} (hl : tget lid s.launches = some l)
include hl

theorem applyTok_cpyc (tid : Nat) (early : Bool) (gid : Nat) (lanes : List (Nat × Nat × W64 × W64)) (o : Nat) (ty : Ty) (sat fetch : Bool)
    (slot : Option (Nat × W32)) (hold : Option Nat) :
    let n := ty.bits / 8
    let r := l.readModify early (lanes.map fun x =>
      (x.2.1, n, (fun old => cpycNew o ty sat old x.2.2.1.toNat x.2.2.2.toNat), gid, x.1 / 4))
    let t := (s.putL lid r.1).noteReads tid (lanes.foldl (fun ls x => nins (x.2.1 / 128) ls) [])
    let olds := (List.range 32).flatMap fun i =>
      leBytes n (((((lanes.map (·.1)).zip r.2.1).find? fun x => x.1 == i).map (·.2)).getD 0)
    let u := (if fetch then t.slotBytesAt tid slot olds else t).fillSlot tid slot (if r.2.2 then 3 else 2) none
    s.applyTok lid tid early gid (.cpyc lanes o ty sat fetch slot hold) = some (hold.elim u fun id =>
      { u with ops := tmod id (fun o => { o with state := .done 2 }) u.ops }) := by
  intro n r t olds u
  unfold State.applyTok
  rw [hl]
  cases hold <;> rfl

theorem applyTok_mdrm (tid : Nat) (early : Bool) (gid : Nat) (es : List (Nat × W64)) (ty : Ty) (sat : Bool) (tile : Nat) :
    s.applyTok lid tid early gid (.mdrm es ty sat tile) = some { s.putL lid (l.readModify early (es.map fun x =>
        (x.1, drainElem ty, (fun old => applyOp .add ty sat old x.2.toNat), gid, 16 + tile))).1 with
      errors := s.errors ++ (es.filter fun x => l.now.bad x.1 (drainElem ty)).map fun x => .error (.memory x.1) } := by
  unfold State.applyTok
  rw [hl]

theorem applyTok_alloc (tid : Nat) (early : Bool) (gid : Nat) (ins : Bool) (ls : List (Nat × Nat × Nat × Nat)) (h : W64)
    (slot : Option (Nat × W32)) (clr : Bool) :
    let app : App := { tm := { s := s, cid := lidCtx lid, img := l.now } }
    let r := app.alloc ins h.toNat ls
    s.applyTok lid tid early gid (.alloc ins ls h slot) = some (((s.putL lid { l.put r.1.w early with
      trees := nins h.toNat l.trees }).slotBytesAt tid slot (allocSlot r.2).1).fillSlot tid slot (allocSlot r.2).2 none) ∧
    s.applyTok lid tid early gid (.vact clr ls h) = some (s.putL lid { l.put (app.vact clr h.toNat ls).w early with
      trees := nins h.toNat l.trees }) := by
  intro app r
  unfold State.applyTok
  rw [hl]
  exact ⟨rfl, rfl⟩

/-! ### EMIT (R280, R281) -/

end

/-- A number of a launch's memory as it stands. -/
abbrev State.launchNum (t : State) (lid va n : Nat) : Nat := ((tget lid t.launches).map fun l => t.gridNum (lidCtx lid) l va n).getD 0

theorem launchNum_eq (t : State) (lid va n : Nat) :
    (match tget lid t.launches with | some l => t.gridNum (lidCtx lid) l va n | none => 0) = t.launchNum lid va n := by
  unfold State.launchNum
  cases tget lid t.launches <;> rfl

section
variable {s : State} {lid : Nat} {l : Launch} (hl : tget lid s.launches = some l)
include hl

theorem applyTok_emit (tid : Nat) (early : Bool) (gid : Nat) (node : LRec) (bytes : List (Option Byte)) (rec : FaultRec) :
    let i := s.launchNum lid (node.aux.toNat + 8) 8
    let bc := max node.gz 1
    let b := i / bc
    let blk := node.aux.toNat + 64 + b % 4 * (64 + node.gz * node.gy)
    let key := lidOf (lidCtx lid) (lidKey lid + (b - 4) + 1)
    let emit := s.applyTok lid tid early gid (.emit node bytes rec)
    let waits := i % bc = 0 ∧ 4 ≤ b ∧ s.isDone key = false
    let put := fun (t : State) va n x => t.gridPut lid va ((leBytes n x).map some) early
    (waits → emit = none) ∧
    (¬waits → 2 ^ 16 ≤ b + 1 → emit = some (s.modT (gidTid gid) fun t =>
      if t.emitFault.any fun x => x.1 == gid then t else { t with emitFault := t.emitFault ++ [(gid, rec)] })) ∧
    (¬waits → b + 1 < 2 ^ 16 →
      let t0 := if i % bc = 0 then put (put s blk 4 0) (blk + 4) 4 b else s
      let nrec := t0.launchNum lid blk 4
      let t1 := t0.gridPut lid (blk + 64 + i % bc * node.gy) bytes early
      let t2 := (put (put t1 blk 4 (nrec + 1)) (node.aux.toNat + 8) 8 (i + 1)).modL lid fun l =>
        if l.nodes.contains node then l else { l with nodes := l.nodes ++ [node] }
      (nrec + 1 ≠ bc → emit = some t2) ∧
      (nrec + 1 = bc → emit = some (put (t2.form lid node b false) (node.aux.toNat + 16) 4 (t2.launchNum lid (node.aux.toNat + 16) 4 + 1)))) := by
  have hi : s.launchNum lid (node.aux.toNat + 8) 8 = s.gridNum (lidCtx lid) l (node.aux.toNat + 8) 8 := by
    unfold State.launchNum
    rw [hl]; rfl
  rw [hi]
  intro i bc b blk key emit waits put
  have hw : (s.emitWaits lid l node).isSome = true ↔ waits := by
    show (if (i % bc == 0 && decide (4 ≤ b) && !s.isDone key) = true then some key else none).isSome = true ↔ waits
    split <;> simp_all [waits, and_assoc]
  have hx : emit = s.applyEmit lid gid early node bytes rec := by
    show s.applyTok lid tid early gid (.emit node bytes rec) = _
    unfold State.applyTok
    rw [hl]
  unfold State.applyEmit at hx
  rw [hl] at hx
  dsimp -zeta only at hx
  extract_lets -useContext cid aux i' bc' b' blk' put' s₁ nrec' s₂ s₃ s₄ nb at hx
  have hi' : i' = i := rfl
  clear_value i' i
  subst hi'
  refine ⟨fun h => hx.trans (if_pos (hw.2 h)), fun h hb => hx.trans ((if_neg fun hc => h (hw.1 hc)).trans (if_pos hb)), fun h hb => ?_⟩
  intro t0 nrec t1 t2
  have h0 : s₁ = t0 := if_congr beq_iff_eq rfl rfl
  clear_value s₁
  subst h0
  clear_value t0
  have hnrec : nrec' = nrec := launchNum_eq ..
  clear_value nrec'
  subst hnrec
  clear_value nrec
  have h2 : s₄ = t2 := rfl
  clear_value s₄
  subst h2
  clear_value t2
  have hnb : nb = t2.launchNum lid (node.aux.toNat + 16) 4 := launchNum_eq ..
  clear_value nb
  subst hnb
  have hend : emit = if (nrec + 1 == bc') = true then some (put' (t2.form lid node b' false) (aux + 16) 4
      (t2.launchNum lid (node.aux.toNat + 16) 4 + 1)) else some t2 :=
    hx.trans ((if_neg fun hc => h (hw.1 hc)).trans (if_neg (Nat.not_le.2 hb)))
  exact ⟨fun hne => hend.trans (if_neg (by simpa using hne)), fun he => hend.trans (if_pos (by simpa using he))⟩

end

/-- The launch that EMIT forms (R281). -/
theorem form_launch {s : State} {lid : Nat} {l : Launch} (hl : tget lid s.launches = some l) (node : LRec) (b : Nat) (fixed : Bool) :
    ∃ f, s.form lid node b fixed = s.putL (lidOf (lidCtx lid) (lidKey lid + b + 1)) f ∧ f.base = l.total ∧ f.fixed = fixed ∧
      f.state = .submitted ∧ f.seen = l.seen ∧ f.early = l.early ∧ f.lr = { node with
        gy := 1, gz := 1, node := false, aux := 0,
        args := BitVec.ofNat 64 (node.aux.toNat + 64 + b % 4 * (64 + node.gz * node.gy)) } := by
  unfold State.form
  rw [hl]
  exact ⟨_, rfl, rfl, rfl, rfl, rfl, rfl, rfl⟩

/-! ### Groups that leave the close (R216, R227, R281) -/

theorem closingRec_frame (s : State) (gid code : Nat) : (s.closingRec gid code).code = code ∧ (s.closingRec gid code).closing = true := by
  unfold State.closingRec
  split <;> exact ⟨rfl, rfl⟩

theorem closeFaults_codes (s : State) (tm : Team) (taker : Option Nat) (gid : Nat) (g : Group) :
    (s.closeFaults tm taker gid g).map (·.code) =
      g.owed.toList ++ (tm.emitFault.filter fun x => x.1 == gid).map (·.2.code) ++ (if taker = some gid then [0x10] else []) := by
  unfold State.closeFaults
  have howed : (g.owed.map (s.closingRec gid)).toList.map (·.code) = g.owed.toList := by
    cases g.owed with
    | none => rfl
    | some c => exact congrArg (fun c => [c]) (closingRec_frame s gid c).1
  have htaker : (if taker == some gid then [s.closingRec gid 0x10] else []).map (·.code) = if taker = some gid then [0x10] else [] := by
    by_cases h : taker = some gid
    · simp [h, (closingRec_frame s gid 0x10).1]
    · simp [h]
  rw [List.map_append, List.map_append, howed, htaker, List.map_map]
  rfl

theorem closeFaults_closing (s : State) (tm : Team) (taker : Option Nat) (gid : Nat) (g : Group) :
    ∀ r ∈ s.closeFaults tm taker gid g, r.closing = true := by
  unfold State.closeFaults
  intro r hr
  rw [List.mem_append, List.mem_append] at hr
  rcases hr with (hr | hr) | hr
  · rw [Option.mem_toList, Option.map_eq_some_iff] at hr
    obtain ⟨c, -, rfl⟩ := hr
    exact (closingRec_frame ..).2
  · obtain ⟨x, -, rfl⟩ := List.mem_map.1 hr
    rfl
  · split at hr
    · rw [List.mem_singleton] at hr
      rw [hr]
      exact (closingRec_frame ..).2
    · cases hr

theorem leaveGrid_of {s : State} {tm : Team} {taker : Option Nat} {gid : Nat} {g : Group} :
    (s.closeFaults tm taker gid g = [] → s.leaveGrid tm taker gid g = s.release gid 255) ∧
      ∀ r rest, s.closeFaults tm taker gid g = r :: rest → s.leaveGrid tm taker gid g = faultGroup (s.modG gid fun g =>
        { g.modSub 255 (fun x => { x with park := .none }) with owed := none, due := rest }) gid 255 r := by
  unfold State.leaveGrid
  exact ⟨fun h => by rw [h], fun r rest h => by rw [h]⟩

/-! ### The close of a D-interval (R225) -/

theorem State.Acts.launches {gid : Nat} {s t : State} (h : s.Acts gid t) : t.launches = s.launches := by
  obtain ⟨gs, ts, cs, es, rs, rfl, -⟩ := h
  rfl

theorem leaveGrid_launches (s : State) (tm : Team) (taker : Option Nat) (gid : Nat) (g : Group) :
    (s.leaveGrid tm taker gid g).launches = s.launches := by
  unfold State.leaveGrid
  split
  · exact (s.release_acts gid 255).launches
  · exact (faultGroup_acts ..).launches

theorem raiseDue_launches (s : State) (due : List (Nat × Nat × Nat)) : (s.raiseDue due).launches = s.launches := by
  refine foldl_launches ?_ _ _
  intro u d
  split
  · obtain ⟨gs, hgs⟩ := u.tileFlush_groups d.1
    rw [hgs]
    rfl
  · rfl

theorem undoInterval_frame (s : State) (lid : Nat) (l : Launch) :
    (s.undoInterval lid l).tstep = l.tstep ∧ (s.undoInterval lid l).trees = l.trees := ⟨rfl, rfl⟩

theorem dClose_launch {s : State} {lid : Nat} {l : Launch} (hl : tget lid s.launches = some l) :
    ∃ l', tget lid (s.dClose lid).launches = some l' ∧
      l'.snap = l'.now ∧ l'.nowAtClose = l'.now ∧ l'.totalAtClose = l'.total ∧ l'.trigAtClose = l'.trig ∧ l'.flagsDue = [] ∧
      l'.trees = l.trees ∧
      l'.tstep = (if (s.teamsOf lid).any (fun t => t.2.atGrid == some true) then l.tstep + 1 else l.tstep) := by
  unfold State.dClose
  rw [hl]
  dsimp -zeta only
  extract_lets ts guilty l1 sees app due regs ts' gb l2 l3 held held' s1 full taker s2 s3
  have h1 : s1.launches = tput lid l3 s.launches := raiseDue_launches ..
  have h3 : s3.launches = tput lid l3 s.launches := by
    refine (foldl_launches ?_ _ _).trans h1
    exact fun _ _ => rfl
  have hl1 : l1.tstep = l.tstep ∧ l1.trees = l.trees := by
    show (if guilty == [] then l else s.undoInterval lid l).tstep = _ ∧ (if guilty == [] then l else s.undoInterval lid l).trees = _
    split
    · exact ⟨rfl, rfl⟩
    · exact undoInterval_frame s lid l
  refine ⟨l3, ?_, rfl, rfl, rfl, rfl, rfl, hl1.2, ?_⟩
  · refine (congrArg (tget lid) ((foldl_launches ?_ ts s3).trans h3)).trans (tget_tput_same ..)
    intro u t
    refine foldl_launches (fun v g => ?_) _ u
    split
    · exact leaveGrid_launches ..
    · rfl
  · rw [← hl1.1]
    rfl

/-! ### The completion of a grid (R24, R280) -/

theorem gridComplete_ends {s : State} {lid : Nat} {l : Launch} (hl : tget lid s.launches = some l) (hc : s.completeReady lid = true) :
    ∃ t, exec (.gridComplete lid) s = .next t ∧ (tget lid t.launches).map (·.state) = some (.done 0) ∧
      (∀ k, tidLid k = lid → tget k t.teams = none) ∧ t.mem = s.mem := by
  have hx : exec (.gridComplete lid) s = execGridComplete lid s := rfl
  unfold execGridComplete at hx
  rw [hc, hl] at hx
  rw [if_neg (show ¬(!true) = true from Bool.false_ne_true)] at hx
  dsimp -zeta only at hx
  extract_lets early s1 s2 at hx
  have h1 : s.Applies lid s1 := foldl_of_steps (R := State.Applies lid) .refl .trans _ (fun u node _ => by
    dsimp only
    split
    · exact (State.Applies.gridPut ..).trans (State.Applies.form ..)
    · exact .refl u) s
  obtain ⟨l1, hl1⟩ := h1.launch hl
  have h2 : s2.launches = s1.launches.map fun x => (x.1, l1.fixedAt lid x.1 x.2) :=
    congrArg State.launches (State.fixFormed_of hl1)
  have hkept : s.Kept s2 := by
    refine .trans (foldl_kept (fun u node => ?_) _ s) (fixFormed_kept ..)
    dsimp only
    split
    · exact (gridPut_kept ..).trans (form_kept ..)
    · exact ⟨rfl, rfl⟩
  refine ⟨_, hx, ?_, fun k hk => ?_, ((dropTeams_kept ..).2.trans ?_).trans hkept.2⟩
  · rw [State.dropTeams_launches]
    show (tget lid (tmod lid _ s2.launches)).map (·.state) = _
    rw [tget_tmod_same, h2, tget_map, hl1]
    rfl
  · rw [State.dropTeams_teams, tget_none_iff]
    intro x hx e
    have := (List.mem_filter.mp hx).2
    simp [e, hk] at this
  · rfl

end Sys2Proof.Machine
end

section
/-! CLAIM. The events of a grid, put together (R24, R220, R221, R225, R280, R289). -/

namespace Sys2Proof.Machine

/-! ### The operations of a round, in turn -/

theorem applyToks_steps (s : State) (lid tid : Nat) (early : Bool) :
    s.applyToks lid tid early [] = (s, []) ∧ ∀ g op rest,
    (s.applyTok lid tid early (tid * 64 + g) op = none → s.applyToks lid tid early ((g, op) :: rest) = (s, (g, op) :: rest)) ∧
    ∀ t, s.applyTok lid tid early (tid * 64 + g) op = some t →
      s.applyToks lid tid early ((g, op) :: rest) = t.applyToks lid tid early rest := by
  refine ⟨rfl, fun g op rest => ⟨fun h => ?_, fun t h => ?_⟩⟩ <;>
  · rw [State.applyToks, h]

theorem readModify_steps (l : Launch) (early : Bool) :
    l.readModify early [] = (l, [], false) ∧ ∀ key n gid slot (f : Nat → Nat × Nat) ws,
    (l.now.bad key n = true → l.readModify early [(key, n, f, gid, slot)] = (l, [0], true)) ∧
    (l.now.bad key n = false → let r := f (mnat l.now.data key n)
      l.readModify early [(key, n, f, gid, slot)] = ({ l.put { b := cells key (leBytes n r.1) } early with
        flagsDue := if r.2 = 0 then l.flagsDue else l.flagsDue ++ [(gid, slot, r.2)] }, [mnat l.now.data key n], false)) ∧
    (let x := l.readModify early [(key, n, f, gid, slot)]; let y := x.1.readModify early ws;
      l.readModify early ((key, n, f, gid, slot) :: ws) = (y.1, x.2.1 ++ y.2.1, x.2.2 || y.2.2)) := by
  refine ⟨rfl, fun key n gid slot f ws => ⟨fun h => ?_, fun h => ?_, Launch.readModify_cons l early _ ws⟩⟩
  · exact (if_pos h : modifyStep early (l, [], false) (key, n, f, gid, slot) = _)
  · intro r
    refine (if_neg (Bool.eq_false_iff.1 h) : modifyStep early (l, [], false) (key, n, f, gid, slot) = _).trans ?_
    exact congrArg (fun fd => ({ l.put { b := cells key (leBytes n r.1) } early with flagsDue := fd }, [mnat l.now.data key n], false))
      (if_congr (beq_iff_eq (a := r.2) (b := 0)) rfl rfl)

theorem cpycNew_cases (ty : Ty) (sat : Bool) (old a b : Nat) :
    cpycNew 0 ty sat old a b = applyOp .add ty sat old a ∧ cpycNew 1 ty sat old a b = (old ||| a, 0) ∧
    cpycNew 2 ty sat old a b = (old &&& a, 0) ∧ cpycNew 3 ty sat old a b = applyOp .min ty sat old a ∧
    cpycNew 4 ty sat old a b = applyOp .max ty sat old a ∧ cpycNew 5 ty sat old a b = (a, 0) ∧
    cpycNew 6 ty sat old a b = (if old = a then b else old, 0) :=
  ⟨rfl, rfl, rfl, rfl, rfl, rfl, congrArg (·, 0) (if_congr beq_iff_eq rfl rfl)⟩

theorem reclaim_lists (a : App) : a.reclaim [] = a ∧ ∀ hv h ar top lim fl pl, a.tm.header hv = .ok h → h.arenas.dedup = [ar] →
    a.tm.arena ar = .ok (top, lim, fl, pl) → (pl = 0 → a.reclaim [hv] = a) ∧
      ∀ b c d, pl ≠ 0 → a.put (a.tailOf a.tm.img.data.length pl) 8 fl = .ok b → b.put (ar + 16) 8 pl = .ok c →
        c.put (ar + 24) 8 0 = .ok d → a.reclaim [hv] = d := by
  refine ⟨rfl, fun hv h ar top lim fl pl hh hd ha => ⟨fun h0 => ?_, fun b c d h0 hb hc hd' => ?_⟩⟩
  · subst h0
    exact (App.reclaim_one hh hd).trans (App.reclaimArena_none ha)
  · exact (App.reclaim_one hh hd).trans (App.reclaimArena_links ha h0 hb hc hd')

theorem alloc_lanes (a : App) (hv lane x y z : Nat) (ls : List (Nat × Nat × Nat × Nat)) :
    let one := fun ins => a.alloc ins hv [(lane, x, y, z)]
    (∀ ins, let more := (one ins).1.alloc ins hv ls
      (a.alloc ins hv ((lane, x, y, z) :: ls)).1 = more.1 ∧
      (a.alloc ins hv ((lane, x, y, z) :: ls)).2 = (one ins).2 ++ more.2) ∧
    (∀ w ins, (a.tm.header hv = .error w ∨ ∃ h, a.tm.header hv = .ok h ∧ a.tm.goodPath h ⟨x, y, z⟩ = .error w) →
      ∃ st, one ins = (a, [(lane, 0, st)]) ∧ (st = 3 ∨ st = 4)) ∧
    (∀ h p, a.tm.header hv = .ok h → a.tm.goodPath h ⟨x, y, z⟩ = .ok p →
      (p.leaf ≠ 0 → one true = (a, [(lane, p.leaf, 0)])) ∧ (p.leaf = 0 → one false = (a, [(lane, 0, 0)])) ∧
      (p.leaf ≠ 0 → ∃ b hd st, one false = (b, [(lane, hd, st)]) ∧ (hd, st) ∈ [(p.leaf, 1), (0, 3), (0, 4)] ∧ (st ≠ 1 → b = a)) ∧
      (p.leaf = 0 → p.lower ≠ 0 → p.upper ≠ 0 → ∀ top lim fl pl,
        let ar := (h.arenas[h.owner (Pt.origin ⟨x, y, z⟩ 8)]?).getD 0
        let free := (top + 63) / 64 * 64
        a.tm.arena ar = .ok (top, lim, fl, pl) →
        (fl = 0 → lim < free + leafBytes h.vt → one true = (a, [(lane, 0, 2)])) ∧
        (fl ≠ 0 ∨ free + leafBytes h.vt ≤ lim → ∃ b hd st, one true = (b, [(lane, hd, st)]) ∧
          (hd, st) ∈ [(if fl ≠ 0 then fl else ar + free, 1), (0, 3), (0, 4)])) ∧
      (∀ clr, (p.leaf = 0 → a.vact clr hv [(lane, x, y, z)] = a) ∧ (p.leaf ≠ 0 → ∀ old b,
        let at' := p.leaf + 64 + 4 * (Pt.voxel ⟨x, y, z⟩ / 32)
        let bit := 2 ^ (Pt.voxel ⟨x, y, z⟩ % 32)
        a.tm.num at' 4 = .ok old → a.put at' 4 (if clr then old &&& (2 ^ 32 - 1 - bit) else old ||| bit) = .ok b →
          a.vact clr hv [(lane, x, y, z)] = b))) := by
  refine ⟨fun ins => ?_, fun w ins h => App.alloc_unread ins h, fun h p hh hp =>
    ⟨fun hl => App.alloc_one_ok (App.insert_present hh hp hl), fun hl => App.alloc_one_ok (App.remove_absent hh hp hl), fun hl => ?_,
      fun hl hlo hup top lim fl pl ha => ⟨fun hf hlim => App.alloc_one_error (App.insert_full hh hp hl hlo hup ha hf hlim),
        fun hf => ?_⟩,
      fun clr => ⟨fun hl => App.vact_absent hh hp hl clr, fun hl old b ho hb => App.vact_present hh hp hl ho hb⟩⟩⟩
  · rw [App.alloc_cons]
    exact ⟨rfl, rfl⟩
  · rcases App.alloc_one_lasts (lane := lane) (ins := false) (App.remove_present hh hp hl) with ⟨b, hd, st, he, h1⟩ | ⟨st, h1, hst⟩
    · obtain ⟨rfl, rfl⟩ := Prod.mk.inj he
      exact ⟨b, _, _, h1, by simp, fun hne => absurd rfl hne⟩
    · refine ⟨a, 0, st, h1, ?_, fun _ => rfl⟩
      rcases hst with rfl | rfl <;> simp
  · rcases App.alloc_one_lasts (lane := lane) (ins := true) (App.insert_leaf hh hp hl hlo hup ha hf) with ⟨b, hd, st, he, h1⟩ | ⟨st, h1, hst⟩
    · obtain ⟨rfl, rfl⟩ := Prod.mk.inj he
      exact ⟨b, _, _, h1, .head _⟩
    · refine ⟨a, 0, st, h1, ?_⟩
      rcases hst with rfl | rfl <;> simp

/-! ### Rounds that the token has not come to (R28) -/

theorem roundApply_early {s : State} {lid k u : Nat} {l : Launch} (hl : tget lid s.launches = some l) (hn : s.nextRound lid = none)
    (he : s.earlyRound lid = some (k, u)) :
    exec (.roundApply lid) s = .next ((s.applyRound lid k u).modL lid fun x => { x with token := l.token }) := by
  show execRoundApply lid s = _
  unfold execRoundApply State.storeRound
  rw [hn, he, hl]

theorem earlyRound_first {s : State} {lid k u : Nat} (he : s.earlyRound lid = some (k, u)) :
    s.allAtClose lid = true ∧ (∃ x ∈ s.teamsOf lid, x.2.team = u ∧ ∃ r ∈ x.2.rounds, r.k = k) ∧
    ∀ y ∈ s.teamsOf lid, ∀ r ∈ y.2.rounds, k < r.k ∨ k = r.k ∧ u ≤ y.2.team := by
  rw [State.earlyRound_eq] at he
  split at he
  case isFalse => cases he
  case isTrue hall =>
    have mem_left : ∀ p, p ∈ s.pairsLeft lid ↔ ∃ x ∈ s.teamsOf lid, ∃ r ∈ x.2.rounds, (r.k, x.2.team) = p := fun p => by
      simp only [State.pairsLeft, List.mem_flatMap, List.mem_map]
    obtain ⟨hmem, hfirst, -⟩ := foldl_earlier he
    obtain ⟨x, hx, r, hr, hxr⟩ := (mem_left _).1 (hmem.resolve_right nofun)
    obtain ⟨hk, hu⟩ := Prod.mk.inj hxr
    exact ⟨hall, ⟨x, hx, hu, r, hr, hk⟩, fun y hy r hr => hfirst _ ((mem_left _).2 ⟨y, hy, r, hr, rfl⟩)⟩

/-- Settles O33: round by round at the token, each operation by its rule, then the close and the completion. -/
theorem gridEventsComplete : Obligations.GridEventsComplete := by
  unfold Obligations.GridEventsComplete
  intro s lid l hl
  refine ⟨fun k u tm r hn ht hr htoks => roundApply_plain hl hn ht hr htoks, ?_, applyToks_steps s lid, readModify_steps l, ?_,
    cpycNew_cases, fun tid early gid es ty sat tile => applyTok_mdrm hl tid early gid es ty sat tile, ?_, reclaim_lists, alloc_lanes, ?_,
    fun k u hn he => roundApply_early hl hn he, fun k u => earlyRound_first, State.closeReady_iff, ?_, ?_,
    gridComplete_ends hl⟩
  · intro k u tm r hn ht hr
    exact roundApply_applies hl hn ht hr
  · intro tid early gid lanes o ty sat fetch slot hold
    exact applyTok_cpyc hl tid early gid lanes o ty sat fetch slot hold
  · intro tid early gid ins ls h slot clr
    exact applyTok_alloc hl tid early gid ins ls h slot clr
  · intro tid early gid node bytes rec
    obtain ⟨hwaits, hfault, hgoes⟩ := applyTok_emit hl tid early gid node bytes rec
    exact ⟨hwaits, hfault, hgoes, form_launch hl node⟩
  · intro tm taker gid g
    exact ⟨closeFaults_codes s tm taker gid g, closeFaults_closing s tm taker gid g, leaveGrid_of⟩
  · intro hc
    obtain ⟨l', hl', hclose⟩ := dClose_launch hl
    obtain ⟨h1, h2, h3, h4, h5, h6, h7⟩ := hclose
    exact ⟨_, l', congrArg Host.Outcome.next (if_pos hc), hl', h1, h2, h3, h4, h5, h6, h7, (dClose_kept ..).2⟩

end Sys2Proof.Machine
end

section
/-! CLAIM. The scheduler: promotion and admission (R18 to R23, R282, R289). -/

namespace Sys2Proof.Machine

/-! ### Promotion -/

/-- A launch with what it sees fixed: a formed one whose round is held up sees its source as it stands (log entry 27). -/
abbrev State.based (s : State) (lid : Nat) (l : Launch) : Launch :=
  if l.fixed = true then l else { l with base := ((tget (sourceOf lid) s.launches).getD {}).total, fixed := true }

theorem State.based_lr (s : State) (lid : Nat) (l : Launch) : (s.based lid l).lr = l.lr := by
  unfold State.based
  split <;> rfl

section
variable {s : State} {lid : Nat} {l : Launch} {c : Ctx} (hl : tget lid s.launches = some l) (hc : tget (lidCtx lid) s.ctxs = some c)
  (hst : l.state = .submitted)
include hl hc hst

theorem promoteOne_waits (hd : s.depState lid l = none) : s.promoteOne lid = s := by
  unfold State.promoteOne
  simp [hl, hc, hst, hd]

theorem promoteOne_fails (hd : s.depState lid l = some false) : s.promoteOne lid = s.putL lid { l with state := .done 6 } := by
  unfold State.promoteOne
  simp [hl, hc, hst, hd]

theorem promoteOne_refused {st : Nat} (hd : s.depState lid l = some true) (hr : l.refusal = some st) :
    s.promoteOne lid = s.putL lid { l with state := .done st } := by
  unfold State.promoteOne
  simp [hl, hc, hst, hd, hr]

theorem promoteOne_eligible (hd : s.depState lid l = some true) (hr : l.refusal = none) (hdies : ∀ d ∈ c.dies l.lr.l, s.dieUse d < 256) :
    s.promoteOne lid = s.makeEligible lid l := by
  unfold State.promoteOne
  simp [hl, hc, hst, hd, hr]
  intro d hd' hfull
  exact absurd (hdies d hd') (Nat.not_lt.2 hfull)

theorem promoteOne_full {d : Nat} (hmem : d ∈ c.dies l.lr.l) (hd : s.depState lid l = some true) (hr : l.refusal = none)
    (hfull : 256 ≤ s.dieUse d) : s.promoteOne lid = s := by
  unfold State.promoteOne
  simp [hl, hc, hst, hd, hr]
  intro hall
  exact absurd (hall d hmem) (Nat.not_lt.2 hfull)

end

/-- A launch as it becomes eligible: its code and its snapshot are taken. -/
abbrev Launch.taken (l : Launch) (code img : Image) (trees : List Nat) : Launch :=
  { l with state := .eligible, code := code, snap := img, now := img, nowAtClose := img, trees := trees }

/-- A leaf launch has a team for each leaf. -/
abbrev Launch.overLeaves (l : Launch) (ls : List (Nat × Pt)) : Launch :=
  { l with lr := { l.lr with gx := ls.length, gy := 1, gz := 1 }, leaves := ls.map fun x => (BitVec.ofNat 64 x.1, x.2.x, x.2.y, x.2.z) }

/-- The active leaves of a tree; a tree that does not read has none (log entry 60). -/
def TreeMem.leavesAt (m : TreeMem) (va : Nat) : List (Nat × Pt) :=
  match (do m.activeLeaves (← m.header va) : Walk (List (Nat × Pt))) with | .ok x => x | .error _ => []

theorem TreeMem.leavesAt_read {m : TreeMem} {va : Nat} {h : Hdr} {ls : List (Nat × Pt)} (hh : m.header va = .ok h) (hls : m.activeLeaves h = .ok ls) :
    m.leavesAt va = ls := by
  unfold TreeMem.leavesAt
  rw [hh, walk_ok_bind, hls]

theorem TreeMem.leavesAt_unread {m : TreeMem} {va : Nat} {x : Nat × Nat}
    (hx : m.header va = .error x ∨ ∃ h, m.header va = .ok h ∧ m.activeLeaves h = .error x) : m.leavesAt va = [] := by
  unfold TreeMem.leavesAt
  rcases hx with hx | ⟨h, hh, hx⟩
  · rw [hx, walk_error_bind]
  · rw [hh, walk_ok_bind, hx]

theorem makeEligible_eq (s : State) (lid : Nat) (l : Launch) :
    let l' := s.based lid l
    let img := s.visible lid l'
    let t := l'.taken (hImage s) img (if l'.lr.leaf then [l'.lr.aux.toNat] else [])
    let ls := TreeMem.leavesAt { s := s, cid := lidCtx lid, img := img } l'.lr.aux.toNat
    s.makeEligible lid l = if !l'.lr.leaf then s.putL lid t
      else s.putL lid (if ls == [] then { t.overLeaves ls with state := .done 0 } else t.overLeaves ls) := rfl

theorem makeEligible_grid {s : State} {lid : Nat} {l : Launch} (hleaf : l.lr.leaf = false) :
    let l' := s.based lid l
    s.makeEligible lid l = s.putL lid (l'.taken (hImage s) (s.visible lid l') []) := by
  intro l'
  have hleaf' : l'.lr.leaf = false := (congrArg LRec.leaf (s.based_lr lid l)).trans hleaf
  rw [makeEligible_eq, hleaf']
  rfl

theorem makeEligible_leaves {s : State} {lid : Nat} {l : Launch} (hleaf : l.lr.leaf = true) :
    let l' := s.based lid l
    let img := s.visible lid l'
    let ls := TreeMem.leavesAt { s := s, cid := lidCtx lid, img := img } l'.lr.aux.toNat
    s.makeEligible lid l = s.putL lid { (l'.taken (hImage s) img [l'.lr.aux.toNat]).overLeaves ls with
      state := if ls = [] then .done 0 else .eligible } := by
  intro l' img ls
  have hleaf' : l'.lr.leaf = true := (congrArg LRec.leaf (s.based_lr lid l)).trans hleaf
  rw [makeEligible_eq, hleaf']
  show s.putL lid (if (ls == []) = true then { (l'.taken (hImage s) img [l'.lr.aux.toNat]).overLeaves ls with state := .done 0 }
    else (l'.taken (hImage s) img [l'.lr.aux.toNat]).overLeaves ls) = _
  clear_value ls
  cases ls <;> rfl

/-! ### Admission -/

theorem foldl_putG {α : Type} (k : α → Nat) (v : α → Group) (gs : List α) (s : State) :
    gs.foldl (fun s g => s.putG (k g) (v g)) s = { s with groups := gs.foldl (fun t g => tput (k g) (v g) t) s.groups } := by
  induction gs generalizing s with
  | nil => rfl
  | cons g gs ih => exact ih _

theorem gidOf_inj {tid u g h : Nat} (hg : g < 64) (hh : h < 64) (e : gidOf tid g = gidOf u h) : tid = u ∧ g = h := by
  unfold gidOf at e
  omega

theorem tidOf_inj {lid u v : Nat} (e : tidOf lid u = tidOf lid v) : u = v := by
  unfold tidOf at e
  omega

/-- A team as its core admits it (R24). -/
def State.Admitted (s : State) (lid : Nat) (l : Launch) (u : Nat) : Prop :=
  tget (tidOf lid u) s.teams = some { team := u, leaf := l.leaves[u]? } ∧
    ∀ g, g < l.lr.groups → tget (gidOf (tidOf lid u) g) s.groups = some (l.newGroup g)

section
variable {lid : Nat} {l : Launch} (h64 : l.lr.groups ≤ 64)

theorem admitTeam_frame (s : State) (lid : Nat) (l : Launch) (u : Nat) :
    s.admitTeam lid l u = { s with teams := tput (tidOf lid u) { team := u, leaf := l.leaves[u]? } s.teams,
                                   groups := (List.range l.lr.groups).foldl
                                     (fun t g => tput (gidOf (tidOf lid u) g) (l.newGroup g) t) s.groups } := foldl_putG ..

include h64

theorem admitTeam_groups (u : Nat) (t : Tab Group) :
    let gs := (List.range l.lr.groups).foldl (fun t g => tput (gidOf (tidOf lid u) g) (l.newGroup g) t) t
    (∀ g < l.lr.groups, tget (gidOf (tidOf lid u) g) gs = some (l.newGroup g)) ∧
      ∀ v g, v ≠ u → g < l.lr.groups → tget (gidOf (tidOf lid v) g) gs = tget (gidOf (tidOf lid v) g) t := by
  have hlt : ∀ g ∈ List.range l.lr.groups, g < 64 := fun g hg => (List.mem_range.1 hg).trans_le h64
  have hnodup : ((List.range l.lr.groups).map fun g => gidOf (tidOf lid u) g).Nodup :=
    List.Nodup.map_on (fun a ha b hb e => (gidOf_inj (hlt a ha) (hlt b hb) e).2) List.nodup_range
  obtain ⟨hin, hout⟩ := tget_foldl_tput (fun g => gidOf (tidOf lid u) g) l.newGroup (List.range l.lr.groups) t hnodup
  refine ⟨fun g hg => hin g (List.mem_range.2 hg), fun v g hv hg => hout _ fun hmem => ?_⟩
  obtain ⟨h, hh, e⟩ := List.mem_map.1 hmem
  exact hv (tidOf_inj (gidOf_inj (hlt h hh) (hg.trans_le h64) e).1).symm

theorem admitTeam_admits (s : State) (u : Nat) : (s.admitTeam lid l u).Admitted lid l u := by
  rw [admitTeam_frame]
  exact ⟨tget_tput_same .., (admitTeam_groups h64 u s.groups).1⟩

theorem admitTeam_keeps {s : State} {v : Nat} (u : Nat) (h : s.Admitted lid l v) : (s.admitTeam lid l u).Admitted lid l v := by
  by_cases hv : v = u
  · rw [hv]
    exact admitTeam_admits h64 s u
  · rw [admitTeam_frame]
    exact ⟨(tget_tput_ne _ _ fun e => hv (tidOf_inj e)).trans h.1, fun g hg => ((admitTeam_groups h64 u s.groups).2 v g hv hg).trans (h.2 g hg)⟩

theorem admitTeams_admit (ts : List Nat) (s : State) {u : Nat} (hu : u ∈ ts ∨ s.Admitted lid l u) :
    (ts.foldl (fun s t => s.admitTeam lid l t) s).Admitted lid l u := by
  induction ts generalizing s with
  | nil => exact hu.resolve_left List.not_mem_nil
  | cons t ts ih =>
    refine ih _ ?_
    rcases hu with hu | hu
    · rcases List.mem_cons.1 hu with rfl | hu
      · exact .inr (admitTeam_admits h64 s _)
      · exact .inl hu
    · exact .inr (admitTeam_keeps h64 t hu)

end

theorem admitTeams_frame (lid : Nat) (l : Launch) (ts : List Nat) (s : State) :
    ∃ tms gs, ts.foldl (fun s t => s.admitTeam lid l t) s = { s with teams := tms, groups := gs } := by
  induction ts generalizing s with
  | nil => exact ⟨_, _, rfl⟩
  | cons u ts ih =>
    obtain ⟨tms, gs, h⟩ := ih (s.admitTeam lid l u)
    exact ⟨tms, gs, h.trans (by rw [admitTeam_frame])⟩

theorem admitTeam_plan {s : State} {core lid : Nat} {ts : List Nat} {l : Launch} (hp : s.admitPlan core = some (lid, ts))
    (hl : tget lid s.launches = some l) : exec (.admitTeam core) s = .next (ts.foldl (fun s t => s.admitTeam lid l t) s) := by
  show execAdmitTeam core s = _
  unfold execAdmitTeam
  rw [hp]
  dsimp only
  rw [hl]

end Sys2Proof.Machine
end

section
/-! CLAIM. The retirement of groups and teams (R24, R229), and the scheduler's events put together. -/

namespace Sys2Proof.Machine

/-! ### What a retiring group joins -/

/-- A step of a group's joining: its team's data may change, the group stays with its results and its records, and the launches stay. -/
def State.Joins (gid : Nat) (s t : State) : Prop :=
  (∀ tm, tget (gidTid gid) s.teams = some tm → ∃ d, tget (gidTid gid) t.teams = some { tm with data := d }) ∧
    (∀ g, tget gid s.groups = some g → ∃ g', tget gid t.groups = some g' ∧ g'.pend = g.pend ∧ g'.recs = g.recs) ∧ t.launches = s.launches

namespace State.Joins
variable {gid : Nat} {s t u : State}

theorem refl (s : State) : s.Joins gid s := ⟨fun tm h => ⟨tm.data, h⟩, fun g h => ⟨g, h, rfl, rfl⟩, rfl⟩

theorem trans (h : s.Joins gid t) (h' : t.Joins gid u) : s.Joins gid u := by
  refine ⟨fun tm htm => ?_, fun g hg => ?_, h'.2.2.trans h.2.2⟩
  · obtain ⟨d, hd⟩ := h.1 tm htm
    obtain ⟨d', hd'⟩ := h'.1 _ hd
    exact ⟨d', hd'⟩
  · obtain ⟨g1, hg1, hp, hr⟩ := h.2.1 g hg
    obtain ⟨g2, hg2, hp', hr'⟩ := h'.2.1 g1 hg1
    exact ⟨g2, hg2, hp'.trans hp, hr'.trans hr⟩

theorem joinOp (s : State) (mask id : Nat) : s.Joins gid (s.joinOp gid mask id) := by
  unfold State.joinOp
  split
  · next o g l _ hg _ =>
    refine ⟨fun tm htm => ⟨_, (tget_tmod_same (gidTid gid) _ s.teams).trans (congrArg (Option.map _) htm)⟩,
      fun g0 hg0 => ⟨_, tget_tput_same .., ?_⟩, rfl⟩
    cases hg.symm.trans hg0
    exact ⟨rfl, rfl⟩
  · exact refl s

end State.Joins

/-- A retiring group is one gang without pending results or records. -/
theorem retireJoin_leaves {s : State} {gid : Nat} {tm : Team} {g : Group} (ht : tget (gidTid gid) s.teams = some tm)
    (hg : tget gid s.groups = some g) (t : Team) :
    let u := s.retireJoin gid t
    (∃ d, tget (gidTid gid) u.teams = some { tm with data := d }) ∧ (∃ g', tget gid u.groups = some g' ∧ g'.pend = [] ∧ g'.recs = []) ∧
      u.launches = s.launches := by
  let one := s.modG gid fun g => let g := (g.collapse 255 0).merge 255 (g.pcOf 255); { g with recs := [], pend := [] }
  intro u
  have hu : one.Joins gid u := foldl_of_steps .refl .trans _ (fun v o _ => by
    split
    · exact .refl v
    · exact .joinOp ..) one
  obtain ⟨hteam, hgroup, hlaunches⟩ := hu
  refine ⟨hteam tm ht, ?_, hlaunches⟩
  have h1 : tget gid one.groups = some (let g := (g.collapse 255 0).merge 255 (g.pcOf 255); { g with recs := [], pend := [] }) := by
    show tget gid (tmod gid _ s.groups) = _
    rw [tget_tmod_same, hg]; rfl
  exact hgroup _ h1

theorem Group.cmitT_frame (g : Group) (t : Team) : (g.cmitT t).lines = [] ∧ (g.cmitT t).pend = g.pend ∧ (g.cmitT t).recs = g.recs := by
  unfold Group.cmitT
  dsimp only
  split <;> exact ⟨rfl, rfl, rfl⟩

/-! ### Queues at retirement -/

theorem Queue.skip_fdone (left : List Nat) (q : Queue) (n : Nat) : (Queue.skip left q n).1.fdone = q.fdone := by
  induction n generalizing q with
  | zero => rfl
  | succ n ih =>
    unfold Queue.skip
    dsimp only
    split
    · exact ih _
    · rfl

/-- The queues of a team once the slots of those that have left are skipped. -/
def Team.skipped (t : Team) : Tab Queue := t.queues.foldl (fun acc x => tput x.1 (Queue.skip t.left x.2 x.2.slots).1 acc) t.queues

theorem Team.skipped_eq (t : Team) : (t.queues.foldl (fun (acc : Tab Queue × List Nat) x =>
    (tput x.1 (Queue.skip t.left x.2 x.2.slots).1 acc.1, acc.2 ++ (Queue.skip t.left x.2 x.2.slots).2)) (t.queues, [])).1 = t.skipped :=
  (List.foldl_hom (g₂ := fun acc (x : Nat × Queue) => tput x.1 (Queue.skip t.left x.2 x.2.slots).1 acc) Prod.fst fun _ _ => rfl).symm

theorem Team.skipped_fdone {t : Team} (hn : (tkeys t.queues).Nodup) {q : Nat} {x : Queue} (hq : tget q t.queues = some x) :
    (tget q t.skipped).map (·.fdone) = some x.fdone := by
  obtain ⟨hin, -⟩ := tget_foldl_tput (fun x : Nat × Queue => x.1) (fun x => (Queue.skip t.left x.2 x.2.slots).1) t.queues t.queues hn
  rw [Team.skipped, hin _ (mem_of_tget hq)]
  exact congrArg some (Queue.skip_fdone ..)

theorem skipQueues_team {s : State} {tid : Nat} {t : Team} (ht : tget tid s.teams = some t) :
    (s.skipQueues tid).teams = tput tid { t with queues := t.skipped } s.teams ∧ (s.skipQueues tid).groups = s.groups ∧
      (s.skipQueues tid).launches = s.launches := by
  unfold State.skipQueues
  rw [ht]
  have hqs := congrArg (fun qs : Tab Queue => tput tid ({ t with queues := qs } : Team) s.teams) t.skipped_eq
  exact ⟨hqs, rfl, rfl⟩

/-! ### The last round of a team -/

/-- What a T-close leaves of a team: all but its data, its ordered values and the count of its T-intervals. -/
theorem tClose_team {s : State} {tid : Nat} {t : Team} (ht : tget tid s.teams = some t) (all : Bool) :
    ∃ d m o a n, tget tid (s.tClose tid all).1.teams = some { t with data := d, dmem := m, ordered := o, ordAct := a, tcount := n } ∧
      (s.tClose tid all).1.launches = s.launches := by
  unfold State.tClose
  rw [ht]
  exact ⟨_, _, _, _, _, tget_tput_same .., rfl⟩

theorem commit_team {s : State} {tid : Nat} {t : Team} {l : Launch} (ht : tget tid s.teams = some t)
    (hl : tget (tidLid tid) s.launches = some l) : tget tid (s.commit tid true).teams = some (t.commitD l) := by
  unfold State.commit
  rw [ht, hl]
  exact tget_tput_same ..

/-- The last group's leave is the implicit CMIT.D: one more round, and the team is retired (R24). -/
theorem retireTeam_leaves {s : State} {tid : Nat} {t : Team} {l : Launch} (ht : tget tid s.teams = some t)
    (hl : tget (tidLid tid) s.launches = some l) :
    (∃ t', tget tid (s.retireTeam tid).teams = some t' ∧ t'.left = t.left ∧ t'.pins = t.pins ∧ t'.queues = t.queues ∧
      t'.retired = true ∧ t'.atGrid = none ∧ t'.nrounds = t.nrounds + 1) ∧
    ∀ k < 2 ^ 200, gidTid k = tid → tget k (s.retireTeam tid).groups = none := by
  unfold State.retireTeam
  extract_lets s1 left s2 s3
  have h1 : ∃ d m o a n, tget tid s1.teams = some { t with data := d, dmem := m, ordered := o, ordAct := a, tcount := n } ∧
      s1.launches = s.launches := tClose_team ht true
  clear_value s1
  obtain ⟨d, m, o, a, n, ht1, hl1⟩ := h1
  have h2 : ∃ d m o a n, tget tid s2.teams = some { t with data := d, dmem := m, ordered := o, ordAct := a, tcount := n } ∧
      s2.launches = s.launches := by
    show ∃ d m o a n, tget tid (if left = true then (s1.tClose tid true).1 else s1).teams = _ ∧
      (if left = true then (s1.tClose tid true).1 else s1).launches = _
    split
    · obtain ⟨d', m', o', a', n', ht2, hl2⟩ := tClose_team ht1 true
      exact ⟨d', m', o', a', n', ht2, hl2.trans hl1⟩
    · exact ⟨d, m, o, a, n, ht1, hl1⟩
  clear_value s2
  obtain ⟨d, m, o, a, n, ht2, hl2⟩ := h2
  have h3 := commit_team ht2 (l := l) (by rw [hl2]; exact hl)
  refine ⟨⟨_, (tget_tmod_same tid _ (s2.commit tid true).teams).trans (congrArg (Option.map _) h3), rfl, rfl, rfl, rfl, rfl, rfl⟩,
    fun k hk hkt => tget_none_iff.2 fun p hp e => ?_⟩
  have hkept := (List.mem_filter.1 hp).2
  subst e
  rw [hkt, bne_self_eq_false, Bool.or_false, decide_eq_true_eq] at hkept
  exact absurd hkept (Nat.not_le.2 hk)

/-! ### A group leaves its team -/

/-- A queue whose filler leaves is at its end. -/
abbrev Queue.without (q : Queue) (gid : Nat) : Queue := if q.inited && q.filler == gidG gid then { q with fdone := true } else q

theorem Queue.without_fdone (q : Queue) (gid : Nat) : (q.without gid).fdone = (q.fdone || (q.inited && q.filler == gidG gid)) := by
  unfold Queue.without
  split
  · next h => rw [h, Bool.or_true]
  · next h => rw [Bool.eq_false_iff.2 h, Bool.or_false]

/-- A team without a group. -/
abbrev Team.without (t : Team) (gid : Nat) : Team :=
  { t with left := nins (gidG gid) t.left, pins := t.pins.filter fun p => p.2 != gidG gid, queues := t.queues.map fun q => (q.1, q.2.without gid) }

theorem groupRetire_leaves {s : State} {gid : Nat} {tm : Team} {l : Launch} (hr : s.retireReady gid = true)
    (ht : tget (gidTid gid) s.teams = some tm) (hl : tget (tidLid (gidTid gid)) s.launches = some l) :
    let last := ∀ g < l.lr.groups, g = gidG gid ∨ g ∈ tm.left
    ∃ t tm', exec (.groupRetire gid) s = .next t ∧ tget (gidTid gid) t.teams = some tm' ∧ t.mem = s.mem ∧
      tm'.left = nins (gidG gid) tm.left ∧ tm'.pins = tm.pins.filter (fun p => p.2 != gidG gid) ∧
      ((tkeys tm.queues).Nodup → ∀ q x, tget q tm.queues = some x →
        (tget q tm'.queues).map (·.fdone) = some (x.fdone || (x.inited && x.filler == gidG gid))) ∧
      (last → tm'.retired = true ∧ tm'.atGrid = none ∧ tm'.nrounds = tm.nrounds + 1 ∧
        ∀ k < 2 ^ 200, gidTid k = gidTid gid → tget k t.groups = none) ∧
      (¬last → tm'.retired = tm.retired ∧ tm'.nrounds = tm.nrounds ∧ ∃ g', tget gid t.groups = some g' ∧ g'.pend = [] ∧ g'.recs = [] ∧
        g'.lines = []) := by
  intro last
  obtain ⟨g, hg⟩ : ∃ g, tget gid s.groups = some g := by
    unfold State.retireReady at hr
    split at hr
    · next g _ hg _ => exact ⟨g, hg⟩
    · cases hr
  have hx : exec (.groupRetire gid) s = execGroupRetire gid s := rfl
  unfold execGroupRetire at hx
  rw [hr, if_neg (show ¬(!true) = true from Bool.false_ne_true)] at hx
  extract_lets tid gone at hx
  rw [show tget tid s.teams = some tm from ht, show tget (tidLid tid) s.launches = some l from hl] at hx
  dsimp -zeta only at hx
  extract_lets -useContext s1 s2 s3 s4 at hx
  obtain ⟨⟨d, ht1⟩, ⟨g1, hg1, hp1, hr1⟩, hl1⟩ := retireJoin_leaves ht hg tm
  have ht3 : tget tid s3.teams = some (Team.without { tm with data := d } gid) := by
    show tget tid (tmod tid _ s1.teams) = _
    rw [tget_tmod_same, ht1]; rfl
  have hg3 : tget gid s3.groups = some (g1.cmitT tm) := by
    show tget gid (tmod gid _ s1.groups) = _
    rw [tget_tmod_same, hg1]; rfl
  have hl3 : s3.launches = s.launches := hl1
  have hm3 : s3.mem = s.mem := (retireJoin_kept s gid tm).2
  clear_value s3
  obtain ⟨h4t, h4g, h4l⟩ := skipQueues_team ht3
  have hqs : (tkeys tm.queues).Nodup → ∀ q x, tget q tm.queues = some x →
      (tget q (Team.without { tm with data := d } gid).skipped).map (·.fdone) = some (x.fdone || (x.inited && x.filler == gidG gid)) := by
    intro hn q x hq
    rw [← Queue.without_fdone]
    refine Team.skipped_fdone ?_ ?_
    · show (tkeys (tm.queues.map fun q => (q.1, q.2.without gid))).Nodup
      unfold tkeys at hn ⊢
      rwa [List.map_map]
    · exact (tget_map (fun _ (q : Queue) => q.without gid) tm.queues q).trans (congrArg _ hq)
  generalize (Team.without { tm with data := d } gid).skipped = qs at h4t hqs
  have ht4 : tget tid s4.teams = some { Team.without { tm with data := d } gid with queues := qs } := by
    show tget tid (s3.skipQueues tid).teams = _
    rw [h4t]
    exact tget_tput_same ..
  have hg4 : tget gid s4.groups = some (g1.cmitT tm) := (congrArg (tget gid) h4g).trans hg3
  have hl4 : s4.launches = s.launches := h4l.trans hl3
  have hm4 : s4.mem = s.mem := (skipQueues_kept s3 tid).2.trans hm3
  clear_value s4
  have hlast : ((List.range l.lr.groups).all fun g => ((tget tid s4.teams).getD tm).left.contains g) = true ↔ last := by
    rw [ht4, Option.getD_some, List.all_eq_true]
    simp only [List.mem_range, List.contains_iff_mem, mem_nins, last]
  by_cases hall : last
  · obtain ⟨⟨t', ht', hleft, hpins, hq, hret, hat, hrounds⟩, hgone⟩ := retireTeam_leaves (l := l) ht4 (by rw [hl4]; exact hl)
    refine ⟨_, t', hx.trans (congrArg _ (if_pos (hlast.2 hall))), ht', (retireTeam_kept ..).2.trans hm4, hleft, hpins, ?_,
      fun _ => ⟨hret, hat, hrounds, hgone⟩, fun h => absurd hall h⟩
    rw [hq]
    exact hqs
  · obtain ⟨hlines, hpend, hrecs⟩ := g1.cmitT_frame tm
    exact ⟨_, _, hx.trans (congrArg _ (if_neg fun h => hall (hlast.1 h))), ht4, hm4, rfl, rfl, hqs, fun h => absurd h hall,
      fun _ => ⟨rfl, rfl, _, hg4, hpend.trans hp1, hrecs.trans hr1, hlines⟩⟩

/-- Settles O34: promotion and admission case by case; a group that leaves, and the last one, by what each step of the retirement leaves. -/
theorem schedulerEventsComplete : Obligations.SchedulerEventsComplete := by
  unfold Obligations.SchedulerEventsComplete
  intro s
  refine ⟨fun _ => rfl, fun lid l c hl hc hst => ⟨promoteOne_waits hl hc hst, promoteOne_fails hl hc hst, fun _ => promoteOne_refused hl hc hst,
    ?_, ?_, fun d hd hdep hr hfull => promoteOne_full hl hc hst hd hdep hr hfull⟩, ?_, fun gid tm l => groupRetire_leaves⟩
  · intro hd hr hdies hleaf l' img
    exact (promoteOne_eligible hl hc hst hd hr hdies).trans (makeEligible_grid hleaf)
  · intro hd hr hdies hleaf l' img m promoted
    have h : promoted (m.leavesAt l'.lr.aux.toNat) := (promoteOne_eligible hl hc hst hd hr hdies).trans (makeEligible_leaves hleaf)
    refine ⟨fun hdr ls hh hls => ?_, fun x hx => ?_⟩
    · rwa [TreeMem.leavesAt_read hh hls] at h
    · rwa [TreeMem.leavesAt_unread hx] at h
  · intro core lid ts l hp hl h64 _
    obtain ⟨tms, gs, hframe⟩ := admitTeams_frame lid l ts s
    exact ⟨_, admitTeam_plan hp hl, by rw [hframe], fun u hu => admitTeams_admit h64 ts s (.inl hu)⟩

end Sys2Proof.Machine
end
